-- ==== Sys2Proof/Word.lean ====
section
/-!
DEFINITION. The words of the GL8 (R8, R10) and the plainest arithmetic over them.
-/
namespace Sys2Proof

/-- One byte of a memory (R10: least significant byte at the lowest address). -/
abbrev Byte := BitVec 8

/-- A 32-bit word: lace words, vector lanes, flip notices, one half of a register. -/
abbrev W32 := BitVec 32

/-- A 64-bit word: a register as the host reads it whole (R12). -/
abbrev W64 := BitVec 64

/-- A 128-bit op word (R211). -/
abbrev OpWord := BitVec 128

/-- The four queues of a core, in the order M, V, S, X the spec resolves them in (R211, R218). -/
inductive Queue where
  | m | v | s | x
deriving DecidableEq, Repr

/-- The queue number of the op layout and of the queue registers (R211, R238). -/
def Queue.num : Queue → Nat
  | .m => 0
  | .v => 1
  | .s => 2
  | .x => 3

/-- The limits of a signed integer of `n` bits. -/
def sMin (n : Nat) : Int := -(2 ^ (n - 1) : Nat)

/-- The largest signed integer of `n` bits. -/
def sMax (n : Nat) : Int := (2 ^ (n - 1) : Nat) - 1

/-- `sat` of R16: clamps an exact value to a signed width. -/
def satS (n : Nat) (x : Int) : Int := if x < sMin n then sMin n else if sMax n < x then sMax n else x

/-- Clamps an exact value to an unsigned width. -/
def satU (n : Nat) (x : Int) : Int := if x < 0 then 0 else if (2 ^ n : Nat) - 1 < x then (2 ^ n : Nat) - 1 else x

/-- A saturating counter of `n` bits (the counters of the register tables saturate at their maximum). -/
def satAdd (n a b : Nat) : Nat := if a + b < 2 ^ n then a + b else 2 ^ n - 1

/-- Quotient towards zero (R16). -/
def tdiv0 (a b : Int) : Int := Int.tdiv a b

/-- `x` rounded up to a multiple of `m`. -/
def roundUp (x m : Nat) : Nat := (x + m - 1) / m * m

/-- Number of units of `m` that cover `x`. -/
def ceilDiv (x m : Nat) : Nat := (x + m - 1) / m

/-- The numbers `a, a+1, ... , b-1`. -/
def rangeFrom (a b : Nat) : List Nat := (List.range (b - a)).map (a + ·)

/-- Bits `[lo + w - 1 : lo]` of a word, as a number (R11). -/
def bitsOf {n : Nat} (x : BitVec n) (lo w : Nat) : Nat := (x.extractLsb' lo w).toNat

/-- Bit `i` of a word. -/
def bitOf {n : Nat} (x : BitVec n) (i : Nat) : Bool := x.getLsbD i

/-- A signed field of a word (two's complement, R10). -/
def sbitsOf {n : Nat} (x : BitVec n) (lo w : Nat) : Int := (x.extractLsb' lo w).toInt

end Sys2Proof
end

