-- ==== Sys2Proof/Syntax.lean ====
section
/-!
DEFINITION. The commands of the block: one constructor of `Instr` per row of spec/opcode_table.json, with the
row's operands, and the small types those operands have.
-/
namespace Sys2Proof

/-- A sync message (R253). -/
inductive SyncMsg where
  | arrive (bid count : Nat) (drain : Bool)
  | release (bid target : Nat) (exact dlset : Bool) (dlctr : Nat) (install : Bool)
  | counter (dcore ctr n : Nat) (set : Bool) (route hc dpkg : Nat)
  | stage (part : Nat) (half : Bool) (seed : BitVec 48)
  | stop (part code : Nat)
deriving DecidableEq, Repr

/-- A message of a link SYNC flit: a sync message of R253 or a link-only kind of R384. -/
inductive LinkMsg where
  | sync (msg : SyncMsg)
  | larrive (bid count : Nat) (drain : Bool)
  | lrelease (bid : Nat) (dlset : Bool) (dlctr : Nat) (install : Bool)
  | nack (flits : Nat)
  | unreach (score port : Nat)
deriving DecidableEq, Repr

/-- A link flit as its receiver decodes it (R369). -/
inductive LinkFlit where
  | idle
  | notices (dpkg spkg : Nat) (items : List W32)
  | send (dpkg spkg score dcore : Nat) (dmem : Bool) (daddr : Nat) (last sig : Bool) (sctr : Nat)
      (pmask : BitVec 6) (data : List Byte)
  | partials (dpkg spkg score dcore tag ctr contrib : Nat) (fields : List (BitVec 96))
  | sync (dpkg spkg score : Nat) (msgs : List LinkMsg)
deriving DecidableEq, Repr

/-- Who puts flits into a die's rings: the ring stop at a position, or the bridge at one of its two taps (R260, R265). -/
inductive Injector where
  | stop
  | bridge
deriving DecidableEq, Repr

/-- How a release comes to be applied at a stop: it passes in the sync field of a slot, or the stop holds it; `late` says
that a notice accepted before it was still to be applied when its TARGET came (R256, R258). -/
inductive ReleaseCome where
  | passing (slot : Nat)
  | held (late : Bool)
deriving DecidableEq, Repr

/-- A core's stop and the slot whose sync field passes it (R241). -/
structure StopField where
  lid : Nat
  slot : Nat
deriving DecidableEq, Repr

/-- What the entropy source gives up to the completion of a block: its samples, and the outcome of the known-answer tests
if they come due (R431, R434). -/
structure EntropyIn where
  samples : List (BitVec 32)
  kat : Bool
deriving DecidableEq, Repr

/-- A DOE object: its length in bytes, and whether it is malformed (R412). -/
structure DoeObject where
  bytes : Nat
  malformed : Bool
deriving DecidableEq, Repr

/-- A flit's place on a peer link: the link, and which of the five flits of a group it is (R367). -/
structure LinkPlace where
  link : Nat
  flit : Nat
deriving DecidableEq, Repr

/-- One slot of one ring of one die (R241). -/
structure SlotRef where
  die : Nat
  ring : Nat
  slot : Nat
deriving DecidableEq, Repr

/-- What passes a station of a die's rings: the payload of a slot, or the sync field of a slot of ring 0 (R241). -/
structure Pass where
  ring : Nat
  slot : Nat
  field : Bool
deriving DecidableEq, Repr

/-- A pseudo-channel's queue for a partition (R341). -/
structure PcRef where
  p : Nat
  part : Nat
deriving DecidableEq, Repr

/-- The three memories of a core (R24). -/
inductive CoreMem where
  | lace | tile | op
deriving DecidableEq, Repr

/-- Whose scrub lap (R360). -/
inductive LapOwner where
  | stack (c : Nat)
  | core (lid : Nat)
deriving DecidableEq, Repr

/-- What MEMTEST tests (R504). -/
inductive MemTarget where
  | stack (c : Nat)
  | die (d : Nat)
deriving DecidableEq, Repr

/-- The argument of the monitor's RAW command (R504). -/
inductive RawArg where
  | on | off | all
  | osc (n : Nat)
deriving DecidableEq, Repr

/-- A frame of a binary transfer: one received with its data and CRC, or the receiver's answer (R505). -/
inductive FrameEvent where
  | received (data : List Byte) (crc : W32)
  | accepted
  | refused
deriving DecidableEq, Repr

/-- A physical core or stop (R21). -/
structure PhysRef where
  die : Nat
  row : Nat
  slot : Nat
deriving DecidableEq, Repr

/-- A register of configuration space by name: IDs, command, class code, a base address register, MSI-X control, table and
pending-bit-array locators, and the size register of the CXL range with its memory flags (R395, R396, R404). -/
inductive CfgReg where
  | ids | command | classCode
  | bar (n : Nat)
  | msixControl | msixTable | msixPba | range
deriving DecidableEq, Repr

/-- A register of the HDM decoder, among the CXL component registers of BAR4 (R395, R396, R403). -/
inductive DecoderReg where
  | base | size | control
deriving DecidableEq, Repr

/-- Where a host access goes: an offset in BAR0 or BAR2, a register of the HDM decoder, or one of configuration space
(R396). -/
inductive HostAddr where
  | bar0 (off : Nat)
  | bar2 (off : Nat)
  | decoder (reg : DecoderReg)
  | config (reg : CfgReg)
deriving DecidableEq, Repr

/-- A row of HBM in a pseudo-channel (R347). -/
structure RowRef where
  stack : Nat
  pc : Nat
  bank : Nat
  row : Nat
deriving DecidableEq, Repr

/-- The lanes a link came up on (R386). -/
inductive LaneResult where
  | down | pair01 | pair23 | four
deriving DecidableEq, Repr

/-- What training found on one link: its lanes, and the neighbour's identity frame: package ID and declared topology
(R389). -/
structure LinkFound where
  link : Nat
  lanes : LaneResult
  neighbour : Nat
  topology : Nat
  dimX : Nat
  dimY : Nat
  dimZ : Nat
deriving DecidableEq, Repr

/-- Heat 0: which rails regulated within 10 ms (R514). -/
structure Heat0In where
  rails : BitVec 20
deriving DecidableEq, Repr

/-- Heat 1: what the host link trained to (R392, R394); width 0 is no link. -/
structure Heat1In where
  width : Nat
  rate : Nat
  cxl : Bool
deriving DecidableEq, Repr

/-- Heat 2: crossings, sprue lanes and PLLs that trained (R448, R450). -/
structure Heat2In where
  crossings : BitVec 10
  lanes : BitVec 16
  plls : BitVec 10
deriving DecidableEq, Repr

/-- The narrowest eye of a stack's lines, in thousandths of a UI and in mV (R346, R448). -/
structure Eye where
  mui : BitVec 16
  mv : BitVec 16
deriving DecidableEq, Repr

/-- Heat 3: stack temperatures and, for each stack, the eye that its restored settings show and the one that a full training
leaves (R346, R348, R448). -/
structure Heat3In where
  temps : List (BitVec 8)
  restored : List Eye
  trained : List Eye
deriving DecidableEq, Repr

/-- Heat 4: rows that failed a test and the rows a hard repair could fix (R451, R452). -/
structure Heat4In where
  failed : List RowRef
  fixable : List RowRef
deriving DecidableEq, Repr

/-- An access row of an SRAM bank of a physical core that fails BIST (R356, R453). -/
structure SramRow where
  core : PhysRef
  mem : CoreMem
  bank : Nat
  row : Nat
deriving DecidableEq, Repr

/-- Heat 5: cores and stops that failed, and the SRAM rows that failed BIST (R453). -/
structure Heat5In where
  cores : List PhysRef
  stops : List PhysRef
  rows : List SramRow
deriving DecidableEq, Repr

/-- Heat 6: the first checker that gave another outcome, by kind 1 to 5 and number (R361, R429, R448). -/
structure Heat6In where
  checker : Option (Nat × Nat)
deriving DecidableEq, Repr

/-- Heat 7: ring and sprue tests and what link training found (R461). -/
structure Heat7In where
  rings : BitVec 8
  sprue : Bool
  found : List LinkFound
deriving DecidableEq, Repr

/-- Heat 8: for each round of test bars, the cores that failed with their failing engines (R462, R463). -/
structure Heat8In where
  rounds : List (List (PhysRef × BitVec 7))
deriving DecidableEq, Repr

/-- The commands of the GL8: one per row of spec/opcode_table.json (spec/95_what_each_step_holds.md). -/
inductive Instr where
  /-- NOP (R221): Queue op that does nothing and retires at issue. -/
  | nop (lid : Nat) (q : Queue)
  /-- CTR_ADD (R216): Adds N to a sync counter of the own core, another core of the partition, a host counter or a core of a peer package; it issues only after earlier ops of its queue have retired. -/
  | ctrAdd (lid : Nat) (q : Queue)
  /-- CTR_SET (R216): Sets a sync counter of the own core or of another core of the partition to N. -/
  | ctrSet (lid : Nat) (q : Queue)
  /-- CTR_TAKE (R218): Waits until the own counter is at least N, then subtracts N. -/
  | ctrTake (lid : Nat) (q : Queue)
  /-- CTR_LOOK (R218): Waits until the own counter is at least N without subtracting. -/
  | ctrLook (lid : Nat) (q : Queue)
  /-- CTR_DEC (R220): Subtracts N at once and raises SYNC_UNDERFLOW if the result would fall below 0. -/
  | ctrDec (lid : Nat) (q : Queue)
  /-- LOOP (R222): Pushes a loop level with a count, a count taken from a counter, or FOREVER, or skips to END + 1 when the count is 0. -/
  | loop (lid : Nat) (q : Queue)
  /-- ENDLOOP (R222): Decrements the innermost loop count and either branches back to the body start or pops the level. -/
  | endloop (lid : Nat) (q : Queue)
  /-- SELECT (R223): Pops POP loop levels and continues at the table entry that a counter value selects. -/
  | select (lid : Nat) (q : Queue)
  /-- HALT (R221): Stops the queue as a normal end. -/
  | halt (lid : Nat) (q : Queue)
  /-- BAR_ARRIVE (R225): Records RCTR and RVAL and presents the core's barrier arrival, which a stop holds until the drain conditions are met when DRAIN is set. -/
  | barArrive (lid : Nat) (q : Queue)
  /-- X_HBM (R228): Starts a move between HBM and the core's tile or lace memory, cut into HBM flits. -/
  | xHbm (lid : Nat)
  /-- X_SEND (R228): Starts a move from the core's memory to another core's memory, in this package or a peer package, as ring flits. -/
  | xSend (lid : Nat)
  /-- X_COPY (R228): Starts a copy within the core between tile and lace memory, one 64-byte unit per core cycle. -/
  | xCopy (lid : Nat)
  /-- MOVE_RETIRE (R228): A move retires when its last byte is written, or acknowledged for HBM writes, and ADDs 1 to SCTR when SIG is set. -/
  | moveRetire (lid mid : Nat)
  /-- MAC_TILE (R162): Writes a bank's tile parameters, which are taken at the bank's next open. -/
  | macTile (lid : Nat)
  /-- MAC_MM (R137): Pushes STEPS operand steps into a bank, opening or closing the tile as flagged, after the bank-state checks of R147. -/
  | macMm (lid : Nat)
  /-- MAC_DRAIN (R149): Hands a drain to the drain engine, which holds up to two drains. -/
  | macDrain (lid : Nat)
  /-- DRAIN_READ (R148): Once the close token has passed PE(31,31), the drain reads, converts and writes the bank rows, then empties the bank. -/
  | drainRead (lid : Nat)
  /-- SUA_PHASE (R91): Evaluates one colour of one replica in batches, applying the phase's rule and table and making the flips and group moves. -/
  | suaPhase (lid : Nat)
  /-- HELD_NOTICE_RELEASE (R92): After the phase's last batch has issued, notices held back because their directory colour equals the phase colour are applied in inbox order. -/
  | heldNoticeRelease (lid : Nat)
  /-- DEFERRED_UPDATE_APPLY (R93): After the phase's last batch has been decided, the conflict deferral buffer applies its held updates in the order they were generated. -/
  | deferredUpdateApply (lid : Nat)
  /-- SUA_BETA (R110): Writes β to a mask of replicas, either a given value or the anneal curve evaluated at CURVE. -/
  | suaBeta (lid : Nat)
  /-- SUA_CLAMP (R83): Applies a clamp list, setting or releasing clamp bits and flipping states that differ from VALUE. -/
  | suaClamp (lid : Nat)
  /-- SUA_SNAP (R97): Copies one replica's state plane to tile memory, packed or expanded. -/
  | suaSnap (lid : Nat)
  /-- SUA_CLRCOUNT (R99): Clears every on-count of one replica. -/
  | suaClrcount (lid : Nat)
  /-- SUA_SWEEP (R105): Adds 1 to SWEEP and CURVE, or raises RUN_SWEEP when SWEEP is at 65,535. -/
  | suaSweep (lid : Nat)
  /-- SUA_RESULT (R105): Adds 1 to RESULT and zeroes SWEEP, CURVE and RESTART; at the leader core it also captures the deadline and samples PENDING. -/
  | suaResult (lid : Nat)
  /-- SUA_RESTART_RESET (R111): Reset step: optionally clears states and sets the hot members, then sets field words to their biases. -/
  | suaRestartReset (lid : Nat)
  /-- SUA_RESTART_REPLAY (R112): Replay step: flips every unit in state 1 to rebuild the field words. -/
  | suaRestartReplay (lid : Nat)
  /-- VEC_LDT (R166): Loads registers from tile memory. -/
  | vecLdt (lid : Nat)
  /-- VEC_LDL (R166): Loads registers of 64 lace words. -/
  | vecLdl (lid : Nat)
  /-- VEC_STT (R166): Stores registers to tile memory. -/
  | vecStt (lid : Nat)
  /-- VEC_STL (R167): Stores registers to lace memory as full-word writes. -/
  | vecStl (lid : Nat)
  /-- VEC_ALU (R168): Lane-wise integer arithmetic, logic, shifts and comparisons. -/
  | vecAlu (lid : Nat)
  /-- VEC_FPU (R169): Lane-wise FP32 add, subtract, multiply and conversions. -/
  | vecFpu (lid : Nat)
  /-- VEC_RSUM (R171): Exact integer sum of n elements. -/
  | vecRsum (lid : Nat)
  /-- VEC_RSUMF (R175): Floating-point sum by the fixed pairwise tree. -/
  | vecRsumf (lid : Nat)
  /-- VEC_RMAX (R176): Maximum with lowest-index tie rule. -/
  | vecRmax (lid : Nat)
  /-- VEC_RMIN (R176): Minimum with lowest-index tie rule. -/
  | vecRmin (lid : Nat)
  /-- VEC_PSEND (R173): Sends lane pairs as 64-bit partials with tags and a sync counter. -/
  | vecPsend (lid : Nat)
  /-- VEC_PREAD (R174): Reads partial sum entries clamped to s64 and clears them. -/
  | vecPread (lid : Nat)
  /-- VEC_ENERGY (R178): Computes the energy partial and flag word of one replica. -/
  | vecEnergy (lid : Nat)
  /-- VEC_EFIN (R179): Forms energies and replica flag words from the summed partials at the leader. -/
  | vecEfin (lid : Nat)
  /-- VEC_XCHG (R180): Decides replica-exchange acceptance for the pairs of the step and writes the accepted and step masks. -/
  | vecXchg (lid : Nat)
  /-- VEC_SWAP (R181): Reads and writes back every pair of the step mask, exchanging the accepted pairs. -/
  | vecSwap (lid : Nat)
  /-- VEC_BESTK_CLEAR (R183): Clears all 32 best-k slots. -/
  | vecBestkClear (lid : Nat)
  /-- VEC_BESTK_ADMIT (R183): Admits the restart's candidates into the best-k list by R124 and returns the slot numbers. -/
  | vecBestkAdmit (lid : Nat)
  /-- VEC_BESTK_EMIT (R183): Writes the sorted best-k entries in the GA2 layout. -/
  | vecBestkEmit (lid : Nat)
  /-- VEC_PAIRCNT (R184): Counts samples with both ends of a coupling at 1 into the difference array. -/
  | vecPaircnt (lid : Nat)
  /-- VEC_WUPD (R185): Applies stochastically rounded changes to coupling entry weights. -/
  | vecWupd (lid : Nat)
  /-- VEC_TUPD (R186): Applies stochastically rounded changes to dense weights. -/
  | vecTupd (lid : Nat)
  /-- VEC_CREG (R187): Reads the own core's registers into a vector register, optionally clearing the W1C flags it has read. -/
  | vecCreg (lid : Nat)
  /-- PIC_FILL (R201): Writes picot uniforms of a purpose and draw index to tile memory. -/
  | picFill (lid : Nat)
  /-- FLIP_NOTICE_RECEIVE (R56): A ring stop matches a passing notice against the core's windows and accepts it into the inbox, where it is discarded at a gap or its mirror list is applied. -/
  | flipNoticeReceive (die pos ring slot : Nat)
  /-- NOTICE_EXPORT (R249): The first tap copies notices that match export windows into the bridge, which sends them to other dies or the link switch. -/
  | noticeExport (die ring slot : Nat)
  /-- PARTIAL_RECEIVE (R172): An arriving partial adds to its buffer entry, then ADDs its contribution count to the named counter. -/
  | partialReceive (die pos ring slot drain : Nat)
  /-- COUNTER_MESSAGE (R218): A ring stop hands a counter message to its core, which resolves changes, LOOK and TAKE waiters for that cycle. -/
  | counterMessage (lid : Nat) (meet : Option Pass)
  /-- SEND_FLIT_RECEIVE (R246): A stop takes a SEND flit into its receive buffer in source order, or lets it pass under the pass table. -/
  | sendFlitReceive (die pos ring slot drain : Nat)
  /-- FLIT_INJECT (R262): The head of a stop's injection FIFO takes a usable passing slot or owned slot, or joins a passing ARRIVE. -/
  | flitInject (die : Nat) (who : Injector) (place ring slot : Nat)
  /-- RESERVATION (R262): A FIFO head that has waited 576 core cycles reserves its home slot for injection. -/
  | reservation (die pos : Nat)
  /-- DIE_COMBINE (R255): The die combiner adds ARRIVE counts per BID and forwards a completed die count to the barrier root. -/
  | dieCombine (die : Nat) (meet : Option Pass)
  /-- BARRIER_ROOT_COMPLETE (R255): The root reaches EXPECTED, clears the count and sends the RELEASE, with DLSET and INSTALL, to the partition's bridges. -/
  | barrierRootComplete (bid : Nat)
  /-- BARRIER_RELEASE_APPLY (R256): A stop applies a RELEASE to its core, at TARGET or on arrival, ADDing RVAL to RCTR. -/
  | barrierReleaseApply (lid : Nat) (come : ReleaseCome)
  /-- SEED_STAGE (R257): A stop writes the STAGE seed halves to its seed staging register. -/
  | seedStage (meet : StopField)
  /-- HOLD_END (R273): A hold ends: the clocks restart and the kept release is sent with a new TARGET. -/
  | holdEnd (part : Nat)
  /-- EXTRA_REFRESH_HOLD (R275): A refresh debt that retention cannot defer holds the partition at the next core-cycle boundary. -/
  | extraRefreshHold (stack part : Nat)
  /-- PARTITION_STOP (R235): The partition stops issuing, abandons waits, enters STOPPED, records PAT_FAULT_p and raises the fault vector. -/
  | partitionStop (part : Nat)
  /-- SYNC_WATCHDOG (R227): A TAKE or LOOK that has waited LIMIT ticks raises SYNC_WATCHDOG. -/
  | syncWatchdog (lid : Nat) (q : Queue)
  /-- HOST_COUNTER_ADD (R233): A host write to a host counter's ADD field adds to VALUE or forwards launches. -/
  | hostCounterAdd (h : Nat) (n : BitVec 16)
  /-- HOST_TAKE (R232): A 32-bit read in the TAKE window atomically takes n when VALUE allows it and returns the old value or 0. -/
  | hostTake (h n : Nat)
  /-- HOST_COUNTER_PATTERN_ADD (R233): A pattern ADD reaches a host counter on E0 and is resolved before host access and watches. -/
  | hostCounterPatternAdd (h : Nat)
  /-- HOST_WATCH_WRITE (R234): A host rewrite of a watch, which fires when it is enabled with its counter already above. -/
  | hostWatchWrite (w : Nat) (v : BitVec 64)
  /-- MSIX_PENDING_SEND (R408): A pending MSI-X message is sent once its mask or bus-master condition ends. -/
  | msixPendingSend (vec : Nat)
  /-- CRC_REFILL (R424): Empties an input slot so that it refills for a held launch. -/
  | crcRefill (u slot : Nat)
  /-- CRC_RELEASE (R424): Forwards the held launch as for a block that is not GOOD. -/
  | crcRelease (u : Nat)
  /-- CRC_DROP (R424): Discards the held launch and empties the slot, counting it in DROPS. -/
  | crcDrop (u : Nat)
  /-- CRC_CONFIG_WRITE (R427): A host write of a unit's context, which takes effect only while EN is 0; EN = 1 is refused for an invalid POLY, WIDTH or HC. -/
  | crcConfigWrite (u off size : Nat) (v : BitVec 64)
  /-- VERIFY (R319): PAT command that starts verification of the image at PAT_IMAGE_ADDR. -/
  | verify
  /-- VERIFY_COMPLETE (R319): Verification ends with VERIFIED and PAT_VDIGEST, or REFUSED with a REASON. -/
  | verifyComplete
  /-- POUR (R321): PAT command that clears every die and begins landing the verified pattern. -/
  | pour
  /-- SECTION_LANDING (R321): A section lands and its digest is checked; a mismatch or uncorrectable word abandons the pour. -/
  | sectionLanding (i : Nat)
  /-- ARMING (R321): After the last landing or seed, M3 is extended, PAT_DIGEST written, partitions armed and queues started. -/
  | arming
  /-- DISARM (R324): PAT command that abandons a pour or resets and empties an armed pattern. -/
  | disarm
  /-- PATCH (R326): PAT command that schedules a verified patch for its partitions. -/
  | patch
  /-- PARTITION_RESET (R239): PAT RESET command that starts a partition reset of the partitions in MASK. -/
  | partitionReset (mask : BitVec 8)
  /-- RESET_COMPLETE (R239): A partition reset completes, reloading counters and restarting queues at ENTRY. -/
  | resetComplete (part : Nat)
  /-- KEY (R316): PAT command that enrols or revokes an owner key slot from a signed key record. -/
  | key
  /-- CKPT_SAVE_CONTINUE (R292): Checkpoint CMD 1: save at the next checkpoint point or at rest, then continue. -/
  | ckptSaveContinue (part : Nat) (resultOnly : Bool)
  /-- CKPT_SAVE_HOLD (R292): Checkpoint CMD 2: save, then stay held until RESUME. -/
  | ckptSaveHold (part : Nat) (resultOnly : Bool)
  /-- CKPT_HOLD (R292): Checkpoint CMD 3: hold without save. -/
  | ckptHold (part : Nat) (resultOnly : Bool)
  /-- CKPT_RESUME (R297): Ends a hold at the restored point or where the partition stopped. -/
  | ckptResume (part : Nat)
  /-- CKPT_RESTORE (R294): Restores a checkpoint from ADDR onto a held, resting or disarmed partition, then holds. -/
  | ckptRestore (part : Nat)
  /-- CKPT_HASH_DONE (R292): E0 finishes the checkpoint digest and STATUS becomes 1. -/
  | ckptHashDone (part : Nat)
  /-- NEXT_SEED_WRITE (R203): A host write of PAT_NEXT_SEED_p seed fields and PENDING, ignored while FILLING. -/
  | nextSeedWrite (part : Nat) (high : Bool) (size : Nat) (v : BitVec 64)
  /-- SEED_DRAW (R203): DRAW = 1 sets FILLING and requests a next seed from the DRBG. -/
  | seedDraw (part : Nat)
  /-- SEED_FILL_DONE (R203): The DRBG delivers the next seed: FILLING is cleared and PENDING set. -/
  | seedFillDone (part : Nat)
  /-- ENT_MODE_WRITE (R433): A write of MODE restarts the entropy source without counting a failure. -/
  | entModeWrite (mode : Bool)
  /-- ENT_RESEED (R436): Forces a DRBG reseed at the next available block. -/
  | entReseed
  /-- ENT_INSTANTIATE (R436): Instantiates the DRBG anew. -/
  | entInstantiate
  /-- ENT_RAND_READ (R441): An 8-byte read of ENT_RAND pops one DRBG value, or returns VALID 0. -/
  | entRandRead (size : Nat) (high : Bool)
  /-- ENTROPY_BLOCK (R431): A 512-bit conditioned block is completed and health-tested, feeding start-up, instantiation or reseed. -/
  | entropyBlock (r : EntropyIn)
  /-- DRBG_GENERATE (R435): The DRBG serves one queued consumer request in the order of R435, stretching or stalling when a reseed is due. -/
  | drbgGenerate
  /-- HBM_REQUEST (R340): A controller serves a READ or WRITE flit in its turn, returning read data as SEND flits. -/
  | hbmRequest (arrive : Option SlotRef) (serve : Option PcRef)
  /-- WRITE_ACK (R339): A controller acknowledges a committed WRITE flit to the source stop. -/
  | writeAck (lid : Nat)
  /-- REFPB (R344): A per-bank refresh issued at its interval or compiled frame slot. -/
  | refpb (p bank : Nat)
  /-- SCRUB_ACCESS (R358): The HBM scrubber reads one unit of a pseudo-channel in an idle cycle. -/
  | scrubAccess (p : Nat)
  /-- SRAM_SCRUB (R359): An SRAM bank scrubber reads a row, and rewrites pending corrections, in an idle cycle. -/
  | sramScrub (lid : Nat) (mem : CoreMem) (bank : Nat)
  /-- CORRECTED_WRITE_BACK (R351): A controller writes back a corrected HBM word from its pending table in an idle cycle. -/
  | correctedWriteBack (p : Nat)
  /-- ROW_REMAP_COPY (R356): A controller copies a faulty row into a spare row and switches the soft remap entry on. -/
  | rowRemapCopy (p bank row : Nat)
  /-- STACK_TEMPERATURE_READ (R343): A stack temperature read every 32 µs sets the required refresh class. -/
  | stackTemperatureRead (c : Nat) (t : BitVec 8)
  /-- LAP_OVERDUE (R360): The time since a stack's or core's last scrub lap exceeds its threshold. -/
  | lapOverdue (who : LapOwner)
  /-- CXLMEM_READ (R403): A host CXL.mem read of device memory, with poison indication and reserved-region handling. -/
  | cxlmemRead (addr len : Nat)
  /-- CXLMEM_WRITE (R403): A host CXL.mem write of device memory, as a partial write or carrying poison where applicable. -/
  | cxlmemWrite (addr : Nat) (data : List (Option (BitVec 8))) (poison : Bool)
  /-- REGISTER_WRITE (R13): A BAR0 write to a register without a row of its own, acting by field type. -/
  | registerWrite (dst : HostAddr) (size : Nat) (v : BitVec 64)
  /-- RC_READ (R401): A read of an RC field returns its value and clears it, keeping a same-cycle increment. -/
  | rcRead (src : HostAddr) (size : Nat)
  /-- CONVENTIONAL_RESET (R413): PERST#, hot reset or link-down resets the device and restarts bring-up. -/
  | conventionalReset
  /-- FUNCTION_LEVEL_RESET (R413): FLR disarms the pattern or pour and resets the HOST block. -/
  | functionLevelReset
  /-- DOE_DISCOVERY (R412): DOE request listing the supported protocols. -/
  | doeDiscovery (index : Nat)
  /-- CXL_TABLE_ACCESS (R412): DOE request returning the CDAT. -/
  | cxlTableAccess
  /-- GET_CERT (R489): Attestation request returning the device certificate. -/
  | getCert
  /-- QUOTE (R489): Attestation request returning a signed quote of the measurements, or a status. -/
  | quote (nonce : BitVec 256)
  /-- DOE_UNSUPPORTED (R412): A malformed DOE object or unsupported protocol gets no response and is counted. -/
  | doeUnsupported (protocol : Nat × Nat) (object : DoeObject)
  /-- READ_STATE (R483): SMBus read of state bits. -/
  | readState
  /-- READ_POWER (R483): SMBus read of 1 ms average package power. -/
  | readPower
  /-- READ_TEMP (R483): SMBus read of the hottest die sensor. -/
  | readTemp
  /-- READ_HBM_TEMP (R483): SMBus read of the hottest stack. -/
  | readHbmTemp
  /-- CAP (R483): SMBus read or write of BMC_CAP; an out-of-range write is NACKed. -/
  | cap (write : Option (BitVec 16)) (pecOk : Bool)
  /-- READ_SERIAL (R483): SMBus block read of the serial number. -/
  | readSerial
  /-- READ_FW (R483): SMBus block read of the firmware version. -/
  | readFw
  /-- MON_HELP (R504): Monitor lists its commands. -/
  | monHelp
  /-- MON_STATE (R504): Monitor prints decoded state registers. -/
  | monState
  /-- MON_HEAT (R504): Monitor prints a heat report. -/
  | monHeat (h : Nat)
  /-- MON_RD (R504): Monitor reads BAR0 or monitor words without side effects. -/
  | monRd (off count : Nat)
  /-- MON_WR (R507): Monitor writes an 8-byte word as a host write would, under WRITE scope. -/
  | monWr (off : Nat) (v : BitVec 64)
  /-- MON_FUSE (R504): Monitor prints the fuse view. -/
  | monFuse
  /-- MON_LOG (R504): Monitor prints the newest error log entries. -/
  | monLog (n : Nat)
  /-- MON_BAUD (R504): Monitor changes its baud rate after the OK. -/
  | monBaud (rate : Nat)
  /-- MON_FULLSTART (R504): Monitor sets FULL_NEXT. -/
  | monFullstart
  /-- MON_LINKCFG (R504): Monitor writes the link configuration record. -/
  | monLinkcfg (id topology x y z : Nat)
  /-- MON_LINKTEST (R504): Monitor runs PRBS31 on a port's lanes. -/
  | monLinktest (port seconds : Nat)
  /-- MON_MEMTEST (R504): Monitor runs March C− on a stack or a die's SRAMs. -/
  | monMemtest (target : MemTarget)
  /-- MON_DUMP (R505): Monitor sends the held dump or one section in frames. -/
  | monDump (sec : Option Nat)
  /-- MON_LOAD (R505): Monitor receives an Ercia image into the recovery buffer. -/
  | monLoad (length : Nat)
  /-- MON_COMMIT (R470): Monitor commits the recovery buffer as SYS_RECOVERY.COMMIT does. -/
  | monCommit
  /-- MON_RAW (R440): Monitor enters or leaves raw entropy mode or selects the oscillator. -/
  | monRaw (arg : RawArg)
  /-- MON_RAWREAD (R440): Monitor sends raw entropy samples in frames. -/
  | monRawread (bytes : Nat)
  /-- MON_FATAL (R504): Monitor raises the fatal condition INJECTED. -/
  | monFatal
  /-- MON_RESET (R504): Monitor performs a conventional reset of the device. -/
  | monReset
  /-- MON_UNLOCK (R506): Monitor issues an unlock challenge. -/
  | monUnlock
  /-- UNLOCK_TOKEN (R506): Monitor checks a received unlock token and grants its scopes. -/
  | unlockToken (token : List (BitVec 8))
  /-- MON_LOCK (R506): Monitor ends the unlock. -/
  | monLock
  /-- UNLOCK_EXPIRY (R506): The unlock ends when SECONDS run out. -/
  | unlockExpiry
  /-- MON_FRAME (R505): A transfer frame is received or answered with accept or resend. -/
  | monFrame (frame : FrameEvent)
  /-- MON_TRANSFER_TIMEOUT (R505): 2 s without a frame ends the transfer with ERR 05. -/
  | monTransferTimeout
  /-- MON_UNKNOWN_COMMAND (R503): An unknown monitor command line is answered with ERR 01. -/
  | monUnknownCommand
  /-- RECOVERY_COMMIT (R470): Verifies the recovery buffer and programs flash, in recovery or as a running update. -/
  | recoveryCommit
  /-- RECOVERY_CLEAR (R470): Empties the recovery buffer. -/
  | recoveryClear
  /-- FULL_NEXT_WRITE (R446): A host write of FULL_NEXT or FULL_DAYS is written to the boot record in flash at once. -/
  | fullNextWrite (size : Nat) (v : BitVec 64)
  /-- POWER_ON_DAY (R446): Each 24 hours of power-on time adds one day to DAYS_SINCE_FULL. -/
  | powerOnDay
  /-- TEMPERATURE_SAMPLE (R476): A 1 µs sample of the die sensors and activity updates the pause requests. -/
  | temperatureSample (die : Nat) (sensors : List (BitVec 8))
  /-- POWER_SUM (R475): A 100 µs sum of regulator READ_POUT calibrates the power estimate. -/
  | powerSum (avg avg10 : BitVec 16)
  /-- RAIL_FAULT (R477): A regulator fault or set-point error raises the fatal RAIL. -/
  | railFault (rail mv : Nat)
  /-- PLL_LOSS_OF_LOCK (R493): A PLL losing lock raises the fatal PLL. -/
  | pllLossOfLock (die : Nat)
  /-- SPRUE_CRC_ERROR (R493): A sprue flit CRC failure or lane training loss raises the fatal SPRUE. -/
  | sprueCrcError (die lane : Nat)
  /-- RING_PARITY (R493): A parity error in a slot header or sync field raises the fatal RING_PARITY. -/
  | ringParity (die ring : Nat)
  /-- HBM_CTRL_ERROR (R493): A command or address parity error, or lost training, raises the fatal HBM_CTRL. -/
  | hbmCtrlError (c : Nat) (detail : BitVec 48)
  /-- CC_WATCHDOG_EXPIRY (R467): The always-on watchdog expires and raises the fatal CC_FAIL. -/
  | ccWatchdogExpiry
  /-- REGION_WARNING (R485): An elastic buffer reaches occupancy 6 or 2, setting WARN and requesting a package hold. -/
  | regionWarning (i occ : Nat)
  /-- ELASTIC_BUFFER_SLIP (R484): Occupancy 7 or 1 stops the sprue ring and raises the fatal SLIP. -/
  | elasticBufferSlip (i occ : Nat)
  /-- DUMP_COMPLETE (R497): The ladle dump is complete with its digest and the FATAL event is raised. -/
  | dumpComplete
  /-- DUMP_RELEASE (R498): A write of ERR_DUMP RELEASE clears the held dump. -/
  | dumpRelease
  /-- PARTITION_GATE (R480): A partition quiescent for IDLE_TICKS is gated. -/
  | partitionGate (part : Nat)
  /-- PARTITION_WAKE (R480): Traffic for a gated partition wakes it and is delivered once its clocks run. -/
  | partitionWake (part : Nat)
  /-- DEEP_ENTRY (R481): After DEEP_DELAY with no pattern armed, the package enters DEEP. -/
  | deepEntry
  /-- PGOOD_AON (R513): The always-on rails are good and the always-on domain leaves reset to begin heat 0. -/
  | pgoodAon
  /-- POWER_LOSS (R514): Input power is removed, losing every volatile state and the dump. -/
  | powerLoss
  /-- HEAT_0 (R514): Rails are enabled in order and the fuses are read. -/
  | heat0 (r : Heat0In)
  /-- HEAT_1 (R469): The boot ROM verifies Ercia, or enters recovery, and the host port trains. -/
  | heat1 (r : Heat1In)
  /-- HEAT_2 (R450): The PLLs lock and the die crossings and sprue lanes train. -/
  | heat2 (r : Heat2In)
  /-- HEAT_3 (R346): The HBM trains in full or from the saved record. -/
  | heat3 (r : Heat3In)
  /-- HEAT_4 (R451): The HBM is tested, repaired and filled, and the training record is written. -/
  | heat4 (r : Heat4In)
  /-- HEAT_5 (R453): BIST, reconciliation, stop programming and the SRAM fill. -/
  | heat5 (r : Heat5In)
  /-- HEAT_6 (R361): Checker and check-value unit self-tests, scrubber start and entropy start-up. -/
  | heat6 (r : Heat6In)
  /-- HEAT_7 (R461): Ring and sprue tests and peer-link training. -/
  | heat7 (r : Heat7In)
  /-- HEAT_8 (R462): Test bars on every logical and spare core, with remapping of failures. -/
  | heat8 (r : Heat8In)
  /-- HEAT_9 (R464): Bring-up ends ready or non-conformant and sends the READY event. -/
  | heat9
  /-- LINK_FLIT_RECEIVE (R370): A link receiver accepts the next in-sequence flit with a good CRC, or discards it and NAKs. -/
  | linkFlitReceive (place : LinkPlace) (lane0 lane1 lane2 lane3 : List (BitVec 10))
  /-- GROUP_CONTROL_WORD (R368): A group control word delivers acknowledgements, NAK and credits. -/
  | groupControlWord (link : Nat) (lanes : List (List (BitVec 10)))
  /-- LINK_RETRAIN (R371): A link retrains after repeated NAKs or a high correction rate, resending its flits on other links. -/
  | linkRetrain (link : Nat)
  /-- LINK_NOTICE_FLUSH (R379): A notice flit for a destination is sent when full or 16 ns after its first notice. -/
  | linkNoticeFlush (dpkg : Nat)
  /-- LARRIVE (R384): The home root adds a member package's arrival count and records its sender. -/
  | larrive (bid count spkg : Nat) (drain : Bool)
  /-- LRELEASE (R384): A member root forms and distributes a RELEASE from the home's LRELEASE. -/
  | lrelease (bid : Nat) (dlset : Bool) (dlctr : Nat) (install : Bool)
  /-- NACK (R381): The source package learns that its exported NOTICES flits have been injected. -/
  | nack (spkg flits : Nat)
  /-- UNREACH (R387): An UNREACH message raises LINK_UNREACHABLE in the partition of SCORE. -/
  | unreach (score port : Nat)
  /-- RETRAIN (R389): A host write of LNK_TOPO.RETRAIN trains the links again while no pattern is armed. -/
  | retrain (found : List LinkFound)
  /-- LINK_DOWN (R388): A peer link or port in service loses its lanes or its neighbour, is seen as DOWN, and the LINK device event is raised. -/
  | linkDown (link : Nat) (wrongNeighbour : Bool)
  /-- RETRAINING_COMPLETE (R371): A link's retraining ends within 10 ms, and the link returns to four or two lanes or is left DOWN. -/
  | retrainingComplete (link : Nat) (lanes : LaneResult)
  /-- FRAME_BOUNDARY (R342): In exact-timing mode, E0 applies a forwarded launch ADD at the first HBM frame boundary at or after its arrival. -/
  | frameBoundary
  /-- SAVE_COPIED (R292): A checkpoint save finishes copying during its hold, and under CMD 2 the partition enters STATE 3, held until RESUME. -/
  | saveCopied (part : Nat)
  /-- RESTORE_LOADED (R294): A restore finishes loading the checkpoint, leaving the partition held in STATE 3 with STATUS 1. -/
  | restoreLoaded (part : Nat)
  /-- ENTROPY_UNAVAILABLE (R438): An attestation request that has waited 40 ms for a DRBG nonce is answered with quote STATUS 2. -/
  | entropyUnavailable
  /-- CONTROL_SRAM_UNCORRECTABLE (R493): An uncorrectable word in control SRAM raises the fatal condition CC_FAIL. -/
  | controlSramUncorrectable (addr : Nat)
deriving DecidableEq, Repr

end Sys2Proof
end

