-- ==== Sys2Proof/Decode.lean ====
section
/-!
DEFINITION. The GL8 is a block: spec/opcode_table.json gives no row any bits, so no word spells a command.
-/
namespace Sys2Proof

/-- The command that a word spells by the table's bits: none, because the table gives its rows no bits. -/
def decodeTableWord (_nbits _w : Nat) : Option Instr := none

end Sys2Proof
end

