-- ==== Sys2Proof/Config.lean ====
section
/-!
DEFINITION. What an implementation fixes and what the spec leaves free: constants with no body, so that no proof
can see a value (log 1, 4, 8).
-/
namespace Sys2Proof.Config

/-- A free value: what the spec leaves open, drawn with State's counter `free` (log 1). -/
opaque freeBits : Nat → BitVec 64

/-- The package serial number in fuses (R402, R524). -/
opaque serial : BitVec 64

/-- The identity seed in fuses (R486). -/
opaque identitySeed : BitVec 256

/-- The vendor key hashes in factory fuses (R315). -/
opaque vendorHash : Nat → BitVec 256

/-- The Ercia image the part ships with: what stands in flash (R468). -/
opaque erciaImage : List Byte

/-- The subject public key and the bytes of the device certificate in flash (R487). -/
opaque certificate : List Byte

/-- The certificate's subject key (R487). -/
opaque certificateKey : List Byte

/-- The payload of the package's fuse image, identity seed excluded (R488). -/
opaque fuseImageBytes : Nat → List Byte

/-- PART, major and minor version, and vendor revocation list of an Ercia image's header, whose layout the spec does not
give (R469; log 8). -/
opaque erciaPart : List Byte → Nat

/-- FW_MAJOR of an Ercia image (R469; log 8). -/
opaque erciaMajor : List Byte → Nat

/-- FW_MINOR of an Ercia image (R469; log 8). -/
opaque erciaMinor : List Byte → Nat

/-- Vendor slots that an Ercia image's header revokes (R469; log 8). -/
opaque erciaRevokes : List Byte → BitVec 4

/-- Text the monitor prints for a command's decoded answer, whose wording the spec does not give (R504; log 8). -/
opaque monitorText : Nat → List Byte

/-- Bytes in a layout internal to Ercia: line settings, controller log, Ercia log (R347, R500; log 8). -/
opaque firmwareBytes : Nat → Nat → Byte

/-- The column of data bit `i` in the Hsiao code of a word of `wb` bytes: R349 names the code and not its matrix
(log 90). -/
opaque hsiaoColumn : Nat → Nat → BitVec 8

/-- Bytes 8 to 15 of the empty best-k entry at a place, which R123 does not state (log 12). -/
opaque emptyEntryWord : Nat → BitVec 64

end Sys2Proof.Config
end

