-- ==== Sys2Proof/Machine/Ecc.lean ====
section
/-!
DEFINITION. The codes that memories are stored under (R349, R350): GF(2⁸), the Reed-Solomon code of HBM, the Hsiao
codes of the SRAMs, and what a decoder makes of a stored word; and the CRC function (R418).
-/
namespace Sys2Proof.Machine

/-- What a decoder finds in a stored word that is not a code word (R349). -/
inductive WordErr where
  | correctable | uncorrectable | poison
deriving DecidableEq, Repr

/-! ### GF(2⁸) (R350) -/

/-- α·a, reduced by x⁸ + x⁴ + x³ + x² + 1 (R350). -/
def gfDouble (a : Byte) : Byte := if a.msb then (a <<< 1) ^^^ 0x1D#8 else a <<< 1

/-- α^k (R350). -/
def gfAlpha : Nat → Byte
  | 0 => 1
  | k + 1 => gfDouble (gfAlpha k)

/-- The sum over the bits of `b`, from bit `i` on, of a·α^i. -/
def gfMulFrom : Nat → Byte → Byte → Byte
  | 0, _, _ => 0
  | n + 1, a, b => (if b.getLsbD 0 then a else 0) ^^^ gfMulFrom n (gfDouble a) (b >>> 1)

/-- The product in GF(2⁸) (R350). -/
def gfMul (a b : Byte) : Byte := gfMulFrom 8 a b

/-- A polynomial, coefficient of x⁰ first, at a point. -/
def gfEval : List Byte → Byte → Byte
  | [], _ => 0
  | c :: t, x => c ^^^ gfMul x (gfEval t x)

/-- (x − r)·p(x). -/
def gfTimesRoot (r : Byte) (p : List Byte) : List Byte :=
  (List.range (p.length + 1)).map fun i => (if i = 0 then 0 else p.getD (i - 1) 0) ^^^ gfMul r (p.getD i 0)

/-- g(x) = (x − α⁰)(x − α¹)(x − α²)(x − α³), coefficient of x⁰ first (R350). -/
def rsGenerator : List Byte := (List.range 4).foldr (fun k p => gfTimesRoot (gfAlpha k) p) [1]

/-- One step of division by g(x): the remainder of r(x)·x + d·x⁴. -/
def rsStep (d : Byte) (r : List Byte) : List Byte :=
  let f := d ^^^ r.getD 3 0
  (List.range 4).map fun i => (if i = 0 then 0 else r.getD (i - 1) 0) ^^^ gfMul f (rsGenerator.getD i 0)

/-- The check symbols of a word: d(x)·x⁴ mod g(x), check symbol j the coefficient of xʲ (R350). -/
def rsCheck (d : List Byte) : List Byte := d.foldr rsStep [0, 0, 0, 0]

/-- The code word, coefficient of x⁰ first: four check symbols, then the 32 bytes (R350). -/
def rsEncode (d : List Byte) : List Byte := rsCheck d ++ d

/-- Four check symbols as 32 bits, symbol 0 lowest. -/
def checkBits (l : List Byte) : BitVec 32 := (l.getD 3 0 ++ l.getD 2 0 ++ l.getD 1 0 ++ l.getD 0 0 : BitVec 32)

/-- 32 bits as four check symbols. -/
def checkSymbols (x : BitVec 32) : List Byte := (List.range 4).map fun j => x.extractLsb' (8 * j) 8

/-- The one symbol that differs from a code word, and by how much, when the remainder of the stored word by g(x) is
`x`: the syndromes x(α⁰), … x(α³) are e, e·α^p, e·α^2p, e·α^3p (R349, R350). -/
def rsError (x : BitVec 32) : Option (Nat × Byte) :=
  let s := (List.range 4).map fun k => gfEval (checkSymbols x) (gfAlpha k)
  if s.getD 0 0 = 0 then none
  else ((List.range 36).find? fun p => (List.range 3).all fun k => s.getD (k + 1) 0 == gfMul (s.getD k 0) (gfAlpha p)).map
    fun p => (p, s.getD 0 0)

/-! ### Hsiao codes (R349) -/

/-- Check bits of a word of 32, 8 or 4 bytes: HBM, tile and op memory, lace memory (R349). -/
def checkWidth (wb : Nat) : Nat := if wb = 32 then 32 else if wb = 8 then 8 else 7

/-- Number of ones. -/
def weight (x : BitVec 32) : Nat := ((List.range 32).filter fun i => x.getLsbD i).length

/-- The one bit that differs from a code word of the Hsiao code when the syndrome is `x`: data bit i below 8·wb, then the
check bits. A Hsiao code's columns are of odd weight, so two errors give an even one; the columns of data bits are
implementation-defined (log 90). -/
def hsiaoError (wb : Nat) (x : BitVec 32) : Option Nat :=
  if weight x % 2 = 0 then none
  else if weight x = 1 then ((List.range (checkWidth wb)).find? fun j => x.getLsbD j).map fun j => 8 * wb + j
  else (List.range (8 * wb)).find? fun i => (Config.hsiaoColumn wb i).setWidth 32 == x

/-! ### What a decoder finds -/

/-- The syndrome of a poisoned word: every check bit inverted (R349). -/
def poisonSyn (wb : Nat) : BitVec 32 := BitVec.ofNat 32 (2 ^ checkWidth wb - 1)

/-- What stored check bits that differ by `x` from those of the stored data mean, in a word of `wb` bytes (R349). -/
def classify (wb : Nat) (x : BitVec 32) : Option WordErr :=
  if x = 0 then none
  else if x = poisonSyn wb then some .poison
  else if wb = 32 then (if (rsError x).isSome then some .correctable else some .uncorrectable)
  else if (hsiaoError wb x).isSome then some .correctable
  else some .uncorrectable

/-- What stored byte `i` of a word differs by from the byte that the decoder returns (R349): nothing, unless the
syndrome `x` points at a data symbol or data bit of it. -/
def byteError (wb : Nat) (x : BitVec 32) (i : Nat) : Byte :=
  if classify wb x ≠ some .correctable then 0
  else if wb = 32 then
    match rsError x with
    | some (p, e) => if p = i + 4 then e else 0
    | none => 0
  else
    match hsiaoError wb x with
    | some b => if b / 8 = i ∧ b < 8 * wb then 1#8 <<< (b % 8) else 0
    | none => 0

/-- The Reed-Solomon decoder over a stored word of 36 symbols: the 32 bytes it returns and the error it reports (R349,
R350). -/
def rsDecode (c : List Byte) : List Byte × Option WordErr :=
  let x := checkBits (List.zipWith (· ^^^ ·) (c.take 4) (rsCheck (c.drop 4)))
  ((c.drop 4).mapIdx fun i b => b ^^^ byteError 32 x i, classify 32 x)

/-! ### The CRC function (R418) -/

/-- Reverses the low `n` bits of a word. -/
def rev64 (v : W64) (n : Nat) : W64 :=
  (List.range n).foldl (fun r i => r ||| ((v >>> i) &&& 1#64) <<< (n - 1 - i)) 0

/-- The low `w` bits. -/
def crcMask (w : Nat) : W64 := BitVec.ofNat 64 (2 ^ w - 1)

/-- One bit shifted into the register. -/
def crcBit (w : Nat) (poly r : W64) (b : Bool) : W64 :=
  let fb := bitOf r (w - 1) != b
  let r := (r <<< 1) &&& crcMask w
  if fb then r ^^^ (poly &&& crcMask w) else r

/-- One byte shifted in, most significant bit first, or least under REFIN. -/
def crcByte (w : Nat) (poly : W64) (refin : Bool) (r : W64) (b : Byte) : W64 :=
  (List.range 8).foldl (fun r k => crcBit w poly r (bitOf b (if refin then k else 7 - k))) r

/-- The register after a run of bytes. -/
def crcReg (w : Nat) (poly : W64) (refin : Bool) (r : W64) (bs : List Byte) : W64 := bs.foldl (crcByte w poly refin) r

/-- The register after `n` zero bytes. -/
def crcZeros (w : Nat) (poly : W64) : Nat → W64 → W64
  | 0, r => r
  | n + 1, r => crcZeros w poly n (crcByte w poly false r 0)

/-- Output reflection and the final XOR. -/
def crcFinal (w : Nat) (refout : Bool) (xorout r : W64) : W64 :=
  ((if refout then rev64 r w else r) ^^^ xorout) &&& crcMask w

/-- crc() of R418. -/
def crc (bs : List Byte) (w : Nat) (poly init xorout : W64) (refin refout : Bool) : W64 :=
  crcFinal w refout xorout (crcReg w poly refin (init &&& crcMask w) bs)

/-- The CRC-32 of IEEE 802.3 (R369, R419, R505). -/
def crc32 (bs : List Byte) : W32 :=
  (crc bs 32 0x04C11DB7#64 0xFFFFFFFF#64 0xFFFFFFFF#64 true true).extractLsb' 0 32

end Sys2Proof.Machine
end

