-- ==== Sys2Proof/Machine/State.lean ====
section
/-!
DEFINITION. The state of the GL8 as plain data, its reset value, and the reasons a step can stop.
Registers of the spec's register tables have one home, `regs`; everything else is structured below.
-/
namespace Sys2Proof.Machine

/-- Why a step stops with a fault. Safe: each names an operand or an address that the spec says does not exist. -/
inductive Fault where
  /-- Raised by CXLMEM_READ and CXLMEM_WRITE outside the one HDM range of 192 GiB (R395, R403). Safe: the HDM
  decoder hands the device no such access. -/
  | outsideHdm
deriving DecidableEq, Repr

/-- Why a step is refused. -/
inductive Refusal where
  /-- Raised by an arm of exec whose command has no meaning yet. Safe. -/
  | notModelled (mnemonic : String)
deriving DecidableEq, Repr

/-- One memory (R349, R355): the bytes that its decoder returns (an unlisted byte is 0), and, by word number, how the
stored check bits differ from those of the stored data (an unlisted word is a code word). The stored bytes are these,
changed by `byteError` where the decoder corrects one. -/
structure Mem where
  bytes : List Host.Cell := []
  bad : List (Nat × BitVec 32) := []
deriving DecidableEq, Repr

/-- The parameters of a tile (R145, R162). -/
structure MacParams where
  format : Nat := 0
  anchor : Int := 0
  foldRound : Nat := 0
  elemBase : Nat := 0
  elemStride : Nat := 0
  aStep : Nat := 0
  bStep : Nat := 0
deriving DecidableEq, Repr

/-- One outer bank of the MAC array with the inner accumulators of its tile, 32 × 32, row by row (R138, R139). R138 gives
a PE one inner accumulator; a tile that is open while the other bank's tile is pushed keeps its inner sums (log 96). -/
structure Bank where
  params : MacParams := {}
  inner : List Int := []
  outer : List Int := []
  steps : Nat := 0
  folds : Nat := 0
  sweep : Nat := 0
deriving DecidableEq, Repr

/-- A drain handed to the drain engine: its op word, the key sweep at its issue, its op index, the next row it reads
(R104, R149). -/
structure Drain where
  op : OpWord
  sweep : Nat
  pc : Nat
  row : Nat := 0
deriving DecidableEq, Repr

/-- A move in flight (R228): its op word, units formed into pieces, units written (or acknowledged). -/
structure Move where
  op : OpWord
  formed : Nat := 0
  done : Nat := 0
deriving DecidableEq, Repr

/-- The phase in progress (R91, R92): `issued` once its last batch has issued, `pc` the
op index of its SUA.PHASE. -/
structure Phase where
  colour : Nat
  replica : Nat
  free : Bool
  issued : Bool
  pc : Nat
deriving DecidableEq, Repr

/-- A conflicting update held in the deferral buffer (R93): target, signed weight, replica. -/
structure Upd where
  tgt : Nat
  w : Int
  r : Nat
deriving DecidableEq, Repr

/-- One logical core, besides its registers (R24). `replayed` says that the replay at the head of the S queue has been
walked and waits for its notices (R105); `bestkAt` is the tile address of its best-k list (R182), `staged` the staging
slots filled so far in the result, as tile address and bytes (R126, R290). -/
structure Core where
  lace : Mem := {}
  tile : Mem := {}
  op : Mem := {}
  vregs : List (Nat × W32) := []
  psb : List (Nat × BitVec 96) := []
  banks : List (Nat × Bank) := []
  macNext : List (Nat × MacParams) := []
  drains : List Drain := []
  past : List Nat := []
  moves : List (Nat × Option Move) := []
  inbox : List W32 := []
  deferred : List Upd := []
  phase : Option Phase := none
  replayed : Bool := false
  bestkAt : Option Nat := none
  staged : List (Nat × Nat) := []
  groupIdx : List (Nat × (Nat × Nat)) := []
  reload : List (Nat × BitVec 16) := []
  sramPend : List (Nat × List Nat) := []
deriving DecidableEq, Repr

/-- A flit of the runner rings and the sprue (R245, R337). `mid` names the move of core `src` it belongs to: the
spec tells the sender that a piece has landed, and the flit is where the model keeps whose piece it is. -/
inductive Flit where
  | notices (src : Nat) (items : List W32) (keep : List Nat)
  | send (src mid dcore : Nat) (remote : Bool) (dpkg : Nat) (dmem : Bool) (daddr : Nat) (last sig : Bool)
      (sctr : Nat) (pmask : BitVec 6) (data : List Byte)
  | hbm (src mid : Nat) (write : Bool) (haddr dcore : Nat) (dmem : Bool) (daddr units : Nat) (pmask : BitVec 6)
      (data : List Byte)
  | partials (src dcore : Nat) (remote : Bool) (dpkg tag ctr contrib : Nat) (fields : List (BitVec 96))
  | sync (src : Nat) (msg : SyncMsg)
deriving DecidableEq, Repr

/-- A flit in a ring slot: the position that injected it (SRCPOS, R245), the flit, whether it is on a repeat pass
(R248), the first core cycle whose meeting with a station is still to come (R240), and whether the first tap has taken
its exports (R249). -/
structure Placed where
  pos : Nat
  flit : Flit
  again : Bool := false
  next : Nat := 0
  exported : Bool := false
deriving DecidableEq, Repr

/-- A message in a sync field (R241, R253-R255): the core that sent it (0 where a tap did), the message, the first core
cycle whose meeting is still to come and, for what one tap broadcasts, the cycle in which the other tap removes it. -/
structure FieldMsg where
  src : Nat
  msg : SyncMsg
  next : Nat := 0
  upTo : Option Nat := none
deriving DecidableEq, Repr

/-- A RELEASE that a stop holds (R256, R258), and whether notices in its core's inbox, and updates in the deferral
buffer, came before it. -/
structure HeldRelease where
  msg : SyncMsg
  inbox : Bool
  upd : Bool
deriving DecidableEq, Repr

/-- One ring stop (R217, R246, R248, R254, R256-R258, R260, R309). `outbound` is the SUA's outbound notice buffer,
`nextInject` the first core cycle in which the stop may inject again (R247), `sent` and `taken` the last eight slot headers
injected and delivered (R500). -/
structure Stop where
  fifo : List Flit := []
  outbound : List W32 := []
  nextInject : Nat := 0
  rx : List Flit := []
  passTbl : List (Nat × Option (Nat × Nat)) := []
  ctrQ : List SyncMsg := []
  syncPass : List (Nat × Option (Nat × Nat)) := []
  releases : List HeldRelease := []
  keepTbl : List (Nat × List Nat) := []
  barRec : List (Nat × (Nat × Nat × Bool)) := []
  arrivals : List (Nat × Bool) := []
  outNotices : Nat := 0
  seedLo : Option (BitVec 48) := none
  seedHi : Option (BitVec 48) := none
  slots : List (Nat × Byte) := []
  sent : List (BitVec 96) := []
  taken : List (BitVec 96) := []
deriving DecidableEq, Repr

/-- What a die's bridge holds for one of its taps (R255, R265): RELEASE, STAGE and STOP messages, COUNTER messages,
and flits. -/
structure Tap where
  rel : List SyncMsg := []
  ctr : List SyncMsg := []
  flits : List Flit := []
deriving DecidableEq, Repr

/-- One compute die's rings and bridge (R240, R241, R249, R255, R262, R265): the core cycle of its rings, slots by ring
× 512 + number, the positions that reserve them, sync fields by the number of their slot, the bridge's two taps. -/
structure Die where
  now : Nat := 0
  slots : List (Nat × Option Placed) := []
  reserved : List (Nat × Option Nat) := []
  fields : List (Nat × Option FieldMsg) := []
  tap0 : Tap := {}
  tap1 : Tap := {}
  comb : List (Nat × (Nat × Bool)) := []
  exported : Nat := 0
  frozen : Bool := false
  tapSlots : List (Nat × Byte) := []
deriving DecidableEq, Repr

/-- A pattern fault raised and not yet recorded (R235, R236, R237). -/
structure FaultRec where
  code : Nat
  core : Nat
  queue : Nat
  pc : Nat
  remote : Bool
deriving DecidableEq, Repr

/-- The release a hold keeps (R255, R273). -/
structure Release where
  bid : Nat
  dlset : Bool
  dlctr : Nat
  install : Bool
deriving DecidableEq, Repr

/-- A hold in progress (R273, R274): the releases it keeps, of pause points reached before and within it, its reasons, and
the tick from which a pause may end (R476). -/
structure Hold where
  releases : List Release := []
  thermal : Bool := false
  region : Bool := false
  point : Bool := false
  host : Bool := false
  save : Bool := false
  patch : Bool := false
  refresh : Bool := false
  resumeAt : Option Nat := none
deriving DecidableEq, Repr

/-- A launch on its way to a partition (R231, R423): its launch counter, its amount, and the SET of STALE_CTR that goes
before it. -/
structure Launch where
  h : Nat
  n : Nat
  stale : Option (Nat × Nat) := none
deriving DecidableEq, Repr

/-- One partition, besides its registers. `ckptCmd` is the checkpoint command in hand (4 while a digest is computed),
`ckptAddr` and `ckptLen` the region that it was granted and the bytes copied there, `ckptWas` the STATE that a restore
began in; `quietTicks` counts the ticks for which it has stayed quiescent (R480). -/
structure Part where
  hold : Option Hold := none
  dlRunning : Bool := false
  dlTicks : Nat := 0
  dlMin : Nat := 0
  elapsed : Nat := 0
  stage : Bool := false
  staged : Bool := false
  stagedSeed : BitVec 96 := 0
  stagedDrbg : Bool := false
  nextDrbg : Bool := false
  filled : Bool := false
  regionWarn : Bool := false
  refreshDebt : Bool := false
  forwarded : Nat := 0
  resultEnds : Nat := 0
  hadExtra : Bool := false
  hadPause : Bool := false
  hadLink : Bool := false
  hadSpan : Bool := false
  hadHold : Bool := false
  inPeriod : Bool := false
  ckptCmd : Nat := 0
  ckptKind : Nat := 0
  ckptAddr : Nat := 0
  ckptLen : Nat := 0
  ckptWas : Nat := 0
  faults : List FaultRec := []
  buffered : List Launch := []
  framed : List Launch := []
  patchDue : Bool := false
  patched : Bool := false
  patchLeft : List Nat := []
  disarmed : Bool := false
  gated : Bool := false
  quietTicks : Nat := 0
  seeded : Bool := false
  reentry : Nat := 0
deriving DecidableEq, Repr

/-- A section table entry (R305). -/
structure Section where
  kind : Nat
  arrange : Nat
  part : Nat
  flags : Nat
  first : Nat
  count : Nat
  length : Nat
  offset : Nat
  addr : Nat
  digest : BitVec 256
deriving DecidableEq, Repr

/-- A Forver image as VERIFY read it (R303, R305). -/
structure Image where
  base : Nat
  bytes : Nat
  kind : Nat
  fwMajor : Nat
  modes : Nat
  partitions : Nat
  arrangements : Nat
  patchSeq : Nat
  baseDigest : BitVec 256
  digest : BitVec 256
  sections : List Section
deriving DecidableEq, Repr

/-- What VERIFY has copied into the firmware work area (R319): the image's address, its header and section table, and
whether an uncorrectable word was read. -/
structure Work where
  base : Nat
  bytes : List Byte
  bad : Bool
deriving DecidableEq, Repr

/-- A partition record (R310). -/
structure PartRec where
  part : Nat
  dies : BitVec 8
  fresh : Bool
  patchCtr : Nat
  compiled : Nat
  seed : BitVec 96
deriving DecidableEq, Repr

/-- An arrangement record (R311). -/
structure Arrangement where
  packages : Nat
  topology : Nat
  dimX : Nat
  dimY : Nat
  dimZ : Nat
  position : Nat
  shards : Nat
  width : Nat
deriving DecidableEq, Repr

/-- A grant of HBM (R334). -/
structure Grant where
  part : Nat
  base : Nat
  length : Nat
  kind : Nat
  isMutable : Bool
deriving DecidableEq, Repr

/-- A pause table (R312). -/
structure PauseTbl where
  pauseBids : BitVec 64
  sweepCkpt : BitVec 64
  resultCkpt : BitVec 64
  sweepEntry : List Nat
  resultEntry : List Nat
  sweepsCtr : Nat
  restartsCtr : Nat
  sweeps : Nat
  restarts : Nat
deriving DecidableEq, Repr

/-- A clock plan (R473). -/
structure ClockPlan where
  point : Nat
  minPoint : Nat
  capW : Nat
  idleTicks : Nat
  holdDuty : Nat
deriving DecidableEq, Repr

/-- What the control complex holds of images and of the armed pattern (R317-R326). -/
structure Pat where
  work : Option Work := none
  verified : Option Image := none
  verArrange : Option Arrangement := none
  verIdx : Nat := 0
  cur : Option Image := none
  arrange : Option Arrangement := none
  arrIdx : Nat := 0
  disarming : Bool := false
  landed : List Nat := []
  patches : Nat := 0
  recs : List PartRec := []
  grants : List Grant := []
  frame : Nat := 0
  refresh : Nat := 0
  slotMaps : List (Nat × List Byte) := []
  pauses : List (Nat × PauseTbl) := []
  clocks : List (Nat × ClockPlan) := []
  sprue : List W64 := []
deriving DecidableEq, Repr

/-- What a check-value unit holds besides its registers: output records whose header has passed, oldest first, as
(slot, record bytes, stamped alive counter), units of a record that came before its header, as (slot, offset, bytes,
damaged), whether the slot that a launch is held on was not COMPLETE then, and by slot what the unit made of a block that became
COMPLETE: whether its check value differs, and its alive counter. -/
structure CrcUnit where
  records : List (Nat × Nat × Nat) := []
  early : List (Nat × Nat × List Byte × Bool) := []
  heldOpen : Bool := false
  seen : List (Nat × (Bool × Nat)) := []
deriving DecidableEq, Repr

/-- A pattern ADD that has reached E0 (R233). -/
structure PatAdd where
  h : Nat
  n : Nat
  src : Nat
deriving DecidableEq, Repr

/-- Fuses (R315, R455, R459, R469, R486, R513): permanent. -/
structure Fuses where
  badCores : List PhysRef := []
  badStops : List PhysRef := []
  field : List W32 := []
  vendorRevoked : BitVec 4 := 0
  ownerHash : List (Nat × BitVec 256) := []
  ownerEnrolled : BitVec 4 := 0
  ownerRevoked : BitVec 4 := 0
deriving DecidableEq, Repr

/-- A copy of the saved training record (R347). `key` names its line settings, which are internal to Ercia. -/
structure TrainRec where
  digestOk : Bool
  version : Nat
  fwMajor : Nat
  serial : W64
  rate : Nat
  temps : List (BitVec 8)
  key : Nat
  repairs : List RowRef
deriving DecidableEq, Repr

/-- The records of the SPI NOR flash (R446, R468): the Ercia image, empty while it is erased; the two copies of the training
record, the newer first; the boot record; the link configuration record. -/
structure Flash where
  image : List Byte
  records : List TrainRec
  fullNext : Bool
  fullDays : Nat
  days : Nat
  starts : Nat
  linkId : Nat
  linkTopology : Nat
  linkX : Nat
  linkY : Nat
  linkZ : Nat
deriving DecidableEq, Repr

/-- One HBM controller (R341, R345, R351, R356, R358): requests by pseudo-channel and partition, words that await
write-back, words corrected in this scrub lap and in the last, rows found faulty (pseudo-channel, bank, row), the
scrubber's unit by pseudo-channel, ticks in self refresh since the last lap, REFpb owed by bank, and whether a fatal
condition has stopped it or put its stack into self refresh (R493). -/
structure HbmCtl where
  queues : List (Nat × List Flit) := []
  pending : List Nat := []
  lapWords : List Nat := []
  prevWords : List Nat := []
  due : List (Nat × Nat × Nat) := []
  scrubPos : List (Nat × Nat) := []
  lapIdle : Nat := 0
  debt : List (Nat × Nat) := []
  stopped : Bool := false
  selfRefresh : Bool := false
deriving DecidableEq, Repr

/-- The scrubbers of a core's 42 memory banks (R356, R359, R360): the next row of each, rows corrected in this lap and
in the last, rows with a remap word, and when each last ended a lap, as the tick and the die's gated ticks then. -/
structure Sram where
  pos : List (Nat × Nat) := []
  seen : List (Nat × List Nat) := []
  prev : List (Nat × List Nat) := []
  remaps : List (Nat × List Nat) := []
  ends : List (Nat × Nat × Nat) := []
deriving DecidableEq, Repr

/-- A flit sent on a link: its link and port sequence numbers, its virtual channel and itself (R366, R370, R375). -/
structure LinkTx where
  lseq : Nat
  pseq : Nat
  vc : Bool
  flit : LinkFlit
deriving DecidableEq, Repr

/-- One peer link (R370). -/
structure Link where
  rxSeq : Nat := 0
  txSeq : Nat := 0
  unacked : List LinkTx := []
  naks : Nat := 0
  nakPending : Bool := false
deriving DecidableEq, Repr

/-- A flit that waits at a port to leave by it: its virtual channel there and, for one that holds a place in a receive
buffer, the link it came on and the virtual channel of that place (R375, R377). -/
structure Queued where
  vc : Bool
  flit : LinkFlit
  held : Option (Nat × Bool) := none
deriving DecidableEq, Repr

/-- One port of the package (R366, R377): flits received out of PSEQ order with the links they came on, and flits that wait
to leave. -/
structure Port where
  rxPseq : Nat := 0
  txPseq : Nat := 0
  reorder : List (Nat × Option (Nat × LinkTx)) := []
  outq : List Queued := []
  nextLink : Nat := 0
  spent0 : Nat := 0
  spent1 : Nat := 0
deriving DecidableEq, Repr

/-- The package's ID and the torus as the links were last trained to them (R373, R387, R389; log 106). -/
structure Torus where
  id : Nat := 0
  topology : Nat := 0
  dimX : Nat := 0
  dimY : Nat := 0
  dimZ : Nat := 0
deriving DecidableEq, Repr

/-- The link switches besides links and ports (R369, R379, R381, R384): the torus routes follow, notices being packed by destination, units
of a move being repacked by its core and number, the packages that arrived at a barrier, and for each NOTICES flit
received its source and the ring flits of it not yet removed. -/
structure Net where
  torus : Torus := {}
  pack : List (Nat × List W32) := []
  repack : List (Nat × Option LinkFlit) := []
  unackedNotices : Nat := 0
  senders : List (Nat × List Nat) := []
  nackOwed : List (Nat × (Nat × Nat)) := []
  nackNext : Nat := 0
  rootDrain : List (Nat × Bool) := []
  homeDrain : List (Nat × Bool) := []
deriving DecidableEq, Repr

/-- Consumers that wait for the DRBG (R435). -/
inductive EntReq where
  | pourSeed (part : Nat)
  | nextSeed (part : Nat)
  | quote (nonce : BitVec 256)
  | hostRandom
  | challenge
deriving DecidableEq, Repr

/-- Key and V of the DRBG (R434). -/
structure DrbgState where
  key : List Byte
  v : List Byte
deriving DecidableEq, Repr

/-- One oscillator's conditioned stream (R431, R432): the bit and length of the run that the repetition count test sees; the
bit, place in the window and count of the adaptive proportion test; how many bits the start-up tests have seen; and the bits
gathered for blocks. -/
structure Osc where
  runBit : Bool := false
  run : Nat := 0
  winBit : Bool := false
  winAt : Nat := 0
  winCount : Nat := 0
  started : Nat := 0
  bits : List Bool := []
deriving DecidableEq, Repr

/-- The entropy source and DRBG besides the ENT registers (R431-R441): the random register's FIFO; the requests that wait, each
with the tick of its arrival; the 32 oscillators' streams and a sample that waits for the second of its pair; the first block
of an instantiation; Key and V once instantiated; reseeds and instantiations asked for; the tick at which RUN was first
reached. -/
structure Ent where
  fifo : List W32 := []
  waiting : List (Nat × EntReq) := []
  oscs : List Osc := []
  odd : Option W32 := none
  seed : Option (BitVec 512) := none
  drbg : Option DrbgState := none
  reseedDue : Bool := false
  instDue : Bool := false
  runTick : Nat := 0
deriving DecidableEq, Repr

/-- A request of the DOE mailbox (R412, R489); `bad` is an object that it does not serve. -/
inductive DoeReq where
  | discovery (index : Nat)
  | cdat
  | cert
  | quote (nonce : BitVec 256)
  | bad
deriving DecidableEq, Repr

/-- The function's configuration state and its registers beside BAR0 (R395, R396, R403, R404, R408, R412): the command
register's enables, base addresses, MSI-X control, masks, pending bits and table (BAR2 words of address and data), the HDM
decoder (BAR4), and the DOE requests that wait. -/
structure HostCfg where
  memorySpace : Bool := false
  bars : List (Nat × W64) := []
  msixTable : List (Nat × W32) := []
  decoder : List (Nat × W64) := []
  doe : List DoeReq := []
  busMaster : Bool := false
  msixEnable : Bool := false
  functionMask : Bool := false
  masked : BitVec 64 := BitVec.allOnes 64
  msixPending : BitVec 64 := 0
  memoryInfoValid : Bool := false
  memoryActive : Bool := false
deriving DecidableEq, Repr

/-- What the GL8 sends out, in order (R407, R408, R400, R403, R412, R483, R503). -/
inductive Output where
  | flagWrite (addr : Nat) (value : W64)
  | msix (vec addr : Nat) (value : W32)
  | readData (off size : Nat) (value : W64)
  | cfgData (src : HostAddr) (size : Nat) (value : W64)
  | memData (addr : Nat) (data : List Byte) (poison : Bool)
  | writeDone (addr : Nat)
  | doe (data : List Byte)
  | smbus (data : List Byte)
  | smbusNack
  | smbusAck
  | monLine (data : List Byte)
  | monOk
  | monErr (code : Nat)
  | monByte (b : Byte)
  | monFrame (data : List Byte)
  | linkSend (link : Nat) (tx : LinkTx)
  | linkWord (link : Nat) (w : BitVec 40)
deriving DecidableEq, Repr

/-- A binary transfer of the monitor (R505): frames still to be accepted, or bytes still to come. -/
inductive Transfer where
  | sending (frames : List (List Byte)) (refusals : Nat)
  | loading (left : Nat) (got : List Byte) (refusals : Nat)
  | token (refusals : Nat)
deriving DecidableEq, Repr

/-- The monitor besides its registers (R505, R506): the transfer in progress and the tick of its last frame, the last
challenge not yet used and its tick, the tick at which the unlock ends. -/
structure Mon where
  transfer : Option Transfer := none
  frameTick : Nat := 0
  challenge : Option (BitVec 256) := none
  challengeTick : Nat := 0
  unlockEnd : Nat := 0
deriving DecidableEq, Repr

/-- Kinds of ladle dump that a fatal condition calls for (R493). -/
inductive DumpKind where
  | full | short | none
deriving DecidableEq, Repr

/-- What the dump writer keeps from the fatal condition for the dump's header (R499): SYS_STATE, ERR_DUMP_CFG,
PAT_DIGEST, and whether the boot ROM writes (R493, R496); and the bytes written. -/
structure DumpNote where
  sysState : W64 := 0
  sel : Nat := 0
  digest : List Byte := []
  rom : Bool := false
  len : Nat := 0
deriving DecidableEq, Repr

/-- Power, clock and bring-up state besides the PWR, ERR and SYS registers: the always-on domain out of reset (R513),
rails in regulation (R514), the tick from which DEEP_DELAY counts (R481), sensor 115 °C by die (R519), the tick from
which each crossing's occupancy has been 3 to 5 (R485); ticks with a partition held, in all and as samples (R474), the
operating point that a change waits for (R474); the sprue ring stopped (R493), the links stopped until heat 7 (R388), the control complex running (R502), the
START of this bring-up (R447), its first tick, whether FULL_NEXT was 1 at the reset, the training record that heat 3 uses
(R348), causes of non-conformance found (R464), SRAM rows that BIST found (R453), bring-up stopped (R465), the recovery buffer
(R470), an image that is being programmed with the tick at which that ends (R471), the ladle buffer (R497). -/
structure Pwr where
  aon : Bool := false
  rails : BitVec 20 := 0
  idleFrom : Nat := 0
  hot115 : BitVec 10 := 0
  calmFrom : List (Nat × Nat) := []
  heldTotal : Nat := 0
  heldLog : List (Nat × Nat) := []
  pointWant : Option Nat := none
  sprueStopped : Bool := false
  linksStopped : Bool := false
  ccRunning : Bool := false
  full : Bool := false
  fullWanted : Bool := false
  serving : Option TrainRec := none
  startTick : Nat := 0
  nonconformant : Bool := false
  bist : List SramRow := []
  stopped : Bool := false
  recBytes : Mem := {}
  prog : Option (Nat × List Byte) := none
  ladle : Mem := {}
  note : DumpNote := {}
deriving DecidableEq, Repr

/-- The whole GL8. `pending` is the queue of waiting commands, first in, first out. -/
structure State where
  pending : List Instr := []
  free : Nat := 0
  tick : Nat := 0
  regs : List (Nat × W32) := []
  cores : List (Nat × Core) := []
  stops : List (Nat × Stop) := []
  dies : List (Nat × Die) := []
  parts : List (Nat × Part) := []
  pat : Pat := {}
  crcUnits : List (Nat × CrcUnit) := []
  hostIn : List PatAdd := []
  fuses : Fuses := {}
  flash : Flash
  hbm : Mem := {}
  ctls : List (Nat × HbmCtl) := []
  srams : List (Nat × Sram) := []
  gatedTicks : List (Nat × Nat) := []
  acks : List (Nat × Nat × Nat) := []
  links : List (Nat × Link) := []
  ports : List (Nat × Port) := []
  net : Net := {}
  ent : Ent := {}
  hostcfg : HostCfg := {}
  out : List Output := []
  mon : Mon := {}
  pwr : Pwr := {}
deriving DecidableEq, Repr

/-- The flash as the part ships (R446: FULL_DAYS 90; R445: no training record until a heat 4 has written one). -/
def Flash.shipped : Flash where
  image := Config.erciaImage
  records := []
  fullNext := false
  fullDays := 90
  days := 0
  starts := 0
  linkId := 0
  linkTopology := 0
  linkX := 0
  linkY := 0
  linkZ := 0

/-- The GL8 right after reset: every register at the reset value of its table (an unlisted register reads it, see
`resetWord`), every queue empty, every memory as the fill leaves it (log 2). -/
def State.reset : State where
  flash := Flash.shipped

end Sys2Proof.Machine
end

