-- ==== Sys2Proof/Machine/Tbl.lean ====
section
/-!
DEFINITION. Sparse tables: a list of (key, value), keys strictly rising, no entry equal to what an unlisted key
reads as. Memories, registers and all numbered state are held so.
-/
namespace Sys2Proof.Machine

/-- What key `k` holds; `d` says what an unlisted key reads as. -/
def tblGet {α : Type} (d : Nat → α) : List (Nat × α) → Nat → α
  | [], k => d k
  | (j, v) :: t, k => if k = j then v else tblGet d t k

/-- Inserts an entry at its place. -/
def tblIns {α : Type} (k : Nat) (v : α) : List (Nat × α) → List (Nat × α)
  | [] => [(k, v)]
  | (j, w) :: t => if k < j then (k, v) :: (j, w) :: t else (j, w) :: tblIns k v t

/-- The table without key `k`. -/
def tblDel {α : Type} (k : Nat) : List (Nat × α) → List (Nat × α)
  | [] => []
  | (j, w) :: t => if k = j then tblDel k t else (j, w) :: tblDel k t

/-- Writes key `k`; writing what an unlisted key reads as removes the entry. -/
def tblPut {α : Type} [DecidableEq α] (d : Nat → α) (k : Nat) (v : α) (t : List (Nat × α)) : List (Nat × α) :=
  if v = d k then tblDel k t else tblIns k v (tblDel k t)

/-- Keys strictly rising from above `lo`. -/
def tblRising {α : Type} : List (Nat × α) → Bool
  | [] => true
  | [_] => true
  | (j, _) :: (k, v) :: t => decide (j < k) && tblRising ((k, v) :: t)

/-- The canonical form: keys strictly rising, no entry at its default. -/
def tblWf {α : Type} [DecidableEq α] (d : Nat → α) (t : List (Nat × α)) : Bool :=
  tblRising t && t.all (fun e => decide (e.2 ≠ d e.1))

/-- Keeps only the keys that satisfy `p`. -/
def tblFilter {α : Type} (p : Nat → Bool) (t : List (Nat × α)) : List (Nat × α) := t.filter (fun e => p e.1)

/-- Applies `f` to the value at `k`. -/
def tblMod {α : Type} [DecidableEq α] (d : Nat → α) (k : Nat) (f : α → α) (t : List (Nat × α)) :
    List (Nat × α) := tblPut d k (f (tblGet d t k)) t

end Sys2Proof.Machine
end

