-- ==== Sys2Proof/Machine/Regs.lean ====
section
/-!
DEFINITION. The register map: every register of the spec's register tables with its fields' access types (R12-R14,
R398, R399, R507), the reset values (R15), and the names the other files use.
-/
namespace Sys2Proof.Machine

/-- Access type of a field (R13). -/
inductive FTy where
  | ro | rw | w1c | wo | rc
deriving DecidableEq, Repr

/-- One field: least bit, width, type (R14). -/
structure FDesc where
  lo : Nat
  w : Nat
  ty : FTy
deriving DecidableEq, Repr

/-- A family of like registers: the byte offset of the first, the strides and counts of two indices, the size of
one register in bytes, its fields. -/
structure RegDesc where
  base : Nat
  stride : Nat
  count : Nat
  stride2 : Nat
  count2 : Nat
  size : Nat
  fields : List FDesc
deriving DecidableEq, Repr

/-- One register. -/
def rOne (base size : Nat) (fs : List FDesc) : RegDesc := ⟨base, 2 ^ 40, 1, 2 ^ 40, 1, size, fs⟩

/-- A run of like registers. -/
def rMany (base stride count size : Nat) (fs : List FDesc) : RegDesc := ⟨base, stride, count, 2 ^ 40, 1, size, fs⟩

/-- A run of runs of like registers. -/
def rGrid (base stride count stride2 count2 size : Nat) (fs : List FDesc) : RegDesc :=
  ⟨base, stride, count, stride2, count2, size, fs⟩

/-- Base of the page of logical core `lid` (R398). -/
def corePage (lid : Nat) : Nat := 0x01000000 + lid * 0x1000

/-- A register of every core page (R399). -/
def rCore (off size : Nat) (fs : List FDesc) : RegDesc := ⟨corePage 0 + off, 0x1000, 2048, 2 ^ 40, 1, size, fs⟩

/-- A run of registers of every core page (R399). -/
def rCores (off stride2 count2 size : Nat) (fs : List FDesc) : RegDesc :=
  ⟨corePage 0 + off, 0x1000, 2048, stride2, count2, size, fs⟩

/-- Whether byte offset `o` falls on a register of the family. -/
def RegDesc.covers (d : RegDesc) (o : Nat) : Bool :=
  decide (d.base ≤ o) && decide ((o - d.base) / d.stride < d.count) &&
    decide ((o - d.base) % d.stride / d.stride2 < d.count2) &&
    decide ((o - d.base) % d.stride % d.stride2 < d.size)

/-- The byte within its register that offset `o` is. -/
def RegDesc.within (d : RegDesc) (o : Nat) : Nat := (o - d.base) % d.stride % d.stride2

/-- A read-only field. -/
def ro (lo w : Nat) : FDesc := ⟨lo, w, .ro⟩
/-- A read-write field. -/
def rw_ (lo w : Nat) : FDesc := ⟨lo, w, .rw⟩
/-- A write-one-to-clear field. -/
def w1c (lo w : Nat) : FDesc := ⟨lo, w, .w1c⟩
/-- A write-only field. -/
def wo (lo w : Nat) : FDesc := ⟨lo, w, .wo⟩
/-- A read-to-clear field. -/
def rc (lo w : Nat) : FDesc := ⟨lo, w, .rc⟩

/-- The core page (R399): R41, R54, R68, R100, R103, R160, R188, R204, R238, R362. -/
def coreRegs : List RegDesc :=
  [rCore 0x000 8 [ro 0 11, ro 11 3, ro 14 1],
   rCore 0x200 4 [ro 0 16, ro 16 4, ro 20 4],
   rCores 0x204 4 4 4 [ro 0 18],
   rCore 0x214 4 [ro 0 18],
   rCore 0x218 4 [ro 0 15],
   rCore 0x21C 4 [ro 0 19],
   rCores 0x240 4 16 4 [ro 0 16, ro 16 16],
   rCore 0x280 4 [w1c 0 1, w1c 1 1, w1c 2 1, w1c 3 1, w1c 4 1],
   rCore 0x284 4 [w1c 0 16, w1c 16 16],
   rCores 0x288 4 3 4 [rc 0 32],
   rCore 0x298 8 [rc 0 64],
   rCores 0x300 4 16 4 [ro 0 32],
   rCores 0x348 4 6 4 [ro 0 19],
   rCores 0x340 4 2 4 [],
   rCore 0x360 4 [ro 0 1],
   rCore 0x380 4 [w1c 0 1, w1c 1 1, w1c 2 1],
   rCores 0x384 4 2 4 [rc 0 32],
   rCores 0x390 8 2 8 [rc 0 64],
   rCore 0x400 8 [ro 0 48],
   rCore 0x408 8 [ro 0 16, ro 16 16, ro 32 16],
   rCores 0x500 8 2 8 [ro 0 2, ro 2 2, ro 4 10, ro 14 1, ro 15 1, ro 16 1, ro 17 1, ro 32 32],
   rCore 0x510 4 [w1c 0 1, w1c 1 1, w1c 2 1, w1c 3 1, w1c 4 1],
   rCores 0x514 4 2 4 [rc 0 32],
   rCore 0x520 8 [rc 0 64],
   rCore 0x600 4 [w1c 0 1, w1c 1 1, w1c 2 1, w1c 3 1, w1c 4 1, w1c 5 1, w1c 6 1],
   rCores 0x604 4 2 4 [rc 0 32],
   rCore 0x610 8 [rc 0 64],
   rCores 0x700 8 64 8 [ro 0 64],
   rCores 0x900 0x40 4 8 [ro 0 12, ro 12 12, ro 24 12, ro 36 1],
   rCores 0x908 0x40 4 8 [ro 0 12, ro 12 3, ro 15 6, ro 21 3, ro 32 32],
   rCores 0x910 0x40 4 4 [ro 0 17, ro 17 1, ro 18 12],
   rCores 0x914 0x40 4 4 [ro 0 17, ro 17 1, ro 18 12],
   rCores 0x918 0x40 4 4 [ro 0 17, ro 17 1, ro 18 12],
   rCores 0x91C 0x40 4 4 [ro 0 17, ro 17 1, ro 18 12],
   rCores 0x920 0x40 4 4 [ro 0 32],
   rCores 0x928 0x40 4 4 [ro 0 8, ro 8 12],
   rCores 0x930 0x40 4 8 [rc 0 64],
   rCores 0x938 0x40 4 4 [rc 0 32],
   rCores 0xA00 4 64 4 [ro 0 16],
   rCore 0xB00 4 [w1c 0 1],
   rCore 0xB08 8 [ro 0 64],
   rCores 0xC00 8 64 8 [ro 0 26, ro 26 15, ro 41 18, ro 63 1],
   rCores 0xE00 4 4 4 [rc 0 32],
   rCore 0xE10 4 [ro 0 8, ro 8 6, ro 14 4],
   rCore 0xE18 8 [ro 0 64],
   rCore 0xF00 8 [ro 0 64],
   rCore 0xF08 8 [ro 0 32],
   rCore 0xF10 8 [rc 0 64],
   rCore 0xF18 8 [rc 0 32]]

/-- The SYS block (R402, R446, R447, R459, R460, R470). -/
def sysRegs : List RegDesc :=
  [rOne 0x0 8 [ro 0 16, ro 16 16, ro 32 16],
   rOne 0x8 8 [ro 0 64],
   rOne 0x10 8 [ro 0 4, ro 4 1, ro 5 1, ro 6 1, ro 7 1, ro 8 1],
   rOne 0x100 8 [rc 0 64],
   rOne 0x108 8 [ro 0 8, ro 8 1, ro 9 1, ro 16 48],
   rOne 0x180 8 [rw_ 0 1, ro 1 1, rw_ 16 16, ro 32 32],
   rMany 0x400 4 64 4 [ro 0 3, ro 3 4, ro 7 5, ro 12 1, ro 13 1, ro 31 1],
   rOne 0x800 8 [ro 0 1, wo 1 1, wo 2 1, ro 3 3, rw_ 8 6, rw_ 32 32],
   rMany 0x1000 4 640 4 [ro 0 32],
   rGrid 0x2000 0x80 8 8 16 8 [ro 0 54],
   rMany 0x10000 4 16384 4 [rw_ 0 32]]

/-- The HOST block (R233, R232, R234, R407, R409). -/
def hostRegs : List RegDesc :=
  [rMany 0x00100000 8 256 8 [ro 0 16, wo 16 16],
   rMany 0x00100800 8 256 8 [ro 0 1, ro 1 3, ro 4 6, ro 16 16],
   rMany 0x00101000 16 32 8 [rw_ 0 8, rw_ 8 16, rw_ 24 2, rw_ 26 5, rw_ 31 6, rw_ 63 1],
   rMany 0x00101008 16 32 8 [rc 0 32, ro 32 1],
   rMany 0x00102000 16 32 8 [rw_ 3 61],
   rMany 0x00102008 16 32 8 [rw_ 0 1, ro 32 32],
   rOne 0x00103000 8 [w1c 0 8, w1c 8 1, w1c 9 1, w1c 10 1, w1c 11 1, w1c 12 1, w1c 13 1],
   rOne 0x00103008 8 [rw_ 0 14],
   rMany 0x00140000 4 65536 4 [rc 0 16]]

/-- The PAT block (R119, R203, R237, R278, R292, R317). -/
def patRegs : List RegDesc :=
  [rOne 0x00200000 8 [rw_ 0 38],
   rOne 0x00200008 8 [wo 0 4, wo 8 8],
   rOne 0x00200010 8 [ro 0 2, ro 2 3, ro 8 8, ro 16 4, ro 32 32],
   rMany 0x00200020 8 4 8 [ro 0 64],
   rMany 0x00200040 8 4 8 [ro 0 64],
   rMany 0x00200100 8 8 8 [ro 0 2, ro 2 8],
   rMany 0x00200200 8 8 8 [ro 0 16, ro 16 48],
   rOne 0x00200300 8 [ro 0 4, ro 4 4, ro 8 4],
   rMany 0x00200400 8 8 8 [rw_ 0 32, rw_ 32 16, ro 48 6, ro 54 1, ro 63 1],
   rMany 0x00200500 32 8 8 [ro 0 64],
   rMany 0x00200508 32 8 8 [ro 0 32, ro 63 1],
   rMany 0x00200510 32 8 8 [rw_ 0 64],
   rMany 0x00200518 32 8 8 [rw_ 0 32, ro 61 1, wo 62 1, rw_ 63 1],
   rMany 0x00200600 8 8 8 [ro 0 8, ro 8 11, ro 19 2, ro 21 12, ro 62 1, ro 63 1],
   rMany 0x00200700 32 8 8 [wo 0 2, wo 2 1, wo 3 1, rw_ 4 1, ro 8 3, ro 16 8],
   rMany 0x00200708 32 8 8 [rw_ 0 38],
   rMany 0x00200710 32 8 8 [ro 0 32, ro 32 16, ro 48 1],
   rMany 0x00200718 32 8 8 [ro 0 48],
   rMany 0x00200900 16 8 8 [ro 0 1, ro 1 1, ro 2 1, ro 3 1, ro 4 1, ro 32 32],
   rMany 0x00200908 16 8 8 [ro 0 32, rc 32 32]]

/-- The CRC block (R430). -/
def crcRegs : List RegDesc :=
  [rMany 0x00300000 0x100 8 8 [rw_ 0 1, rw_ 1 1, rw_ 2 1, rw_ 3 1, rw_ 4 1, rw_ 5 1, rw_ 6 1, rw_ 7 1, rw_ 8 7, rw_ 16 2, rw_ 24 8, rw_ 32 6, rw_ 38 1],
   rGrid 0x00300008 0x100 8 8 3 8 [rw_ 0 64],
   rMany 0x00300020 0x100 8 8 [rw_ 0 38, rw_ 48 16],
   rMany 0x00300028 0x100 8 8 [rw_ 0 32, rw_ 32 32],
   rMany 0x00300030 0x100 8 8 [rw_ 0 16, ro 16 16, ro 32 2],
   rMany 0x00300038 0x100 8 8 [wo 0 2, wo 2 1, wo 3 1, wo 4 1, ro 8 16],
   rGrid 0x00300040 0x100 8 16 4 8 [rw_ 0 64],
   rGrid 0x00300048 0x100 8 16 4 8 [rw_ 0 32, ro 32 2, ro 34 3, ro 37 1],
   rGrid 0x00300080 0x100 8 16 8 8 [ro 0 64],
   rGrid 0x00300088 0x100 8 16 8 8 [ro 0 16, ro 16 3, ro 63 1],
   rMany 0x00301000 16 8 8 [rc 0 64],
   rMany 0x00301008 16 8 8 [rc 0 32, rc 32 32]]

/-- The ENT block (R442). -/
def entRegs : List RegDesc :=
  [rOne 0x00400000 8 [rw_ 0 1, wo 1 1, wo 2 1, rw_ 16 17],
   rOne 0x00400008 8 [ro 0 3, ro 3 3, ro 6 1, ro 7 1, ro 8 24],
   rOne 0x00400010 8 [rc 0 32, rc 32 32],
   rOne 0x00400018 8 [rc 0 32, rc 32 32],
   rOne 0x00400020 8 [rc 0 32, rc 32 1],
   rMany 0x00400040 8 4 8 [rw_ 0 64]]

/-- The HBM block (R362). -/
def hbmRegs : List RegDesc :=
  [rMany 0x00500000 0x1000 6 8 [ro 0 8, ro 8 2, ro 10 2, ro 12 1, ro 13 7, w1c 20 1],
   rMany 0x00500008 0x1000 6 4 [rc 0 32],
   rMany 0x0050000C 0x1000 6 4 [rc 0 32],
   rMany 0x00500010 0x1000 6 4 [rc 0 32],
   rMany 0x00500018 0x1000 6 8 [rc 0 64],
   rMany 0x00500040 0x1000 6 8 [ro 0 64],
   rMany 0x00500048 0x1000 6 8 [ro 0 29, rc 32 32],
   rMany 0x00500050 0x1000 6 8 [rw_ 0 32, w1c 32 1],
   rGrid 0x00500800 0x1000 6 8 64 8 [ro 0 5, ro 5 5, ro 10 15, ro 63 1],
   rOne 0x00508000 8 [rw_ 0 32, w1c 32 1]]

/-- The LNK block (R390). -/
def lnkRegs : List RegDesc :=
  [rOne 0x00600000 8 [rw_ 0 12, rw_ 12 2, rw_ 14 12, rw_ 26 12, rw_ 38 12, wo 62 1, ro 63 1],
   rMany 0x00601000 16 48 8 [ro 0 2, ro 2 1, ro 3 3, rc 32 32],
   rMany 0x00601008 16 48 8 [rc 0 32, rc 32 32],
   rMany 0x00602000 16 6 8 [ro 0 24, ro 24 2, ro 26 12],
   rMany 0x00602008 16 6 8 [ro 0 12, ro 12 12, rc 32 32],
   rMany 0x00603000 8 64 8 [ro 0 12, ro 12 24, ro 36 24],
   rMany 0x00604000 8 256 8 [ro 0 26, ro 26 15, ro 41 12, ro 63 1],
   rMany 0x00605000 16 256 8 [ro 0 26, ro 26 15, ro 41 12, ro 53 8, ro 63 1],
   rMany 0x00605008 16 256 8 [ro 0 26],
   rMany 0x00606000 8 512 8 [ro 0 64],
   rOne 0x00607000 8 [rc 0 32, rc 32 32]]

/-- The RING block (R267). -/
def ringRegs : List RegDesc :=
  [rGrid 0x00700000 0x1000 8 8 288 8 [ro 0 11, ro 11 1, ro 12 1, ro 13 1, rc 32 16, rc 48 16],
   rMany 0x00708000 0x40 8 8 [ro 0 9, ro 9 9, ro 18 9, ro 27 3, ro 30 1, ro 31 1],
   rMany 0x00708008 0x40 8 4 [rc 0 32],
   rMany 0x00708010 0x40 8 8 [rc 0 64],
   rMany 0x00708018 0x40 8 8 [rc 0 64],
   rMany 0x00709000 8 2048 8 [ro 0 26, ro 26 15, ro 41 8, ro 49 1, ro 63 1],
   rOne 0x0070E000 8 [ro 0 16, ro 16 1, rc 32 32],
   rMany 0x0070F000 8 64 8 [ro 0 3, ro 3 12, ro 15 12, ro 27 1, ro 28 1]]

/-- The PWR block (R491). -/
def pwrRegs : List RegDesc :=
  [rOne 0x00800000 8 [ro 0 2, ro 2 2, ro 4 1, ro 5 1, ro 8 8, ro 16 8],
   rOne 0x00800008 8 [rw_ 0 16, ro 16 16, ro 32 16, ro 48 16],
   rOne 0x00800010 8 [ro 0 16, ro 16 16],
   rOne 0x00800018 8 [rw_ 0 8, rw_ 8 8, rw_ 16 16, rw_ 32 8],
   rMany 0x00800100 8 10 8 [ro 0 8, ro 8 4, ro 12 8, ro 32 16],
   rMany 0x00800200 8 10 8 [ro 0 3, ro 3 3, ro 6 3, w1c 9 1, rc 32 32],
   rOne 0x00800300 8 [rc 0 32, rc 32 32],
   rOne 0x00800308 8 [rc 0 64]]

/-- The ERR block (R501). -/
def errRegs : List RegDesc :=
  [rOne 0x00900000 8 [ro 0 8, ro 8 1, ro 16 8],
   rOne 0x00900008 8 [ro 0 64],
   rOne 0x00900010 8 [ro 0 8, ro 8 8, ro 16 48],
   rOne 0x00900020 8 [ro 0 2, ro 2 1, ro 3 1, ro 4 1, wo 5 1, rc 8 8],
   rOne 0x00900030 8 [rw_ 0 1, rw_ 1 1, rw_ 2 1, rw_ 3 8],
   rOne 0x00900040 8 [ro 0 10, rc 32 32],
   rOne 0x00900048 8 [rc 0 32, rc 32 32],
   rOne 0x00900050 8 [rc 0 32, rc 32 32],
   rMany 0x00901000 16 1024 8 [ro 0 64],
   rMany 0x00901008 16 1024 8 [ro 0 3, ro 3 4, ro 7 11, ro 18 1, ro 19 8, ro 27 37]]

/-- The SEC block (R488). -/
def secRegs : List RegDesc :=
  [rMany 0x00A00000 8 16 8 [ro 0 64],
   rOne 0x00A00100 8 [ro 0 16]]

/-- The monitor registers (R507), reached only through the monitor. -/
def monRegs : List RegDesc :=
  [rOne 0x04000000 8 [ro 0 3, ro 3 1, ro 32 32],
   rOne 0x04000008 8 [rw_ 0 1, rw_ 1 6],
   rOne 0x04000010 8 [ro 0 32]]

/-- The BAR0 register map (R398). -/
def bar0Map : List RegDesc :=
  sysRegs ++ hostRegs ++ patRegs ++ crcRegs ++ entRegs ++ hbmRegs ++ lnkRegs ++ ringRegs ++ pwrRegs ++ errRegs ++
    secRegs ++ coreRegs

/-- Every register, those of the monitor included. -/
def regMap : List RegDesc := bar0Map ++ monRegs

/-- The register at byte offset `o`, if one is mapped there. -/
def findReg (m : List RegDesc) (o : Nat) : Option RegDesc := m.find? (·.covers o)

/-- The reset value of the 32-bit word number `k` (R15 and the Reset columns): every word not named here is 0. -/
def resetWord (k : Nat) : W32 :=
  if k = 0x0 then 0x0801#32                                   -- SYS_ID.PART (R402)
  else if k = 0x10 / 4 then 0x40#32                           -- SYS_STATE.LIMITED (R402)
  else if k = 0x00400004 / 4 then 1#32                        -- ENT INTERVAL 0x1_0000 at [32:16] (R442)
  else if 0x00500050 / 4 ≤ k ∧ k < 0x00506000 / 4 ∧ (k - 0x00500050 / 4) % 0x400 = 0 then 0xFA0#32 -- OVERDUE_MS (R362)
  else if k = 0x00508000 / 4 then 0x64#32                     -- HBM_SRAM_SCRUB.OVERDUE_MS (R362)
  else if k = 0x00800008 / 4 then 0x05DC05DC#32               -- PWR_CAP HOST_CAP, BMC_CAP (R491)
  else if k = 0x0080000C / 4 then 0x05DC0000#32               -- PWR_CAP EFFECTIVE (R491)
  else if k = 0x00800018 / 4 then 0x00646164#32               -- PWR_THERM T_PAUSE, T_RESUME, PAUSE_MIN (R491)
  else if k = 0x0080001C / 4 then 0x0A#32                     -- PWR_THERM.DEEP_DELAY (R491)
  else if k = 0x04000010 / 4 then 0x0001C200#32               -- MON_BAUD.RATE (R507)
  else 0#32

/-- A named field: the byte offset of its register, its least bit, its width. -/
structure Fld where
  off : Nat
  lo : Nat
  w : Nat
deriving DecidableEq, Repr

/-- Units (R41). -/
def cUnits (lid : Nat) : Fld := ⟨corePage lid + 0x200, 0, 16⟩

/-- Replicas (R41). -/
def cReplicas (lid : Nat) : Fld := ⟨corePage lid + 0x200, 16, 4⟩

/-- Colours (R41). -/
def cColours (lid : Nat) : Fld := ⟨corePage lid + 0x200, 20, 4⟩

/-- DescBase (R41). -/
def cDescBase (lid : Nat) : Fld := ⟨corePage lid + 0x204, 0, 18⟩

/-- FlagBase (R41). -/
def cFlagBase (lid : Nat) : Fld := ⟨corePage lid + 0x208, 0, 18⟩

/-- ReplBase (R41). -/
def cReplBase (lid : Nat) : Fld := ⟨corePage lid + 0x20C, 0, 18⟩

/-- ReplStride (R41). -/
def cReplStride (lid : Nat) : Fld := ⟨corePage lid + 0x210, 0, 18⟩

/-- GroupBase (R41). -/
def cGroupBase (lid : Nat) : Fld := ⟨corePage lid + 0x214, 0, 18⟩

/-- GroupCount (R41). -/
def cGroupCount (lid : Nat) : Fld := ⟨corePage lid + 0x218, 0, 15⟩

/-- Tables (R41). -/
def cTables (lid : Nat) : Fld := ⟨corePage lid + 0x21C, 0, 19⟩

/-- CORE_LACE_COLOUR_c.FIRST (R41). -/
def cColFirst (lid c : Nat) : Fld := ⟨corePage lid + 0x240 + 4 * c, 0, 16⟩

/-- CORE_LACE_COLOUR_c.END (R41). -/
def cColEnd (lid c : Nat) : Fld := ⟨corePage lid + 0x240 + 4 * c, 16, 16⟩

/-- Core page field (R68). -/
def cFieldSat (lid : Nat) : Fld := ⟨corePage lid + 0x280, 0, 1⟩

/-- Core page field (R68). -/
def cOncountSat (lid : Nat) : Fld := ⟨corePage lid + 0x280, 1, 1⟩

/-- Core page field (R68). -/
def cConflict (lid : Nat) : Fld := ⟨corePage lid + 0x280, 2, 1⟩

/-- Core page field (R68). -/
def cLacePoison (lid : Nat) : Fld := ⟨corePage lid + 0x280, 3, 1⟩

/-- Core page field (R68). -/
def cNoticeKeep (lid : Nat) : Fld := ⟨corePage lid + 0x280, 4, 1⟩

/-- Core page field (R68). -/
def cSatMask (lid : Nat) : Fld := ⟨corePage lid + 0x284, 0, 16⟩

/-- Core page field (R68). -/
def cConflictMask (lid : Nat) : Fld := ⟨corePage lid + 0x284, 16, 16⟩

/-- Core page field (R68). -/
def cConflicts (lid : Nat) : Fld := ⟨corePage lid + 0x288, 0, 32⟩

/-- Core page field (R68). -/
def cUnsub (lid : Nat) : Fld := ⟨corePage lid + 0x28C, 0, 32⟩

/-- Core page field (R68). -/
def cLaceStalls (lid : Nat) : Fld := ⟨corePage lid + 0x290, 0, 32⟩

/-- Core page field (R68). -/
def cUpdates (lid : Nat) : Fld := ⟨corePage lid + 0x298, 0, 64⟩

/-- Core page field (R100). -/
def cPortable (lid : Nat) : Fld := ⟨corePage lid + 0x360, 0, 1⟩

/-- Core page field (R100). -/
def cFree (lid : Nat) : Fld := ⟨corePage lid + 0x380, 0, 1⟩

/-- Core page field (R100). -/
def cGroupState (lid : Nat) : Fld := ⟨corePage lid + 0x380, 1, 1⟩

/-- Core page field (R100). -/
def cUndeclared (lid : Nat) : Fld := ⟨corePage lid + 0x380, 2, 1⟩

/-- Core page field (R100). -/
def cSuaStalls (lid : Nat) : Fld := ⟨corePage lid + 0x384, 0, 32⟩

/-- Core page field (R100). -/
def cGroupErr (lid : Nat) : Fld := ⟨corePage lid + 0x388, 0, 32⟩

/-- Core page field (R100). -/
def cEvals (lid : Nat) : Fld := ⟨corePage lid + 0x390, 0, 64⟩

/-- Core page field (R100). -/
def cFlips (lid : Nat) : Fld := ⟨corePage lid + 0x398, 0, 64⟩

/-- Core page field (R103). -/
def cResult (lid : Nat) : Fld := ⟨corePage lid + 0x400, 0, 48⟩

/-- Core page field (R103). -/
def cSweep (lid : Nat) : Fld := ⟨corePage lid + 0x408, 0, 16⟩

/-- Core page field (R103). -/
def cCurve (lid : Nat) : Fld := ⟨corePage lid + 0x408, 16, 16⟩

/-- Core page field (R103). -/
def cRestart (lid : Nat) : Fld := ⟨corePage lid + 0x408, 32, 16⟩

/-- Core page field (R160). -/
def cOuterSat (lid : Nat) : Fld := ⟨corePage lid + 0x510, 0, 1⟩

/-- Core page field (R160). -/
def cDropped (lid : Nat) : Fld := ⟨corePage lid + 0x510, 1, 1⟩

/-- Core page field (R160). -/
def cDrainSat (lid : Nat) : Fld := ⟨corePage lid + 0x510, 2, 1⟩

/-- Core page field (R160). -/
def cMacPoison (lid : Nat) : Fld := ⟨corePage lid + 0x510, 3, 1⟩

/-- Core page field (R160). -/
def cScaleNan (lid : Nat) : Fld := ⟨corePage lid + 0x510, 4, 1⟩

/-- Core page field (R160). -/
def cMacStalls (lid : Nat) : Fld := ⟨corePage lid + 0x514, 0, 32⟩

/-- Core page field (R160). -/
def cTiles (lid : Nat) : Fld := ⟨corePage lid + 0x518, 0, 32⟩

/-- Core page field (R160). -/
def cSteps (lid : Nat) : Fld := ⟨corePage lid + 0x520, 0, 64⟩

/-- Core page field (R188). -/
def cPsumSat (lid : Nat) : Fld := ⟨corePage lid + 0x600, 0, 1⟩

/-- Core page field (R188). -/
def cIntSat (lid : Nat) : Fld := ⟨corePage lid + 0x600, 1, 1⟩

/-- Core page field (R188). -/
def cFpSat (lid : Nat) : Fld := ⟨corePage lid + 0x600, 2, 1⟩

/-- Core page field (R188). -/
def cFpNan (lid : Nat) : Fld := ⟨corePage lid + 0x600, 3, 1⟩

/-- Core page field (R188). -/
def cWsat (lid : Nat) : Fld := ⟨corePage lid + 0x600, 4, 1⟩

/-- Core page field (R188). -/
def cVecPoison (lid : Nat) : Fld := ⟨corePage lid + 0x600, 5, 1⟩

/-- Core page field (R188). -/
def cEnergyOdd (lid : Nat) : Fld := ⟨corePage lid + 0x600, 6, 1⟩

/-- Core page field (R188). -/
def cVecStalls (lid : Nat) : Fld := ⟨corePage lid + 0x604, 0, 32⟩

/-- Core page field (R188). -/
def cXacc (lid : Nat) : Fld := ⟨corePage lid + 0x608, 0, 32⟩

/-- Core page field (R188). -/
def cVecOps (lid : Nat) : Fld := ⟨corePage lid + 0x610, 0, 64⟩

/-- Core page field (R238). -/
def cHostSat (lid : Nat) : Fld := ⟨corePage lid + 0xB00, 0, 1⟩

/-- Core page field (R238). -/
def cArrived (lid : Nat) : Fld := ⟨corePage lid + 0xB08, 0, 64⟩

/-- Core page field (R362). -/
def cLaceCorr (lid : Nat) : Fld := ⟨corePage lid + 0xE00, 0, 32⟩

/-- Core page field (R362). -/
def cTileCorr (lid : Nat) : Fld := ⟨corePage lid + 0xE04, 0, 32⟩

/-- Core page field (R362). -/
def cOpCorr (lid : Nat) : Fld := ⟨corePage lid + 0xE08, 0, 32⟩

/-- Core page field (R362). -/
def cUncorr (lid : Nat) : Fld := ⟨corePage lid + 0xE0C, 0, 32⟩

/-- Core page field (R362). -/
def cLaceRemap (lid : Nat) : Fld := ⟨corePage lid + 0xE10, 0, 8⟩

/-- Core page field (R362). -/
def cTileRemap (lid : Nat) : Fld := ⟨corePage lid + 0xE10, 8, 6⟩

/-- Core page field (R362). -/
def cOpRemap (lid : Nat) : Fld := ⟨corePage lid + 0xE10, 14, 4⟩

/-- Core page field (R362). -/
def cLastLap (lid : Nat) : Fld := ⟨corePage lid + 0xE18, 0, 64⟩

/-- Core page field (R204). -/
def cSeedLo (lid : Nat) : Fld := ⟨corePage lid + 0xF00, 0, 64⟩

/-- Core page field (R204). -/
def cSeedHi (lid : Nat) : Fld := ⟨corePage lid + 0xF08, 0, 32⟩

/-- Core page field (R204). -/
def cBlocks (lid : Nat) : Fld := ⟨corePage lid + 0xF10, 0, 64⟩

/-- Core page field (R204). -/
def cHolds (lid : Nat) : Fld := ⟨corePage lid + 0xF18, 0, 32⟩

/-- CORE_SUA_BETA_r (R100). -/
def cBeta (lid r : Nat) : Fld := ⟨corePage lid + 0x300 + 4 * r, 0, 32⟩

/-- CORE_SUA_TABLE_n.BASE (R100). -/
def cTable (lid n : Nat) : Fld := ⟨corePage lid + 0x340 + 4 * n, 0, 19⟩

/-- CORE_MAC_BANK_b (R160). -/
def cBankState (lid b : Nat) : Fld := ⟨corePage lid + 0x500 + 8 * b, 0, 2⟩

/-- CORE_MAC_BANK_b (R160). -/
def cBankFormat (lid b : Nat) : Fld := ⟨corePage lid + 0x500 + 8 * b, 2, 2⟩

/-- CORE_MAC_BANK_b (R160). -/
def cBankAnchor (lid b : Nat) : Fld := ⟨corePage lid + 0x500 + 8 * b, 4, 10⟩

/-- CORE_MAC_BANK_b (R160). -/
def cBankDrainIssued (lid b : Nat) : Fld := ⟨corePage lid + 0x500 + 8 * b, 14, 1⟩

/-- CORE_MAC_BANK_b (R160). -/
def cBankSat (lid b : Nat) : Fld := ⟨corePage lid + 0x500 + 8 * b, 15, 1⟩

/-- CORE_MAC_BANK_b (R160). -/
def cBankDropped (lid b : Nat) : Fld := ⟨corePage lid + 0x500 + 8 * b, 16, 1⟩

/-- CORE_MAC_BANK_b (R160). -/
def cBankPoison (lid b : Nat) : Fld := ⟨corePage lid + 0x500 + 8 * b, 17, 1⟩

/-- CORE_MAC_BANK_b (R160). -/
def cBankSteps (lid b : Nat) : Fld := ⟨corePage lid + 0x500 + 8 * b, 32, 32⟩

/-- Queue register field (R238). -/
def qBase (lid : Nat) (q : Queue) : Fld := ⟨corePage lid + 0x900 + 0x40 * q.num, 0, 12⟩

/-- Queue register field (R238). -/
def qLimit (lid : Nat) (q : Queue) : Fld := ⟨corePage lid + 0x900 + 0x40 * q.num, 12, 12⟩

/-- Queue register field (R238). -/
def qEntry (lid : Nat) (q : Queue) : Fld := ⟨corePage lid + 0x900 + 0x40 * q.num, 24, 12⟩

/-- Queue register field (R238). -/
def qUsed (lid : Nat) (q : Queue) : Fld := ⟨corePage lid + 0x900 + 0x40 * q.num, 36, 1⟩

/-- Queue register field (R238). -/
def qPc (lid : Nat) (q : Queue) : Fld := ⟨corePage lid + 0x908 + 0x40 * q.num, 0, 12⟩

/-- Queue register field (R238). -/
def qState (lid : Nat) (q : Queue) : Fld := ⟨corePage lid + 0x908 + 0x40 * q.num, 12, 3⟩

/-- Queue register field (R238). -/
def qWctr (lid : Nat) (q : Queue) : Fld := ⟨corePage lid + 0x908 + 0x40 * q.num, 15, 6⟩

/-- Queue register field (R238). -/
def qDepth (lid : Nat) (q : Queue) : Fld := ⟨corePage lid + 0x908 + 0x40 * q.num, 21, 3⟩

/-- Queue register field (R238). -/
def qWticks (lid : Nat) (q : Queue) : Fld := ⟨corePage lid + 0x908 + 0x40 * q.num, 32, 32⟩

/-- Queue register field (R238). -/
def qWdog (lid : Nat) (q : Queue) : Fld := ⟨corePage lid + 0x920 + 0x40 * q.num, 0, 32⟩

/-- Queue register field (R238). -/
def qFaultCode (lid : Nat) (q : Queue) : Fld := ⟨corePage lid + 0x928 + 0x40 * q.num, 0, 8⟩

/-- Queue register field (R238). -/
def qFaultPc (lid : Nat) (q : Queue) : Fld := ⟨corePage lid + 0x928 + 0x40 * q.num, 8, 12⟩

/-- Queue register field (R238). -/
def qOps (lid : Nat) (q : Queue) : Fld := ⟨corePage lid + 0x930 + 0x40 * q.num, 0, 64⟩

/-- Queue register field (R238). -/
def qWaits (lid : Nat) (q : Queue) : Fld := ⟨corePage lid + 0x938 + 0x40 * q.num, 0, 32⟩

/-- CORE_Q_LOOP_q_k (R238). -/
def qRemain (lid : Nat) (q : Queue) (k : Nat) : Fld := ⟨corePage lid + 0x910 + 0x40 * q.num + 4 * k, 0, 17⟩

/-- CORE_Q_LOOP_q_k (R238). -/
def qForever (lid : Nat) (q : Queue) (k : Nat) : Fld := ⟨corePage lid + 0x910 + 0x40 * q.num + 4 * k, 17, 1⟩

/-- CORE_Q_LOOP_q_k (R238). -/
def qStart (lid : Nat) (q : Queue) (k : Nat) : Fld := ⟨corePage lid + 0x910 + 0x40 * q.num + 4 * k, 18, 12⟩

/-- CORE_SYNC_CTR_n.VALUE (R238). -/
def cCtr (lid n : Nat) : Fld := ⟨corePage lid + 0xA00 + 4 * n, 0, 16⟩

/-- CORE_LACE_WIN_n (R54). -/
def cWinFirst (lid n : Nat) : Fld := ⟨corePage lid + 0xC00 + 8 * n, 0, 26⟩

/-- CORE_LACE_WIN_n (R54). -/
def cWinLast (lid n : Nat) : Fld := ⟨corePage lid + 0xC00 + 8 * n, 26, 15⟩

/-- CORE_LACE_WIN_n (R54). -/
def cWinDir (lid n : Nat) : Fld := ⟨corePage lid + 0xC00 + 8 * n, 41, 18⟩

/-- CORE_LACE_WIN_n (R54). -/
def cWinValid (lid n : Nat) : Fld := ⟨corePage lid + 0xC00 + 8 * n, 63, 1⟩

/-- SYS_ID (R402). -/
def sFwMajor : Fld := ⟨0x0, 16, 16⟩

/-- SYS_ID (R402). -/
def sFwMinor : Fld := ⟨0x0, 32, 16⟩

/-- SYS_SERIAL (R402). -/
def sSerial : Fld := ⟨0x8, 0, 64⟩

/-- SYS_STATE (R402). -/
def sHeat : Fld := ⟨0x10, 0, 4⟩

/-- SYS_STATE (R402). -/
def sReady : Fld := ⟨0x10, 4, 1⟩

/-- SYS_STATE (R402). -/
def sConformant : Fld := ⟨0x10, 5, 1⟩

/-- SYS_STATE (R402). -/
def sLimited : Fld := ⟨0x10, 6, 1⟩

/-- SYS_STATE (R402). -/
def sDegraded : Fld := ⟨0x10, 7, 1⟩

/-- SYS_STATE (R402). -/
def sFatal : Fld := ⟨0x10, 8, 1⟩

/-- SYS_IGNORED (R402). -/
def sIgnored : Fld := ⟨0x100, 0, 64⟩

/-- SYS_IGNORED_LAST (R402). -/
def sIgnCause : Fld := ⟨0x108, 0, 8⟩

/-- SYS_IGNORED_LAST (R402). -/
def sIgnCxl : Fld := ⟨0x108, 8, 1⟩

/-- SYS_IGNORED_LAST (R402). -/
def sIgnWrite : Fld := ⟨0x108, 9, 1⟩

/-- SYS_IGNORED_LAST (R402). -/
def sIgnAddr : Fld := ⟨0x108, 16, 48⟩

/-- SYS_BOOT (R446). -/
def sLastFull : Fld := ⟨0x180, 1, 1⟩

/-- SYS_RECOVERY (R470). -/
def sRecActive : Fld := ⟨0x800, 0, 1⟩

/-- SYS_RECOVERY (R470). -/
def sRecStatus : Fld := ⟨0x800, 3, 3⟩

/-- SYS_RECOVERY (R470). -/
def sRecPage : Fld := ⟨0x800, 8, 6⟩

/-- SYS_RECOVERY (R470). -/
def sRecLength : Fld := ⟨0x800, 32, 32⟩

/-- HOST_EVENT (R409). -/
def hEvent : Fld := ⟨0x00103000, 0, 14⟩

/-- HOST_EVENT_EN (R409). -/
def hEventEn : Fld := ⟨0x00103008, 0, 14⟩

/-- PAT_IMAGE_ADDR (R317). -/
def pImageAddr : Fld := ⟨0x00200000, 0, 38⟩

/-- PAT_STATE.IMAGE (R317). -/
def pImage : Fld := ⟨0x00200010, 0, 2⟩

/-- PAT_STATE.PATTERN (R317). -/
def pPattern : Fld := ⟨0x00200010, 2, 3⟩

/-- PAT_STATE.REASON (R317). -/
def pReason : Fld := ⟨0x00200010, 8, 8⟩

/-- PAT_STATE.IGNORED_OP (R317). -/
def pIgnoredOp : Fld := ⟨0x00200010, 16, 4⟩

/-- PAT_STATE.LANDED (R317). -/
def pLanded : Fld := ⟨0x00200010, 32, 32⟩

/-- ENT (R442). -/
def eMode : Fld := ⟨0x00400000, 0, 1⟩

/-- ENT (R442). -/
def eInterval : Fld := ⟨0x00400000, 16, 17⟩

/-- ENT (R442). -/
def eState : Fld := ⟨0x00400008, 0, 3⟩

/-- ENT (R442). -/
def eFails : Fld := ⟨0x00400008, 3, 3⟩

/-- ENT (R442). -/
def eStretched : Fld := ⟨0x00400008, 6, 1⟩

/-- ENT (R442). -/
def eStalled : Fld := ⟨0x00400008, 7, 1⟩

/-- ENT (R442). -/
def eRequests : Fld := ⟨0x00400008, 8, 24⟩

/-- ENT (R442). -/
def eRctFails : Fld := ⟨0x00400010, 0, 32⟩

/-- ENT (R442). -/
def eAptFails : Fld := ⟨0x00400010, 32, 32⟩

/-- ENT (R442). -/
def eReseeds : Fld := ⟨0x00400018, 0, 32⟩

/-- ENT (R442). -/
def eStallTicks : Fld := ⟨0x00400018, 32, 32⟩

/-- HBM_SRAM_SCRUB (R362). -/
def bSramMs : Fld := ⟨0x00508000, 0, 32⟩

/-- HBM_SRAM_SCRUB (R362). -/
def bSramOverdue : Fld := ⟨0x00508000, 32, 1⟩

/-- LNK_TOPO (R390). -/
def lId : Fld := ⟨0x00600000, 0, 12⟩

/-- LNK_TOPO (R390). -/
def lTopology : Fld := ⟨0x00600000, 12, 2⟩

/-- LNK_TOPO (R390). -/
def lDimX : Fld := ⟨0x00600000, 14, 12⟩

/-- LNK_TOPO (R390). -/
def lDimY : Fld := ⟨0x00600000, 26, 12⟩

/-- LNK_TOPO (R390). -/
def lDimZ : Fld := ⟨0x00600000, 38, 12⟩

/-- LNK_TOPO (R390). -/
def lAgreed : Fld := ⟨0x00600000, 63, 1⟩

/-- LNK_STATS (R390). -/
def lNoTarget : Fld := ⟨0x00607000, 0, 32⟩

/-- LNK_STATS (R390). -/
def lNoImport : Fld := ⟨0x00607000, 32, 32⟩

/-- RING_SPRUE (R267). -/
def gLanesUp : Fld := ⟨0x0070E000, 0, 16⟩

/-- RING_SPRUE (R267). -/
def gHostLanes : Fld := ⟨0x0070E000, 16, 1⟩

/-- RING_SPRUE (R267). -/
def gSprueDiscards : Fld := ⟨0x0070E000, 32, 32⟩

/-- PWR_STATE (R491). -/
def wPoint : Fld := ⟨0x00800000, 0, 2⟩

/-- PWR_STATE (R491). -/
def wPlanPoint : Fld := ⟨0x00800000, 2, 2⟩

/-- PWR_STATE (R491). -/
def wHeld : Fld := ⟨0x00800000, 4, 1⟩

/-- PWR_STATE (R491). -/
def wDeep : Fld := ⟨0x00800000, 5, 1⟩

/-- PWR_STATE (R491). -/
def wGated : Fld := ⟨0x00800000, 8, 8⟩

/-- PWR_STATE (R491). -/
def wOff : Fld := ⟨0x00800000, 16, 8⟩

/-- PWR_CAP (R491). -/
def wHostCap : Fld := ⟨0x00800008, 0, 16⟩

/-- PWR_CAP (R491). -/
def wBmcCap : Fld := ⟨0x00800008, 16, 16⟩

/-- PWR_CAP (R491). -/
def wPlanCap : Fld := ⟨0x00800008, 32, 16⟩

/-- PWR_CAP (R491). -/
def wEffective : Fld := ⟨0x00800008, 48, 16⟩

/-- PWR_POWER (R491). -/
def wAvg : Fld := ⟨0x00800010, 0, 16⟩

/-- PWR_POWER (R491). -/
def wAvg10 : Fld := ⟨0x00800010, 16, 16⟩

/-- PWR_THERM (R491). -/
def wTPause : Fld := ⟨0x00800018, 0, 8⟩

/-- PWR_THERM (R491). -/
def wTResume : Fld := ⟨0x00800018, 8, 8⟩

/-- PWR_THERM (R491). -/
def wPauseMin : Fld := ⟨0x00800018, 16, 16⟩

/-- PWR_THERM (R491). -/
def wDeepDelay : Fld := ⟨0x00800018, 32, 8⟩

/-- PWR counters (R491). -/
def wPauses : Fld := ⟨0x00800300, 0, 32⟩

/-- PWR counters (R491). -/
def wChanges : Fld := ⟨0x00800300, 32, 32⟩

/-- PWR counters (R491). -/
def wHeldTicks : Fld := ⟨0x00800308, 0, 64⟩

/-- ERR_FATAL (R501). -/
def rFatalCode : Fld := ⟨0x00900000, 0, 8⟩

/-- ERR_FATAL (R501). -/
def rFatalValid : Fld := ⟨0x00900000, 8, 1⟩

/-- ERR_FATAL (R501). -/
def rSecond : Fld := ⟨0x00900000, 16, 8⟩

/-- ERR_FATAL_TICK (R501). -/
def rFatalTick : Fld := ⟨0x00900008, 0, 64⟩

/-- ERR_FATAL_INFO (R501). -/
def rInfoDie : Fld := ⟨0x00900010, 0, 8⟩

/-- ERR_FATAL_INFO (R501). -/
def rInfoItem : Fld := ⟨0x00900010, 8, 8⟩

/-- ERR_FATAL_INFO (R501). -/
def rInfoDetail : Fld := ⟨0x00900010, 16, 48⟩

/-- ERR_DUMP (R501). -/
def rDumpState : Fld := ⟨0x00900020, 0, 2⟩

/-- ERR_DUMP (R501). -/
def rDumpPresent : Fld := ⟨0x00900020, 2, 1⟩

/-- ERR_DUMP (R501). -/
def rDumpKind : Fld := ⟨0x00900020, 3, 1⟩

/-- ERR_DUMP (R501). -/
def rDumpBuffer : Fld := ⟨0x00900020, 4, 1⟩

/-- ERR_DUMP (R501). -/
def rSkipped : Fld := ⟨0x00900020, 8, 8⟩

/-- ERR_DUMP_CFG (R501). -/
def rDumpCfg : Fld := ⟨0x00900030, 0, 11⟩

/-- ERR_LOG (R501). -/
def rLogHead : Fld := ⟨0x00900040, 0, 10⟩

/-- ERR_LOG (R501). -/
def rLogWraps : Fld := ⟨0x00900040, 32, 32⟩

/-- ERR counters (R501). -/
def rCorrected : Fld := ⟨0x00900048, 0, 32⟩

/-- ERR counters (R501). -/
def rContained : Fld := ⟨0x00900048, 32, 32⟩

/-- ERR counters (R501). -/
def rPattern : Fld := ⟨0x00900050, 0, 32⟩

/-- ERR counters (R501). -/
def rPoisoned : Fld := ⟨0x00900050, 32, 32⟩

/-- SEC_EXTENDS (R488). -/
def xM3Count : Fld := ⟨0x00A00100, 0, 16⟩

/-- MON_UNLOCK (R507). -/
def mScope : Fld := ⟨0x04000000, 0, 3⟩

/-- MON_UNLOCK (R507). -/
def mActive : Fld := ⟨0x04000000, 3, 1⟩

/-- MON_UNLOCK (R507). -/
def mRemain : Fld := ⟨0x04000000, 32, 32⟩

/-- MON_ENT_RAW (R507). -/
def mRaw : Fld := ⟨0x04000008, 0, 1⟩

/-- MON_ENT_RAW (R507). -/
def mSource : Fld := ⟨0x04000008, 1, 6⟩

/-- MON_BAUD (R507). -/
def mRate : Fld := ⟨0x04000010, 0, 32⟩

/-- HOST_HC_h.VALUE (R233). -/
def hcValue (h : Nat) : Fld := ⟨0x00100000 + 8 * h, 0, 16⟩

/-- HOST_HC_CFG_h (R233). -/
def hcForward (h : Nat) : Fld := ⟨0x00100800 + 8 * h, 0, 1⟩

/-- HOST_HC_CFG_h (R233). -/
def hcPart (h : Nat) : Fld := ⟨0x00100800 + 8 * h, 1, 3⟩

/-- HOST_HC_CFG_h (R233). -/
def hcCtr (h : Nat) : Fld := ⟨0x00100800 + 8 * h, 4, 6⟩

/-- HOST_HC_CFG_h (R233). -/
def hcTotal (h : Nat) : Fld := ⟨0x00100800 + 8 * h, 16, 16⟩

/-- HOST_WATCH_w (R234). -/
def wtCounter (w : Nat) : Fld := ⟨0x00101000 + 16 * w, 0, 8⟩

/-- HOST_WATCH_w (R234). -/
def wtThreshold (w : Nat) : Fld := ⟨0x00101000 + 16 * w, 8, 16⟩

/-- HOST_WATCH_w (R234). -/
def wtAction (w : Nat) : Fld := ⟨0x00101000 + 16 * w, 24, 2⟩

/-- HOST_WATCH_w (R234). -/
def wtFlag (w : Nat) : Fld := ⟨0x00101000 + 16 * w, 26, 5⟩

/-- HOST_WATCH_w (R234). -/
def wtVector (w : Nat) : Fld := ⟨0x00101000 + 16 * w, 31, 6⟩

/-- HOST_WATCH_w (R234). -/
def wtEn (w : Nat) : Fld := ⟨0x00101000 + 16 * w, 63, 1⟩

/-- HOST_WATCH_w (R234). -/
def wtFires (w : Nat) : Fld := ⟨0x00101008 + 16 * w, 0, 32⟩

/-- HOST_WATCH_w (R234). -/
def wtAbove (w : Nat) : Fld := ⟨0x00101008 + 16 * w, 32, 1⟩

/-- HOST_FLAG_f (R407): the whole word 0, bits [2:0] read 0. -/
def flAddr (f : Nat) : Fld := ⟨0x00102000 + 16 * f, 0, 64⟩

/-- HOST_FLAG_f (R407). -/
def flEn (f : Nat) : Fld := ⟨0x00102008 + 16 * f, 0, 1⟩

/-- HOST_FLAG_f (R407). -/
def flSeq (f : Nat) : Fld := ⟨0x00102008 + 16 * f, 32, 32⟩

/-- PAT_PART_p.STATE (R317). -/
def ppState (p : Nat) : Fld := ⟨0x00200100 + 8 * p, 0, 2⟩

/-- PAT_PART_p.DIES (R317). -/
def ppDies (p : Nat) : Fld := ⟨0x00200100 + 8 * p, 2, 8⟩

/-- PAT_PATCH_p (R317). -/
def ppSeq (p : Nat) : Fld := ⟨0x00200200 + 8 * p, 0, 16⟩

/-- PAT_PATCH_p (R317). -/
def ppPatchResult (p : Nat) : Fld := ⟨0x00200200 + 8 * p, 16, 48⟩

/-- PAT_DEADLINE_p (R119). -/
def pdTicks (p : Nat) : Fld := ⟨0x00200400 + 8 * p, 0, 32⟩

/-- PAT_DEADLINE_p (R119). -/
def pdMin (p : Nat) : Fld := ⟨0x00200400 + 8 * p, 32, 16⟩

/-- PAT_DEADLINE_p (R119). -/
def pdCtr (p : Nat) : Fld := ⟨0x00200400 + 8 * p, 48, 6⟩

/-- PAT_DEADLINE_p (R119). -/
def pdFired (p : Nat) : Fld := ⟨0x00200400 + 8 * p, 54, 1⟩

/-- PAT_DEADLINE_p (R119). -/
def pdEnable (p : Nat) : Fld := ⟨0x00200400 + 8 * p, 63, 1⟩

/-- PAT_SEED_p (R203). -/
def psLo (p : Nat) : Fld := ⟨0x00200500 + 32 * p, 0, 64⟩

/-- PAT_SEED_p (R203). -/
def psHi (p : Nat) : Fld := ⟨0x00200508 + 32 * p, 0, 32⟩

/-- PAT_SEED_p (R203). -/
def psFresh (p : Nat) : Fld := ⟨0x00200508 + 32 * p, 63, 1⟩

/-- PAT_NEXT_SEED_p (R203). -/
def pnLo (p : Nat) : Fld := ⟨0x00200510 + 32 * p, 0, 64⟩

/-- PAT_NEXT_SEED_p (R203). -/
def pnHi (p : Nat) : Fld := ⟨0x00200518 + 32 * p, 0, 32⟩

/-- PAT_NEXT_SEED_p (R203). -/
def pnFilling (p : Nat) : Fld := ⟨0x00200518 + 32 * p, 61, 1⟩

/-- PAT_NEXT_SEED_p (R203). -/
def pnPending (p : Nat) : Fld := ⟨0x00200518 + 32 * p, 63, 1⟩

/-- PAT_FAULT_p (R237). -/
def pfCode (p : Nat) : Fld := ⟨0x00200600 + 8 * p, 0, 8⟩

/-- PAT_FAULT_p (R237). -/
def pfCore (p : Nat) : Fld := ⟨0x00200600 + 8 * p, 8, 11⟩

/-- PAT_FAULT_p (R237). -/
def pfQueue (p : Nat) : Fld := ⟨0x00200600 + 8 * p, 19, 2⟩

/-- PAT_FAULT_p (R237). -/
def pfPc (p : Nat) : Fld := ⟨0x00200600 + 8 * p, 21, 12⟩

/-- PAT_FAULT_p (R237). -/
def pfRemote (p : Nat) : Fld := ⟨0x00200600 + 8 * p, 62, 1⟩

/-- PAT_FAULT_p (R237). -/
def pfValid (p : Nat) : Fld := ⟨0x00200600 + 8 * p, 63, 1⟩

/-- PAT_CKPT_p (R292). -/
def pkResultOnly (p : Nat) : Fld := ⟨0x00200700 + 32 * p, 4, 1⟩

/-- PAT_CKPT_p (R292). -/
def pkState (p : Nat) : Fld := ⟨0x00200700 + 32 * p, 8, 3⟩

/-- PAT_CKPT_p (R292). -/
def pkStatus (p : Nat) : Fld := ⟨0x00200700 + 32 * p, 16, 8⟩

/-- PAT_CKPT_p (R292). -/
def pkAddr (p : Nat) : Fld := ⟨0x00200708 + 32 * p, 0, 38⟩

/-- PAT_CKPT_p (R292). -/
def pkKib (p : Nat) : Fld := ⟨0x00200710 + 32 * p, 0, 32⟩

/-- PAT_CKPT_p (R292). -/
def pkSweep (p : Nat) : Fld := ⟨0x00200710 + 32 * p, 32, 16⟩

/-- PAT_CKPT_p (R292). -/
def pkKind (p : Nat) : Fld := ⟨0x00200710 + 32 * p, 48, 1⟩

/-- PAT_CKPT_p (R292). -/
def pkResult (p : Nat) : Fld := ⟨0x00200718 + 32 * p, 0, 48⟩

/-- PAT_EXACT_p (R278). -/
def pxExtra (p : Nat) : Fld := ⟨0x00200900 + 16 * p, 0, 1⟩

/-- PAT_EXACT_p (R278). -/
def pxPause (p : Nat) : Fld := ⟨0x00200900 + 16 * p, 1, 1⟩

/-- PAT_EXACT_p (R278). -/
def pxLink (p : Nat) : Fld := ⟨0x00200900 + 16 * p, 2, 1⟩

/-- PAT_EXACT_p (R278). -/
def pxSpan (p : Nat) : Fld := ⟨0x00200900 + 16 * p, 3, 1⟩

/-- PAT_EXACT_p (R278). -/
def pxHold (p : Nat) : Fld := ⟨0x00200900 + 16 * p, 4, 1⟩

/-- PAT_EXACT_p (R278). -/
def pxCycles (p : Nat) : Fld := ⟨0x00200900 + 16 * p, 32, 32⟩

/-- PAT_EXACT_p (R278). -/
def pxCompiled (p : Nat) : Fld := ⟨0x00200908 + 16 * p, 0, 32⟩

/-- PAT_EXACT_p (R278). -/
def pxMisses (p : Nat) : Fld := ⟨0x00200908 + 16 * p, 32, 32⟩

/-- CRC_CFG_u (R430). -/
def uEn (u : Nat) : Fld := ⟨0x00300000 + 0x100 * u, 0, 1⟩

/-- CRC_CFG_u (R430). -/
def uDir (u : Nat) : Fld := ⟨0x00300000 + 0x100 * u, 1, 1⟩

/-- CRC_CFG_u (R430). -/
def uHold (u : Nat) : Fld := ⟨0x00300000 + 0x100 * u, 2, 1⟩

/-- CRC_CFG_u (R430). -/
def uAliveEn (u : Nat) : Fld := ⟨0x00300000 + 0x100 * u, 3, 1⟩

/-- CRC_CFG_u (R430). -/
def uCrcEn (u : Nat) : Fld := ⟨0x00300000 + 0x100 * u, 4, 1⟩

/-- CRC_CFG_u (R430). -/
def uRefIn (u : Nat) : Fld := ⟨0x00300000 + 0x100 * u, 5, 1⟩

/-- CRC_CFG_u (R430). -/
def uRefOut (u : Nat) : Fld := ⟨0x00300000 + 0x100 * u, 6, 1⟩

/-- CRC_CFG_u (R430). -/
def uNextLoad (u : Nat) : Fld := ⟨0x00300000 + 0x100 * u, 7, 1⟩

/-- CRC_CFG_u (R430). -/
def uWidth (u : Nat) : Fld := ⟨0x00300000 + 0x100 * u, 8, 7⟩

/-- CRC_CFG_u (R430). -/
def uSlots (u : Nat) : Fld := ⟨0x00300000 + 0x100 * u, 16, 2⟩

/-- CRC_CFG_u (R430). -/
def uHc (u : Nat) : Fld := ⟨0x00300000 + 0x100 * u, 24, 8⟩

/-- CRC_CFG_u (R430). -/
def uStaleCtr (u : Nat) : Fld := ⟨0x00300000 + 0x100 * u, 32, 6⟩

/-- CRC_CFG_u (R430). -/
def uStaleSet (u : Nat) : Fld := ⟨0x00300000 + 0x100 * u, 38, 1⟩

/-- Check-value unit register (R430). -/
def uPoly (u : Nat) : Fld := ⟨0x00300000 + 0x100 * u + 0x08, 0, 64⟩

/-- Check-value unit register (R430). -/
def uInit (u : Nat) : Fld := ⟨0x00300000 + 0x100 * u + 0x10, 0, 64⟩

/-- Check-value unit register (R430). -/
def uXor (u : Nat) : Fld := ⟨0x00300000 + 0x100 * u + 0x18, 0, 64⟩

/-- Check-value unit register (R430). -/
def uBase (u : Nat) : Fld := ⟨0x00300000 + 0x100 * u + 0x20, 0, 38⟩

/-- Check-value unit register (R430). -/
def uAliveOff (u : Nat) : Fld := ⟨0x00300000 + 0x100 * u + 0x20, 48, 16⟩

/-- Check-value unit register (R430). -/
def uSlotBytes (u : Nat) : Fld := ⟨0x00300000 + 0x100 * u + 0x28, 0, 32⟩

/-- Check-value unit register (R430). -/
def uBlockBytes (u : Nat) : Fld := ⟨0x00300000 + 0x100 * u + 0x28, 32, 32⟩

/-- Check-value unit register (R430). -/
def uNext (u : Nat) : Fld := ⟨0x00300000 + 0x100 * u + 0x30, 0, 16⟩

/-- Check-value unit register (R430). -/
def uLast (u : Nat) : Fld := ⟨0x00300000 + 0x100 * u + 0x30, 16, 16⟩

/-- Check-value unit register (R430). -/
def uNextSlot (u : Nat) : Fld := ⟨0x00300000 + 0x100 * u + 0x30, 32, 2⟩

/-- Check-value unit register (R430). -/
def uHeld (u : Nat) : Fld := ⟨0x00300000 + 0x100 * u + 0x38, 8, 16⟩

/-- CRC_SLOT_u_s (R430). -/
def uRunning (u s : Nat) : Fld := ⟨0x00300000 + 0x100 * u + 0x40 + 16 * s, 0, 64⟩

/-- CRC_SLOT_u_s (R430). -/
def uFilled (u s : Nat) : Fld := ⟨0x00300000 + 0x100 * u + 0x48 + 16 * s, 0, 32⟩

/-- CRC_SLOT_u_s (R430). -/
def uSlotState (u s : Nat) : Fld := ⟨0x00300000 + 0x100 * u + 0x48 + 16 * s, 32, 2⟩

/-- CRC_SLOT_u_s (R430). -/
def uResult (u s : Nat) : Fld := ⟨0x00300000 + 0x100 * u + 0x48 + 16 * s, 34, 3⟩

/-- CRC_SLOT_u_s (R430). -/
def uDamaged (u s : Nat) : Fld := ⟨0x00300000 + 0x100 * u + 0x48 + 16 * s, 37, 1⟩

/-- CRC_LOG_u_e (R430). -/
def uLogValue (u e : Nat) : Fld := ⟨0x00300000 + 0x100 * u + 0x80 + 16 * e, 0, 64⟩

/-- CRC_LOG_u_e (R430). -/
def uLogAlive (u e : Nat) : Fld := ⟨0x00300000 + 0x100 * u + 0x88 + 16 * e, 0, 16⟩

/-- CRC_LOG_u_e (R430). -/
def uLogStatus (u e : Nat) : Fld := ⟨0x00300000 + 0x100 * u + 0x88 + 16 * e, 16, 3⟩

/-- CRC_LOG_u_e (R430). -/
def uLogValid (u e : Nat) : Fld := ⟨0x00300000 + 0x100 * u + 0x88 + 16 * e, 63, 1⟩

/-- Unit counters (R430). -/
def uBlocks (u : Nat) : Fld := ⟨0x00301000 + 16 * u, 0, 64⟩

/-- Unit counters (R430). -/
def uStale (u : Nat) : Fld := ⟨0x00301008 + 16 * u, 0, 32⟩

/-- Unit counters (R430). -/
def uDrops (u : Nat) : Fld := ⟨0x00301008 + 16 * u, 32, 32⟩

/-- HBM block field (R362). -/
def bTemp (c : Nat) : Fld := ⟨0x00500000 + 0x1000 * c + 0, 0, 8⟩

/-- HBM block field (R362). -/
def bClass (c : Nat) : Fld := ⟨0x00500000 + 0x1000 * c + 0, 8, 2⟩

/-- HBM block field (R362). -/
def bTrained (c : Nat) : Fld := ⟨0x00500000 + 0x1000 * c + 0, 10, 2⟩

/-- HBM block field (R362). -/
def bReady (c : Nat) : Fld := ⟨0x00500000 + 0x1000 * c + 0, 12, 1⟩

/-- HBM block field (R362). -/
def bRemapUsed (c : Nat) : Fld := ⟨0x00500000 + 0x1000 * c + 0, 13, 7⟩

/-- HBM block field (R362). -/
def bRemapFull (c : Nat) : Fld := ⟨0x00500000 + 0x1000 * c + 0, 20, 1⟩

/-- HBM block field (R362). -/
def bCorrected (c : Nat) : Fld := ⟨0x00500000 + 0x1000 * c + 0x08, 0, 32⟩

/-- HBM block field (R362). -/
def bUncorr (c : Nat) : Fld := ⟨0x00500000 + 0x1000 * c + 0x0C, 0, 32⟩

/-- HBM block field (R362). -/
def bExtra (c : Nat) : Fld := ⟨0x00500000 + 0x1000 * c + 0x10, 0, 32⟩

/-- HBM block field (R362). -/
def bRemapHits (c : Nat) : Fld := ⟨0x00500000 + 0x1000 * c + 0x18, 0, 64⟩

/-- HBM block field (R362). -/
def bLastLap (c : Nat) : Fld := ⟨0x00500000 + 0x1000 * c + 0x40, 0, 64⟩

/-- HBM block field (R362). -/
def bProgress (c : Nat) : Fld := ⟨0x00500000 + 0x1000 * c + 0x48, 0, 29⟩

/-- HBM block field (R362). -/
def bLaps (c : Nat) : Fld := ⟨0x00500000 + 0x1000 * c + 0x48, 32, 32⟩

/-- HBM block field (R362). -/
def bOverdueMs (c : Nat) : Fld := ⟨0x00500000 + 0x1000 * c + 0x50, 0, 32⟩

/-- HBM block field (R362). -/
def bLapOverdue (c : Nat) : Fld := ⟨0x00500000 + 0x1000 * c + 0x50, 32, 1⟩

/-- HBM_REMAP_c_n (R362). -/
def bmPc (c n : Nat) : Fld := ⟨0x00500800 + 0x1000 * c + 8 * n, 0, 5⟩

/-- HBM_REMAP_c_n (R362). -/
def bmBank (c n : Nat) : Fld := ⟨0x00500800 + 0x1000 * c + 8 * n, 5, 5⟩

/-- HBM_REMAP_c_n (R362). -/
def bmRow (c n : Nat) : Fld := ⟨0x00500800 + 0x1000 * c + 8 * n, 10, 15⟩

/-- HBM_REMAP_c_n (R362). -/
def bmValid (c n : Nat) : Fld := ⟨0x00500800 + 0x1000 * c + 8 * n, 63, 1⟩

/-- LNK_LINK_n (R390). -/
def lkState (n : Nat) : Fld := ⟨0x00601000 + 16 * n + 0, 0, 2⟩

/-- LNK_LINK_n (R390). -/
def lkPair (n : Nat) : Fld := ⟨0x00601000 + 16 * n + 0, 2, 1⟩

/-- LNK_LINK_n (R390). -/
def lkPort (n : Nat) : Fld := ⟨0x00601000 + 16 * n + 0, 3, 3⟩

/-- LNK_LINK_n (R390). -/
def lkRetrains (n : Nat) : Fld := ⟨0x00601000 + 16 * n + 0, 32, 32⟩

/-- LNK_LINK_n (R390). -/
def lkResends (n : Nat) : Fld := ⟨0x00601000 + 16 * n + 8, 0, 32⟩

/-- LNK_LINK_n (R390). -/
def lkCorr (n : Nat) : Fld := ⟨0x00601000 + 16 * n + 8, 32, 32⟩

/-- LNK_PORT_k (R390). -/
def lpLive (k : Nat) : Fld := ⟨0x00602000 + 16 * k + 0, 0, 24⟩

/-- LNK_PORT_k (R390). -/
def lpState (k : Nat) : Fld := ⟨0x00602000 + 16 * k + 0, 24, 2⟩

/-- LNK_PORT_k (R390). -/
def lpNeighbour (k : Nat) : Fld := ⟨0x00602000 + 16 * k + 0, 26, 12⟩

/-- LNK_PORT_k (R390). -/
def lpOcc0 (k : Nat) : Fld := ⟨0x00602000 + 16 * k + 8, 0, 12⟩

/-- LNK_PORT_k (R390). -/
def lpOcc1 (k : Nat) : Fld := ⟨0x00602000 + 16 * k + 8, 12, 12⟩

/-- LNK_PORT_k (R390). -/
def lpUnreach (k : Nat) : Fld := ⟨0x00602000 + 16 * k + 8, 32, 32⟩

/-- LNK_BAR_b (R390). -/
def lbHome (b : Nat) : Fld := ⟨0x00603000 + 8 * b, 0, 12⟩

/-- LNK_BAR_b (R390). -/
def lbTotal (b : Nat) : Fld := ⟨0x00603000 + 8 * b, 12, 24⟩

/-- LNK_BAR_b (R390). -/
def lbCount (b : Nat) : Fld := ⟨0x00603000 + 8 * b, 36, 24⟩

/-- LNK_EXPORT_n (R390). -/
def leFirst (n : Nat) : Fld := ⟨0x00604000 + 8 * n, 0, 26⟩

/-- LNK_EXPORT_n (R390). -/
def leLast (n : Nat) : Fld := ⟨0x00604000 + 8 * n, 26, 15⟩

/-- LNK_EXPORT_n (R390). -/
def leDpkg (n : Nat) : Fld := ⟨0x00604000 + 8 * n, 41, 12⟩

/-- LNK_EXPORT_n (R390). -/
def leValid (n : Nat) : Fld := ⟨0x00604000 + 8 * n, 63, 1⟩

/-- LNK_IMPORT_n (R390). -/
def liFirst (n : Nat) : Fld := ⟨0x00605000 + 16 * n + 0, 0, 26⟩

/-- LNK_IMPORT_n (R390). -/
def liLast (n : Nat) : Fld := ⟨0x00605000 + 16 * n + 0, 26, 15⟩

/-- LNK_IMPORT_n (R390). -/
def liSpkg (n : Nat) : Fld := ⟨0x00605000 + 16 * n + 0, 41, 12⟩

/-- LNK_IMPORT_n (R390). -/
def liDies (n : Nat) : Fld := ⟨0x00605000 + 16 * n + 0, 53, 8⟩

/-- LNK_IMPORT_n (R390). -/
def liValid (n : Nat) : Fld := ⟨0x00605000 + 16 * n + 0, 63, 1⟩

/-- LNK_IMPORT_n (R390). -/
def liAlias (n : Nat) : Fld := ⟨0x00605000 + 16 * n + 8, 0, 26⟩

/-- LNK_DEST_p, its 64-bit word q (R390). -/
def ldWord (p q : Nat) : Fld := ⟨0x00606000 + 0x200 * p + 8 * q, 0, 64⟩

/-- RING_STOP_d_p (R267). -/
def rsLid (d p : Nat) : Fld := ⟨0x00700000 + 0x1000 * d + 8 * p, 0, 11⟩

/-- RING_STOP_d_p (R267). -/
def rsFenced (d p : Nat) : Fld := ⟨0x00700000 + 0x1000 * d + 8 * p, 11, 1⟩

/-- RING_STOP_d_p (R267). -/
def rsBypassed (d p : Nat) : Fld := ⟨0x00700000 + 0x1000 * d + 8 * p, 12, 1⟩

/-- RING_STOP_d_p (R267). -/
def rsTap (d p : Nat) : Fld := ⟨0x00700000 + 0x1000 * d + 8 * p, 13, 1⟩

/-- RING_STOP_d_p (R267). -/
def rsKeeps (d p : Nat) : Fld := ⟨0x00700000 + 0x1000 * d + 8 * p, 32, 16⟩

/-- RING_STOP_d_p (R267). -/
def rsReserves (d p : Nat) : Fld := ⟨0x00700000 + 0x1000 * d + 8 * p, 48, 16⟩

/-- RING_DIE_d (R267). -/
def rdRotation (d : Nat) : Fld := ⟨0x00708000 + 0x40 * d + 0, 0, 9⟩

/-- RING_DIE_d (R267). -/
def rdTap0 (d : Nat) : Fld := ⟨0x00708000 + 0x40 * d + 0, 9, 9⟩

/-- RING_DIE_d (R267). -/
def rdTap1 (d : Nat) : Fld := ⟨0x00708000 + 0x40 * d + 0, 18, 9⟩

/-- RING_DIE_d (R267). -/
def rdPart (d : Nat) : Fld := ⟨0x00708000 + 0x40 * d + 0, 27, 3⟩

/-- RING_DIE_d (R267). -/
def rdExact (d : Nat) : Fld := ⟨0x00708000 + 0x40 * d + 0, 30, 1⟩

/-- RING_DIE_d (R267). -/
def rdResetting (d : Nat) : Fld := ⟨0x00708000 + 0x40 * d + 0, 31, 1⟩

/-- RING_DIE_d (R267). -/
def rdDiscards (d : Nat) : Fld := ⟨0x00708000 + 0x40 * d + 0x08, 0, 32⟩

/-- RING_DIE_d (R267). -/
def rdCombines (d : Nat) : Fld := ⟨0x00708000 + 0x40 * d + 0x10, 0, 64⟩

/-- RING_DIE_d (R267). -/
def rdFlits (d : Nat) : Fld := ⟨0x00708000 + 0x40 * d + 0x18, 0, 64⟩

/-- RING_EXPORT_d_n (R267). -/
def reFirst (d n : Nat) : Fld := ⟨0x00709000 + 0x800 * d + 8 * n, 0, 26⟩

/-- RING_EXPORT_d_n (R267). -/
def reLast (d n : Nat) : Fld := ⟨0x00709000 + 0x800 * d + 8 * n, 26, 15⟩

/-- RING_EXPORT_d_n (R267). -/
def reDies (d n : Nat) : Fld := ⟨0x00709000 + 0x800 * d + 8 * n, 41, 8⟩

/-- RING_EXPORT_d_n (R267). -/
def reLink (d n : Nat) : Fld := ⟨0x00709000 + 0x800 * d + 8 * n, 49, 1⟩

/-- RING_EXPORT_d_n (R267). -/
def reValid (d n : Nat) : Fld := ⟨0x00709000 + 0x800 * d + 8 * n, 63, 1⟩

/-- RING_BAR_b (R267). -/
def rbPart (b : Nat) : Fld := ⟨0x0070F000 + 8 * b, 0, 3⟩

/-- RING_BAR_b (R267). -/
def rbExpected (b : Nat) : Fld := ⟨0x0070F000 + 8 * b, 3, 12⟩

/-- RING_BAR_b (R267). -/
def rbCount (b : Nat) : Fld := ⟨0x0070F000 + 8 * b, 15, 12⟩

/-- RING_BAR_b (R267). -/
def rbSpan (b : Nat) : Fld := ⟨0x0070F000 + 8 * b, 27, 1⟩

/-- RING_BAR_b (R267). -/
def rbValid (b : Nat) : Fld := ⟨0x0070F000 + 8 * b, 28, 1⟩

/-- PWR_TEMP_d (R491). -/
def tpMax (d : Nat) : Fld := ⟨0x00800100 + 8 * d, 0, 8⟩

/-- PWR_TEMP_d (R491). -/
def tpSensor (d : Nat) : Fld := ⟨0x00800100 + 8 * d, 8, 4⟩

/-- PWR_TEMP_d (R491). -/
def tpBridge (d : Nat) : Fld := ⟨0x00800100 + 8 * d, 12, 8⟩

/-- PWR_TEMP_d (R491). -/
def tpVout (d : Nat) : Fld := ⟨0x00800100 + 8 * d, 32, 16⟩

/-- PWR_REGION_i (R491). -/
def grOcc (i : Nat) : Fld := ⟨0x00800200 + 8 * i, 0, 3⟩

/-- PWR_REGION_i (R491). -/
def grHigh (i : Nat) : Fld := ⟨0x00800200 + 8 * i, 3, 3⟩

/-- PWR_REGION_i (R491). -/
def grLow (i : Nat) : Fld := ⟨0x00800200 + 8 * i, 6, 3⟩

/-- PWR_REGION_i (R491). -/
def grWarn (i : Nat) : Fld := ⟨0x00800200 + 8 * i, 9, 1⟩

/-- PWR_REGION_i (R491). -/
def grWarnings (i : Nat) : Fld := ⟨0x00800200 + 8 * i, 32, 32⟩

/-- ERR_LOG_e (R501). -/
def ogTick (e : Nat) : Fld := ⟨0x00901000 + 16 * e + 0, 0, 64⟩

/-- ERR_LOG_e (R501). -/
def ogClass (e : Nat) : Fld := ⟨0x00901000 + 16 * e + 8, 0, 3⟩

/-- ERR_LOG_e (R501). -/
def ogSource (e : Nat) : Fld := ⟨0x00901000 + 16 * e + 8, 3, 4⟩

/-- ERR_LOG_e (R501). -/
def ogUnit (e : Nat) : Fld := ⟨0x00901000 + 16 * e + 8, 7, 11⟩

/-- ERR_LOG_e (R501). -/
def ogPoison (e : Nat) : Fld := ⟨0x00901000 + 16 * e + 8, 18, 1⟩

/-- ERR_LOG_e (R501). -/
def ogCode (e : Nat) : Fld := ⟨0x00901000 + 16 * e + 8, 19, 8⟩

/-- ERR_LOG_e (R501). -/
def ogLocation (e : Nat) : Fld := ⟨0x00901000 + 16 * e + 8, 27, 37⟩

/-- SEC_MEAS_m, its 64-bit word k (R488). -/
def xMeas (m k : Nat) : Fld := ⟨0x00A00000 + 0x20 * m + 8 * k, 0, 64⟩

/-- PAT_DIGEST, its 64-bit word k (R317). -/
def pDigest (k : Nat) : Fld := ⟨0x00200020 + 8 * k, 0, 64⟩

/-- PAT_VDIGEST, its 64-bit word k (R317). -/
def pVdigest (k : Nat) : Fld := ⟨0x00200040 + 8 * k, 0, 64⟩

/-- ENT_PERS, its 64-bit word k (R442). -/
def ePers (k : Nat) : Fld := ⟨0x00400040 + 8 * k, 0, 64⟩

end Sys2Proof.Machine
end

