-- ==== Sys2Proof/Machine/Ops.lean ====
section
/-!
DEFINITION. The named operations over State that every command's meaning is written with: registers and their
fields, memories with their ECC state, cores, stops, dies and partitions, the error log, device events, watches and
flag writes, ignored accesses, pattern faults, sync counters and their waiters.
-/
namespace Sys2Proof.Machine

/-! ### Registers -/

/-- The 32-bit register word number `k` (its byte offset divided by 4). -/
def State.regW (s : State) (k : Nat) : W32 := tblGet resetWord s.regs k

/-- Writes the 32-bit register word number `k`. -/
def State.setW (k : Nat) (v : W32) (s : State) : State := { s with regs := tblPut resetWord k v s.regs }

/-- The 64 bits at byte offset `off` (R12). -/
def State.reg64 (s : State) (off : Nat) : W64 := s.regW (off / 4 + 1) ++ s.regW (off / 4)

/-- Writes the 64 bits at byte offset `off`. -/
def State.set64 (off : Nat) (v : W64) (s : State) : State :=
  (s.setW (off / 4) (v.extractLsb' 0 32)).setW (off / 4 + 1) (v.extractLsb' 32 32)

/-- `x` with bits `[lo + w - 1 : lo]` replaced by `n`. -/
def insBits (x : W64) (lo w n : Nat) : W64 :=
  let m : W64 := (BitVec.ofNat 64 (2 ^ w - 1)) <<< lo
  (x &&& ~~~m) ||| ((BitVec.ofNat 64 (n % 2 ^ w)) <<< lo)

/-- The value of a named field (R14). -/
def State.getF (s : State) (f : Fld) : Nat := bitsOf (s.reg64 f.off) f.lo f.w

/-- Writes a named field; the register's other bits stay. -/
def State.setF (f : Fld) (n : Nat) (s : State) : State := s.set64 f.off (insBits (s.reg64 f.off) f.lo f.w n)

/-- Adds to a counter that saturates at its maximum (R238, R362, R390, R430, R491). -/
def State.incF (f : Fld) (n : Nat) (s : State) : State := s.setF f (satAdd f.w (s.getF f) n)

/-- A one-bit field, as a Bool. -/
def State.onF (s : State) (f : Fld) : Bool := s.getF f != 0

/-- Returns to their reset values the registers whose word numbers satisfy `p` (R15). -/
def State.resetRegs (p : Nat → Bool) (s : State) : State := { s with regs := tblFilter (fun k => !p k) s.regs }

/-- Whether byte offsets `[a, b)` hold the word number `k`. -/
def inBytes (a b k : Nat) : Bool := decide (a / 4 ≤ k) && decide (k < b / 4)

/-- A register of 256 bits as bytes, digest byte 0 at the lowest address (R317, R488). -/
def State.bytes256 (s : State) (f : Nat → Fld) : List Byte :=
  (List.range 4).flatMap fun k => (List.range 8).map fun i => (s.reg64 (f k).off).extractLsb' (8 * i) 8

/-- Applies `f` to each of a list of things in turn. -/
def forAll {α σ : Type} (l : List α) (f : α → σ → σ) (s : σ) : σ := l.foldl (fun t a => f a t) s

/-! ### Bytes -/

/-- A list of bytes, least significant first, as a number (R10). -/
def leNat : List Byte → Nat
  | [] => 0
  | b :: t => b.toNat + 256 * leNat t

/-- The `n` bytes of a number, least significant first (R10). -/
def natLe : Nat → Nat → List Byte
  | 0, _ => []
  | n + 1, x => BitVec.ofNat 8 (x % 256) :: natLe n (x / 256)

/-- Cuts a list into pieces of `n`. -/
def pieces {α : Type} (n : Nat) (l : List α) : List (List α) :=
  (List.range (ceilDiv l.length n)).map fun i => (l.drop (i * n)).take n

/-! ### Memories and their ECC words (R349, R352) -/

/-- One byte of a memory. -/
def Mem.byte (m : Mem) (a : Nat) : Byte := tblGet (fun _ => 0) m.bytes a

/-- Writes one byte of a memory. -/
def Mem.putByte (a : Nat) (b : Byte) (m : Mem) : Mem := { m with bytes := tblPut (fun _ => 0) a b m.bytes }

/-- `n` bytes from address `a` on. -/
def Mem.load (m : Mem) (a n : Nat) : List Byte := (List.range n).map fun i => m.byte (a + i)

/-- Writes bytes from address `a` on, leaving every word's ECC state. -/
def Mem.store : Nat → List Byte → Mem → Mem
  | _, [], m => m
  | a, b :: t, m => Mem.store (a + 1) t (m.putByte a b)

/-- How the stored check bits of word number `w` differ from those of its stored data (R349). -/
def Mem.syn (m : Mem) (w : Nat) : BitVec 32 := tblGet (fun _ => 0) m.bad w

/-- Sets the syndrome of word number `w`. -/
def Mem.setSyn (w : Nat) (x : BitVec 32) (m : Mem) : Mem := { m with bad := tblPut (fun _ => 0) w x m.bad }

/-- What the decoder finds in word number `w` of a memory of `wb`-byte words (R349). -/
def Mem.err (wb : Nat) (m : Mem) (w : Nat) : Option WordErr := classify wb (m.syn w)

/-- Byte `a` as it is stored, which the decoder may correct (R349). -/
def Mem.storedByte (wb : Nat) (m : Mem) (a : Nat) : Byte := m.byte a ^^^ byteError wb (m.syn (a / wb)) (a % wb)

/-- The 36 symbols that HBM stores for word number `w`: four check symbols, then 32 bytes (R349, R350). -/
def Mem.codeWord (m : Mem) (w : Nat) : List Byte :=
  let d := (List.range 32).map fun i => m.storedByte 32 (32 * w + i)
  List.zipWith (· ^^^ ·) (rsCheck d) (checkSymbols (m.syn w)) ++ d

/-- The words of `wb` bytes that the `n` bytes from `a` touch. -/
def wordsOf (wb a n : Nat) : List Nat := if n = 0 then [] else rangeFrom (a / wb) ((a + n - 1) / wb + 1)

/-- An uncorrectable state: a detected error or the poison syndrome (R349). -/
def isBad : Option WordErr → Bool
  | some .uncorrectable => true
  | some .poison => true
  | _ => false

/-- Whether any word that the access touches is uncorrectable. -/
def Mem.badIn (wb : Nat) (m : Mem) (a n : Nat) : Bool := (wordsOf wb a n).any fun w => isBad (m.err wb w)

/-- The syndrome that a write of bytes `[a, a + n)` leaves in word `w` of syndrome `x` (R352): a full word has valid
check bits; a partial write corrects a correctable word and leaves an uncorrectable one poisoned. -/
def synAfterWrite (wb a n w : Nat) (x : BitVec 32) : BitVec 32 :=
  if a ≤ w * wb ∧ (w + 1) * wb ≤ a + n then 0
  else if isBad (classify wb x) then poisonSyn wb
  else 0

/-- A write with its effect on every word it touches (R352). -/
def Mem.write (wb a : Nat) (bs : List Byte) (m : Mem) : Mem :=
  forAll (wordsOf wb a bs.length) (fun w m' => m'.setSyn w (synAfterWrite wb a bs.length w (m.syn w))) (m.store a bs)

/-- The words in a state `p` that the access covers in part (R352). -/
def Mem.partials (wb a n : Nat) (p : Option WordErr → Bool) (m : Mem) : List Nat :=
  (wordsOf wb a n).filter fun w => !(decide (a ≤ w * wb) && decide ((w + 1) * wb ≤ a + n)) && p (m.err wb w)

/-- Gives the words that the access touches the poison syndrome. -/
def Mem.poison (wb a n : Nat) (m : Mem) : Mem := forAll (wordsOf wb a n) (fun w m' => m'.setSyn w (poisonSyn wb)) m

/-- Bytes of an ECC word of each core memory (R349). -/
def cmWb : CoreMem → Nat
  | .lace => 4
  | .tile => 8
  | .op => 8

/-- Bytes of each core memory (R24). -/
def cmSize : CoreMem → Nat
  | .lace => 0x100000
  | .tile => 0x80000
  | .op => 0x10000

/-- SOURCE of the error log for each core memory (R501). -/
def cmSource : CoreMem → Nat
  | .lace => 1
  | .tile => 2
  | .op => 3

/-- The bank and the access row that hold a byte address: lace R36, tile R132, op memory R356 (index halves, log 10). -/
def cmBankRow : CoreMem → Nat → Nat × Nat
  | .lace, a => (a / 16 % 32, a / 512)
  | .tile, a => (32 + a / 64 % 8, a / 512)
  | .op, a => (40 + a / 0x8000, a / 16 % 0x800)

/-! ### Cores, stops, dies, partitions -/

/-- Logical core `lid`. -/
def State.core (s : State) (lid : Nat) : Core := tblGet (fun _ => {}) s.cores lid

/-- Changes logical core `lid`. -/
def State.modCore (lid : Nat) (f : Core → Core) (s : State) : State :=
  { s with cores := tblMod (fun _ => {}) lid f s.cores }

/-- The stop that answers to logical core `lid` (R22). -/
def State.stop (s : State) (lid : Nat) : Stop := tblGet (fun _ => {}) s.stops lid

/-- Changes the stop of logical core `lid`. -/
def State.modStop (lid : Nat) (f : Stop → Stop) (s : State) : State :=
  { s with stops := tblMod (fun _ => {}) lid f s.stops }

/-- Compute die `d`. -/
def State.die (s : State) (d : Nat) : Die := tblGet (fun _ => {}) s.dies d

/-- Changes compute die `d`. -/
def State.modDie (d : Nat) (f : Die → Die) (s : State) : State := { s with dies := tblMod (fun _ => {}) d f s.dies }

/-- Partition `p`, besides its registers. -/
def State.part (s : State) (p : Nat) : Part := tblGet (fun _ => {}) s.parts p

/-- Changes partition `p`. -/
def State.modPart (p : Nat) (f : Part → Part) (s : State) : State :=
  { s with parts := tblMod (fun _ => {}) p f s.parts }

/-- Check-value unit `u`, besides its registers. -/
def State.unit (s : State) (u : Nat) : CrcUnit := tblGet (fun _ => {}) s.crcUnits u

/-- Changes check-value unit `u`. -/
def State.modUnit (u : Nat) (f : CrcUnit → CrcUnit) (s : State) : State :=
  { s with crcUnits := tblMod (fun _ => {}) u f s.crcUnits }

/-- HBM controller `c`. -/
def State.ctl (s : State) (c : Nat) : HbmCtl := tblGet (fun _ => {}) s.ctls c

/-- Changes HBM controller `c`. -/
def State.modCtl (c : Nat) (f : HbmCtl → HbmCtl) (s : State) : State :=
  { s with ctls := tblMod (fun _ => {}) c f s.ctls }

/-- Peer link `n`. -/
def State.link (s : State) (n : Nat) : Link := tblGet (fun _ => {}) s.links n

/-- Changes peer link `n`. -/
def State.modLink (n : Nat) (f : Link → Link) (s : State) : State :=
  { s with links := tblMod (fun _ => {}) n f s.links }

/-- Peer port `k`. -/
def State.port (s : State) (k : Nat) : Port := tblGet (fun _ => {}) s.ports k

/-- Changes peer port `k`. -/
def State.modPort (k : Nat) (f : Port → Port) (s : State) : State :=
  { s with ports := tblMod (fun _ => {}) k f s.ports }

/-- Bytes written into HBM, in words of 32 bytes (R349). -/
def State.putHbm (a : Nat) (bs : List Byte) (s : State) : State := { s with hbm := s.hbm.write 32 a bs }

/-- Die of a logical core (R20, R21). -/
def dieOf (lid : Nat) : Nat := lid / 256

/-- Whether partition `p` holds compute die `d` (R317). -/
def State.hasDie (s : State) (p d : Nat) : Bool := Nat.testBit (s.getF (ppDies p)) d && s.getF (ppState p) != 0

/-- The partition of a compute die, if it has one. -/
def State.dieOwner (s : State) (d : Nat) : Option Nat := (List.range 8).find? fun p => s.hasDie p d

/-- The partition of a logical core, if it has one. -/
def State.owner (s : State) (lid : Nat) : Option Nat := s.dieOwner (dieOf lid)

/-- The compute dies of partition `p`, ascending. -/
def State.partDies (s : State) (p : Nat) : List Nat := (List.range 8).filter fun d => s.hasDie p d

/-- The logical cores of partition `p`, ascending. -/
def State.partCores (s : State) (p : Nat) : List Nat := (s.partDies p).flatMap fun d => rangeFrom (256 * d) (256 * d + 256)

/-- Whether a core's die presents its core clock: neither frozen by a fatal condition (R494), nor off, gated, held
(R273), nor of a partition that is empty. -/
def State.clocked (s : State) (p : Nat) : Bool :=
  (s.part p).hold.isNone && !(s.part p).gated && !(s.partDies p).any fun d => (s.die d).frozen || Nat.testBit (s.getF wOff) d

/-- Whether partition `p` issues ops: armed, clocked, and not stopped or in reset (R235, R239). -/
def State.running (s : State) (p : Nat) : Bool := s.getF (ppState p) == 1 && s.clocked p

/-- Whether the core's partition presents its core clock and is not stopped. -/
def State.coreRuns (s : State) (lid : Nat) : Bool :=
  match s.owner lid with
  | some p => s.clocked p && s.getF (ppState p) != 3
  | none => false

/-- Whether the armed pattern is an exact-timing one (R303). -/
def State.exact (s : State) : Bool :=
  match s.pat.cur with
  | some i => Nat.testBit i.modes 0
  | none => false

/-- Whether the armed pattern is portable (R303). -/
def State.portable (s : State) : Bool :=
  match s.pat.cur with
  | some i => Nat.testBit i.modes 1
  | none => false

/-- A fresh free value (log 1): what the spec leaves open. -/
def State.draw (s : State) : W64 := Config.freeBits s.free

/-- Advances the counter of free values. -/
def State.used (s : State) : State := { s with free := s.free + 1 }

/-- Adds a free amount to a counter of cycles, stalls or hits whose value follows from timing (log 4). -/
def State.addFree (f : Fld) (s : State) : State := (s.incF f (s.draw.toNat % 2 ^ f.w)).used

/-! ### The error log (R501) -/

/-- Writes one error log entry and counts its class: 1 corrected, 2 contained, 3 pattern fault, 4 fatal. -/
def State.log (cls src unit : Nat) (poison : Bool) (code loc : Nat) (s : State) : State :=
  let e := s.getF rLogHead
  let s := if s.getF (ogClass e) != 0 then s.incF rLogWraps 1 else s
  let s := s.setF (ogTick e) s.tick |>.setF (ogClass e) cls |>.setF (ogSource e) src |>.setF (ogUnit e) unit
    |>.setF (ogPoison e) poison.toNat |>.setF (ogCode e) code |>.setF (ogLocation e) loc
    |>.setF rLogHead ((e + 1) % 1024)
  if cls = 1 then s.incF rCorrected 1
  else if cls = 2 then s.incF rContained 1
  else if cls = 3 then s.incF rPattern 1
  else s

/-! ### Ignored accesses (R411) -/

/-- Counts and records one ignored access or command. -/
def State.ignored (cause : Nat) (cxl write : Bool) (addr : Nat) (s : State) : State :=
  s.incF sIgnored 1 |>.setF sIgnCause cause |>.setF sIgnCxl cxl.toNat |>.setF sIgnWrite write.toNat
    |>.setF sIgnAddr addr

/-! ### Messages to the host (R407-R409) -/

/-- Sends something out of the GL8. -/
def State.emit (o : Output) (s : State) : State := { s with out := s.out ++ [o] }

/-- The MSI-X message of a vector: the value and address of its table entry (R396, R408). -/
def State.msixMessage (s : State) (v : Nat) : Output :=
  let w := fun k => tblGet (fun _ => 0) s.hostcfg.msixTable (4 * v + k)
  .msix v ((w 0).toNat + 2 ^ 32 * (w 1).toNat) (w 2)

/-- Sends an MSI-X message, or leaves its pending bit set while a mask or Bus Master Enable holds it (R408; log 5). -/
def State.msix (v : Nat) (s : State) : State :=
  let h := s.hostcfg
  if !h.busMaster || !h.msixEnable || h.functionMask || h.masked.getLsbD v then
    { s with hostcfg := { h with msixPending := h.msixPending ||| (1#64 <<< v) } }
  else s.emit (s.msixMessage v)

/-- Vector of a device event bit (R409). -/
def eventVector (i : Nat) : Nat := if i < 8 then 0 else i - 7

/-- A device event: sets its bit, and sends its vector on a rise while enabled (R409). -/
def State.event (i : Nat) (s : State) : State :=
  let old := s.getF hEvent
  let s := s.setF hEvent (old ||| 2 ^ i)
  if !Nat.testBit old i && Nat.testBit (s.getF hEventEn) i then s.msix (eventVector i) else s

/-- A flag write for watch `w` with the counter's value, or its discard (R407, R408). -/
def State.flagWrite (w value : Nat) (s : State) : State :=
  let f := s.getF (wtFlag w)
  if s.onF (flEn f) && s.hostcfg.busMaster then
    let q := (s.getF (flSeq f) + 1) % 2 ^ 32
    (s.setF (flSeq f) q).emit (.flagWrite (s.getF (flAddr f) / 8 * 8) (BitVec.ofNat 64 (q + 2 ^ 32 * value + 2 ^ 48 * w)))
  else s.ignored 0x0A false true (0x00102000 + 16 * f)

/-- A watch fires (R234, R408). -/
def State.fire (w value : Nat) (s : State) : State :=
  let s := s.incF (wtFires w) 1
  let act := s.getF (wtAction w)
  let s := if act % 2 = 1 then s.flagWrite w value else s
  if act / 2 = 1 then s.msix (s.getF (wtVector w)) else s

/-- Resolves watch `w` against its counter: `was` says whether it was both enabled and above (R234). -/
def State.resolveWatch (w : Nat) (was : Bool) (s : State) : State :=
  let v := s.getF (hcValue (s.getF (wtCounter w)))
  let above := decide (s.getF (wtThreshold w) ≤ v)
  let s := s.setF (wtAbove w) above.toNat
  if above && s.onF (wtEn w) && !was then s.fire w v else s

/-- Resolves every watch on host counter `h`, ascending (R233, R234). -/
def State.resolveWatches (h : Nat) (s : State) : State :=
  forAll (List.range 32) (fun w t =>
    if t.getF (wtCounter w) = h then t.resolveWatch w (t.onF (wtEn w) && t.onF (wtAbove w)) else t) s

/-! ### Pattern faults (R235-R237) -/

/-- Signals a pattern fault to its partition: PARTITION_STOP acts on the first one that reaches E0 (R235). -/
def State.signalFault (lid : Nat) (r : FaultRec) (s : State) : State :=
  match s.owner lid with
  | some p => s.modPart p fun q => { q with faults := q.faults ++ [r] }
  | none => s

/-- An op of queue `q` raises a pattern fault: the queue halts with its PC at the op and records it (R235). -/
def State.opFault (lid : Nat) (q : Queue) (code : Nat) (s : State) : State :=
  let pc := s.getF (qPc lid q)
  s.setF (qState lid q) 4 |>.setF (qFaultCode lid q) code |>.setF (qFaultPc lid q) pc
    |>.signalFault lid ⟨code, lid, q.num, pc, false⟩

/-- A fault detected away from an op, at core `lid` (R236). -/
def State.remoteFault (lid code : Nat) (s : State) : State := s.signalFault lid ⟨code, lid, 0, 0, true⟩

/-- Fault codes of R237, R268, R363 and R391. -/
def fLaceTarget : Nat := 0x01
/-- R237. -/
def fLaceReplica : Nat := 0x02
/-- R237. -/
def fLaceInbox : Nat := 0x03
/-- R237. -/
def fLacePoison : Nat := 0x04
/-- R237. -/
def fLaceList : Nat := 0x05
/-- R237. -/
def fSuaTable : Nat := 0x10
/-- R237. -/
def fSuaClampIndex : Nat := 0x11
/-- R237. -/
def fSuaGroupSplit : Nat := 0x12
/-- R237. -/
def fSuaGroupList : Nat := 0x13
/-- R237. -/
def fSuaDefer : Nat := 0x14
/-- R237. -/
def fSuaFree : Nat := 0x15
/-- R237. -/
def fSuaOverlap : Nat := 0x16
/-- R237. -/
def fSuaOperand : Nat := 0x17
/-- R237. -/
def fRunSweep : Nat := 0x18
/-- R237. -/
def fRunCurve : Nat := 0x19
/-- R237. -/
def fRunOperand : Nat := 0x1A
/-- R237. -/
def fMacNotOpen : Nat := 0x20
/-- R237. -/
def fMacReopen : Nat := 0x21
/-- R237. -/
def fMacUndrained : Nat := 0x22
/-- R237. -/
def fMacNoClose : Nat := 0x23
/-- R237. -/
def fMacFormat : Nat := 0x24
/-- R237. -/
def fMacBlock : Nat := 0x25
/-- R237. -/
def fMacLaceRange : Nat := 0x26
/-- R237. -/
def fMacOperand : Nat := 0x27
/-- R237. -/
def fVecOperand : Nat := 0x30
/-- R237. -/
def fVecDest : Nat := 0x31
/-- R237. -/
def fVecRange : Nat := 0x32
/-- R237. -/
def fVecBestk : Nat := 0x33
/-- R237. -/
def fSyncOpcode : Nat := 0x40
/-- R237. -/
def fSyncOperand : Nat := 0x41
/-- R237. -/
def fSyncUnderflow : Nat := 0x42
/-- R237. -/
def fSyncOverflow : Nat := 0x43
/-- R237. -/
def fSyncDest : Nat := 0x44
/-- R237. -/
def fSyncLoop : Nat := 0x45
/-- R237. -/
def fSyncSelect : Nat := 0x46
/-- R237. -/
def fSyncPc : Nat := 0x47
/-- R237. -/
def fSyncRearrive : Nat := 0x48
/-- R237. -/
def fSyncWatchdog : Nat := 0x49
/-- R237. -/
def fSyncPoison : Nat := 0x4A
/-- R237. -/
def fXmvOperand : Nat := 0x50
/-- R237. -/
def fXmvRange : Nat := 0x51
/-- R237. -/
def fXmvDest : Nat := 0x52

/-! ### Core memory accesses with their ECC effects (R349, R351, R352) -/

/-- One of a core's three memories. -/
def Core.mem (c : Core) : CoreMem → Mem
  | .lace => c.lace
  | .tile => c.tile
  | .op => c.op

/-- Replaces one of a core's memories. -/
def Core.setMem (m : CoreMem) (v : Mem) (c : Core) : Core :=
  match m with
  | .lace => { c with lace := v }
  | .tile => { c with tile := v }
  | .op => { c with op := v }

/-- Counter of corrected words of a core memory (R362). -/
def corrFld (lid : Nat) : CoreMem → Fld
  | .lace => cLaceCorr lid
  | .tile => cTileCorr lid
  | .op => cOpCorr lid

/-- Pending write-back rows of a bank of a core (R351). -/
def Core.pendOf (c : Core) (b : Nat) : List Nat := tblGet (fun _ => []) c.sramPend b

/-- A correction in a core memory is counted and logged (R351). -/
def State.countCorrected (lid : Nat) (m : CoreMem) (w : Nat) (s : State) : State :=
  (s.incF (corrFld lid m) 1).log 1 (cmSource m) lid false 0 (w * (cmWb m))

/-- A partial write corrects word `w` of a core memory: counted, unless its row awaits write-back (R351, R352). -/
def State.correctPart (lid : Nat) (m : CoreMem) (w : Nat) (s : State) : State :=
  let (b, r) := cmBankRow m (w * (cmWb m))
  if ((s.core lid).pendOf b).contains r then s else s.countCorrected lid m w

/-- A read meets word `w` of a core memory: counts and logs its error (R351); an uncorrectable lace word sets POISON,
whoever reads it (R67). -/
def State.noteWord (lid : Nat) (m : CoreMem) (w : Nat) (s : State) : State :=
  match ((s.core lid).mem m).err (cmWb m) w with
  | none => s
  | some .correctable =>
    let (b, r) := cmBankRow m (w * (cmWb m))
    let rows := (s.core lid).pendOf b
    if rows.contains r then s
    else
      let s := if rows.length < 4 then s.modCore lid fun c => { c with sramPend := tblPut (fun _ => []) b (rows ++ [r]) c.sramPend } else s
      s.countCorrected lid m w
  | some e =>
    let s := (s.incF (cUncorr lid) 1).log 2 (cmSource m) lid (decide (e = .poison)) 0 (w * (cmWb m))
    if m = .lace then s.setF (cLacePoison lid) 1 else s

/-- Whether word number `w` lies among the ECC words in error that are listed (a quick filter). -/
def Mem.badWords (wb : Nat) (m : Mem) (a n : Nat) : List Nat :=
  (m.bad.map (·.1)).filter fun w => decide (a / wb ≤ w) && decide (w * wb < a + n)

/-- A read of `n` bytes of a core memory: every word in error that it meets is counted and logged. -/
def State.noteRead (lid : Nat) (m : CoreMem) (a n : Nat) (s : State) : State :=
  forAll (((s.core lid).mem m).badWords (cmWb m) a n) (fun w t => t.noteWord lid m w) s

/-- The bytes that a read of a core memory returns: the stored bits, corrected where correctable (R349). -/
def State.rd (s : State) (lid : Nat) (m : CoreMem) (a n : Nat) : List Byte := ((s.core lid).mem m).load a n

/-- The same as a number, least significant byte first. -/
def State.rdNat (s : State) (lid : Nat) (m : CoreMem) (a n : Nat) : Nat := leNat (s.rd lid m a n)

/-- Whether a read of a core memory meets an uncorrectable word. -/
def State.rdBad (s : State) (lid : Nat) (m : CoreMem) (a n : Nat) : Bool := ((s.core lid).mem m).badIn (cmWb m) a n

/-- A write of a core memory, with R352's effect on the words it covers in part. -/
def State.wr (lid : Nat) (m : CoreMem) (a : Nat) (bs : List Byte) (s : State) : State :=
  let old := (s.core lid).mem m
  let corr := old.partials (cmWb m) a bs.length (· == some .correctable)
  let pois := old.partials (cmWb m) a bs.length isBad
  let s := forAll corr (State.correctPart lid m) s
  let s := s.modCore lid fun c => c.setMem m ((c.mem m).write (cmWb m) a bs)
  if pois.isEmpty then s else s.incF rPoisoned pois.length

/-- Writes `n` bytes of a core memory and gives every word touched the poison syndrome (R338). -/
def State.wrPoison (lid : Nat) (m : CoreMem) (a : Nat) (bs : List Byte) (s : State) : State :=
  let s := s.modCore lid fun c => c.setMem m (((c.mem m).store a bs).poison (cmWb m) a bs.length)
  s.incF rPoisoned (wordsOf (cmWb m) a bs.length).length

/-- A lace word (R36). -/
def State.lace (s : State) (lid w : Nat) : W32 := BitVec.ofNat 32 (s.rdNat lid .lace (4 * w) 4)

/-- Writes a full lace word, which clears its poison (R67). -/
def State.setLace (lid w : Nat) (v : W32) (s : State) : State := s.wr lid .lace (4 * w) (natLe 4 v.toNat)

/-- Whether a lace word is uncorrectable. -/
def State.laceBad (s : State) (lid w : Nat) : Bool := isBad ((s.core lid).lace.err 4 w)

/-- A read of a lace word meets its error, if any (R67). -/
def State.noteLace (lid w : Nat) (s : State) : State := s.noteRead lid .lace (4 * w) 4

/-! ### Queues: fetching the op at the head (R209, R210, R213) -/

/-- The op word at op index `i` of a core. -/
def State.opWord (s : State) (lid i : Nat) : OpWord := BitVec.ofNat 128 (s.rdNat lid .op (16 * i) 16)

/-- OPCODE of an op (R211). -/
def opOpcode (op : OpWord) : Nat := bitsOf op 120 8

/-- QUEUE of an op (R211). -/
def opQueue (op : OpWord) : Nat := bitsOf op 118 2

/-- Whether an op index lies in the queue's region (R209). -/
def State.inRegion (s : State) (lid : Nat) (q : Queue) (i : Nat) : Bool :=
  decide (s.getF (qBase lid q) ≤ i) && decide (i ≤ s.getF (qLimit lid q))

/-- Whether a queue may issue: it is in STATE 1 and its partition runs (R209, R235). -/
def State.issues (s : State) (lid : Nat) (q : Queue) : Bool :=
  s.getF (qState lid q) == 1 &&
    (match s.owner lid with
     | some p => s.running p
     | none => false)

/-- Opcodes a queue executes (R212). -/
def queueHas (q : Queue) (o : Nat) : Bool :=
  decide (o ≤ 0x0A) ||
    (match q with
     | .m => decide (0x20 ≤ o) && decide (o ≤ 0x22)
     | .s => decide (0x40 ≤ o) && decide (o ≤ 0x47)
     | .v => decide (0x60 ≤ o) && decide (o ≤ 0x75)
     | .x => decide (0x80 ≤ o) && decide (o ≤ 0x82))

/-- The op at the head of a queue is issued by `f` when the queue may issue and the op has an opcode in `codes`;
a fetch outside the region, an uncorrectable op word, a wrong QUEUE or opcode raises its fault (R210, R212); an op of
another row changes nothing (log 3). -/
def State.issueOp (lid : Nat) (q : Queue) (mine : OpWord → Bool) (f : OpWord → State → State) (s : State) : State :=
  if !s.issues lid q then s
  else
    let pc := s.getF (qPc lid q)
    if !s.inRegion lid q pc || (s.core lid).past.contains q.num then s.opFault lid q fSyncPc
    else
      let op := s.opWord lid pc
      if s.rdBad lid .op (16 * pc) 16 then (s.noteRead lid .op (16 * pc) 16).opFault lid q fSyncPoison
      else if opQueue op != q.num || !queueHas q (opOpcode op) then
        (s.noteRead lid .op (16 * pc) 16).opFault lid q fSyncOpcode
      else if mine op then f op (s.noteRead lid .op (16 * pc) 16)
      else s

/-- `issueOp` for one opcode. -/
def State.issue (lid : Nat) (q : Queue) (code : Nat) (f : OpWord → State → State) (s : State) : State :=
  s.issueOp lid q (fun op => opOpcode op == code) f

/-- An op leaves the head of its queue, which goes on at op index `i`. Index 4,096 lies outside every region, and
`past` keeps that the queue has reached it, since PC holds 12 bits. -/
def State.goto (lid : Nat) (q : Queue) (i : Nat) (s : State) : State :=
  let s := if i < 4096 then s else s.modCore lid fun c => { c with past := c.past ++ [q.num] }
  s.setF (qPc lid q) (i % 4096)

/-- The op at the head retires and the queue goes on at the next op (R213). -/
def State.retire (lid : Nat) (q : Queue) (s : State) : State :=
  (s.goto lid q (s.getF (qPc lid q) + 1)).incF (qOps lid q) 1

/-- The op at the head issues and retires later: the queue goes on, OPS is counted at retirement (R213). -/
def State.advance (lid : Nat) (q : Queue) (s : State) : State := s.goto lid q (s.getF (qPc lid q) + 1)

/-- An engine op retires after its queue has gone on (R213). -/
def State.opDone (lid : Nat) (q : Queue) (s : State) : State := s.incF (qOps lid q) 1

/-- Moves in flight of a core, by number 0 to 3 (R228). -/
def Core.move (c : Core) (k : Nat) : Option Move := tblGet (fun _ => none) c.moves k

/-- Sets or ends move `k`. -/
def Core.setMove (k : Nat) (m : Option Move) (c : Core) : Core := { c with moves := tblPut (fun _ => none) k m c.moves }

/-- Whether every earlier op of the queue has retired (R214). -/
def State.allRetired (s : State) (lid : Nat) (q : Queue) : Bool :=
  match q with
  | .m => (s.core lid).drains.isEmpty
  | .s => (s.core lid).phase.isNone
  | .x => (List.range 4).all fun k => ((s.core lid).move k).isNone
  | .v => true

/-! ### Sync counters (R216, R218) -/

/-- N of a counter op. -/
def opN (op : OpWord) : Nat := bitsOf op 6 16

/-- A waiting queue whose TAKE or LOOK is satisfied goes on: the op retires (R218). -/
def State.releaseWait (lid : Nat) (q : Queue) (s : State) : State :=
  (s.setF (qState lid q) 1 |>.setF (qWctr lid q) 0 |>.setF (qWticks lid q) 0 |>.addFree (qWaits lid q)).retire lid q

/-- Whether queue `q` waits on counter `n` with opcode `code`. -/
def State.waitsOn (s : State) (lid n : Nat) (q : Queue) (code : Nat) : Bool :=
  s.getF (qState lid q) == 2 && s.getF (qWctr lid q) == n && opOpcode (s.opWord lid (s.getF (qPc lid q))) == code

/-- The four queues in the order of R218. -/
def allQueues : List Queue := [.m, .v, .s, .x]

/-- The leader core of a partition: its lowest logical core (R270). -/
def State.leader (s : State) (p : Nat) : Option Nat := (s.partCores p).head?

/-- Whether sync counter `n` is one that a launch counter of partition `p` forwards to (R231, R270). -/
def State.isLaunchCtr (s : State) (p n : Nat) : Bool :=
  (List.range 256).any fun h => s.onF (hcForward h) && s.getF (hcPart h) == p && s.getF (hcCtr h) == n

/-- The release of the leader's S-queue launch wait begins a result period, in which nothing has happened yet (R270,
R278). -/
def State.periodStart (lid : Nat) (q : Queue) (n : Nat) (s : State) : State :=
  match s.owner lid with
  | some p =>
    if q = .s && s.leader p == some lid && s.isLaunchCtr p n then
      s.modPart p fun t => { t with inPeriod := true, hadExtra := false, hadPause := false, hadLink := false, hadSpan := false,
                                    hadHold := false }
    else s
  | none => s

/-- Resolves the waiters of counter `n`: every satisfied LOOK, then TAKEs in the order M, V, S, X (R218). -/
def State.resolveCtr (lid n : Nat) (s : State) : State :=
  let s := forAll allQueues (fun q t =>
    if t.waitsOn lid n q 0x04 && decide (opN (t.opWord lid (t.getF (qPc lid q))) ≤ t.getF (cCtr lid n)) then
      t.releaseWait lid q else t) s
  forAll allQueues (fun q t =>
    let k := opN (t.opWord lid (t.getF (qPc lid q)))
    if t.waitsOn lid n q 0x03 && decide (k ≤ t.getF (cCtr lid n)) then
      ((t.setF (cCtr lid n) (t.getF (cCtr lid n) - k)).releaseWait lid q).periodStart lid q n else t) s

/-- Whether adding `k` to counter `n` would pass 65,535. -/
def State.overflows (s : State) (lid n k : Nat) : Bool := decide (65535 < s.getF (cCtr lid n) + k)

/-- Adds to a sync counter, stopping at 65,535 (R216). -/
def State.bump (lid n k : Nat) (s : State) : State := s.setF (cCtr lid n) (satAdd 16 (s.getF (cCtr lid n)) k)

/-- A change of a counter made away from an op: an overflow is recorded at the counter (R220, R236). -/
def State.remoteAdd (lid n k : Nat) (s : State) : State :=
  let s := if s.overflows lid n k then s.remoteFault lid fSyncOverflow else s
  (s.bump lid n k).resolveCtr lid n

/-- A forwarded host ADD: saturation sets HOST_SAT and is counted as ignored, with no fault (R231). -/
def State.hostBump (lid n k addr : Nat) (s : State) : State :=
  let s := if s.overflows lid n k then (s.setF (cHostSat lid) 1).ignored 0x05 false true addr else s
  (s.bump lid n k).resolveCtr lid n

/-! ### Ending a command -/

/-- A command whose operands name units that exist acts; any other addresses nothing and changes nothing (log 76). -/
def guarded (ok : Bool) (s t : State) : Host.Outcome State Fault Refusal := .next (if ok then t else s)

end Sys2Proof.Machine
end

