-- ==== Sys2Proof/Machine/LinkWord.lean ====
section
/-!
DEFINITION. The layouts of what travels: sync messages and slot headers of the runner rings (R245, R251, R253, R337, R338),
link-only messages, and the bytes of a link flit with its CRC (R369, R384).
-/
namespace Sys2Proof.Machine

/-- A value in a field of `w` bits that begins at bit `lo`. -/
def putBits (lo w v : Nat) : Nat := v % 2 ^ w * 2 ^ lo

/-- The field of `w` bits of a number that begins at bit `lo`. -/
def getBits (x lo w : Nat) : Nat := x / 2 ^ lo % 2 ^ w

/-- A flag of a number. -/
def flagBit (x i : Nat) : Bool := x.testBit i

/-! ### Sync messages (R253) -/

/-- A sync message as a number of 64 bits (R253). -/
def syncNat : SyncMsg → Nat
  | .arrive bid count drain => 1 + putBits 4 6 bid + putBits 10 12 count + putBits 22 1 drain.toNat
  | .release bid target exact dlset dlctr install =>
    2 + putBits 4 6 bid + putBits 10 12 target + putBits 22 1 exact.toNat + putBits 23 1 dlset.toNat + putBits 24 6 dlctr + putBits 30 1 install.toNat
  | .counter dcore ctr n set route hc dpkg =>
    3 + putBits 4 11 dcore + putBits 15 6 ctr + putBits 21 16 n + putBits 37 1 set.toNat + putBits 38 2 route + putBits 40 8 hc + putBits 48 12 dpkg
  | .stage part half seed => 4 + putBits 4 3 part + putBits 7 1 half.toNat + putBits 8 48 seed.toNat
  | .stop part code => 5 + putBits 4 3 part + putBits 7 8 code

/-- The 64 bits of a sync message (R253). -/
def syncBits (m : SyncMsg) : W64 := BitVec.ofNat 64 (syncNat m)

/-- The sync message that 64 bits hold: none for EMPTY and the reserved kinds (R253). -/
def syncOf (x : Nat) : Option SyncMsg :=
  match x % 16 with
  | 1 => some (.arrive (getBits x 4 6) (getBits x 10 12) (flagBit x 22))
  | 2 => some (.release (getBits x 4 6) (getBits x 10 12) (flagBit x 22) (flagBit x 23) (getBits x 24 6) (flagBit x 30))
  | 3 => some (.counter (getBits x 4 11) (getBits x 15 6) (getBits x 21 16) (flagBit x 37) (getBits x 38 2) (getBits x 40 8) (getBits x 48 12))
  | 4 => some (.stage (getBits x 4 3) (flagBit x 7) (BitVec.ofNat 48 (getBits x 8 48)))
  | 5 => some (.stop (getBits x 4 3) (getBits x 7 8))
  | _ => none

/-! ### Slot headers (R245, R251, R337, R338) -/

/-- The header fields of a flit beside SRCPOS, as a number (R245, R337, R338). -/
def flitHeader : Flit → Nat
  | .notices _ items keep => 1 + putBits 12 5 (items.length - 1) + putBits 17 32 ((keep.map fun j => 2 ^ j).sum)
  | .send _ _ dc remote dpkg dmem daddr last sig sctr pmask data =>
    2 + putBits 12 11 dc + putBits 23 1 dmem.toNat + putBits 24 20 daddr + putBits 44 1 last.toNat + putBits 45 1 sig.toNat + putBits 46 6 sctr +
      putBits 52 1 (decide (data.length ≤ 64)).toNat + putBits 53 4 pmask.toNat + putBits 64 12 dpkg + putBits 76 1 remote.toNat
  | .hbm _ _ write haddr dc dmem daddr units _ _ =>
    3 + putBits 12 2 write.toNat + putBits 14 1 (decide (units = 1)).toNat + putBits 15 32 (haddr / 64) + putBits 47 11 dc + putBits 58 1 dmem.toNat +
      putBits 59 14 (daddr / 64)
  | .partials _ dc remote dpkg tag ctr contrib fields =>
    4 + putBits 12 11 dc + putBits 23 6 tag + putBits 29 3 (fields.length - 1) + putBits 32 6 ctr + putBits 38 16 contrib + putBits 64 12 dpkg +
      putBits 76 1 remote.toNat
  | .sync _ m => 5 + putBits 12 64 (syncNat m)

/-- The 96 bits of the header of a slot that holds a flit which the stop at `pos` injected (R245). -/
def slotHeader (pos : Nat) (f : Flit) : BitVec 96 := BitVec.ofNat 96 (flitHeader f + putBits 3 9 pos)

/-- The 96 bits of a slot's header: 0, which is KIND FREE, where it holds none (R245). -/
def headerOf (p : Option Placed) : BitVec 96 :=
  match p with
  | some x => slotHeader x.pos x.flit
  | none => 0

/-! ### Link-only messages (R384) -/

/-- A message of a link SYNC flit as a number of 64 bits (R253, R384). -/
def linkMsgNat : LinkMsg → Nat
  | .sync m => syncNat m
  | .larrive bid count drain => 8 + putBits 4 6 bid + putBits 10 24 count + putBits 34 1 drain.toNat
  | .lrelease bid dlset dlctr install => 9 + putBits 4 6 bid + putBits 10 1 dlset.toNat + putBits 11 6 dlctr + putBits 17 1 install.toNat
  | .nack flits => 10 + putBits 4 8 flits
  | .unreach score port => 11 + putBits 4 11 score + putBits 15 3 port

/-- The message that 64 bits hold, if their kind is one of the link's or of the rings' (R253, R384). -/
def linkMsgOf (x : Nat) : Option LinkMsg :=
  match x % 16 with
  | 8 => some (.larrive (getBits x 4 6) (getBits x 10 24) (flagBit x 34))
  | 9 => some (.lrelease (getBits x 4 6) (flagBit x 10) (getBits x 11 6) (flagBit x 17))
  | 10 => some (.nack (getBits x 4 8))
  | 11 => some (.unreach (getBits x 4 11) (getBits x 15 3))
  | _ => (syncOf x).map .sync

/-! ### Control words (R368) -/

/-- Packs a group control word (R368). -/
def controlWord (ack : Nat) (ackValid nak : Bool) (c0 c1 : Nat) : BitVec 40 :=
  BitVec.ofNat 40 (ack % 4096 + 4096 * ackValid.toNat + 8192 * nak.toNat + 2 ^ 14 * (c0 % 64) + 2 ^ 20 * (c1 % 64))

/-! ### Link flits (R369) -/

/-- The header fields of a kind, beside the virtual channel and the sequence numbers (R369). -/
def kindHeader : LinkFlit → Nat
  | .idle => 0
  | .notices d p items => 1 + putBits 32 12 d + putBits 44 12 p + putBits 67 6 (items.length - 1)
  | .send d p c dc dmem a last sig t pm bs =>
    2 + putBits 32 12 d + putBits 44 12 p + putBits 56 11 c + putBits 67 6 (bs.length / 64 - 1) + putBits 73 11 dc + putBits 84 1 dmem.toNat + putBits 85 20 a +
      putBits 105 1 last.toNat + putBits 106 1 sig.toNat + putBits 107 6 t + putBits 113 6 pm.toNat
  | .partials d p c dc tag ctr n fs =>
    3 + putBits 32 12 d + putBits 44 12 p + putBits 56 11 c + putBits 73 11 dc + putBits 85 6 tag + putBits 91 3 (fs.length - 1) + putBits 94 6 ctr + putBits 100 16 n
  | .sync d p c ms => 4 + putBits 32 12 d + putBits 44 12 p + putBits 56 11 c + putBits 67 6 (ms.length - 1)

/-- The body of a flit: notices of 32 bits, 64-byte units, fields of 128 bits, messages of 64 bits (R251, R369). -/
def flitBody : LinkFlit → List Byte
  | .idle => []
  | .notices _ _ items => items.flatMap fun n => natLe 4 n.toNat
  | .send _ _ _ _ _ _ _ _ _ _ bs => bs
  | .partials _ _ _ _ _ _ _ fs => fs.flatMap fun v => natLe 16 v.toNat
  | .sync _ _ _ ms => ms.flatMap fun m => natLe 8 (linkMsgNat m)

/-- The 252 bytes of a flit that its CRC covers (R369). -/
def LinkTx.covered (x : LinkTx) : List Byte :=
  (natLe 16 (kindHeader x.flit + putBits 3 1 x.vc.toNat + putBits 4 12 x.lseq + putBits 16 16 x.pseq) ++ flitBody x.flit ++
    List.replicate 236 0#8).take 252

/-- The 256 bytes of a link flit (R369). -/
def LinkTx.bytes (x : LinkTx) : List Byte := x.covered ++ natLe 4 (crc32 x.covered).toNat

/-- What a header of KIND, and a body, hold (R369); a reserved kind is taken as an idle flit, counts that the body has no
room for as the most it holds, and DADDR as a multiple of 64 (log 105). -/
def flitOf (h : Nat) (body : List Byte) : LinkFlit :=
  let d := getBits h 32 12
  let p := getBits h 44 12
  let c := getBits h 56 11
  let n := getBits h 67 6
  match h % 8 with
  | 1 => .notices d p ((pieces 4 (body.take (4 * (min n 58 + 1)))).map fun b => BitVec.ofNat 32 (leNat b))
  | 2 =>
    .send d p c (getBits h 73 11) (flagBit h 84) (getBits h 85 20 / 64 * 64) (flagBit h 105) (flagBit h 106) (getBits h 107 6) (BitVec.ofNat 6 (getBits h 113 6))
      (body.take (64 * (min n 2 + 1)))
  | 3 =>
    .partials d p c (getBits h 73 11) (getBits h 85 6) (getBits h 94 6) (getBits h 100 16)
      ((pieces 16 (body.take (16 * (getBits h 91 3 + 1)))).map fun b => BitVec.ofNat 96 (leNat (b.take 12)))
  | 4 => .sync d p c ((pieces 8 (body.take (8 * (min n 28 + 1)))).filterMap fun b => linkMsgOf (leNat b))
  | _ => .idle

/-- The flit that 256 bytes hold, with its numbers and virtual channel, unless its CRC is wrong (R369, R370). -/
def linkFlitOf (bs : List Byte) : Option LinkTx :=
  let h := leNat (bs.take 16)
  if leNat ((bs.drop 252).take 4) = (crc32 (bs.take 252)).toNat then
    some ⟨getBits h 4 12, getBits h 16 16, flagBit h 3, flitOf h ((bs.drop 16).take 236)⟩
  else none

end Sys2Proof.Machine
end

