-- ==== Sys2Proof/Machine/Picot.lean ====
section
/-!
DEFINITION. The picot generator: the block function, its keys and counters, the uniforms the engines draw
(R191-R197), and the run counters that key them (R103, R104).
-/
namespace Sys2Proof.Machine

/-- Rotation constants of d and of b in round `i` (R191). -/
def picotRot (i : Nat) : Nat × Nat :=
  match i % 5 with
  | 0 => (13, 9)
  | 1 => (21, 5)
  | 2 => (25, 17)
  | 3 => (9, 29)
  | _ => (5, 13)

/-- The four words of a picot state (R191). -/
structure Picot where
  a : W32
  b : W32
  c : W32
  d : W32
deriving DecidableEq, Repr

/-- Word `i` of a key. -/
def picotKey (k : Picot) (i : Nat) : W32 :=
  match i % 4 with
  | 0 => k.a
  | 1 => k.b
  | 2 => k.c
  | _ => k.d

/-- One add-rotate-xor round (R191). -/
def picotRound (k : Picot) (i : Nat) (s : Picot) : Picot :=
  let (rd, rb) := picotRot i
  let a := s.a + s.b
  let d := (s.d ^^^ a).rotateLeft rd
  let c := s.c + d
  let b := (s.b ^^^ c).rotateLeft rb
  ⟨a + picotKey k i + 0x6C616365#32 * BitVec.ofNat 32 (i + 1), b, c, d⟩

/-- picot_block: ten rounds over the counter mixed with the key (R191). -/
def picotBlock (k x : Picot) : Picot :=
  (List.range 10).foldl (fun s i => picotRound k i s) ⟨x.a ^^^ k.a, x.b ^^^ k.b, x.c ^^^ k.c, x.d ^^^ k.d⟩

/-- Uniform `j` of a block, 0 to 7 (R192). -/
def picotUniform (y : Picot) (j : Nat) : Nat := bitsOf (picotKey y (j / 2)) (16 * (j % 2)) 16

/-- The key of a draw (R194). -/
def drawKey (seed : BitVec 96) (layout purpose : Nat) : Picot :=
  ⟨seed.extractLsb' 0 32, seed.extractLsb' 32 32, seed.extractLsb' 64 32,
    BitVec.ofNat 32 (0x70690000 + 0x100 * layout + purpose)⟩

/-- The block of an octet of a UNIT or ELEMENT draw, or of a PAIR draw (R196). -/
def drawBlock (seed : BitVec 96) (layout purpose x0 sweep x3 : Nat) : Picot :=
  picotBlock (drawKey seed layout purpose)
    ⟨BitVec.ofNat 32 x0, BitVec.ofNat 32 sweep, BitVec.ofNat 32 (sweep / 2 ^ 32), BitVec.ofNat 32 x3⟩

/-- A UNIT draw with draw index 0 (R79, R196). -/
def unitDraw (seed : BitVec 96) (purpose m sweep replica phase : Nat) : Nat :=
  picotUniform (drawBlock seed 1 purpose (m / 8) sweep (0x100 * purpose + 0x10 * replica + phase)) (m % 8)

/-- An ELEMENT draw (R196). -/
def elementDraw (seed : BitVec 96) (purpose e sweep draw : Nat) : Nat :=
  picotUniform (drawBlock seed 2 purpose (e % 2 ^ 32 / 8) sweep (0x10000 * (draw % 2 ^ 16) + 0x100 * purpose)) (e % 8)

/-- A PAIR draw under WEIGHT_SR: the lower and the higher model index, u0 (R128, R196). -/
def pairDraw (seed : BitVec 96) (purpose m n sweep : Nat) : Nat :=
  picotUniform (drawBlock seed 3 purpose (min m n) sweep (max m n)) 0

/-- The seed a core keys with (R204). -/
def State.seedOf (s : State) (lid : Nat) : BitVec 96 :=
  BitVec.ofNat 96 (s.getF (cSeedLo lid) + 2 ^ 64 * s.getF (cSeedHi lid))

/-- The key sweep: RESULT × 65,536 + SWEEP (R104). -/
def State.keySweep (s : State) (lid : Nat) : Nat := s.getF (cResult lid) * 65536 + s.getF (cSweep lid)

/-- Counts blocks computed; how long engines waited on the generator is free (R204, log 4). -/
def State.blocks (lid n : Nat) (s : State) : State := (s.incF (cBlocks lid) n).addFree (cHolds lid)

/-- Distinct members of a list. -/
def distinct {α : Type} [DecidableEq α] (l : List α) : List α := l.eraseDups

/-- Blocks that an op computes for uniforms of the element indices `es`, served 64 at a time: one for each octet of each
64, since a block needed again is computed again (R198, R201). -/
def elementBlocks (es : List Nat) : Nat := ((pieces 64 es).map fun g => (distinct (g.map (· / 8))).length).sum

end Sys2Proof.Machine
end

