-- ==== Sys2Proof/Machine/Queue.lean ====
section
/-!
DEFINITION. The control and counter ops of every queue, barrier arrivals, counter messages and the wait watchdog
(R208-R227).
-/
namespace Sys2Proof.Machine

/-- Bits of an op that lie outside the fields given it: a set reserved bit (R211, R212). -/
def opReserved (allowed : List (Nat × Nat)) (op : OpWord) : Bool :=
  let mask : OpWord := allowed.foldl (fun m p => m ||| ((BitVec.ofNat 128 (2 ^ p.2 - 1)) <<< p.1)) 0
  ((op &&& ~~~mask).extractLsb' 0 118) != 0

/-- Issues a control or counter op: a set reserved bit raises SYNC_OPERAND (R212). -/
def State.control (lid : Nat) (q : Queue) (code : Nat) (fields : List (Nat × Nat)) (f : OpWord → State → State)
    (s : State) : State :=
  s.issue lid q code fun op t => if opReserved fields op then t.opFault lid q fSyncOperand else f op t

/-- The core cycles of the period that ends: in exact-timing mode the compiled number, unless peer-link traffic, a spanning
barrier or a deadline bent it (R270, R276, R278); else free (log 4). -/
def State.periodCycles (s : State) (p : Nat) : Nat :=
  let t := s.part p
  if s.exact && !t.hadLink && !t.hadSpan && !s.onF (pdFired p) then s.getF (pxCompiled p) else s.draw.toNat % 2 ^ 32

/-- The leader's first X-queue ADD to a host counter after that ends the period and writes PAT_EXACT_p (R270, R278). -/
def State.periodEnd (lid : Nat) (q : Queue) (s : State) : State :=
  match s.owner lid with
  | some p =>
    let t := s.part p
    if q = .x && s.leader p == some lid && t.inPeriod then
      let s := s.setF (pxExtra p) t.hadExtra.toNat |>.setF (pxPause p) t.hadPause.toNat
        |>.setF (pxLink p) t.hadLink.toNat |>.setF (pxSpan p) t.hadSpan.toNat |>.setF (pxHold p) t.hadHold.toNat
        |>.setF (pxCycles p) (s.periodCycles p)
      let s := if s.exact && s.getF (pxCycles p) != s.getF (pxCompiled p) then s.incF (pxMisses p) 1 else s
      s.used.modPart p fun t => { t with inPeriod := false }
    else s
  | none => s

/-- Whether the injection FIFO of a core's stop has room for `n` more entries (R260). -/
def State.fifoRoom (s : State) (lid n : Nat) : Bool := decide ((s.stop lid).fifo.length + n ≤ 16)

/-- Puts an entry into the injection FIFO of a core's stop (R260). -/
def State.toFifo (lid : Nat) (f : Flit) (s : State) : State := s.modStop lid fun t => { t with fifo := t.fifo ++ [f] }

/-- Whether a partition may send to package `q` (R383). -/
def State.mayReach (s : State) (p q : Nat) : Bool := decide (q < 4096) && s.onF ⟨0x00606000 + 0x200 * p + 8 * (q / 64), q % 64, 1⟩

/-- Whether core `dc` lies in the partition of core `lid` (R216). -/
def State.samePart (s : State) (lid dc : Nat) : Bool := (s.owner lid).isSome && s.owner dc == s.owner lid

/-- Whether the partition of core `lid` may send to package `q` (R383). -/
def State.pkgOk (s : State) (lid q : Nat) : Bool :=
  match s.owner lid with
  | some p => s.mayReach p q
  | none => false

/-! ### NOP and HALT -/

/-- NOP (R221). -/
def nopOp (lid : Nat) (q : Queue) (s : State) : State := s.control lid q 0x00 [] fun _ t => t.retire lid q

/-- NOP (R221). -/
def execNop (lid : Nat) (q : Queue) (s : State) : Host.Outcome State Fault Refusal :=
  guarded (decide (lid < 2048)) s (nopOp lid q s)

/-- HALT stops the queue as a normal end, with its PC at the HALT (R221). -/
def haltOp (lid : Nat) (q : Queue) (s : State) : State :=
  s.control lid q 0x0A [] fun _ t => (t.setF (qState lid q) 3).incF (qOps lid q) 1

/-- HALT (R221). -/
def execHalt (lid : Nat) (q : Queue) (s : State) : Host.Outcome State Fault Refusal :=
  guarded (decide (lid < 2048)) s (haltOp lid q s)

/-! ### Counter ops -/

/-- CTR of a counter op (R216). -/
def opCtr (op : OpWord) : Nat := bitsOf op 0 6

/-- TARGET of CTR.ADD and CTR.SET, with TARGET 1 naming the own core taken as 0 (R216). -/
def opTarget (lid : Nat) (op : OpWord) : Nat :=
  if bitsOf op 22 2 = 1 ∧ bitsOf op 24 11 = lid then 0 else bitsOf op 22 2

/-- CTR.ADD to the own core: an overflow stores 65,535 and halts the queue at the ADD (R216, R220). -/
def addOwn (lid : Nat) (q : Queue) (n k : Nat) (s : State) : State :=
  let past := s.overflows lid n k
  let s := (s.bump lid n k).resolveCtr lid n
  if past then s.opFault lid q fSyncOverflow else s.retire lid q

/-- An engine holds because the FIFO is full, and counts the hold in its own stall counter; the X queue's engine has
none (R260). How long it holds is free (log 4). -/
def State.holdFull (lid : Nat) (q : Queue) (s : State) : State :=
  match q with
  | .m => s.addFree (cMacStalls lid)
  | .v => s.addFree (cVecStalls lid)
  | .s => s.addFree (cSuaStalls lid)
  | .x => s

/-- A sync message of a queue op enters the stop's FIFO; with the FIFO full the op waits at the head (R260). -/
def sendAndRetire (lid : Nat) (q : Queue) (m : SyncMsg) (s : State) : State :=
  if s.fifoRoom lid 1 then (s.toFifo lid (.sync lid m)).retire lid q else s.holdFull lid q

/-- CTR.ADD once earlier ops have retired (R214, R216). -/
def ctrAddBody (lid : Nat) (q : Queue) (op : OpWord) (s : State) : State :=
  let n := opN op
  let dc := bitsOf op 24 11
  let tg := opTarget lid op
  if n = 0 then s.opFault lid q fSyncOperand
  else if tg = 0 then addOwn lid q (opCtr op) n s
  else if tg = 1 then
    if s.samePart lid dc then sendAndRetire lid q (.counter dc (opCtr op) n false 0 0 0) s else s.opFault lid q fSyncDest
  else if tg = 2 then
    if s.fifoRoom lid 1 then
      (sendAndRetire lid q (.counter 0 0 n false 1 (bitsOf op 35 8) 0) s).periodEnd lid q
    else s.holdFull lid q
  else if s.pkgOk lid (bitsOf op 43 12) then
    sendAndRetire lid q (.counter dc (opCtr op) n false 2 0 (bitsOf op 43 12)) s
  else s.opFault lid q fSyncDest

/-- CTR.ADD (R214, R216, R220). -/
def ctrAddOp (lid : Nat) (q : Queue) (s : State) : State :=
  s.control lid q 0x01 [(0, 55)] fun op t => if t.allRetired lid q then ctrAddBody lid q op t else t

/-- CTR_ADD (R216). -/
def execCtrAdd (lid : Nat) (q : Queue) (s : State) : Host.Outcome State Fault Refusal :=
  guarded (decide (lid < 2048)) s (ctrAddOp lid q s)

/-- CTR.SET once earlier ops have retired (R214, R216). -/
def ctrSetBody (lid : Nat) (q : Queue) (op : OpWord) (s : State) : State :=
  let dc := bitsOf op 24 11
  let tg := opTarget lid op
  if 2 ≤ tg then s.opFault lid q fSyncOperand
  else if tg = 0 then ((s.setF (cCtr lid (opCtr op)) (opN op)).resolveCtr lid (opCtr op)).retire lid q
  else if s.samePart lid dc then sendAndRetire lid q (.counter dc (opCtr op) (opN op) true 0 0 0) s
  else s.opFault lid q fSyncDest

/-- CTR.SET (R214, R216). -/
def ctrSetOp (lid : Nat) (q : Queue) (s : State) : State :=
  s.control lid q 0x02 [(0, 35)] fun op t => if t.allRetired lid q then ctrSetBody lid q op t else t

/-- CTR_SET (R216). -/
def execCtrSet (lid : Nat) (q : Queue) (s : State) : Host.Outcome State Fault Refusal :=
  guarded (decide (lid < 2048)) s (ctrSetOp lid q s)

/-- A TAKE or LOOK that is not satisfied at once waits at the head of its queue (R215, R218). -/
def beginWait (lid : Nat) (q : Queue) (n : Nat) (s : State) : State :=
  s.setF (qState lid q) 2 |>.setF (qWctr lid q) n |>.setF (qWticks lid q) 0

/-- CTR.TAKE waits until the counter is at least N, then subtracts N (R216, R218). -/
def ctrTakeOp (lid : Nat) (q : Queue) (s : State) : State :=
  s.control lid q 0x03 [(0, 22), (112, 1)] fun op t =>
    let n := opCtr op
    let v := t.getF (cCtr lid n)
    if opN op = 0 then t.opFault lid q fSyncOperand
    else if opN op ≤ v then ((t.setF (cCtr lid n) (v - opN op)).retire lid q).periodStart lid q n
    else beginWait lid q n t

/-- CTR_TAKE (R218). -/
def execCtrTake (lid : Nat) (q : Queue) (s : State) : Host.Outcome State Fault Refusal :=
  guarded (decide (lid < 2048)) s (ctrTakeOp lid q s)

/-- CTR.LOOK waits until the counter is at least N (R216, R218). -/
def ctrLookOp (lid : Nat) (q : Queue) (s : State) : State :=
  s.control lid q 0x04 [(0, 22), (112, 1)] fun op t =>
    if opN op = 0 then t.opFault lid q fSyncOperand
    else if opN op ≤ t.getF (cCtr lid (opCtr op)) then t.retire lid q
    else beginWait lid q (opCtr op) t

/-- CTR_LOOK (R218). -/
def execCtrLook (lid : Nat) (q : Queue) (s : State) : Host.Outcome State Fault Refusal :=
  guarded (decide (lid < 2048)) s (ctrLookOp lid q s)

/-- CTR.DEC subtracts at once; a result below 0 raises SYNC_UNDERFLOW and leaves the counter (R216, R220). -/
def ctrDecOp (lid : Nat) (q : Queue) (s : State) : State :=
  s.control lid q 0x05 [(0, 22)] fun op t =>
    let n := opCtr op
    let v := t.getF (cCtr lid n)
    if opN op = 0 then t.opFault lid q fSyncOperand
    else if v < opN op then t.opFault lid q fSyncUnderflow
    else ((t.setF (cCtr lid n) (v - opN op)).resolveCtr lid n).retire lid q

/-- CTR_DEC (R220). -/
def execCtrDec (lid : Nat) (q : Queue) (s : State) : Host.Outcome State Fault Refusal :=
  guarded (decide (lid < 2048)) s (ctrDecOp lid q s)

/-! ### LOOP, ENDLOOP, SELECT -/

/-- Copies loop level `j` over level `k`. -/
def copyLevel (lid : Nat) (q : Queue) (j k : Nat) (s : State) : State :=
  s.setF (qRemain lid q k) (s.getF (qRemain lid q j)) |>.setF (qForever lid q k) (s.getF (qForever lid q j))
    |>.setF (qStart lid q k) (s.getF (qStart lid q j))

/-- Empties loop level `k`. -/
def clearLevel (lid : Nat) (q : Queue) (k : Nat) (s : State) : State :=
  s.setF (qRemain lid q k) 0 |>.setF (qForever lid q k) 0 |>.setF (qStart lid q k) 0

/-- Pushes a loop level; level 0 is the innermost (R221, R238). -/
def pushLevel (lid : Nat) (q : Queue) (count : Nat) (forever : Bool) (start : Nat) (s : State) : State :=
  let s := copyLevel lid q 2 3 s |> copyLevel lid q 1 2 |> copyLevel lid q 0 1
  s.setF (qRemain lid q 0) count |>.setF (qForever lid q 0) forever.toNat |>.setF (qStart lid q 0) start
    |>.setF (qDepth lid q) (s.getF (qDepth lid q) + 1)

/-- Pops the innermost loop level. -/
def popLevel (lid : Nat) (q : Queue) (s : State) : State :=
  let s := copyLevel lid q 1 0 s |> copyLevel lid q 2 1 |> copyLevel lid q 3 2 |> clearLevel lid q 3
  s.setF (qDepth lid q) (s.getF (qDepth lid q) - 1)

/-- The count a LOOP opens with: the counter under FROMCTR, else COUNT (R221). -/
def loopCount (lid : Nat) (op : OpWord) (s : State) : Nat :=
  if bitOf op 113 then s.getF (cCtr lid (bitsOf op 17 6)) else bitsOf op 0 17

/-- LOOP pushes a level, or skips the body when the count is 0 (R222). -/
def loopOp (lid : Nat) (q : Queue) (s : State) : State :=
  s.control lid q 0x06 [(0, 35), (112, 2)] fun op t =>
    let fin := bitsOf op 23 12
    let forever := bitOf op 112
    let c := loopCount lid op t
    if !bitOf op 113 && !forever && decide (65536 < bitsOf op 0 17) then t.opFault lid q fSyncOperand
    else if !t.inRegion lid q fin then t.opFault lid q fSyncPc
    else if t.rdBad lid .op (16 * fin) 16 then (t.noteRead lid .op (16 * fin) 16).opFault lid q fSyncPoison
    else if opOpcode (t.opWord lid fin) != 0x07 then t.opFault lid q fSyncPc
    else if c = 0 && !forever then (t.goto lid q (fin + 1)).incF (qOps lid q) 1
    else if 4 ≤ t.getF (qDepth lid q) then t.opFault lid q fSyncLoop
    else (pushLevel lid q c forever (t.getF (qPc lid q) + 1) t).retire lid q

/-- LOOP (R222). -/
def execLoop (lid : Nat) (q : Queue) (s : State) : Host.Outcome State Fault Refusal :=
  guarded (decide (lid < 2048)) s (loopOp lid q s)

/-- ENDLOOP counts the innermost level down and branches back, or pops it (R222). -/
def endloopOp (lid : Nat) (q : Queue) (s : State) : State :=
  s.control lid q 0x07 [] fun _ t =>
    let left := t.getF (qRemain lid q 0)
    if t.getF (qDepth lid q) = 0 then t.opFault lid q fSyncLoop
    else if t.onF (qForever lid q 0) then (t.goto lid q (t.getF (qStart lid q 0))).incF (qOps lid q) 1
    else if 1 < left then
      ((t.setF (qRemain lid q 0) (left - 1)).goto lid q (t.getF (qStart lid q 0))).incF (qOps lid q) 1
    else (popLevel lid q t).retire lid q

/-- ENDLOOP (R222). -/
def execEndloop (lid : Nat) (q : Queue) (s : State) : Host.Outcome State Fault Refusal :=
  guarded (decide (lid < 2048)) s (endloopOp lid q s)

/-- Pops `n` loop levels. -/
def popLevels (lid : Nat) (q : Queue) : Nat → State → State
  | 0, s => s
  | n + 1, s => popLevels lid q n (popLevel lid q s)

/-- SELECT pops POP levels and continues at the entry its counter chooses (R223). -/
def selectOp (lid : Nat) (q : Queue) (s : State) : State :=
  s.control lid q 0x08 [(0, 12)] fun op t =>
    let v := t.getF (cCtr lid (bitsOf op 0 6))
    let w := t.getF (qPc lid q) + 1 + v / 8
    if bitsOf op 6 6 < v then t.opFault lid q fSyncSelect
    else if !t.inRegion lid q w then t.opFault lid q fSyncPc
    else if t.rdBad lid .op (16 * w) 16 then (t.noteRead lid .op (16 * w) 16).opFault lid q fSyncPoison
    else
      let t := t.noteRead lid .op (16 * w) 16
      let e := t.opWord lid w
      let b := 16 * (v % 8)
      let pop := bitsOf e (b + 12) 3
      if bitOf e (b + 15) then t.opFault lid q fSyncOperand
      else if t.getF (qDepth lid q) < pop then t.opFault lid q fSyncLoop
      else ((popLevels lid q pop t).goto lid q (bitsOf e b 12)).incF (qOps lid q) 1

/-- SELECT (R223). -/
def execSelect (lid : Nat) (q : Queue) (s : State) : Host.Outcome State Fault Refusal :=
  guarded (decide (lid < 2048)) s (selectOp lid q s)

/-! ### Barrier arrivals -/

/-- Takes the first entry that satisfies `p` out of a list. -/
def takeFirst {α : Type} (p : α → Bool) : List α → Option (α × List α)
  | [] => none
  | a :: t => if p a then some (a, t) else
      match takeFirst p t with
      | some (b, r) => some (b, a :: r)
      | none => none

/-- Whether the drain conditions of R107 hold at a stop: its core's phase has retired, and every notice that the stop
injected has been removed (R258). -/
def State.drained (s : State) (lid : Nat) : Bool :=
  (s.core lid).phase.isNone && (s.stop lid).outNotices == 0 && (s.stop lid).outbound.isEmpty

/-- Presents the arrivals that a stop holds, up to `k` of them: a DRAIN arrival waits for the drain conditions, any other
only for room in the FIFO (R225, R254, R258). -/
def State.presentUpTo (lid : Nat) : Nat → State → State
  | 0, s => s
  | k + 1, s =>
    match takeFirst (fun e => !e.2 || s.drained lid) (s.stop lid).arrivals with
    | some ((bid, drain), rest) =>
      if s.fifoRoom lid 1 then
        State.presentUpTo lid k ((s.modStop lid fun t => { t with arrivals := rest }).toFifo lid (.sync lid (.arrive bid 1 drain)))
      else s
    | none => s

/-- Presents every arrival that a stop may present. -/
def State.presentArrivals (lid : Nat) (s : State) : State := s.presentUpTo lid (s.stop lid).arrivals.length

/-- BAR.ARRIVE records RCTR and RVAL and hands the stop the core's arrival (R224-R226). -/
def barArriveBody (lid : Nat) (q : Queue) (op : OpWord) (s : State) : State :=
  let bid := bitsOf op 0 6
  let drain := bitOf op 112
  let rval := bitsOf op 12 4
  let mine := s.onF (rbValid bid) && s.owner lid == some (s.getF (rbPart bid))
  if rval = 0 || (drain && decide (q ≠ .s)) || !mine then s.opFault lid q fSyncOperand
  else if Nat.testBit (s.getF (cArrived lid)) bid then s.opFault lid q fSyncRearrive
  else
    let s := s.setF (cArrived lid) (s.getF (cArrived lid) ||| 2 ^ bid)
    let s := s.modStop lid fun t => { t with barRec := tblPut (fun _ => (0, 0, false)) bid (bitsOf op 6 6, rval, drain) t.barRec,
                                             arrivals := t.arrivals ++ [(bid, drain)] }
    (s.presentArrivals lid).retire lid q

/-- BAR.ARRIVE (R214, R225). -/
def barArriveOp (lid : Nat) (q : Queue) (s : State) : State :=
  s.control lid q 0x09 [(0, 16), (112, 1)] fun op t => if t.allRetired lid q then barArriveBody lid q op t else t

/-- BAR_ARRIVE (R225). -/
def execBarArrive (lid : Nat) (q : Queue) (s : State) : Host.Outcome State Fault Refusal :=
  guarded (decide (lid < 2048)) s (barArriveOp lid q s)

/-! ### Counter messages -/

/-- A counter message is applied to its core: a SET or an ADD, then the waiters (R217, R218, R220). -/
def State.applyCounter (lid n k : Nat) (set : Bool) (s : State) : State :=
  if set then (s.setF (cCtr lid n) k).resolveCtr lid n else s.remoteAdd lid n k

/-! ### The wait watchdog -/

/-- A TAKE or LOOK without NOWD that has waited LIMIT ticks raises SYNC_WATCHDOG (R227). -/
def syncWatchdogOp (lid : Nat) (q : Queue) (s : State) : State :=
  let op := s.opWord lid (s.getF (qPc lid q))
  let limit := s.getF (qWdog lid q)
  match s.owner lid with
  | some p =>
    if s.getF (ppState p) == 1 && (s.part p).hold.isNone && s.getF (qState lid q) == 2 && limit != 0 && !bitOf op 112 &&
        decide (limit ≤ s.getF (qWticks lid q)) then
      s.opFault lid q fSyncWatchdog
    else s
  | none => s

/-- SYNC_WATCHDOG (R227). -/
def execSyncWatchdog (lid : Nat) (q : Queue) (s : State) : Host.Outcome State Fault Refusal :=
  guarded (decide (lid < 2048)) s (syncWatchdogOp lid q s)

end Sys2Proof.Machine
end

