-- ==== Sys2Proof/Machine/Lace.lean ====
section
/-!
DEFINITION. Lace memory as the sampling fabric uses it: regions, field updates with their conflict tags and
saturation, list walks, flips and the notices they send (R33-R68), and the deferral of conflicts (R93).
-/
namespace Sys2Proof.Machine

/-- A state with the pattern fault that stopped the work in it, if one did. -/
abbrev Res := State × Option Nat

/-- Goes on with `f` unless a fault stopped the work. -/
def Res.on (r : Res) (f : State → Res) : Res :=
  match r.2 with
  | none => f r.1
  | some _ => r

/-- Runs `f` over a list, stopping at the first fault. -/
def walkRes {α : Type} (f : α → State → Res) : List α → State → Res
  | [], s => (s, none)
  | a :: t, s => Res.on (f a s) (walkRes f t)

/-- A lace word address has 18 bits (R36). -/
def wa (n : Nat) : Nat := n % 0x40000

/-- U, the core's units (R41). -/
def State.units (s : State) (lid : Nat) : Nat := s.getF (cUnits lid)

/-- Ū: U rounded up to a multiple of 64 (R38). -/
def State.unitsUp (s : State) (lid : Nat) : Nat := roundUp (s.units lid) 64

/-- R, the core's replicas (R41). -/
def State.replicas (s : State) (lid : Nat) : Nat := s.getF (cReplicas lid) + 1

/-- Word address of replica block `r` (R38). -/
def State.replBase (s : State) (lid r : Nat) : Nat := s.getF (cReplBase lid) + r * s.getF (cReplStride lid)

/-- Word address of the field word of unit `i` in replica `r` (R39). -/
def State.fieldAt (s : State) (lid r i : Nat) : Nat := wa (s.replBase lid r + i)

/-- Word address of word `k` of replica `r`'s state plane (R39, R44). -/
def State.stateAt (s : State) (lid r k : Nat) : Nat := wa (s.replBase lid r + s.unitsUp lid + k)

/-- Word address of word `k` of replica `r`'s on-count plane (R39, R46). -/
def State.onAt (s : State) (lid r k : Nat) : Nat := wa (s.replBase lid r + s.unitsUp lid + s.unitsUp lid / 32 + k)

/-- Word address of word `k` of the clamp plane (R38, R43). -/
def State.clampAt (s : State) (lid k : Nat) : Nat := wa (s.getF (cFlagBase lid) + k)

/-- Word address of word `k` of the group plane (R38, R43). -/
def State.groupAt (s : State) (lid k : Nat) : Nat := wa (s.getF (cFlagBase lid) + s.unitsUp lid / 32 + k)

/-- Word address of unit `i`'s descriptor (R42). -/
def State.descAt (s : State) (lid i : Nat) : Nat := wa (s.getF (cDescBase lid) + i)

/-- The field word of unit `i` in replica `r` (R45). -/
def State.field (s : State) (lid r i : Nat) : Int := (s.lace lid (s.fieldAt lid r i)).toInt

/-- The state of unit `i` in replica `r` (R44). -/
def State.unitState (s : State) (lid r i : Nat) : Bool := bitOf (s.lace lid (s.stateAt lid r (i / 32))) (i % 32)

/-- The clamp bit of unit `i` (R43). -/
def State.clampBit (s : State) (lid i : Nat) : Bool := bitOf (s.lace lid (s.clampAt lid (i / 32))) (i % 32)

/-- The group bit of unit `i` (R43). -/
def State.groupBit (s : State) (lid i : Nat) : Bool := bitOf (s.lace lid (s.groupAt lid (i / 32))) (i % 32)

/-- The model index of unit `i` (R47). -/
def State.modelIndex (s : State) (lid i : Nat) : Nat :=
  s.rdNat lid .tile (s.getF (cTables lid) + 4 * s.unitsUp lid + 4 * i) 4

/-- The bias of unit `i` (R47). -/
def State.bias (s : State) (lid i : Nat) : Int :=
  (BitVec.ofNat 32 (s.rdNat lid .tile (s.getF (cTables lid) + 4 * i) 4)).toInt

/-- The colour of unit `i`: the range of a colour in use that holds it (R40). -/
def State.colourOf (s : State) (lid i : Nat) : Option Nat :=
  (List.range (s.getF (cColours lid) + 1)).find? fun c =>
    decide (s.getF (cColFirst lid c) ≤ i) && decide (i < s.getF (cColEnd lid c))

/-- Sets one bit of a lace word: a write of part of the word (R352). -/
def State.putLaceBit (lid w i : Nat) (b : Bool) (s : State) : State :=
  let a := 4 * w + i / 8
  let old := s.rdNat lid .lace a 1
  let bit := 2 ^ (i % 8)
  s.wr lid .lace a [BitVec.ofNat 8 (if b then old ||| bit else old - (if old.testBit (i % 8) then bit else 0))]

/-- Sets the state of a unit in a replica. -/
def State.putState (lid r i : Nat) (b : Bool) (s : State) : State :=
  s.putLaceBit lid (s.stateAt lid r (i / 32)) (i % 32) b

/-! ### The update port (R50, R61, R65-R67) -/

/-- The update port adds `w` to the field word of `tgt` in replica `r` (R50, R66, R67): an uncorrectable word keeps its
poison and takes no update. -/
def State.addField (lid r tgt : Nat) (w : Int) (s : State) : State :=
  let a := s.fieldAt lid r tgt
  if s.laceBad lid a then s.noteLace lid a
  else
    let v := (s.lace lid a).toInt + w
    let s := s.noteRead lid .lace (4 * a) 4
    let s := s.setLace lid a (BitVec.ofInt 32 (satS 32 v))
    let s := if satS 32 v = v then s else
      (s.setF (cFieldSat lid) 1).setF (cSatMask lid) (s.getF (cSatMask lid) ||| 2 ^ r)
    s.incF (cUpdates lid) 1

/-- Counts a conflict (R65). -/
def State.countConflict (lid r : Nat) (s : State) : State :=
  (s.incF (cConflicts lid) 1 |>.setF (cConflict lid) 1).setF (cConflictMask lid) (s.getF (cConflictMask lid) ||| 2 ^ r)

/-- Whether an update of source colour `src` to unit `tgt` is a conflict; `exempt` are the members of a moving group
(R65). -/
def State.conflicts (s : State) (lid : Nat) (src : Option Nat) (exempt : List Nat) (tgt : Nat) : Bool :=
  src.isSome && s.colourOf lid tgt == src && !exempt.contains tgt

/-- One field update with its conflict tag: a conflict in a phase not marked free is deferred, any other is applied at
once (R65, R93, R94). -/
def State.update (lid r : Nat) (src : Option Nat) (exempt : List Nat) (tgt : Nat) (w : Int) (s : State) : Res :=
  if s.conflicts lid src exempt tgt then
    match (s.core lid).phase with
    | some p =>
      if p.free then ((s.addField lid r tgt w).countConflict lid r, none)
      else if 512 ≤ (s.core lid).deferred.length then (s, some fSuaDefer)
      else (s.modCore lid fun c => { c with deferred := c.deferred ++ [⟨tgt, w, r⟩] }, none)
    | none => ((s.addField lid r tgt w).countConflict lid r, none)
  else (s.addField lid r tgt w, none)

/-- apply_list: walks the list at word address `p`, at most `n` entries further (R50). -/
def State.applyList (lid r : Nat) (dir : Bool) (src : Option Nat) (exempt : List Nat) : Nat → Nat → State → Res
  | 0, _, s => (s, some fLaceList)
  | n + 1, p, s =>
    if 0x3FFFF < p then (s, some fLaceList)
    else if s.laceBad lid p then (s.noteLace lid p, some fLacePoison)
    else
      let e := s.lace lid p
      let s := s.noteLace lid p
      let tgt := bitsOf e 17 15
      let w := sbitsOf e 1 16
      if s.units lid ≤ tgt then (s, some fLaceTarget)
      else
        Res.on (s.update lid r src exempt tgt (if dir then w else -w)) fun t =>
          if bitOf e 0 then (t, none) else State.applyList lid r dir src exempt n (p + 1) t

/-- A whole walk from word address `p` (R50). The core cycles in which it holds on a full bank queue are counted, a free
number (R60; log 4). -/
def State.walkList (lid r : Nat) (dir : Bool) (src : Option Nat) (exempt : List Nat) (p : Nat) (s : State) : Res :=
  let x := s.applyList lid r dir src exempt (0x40001 - p) p
  (x.1.addFree (cLaceStalls lid), x.2)

/-- The notice of a flip (R52). -/
def noticeOf (lid i r : Nat) (dir : Bool) : W32 := BitVec.ofNat 32 (lid * 2 ^ 21 + i * 64 + dir.toNat * 32 + r * 2)

/-- A published unit's notice enters the outbound buffer of its core (R53, R58). -/
def State.sendNotice (lid : Nat) (n : W32) (s : State) : State :=
  s.modStop lid fun t => { t with outbound := t.outbound ++ [n] }

/-- flip: the coupling list of unit `i`, and its notice when it is published, also where the list raised a fault (R50,
R53). -/
def State.flip (lid r i : Nat) (dir : Bool) (src : Option Nat) (exempt : List Nat) (s : State) : Res :=
  let a := s.descAt lid i
  if s.laceBad lid a then (s.noteLace lid a, some fLacePoison)
  else
    let d := s.lace lid a
    let s := s.noteLace lid a
    let r1 : Res := if bitOf d 13 then (s, none) else s.walkList lid r dir src exempt (bitsOf d 14 18)
    (if bitOf d 12 then r1.1.sendNotice lid (noticeOf lid i r dir) else r1.1, r1.2)

/-- Hands outbound notices to the stop's FIFO as NOTICES flits of up to 32, while it has room (R53, R241, R260). -/
def State.flushNotices (lid : Nat) : Nat → State → State
  | 0, s => s
  | n + 1, s =>
    let o := (s.stop lid).outbound
    if o.isEmpty || !s.fifoRoom lid 1 then s
    else
      State.flushNotices lid n (s.modStop lid fun t =>
        { t with outbound := t.outbound.drop 32, outNotices := t.outNotices + 1,
                 fifo := t.fifo ++ [.notices lid (o.take 32) []] })

/-- `flushNotices` as far as a FIFO of 16 goes. -/
def State.flush (lid : Nat) (s : State) : State := s.flushNotices lid 16

/-- A fault of the phase's own op, whose queue has gone on to the next op: the queue halts with its PC at it, and the
phase is over, its fields as they stand (R102). -/
def State.phaseFault (lid code : Nat) (s : State) : State :=
  match (s.core lid).phase with
  | some p => ((s.modCore lid fun c => { c with phase := none }).setF (qPc lid .s) p.pc).opFault lid .s code
  | none => s.opFault lid .s code

/-! ### Received notices (R54-R57, R92) -/

/-- The lowest-numbered window of a core that matches a notice (R54). -/
def State.windowFor (s : State) (lid : Nat) (n : W32) : Option Nat :=
  (List.range 64).find? fun k =>
    let f := s.getF (cWinFirst lid k)
    s.onF (cWinValid lid k) && f / 2 ^ 15 == bitsOf n 21 11 && decide (f % 2 ^ 15 ≤ bitsOf n 6 15) &&
      decide (bitsOf n 6 15 ≤ s.getF (cWinLast lid k))

/-- Word address of a matched notice's directory entry (R55). -/
def State.dirAt (s : State) (lid k : Nat) (n : W32) : Nat :=
  wa (s.getF (cWinDir lid k) + bitsOf n 6 15 - s.getF (cWinFirst lid k) % 2 ^ 15)

/-- Records a fault met while a received notice is handled (R236), or SUA_DEFER against the phase (R93, R102). -/
def State.noticeFault (lid code : Nat) (s : State) : State :=
  if code = fSuaDefer then s.phaseFault lid code else s.remoteFault lid code

/-- The mirror list of a notice is applied (R56). -/
def State.applyMirror (lid k : Nat) (n : W32) (s : State) : State :=
  let a := s.dirAt lid k n
  let e := s.lace lid a
  let (t, f) := s.walkList lid (bitsOf n 1 4) (bitOf n 5) (some (bitsOf e 9 4)) [] (bitsOf e 14 18)
  match f with
  | none => t
  | some c => t.noticeFault lid c

/-- The core takes a matched notice from its inbox: a gap, a fault, its mirror list, or the notice is held back while
its colour is the phase's and the phase's last batch has not issued (R56, R92). -/
def State.takeNotice (lid k : Nat) (n : W32) (s : State) : State :=
  let a := s.dirAt lid k n
  if s.laceBad lid a then (s.noteLace lid a).remoteFault lid fLacePoison
  else
    let e := s.lace lid a
    let s := s.noteLace lid a
    if !bitOf e 13 then s.incF (cUnsub lid) 1
    else if s.replicas lid ≤ bitsOf n 1 4 then s.remoteFault lid fLaceReplica
    else
      match (s.core lid).phase with
      | some p =>
        if p.colour = bitsOf e 9 4 ∧ !p.issued then s.modCore lid fun c => { c with inbox := c.inbox ++ [n] }
        else s.applyMirror lid k n
      | none => s.applyMirror lid k n

/-- Held notices are applied in inbox order (R92). -/
def State.releaseInbox (lid : Nat) (s : State) : State :=
  let held := (s.core lid).inbox
  let s := s.modCore lid fun c => { c with inbox := [] }
  forAll held (fun n t => match t.windowFor lid n with
    | some k => t.applyMirror lid k n
    | none => t) s

/-- Whether words `[a, b)` of lace memory touch the field words or state plane of the replica whose phase is in
progress (R96, R167, R229). -/
def State.overlapsPhase (s : State) (lid a b : Nat) : Bool :=
  match (s.core lid).phase with
  | some p =>
    let lo := s.replBase lid p.replica
    let hi := lo + s.unitsUp lid + s.unitsUp lid / 32
    decide (a < hi) && decide (lo < b)
  | none => false

end Sys2Proof.Machine
end

