-- ==== Sys2Proof/Machine/Mac.lean ====
section
/-!
DEFINITION. The MAC array: tile parameters, pushes with their folds, and drains in every format (R132-R163).
-/
namespace Sys2Proof.Machine

/-! ### Rounding (R143) -/

/-- rnd of R143: `n` discarded bits, nearest-even, or stochastic with `k` random bits `r`; exact at any `n` (R153). -/
def rnd (x : Int) (n : Nat) (stochastic : Bool) (k r : Nat) : Int :=
  let q := x / (2 ^ n : Nat)
  let f := (x % (2 ^ n : Nat)).toNat
  let up : Bool :=
    if stochastic then
      decide (r < (if k < n then (f + 2 ^ (n - k - 1)) / 2 ^ (n - k) else f * 2 ^ (k - n)))
    else decide (2 ^ (n - 1) < f) || (decide (f = 2 ^ (n - 1)) && decide (q % 2 = 1))
  q + (if up then 1 else 0)

/-! ### Operand streams (R133-R135) -/

/-- The 1,024 elements of a bank or of the inner accumulators; a bank never opened holds zeros. -/
def elementsOf (l : List Int) : List Int := if l.isEmpty then List.replicate 1024 0 else l

/-- A byte as a signed element. -/
def s8 (b : Byte) : Int := b.toInt

/-- The element of nibble `h` of a byte (R135). -/
def s4 (h : Bool) (b : Byte) : Int := sbitsOf b (if h then 4 else 0) 4

/-- The products of one column of A and one row of B, row by row. -/
def outerProduct (a b : List Int) : List Int := a.flatMap fun x => b.map fun y => x * y

/-- The products a step adds (R133, R135). -/
def stepProducts (format : Nat) (a b : List Byte) : List Int :=
  if format = 1 then
    List.zipWith (· + ·) (outerProduct (a.map (s4 false)) (b.map (s4 false))) (outerProduct (a.map (s4 true)) (b.map (s4 true)))
  else outerProduct (a.map s8) (b.map s8)

/-! ### Folds (R139-R144) -/

/-- What a fold leaves of one element: its new value, and what it raises. -/
structure Folded where
  v : Int
  sat : Bool := false
  dropped : Bool := false
  nan : Bool := false

/-- A saturating add to a bank element (R140). -/
def foldAdd (o x : Int) : Folded := { v := satS 64 (o + x), sat := decide (satS 64 (o + x) ≠ o + x) }

/-- An MXINT8 fold of block sum `b` with shift `s` (R142). -/
def foldShifted (o b s : Int) (stochastic : Bool) (r : Nat) : Folded :=
  if 43 ≤ s then (if b = 0 then { v := o } else { v := if 0 < b then sMax 64 else sMin 64, sat := true })
  else if 0 ≤ s then foldAdd o (b * 2 ^ s.toNat)
  else if -21 ≤ s then foldAdd o (rnd b (-s).toNat stochastic 4 r)
  else { v := o, dropped := decide (b ≠ 0) }

/-- The element index of element (i,j) of a tile (R144). -/
def elemIndex (p : MacParams) (i j : Nat) : Nat := (p.elemBase + i * p.elemStride + j) % 2 ^ 32

/-- Fold number `fn` of element `n` of a tile, with its two scale codes (R140-R144). -/
def foldElement (seed : BitVec 96) (p : MacParams) (sweep fn : Nat) (sa sb : List Byte) (n : Nat) (o b : Int) : Folded :=
  if p.format ≠ 2 then foldAdd o b
  else
    let ca := (sa.getD (n / 32) 0).toNat
    let cb := (sb.getD (n % 32) 0).toNat
    if ca = 255 ∨ cb = 255 then { v := o, nan := true }
    else
      let s : Int := ca + cb - 254 - p.anchor
      let r := if p.foldRound = 1 ∧ -21 ≤ s ∧ s < 0 then
          elementDraw seed 0x05 (elemIndex p (n / 32) (n % 32)) sweep fn / 2 ^ 12 else 0
      foldShifted o b s (decide (p.foldRound = 1)) r

/-- What the pushes of one MAC.MM work with and leave. -/
structure Push where
  inner : List Int
  outer : List Int
  steps : Nat
  folds : Nat
  sat : Bool := false
  dropped : Bool := false
  nan : Bool := false
  poison : Bool := false
  octets : Nat := 0

/-- The octets that a fold with stochastic rounding draws from (R196). -/
def foldOctets (p : MacParams) (sa sb : List Byte) : Nat :=
  if p.format = 2 ∧ p.foldRound = 1 then
    (distinct ((List.range 1024).filterMap fun n =>
      let ca := (sa.getD (n / 32) 0).toNat
      let cb := (sb.getD (n % 32) 0).toNat
      let s : Int := ca + cb - 254 - p.anchor
      if ca ≠ 255 ∧ cb ≠ 255 ∧ -21 ≤ s ∧ s < 0 then some (elemIndex p (n / 32) (n % 32) / 8) else none)).length
  else 0

/-- A fold of every element (R139). -/
def foldAll (seed : BitVec 96) (p : MacParams) (sweep : Nat) (sa sb : List Byte) (bad : Bool) (x : Push) : Push :=
  let fs := (List.range 1024).zip (x.outer.zip x.inner) |>.map fun e => foldElement seed p sweep x.folds sa sb e.1 e.2.1 e.2.2
  { x with inner := List.replicate 1024 0, outer := fs.map (·.v), folds := x.folds + 1, sat := x.sat || fs.any (·.sat),
           dropped := x.dropped || fs.any (·.dropped), nan := x.nan || fs.any (·.nan),
           poison := x.poison || bad || fs.any (·.nan), octets := x.octets + foldOctets p sa sb }

/-- The fold interval in steps (R133). -/
def foldInterval (format : Nat) : Nat := if format = 2 then 32 else 64

/-- Fields of a MAC.MM (R162): addresses and step count. -/
def mmA (op : OpWord) : Nat := bitsOf op 1 19
/-- R162. -/
def mmB (op : OpWord) : Nat := bitsOf op 20 19
/-- R162. -/
def mmSA (op : OpWord) : Nat := bitsOf op 39 19
/-- R162. -/
def mmSB (op : OpWord) : Nat := bitsOf op 58 19
/-- R162. -/
def mmSteps (op : OpWord) : Nat := bitsOf op 77 14 + 1

/-- Step `k` of a MAC.MM, with the fold after it when one is due (R135, R139, R161). -/
def pushStep (s : State) (lid : Nat) (p : MacParams) (sweep : Nat) (op : OpWord) (k : Nat) (x : Push) : Push :=
  let a := mmA op + 32 * p.aStep * k
  let b := mmB op + 32 * p.bStep * k
  let x := { x with inner := List.zipWith (· + ·) x.inner (stepProducts p.format (s.rd lid .tile a 32) (s.rd lid .tile b 32)),
                    steps := x.steps + 1, poison := x.poison || s.rdBad lid .tile a 32 || s.rdBad lid .tile b 32 }
  if x.steps % foldInterval p.format = 0 ∨ (bitOf op 113 ∧ k + 1 = mmSteps op) then
    let sa := mmSA op + 32 * (k / 32)
    let sb := mmSB op + 32 * (k / 32)
    let bad := decide (p.format = 2) && (s.rdBad lid .tile sa 32 || s.rdBad lid .tile sb 32)
    foldAll (s.seedOf lid) p sweep (s.rd lid .tile sa 32) (s.rd lid .tile sb 32) bad x
  else x

/-! ### MAC.TILE (R145, R162) -/

/-- The parameters that a MAC.TILE writes (R162). -/
def tileParams (op : OpWord) : MacParams :=
  { format := bitsOf op 1 2, anchor := sbitsOf op 3 10, foldRound := bitsOf op 13 1, elemBase := bitsOf op 14 32,
    elemStride := bitsOf op 46 16, aStep := bitsOf op 62 12, bStep := bitsOf op 74 12 }

/-- MAC.TILE (R145, R162, R163). -/
def macTileOp (lid : Nat) (s : State) : State :=
  s.issue lid .m 0x20 fun op t =>
    if bitsOf op 1 2 = 3 then t.opFault lid .m fMacFormat
    else if opReserved [(0, 86)] op ∨ bitsOf op 62 12 = 0 ∨ bitsOf op 74 12 = 0 then t.opFault lid .m fMacOperand
    else (t.modCore lid fun c => { c with macNext := tblPut (fun _ => {}) (bitsOf op 0 1) (tileParams op) c.macNext }).retire lid .m

/-- MAC_TILE (R162). -/
def execMacTile (lid : Nat) (s : State) : Host.Outcome State Fault Refusal :=
  guarded (decide (lid < 2048)) s (macTileOp lid s)

/-! ### MAC.MM (R137, R145-R147, R163) -/

/-- Bank `b` of a core. -/
def State.bank (s : State) (lid b : Nat) : Bank := tblGet (fun _ => {}) (s.core lid).banks b

/-- Writes bank `b` of a core. -/
def State.setBank (lid b : Nat) (k : Bank) (s : State) : State :=
  s.modCore lid fun c => { c with banks := tblPut (fun _ => {}) b k c.banks }

/-- The operand fault of a MAC.MM against the parameters it takes, if it has one (R163). -/
def mmFault (p : MacParams) (op : OpWord) : Option Nat :=
  let n := mmSteps op
  let past := fun a m => decide (a % 32 ≠ 0) || decide (0x80000 < a + m)
  if p.format = 2 ∧ n % 32 ≠ 0 then some fMacBlock
  else if p.aStep = 0 ∨ p.bStep = 0 ∨ past (mmA op) (32 * p.aStep * (n - 1) + 32) ∨ past (mmB op) (32 * p.bStep * (n - 1) + 32) then
    some fMacOperand
  else if p.format = 2 ∧ (past (mmSA op) n ∨ past (mmSB op) n) then some fMacOperand
  else none

/-- The operand words that a MAC.MM reads are met (R161, R351). -/
def mmReads (lid : Nat) (p : MacParams) (op : OpWord) (s : State) : State :=
  let n := mmSteps op
  let s := forAll (List.range n) (fun k t => (t.noteRead lid .tile (mmA op + 32 * p.aStep * k) 32).noteRead lid .tile
    (mmB op + 32 * p.bStep * k) 32) s
  if p.format = 2 then (s.noteRead lid .tile (mmSA op) n).noteRead lid .tile (mmSB op) n else s

/-- Records what pushes raised, in the bank's register and in CORE_MAC_STATUS (R140, R142, R160, R161). -/
def pushFlags (lid b : Nat) (x : Push) (s : State) : State :=
  let set := fun (f : Fld) (on : Bool) (t : State) => if on then t.setF f 1 else t
  s |> set (cBankSat lid b) x.sat |> set (cOuterSat lid) x.sat |> set (cBankDropped lid b) x.dropped
    |> set (cDropped lid) x.dropped |> set (cBankPoison lid b) x.poison |> set (cMacPoison lid) x.poison
    |> set (cScaleNan lid) x.nan

/-- The bank register of a tile at its open: OPEN, its format and anchor, every flag 0 (R145, R160). -/
def openBank (lid b : Nat) (p : MacParams) (s : State) : State :=
  s.set64 (cBankState lid b).off 0 |>.setF (cBankState lid b) 1 |>.setF (cBankFormat lid b) p.format
    |>.setF (cBankAnchor lid b) (bitsOf (BitVec.ofInt 10 p.anchor) 0 10)

/-- A MAC.MM that has passed its checks pushes all its steps (R137-R144). -/
def mmPush (lid b : Nat) (p : MacParams) (op : OpWord) (s : State) : State :=
  let fresh := bitOf op 112
  let k : Bank := if fresh then { params := p, sweep := s.keySweep lid } else s.bank lid b
  let x0 : Push := { inner := elementsOf k.inner, outer := elementsOf k.outer, steps := k.steps, folds := k.folds }
  let x := (List.range (mmSteps op)).foldl (fun x i => pushStep s lid p k.sweep op i x) x0
  let s := mmReads lid p op s
  let s := if fresh then openBank lid b p s else s
  let s := if bitOf op 113 then s.setF (cBankState lid b) 2 else s
  let s := pushFlags lid b x (s.setBank lid b { k with inner := x.inner, outer := x.outer, steps := x.steps, folds := x.folds })
  (s.incF (cBankSteps lid b) (mmSteps op) |>.incF (cSteps lid) (mmSteps op) |>.blocks lid x.octets
    |>.addFree (cMacStalls lid)).retire lid .m

/-- MAC.MM (R145-R147, R163); an opening op waits for a bank whose drain has issued (R146). -/
def macMmOp (lid : Nat) (s : State) : State :=
  s.issue lid .m 0x21 fun op t =>
    let b := bitsOf op 0 1
    let st := t.getF (cBankState lid b)
    let go := fun p => match mmFault p op with
      | some c => t.opFault lid .m c
      | none => mmPush lid b p op t
    if opReserved [(0, 91), (112, 2)] op then t.opFault lid .m fMacOperand
    else if bitOf op 112 then
      if st = 1 then t.opFault lid .m fMacReopen
      else if st = 2 ∧ !t.onF (cBankDrainIssued lid b) then t.opFault lid .m fMacUndrained
      else if st ≠ 0 then t
      else go (tblGet (fun _ => {}) (t.core lid).macNext b)
    else if st ≠ 1 then t.opFault lid .m fMacNotOpen
    else go (t.bank lid b).params

/-- MAC_MM (R137). -/
def execMacMm (lid : Nat) (s : State) : Host.Outcome State Fault Refusal :=
  guarded (decide (lid < 2048)) s (macMmOp lid s)

/-! ### MAC.DRAIN (R147, R149, R154, R163) -/

/-- FORMAT of a drain. -/
def drFormat (op : OpWord) : Nat := bitsOf op 1 3
/-- ROWS of a drain. -/
def drRows (op : OpWord) : Nat := bitsOf op 20 5 + 1
/-- COLS of a drain. -/
def drCols (op : OpWord) : Nat := bitsOf op 25 5 + 1
/-- DEST of a drain to tile memory. -/
def drDest (op : OpWord) : Nat := bitsOf op 30 19
/-- ROW_STRIDE of a drain to tile memory. -/
def drStride (op : OpWord) : Nat := bitsOf op 49 16

/-- Bytes of a row of `n` elements in a tile format (R150, R151). -/
def rowBytes (format n : Nat) : Nat :=
  match format with
  | 0 => 8 * n
  | 1 => 4 * n
  | 2 => n
  | 3 => (n + 1) / 2
  | 4 => 4 * n
  | 5 => 2 * n
  | _ => 4 * n

/-- Replica and local index of element (i,j) of a lace drain (R154). -/
def laceElem (op : OpWord) (i j : Nat) : Nat × Nat :=
  if bitOf op 65 then (bitsOf op 30 4 + j, bitsOf op 34 15 + i)
  else (bitsOf op 30 4, bitsOf op 34 15 + i * bitsOf op 49 15 + j)

/-- The elements of a drain, in ascending i, each row in ascending j (R154). -/
def drainElems (op : OpWord) : List (Nat × Nat) :=
  (List.range (drRows op)).flatMap fun i => (List.range (drCols op)).map fun j => (i, j)

/-- Whether a lace drain touches the replica whose phase is in progress (R96). -/
def drainOverlaps (s : State) (lid : Nat) (op : OpWord) : Bool :=
  decide (6 ≤ drFormat op) && (drainElems op).any fun e =>
    let t := laceElem op e.1 e.2
    let w := s.fieldAt lid t.1 t.2
    s.overlapsPhase lid w (w + 1)

/-- The fault of a MAC.DRAIN's own fields, if it has one (R96, R154, R163). -/
def drainFault (s : State) (lid : Nat) (op : OpWord) : Option Nat :=
  let len := rowBytes (drFormat op) (drCols op)
  if 6 ≤ drFormat op then
    if (drainElems op).any fun e =>
        decide (s.units lid ≤ (laceElem op e.1 e.2).2) || decide (s.replicas lid ≤ (laceElem op e.1 e.2).1) then some fMacLaceRange
    else if drainOverlaps s lid op then some fSuaOverlap
    else none
  else if drDest op % 16 ≠ 0 ∨ drStride op % 16 ≠ 0 ∨ drStride op < len ∨
      0x80000 < drDest op + (drRows op - 1) * drStride op + len then some fMacOperand
  else none

/-- MAC.DRAIN: a third drain waits; otherwise it is handed to the drain engine (R147, R149, R163). -/
def macDrainOp (lid : Nat) (s : State) : State :=
  s.issue lid .m 0x22 fun op t =>
    let b := bitsOf op 0 1
    if opReserved [(0, 66), (112, 1)] op then t.opFault lid .m fMacOperand
    else if 2 ≤ (t.core lid).drains.length then t
    else if t.getF (cBankState lid b) ≠ 2 ∨ t.onF (cBankDrainIssued lid b) then t.opFault lid .m fMacNoClose
    else
      match drainFault t lid op with
      | some c => t.opFault lid .m c
      | none =>
        ((t.setF (cBankDrainIssued lid b) 1).modCore lid fun c =>
          { c with drains := c.drains ++ [⟨op, t.keySweep lid, t.getF (qPc lid .m), 0⟩] }).advance lid .m

/-- MAC_DRAIN (R149). -/
def execMacDrain (lid : Nat) (s : State) : Host.Outcome State Fault Refusal :=
  guarded (decide (lid < 2048)) s (macDrainOp lid s)

/-! ### The drain (R148-R156) -/

/-- Random bits of a drain format (R150). -/
def drainBits (format : Nat) : Nat := if format = 3 then 3 else 4

/-- A floating-point conversion of O × 2^EXP with a significand of `w` bits: its bits, and whether it was clamped
(R153). -/
def drainFloat (w : Nat) (o exp : Int) (stochastic : Bool) (k r : Nat) : Nat × Bool :=
  if o = 0 then (0, false)
  else
    let m := o.natAbs
    let l : Int := max ((Nat.log2 m : Int) + exp - (w - 1)) (-126 - (w - 1))
    let d := l - exp
    let q : Nat := if d ≤ 0 then m * 2 ^ (-d).toNat else (rnd m d.toNat stochastic k r).toNat
    let bits := (l + w + 125).toNat * 2 ^ (w - 1) + q
    let top := 255 * 2 ^ (w - 1)
    let sign := if o < 0 then 256 * 2 ^ (w - 1) else 0
    if top ≤ bits then (sign + (top - 1), true) else (sign + bits, false)

/-- An integer conversion to `n` bits: its value, and whether it was clamped (R152). -/
def drainInt (n : Nat) (o : Int) (shift : Nat) (stochastic : Bool) (k r : Nat) : Int × Bool :=
  let v := if shift = 0 then o else rnd o shift stochastic k r
  (satS n v, decide (satS n v ≠ v))

/-- Destination width in bits of an integer format (R150). -/
def drainWidth (format : Nat) : Nat :=
  match format with
  | 2 => 8
  | 3 => 4
  | _ => 32

/-- The random bits of element (i,j) of a drain (R156). -/
def drainDraw (seed : BitVec 96) (p : MacParams) (d : Drain) (i j : Nat) : Nat :=
  if bitOf d.op 112 then elementDraw seed 0x06 (elemIndex p i j) d.sweep 0 / 2 ^ (16 - drainBits (drFormat d.op)) else 0

/-- Element (i,j) of a bank as the drain converts it, as an integer, and whether it was clamped (R150-R153). -/
def drainElem (seed : BitVec 96) (k : Bank) (d : Drain) (i j : Nat) : Int × Bool :=
  let o := k.outer.getD (32 * i + j) 0
  let f := drFormat d.op
  let r := drainDraw seed k.params d i j
  let sr := bitOf d.op 112
  if f = 0 then (o, false)
  else if f = 4 ∨ f = 5 then
    let x := drainFloat (if f = 4 then 24 else 8) o (sbitsOf d.op 10 10) sr 4 r
    (x.1, x.2)
  else drainInt (drainWidth f) o (bitsOf d.op 4 6) sr (drainBits f) r

/-- The bytes of row values in a tile format; an odd last INT4 element keeps the nibble `old` beside it (R151). -/
def rowOf (format : Nat) (old : Nat) (vs : List Int) : List Byte :=
  if format = 3 then
    (pieces 2 vs).map fun p =>
      match p with
      | [a, b] => BitVec.ofNat 8 ((BitVec.ofInt 4 a).toNat + 16 * (BitVec.ofInt 4 b).toNat)
      | [a] => BitVec.ofNat 8 ((BitVec.ofInt 4 a).toNat + 16 * old)
      | _ => 0
  else
    let w := rowBytes format 1
    vs.flatMap fun v => natLe w (BitVec.ofInt 64 v).toNat

/-- The blocks a row of a stochastic drain needs (R200): a row of 32 elements needs four when ELEM_BASE and ELEM_STRIDE
are multiples of 8 and five otherwise; a shorter one, a block for each octet it draws from (R196). -/
def rowOctets (p : MacParams) (d : Drain) (i : Nat) : Nat :=
  if bitOf d.op 112 ∧ drFormat d.op ≠ 0 then
    if drCols d.op = 32 then (if p.elemBase % 8 = 0 ∧ p.elemStride % 8 = 0 then 4 else 5)
    else (distinct ((List.range (drCols d.op)).map fun j => elemIndex p i j / 8)).length
  else 0

/-- Writes row `i` of a drain to tile memory (R149, R151, R155). -/
def drainRow (lid : Nat) (k : Bank) (poison : Bool) (d : Drain) (i : Nat) (s : State) : State :=
  let f := drFormat d.op
  let vs := (List.range (drCols d.op)).map (drainElem (s.seedOf lid) k d i)
  let a := drDest d.op + i * drStride d.op
  let last := s.rdNat lid .tile (a + rowBytes f (drCols d.op) - 1) 1 / 16
  let bs := rowOf f last (vs.map (·.1))
  let s := if vs.any (·.2) then s.setF (cDrainSat lid) 1 else s
  let s := s.blocks lid (rowOctets k.params d i)
  if poison then s.wrPoison lid .tile a bs else s.wr lid .tile a bs

/-- Writes element (i,j) of a drain to lace memory through the update port (R62, R154, R155). -/
def drainLace (lid : Nat) (k : Bank) (poison : Bool) (d : Drain) (e : Nat × Nat) (s : State) : State :=
  let v := drainElem (s.seedOf lid) k d e.1 e.2
  let t := laceElem d.op e.1 e.2
  let w := s.fieldAt lid t.1 t.2
  let s := if v.2 then s.setF (cDrainSat lid) 1 else s
  if poison then s.wrPoison lid .lace (4 * w) (s.rd lid .lace (4 * w) 4)
  else if drFormat d.op = 6 then (s.setLace lid w (BitVec.ofInt 32 v.1)).incF (cUpdates lid) 1
  else s.addField lid t.1 t.2 v.1

/-- Reads row `i` of a drain's bank, converts it and writes it (R149-R155). -/
def drainWrite (lid : Nat) (d : Drain) (i : Nat) (s : State) : State :=
  let b := bitsOf d.op 0 1
  let k := s.bank lid b
  let k := { k with outer := elementsOf k.outer }
  let poison := s.onF (cBankPoison lid b)
  let s := if poison then s.setF (cMacPoison lid) 1 else s
  if 6 ≤ drFormat d.op then
    forAll ((List.range (drCols d.op)).map fun j => (i, j)) (drainLace lid k poison d) (s.blocks lid (rowOctets k.params d i))
  else drainRow lid k poison d i s

/-- The drain at work reads one row and writes it: with row 0 its bank is DRAINING, with its last row EMPTY, and the
drain retires (R145, R148, R149; log 98). A phase that has since begun on its replica faults it (R96). -/
def drainReadOp (lid : Nat) (s : State) : State :=
  match (s.core lid).drains with
  | [] => s
  | d :: rest =>
    let b := bitsOf d.op 0 1
    if !s.coreRuns lid then s
    else if drainOverlaps s lid d.op then
      ((s.modCore lid fun c => { c with drains := rest }).setF (qPc lid .m) d.pc).opFault lid .m fSuaOverlap
    else
      let t := (drainWrite lid d d.row s).addFree (cMacStalls lid)
      if d.row + 1 < drRows d.op then
        (t.modCore lid fun c => { c with drains := { d with row := d.row + 1 } :: rest }).setF (cBankState lid b) 3
      else ((t.modCore lid fun c => { c with drains := rest }).setF (cBankState lid b) 0 |>.incF (cTiles lid) 1).opDone lid .m

/-- DRAIN_READ (R148). -/
def execDrainRead (lid : Nat) (s : State) : Host.Outcome State Fault Refusal :=
  guarded (decide (lid < 2048)) s (drainReadOp lid s)

end Sys2Proof.Machine
end

