-- ==== Sys2Proof/Machine/Vec.lean ====
section
/-!
DEFINITION. The vector engine: its registers, loads and stores, integer and FP32 lane arithmetic (R164-R170, R189).
-/
namespace Sys2Proof.Machine

/-! ### Registers (R164) -/

/-- Lane `l` of vector register `r`. -/
def State.lane (s : State) (lid r l : Nat) : W32 := tblGet (fun _ => 0) (s.core lid).vregs (64 * r + l)

/-- Writes lane `l` of vector register `r`. -/
def State.setLane (lid r l : Nat) (v : W32) (s : State) : State :=
  s.modCore lid fun c => { c with vregs := tblPut (fun _ => 0) (64 * r + l) v c.vregs }

/-- The 64 lanes of a register. -/
def State.vreg (s : State) (lid r : Nat) : List W32 := (List.range 64).map (s.lane lid r)

/-- Writes lanes from lane 0 on. -/
def State.setReg (lid r : Nat) (vs : List W32) (s : State) : State :=
  forAll (vs.zip (List.range vs.length)) (fun e t => t.setLane lid r e.2 e.1) s

/-- Lane pair `p` of a register as 64 bits. -/
def State.pairBits (s : State) (lid r p : Nat) : W64 := s.lane lid r (2 * p + 1) ++ s.lane lid r (2 * p)

/-- Lane pair `p` of a register as an s64. -/
def State.pair (s : State) (lid r p : Nat) : Int := (s.pairBits lid r p).toInt

/-- Writes lane pair `p` of a register. -/
def State.setPairBits (lid r p : Nat) (v : W64) (s : State) : State :=
  (s.setLane lid r (2 * p) (v.extractLsb' 0 32)).setLane lid r (2 * p + 1) (v.extractLsb' 32 32)

/-- Writes an s64 to lane pair `p` of a register. -/
def State.setPair (lid r p : Nat) (v : Int) (s : State) : State := s.setPairBits lid r p (BitVec.ofInt 64 v)

/-! ### Fields of vector ops (R189) -/

/-- VD. -/
def vD (op : OpWord) : Nat := bitsOf op 0 5
/-- VA. -/
def vA (op : OpWord) : Nat := bitsOf op 5 5
/-- VB. -/
def vB (op : OpWord) : Nat := bitsOf op 10 5
/-- FMT. -/
def vFmt (op : OpWord) : Nat := bitsOf op 15 3
/-- TADDR. -/
def vTile (op : OpWord) : Nat := bitsOf op 18 19
/-- LADDR. -/
def vLace (op : OpWord) : Nat := bitsOf op 37 18
/-- The number that COUNT stands for: the field plus one. -/
def vCount (op : OpWord) : Nat := bitsOf op 55 16 + 1
/-- REPLICA. -/
def vReplica (op : OpWord) : Nat := bitsOf op 71 4
/-- CTR. -/
def vCtr (op : OpWord) : Nat := bitsOf op 75 6

/-- Bits of the common fields, as (least bit, width). -/
def fVD : Nat × Nat := (0, 5)
/-- VA. -/
def fVA : Nat × Nat := (5, 5)
/-- VB. -/
def fVB : Nat × Nat := (10, 5)
/-- FMT. -/
def fFMT : Nat × Nat := (15, 3)
/-- TADDR. -/
def fTADDR : Nat × Nat := (18, 19)
/-- LADDR. -/
def fLADDR : Nat × Nat := (37, 18)
/-- COUNT. -/
def fCOUNT : Nat × Nat := (55, 16)

/-- Issues a vector op: a bit that the op does not use raises VEC_OPERAND (R189, R525). -/
def State.vecOp (lid code : Nat) (fields : List (Nat × Nat)) (f : OpWord → State → State) (s : State) : State :=
  s.issue lid .v code fun op t => if opReserved fields op then t.opFault lid .v fVecOperand else f op t

/-- A vector op ends: it retires and is counted; its waits are free (R188, R525, log 4). -/
def State.vecEnd (lid : Nat) (s : State) : State := ((s.incF (cVecOps lid) 1).addFree (cVecStalls lid)).retire lid .v

/-- A vector op whose checks name a fault takes it and writes nothing; else it runs (R190). -/
def State.vecRun (lid : Nat) (bad : Option Nat) (f : State → State) (s : State) : State :=
  match bad with
  | some c => s.opFault lid .v c
  | none => (f s).vecEnd lid

/-- Sets a status flag of the engine when `on` (R188). -/
def State.flagIf (f : Fld) (on : Bool) (s : State) : State := if on then s.setF f 1 else s

/-- The first fault of a list of checks, in order. -/
def firstFault (l : List (Bool × Nat)) : Option Nat := (l.find? (·.1)).map (·.2)

/-- A tile address of a vector op is a multiple of 64, and `n` bytes from it lie in tile memory (R190). -/
def tileChecks (a n : Nat) : List (Bool × Nat) := [(decide (a % 64 ≠ 0), fVecOperand), (decide (0x80000 < a + n), fVecRange)]

/-- A lace address of a vector op is a multiple of 64, and `n` words from it lie in lace memory (R190). -/
def laceChecks (a n : Nat) : List (Bool × Nat) := [(decide (a % 64 ≠ 0), fVecOperand), (decide (0x40000 < a + n), fVecRange)]

/-- A read of tile memory by the vector engine: an uncorrectable word sets POISON (R188, R351). -/
def State.vecReads (lid a n : Nat) (s : State) : State :=
  (s.noteRead lid .tile a n).flagIf (cVecPoison lid) (s.rdBad lid .tile a n)

/-- A read of lace words by the vector engine (R67, R188). -/
def State.vecReadsLace (lid a n : Nat) (s : State) : State :=
  forAll (rangeFrom a (a + n)) (fun w t => (t.noteLace lid w).flagIf (cVecPoison lid) (t.laceBad lid w)) s

/-! ### FP32 (R169, R170) -/

/-- Whether a lane holds a NaN. -/
def fpNan (b : W32) : Bool := decide (bitsOf b 23 8 = 255) && decide (bitsOf b 0 23 ≠ 0)

/-- Whether a lane holds an infinity. -/
def fpInf (b : W32) : Bool := decide (bitsOf b 23 8 = 255) && decide (bitsOf b 0 23 = 0)

/-- The sign bit of a lane. -/
def fpNeg (b : W32) : Bool := bitOf b 31

/-- The value of a lane that is no NaN, in units of 2⁻¹⁴⁹; an infinity acts as the largest finite value (R170). -/
def fpVal (b : W32) : Int :=
  let e := bitsOf b 23 8
  let f := bitsOf b 0 23
  let m : Nat := if e = 255 then (2 ^ 24 - 1) * 2 ^ 253 else if e = 0 then f else (2 ^ 23 + f) * 2 ^ (e - 1)
  if fpNeg b then -(m : Int) else m

/-- The format of `w` significand bits nearest to x × 2^exp, ties to even, and whether it was clamped to the largest
finite value; an exact zero takes the sign `neg` (R169, R170). -/
def fpRound (w : Nat) (x exp : Int) (neg : Bool) : Nat × Bool :=
  if x = 0 then (if neg then 256 * 2 ^ (w - 1) else 0, false) else drainFloat w x exp false 0 0

/-- What a lane of an FP op gives: its result, and whether it sets FP_SAT, FP_NAN or INT_SAT. -/
structure FpLane where
  v : W32
  sat : Bool := false
  nan : Bool := false
  int : Bool := false

/-- The quiet NaN of R170. -/
def fpQuiet : W32 := 0x7FC00000

/-- A sum of two lanes (R169): an exact zero is −0 only when both are −0. -/
def fpAdd (a b : W32) : FpLane :=
  let inf := fpInf a || fpInf b
  if fpNan a || fpNan b then { v := fpQuiet, sat := inf, nan := true }
  else
    let r := fpRound 24 (fpVal a + fpVal b) (-149) (fpNeg a && fpNeg b)
    { v := BitVec.ofNat 32 r.1, sat := inf || r.2 }

/-- A product of two lanes (R169). -/
def fpMul (a b : W32) : FpLane :=
  let inf := fpInf a || fpInf b
  if fpNan a || fpNan b then { v := fpQuiet, sat := inf, nan := true }
  else
    let r := fpRound 24 (fpVal a * fpVal b) (-298) (fpNeg a != fpNeg b)
    { v := BitVec.ofNat 32 r.1, sat := inf || r.2 }

/-- A lane with its sign flipped. -/
def fpMinus (b : W32) : W32 := b ^^^ 0x80000000#32

/-- An integer converted to FP32 (R189). -/
def fpOfInt (x : Int) : FpLane := { v := BitVec.ofNat 32 (fpRound 24 x 0 false).1 }

/-- A lane converted to S32, nearest-even and clamped (R189). -/
def fpToInt (b : W32) : FpLane :=
  if fpNan b then { v := fpQuiet, nan := true }
  else
    let r := rnd (fpVal b) 149 false 0 0
    { v := BitVec.ofInt 32 (satS 32 r), sat := fpInf b, int := decide (satS 32 r ≠ r) }

/-- A lane rounded to BF16 for a store (R165, R170). -/
def fpToBf16 (b : W32) : FpLane :=
  if fpNan b then { v := 0x7FC0#32, nan := true }
  else
    let r := fpRound 8 (fpVal b) (-149) (fpNeg b)
    { v := BitVec.ofNat 32 r.1, sat := fpInf b || r.2 }

/-- Records what the lanes of an FP op set. -/
def fpFlags (lid : Nat) (ls : List FpLane) (s : State) : State :=
  s.flagIf (cFpSat lid) (ls.any (·.sat)) |>.flagIf (cFpNan lid) (ls.any (·.nan)) |>.flagIf (cIntSat lid) (ls.any (·.int))

/-! ### Formats in memory (R165, R166) -/

/-- Bytes of an element in memory. -/
def fmtBytes (fmt : Nat) : Nat :=
  match fmt with
  | 2 => 8
  | 4 => 2
  | 5 => 2
  | 6 => 1
  | _ => 4

/-- Bytes of one register in memory (R166). -/
def regBytes (fmt : Nat) : Nat := if fmt = 2 then 256 else 64 * fmtBytes fmt

/-- The lanes that the bytes of one register load (R165). -/
def loadLanes (fmt : Nat) (bs : List Byte) : List W32 :=
  match fmt with
  | 4 => (pieces 2 bs).map fun p => BitVec.ofNat 32 (leNat p * 2 ^ 16)
  | 5 => (pieces 2 bs).map fun p => BitVec.ofInt 32 (BitVec.ofNat 16 (leNat p)).toInt
  | 6 => bs.map fun b => BitVec.ofInt 32 b.toInt
  | _ => (pieces 4 bs).map fun p => BitVec.ofNat 32 (leNat p)

/-- A lane as it is stored (R165). -/
def storeLane (fmt : Nat) (v : W32) : FpLane :=
  match fmt with
  | 4 => fpToBf16 v
  | 5 => { v := BitVec.ofInt 32 (satS 16 v.toInt), int := decide (satS 16 v.toInt ≠ v.toInt) }
  | 6 => { v := BitVec.ofInt 32 (satS 8 v.toInt), int := decide (satS 8 v.toInt ≠ v.toInt) }
  | _ => { v := v }

/-- The bytes of stored lanes. -/
def storeBytes (fmt : Nat) (ls : List FpLane) : List Byte :=
  ls.flatMap fun l => natLe (if fmt = 2 then 4 else fmtBytes fmt) l.v.toNat

/-! ### Loads and stores (R166, R167) -/

/-- The checks of a run of registers (R525). -/
def runChecks (op : OpWord) : List (Bool × Nat) := [(decide (31 < vD op + (vCount op - 1)), fVecOperand)]

/-- VEC.LDT (R165, R166). -/
def vecLdtOp (lid : Nat) (s : State) : State :=
  s.vecOp lid 0x60 [fVD, fTADDR, fCOUNT, fFMT] fun op t =>
    let b := regBytes (vFmt op)
    let bad := firstFault ([(decide (vFmt op = 7), fVecOperand)] ++ runChecks op ++ tileChecks (vTile op) (vCount op * b))
    t.vecRun lid bad fun t =>
      forAll (List.range (vCount op)) (fun k u =>
        let a := vTile op + k * b
        (u.vecReads lid a b).setReg lid (vD op + k) (loadLanes (vFmt op) (u.rd lid .tile a b))) t

/-- VEC_LDT (R166). -/
def execVecLdt (lid : Nat) (s : State) : Host.Outcome State Fault Refusal :=
  guarded (decide (lid < 2048)) s (vecLdtOp lid s)

/-- VEC.LDL (R166). -/
def vecLdlOp (lid : Nat) (s : State) : State :=
  s.vecOp lid 0x61 [fVD, fLADDR, fCOUNT, fFMT] fun op t =>
    let bad := firstFault ([(decide (1 < vFmt op), fVecOperand)] ++ runChecks op ++ laceChecks (vLace op) (64 * vCount op))
    t.vecRun lid bad fun t =>
      forAll (List.range (vCount op)) (fun k u =>
        let a := vLace op + 64 * k
        (u.vecReadsLace lid a 64).setReg lid (vD op + k) ((List.range 64).map fun j => u.lace lid (a + j))) t

/-- VEC_LDL (R166). -/
def execVecLdl (lid : Nat) (s : State) : Host.Outcome State Fault Refusal :=
  guarded (decide (lid < 2048)) s (vecLdlOp lid s)

/-- VEC.STT (R165, R166, R170). -/
def vecSttOp (lid : Nat) (s : State) : State :=
  s.vecOp lid 0x62 [fVD, fTADDR, fCOUNT, fFMT] fun op t =>
    let b := regBytes (vFmt op)
    let bad := firstFault ([(decide (vFmt op = 7), fVecOperand)] ++ runChecks op ++ tileChecks (vTile op) (vCount op * b))
    t.vecRun lid bad fun t =>
      forAll (List.range (vCount op)) (fun k u =>
        let ls := (u.vreg lid (vD op + k)).map (storeLane (vFmt op))
        (fpFlags lid ls u).wr lid .tile (vTile op + k * b) (storeBytes (vFmt op) ls)) t

/-- VEC_STT (R166). -/
def execVecStt (lid : Nat) (s : State) : Host.Outcome State Fault Refusal :=
  guarded (decide (lid < 2048)) s (vecSttOp lid s)

/-- VEC.STL (R166, R167). -/
def vecStlOp (lid : Nat) (s : State) : State :=
  s.vecOp lid 0x63 [fVD, fLADDR, fCOUNT, fFMT] fun op t =>
    let n := 64 * vCount op
    let bad := firstFault ([(decide (1 < vFmt op), fVecOperand)] ++ runChecks op ++ laceChecks (vLace op) n ++
      [(t.overlapsPhase lid (vLace op) (vLace op + n), fSuaOverlap)])
    t.vecRun lid bad fun t =>
      forAll (List.range n) (fun k u => u.setLace lid (vLace op + k) (u.lane lid (vD op + k / 64) (k % 64))) t

/-- VEC_STL (R167). -/
def execVecStl (lid : Nat) (s : State) : Host.Outcome State Fault Refusal :=
  guarded (decide (lid < 2048)) s (vecStlOp lid s)

/-! ### Integer lane arithmetic (R168) -/

/-- A value of VEC.ALU in a format of `w` bits: the result, and whether it was clamped. -/
def aluValue {w : Nat} (signed : Bool) (func : Nat) (x y : BitVec w) : BitVec w × Bool :=
  let a : Int := if signed then x.toInt else x.toNat
  let b : Int := if signed then y.toInt else y.toNat
  let sat : Int → BitVec w × Bool := fun v =>
    let c := if signed then satS w v else satU w v
    (BitVec.ofInt w c, decide (c ≠ v))
  let n := min y.toNat 63
  let flag : Bool → BitVec w × Bool := fun p => (BitVec.ofNat w p.toNat, false)
  match func with
  | 0 => sat (a + b)
  | 1 => sat (a - b)
  | 2 => sat (a * b)
  | 4 => (if a ≤ b then x else y, false)
  | 5 => (if a ≤ b then y else x, false)
  | 6 => (x &&& y, false)
  | 7 => (x ||| y, false)
  | 8 => (x ^^^ y, false)
  | 9 => (x <<< n, false)
  | 10 => (if signed then x.sshiftRight n else x >>> n, false)
  | 11 => flag (decide (a < b))
  | _ => flag (decide (a = b))

/-- VEC.ALU in 32-bit lanes. -/
def aluLanes (lid : Nat) (op : OpWord) (s : State) : State :=
  let rs := (List.range 64).map fun l => aluValue (decide (vFmt op = 0)) (bitsOf op 81 4) (s.lane lid (vA op) l) (s.lane lid (vB op) l)
  (s.setReg lid (vD op) (rs.map (·.1))).flagIf (cIntSat lid) (rs.any (·.2))

/-- VEC.ALU in S64 lane pairs. -/
def aluPairs (lid : Nat) (op : OpWord) (s : State) : State :=
  let rs := (List.range 32).map fun p => aluValue true (bitsOf op 81 4) (s.pairBits lid (vA op) p) (s.pairBits lid (vB op) p)
  (forAll (rs.zip (List.range 32)) (fun e t => t.setPairBits lid (vD op) e.2 e.1.1) s).flagIf (cIntSat lid) (rs.any (·.2))

/-- MULW: exact products of lanes 0 to 31 into lane pairs. -/
def aluMulw (lid : Nat) (op : OpWord) (s : State) : State :=
  forAll (List.range 32) (fun p t => t.setPair lid (vD op) p ((s.lane lid (vA op) p).toInt * (s.lane lid (vB op) p).toInt)) s

/-- VEC.ALU (R168, R189). -/
def vecAluOp (lid : Nat) (s : State) : State :=
  s.vecOp lid 0x64 [fVD, fVA, fVB, fFMT, (81, 4)] fun op t =>
    let fn := bitsOf op 81 4
    let bad := firstFault [(decide (12 < fn), fVecOperand), (decide (2 < vFmt op), fVecOperand),
      (decide (fn = 3 ∧ vFmt op ≠ 0), fVecOperand)]
    t.vecRun lid bad (if fn = 3 then aluMulw lid op else if vFmt op = 2 then aluPairs lid op else aluLanes lid op)

/-- VEC_ALU (R168). -/
def execVecAlu (lid : Nat) (s : State) : Host.Outcome State Fault Refusal :=
  guarded (decide (lid < 2048)) s (vecAluOp lid s)

/-! ### FP lane arithmetic (R169, R170) -/

/-- One lane of VEC.FPU. -/
def fpuLane (func fmt : Nat) (a b : W32) : FpLane :=
  match func with
  | 0 => fpAdd a b
  | 1 => fpAdd a (if fpNan b then b else fpMinus b)
  | 2 => fpMul a b
  | 3 => fpOfInt (if fmt = 0 then a.toInt else a.toNat)
  | _ => fpToInt a

/-- VEC.FPU (R169, R170, R189, R525). -/
def vecFpuOp (lid : Nat) (s : State) : State :=
  s.vecOp lid 0x65 [fVD, fVA, fVB, fFMT, (81, 4)] fun op t =>
    let fn := bitsOf op 81 4
    let f := vFmt op
    let bad := firstFault [(decide (4 < fn), fVecOperand),
      (if fn = 3 then decide (1 < f) else decide (f ≠ 3 ∧ f ≠ 4), fVecOperand), (decide (3 ≤ fn ∧ vB op ≠ 0), fVecOperand)]
    t.vecRun lid bad fun t =>
      let ls := (List.range 64).map fun l => fpuLane fn f (t.lane lid (vA op) l) (t.lane lid (vB op) l)
      (fpFlags lid ls t).setReg lid (vD op) (ls.map (·.v))

/-- VEC_FPU (R169). -/
def execVecFpu (lid : Nat) (s : State) : Host.Outcome State Fault Refusal :=
  guarded (decide (lid < 2048)) s (vecFpuOp lid s)

end Sys2Proof.Machine
end

