-- ==== Sys2Proof/Machine/VecSum.lean ====
section
/-!
DEFINITION. Reductions of the vector engine and the partial sum buffer (R171-R177).
-/
namespace Sys2Proof.Machine

/-- `n` elements of `b` bytes at tile address `a`, as bytes. -/
def State.elems (s : State) (lid a b n : Nat) : List (List Byte) := (List.range n).map fun k => s.rd lid .tile (a + k * b) b

/-- An integer element (R165). -/
def intElem (fmt : Nat) (bs : List Byte) : Int :=
  match fmt with
  | 0 => (BitVec.ofNat 32 (leNat bs)).toInt
  | 1 => leNat bs
  | 5 => (BitVec.ofNat 16 (leNat bs)).toInt
  | 6 => (BitVec.ofNat 8 (leNat bs)).toInt
  | _ => (BitVec.ofNat 64 (leNat bs)).toInt

/-- VEC.RSUM: the exact sum, clamped to s64 once (R171). -/
def vecRsumOp (lid : Nat) (s : State) : State :=
  s.vecOp lid 0x66 [fVD, fTADDR, fCOUNT, fFMT] fun op t =>
    let b := fmtBytes (vFmt op)
    let n := vCount op
    let bad := firstFault ([(decide (2 < vFmt op), fVecOperand)] ++ tileChecks (vTile op) (n * b))
    t.vecRun lid bad fun t =>
      let x := ((t.elems lid (vTile op) b n).map (intElem (vFmt op))).sum
      ((t.vecReads lid (vTile op) (n * b)).setPair lid (vD op) 0 (satS 64 x)).flagIf (cIntSat lid) (decide (satS 64 x ≠ x))

/-- VEC_RSUM (R171). -/
def execVecRsum (lid : Nat) (s : State) : Host.Outcome State Fault Refusal :=
  guarded (decide (lid < 2048)) s (vecRsumOp lid s)

/-- An FP element as it enters a reduction (R165, R170). -/
def fpElem (fmt : Nat) (bs : List Byte) : FpLane :=
  let b : W32 := BitVec.ofNat 32 (if fmt = 4 then leNat bs * 2 ^ 16 else leNat bs)
  if fpNan b then { v := fpQuiet, nan := true }
  else if fpInf b then { v := if fpNeg b then 0xFF7FFFFF#32 else 0x7F7FFFFF#32, sat := true }
  else { v := b }

/-- One level of the fixed tree: neighbours are added, the lower on the left; one without a partner stays (R175). -/
def treeLevel : List FpLane → List FpLane
  | a :: b :: t =>
    let r := fpAdd a.v b.v
    { v := r.v, sat := a.sat || b.sat || r.sat, nan := a.nan || b.nan || r.nan } :: treeLevel t
  | l => l

/-- The levels of the tree, at most `k` of them (R175). -/
def treeSum : Nat → List FpLane → List FpLane
  | 0, l => l
  | k + 1, l => treeSum k (treeLevel l)

/-- VEC.RSUMF: the sum of the fixed pairwise tree, into lane 0 (R175). -/
def vecRsumfOp (lid : Nat) (s : State) : State :=
  s.vecOp lid 0x67 [fVD, fTADDR, fCOUNT, fFMT] fun op t =>
    let b := fmtBytes (vFmt op)
    let n := vCount op
    let bad := firstFault ([(decide (vFmt op ≠ 3 ∧ vFmt op ≠ 4), fVecOperand)] ++ tileChecks (vTile op) (n * b))
    t.vecRun lid bad fun t =>
      let r := treeSum 16 ((t.elems lid (vTile op) b n).map (fpElem (vFmt op)))
      (fpFlags lid r (t.vecReads lid (vTile op) (n * b))).setLane lid (vD op) 0 ((r.map (·.v)).headD 0)

/-- VEC_RSUMF (R175). -/
def execVecRsumf (lid : Nat) (s : State) : Host.Outcome State Fault Refusal :=
  guarded (decide (lid < 2048)) s (vecRsumfOp lid s)

/-! ### Maximum and minimum with index (R176, R177) -/

/-- An element of a maximum or minimum: the key it is ordered by, its value and its index. -/
structure Cand where
  key : Int
  v : W64
  idx : Nat

/-- Whether `a` wins over `b`: the larger (or smaller) key, among equals the lowest index (R176). -/
def candWins (hi : Bool) (a b : Cand) : Bool :=
  if a.key = b.key then decide (a.idx < b.idx) else if hi then decide (b.key < a.key) else decide (a.key < b.key)

/-- The winner of a list. -/
def candBest (hi : Bool) : List Cand → Option Cand
  | [] => none
  | a :: t => some (t.foldl (fun m c => if candWins hi c m then c else m) a)

/-- The candidates of integer elements. -/
def intCands (s : State) (lid : Nat) (op : OpWord) : List Cand :=
  let base := (s.lane lid (vB op) 0).toNat
  ((s.elems lid (vTile op) (fmtBytes (vFmt op)) (vCount op)).zip (List.range (vCount op))).map fun e =>
    let x := intElem (vFmt op) e.1
    ⟨x, BitVec.ofInt 64 x, (base + e.2) % 2 ^ 32⟩

/-- The candidates of records (R177). -/
def pairCands (s : State) (lid : Nat) (op : OpWord) : List Cand :=
  (s.elems lid (vTile op) 16 (vCount op)).map fun bs =>
    ⟨intElem 2 (bs.take 8), BitVec.ofInt 64 (intElem 2 (bs.take 8)), leNat ((bs.drop 8).take 4)⟩

/-- The candidates of FP32 elements with their flags; −0 orders below +0 (R176). -/
def fpCands (s : State) (lid : Nat) (op : OpWord) : List (Cand × FpLane) :=
  let base := (s.lane lid (vB op) 0).toNat
  ((s.elems lid (vTile op) 4 (vCount op)).zip (List.range (vCount op))).map fun e =>
    let x := fpElem 3 e.1
    (⟨2 * fpVal x.v + (if fpNeg x.v then 0 else 1), x.v.setWidth 64, (base + e.2) % 2 ^ 32⟩, x)

/-- Writes the winner: value to lane pair 0, index to lane 2. -/
def putCand (lid d : Nat) (c : Cand) (s : State) : State := (s.setPairBits lid d 0 c.v).setLane lid d 2 (BitVec.ofNat 32 c.idx)

/-- An FP32 reduction: NaN elements win only when all are NaN; lane 1 of the value's pair is free (R176, log 12). -/
def fpReduce (lid : Nat) (hi : Bool) (op : OpWord) (s : State) : State :=
  let all := fpCands s lid op
  let ok := (all.filter fun e => !e.2.nan).map (·.1)
  let low := candBest false (all.map fun e => { e.1 with key := 0, v := fpQuiet.setWidth 64 })
  let t := fpFlags lid (all.map (·.2)) s
  match candBest hi ok, low with
  | some c, _ => ((putCand lid (vD op) c t).setLane lid (vD op) 1 (s.draw.extractLsb' 0 32)).used
  | none, some c => ((putCand lid (vD op) c t).setLane lid (vD op) 1 (s.draw.extractLsb' 0 32)).used
  | none, none => t

/-- VEC.RMAX and VEC.RMIN (R176, R177). -/
def vecExtremeOp (lid code : Nat) (hi : Bool) (s : State) : State :=
  s.vecOp lid code [fVD, fVB, fTADDR, fCOUNT, fFMT, (112, 1)] fun op t =>
    let pairs := bitOf op 112
    let len := vCount op * (if pairs then 16 else fmtBytes (vFmt op))
    let bad := firstFault ([(decide (vFmt op ≠ 0 ∧ vFmt op ≠ 2 ∧ vFmt op ≠ 3), fVecOperand),
      (pairs && decide (vFmt op ≠ 2), fVecOperand)] ++ tileChecks (vTile op) len)
    t.vecRun lid bad fun t =>
      let u := t.vecReads lid (vTile op) len
      if vFmt op = 3 then fpReduce lid hi op u
      else
        match candBest hi (if pairs then pairCands t lid op else intCands t lid op) with
        | some c => putCand lid (vD op) c u
        | none => u

/-- VEC.RMAX (R176). -/
def vecRmaxOp (lid : Nat) (s : State) : State := vecExtremeOp lid 0x68 true s

/-- VEC_RMAX (R176). -/
def execVecRmax (lid : Nat) (s : State) : Host.Outcome State Fault Refusal :=
  guarded (decide (lid < 2048)) s (vecRmaxOp lid s)

/-- VEC.RMIN (R176). -/
def vecRminOp (lid : Nat) (s : State) : State := vecExtremeOp lid 0x69 false s

/-- VEC_RMIN (R176). -/
def execVecRmin (lid : Nat) (s : State) : Host.Outcome State Fault Refusal :=
  guarded (decide (lid < 2048)) s (vecRminOp lid s)

/-! ### Partials (R172-R174, R251) -/

/-- Entry `t` of the partial sum buffer, exact in 96 bits (R172). -/
def State.psbAt (s : State) (lid t : Nat) : Int := (tblGet (fun _ => 0#96) (s.core lid).psb t).toInt

/-- Writes entry `t` of the partial sum buffer. -/
def State.setPsb (lid t : Nat) (v : Int) (s : State) : State :=
  s.modCore lid fun c => { c with psb := tblPut (fun _ => 0#96) t (BitVec.ofInt 96 v) c.psb }

/-- An arriving partial: its value is added, then its contribution count is ADDed to the counter (R172). -/
def State.applyPartial (lid tag ctr contrib : Nat) (v : Int) (s : State) : State :=
  (s.setPsb lid tag (s.psbAt lid tag + v)).remoteAdd lid ctr contrib

/-- The fields of one flit, tag by tag (R251). -/
def State.applyPartials (lid ctr contrib : Nat) : Nat → List (BitVec 96) → State → State
  | _, [], s => s
  | tag, f :: fs, s => State.applyPartials lid ctr contrib (tag + 1) fs (s.applyPartial lid (tag % 64) ctr contrib f.toInt)

/-- TAG of a partial op. -/
def vTag (op : OpWord) : Nat := bitsOf op 81 6

/-- The checks of a tag range: 1 to 32 tags, none above 63 (R173, R190). -/
def tagChecks (op : OpWord) : List (Bool × Nat) :=
  [(decide (32 < vCount op), fVecOperand), (decide (63 < vTag op + (vCount op - 1)), fVecOperand)]

/-- The partials of an op as 96-bit fields. -/
def psendFields (s : State) (lid : Nat) (op : OpWord) : List (BitVec 96) :=
  (List.range (vCount op)).map fun k => BitVec.ofInt 96 (s.pair lid (vA op) k)

/-- Hands ⌈n/8⌉ PARTIAL flits to the stop (R251). -/
def psendFlits (lid : Nat) (op : OpWord) (s : State) : State :=
  let parts := pieces 8 (psendFields s lid op)
  forAll (parts.zip (List.range parts.length)) (fun e t =>
    t.toFifo lid (.partials lid (bitsOf op 87 11) (bitOf op 112) (bitsOf op 98 12) (vTag op + 8 * e.2) (vCtr op) 1 e.1)) s

/-- VEC.PSEND (R173): to the own core the partials are added directly; otherwise the op waits for room in the FIFO. -/
def vecPsendOp (lid : Nat) (s : State) : State :=
  s.vecOp lid 0x6A [fVA, fCOUNT, (75, 6), (81, 6), (87, 11), (98, 12), (112, 1)] fun op t =>
    let remote := bitOf op 112
    let dc := bitsOf op 87 11
    let dest := if remote then t.pkgOk lid (bitsOf op 98 12) else t.samePart lid dc
    let bad := firstFault ([(!remote && decide (bitsOf op 98 12 ≠ 0), fVecOperand)] ++ tagChecks op ++ [(!dest, fVecDest)])
    if bad.isNone && !remote && decide (dc = lid) then
      t.vecRun lid none (State.applyPartials lid (vCtr op) 1 (vTag op) (psendFields t lid op))
    else if bad.isNone && !t.fifoRoom lid (ceilDiv (vCount op) 8) then t.holdFull lid .v
    else t.vecRun lid bad (psendFlits lid op)

/-- VEC_PSEND (R173). -/
def execVecPsend (lid : Nat) (s : State) : Host.Outcome State Fault Refusal :=
  guarded (decide (lid < 2048)) s (vecPsendOp lid s)

/-- Reads one entry into a lane pair and clears it (R174). -/
def readPsb (lid d tag p : Nat) (s : State) : State :=
  let v := s.psbAt lid tag
  ((s.setPsb lid tag 0).setPair lid d p (satS 64 v)).flagIf (cPsumSat lid) (decide (satS 64 v ≠ v))

/-- VEC.PREAD (R174). -/
def vecPreadOp (lid : Nat) (s : State) : State :=
  s.vecOp lid 0x6B [fVD, fCOUNT, (81, 6)] fun op t =>
    t.vecRun lid (firstFault (tagChecks op)) fun t =>
      forAll (List.range (vCount op)) (fun k u => readPsb lid (vD op) (vTag op + k) k u) t

/-- VEC_PREAD (R174). -/
def execVecPread (lid : Nat) (s : State) : Host.Outcome State Fault Refusal :=
  guarded (decide (lid < 2048)) s (vecPreadOp lid s)

end Sys2Proof.Machine
end

