-- ==== Sys2Proof/Machine/Fabric.lean ====
section
/-!
DEFINITION. Traffic between dies and between packages as it leaves: the bridges' inbound queues, host counter ADDs on
their way to E0, link routing, ports and transmission (R265, R266, R364-R388).
-/
namespace Sys2Proof.Machine

/-! ### Bridges (R265, R266) -/

/-- Whether a die's bridge discards what reaches it: its partition is being reset, or a fatal condition has frozen the
die (R239, R267, R494). -/
def State.resetting (s : State) (d : Nat) : Bool := s.onF (rdResetting d) || (s.die d).frozen

/-- The logical core that a position serves, unless its stop is fenced or bypassed (R242-R244). -/
def State.lidAt (s : State) (d pos : Nat) : Option Nat :=
  if s.onF (rsFenced d pos) || s.onF (rsBypassed d pos) then none else some (s.getF (rsLid d pos))

/-- The position of the stop of a logical core on its die. -/
def State.posOf (s : State) (lid : Nat) : Option Nat :=
  (List.range 288).find? fun p => s.lidAt (dieOf lid) p == some lid

/-- The place of a position among those that hold a slot: bypassed positions hold none (R244). -/
def State.placeOf (s : State) (d pos : Nat) : Nat := pos - ((List.range pos).filter fun p => s.onF (rsBypassed d p)).length

/-- Positions downstream from `a` to `b`, bypassed ones apart (R244, R265). -/
def State.downstream (s : State) (d a b : Nat) : Nat :=
  (s.placeOf d b + s.getF (rdRotation d) - s.placeOf d a) % s.getF (rdRotation d)

/-- Whether what goes to core `lid` enters its die at the second tap: the one from which its stop lies fewer positions
downstream, the first when the two are equal (R265). -/
def State.viaTap1 (s : State) (lid : Nat) : Bool :=
  let d := dieOf lid
  match s.posOf lid with
  | some p => decide (s.downstream d (s.getF (rdTap1 d)) p < s.downstream d (s.getF (rdTap0 d)) p)
  | none => false

/-- One of a die's two taps. -/
def Die.tap (t : Die) (second : Bool) : Tap := if second then t.tap1 else t.tap0

/-- Changes one of a die's two taps. -/
def State.modTap (d : Nat) (second : Bool) (f : Tap → Tap) (s : State) : State :=
  s.modDie d fun t => if second then { t with tap1 := f t.tap1 } else { t with tap0 := f t.tap0 }

/-- A SEND or PARTIAL flit for core `lid` reaches its die from the sprue; a die in reset discards and counts it (R265,
R266). -/
def State.toDie (lid : Nat) (f : Flit) (s : State) : State :=
  if s.resetting (dieOf lid) then s.incF gSprueDiscards 1
  else s.modTap (dieOf lid) (s.viaTap1 lid) fun t => { t with flits := t.flits ++ [f] }

/-- An imported NOTICES flit, or a SEND or PARTIAL flit of another package, reaches the first tap of die `d` (R249, R266,
R382; log 100). -/
def State.toTap0 (d : Nat) (f : Flit) (s : State) : State :=
  if s.resetting d then s.incF gSprueDiscards 1 else s.modTap d false fun t => { t with flits := t.flits ++ [f] }

/-- A COUNTER message for core `lid` reaches its die from the sprue (R254, R265, R266). -/
def State.msgToDie (lid : Nat) (m : SyncMsg) (s : State) : State :=
  if s.resetting (dieOf lid) then s.incF gSprueDiscards 1
  else s.modTap (dieOf lid) (s.viaTap1 lid) fun t => { t with ctr := t.ctr ++ [m] }

/-- Whether a sync message is an arrival. -/
def isArrive : SyncMsg → Bool
  | .arrive _ _ _ => true
  | _ => false

/-- The senders of notices that a bridge injects: a notice of another die, or of link NOTICES flit number `k` (R249,
R380, R381). -/
def bridgeSrc : Nat := 2048

/-- R381: the source mark of ring flits made of link NOTICES flit number `k`. -/
def linkSrc (k : Nat) : Nat := 4096 + k

/-- Appends a notice to the last inbound NOTICES flit of the same origin while it holds fewer than 32 (R249). -/
def packNotice (src : Nat) (n : W32) : List Flit → List Flit
  | [] => [.notices src [n] []]
  | [.notices s0 items keep] =>
    if s0 = src ∧ items.length < 32 then [.notices s0 (items ++ [n]) keep] else [.notices s0 items keep, .notices src [n] []]
  | f :: t => f :: packNotice src n t

/-- A copy of a notice reaches die `d` from another die's export (R249): the exporting die counts it until its flit is
removed (R258). -/
def State.exportTo (src d : Nat) (n : W32) (s : State) : State :=
  if s.resetting d then s.incF gSprueDiscards 1
  else
    (s.modTap d false fun t => { t with flits := packNotice bridgeSrc n t.flits }).modDie src fun t =>
      { t with exported := t.exported + 1 }

/-! ### The sprue ring (R263) -/

/-- The die of a sprue stop, 0 to 7 for the compute dies, 8 and 9 for E0 and E1 (R263). -/
def sprueDie (pos : Nat) : Nat := if pos < 5 then 8 else if pos < 9 then pos - 5 else if pos < 14 then 9 else pos - 10

/-- Nanoseconds of the hop from a stop to the next in ascending position: 5 where it crosses between dies (R263). -/
def sprueHop (pos : Nat) : Nat := if sprueDie (pos % 18) = sprueDie ((pos + 1) % 18) then 1 else 5

/-- Nanoseconds clockwise from stop `a` to stop `b` (R263). -/
def sprueClockwise (a b : Nat) : Nat := ((List.range ((b + 18 - a) % 18)).map fun i => sprueHop (a + i)).sum

/-- Whether a flit from stop `a` to stop `b` goes clockwise: the shorter time, and clockwise when the two are equal (R263). -/
def goesClockwise (a b : Nat) : Bool := decide (sprueClockwise a b ≤ sprueClockwise b a)

/-- Nanoseconds that a flit takes on the sprue ring from stop `a` to stop `b` (R263). -/
def sprueTrip (a b : Nat) : Nat := if goesClockwise a b then sprueClockwise a b else sprueClockwise b a

/-! ### Routes (R365, R373-R375) -/

/-- The package's ID, as the links were last trained (R373; log 106). -/
def State.pkgId (s : State) : Nat := s.net.torus.id

/-- Extent of a dimension 0 to 2 of the torus that the links were trained to (R373; log 106). -/
def State.extent (s : State) (k : Nat) : Nat :=
  (match k with
   | 0 => s.net.torus.dimX
   | 1 => s.net.torus.dimY
   | _ => s.net.torus.dimZ) + 1

/-- Dimensions of that torus: 0, 1, 2 or 3 (R365). -/
def State.dims (s : State) : Nat := s.net.torus.topology % 4

/-- Coordinate of a package in a dimension (R373). -/
def State.coord (s : State) (id k : Nat) : Nat :=
  match k with
  | 0 => id % s.extent 0
  | 1 => id / s.extent 0 % s.extent 1
  | _ => id / s.extent 0 / s.extent 1 % s.extent 2

/-- The first dimension in which a destination differs, in the order X, Y, Z (R374). -/
def State.routeDim (s : State) (dest : Nat) : Option Nat :=
  (List.range s.dims).find? fun k => decide (s.coord s.pkgId k ≠ s.coord dest k)

/-- Whether a flit goes in the + direction of dimension `k` (R374). -/
def State.routePlus (s : State) (dest k : Nat) : Bool :=
  let n := s.extent k
  let d := (s.coord dest k + n - s.coord s.pkgId k) % n
  decide (2 * d ≤ n)

/-- The port of a dimension and direction (R365). -/
def portOf (dims k : Nat) (plus : Bool) : Nat := if plus then k else dims + k

/-- Links of port `p`: first link and count (R365). -/
def portLinks (dims p : Nat) : Nat × Nat :=
  match dims with
  | 1 => (24 * p, 24)
  | 2 => (12 * p, 12)
  | _ => (8 * p, 8)

/-- The port of a link (R365). -/
def linkPort (dims n : Nat) : Nat :=
  match dims with
  | 1 => n / 24
  | 2 => n / 12
  | _ => n / 8

/-- The virtual channel of the hop from this package: 1 once the path in this dimension, from the source's coordinate,
has crossed the dateline (R375). -/
def State.routeVc (s : State) (src k : Nat) (plus : Bool) : Bool :=
  let n := s.extent k
  let c := s.coord s.pkgId k
  let a := s.coord src k
  if plus then decide ((c + 1) % n < a) else decide (a < (c + n - 1) % n)

/-- Destination package of a link flit. -/
def flitDpkg : LinkFlit → Nat
  | .idle => 0
  | .notices d _ _ => d
  | .send d _ _ _ _ _ _ _ _ _ _ => d
  | .partials d _ _ _ _ _ _ _ => d
  | .sync d _ _ _ => d

/-- Source package of a link flit. -/
def flitSpkg : LinkFlit → Nat
  | .idle => 0
  | .notices _ p _ => p
  | .send _ p _ _ _ _ _ _ _ _ _ => p
  | .partials _ p _ _ _ _ _ _ => p
  | .sync _ p _ _ => p

/-- The core that a discarded flit's UNREACH names, if the flit carries one (R369, R387). -/
def flitScore : LinkFlit → Option Nat
  | .send _ _ c _ _ _ _ _ _ _ _ => some c
  | .partials _ _ c _ _ _ _ _ => some c
  | .sync _ _ c (.sync _ :: _) => some c
  | _ => none

/-! ### Transmission (R366, R370, R377) -/

/-- Whether a link carries flits: four or two lanes in service (R386, R390). -/
def State.linkLive (s : State) (n : Nat) : Bool := decide (2 ≤ s.getF (lkState n))

/-- The next live link of a port with room for an unacknowledged flit, from the round-robin place on (R366, R370). -/
def State.nextLinkOf (s : State) (k : Nat) : Option Nat :=
  let (first, n) := portLinks s.dims k
  let at_ := (s.port k).nextLink
  ((List.range n).map fun i => first + (at_ + i) % n).find? fun l => s.linkLive l && decide ((s.link l).unacked.length < 512)

/-- Whether a port has a credit for a virtual channel (R377). -/
def Port.credit (p : Port) (vc : Bool) : Bool :=
  decide ((if vc then p.spent1 else p.spent0) < 1920) && decide (p.spent0 + p.spent1 < 2048)

/-- Spends a credit (R377). -/
def Port.spend (p : Port) (vc : Bool) : Port := if vc then { p with spent1 := p.spent1 + 1 } else { p with spent0 := p.spent0 + 1 }

/-- The link that takes a control word for link `n`: itself, or another live one of its port (R368, R371). -/
def State.wordLink (s : State) (n : Nat) : Option Nat :=
  if s.linkLive n then some n
  else
    let (first, c) := portLinks s.dims (linkPort s.dims n)
    ((List.range c).map (first + ·)).find? s.linkLive

/-- Flits that a port's receive buffer holds for a virtual channel (R390). -/
def lpOcc (k : Nat) (vc : Bool) : Fld := if vc then lpOcc1 k else lpOcc0 k

/-- A flit that came on link `n` takes a place in the receive buffer of its port (R377, R390). -/
def State.takePlace (n : Nat) (vc : Bool) (s : State) : State := s.incF (lpOcc (linkPort s.dims n) vc) 1

/-- The place is free again, and a control word returns its credit (R368, R377, R390; log 107). -/
def State.freePlace (n : Nat) (vc : Bool) (s : State) : State :=
  let o := lpOcc (linkPort s.dims n) vc
  let s := s.setF o (s.getF o - 1)
  match s.wordLink n with
  | some l => s.emit (.linkWord l (controlWord 0 false false (!vc).toNat vc.toNat))
  | none => s

/-- The same for a flit that holds a place, if it does. -/
def State.freeHeld (held : Option (Nat × Bool)) (s : State) : State :=
  match held with
  | some (n, vc) => s.freePlace n vc
  | none => s

/-- Sends a flit on link `l` of port `k` with the next LSEQ and PSEQ (R366, R370). -/
def State.transmit (k l : Nat) (vc : Bool) (f : LinkFlit) (s : State) : State :=
  let tx : LinkTx := ⟨(s.link l).txSeq, (s.port k).txPseq, vc, f⟩
  let first := (portLinks s.dims k).1
  let n := (portLinks s.dims k).2
  (s.modLink l fun t => { t with txSeq := (t.txSeq + 1) % 4096, unacked := t.unacked ++ [tx] })
    |>.modPort k (fun p => { p.spend vc with txPseq := (p.txPseq + 1) % 65536, nextLink := (l - first + 1) % n })
    |>.emit (.linkSend l tx)

/-- What a port sends next: the oldest flit whose virtual channel has a credit, so that each channel is first in, first
out (R377, R378). -/
def Port.ready (p : Port) : Option Queued := p.outq.find? fun q => p.credit q.vc

/-- Sends what waits at a port while a credit and a link are free; a flit that leaves frees its place (R366, R377,
R378). -/
def State.pumpPort (k : Nat) : Nat → State → State
  | 0, s => s
  | n + 1, s =>
    match (s.port k).ready, s.nextLinkOf k with
    | some q, some l =>
      State.pumpPort k n (((s.modPort k fun p => { p with outq := p.outq.erase q }).transmit k l q.vc q.flit).freeHeld q.held)
    | _, _ => s

/-- `pumpPort` over everything that waits. -/
def State.pump (k : Nat) (s : State) : State := State.pumpPort k (s.port k).outq.length s

/-- Puts a flit on its route, if its port is UP; else discards it, with the place it holds, and answers the port it should
have left by (R374, R377, R387). -/
def State.linkPut (held : Option (Nat × Bool)) (f : LinkFlit) (s : State) : State × Option Nat :=
  match s.routeDim (flitDpkg f) with
  | none => (s.freeHeld held, some 0)
  | some k =>
    let plus := s.routePlus (flitDpkg f) k
    let p := portOf s.dims k plus
    if s.getF (lpState p) = 1 then
      ((s.modPort p fun t => { t with outq := t.outq ++ [⟨s.routeVc (flitSpkg f) k plus, f, held⟩] }).pump p, none)
    else ((s.incF (lpUnreach p) 1).freeHeld held, some p)

/-! ### Delivery at a package (R379-R383, R387) -/

/-- Whether a window of sources covers a notice. -/
def covers (first last : Nat) (n : W32) : Bool :=
  decide (first / 2 ^ 15 = bitsOf n 21 11) && decide (first % 2 ^ 15 ≤ bitsOf n 6 15) && decide (bitsOf n 6 15 ≤ last)

/-- A partition's result in progress has received peer-link traffic (R276, R278). -/
def State.noteLink (p : Nat) (s : State) : State := s.modPart p fun t => { t with hadLink := true }

/-- Link traffic for a core: `f` acts when its partition is armed, else it is discarded and counted (R383). -/
def State.toTarget (lid : Nat) (f : State → State) (s : State) : State :=
  match s.owner lid with
  | some p => if s.getF (ppState p) = 1 then f (s.noteLink p) else s.incF lNoTarget 1
  | none => s.incF lNoTarget 1

/-- The lowest import window that matches a notice of package `spkg` (R380). -/
def State.importFor (s : State) (spkg : Nat) (n : W32) : Option Nat :=
  (List.range 256).find? fun k =>
    s.onF (liValid k) && s.getF (liSpkg k) == spkg && covers (s.getF (liFirst k)) (s.getF (liLast k)) n

/-- A notice under its alias (R380). -/
def State.aliased (s : State) (k : Nat) (n : W32) : W32 :=
  let src := (s.getF (liAlias k) + bitsOf n 6 15 - s.getF (liFirst k) % 2 ^ 15) % 2 ^ 26
  BitVec.ofNat 32 (src * 64 + bitsOf n 0 6)

/-- The notices of a link flit for die `d`, under their aliases, in order (R380). -/
def State.importsOf (s : State) (spkg d : Nat) (items : List W32) : List W32 :=
  items.filterMap fun n =>
    match s.importFor spkg n with
    | some k => if Nat.testBit (s.getF (liDies k)) d then some (s.aliased k n) else none
    | none => none

/-- One die's share of a NOTICES flit enters its bridge as ring flits of up to 32; answers how many (R380, R381). -/
def State.importDie (spkg k d : Nat) (items : List W32) (s : State) : State × Nat :=
  let ps := pieces 32 (s.importsOf spkg d items)
  match s.dieOwner d with
  | some p =>
    if s.getF (ppState p) = 1 then
      ((forAll ps (fun l t => t.toTap0 d (.notices (linkSrc k) l [])) s).noteLink p, ps.length)
    else (if ps.isEmpty then s else s.incF lNoTarget 1, 0)
  | none => (if ps.isEmpty then s else s.incF lNoTarget 1, 0)

/-- `importDie` over the dies from `d` on; answers the ring flits made in all. -/
def State.importDies (spkg k : Nat) (items : List W32) : List Nat → State → State × Nat
  | [], s => (s, 0)
  | d :: t, s =>
    let (s, n) := s.importDie spkg k d items
    let (s, m) := State.importDies spkg k items t s
    (s, n + m)

/-- A NOTICES flit: windows, aliases, dies; says whether nothing of it is left to inject, else its NACK is owed (R380,
R381). -/
def State.importNotices (spkg : Nat) (items : List W32) (s : State) : State × Bool :=
  let lost := (items.filter fun n => (s.importFor spkg n).isNone).length
  let k := s.net.nackNext
  let s := (if lost = 0 then s else s.incF lNoImport lost)
  let (s, n) := State.importDies spkg k items (List.range 8) { s with net := { s.net with nackNext := k + 1 } }
  if n = 0 then (s, true) else ({ s with net := { s.net with nackOwed := tblIns k (spkg, n) s.net.nackOwed } }, false)

/-- The source package learns that NOTICES flits of its own have been injected (R381). -/
def nackOp (flits : Nat) (s : State) : State :=
  { s with net := { s.net with unackedNotices := s.net.unackedNotices - flits } }

/-- LINK_UNREACHABLE in the partition of core `score` (R387, R391). -/
def State.unreachFault (score : Nat) (s : State) : State := s.remoteFault score 0x70

/-- UNREACH raises LINK_UNREACHABLE in the partition of SCORE (R387). -/
def unreachOp (score : Nat) (s : State) : State := s.unreachFault score

/-- Ring flits of a link SEND flit: pieces of 128 bytes, LAST and SIG on the last (R369). -/
def sendPieces (dcore : Nat) (dmem : Bool) (daddr : Nat) (last sig : Bool) (sctr : Nat) (pmask : BitVec 6) (data : List Byte) :
    List Flit :=
  let ps := (pieces 128 data).zipIdx
  ps.map fun e =>
    .send 2048 4 dcore false 0 dmem (daddr + 128 * e.2) (last && decide (e.2 + 1 = ps.length)) sig sctr
      (BitVec.ofNat 6 (bitsOf pmask (4 * e.2) 4)) e.1

/-- A message for this package: a counter message for its core's die, an acknowledgement, an UNREACH (R381, R382,
R387). -/
def State.messageHere (m : LinkMsg) (s : State) : State :=
  match m with
  | .sync (.counter dc n k set route hc dpkg) =>
    s.toTarget dc fun t => t.msgToDie dc (.counter dc n k set route hc dpkg)
  | .nack n => nackOp n s
  | .unreach c _ => unreachOp c s
  | _ => s

/-- A flit for this package is delivered (R379-R383); NOTICES that it sent itself are acknowledged in place (R381). -/
def State.deliverHere (f : LinkFlit) (s : State) : State :=
  match f with
  | .idle => s
  | .notices _ spkg items =>
    let (s, done) := s.importNotices spkg items
    if done then nackOp 1 s else s
  | .send _ _ _ dc dmem daddr last sig sctr pmask data =>
    s.toTarget dc fun t => forAll (sendPieces dc dmem daddr last sig sctr pmask data) (fun g u => u.toTap0 (dieOf dc) g) t
  | .partials _ _ _ dc tag ctr contrib fields =>
    s.toTarget dc fun t => t.toTap0 (dieOf dc) (.partials 2048 dc false 0 tag ctr contrib fields)
  | .sync _ _ _ msgs => forAll msgs (fun m t => t.messageHere m) s

/-! ### Sending (R374, R387) -/

/-- Sends a flit on its way: one for this package is delivered here, its path having no hop; one whose route leaves
through a DOWN port is discarded, and its sender is told by UNREACH (R374, R387). -/
def State.linkForward (held : Option (Nat × Bool)) (f : LinkFlit) (s : State) : State :=
  if flitDpkg f = s.pkgId then (s.deliverHere f).freeHeld held
  else
    match s.linkPut held f with
    | (t, none) => t
    | (t, some p) =>
      match flitScore f with
      | none => t
      | some c =>
        if flitSpkg f = t.pkgId then t.unreachFault c
        else (t.linkPut none (.sync (flitSpkg f) t.pkgId 0 [.unreach c p])).1

/-- Sends a flit of this package (R374, R387). -/
def State.linkSendOut (f : LinkFlit) (s : State) : State := s.linkForward none f

/-- What waits at a port is put on its route again, so that a DOWN port discards it (R374, R387). -/
def State.requeue (k : Nat) (s : State) : State :=
  forAll (s.port k).outq (fun q t => t.linkForward q.held q.flit) (s.modPort k fun p => { p with outq := [] })

end Sys2Proof.Machine
end

