-- ==== Sys2Proof/Machine/Moves.lean ====
section
/-!
DEFINITION. The X queue: moves, the pieces they are carried in, and their retirement (R228, R229, R247, R337).
-/
namespace Sys2Proof.Machine

/-! ### Pieces -/

/-- Tile or lace memory, as SMEM and DMEM name them (R228). -/
def memOf (lace : Bool) : CoreMem := if lace then .lace else .tile

/-- Writes one 32-byte quarter of a piece, with the poison syndrome where it is marked (R338). -/
def State.putQuarter (lid : Nat) (m : CoreMem) (a : Nat) (bad : Bool) (bs : List Byte) (s : State) : State :=
  if bad then s.wrPoison lid m a bs else s.wr lid m a bs

/-- A piece of a move lands at core `lid`: one that meets a phase in progress raises SUA_OVERLAP and is not written
(R229). -/
def State.landPiece (lid : Nat) (lace : Bool) (a : Nat) (pmask : BitVec 6) (data : List Byte) (s : State) : State :=
  if lace && s.overlapsPhase lid (a / 4) ((a + data.length) / 4) then s.remoteFault lid fSuaOverlap
  else
    forAll ((pieces 32 data).zipIdx) (fun e t => t.putQuarter lid (memOf lace) (a + 32 * e.2) (bitOf pmask e.2) e.1) s

/-- The poisoned quarters of a source range (R338). -/
def State.poisonMask (s : State) (lid : Nat) (m : CoreMem) (a n : Nat) : BitVec 6 :=
  BitVec.ofNat 6 (((List.range (n / 32)).map fun q => if s.rdBad lid m (a + 32 * q) 32 then 2 ^ q else 0).sum)

/-! ### Fields and checks -/

/-- LEN of X.SEND and X.COPY in units of 64 bytes. -/
def xLen (op : OpWord) : Nat := bitsOf op 40 16 + 1

/-- HLEN of X.HBM in units of 64 bytes. -/
def xHlen (op : OpWord) : Nat := bitsOf op 58 18 + 1

/-- SADDR. -/
def xSaddr (op : OpWord) : Nat := bitsOf op 0 20

/-- DADDR. -/
def xDaddr (op : OpWord) : Nat := bitsOf op 20 20

/-- HADDR. -/
def xHaddr (op : OpWord) : Nat := bitsOf op 0 38

/-- LOC. -/
def xLoc (op : OpWord) : Nat := bitsOf op 38 20

/-- SCTR. -/
def xSctr (op : OpWord) : Nat := bitsOf op 99 6

/-- Units of a move. -/
def xUnits (op : OpWord) : Nat := if opOpcode op = 0x80 then xHlen op else xLen op

/-- Whether a range of units lies within a core memory. -/
def inMem (lace : Bool) (a units : Nat) : Bool := decide (a + 64 * units ≤ cmSize (memOf lace))

/-- Whether one grant allows X.HBM the access (R335). -/
def Grant.allows (g : Grant) (p : Nat) (write : Bool) (page : Nat) : Bool :=
  decide (g.part = p) && decide (g.base ≤ page) && decide (page < g.base + g.length) &&
    (if write then g.kind == 0 || g.kind == 2 || g.kind == 4 else g.kind != 3)

/-- Whether the grants of partition `p` allow X.HBM every page of the range (R229, R335). -/
def State.granted (s : State) (p : Nat) (write : Bool) (a n : Nat) : Bool :=
  decide (a + n ≤ 0x2E00000000) &&
    (rangeFrom (a / 4096) ((a + n + 4095) / 4096)).all fun k => s.pat.grants.any fun g => g.allows p write (4096 * k)

/-- The lowest move number that is free (R228). -/
def State.freeMove (s : State) (lid : Nat) : Option Nat := (List.range 4).find? fun k => ((s.core lid).move k).isNone

/-! ### Forming flits (R247, R260, R337) -/

/-- The next piece of a move that travels as flits, with its units. -/
def nextPiece (s : State) (lid mid : Nat) (m : Move) : Flit × Nat :=
  let op := m.op
  if opOpcode op = 0x81 then
    let n := min 2 (xLen op - m.formed)
    let sm := memOf (bitOf op 112)
    let a := xSaddr op + 64 * m.formed
    (.send lid mid (bitsOf op 76 11) (bitOf op 115) (bitsOf op 87 12) (bitOf op 113) (xDaddr op + 64 * m.formed)
      (decide (m.formed + n = xLen op)) (bitOf op 114) (xSctr op) (s.poisonMask lid sm a (64 * n)) (s.rd lid sm a (64 * n)), n)
  else
    let h := xHaddr op + 64 * m.formed
    let n := min (min 2 (xHlen op - m.formed)) ((256 - h % 256) / 64)
    let l := xLoc op + 64 * m.formed
    if bitOf op 115 then
      let sm := memOf (bitOf op 112)
      (.hbm lid mid true h lid false 0 n (s.poisonMask lid sm l (64 * n)) (s.rd lid sm l (64 * n)), n)
    else (.hbm lid mid false h lid (bitOf op 113) l n 0 [], n)

/-- The source bytes that the next piece reads, if it reads core memory. -/
def notePiece (lid : Nat) (m : Move) (n : Nat) (s : State) : State :=
  let op := m.op
  let sm := memOf (bitOf op 112)
  if opOpcode op = 0x81 then s.noteRead lid sm (xSaddr op + 64 * m.formed) (64 * n)
  else if bitOf op 115 then s.noteRead lid sm (xLoc op + 64 * m.formed) (64 * n)
  else s

/-- Forms one piece of move `mid` into the injection FIFO. -/
def State.formPiece (lid mid : Nat) (m : Move) (s : State) : State :=
  let (f, n) := nextPiece s lid mid m
  (notePiece lid m n s).toFifo lid f |>.modCore lid fun c => c.setMove mid (some { m with formed := m.formed + n })

/-- Forms pieces of move `mid` while the FIFO has room. -/
def State.formMove (lid mid : Nat) : Nat → State → State
  | 0, s => s
  | k + 1, s =>
    match (s.core lid).move mid with
    | some m => if m.formed < xUnits m.op && s.fifoRoom lid 1 then State.formMove lid mid k (s.formPiece lid mid m) else s
    | none => s

/-- Refills the injection FIFO of a core's stop: notices, held arrivals, then the moves in ascending number (R260). -/
def State.refill (lid : Nat) (s : State) : State :=
  let s := s.flush lid
  let s := s.presentArrivals lid
  forAll (List.range 4) (fun mid t => t.formMove lid mid 16) s

/-- A move is taken up under the lowest free number, or waits at the head (R228). -/
def State.startMove (lid : Nat) (op : OpWord) (s : State) : State :=
  match s.freeMove lid with
  | none => s
  | some k => ((s.modCore lid fun c => c.setMove k (some { op := op })).advance lid .x).refill lid

/-! ### The move ops -/

/-- The fields of X.HBM, by DIR (R228). -/
def hbmFields (op : OpWord) : List (Nat × Nat) :=
  [(0, 38), (38, 20), (58, 18), (99, 6), (if bitOf op 115 then 112 else 113, 1), (114, 2)]

/-- What X.HBM's operands raise (R229). -/
def hbmFault (s : State) (lid : Nat) (op : OpWord) : Option Nat :=
  let write := bitOf op 115
  let lace := bitOf op (if write then 112 else 113)
  if opReserved (hbmFields op) op then some fSyncOperand
  else if xHaddr op % 64 ≠ 0 ∨ xLoc op % 64 ≠ 0 then some fXmvOperand
  else if !inMem lace (xLoc op) (xHlen op) then some fXmvRange
  else
    match s.owner lid with
    | some p => if s.granted p write (xHaddr op) (64 * xHlen op) then none else some fXmvRange
    | none => some fXmvRange

/-- X.HBM (R228, R229). -/
def xHbmOp (lid : Nat) (s : State) : State :=
  s.issue lid .x 0x80 fun op t =>
    match hbmFault t lid op with
    | some c => t.opFault lid .x c
    | none => t.startMove lid op

/-- X_HBM (R228). -/
def execXHbm (lid : Nat) (s : State) : Host.Outcome State Fault Refusal := guarded (decide (lid < 2048)) s (xHbmOp lid s)

/-- The fields of X.SEND; bits [75:56] are none of them (R228). -/
def sendFields : List (Nat × Nat) := [(0, 56), (76, 29), (112, 4)]

/-- What X.SEND's operands raise (R212, R229). -/
def sendFault (s : State) (lid : Nat) (op : OpWord) : Option Nat :=
  if opReserved sendFields op then some fSyncOperand
  else if xSaddr op % 64 ≠ 0 ∨ xDaddr op % 64 ≠ 0 then some fXmvOperand
  else if !inMem (bitOf op 112) (xSaddr op) (xLen op) || !inMem (bitOf op 113) (xDaddr op) (xLen op) then some fXmvRange
  else if bitOf op 115 then (if s.pkgOk lid (bitsOf op 87 12) then none else some fXmvDest)
  else if s.samePart lid (bitsOf op 76 11) then none
  else some fXmvDest

/-- X.SEND (R228, R229). -/
def xSendOp (lid : Nat) (s : State) : State :=
  s.issue lid .x 0x81 fun op t =>
    match sendFault t lid op with
    | some c => t.opFault lid .x c
    | none => t.startMove lid op

/-- X_SEND (R228). -/
def execXSend (lid : Nat) (s : State) : Host.Outcome State Fault Refusal := guarded (decide (lid < 2048)) s (xSendOp lid s)

/-- What X.COPY's operands raise (R229). -/
def copyFault (op : OpWord) : Option Nat :=
  if opReserved [(0, 56), (99, 6), (112, 3)] op then some fSyncOperand
  else if xSaddr op % 64 ≠ 0 ∨ xDaddr op % 64 ≠ 0 then some fXmvOperand
  else if !inMem (bitOf op 112) (xSaddr op) (xLen op) || !inMem (bitOf op 113) (xDaddr op) (xLen op) then some fXmvRange
  else none

/-- Copies unit `k` of X.COPY. -/
def copyUnit (lid : Nat) (op : OpWord) (k : Nat) (s : State) : State :=
  let sm := memOf (bitOf op 112)
  let a := xSaddr op + 64 * k
  (s.noteRead lid sm a 64).landPiece lid (bitOf op 113) (xDaddr op + 64 * k) (s.poisonMask lid sm a 64) (s.rd lid sm a 64)

/-- Whether lace byte `a` lies in a state plane of a replica of the core (R39). -/
def State.inStatePlane (s : State) (lid a : Nat) : Bool :=
  (List.range (s.replicas lid)).any fun r =>
    let b := 4 * (s.replBase lid r + s.unitsUp lid)
    decide (b ≤ a) && decide (a < b + s.unitsUp lid / 8)

/-- X.COPY of a state plane into tile memory fills a staging slot of the result (R126, R290). -/
def noteStaged (lid : Nat) (op : OpWord) (s : State) : State :=
  let n := 64 * xLen op
  if bitOf op 112 && !bitOf op 113 && s.inStatePlane lid (xSaddr op) then
    s.modCore lid fun c => { c with staged := c.staged.filter (· != (xDaddr op, n)) ++ [(xDaddr op, n)] }
  else s

/-- X.COPY moves its units in ascending address and stands as a move until it retires (R228). -/
def copyBody (lid : Nat) (op : OpWord) (s : State) : State :=
  match s.freeMove lid with
  | none => s
  | some k =>
    let s := (s.modCore lid fun c => c.setMove k (some ⟨op, xLen op, xLen op⟩)).advance lid .x
    forAll (List.range (xLen op)) (copyUnit lid op) (noteStaged lid op s)

/-- X.COPY (R228, R229). -/
def xCopyOp (lid : Nat) (s : State) : State :=
  s.issue lid .x 0x82 fun op t =>
    match copyFault op with
    | some c => t.opFault lid .x c
    | none => copyBody lid op t

/-- X_COPY (R228). -/
def execXCopy (lid : Nat) (s : State) : Host.Outcome State Fault Refusal := guarded (decide (lid < 2048)) s (xCopyOp lid s)

/-! ### Retirement -/

/-- Units of a move written or acknowledged. -/
def State.moveDone (lid mid units : Nat) (s : State) : State :=
  match (s.core lid).move mid with
  | some m => s.modCore lid fun c => c.setMove mid (some { m with done := m.done + units })
  | none => s

/-- A move whose last byte is written, or acknowledged for HBM writes, retires; SIG of X.HBM and X.COPY ADDs 1 to SCTR
of the own core, X.SEND's LAST flit has carried its own (R228). -/
def moveRetireOp (lid mid : Nat) (s : State) : State :=
  match (s.core lid).move mid with
  | some m =>
    if s.coreRuns lid && decide (xUnits m.op ≤ m.done) then
      let s := (s.modCore lid fun c => c.setMove mid none).opDone lid .x
      if bitOf m.op 114 && opOpcode m.op != 0x81 then s.remoteAdd lid (xSctr m.op) 1 else s
    else s
  | none => s

/-- MOVE_RETIRE (R228). -/
def execMoveRetire (lid mid : Nat) (s : State) : Host.Outcome State Fault Refusal :=
  guarded (decide (lid < 2048) && decide (mid < 4)) s (moveRetireOp lid mid s)

/-- An acknowledgement of a WRITE flit reaches the source stop; one for a partition in reset is discarded (R339). -/
def writeAckOp (lid : Nat) (s : State) : State :=
  match takeFirst (fun a => a.1 == lid) s.acks with
  | some ((_, mid, units), rest) =>
    let s := { s with acks := rest }
    if s.resetting (dieOf lid) then s.incF gSprueDiscards 1 else s.moveDone lid mid units
  | none => s

/-- WRITE_ACK (R339). -/
def execWriteAck (lid : Nat) (s : State) : Host.Outcome State Fault Refusal :=
  guarded (decide (lid < 2048)) s (writeAckOp lid s)

end Sys2Proof.Machine
end

