-- ==== Sys2Proof/Machine/Rings.lean ====
section
/-!
DEFINITION. The runner rings of a die: positions and core cycles, slots and sync fields, injection, notices, partials,
sends and counter messages at the stops and taps (R217, R240-R254, R260-R262, R265).
-/
namespace Sys2Proof.Machine

/-! ### Slots and sync fields -/

/-- Key of a slot. -/
def slotKey (ring slot : Nat) : Nat := ring * 512 + slot

/-- The flit in a slot. -/
def State.slotAt (s : State) (d ring slot : Nat) : Option Placed := tblGet (fun _ => none) (s.die d).slots (slotKey ring slot)

/-- Fills or frees a slot. -/
def State.setSlot (d ring slot : Nat) (p : Option Placed) (s : State) : State :=
  s.modDie d fun t => { t with slots := tblPut (fun _ => none) (slotKey ring slot) p t.slots }

/-- The message in the sync field of a slot of ring 0. -/
def State.syncAt (s : State) (d slot : Nat) : Option FieldMsg := tblGet (fun _ => none) (s.die d).fields slot

/-- Fills or frees a sync field. -/
def State.setSync (d slot : Nat) (m : Option FieldMsg) (s : State) : State :=
  s.modDie d fun t => { t with fields := tblPut (fun _ => none) slot m t.fields }

/-- The position that reserves a slot (R262). -/
def State.reservedBy (s : State) (d ring slot : Nat) : Option Nat :=
  tblGet (fun _ => none) (s.die d).reserved (slotKey ring slot)

/-- Sets or clears a reservation. -/
def State.setReserved (d ring slot : Nat) (p : Option Nat) (s : State) : State :=
  s.modDie d fun t => { t with reserved := tblPut (fun _ => none) (slotKey ring slot) p t.reserved }

/-- Whether a die's rings move and serve: its core clocks run and no reset empties it (R240, R266, R273). -/
def State.ringsRun (s : State) (d : Nat) : Bool :=
  !s.resetting d &&
    (match s.dieOwner d with
     | some p => s.clocked p
     | none => !(s.die d).frozen && !Nat.testBit (s.getF wOff) d)

/-- Whether a slot number exists on the die's rings (R244). -/
def State.slotExists (s : State) (d slot : Nat) : Bool := decide (slot < s.getF (rdRotation d))

/-- A die's tap positions (R242). -/
def State.taps (s : State) (d : Nat) : List Nat := [s.getF (rdTap0 d), s.getF (rdTap1 d)]

/-- Whether the sync channel's upstream field is in this slot (R241). -/
def upstream (ring slot : Nat) : Bool := decide (ring = 0) && decide (slot % 32 = 0)

/-- Whether a downstream field is in this slot (R241). -/
def downstreamField (ring slot : Nat) : Bool := decide (ring = 0) && decide (slot % 32 = 16)

/-! ### Core cycles (R217, R240, R244)

All slots move one place a core cycle, so a slot meets the stations in the order of their positions, and everything on a
die keeps its order. A command that is one such meeting takes place when no other meeting of the die comes before it, and
changes nothing otherwise. -/

/-- The first core cycle from `t` on in which slot number `slot` of every ring stands at position `pos`: in core cycle
`c` it stands at place `slot + c` of the rotation (log 37). -/
def State.meetAt (s : State) (d slot pos t : Nat) : Nat :=
  let r := s.getF (rdRotation d)
  t + (s.placeOf d pos + 2 * r - slot % r - t % r) % r

/-- Whether a slot stands at a position in core cycle `t`. -/
def State.standsAt (s : State) (d slot pos t : Nat) : Bool := s.meetAt d slot pos t == t

/-- Whether a slot stands at the stop of core `lid` in core cycle `t`. -/
def State.atCore (s : State) (lid slot t : Nat) : Bool :=
  match s.posOf lid with
  | some p => s.standsAt (dieOf lid) slot p t
  | none => false

/-- Whether a counter message stays on die `d` (R254). -/
def forDie (d : Nat) : SyncMsg → Bool
  | .counter dc _ _ _ route _ _ => decide (route ≠ 1) && decide (route ≠ 2) && dieOf dc == d
  | _ => false

/-- The positions that act on a sync message (R254-R257): the destination stop of a counter message of the die, the taps
for what leaves the die, every live stop for what the root broadcasts. -/
def State.msgTargets (s : State) (d : Nat) (m : SyncMsg) : List Nat :=
  match m with
  | .arrive _ _ _ => s.taps d
  | .counter dc _ _ _ _ _ _ => if forDie d m then (s.posOf dc).toList else s.taps d
  | .release .. => (List.range 288).filter fun p => (s.lidAt d p).isSome
  | .stage _ _ _ => (List.range 288).filter fun p => (s.lidAt d p).isSome
  | .stop _ _ => []

/-- Notices of a slot that a stop recorded for the repeat pass (R248). -/
def State.kept (s : State) (lid ring slot : Nat) : List Nat := tblGet (fun _ => []) (s.stop lid).keepTbl (slotKey ring slot)

/-- Whether the core at `pos` is to be offered notices of a flit: one that matches a window, or on a repeat pass one that
the stop recorded; a stop is not offered its own (R54, R246, R248). -/
def State.wantsNotices (s : State) (d pos ring slot : Nat) (p : Placed) (src : Nat) (items : List W32) : Bool :=
  match s.lidAt d pos with
  | some lid => !(pos == p.pos && decide (src < 2048)) &&
      (if p.again then !(s.kept lid ring slot).isEmpty else items.any fun n => (s.windowFor lid n).isSome)
  | none => false

/-- The export windows of a die that match a notice (R249). -/
def State.exportsOf (s : State) (d : Nat) (n : W32) : List Nat :=
  (List.range 256).filter fun k => s.onF (reValid d k) && covers (s.getF (reFirst d k)) (s.getF (reLast d k)) n

/-- Whether the first tap has notices of a flit still to export (R249). -/
def State.exportDue (s : State) (d : Nat) (p : Placed) (items : List W32) : Bool :=
  !p.exported && items.any fun n => !(s.exportsOf d n).isEmpty

/-- The positions that act on a flit (R246, R249, R254). -/
def State.targets (s : State) (d ring slot : Nat) (p : Placed) : List Nat :=
  match p.flit with
  | .notices src items _ =>
    p.pos :: ((if s.exportDue d p items then [s.getF (rdTap0 d)] else []) ++
      (List.range 288).filter fun q => s.wantsNotices d q ring slot p src items)
  | .send _ _ dc remote .. => if !remote && dieOf dc == d then (s.posOf dc).toList else s.taps d
  | .partials _ dc remote .. => if !remote && dieOf dc == d then (s.posOf dc).toList else s.taps d
  | .hbm .. => s.taps d
  | .sync _ m => s.msgTargets d m

/-- The least of some core cycles. -/
def earliest : List Nat → Option Nat
  | [] => none
  | t :: ts => some (ts.foldl min t)

/-- The core cycle in which the flit of a slot is acted on next. -/
def State.slotDue (s : State) (d ring slot : Nat) (p : Placed) : Option Nat :=
  earliest ((s.targets d ring slot p).map fun q => s.meetAt d slot q p.next)

/-- The core cycle in which the message of a sync field is acted on next: what one tap broadcast goes no farther than
the other tap (R255). -/
def State.fieldDue (s : State) (d slot : Nat) (f : FieldMsg) : Option Nat :=
  (earliest ((s.msgTargets d f.msg).map fun q => s.meetAt d slot q f.next)).filter fun t => f.upTo.all (t < ·)

/-- Whether a meeting in core cycle `u` at slot `k`, in the order of R217 at place `i` of its slot, leaves the meeting in
core cycle `t` at place `ord` of slot `slot` its turn. -/
def after (t slot ord u k i : Nat) : Bool := decide (t < u) || (decide (t = u) && (decide (k ≠ slot) || decide (ord ≤ i)))

/-- Whether every meeting of the die that comes before the one in core cycle `t` at place `ord` of a slot has taken
place: R217's order has the sync field first (place 0), then the rings ascending (place ring + 1). -/
def State.quiet (s : State) (d t slot ord : Nat) : Bool :=
  (s.die d).slots.all (fun e =>
    match e.2.bind fun p => s.slotDue d (e.1 / 512) (e.1 % 512) p with
    | some u => after t slot ord u (e.1 % 512) (e.1 / 512 + 1)
    | none => true) &&
  (s.die d).fields.all fun e =>
    match e.2.bind fun f => s.fieldDue d e.1 f with
    | some u => after t slot ord u e.1 0
    | none => true

/-- The flit of a slot and the core cycle in which it is acted on, if that is the die's next meeting. -/
def State.slotTurn (s : State) (d ring slot : Nat) : Option (Placed × Nat) :=
  match s.slotAt d ring slot with
  | some p =>
    match s.slotDue d ring slot p with
    | some t => if s.ringsRun d && s.quiet d t slot (ring + 1) then some (p, t) else none
    | none => none
  | none => none

/-- The message of a sync field and the core cycle in which it is acted on, if that is the die's next meeting. -/
def State.fieldTurn (s : State) (d slot : Nat) : Option (FieldMsg × Nat) :=
  match s.syncAt d slot with
  | some f =>
    match s.fieldDue d slot f with
    | some t => if s.ringsRun d && s.quiet d t slot 0 then some (f, t) else none
    | none => none
  | none => none

/-- The rings of a die have come to core cycle `t`. -/
def State.ringTo (d t : Nat) (s : State) : State := s.modDie d fun x => { x with now := t }

/-! ### Injection (R252, R254, R260-R262, R265) -/

/-- Whether a flit may ride the payload of a slot: PARTIAL takes only summing slots (R241). -/
def mayRide (f : Flit) (ring slot : Nat) : Bool :=
  match f with
  | .partials .. => !(decide (ring = 0) && decide (slot % 16 = 0))
  | _ => true

/-- A bit of a 192-byte slot table (R309). -/
def tableBit (t : Nat → Byte) (i : Nat) : Bool := bitOf (t (i / 8)) (i % 8)

/-- Whether a slot table owns a payload slot. -/
def ownsSlot (t : Nat → Byte) (ring slot : Nat) : Bool := tableBit t (288 * ring + slot)

/-- Whether a slot table owns an upstream field. -/
def ownsField (t : Nat → Byte) (ring slot : Nat) : Bool := upstream ring slot && tableBit t (8 * 144 + slot / 32)

/-- Whether a table owns any slot or field of a kind the head can use (R261). -/
def ownsAny (t : Nat → Byte) (own : (Nat → Byte) → Nat → Nat → Bool) : Bool :=
  (List.range 4).any fun r => (List.range 288).any fun k => own t r k

/-- Slot table of the stop of a core. -/
def State.stopTable (s : State) (lid : Nat) (i : Nat) : Byte := tblGet (fun _ => 0) (s.stop lid).slots i

/-- Slot table of a bridge at one of its taps. -/
def State.tapTable (s : State) (d : Nat) (tap : Bool) (i : Nat) : Byte :=
  tblGet (fun _ => 0) (s.die d).tapSlots (256 * tap.toNat + i)

/-- What becomes of the head of a FIFO at a passing slot. -/
inductive Take where
  /-- It is placed in the slot. -/
  | place
  /-- It combines with the partial in the slot (R252). -/
  | combine
  /-- It is written into the slot's upstream field (R254). -/
  | field
  /-- It joins the ARRIVE of its barrier in the slot's upstream field (R254). -/
  | join
  /-- It waits. -/
  | wait
  /-- It raises a ring fault (R261). -/
  | fault (code : Nat)
deriving DecidableEq, Repr

/-- Whether two PARTIAL flits combine (R252). -/
def combines : Flit → Flit → Bool
  | .partials _ d r k t c _ f, .partials _ d' r' k' t' c' _ f' =>
    decide (d = d' ∧ r = r' ∧ k = k' ∧ t = t' ∧ c = c' ∧ f.length = f'.length)
  | _, _ => false

/-- The sum of two PARTIAL flits: fields in 96 bits, contributions together (R252). -/
def combined : Flit → Flit → Flit
  | .partials _ _ _ _ _ _ n f, .partials s d r k t c n' f' => .partials s d r k t c (n + n') (List.zipWith (· + ·) f' f)
  | _, g => g

/-- An ARRIVE with another of its barrier added: COUNT is summed, DRAIN stays only if both carry it (R254). -/
def joined : SyncMsg → SyncMsg → Option SyncMsg
  | .arrive b c a, .arrive b' c' a' => if b = b' then some (.arrive b' (c' + c) (a' && a)) else none
  | _, _ => none

/-- The field of a slot after the head has joined the ARRIVE in it. -/
def State.joinedAt (s : State) (d ring slot : Nat) (m : SyncMsg) : Option FieldMsg :=
  if upstream ring slot then
    match s.syncAt d slot with
    | some f => (joined m f.msg).map fun g => { f with msg := g }
    | none => none
  else none

/-- How the head `f` of the FIFO of the stop at `pos` fares at a slot (R252, R254, R261, R262). -/
def takeSlot (s : State) (d pos : Nat) (table : Nat → Byte) (f : Flit) (ring slot : Nat) : Take :=
  let here := s.slotAt d ring slot
  let mine := s.reservedBy d ring slot == some pos
  let free := here.isNone && (mine || (s.reservedBy d ring slot).isNone)
  match f with
  | .sync _ m =>
    if (s.joinedAt d ring slot m).isSome then .join
    else if s.onF (rdExact d) then
      if ownsField table ring slot then (if (s.syncAt d slot).isNone then .field else .fault 0x60)
      else if !isArrive m && ownsSlot table ring slot then (if here.isNone then .place else .fault 0x60)
      else if ownsAny table ownsField || (!isArrive m && ownsAny table ownsSlot) then .wait
      else .fault 0x61
    else if upstream ring slot && (s.syncAt d slot).isNone then .field
    else if free then .place
    else .wait
  | _ =>
    if (here.map fun p => combines f p.flit).getD false then .combine
    else if !mayRide f ring slot then .wait
    else if s.onF (rdExact d) then
      if ownsSlot table ring slot then (if here.isNone then .place else .fault 0x60)
      else if ownsAny table (fun t r k => ownsSlot t r k && mayRide f r k) then .wait
      else .fault 0x61
    else if free then .place
    else .wait

/-- Whether the head uses this ring, the rings being tried in ascending order (R262). -/
def lowestRing (s : State) (d pos : Nat) (table : Nat → Byte) (f : Flit) (ring slot : Nat) : Bool :=
  takeSlot s d pos table f ring slot != .wait && (List.range ring).all fun r => takeSlot s d pos table f r slot == .wait

/-- Puts the head in a slot in core cycle `t`; a reservation it uses is cleared (R252, R262). `next` is the first core
cycle in which it is met. -/
def State.place (d pos : Nat) (f : Flit) (ring slot next : Nat) (s : State) : State :=
  let s := if s.reservedBy d ring slot = some pos then s.setReserved d ring slot none else s
  (s.setSlot d ring slot (some { pos := pos, flit := f, next := next })).incF (rdFlits d) 1

/-- Folds the head into the partial that a slot holds (R252). -/
def State.fold (d ring slot : Nat) (f : Flit) (s : State) : State :=
  match s.slotAt d ring slot with
  | some p => (s.setSlot d ring slot (some { p with flit := combined f p.flit })).incF (rdCombines d) 1
  | none => s

/-- A list's last eight items. -/
def lastEight {α : Type} (l : List α) : List α := l.drop (l.length - 8)

/-- A stop notes the header of a slot that it has injected (R500). -/
def State.noteSent (lid pos : Nat) (f : Flit) (s : State) : State :=
  s.modStop lid fun x => { x with sent := lastEight (x.sent ++ [slotHeader pos f]) }

/-- A stop notes the header of a slot whose flit it has delivered (R500). -/
def State.noteTaken (lid pos : Nat) (f : Flit) (s : State) : State :=
  s.modStop lid fun x => { x with taken := lastEight (x.taken ++ [slotHeader pos f]) }

/-- The head of a stop's FIFO has been injected in core cycle `t`: it leaves the FIFO, which is refilled, and the stop
injects nothing more in that cycle (R247). -/
def State.popHead (lid t : Nat) (s : State) : State :=
  (s.modStop lid fun x => { x with fifo := x.fifo.tail, nextInject := t + 1 }).refill lid

/-- The head of the FIFO of core `lid`'s stop meets a slot in core cycle `t`. -/
def State.injectHead (d pos lid ring slot t : Nat) (f : Flit) (s : State) : State :=
  match takeSlot s d pos (s.stopTable lid) f ring slot with
  | .wait => s
  | .fault c => s.remoteFault lid c
  | .combine => (s.fold d ring slot f).popHead lid t
  | .place => ((s.place d pos f ring slot (t + 1)).noteSent lid pos f).popHead lid t
  | .join =>
    match f with
    | .sync _ m => (s.setSync d slot (s.joinedAt d ring slot m)).popHead lid t
    | _ => s
  | .field =>
    match f with
    | .sync src m => (s.setSync d slot (some { src := src, msg := m, next := t + 1 })).popHead lid t
    | _ => s

/-- The stop at `pos`, of core `lid`, offers the head of its FIFO to the slot when it passes next (R247, R260-R262). -/
def injectStop (d pos lid ring slot : Nat) (s : State) : State :=
  let s := s.refill lid
  match (s.stop lid).fifo with
  | [] => s
  | f :: _ =>
    let t := s.meetAt d slot pos (max (s.die d).now (s.stop lid).nextInject)
    if s.quiet d t slot 6 && lowestRing s d pos (s.stopTable lid) f ring slot then
      s.ringTo d t |>.injectHead d pos lid ring slot t f
    else s

/-- Whether a tap's own stop uses the slot in core cycle `t`: its FIFO goes before the bridge (R262). -/
def State.ownUses (s : State) (d pos ring slot t : Nat) : Bool :=
  match s.lidAt d pos with
  | some lid =>
    match (s.stop lid).fifo with
    | f :: _ => decide ((s.stop lid).nextInject ≤ t) && lowestRing s d pos (s.stopTable lid) f ring slot
    | [] => false
  | none => false

/-- The core that a fault of a tap names: its stop's, or the first of the die where the tap is fenced (R268; log 101). -/
def State.tapLid (s : State) (d pos : Nat) : Nat := (s.lidAt d pos).getD (256 * d)

/-- Whether a downstream field is free when it reaches a tap in core cycle `t`: the other tap's message is removed there
(R255). -/
def State.fieldFree (s : State) (d slot t : Nat) : Bool := (s.syncAt d slot).all fun f => f.upTo.any (· ≤ t)

/-- Messages and flits that wait at a tap. -/
def Tap.held (x : Tap) : Nat := x.rel.length + x.ctr.length + x.flits.length

/-- The message that a tap sends next, with what it holds after: RELEASE, STAGE and STOP go ahead of COUNTER (R255). -/
def Tap.popMsg (x : Tap) : Option (SyncMsg × Bool × Tap) :=
  match x.rel, x.ctr with
  | m :: r, _ => some (m, true, { x with rel := r })
  | [], m :: r => some (m, false, { x with ctr := r })
  | [], [] => none

/-- The bridge puts a message into the downstream field that passes its tap in core cycle `t` (R254, R255). -/
def State.injectField (d : Nat) (tap : Bool) (slot t : Nat) (s : State) : State :=
  match ((s.die d).tap tap).popMsg with
  | some (m, broad, rest) =>
    let other := s.getF (if tap then rdTap0 d else rdTap1 d)
    let upTo := if broad then some (s.meetAt d slot other (t + 1)) else none
    (s.modTap d tap fun _ => rest).setSync d slot (some { src := 0, msg := m, next := t, upTo := upTo })
  | none => s

/-- First core cycle in which a flit that the bridge injects in core cycle `t` is met: the tap's own stop is served at
once, but a NOTICES flit is back at its injector only after a rotation. -/
def firstMeet (f : Flit) (t : Nat) : Nat :=
  match f with
  | .notices _ _ _ => t + 1
  | _ => t

/-- The bridge offers its first flit for a tap to a passing slot in core cycle `t` (R249, R265). -/
def State.injectFlit (d pos : Nat) (tap : Bool) (ring slot t : Nat) (s : State) : State :=
  match ((s.die d).tap tap).flits with
  | [] => s
  | f :: rest =>
    let popped := s.modTap d tap fun x => { x with flits := rest }
    match takeSlot s d pos (s.tapTable d tap) f ring slot with
    | .combine => popped.fold d ring slot f
    | .place => popped.place d pos f ring slot (firstMeet f t)
    | .fault c => s.remoteFault (s.tapLid d pos) c
    | _ => s

/-- The bridge serves a tap as a slot passes next: a message for a free downstream field goes first, else a flit, where
the tap's own stop does not use the slot (R255, R262, R265). -/
def injectBridge (d : Nat) (tap : Bool) (ring slot : Nat) (s : State) : State :=
  let pos := s.getF (if tap then rdTap1 d else rdTap0 d)
  let t := s.meetAt d slot pos (s.die d).now
  if !s.quiet d t slot 6 then s
  else if downstreamField ring slot && s.fieldFree d slot t && (((s.die d).tap tap).popMsg).isSome then
    s.ringTo d t |>.injectField d tap slot t
  else if s.ownUses d pos ring slot t || ((s.die d).tap tap).flits.isEmpty then s
  else s.ringTo d t |>.injectFlit d pos tap ring slot t

/-- The head of an injection FIFO meets a passing slot (R260-R262, R265): that of the stop at position `place`, or of the
bridge at its tap of that number. -/
def flitInjectOp (d : Nat) (who : Injector) (place ring slot : Nat) (s : State) : State :=
  if !s.ringsRun d || !s.slotExists d slot then s
  else
    match who with
    | .stop =>
      match s.lidAt d place with
      | some lid => injectStop d place lid ring slot s
      | none => s
    | .bridge => injectBridge d (place == 1) ring slot s

/-- Whether the place of an injection is one of the die. -/
def injectorOk (place : Nat) : Injector → Bool
  | .stop => decide (place < 288)
  | .bridge => decide (place < 2)

/-- FLIT_INJECT (R262). -/
def execFlitInject (die : Nat) (who : Injector) (place ring slot : Nat) (s : State) : Host.Outcome State Fault Refusal :=
  guarded (decide (die < 8) && injectorOk place who && decide (ring < 4) && decide (slot < 288)) s
    (flitInjectOp die who place ring slot s)

/-- The home slot of a position on ring `r` (R262). -/
def State.homeSlot (s : State) (d pos r : Nat) : Nat :=
  if s.getF (rdRotation d) = 0 then 0 else (pos + 96 * r) % s.getF (rdRotation d)

/-- The core cycle in which a position's home slot on ring `r` passes it next. -/
def State.homeAt (s : State) (d pos r : Nat) : Nat := s.meetAt d (s.homeSlot d pos r) pos (s.die d).now

/-- The ring from 1 to 3 whose home slot passes a position next (R262). -/
def State.homeRing (s : State) (d pos : Nat) : Nat :=
  [2, 3].foldl (fun b r => if s.homeAt d pos r < s.homeAt d pos b then r else b) 1

/-- A head that has waited two rotations reserves the home slot that passes its stop next (R262). -/
def reservationOp (d pos : Nat) (s : State) : State :=
  match s.lidAt d pos with
  | none => s
  | some lid =>
    let r := s.homeRing d pos
    let k := s.homeSlot d pos r
    let t := s.homeAt d pos r
    if !s.ringsRun d || s.onF (rdExact d) || (s.stop lid).fifo.isEmpty || !s.quiet d t k 0 ||
        ([1, 2, 3].any fun r => s.reservedBy d r (s.homeSlot d pos r) == some pos) || (s.reservedBy d r k).isSome then s
    else ((s.ringTo d t).setReserved d r k (some pos)).incF (rsReserves d pos) 1

/-- RESERVATION (R262). -/
def execReservation (die pos : Nat) (s : State) : Host.Outcome State Fault Refusal :=
  guarded (decide (die < 8) && decide (pos < 288)) s (reservationOp die pos s)

/-! ### Notices at the stops (R54-R57, R246, R248) -/

/-- Sets that record. -/
def State.setKept (lid ring slot : Nat) (l : List Nat) (s : State) : State :=
  s.modStop lid fun t => { t with keepTbl := tblPut (fun _ => []) (slotKey ring slot) l t.keepTbl }

/-- Notices that the inbox of a core holds at most (R57). -/
def inboxSize : Nat := 1024

/-- A stop's offer of notice `j` to its core: the core takes it, or a full inbox keeps it in the flit, or raises
LACE_INBOX in exact-timing mode (R54, R56, R57). Answers whether it is kept. -/
def offerNotice (d pos lid ring slot : Nat) (again : Bool) (j : Nat) (n : W32) (s : State) : State × Bool :=
  match s.windowFor lid n with
  | none => (s, false)
  | some k =>
    let mine := s.kept lid ring slot
    if again && !mine.contains j then (s, false)
    else if inboxSize ≤ (s.core lid).inbox.length then
      if s.exact then (s.remoteFault lid fLaceInbox, false)
      else
        let s := if mine.contains j then s else s.setKept lid ring slot (mine ++ [j])
        ((s.setF (cNoticeKeep lid) 1).incF (rsKeeps d pos) 1, true)
    else ((s.setKept lid ring slot (mine.filter (· != j))).takeNotice lid k n, false)

/-- A stop offers every notice of a flit to its core; answers the KEEP bits after (R248). -/
def offerAll (d pos lid ring slot : Nat) (again : Bool) : List (W32 × Nat) → List Nat → State → State × List Nat
  | [], keep, s => (s, keep)
  | (n, j) :: t, keep, s =>
    let (s, k) := offerNotice d pos lid ring slot again j n s
    offerAll d pos lid ring slot again t (if k && !keep.contains j then keep ++ [j] else keep) s

/-- The origin of notices learns that a flit of them has been removed: the injecting core's count falls, an exporting
die's does, or a link NOTICES flit comes nearer its acknowledgement (R246, R258, R381). -/
def State.noticesRemoved (src : Nat) (items : List W32) (s : State) : State :=
  if src < 2048 then (s.modStop src fun t => { t with outNotices := t.outNotices - 1 }).refill src
  else if src = bridgeSrc then
    forAll items (fun n t => t.modDie (bitsOf n 21 11 / 256) fun x => { x with exported := x.exported - 1 }) s
  else
    let k := src - 4096
    match tblGet (fun _ => none) (s.net.nackOwed.map fun e => (e.1, some e.2)) k with
    | none => s
    | some (spkg, left) =>
      if left ≤ 1 then
        ({ s with net := { s.net with nackOwed := tblDel k s.net.nackOwed } }).linkSendOut (.sync spkg s.pkgId 0 [.nack 1])
      else { s with net := { s.net with nackOwed := tblIns k (spkg, left - 1) (tblDel k s.net.nackOwed) } }

/-- A NOTICES flit meets the stop at `pos` in core cycle `t` (R56, R246, R248). -/
def noticePass (d pos ring slot t : Nat) (p : Placed) (src : Nat) (items : List W32) (keep : List Nat) (s : State) : State :=
  let own := pos == p.pos && decide (src < 2048)
  let (s, keep) := match s.lidAt d pos with
    | some lid =>
      if own then (s, keep)
      else
        offerAll d pos lid ring slot p.again items.zipIdx keep
          (if s.wantsNotices d pos ring slot p src items then s.noteTaken lid p.pos p.flit else s)
    | none => (s, keep)
  if pos = p.pos then
    if keep.isEmpty then (s.setSlot d ring slot none).noticesRemoved src items
    else s.setSlot d ring slot (some { p with flit := .notices src items [], again := true, next := t + 1 })
  else s.setSlot d ring slot (some { p with flit := .notices src items keep, next := t + 1 })

/-- The stop at `pos` meets the slot, after the first tap has taken what it exports (R56, R249). -/
def flipNoticeReceiveOp (d pos ring slot : Nat) (s : State) : State :=
  match s.slotTurn d ring slot with
  | some (p, t) =>
    match p.flit with
    | .notices src items keep =>
      if s.standsAt d slot pos t && !(pos == s.getF (rdTap0 d) && s.exportDue d p items) then
        noticePass d pos ring slot t p src items keep (s.ringTo d t)
      else s
    | _ => s
  | none => s

/-- FLIP_NOTICE_RECEIVE (R56). -/
def execFlipNoticeReceive (die pos ring slot : Nat) (s : State) : Host.Outcome State Fault Refusal :=
  guarded (decide (die < 8) && decide (pos < 288) && decide (ring < 4) && decide (slot < 288)) s
    (flipNoticeReceiveOp die pos ring slot s)

/-! ### Export (R249, R379) -/

/-- Notices waiting for a destination package. -/
def State.packFor (s : State) (q : Nat) : List W32 := tblGet (fun _ => []) s.net.pack q

/-- Sets them. -/
def State.setPack (q : Nat) (l : List W32) (s : State) : State :=
  { s with net := { s.net with pack := tblPut (fun _ => []) q l s.net.pack } }

/-- Link switch 0 sends what it has packed for a package as one NOTICES flit (R379, R381). -/
def State.sendPack (q : Nat) (s : State) : State :=
  match s.packFor q with
  | [] => s
  | l =>
    let s := s.setPack q []
    ({ s with net := { s.net with unackedNotices := s.net.unackedNotices + 1 } }).linkSendOut (.notices q s.pkgId l)

/-- One copy of a notice for a package; a flit of 59 is full (R379). -/
def State.packTo (q : Nat) (n : W32) (s : State) : State :=
  let s := s.setPack q (s.packFor q ++ [n])
  if (s.packFor q).length = 59 then s.sendPack q else s

/-- Link switch 0 copies a notice once for each LNK_EXPORT entry that covers it (R379). -/
def State.linkExport (n : W32) (s : State) : State :=
  forAll (List.range 256) (fun k t =>
    if t.onF (leValid k) && covers (t.getF (leFirst k)) (t.getF (leLast k)) n then t.packTo (t.getF (leDpkg k)) n else t) s

/-- The first tap copies one notice that matches export windows: to each die that one of them names, and to link switch
0 where one has LINK set (R249, R379). -/
def State.exportNotice (d : Nat) (n : W32) (s : State) : State :=
  let ks := s.exportsOf d n
  let s := forAll ((List.range 8).filter fun e => ks.any fun k => (s.getF (reDies d k)).testBit e) (fun e t => t.exportTo d e n) s
  if ks.any fun k => s.onF (reLink d k) then s.linkExport n else s

/-- The first tap of a die meets a NOTICES flit for the first time (R249). -/
def noticeExportOp (d ring slot : Nat) (s : State) : State :=
  match s.slotTurn d ring slot with
  | some (p, t) =>
    match p.flit with
    | .notices _ items _ =>
      if s.standsAt d slot (s.getF (rdTap0 d)) t && s.exportDue d p items then
        forAll items (fun n t => t.exportNotice d n)
          ((s.ringTo d t).setSlot d ring slot (some { p with exported := true, next := t }))
      else s
    | _ => s
  | none => s

/-- NOTICE_EXPORT (R249). -/
def execNoticeExport (die ring slot : Nat) (s : State) : Host.Outcome State Fault Refusal :=
  guarded (decide (die < 8) && decide (ring < 4) && decide (slot < 288)) s (noticeExportOp die ring slot s)

/-! ### Sends and partials (R172, R229, R246, R338, R369, R382) -/

/-- The sender of a piece learns that it has been written (R228). -/
def State.pieceWritten (src mid units : Nat) (s : State) : State :=
  if src < 2048 ∧ mid < 4 then s.moveDone src mid units else s

/-- One flit of a receive buffer is delivered to its core: a SEND is written to its memory, and LAST with SIG then ADDs 1
to SCTR (R228, R245); a PARTIAL is added (R172). -/
def State.landFlit (f : Flit) (s : State) : State :=
  match f with
  | .send src mid dc _ _ dmem daddr last sig sctr pmask data =>
    let s := (s.landPiece dc dmem daddr pmask data).pieceWritten src mid (data.length / 64)
    if last && sig then s.remoteAdd dc sctr 1 else s
  | .partials _ dc _ _ tag ctr contrib fields => s.applyPartials dc ctr contrib tag fields
  | _ => s

/-- The oldest `n` flits of a receive buffer are delivered. -/
def State.drainRx (lid : Nat) : Nat → State → State
  | 0, s => s
  | n + 1, s =>
    match (s.stop lid).rx with
    | [] => s
    | f :: t => State.drainRx lid n ((s.modStop lid fun x => { x with rx := t }).landFlit f)

/-- The stop at `pos` delivers up to `n` flits of its receive buffer. -/
def State.drainAt (d pos n : Nat) (s : State) : State :=
  match s.lidAt d pos with
  | some lid => if s.ringsRun d then s.drainRx lid (min n 8) else s
  | none => s

/-- A flit that a stop lets pass goes on round the ring. -/
def State.letPass (d ring slot t : Nat) (p : Placed) (s : State) : State :=
  s.setSlot d ring slot (some { p with next := t + 1 })

/-- A stop puts the flit of a slot into its receive buffer (R246). -/
def State.intoRx (d ring slot lid : Nat) (p : Placed) (s : State) : State :=
  ((s.setSlot d ring slot none).noteTaken lid p.pos p.flit).modStop lid fun x => { x with rx := x.rx ++ [p.flit] }

/-- A PARTIAL flit meets the stop at `pos` in core cycle `t`: its own stop takes it into the receive buffer or lets it
pass, a tap takes one for another die or package (R246, R382). -/
def takePartial (d ring slot t : Nat) (p : Placed) (s : State) : State :=
  match p.flit with
  | .partials src dc remote dpkg tag ctr contrib fields =>
    if !remote && dieOf dc == d then
      if (s.stop dc).rx.length < 8 then s.intoRx d ring slot dc p else s.letPass d ring slot t p
    else
      let s := s.setSlot d ring slot none
      if remote then s.linkSendOut (.partials dpkg s.pkgId src dc tag ctr contrib fields) else s.toDie dc p.flit
  | _ => s

/-- The stop at `pos` first delivers up to `drain` flits of its receive buffer, then meets the slot (R172, R246). -/
def partialReceiveOp (d pos ring slot drain : Nat) (s : State) : State :=
  let s := s.drainAt d pos drain
  match s.slotTurn d ring slot with
  | some (p, t) => if s.standsAt d slot pos t then
      (match p.flit with
       | .partials .. => takePartial d ring slot t p (s.ringTo d t)
       | _ => s)
    else s
  | none => s

/-- PARTIAL_RECEIVE (R172). -/
def execPartialReceive (die pos ring slot drain : Nat) (s : State) : Host.Outcome State Fault Refusal :=
  guarded (decide (die < 8) && decide (pos < 288) && decide (ring < 4) && decide (slot < 288)) s
    (partialReceiveOp die pos ring slot drain s)

/-- The pass record that a stop holds for an injecting position (R246). -/
def State.passOf (s : State) (lid pos : Nat) : Option (Nat × Nat) := tblGet (fun _ => none) (s.stop lid).passTbl pos

/-- Sets or clears it. -/
def State.setPass (lid pos : Nat) (v : Option (Nat × Nat)) (s : State) : State :=
  s.modStop lid fun t => { t with passTbl := tblPut (fun _ => none) pos v t.passTbl }

/-- The destination stop takes a SEND flit in source order, or lets it pass and records it (R246). -/
def takeSend (d ring slot lid t : Nat) (p : Placed) (s : State) : State :=
  let r := s.passOf lid p.pos
  if decide ((s.stop lid).rx.length < 8) && (r.isNone || r == some (ring, slot)) then
    (s.setPass lid p.pos none).intoRx d ring slot lid p
  else (if r.isNone then s.setPass lid p.pos (some (ring, slot)) else s).letPass d ring slot t p

/-- Link switch 0 repacks one 64-byte unit of a move into link SEND flits of three (R369). -/
def State.repackUnit (key dpkg src dc : Nat) (dmem : Bool) (daddr : Nat) (last sig : Bool) (sctr : Nat) (pmask : Nat)
    (unit : List Byte) (s : State) : State :=
  let old := tblGet (fun _ => none) s.net.repack key
  let f : LinkFlit := match old with
    | some (.send k p c d m a _ _ t pm bs) => .send k p c d m a last sig t (pm ||| BitVec.ofNat 6 (pmask * 2 ^ (bs.length / 32))) (bs ++ unit)
    | _ => .send dpkg s.pkgId src dc dmem daddr last sig sctr (BitVec.ofNat 6 pmask) unit
  let full := last || (match f with
    | .send _ _ _ _ _ _ _ _ _ _ bs => decide (192 ≤ bs.length)
    | _ => false)
  let put (v : Option LinkFlit) (t : State) : State :=
    { t with net := { t.net with repack := tblPut (fun _ => none) key v t.net.repack } }
  if full then (put none s).linkSendOut f else put (some f) s

/-- A SEND flit of a move to another package leaves by link switch 0, unit by unit; the switch's acceptance stands for
the write at the destination (R369, R382; log 14). -/
def State.sendRemote (f : Flit) (s : State) : State :=
  match f with
  | .send src mid dc _ dpkg dmem daddr last sig sctr pmask data =>
    let us := (pieces 64 data).zipIdx
    (forAll us (fun e t => t.repackUnit (src * 4 + mid) dpkg src dc dmem (daddr + 64 * e.2)
      (last && decide (e.2 + 1 = us.length)) sig sctr (bitsOf pmask (2 * e.2) 2) e.1) s).pieceWritten src mid us.length
  | _ => s

/-- A SEND flit meets the stop at `pos` in core cycle `t` (R246, R369). -/
def meetSend (d ring slot t : Nat) (p : Placed) (s : State) : State :=
  match p.flit with
  | .send _ _ dc remote _ _ _ _ _ _ _ _ =>
    if !remote && dieOf dc == d then takeSend d ring slot dc t p s
    else if remote then (s.setSlot d ring slot none).sendRemote p.flit
    else (s.setSlot d ring slot none).toDie dc p.flit
  | _ => s

/-- The stop at `pos` first delivers up to `drain` flits of its receive buffer, then meets the slot (R246). -/
def sendFlitReceiveOp (d pos ring slot drain : Nat) (s : State) : State :=
  let s := s.drainAt d pos drain
  match s.slotTurn d ring slot with
  | some (p, t) => if s.standsAt d slot pos t then
      (match p.flit with
       | .send .. => meetSend d ring slot t p (s.ringTo d t)
       | _ => s)
    else s
  | none => s

/-- SEND_FLIT_RECEIVE (R246). -/
def execSendFlitReceive (die pos ring slot drain : Nat) (s : State) : Host.Outcome State Fault Refusal :=
  guarded (decide (die < 8) && decide (pos < 288) && decide (ring < 4) && decide (slot < 288)) s
    (sendFlitReceiveOp die pos ring slot drain s)

/-! ### Sync messages at the stops and taps (R217, R218, R254) -/

/-- A counter message from a sync field enters its stop's queue, which keeps an entry free for it (R217). -/
def takeField (lid slot t : Nat) (m : SyncMsg) (s : State) : State :=
  if (s.stop lid).ctrQ.length < 16 then
    ((s.ringTo (dieOf lid) t).setSync (dieOf lid) slot none).modStop lid fun x => { x with ctrQ := x.ctrQ ++ [m] }
  else s

/-- The pass record that a stop holds for the SYNC flits of an injecting position (R217). -/
def State.syncPassOf (s : State) (lid pos : Nat) : Option (Nat × Nat) := tblGet (fun _ => none) (s.stop lid).syncPass pos

/-- Sets or clears it. -/
def State.setSyncPass (lid pos : Nat) (v : Option (Nat × Nat)) (s : State) : State :=
  s.modStop lid fun t => { t with syncPass := tblPut (fun _ => none) pos v t.syncPass }

/-- A SYNC flit enters its stop's queue while two entries are free, or passes under the pass rule (R217, R246). -/
def takeSync (lid ring slot t : Nat) (p : Placed) (m : SyncMsg) (s : State) : State :=
  let d := dieOf lid
  let r := s.syncPassOf lid p.pos
  let s := s.ringTo d t
  if decide ((s.stop lid).ctrQ.length < 15) && (r.isNone || r == some (ring, slot)) then
    (((s.setSlot d ring slot none).setSyncPass lid p.pos none).noteTaken lid p.pos p.flit).modStop lid fun x =>
      { x with ctrQ := x.ctrQ ++ [m] }
  else (if r.isNone then s.setSyncPass lid p.pos (some (ring, slot)) else s).letPass d ring slot t p

/-- A counter message for core `lid` meets its stop, in a sync field or in a SYNC flit (R217, R254). -/
def meetCounter (lid : Nat) (at_ : Pass) (s : State) : State :=
  let d := dieOf lid
  if at_.field then
    match s.fieldTurn d at_.slot with
    | some (f, t) => if forDie d f.msg && s.atCore lid at_.slot t then takeField lid at_.slot t f.msg s else s
    | none => s
  else
    match s.slotTurn d at_.ring at_.slot with
    | some (p, t) =>
      match p.flit with
      | .sync _ m => if forDie d m && s.atCore lid at_.slot t then takeSync lid at_.ring at_.slot t p m s else s
      | _ => s
    | none => s

/-- The stop hands its core the oldest counter message that it holds (R217, R218, R254). -/
def handCounter (lid : Nat) (s : State) : State :=
  match (s.stop lid).ctrQ with
  | .counter _ n k set _ _ _ :: rest =>
    if s.ringsRun (dieOf lid) then (s.modStop lid fun x => { x with ctrQ := rest }).applyCounter lid n k set else s
  | _ => s

/-- A counter message meets the stop of its core, or the stop hands its core the oldest that it holds (R217, R218). -/
def counterMessageOp (lid : Nat) (meet : Option Pass) (s : State) : State :=
  match meet with
  | some m => meetCounter lid m s
  | none => handCounter lid s

/-- Whether what passes a station is a slot of a ring, or a sync field of ring 0 (R241). -/
def passFits (m : Option Pass) : Bool :=
  m.all fun x => decide (x.ring < 4) && decide (x.slot < 288) && (!x.field || (decide (x.ring = 0) && decide (x.slot % 16 = 0)))

/-- COUNTER_MESSAGE (R218). -/
def execCounterMessage (lid : Nat) (meet : Option Pass) (s : State) : Host.Outcome State Fault Refusal :=
  guarded (decide (lid < 2048) && passFits meet) s (counterMessageOp lid meet s)

/-- What a tap takes off a ring leaves the die: a counter message goes to its die, to E0 or to another package; an
arrival goes to the die's combiner (R254, R382). -/
def State.routeSync (src : Nat) (m : SyncMsg) (s : State) : State :=
  match m with
  | .counter dc _ n _ route hc dpkg =>
    if route = 1 then { s with hostIn := s.hostIn ++ [⟨hc, n, src⟩] }
    else if route = 2 then s.linkSendOut (.sync dpkg s.pkgId src [.sync m])
    else s.msgToDie dc m
  | _ => s

/-- The sync message that a tap of die `d` takes at its next meeting, with its sender and the state after. -/
def State.tapTakes (s : State) (d : Nat) (at_ : Pass) : Option (Nat × SyncMsg × State) :=
  if at_.field then
    match s.fieldTurn d at_.slot with
    | some (f, t) =>
      if upstream 0 at_.slot && !forDie d f.msg then some (f.src, f.msg, (s.ringTo d t).setSync d at_.slot none) else none
    | none => none
  else
    match s.slotTurn d at_.ring at_.slot with
    | some (p, t) =>
      match p.flit with
      | .sync src m => if forDie d m then none else some (src, m, (s.ringTo d t).setSlot d at_.ring at_.slot none)
      | _ => none
    | none => none

end Sys2Proof.Machine
end

