-- ==== Sys2Proof/Machine/Act.lean ====
section
/-!
DEFINITION. Activation tables, their evaluation and the decision rules of the SUA (R76-R81).
-/
namespace Sys2Proof.Machine

/-- One, in the fixed-point format in which the default tables are computed. -/
def expOne : Nat := 2 ^ 160

/-- The sum of `n` terms of the series of e^(1/32), from term `i` of value `t` on. -/
def expSum : Nat → Nat → Nat → Nat
  | 0, _, _ => 0
  | n + 1, i, t => t + expSum n (i + 1) (t / (32 * (i + 1)))

/-- e^(j/32) in units of 2⁻¹⁶⁰, to within 2⁻¹⁴⁰ of itself. -/
def expPow : Nat → Nat
  | 0 => expOne
  | j + 1 => expPow j * expSum 40 0 expOne / expOne

/-- Entry `k` of the default heat-bath table (R81). -/
def heatEntry (k : Nat) : Nat :=
  let e := if 512 ≤ k then expPow (k - 512) else expPow (512 - k)
  (2 * 65536 * (if 512 ≤ k then e else expOne) + (e + expOne)) / (2 * (e + expOne))

/-- Entry `k` of the default Metropolis table (R81). -/
def metroEntry (k : Nat) : Nat :=
  if 512 ≤ k then 65536 else (2 * 65536 * expOne + expPow (512 - k)) / (2 * expPow (512 - k))

/-- Entry `k` of activation table `n` of a core (R77, R80); an entry beyond tile memory is free (log 11). -/
def State.tableEntry (s : State) (lid n k : Nat) : Nat :=
  if n = 0 then heatEntry k
  else if n = 1 then metroEntry k
  else
    let a := s.getF (cTable lid n) + 4 * k
    min 65536 ((if a + 4 ≤ 0x80000 then s.rdNat lid .tile a 4 else (Config.freeBits (2 ^ 64 + s.free * 1024 + k)).toNat) % 2 ^ 17)

/-- act(x), `x` in units of 2⁻²⁴ (R77). -/
def actVal (ent : Nat → Nat) (x : Int) : Nat :=
  let y := x + 16 * 2 ^ 24
  if y < 0 then ent 0
  else if 32 * 2 ^ 24 ≤ y then ent 1023
  else
    let k := y.toNat / 2 ^ 19
    let f : Nat := y.toNat % 2 ^ 19
    if k = 1023 then ent 1023
    else
      let d : Int := (ent (k + 1) : Int) - ent k
      ((ent k : Int) + (d * f + 0x40000) / 2 ^ 19).toNat

/-- The rule of a phase: 0 heat-bath, 1 Metropolis, 2 greedy (R101); the decision of R78. -/
def decideUnit (rule : Nat) (ent : Nat → Nat) (beta : Nat) (h : Int) (st : Bool) (u : Nat) : Bool :=
  let x : Int := beta * h
  if rule = 2 then (if 0 < h then true else if h < 0 then false else st)
  else if rule = 0 then decide (u < actVal ent x)
  else if u < actVal ent (if st then -x else x) then !st else st

/-- Whether a paired move of energy change `de` is accepted (R89). -/
def acceptMove (rule : Nat) (ent : Nat → Nat) (beta : Nat) (de : Int) (ua : Nat) : Bool :=
  let dc := satS 32 de
  if rule = 2 then decide (dc < 0) else decide (ua < actVal ent (-((beta : Int) * dc)))

end Sys2Proof.Machine
end

