-- ==== Sys2Proof/Machine/Sua.lean ====
section
/-!
DEFINITION. The stochastic unit array: phases, paired moves, held and deferred updates, β, clamping, snapshots and
on-counts (R71-R102).
-/
namespace Sys2Proof.Machine

/-- What one phase works with: core, colour, replica, rule, table, its flags, the seed and the key sweep (R101, R104). -/
structure PhaseRun where
  lid : Nat
  colour : Nat
  replica : Nat
  rule : Nat
  table : Nat
  free : Bool
  onCount : Bool
  beta : Nat
  seed : BitVec 96
  sweep : Nat

/-- What one lane or one group decides: decisions counted, flips in order, groups skipped, units whose on-count grows,
the members of a moving group, the octets drawn from, the lace words read, and a fault (R78, R88, R89, R98). -/
structure LaneOut where
  evals : Nat := 0
  flips : List (Nat × Bool) := []
  err : Nat := 0
  on : List Nat := []
  members : List Nat := []
  octets : List Nat := []
  reads : List Nat := []
  fault : Option Nat := none

/-- Issues an S-queue op once no phase is in progress; a set reserved bit raises `bad` (R101, R105, R213). -/
def State.suaOp (lid code : Nat) (fields : List (Nat × Nat)) (bad : Nat) (f : OpWord → State → State) (s : State) : State :=
  s.issue lid .s code fun op t =>
    if (t.core lid).phase.isSome then t
    else if opReserved fields op then t.opFault lid .s bad
    else f op t

/-- An S-queue op that runs to its end in one step: it retires, or faults (R101, R102). -/
def State.suaEnd (lid : Nat) (r : Res) : State :=
  match r.2 with
  | none => (r.1.flush lid).retire lid .s
  | some c => (r.1.flush lid).opFault lid .s c

/-- Whether the plane words that cover unit `i` are uncorrectable for a batch (R67, R72). -/
def State.planeBad (s : State) (lid r i : Nat) : Bool :=
  s.laceBad lid (s.stateAt lid r (i / 32)) || s.laceBad lid (s.clampAt lid (i / 32)) || s.laceBad lid (s.groupAt lid (i / 32))

/-- The uniform of model index `m` under a purpose (R79). -/
def PhaseRun.draw (x : PhaseRun) (purpose m : Nat) : Nat := unitDraw x.seed purpose m x.sweep x.replica x.colour

/-- Whether the lane of unit `i` is idle: outside the colour range, a padding unit, clamped, or under a damaged plane
word (R72). -/
def laneIdle (x : PhaseRun) (s : State) (i : Nat) : Bool :=
  decide (i < s.getF (cColFirst x.lid x.colour)) || decide (s.getF (cColEnd x.lid x.colour) ≤ i) ||
    s.planeBad x.lid x.replica i || s.modelIndex x.lid i == 0xFFFFFFFF || s.clampBit x.lid i

/-- A single-unit lane's decision on the fields as they stand (R72, R78, R98). -/
def singleLane (x : PhaseRun) (s : State) (i : Nat) : LaneOut :=
  let m := s.modelIndex x.lid i
  if laneIdle x s i || s.groupBit x.lid i then {}
  else
    let st := s.unitState x.lid x.replica i
    let nw := decideUnit x.rule (s.tableEntry x.lid x.table) x.beta (s.field x.lid x.replica i) st (x.draw 1 m)
    { evals := 1, flips := if nw = st then [] else [(i, nw)], on := if nw then [i] else [],
      octets := if x.rule = 2 then [] else [m / 8 * 4 + 1] }

/-- The paired move of the group of `n` members from `first` on, with member `first + hot` at 1 (R89, R90). An entry for
J_ij past word 262,143 raises LACE_LIST, as a walk there would (log 91). -/
def groupMove (x : PhaseRun) (s : State) (first n hot : Nat) : LaneOut :=
  let m := s.modelIndex x.lid first
  let us := x.draw 2 m
  let ua := x.draw 3 m
  let k := us * (n - 1) / 2 ^ 16
  let jo := if k < hot then k else k + 1
  let i := first + hot
  let j := first + jo
  let da := s.descAt x.lid i
  let p := bitsOf (s.lace x.lid da) 14 18 + jo - (if hot < jo then 1 else 0)
  let out : LaneOut := { evals := 1, members := rangeFrom first (first + n), octets := [m / 8 * 4 + 2, m / 8 * 4 + 3],
                         reads := [da, p] }
  if s.laceBad x.lid da then { out with reads := [da], fault := some fLacePoison }
  else if 0x3FFFF < p then { out with reads := [da], fault := some fLaceList }
  else if s.laceBad x.lid p then { out with fault := some fLacePoison }
  else
    let e := s.lace x.lid p
    if bitsOf e 17 15 ≠ j then { out with fault := some fSuaGroupList }
    else
      let de := s.field x.lid x.replica i - (s.field x.lid x.replica j - sbitsOf e 1 16)
      if acceptMove x.rule (s.tableEntry x.lid x.table) x.beta de ua then { out with flips := [(i, false), (j, true)], on := [j] }
      else { out with on := [i] }

/-- A group's part in a phase: a group with an idle member (clamped, under a damaged plane word, padding, outside the
colour range) keeps its state silently, a group without exactly one member at 1 is skipped and counted (R67, R72, R88;
log 91). -/
def groupLane (x : PhaseRun) (s : State) (first n : Nat) : LaneOut :=
  let ms := rangeFrom first (first + n)
  if ms.any (laneIdle x s) then {}
  else
    match ms.filter fun i => s.unitState x.lid x.replica i with
    | [h] => groupMove x s first n (h - first)
    | _ => { err := 1 }

/-- FIRST and member count of group descriptor `g` (R48). -/
def State.groupDesc (s : State) (lid g : Nat) : Nat × Nat :=
  let d := s.lace lid (wa (s.getF (cGroupBase lid) + g))
  (bitsOf d 17 15, bitsOf d 11 6 + 1)

/-- Whether group descriptor `g` names unit `i` as a member (R48). -/
def State.groupCovers (s : State) (lid g i : Nat) : Bool :=
  decide ((s.groupDesc lid g).1 ≤ i) && decide (i < (s.groupDesc lid g).1 + (s.groupDesc lid g).2)

/-- Whether group descriptor `g` is uncorrectable. -/
def State.groupBad (s : State) (lid g : Nat) : Bool := s.laceBad lid (wa (s.getF (cGroupBase lid) + g))

/-- The block in whose batch a phase reads group descriptor `g`, the colour's descriptors beginning at index `lo`: the
block that holds its FIRST. A poisoned one is met where the walk of the ascending table stands: with the last readable
one before it, or in the phase's first batch (R86; log 91). -/
def State.groupBlock (s : State) (lid colour lo g : Nat) : Nat :=
  match (rangeFrom lo (g + 1)).reverse.find? fun k => !s.groupBad lid k with
  | some k => (s.groupDesc lid k).1 / 64
  | none => s.getF (cColFirst lid colour) / 64

/-- Descriptor indices a phase reads in the batch of block `m` (R86). -/
def State.batchGroups (s : State) (lid colour m : Nat) : List Nat :=
  let r := tblGet (fun _ => (0, 0)) (s.core lid).groupIdx colour
  (rangeFrom r.1 r.2).filter fun g => s.groupBlock lid colour r.1 g == m

/-- Adds 1 to a unit's on-count (R46, R67, R98). -/
def State.bumpOn (lid r i : Nat) (s : State) : State :=
  let w := s.onAt lid r (i / 2)
  if s.laceBad lid w then s.noteLace lid w
  else
    let a := 4 * w + 2 * (i % 2)
    let v := s.rdNat lid .lace a 2
    if v = 65535 then s.setF (cOncountSat lid) 1 else s.wr lid .lace a (natLe 2 (v + 1))

/-- The faults of a batch's group descriptors, before it decides anything (R86). -/
def batchFault (x : PhaseRun) (s : State) (lanes gs : List Nat) : Option Nat :=
  let ds := gs.map (s.groupDesc x.lid)
  if gs.any (s.groupBad x.lid) then some fLacePoison
  else if ds.any fun d => decide (64 < d.1 % 64 + d.2) then some fSuaGroupSplit
  else if lanes.any fun i => !s.planeBad x.lid x.replica i && s.groupBit x.lid i &&
      !ds.any fun d => decide (d.1 ≤ i) && decide (i < d.1 + d.2) then some fSuaGroupSplit
  else none

/-- Writes the states that a batch decided (R75). -/
def writeStates (x : PhaseRun) (outs : List LaneOut) (s : State) : State :=
  forAll (outs.flatMap (·.flips)) (fun f t => t.putState x.lid x.replica f.1 f.2) s

/-- Walks the flips that a batch decided, in ascending lane order (R61, R90). -/
def walkFlips (x : PhaseRun) (outs : List LaneOut) (s : State) : Res :=
  walkRes (fun o t => walkRes (fun f u => u.flip x.lid x.replica f.1 f.2 (some x.colour) o.members) o.flips t) outs s

/-- Counts what a batch did (R98, R100, R199): issue holds for ⌈n/8⌉ − 1 core cycles when it needs n blocks, and for one
where on-counts are kept; what bank collisions and free-phase stepping add is free (log 4). -/
def countBatch (x : PhaseRun) (outs : List LaneOut) (s : State) : State :=
  let errs := (outs.map (·.err)).sum
  let n := (distinct (outs.flatMap (·.octets))).length
  let s := s.incF (cEvals x.lid) (outs.map (·.evals)).sum |>.incF (cFlips x.lid) (outs.map (·.flips.length)).sum
    |>.incF (cGroupErr x.lid) errs |>.blocks x.lid n |>.incF (cSuaStalls x.lid) (ceilDiv n 8 - 1 + x.onCount.toNat)
    |>.addFree (cSuaStalls x.lid)
  let s := if errs = 0 then s else s.setF (cGroupState x.lid) 1
  if x.onCount then forAll (outs.flatMap (·.on)) (fun i t => t.bumpOn x.lid x.replica i) s else s

/-- The lace words that the batch of block `m` reads, with the group descriptors `gs`: two words of each plane, the 64
field words, the descriptors (R73). -/
def State.batchWords (s : State) (lid r m : Nat) (gs : List Nat) : List Nat :=
  [s.stateAt lid r (2 * m), s.stateAt lid r (2 * m + 1), s.clampAt lid (2 * m), s.clampAt lid (2 * m + 1),
    s.groupAt lid (2 * m), s.groupAt lid (2 * m + 1)] ++ (List.range 64).map (fun l => s.fieldAt lid r (64 * m + l))
    ++ gs.map fun g => wa (s.getF (cGroupBase lid) + g)

/-- The reads of a batch meet the errors of its lace words and of its 64 model indices (R73). -/
def State.noteBatch (lid r m : Nat) (gs : List Nat) (s : State) : State :=
  (forAll (s.batchWords lid r m gs) (fun w t => t.noteLace lid w) s).noteRead lid .tile
    (s.getF (cTables lid) + 4 * s.unitsUp lid + 256 * m) 256

/-- One batch of a phase: block `m` of the colour range (R71-R75). A lane that a descriptor covers makes no decision of
its own, whatever its group bit (R85; log 91). -/
def phaseBatch (x : PhaseRun) (m : Nat) (s : State) : Res :=
  let lanes := (rangeFrom (64 * m) (64 * m + 64)).filter fun i =>
    decide (s.getF (cColFirst x.lid x.colour) ≤ i) && decide (i < s.getF (cColEnd x.lid x.colour))
  let gs := s.batchGroups x.lid x.colour m
  let s := s.noteBatch x.lid x.replica m gs
  match batchFault x s lanes gs with
  | some c => (s, some c)
  | none =>
    let outs := lanes.map fun i =>
      match gs.find? fun g => (s.groupDesc x.lid g).1 == i with
      | some g => groupLane x s i (s.groupDesc x.lid g).2
      | none => if gs.any (fun g => s.groupCovers x.lid g i) then {} else singleLane x s i
    let s := forAll (outs.flatMap (·.reads)) (fun w t => t.noteLace x.lid w) s
    match outs.findSome? (·.fault) with
    | some c => (s, some c)
    | none => walkFlips x outs (countBatch x outs (writeStates x outs s))

/-- The batches of a phase, in ascending order (R71). -/
def phaseBlocks (s : State) (lid c : Nat) : List Nat :=
  rangeFrom (s.getF (cColFirst lid c) / 64) (ceilDiv (s.getF (cColEnd lid c)) 64)

/-- The fault of SUA.PHASE's operands, if they have one (R80, R95, R101, R102); of several, SUA_OPERAND comes before
SUA_TABLE before SUA_FREE (log 93). -/
def phaseOperandFault (s : State) (lid : Nat) (op : OpWord) : Option Nat :=
  let c := bitsOf op 0 4
  let rule := bitsOf op 8 2
  let tbl := bitsOf op 10 3
  if rule = 3 ∨ s.replicas lid ≤ bitsOf op 4 4 ∨ s.getF (cColours lid) < c ∨ s.getF (cColEnd lid c) ≤ s.getF (cColFirst lid c)
  then some fSuaOperand
  else if rule ≠ 2 ∧ 2 ≤ tbl ∧ s.getF (cTable lid tbl) = 0 then some fSuaTable
  else if bitOf op 112 ∧ s.onF (cPortable lid) then some fSuaFree
  else none

/-- What a phase runs with (R91). -/
def phaseRun (lid : Nat) (op : OpWord) (s : State) : PhaseRun :=
  { lid, colour := bitsOf op 0 4, replica := bitsOf op 4 4, rule := bitsOf op 8 2, table := bitsOf op 10 3,
    free := bitOf op 112, onCount := bitOf op 113, beta := s.getF (cBeta lid (bitsOf op 4 4)),
    seed := s.seedOf lid, sweep := s.keySweep lid }

/-- The phase is in progress; a free phase sets FREE (R65, R91). -/
def phaseBegin (x : PhaseRun) (s : State) : State :=
  let s := s.modCore x.lid fun k =>
    { k with phase := some ⟨x.colour, x.replica, x.free, false, s.getF (qPc x.lid .s)⟩ }
  if x.free then s.setF (cFree x.lid) 1 else s

/-- The last batch has issued: the queue goes on, or halts at a fault and no phase is in progress. -/
def phaseIssued (lid : Nat) (r : Res) : State :=
  let t := (r.1.flush lid).used
  match r.2 with
  | some c => (t.modCore lid fun k => { k with phase := none }).opFault lid .s c
  | none => t.advance lid .s

/-- SUA.PHASE: every batch is evaluated and decided; the phase stays in progress until its held notices are released and
its deferred updates applied (R91-R94, R101). -/
def phaseBody (lid : Nat) (op : OpWord) (s : State) : State :=
  match phaseOperandFault s lid op with
  | some c => s.opFault lid .s c
  | none =>
    phaseIssued lid (walkRes (phaseBatch (phaseRun lid op s)) (phaseBlocks s lid (bitsOf op 0 4))
      (phaseBegin (phaseRun lid op s) s))

/-- SUA.PHASE (R91). -/
def suaPhaseOp (lid : Nat) (s : State) : State :=
  s.suaOp lid 0x40 [(0, 13), (112, 2)] fSuaOperand (phaseBody lid)

/-- SUA_PHASE (R91). -/
def execSuaPhase (lid : Nat) (s : State) : Host.Outcome State Fault Refusal :=
  guarded (decide (lid < 2048)) s (suaPhaseOp lid s)

/-- What the releases that a stop holds wait for, once the notices that came before them have been applied: any of their
updates that were deferred (R258). -/
def State.inboxApplied (lid : Nat) (s : State) : State :=
  let d := !(s.core lid).deferred.isEmpty
  s.modStop lid fun t => { t with releases := t.releases.map fun h => { h with inbox := false, upd := h.upd || (h.inbox && d) } }

/-- The same, once the deferral buffer has been applied. -/
def State.updatesApplied (lid : Nat) (s : State) : State :=
  s.modStop lid fun t => { t with releases := t.releases.map fun h => { h with upd := false } }

/-- Once the last batch has issued, held notices are applied in inbox order (R92). -/
def heldReleaseOp (lid : Nat) (s : State) : State :=
  match (s.core lid).phase with
  | some p =>
    if s.coreRuns lid && !p.issued then
      (s.modCore lid fun c => { c with phase := some { p with issued := true } }).releaseInbox lid |>.inboxApplied lid
    else s
  | none => s

/-- HELD_NOTICE_RELEASE (R92). -/
def execHeldNoticeRelease (lid : Nat) (s : State) : Host.Outcome State Fault Refusal :=
  guarded (decide (lid < 2048)) s (heldReleaseOp lid s)

/-- Applies the deferral buffer in the order its entries were generated (R93). -/
def State.drainDeferred (lid : Nat) (s : State) : State :=
  let us := (s.core lid).deferred
  let s := s.modCore lid fun c => { c with deferred := [] }
  forAll us (fun u t => ((t.addField lid u.r u.tgt u.w).countConflict lid u.r).setF (cUndeclared lid) 1) s

/-- The phase retires once its updates are applied and its notices are handed to the ring stop (R101). -/
def State.retirePhase (lid : Nat) (s : State) : State :=
  let s := s.flush lid
  if (s.stop lid).outbound.isEmpty then
    ((s.modCore lid fun c => { c with phase := none }).opDone lid .s).presentArrivals lid
  else s.holdFull lid .s

/-- After the last batch is decided, deferred updates are applied and the phase retires (R93, R101). -/
def deferredApplyOp (lid : Nat) (s : State) : State :=
  match (s.core lid).phase with
  | some p => if s.coreRuns lid && p.issued then ((s.drainDeferred lid).updatesApplied lid).retirePhase lid else s
  | none => s

/-- DEFERRED_UPDATE_APPLY (R93). -/
def execDeferredUpdateApply (lid : Nat) (s : State) : Host.Outcome State Fault Refusal :=
  guarded (decide (lid < 2048)) s (deferredApplyOp lid s)

/-- Replicas named by a mask of 16 bits. -/
def maskReplicas (m : Nat) : List Nat := (List.range 16).filter m.testBit

/-- Whether a mask names only replicas of the core. -/
def State.maskOk (s : State) (lid m : Nat) : Bool := (maskReplicas m).all fun r => decide (r < s.replicas lid)

/-! ### β and the anneal curve (R109, R110) -/

/-- Breakpoint `k` of the curve at tile address `a`: sweep and β (R109). -/
def State.breakpoint (s : State) (lid a k : Nat) : Nat × Nat :=
  (s.rdNat lid .tile (a + 8 + 8 * k) 4, s.rdNat lid .tile (a + 12 + 8 * k) 4)

/-- Straight interpolation between two breakpoints, truncated towards the first (R110). -/
def betweenPoints (p q : Nat × Nat) (x : Nat) : Nat :=
  if p.2 ≤ q.2 then p.2 + (q.2 - p.2) * (x - p.1) / (q.1 - p.1) else p.2 - (p.2 - q.2) * (x - p.1) / (q.1 - p.1)

/-- The value of a list of rising breakpoints at `x` (R110). -/
def curveAt : List (Nat × Nat) → Nat → Nat
  | [], _ => 0
  | [p], _ => p.2
  | p :: q :: t, x => if x ≤ p.1 then p.2 else if x < q.1 then betweenPoints p q x else curveAt (q :: t) x

/-- Whether breakpoint sweeps rise strictly (R109). -/
def sweepsRise : List (Nat × Nat) → Bool
  | [] => true
  | [_] => true
  | p :: q :: t => decide (p.1 < q.1) && sweepsRise (q :: t)

/-- Writes β to every replica of a mask. -/
def State.setBetas (lid mask v : Nat) (s : State) : State := forAll (maskReplicas mask) (fun r t => t.setF (cBeta lid r) v) s

/-- SUA.BETA with CURVE 1 (R101, R110); a damaged word of the curve gives its stored bits (log 95). -/
def betaCurve (lid : Nat) (op : OpWord) (s : State) : State :=
  let a := bitsOf op 48 19
  if a % 64 ≠ 0 ∨ 0x80000 < a + 8 then s.opFault lid .s fSuaOperand
  else
    let n := s.rdNat lid .tile a 4
    if n = 0 ∨ 256 < n then s.opFault lid .s fRunCurve
    else if 0x80000 < a + 8 + 8 * n then s.opFault lid .s fSuaOperand
    else
      let pts := (List.range n).map (s.breakpoint lid a)
      let s := s.noteRead lid .tile a (8 + 8 * n)
      if !sweepsRise pts then s.opFault lid .s fRunCurve
      else (s.setBetas lid (bitsOf op 32 16) (curveAt pts (s.getF (cCurve lid)))).retire lid .s

/-- SUA.BETA (R101, R110). -/
def suaBetaOp (lid : Nat) (s : State) : State :=
  s.suaOp lid 0x41 [(0, 67), (112, 1)] fSuaOperand fun op t =>
    if !t.maskOk lid (bitsOf op 32 16) then t.opFault lid .s fSuaOperand
    else if bitOf op 112 then betaCurve lid op t
    else (t.setBetas lid (bitsOf op 32 16) (bitsOf op 0 32)).retire lid .s

/-- SUA_BETA (R110). -/
def execSuaBeta (lid : Nat) (s : State) : Host.Outcome State Fault Refusal :=
  guarded (decide (lid < 2048)) s (suaBetaOp lid s)

/-! ### Clamping (R82-R84) -/

/-- In replica `r`, a clamped unit takes VALUE and its change is walked (R83). The SUA does not rewrite a damaged
state-plane word (R67), so the unit makes no change there (log 92). -/
def clampIn (lid i : Nat) (v : Bool) (r : Nat) (s : State) : Res :=
  if s.unitState lid r i = v || s.laceBad lid (s.stateAt lid r (i / 32)) then (s.noteLace lid (s.stateAt lid r (i / 32)), none)
  else ((s.noteLace lid (s.stateAt lid r (i / 32))).putState lid r i v).flip lid r i v none []

/-- The SUA reads clamp-plane word `w` and writes bit `i` of it, unless it is damaged (R67, R83; log 92). -/
def State.putClamp (lid w i : Nat) (b : Bool) (s : State) : State :=
  let t := s.noteLace lid w
  if s.laceBad lid w then t else t.putLaceBit lid w i b

/-- One clamp record (R82, R83, R84). -/
def clampRecord (lid mask a : Nat) (s : State) : Res :=
  let rec_ := BitVec.ofNat 32 (s.rdNat lid .tile a 4)
  let s := s.noteRead lid .tile a 4
  let i := bitsOf rec_ 17 15
  if s.units lid ≤ i then (s, some fSuaClampIndex)
  else
    let w := s.clampAt lid (i / 32)
    if bitOf rec_ 15 then (s.putClamp lid w (i % 32) false, none)
    else walkRes (clampIn lid i (bitOf rec_ 16)) (maskReplicas mask) (s.putClamp lid w (i % 32) true)

/-- SUA.CLAMP applies a list of records in list order (R82), all of them also where COUNT is above 32,768, for which the
fault table has no entry (log 92). -/
def suaClampOp (lid : Nat) (s : State) : State :=
  s.suaOp lid 0x42 [(0, 51)] fSuaOperand fun op t =>
    let a := bitsOf op 0 19
    let n := bitsOf op 19 16
    let mask := bitsOf op 35 16
    if n = 0 ∨ a % 4 ≠ 0 ∨ 0x80000 < a + 4 * n ∨ !t.maskOk lid mask then t.opFault lid .s fSuaOperand
    else State.suaEnd lid (walkRes (fun k u => clampRecord lid mask (a + 4 * k) u) (List.range n) t)

/-- SUA_CLAMP (R83). -/
def execSuaClamp (lid : Nat) (s : State) : Host.Outcome State Fault Refusal :=
  guarded (decide (lid < 2048)) s (suaClampOp lid s)

/-! ### Snapshots and on-counts (R97, R99) -/

/-- The tile bytes of a state-plane word in a snapshot: packed, or one byte per unit (R97). -/
def snapBytes (expanded : Bool) (v : W32) : List Byte :=
  if expanded then (List.range 32).map fun i => BitVec.ofNat 8 (bitOf v i).toNat else natLe 4 v.toNat

/-- Two state-plane words of a snapshot; a damaged word poisons every tile word it would fill (R97). -/
def snapPair (lid r first dest : Nat) (expanded : Bool) (k : Nat) (s : State) : State :=
  let w := s.stateAt lid r (first / 32 + 2 * k)
  let w' := s.stateAt lid r (first / 32 + 2 * k + 1)
  let lo := snapBytes expanded (s.lace lid w)
  let hi := snapBytes expanded (s.lace lid w')
  let b := s.laceBad lid w
  let b' := s.laceBad lid w'
  let s := (s.noteLace lid w).noteLace lid w'
  let put := fun (bad : Bool) a bs (t : State) => if bad then t.wrPoison lid .tile a bs else t.wr lid .tile a bs
  if expanded then put b' (dest + 64 * k + 32) hi (put b (dest + 64 * k) lo s) else put (b || b') (dest + 8 * k) (lo ++ hi) s

/-- SUA.SNAP copies one replica's state plane to tile memory (R97). -/
def suaSnapOp (lid : Nat) (s : State) : State :=
  s.suaOp lid 0x43 [(0, 54), (112, 1)] fSuaOperand fun op t =>
    let dest := bitsOf op 0 19
    let first := bitsOf op 19 15
    let n := bitsOf op 34 16
    let r := bitsOf op 50 4
    let len := if bitOf op 112 then n else n / 8
    if dest % 64 ≠ 0 ∨ first % 64 ≠ 0 ∨ n % 64 ≠ 0 ∨ n < 64 ∨ 32768 < n ∨ t.unitsUp lid < first + n ∨
        0x80000 < dest + len ∨ t.replicas lid ≤ r then t.opFault lid .s fSuaOperand
    else (forAll (List.range (n / 64)) (snapPair lid r first dest (bitOf op 112)) t).retire lid .s

/-- SUA_SNAP (R97). -/
def execSuaSnap (lid : Nat) (s : State) : Host.Outcome State Fault Refusal :=
  guarded (decide (lid < 2048)) s (suaSnapOp lid s)

/-- SUA.CLRCOUNT zeroes one replica's on-counts by full-word writes (R99). -/
def suaClrcountOp (lid : Nat) (s : State) : State :=
  s.suaOp lid 0x44 [(50, 4)] fSuaOperand fun op t =>
    let r := bitsOf op 50 4
    if t.replicas lid ≤ r then t.opFault lid .s fSuaOperand
    else (forAll (List.range (t.unitsUp lid / 2)) (fun k u => u.setLace lid (u.onAt lid r k) 0) t).retire lid .s

/-- SUA_CLRCOUNT (R99). -/
def execSuaClrcount (lid : Nat) (s : State) : Host.Outcome State Fault Refusal :=
  guarded (decide (lid < 2048)) s (suaClrcountOp lid s)

end Sys2Proof.Machine
end

