-- ==== Sys2Proof/Machine/Run.lean ====
section
/-!
DEFINITION. The run ops of the S queue: sweeps, results with their deadline and seed sampling, restarts (R103-R113,
R119, R120, R203).
-/
namespace Sys2Proof.Machine

/-- SUA.SWEEP adds 1 to SWEEP and CURVE, or raises RUN_SWEEP at 65,535 (R105, R106). -/
def suaSweepOp (lid : Nat) (s : State) : State :=
  s.suaOp lid 0x45 [] fRunOperand fun _ t =>
    let w := t.getF (cSweep lid)
    if w = 65535 then t.opFault lid .s fRunSweep
    else (t.setF (cSweep lid) (w + 1) |>.setF (cCurve lid) (t.getF (cCurve lid) + 1)).retire lid .s

/-- SUA_SWEEP (R105). -/
def execSuaSweep (lid : Nat) (s : State) : Host.Outcome State Fault Refusal :=
  guarded (decide (lid < 2048)) s (suaSweepOp lid s)

/-- The next seed as the host or the DRBG left it (R203). -/
def State.nextSeed (s : State) (p : Nat) : BitVec 96 := BitVec.ofNat 96 (s.getF (pnLo p) + 2 ^ 64 * s.getF (pnHi p))

/-- A bridge hands a message of the root to both of its die's taps (R255). -/
def State.bothTaps (d : Nat) (m : SyncMsg) (s : State) : State :=
  s.modDie d fun x => { x with tap0 := { x.tap0 with rel := x.tap0.rel ++ [m] }, tap1 := { x.tap1 with rel := x.tap1.rel ++ [m] } }

/-- The root sends a message to every bridge of a partition (R255, R257). -/
def State.broadcast (p : Nat) (m : SyncMsg) (s : State) : State := forAll (s.partDies p) (fun d t => t.bothTaps d m) s

/-- At the leader's SUA.RESULT the deadline is captured (R120) and PENDING sampled: a pending seed is staged in two
halves (R203, R257). -/
def State.leaderResult (p : Nat) (s : State) : State :=
  let s := s.modPart p fun t => { t with dlRunning := true, dlTicks := s.getF (pdTicks p), dlMin := s.getF (pdMin p), elapsed := 0 }
  let s := s.setF (pdFired p) 0
  if s.onF (pnPending p) then
    let seed := s.nextSeed p
    (s.modPart p fun t => { t with staged := true, stagedSeed := seed, stagedDrbg := t.nextDrbg })
      |>.broadcast p (.stage p false (seed.extractLsb' 0 48)) |>.broadcast p (.stage p true (seed.extractLsb' 48 48))
  else s

/-- SUA.RESULT adds 1 to RESULT and zeroes SWEEP, CURVE and RESTART (R105); RESULT wraps at 2⁴⁸ (log 94). No staging slot
of the new result is filled yet (R126). -/
def suaResultOp (lid : Nat) (s : State) : State :=
  s.suaOp lid 0x46 [] fRunOperand fun _ t =>
    let t := t.modCore lid fun c => { c with staged := [] }
    let t := t.setF (cResult lid) (t.getF (cResult lid) + 1) |>.setF (cSweep lid) 0 |>.setF (cCurve lid) 0
      |>.setF (cRestart lid) 0
    let t := match t.owner lid with
      | some p => if t.leader p == some lid then t.leaderResult p else t
      | none => t
    t.retire lid .s

/-- SUA_RESULT (R105). -/
def execSuaResult (lid : Nat) (s : State) : Host.Outcome State Fault Refusal :=
  guarded (decide (lid < 2048)) s (suaResultOp lid s)

/-- ZERO clears the states of unclamped units of one state-plane word (R111): it reads the word and its clamp word and
writes the whole word, which clears a poison of it (R67; log 95). -/
def zeroWord (lid r k : Nat) (s : State) : State :=
  let w := s.stateAt lid r k
  let c := s.clampAt lid k
  let v := s.lace lid w &&& s.lace lid c
  ((s.noteLace lid c).noteLace lid w).setLace lid w v

/-- Sets the hot member of group `g` unless a member is clamped (R111). -/
def hotGroup (lid r g : Nat) (s : State) : Res :=
  let a := wa (s.getF (cGroupBase lid) + g)
  if s.laceBad lid a then (s.noteLace lid a, some fLacePoison)
  else
    let d := s.groupDesc lid g
    let hot := bitsOf (s.lace lid a) 5 6
    let s := s.noteLace lid a
    if (rangeFrom d.1 (d.1 + d.2)).any fun i => s.clampBit lid i then (s, none)
    else (s.putState lid r (d.1 + hot) true, none)

/-- Sets one field word to its bias (R111); a damaged bias word gives its stored bits (log 95). -/
def fieldToBias (lid r i : Nat) (s : State) : State :=
  if s.modelIndex lid i = 0xFFFFFFFF then s else s.setLace lid (s.fieldAt lid r i) (BitVec.ofInt 32 (s.bias lid i))

/-- The reset step for one replica (R111). -/
def resetReplica (lid : Nat) (zero : Bool) (r : Nat) (s : State) : Res :=
  let u := s.units lid
  let r1 : Res := if zero then
      walkRes (hotGroup lid r) (List.range (s.getF (cGroupCount lid))) (forAll (List.range (s.unitsUp lid / 32)) (zeroWord lid r) s)
    else (s, none)
  Res.on r1 fun t => (forAll (List.range u) (fieldToBias lid r)
    (t.noteRead lid .tile (s.getF (cTables lid)) (8 * s.unitsUp lid)), none)

/-- The reset step of SUA.RESTART (R105, R111); RESTART wraps at 2¹⁶ (log 94). -/
def restartReset (lid : Nat) (op : OpWord) (s : State) : State :=
  let s := if bitOf op 114 then (s.setF (cRestart lid) (s.getF (cRestart lid) + 1)).setF (cCurve lid) 0 else s
  State.suaEnd lid (walkRes (resetReplica lid (bitOf op 113)) (maskReplicas (bitsOf op 0 16)) s)

/-- The replay step for one replica: every unit in state 1 is flipped, ascending (R112); under a damaged state-plane word
the stored bits decide (log 95). -/
def replayReplica (lid r : Nat) (s : State) : Res :=
  let ws := (List.range (s.unitsUp lid / 32)).map (s.stateAt lid r)
  let s := forAll ws (fun w t => t.noteLace lid w) s
  walkRes (fun i t => t.flip lid r i true none []) ((List.range (s.unitsUp lid)).filter fun i => s.unitState lid r i) s

/-- A replay that has been walked retires once every notice is handed to the ring stop (R105). -/
def State.retireReplay (lid : Nat) (s : State) : State :=
  let s := s.flush lid
  if (s.stop lid).outbound.isEmpty then (s.modCore lid fun c => { c with replayed := false }).retire lid .s
  else (s.modCore lid fun c => { c with replayed := true }).holdFull lid .s

/-- The replay step of SUA.RESTART (R105, R112): it is walked once, and stands at the head until it retires. -/
def restartReplay (lid : Nat) (op : OpWord) (s : State) : State :=
  if (s.core lid).replayed then s.retireReplay lid
  else
    let r := walkRes (replayReplica lid) (maskReplicas (bitsOf op 0 16)) s
    match r.2 with
    | none => r.1.retireReplay lid
    | some c => (r.1.flush lid).opFault lid .s c

/-- Issues SUA.RESTART with STEP equal to `step` (R105, R131). -/
def restartOp (lid : Nat) (step : Bool) (f : OpWord → State → State) (s : State) : State :=
  s.issueOp lid .s (fun op => opOpcode op == 0x47 && bitOf op 112 == step) fun op t =>
    if (t.core lid).phase.isSome then t
    else if opReserved [(0, 16), (112, 3)] op || (step && (bitOf op 113 || bitOf op 114)) || !t.maskOk lid (bitsOf op 0 16)
    then t.opFault lid .s fRunOperand
    else f op t

/-- SUA.RESTART, STEP 0 (R111). -/
def restartResetOp (lid : Nat) (s : State) : State := restartOp lid false (restartReset lid) s

/-- SUA_RESTART_RESET (R111). -/
def execSuaRestartReset (lid : Nat) (s : State) : Host.Outcome State Fault Refusal :=
  guarded (decide (lid < 2048)) s (restartResetOp lid s)

/-- SUA.RESTART, STEP 1 (R112). -/
def restartReplayOp (lid : Nat) (s : State) : State := restartOp lid true (restartReplay lid) s

/-- SUA_RESTART_REPLAY (R112). -/
def execSuaRestartReplay (lid : Nat) (s : State) : Host.Outcome State Fault Refusal :=
  guarded (decide (lid < 2048)) s (restartReplayOp lid s)

end Sys2Proof.Machine
end

