-- ==== Sys2Proof/Machine/Barrier.lean ====
section
/-!
DEFINITION. Launches on their way to a partition, pause points and the beginning of holds, barriers: the die combiner,
the root, the release at the stops, seed staging, and barriers that span packages (R120, R203, R231, R253-R258,
R273-R276, R384).
-/
namespace Sys2Proof.Machine

/-! ### Launches (R231, R293, R342) -/

/-- A launch at one core: the SET of R423 first, then the forwarded ADD (R231). -/
def launchCore (l : Launch) (ctr lid : Nat) (s : State) : State :=
  let s := match l.stale with
    | some (c, v) => s.applyCounter lid c v true
    | none => s
  s.hostBump lid ctr l.n (0x00100000 + 8 * l.h)

/-- A forwarded launch ADD reaches every core of its partition; during a reset the bridges discard it (R231, R266). -/
def State.launchNow (l : Launch) (s : State) : State :=
  let p := s.getF (hcPart l.h)
  if s.getF (ppState p) = 3 then s.incF gSprueDiscards (s.partDies p).length
  else forAll (s.partCores p) (launchCore l (s.getF (hcCtr l.h))) s

/-- E0 forwards a launch: a held or gated partition's bridges buffer it (R273, R293, R479), an exact-timing one takes it
at the next frame boundary (R342). TOTAL and the partition's launches count it (R231, R293). -/
def State.forwardLaunch (l : Launch) (s : State) : State :=
  let p := s.getF (hcPart l.h)
  let s := s.setF (hcTotal l.h) ((s.getF (hcTotal l.h) + l.n) % 65536)
  let s := s.modPart p fun t => { t with forwarded := t.forwarded + l.n }
  if (s.part p).hold.isSome || (s.part p).gated then s.modPart p fun t => { t with buffered := t.buffered ++ [l] }
  else if s.exact then s.modPart p fun t => { t with framed := t.framed ++ [l] }
  else s.launchNow l

/-- Launches that the bridges buffered go on once the clocks run again (R293, R480). -/
def State.releaseBuffered (p : Nat) (s : State) : State :=
  let l := (s.part p).buffered
  let s := s.modPart p fun t => { t with buffered := [] }
  if s.exact then s.modPart p fun t => { t with framed := t.framed ++ l } else forAll l State.launchNow s

/-- The launches that wait for a frame boundary are applied in every partition whose clocks run (R342). -/
def frameBoundaryOp (s : State) : State :=
  forAll (List.range 8) (fun p t =>
    if t.clocked p then
      let l := (t.part p).framed
      forAll l State.launchNow (t.modPart p fun q => { q with framed := [] })
    else t) s

/-- FRAME_BOUNDARY (R342). -/
def execFrameBoundary (s : State) : Host.Outcome State Fault Refusal := .next (frameBoundaryOp s)

/-! ### Releases -/

/-- Whether a barrier spans packages (R267). -/
def State.spans (s : State) (bid : Nat) : Bool := s.onF (rbSpan bid)

/-- The root installs the staged seed in its registers (R203). -/
def State.installSeed (p : Nat) (s : State) : State :=
  let t := s.part p
  if t.staged then
    (s.setF (psLo p) (bitsOf t.stagedSeed 0 64) |>.setF (psHi p) (bitsOf t.stagedSeed 64 32)
      |>.setF (psFresh p) t.stagedDrbg.toNat |>.setF (pnPending p) 0).modPart p fun t =>
        { t with staged := false, stagedDrbg := false, nextDrbg := false }
  else s

/-- The root sends a release to every bridge of the partition (R255). In exact-timing mode, unless the barrier spans
packages, EXACT is 1 and TARGET is the completion cycle plus 229, modulo 4,096 (R256): the root's count of core cycles is
free (log 4). -/
def State.sendRelease (p : Nat) (r : Release) (s : State) : State :=
  let s := if r.install then s.installSeed p else s
  let s := if r.dlset then s.setF (pdFired p) 1 else s
  let exact := s.exact && !s.spans r.bid
  let target := if exact then (s.draw.toNat + 229) % 4096 else 0
  (if exact then s.used else s).broadcast p (.release r.bid target exact r.dlset r.dlctr r.install)

/-! ### Holds begin (R273-R276, R292) -/

/-- The pause table of a partition, if its pattern has one (R312). -/
def State.pauseTbl (s : State) (p : Nat) : Option PauseTbl := (s.pat.pauses.find? fun e => e.1 == p).map (·.2)

/-- Whether a bit of a pause table's mask is set for partition `p`. -/
def State.pauseBit (s : State) (p bid : Nat) (f : PauseTbl → BitVec 64) : Bool :=
  match s.pauseTbl p with
  | some t => bitOf (f t) bid
  | none => false

/-- The pause request of partition `p` apart from region warnings and refresh debt: a sensor at T_PAUSE or above, the
1 ms average above the effective cap, a stack above 105 °C (R343, R476). -/
def State.wantsPause (s : State) (p : Nat) : Bool :=
  (s.partDies p).any (fun d => decide (s.getF wTPause ≤ s.getF (tpMax d))) || decide (s.getF wEffective < s.getF wAvg) ||
    (List.range 6).any fun c => s.getF (bClass c) == 3

/-- What is due at a pause point of partition `p`, if anything (R272, R274, R292, R326, R476). -/
def State.dueHold (s : State) (p bid : Nat) : Hold :=
  let t := s.part p
  let result := s.pauseBit p bid PauseTbl.resultCkpt
  let point := result || (s.pauseBit p bid PauseTbl.sweepCkpt && !s.onF (pkResultOnly p))
  let cmd := if point && s.getF (pkState p) == 1 then t.ckptCmd else 0
  { thermal := s.wantsPause p || t.regionWarn, region := t.regionWarn, point := s.pwr.pointWant.isSome && !s.exact,
    refresh := t.refreshDebt, host := cmd == 2 || cmd == 3, save := cmd == 1 || cmd == 2,
    patch := result && t.patchDue }

/-- Whether a hold has any reason. -/
def Hold.due (h : Hold) : Bool := h.thermal || h.point || h.refresh || h.host || h.save || h.patch

/-- A checkpoint command that takes effect with the hold: a save begins, or a hold without save is held (R292, R297). -/
def State.takeCkpt (p kind : Nat) (s : State) : State :=
  let c := (s.part p).ckptCmd
  let s := s.modPart p fun t => { t with ckptKind := kind }
  if c = 3 then ((s.setF (pkState p) 3 |>.setF (pkStatus p) 1).modPart p fun t => { t with ckptCmd := 0 }).event 11
  else s.setF (pkState p) 2

/-- PWR_STATE.HELD while a hold of the control complex is in progress. -/
def State.noteHeld (s : State) : State :=
  s.setF wHeld ((List.range 8).any fun p => match (s.part p).hold with
    | some h => h.thermal || h.refresh || h.point
    | none => false).toNat

/-- Whether every partition of the armed pattern is held; a gated one counts as held (R345, R474). -/
def State.allHeld (s : State) : Bool :=
  (List.range 8).all fun p => s.getF (ppState p) != 1 || (s.part p).hold.isSome || (s.part p).gated

/-- The operating point that is waited for is taken once every partition is held (R474); never while an exact-timing
pattern is armed (R272). -/
def State.changePoint (s : State) : State :=
  match s.pwr.pointWant with
  | some q =>
    if s.allHeld && !s.exact then
      { (s.setF wPoint q).incF wChanges 1 with pwr := { s.pwr with pointWant := none } }
    else s
  | none => s

/-- Two holds due at one time form one, which lasts until every reason of both is over (R274). -/
def Hold.merge (old h : Hold) : Hold where
  releases := old.releases ++ h.releases
  thermal := old.thermal || h.thermal
  region := old.region || h.region
  point := old.point || h.point
  host := old.host || h.host
  save := old.save || h.save
  patch := old.patch || h.patch
  refresh := old.refresh || h.refresh
  resumeAt := if old.thermal then old.resumeAt else h.resumeAt

/-- A hold begins, or joins the one in progress: the core clocks of the partition stop; what it means for the result in
progress is noted (R273, R274, R276, R278, R362). -/
def State.beginHold (p kind : Nat) (h : Hold) (s : State) : State :=
  let s := s.modPart p fun t =>
    { t with hold := some ((t.hold.getD {}).merge { h with resumeAt := some (s.tick + s.getF wPauseMin) }),
             hadPause := t.hadPause || h.thermal, hadExtra := t.hadExtra || h.refresh,
             hadHold := t.hadHold || h.host || h.save || h.patch }
  let s := if h.thermal then s.incF wPauses 1 else s
  let s := if h.host || h.save then s.takeCkpt p kind else s
  s.noteHeld.changePoint

/-- The release of a completed barrier goes out, or a hold that is due at this pause point keeps it (R273, R312). -/
def State.releaseOrHold (p : Nat) (drain : Bool) (r : Release) (s : State) : State :=
  let result := drain && s.pauseBit p r.bid PauseTbl.resultCkpt
  let s := if result then s.modPart p fun t => { t with resultEnds := t.resultEnds + 1 } else s
  if drain && s.pauseBit p r.bid PauseTbl.pauseBids then
    let h := s.dueHold p r.bid
    let s := s.modPart p fun t => { t with regionWarn := false }
    if h.due then s.beginHold p result.toNat { h with releases := [r] } else s.sendRelease p r
  else s.sendRelease p r

/-! ### The die combiner (R254, R255, R258) -/

/-- Whether the partition of a barrier is being reset (R266). -/
def State.barResetting (s : State) (bid : Nat) : Bool := s.getF (ppState (s.getF (rbPart bid))) == 3

/-- What the combiner of die `d` holds for a barrier: arrivals, and whether all carried DRAIN (R312). -/
def State.combOf (s : State) (d bid : Nat) : Nat × Bool := tblGet (fun _ => (0, true)) (s.die d).comb bid

/-- Sets what the combiner of die `d` holds. -/
def State.setComb (d bid : Nat) (v : Nat × Bool) (s : State) : State :=
  s.modDie d fun t => { t with comb := tblPut (fun _ => (0, true)) bid v t.comb }

/-- Arrivals reach the combiner (R255); those of a partition in reset are discarded (R266). -/
def State.combine (d bid count : Nat) (drain : Bool) (s : State) : State :=
  if s.barResetting bid then s
  else let (c, a) := s.combOf d bid; s.setComb d bid (c + count, a && drain)

/-- Whether the root's arrivals at a barrier all carried DRAIN (R312). -/
def State.rootAll (s : State) (bid : Nat) : Bool := tblGet (fun _ => true) s.net.rootDrain bid

/-- Sets the root's drain bit of a barrier. -/
def State.setRootAll (bid : Nat) (b : Bool) (s : State) : State :=
  { s with net := { s.net with rootDrain := tblPut (fun _ => true) bid b s.net.rootDrain } }

/-- A completed die count goes to the root; a DRAIN count only once every notice that the die exported has been injected
and its flit removed (R255, R258). -/
def State.forwardComb (d bid : Nat) (s : State) : State :=
  let (c, a) := s.combOf d bid
  if 256 ≤ c && (!a || (s.die d).exported == 0) then
    let s := (s.setComb d bid (0, true)).setF (rbCount bid) (s.getF (rbCount bid) + c)
    s.setRootAll bid (s.rootAll bid && a)
  else s

/-- What a tap has taken is handed on: an arrival to the combiner, a counter message out of the die (R254, R255). -/
def State.fromTap (d src : Nat) (m : SyncMsg) (s : State) : State :=
  match m with
  | .arrive bid count drain => s.combine d bid count drain
  | _ => s.routeSync src m

/-- A tap takes the sync message that it meets next, if the command names one; the combiner forwards what is complete
(R254, R255). -/
def dieCombineOp (d : Nat) (meet : Option Pass) (s : State) : State :=
  let s := match meet.bind (s.tapTakes d) with
    | some (src, m, t) => t.fromTap d src m
    | none => s
  forAll (List.range 64) (State.forwardComb d) s

/-- DIE_COMBINE (R255). -/
def execDieCombine (die : Nat) (meet : Option Pass) (s : State) : Host.Outcome State Fault Refusal :=
  guarded (decide (die < 8) && passFits meet) s (dieCombineOp die meet s)

/-! ### The root (R120, R203, R255, R384) -/

/-- Whether the deadline of partition `p` acts at this notice-drain completion (R120). -/
def State.deadlineActs (s : State) (p : Nat) : Bool :=
  let t := s.part p
  s.onF (pdEnable p) && t.dlTicks != 0 && t.dlRunning && decide (t.dlTicks ≤ t.elapsed) &&
    (match s.leader p with
     | some l => decide (t.dlMin ≤ s.getF (cSweep l))
     | none => false) && !s.onF (pdFired p)

/-- The release that partition `p`'s root forms at a completion (R120, R203, R255): deadline and seed act only at a
notice-drain barrier. FIRED is set as the deadline acts. -/
def State.formRelease (s : State) (p bid : Nat) (drain : Bool) : Release :=
  ⟨bid, drain && s.deadlineActs p, s.getF (pdCtr p), drain && (s.part p).staged⟩

/-- A member root takes the home's LRELEASE and distributes a release (R384). -/
def lreleaseOp (bid : Nat) (dlset : Bool) (dlctr : Nat) (install : Bool) (s : State) : State :=
  let p := s.getF (rbPart bid)
  if s.onF (rbValid bid) && s.spans bid && s.getF (ppState p) == 1 then
    let drain := s.rootAll bid
    let s := (s.setRootAll bid true).modPart p fun t => { t with hadSpan := true, hadLink := true }
    s.releaseOrHold p drain ⟨bid, dlset, dlctr, install⟩
  else s

/-- LRELEASE (R384). -/
def execLrelease (bid : Nat) (dlset : Bool) (dlctr : Nat) (install : Bool) (s : State) : Host.Outcome State Fault Refusal :=
  guarded (decide (bid < 64) && decide (dlctr < 64)) s (lreleaseOp bid dlset dlctr install s)

/-- Packages that the home root has recorded at a barrier (R384). -/
def State.sendersOf (s : State) (bid : Nat) : List Nat := tblGet (fun _ => []) s.net.senders bid

/-- Whether the home root's arrivals at a barrier all carried DRAIN. -/
def State.homeAll (s : State) (bid : Nat) : Bool := tblGet (fun _ => true) s.net.homeDrain bid

/-- Sets what the home root records at a barrier. -/
def State.setHome (bid : Nat) (l : List Nat) (all : Bool) (s : State) : State :=
  { s with net := { s.net with senders := tblPut (fun _ => []) bid l s.net.senders,
                               homeDrain := tblPut (fun _ => true) bid all s.net.homeDrain } }

/-- The home root has every arrival: it forms one LRELEASE and sends it to every package it has recorded, itself
included (R384). -/
def State.homeComplete (bid : Nat) (s : State) : State :=
  let p := s.getF (rbPart bid)
  let r := s.formRelease p bid (s.homeAll bid)
  let members := s.sendersOf bid
  let s := (s.setF (lbCount bid) 0).setHome bid [] true
  forAll members (fun q t =>
    if q = t.pkgId then lreleaseOp bid r.dlset r.dlctr r.install t
    else t.linkSendOut (.sync q t.pkgId 0 [.lrelease bid r.dlset r.dlctr r.install])) s

/-- The home root adds a member's arrivals and records its sender; a count past TOTAL raises LINK_BARRIER at the leader
(R384, R391). -/
def larriveOp (bid count spkg : Nat) (drain : Bool) (s : State) : State :=
  let p := s.getF (rbPart bid)
  if s.getF (lbHome bid) == s.pkgId && s.onF (rbValid bid) && !s.barResetting bid then
    let c := s.getF (lbCount bid) + count
    if s.getF (lbTotal bid) = 0 ∨ s.getF (lbTotal bid) < c then
      match s.leader p with
      | some l => s.remoteFault l 0x71
      | none => s
    else
      let s := (s.setF (lbCount bid) c).setHome bid (distinct (s.sendersOf bid ++ [spkg])) (s.homeAll bid && drain)
      if s.getF (lbCount bid) = s.getF (lbTotal bid) then s.homeComplete bid else s
  else s

/-- LARRIVE (R384). -/
def execLarrive (bid count spkg : Nat) (drain : Bool) (s : State) : Host.Outcome State Fault Refusal :=
  guarded (decide (bid < 64) && decide (spkg < 4096)) s (larriveOp bid count spkg drain s)

/-- The member root of a spanning barrier sends its LARRIVE and clears its count; a DRAIN completion waits until every
NOTICES flit sent has been acknowledged (R381, R384). -/
def State.spanComplete (bid : Nat) (s : State) : State :=
  let drain := s.rootAll bid
  if drain && s.net.unackedNotices != 0 then s
  else
    let n := s.getF (rbExpected bid)
    let s := s.setF (rbCount bid) 0
    if s.getF (lbHome bid) = s.pkgId then larriveOp bid n s.pkgId drain s
    else s.linkSendOut (.sync (s.getF (lbHome bid)) s.pkgId 0 [.larrive bid n drain])

/-- The root of a barrier reaches EXPECTED: it clears the count and releases, holds, or reports to the home (R255,
R273, R384). -/
def barrierRootCompleteOp (bid : Nat) (s : State) : State :=
  let p := s.getF (rbPart bid)
  if s.onF (rbValid bid) && s.getF (ppState p) == 1 && s.getF (rbExpected bid) != 0 &&
      decide (s.getF (rbExpected bid) ≤ s.getF (rbCount bid)) then
    if s.spans bid then s.spanComplete bid
    else
      let drain := s.rootAll bid
      let r := s.formRelease p bid drain
      let s := (s.setF (rbCount bid) 0).setRootAll bid true
      let s := if r.dlset then s.setF (pdFired p) 1 else s
      s.releaseOrHold p drain r
  else s

/-- BARRIER_ROOT_COMPLETE (R255). -/
def execBarrierRootComplete (bid : Nat) (s : State) : Host.Outcome State Fault Refusal :=
  guarded (decide (bid < 64)) s (barrierRootCompleteOp bid s)

/-! ### At the stops (R225, R256-R258) -/

/-- A RELEASE is applied to its core as one counter message: the SET of R120 and the install of R203, then RVAL is ADDed
to RCTR, then the waiters are resolved (R218, R225, R256). -/
def State.applyRelease (lid bid : Nat) (dlset : Bool) (dlctr : Nat) (install : Bool) (s : State) : State :=
  let (rctr, rval, _) := tblGet (fun _ => (0, 0, false)) (s.stop lid).barRec bid
  let s := if dlset then s.setF (cCtr lid dlctr) 1 else s
  let s := if install then
      match (s.stop lid).seedLo, (s.stop lid).seedHi with
      | some lo, some hi =>
        let seed : BitVec 96 := hi ++ lo
        (s.setF (cSeedLo lid) (bitsOf seed 0 64)).setF (cSeedHi lid) (bitsOf seed 64 32)
      | _, _ => s
    else s
  let s := s.modStop lid fun t => { t with seedLo := if install then none else t.seedLo,
                                           seedHi := if install then none else t.seedHi,
                                           barRec := tblPut (fun _ => (0, 0, false)) bid (0, 0, false) t.barRec }
  let s := s.setF (cArrived lid) (s.getF (cArrived lid) &&& (2 ^ 64 - 1 - 2 ^ bid))
  let s := if rval = 0 then s else s.remoteAdd lid rctr rval
  if dlset && !(rval != 0 && rctr == dlctr) then s.resolveCtr lid dlctr else s

/-- Whether the barrier of a release was a notice-drain one for this core. -/
def State.drainRec (s : State) (lid bid : Nat) : Bool := (tblGet (fun _ => (0, 0, false)) (s.stop lid).barRec bid).2.2

/-- Whether a notice that the core has accepted, or an update of one, is still to be applied (R258). -/
def State.undrained (s : State) (lid : Nat) : Bool := !(s.core lid).inbox.isEmpty || !(s.core lid).deferred.isEmpty

/-- A message of a sync field has been met in core cycle `t` and travels on. -/
def State.fieldOn (d slot t : Nat) (f : FieldMsg) (s : State) : State :=
  (s.ringTo d t).setSync d slot (some { f with next := t + 1 })

/-- A RELEASE reaches a stop: with EXACT it is held until TARGET; without, it is applied, a drain release once what came
before it has been applied (R256, R258). Counter messages that the stop holds came before it (R257). -/
def meetRelease (lid slot : Nat) (s : State) : State :=
  match s.fieldTurn (dieOf lid) slot with
  | some (f, t) =>
    if !s.atCore lid slot t then s
    else
      match f.msg with
      | .release bid _ exact dlset dlctr install =>
        let on := s.fieldOn (dieOf lid) slot t f
        if exact then on.modStop lid fun x => { x with releases := x.releases ++ [⟨f.msg, false, false⟩] }
        else if !(s.stop lid).ctrQ.isEmpty then s
        else if s.drainRec lid bid && s.undrained lid then
          on.modStop lid fun x =>
            { x with releases := x.releases ++ [⟨f.msg, !(s.core lid).inbox.isEmpty, !(s.core lid).deferred.isEmpty⟩] }
        else on.applyRelease lid bid dlset dlctr install
      | _ => s
  | none => s

/-- Whether a held release may be applied: TARGET is the command's word, a drain release without EXACT waits for what
came before it (R256, R258). -/
def HeldRelease.ready (h : HeldRelease) : Bool :=
  match h.msg with
  | .release _ _ exact _ _ _ => exact || (!h.inbox && !h.upd)
  | _ => false

/-- A stop applies a release that it holds: with EXACT at TARGET, where `late` says that a notice accepted before it was
still to be applied; a drain release that cannot be applied then raises RING_LATE (R258). -/
def applyHeld (lid : Nat) (late : Bool) (s : State) : State :=
  match takeFirst HeldRelease.ready (s.stop lid).releases with
  | some (h, rest) =>
    if !s.ringsRun (dieOf lid) then s
    else
      match h.msg with
      | .release bid _ exact dlset dlctr install =>
        let took := s.modStop lid fun x => { x with releases := rest }
        if exact && s.drainRec lid bid && (s.undrained lid || late) then took.remoteFault lid 0x62
        else took.applyRelease lid bid dlset dlctr install
      | _ => s
  | none => s

/-- A RELEASE meets a stop, or the stop applies one that it holds (R256, R258). -/
def barrierReleaseApplyOp (lid : Nat) (come : ReleaseCome) (s : State) : State :=
  match come with
  | .passing slot => meetRelease lid slot s
  | .held late => applyHeld lid late s

/-- Whether a release comes in a slot that a ring can have. -/
def releaseComeOk : ReleaseCome → Bool
  | .passing slot => decide (slot < 288)
  | .held _ => true

/-- BARRIER_RELEASE_APPLY (R256). -/
def execBarrierReleaseApply (lid : Nat) (come : ReleaseCome) (s : State) : Host.Outcome State Fault Refusal :=
  guarded (decide (lid < 2048) && releaseComeOk come) s (barrierReleaseApplyOp lid come s)

/-- A STAGE half meets a stop, which writes it to its seed staging register (R257). -/
def seedStageOp (lid slot : Nat) (s : State) : State :=
  match s.fieldTurn (dieOf lid) slot with
  | some (f, t) =>
    if !s.atCore lid slot t then s
    else
      match f.msg with
      | .stage _ half seed =>
        (s.fieldOn (dieOf lid) slot t f).modStop lid fun x =>
          { x with seedLo := if half then x.seedLo else some seed, seedHi := if half then some seed else x.seedHi }
      | _ => s
  | none => s

/-- SEED_STAGE (R257). -/
def execSeedStage (meet : StopField) (s : State) : Host.Outcome State Fault Refusal :=
  guarded (decide (meet.lid < 2048) && decide (meet.slot < 288)) s (seedStageOp meet.lid meet.slot s)

end Sys2Proof.Machine
end

