-- ==== Sys2Proof/Machine/Access.lean ====
section
/-!
DEFINITION. BAR0 accesses by field type (R12-R14, R399-R401): the fields an access acts on, the value it reads, the
RC fields it clears, the RW and W1C fields it writes.
-/
namespace Sys2Proof.Machine

/-- The fields of the register at the 32-bit word at `a` that an access to that word alone acts on: those that lie
wholly within it (R400). -/
def wordFields (m : List RegDesc) (a : Nat) : List (Fld × FTy) :=
  match findReg m a with
  | none => []
  | some d =>
    let h := if d.size = 8 then 8 * (d.within a / 4 * 4) else 0
    (d.fields.filter fun f => decide (h ≤ f.lo) && decide (f.lo + f.w ≤ h + 32)).map fun f => (⟨a - d.within a, f.lo, f.w⟩, f.ty)

/-- The fields that an access of `size` bytes at `o` acts on, with their types (R400). -/
def accessFields (m : List RegDesc) (o size : Nat) : List (Fld × FTy) :=
  if size = 8 then
    match findReg m o with
    | some d => if d.size = 8 then d.fields.map fun f => (⟨o, f.lo, f.w⟩, f.ty) else wordFields m o ++ wordFields m (o + 4)
    | none => wordFields m (o + 4)
  else wordFields m o

/-- Whether any word of the access is mapped (R400). -/
def accessMapped (m : List RegDesc) (o size : Nat) : Bool :=
  (findReg m o).isSome || (decide (size = 8) && (findReg m (o + 4)).isSome)

/-- Whether size and alignment are ones BAR0 accepts (R400). -/
def accessSized (o size : Nat) : Bool :=
  (decide (size = 4) && decide (o % 4 = 0)) || (decide (size = 8) && decide (o % 8 = 0))

/-- The bits of the 32-bit word at `a` that are fields: reserved bits take no value and read 0 (R14), nor do WO fields
read anything but 0 (R13). -/
def regMask (a : Nat) : W32 :=
  match findReg regMap a with
  | none => 0
  | some d =>
    let h := if d.size = 8 then 8 * (d.within a / 4 * 4) else 0
    d.fields.foldl (fun m f => if f.ty = .wo then m else m ||| BitVec.ofNat 32 ((2 ^ f.w - 1) * 2 ^ f.lo / 2 ^ h)) 0

/-- The block of SYS_FFUSE words that reads fuses. -/
def State.fuseWord (s : State) (n : Nat) : W32 := s.fuses.field.getD n 0

/-- PAT_KEYS as the fuses hold it: owner slots enrolled and revoked, vendor slots revoked (R315, R317). -/
def State.keysWord (s : State) : W32 :=
  BitVec.ofNat 32 (s.fuses.ownerEnrolled.toNat + 16 * s.fuses.ownerRevoked.toNat + 256 * s.fuses.vendorRevoked.toNat)

/-- CORE_INFO of a core (R399). -/
def State.coreInfo (s : State) (lid : Nat) : W32 :=
  match s.owner lid with
  | some p => BitVec.ofNat 32 (lid + 2 ^ 11 * p + 2 ^ 14 * (decide (s.getF (ppState p) = 1)).toNat)
  | none => 0

/-- CORE_VEC_PSB_t: the entry clamped to s64 (R188). -/
def State.psbValue (s : State) (lid t : Nat) : W64 :=
  BitVec.ofInt 64 (satS 64 (tblGet (fun _ => 0#96) (s.core lid).psb t).toInt)

/-- A 32-bit word of a core page; of a die that belongs to no partition it reads its reset value (R399). -/
def State.readCoreWord (s : State) (a : Nat) : W32 :=
  let lid := (a - corePage 0) / 0x1000
  let o := a % 0x1000
  if o = 0 then s.coreInfo lid
  else if (s.owner lid).isNone then resetWord (a / 4)
  else if 0x700 ≤ o ∧ o < 0x900 then
    let v := s.psbValue lid ((o - 0x700) / 8)
    if o % 8 = 0 then v.extractLsb' 0 32 else v.extractLsb' 32 32
  else s.regW (a / 4) &&& regMask a

/-- What the 32-bit word at `a` reads, without side effects: 0 where nothing is mapped (R400). -/
def State.readWord (s : State) (a : Nat) : W32 :=
  if (findReg regMap a).isNone then 0
  else if corePage 0 ≤ a ∧ a < corePage 2048 then s.readCoreWord a
  else if a = 0x180 then
    (s.regW (a / 4) &&& 2#32) ||| BitVec.ofNat 32 (s.flash.fullNext.toNat + 2 ^ 16 * (s.flash.fullDays % 2 ^ 16))
  else if a = 0x184 then BitVec.ofNat 32 s.flash.days
  else if 0x400 ≤ a ∧ a < 0x500 then s.fuseWord ((a - 0x400) / 4)
  else if a = 0x00200300 then s.keysWord
  else if a = 0x00400020 then s.ent.fifo.headD 0
  else if a = 0x00400024 then BitVec.ofNat 32 (!s.ent.fifo.isEmpty).toNat
  else if 0x00140000 ≤ a ∧ a < 0x00180000 ∧ a % 0x400 = 0 then
    BitVec.ofNat 32 (s.getF (hcValue ((a - 0x00140000) / 0x400)))
  else if a = 0x04000004 then
    BitVec.ofNat 32 (if s.onF mActive then ceilDiv (s.mon.unlockEnd - s.tick) 50000000 else 0)
  else if 0x10000 ≤ a ∧ a < 0x20000 then
    BitVec.ofNat 32 (leNat (s.pwr.recBytes.load (s.getF sRecPage * 0x10000 + (a - 0x10000)) 4))
  else s.regW (a / 4) &&& regMask a

/-- The value that a read of `size` bytes at `o` returns. -/
def State.readVal (s : State) (o size : Nat) : W64 :=
  if size = 8 then s.readWord (o + 4) ++ s.readWord o else (0#32) ++ s.readWord o

/-- Blocks that do not respond while LIMITED is 1: all but SYS, PWR, ERR and SEC, core pages included (R402). -/
def withheld (o : Nat) : Bool :=
  (decide (0x100000 ≤ o) && decide (o < 0x800000)) || (decide (corePage 0 ≤ o) && decide (o < corePage 2048))

/-- A host access to a block that LIMITED withholds is ignored and counted (R402, R411); any other acts. -/
def State.hostAct (write : Bool) (o : Nat) (f : State → State) (s : State) : State :=
  if s.onF sLimited && withheld o then s.ignored 0x03 false write o else f s

/-- The management interfaces act while the always-on domain is out of reset (R513). -/
def State.managed (f : State → State) (s : State) : State := if s.pwr.aon then f s else s

/-- Clears the RC fields among those accessed (R13, R401). -/
def State.clearRc (fs : List (Fld × FTy)) (s : State) : State :=
  forAll fs (fun f t => if f.2 = .rc then t.setF f.1 0 else t) s

/-- The part of a written value that falls on a field. -/
def writtenBits (o : Nat) (v : W64) (f : Fld) : Nat := bitsOf v (8 * f.off + f.lo - 8 * o) f.w

/-- Writes RW and W1C fields by type; RO, WO and RC fields take nothing here (R13). -/
def State.plainWrite (fs : List (Fld × FTy)) (o : Nat) (v : W64) (s : State) : State :=
  forAll fs (fun f t =>
    match f.2 with
    | .rw => t.setF f.1 (writtenBits o v f.1)
    | .w1c => t.setF f.1 (t.getF f.1 - (t.getF f.1 &&& writtenBits o v f.1))
    | _ => t) s

end Sys2Proof.Machine
end

