-- ==== Sys2Proof/Machine/Crc.lean ====
section
/-!
DEFINITION. The check-value units: input blocks and the launch check, output records and the alive
stamp, contexts (R414-R430), and launches as the host adds them (R231).
-/
namespace Sys2Proof.Machine

/-! ### Units, windows, slots (R414-R419) -/

/-- Bytes of a slot. -/
def State.slotBytes (s : State) (u : Nat) : Nat := s.getF (uSlotBytes u)

/-- Whether an enabled unit of a direction covers an HBM address. -/
def State.unitCovers (s : State) (dir : Nat) (a u : Nat) : Bool :=
  s.onF (uEn u) && s.getF (uDir u) == dir && decide (s.getF (uBase u) ≤ a) &&
    decide (a < s.getF (uBase u) + (s.getF (uSlots u) + 1) * s.slotBytes u)

/-- The unit that sees a write: the lowest-numbered enabled one of the write's direction (R414). -/
def State.unitFor (s : State) (dir a : Nat) : Option Nat := (List.range 8).find? (s.unitCovers dir a)

/-- Slot and offset within it of an address in a unit's window. -/
def State.slotOf (s : State) (u a : Nat) : Nat × Nat :=
  ((a - s.getF (uBase u)) / s.slotBytes u, (a - s.getF (uBase u)) % s.slotBytes u)

/-- RUNNING of a slot as a word. -/
def State.running64 (s : State) (u k : Nat) : W64 := BitVec.ofNat 64 (s.getF (uRunning u k))

/-- A slot returns to EMPTY. -/
def State.emptySlot (u k : Nat) (s : State) : State :=
  (s.setF (uRunning u k) 0 |>.setF (uFilled u k) 0 |>.setF (uSlotState u k) 0 |>.setF (uDamaged u k) 0).modUnit u fun t =>
    { t with records := t.records.filter (fun e => e.1 != k), early := t.early.filter (fun e => e.1 != k) }

/-- POLY of a unit. -/
def State.unitPoly (s : State) (u : Nat) : W64 := BitVec.ofNat 64 (s.getF (uPoly u))

/-- RUNNING of a fill that begins: INIT through `n` zero bytes (R419). -/
def State.startRunning (s : State) (u n : Nat) : W64 :=
  let w := s.getF (uWidth u)
  crcZeros w (s.unitPoly u) n (BitVec.ofNat 64 (s.getF (uInit u)) &&& crcMask w)

/-- What the bytes `bs` at offset `o` of `n` covered bytes contribute to RUNNING (R416, R419). -/
def State.contribution (s : State) (u n o : Nat) (bs : List Byte) : W64 :=
  let w := s.getF (uWidth u)
  let d := bs.take (n - o)
  crcZeros w (s.unitPoly u) (n - o - d.length) (crcReg w (s.unitPoly u) (s.onF (uRefIn u)) 0 d)

/-- A unit counts one 64-byte unit of a block of `total` units whose first `n` bytes the CRC covers (R416, R417, R419,
R421). -/
def State.countUnit (u k o : Nat) (bs : List Byte) (bad : Bool) (n total : Nat) (s : State) : State :=
  let s := if s.getF (uSlotState u k) = 0 then s.setF (uRunning u k) (s.startRunning u n).toNat else s
  let s := s.setF (uRunning u k) (s.running64 u k ^^^ s.contribution u n o bs).toNat
  let s := if bad then s.setF (uDamaged u k) 1 else s
  let f := s.getF (uFilled u k) + 1
  s.setF (uFilled u k) f |>.setF (uSlotState u k) (if f < total then 1 else 2)

/-! ### Input units: the launch check (R420-R424) -/

/-- Status codes of R422. -/
def stGood : Nat := 0

/-- BLOCK_BYTES. -/
def State.blockBytes (s : State) (u : Nat) : Nat := s.getF (uBlockBytes u)

/-- HBM address of the block in a slot. -/
def State.slotBase (s : State) (u k : Nat) : Nat := s.getF (uBase u) + k * s.slotBytes u

/-- Whether a complete block's check value differs from what RUNNING gives (R420). -/
def State.mismatch (s : State) (u k : Nat) : Bool :=
  let v := crcFinal (s.getF (uWidth u)) (s.onF (uRefOut u)) (BitVec.ofNat 64 (s.getF (uXor u))) (s.running64 u k)
  leNat (s.hbm.load (s.slotBase u k + s.blockBytes u - 8) 8) != v.toNat

/-- A slot that becomes COMPLETE: the unit evaluates the CRC, and has the alive counter that passed (R420, R421; log 112). -/
def State.evaluate (u k : Nat) (s : State) : State :=
  let alive := leNat (s.hbm.load (s.slotBase u k + s.getF (uAliveOff u)) 2)
  let x := (s.mismatch u k, alive)
  s.modUnit u fun t => { t with seen := tblPut (fun _ => (false, 0)) k x t.seen }

/-- What a unit made of the block that the next launch checks: whether its check value differs, and its alive counter. -/
def State.seenBlock (s : State) (u : Nat) : Bool × Nat := tblGet (fun _ => (false, 0)) (s.unit u).seen (s.getF (uNextSlot u))

/-- The block's alive counter. -/
def State.blockAlive (s : State) (u : Nat) : Nat := (s.seenBlock u).2

/-- The launch check (R422). -/
def State.blockStatus (s : State) (u : Nat) : Nat :=
  let k := s.getF (uNextSlot u)
  let next := s.getF (uNext u)
  if s.getF (uSlotState u k) ≠ 2 then 4
  else if s.onF (uDamaged u k) then 5
  else if s.onF (uCrcEn u) && (s.seenBlock u).1 then 3
  else if s.onF (uAliveEn u) && s.blockAlive u == (next + 65535) % 65536 then 1
  else if s.onF (uAliveEn u) && s.blockAlive u != next then 2
  else 0

/-- A launch checks the slot NEXT_SLOT: RESULT, LAST, BLOCKS, and STALE for a block that is not GOOD (R422, R423). -/
def State.checkBlock (u : Nat) (s : State) : State × Nat :=
  let k := s.getF (uNextSlot u)
  let st := s.blockStatus u
  let s := (s.setF (uResult u k) st).incF (uBlocks u) 1
  let s := if st ≤ 2 then s.setF (uLast u) (s.blockAlive u) else s
  (if st = 0 then s else (s.incF (uStale u) 1).event 12, st)

/-- A launch of a unit is forwarded (R423). -/
def State.forwardBlock (u st : Nat) (s : State) : State :=
  let stale := if s.onF (uStaleSet u) then some (s.getF (uStaleCtr u), if st = 0 then 0 else 1) else none
  let next := if st ≤ 2 then s.blockAlive u + 1 else s.getF (uNext u) + 1
  let k := s.getF (uNextSlot u)
  (s.forwardLaunch ⟨s.getF (uHc u), 1, stale⟩).setF (uNext u) (next % 65536) |>.emptySlot u k
    |>.setF (uNextSlot u) ((k + 1) % (s.getF (uSlots u) + 1))

/-- The partition that a unit's launches go to. -/
def State.unitPart (s : State) (u : Nat) : Nat := s.getF (hcPart (s.getF (uHc u)))

/-- Launches in hand are checked in order and forwarded, until one is held (R423, R424). -/
def State.runLaunches (u : Nat) : Nat → State → State
  | 0, s => s
  | n + 1, s =>
    if s.getF (uHeld u) = 0 then s
    else
      let open_ := s.getF (uSlotState u (s.getF (uNextSlot u))) != 2
      let (s, st) := s.checkBlock u
      if st ≠ 0 ∧ s.onF (uHold u) then s.modUnit u fun t => { t with heldOpen := open_ }
      else State.runLaunches u n ((s.forwardBlock u st).setF (uHeld u) (s.getF (uHeld u) - 1))

/-- `runLaunches` over all of them; a partition in reset leaves them held (R424). -/
def State.runHeld (u : Nat) (s : State) : State :=
  if s.getF (ppState (s.unitPart u)) = 3 then s else State.runLaunches u (s.getF (uHeld u)) s

/-- The partition's reset completes: the held launch is forwarded as R423 states for the status of its block, and later ones
are checked in order (R424). -/
def State.forwardHeld (u : Nat) (s : State) : State :=
  if s.getF (uHeld u) = 0 then s
  else
    let st := s.blockStatus u
    (((s.setF (uResult u (s.getF (uNextSlot u))) st).forwardBlock u st).setF (uHeld u) (s.getF (uHeld u) - 1)).runHeld u

/-- A host ADD of n to a launch counter with an input unit: n single launches, behind those held (R422, R424). -/
def State.unitLaunches (u n : Nat) (s : State) : State :=
  let held := s.getF (uHeld u)
  let s := s.setF (uHeld u) (satAdd 16 held n)
  if held = 0 then State.runLaunches u (s.getF (uHeld u)) s else s

/-- The input unit bound to a launch counter (R422). -/
def State.inputUnit (s : State) (h : Nat) : Option Nat :=
  (List.range 8).find? fun u => s.onF (uEn u) && !s.onF (uDir u) && s.getF (uHc u) == h

/-- A host ADD to a launch counter (R231, R422). -/
def State.hostLaunch (h n : Nat) (s : State) : State :=
  match s.inputUnit h with
  | some u => s.unitLaunches u n
  | none => s.forwardLaunch { h := h, n := n }

/-- A host write reaches one 64-byte unit of HBM in an input window; `whole` says it covers all of it (R416, R417, R420,
R421, R424). The bytes are those the unit holds after the write. -/
def State.inputWrite (a : Nat) (whole poison : Bool) (s : State) : State :=
  match s.unitFor 0 a with
  | none => s
  | some u =>
    let (k, o) := s.slotOf u a
    let n := s.blockBytes u
    if n ≤ o then s
    else if s.getF (uSlotState u k) = 2 then s.setF (uDamaged u k) 1
    else
      let s := s.countUnit u k o (s.hbm.load a 64) (poison || !whole) (n - 8) (n / 64)
      let s := if s.getF (uSlotState u k) = 2 then s.evaluate u k else s
      if s.getF (uSlotState u k) = 2 ∧ k = s.getF (uNextSlot u) ∧ s.getF (uHeld u) ≠ 0 ∧ (s.unit u).heldOpen then
        s.runHeld u
      else s

/-- REFILL empties an input slot (R424). -/
def crcRefillOp (u k : Nat) (s : State) : State :=
  s.hostAct true (0x00300038 + 0x100 * u) fun s =>
    if s.onF (uDir u) then s
    else
      let s := s.emptySlot u k
      if k = s.getF (uNextSlot u) then s.modUnit u fun t => { t with heldOpen := true } else s

/-- CRC_REFILL (R424). -/
def execCrcRefill (u slot : Nat) (s : State) : Host.Outcome State Fault Refusal :=
  guarded (decide (u < 8) && decide (slot < 4)) s (crcRefillOp u slot s)

/-- RELEASE forwards the held launch as for a block that is not GOOD; later ones follow. While the partition resets the launch
stays held, and goes once the reset completes (R424). -/
def crcReleaseOp (u : Nat) (s : State) : State :=
  s.hostAct true (0x00300038 + 0x100 * u) fun s =>
    if s.getF (uHeld u) = 0 ∨ s.getF (ppState (s.unitPart u)) = 3 then s
    else
      let st := s.getF (uResult u (s.getF (uNextSlot u)))
      ((s.forwardBlock u st).setF (uHeld u) (s.getF (uHeld u) - 1)).runHeld u

/-- CRC_RELEASE (R424). -/
def execCrcRelease (u : Nat) (s : State) : Host.Outcome State Fault Refusal := guarded (decide (u < 8)) s (crcReleaseOp u s)

/-- DROP discards the held launch and empties its slot; the next held launch checks the same slot (R424). -/
def crcDropOp (u : Nat) (s : State) : State :=
  s.hostAct true (0x00300038 + 0x100 * u) fun s =>
    if s.getF (uHeld u) = 0 then s
    else
      ((s.emptySlot u (s.getF (uNextSlot u))).incF (uDrops u) 1 |>.setF (uHeld u) (s.getF (uHeld u) - 1)).runHeld u

/-- CRC_DROP (R424). -/
def execCrcDrop (u : Nat) (s : State) : Host.Outcome State Fault Refusal := guarded (decide (u < 8)) s (crcDropOp u s)

/-! ### Output units (R425, R426) -/

/-- The length and stamp of the record that fills a slot, once its header has passed. -/
def State.recordOf (s : State) (u k : Nat) : Option (Nat × Nat) :=
  ((s.unit u).records.find? fun e => e.1 == k).map (·.2)

/-- A unit of a record whose length is known. -/
def State.recordUnit (u k o n : Nat) (bs : List Byte) (bad : Bool) (s : State) : State :=
  if n ≤ o then s else s.countUnit u k o bs bad n (ceilDiv n 64)

/-- The header of a record passes: its length is read, NEXT is stamped, and units that came before it are counted
(R425). Answers the unit as it is stored. -/
def State.recordHeader (u k : Nat) (bs : List Byte) (bad : Bool) (s : State) : State × List Byte :=
  let n := min (leNat ((bs.drop 8).take 4)) (s.slotBytes u)
  let alive := s.getF (uNext u)
  let stored := if s.onF (uAliveEn u) then bs.take 6 ++ natLe 2 alive ++ bs.drop 8 else bs
  let early := (s.unit u).early.filter fun e => e.1 == k
  let s := if s.onF (uAliveEn u) then s.setF (uLast u) alive else s
  let s := s.modUnit u fun t =>
    { t with records := t.records.filter (fun e => e.1 != k) ++ [(k, n, alive)], early := t.early.filter fun e => e.1 != k }
  let s := s.recordUnit u k 0 n stored bad
  (forAll early (fun e t => t.recordUnit u k e.2.1 n e.2.2.1 e.2.2.2) s, stored)

/-- A pattern write of one 64-byte unit is snooped; answers it as it is stored (R414, R416, R417, R425). -/
def State.outputWrite (a : Nat) (bs : List Byte) (poison : Bool) (s : State) : State × List Byte :=
  match s.unitFor 1 a with
  | none => (s, bs)
  | some u =>
    let (k, o) := s.slotOf u a
    if o = 0 then s.recordHeader u k bs poison
    else
      match s.recordOf u k with
      | some (n, _) => (s.recordUnit u k o n bs poison, bs)
      | none => (s.modUnit u fun t => { t with early := t.early ++ [(k, o, bs, poison)] }, bs)

/-- The next pattern ADD to an output unit's counter closes the earliest record and writes its log entry (R426). -/
def State.closeRecord (u : Nat) (s : State) : State :=
  match (s.unit u).records with
  | [] => s
  | (k, n, alive) :: _ =>
    let st := if s.getF (uFilled u k) < ceilDiv n 64 then 4 else if s.onF (uDamaged u k) then 5 else 0
    let v := if s.onF (uCrcEn u) then
        crcFinal (s.getF (uWidth u)) (s.onF (uRefOut u)) (BitVec.ofNat 64 (s.getF (uXor u))) (s.running64 u k)
      else 0
    let e := 8 * u + alive % 8
    let s := s.setF (uLogValue u (e % 8)) v.toNat |>.setF (uLogAlive u (e % 8)) alive |>.setF (uLogStatus u (e % 8)) st
      |>.setF (uLogValid u (e % 8)) 1
    (s.emptySlot u k).setF (uNext u) ((s.getF (uNext u) + 1) % 65536) |>.incF (uBlocks u) 1

/-- Every output unit bound to a results counter closes a record (R426). -/
def State.closeRecords (h : Nat) (s : State) : State :=
  forAll (List.range 8) (fun u t =>
    if t.onF (uEn u) && t.onF (uDir u) && t.getF (uHc u) == h then t.closeRecord u else t) s

/-! ### Contexts (R418, R422, R427) -/

/-- Whether EN = 1 takes effect with the configuration as it stands (R418, R422). -/
def State.crcMayEnable (s : State) (u : Nat) : Bool :=
  s.getF (uPoly u) % 2 == 1 && decide (8 ≤ s.getF (uWidth u)) && decide (s.getF (uWidth u) ≤ 64) &&
    (s.onF (uDir u) || s.onF (hcForward (s.getF (uHc u))))

/-- STATE of a restored input slot follows its FILLED (R421, R427). -/
def State.resumeSlot (u k : Nat) (s : State) : State :=
  let f := s.getF (uFilled u k)
  if s.onF (uDir u) then s.setF (uSlotState u k) 0
  else if f = 0 then s.setF (uSlotState u k) 0
  else if f < s.blockBytes u / 64 then s.setF (uSlotState u k) 1
  else (s.setF (uSlotState u k) 2).evaluate u k

/-- Whether a field of a unit's registers is EN. -/
def isEn (u : Nat) (f : Fld) : Bool := f == uEn u

/-- A host write to a unit's context: all of it while EN is 0, EN alone while it is 1 (R427). -/
def State.crcWrite (u o size : Nat) (v : W64) (s : State) : State :=
  let fs := accessFields bar0Map o size
  let en := fs.filter fun f => isEn u f.1
  let was := s.onF (uEn u)
  let s := if was then s else
    let t := s.plainWrite (fs.filter fun f => !isEn u f.1) o v
    if 0x00300048 + 0x100 * u ≤ o + size ∧ o < 0x00300080 + 0x100 * u then forAll (List.range 4) (State.resumeSlot u) t else t
  match en with
  | [] => s
  | f :: _ =>
    if writtenBits o v f.1 = 0 then s.setF (uEn u) 0
    else if was || s.crcMayEnable u then s.setF (uEn u) 1
    else s

/-- CRC_CONFIG_WRITE (R427): offsets +0x00 to +0x7F apart from the WO fields of CRC_CTL, which have rows of their own. -/
def crcConfigWriteOp (u o size : Nat) (v : W64) (s : State) : State :=
  let a := 0x00300000 + 0x100 * u + o
  s.hostAct true a fun s =>
    if !accessSized a size then s.ignored 0x02 false true a
    else if !accessMapped bar0Map a size then s.ignored 0x01 false true a
    else s.crcWrite u a size v

/-- CRC_CONFIG_WRITE (R427). -/
def execCrcConfigWrite (u off size : Nat) (v : W64) (s : State) : Host.Outcome State Fault Refusal :=
  guarded (decide (u < 8) && decide (off < 0x100)) s (crcConfigWriteOp u off size v s)

/-- Clearing at a pour: units disabled, slots EMPTY, held launches discarded; NEXT and the log stay (R428). -/
def State.clearUnit (u : Nat) (s : State) : State :=
  let s := (s.setF (uEn u) 0).incF (uDrops u) (s.getF (uHeld u))
  (forAll (List.range 4) (State.emptySlot u) (s.setF (uHeld u) 0)).modUnit u fun _ => {}

end Sys2Proof.Machine
end

