-- ==== Sys2Proof/Machine/Fec.lean ====
section
/-!
DEFINITION. The FEC of a peer link (R367): GF(2¹⁰), the RS(544,514) code, and the group that a pair of code words carries.
Field polynomial, generator roots and symbol order are those of IEEE 802.3 clause 91, which R367 cites (log 104).
-/
namespace Sys2Proof.Machine

/-- A symbol of the code (R367). -/
abbrev Sym := BitVec 10

/-! ### GF(2¹⁰) -/

/-- α·a, reduced by x¹⁰ + x³ + 1. -/
def symDouble (a : Sym) : Sym := if a.msb then (a <<< 1) ^^^ 0x009#10 else a <<< 1

/-- The sum over the low `n` bits of `b` of a·αⁱ. -/
def symMulFrom : Nat → Sym → Sym → Sym
  | 0, _, _ => 0
  | n + 1, a, b => (if b.getLsbD 0 then a else 0) ^^^ symMulFrom n (symDouble a) (b >>> 1)

/-- The product. -/
def symMul (a b : Sym) : Sym := symMulFrom 10 a b

/-- α^k. -/
def symAlpha : Nat → Sym
  | 0 => 1
  | k + 1 => symDouble (symAlpha k)

/-- a^n. -/
def symPow (a : Sym) : Nat → Sym
  | 0 => 1
  | n + 1 => symMul a (symPow a n)

/-- 1/a of a symbol that is not 0: a^1022. -/
def symInv (a : Sym) : Sym := symPow a 1022

/-- A polynomial, coefficient of x⁰ first, at a point. -/
def symEval : List Sym → Sym → Sym
  | [], _ => 0
  | c :: t, x => c ^^^ symMul x (symEval t x)

/-- The coefficient of x^i. -/
def coef (p : List Sym) (i : Nat) : Sym := p.getD i 0

/-! ### The code word (R367) -/

/-- (x − r)·p(x). -/
def symTimesRoot (r : Sym) (p : List Sym) : List Sym :=
  (List.range (p.length + 1)).map fun i => (if i = 0 then 0 else coef p (i - 1)) ^^^ symMul r (coef p i)

/-- g(x), the product of (x − αʲ) for j = 0 to 29. -/
def fecGenerator : List Sym := (List.range 30).foldr (fun k p => symTimesRoot (symAlpha k) p) [1]

/-- One step of division by g(x): the remainder of r(x)·x + d·x³⁰. -/
def fecStep (g r : List Sym) (d : Sym) : List Sym :=
  let f := d ^^^ coef r 29
  (List.range 30).map fun i => (if i = 0 then 0 else coef r (i - 1)) ^^^ symMul f (coef g i)

/-- The check symbols of a message in the order of transmission, coefficient of x⁰ first. -/
def fecCheck (d : List Sym) : List Sym := d.foldl (fecStep fecGenerator) (List.replicate 30 0)

/-- The code word of 514 message symbols in the order of transmission: the message, then the check symbols, the one of
x²⁹ first. -/
def fecEncode (d : List Sym) : List Sym := d ++ (fecCheck d).reverse

/-! ### Correction -/

/-- The parts of the Berlekamp-Massey iteration: locator, earlier locator, its discrepancy, its age, errors so far. -/
structure Locator where
  c : List Sym
  b : List Sym
  d : Sym
  m : Nat
  l : Nat

/-- c(x) − k·x^m·b(x). -/
def minusShifted (c b : List Sym) (k : Sym) (m : Nat) : List Sym :=
  (List.range (max c.length (b.length + m))).map fun i =>
    coef c i ^^^ (if i < m then 0 else symMul k (coef b (i - m)))

/-- The iteration at syndrome `n`. -/
def Locator.next (s : List Sym) (x : Locator) (n : Nat) : Locator :=
  let d := (List.range (x.l + 1)).foldl (fun v i => v ^^^ symMul (coef x.c i) (coef s (n - i))) 0
  if d = 0 then { x with m := x.m + 1 }
  else
    let c := minusShifted x.c x.b (symMul d (symInv x.d)) x.m
    if 2 * x.l ≤ n then ⟨c, x.c, d, 1, n + 1 - x.l⟩ else { x with c := c, m := x.m + 1 }

/-- The error locator of 30 syndromes, with its number of errors. -/
def fecLocator (s : List Sym) : Locator := (List.range 30).foldl (Locator.next s) ⟨[1], [1], 1, 1, 0⟩

/-- What the symbol of x^p is wrong by, when it is a root of the locator: Forney's formula. -/
def fecError (s c : List Sym) (p : Nat) : Option Sym :=
  let x := symAlpha p
  let y := symInv x
  if symEval c y ≠ 0 then none
  else
    let omega := (List.range 30).map fun i =>
      (List.range (i + 1)).foldl (fun v j => v ^^^ symMul (coef c j) (coef s (i - j))) 0
    let slope := (List.range (c.length - 1)).map fun i => if i % 2 = 0 then coef c (i + 1) else 0
    some (symMul x (symMul (symEval omega y) (symInv (symEval slope y))))

/-- A received code word: its message where at most 15 symbols are wrong, and whether any was (R367). -/
def fecDecode (w : List Sym) : Option (List Sym × Bool) :=
  let x := List.zipWith (· ^^^ ·) (w.drop 514).reverse (fecCheck (w.take 514))
  if x.all (· == 0) then some (w.take 514, false)
  else
    let s := (List.range 30).map fun j => symEval x (symAlpha j)
    let k := fecLocator s
    let v := w.mapIdx fun i a => a ^^^ (fecError s k.c (543 - i)).getD 0
    let wrong := (List.zipWith (fun a b => decide (a ≠ b)) w v).countP id
    if decide (wrong ≤ 15) && v == fecEncode (v.take 514) then some (v.take 514, true) else none

/-! ### The group (R367) -/

/-- The symbols of a link in the order of transmission: round robin over its live lanes (R367). -/
def interleaved (lanes : List (List Sym)) : List Sym :=
  (List.range 1088).map fun j => coef (lanes.getD (j % lanes.length) []) (j / lanes.length)

/-- Symbols as one number, the first lowest. -/
def symNat : List Sym → Nat
  | [] => 0
  | a :: t => a.toNat + 1024 * symNat t

/-- What a pair of code words brings: its 10,280 message bits, the first lowest, and which word was correct or corrected,
and how many were corrected. -/
structure Group where
  bits : Nat
  ok0 : Bool
  ok1 : Bool
  corrected : Nat
deriving DecidableEq, Repr

/-- The group that the symbols of a link's live lanes carry: the first code word holds message bits 0 to 5,139 (R367). -/
def fecGroup (lanes : List (List Sym)) : Group :=
  let w := interleaved lanes
  let a := fecDecode (w.take 544)
  let b := fecDecode (w.drop 544)
  let msg : Option (List Sym × Bool) → List Sym := fun x => (x.map Prod.fst).getD []
  let fixed : Option (List Sym × Bool) → Nat := fun x => if (x.map Prod.snd).getD false then 1 else 0
  ⟨symNat (msg a) + 2 ^ 5140 * symNat (msg b), a.isSome, b.isSome, fixed a + fixed b⟩

/-- The 256 bytes of flit `i` of a group, if the code words that it lies in were good: the first holds flits 0, 1 and part
of 2 (R367, R370). -/
def Group.flit (g : Group) (i : Nat) : Option (List (BitVec 8)) :=
  if (decide (2 < i) || g.ok0) && (decide (i < 2) || g.ok1) then
    some ((List.range 256).map fun k => BitVec.ofNat 8 (g.bits / 2 ^ (2048 * i + 8 * k) % 256))
  else none

/-- The group control word, which the second code word holds (R367, R368). -/
def Group.word (g : Group) : Option (BitVec 40) :=
  if g.ok1 then some (BitVec.ofNat 40 (g.bits / 2 ^ 10240 % 2 ^ 40)) else none

/-- The symbols that carry 10,280 message bits over `n` lanes (R367). -/
def fecLanes (n bits : Nat) : List (List Sym) :=
  let sym := fun k => BitVec.ofNat 10 (bits / 2 ^ (10 * k) % 1024)
  let w := fecEncode ((List.range 514).map sym) ++ fecEncode ((List.range 514).map fun k => sym (514 + k))
  (List.range n).map fun l => (List.range (1088 / n)).map fun i => coef w (n * i + l)

end Sys2Proof.Machine
end

