-- ==== Sys2Proof/Machine/Links.lean ====
section
/-!
DEFINITION. The peer links: receiving, delivering and forwarding flits, control words, retraining, ports that go down,
and the messages between packages (R364-R391).
-/
namespace Sys2Proof.Machine

/-! ### Delivery at the destination package (R379-R384, R387) -/

/-- NACK (R381). -/
def execNack (spkg flits : Nat) (s : State) : Host.Outcome State Fault Refusal :=
  guarded (decide (spkg < 4096)) s (nackOp flits s)

/-- UNREACH (R387). -/
def execUnreach (score port : Nat) (s : State) : Host.Outcome State Fault Refusal :=
  guarded (decide (score < 2048) && decide (port < 8)) s (unreachOp score s)

/-- One message of a SYNC flit from another package (R382, R384). -/
def State.linkMsg (spkg : Nat) (m : LinkMsg) (s : State) : State :=
  match m with
  | .larrive bid count drain => larriveOp bid count spkg drain s
  | .lrelease bid dlset dlctr install => lreleaseOp bid dlset dlctr install s
  | m => s.messageHere m

/-- A flit of another package for this one is delivered (R379-R384); NOTICES of which nothing is left are acknowledged at
once (R381). -/
def State.linkDeliver (f : LinkFlit) (s : State) : State :=
  match f with
  | .notices _ spkg items =>
    let (s, done) := s.importNotices spkg items
    if done then s.linkSendOut (.sync spkg s.pkgId 0 [.nack 1]) else s
  | .sync _ spkg _ msgs => forAll msgs (fun m t => t.linkMsg spkg m) s
  | f => s.deliverHere f

/-! ### Receiving (R366, R367, R370, R377) -/

/-- The live lanes of a link, of the symbols received on its four (R386, R390). -/
def State.liveLanes (s : State) (n : Nat) (lanes : List (List Sym)) : List (List Sym) :=
  if s.getF (lkState n) = 3 then (lanes.drop (2 * s.getF (lkPair n))).take 2 else lanes.take 4

/-- Whether symbols are those of a link's four lanes: a pair of code words has 1,088 of them (R367). -/
def lanesFit (lanes : List (List Sym)) : Bool := lanes.length == 4 && lanes.all fun l => decide (l.length ≤ 544)

/-- The group that a link receives (R367). -/
def State.groupOn (s : State) (n : Nat) (lanes : List (List Sym)) : Group := fecGroup (s.liveLanes n lanes)

/-- Flit `i` of the group that a link receives, if the FEC could correct its code words and its CRC is right (R369,
R370). -/
def State.flitOn (s : State) (n : Nat) (lanes : List (List Sym)) (i : Nat) : Option LinkTx :=
  ((s.groupOn n lanes).flit i).bind linkFlitOf

/-- A flit in PSEQ order enters the receive buffer of its port: it leaves it for this package at once, or goes on to the
next (R366, R374, R377, R378). An idle flit takes no place (log 107). -/
def State.linkAccept (n : Nat) (x : LinkTx) (s : State) : State :=
  if x.flit = .idle then s
  else
    let s := s.takePlace n x.vc
    if flitDpkg x.flit = s.pkgId then (s.linkDeliver x.flit).freePlace n x.vc else s.linkForward (some (n, x.vc)) x.flit

/-- Takes flits out of a port's reorder buffer while the next PSEQ is there (R366). -/
def State.reorder (k : Nat) : Nat → State → State
  | 0, s => s
  | n + 1, s =>
    match tblGet (fun _ => none) (s.port k).reorder (s.port k).rxPseq with
    | none => s
    | some e =>
      State.reorder k n ((s.modPort k fun p =>
        { p with reorder := tblDel p.rxPseq p.reorder, rxPseq := (p.rxPseq + 1) % 65536 }).linkAccept e.1 e.2)

/-- The flit that a receiver expects: it is acknowledged, and waits for its turn at the port. One whose PSEQ the port has
passed is a resend of one already delivered (R366, R370, R371). -/
def takeFlit (n : Nat) (x : LinkTx) (s : State) : State :=
  let k := linkPort s.dims n
  let s := (s.modLink n fun t => { t with rxSeq := (t.rxSeq + 1) % 4096, nakPending := false }).emit
    (.linkWord n (controlWord x.lseq true false 0 0))
  if 32768 ≤ (x.pseq + 65536 - (s.port k).rxPseq) % 65536 then s
  else
    let s := s.modPort k fun p => { p with reorder := tblPut (fun _ => none) x.pseq (some (n, x)) p.reorder }
    s.reorder k (s.port k).reorder.length

/-- What a receiver makes of a flit: it takes the one it expects; any other it discards and NAKs once, and a bad one each
time (R370). -/
def flitIn (n : Nat) (x : Option LinkTx) (s : State) : State :=
  let l := s.link n
  if x.any fun t => t.lseq == l.rxSeq then
    match x with
    | some t => takeFlit n t s
    | none => s
  else if x.isNone || !l.nakPending then
    (s.modLink n fun t => { t with nakPending := true }).emit (.linkWord n (controlWord (l.rxSeq + 4095) true true 0 0))
  else s

/-- A live link receives flit `i` of a group (R367, R370). -/
def linkFlitReceiveOp (n : Nat) (lanes : List (List Sym)) (i : Nat) (s : State) : State :=
  if s.linkLive n then flitIn n (s.flitOn n lanes i) s else s

/-- LINK_FLIT_RECEIVE (R370). -/
def execLinkFlitReceive (place : LinkPlace) (lane0 lane1 lane2 lane3 : List Sym) (s : State) : Host.Outcome State Fault Refusal :=
  guarded (decide (place.link < 48) && lanesFit [lane0, lane1, lane2, lane3] && decide (place.flit < 5)) s
    (linkFlitReceiveOp place.link [lane0, lane1, lane2, lane3] place.flit s)

/-! ### Ports and retraining (R371, R386-R389) -/

/-- Links of a port that carry flits, as LIVE shows them. -/
def State.liveMask (s : State) (k : Nat) : Nat :=
  let (first, n) := portLinks s.dims k
  ((List.range n).map fun i => if s.linkLive (first + i) then 2 ^ i else 0).sum

/-- Whether the topology uses port `k` (R365). -/
def State.portUsed (s : State) (k : Nat) : Bool := decide (k < 2 * s.dims)

/-- A port's LIVE and STATE follow its links: DOWN with no link live (R386, R390), and what waits at it is then discarded
(R387); a change of state is the LINK event (R409). -/
def State.refreshPort (k : Nat) (s : State) : State :=
  let (first, n) := portLinks s.dims k
  let up := (List.range n).any fun i => s.linkLive (first + i)
  let st := if !s.portUsed k then 0 else if s.getF (lpState k) = 3 then 3 else if up then 1 else 2
  let was := s.getF (lpState k)
  let s := s.setF (lpLive k) (s.liveMask k) |>.setF (lpState k) st
  if st = was then s else if st = 2 then (s.requeue k).event 13 else s.event 13

/-- Unacknowledged flits of a link go out on the port's other live links with their PSEQ (R371). -/
def State.resendElsewhere (k : Nat) : List LinkTx → State → State × List LinkTx
  | [], s => (s, [])
  | tx :: rest, s =>
    match s.nextLinkOf k with
    | none => (s, tx :: rest)
    | some l =>
      let (first, n) := portLinks s.dims k
      let tx' := { tx with lseq := (s.link l).txSeq }
      State.resendElsewhere k rest
        (((s.modLink l fun t => { t with txSeq := (t.txSeq + 1) % 4096, unacked := t.unacked ++ [tx'] }).modPort k fun p =>
          { p with nextLink := (l - first + 1) % n }).emit (.linkSend l tx'))

/-- A link leaves service in state `st`: its unacknowledged flits move to other links, and its port is looked at again
(R371, R386). -/
def State.linkOut (n st : Nat) (s : State) : State :=
  let k := linkPort s.dims n
  let flits := (s.link n).unacked
  let s := (s.setF (lkState n) st).modLink n fun t => { t with unacked := [], naks := 0 }
  let (s, left) := s.resendElsewhere k flits
  (s.modLink n fun t => { t with unacked := left }).refreshPort k

/-- A link in service retrains (R371). -/
def linkRetrainOp (n : Nat) (s : State) : State :=
  if s.linkLive n then (s.linkOut n 1).incF (lkRetrains n) 1 else s

/-- LINK_RETRAIN (R371). -/
def execLinkRetrain (link : Nat) (s : State) : Host.Outcome State Fault Refusal :=
  guarded (decide (link < 48)) s (linkRetrainOp link s)

/-- LNK_LINK.STATE and PAIR of a training result (R386, R390). -/
def laneState : LaneResult → Nat × Nat
  | .down => (0, 0)
  | .pair01 => (3, 0)
  | .pair23 => (3, 1)
  | .four => (2, 0)

/-- Retraining ends: the link comes back, numbers its flits from 0 and sends what it still holds, or is left DOWN (R371,
R386). A drop to two lanes is a corrected event (R492). -/
def retrainingCompleteOp (n : Nat) (r : LaneResult) (s : State) : State :=
  if s.getF (lkState n) = 1 then
    let (st, pair) := laneState r
    let s := s.setF (lkState n) st |>.setF (lkPair n) pair
    let s := if st = 3 then s.log 1 5 n false 0 0 else s
    let k := linkPort s.dims n
    let flits := (s.link n).unacked.zipIdx.map fun e => { e.1 with lseq := e.2 }
    let s := (s.modLink n fun t => { t with
      rxSeq := 0, nakPending := false, txSeq := flits.length % 4096, unacked := flits }).refreshPort k
    if s.linkLive n then (forAll flits (fun tx t => t.emit (.linkSend n tx)) s).pump k else s
  else s

/-- RETRAINING_COMPLETE (R371). -/
def execRetrainingComplete (link : Nat) (lanes : LaneResult) (s : State) : Host.Outcome State Fault Refusal :=
  guarded (decide (link < 48)) s (retrainingCompleteOp link lanes s)

/-- A link in service loses its lanes, or its port the neighbour it should have; a port that changes state raises the LINK
event (R386, R388, R409). -/
def linkDownOp (n : Nat) (wrongNeighbour : Bool) (s : State) : State :=
  let k := linkPort s.dims n
  if s.dims = 0 then s
  else if wrongNeighbour then
    if s.getF (lpState k) = 3 then s else ((s.setF (lpState k) 3).requeue k).event 13
  else if s.getF (lkState n) = 0 then s
  else s.linkOut n 0

/-- LINK_DOWN (R388). -/
def execLinkDown (link : Nat) (wrongNeighbour : Bool) (s : State) : Host.Outcome State Fault Refusal :=
  guarded (decide (link < 48)) s (linkDownOp link wrongNeighbour s)

/-- Drops acknowledged flits, up to and with LSEQ `ack` (R370). -/
def dropAcked (ack : Nat) (l : List LinkTx) : List LinkTx :=
  if l.any (fun t => t.lseq == ack) then (l.dropWhile fun t => t.lseq != ack).tail else l

/-- A control word: acknowledgements free the window, NAK resends, the sixteenth NAK of one flit retrains, credits come
back and what waits goes out (R368, R370, R371, R377). -/
def wordIn (n : Nat) (w : BitVec 40) (s : State) : State :=
  let k := linkPort s.dims n
  let old := (s.link n).unacked
  let left := if bitOf w 12 then dropAcked (bitsOf w 0 12) old else old
  let s := s.modLink n fun t => { t with unacked := left, naks := if left.length < old.length then 0 else t.naks }
  let s := s.modPort k fun p => { p with spent0 := p.spent0 - bitsOf w 14 6, spent1 := p.spent1 - bitsOf w 20 6 }
  let s := if bitOf w 13 then
      let s := ((s.modLink n fun t => { t with naks := t.naks + 1 }).incF (lkResends n) 1).log 1 5 n false 0 0
      if 16 ≤ (s.link n).naks then linkRetrainOp n s
      else forAll left (fun tx t => t.emit (.linkSend n tx)) s
    else s
  s.pump k

/-- The end of a group: the code words that the FEC corrected are counted and logged (R492), and the control word acts unless its code word
could not be corrected (R367, R368, R390; log 104). -/
def groupControlWordOp (n : Nat) (lanes : List (List Sym)) (s : State) : State :=
  if s.linkLive n then
    let g := s.groupOn n lanes
    let s := forAll (List.range g.corrected) (fun _ t => t.log 1 5 n false 0 0) (s.incF (lkCorr n) g.corrected)
    match g.word with
    | some w => wordIn n w s
    | none => s
  else s

/-- GROUP_CONTROL_WORD (R368). -/
def execGroupControlWord (link : Nat) (lanes : List (List Sym)) (s : State) : Host.Outcome State Fault Refusal :=
  guarded (decide (link < 48) && lanesFit lanes) s (groupControlWordOp link lanes s)

/-- LINK_NOTICE_FLUSH (R379). -/
def linkNoticeFlushOp (q : Nat) (s : State) : State := s.sendPack q

/-- LINK_NOTICE_FLUSH (R379). -/
def execLinkNoticeFlush (dpkg : Nat) (s : State) : Host.Outcome State Fault Refusal :=
  guarded (decide (dpkg < 4096)) s (linkNoticeFlushOp dpkg s)

/-! ### Training (R386, R389) -/

/-- LNK_TOPO as it stands: what the links are trained to, and what an identity frame holds (R389, R390). -/
def State.declared (s : State) : Torus := ⟨s.getF lId, s.getF lTopology, s.getF lDimX, s.getF lDimY, s.getF lDimZ⟩

/-- The package that should stand at port `k`: one place on in the port's dimension and direction, modulo the extent (R365,
R373). -/
def State.expectedAt (s : State) (k : Nat) : Nat :=
  let dim := k % max 1 s.dims
  let n := s.extent dim
  let c := s.coord s.pkgId dim
  let dst := if k < s.dims then (c + 1) % n else (c + n - 1) % n
  let stride := ((List.range dim).map s.extent).foldl (· * ·) 1
  s.pkgId + dst * stride - c * stride

/-- Whether an identity frame is the expected neighbour's, of the declared topology (R386, R389). -/
def State.neighbourFits (s : State) (k : Nat) (f : LinkFound) : Bool :=
  f.neighbour == s.expectedAt k && f.topology == s.net.torus.topology && f.dimX == s.net.torus.dimX &&
    f.dimY == s.net.torus.dimY && f.dimZ == s.net.torus.dimZ

/-- Training of one link. -/
def State.trainLink (found : List LinkFound) (n : Nat) (s : State) : State :=
  let r := match found.find? fun f => f.link == n with
    | some f => laneState f.lanes
    | none => (0, 0)
  (s.setF (lkState n) (if s.dims = 0 then 0 else r.1) |>.setF (lkPair n) r.2
    |>.setF (lkPort n) (if s.dims = 0 then 0 else linkPort s.dims n)).modLink n fun _ => {}

/-- Training of one port: LIVE, STATE and what its neighbour's identity frame says; its receive buffer is empty (R377, R386,
R389). -/
def State.trainPort (found : List LinkFound) (k : Nat) (s : State) : State :=
  let (first, n) := portLinks s.dims k
  let mine := found.filter fun f => decide (first ≤ f.link) && decide (f.link < first + n) && f.lanes != .down
  let st := if !s.portUsed k then 0 else if mine.isEmpty then 2 else if mine.all (s.neighbourFits k) then 1 else 3
  (s.setF (lpLive k) (if s.portUsed k then s.liveMask k else 0) |>.setF (lpState k) st
    |>.setF (lpOcc0 k) 0 |>.setF (lpOcc1 k) 0
    |>.setF (lpNeighbour k) (match mine with
      | f :: _ => if s.portUsed k then f.neighbour else 0
      | [] => 0)).modPort k fun _ => {}

/-- Trains every link and port to LNK_TOPO and says whether the declared torus was found (R389); what waited at the ports is
put on its route anew (R374, R387); a port that changes state raises LINK (R409). -/
def State.trainLinks (found : List LinkFound) (s : State) : State :=
  let was := (List.range 6).map fun k => s.getF (lpState k)
  let waiting := (List.range 6).flatMap fun k => (s.port k).outq
  let s := { s with net := { s.net with torus := s.declared } }
  let s := forAll (List.range 48) (State.trainLink found) s
  let s := forAll (List.range 6) (State.trainPort found) s
  let s := s.setF lAgreed ((List.range (2 * s.dims)).all fun k => s.getF (lpState k) == 1).toNat
  let s := forAll waiting (fun q t => t.linkSendOut q.flit) s
  if was = (List.range 6).map (fun k => s.getF (lpState k)) then s else s.event 13

/-- Whether a pattern is armed (R317). -/
def State.armed (s : State) : Bool := s.getF pPattern == 4 || s.getF pPattern == 5

/-- RETRAIN written 1: ignored and counted while a pattern is armed; while the links stand stopped, nothing trains before
heat 7 (R388, R389). -/
def State.retrain (found : List LinkFound) (s : State) : State :=
  if s.armed then s.ignored 0x0B false true 0x00600000
  else if s.pwr.linksStopped then s
  else s.trainLinks found

/-- A host write of RETRAIN (R389). -/
def retrainOp (found : List LinkFound) (s : State) : State := s.hostAct true 0x00600000 (State.retrain found)

/-- Whether what training found names links of the part, and identity frames with fields of their widths (R389, R390). -/
def foundOk (found : List LinkFound) : Bool :=
  found.all fun f => decide (f.link < 48) && decide (f.neighbour < 4096) && decide (f.topology < 4) && decide (f.dimX < 4096) &&
    decide (f.dimY < 4096) && decide (f.dimZ < 4096)

/-- RETRAIN (R389). -/
def execRetrain (found : List LinkFound) (s : State) : Host.Outcome State Fault Refusal :=
  guarded (foundOk found) s (retrainOp found s)

/-- What training finds on link `n` when no command says it: free (R389; log 108). -/
def State.freeFound (s : State) (n : Nat) : LinkFound :=
  let x := Config.freeBits (s.free + n)
  ⟨n, match bitsOf x 0 2 with
    | 0 => .down
    | 1 => .pair01
    | 2 => .pair23
    | _ => .four, bitsOf x 2 12, bitsOf x 14 2, bitsOf x 16 12, bitsOf x 28 12, bitsOf x 40 12⟩

/-- RETRAIN written 1 by a write that says nothing of what training finds (R389; log 108). -/
def State.retrainFree (s : State) : State :=
  { s with free := s.free + 48 }.retrain ((List.range 48).map s.freeFound)

end Sys2Proof.Machine
end

