-- ==== Sys2Proof/Machine/HostCtr.lean ====
section
/-!
DEFINITION. Host counters, the TAKE window, watches and MSI-X messages that wait (R230-R234, R408).
-/
namespace Sys2Proof.Machine

/-- A host access that changes nothing after a fatal condition (R495). -/
def State.aliveAct (cause : Nat) (write : Bool) (o : Nat) (f : State → State) (s : State) : State :=
  s.hostAct write o fun s => if s.onF sFatal then s.ignored cause false write o else f s

/-- BAR0 offset of HOST_HC_h. -/
def hcOff (h : Nat) : Nat := 0x00100000 + 8 * h

/-- BAR0 offset of the TAKE of n from counter h. -/
def takeOff (h n : Nat) : Nat := 0x00140000 + 0x400 * h + 4 * n

/-- A host ADD of n to counter h: forwarded by a launch counter, else added with the watches resolved behind it; an ADD
of 0, past 65,535, or while nothing is armed is ignored and counted (R230, R231, R233). -/
def hostCounterAddOp (h n : Nat) (s : State) : State :=
  s.aliveAct 0x04 true (hcOff h) fun s =>
    if !s.armed then s.ignored 0x04 false true (hcOff h)
    else if n = 0 then s.ignored 0x05 false true (hcOff h)
    else if s.onF (hcForward h) then
      if (s.part (s.getF (hcPart h))).disarmed then s.ignored 0x04 false true (hcOff h) else s.hostLaunch h n
    else
      let v := s.getF (hcValue h)
      let s := if 65535 < v + n then s.ignored 0x05 false true (hcOff h) else s
      (s.setF (hcValue h) (satAdd 16 v n)).resolveWatches h

/-- HOST_COUNTER_ADD (R233). -/
def execHostCounterAdd (h : Nat) (n : BitVec 16) (s : State) : Host.Outcome State Fault Refusal :=
  guarded (decide (h < 256)) s (hostCounterAddOp h n.toNat s)

/-- What a read at n of counter h's TAKE window returns, and the state after it (R231, R232). -/
def State.takeResult (h n : Nat) (s : State) : State × Nat :=
  let v := s.getF (hcValue h)
  if s.onF sLimited then (s.ignored 0x03 false false (takeOff h n), 0)
  else if n = 0 then (s, v)
  else if !s.armed then (s.ignored 0x04 false false (takeOff h n), 0)
  else if s.onF (hcForward h) then (s.ignored 0x05 false false (takeOff h n), 0)
  else if n ≤ v then ((s.setF (hcValue h) (v - n)).resolveWatches h, v)
  else (s, 0)

/-- A 32-bit read in the TAKE window (R232). -/
def hostTakeOp (h n : Nat) (s : State) : State :=
  let (t, v) := s.takeResult h n
  t.emit (.readData (takeOff h n) 4 (BitVec.ofNat 64 v))

/-- HOST_TAKE (R232). -/
def execHostTake (h n : Nat) (s : State) : Host.Outcome State Fault Refusal :=
  guarded (decide (h < 256) && decide (n < 256)) s (hostTakeOp h n s)

/-- The oldest pattern ADD on its way to host counter h is resolved: an output unit closes its record, the counter
moves, the watches follow; past 65,535 the sender's partition gets SYNC_OVERFLOW (R233, R426). -/
def hostCounterPatternAddOp (h : Nat) (s : State) : State :=
  match takeFirst (fun a => a.h == h) s.hostIn with
  | none => s
  | some (a, rest) =>
    let s := { s with hostIn := rest }
    let s := s.closeRecords h
    if s.onF (hcForward h) then s
    else
      let v := s.getF (hcValue h)
      let s := if 65535 < v + a.n then s.remoteFault a.src fSyncOverflow else s
      (s.setF (hcValue h) (satAdd 16 v a.n)).resolveWatches h

/-- HOST_COUNTER_PATTERN_ADD (R233). -/
def execHostCounterPatternAdd (h : Nat) (s : State) : Host.Outcome State Fault Refusal :=
  guarded (decide (h < 256)) s (hostCounterPatternAddOp h s)

/-- A write of some fields of HOST_WATCH_w: a watch that becomes above while enabled, or enabled while above, fires
(R234). -/
def State.watchWrite (w o size : Nat) (v : W64) (s : State) : State :=
  let was := s.onF (wtEn w) && s.onF (wtAbove w)
  (s.plainWrite (accessFields bar0Map o size) o v).resolveWatch w was

/-- A host rewrite of a watch's word 0 (R234). -/
def hostWatchWriteOp (w : Nat) (v : W64) (s : State) : State :=
  s.hostAct true (0x00101000 + 16 * w) (State.watchWrite w (0x00101000 + 16 * w) 8 v)

/-- HOST_WATCH_WRITE (R234). -/
def execHostWatchWrite (w : Nat) (v : W64) (s : State) : Host.Outcome State Fault Refusal :=
  guarded (decide (w < 32)) s (hostWatchWriteOp w v s)

/-- A pending MSI-X message is sent once nothing holds it (R408). -/
def msixPendingSendOp (vec : Nat) (s : State) : State :=
  let h := s.hostcfg
  if h.msixPending.getLsbD vec && h.busMaster && h.msixEnable && !h.functionMask && !h.masked.getLsbD vec then
    ({ s with hostcfg := { h with msixPending := h.msixPending &&& ~~~(1#64 <<< vec) } }).emit (s.msixMessage vec)
  else s

/-- MSIX_PENDING_SEND (R408). -/
def execMsixPendingSend (vec : Nat) (s : State) : Host.Outcome State Fault Refusal :=
  guarded (decide (vec < 64)) s (msixPendingSendOp vec s)

end Sys2Proof.Machine
end

