-- ==== Sys2Proof/Machine/HbmWord.lean ====
section
/-!
DEFINITION. HBM word by word: where an address lies, what a read or a write of a word does with its error, the pending
table, faulty rows and the soft row remap (R330, R332, R349-R352, R356, R362).
-/
namespace Sys2Proof.Machine

/-! ### Addresses (R330, R332) -/

/-- Package pseudo-channel of an HBM byte address. -/
def pcOf (a : Nat) : Nat := a / 256 % 192

/-- Byte within the pseudo-channel. -/
def pcByte (a : Nat) : Nat := a / 256 / 192 * 256 + a % 256

/-- Bank of an address. -/
def bankOf (a : Nat) : Nat := pcByte a / 256 % 32

/-- Row of an address. -/
def hbmRow (a : Nat) : Nat := pcByte a / 32768

/-- The address of a byte of a pseudo-channel. -/
def pcAddr (p l : Nat) : Nat := (l / 256 * 192 + p) * 256 + l % 256

/-- Controller, and stack, of a package pseudo-channel. -/
def ctlOf (p : Nat) : Nat := p % 6

/-- The row that holds an address: pseudo-channel, bank, row. -/
def rowKey (a : Nat) : Nat × Nat × Nat := (pcOf a, bankOf a, hbmRow a)

/-- Row `row` of bank `bank` as its 32-byte words: four stripes of 256 bytes. -/
def rowWords (p bank row : Nat) : List Nat :=
  (List.range 32).map fun k => pcAddr p (row * 32768 + k / 8 * 8192 + bank * 256 + k % 8 * 32) / 32

/-! ### Reads and corrections (R349, R351, R356, R362) -/

/-- What the decoder finds in word `w` of HBM (R349). -/
def State.hbmErr (s : State) (w : Nat) : Option WordErr := s.hbm.err 32 w

/-- Whether a read of HBM meets an uncorrectable 32-byte word (R349). -/
def State.hbmBad (s : State) (a n : Nat) : Bool := (s.hbm.badWords 32 a n).any fun w => isBad (s.hbmErr w)

/-- The soft remap entry that redirects a row (R356). -/
def State.remapOf (s : State) (k : Nat × Nat × Nat) : Option Nat :=
  let c := ctlOf k.1
  (List.range 64).find? fun n => s.onF (bmValid c n) && s.getF (bmPc c n) == k.1 / 6 && s.getF (bmBank c n) == k.2.1 &&
    s.getF (bmRow c n) == k.2.2

/-- A row is found faulty: it waits for its remap copy (R356). -/
def State.rowDue (k : Nat × Nat × Nat) (s : State) : State :=
  if (s.remapOf k).isSome || (s.ctl (ctlOf k.1)).due.contains k then s
  else s.modCtl (ctlOf k.1) fun c => { c with due := c.due ++ [k] }

/-- The accesses of a range, one for each 64-byte unit (R330), that a soft remap redirects are counted (R362). -/
def State.noteRemap (a n : Nat) (s : State) : State :=
  forAll (wordsOf 64 a n) (fun u t =>
    if (t.remapOf (rowKey (64 * u))).isSome then t.incF (bRemapHits (ctlOf (pcOf (64 * u)))) 1 else t) s

/-- The row of a corrected word is faulty when another word of it has been corrected in this lap, or this word in the
last; the word is noted for the lap (R356). -/
def State.noteLap (w : Nat) (s : State) : State :=
  let c := ctlOf (pcOf (32 * w))
  let t := s.ctl c
  let faulty := t.prevWords.contains w || t.lapWords.any fun x => x != w && rowKey (32 * x) == rowKey (32 * w)
  let s := if t.lapWords.contains w then s else s.modCtl c fun t => { t with lapWords := t.lapWords ++ [w] }
  if faulty then s.rowDue (rowKey (32 * w)) else s

/-- A correctable word is corrected: counted and logged unless it stands in the pending table, and entered there while
it has room, unless the access rewrites the word itself (R351, R352, R356). -/
def State.correctHbm (enter : Bool) (w : Nat) (s : State) : State :=
  let c := ctlOf (pcOf (32 * w))
  let s := s.noteLap w
  let t := s.ctl c
  if t.pending.contains w then s
  else
    let s := if enter && decide (t.pending.length < 64) then s.modCtl c fun t => { t with pending := t.pending ++ [w] } else s
    (s.incF (bCorrected c) 1).log 1 0 c false 0 (16 * w)

/-- A read meets word `w` of HBM (R349, R351, R356). -/
def State.noteHbm (w : Nat) (s : State) : State :=
  match s.hbmErr w with
  | none => s
  | some .correctable => s.correctHbm true w
  | some e =>
    let c := ctlOf (pcOf (32 * w))
    ((s.incF (bUncorr c) 1).log 2 0 c (decide (e = .poison)) 0 (16 * w)).rowDue (rowKey (32 * w))

/-- A read of `n` bytes of HBM, by whatever reads: every word in error is counted, and redirected accesses are. -/
def State.noteHbmRead (a n : Nat) (s : State) : State := forAll (s.hbm.badWords 32 a n) State.noteHbm (s.noteRemap a n)

/-- Writes HBM with R352's effect on the words covered in part. -/
def State.wrHbm (a : Nat) (bs : List Byte) (s : State) : State :=
  let pois := s.hbm.partials 32 a bs.length isBad
  let s := forAll (s.hbm.partials 32 a bs.length (· == some .correctable)) (State.correctHbm false) s
  let s := s.putHbm a bs
  if pois.isEmpty then s else s.incF rPoisoned pois.length

/-- Writes HBM and gives every word touched the poison syndrome. -/
def State.wrHbmPoison (a : Nat) (bs : List Byte) (s : State) : State :=
  let s := { s with hbm := (s.hbm.store a bs).poison 32 a bs.length }
  s.incF rPoisoned (wordsOf 32 a bs.length).length

end Sys2Proof.Machine
end

