-- ==== Sys2Proof/Machine/Sha3.lean ====
section
/-!
DEFINITION. SHA3-256 (R304, R305, R488) and the SHAKE functions that FIPS 204 builds on (R314): the functions the spec
names, with the constants of FIPS 202 (PRESUMED, log 13).
-/
namespace Sys2Proof.Machine

/-- Rotation amounts of the lanes, lane x + 5y. -/
def keccakRho : List Nat := [0, 1, 62, 28, 27, 36, 44, 6, 55, 20, 3, 10, 43, 25, 39, 41, 45, 15, 21, 8, 18, 2, 61, 56, 14]

/-- Round constants. -/
def keccakRc : List W64 :=
  [0x0000000000000001#64, 0x0000000000008082#64, 0x800000000000808A#64, 0x8000000080008000#64, 0x000000000000808B#64,
   0x0000000080000001#64, 0x8000000080008081#64, 0x8000000000008009#64, 0x000000000000008A#64, 0x0000000000000088#64,
   0x0000000080008009#64, 0x000000008000000A#64, 0x000000008000808B#64, 0x800000000000008B#64, 0x8000000000008089#64,
   0x8000000000008003#64, 0x8000000000008002#64, 0x8000000000000080#64, 0x000000000000800A#64, 0x800000008000000A#64,
   0x8000000080008081#64, 0x8000000000008080#64, 0x0000000080000001#64, 0x8000000080008008#64]

/-- Lane `i`. -/
def lane (a : List W64) (i : Nat) : W64 := a.getD i 0

/-- Column parities spread to every lane. -/
def keccakTheta (a : List W64) : List W64 :=
  let c := (List.range 5).map fun x => lane a x ^^^ lane a (x + 5) ^^^ lane a (x + 10) ^^^ lane a (x + 15) ^^^ lane a (x + 20)
  let d := (List.range 5).map fun x => lane c ((x + 4) % 5) ^^^ (lane c ((x + 1) % 5)).rotateLeft 1
  (List.range 25).map fun i => lane a i ^^^ lane d (i % 5)

/-- Lanes rotated and moved. -/
def keccakRhoPi (a : List W64) : List W64 :=
  (List.range 25).map fun i =>
    let j := (i % 5 + 3 * (i / 5)) % 5 + 5 * (i % 5)
    (lane a j).rotateLeft (keccakRho.getD j 0)

/-- The nonlinear step, with the round constant on lane 0. -/
def keccakChi (b : List W64) (rc : W64) : List W64 :=
  (List.range 25).map fun i =>
    let y := i / 5 * 5
    let v := lane b i ^^^ (~~~(lane b ((i % 5 + 1) % 5 + y)) &&& lane b ((i % 5 + 2) % 5 + y))
    if i = 0 then v ^^^ rc else v

/-- The permutation. -/
def keccakF (a : List W64) : List W64 := keccakRc.foldl (fun a rc => keccakChi (keccakRhoPi (keccakTheta a)) rc) a

/-- Absorbs one block. -/
def keccakAbsorb (a : List W64) (blk : List Byte) : List W64 :=
  keccakF ((List.range 25).map fun i =>
    lane a i ^^^ (if 8 * i < blk.length then BitVec.ofNat 64 (leNat ((blk.drop (8 * i)).take 8)) else 0))

/-- The padding after `n` bytes of the last block of `rate` bytes, with the suffix `d` of the function. -/
def keccakPad (rate : Nat) (d : Byte) (n : Nat) : List Byte :=
  if n + 1 = rate then [d ||| 0x80#8] else d :: List.replicate (rate - 2 - n) 0#8 ++ [0x80#8]

/-- The sponge after a message. -/
def keccakSponge (rate : Nat) (d : Byte) (bs : List Byte) : List W64 :=
  (pieces rate (bs ++ keccakPad rate d (bs.length % rate))).foldl keccakAbsorb []

/-- SHA3-256, digest byte 0 in bits [7:0]. -/
def sha3 (bs : List Byte) : BitVec 256 :=
  let a := keccakSponge 136 0x06 bs
  lane a 3 ++ lane a 2 ++ lane a 1 ++ lane a 0

/-- `n` blocks of output. -/
def keccakSqueeze (rate : Nat) : Nat → List W64 → List Byte
  | 0, _ => []
  | n + 1, a => ((List.range 25).flatMap fun i => natLe 8 (lane a i).toNat).take rate ++ keccakSqueeze rate n (keccakF a)

/-- The first `n` bytes of SHAKE128. -/
def shake128 (n : Nat) (bs : List Byte) : List Byte := (keccakSqueeze 168 (ceilDiv n 168) (keccakSponge 168 0x1F bs)).take n

/-- The first `n` bytes of SHAKE256. -/
def shake256 (n : Nat) (bs : List Byte) : List Byte := (keccakSqueeze 136 (ceilDiv n 136) (keccakSponge 136 0x1F bs)).take n

/-- The bytes of a digest, byte 0 first. -/
def digestBytes (d : BitVec 256) : List Byte := natLe 32 d.toNat

end Sys2Proof.Machine
end

