-- ==== Sys2Proof/Machine/Image.lean ====
section
/-!
DEFINITION. Forver images: the container, its records and their fields, register images, the cores a section lands in
(R301-R313, R334, R428, R473).
-/
namespace Sys2Proof.Machine

/-- A little-endian field of `n` bytes at offset `o`. -/
def leAt (bs : List Byte) (o n : Nat) : Nat := leNat ((bs.drop o).take n)

/-- Whether every byte of `n` from offset `o` is 0. -/
def zeroAt (bs : List Byte) (o n : Nat) : Bool := ((bs.drop o).take n).all (· == 0)

/-- The code of the first true refusal, or 0. -/
def refusal : List (Bool × Nat) → Nat
  | [] => 0
  | (b, c) :: t => if b then c else refusal t

/-- End of host-visible HBM (R333). -/
def hostTop : Nat := 0x2E00000000

/-- Bytes of a signature block (R313). -/
def sigBytes : Nat := 3776

/-! ### Section kinds (R306) -/

/-- R306. -/
def kPartition : Nat := 0x01
/-- R306. -/
def kArrangement : Nat := 0x02
/-- R306. -/
def kOps : Nat := 0x03
/-- R306. -/
def kLace : Nat := 0x04
/-- R306. -/
def kTile : Nat := 0x05
/-- R306. -/
def kCounters : Nat := 0x06
/-- R306. -/
def kCoreRegs : Nat := 0x07
/-- R306. -/
def kStopSlots : Nat := 0x08
/-- R306. -/
def kSprueSlots : Nat := 0x09
/-- R306. -/
def kHbmPlace : Nat := 0x0A
/-- R306. -/
def kHbmData : Nat := 0x0B
/-- R306. -/
def kLinkPlan : Nat := 0x0C
/-- R306. -/
def kClockPlan : Nat := 0x0D
/-- R306. -/
def kPause : Nat := 0x0E
/-- R306. -/
def kCrc : Nat := 0x0F
/-- R306. -/
def kPkgRegs : Nat := 0x10

/-- Sections that land in cores (R305, R307); STOP_SLOTS lands in the stops of a die. -/
def isCoreKind (k : Nat) : Bool := decide (kOps ≤ k) && decide (k ≤ kCoreRegs)

/-- WEIGHTS of a section (R325). -/
def Section.weights (x : Section) : Bool := x.flags / 2 % 2 == 1

/-- SHARD of a section (R305). -/
def Section.shard (x : Section) : Bool := x.flags % 2 == 1

/-- MUTABLE of a section (R290). -/
def Section.isMutable (x : Section) : Bool := x.flags / 4 % 2 == 1

/-! ### The container (R301-R305) -/

/-- The work-area copy of a header and table that VERIFY makes (R302, R319): no more is read than the header says. -/
def State.copyImage (s : State) (base : Nat) : Work :=
  if base % 4096 ≠ 0 ∨ hostTop < base + 256 then ⟨base, [], false⟩
  else
    let n := leAt (s.hbm.load base 256) 0x18 4
    let n := if hostTop < base + leAt (s.hbm.load base 256) 8 8 ∨ 262144 < n then 0 else n
    ⟨base, s.hbm.load base (256 + 64 * n), s.hbmBad base (256 + 64 * n)⟩

/-- One section table entry (R305). -/
def parseSection (e : List Byte) : Section where
  kind := leAt e 0 1
  arrange := leAt e 1 1
  part := leAt e 2 1
  flags := leAt e 3 1
  first := leAt e 4 4
  count := leAt e 8 4
  length := leAt e 0xC 4
  offset := leAt e 0x10 8
  addr := leAt e 0x18 8
  digest := BitVec.ofNat 256 (leAt e 0x20 32)

/-- The image as its copied header and table give it, PATTERN_DIGEST included (R303-R305). -/
def Work.image (w : Work) : Image where
  base := w.base
  bytes := leAt w.bytes 8 8
  kind := leAt w.bytes 0x20 1
  fwMajor := leAt w.bytes 0x1E 2
  modes := leAt w.bytes 0x21 1
  partitions := leAt w.bytes 0x22 1
  arrangements := leAt w.bytes 0x23 1
  patchSeq := leAt w.bytes 0x24 4
  baseDigest := BitVec.ofNat 256 (leAt w.bytes 0x30 32)
  digest := sha3 w.bytes
  sections := (pieces 64 (w.bytes.drop 256)).map parseSection

/-- Whether an image is exact-timing (R303). -/
def Image.exact (i : Image) : Bool := i.modes.testBit 0

/-- Whether an image is portable (R303). -/
def Image.portable (i : Image) : Bool := i.modes.testBit 1

/-- Offset of the signature block (R303). -/
def Image.sigOffset (i : Image) : Nat := i.bytes - sigBytes

/-- The header's fields that R303 fixes, REASON 0x01. -/
def headerBad (h : List Byte) : Bool :=
  let kind := leAt h 0x20 1
  leAt h 0 4 != 0x56524F46 || leAt h 4 2 != 1 || leAt h 6 2 != 256 || !zeroAt h 0x70 144 ||
    decide (4 ≤ leAt h 0x21 1) || decide (1 < kind) ||
    (if kind = 0 then
      leAt h 0x22 1 == 0 || decide (8 < leAt h 0x22 1) || leAt h 0x23 1 == 0 || leAt h 0x24 4 != 0 ||
        !zeroAt h 0x30 32
    else leAt h 0x22 1 != 0 || leAt h 0x23 1 != 0 || leAt h 0x24 4 == 0)

/-- Whether a table entry breaks R305; package-wide sections, which are all but those that land in cores or stops, have COUNT
0 (R305, R306, R321). -/
def sectionBad (tend sig : Nat) (x : Section) : Bool :=
  decide (8 ≤ x.flags) || (!isCoreKind x.kind && x.kind != kStopSlots && x.count != 0) || x.length % 64 != 0 || x.offset % 64 != 0 || decide (x.offset < tend) ||
    decide (sig < x.offset + x.length)

/-- Checks of the header and the table (R301, R303, R305); 0 for none broken. -/
def Work.containerReason (w : Work) : Nat :=
  let h := w.bytes
  let n := leAt h 0x18 4
  let bytes := leAt h 8 8
  refusal
    [(w.base % 4096 != 0 || decide (hostTop < w.base + 256), 0x07), (decide (hostTop < w.base + bytes), 0x07),
     (w.bad, 0x11), (headerBad h, 0x01), (leAt h 0x1C 2 != 0x0801, 0x02),
     (bytes % 64 != 0 || leAt h 0x10 8 != 256 || n == 0 || decide (262144 < n) || decide (bytes < sigBytes) ||
       leAt h 0x28 8 + sigBytes != bytes || decide (bytes < 256 + 64 * n + sigBytes), 0x07),
     (w.image.sections.any (sectionBad (256 + 64 * n) (bytes - sigBytes)), 0x07)]

/-- The payload of a section, as it stands in HBM. -/
def State.payload (s : State) (i : Image) (x : Section) : List Byte := s.hbm.load (i.base + x.offset) x.length

/-- Whether the payload of a section holds an uncorrectable word. -/
def State.payloadBad (s : State) (i : Image) (x : Section) : Bool := s.hbmBad (i.base + x.offset) x.length

/-- The sections of one kind. -/
def Image.ofKind (i : Image) (k : Nat) : List Section := i.sections.filter fun x => x.kind == k

/-! ### Records -/

/-- A partition record (R310). -/
def parsePartRec (r : List Byte) : PartRec where
  part := leAt r 0 1
  dies := BitVec.ofNat 8 (leAt r 1 1)
  fresh := leAt r 2 1 == 1
  patchCtr := leAt r 3 1
  compiled := leAt r 4 4
  seed := BitVec.ofNat 96 (leAt r 8 12)

/-- An arrangement record (R311). -/
def parseArrangement (r : List Byte) : Arrangement where
  packages := leAt r 0 2
  topology := leAt r 2 1
  dimX := leAt r 4 2
  dimY := leAt r 6 2
  dimZ := leAt r 8 2
  position := leAt r 0xA 2
  shards := leAt r 0xC 4
  width := leAt r 0x10 2

/-- The grants of an HBM_PLACE payload (R334). -/
def parseGrants (part : Nat) (d : List Byte) : List Grant :=
  (List.range (leAt d 0 2)).map fun i =>
    let g := d.drop (64 + 32 * i)
    { part := part, base := leAt g 0 8, length := leAt g 8 8, kind := leAt g 0x10 1,
      isMutable := (leAt g 0x11 1).testBit 0 }

/-- Slot bitmaps of an HBM_PLACE payload, as numbers, one per pseudo-channel (R334). -/
def slotBitmaps (d : List Byte) : List Nat :=
  let n := ceilDiv (leAt d 4 2) 512 * 64
  (List.range 192).map fun p => leAt d (64 + 32 * leAt d 0 2 + n * p) n

/-- A pause table (R312). -/
def parsePause (d : List Byte) : PauseTbl where
  pauseBids := BitVec.ofNat 64 (leAt d 0 8)
  sweepCkpt := BitVec.ofNat 64 (leAt d 8 8)
  resultCkpt := BitVec.ofNat 64 (leAt d 0x10 8)
  sweepEntry := (List.range 4).map fun q => leAt d (0x18 + 2 * q) 2
  resultEntry := (List.range 4).map fun q => leAt d (0x20 + 2 * q) 2
  sweepsCtr := leAt d 0x28 1
  restartsCtr := leAt d 0x29 1
  sweeps := leAt d 0x2A 2
  restarts := leAt d 0x2C 2

/-- A clock plan (R473). -/
def parseClock (d : List Byte) : ClockPlan where
  point := leAt d 0 1
  minPoint := leAt d 1 1
  capW := leAt d 2 2
  idleTicks := leAt d 4 4
  holdDuty := leAt d 8 1

/-! ### Where a section lands (R305, R307, R283) -/

/-- The logical cores of a set of dies, ascending. -/
def coresOfDies (dies : BitVec 8) : List Nat :=
  ((List.range 8).filter dies.getLsbD).flatMap fun d => rangeFrom (256 * d) (256 * d + 256)

/-- This package's index in the torus found (R311, R389). -/
def State.position (s : State) : Nat := if s.onF lAgreed then s.pkgId else 0

/-- The core that holds shard-local index `g`, if this package holds its shard (R283). -/
def shardCore (a : Arrangement) (pos : Nat) (cores : List Nat) (g : Nat) : Option Nat :=
  let sh := g / a.width
  if sh * a.packages / a.shards = pos then cores[(sh % (a.shards / a.packages)) * a.width + g % a.width]? else none

/-- The cores that a core section lands in (R305, R307). -/
def landingCores (a : Arrangement) (pos : Nat) (cores : List Nat) (x : Section) : List Nat :=
  let ids := rangeFrom x.first (x.first + x.count)
  if x.shard then ids.filterMap (shardCore a pos cores) else ids

/-! ### Register images (R308, R390, R428) -/

/-- Fields that CORE_REGS images set. -/
def pourCore : List RegDesc :=
  [rCore 0x200 4 [ro 0 16, ro 16 4, ro 20 4], rCores 0x204 4 4 4 [ro 0 18], rCore 0x214 4 [ro 0 18],
   rCore 0x218 4 [ro 0 15], rCore 0x21C 4 [ro 0 19], rCores 0x240 4 16 4 [ro 0 16, ro 16 16],
   rCores 0x348 4 6 4 [ro 0 19], rCore 0x360 4 [ro 0 1], rCores 0x900 0x40 4 8 [ro 0 12, ro 12 12, ro 24 12, ro 36 1],
   rCores 0x920 0x40 4 4 [ro 0 32], rCores 0xC00 8 64 8 [ro 0 26, ro 26 15, ro 41 18, ro 63 1]]

/-- Fields that PKG_REGS images set. -/
def pourPkg : List RegDesc :=
  [rMany 0x00100000 8 256 8 [ro 0 16], rMany 0x00100800 8 256 8 [ro 0 1, ro 1 3, ro 4 6],
   rMany 0x00101000 16 32 8 [rw_ 0 8, rw_ 8 16, rw_ 24 2, rw_ 26 5, rw_ 31 6, rw_ 63 1],
   rMany 0x00200400 8 8 8 [rw_ 0 32, rw_ 32 16, ro 48 6, ro 63 1],
   rMany 0x00709000 8 2048 8 [ro 0 26, ro 26 15, ro 41 8, ro 49 1, ro 63 1],
   rMany 0x0070F000 8 64 8 [ro 0 3, ro 3 12, ro 27 1, ro 28 1]]

/-- Fields that CRC images set, apart from NEXT. -/
def pourCrc : List RegDesc :=
  [rMany 0x00300000 0x100 8 8 [rw_ 0 1, rw_ 1 1, rw_ 2 1, rw_ 3 1, rw_ 4 1, rw_ 5 1, rw_ 6 1, rw_ 7 1, rw_ 8 7,
     rw_ 16 2, rw_ 24 8, rw_ 32 6, rw_ 38 1],
   rGrid 0x00300008 0x100 8 8 3 8 [rw_ 0 64], rMany 0x00300020 0x100 8 8 [rw_ 0 38, rw_ 48 16],
   rMany 0x00300028 0x100 8 8 [rw_ 0 32, rw_ 32 32]]

/-- NEXT of the check-value units, which a CRC image may hold. -/
def pourNext : List RegDesc := [rMany 0x00300030 0x100 8 8 [rw_ 0 16]]

/-- Fields that LINK_PLAN images set. -/
def pourLink : List RegDesc :=
  [rMany 0x00603000 8 64 8 [ro 0 12, ro 12 24], rMany 0x00604000 8 256 8 [ro 0 26, ro 26 15, ro 41 12, ro 63 1],
   rMany 0x00605000 16 256 8 [ro 0 26, ro 26 15, ro 41 12, ro 53 8, ro 63 1], rMany 0x00605008 16 256 8 [ro 0 26],
   rMany 0x00606000 8 512 8 [ro 0 64]]

/-- The bits of the 32-bit word at `a` that an image may set. -/
def pourMask (m : List RegDesc) (a : Nat) : W32 :=
  match findReg m a with
  | none => 0
  | some d =>
    let h := d.within a / 4 * 4 * 8
    let x : W64 := d.fields.foldl (fun x f => x ||| (BitVec.ofNat 64 (2 ^ f.w - 1) <<< f.lo)) 0
    x.extractLsb' h 32

/-- Bytes of an image, by offset from its first. -/
def imageByte (d : List Byte) (base a : Nat) : Byte := if base ≤ a then d.getD (a - base) 0 else 0

/-- The 32-bit word at `a` of an image that starts at `base`; what it does not cover is 0. -/
def imageWord (d : List Byte) (base a : Nat) : W32 :=
  BitVec.ofNat 32 (leNat ((List.range 4).map fun i => imageByte d base (a + i)))

/-- The bits of the word at `a` that the image covers. -/
def coverMask (n base a : Nat) : W32 :=
  BitVec.ofNat 32 (leNat ((List.range 4).map fun i => if base ≤ a + i ∧ a + i < base + n then 0xFF#8 else 0))

/-- Word addresses that an image of `n` bytes from `base` touches. -/
def imageWords (base n : Nat) : List Nat := (wordsOf 4 base n).map (4 * ·)

/-- The bytes of a word any of whose bits an image may set (R308). -/
def byteMask (m : W32) : W32 :=
  BitVec.ofNat 32 (leNat ((List.range 4).map fun i => if m.extractLsb' (8 * i) 8 = 0#8 then 0#8 else 0xFF#8))

/-- Whether an image holds a byte outside the registers it may set that is not 0 (R308). -/
def imageBad (m : List RegDesc) (base : Nat) (d : List Byte) : Bool :=
  (imageWords base d.length).any fun a => imageWord d base a &&& ~~~(byteMask (pourMask m a)) != 0

/-- Lands one word of a register image: the fields it covers change, the rest stays (R308). -/
def landWord (m : List RegDesc) (base : Nat) (d : List Byte) (a : Nat) (s : State) : State :=
  let k := pourMask m a &&& coverMask d.length base a
  if k = 0 then s else s.setW (a / 4) ((s.regW (a / 4) &&& ~~~k) ||| (imageWord d base a &&& k))

/-- Lands a register image. -/
def landImage (m : List RegDesc) (base : Nat) (d : List Byte) (s : State) : State :=
  forAll (imageWords base d.length) (landWord m base d) s

/-- Lands a CRC section: NEXT only where the section sets NEXT_LOAD (R428). -/
def landCrc (d : List Byte) (s : State) : State :=
  let s := landImage pourCrc 0x00300000 d s
  forAll (List.range 8) (fun u t =>
    if (imageWord d 0x00300000 (0x00300000 + 0x100 * u)).getLsbD 7 then
      landWord pourNext 0x00300000 d (0x00300030 + 0x100 * u) t
    else t) s

/-- Lands the package registers of one section: R308's, a link plan's or a check-value unit's. -/
def landPackage (x : Section) (d : List Byte) (s : State) : State :=
  if x.kind = kPkgRegs then landImage pourPkg x.addr d s
  else if x.kind = kLinkPlan then landImage pourLink 0x00603000 d s
  else if x.kind = kCrc then landCrc d s
  else s

end Sys2Proof.Machine
end

