-- ==== Sys2Proof/Machine/Mldsa.lean ====
section
/-!
DEFINITION. ML-DSA-44 of FIPS 204, whose parameters and algorithms are taken from that standard (PRESUMED, log 7): key
generation (R486), hedged signing (R489), and HashML-DSA verification with SHA3-256 (R314, R316, R469, R506). The
rejection loops of the standard are bounded here; where a bound is reached the standard lets an implementation fail.
-/
namespace Sys2Proof.Machine

/-! ### The ring and its transform -/

/-- The modulus q. -/
def dsaQ : Nat := 8380417

/-- γ₂ = (q − 1) / 88. -/
def dsaGamma2 : Nat := 95232

/-- γ₁. -/
def dsaGamma1 : Nat := 131072

/-- A polynomial: 256 coefficients below q, or 256 values of its transform. -/
abbrev Poly := List Nat

/-- `x` to the power `n`, modulo q. -/
def powQ (x : Nat) : Nat → Nat
  | 0 => 1
  | n + 1 => let h := powQ x ((n + 1) / 2); if (n + 1) % 2 = 0 then h * h % dsaQ else h * h % dsaQ * x % dsaQ

/-- Sum, difference and product, place by place. -/
def polyAdd (a b : Poly) : Poly := List.zipWith (fun x y => (x + y) % dsaQ) a b

/-- The difference of two polynomials. -/
def polySub (a b : Poly) : Poly := List.zipWith (fun x y => (x + (dsaQ - y)) % dsaQ) a b

/-- The product of two transforms. -/
def polyMul (a b : Poly) : Poly := List.zipWith (fun x y => x * y % dsaQ) a b

/-- The polynomial with every coefficient 0. -/
def polyZero : Poly := List.replicate 256 0

/-- A byte with its bits reversed. -/
def rev8 (i : Nat) : Nat := ((List.range 8).map fun k => if i.testBit k then 2 ^ (7 - k) else 0).sum

/-- The value at `x` of the polynomial with these coefficients, of x⁰ first. -/
def polyAt (x : Nat) (w : Poly) : Nat := w.foldr (fun c v => (c + v * x) % dsaQ) 0

/-- The points of the transform: 1753 to the powers 2·rev(i) + 1, in that order. -/
def nttPoints : List Nat := (List.range 256).map fun i => powQ 1753 (2 * rev8 i + 1)

/-- NTT: the values at the 256 points. -/
def ntt (w : Poly) : Poly := nttPoints.map fun x => polyAt x w

/-- NTT⁻¹: coefficient j is the mean over the points x of the value there times x⁻ʲ; x⁵¹² is 1. -/
def nttInv (v : Poly) : Poly :=
  let inv := powQ 256 (dsaQ - 2)
  let e := (List.range 512).map fun k => powQ 1753 k
  (List.range 256).map fun j =>
    (v.zipIdx.map fun c => c.1 * e.getD ((512 - (2 * rev8 c.2 + 1) * j % 512) % 512) 0 % dsaQ).sum % dsaQ * inv % dsaQ

/-- A matrix of transforms applied to a vector of transforms, back as polynomials. -/
def matVec (m : List (List Poly)) (v : List Poly) : List Poly :=
  m.map fun row => nttInv ((List.zipWith polyMul row v).foldl polyAdd polyZero)

/-! ### Rounding and hints -/

/-- `mod±`: the representative of `r` modulo `m` in (−m/2, m/2]. -/
def modPm (r m : Nat) : Int := let x := r % m; if 2 * x ≤ m then x else (x : Int) - m

/-- An integer as a residue modulo q. -/
def resQ (x : Int) : Nat := (x % dsaQ).toNat

/-- Power2Round of a coefficient. -/
def power2Round (r : Nat) : Nat × Int := let r0 := modPm r 8192; ((((r : Int) - r0) / 8192).toNat, r0)

/-- Decompose of a coefficient. -/
def decompose (r : Nat) : Nat × Int :=
  let r0 := modPm r (2 * dsaGamma2)
  if (r : Int) - r0 = dsaQ - 1 then (0, r0 - 1) else ((((r : Int) - r0) / (2 * dsaGamma2)).toNat, r0)

/-- UseHint of a coefficient. -/
def useHint (h : Nat) (r : Nat) : Nat :=
  let (r1, r0) := decompose r
  if h = 0 then r1 else if 0 < r0 then (r1 + 1) % 44 else (r1 + 43) % 44

/-- MakeHint for a coefficient `r` that `z` is added to. -/
def makeHint (z r : Nat) : Nat := if (decompose r).1 = (decompose ((r + z) % dsaQ)).1 then 0 else 1

/-- The infinity norm of a vector of polynomials. -/
def normInf (v : List Poly) : Nat := (v.flatMap fun w => w.map fun c => (modPm c dsaQ).natAbs).foldl max 0

/-! ### Packing -/

/-- Packs numbers in `b` bits each, least significant first. -/
def packBits (b : Nat) (l : List Nat) : List Byte :=
  natLe (l.length * b / 8) (l.foldr (fun x n => x % 2 ^ b + 2 ^ b * n) 0)

/-- Unpacks numbers of `b` bits each. -/
def unpackBits (b : Nat) (bs : List Byte) : List Nat :=
  let n := leNat bs
  (List.range (bs.length * 8 / b)).map fun i => n / 2 ^ (b * i) % 2 ^ b

/-- HintBitPack: the places of the ones, then the running count after each polynomial. -/
def packHint (h : List Poly) : List Byte :=
  let places := h.map fun w => (w.zipIdx.filter fun c => c.1 != 0).map (·.2)
  let all := places.flatten
  let counts := (List.range 4).map fun i => ((places.take (i + 1)).map List.length).sum
  ((all ++ List.replicate (80 - all.length) 0) ++ counts).map (BitVec.ofNat 8)

/-- Whether numbers are strictly rising. -/
def rising : List Nat → Bool
  | a :: b :: t => decide (a < b) && rising (b :: t)
  | _ => true

/-- HintBitUnpack; none for an encoding that the standard refuses. -/
def unpackHint (y : List Byte) : Option (List Poly) :=
  let at_ := fun i => (y.getD i 0).toNat
  let ends := (List.range 4).map fun i => at_ (80 + i)
  let starts := 0 :: ends.take 3
  let ranges := (starts.zip ends).map fun e => (rangeFrom e.1 e.2).map at_
  if (starts.zip ends).any (fun e => decide (e.2 < e.1) || decide (80 < e.2)) || ranges.any (fun l => !rising l) ||
      (rangeFrom (at_ 83) 80).any (fun i => at_ i != 0) then none
  else some (ranges.map fun l => (List.range 256).map fun j => if l.contains j then 1 else 0)

/-- w1Encode. -/
def encodeW1 (w : List Poly) : List Byte := w.flatMap (packBits 6)

/-! ### Sampling -/

/-- RejNTTPoly from the bytes of its stream: 23 bits of every three bytes, those below q. -/
def rejNtt (bs : List Byte) : Poly := ((pieces 3 bs).map fun t => leNat t % 2 ^ 23).filter (fun z => decide (z < dsaQ)) |>.take 256

/-- ExpandA: a 4 × 4 matrix of transforms. -/
def expandA (rho : List Byte) : List (List Poly) :=
  (List.range 4).map fun r => (List.range 4).map fun s =>
    rejNtt (shake128 1008 (rho ++ [BitVec.ofNat 8 s, BitVec.ofNat 8 r]))

/-- RejBoundedPoly for η = 2 from the bytes of its stream. -/
def rejBounded (bs : List Byte) : Poly :=
  ((bs.flatMap fun b => [b.toNat % 16, b.toNat / 16]).filter fun x => decide (x < 15)).take 256 |>.map fun x =>
    resQ (2 - (x % 5 : Nat))

/-- Vector `n` of ExpandS: four polynomials, numbered from `n` on. -/
def expandS (rho : List Byte) (n : Nat) : List Poly :=
  (List.range 4).map fun r => rejBounded (shake256 544 (rho ++ natLe 2 (n + r)))

/-- A coefficient of y or z from its 18 bits. -/
def fromMask (x : Nat) : Nat := resQ ((dsaGamma1 : Int) - (x : Int))

/-- ExpandMask. -/
def expandMask (rho : List Byte) (mu : Nat) : List Poly :=
  (List.range 4).map fun r => (unpackBits 18 (shake256 576 (rho ++ natLe 2 (mu + r)))).map fromMask

/-- The next place below or at `i` in a stream of bytes, with the rest of the stream. -/
def placeUpTo (i : Nat) : List Byte → Nat × List Byte
  | [] => (0, [])
  | b :: t => if b.toNat ≤ i then (b.toNat, t) else placeUpTo i t

/-- SampleInBall's steps from place `i` on, with the sign bits that remain. -/
def ballSteps : Nat → Nat → List Bool → List Byte → Poly → Poly
  | 0, _, _, _, c => c
  | n + 1, i, signs, bs, c =>
    let (j, bs) := placeUpTo i bs
    let c := (c.set i (c.getD j 0)).set j (if signs.headD false then dsaQ - 1 else 1)
    ballSteps n (i + 1) signs.tail bs c

/-- SampleInBall: 39 coefficients of ±1. -/
def sampleInBall (rho : List Byte) : Poly :=
  let bs := shake256 408 rho
  let signs := (bs.take 8).flatMap fun b => (List.range 8).map b.getLsbD
  ballSteps 39 217 signs (bs.drop 8) polyZero

/-! ### Keys -/

/-- A private key as it is used: ρ, K, tr, s₁, s₂, t₀. -/
structure SignKey where
  rho : List Byte
  k : List Byte
  tr : List Byte
  s1 : List Poly
  s2 : List Poly
  t0 : List Poly

/-- KeyGen_internal: the public key and the private key of a seed (R486). -/
@[irreducible] def dsaKeyGen (seed : BitVec 256) : List Byte × SignKey :=
  let h := shake256 128 (digestBytes seed ++ [4#8, 4#8])
  let rho := h.take 32
  let s1 := expandS ((h.drop 32).take 64) 0
  let s2 := expandS ((h.drop 32).take 64) 4
  let t := List.zipWith polyAdd (matVec (expandA rho) (s1.map ntt)) s2
  let pk := rho ++ t.flatMap fun w => packBits 10 (w.map fun r => (power2Round r).1)
  (pk, ⟨rho, h.drop 96, shake256 64 pk, s1, s2, t.map fun w => w.map fun r => resQ (power2Round r).2⟩)

/-- The public key of a seed (R486). -/
def dsaPublicKey (seed : BitVec 256) : List Byte := (dsaKeyGen seed).1

/-! ### Signing (R489) -/

/-- One round of Sign_internal; none where it rejects. -/
def signRound (sk : SignKey) (a : List (List Poly)) (mu rho : List Byte) (kappa : Nat) : Option (List Byte) :=
  let y := expandMask rho kappa
  let w := matVec a (y.map ntt)
  let ct := shake256 32 (mu ++ encodeW1 (w.map fun p => p.map fun r => (decompose r).1))
  let c := ntt (sampleInBall ct)
  let times := fun v : List Poly => v.map fun p => nttInv (polyMul c (ntt p))
  let z := List.zipWith polyAdd y (times sk.s1)
  let r := List.zipWith polySub w (times sk.s2)
  let low := (r.flatMap fun p => p.map fun x => (decompose x).2.natAbs).foldl max 0
  let ct0 := times sk.t0
  let h := List.zipWith (fun p q => List.zipWith (fun t x => makeHint ((dsaQ - t) % dsaQ) ((x + t) % dsaQ)) p q) ct0 r
  if dsaGamma1 - 78 ≤ normInf z || dsaGamma2 - 78 ≤ low || dsaGamma2 ≤ normInf ct0 || 80 < (h.map List.sum).sum then none
  else some (ct ++ (z.flatMap fun p => packBits 18 (p.map fun x => ((dsaGamma1 : Int) - modPm x dsaQ).toNat)) ++ packHint h)

/-- Rounds of Sign_internal until one is accepted, at most `n`. -/
def signRounds (sk : SignKey) (a : List (List Poly)) (mu rho : List Byte) : Nat → Nat → List Byte
  | 0, _ => []
  | n + 1, kappa =>
    match signRound sk a mu rho kappa with
    | some s => s
    | none => signRounds sk a mu rho n (kappa + 4)

/-- ML-DSA.Sign in hedged form, of a message under a context, with 32 random bytes and the key of a seed (R489). -/
@[irreducible] def dsaSign (seed : BitVec 256) (msg context : List Byte) (rnd : BitVec 256) : List Byte :=
  let sk := (dsaKeyGen seed).2
  let mu := shake256 64 (sk.tr ++ 0#8 :: BitVec.ofNat 8 context.length :: context ++ msg)
  signRounds sk (expandA sk.rho) mu (shake256 64 (sk.k ++ digestBytes rnd ++ mu)) 814 0

/-! ### Verifying (R314) -/

/-- Verify_internal over the message representative μ. -/
def verifyMu (pk mu sig : List Byte) : Bool :=
  match unpackHint (sig.drop 2336) with
  | none => false
  | some h =>
    let z := (pieces 576 ((sig.drop 32).take 2304)).map fun p => (unpackBits 18 p).map fromMask
    let t1 := (pieces 320 (pk.drop 32)).map fun p => (unpackBits 10 p).map (· * 8192)
    let c := ntt (sampleInBall (sig.take 32))
    let az := matVec (expandA (pk.take 32)) (z.map ntt)
    let w := List.zipWith polySub az (t1.map fun p => nttInv (polyMul c (ntt p)))
    let w1 := List.zipWith (fun p q => List.zipWith useHint p q) h w
    decide (normInf z < dsaGamma1 - 78) && shake256 32 (mu ++ encodeW1 w1) == sig.take 32

/-- The object identifier of SHA3-256 in DER, as HashML-DSA puts it before the digest. -/
def oidSha3 : List Byte := [0x06, 0x09, 0x60, 0x86, 0x48, 0x01, 0x65, 0x03, 0x04, 0x02, 0x08]

/-- HashML-DSA.Verify with SHA3-256 as pre-hash: public key, context, message digest, signature (R314). -/
@[irreducible] def dsaVerify (pk context : List Byte) (digest : BitVec 256) (sig : List Byte) : Bool :=
  pk.length == 1312 && sig.length == 2420 &&
    verifyMu pk (shake256 64 (shake256 64 pk ++ 1#8 :: BitVec.ofNat 8 context.length :: context ++ oidSha3 ++ digestBytes digest)) sig

end Sys2Proof.Machine
end

