-- ==== Sys2Proof/Machine/Verify.lean ====
section
/-!
DEFINITION. Verification of images and key records: VERIFY, VERIFY_COMPLETE, KEY (R310-R320, R325, R334-R336, R428,
R473).
-/
namespace Sys2Proof.Machine

/-! ### Signatures (R313-R316) -/

/-- Whether a signature block is malformed (R313, R320). -/
def sigMalformed (b : List Byte) : Bool := leAt b 0 4 != 0x47495346 || leAt b 6 2 != 1 || !zeroAt b 0xE9C 36

/-- PUBLIC_KEY of a signature block. -/
def sigKey (b : List Byte) : List Byte := (b.drop 8).take 1312

/-- Whether HashML-DSA accepts the block's signature of a message digest under a context (R314). -/
def sigVerifies (b : List Byte) (context : List Byte) (digest : BitVec 256) : Bool :=
  dsaVerify (sigKey b) context digest ((b.drop 0x528).take 2420)

/-- The 11 ASCII bytes "GL8 pattern" (R314). -/
def ctxPattern : List Byte := [0x47, 0x4C, 0x38, 0x20, 0x70, 0x61, 0x74, 0x74, 0x65, 0x72, 0x6E]

/-- The 14 ASCII bytes "GL8 key record" (R316). -/
def ctxKeyRecord : List Byte := [0x47, 0x4C, 0x38, 0x20, 0x6B, 0x65, 0x79, 0x20, 0x72, 0x65, 0x63, 0x6F, 0x72, 0x64]

/-- The key hash an owner slot holds (R315). -/
def Fuses.hash (f : Fuses) (n : Nat) : BitVec 256 := tblGet (fun _ => 0) f.ownerHash n

/-- Whether owner slot `n` is enrolled and not revoked (R315). -/
def Fuses.ownerOk (f : Fuses) (n : Nat) : Bool := decide (n < 4) && f.ownerEnrolled.getLsbD n && !f.ownerRevoked.getLsbD n

/-- Whether vendor slot `n` holds this public key and is not revoked (R315). -/
def Fuses.vendorOk (f : Fuses) (n : Nat) (key : List Byte) : Bool :=
  decide (n < 4) && !f.vendorRevoked.getLsbD n && sha3 key == Config.vendorHash n

/-- The signature check of an image (R313, R314). -/
def sigReason (s : State) (i : Image) : Nat :=
  let a := i.base + i.sigOffset
  let b := s.hbm.load a sigBytes
  let slot := leAt b 5 1
  refusal
    [(s.hbmBad a sigBytes, 0x11), (sigMalformed b, 0x06), (leAt b 4 1 != 1 || !s.fuses.ownerOk slot, 0x04),
     (sha3 (sigKey b) != s.fuses.hash slot, 0x05), (!sigVerifies b ctxPattern i.digest, 0x06)]

/-! ### Kinds and records (R306, R310, R311) -/

/-- Section kinds that every partition has exactly once (R306). -/
def oncePerPart : List Nat := [kHbmPlace, kClockPlan, kPause]

/-- How many sections of kind `k` name partition `p`. -/
def Image.count (i : Image) (k p : Nat) : Nat := ((i.ofKind k).filter fun x => x.part == p).length

/-- Whether each partition has exactly one PARTITION section: one that names it, or one that is package-wide (R306; log
16). -/
def partitionOnce (i : Image) : Bool :=
  (List.range i.partitions).all (fun p => ((i.ofKind kPartition).filter fun x => x.part == p || x.part == 0xFF).length == 1) &&
    (i.ofKind kPartition).all fun x => decide (x.part < i.partitions) || x.part == 0xFF

/-- Kinds a pattern may not hold, misses or repeats (R306, R309). -/
def kindsBad (i : Image) : Bool :=
  i.sections.any (fun x => decide (x.kind < 1) || decide (0x10 < x.kind) ||
    ((x.kind == kStopSlots || x.kind == kSprueSlots) && !i.exact)) ||
  !partitionOnce i || (i.ofKind kArrangement).length != i.arrangements ||
  oncePerPart.any fun k => (i.ofKind k).length != i.partitions || (List.range i.partitions).any fun p => i.count k p != 1

/-- Kinds a patch may not hold (R325). -/
def patchKindsBad (i : Image) : Bool :=
  i.sections.any fun x => !(x.kind == kTile || x.kind == kHbmData || (x.kind == kLace && x.weights))

/-- Logical cores that a die presents: stops neither fenced nor bypassed (R2, R267). -/
def State.dieCores (s : State) (d : Nat) : Nat :=
  ((List.range 288).filter fun p => !s.onF (rsFenced d p) && !s.onF (rsBypassed d p)).length

/-- Whether a die is conformant: 256 logical cores, at most two stitch-overs, neither tap without a candidate
(R2, R242, R244). -/
def State.dieConforms (s : State) (d : Nat) : Bool :=
  s.dieCores d == 256 && decide (((List.range 288).filter fun p => s.onF (rsBypassed d p)).length ≤ 2) &&
    !(s.onF (rsBypassed d 0) && s.onF (rsBypassed d 1)) && !(s.onF (rsBypassed d 144) && s.onF (rsBypassed d 145))

/-- The partition records of an image's PARTITION payload. -/
def partRecs (n : Nat) (d : List Byte) : List PartRec := (List.range n).map fun k => parsePartRec (d.drop (64 * k))

/-- Whether a partition record breaks R310, or its dies are not conformant. -/
def partRecBad (s : State) (i : Image) (r : List Byte) : Bool :=
  let x := parsePartRec r
  decide (i.partitions ≤ x.part) || x.dies == 0 || decide (1 < leAt r 2 1) || (x.patchCtr != 0xFF && decide (64 ≤ x.patchCtr)) ||
    !zeroAt r 0x14 44 || (x.fresh && !zeroAt r 8 12) || (!i.exact && x.compiled != 0) ||
    (List.range 8).any fun d => x.dies.getLsbD d && !s.dieConforms d

/-- Whether any two of a list stand in a relation. -/
def anyPair {α : Type} (f : α → α → Bool) : List α → Bool
  | [] => false
  | x :: t => t.any (f x) || anyPair f t

/-- Records of a PARTITION section: those of all partitions where it is package-wide, else the one of its own. -/
def recCount (i : Image) (x : Section) : Nat := if x.part = 0xFF then i.partitions else 1

/-- The partition records of an image. -/
def imageRecs (s : State) (i : Image) : List PartRec :=
  (i.ofKind kPartition).flatMap fun x => partRecs (recCount i x) (s.payload i x)

/-- Whether a PARTITION section is too short for its records, holds one that breaks R310, or one of another partition. -/
def recSectionBad (s : State) (i : Image) (x : Section) : Bool :=
  let d := s.payload i x
  decide (d.length < 64 * recCount i x) ||
    (List.range (recCount i x)).any (fun k => partRecBad s i ((d.drop (64 * k)).take 64)) ||
    (partRecs (recCount i x) d).any fun r => x.part != 0xFF && r.part != x.part

/-- Whether an image's partition records are invalid (R310). -/
def partitionsBad (s : State) (i : Image) : Bool :=
  (i.ofKind kPartition).any (recSectionBad s i) ||
    anyPair (fun a b => a.part == b.part || a.dies &&& b.dies != 0) (imageRecs s i)

/-- Whether an arrangement record is malformed in itself (R282, R311, R373). -/
def arrangementBad (portable : Bool) (r : List Byte) : Bool :=
  let a := parseArrangement r
  let ext := [a.dimX + 1, a.dimY + 1, a.dimZ + 1]
  decide (r.length < 64) || !zeroAt r 3 1 || !zeroAt r 0x12 46 || decide (3 < a.topology) || a.packages == 0 ||
    decide (4096 < a.packages) || decide (4096 < ext.foldl (· * ·) 1) || (ext.take a.topology).any (fun n => decide (n < 2)) ||
    (if portable then
      a.position != 0xFFFF || a.width == 0 || decide (2048 < a.width) || 2 ^ a.width.log2 != a.width || a.shards == 0 ||
        a.shards % a.packages != 0 || decide (2048 < a.shards * a.width / a.packages)
    else a.shards != 0 || a.width != 0)

/-- Whether an arrangement record matches the torus found and this package's place in it (R311, R389). -/
def arrangementFits (s : State) (portable : Bool) (a : Arrangement) : Bool :=
  let found := s.onF lAgreed
  let dims := if found then (s.net.torus.dimX, s.net.torus.dimY, s.net.torus.dimZ) else (0, 0, 0)
  a.topology == (if found then s.net.torus.topology else 0) && (a.dimX, a.dimY, a.dimZ) == dims &&
    a.packages == (dims.1 + 1) * (dims.2.1 + 1) * (dims.2.2 + 1) && (portable || a.position == s.position)

/-- The arrangement records of an image that match, with their numbers. -/
def fitting (s : State) (i : Image) : List (Nat × Arrangement) :=
  let recs := (i.ofKind kArrangement).map fun x => parseArrangement (s.payload i x)
  ((List.range recs.length).zip recs).filter fun e => arrangementFits s i.portable e.2

/-- The record checks of a pattern (R310, R311). -/
def recordsReason (s : State) (i : Image) : Nat :=
  refusal
    [((i.ofKind kPartition ++ i.ofKind kArrangement).any (s.payloadBad i), 0x11),
     (partitionsBad s i, 0x0A),
     ((i.ofKind kArrangement).any fun x => arrangementBad i.portable (s.payload i x), 0x0B),
     ((fitting s i).length != 1, 0x0B)]

/-! ### Destinations (R305-R309, R319) -/

/-- What the destination checks of an image need: records, the arrangement chosen, the sections that land. -/
structure Plan where
  recs : List PartRec
  arr : Arrangement
  pos : Nat
  land : List Section

/-- The dies of a partition. -/
def Plan.dies (x : Plan) (p : Nat) : BitVec 8 :=
  match x.recs.find? fun r => r.part == p with
  | some r => r.dies
  | none => 0

/-- The cores of a partition, ascending. -/
def Plan.cores (x : Plan) (p : Nat) : List Nat := coresOfDies (x.dies p)

/-- The cores a section lands in. -/
def Plan.landing (x : Plan) (e : Section) : List Nat := landingCores x.arr x.pos (x.cores e.part) e

/-- The sections that land under an arrangement record number (R305). -/
def Image.under (i : Image) (idx : Nat) : List Section := i.sections.filter fun x => x.arrange == 0 || x.arrange == idx + 1

/-- Kinds that may stand for the whole package (R305, R306). -/
def packageKind (k : Nat) : Bool := [kPartition, kArrangement, kSprueSlots, kLinkPlan, kCrc, kPkgRegs].contains k

/-- Whether PART of a section names no partition of the pattern (R305). -/
def partBad (x : Plan) (e : Section) : Bool :=
  !(x.recs.any (fun r => r.part == e.part)) && !(e.part == 0xFF && packageKind e.kind)

/-- Bytes of what a core section lands in. -/
def coreSpace (k : Nat) : Nat :=
  if k = kOps then 0x10000 else if k = kLace then 0x100000 else if k = kTile then 0x80000
  else if k = kCounters then 128 else 0x1000

/-- Whether shard-local indices of a section lie outside the arrangement or the partition's cores (R283, R307). -/
def shardBad (x : Plan) (e : Section) : Bool :=
  let cs := x.cores e.part
  decide (x.arr.shards * x.arr.width < e.first + e.count) ||
    (rangeFrom e.first (e.first + e.count)).any fun g =>
      let sh := g / x.arr.width
      sh * x.arr.packages / x.arr.shards == x.pos && (shardCore x.arr x.pos cs g).isNone

/-- Whether a core section lands outside its memory or its partition (R305, R307). -/
def coreDestBad (x : Plan) (e : Section) : Bool :=
  isCoreKind e.kind &&
    (decide (coreSpace e.kind < e.addr + e.length) || (e.kind == kCounters && e.length != 128) || e.count == 0 ||
      (if e.shard then shardBad x e
       else decide (2048 < e.first + e.count) || (rangeFrom e.first (e.first + e.count)).any fun c => !(x.dies e.part).getLsbD (dieOf c)))

/-- Where a section lands: the space, the address range, the cores or dies. -/
def claim (x : Plan) (e : Section) : Option (Nat × Nat × Nat × List Nat) :=
  if isCoreKind e.kind then some (e.kind, e.addr, e.addr + e.length, x.landing e)
  else if e.kind = kStopSlots then some (kStopSlots, 0, 1, [e.first / 256])
  else if e.kind = kHbmData then some (kHbmData, e.addr, e.addr + e.length, [0])
  else if e.kind = kPkgRegs then some (kPkgRegs, e.addr, e.addr + e.length, [0])
  else if e.kind = kLinkPlan then some (kPkgRegs, 0x00603000, 0x00603000 + e.length, [0])
  else if e.kind = kCrc then some (kPkgRegs, 0x00300000, 0x00300000 + e.length, [0])
  else none

/-- Whether two sections write one destination byte (R305). -/
def clash (x : Plan) (e f : Section) : Bool :=
  match claim x e, claim x f with
  | some (k, a, b, cs), some (l, c, d, ds) => k == l && decide (a < d) && decide (c < b) && cs.any ds.contains
  | _, _ => false

/-- Whether two sections write one destination byte under an arrangement of the image, in any package of it (R305). -/
def writtenTwice (s : State) (i : Image) (recs : List PartRec) : Bool :=
  let as := (i.ofKind kArrangement).map fun x => parseArrangement (s.payload i x)
  ((List.range as.length).zip as).any fun e => (List.range (if i.portable then e.2.packages else 1)).any fun pos =>
    anyPair (clash ⟨recs, e.2, pos, i.under e.1⟩) (i.under e.1)

/-- Kinds whose ADDR is 0 and whose destination is one place (R306). -/
def zeroAddrKinds : List Nat :=
  [kPartition, kArrangement, kCounters, kStopSlots, kSprueSlots, kHbmPlace, kLinkPlan, kClockPlan, kPause, kCrc]

/-- Whether ADDR of a section is not the 0 that its kind has (R306). -/
def addrBad (e : Section) : Bool := zeroAddrKinds.contains e.kind && e.addr != 0

/-- Whether a register image breaks R308, or a plan's image leaves its block. -/
def regImageBad (s : State) (i : Image) (e : Section) : Bool :=
  let d := s.payload i e
  if e.kind = kCoreRegs then imageBad pourCore (corePage 0 + e.addr) d
  else if e.kind = kPkgRegs then imageBad pourPkg e.addr d
  else if e.kind = kLinkPlan then e.addr != 0 || decide (0x4000 < e.length) || imageBad pourLink 0x00603000 d
  else if e.kind = kCrc then e.addr != 0 || decide (0x800 < e.length) || imageBad (pourCrc ++ pourNext) 0x00300000 d
  else false

/-- A table of a STOP_SLOTS section as four ring bitmaps and the field bitmap (R309). -/
def slotTable (t : List Byte) : List Nat := ((List.range 4).map fun r => leAt t (36 * r) 36) ++ [leAt t 144 2]

/-- Whether a STOP_SLOTS section breaks R261 or R309. -/
def stopSlotsBad (s : State) (x : Plan) (i : Image) (e : Section) : Bool :=
  let d := e.first / 256
  let tables := (pieces 192 (s.payload i e)).map slotTable
  e.first % 256 != 0 || e.count != 256 || e.length != 258 * 192 || e.addr != 0 || e.shard ||
    !(decide (d < 8) && (x.dies e.part).getLsbD d) ||
    (pieces 192 (s.payload i e)).any (fun t => !zeroAt t 146 46 || decide (512 ≤ leAt t 144 2)) ||
    tables.any (fun t => (t.take 4).any fun v => decide (2 ^ s.getF (rdRotation d) ≤ v)) ||
    anyPair (fun t u => (t.zip u).any fun v => v.1 &&& v.2 != 0) tables

/-- The entries of a SPRUE_SLOTS payload after PERIOD. -/
def sprueEntries (d : List Byte) : List Nat := (pieces 8 (d.drop 8)).map leNat

/-- Whether an entry of a SPRUE_SLOTS payload breaks R264 or R309. -/
def sprueEntryBad (period v : Nat) : Bool :=
  decide (period ≤ v % 2 ^ 16) || [6, 7, 14, 15].contains (v / 2 ^ 16 % 16) || decide (17 < v / 2 ^ 20 % 32) ||
    v / 2 ^ 25 % 2 ^ 38 != 0

/-- Whether a SPRUE_SLOTS payload breaks R309. -/
def sprueBad (d : List Byte) : Bool :=
  let p := leAt d 0 8
  let es := sprueEntries d
  p == 0 || decide (65536 < p) || ((es.takeWhile fun v => decide (2 ^ 63 ≤ v)).any (sprueEntryBad p)) ||
    (es.dropWhile fun v => decide (2 ^ 63 ≤ v)).any (· != 0)

/-! ### Grants (R334-R336, R341) -/

/-- Whether an HBM_PLACE payload is malformed (R334, R341, R343). -/
def placeBad (exact : Bool) (d : List Byte) : Bool :=
  let n := leAt d 0 2
  let refresh := leAt d 2 1
  let frame := leAt d 4 2
  let stride := if refresh = 0 then 80 else if refresh = 1 then 40 else 20
  n == 0 || decide (256 < n) || !zeroAt d 3 1 || !zeroAt d 6 58 ||
    decide (d.length < 64 + 32 * n + (if exact then 192 * (ceilDiv frame 512 * 64) else 0)) ||
    (List.range n).any (fun k =>
      let g := d.drop (64 + 32 * k)
      leAt g 0 8 % 4096 != 0 || leAt g 8 8 % 4096 != 0 || leAt g 8 8 == 0 || decide (4 < leAt g 0x10 1) ||
        decide (1 < leAt g 0x11 1) || !zeroAt g 0x12 14) ||
    (if exact then
      decide (2 < refresh) || decide (frame < 640) || decide (6400 < frame) || frame % (32 * stride) != 0 ||
        (slotBitmaps d).any fun v => decide (2 ^ frame ≤ v)
     else refresh != 0 || frame != 0)

/-- Whether two ranges overlap. -/
def overlap (a b c d : Nat) : Bool := decide (a < d) && decide (c < b)

/-- Whether a range reaches reserved HBM or the image's own bytes, REASON 0x0C. -/
def hbmRangeBad (i : Image) (a n : Nat) : Bool := decide (hostTop < a + n) || overlap a (a + n) i.base (i.base + i.bytes)

/-- Whether a bitmap of `frame` slots has 32 consecutive ones, cyclically (R341). -/
def longRun (frame v : Nat) : Bool := (List.range frame).any fun k => (List.range 32).all fun j => v.testBit ((k + j) % frame)

/-- Whether the slot bitmaps of all partitions break R336 together. -/
def bitmapsBad (places : List (List Byte)) : Bool :=
  match places with
  | [] => false
  | d :: _ =>
    let frame := leAt d 4 2
    let maps := places.map slotBitmaps
    places.any (fun e => leAt e 4 2 != frame || leAt e 2 1 != leAt d 2 1) ||
      anyPair (fun a b => (a.zip b).any fun v => v.1 &&& v.2 != 0) maps ||
      (List.range 192).any fun p => longRun frame (maps.foldl (fun v m => v ||| m.getD p 0) 0)

/-- Whether a grant holds a range wholly. -/
def Grant.holds (g : Grant) (a n : Nat) : Bool := decide (g.base ≤ a) && decide (a + n ≤ g.base + g.length)

/-! ### Colours, pause tables, clock plans, check-value units -/

/-- The registers that an image's landing sections give one core, alone. -/
def coreView (s : State) (x : Plan) (i : Image) (lid : Nat) : State :=
  forAll (x.land.filter fun e => e.kind == kCoreRegs && (x.landing e).contains lid)
    (fun e t => landImage pourCore (corePage lid + e.addr) (s.payload i e) t) { s with regs := [] }

/-- Whether two colours in use of a core overlap (R40). -/
def coloursBad (t : State) (lid : Nat) : Bool :=
  let rs := (List.range (t.getF (cColours lid) + 1)).map fun c => (t.getF (cColFirst lid c), t.getF (cColEnd lid c))
  anyPair (fun a b => decide (a.1 < a.2) && decide (b.1 < b.2) && overlap a.1 a.2 b.1 b.2) rs

/-- Whether PORTABLE of a core differs from MODES [1] (R308). -/
def portableBad (i : Image) (t : State) (lid : Nat) : Bool := t.onF (cPortable lid) != i.portable

/-- Whether a FORWARD counter has a VALUE that is not 0 (R308). -/
def forwardBad (view : State) : Bool := (List.range 256).any fun h => view.onF (hcForward h) && view.getF (hcValue h) != 0

/-- The package registers that an image's landing sections give, alone. -/
def packageView (s : State) (x : Plan) (i : Image) : State :=
  forAll x.land (fun e t => landPackage e (s.payload i e) t) { s with regs := [] }

/-- Whether a pause table names other than exactly one result-end barrier, REASON 0x0E (R312). -/
def pauseResultBad (d : List Byte) : Bool :=
  ((List.range 64).filter fun b => (parsePause d).resultCkpt.getLsbD b).length != 1

/-- Whether a pause table breaks R312 otherwise. -/
def pauseBad (view : State) (part : Nat) (d : List Byte) : Bool :=
  let t := parsePause d
  decide (d.length < 64) || !zeroAt d 0x2E 18 || t.sweepCkpt &&& ~~~t.pauseBids != 0 ||
    t.resultCkpt &&& ~~~t.pauseBids != 0 ||
    (List.range 64).any fun b => t.pauseBids.getLsbD b && !(view.onF (rbValid b) && view.getF (rbPart b) == part)

/-- Whether a clock plan breaks R473. -/
def clockBad (exact : Bool) (d : List Byte) : Bool :=
  let c := parseClock d
  decide (d.length < 64) || decide (2 < c.point) || decide (2 < c.minPoint) || decide (c.minPoint < c.point) ||
    (c.capW != 0 && (decide (c.capW < 800) || decide (1500 < c.capW))) || decide (100 < c.holdDuty) || !zeroAt d 9 55 ||
    (exact && c.minPoint != c.point)

/-- Whether two clock plans disagree (R473). -/
def clocksDiffer (a b : ClockPlan) : Bool := a.point != b.point || a.minPoint != b.minPoint || a.holdDuty != b.holdDuty

/-- Whether a check-value unit is enabled with an invalid configuration (R418, R422, R428). -/
def unitBad (view : State) (grants : List Grant) (u : Nat) : Bool :=
  view.onF (uEn u) &&
    (!view.crcMayEnable u ||
      !grants.any fun g => g.holds (view.getF (uBase u)) ((view.getF (uSlots u) + 1) * view.slotBytes u) &&
        g.kind == (if view.onF (uDir u) then 2 else 1))

/-- The landing sections of a kind. -/
def Plan.ofKind (x : Plan) (k : Nat) : List Section := x.land.filter fun e => e.kind == k

/-- All grants of an image's placement. -/
def planGrants (s : State) (x : Plan) (i : Image) : List Grant :=
  (x.ofKind kHbmPlace).flatMap fun e => parseGrants e.part (s.payload i e)

/-- Whether a section lands anything in this package: a core section may land in the shards of another (R302, R307). -/
def Plan.lands (x : Plan) (e : Section) : Bool := !isCoreKind e.kind || !(x.landing e).isEmpty

/-- The kinds whose payload VERIFY reads, of sections that land here (R302, R319). -/
def readKinds : List Nat := [kCoreRegs, kStopSlots, kSprueSlots, kHbmPlace, kLinkPlan, kClockPlan, kPause, kCrc, kPkgRegs]

/-- The destination checks of a pattern (R319, step 4). -/
def destReason (s : State) (i : Image) (x : Plan) : Nat :=
  let pay := s.payload i
  let places := (x.ofKind kHbmPlace).map pay
  let grants := planGrants s x i
  let view := packageView s x i
  refusal
    [(x.land.any fun e => readKinds.contains e.kind && x.lands e && s.payloadBad i e, 0x11),
     (i.sections.any fun e => decide (i.arrangements < e.arrange), 0x09),
     (x.land.any (partBad x), 0x09), (i.sections.any addrBad, 0x09), (x.land.any (coreDestBad x), 0x09),
     (places.any (placeBad i.exact), 0x09),
     (grants.any fun g => hbmRangeBad i g.base g.length, 0x0C),
     ((x.ofKind kHbmData).any fun e => hbmRangeBad i e.addr e.length, 0x0C),
     (anyPair (fun a b => overlap a.base (a.base + a.length) b.base (b.base + b.length)) grants, 0x09),
     (i.exact && bitmapsBad places, 0x09),
     ((x.ofKind kHbmData).any fun e =>
       !grants.any fun g => g.part == e.part && (g.kind == 0 || g.kind == 4) && g.holds e.addr e.length, 0x09),
     (x.land.any fun e => x.lands e && regImageBad s i e, 0x09), ((x.ofKind kStopSlots).any (stopSlotsBad s x i), 0x09),
     ((x.ofKind kSprueSlots).any fun e => sprueBad (pay e), 0x09),
     (x.recs.any fun r => (coresOfDies r.dies).any fun c =>
        coloursBad (coreView s x i c) c || portableBad i (coreView s x i c) c, 0x09), (forwardBad view, 0x09),
     ((x.ofKind kClockPlan).any fun e => clockBad i.exact (pay e), 0x09),
     (anyPair clocksDiffer ((x.ofKind kClockPlan).map fun e => parseClock (pay e)), 0x09),
     ((x.ofKind kPause).any fun e => pauseResultBad (pay e), 0x0E),
     ((x.ofKind kPause).any fun e => pauseBad view e.part (pay e), 0x09),
     ((List.range 8).any (unitBad view grants), 0x09), (writtenTwice s i x.recs, 0x09)]

/-- The checks of a patch against the armed pattern (R303, R325). -/
def patchReason (s : State) (i : Image) (x : Plan) : Nat :=
  refusal
    [(i.baseDigest != BitVec.ofNat 256 (leNat (s.bytes256 pDigest)) || i.patchSeq != s.pat.patches + 1, 0x0D),
     (i.sections.any fun e => !(x.recs.any fun r => r.part == e.part), 0x09),
     (i.sections.any fun e => match s.pat.cur with
       | some c => decide (c.arrangements < e.arrange)
       | none => true, 0x09),
     (x.land.any (coreDestBad x), 0x09),
     ((x.ofKind kHbmData).any fun e => hbmRangeBad i e.addr e.length, 0x0C),
     ((x.ofKind kHbmData).any fun e =>
       !s.pat.grants.any fun g => g.part == e.part && g.kind == 4 && g.holds e.addr e.length, 0x09),
     (anyPair (clash x) x.land, 0x09)]

/-! ### VERIFY (R319) -/

/-- The armed pattern as the plan a patch lands by. -/
def State.patchPlan (s : State) (i : Image) : Plan :=
  { recs := s.pat.recs, arr := s.pat.arrange.getD (parseArrangement []), pos := s.position, land := i.under s.pat.arrIdx }

/-- The plan of a pattern whose records are in order. -/
def State.pourPlan (s : State) (i : Image) : Plan :=
  match fitting s i with
  | (n, a) :: _ => { recs := imageRecs s i, arr := a, pos := s.position, land := i.under n }
  | [] => { recs := [], arr := parseArrangement [], pos := 0, land := [] }

/-- The first code that is not 0. -/
def firstCode (a b : Nat) : Nat := if a = 0 then b else a

/-- REASON of verification, or 0 (R319, R320). -/
def verifyReason (s : State) (w : Work) : Nat :=
  let i := w.image
  firstCode w.containerReason <| firstCode (sigReason s i) <|
    firstCode (refusal [(i.fwMajor != s.getF sFwMajor, 0x03)]) <|
    if i.kind = 0 then
      firstCode (refusal [(kindsBad i, 0x08)]) <| firstCode (recordsReason s i) (destReason s i (s.pourPlan i))
    else firstCode (refusal [(patchKindsBad i, 0x08)]) (patchReason s i (s.patchPlan i))

/-- A PAT command in a state in which it does not act (R318). -/
def State.patIgnored (op : Nat) (s : State) : State := (s.setF pIgnoredOp op).ignored 0x06 false true 0x00200008

/-- A PAT command acts when `ok` holds (R318); it is withheld by LIMITED (R402) and after a fatal condition (R495). -/
def State.patCommand (op : Nat) (ok : State → Bool) (f : State → State) (s : State) : State :=
  s.hostAct true 0x00200008 fun s => if s.onF sFatal || !ok s then s.patIgnored op else f s

/-- When VERIFY and KEY act (R318). -/
def State.mayVerify (s : State) : Bool := s.getF pImage != 1 && (s.getF pPattern == 0 || s.getF pPattern == 4)

/-- Reads of several ranges of HBM by the control complex (R351). -/
def State.noteReads (l : List (Nat × Nat)) (s : State) : State := forAll l (fun r t => t.noteHbmRead r.1 r.2) s

/-- What verification reads after the copy, as far as it goes: the signature, the records, the payloads of the destination
checks (R302, R319, R351). -/
def verifyReads (s : State) (w : Work) : List (Nat × Nat) :=
  let i := w.image
  let at_ := fun e : Section => (i.base + e.offset, e.length)
  let recs := i.ofKind kPartition ++ i.ofKind kArrangement
  let x := s.pourPlan i
  if w.containerReason ≠ 0 then []
  else
    (i.base + i.sigOffset, sigBytes) ::
      (if i.kind ≠ 0 || sigReason s i != 0 || i.fwMajor != s.getF sFwMajor || kindsBad i then []
       else recs.map at_ ++
        (if recordsReason s i ≠ 0 then []
         else (x.land.filter fun e => readKinds.contains e.kind && x.lands e).map at_))

/-- VERIFY copies the header and table and sets IMAGE to VERIFYING (R319). -/
def verifyOp (s : State) : State :=
  s.patCommand 1 State.mayVerify fun s =>
    let w := s.copyImage (s.getF pImageAddr)
    let s := { s with pat := { s.pat with work := some w, verified := none } }
    (s.noteHbmRead w.base w.bytes.length).setF pImage 1

/-- VERIFY (R319). -/
def execVerify (s : State) : Host.Outcome State Fault Refusal := .next (verifyOp s)

/-- Verification ends: VERIFIED with PAT_VDIGEST, or REFUSED with REASON (R319). -/
def verifyCompleteOp (s : State) : State :=
  match s.pat.work with
  | none => s
  | some w =>
    let r := verifyReason s w
    let s' := { s with pat := { s.pat with work := none } }.noteReads (verifyReads s w)
    if r = 0 then
      let i := w.image
      let p := s.pourPlan i
      let n := match fitting s i with
        | (n, _) :: _ => n
        | [] => 0
      let s' := { s' with pat := { s'.pat with verified := some i, verArrange := some p.arr, verIdx := n } }
      ((forAll (List.range 4) (fun k t => t.setF (pVdigest k) (i.digest.extractLsb' (64 * k) 64).toNat) s').setF pImage 2).event 10
    else (s'.setF pImage 3 |>.setF pReason r).event 10

/-- VERIFY_COMPLETE (R319). -/
def execVerifyComplete (s : State) : Host.Outcome State Fault Refusal := .next (verifyCompleteOp s)

/-! ### KEY (R316) -/

/-- Whether the key record at `a` is malformed (R301, R316), REASON 0x20. -/
def keyRecordBad (s : State) (a : Nat) : Bool :=
  let d := s.hbm.load a 128
  a % 4096 != 0 || decide (hostTop < a + 128 + sigBytes) || s.hbmBad a (128 + sigBytes) || leAt d 0 4 != 0x59454B46 ||
    !(leAt d 4 1 == 1 || leAt d 4 1 == 2) || decide (3 < leAt d 5 1) || !zeroAt d 6 2 || leAt d 8 8 != Config.serial.toNat ||
    (leAt d 4 1 == 2 && !zeroAt d 0x10 32) || !zeroAt d 0x30 80 || sigMalformed (s.hbm.load (a + 128) sigBytes)

/-- Whether the slot's state or the signer forbids the action (R316), REASON 0x21. -/
def keyForbidden (s : State) (a : Nat) : Bool :=
  let d := s.hbm.load a 128
  let b := s.hbm.load (a + 128) sigBytes
  let n := leAt d 5 1
  let vendor := leAt b 4 1 == 0 && s.fuses.vendorOk (leAt b 5 1) (sigKey b)
  let owner := leAt b 4 1 == 1 && leAt b 5 1 == n && s.fuses.ownerEnrolled.getLsbD n && sha3 (sigKey b) == s.fuses.hash n
  if leAt d 4 1 = 1 then s.fuses.ownerEnrolled.getLsbD n || s.fuses.ownerRevoked.getLsbD n || !vendor
  else !(vendor || owner)

/-- A key record is burnt into its slot (R315). -/
def burnKey (d : List Byte) (f : Fuses) : Fuses :=
  let n := leAt d 5 1
  if leAt d 4 1 = 1 then
    { f with ownerHash := tblPut (fun _ => 0) n (BitVec.ofNat 256 (leAt d 0x10 32)) f.ownerHash,
             ownerEnrolled := f.ownerEnrolled ||| (1#4 <<< n) }
  else { f with ownerRevoked := f.ownerRevoked ||| (1#4 <<< n) }

/-- KEY enrols or revokes an owner slot (R316). -/
def keyOp (s : State) : State :=
  s.patCommand 6 State.mayVerify fun s =>
    let a := s.getF pImageAddr
    let d := s.hbm.load a 128
    let r := refusal [(keyRecordBad s a, 0x20), (keyForbidden s a, 0x21),
      (!sigVerifies (s.hbm.load (a + 128) sigBytes) ctxKeyRecord (sha3 d), 0x22)]
    let s := if a % 4096 ≠ 0 ∨ hostTop < a + 128 + sigBytes then s else s.noteHbmRead a (128 + sigBytes)
    if r = 0 then ({ s with fuses := burnKey d s.fuses }).event 10 else (s.setF pReason r).event 10

/-- KEY (R316). -/
def execKey (s : State) : Host.Outcome State Fault Refusal := .next (keyOp s)

end Sys2Proof.Machine
end

