-- ==== Sys2Proof/Machine/Pour.lean ====
section
/-!
DEFINITION. Pouring, arming, disarming, patches and partition resets (R202, R209, R239, R266, R298, R308-R310,
R317-R328, R428).
-/
namespace Sys2Proof.Machine

/-! ### Measurements (R488) -/

/-- Measurement register `m`, digest byte 0 first. -/
def State.meas (s : State) (m : Nat) : List Byte := s.bytes256 (xMeas m)

/-- Writes a 256-bit register as four words. -/
def State.set256 (f : Nat → Fld) (d : BitVec 256) (s : State) : State :=
  forAll (List.range 4) (fun k t => t.setF (f k) (d.extractLsb' (64 * k) 64).toNat) s

/-- Extends measurement register `m` with a value. -/
def State.extend (m : Nat) (v : BitVec 256) (s : State) : State := s.set256 (xMeas m) (sha3 (s.meas m ++ digestBytes v))

/-- Extends M3 and counts it. -/
def State.extendM3 (v : BitVec 256) (s : State) : State := (s.extend 3 v).incF xM3Count 1

/-! ### Power that commands touch (R475, R478, R481) -/

/-- The effective cap: the least of HOST_CAP, BMC_CAP and the plan cap, within 800 W to 1,500 W (R475). -/
def State.effectCap (s : State) : State :=
  let plan := s.getF wPlanCap
  let c := min (s.getF wHostCap) (s.getF wBmcCap)
  let c := if plan = 0 then c else min c plan
  s.setF wEffective (max 800 (min 1500 c))

/-- PLAN_CAP: the least nonzero CAP_W among the clock plans (R473). -/
def State.planCap (s : State) : State :=
  let l := (s.pat.clocks.map fun c => c.2.capW).filter (· != 0)
  (s.setF wPlanCap (l.foldl (fun a b => if a = 0 then b else min a b) 0)).effectCap

/-- Leaves DEEP (R481). -/
def State.leaveDeep (s : State) : State := s.setF wDeep 0

/-- The compute dies that are OFF, one bit each, and with them their core rails, which are off just so long (R478, R514). -/
def State.setOff (m : Nat) (s : State) : State :=
  { s with pwr := { s.pwr with rails := ~~~BitVec.ofNat 8 m ++ s.pwr.rails.extractLsb' 0 12 } }.setF wOff m

/-! ### Empty dies (R322, R428) -/

/-- Registers that clearing returns to their reset values: core pages, host counters and watches, PAT_DIGEST,
PAT_FAULT, link plan, export windows, barrier assignments. -/
def clearedWord (k : Nat) : Bool :=
  inBytes (corePage 0) (corePage 2048) k || inBytes 0x00100000 0x00101200 k || inBytes 0x00200020 0x00200040 k ||
    inBytes 0x00200600 0x00200640 k || inBytes 0x00603000 0x00607000 k || inBytes 0x00709000 0x0070D000 k ||
    inBytes 0x0070F000 0x0070F200 k

/-- A die that belongs to no partition. -/
def freeDie (d : Nat) (s : State) : State :=
  (s.setF (rdPart d) 0 |>.setF (rdExact d) 0 |>.setF (rdResetting d) 0).modDie d fun t => { frozen := t.frozen }

/-- A partition that is empty; what the next-seed register holds stays (R203, R322). -/
def freePart (p : Nat) (s : State) : State :=
  (s.set64 (ppState p).off 0 |>.setF (pkState p) 0).modPart p fun t => { nextDrbg := t.nextDrbg, filled := t.filled }

/-- Every compute die is emptied (R322, R428). -/
def State.emptyDies (s : State) : State :=
  let s := { s with cores := [], stops := [], acks := [], hostIn := [],
                    pat := { work := s.pat.work, verified := s.pat.verified, verArrange := s.pat.verArrange,
                             verIdx := s.pat.verIdx },
                    net := { s.net with rootDrain := [], homeDrain := [], senders := [] },
                    pwr := { s.pwr with pointWant := none } }
  let s := forAll (List.range 6) (fun c t => t.modCtl c fun x => { x with debt := [] }) s
  let s := s.resetRegs clearedWord
  let s := forAll (List.range 8) freeDie (forAll (List.range 8) freePart s)
  let s := forAll (List.range 8) State.clearUnit s
  ((s.setF wGated 0 |>.setF gHostLanes 0).planCap).noteHeld

/-- The order among requests of one tick (R435). -/
def EntReq.rank : EntReq → Nat
  | .pourSeed p => p
  | .nextSeed p => 8 + p
  | .quote _ => 16
  | .challenge => 16
  | .hostRandom => 17

/-- A request takes its place: behind the earlier ones, and behind those of its tick that go first (R435). -/
def insertReq (t : Nat) (r : EntReq) : List (Nat × EntReq) → List (Nat × EntReq)
  | [] => [(t, r)]
  | e :: l => if e.1 < t ∨ e.2.rank ≤ r.rank then e :: insertReq t r l else (t, r) :: e :: l

/-- Asks the DRBG (R435). -/
def State.ask (r : EntReq) (s : State) : State :=
  { s with ent := { s.ent with waiting := insertReq s.tick r s.ent.waiting } }

/-- Seeds asked for by a pour are no longer wanted. -/
def State.dropSeeds (s : State) : State :=
  { s with ent := { s.ent with waiting := s.ent.waiting.filter fun q => match q.2 with
    | .pourSeed _ => false
    | _ => true } }

/-- The package is idle from now on (R483). -/
def State.idleNow (s : State) : State := { s with pwr := { s.pwr with idleFrom := s.tick } }

/-- No image is verified; IMAGE_STATE says that this one was refused. -/
def State.refuseImage (s : State) : State := { s.setF pImage 3 with pat := { s.pat with verified := none } }

/-- A pour is abandoned (R324): how many pour flits are in flight while PATTERN is POURING, which the bridges discard and
count, is free (log 4). -/
def State.abandonPour (reason : Nat) (refused : Bool) (s : State) : State :=
  let s := if s.getF pPattern = 2 then s.addFree gSprueDiscards else s
  let fresh := s.pat.recs.filter (·.fresh)
  let s := forAll fresh (fun r t => t.set64 (psLo r.part).off 0 |>.set64 (psHi r.part).off 0) s
  let s := (s.emptyDies.dropSeeds.setF pPattern 0 |>.setF pReason reason).idleNow
  let s := if refused then s.refuseImage else s
  s.event 10

/-- Whether a pour is in progress: CLEARING, POURING or SEEDING. -/
def State.pouring (s : State) : Bool := decide (1 ≤ s.getF pPattern) && decide (s.getF pPattern ≤ 3)

/-! ### POUR (R321) -/

/-- When POUR acts (R318). -/
def State.mayPour (s : State) : Bool :=
  s.getF pImage == 2 && s.getF pPattern == 0 && s.onF sReady && s.onF sConformant &&
    (match s.pat.verified with
     | some i => i.kind == 0
     | none => false)

/-- POUR powers the dies up, clears them and takes the verified image (R321, R481). -/
def pourOp (s : State) : State :=
  s.patCommand 2 State.mayPour fun s =>
    let s := (s.leaveDeep.setOff 0).emptyDies
    ({ s with pat := { s.pat with cur := s.pat.verified, arrange := s.pat.verArrange, arrIdx := s.pat.verIdx } }).setF pPattern 1
      |>.setF pLanded 0

/-- POUR (R321). -/
def execPour (s : State) : Host.Outcome State Fault Refusal := .next (pourOp s)

/-! ### Landing a section (R305-R310, R321, R325) -/

/-- The arrangement in force. -/
def State.arr (s : State) : Arrangement := s.pat.arrange.getD (parseArrangement [])

/-- The dies of a partition of the pattern in the dies or on its way there. -/
def State.recDies (s : State) (p : Nat) : BitVec 8 :=
  match s.pat.recs.find? fun r => r.part == p with
  | some r => r.dies
  | none => 0

/-- The cores a section lands in. -/
def State.landing (s : State) (e : Section) : List Nat := landingCores s.arr s.position (coresOfDies (s.recDies e.part)) e

/-- A patch replaces bits [16:1] of a lace word: a partial write, which corrects a correctable word and keeps the poison of
an uncorrectable one, counted in both cases (R325, R352). -/
def mergeWeight (lid a : Nat) (d : List Byte) (s : State) : State :=
  let m : W32 := 0x0001FFFE#32
  let old := BitVec.ofNat 32 (s.rdNat lid .lace a 4)
  let bs := natLe 4 ((old &&& ~~~m) ||| (BitVec.ofNat 32 (leNat d) &&& m)).toNat
  match (s.core lid).lace.err 4 (a / 4) with
  | some .correctable => (s.correctPart lid .lace (a / 4)).wr lid .lace a bs
  | some _ => s.wrPoison lid .lace a bs
  | none => s.wr lid .lace a bs

/-- A core section lands in one core. -/
def landCore (patch : Bool) (e : Section) (d : List Byte) (lid : Nat) (s : State) : State :=
  if e.kind = kOps then s.wr lid .op e.addr d
  else if e.kind = kTile then s.wr lid .tile e.addr d
  else if e.kind = kLace then
    if patch then
      forAll ((List.range (d.length / 4)).zip (pieces 4 d)) (fun x t => mergeWeight lid (e.addr + 4 * x.1) x.2 t) s
    else s.wr lid .lace e.addr d
  else if e.kind = kCounters then
    s.modCore lid fun c => { c with reload := (List.range 64).foldl (fun l n => tblPut (fun _ => 0) n (BitVec.ofNat 16 (leAt d (2 * n) 2)) l) [] }
  else landImage pourCore (corePage lid + e.addr) d s

/-- A slot table as the stop or tap holds it. -/
def tableBytes (base : Nat) (t : List Byte) (l : List (Nat × Byte)) : List (Nat × Byte) :=
  ((List.range 192).zip t).foldl (fun l x => tblPut (fun _ => 0) (base + x.1) x.2 l) l

/-- The slot tables of one die land (R309). -/
def landStops (first : Nat) (d : List Byte) (s : State) : State :=
  let ts := pieces 192 d
  let s := forAll (List.range 256) (fun i t => t.modStop (first + i) fun x => { x with slots := tableBytes 0 (ts.getD i []) [] }) s
  s.modDie (first / 256) fun x => { x with tapSlots := tableBytes 256 (ts.getD 257 []) (tableBytes 0 (ts.getD 256 []) []) }

/-- The watches follow the counters as they have landed (R234). -/
def settleCounters (was : List Bool) (s : State) : State :=
  forAll (List.range 32) (fun w t => t.resolveWatch w (was.getD w false)) s

/-- A package section lands. -/
def landPkg (i : Image) (e : Section) (d : List Byte) (s : State) : State :=
  if e.kind = kPartition then { s with pat := { s.pat with recs := partRecs i.partitions d } }
  else if e.kind = kHbmPlace then
    { s with pat := { s.pat with grants := s.pat.grants ++ parseGrants e.part d, frame := leAt d 4 2, refresh := leAt d 2 1,
                                 slotMaps := s.pat.slotMaps ++ [(e.part, d.drop (64 + 32 * leAt d 0 2))] } }
  else if e.kind = kHbmData then s.putHbm e.addr d
  else if e.kind = kSprueSlots then
    { s with pat := { s.pat with sprue := s.pat.sprue ++ (pieces 8 d).map fun v => BitVec.ofNat 64 (leNat v) } }
  else if e.kind = kClockPlan then
    let c := parseClock d
    (({ s with pat := { s.pat with clocks := s.pat.clocks ++ [(e.part, c)] } }).setF wPlanPoint c.point |>.setF wPoint c.point).planCap
  else if e.kind = kPause then { s with pat := { s.pat with pauses := s.pat.pauses ++ [(e.part, parsePause d)] } }
  else if e.kind = kPkgRegs then
    settleCounters ((List.range 32).map fun w => s.onF (wtEn w) && s.onF (wtAbove w)) (landPackage e d s)
  else landPackage e d s

/-- A section whose payload has matched lands. -/
def State.landSection (i : Image) (e : Section) (s : State) : State :=
  let d := s.payload i e
  if isCoreKind e.kind then forAll (s.landing e) (landCore (i.kind == 1) e d) s
  else if e.kind = kStopSlots then landStops e.first d s
  else landPkg i e d s

/-- The payload of a section is read from HBM, for a core section once for each die that holds any of its cores (R321,
R351). -/
def State.noteSection (i : Image) (e : Section) (s : State) : State :=
  forAll (if isCoreKind e.kind then distinct ((s.landing e).map dieOf) else [0])
    (fun _ t => t.noteHbmRead (i.base + e.offset) e.length) s

/-- Why a section does not land: an uncorrectable word, a digest that does not match; 0 for neither (R321, R323). -/
def landReason (s : State) (i : Image) (e : Section) : Nat :=
  refusal [(s.payloadBad i e, 0x11), (sha3 (s.payload i e) != e.digest, 0x10)]

/-! ### Partition resets (R239, R266, R298, R328) -/

/-- Every queue, engine, wait and move of a core is abandoned; its memories, seed and counters of events stay (R158,
R174, R205, R239). -/
def resetCore (lid : Nat) (s : State) : State :=
  let s := forAll allQueues (fun q t =>
    forAll (List.range 4) (fun k u => clearLevel lid q k u)
      (t.setF (qState lid q) 0 |>.setF (qWctr lid q) 0 |>.setF (qWticks lid q) 0 |>.setF (qDepth lid q) 0
        |>.setF (qFaultCode lid q) 0 |>.setF (qFaultPc lid q) 0)) s
  let s := s.set64 (cBankState lid 0).off 0 |>.set64 (cBankState lid 1).off 0 |>.setF (cArrived lid) 0
  let s := s.modCore lid fun c =>
    { c with psb := [], banks := [], drains := [], past := [], moves := [], inbox := [], deferred := [], phase := none,
             replayed := false, staged := [] }
  s.modStop lid fun t => { slots := t.slots }

/-- A die in reset frees its slots and discards what is in its bridge, counting both (R266, R267). -/
def resetDie (d : Nat) (s : State) : State :=
  let t := s.die d
  let n := t.slots.length + (t.fields.filter fun e => (e.2.bind fun f => s.fieldDue d e.1 f).isSome).length
  let waiting := t.tap0.held + t.tap1.held
  let s := (s.incF (rdDiscards d) n).incF gSprueDiscards waiting
  (s.setF (rdResetting d) 1).modDie d fun t => { now := t.now, frozen := t.frozen, tapSlots := t.tapSlots }

/-- The roots discard what a partition's barriers hold (R266). -/
def resetBarrier (p bid : Nat) (s : State) : State :=
  if s.getF (rbPart bid) = p then
    ((s.setF (rbCount bid) 0 |>.setF (lbCount bid) 0).setRootAll bid true).setHome bid [] true
  else s

/-- Whether a partition still waits for its patch. -/
def State.patchWaits (s : State) (p : Nat) : Bool := (s.part p).patchDue || !(s.part p).patchLeft.isEmpty

/-- The sections of the verified patch that name partition `p` and land in this package (R302, R307). -/
def State.patchSections (s : State) (p : Nat) : List Nat :=
  match s.pat.verified with
  | none => []
  | some i => (List.range i.sections.length).filter fun k => match i.sections[k]? with
    | some e => e.part == p && (e.arrange == 0 || e.arrange == s.pat.arrIdx + 1) && (!isCoreKind e.kind || !(s.landing e).isEmpty)
    | none => false

/-- Whether the patch of a partition has begun to land (R328). -/
def State.patchBegun (s : State) (p : Nat) : Bool :=
  !(s.part p).patchLeft.isEmpty && decide ((s.part p).patchLeft.length < (s.patchSections p).length)

/-- PATTERN returns to ARMED once no partition waits for the patch; a patch that was applied counts and is measured
(R325, R326, R488). A patch that was refused on the way is no longer verified (R323). -/
def State.finishPatch (s : State) : State :=
  if s.getF pPattern = 5 && !(List.range 8).any s.patchWaits then
    let s := match s.pat.verified with
      | some i =>
        if (List.range 8).any fun p => s.getF (ppSeq p) == i.patchSeq then
          ({ s with pat := { s.pat with patches := i.patchSeq } }).extendM3 i.digest
        else s
      | none => s
    let s := if s.getF pImage = 3 then { s with pat := { s.pat with verified := none } } else s
    (s.setF pPattern 4).event 10
  else s

/-- What a partition reset does to a checkpoint command and to a patch (R298, R328); answers whether the partition is
disarmed. -/
def resetActs (p : Nat) (s : State) : State × Bool :=
  let k := s.getF (pkState p)
  let disarm := k == 4 || s.patchBegun p || (s.part p).disarmed
  let s := if s.patchWaits p && !s.patchBegun p then s.setF pReason 0x12 else s
  let s := if k = 1 ∨ k = 2 ∨ k = 4 ∨ k = 5 ∨ (s.part p).ckptCmd ≠ 0 then (s.setF (pkStatus p) 9).event 11 else s
  (s.setF (pkState p) 0, disarm)

/-- A partition reset begins (R239, R266). -/
def resetPart (p : Nat) (s : State) : State :=
  let dies := s.partDies p
  let cores := s.partCores p
  let (s, disarm) := resetActs p s
  let lost := ((s.part p).buffered.length + (s.part p).framed.length) * dies.length
  let s := (s.incF gSprueDiscards lost).setF (ppState p) 3 |>.set64 (pfCode p).off 0
  let s := forAll dies resetDie (forAll cores resetCore s)
  let s := forAll (List.range 64) (resetBarrier p) s
  let s := s.incF gSprueDiscards (s.acks.filter fun a => cores.contains a.1).length
  let s := { s with acks := s.acks.filter fun a => !cores.contains a.1 }
  let s := s.setF wGated (s.getF wGated &&& (255 - (dies.map fun d => 2 ^ d).sum))
  (s.modPart p fun t => { nextDrbg := t.nextDrbg, filled := t.filled, seeded := t.seeded, disarmed := disarm }).noteHeld

/-- When RESET acts (R318). -/
def State.mayReset (s : State) (mask : BitVec 8) : Bool :=
  s.pouring || (s.armed && mask != 0 && (List.range 8).all fun p => !mask.getLsbD p || s.pat.recs.any fun r => r.part == p)

/-- A reset reaches a disarmed partition: a restore in progress is abandoned, and the partition stays disarmed (R298). -/
def abandonRestore (p : Nat) (s : State) : State :=
  if s.getF (pkState p) = 4 then
    (((s.setF (pkState p) 0 |>.setF (pkStatus p) 9).modPart p fun t => { t with hold := none }).noteHeld).event 11
  else s

/-- RESET reaches one partition (R239, R298). -/
def resetOne (p : Nat) (s : State) : State := if s.getF (ppState p) = 0 then abandonRestore p s else resetPart p s

/-- RESET starts a reset of the partitions in MASK, or abandons a pour (R239, R324). -/
def partitionResetOp (mask : BitVec 8) (s : State) : State :=
  s.patCommand 5 (State.mayReset · mask) fun s =>
    if s.pouring then s.abandonPour 0x12 false
    else (forAll ((List.range 8).filter mask.getLsbD) resetOne s).finishPatch

/-- PARTITION_RESET (R239). -/
def execPartitionReset (mask : BitVec 8) (s : State) : Host.Outcome State Fault Refusal := .next (partitionResetOp mask s)

/-- Key of a controller queue: a pseudo-channel's requests of one partition (R341). -/
def hbmKey (pc part : Nat) : Nat := pc * 16 + part

/-- Whether HBM requests of a partition still wait at a controller: a reset lasts until they are served (R239, R266). -/
def State.hbmBusy (s : State) (part : Nat) : Bool := s.ctls.any fun c => c.2.queues.any fun q => q.1 % 16 == part

/-- A queue that the pattern uses starts at its ENTRY (R209). -/
def startQueue (lid i : Nat) (q : Queue) (s : State) : State :=
  if s.onF (qUsed lid q) then s.setF (qPc lid q) i |>.setF (qState lid q) 1 else s

/-- The sync counters take their initial values (R216). -/
def reloadCounters (lid : Nat) (s : State) : State :=
  forAll (List.range 64) (fun n t => t.setF (cCtr lid n) (tblGet (fun _ => 0#16) (s.core lid).reload n).toNat) s

/-- A core starts: counters at their initial values, every used queue at its ENTRY (R209, R216, R239). -/
def startCore (lid : Nat) (s : State) : State :=
  forAll allQueues (fun q t => startQueue lid (t.getF (qEntry lid q)) q t) (reloadCounters lid s)

/-- The last reset of a DISARM is over: every die is emptied (R324). -/
def State.finishDisarm (s : State) : State :=
  if s.pat.disarming && !(List.range 8).any fun p => s.getF (ppState p) == 3 then
    (s.emptyDies.setF pPattern 0).idleNow
  else s

/-- A partition reset completes (R239, R298, R324, R328, R424). -/
def resetCompleteOp (p : Nat) (s : State) : State :=
  if s.getF (ppState p) ≠ 3 || s.hbmBusy p then s
  else
    let s := forAll (s.partDies p) (fun d t => t.setF (rdResetting d) 0) s
    if s.pat.disarming then (s.setF (ppState p) 0).finishDisarm
    else if (s.part p).disarmed then s.setF (ppState p) 0
    else
      let s := forAll (s.partCores p) startCore (s.setF (ppState p) 1)
      forAll (List.range 8) (fun u t =>
        if t.onF (uEn u) && !t.onF (uDir u) && t.unitPart u == p then t.forwardHeld u else t) s

/-- RESET_COMPLETE (R239). -/
def execResetComplete (part : Nat) (s : State) : Host.Outcome State Fault Refusal :=
  guarded (decide (part < 8)) s (resetCompleteOp part s)

/-! ### DISARM (R324) -/

/-- A pour is abandoned, or every partition of an armed pattern is reset and then emptied (R324). -/
def State.disarmAll (s : State) : State :=
  if s.pouring then s.abandonPour 0x12 false
  else if s.armed then
    let s := forAll ((List.range 8).filter fun p => s.getF (ppState p) != 0) resetPart s
    (({ s with pat := { s.pat with disarming := true } }).setF pPattern 4).finishDisarm
  else s

/-- When DISARM acts (R318). -/
def State.mayDisarm (s : State) : Bool := s.pouring || s.getF pPattern == 4

/-- DISARM. -/
def disarmOp (s : State) : State := s.patCommand 3 State.mayDisarm State.disarmAll

/-- DISARM (R324). -/
def execDisarm (s : State) : Host.Outcome State Fault Refusal := .next (disarmOp s)

/-! ### At rest (R293) -/

/-- Whether a partition is at rest, apart from what waits to act on it: armed, running, and every launch forwarded has
reached its result-end checkpoint point. -/
def State.resting (s : State) (p : Nat) : Bool :=
  s.getF (ppState p) == 1 && (s.part p).hold.isNone && !(s.partDies p).any (fun d => (s.die d).frozen) &&
    (s.part p).forwarded == (s.part p).resultEnds

/-- What waits to act on a partition at rest acts at once, as one hold (R293). -/
def State.actAtRest (p : Nat) (s : State) : State :=
  if s.resting p then
    let t := s.part p
    let c := if s.getF (pkState p) = 1 then t.ckptCmd else 0
    let h : Hold := { host := c == 2 || c == 3, save := c == 1 || c == 2, patch := t.patchDue }
    if h.due then s.beginHold p 1 h else s
  else s

/-! ### Patches (R325-R328) -/

/-- The partitions that the verified patch touches. -/
def State.patchParts (s : State) : List Nat := (List.range 8).filter fun p => !(s.patchSections p).isEmpty

/-- When PATCH acts (R318). -/
def State.mayPatch (s : State) : Bool :=
  s.getF pImage == 2 && s.getF pPattern == 4 && !s.pat.disarming && s.patchParts.all (fun p => s.getF (ppState p) == 1) &&
    (match s.pat.verified with
     | some i => i.kind == 1
     | none => false)

/-- PATCH schedules the verified patch for its partitions; one at rest begins its hold at once (R293, R326). -/
def patchOp (s : State) : State :=
  s.patCommand 4 State.mayPatch fun s =>
    let ps := s.patchParts
    let s := s.setF pPattern 5 |>.setF pLanded 0
    let s := forAll ps (fun p t => t.modPart p fun x => { x with patchDue := true, patchLeft := t.patchSections p }) s
    (forAll ps State.actAtRest s).finishPatch

/-- PATCH (R326). -/
def execPatch (s : State) : Host.Outcome State Fault Refusal := .next (patchOp s)

/-- A partition whose memories a patch or restore has partly overwritten is disarmed (R298, R328). -/
def State.disarmPart (p : Nat) (s : State) : State :=
  let s := forAll (s.partCores p) (fun c t => forAll allQueues (fun q u => u.setF (qState c q) 0) t) s
  (s.modPart p fun t => { nextDrbg := t.nextDrbg, filled := t.filled, disarmed := true }).setF (ppState p) 0 |>.noteHeld

/-- A landing fails in partition `p`: IMAGE becomes REFUSED and the patch is abandoned there; the partition is disarmed, and
the others keep their patch state (R323, R328; log 21). -/
def State.abandonPatch (p reason : Nat) (s : State) : State :=
  ((s.disarmPart p).setF pReason reason |>.setF pImage 3).finishPatch

/-- The patch of a partition is complete (R326). -/
def State.patchLanded (p : Nat) (s : State) : State :=
  let seq := match s.pat.verified with
    | some i => i.patchSeq
    | none => 0
  let result := match s.leader p with
    | some l => s.getF (cResult l)
    | none => 0
  let s := s.setF (ppSeq p) seq |>.setF (ppPatchResult p) result
  (s.modPart p fun t => { t with patchDue := false, patched := true, hold := t.hold.map fun h => { h with patch := false } }).finishPatch

/-- Section `k` of a patch lands in the hold of its partition (R326). -/
def patchLanding (k : Nat) (s : State) : State :=
  match s.pat.verified with
  | none => s
  | some i =>
    match i.sections[k]? with
    | none => s
    | some e =>
      let t := s.part e.part
      let held := match t.hold with
        | some h => h.patch
        | none => false
      if !held || !t.patchLeft.contains k then s
      else
        let s := s.noteSection i e
        let r := landReason s i e
        if r ≠ 0 then s.abandonPatch e.part r
        else
          let left := t.patchLeft.filter (· != k)
          let s := ((s.landSection i e).incF pLanded 1).modPart e.part fun x => { x with patchLeft := left }
          if left.isEmpty then s.patchLanded e.part else s

/-! ### The pour's landings (R321) -/

/-- The numbers of the sections that land in this package under the arrangement in force. -/
def State.landList (s : State) (i : Image) : List Nat :=
  (List.range i.sections.length).filter fun k => match i.sections[k]? with
    | some e => (e.arrange == 0 || e.arrange == s.pat.arrIdx + 1) && (!isCoreKind e.kind || !(s.landing e).isEmpty)
    | none => false

/-- Whether section `k` is a package section, and whether a clock plan. -/
def Image.kindOf (i : Image) (k : Nat) : Nat :=
  match i.sections[k]? with
  | some e => e.kind
  | none => 0

/-- Package sections in the order in which they land: CLOCK_PLAN first, then the table's order (R321). -/
def State.pkgOrder (s : State) (i : Image) : List Nat :=
  let l := (s.landList i).filter fun k => !isCoreKind (i.kindOf k) && i.kindOf k != kStopSlots
  l.filter (fun k => i.kindOf k == kClockPlan) ++ l.filter fun k => i.kindOf k != kClockPlan

/-- The order in which sections land: package sections, then the core sections and slot tables in the table's order
(R321). -/
def State.landOrder (s : State) (i : Image) : List Nat :=
  s.pkgOrder i ++ (s.landList i).filter fun k => isCoreKind (i.kindOf k) || i.kindOf k == kStopSlots

/-- Whether section `k` lands next (R321). -/
def State.mayLand (s : State) (i : Image) (k : Nat) : Bool :=
  (s.landOrder i).find? (fun j => !s.pat.landed.contains j) == some k

/-- Whether every section has landed. -/
def State.allLanded (s : State) (i : Image) : Bool := (s.landList i).all s.pat.landed.contains

/-- The partitions under FRESH, ascending (R202, R435). -/
def State.freshParts (s : State) : List Nat := (List.range 8).filter fun p => s.pat.recs.any fun r => r.part == p && r.fresh

/-- Once everything has landed, partitions under FRESH ask for their seeds; an entropy alarm abandons the pour (R202,
R321, R439). -/
def State.beginSeeding (s : State) : State :=
  if s.freshParts.isEmpty then s
  else if s.getF eState = 6 then s.abandonPour 0x13 false
  else (forAll s.freshParts (fun p t => t.ask (.pourSeed p)) s).setF pPattern 3

/-- Section `k` of the pour lands, or abandons it (R321, R323). -/
def pourLanding (k : Nat) (s : State) : State :=
  match s.pat.cur with
  | none => s
  | some i =>
    match i.sections[k]? with
    | none => s
    | some e =>
      if !s.mayLand i k then s
      else
        let s := s.noteSection i e
        let r := landReason s i e
        if r ≠ 0 then s.abandonPour r true
        else
          let s := ((s.setF pPattern 2).landSection i e).incF pLanded 1
          let s := { s with pat := { s.pat with landed := s.pat.landed ++ [k] } }
          if s.allLanded i then s.beginSeeding else s

/-- A section of the pour or of a patch lands (R321, R326). -/
def sectionLandingOp (k : Nat) (s : State) : State :=
  if s.getF pPattern = 1 ∨ s.getF pPattern = 2 then pourLanding k s
  else if s.getF pPattern = 5 then patchLanding k s
  else s

/-- SECTION_LANDING (R321). -/
def execSectionLanding (i : Nat) (s : State) : Host.Outcome State Fault Refusal := .next (sectionLandingOp i s)

/-! ### Arming (R86, R202, R209, R216, R310, R321) -/

/-- At arming a core records, for each colour in use, the first and the last group descriptor whose FIRST lies in the
colour's range; a poisoned descriptor raises LACE_POISON (R86). -/
def recordGroups (lid : Nat) (s : State) : State :=
  let gs := List.range (s.getF (cGroupCount lid))
  let bad := gs.filter fun g => s.laceBad lid (wa (s.getF (cGroupBase lid) + g))
  let idx := (List.range (s.getF (cColours lid) + 1)).foldl (fun l c =>
    let mine := gs.filter fun g => !bad.contains g && decide (s.getF (cColFirst lid c) ≤ (s.groupDesc lid g).1) &&
      decide ((s.groupDesc lid g).1 < s.getF (cColEnd lid c))
    match mine with
    | [] => l
    | g :: _ => tblPut (fun _ => (0, 0)) c (g, mine.getLastD g + 1) l) []
  let s := s.modCore lid fun c => { c with groupIdx := idx }
  let s := forAll gs (fun g t => t.noteLace lid (wa (t.getF (cGroupBase lid) + g))) s
  if bad.isEmpty then s else s.remoteFault lid fLacePoison

/-- A core of an armed partition takes its seed and starts (R202, R209). -/
def armCore (p lid : Nat) (s : State) : State :=
  let s := s.setF (cSeedLo lid) (s.getF (psLo p)) |>.setF (cSeedHi lid) (s.getF (psHi p))
  startCore lid (recordGroups lid s)

/-- A partition is armed (R310, R321). -/
def armPart (i : Image) (r : PartRec) (s : State) : State :=
  let p := r.part
  let s := s.setF (ppState p) 1 |>.setF (ppDies p) r.dies.toNat |>.set64 (pfCode p).off 0 |>.set64 (ppSeq p).off 0
    |>.setF (pxCompiled p) r.compiled |>.setF (pkStatus p) 0 |>.setF (pkState p) 0
  let s := if r.fresh then s else
    s.setF (psLo p) (bitsOf r.seed 0 64) |>.setF (psHi p) (bitsOf r.seed 64 32) |>.setF (psFresh p) 0
  let s := forAll (s.partDies p) (fun d t => t.setF (rdPart d) p |>.setF (rdExact d) i.exact.toNat) s
  let s := forAll (coresOfDies r.dies) (armCore p) s
  s.modPart p fun t => { t with seeded := false, patched := false }

/-- The last landing or seed is in: M3 is extended, PAT_DIGEST written, the partitions armed and their queues started
(R321); dies without a partition stay off (R310, R478). -/
def armingOp (s : State) : State :=
  match s.pat.cur with
  | none => s
  | some i =>
    let ready := (s.getF pPattern == 2 && s.freshParts.isEmpty || s.getF pPattern == 3) && s.allLanded i &&
      s.freshParts.all fun p => (s.part p).seeded
    if !ready then s
    else
      let s := (s.extendM3 i.digest).set256 pDigest i.digest
      let used := s.pat.recs.foldl (fun m r => m ||| r.dies) 0#8
      let s := (forAll s.pat.recs (armPart i) s).setOff (~~~used).toNat |>.setF gHostLanes i.exact.toNat
      ({ s with pat := { s.pat with patches := 0 } }.setF pPattern 4).event 10

/-- ARMING (R321). -/
def execArming (s : State) : Host.Outcome State Fault Refusal := .next (armingOp s)

end Sys2Proof.Machine
end

