-- ==== Sys2Proof/Machine/Ckpt.lean ====
section
/-!
DEFINITION. Holds and their end, checkpoints, partition stops and next seeds (R203, R235, R273-R276, R290-R298, R326,
R327, R345, R476).
-/
namespace Sys2Proof.Machine

/-! ### What a checkpoint holds (R290, R295; log 20) -/

/-- Lace words of a core's replica blocks and of its clamp and group planes (R39, R43). -/
def ckptLaceWords (s : State) (lid : Nat) : List Nat :=
  let u := s.unitsUp lid
  ((List.range (s.replicas lid)).flatMap fun r => (List.range (u * 49 / 32)).map fun k => wa (s.replBase lid r + k)) ++
    (List.range (u / 16)).map fun k => wa (s.getF (cFlagBase lid) + k)

/-- Core page offsets of the words saved as they are: the β of the replicas, then flags, masks and RC counts of R68,
R100, R160 and R188. -/
def ckptRegs (replicas : Nat) : List Nat :=
  (List.range replicas).map (fun r => 0x300 + 4 * r) ++
    [0x280, 0x284, 0x380, 0x510, 0x600, 0x288, 0x28C, 0x290, 0x298, 0x29C, 0x384, 0x388, 0x390, 0x394, 0x398, 0x39C,
     0x514, 0x518, 0x520, 0x524, 0x604, 0x608, 0x610, 0x614]

/-- Pads to a multiple of 64 bytes. -/
def pad64 (d : List Byte) : List Byte := d ++ List.replicate (roundUp d.length 64 - d.length) 0#8

/-- The section of one core. -/
def coreSection (s : State) (lid : Nat) : List Byte :=
  pad64 ((ckptLaceWords s lid).flatMap (fun w => natLe 4 (s.lace lid w).toNat) ++
    (ckptRegs (s.replicas lid)).flatMap fun o => natLe 4 (s.regW ((corePage lid + o) / 4)).toNat)

/-- The lace and tile ranges of a core that the pattern marks mutable: memory, address, bytes. -/
def mutableRanges (s : State) (lid : Nat) : List (CoreMem × Nat × Nat) :=
  match s.pat.cur with
  | none => []
  | some i => (i.under s.pat.arrIdx).filterMap fun e =>
      if e.isMutable && (e.kind == kLace || e.kind == kTile) && (s.landing e).contains lid then
        some (if e.kind = kLace then .lace else .tile, e.addr, e.length)
      else none

/-- A range in pieces whose length a section table entry can give. -/
def rangePieces (a n : Nat) : List (Nat × Nat) :=
  (List.range (ceilDiv n 0x40000000)).map fun k => (a + 0x40000000 * k, min 0x40000000 (n - 0x40000000 * k))

/-- The HBM ranges of a partition that the pattern marks mutable. -/
def mutableHbm (s : State) (p : Nat) : List (Nat × Nat) :=
  (s.pat.grants.filter fun g => g.part == p && g.isMutable).flatMap fun g => rangePieces g.base g.length

/-- Section kinds of the checkpoint's table (log 20): 0 a core's own section, 1 a lace range, 2 a tile range, 3 an HBM
range, 0x8000 + n the leader's best-k list at 64n of its tile memory, 0x4000 + n a staging slot at 64n. -/
structure CkSection where
  kind : Nat
  owner : Nat
  data : List Byte

/-- The owner that a core's sections carry: its number, or its shard-local index in portable mode (R295). -/
def ckptOwner (s : State) (p lid : Nat) : Nat :=
  if s.portable then
    let a := s.arr
    let k := (s.partCores p).idxOf lid
    (s.position * a.shards / a.packages) * a.width + k
  else lid

/-- The cores whose sections a checkpoint holds: all of the partition, or those that hold shards (R283). -/
def ckptCores (s : State) (p : Nat) : List Nat :=
  if s.portable then (s.partCores p).take (s.arr.shards / s.arr.packages * s.arr.width) else s.partCores p

/-- Whether tile bytes of a core lie in a range that the pattern marks mutable, and are saved with it. -/
def tileMutable (s : State) (lid a n : Nat) : Bool :=
  (mutableRanges s lid).any fun r => r.1 == .tile && decide (r.2.1 ≤ a) && decide (a + n ≤ r.2.1 + r.2.2)

/-- The best-k list of the leader, where no mutable range holds it (R182, R290). -/
def listSection (s : State) (p lid : Nat) : List CkSection :=
  match (s.core lid).bestkAt with
  | some l => if s.leader p == some lid && !tileMutable s lid l 1024 then
      [⟨0x8000 + l / 64, ckptOwner s p lid, s.rd lid .tile l 1024⟩] else []
  | none => []

/-- The staging slots filled so far in the result, where no mutable range holds them (R126, R290). -/
def stagedSections (s : State) (p lid : Nat) : List CkSection :=
  ((s.core lid).staged.filter fun e => !tileMutable s lid e.1 e.2).map fun e =>
    ⟨0x4000 + e.1 / 64, ckptOwner s p lid, s.rd lid .tile e.1 e.2⟩

/-- The sections of a partition's checkpoint; those of a sweep end (`kind` 0) hold the best-k list and the staging slots
too (R290). -/
def ckptSections (s : State) (p kind : Nat) : List CkSection :=
  (ckptCores s p).flatMap (fun c =>
    ⟨0, ckptOwner s p c, coreSection s c⟩ :: (mutableRanges s c).map (fun r =>
      ⟨(match r.1 with
        | .lace => 1
        | _ => 2), ckptOwner s p c, pad64 (s.rd c r.1 r.2.1 r.2.2)⟩) ++
      (if kind = 0 then listSection s p c ++ stagedSections s p c else [])) ++
  (mutableHbm s p).map fun r => ⟨3, p, pad64 (s.hbm.load r.1 r.2)⟩

/-- The HBM ranges that a save reads (R351). -/
def noteSaved (p : Nat) (s : State) : State := forAll (mutableHbm s p) (fun r t => t.noteHbmRead r.1 r.2) s

/-- The geometry word (R295). -/
def geometryWord (s : State) (p : Nat) : BitVec 128 :=
  let a := s.arr
  BitVec.ofNat 128 (2048 + 2 ^ 16 * (a.packages - 1) + 2 ^ 28 * a.topology + 2 ^ 30 * s.portable.toNat +
    2 ^ 32 * s.position + 2 ^ 44 * (s.recDies p).toNat + 2 ^ 52 * p + 2 ^ 64 * a.dimX + 2 ^ 76 * a.dimY + 2 ^ 88 * a.dimZ +
    2 ^ 100 * a.shards + 2 ^ 124 * a.width.log2)

/-- Bytes from the checkpoint's start to its first section. -/
def ckptLead (n : Nat) : Nat := roundUp (0x80 + 16 * n + 512) 64

/-- The host counters of a partition as a checkpoint saves them (R290, R295). -/
def ckptCounters (s : State) (p : Nat) : List Byte :=
  (List.range 256).flatMap fun h =>
    natLe 2 (if s.onF (hcForward h) || s.getF (hcPart h) != p then 0 else s.getF (hcValue h))

/-- The section table, from the offset of the first section on. -/
def ckptTable : Nat → List CkSection → List Byte
  | _, [] => []
  | o, x :: t => natLe 8 o ++ natLe 4 x.data.length ++ natLe 2 x.kind ++ natLe 2 x.owner ++ ckptTable (o + x.data.length) t

/-- A checkpoint without its digest (R295). -/
def ckptBytes (s : State) (p kind : Nat) : List Byte :=
  let xs := ckptSections s p kind
  let l := (s.leader p).getD 0
  let body := xs.flatMap (·.data)
  let lead := ckptLead xs.length
  let head := natLe 4 0x4B434C47 ++ natLe 2 1 ++ natLe 2 (s.getF sFwMajor) ++ natLe 8 (lead + body.length + 32) ++
    s.bytes256 pDigest ++ natLe 16 (geometryWord s p).toNat ++ natLe 8 (s.getF (cResult l)) ++ natLe 2 (s.getF (cSweep l)) ++
    natLe 2 (s.getF (cCurve l)) ++ natLe 2 (s.getF (cRestart l)) ++ natLe 1 kind ++ natLe 1 p ++ natLe 8 (s.getF (psLo p)) ++
    natLe 4 (s.getF (psHi p)) ++ natLe 1 (s.getF (pnPending p)) ++ natLe 3 0 ++ natLe 8 (s.getF (pnLo p)) ++
    natLe 4 (s.getF (pnHi p)) ++ natLe 4 (s.part p).elapsed ++ natLe 4 xs.length ++
    natLe 4 (if s.portable then s.position * s.arr.shards / s.arr.packages else 0) ++ natLe 8 0
  let table := head ++ ckptTable lead xs ++ ckptCounters s p
  table ++ List.replicate (lead - table.length) 0#8 ++ body

/-- Whether `n` bytes at an address lie in a region granted to the partition for checkpoints (R292). -/
def ckptGranted (s : State) (p a n : Nat) : Bool :=
  a % 4096 == 0 && s.pat.grants.any fun g => g.part == p && g.kind == 3 && g.holds a n

/-! ### Commands (R292, R297) -/

/-- BAR0 offset of PAT_CKPT_p CTRL. -/
def ckOff (p : Nat) : Nat := 0x00200700 + 32 * p

/-- A checkpoint command that cannot be carried out: STATUS says why, and it is counted as ignored, which raises no interrupt
(R297, R411; log 103). -/
def State.ckRefuse (p st : Nat) (s : State) : State := (s.setF (pkStatus p) st).ignored 0x08 false true (ckOff p)

/-- A restore that one of the statuses 3 to 6 refuses has read the checkpoint (R296, R351). -/
def State.ckRead (p st : Nat) (s : State) : State :=
  let a := s.getF (pkAddr p)
  if 3 ≤ st ∧ st ≤ 6 then s.noteHbmRead a (leNat (s.hbm.load (a + 8) 8)) else s

/-- A checkpoint command: withheld by LIMITED, ignored after a fatal condition, refused with its status, or taken. -/
def State.ckCommand (p : Nat) (check : State → Nat) (f : State → State) (s : State) : State :=
  s.aliveAct 0x08 true (ckOff p) fun s =>
    if check s = 0 then f s else (s.ckRead p (check s)).ckRefuse p (check s)

/-- Why a save or hold is refused; 0 for not (R297). -/
def saveReason (p c : Nat) (s : State) : Nat :=
  refusal
    [(s.getF (ppState p) != 1, 7), ((s.getF (pkState p) != 0 && s.getF (pkState p) != 3) || (s.part p).ckptCmd != 0, 2),
     (c != 3 && !ckptGranted s p (s.getF (pkAddr p)) ((ckptBytes s p 0).length + 32), 8)]

/-- The write of CTRL that carries a command sets RESULT_ONLY too, unless LIMITED withholds the block (R13, R402). -/
def State.setResultOnly (p : Nat) (resultOnly : Bool) (s : State) : State :=
  if s.onF sLimited then s else s.setF (pkResultOnly p) resultOnly.toNat

/-- CMD `c` waits for the next checkpoint point, or acts at once at rest; one given to a partition that is held waits
there, and STATE goes on reading held (R292, R293, R297). The region that ADDR names now is the command's. -/
def saveOp (p c : Nat) (resultOnly : Bool) (s : State) : State :=
  (s.setResultOnly p resultOnly).ckCommand p (saveReason p c) fun s =>
    let s := if s.getF (pkState p) = 3 then s else s.setF (pkState p) 1
    (s.modPart p fun t => { t with ckptCmd := c, ckptAddr := s.getF (pkAddr p) }).actAtRest p

/-- CKPT_SAVE_CONTINUE (R292). -/
def execCkptSaveContinue (part : Nat) (resultOnly : Bool) (s : State) : Host.Outcome State Fault Refusal :=
  guarded (decide (part < 8)) s (saveOp part 1 resultOnly s)

/-- CMD 2: save, then hold. -/
def saveHoldOp (p : Nat) (resultOnly : Bool) (s : State) : State := saveOp p 2 resultOnly s

/-- CKPT_SAVE_HOLD (R292). -/
def execCkptSaveHold (part : Nat) (resultOnly : Bool) (s : State) : Host.Outcome State Fault Refusal :=
  guarded (decide (part < 8)) s (saveHoldOp part resultOnly s)

/-- CMD 3: hold without save. -/
def plainHoldOp (p : Nat) (resultOnly : Bool) (s : State) : State := saveOp p 3 resultOnly s

/-- CKPT_HOLD (R292). -/
def execCkptHold (part : Nat) (resultOnly : Bool) (s : State) : Host.Outcome State Fault Refusal :=
  guarded (decide (part < 8)) s (plainHoldOp part resultOnly s)

/-- A partition's hold loses a reason. -/
def State.modHold (p : Nat) (f : Hold → Hold) (s : State) : State := s.modPart p fun t => { t with hold := t.hold.map f }

/-- The copy of a save is in HBM: INFO and RESULT are written; under CMD 2 the partition is held, and the digest is
still to come (R292, R297). -/
def saveCopiedOp (p : Nat) (s : State) : State :=
  if s.getF (pkState p) ≠ 2 then s
  else
    let t := s.part p
    let d := ckptBytes s p t.ckptKind
    let l := (s.leader p).getD 0
    let s := (noteSaved p s).wrHbm t.ckptAddr d
    let s := s.setF (pkKib p) (ceilDiv (d.length + 32) 1024) |>.setF (pkSweep p) (s.getF (cSweep l))
      |>.setF (pkKind p) t.ckptKind |>.setF (pkResult p) (s.getF (cResult l))
    let s := s.setF (pkState p) (if t.ckptCmd = 2 then 3 else 5)
    (s.modPart p fun t => { t with ckptCmd := 4, ckptLen := d.length }).modHold p fun h => { h with save := false }

/-- SAVE_COPIED (R292). -/
def execSaveCopied (part : Nat) (s : State) : Host.Outcome State Fault Refusal :=
  guarded (decide (part < 8)) s (saveCopiedOp part s)

/-- E0 writes the digest of the copy as it stands in HBM, in the region that the command was granted; STATUS becomes 1
(R292, R295). -/
def ckptHashDoneOp (p : Nat) (s : State) : State :=
  if (s.part p).ckptCmd ≠ 4 then s
  else
    let a := (s.part p).ckptAddr
    let n := (s.part p).ckptLen
    let s := (s.noteHbmRead a n).wrHbm (a + n) (digestBytes (sha3 (s.hbm.load a n)))
    let s := if s.getF (pkState p) = 5 then s.setF (pkState p) 0 else s
    ((s.setF (pkStatus p) 1).modPart p fun t => { t with ckptCmd := 0 }).event 11

/-- CKPT_HASH_DONE (R292). -/
def execCkptHashDone (part : Nat) (s : State) : Host.Outcome State Fault Refusal :=
  guarded (decide (part < 8)) s (ckptHashDoneOp part s)

/-- RESUME lets the hold of STATE 3 end (R292, R297); a restored run goes on counting its deadline (R298). -/
def ckptResumeOp (p : Nat) (s : State) : State :=
  s.ckCommand p (fun s => if s.getF (pkState p) = 3 then 0 else 7) fun s =>
    let hashing := (s.part p).ckptCmd == 4
    let s := s.modHold p fun h => { h with host := false }
    let s := if (s.part p).reentry = 1 then s.modPart p fun t => { t with dlRunning := true } else s
    let c := (s.part p).ckptCmd
    let s := s.setF (pkState p) (if hashing then 5 else if c = 0 then 0 else 1)
    if hashing then s else (s.setF (pkStatus p) 1).event 11

/-- CKPT_RESUME (R297). -/
def execCkptResume (part : Nat) (s : State) : Host.Outcome State Fault Refusal :=
  guarded (decide (part < 8)) s (ckptResumeOp part s)

/-! ### Restore (R291, R294, R296) -/

/-- Whether a checkpoint's geometry word fits the partition (R296). -/
def geometryFits (s : State) (p : Nat) (g : BitVec 128) : Bool :=
  let mine := geometryWord s p
  if s.portable then
    bitsOf g 0 16 == bitsOf mine 0 16 && bitOf g 30 && bitsOf g 52 3 == bitsOf mine 52 3 &&
      bitsOf g 100 28 == bitsOf mine 100 28
  else g == mine

/-- The table entries of a checkpoint: offset, length, kind, owner. -/
def ckptEntries (d : List Byte) : List (Nat × Nat × Nat × Nat) :=
  (List.range (leAt d 0x70 4)).map fun k =>
    let o := 0x80 + 16 * k
    (leAt d o 8, leAt d (o + 8) 4, leAt d (o + 12) 2, leAt d (o + 14) 2)

/-- Whether the sections of a portable checkpoint cover exactly the shards held here (R296). -/
def coversShards (s : State) (p : Nat) (d : List Byte) : Bool :=
  let have_ := (ckptEntries d).filterMap fun e => if e.2.2.1 = 0 then some e.2.2.2 else none
  let want := (ckptCores s p).map fun c => ckptOwner s p c % 2 ^ 16
  !s.portable || (have_.all want.contains && want.all have_.contains)

/-- Why the checkpoint at `a` may not be loaded onto partition `p`; 0 for not (R296). The dies of a disarmed partition are
those of its record. -/
def loadReason (p a : Nat) (s : State) : Nat :=
  let n := leNat (s.hbm.load (a + 8) 8)
  let d := s.hbm.load a n
  let s' := if (s.part p).disarmed then s.setF (ppState p) 1 |>.setF (ppDies p) (s.recDies p).toNat else s
  refusal
    [(!ckptGranted s p a (max n 0x80), 8),
     (leAt d 0 4 != 0x4B434C47 || leAt d 4 2 != 1 || decide (n < 32) || s.hbmBad a n ||
       BitVec.ofNat 256 (leAt d (n - 32) 32) != sha3 (d.take (n - 32)), 3),
     ((d.drop 0x10).take 32 != s.bytes256 pDigest, 4), (leAt d 6 2 != s.getF sFwMajor, 6),
     (!geometryFits s' p (BitVec.ofNat 128 (leAt d 0x30 16)) || !coversShards s' p d, 5)]

/-- Why a restore is refused; 0 for not (R294, R296, R297). -/
def restoreReason (p : Nat) (s : State) : Nat :=
  let k := s.getF (pkState p)
  let t := s.part p
  refusal
    [(!s.armed || !(t.disarmed || s.getF (ppState p) == 1), 7), ((k != 0 && k != 3) || t.ckptCmd != 0, 2),
     (!(k == 3 || t.disarmed || s.resting p), 7), (loadReason p (s.getF (pkAddr p)) s != 0, loadReason p (s.getF (pkAddr p)) s)]

/-- RESTORE reads the checkpoint, and the partition is held while it loads (R294, R351). -/
def ckptRestoreOp (p : Nat) (s : State) : State :=
  s.ckCommand p (restoreReason p) fun s =>
    let a := s.getF (pkAddr p)
    let was := s.getF (pkState p)
    let s := (s.noteHbmRead a (leNat (s.hbm.load (a + 8) 8))).setF (pkState p) 4
    s.modPart p fun t => { t with hold := some ((t.hold.getD {}).merge { host := true }), ckptAddr := a, ckptWas := was }

/-- CKPT_RESTORE (R294). -/
def execCkptRestore (part : Nat) (s : State) : Host.Outcome State Fault Refusal :=
  guarded (decide (part < 8)) s (ckptRestoreOp part s)

/-- Words that emptying the dies of a partition returns to their reset values (R322). -/
def partWord (dies : BitVec 8) (k : Nat) : Bool :=
  (List.range 8).any fun d => dies.getLsbD d && inBytes (corePage (256 * d)) (corePage (256 * d + 256)) k

/-- The dies of a disarmed partition are emptied by R322 before its sections land again (R294). -/
def emptyPart (p : Nat) (s : State) : State :=
  let dies := s.recDies p
  let mine : Nat → Bool := fun c => !(dies.getLsbD (dieOf c))
  let s := { s with cores := tblFilter mine s.cores, stops := tblFilter mine s.stops }
  (s.resetRegs (partWord dies)).setF (ppState p) 1 |>.setF (ppDies p) dies.toNat

/-- The sections of the armed image that name a partition land again; false when a landing check fails (R294). -/
def relandAll (i : Image) : List Section → State → State × Bool
  | [], s => (s, true)
  | e :: t, s =>
    let s := s.noteSection i e
    if landReason s i e = 0 then relandAll i t (s.landSection i e) else (s, false)

/-- The sections of partition `p` that land in its dies and in HBM again; what the control complex, the controllers and
the sprue hold of the pattern still stands (R294). -/
def relandList (s : State) (i : Image) (p : Nat) : List Section :=
  (i.under s.pat.arrIdx).filter fun e => e.part == p && (e.kind == kStopSlots || e.kind == kHbmData ||
    (isCoreKind e.kind && !(s.landing e).isEmpty))

/-- A disarmed partition is emptied and poured again, without the patches it had; answers whether every landing matched. One
whose landing failed stays disarmed until a new pour arms it (R294). -/
def repour (p : Nat) (s : State) : State × Bool :=
  match s.pat.cur with
  | none => (s, false)
  | some i =>
    let (s, ok) := relandAll i (relandList s i p) (emptyPart p s)
    let s := s.modPart p fun t => { t with disarmed := false }
    if ok then (forAll (s.partCores p) recordGroups (s.set64 (ppSeq p).off 0), true)
    else (s.setF (ppState p) 0, false)

/-- One lace word of a core's section is restored. -/
def putWord (lid : Nat) (x : Nat × List Byte) (s : State) : State := s.setLace lid x.1 (BitVec.ofNat 32 (leNat x.2))

/-- One saved register word is restored; reserved bits stay 0 (R14). -/
def putReg (lid : Nat) (x : Nat × List Byte) (s : State) : State :=
  s.setW ((corePage lid + x.1) / 4) (BitVec.ofNat 32 (leNat x.2) &&& regMask (corePage lid + x.1))

/-- A core's own section is restored. -/
def loadCore (lid : Nat) (d : List Byte) (s : State) : State :=
  let ws := ckptLaceWords s lid
  let s := forAll (ws.zip (pieces 4 d)) (putWord lid) s
  forAll ((ckptRegs (s.replicas lid)).zip (pieces 4 (d.drop (4 * ws.length)))) (putReg lid) s

/-- A core's mutable ranges are restored, in the order in which they were saved. -/
def loadRanges (lid : Nat) : List (CoreMem × Nat × Nat) → List (List Byte) → State → State
  | r :: rs, d :: ds, s => loadRanges lid rs ds (s.wr lid r.1 r.2.1 (d.take r.2.2))
  | _, _, s => s

/-- The HBM ranges of a partition are restored. -/
def loadHbm : List (Nat × Nat) → List (List Byte) → State → State
  | r :: rs, d :: ds, s => loadHbm rs ds (s.wrHbm r.1 (d.take r.2))
  | _, _, s => s

/-- The best-k list or a staging slot of a core is restored (R290). -/
def loadPlace (lid kind : Nat) (d : List Byte) (s : State) : State :=
  if 0x8000 ≤ kind then
    (s.wr lid .tile (64 * (kind - 0x8000)) d).modCore lid fun c => { c with bestkAt := some (64 * (kind - 0x8000)) }
  else
    (s.wr lid .tile (64 * (kind - 0x4000)) d).modCore lid fun c =>
      { c with staged := c.staged ++ [(64 * (kind - 0x4000), d.length)] }

/-- The run counters, seed and resume counters of one core (R290). -/
def loadRun (p lid : Nat) (d : List Byte) (s : State) : State :=
  let s := s.setF (cResult lid) (leAt d 0x40 8) |>.setF (cSweep lid) (leAt d 0x48 2) |>.setF (cCurve lid) (leAt d 0x4A 2)
    |>.setF (cRestart lid) (leAt d 0x4C 2) |>.setF (cSeedLo lid) (leAt d 0x50 8) |>.setF (cSeedHi lid) (leAt d 0x58 4)
  let s := reloadCounters lid s
  match s.pauseTbl p with
  | none => s
  | some t =>
    s.setF (cCtr lid (t.sweepsCtr % 64)) ((t.sweeps + 65536 - leAt d 0x4A 2) % 65536)
      |>.setF (cCtr lid (t.restartsCtr % 64)) ((t.restarts + 65537 - leAt d 0x4C 2) % 65536)

/-- The non-forwarding host counters of a partition are restored (R290). -/
def loadCounters (p : Nat) (d : List Byte) (s : State) : State :=
  let o := 0x80 + 16 * leAt d 0x70 4
  forAll (List.range 256) (fun h t =>
    if t.onF (hcForward h) || t.getF (hcPart h) != p then t
    else (t.setF (hcValue h) (leAt d (o + 2 * h) 2)).resolveWatches h) s

/-- A whole checkpoint is loaded onto a partition whose dies hold its image (R290, R291). -/
def loadCkpt (p : Nat) (d : List Byte) (s : State) : State :=
  let cores := s.partCores p
  let es := ckptEntries d
  let data : Nat × Nat × Nat × Nat → List Byte := fun e => (d.drop e.1).take e.2.1
  let s := forAll (List.range 64) (resetBarrier p) (forAll cores resetCore s)
  let s := forAll (s.partDies p) (fun x t => t.modDie x fun y => { y with comb := [], fields := [], tap0 := {}, tap1 := {}, exported := 0 }) s
  let s := forAll (ckptCores s p) (fun c t =>
    let own := ckptOwner t p c % 2 ^ 16
    let mine := es.filter fun e => e.2.2.2 == own
    let t := forAll (mine.filter fun e => e.2.2.1 == 0) (fun e u => loadCore c (data e) u) t
    let t := loadRanges c (mutableRanges t c) ((mine.filter fun e => e.2.2.1 == 1 || e.2.2.1 == 2).map data) t
    forAll (mine.filter fun e => decide (0x4000 ≤ e.2.2.1)) (fun e u => loadPlace c e.2.2.1 (data e) u) t) s
  let s := loadHbm (mutableHbm s p) ((es.filter fun e => e.2.2.1 == 3).map data) s
  let s := forAll cores (fun c t => loadRun p c d t) s
  let s := loadCounters p d s
  let kind := leAt d 0x4E 1
  let s := s.setF (psLo p) (leAt d 0x50 8) |>.setF (psHi p) (leAt d 0x58 4) |>.setF (pnPending p) (leAt d 0x5C 1)
  let s := if leAt d 0x5C 1 = 0 then s else s.setF (pnLo p) (leAt d 0x60 8) |>.setF (pnHi p) (leAt d 0x68 4)
  s.modPart p fun t =>
    { t with reentry := kind + 1, elapsed := leAt d 0x6C 4, dlRunning := false, dlTicks := s.getF (pdTicks p),
             dlMin := s.getF (pdMin p), staged := false, forwarded := 1 - kind, resultEnds := 0, ckptCmd := 0, inPeriod := false }

/-- A restore that was begun and is not carried out ends, and is counted as ignored; it changes nothing but STATUS and, for a disarmed partition, what its landing found: a
partition that was held stays held, one that was at rest goes on (R294, R297). -/
def restoreFails (p st : Nat) (s : State) : State :=
  let was := (s.part p).ckptWas
  let s := s.modPart p fun t => { t with hold := if was = 3 then t.hold else none }
  ((s.setF (pkState p) was).ckRefuse p st).event 11

/-- A restore finishes loading: the checkpoint is still the one that passed its checks, and the partition is held in
STATE 3, without the releases that its hold kept (R294, R296, R297). -/
def restoreLoadedOp (p : Nat) (s : State) : State :=
  if s.getF (pkState p) ≠ 4 then s
  else
    let a := (s.part p).ckptAddr
    let st := loadReason p a s
    if st ≠ 0 then restoreFails p st s
    else
      let d := s.hbm.load a (leNat (s.hbm.load (a + 8) 8))
      let (s, ok) := if (s.part p).disarmed then repour p s else (s, true)
      if ok then
        let s := s.modHold p fun h => { h with releases := [] }
        ((loadCkpt p d s).setF (pkState p) 3 |>.setF (pkStatus p) 1).event 11
      else restoreFails p 10 s

/-- RESTORE_LOADED (R294). -/
def execRestoreLoaded (part : Nat) (s : State) : Host.Outcome State Fault Refusal :=
  guarded (decide (part < 8)) s (restoreLoadedOp part s)

/-! ### Holds end (R273, R293, R327, R345, R476) -/

/-- Whether any HBM controller owes refresh (R345). -/
def State.owesRefresh (s : State) : Bool := s.ctls.any fun c => !c.2.debt.isEmpty

/-- Whether a thermal pause may end (R476). -/
def State.cooled (s : State) (p : Nat) (h : Hold) : Bool :=
  (s.partDies p).all (fun d => decide (s.getF (tpMax d) ≤ s.getF wTResume)) && decide (s.getF wAvg ≤ s.getF wEffective) &&
    decide (h.resumeAt.getD 0 ≤ s.tick) && !s.owesRefresh

/-- Whether every crossing's buffer has stayed at occupancy 3 to 5 for 1 ms, which is 50,000 ticks (R485). -/
def State.regionsCalm (s : State) : Bool :=
  (List.range 10).all fun i => decide (3 ≤ s.getF (grOcc i)) && decide (s.getF (grOcc i) ≤ 5) &&
    decide (tblGet (fun _ => 0) s.pwr.calmFrom i + 50000 ≤ s.tick)

/-- Whether every reason of a hold is over (R274, R345, R474, R476, R485). -/
def State.holdOver (s : State) (p : Nat) (h : Hold) : Bool :=
  !h.host && !h.save && !h.patch && (!h.thermal || s.cooled p h) &&
    (!h.refresh || (if h.releases.isEmpty then !s.owesRefresh else s.cooled p h)) &&
    (!h.region || s.regionsCalm) && (!h.point || s.pwr.pointWant.isNone) &&
    !(s.partDies p).any fun d => (s.die d).frozen

/-- After a restore every used queue starts at its resume entry (R290, R312). -/
def reenter (p : Nat) (s : State) : State :=
  match (s.part p).reentry, s.pauseTbl p with
  | k + 1, some t =>
    let entries := if k = 0 then t.sweepEntry else t.resultEntry
    let s := forAll (s.partCores p) (fun c u => forAll allQueues (fun q v => startQueue c (entries.getD q.num 0) q v) u) s
    s.modPart p fun x => { x with reentry := 0 }
  | _, _ => s

/-- A patch's PATCH_CTR is counted in every core with the release that ends its hold (R327). -/
def signalPatch (p : Nat) (s : State) : State :=
  let c := match s.pat.recs.find? fun r => r.part == p with
    | some r => r.patchCtr
    | none => 0xFF
  let s := if (s.part p).patched && c != 0xFF then forAll (s.partCores p) (fun l t => t.remoteAdd l (c % 64) 1) s else s
  s.modPart p fun t => { t with patched := false }

/-- A hold ends: the clocks run, the kept releases go out, what the bridges buffered is delivered; refresh that is still
owed stays due (R273, R293, R345). -/
def holdEndOp (p : Nat) (s : State) : State :=
  match (s.part p).hold with
  | none => s
  | some h =>
    if !s.holdOver p h then s
    else
      let s := (s.modPart p fun t => { t with hold := none, refreshDebt := t.refreshDebt && s.owesRefresh }).noteHeld
      let s := reenter p s
      let s := forAll h.releases (fun r t => t.sendRelease p r) s
      ((signalPatch p s).releaseBuffered p).actAtRest p

/-- HOLD_END (R273). -/
def execHoldEnd (part : Nat) (s : State) : Host.Outcome State Fault Refusal :=
  guarded (decide (part < 8)) s (holdEndOp part s)

/-- A refresh debt that cannot wait for a pause point holds the partition at once (R275, R345). -/
def extraRefreshHoldOp (c p : Nat) (s : State) : State :=
  if s.exact && s.getF (ppState p) == 1 && (s.part p).hold.isNone && !(s.ctl c).debt.isEmpty then
    s.beginHold p 0 { refresh := true }
  else s

/-- EXTRA_REFRESH_HOLD (R275). -/
def execExtraRefreshHold (stack part : Nat) (s : State) : Host.Outcome State Fault Refusal :=
  guarded (decide (stack < 6) && decide (part < 8)) s (extraRefreshHoldOp stack part s)

/-! ### Partition stops (R235, R298) -/

/-- A queue of a stopped partition: one that runs or waits reads STATE 5 (R238). -/
def stopQueue (lid : Nat) (q : Queue) (s : State) : State :=
  if s.getF (qState lid q) = 1 ∨ s.getF (qState lid q) = 2 then s.setF (qState lid q) 5 else s

/-- A core of a stopped partition: its waits and unreleased arrivals are abandoned. -/
def stopCore (lid : Nat) (s : State) : State :=
  let s := forAll allQueues (stopQueue lid) s
  (s.setF (cArrived lid) 0).modStop lid fun t => { t with arrivals := [], barRec := [] }

/-- The first fault that reaches E0 stops its partition (R235-R237); a pending checkpoint command is cancelled (R298). -/
def partitionStopOp (p : Nat) (s : State) : State :=
  match (s.part p).faults with
  | [] => s
  | r :: _ =>
    if s.getF (ppState p) ≠ 1 then s
    else
      let s := s.setF (pfCode p) r.code |>.setF (pfCore p) r.core |>.setF (pfQueue p) r.queue |>.setF (pfPc p) r.pc
        |>.setF (pfRemote p) r.remote.toNat |>.setF (pfValid p) 1
      let s := forAll (s.partCores p) stopCore s
      let s := forAll (List.range 64) (resetBarrier p) s
      let s := forAll (s.partDies p) (fun d t => t.modDie d fun x => { x with comb := [] }) s
      let s := s.broadcast p (.stop p r.code)
      let s := s.setF (ppState p) 2 |>.modPart p fun t => { t with faults := [], dlRunning := false }
      let s := if s.getF (pkState p) = 1 then
          ((s.setF (pkState p) 0 |>.setF (pkStatus p) 7).modPart p fun t => { t with ckptCmd := 0 }).event 11
        else s
      (s.event p).log 3 7 r.core false r.code 0

/-- PARTITION_STOP (R235). -/
def execPartitionStop (part : Nat) (s : State) : Host.Outcome State Fault Refusal :=
  guarded (decide (part < 8)) s (partitionStopOp part s)

/-! ### Next seeds (R203, R438, R439) -/

/-- DRAW sets FILLING and asks the DRBG; after an entropy alarm the request is refused at once. -/
def drawSeed (p : Nat) (s : State) : State :=
  if s.getF eState = 6 then s
  else (s.ask (.nextSeed p)).setF (pnFilling p) 1

/-- A host write to PAT_NEXT_SEED_p, ignored while FILLING (R203). -/
def State.nextSeedAt (p o size : Nat) (v : W64) (s : State) : State :=
  s.aliveAct 0x07 true o fun s =>
    if !accessSized o size then s.ignored 0x02 false true o
    else if s.onF (pnFilling p) then s.ignored 0x07 false true o
    else
      let fs := accessFields bar0Map o size
      let s := s.plainWrite fs o v
      let s := if fs.any fun f => f.1 == pnLo p || f.1 == pnHi p then s.modPart p fun t => { t with nextDrbg := false } else s
      if fs.any fun f => f.2 == .wo && writtenBits o v f.1 != 0 then drawSeed p s else s

/-- A host write of one of the words of PAT_NEXT_SEED_p. -/
def nextSeedWriteOp (p : Nat) (high : Bool) (size : Nat) (v : W64) (s : State) : State :=
  s.nextSeedAt p (0x00200510 + 32 * p + 8 * high.toNat) size v

/-- NEXT_SEED_WRITE (R203). -/
def execNextSeedWrite (part : Nat) (high : Bool) (size : Nat) (v : W64) (s : State) : Host.Outcome State Fault Refusal :=
  guarded (decide (part < 8)) s (nextSeedWriteOp part high size v s)

/-- A host write of DRAW = 1. -/
def seedDrawOp (p : Nat) (s : State) : State :=
  let o := 0x00200518 + 32 * p
  s.aliveAct 0x07 true o fun s => if s.onF (pnFilling p) then s.ignored 0x07 false true o else drawSeed p s

/-- SEED_DRAW (R203). -/
def execSeedDraw (part : Nat) (s : State) : Host.Outcome State Fault Refusal :=
  guarded (decide (part < 8)) s (seedDrawOp part s)

/-- The DRBG has delivered the next seed: FILLING is cleared and PENDING set (R203). -/
def seedFillDoneOp (p : Nat) (s : State) : State :=
  if s.onF (pnFilling p) && (s.part p).filled then
    (s.setF (pnFilling p) 0 |>.setF (pnPending p) 1).modPart p fun t => { t with filled := false, nextDrbg := true }
  else s

/-- SEED_FILL_DONE (R203). -/
def execSeedFillDone (part : Nat) (s : State) : Host.Outcome State Fault Refusal :=
  guarded (decide (part < 8)) s (seedFillDoneOp part s)

end Sys2Proof.Machine
end

