-- ==== Sys2Proof/Machine/Fatal.lean ====
section
/-!
DEFINITION. Heat reports, fatal conditions and the ladle dump (R447, R465, R493-R501).
-/
namespace Sys2Proof.Machine

/-! ### Heat reports (R447) -/

/-- BAR0 offset of a heat report. -/
def reportAt (h : Nat) : Nat := 0x1000 + 0x100 * h

/-- The words of BAR0 from `base` on, as bytes, without side effects. -/
def State.regBytes (s : State) (base n : Nat) : List Byte :=
  (List.range (n / 4)).flatMap fun i => natLe 4 (s.readWord (base + 4 * i)).toNat

/-- OUTCOME of a heat's report. -/
def State.outcome (s : State) (h : Nat) : Nat := bitsOf (s.regW (reportAt h / 4 + 1)) 8 8

/-- The heat whose report reads RUNNING. -/
def State.heatRunning (s : State) : Option Nat := (List.range 10).find? fun h => s.outcome h == 1

/-- A report: header, body and digest. -/
def reportBytes (h out start fin full : Nat) (body : List Byte) : List Byte :=
  let d := natLe 4 0x54414548 ++ natLe 1 h ++ natLe 1 out ++ natLe 2 1 ++ natLe 8 start ++ natLe 8 fin ++ natLe 1 full ++
    natLe 7 0 ++ (body ++ List.replicate 192 0#8).take 192
  d ++ digestBytes (sha3 d)

/-- Bytes put into registers, word by word. -/
def putWords : Nat → List (List Byte) → State → State
  | _, [], s => s
  | k, w :: t, s => putWords (k + 1) t (s.setW k (BitVec.ofNat 32 (leNat w)))

/-- Writes a report. -/
def State.report (h : Nat) (d : List Byte) (s : State) : State := putWords (reportAt h / 4) (pieces 4 d) s

/-- START_TICK of a report. -/
def State.reportStart (s : State) (h : Nat) : Nat := (s.reg64 (reportAt h + 8)).toNat

/-- A heat begins: its report reads RUNNING (R447). -/
def State.beginHeat (h : Nat) (s : State) : State := s.report h (reportBytes h 1 s.tick 0 s.pwr.full.toNat [])

/-- A heat ends: its final report is written, and the monitor prints it (R447; the wording is Ercia's, log 8). -/
def State.endHeat (h out : Nat) (body : List Byte) (s : State) : State :=
  let d := reportBytes h out (s.reportStart h) s.tick s.pwr.full.toNat body
  (s.report h d).emit (.monLine d)

/-- A fatal condition stops the heat in progress with OUTCOME FATAL (R465). -/
def State.stopHeat (s : State) : State :=
  match s.heatRunning with
  | some h =>
    let s := s.endHeat h 5 ((s.regBytes (reportAt h) 256).drop 0x20)
    { s with pwr := { s.pwr with stopped := true } }
  | none => s

/-! ### Latching and freezing (R494) -/

/-- Latches the first fatal condition, counts a later one, and logs both (R494, R501). -/
def State.latchFatal (code die item detail : Nat) (s : State) : State :=
  let s :=
    if s.onF rFatalValid then s.incF rSecond 1
    else
      s.setF rFatalCode code |>.setF rFatalValid 1 |>.setF rFatalTick s.tick |>.setF rInfoDie die |>.setF rInfoItem item
        |>.setF rInfoDetail detail |>.setF sFatal 1
  s.log 4 8 (if 16 ≤ die then die - 16 else die) false code (if code = 1 then detail else 0)

/-- Every compute die that is powered stops its core clocks (R494). -/
def State.freezeDies (s : State) : State :=
  forAll (List.range 8) (fun d t => if Nat.testBit (t.getF wOff) d then t else t.modDie d fun x => { x with frozen := true }) s

/-- A compute die's core rail goes off, and OFF shows it (R478, R493, R513). -/
def State.coreRailOff (d : Nat) (s : State) : State :=
  { s with pwr := { s.pwr with rails := s.pwr.rails &&& ~~~(1#20 <<< (12 + d)) } }.setF wOff (s.getF wOff ||| 2 ^ d)

/-- A compute die loses its power and what it holds (R478, R493). -/
def State.powerOffDie (d : Nat) (s : State) : State :=
  let s := s.coreRailOff d
  let s := s.resetRegs (inBytes (corePage (256 * d)) (corePage (256 * d + 256)))
  { s with cores := tblFilter (fun l => decide (dieOf l ≠ d)) s.cores, stops := tblFilter (fun l => decide (dieOf l ≠ d)) s.stops,
           dies := tblFilter (fun e => decide (e ≠ d)) s.dies }

/-- Blocks that lose power with every rail but the always-on ones: all but SYS, PWR, ERR and the monitor's own. -/
def railWord (k : Nat) : Bool :=
  inBytes 0x00100000 0x00800000 k || inBytes 0x00A00000 0x00B00000 k || inBytes (corePage 0) (corePage 2048) k

/-- Every rail except the always-on rails goes off (R493): what they feed loses its state (R514), a dump held in the HBM
with it (R498). -/
def State.railsOff (s : State) : State :=
  let s := s.resetRegs railWord
  let s := if s.onF rDumpBuffer || s.getF rDumpState = 1 then s else s.setF rDumpState 0 |>.setF rDumpPresent 0
  { s with cores := [], stops := [], dies := [], parts := [], pat := {}, crcUnits := [], hostIn := [], hbm := {}, ctls := [], srams := [],
           acks := [], links := [], ports := [], net := {}, ent := {}, hostcfg := {},
           pwr := { s.pwr with rails := s.pwr.rails &&& 3#20, ccRunning := false } }.setF wOff 0xFF

/-- The sprue ring or the edge-die clocks stop: no link forwards, and the ports read DOWN (R388). -/
def State.linksStop (s : State) : State :=
  let s := { s with pwr := { s.pwr with linksStopped := true } }
  let s := forAll (List.range 48) (fun n t => (t.setF (lkState n) 0).modLink n fun l => { l with unacked := [], naks := 0 }) s
  forAll (List.range 6) State.refreshPort s

/-- The sprue ring stops (R493). -/
def State.stopSprue (s : State) : State := { s with pwr := { s.pwr with sprueStopped := true } }.linksStop

/-! ### The dump's contents (R497-R500) -/

/-- First byte of the dump region (R333). -/
def dumpBase : Nat := 0x2E00000000

/-- One section of a dump: kind, owner, flags (0 ABSENT, 1 POISON) and payload. -/
structure DumpSection where
  kind : Nat
  owner : Nat
  flags : Nat
  data : List Byte
deriving DecidableEq, Repr

/-- A section of a compute die, ABSENT while the die is OFF. -/
def dieSection (s : State) (kind owner die flags : Nat) (data : List Byte) : DumpSection :=
  if Nat.testBit (s.getF wOff) die then ⟨kind, owner, 1, []⟩ else ⟨kind, owner, flags, data⟩

/-- `n` bytes whose layout is internal to the firmware or whose history the spec leaves to timing (log 8). -/
def freeBytes (k n : Nat) : List Byte := (List.range n).map (Config.firmwareBytes k)

/-- The memory sections that SEL selects, one memory kind at a time (R500). -/
def memSections (s : State) (bit kind : Nat) (m : CoreMem) : List DumpSection :=
  if Nat.testBit s.pwr.note.sel bit then
    ((List.range 2048).filter fun l => Nat.testBit s.pwr.note.sel (3 + dieOf l)).map fun l =>
      let x := (s.core l).mem m
      dieSection s kind l (dieOf l) (if x.bad.any fun e => isBad (classify (cmWb m) e.2) then 2 else 0) (x.load 0 (cmSize m))
  else []

/-- The last eight slot headers that a stop injected or delivered, oldest first, each with four bytes of the core cycle, which
the model does not hold (R500; log 109); entries that no slot has filled are 0. -/
def stopLog (k : Nat) (l : List (BitVec 96)) : List Byte :=
  (l.zipIdx.flatMap fun e => natLe 12 e.1.toNat ++ freeBytes (k + e.2) 4) ++ List.replicate (16 * (8 - l.length)) 0#8

/-- STOPLOG of a die: its 288 stops in position order (R500). -/
def stopLogs (s : State) (d : Nat) : List Byte :=
  (List.range 288).flatMap fun p =>
    let x := match s.lidAt d p with
      | some lid => s.stop lid
      | none => {}
    stopLog (s.free + 16 + 16 * (288 * d + p)) x.sent ++ stopLog (s.free + 24 + 16 * (288 * d + p)) x.taken

/-- Free values that a dump draws at most (R500). -/
def dumpDraws : Nat := 16 + 16 * 288 * 8

/-- The sections of a dump (R500). -/
def dumpSections (s : State) (short : Bool) : List DumpSection :=
  [⟨1, 0, 0, s.regBytes 0x1000 2560⟩] ++
  (List.range 11).map (fun b => ⟨2, b, 0, s.regBytes (0x100000 * b) 0x10000⟩) ++
  (List.range 2048).map (fun l => dieSection s 3 l (dieOf l) 0 (s.regBytes (corePage l) 4096)) ++
  (List.range 8).map (fun d => dieSection s 4 d d 0 (stopLogs s d)) ++
  (List.range 6).map (fun c => ⟨5, c, 0, freeBytes (s.free + 8 + c) 65536⟩) ++
  [⟨6, 0, 0, freeBytes (s.free + 14) 1048576⟩, ⟨7, 0, 0, s.regBytes 0x00901000 16384⟩] ++
  (if short then [] else memSections s 0 8 .lace ++ memSections s 1 9 .tile ++ memSections s 2 10 .op)

/-- The section table; payloads follow one another from `off` on, and an absent one has OFFSET 0. -/
def dumpTable : Nat → List DumpSection → List Byte
  | _, [] => []
  | off, x :: t =>
    natLe 8 (if x.data = [] then 0 else off) ++ natLe 8 x.data.length ++ natLe 2 x.kind ++ natLe 2 x.owner ++ natLe 2 x.flags ++
      natLe 10 0 ++ dumpTable (off + x.data.length) t

/-- The header of a dump of `n` sections and `bytes` bytes (R499). -/
def dumpHeader (s : State) (short : Bool) (bytes n : Nat) : List Byte :=
  natLe 4 0x4C444C47 ++ natLe 2 1 ++ natLe 2 256 ++ natLe 8 bytes ++ natLe 8 (s.getF sSerial) ++ natLe 2 (s.getF sFwMajor) ++
    natLe 2 (s.getF sFwMinor) ++ natLe 1 s.pwr.note.rom.toNat ++ natLe 1 short.toNat ++ natLe 1 (s.getF rFatalCode) ++
    natLe 1 (s.getF rSecond) ++ natLe 8 (s.getF rFatalTick) ++ natLe 8 (s.reg64 0x00900010).toNat ++
    natLe 8 s.pwr.note.sysState.toNat ++ natLe 4 s.pwr.note.sel ++ natLe 4 n ++ (s.pwr.note.digest ++ List.replicate 32 0#8).take 32 ++
    (List.range 4).flatMap s.meas ++ natLe 8 s.tick ++ natLe 24 0

/-- Every byte of a dump before its digest (R499). -/
def dumpBody (s : State) (short : Bool) : List Byte :=
  let x := dumpSections s short
  let lead := roundUp (256 + 32 * x.length) 64
  let bytes := lead + (x.map fun e => e.data.length).sum + 32
  dumpHeader s short bytes x.length ++ dumpTable lead x ++ List.replicate (lead - (256 + 32 * x.length)) 0#8 ++
    x.flatMap fun e => e.data

/-- Puts dump bytes where a dump of its kind goes: the dump region, or the ladle buffer (R497). -/
def State.putDump (d : List Byte) (s : State) : State :=
  let s := { s with pwr := { s.pwr with note := { s.pwr.note with len := d.length } } }
  if s.onF rDumpBuffer then { s with pwr := { s.pwr with ladle := ({} : Mem).store 0 d } }
  else s.putHbm dumpBase d

/-- The free values that a dump's free bytes took. -/
def State.usedDump (s : State) : State := { s with free := s.free + dumpDraws }

/-! ### Starting and ending a dump (R493-R498) -/

/-- The end of a fatal condition's handling: PATTERN reads EMPTY and FATAL is raised (R494, R495). -/
def State.fatalDone (s : State) : State := (s.setF pPattern 0).event 8

/-- The dump that can be written: none with E0 unpowered; short unless every stack is READY and the sprue is in service
(R493). -/
def State.dumpKind (k : DumpKind) (s : State) : DumpKind :=
  if !s.pwr.rails.getLsbD 3 then .none
  else if k = .full && (s.pwr.sprueStopped || !(List.range 6).all fun c => s.onF (bReady c)) then .short
  else k

/-- A dump begins. -/
def State.startDump (code : Nat) (short : Bool) (s : State) : State :=
  let s := s.setF rDumpState 1 |>.setF rDumpKind short.toNat |>.setF rDumpBuffer short.toNat
  { s with pwr := { s.pwr with note := ⟨s.reg64 0x10, s.getF rDumpCfg, s.bytes256 pDigest, code == 1, 0⟩ } }

/-- A fatal condition meets a dump being written (R496). -/
def State.dumpAgain (code : Nat) (k : DumpKind) (s : State) : State :=
  if k = .none then
    let full := !s.onF rDumpBuffer
    (s.setF rDumpState (if full then 0 else 3) |>.setF rDumpPresent (!full).toNat).fatalDone
  else if s.pwr.sprueStopped && !s.onF rDumpKind then s.setF rDumpKind 1 |>.setF rDumpBuffer 1
  else if code = 1 then { s with pwr := { s.pwr with note := { s.pwr.note with rom := true } } }
  else s

/-- What becomes of the dump at a fatal condition (R493, R494, R496, R498). -/
def State.dumpFor (code : Nat) (k : DumpKind) (s : State) : State :=
  let k := s.dumpKind k
  if s.getF rDumpState = 1 then s.dumpAgain code k
  else if s.onF rDumpPresent then (s.incF rSkipped 1).fatalDone
  else
    match k with
    | .none => s.fatalDone
    | .short => s.startDump code true
    | .full => s.startDump code false

/-- A fatal condition (R493, R494): `effect` is what goes out of service; one at heat 0 writes no dump. -/
def State.fatal (code die item detail : Nat) (k : DumpKind) (effect : State → State) (s : State) : State :=
  let k := if s.heatRunning = some 0 then .none else k
  let s := (s.latchFatal code die item detail).freezeDies
  let s := if s.pouring then s.abandonPour 0x12 false else s
  (effect s).stopHeat.dumpFor code k

/-- The dump is complete with its digest, and FATAL is raised (R494, R497, R499). -/
def dumpCompleteOp (s : State) : State :=
  if s.getF rDumpState = 1 then
    let d := dumpBody s (s.onF rDumpKind)
    let s := (s.putDump (d ++ digestBytes (sha3 d))).usedDump
    (s.setF rDumpState 2 |>.setF rDumpPresent 1).fatalDone
  else s

/-- DUMP_COMPLETE (R497). -/
def execDumpComplete (s : State) : Host.Outcome State Fault Refusal := .next (dumpCompleteOp s)

/-- A reset meets a dump being written: it stays PARTIAL, held, with the bytes written so far; how many is free
(R496). -/
def State.partialDump (s : State) : State :=
  if s.getF rDumpState = 1 then
    let d := dumpBody s (s.onF rDumpKind)
    let s := (s.putDump (d.take (s.draw.toNat % (d.length + 1)))).usedDump
    s.setF rDumpState 3 |>.setF rDumpPresent 1
  else s

/-- A host write of RELEASE: the dump is no longer held; while one is written the write is ignored and counted, under a
CAUSE that R411 does not give (R498, R501). -/
def dumpReleaseOp (s : State) : State :=
  if s.getF rDumpState = 1 then (s.ignored (s.draw.toNat % 256) false true 0x00900020).used
  else
    let s := s.setF rDumpState 0 |>.setF rDumpPresent 0 |>.setF rDumpBuffer 0
    { s with pwr := { s.pwr with ladle := {} } }

/-- DUMP_RELEASE (R498). -/
def execDumpRelease (s : State) : Host.Outcome State Fault Refusal := .next (dumpReleaseOp s)

/-! ### The conditions (R467, R477, R484, R493) -/

/-- What CC_FAIL takes out of service: Ercia runs no more (R502). -/
def State.ccStop (s : State) : State := { s with pwr := { s.pwr with ccRunning := false } }

/-- The always-on watchdog expires (R467). -/
def ccWatchdogExpiryOp (s : State) : State := s.fatal 0x01 8 0 0 .full State.ccStop

/-- CC_WATCHDOG_EXPIRY (R467). -/
def execCcWatchdogExpiry (s : State) : Host.Outcome State Fault Refusal := .next (ccWatchdogExpiryOp s)

/-- An uncorrectable word in control SRAM (R493). -/
def controlSramUncorrectableOp (addr : Nat) (s : State) : State :=
  s.fatal 0x01 8 0 addr .full State.ccStop

/-- CONTROL_SRAM_UNCORRECTABLE (R493). -/
def execControlSramUncorrectable (addr : Nat) (s : State) : Host.Outcome State Fault Refusal :=
  guarded (decide (addr < 0x800000)) s (controlSramUncorrectableOp addr s)

/-- A PLL loses lock: a compute die goes off; an edge die's clocks stop, and with them the links (R388, R493). -/
def pllLossOfLockOp (die : Nat) (s : State) : State :=
  if die < 8 then s.fatal 0x09 die die 0 .full (State.powerOffDie die) else s.fatal 0x09 die die 0 .short State.linksStop

/-- PLL_LOSS_OF_LOCK (R493). -/
def execPllLossOfLock (die : Nat) (s : State) : Host.Outcome State Fault Refusal :=
  guarded (decide (die < 10)) s (pllLossOfLockOp die s)

/-- A sprue flit fails its CRC, or a lane loses training (R493). -/
def sprueCrcErrorOp (die lane : Nat) (s : State) : State := s.fatal 0x04 die lane 0 .short State.stopSprue

/-- SPRUE_CRC_ERROR (R493). -/
def execSprueCrcError (die lane : Nat) (s : State) : Host.Outcome State Fault Refusal :=
  guarded (decide (die < 10) && decide (lane < 16)) s (sprueCrcErrorOp die lane s)

/-- A parity error on a runner ring (R493). -/
def ringParityOp (die ring : Nat) (s : State) : State := s.fatal 0x0A die ring 0 .full id

/-- RING_PARITY (R493). -/
def execRingParity (die ring : Nat) (s : State) : Host.Outcome State Fault Refusal :=
  guarded (decide (die < 8) && decide (ring < 4)) s (ringParityOp die ring s)

/-- A stack's command or address parity error, or lost training, stops its controller (R493). -/
def hbmCtrlErrorOp (c : Nat) (detail : BitVec 48) (s : State) : State :=
  s.fatal 0x0B (16 + c) c detail.toNat .short fun t => t.modCtl c fun x => { x with stopped := true }

/-- HBM_CTRL_ERROR (R493). -/
def execHbmCtrlError (c : Nat) (detail : BitVec 48) (s : State) : Host.Outcome State Fault Refusal :=
  guarded (decide (c < 6)) s (hbmCtrlErrorOp c detail s)

/-- The die that a rail feeds, as INFO names dies; a rail that feeds none alone counts with E1 if it is always on, else
with E0. -/
def railDie (n : Nat) : Nat := if 12 ≤ n then n - 12 else if n ≤ 1 ∨ n = 4 then 9 else 8

/-- A regulator fault or a set-point error (R477, R493). -/
def railFaultOp (rail mv : Nat) (s : State) : State :=
  if 12 ≤ rail then
    s.fatal 0x08 (railDie rail) rail mv .full (State.powerOffDie (rail - 12))
  else s.fatal 0x08 (railDie rail) rail mv .none State.railsOff

/-- RAIL_FAULT (R477). -/
def execRailFault (rail mv : Nat) (s : State) : Host.Outcome State Fault Refusal :=
  guarded (decide (rail < 20) && decide (mv < 65536)) s (railFaultOp rail mv s)

/-- The die from which crossing `i` leaves clockwise (R263, R449). -/
def crossingDie (i : Nat) : Nat := if i = 0 then 8 else if i ≤ 4 then i - 1 else if i = 5 then 9 else i - 2

/-- A crossing's occupancy, with the highest and lowest since WARN was cleared (R491). -/
def State.noteOcc (i occ : Nat) (s : State) : State :=
  s.setF (grOcc i) occ |>.setF (grHigh i) (max (s.getF (grHigh i)) occ) |>.setF (grLow i) (min (s.getF (grLow i)) occ)

/-- An elastic buffer at 7 or 1 stops the sprue ring (R484, R485). -/
def elasticBufferSlipOp (i occ : Nat) (s : State) : State :=
  if occ = 7 ∨ occ = 1 then (s.noteOcc i occ).fatal 0x03 (crossingDie i) i 0 .short State.stopSprue else s

/-- ELASTIC_BUFFER_SLIP (R484). -/
def execElasticBufferSlip (i occ : Nat) (s : State) : Host.Outcome State Fault Refusal :=
  guarded (decide (i < 10) && decide (occ < 8)) s (elasticBufferSlipOp i occ s)

end Sys2Proof.Machine
end

