-- ==== Sys2Proof/Machine/Doe.lean ====
section
/-!
DEFINITION. Signed quotes and the DOE mailbox, which handles one request at a time (R412, R486-R490).
-/
namespace Sys2Proof.Machine

/-! ### Quotes (R486-R490) -/

/-- The seed ξ of the device identity key: the digest of the identity seed in fuses and "GL8 identity" (R486). -/
def identityXi : BitVec 256 :=
  sha3 (digestBytes Config.identitySeed ++ ([0x47, 0x4C, 0x38, 0x20, 0x69, 0x64, 0x65, 0x6E, 0x74, 0x69, 0x74, 0x79] : List Byte))

/-- The device identity public key (R486). -/
def identityKey : List Byte := dsaPublicKey identityXi

/-- Whether the certificate names the identity key (R487). -/
def certificateFits : Bool := decide (Config.certificateKey = identityKey)

/-- "GL8 quote". -/
def ctxQuote : List Byte := [0x47, 0x4C, 0x38, 0x20, 0x71, 0x75, 0x6F, 0x74, 0x65]

/-- Bytes 0x000 to 0x10F of a quote (R489). -/
def quoteBody (s : State) (nonce dev : BitVec 256) : List Byte :=
  natLe 4 0x54514C47 ++ natLe 2 1 ++ natLe 2 0 ++ natLe 8 (s.getF sSerial) ++ natLe 2 (s.getF sFwMajor) ++ natLe 2 (s.getF sFwMinor) ++
    natLe 4 0 ++ natLe 8 (s.reg64 0x10).toNat ++ natLe 8 s.tick ++ digestBytes nonce ++ digestBytes dev ++
    (List.range 4).flatMap s.meas ++ s.bytes256 pDigest ++ natLe 8 s.keysWord.toNat

/-- A signed quote (R489). -/
def quoteBytes (s : State) (nonce dev rnd : BitVec 256) : List Byte :=
  let d := quoteBody s nonce dev
  d ++ (dsaSign identityXi d ctxQuote rnd ++ List.replicate 2420 0#8).take 2420

/-- The answer to a quote that cannot be signed (R490). -/
def quoteStatus (st : Nat) : List Byte := natLe 4 0x54514C47 ++ natLe 2 1 ++ natLe 2 st

/-! ### The DOE mailbox (R412, R487-R490) -/

/-- The last address of HBM, plus one (R403). -/
def hdmTop : Nat := 0x3000000000

/-- The protocols, as vendor ID and type. -/
def doeProtocols : List (Nat × Nat) := [(0x0001, 0x00), (0x1E98, 0x02), (0x1D8F, 0x01)]

/-- The DSMAS entry of the CDAT: 192 GiB from DPA 0. -/
def cdatDsmas : List Byte := natLe 1 0 ++ natLe 1 0 ++ natLe 2 24 ++ natLe 1 0 ++ natLe 1 0 ++ natLe 2 0 ++ natLe 8 0 ++ natLe 8 hdmTop

/-- A DSLBIS entry of the CDAT: data type, base unit, value. -/
def cdatDslbis (ty unit value : Nat) : List Byte :=
  natLe 1 1 ++ natLe 1 0 ++ natLe 2 24 ++ natLe 1 0 ++ natLe 1 0 ++ natLe 1 ty ++ natLe 1 0 ++ natLe 8 unit ++ natLe 2 value ++
    natLe 2 0 ++ natLe 2 0 ++ natLe 2 0

/-- The CDAT: DSMAS, read and write latency of 450 ns in units of 1,000 ps, read and write bandwidth of 48 GB/s in units
of 1 MB/s (R412). -/
def cdat : List Byte :=
  let body := cdatDsmas ++ cdatDslbis 1 1000 450 ++ cdatDslbis 2 1000 450 ++ cdatDslbis 4 1 48000 ++ cdatDslbis 5 1 48000
  let head (sum : Nat) := natLe 4 (16 + body.length) ++ natLe 1 1 ++ natLe 1 sum ++ natLe 6 0 ++ natLe 4 0
  head ((256 - ((head 0 ++ body).map BitVec.toNat).sum % 256) % 256) ++ body

/-- The largest data object that the mailbox accepts, in bytes (R412). -/
def doeLimit : Nat := 16384

/-- The mailbox takes a request in hand: it answers it, or it waits for the DRBG (R412, R438, R439, R487, R489, R490; the
layouts of DOE Discovery and CXL Table Access are those of PCI Express and CXL). A malformed object or another protocol gets
no response and is counted; SYS_IGNORED_LAST.ADDR has no meaning that the spec gives there (R411). -/
def State.serveDoe (r : DoeReq) (s : State) : State :=
  match r with
  | .discovery i =>
    match doeProtocols[i]? with
    | some (v, t) => s.emit (.doe (natLe 2 v ++ natLe 1 t ++ natLe 1 (if i + 1 < 3 then i + 1 else 0)))
    | none => s.emit (.doe (natLe 2 0xFFFF ++ natLe 1 0xFF ++ natLe 1 0))
  | .cdat => s.emit (.doe (natLe 1 0 ++ natLe 1 0 ++ natLe 2 0xFFFF ++ cdat))
  | .cert => s.emit (.doe (natLe 4 (if Config.certificate.isEmpty then 1 else 0) ++ Config.certificate))
  | .quote n =>
    if !certificateFits || Config.certificate.isEmpty then s.emit (.doe (quoteStatus 1))
    else if s.getF eState = 6 then s.emit (.doe (quoteStatus 2))
    else s.ask (.quote n)
  | .bad => (s.ignored 0x0C false true (s.draw.toNat % 2 ^ 48)).used

/-- Whether a request is in hand: a quote that waits for the DRBG (R412, R489). -/
def State.doeBusy (s : State) : Bool :=
  s.ent.waiting.any fun e => match e.2 with
    | .quote _ => true
    | _ => false

/-- The mailbox goes on with the requests that wait, until one waits for the DRBG (R412). -/
def State.doeNext : Nat → State → State
  | 0, s => s
  | n + 1, s =>
    match s.hostcfg.doe with
    | [] => s
    | r :: t => if s.doeBusy then s else State.doeNext n ({ s with hostcfg := { s.hostcfg with doe := t } }.serveDoe r)

/-- A request reaches the mailbox; while one is in hand it waits its turn (R412; log 110). -/
def State.doeRequest (r : DoeReq) (s : State) : State :=
  { s with hostcfg := { s.hostcfg with doe := s.hostcfg.doe ++ [r] } }.doeNext (s.hostcfg.doe.length + 1)

/-- The request in hand is answered, and the mailbox goes on (R412). -/
def State.answerDoe (bs : List Byte) (s : State) : State := (s.emit (.doe bs)).doeNext s.hostcfg.doe.length

/-- DOE_DISCOVERY (R412). -/
def execDoeDiscovery (index : Nat) (s : State) : Host.Outcome State Fault Refusal := .next (s.doeRequest (.discovery index))

/-- CXL_TABLE_ACCESS (R412). -/
def execCxlTableAccess (s : State) : Host.Outcome State Fault Refusal := .next (s.doeRequest .cdat)

/-- GET_CERT (R489). -/
def execGetCert (s : State) : Host.Outcome State Fault Refusal := .next (s.doeRequest .cert)

/-- QUOTE (R489). -/
def execQuote (nonce : BitVec 256) (s : State) : Host.Outcome State Fault Refusal := .next (s.doeRequest (.quote nonce))

/-- Whether an object is one that the mailbox does not serve: malformed, longer than it accepts, or of another protocol
(R412). -/
def doeBad (protocol : Nat × Nat) (object : DoeObject) : Bool :=
  object.malformed || decide (doeLimit < object.bytes) || !doeProtocols.contains protocol

/-- DOE_UNSUPPORTED (R412). -/
def execDoeUnsupported (protocol : Nat × Nat) (object : DoeObject) (s : State) : Host.Outcome State Fault Refusal :=
  guarded (decide (protocol.1 < 65536) && decide (protocol.2 < 256) && doeBad protocol object) s (s.doeRequest .bad)

end Sys2Proof.Machine
end

