-- ==== Sys2Proof/Machine/Drbg.lean ====
section
/-!
DEFINITION. AES-256 and the CTR_DRBG of NIST SP 800-90A with AES-256 and the derivation function (R434). The details are those
of FIPS 197 and SP 800-90A, which R434 cites (log 6).
-/
namespace Sys2Proof.Machine

/-! ### AES-256 -/

/-- x·a in GF(2⁸), reduced by x⁸ + x⁴ + x³ + x + 1. -/
def aesDouble (a : Byte) : Byte := if a.msb then (a <<< 1) ^^^ 0x1B#8 else a <<< 1

/-- The sum over the low `n` bits of `b` of a·xⁱ. -/
def aesMulFrom : Nat → Byte → Byte → Byte
  | 0, _, _ => 0
  | n + 1, a, b => (if b.getLsbD 0 then a else 0) ^^^ aesMulFrom n (aesDouble a) (b >>> 1)

/-- The product. -/
def aesMul (a b : Byte) : Byte := aesMulFrom 8 a b

/-- a^254, the inverse of a symbol that is not 0: the product of a², a⁴, … a¹²⁸. -/
def aesInverse (a : Byte) : Byte :=
  ((List.range 7).foldl (fun (x : Byte × Byte) _ => let s := aesMul x.1 x.1; (s, aesMul x.2 s)) (a, 1)).2

/-- The S-box. -/
def aesSub (a : Byte) : Byte :=
  let b := aesInverse a
  b ^^^ b.rotateLeft 1 ^^^ b.rotateLeft 2 ^^^ b.rotateLeft 3 ^^^ b.rotateLeft 4 ^^^ 0x63#8

/-- Bytes added in the field. -/
def xorBytes (a b : List Byte) : List Byte := List.zipWith (· ^^^ ·) a b

/-- The next word of the key schedule after the words `w`, the newest first. -/
def aesNextWord (w : List (List Byte)) : List Byte :=
  let i := w.length
  let t := w.getD 0 []
  let rcon := (List.range (i / 8 - 1)).foldl (fun r _ => aesDouble r) 1#8
  let t := if i % 8 = 0 then xorBytes ((t.drop 1 ++ t.take 1).map aesSub) [rcon, 0, 0, 0]
    else if i % 8 = 4 then t.map aesSub
    else t
  xorBytes (w.getD 7 []) t

/-- The fifteen round keys of a key of 32 bytes. -/
def aesKeys (key : List Byte) : List (List Byte) :=
  let w := (List.range 52).foldl (fun w _ => aesNextWord w :: w) (pieces 4 key).reverse
  (pieces 4 w.reverse).map List.flatten

/-- ShiftRows: byte r of column c comes from column c + r. -/
def aesShift (x : List Byte) : List Byte := (List.range 16).map fun i => x.getD ((i + 4 * (i % 4)) % 16) 0

/-- MixColumns. -/
def aesMix (x : List Byte) : List Byte :=
  (List.range 16).map fun i =>
    let a := fun k => x.getD (i / 4 * 4 + (i + k) % 4) 0
    aesDouble (a 0) ^^^ aesDouble (a 1) ^^^ a 1 ^^^ a 2 ^^^ a 3

/-- The block cipher under its round keys. -/
def aesWith (keys : List (List Byte)) (block : List Byte) : List Byte :=
  let x := (List.range 13).foldl (fun x r => xorBytes (aesMix (aesShift (x.map aesSub))) (keys.getD (r + 1) []))
    (xorBytes block (keys.getD 0 []))
  xorBytes (aesShift (x.map aesSub)) (keys.getD 14 [])

/-- AES-256 of a block of 16 bytes. -/
def aes (key block : List Byte) : List Byte := aesWith (aesKeys key) block

/-! ### CTR_DRBG (R434) -/

/-- A number as `n` bytes, most significant first. -/
def natBe (n x : Nat) : List Byte := (natLe n x).reverse

/-- V + 1 modulo 2¹²⁸. -/
def nextV (v : List Byte) : List Byte := natBe 16 (leNat v.reverse + 1)

/-- `n` blocks of output, with the V that they leave. -/
def drbgBlocks (keys : List (List Byte)) : Nat → List Byte → List Byte × List Byte
  | 0, v => ([], v)
  | n + 1, v =>
    let v := nextV v
    let (t, w) := drbgBlocks keys n v
    (aesWith keys v ++ t, w)

/-- CTR_DRBG_Update with 48 bytes. -/
def drbgUpdate (provided : List Byte) (s : DrbgState) : DrbgState :=
  let t := xorBytes (drbgBlocks (aesKeys s.key) 3 s.v).1 provided
  ⟨t.take 32, t.drop 32⟩

/-- BCC: the chained encryption of whole blocks. -/
def drbgChain (keys : List (List Byte)) (data : List Byte) : List Byte :=
  (pieces 16 data).foldl (fun c b => aesWith keys (xorBytes c b)) (List.replicate 16 0)

/-- Block_Cipher_df for 48 bytes. -/
def drbgDerive (input : List Byte) : List Byte :=
  let body := natBe 4 input.length ++ natBe 4 48 ++ input ++ [0x80#8]
  let s := body ++ List.replicate (roundUp body.length 16 - body.length) 0#8
  let keys := aesKeys ((List.range 32).map fun i => BitVec.ofNat 8 i)
  let t := (List.range 3).flatMap fun i => drbgChain keys (natBe 4 i ++ List.replicate 12 0#8 ++ s)
  let k := aesKeys (t.take 32)
  let x0 := (t.drop 32).take 16
  let x1 := aesWith k x0
  let x2 := aesWith k x1
  x1 ++ x2 ++ aesWith k x2

/-- Instantiate: entropy input, nonce and personalisation string (R434). -/
@[irreducible] def drbgInstantiate (entropy nonce pers : List Byte) : DrbgState :=
  drbgUpdate (drbgDerive (entropy ++ nonce ++ pers)) ⟨List.replicate 32 0, List.replicate 16 0⟩

/-- Reseed: entropy input and additional input (R434). -/
@[irreducible] def drbgReseed (entropy extra : List Byte) (s : DrbgState) : DrbgState :=
  drbgUpdate (drbgDerive (entropy ++ extra)) s

/-- Generate without additional input: 64 bytes, and the state after (R434, R435). -/
@[irreducible] def drbgGenerate (s : DrbgState) : List Byte × DrbgState :=
  let (t, v) := drbgBlocks (aesKeys s.key) 4 s.v
  (t, drbgUpdate (List.replicate 48 0) { s with v := v })

end Sys2Proof.Machine
end

