-- ==== Sys2Proof/Machine/Entropy.lean ====
section
/-!
DEFINITION. The entropy source, the DRBG and what waits for it (R431-R442).
-/
namespace Sys2Proof.Machine

/-! ### Requests (R435-R438, R441) -/

/-- The host random register asks for a refill whenever its FIFO is empty (R441). -/
def State.askRandom (s : State) : State :=
  if s.ent.fifo.isEmpty && s.getF eState != 6 && !s.ent.waiting.any (fun e => e.2 == .hostRandom) then s.ask .hostRandom else s

/-- Whether the DRBG serves: instantiated, in RUN or RESTART, until REQUESTS has reached 2^24 (R436, R437). -/
def State.serves (s : State) : Bool := (s.getF eState == 3 || s.getF eState == 4) && !s.onF eStalled && s.ent.drbg.isSome

/-- A Generate call is counted; a reseed that falls due waits for its block, and 2^24 calls stall the DRBG (R436). -/
def State.countCall (s : State) : State :=
  if s.getF eRequests = 2 ^ 24 - 1 then s.setF eStalled 1 |>.setF eStretched 1
  else
    let s := s.incF eRequests 1
    if s.getF eInterval ≤ s.getF eRequests then s.setF eStretched 1 else s

/-- The challenge of an unlock goes out, and the monitor expects the token (R506). -/
def State.challenged (c : BitVec 256) (s : State) : State :=
  { s with mon := { s.mon with challenge := some c, challengeTick := s.tick, transfer := some (.token 0), frameTick := s.tick } }.emit
    (.monLine (digestBytes c))

/-- The challenge while the DRBG gives no output: the digest of serial number, start count and tick (R506). -/
def State.tickChallenge (s : State) : BitVec 256 :=
  sha3 (natLe 8 (s.getF sSerial) ++ natLe 4 s.flash.starts ++ natLe 8 s.tick)

/-- What an output of the DRBG does for its consumer (R202, R203, R441, R489, R506). -/
def State.deliver (r : EntReq) (x : BitVec 512) (s : State) : State :=
  match r with
  | .pourSeed p =>
    (s.setF (psLo p) (bitsOf x 0 64) |>.setF (psHi p) (bitsOf x 64 32) |>.setF (psFresh p) 1).modPart p fun t => { t with seeded := true }
  | .nextSeed p =>
    (s.setF (pnLo p) (bitsOf x 0 64) |>.setF (pnHi p) (bitsOf x 64 32)).modPart p fun t => { t with filled := true }
  | .quote n => s.answerDoe (quoteBytes s n (x.extractLsb' 0 256) (x.extractLsb' 256 256))
  | .challenge => s.challenged (x.extractLsb' 0 256)
  | .hostRandom => { s with ent := { s.ent with fifo := (List.range 16).map fun i => x.extractLsb' (32 * i) 32 } }

/-- The DRBG serves the request that is first in the order of R435 with one Generate call of 512 bits, whose first byte is
lowest (log 6). -/
def drbgGenerateOp (s : State) : State :=
  match s.ent.waiting, s.ent.drbg with
  | e :: rest, some d =>
    if s.serves then
      let x := drbgGenerate d
      let s := { s with ent := { s.ent with waiting := rest, drbg := some x.2 } }.countCall
      s.deliver e.2 (BitVec.ofNat 512 (leNat x.1))
    else s
  | _, _ => s

/-- DRBG_GENERATE (R435). -/
def execDrbgGenerate (s : State) : Host.Outcome State Fault Refusal := .next (drbgGenerateOp s)

/-- An attestation request that has waited 40 ms is answered with status 2 (R438, R490). -/
def entropyUnavailableOp (s : State) : State :=
  match takeFirst (fun e => match e.2 with
    | .quote _ => decide (e.1 + 2000000 ≤ s.tick)
    | _ => false) s.ent.waiting with
  | some (_, rest) => { s with ent := { s.ent with waiting := rest } }.answerDoe (quoteStatus 2)
  | none => s

/-- ENTROPY_UNAVAILABLE (R438). -/
def execEntropyUnavailable (s : State) : Host.Outcome State Fault Refusal := .next (entropyUnavailableOp s)

/-! ### The source (R431-R437, R439) -/

/-- A waiting request is refused (R439). -/
def refuseReq (r : EntReq) (s : State) : State :=
  match r with
  | .pourSeed _ => if s.getF pPattern = 3 then s.abandonPour 0x13 false else s
  | .nextSeed p => s.setF (pnFilling p) 0
  | .quote _ => s.answerDoe (quoteStatus 2)
  | .challenge => s.challenged s.tickChallenge
  | .hostRandom => s

/-- The source begins anew: no sample, no conditioned bit and no block that it had counts (R432). -/
def State.freshSource (s : State) : State := { s with ent := { s.ent with oscs := [], odd := none, seed := none } }

/-- The fatal entropy alarm (R433, R434, R439, R493). -/
def State.entropyAlarm (s : State) : State :=
  let l := s.ent.waiting
  let s := { s.freshSource with ent := { s.freshSource.ent with waiting := [], drbg := none } }.setF eState 6
  (forAll l (fun e t => refuseReq e.2 t) s).fatal 0x02 9 0 0 .full id

/-- A health test fails: the block is discarded, the failure counted, the source restarted, or the alarm raised
(R432, R433). -/
def State.healthFail (f : Fld) (s : State) : State :=
  let s := (s.incF f 1).incF eFails 1
  if 4 ≤ s.getF eFails then s.entropyAlarm
  else s.freshSource.setF eState (if 3 ≤ s.getF eState then 4 else 1)

/-- The conditioned bit of a pair of samples: their XOR, or von Neumann's, which is the first of an unequal pair (R431). -/
def conditioned (vonNeumann a b : Bool) : Option Bool :=
  if vonNeumann then (if a = b then none else some a) else some (a != b)

/-- Conditioned bits that the start-up tests see in every stream (R432). -/
def startUpBits : Nat := 4096

/-- A conditioned bit passes the two health tests of its stream, whose cutoffs MODE selects; answers the counter of a test that
fails (R432; log 111). -/
def Osc.test (vonNeumann x : Bool) (o : Osc) : Osc × Option Fld :=
  let run := if o.run ≠ 0 ∧ x = o.runBit then o.run + 1 else 1
  let bit := if o.winAt = 0 then x else o.winBit
  let count := if o.winAt = 0 then 1 else o.winCount + (x == o.winBit).toNat
  let t : Osc := { o with runBit := x, run := run, winBit := bit, winAt := (o.winAt + 1) % 1024, winCount := count }
  let t := if o.started < startUpBits then { t with started := t.started + 1 } else { t with bits := t.bits ++ [x] }
  let runCut := if vonNeumann then 23 else 26
  let winCut := if vonNeumann then 607 else 664
  (t, if runCut ≤ run then some eRctFails else if winCut ≤ count then some eAptFails else none)

/-- Oscillator `i` meets a pair of samples. -/
def State.oscPair (s : State) (a b : W32) (i : Nat) : Osc × Option Fld :=
  let o := s.ent.oscs.getD i {}
  match conditioned (s.onF eMode) (bitOf a i) (bitOf b i) with
  | some x => o.test (s.onF eMode) x
  | none => (o, none)

/-- The DRBG is instantiated or reseeded: REQUESTS counts anew (R436). -/
def State.freshDrbg (s : State) : State := s.setF eRequests 0 |>.setF eStretched 0 |>.setF eStalled 0

/-- A block as bytes, its lowest bits first (log 6). -/
def blockBytes512 (b : BitVec 512) : List Byte := natLe 64 b.toNat

/-- ENT_PERS as bytes (R434, R442; log 6). -/
def State.persBytes (s : State) : List Byte := s.bytes256 ePers

/-- The DRBG is instantiated from two blocks: entropy input, and the first 256 bits of the second as nonce; the
personalisation string is the serial number and ENT_PERS (R434). -/
def State.instantiate (e n : BitVec 512) (s : State) : State :=
  let d := drbgInstantiate (blockBytes512 e) ((blockBytes512 n).take 32) (natLe 8 (s.getF sSerial) ++ s.persBytes)
  { s with ent := { s.ent with seed := none, drbg := some d, instDue := false, reseedDue := false } }.freshDrbg

/-- The DRBG is reseeded from a block, with ENT_PERS as additional input (R434, R436). -/
def State.reseed (b : BitVec 512) (s : State) : State :=
  let d := s.ent.drbg.map (drbgReseed (blockBytes512 b) s.persBytes)
  ({ s with ent := { s.ent with drbg := d, reseedDue := false } }.freshDrbg).incF eReseeds 1

/-- A block goes to what is due in RUN: an instantiation, which takes two blocks, or a reseed (R434, R436). -/
def State.useBlock (b : BitVec 512) (s : State) : State :=
  if s.ent.instDue then
    match s.ent.seed with
    | none => { s with ent := { s.ent with seed := some b } }
    | some e => s.instantiate e b
  else if s.ent.reseedDue || s.onF eStretched || decide (s.getF eInterval ≤ s.getF eRequests) then s.reseed b
  else s

/-- A block passes: the DRBG is instantiated from two blocks, a restart ends, or what is due is served (R433, R436, R437). -/
def State.blockPass (b : BitVec 512) (s : State) : State :=
  match s.getF eState with
  | 2 =>
    let s := s.setF eFails 0
    match s.ent.seed with
    | none => { s with ent := { s.ent with seed := some b } }
    | some e =>
      let tick := if s.ent.runTick = 0 then s.tick else s.ent.runTick
      let s := (s.instantiate e b).setF eState 3
      { s with ent := { s.ent with runTick := tick } }
  | 3 => (s.setF eFails 0).useBlock b
  | 4 => ((s.setF eFails 0).setF eState 3).useBlock b
  | _ => s

/-- Sixteen bits of a stream go into a block. -/
def Osc.used (o : Osc) : Osc := { o with bits := o.bits.drop 16 }

/-- A block is gathered when every oscillator has 16 bits: those of oscillator i are its bits 16i to 16i + 15 (R431). -/
def State.gather (s : State) : State :=
  if s.ent.oscs.length = 32 ∧ s.ent.oscs.all (fun o => decide (16 ≤ o.bits.length)) then
    let bits := s.ent.oscs.flatMap fun o => o.bits.take 16
    let b := BitVec.ofNat 512 ((bits.zipIdx.map fun e => if e.1 then 2 ^ e.2 else 0).sum)
    { s with ent := { s.ent with oscs := s.ent.oscs.map Osc.used } }.blockPass b
  else s

/-- The start-up tests are over once every stream has passed them: STARTUP ends with the known-answer tests (R434, R437). -/
def State.startUp (kat : Bool) (s : State) : State :=
  if s.getF eState = 1 ∧ s.ent.oscs.all (fun o => decide (startUpBits ≤ o.started)) then
    if kat then s.setF eState 2 else s.entropyAlarm
  else s

/-- A pair of samples of every oscillator: the lowest-numbered stream that fails a test restarts the source (R431-R433). -/
def State.samplePair (kat : Bool) (a b : W32) (s : State) : State :=
  let l := (List.range 32).map (s.oscPair a b)
  match (l.filterMap Prod.snd).head? with
  | some f => s.healthFail f
  | none => ({ s with ent := { s.ent with oscs := l.map Prod.fst } }.startUp kat).gather

/-- One sample of every oscillator; in OFF, RAW and ALARM nothing comes of it (R431, R437). -/
def State.sample (kat : Bool) (x : W32) (s : State) : State :=
  if s.getF eState = 0 ∨ 5 ≤ s.getF eState then s
  else
    match s.ent.odd with
    | none => { s with ent := { s.ent with odd := some x } }
    | some a => { s with ent := { s.ent with odd := none } }.samplePair kat a x

/-- The source's samples up to the completion of a block: they are conditioned, tested and gathered; `kat` is the outcome of
the known-answer tests, if they come due (R431-R434). -/
def entropyBlockOp (samples : List W32) (kat : Bool) (s : State) : State := forAll samples (State.sample kat) s

/-- ENTROPY_BLOCK (R431). -/
def execEntropyBlock (r : EntropyIn) (s : State) : Host.Outcome State Fault Refusal :=
  .next (entropyBlockOp r.samples r.kat s)

/-! ### Commands (R433, R436, R440-R442) -/

/-- The source restarts without a failure counted (R433, R437). -/
def State.restartSource (s : State) : State :=
  let st := s.getF eState
  if st = 1 ∨ st = 2 then s.freshSource.setF eState 1
  else if st = 3 ∨ st = 4 then s.freshSource.setF eState 4
  else s

/-- RESEED: the next block reseeds (R436). -/
def State.wantReseed (s : State) : State := { s with ent := { s.ent with reseedDue := true } }

/-- INSTANTIATE: the next two blocks instantiate anew (R436). -/
def State.wantInstantiate (s : State) : State := { s with ent := { s.ent with instDue := true, seed := none } }

/-- Raw mode is entered, and left for STARTUP with the DRBG to be instantiated afresh (R437, R440). -/
def State.setRaw (on : Bool) (s : State) : State :=
  let st := s.getF eState
  let s := s.setF mRaw on.toNat
  if on && decide (1 ≤ st) && decide (st ≤ 4) then
    { s.freshSource with ent := { s.freshSource.ent with drbg := none } }.setF eState 5
  else if !on && decide (st = 5) then s.freshSource.freshDrbg.setF eState 1
  else s

/-- A host write of the ENT word at 0x00: MODE, RESEED and INSTANTIATE (R442). -/
def State.entWrite (o size : Nat) (v : W64) (s : State) : State :=
  let fs := accessFields bar0Map o size
  let s := s.plainWrite fs o v
  let s := if fs.any fun f => f.1 == eMode then s.restartSource else s
  let put := fun lo => fs.any fun f => f.2 == .wo && f.1.lo == lo && writtenBits o v f.1 != 0
  let s := if put 1 then s.wantReseed else s
  if put 2 then s.wantInstantiate else s

/-- A host write of MODE (R433). -/
def entModeWriteOp (mode : Bool) (s : State) : State :=
  s.hostAct true 0x00400000 fun s => (s.setF eMode mode.toNat).restartSource

/-- ENT_MODE_WRITE (R433). -/
def execEntModeWrite (mode : Bool) (s : State) : Host.Outcome State Fault Refusal := .next (entModeWriteOp mode s)

/-- A host write of RESEED (R436). -/
def entReseedOp (s : State) : State := s.hostAct true 0x00400000 State.wantReseed

/-- ENT_RESEED (R436). -/
def execEntReseed (s : State) : Host.Outcome State Fault Refusal := .next (entReseedOp s)

/-- A host write of INSTANTIATE (R436). -/
def entInstantiateOp (s : State) : State := s.hostAct true 0x00400000 State.wantInstantiate

/-- ENT_INSTANTIATE (R436). -/
def execEntInstantiate (s : State) : Host.Outcome State Fault Refusal := .next (entInstantiateOp s)

/-- A read of ENT_RAND: 8 bytes take the oldest value, 4 bytes return their half and take nothing (R441). -/
def State.randRead (o size : Nat) (s : State) : State :=
  if s.onF sLimited then (s.ignored 0x03 false false o).emit (.readData o size 0)
  else
    let v := s.readVal o size
    let s := if size = 8 then ({ s with ent := { s.ent with fifo := s.ent.fifo.drop 1 } }).askRandom else s
    s.emit (.readData o size v)

/-- A read of ENT_RAND of a size that R400 allows, or of another, which is ignored and counted. -/
def entRandReadOp (size : Nat) (high : Bool) (s : State) : State :=
  let o := 0x00400020 + 4 * high.toNat
  if accessSized o size then s.randRead o size else (s.ignored 0x02 false false o).emit (.readData o size 0)

/-- ENT_RAND_READ (R441). -/
def execEntRandRead (size : Nat) (high : Bool) (s : State) : Host.Outcome State Fault Refusal := .next (entRandReadOp size high s)

end Sys2Proof.Machine
end

