-- ==== Sys2Proof/Machine/Hbm.lean ====
section
/-!
DEFINITION. The HBM controllers: requests, corrections, refresh, scrubbing and row remap; SRAM scrubbing (R329-R332,
R337-R360).
-/
namespace Sys2Proof.Machine

/-! ### Requests (R338-R341) -/

/-- The queue of a partition at a pseudo-channel. -/
def HbmCtl.queue (c : HbmCtl) (k : Nat) : List Flit := tblGet (fun _ => []) c.queues k

/-- Sets it. -/
def State.setQueue (p part : Nat) (l : List Flit) (s : State) : State :=
  s.modCtl (ctlOf p) fun c => { c with queues := tblPut (fun _ => []) (hbmKey p part) l c.queues }

/-- A request reaches its controller; in exact-timing mode one that finds 16 requests of its partition at the
pseudo-channel raises HBM_OVERRUN (R341, R363). -/
def State.toController (src part a : Nat) (f : Flit) (s : State) : State :=
  let p := pcOf a
  let l := (s.ctl (ctlOf p)).queue (hbmKey p part)
  if s.exact && decide (16 ≤ l.length) then s.remoteFault src 0x68
  else s.setQueue p part (l ++ [f])

/-- The first tap that an HBM flit reaches takes it from its slot (R246). -/
def hbmArrive (d ring slot : Nat) (s : State) : State :=
  match s.slotTurn d ring slot with
  | some (x, t) =>
    match x.flit with
    | .hbm src _ _ haddr _ _ _ _ _ _ =>
      ((s.ringTo d t).setSlot d ring slot none).toController src ((s.owner src).getD 0) haddr x.flit
    | _ => s
  | none => s

/-- Whether a unit written by partition `p` is the header of a result record: the first of an output unit's slot, or,
where no output unit is, one that begins with MAGIC and VERSION in an OUTPUT grant of the partition (R121, R276, R334, R425;
log 102). -/
def State.isRecord (s : State) (p a : Nat) (bs : List Byte) : Bool :=
  match s.unitFor 1 a with
  | some u => (s.slotOf u a).2 == 0
  | none => leNat (bs.take 4) == 0x38524C47 && leNat ((bs.drop 4).take 2) == 1 &&
      s.pat.grants.any fun g => g.part == p && g.kind == 2 && decide (g.base ≤ a) && decide (a < g.base + g.length)

/-- Whether an event has broken the exact-timing promise of the result in progress (R276). -/
def State.notExact (s : State) (p : Nat) : Bool :=
  let t := s.part p
  s.exact && (t.hadExtra || t.hadPause || t.hadLink || t.hadSpan)

/-- A record header as the GL8 passes it on: DEADLINE is set when the deadline has acted, TIMING_NOT_EXACT when an event has
broken the promise (R120, R276). -/
def State.stampRecord (s : State) (p a : Nat) (bs : List Byte) : List Byte :=
  if s.isRecord p a bs then
    let flags := BitVec.ofNat 32 (leNat ((bs.drop 12).take 4))
    let flags := if s.onF (pdFired p) then flags ||| 0x100#32 else flags
    let flags := if s.notExact p then flags ||| 0x1000#32 else flags
    bs.take 12 ++ natLe 4 flags.toNat ++ bs.drop 16
  else bs

/-- One 64-byte unit of a WRITE of partition `p` is stamped where it is a record header, snooped by an output unit and
committed, its poisoned quarters as poison (R276, R338, R425). -/
def State.commitUnit (p a : Nat) (bs : List Byte) (m : Nat) (s : State) : State :=
  let (s, d) := s.outputWrite a (s.stampRecord p a bs) (decide (m % 4 ≠ 0))
  forAll ((pieces 32 d).zipIdx) (fun e t =>
    if Nat.testBit m e.2 then t.wrHbmPoison (a + 32 * e.2) e.1 else t.wrHbm (a + 32 * e.2) e.1) (s.noteRemap a bs.length)

/-- The acknowledgement of a WRITE goes to its source stop's bridge, which discards it for a partition in reset (R339). -/
def State.acknowledge (src mid units : Nat) (s : State) : State :=
  if s.resetting (dieOf src) then s.incF gSprueDiscards 1 else { s with acks := s.acks ++ [(src, mid, units)] }

/-- A controller serves a request: read data go back as a SEND flit, with poisoned words marked; a write is committed
and acknowledged (R338, R339). -/
def State.serveHbm (f : Flit) (s : State) : State :=
  match f with
  | .hbm src mid false haddr dcore dmem daddr units _ _ =>
    let n := 64 * units
    let m := ((List.range (2 * units)).map fun q => if isBad (s.hbmErr (haddr / 32 + q)) then 2 ^ q else 0).sum
    let d := s.hbm.load haddr n
    (s.noteHbmRead haddr n).toDie dcore (.send src mid dcore false 0 dmem daddr false false 0 (BitVec.ofNat 6 m) d)
  | .hbm src mid true haddr _ _ _ units pmask data =>
    let p := (s.owner src).getD 0
    (forAll ((pieces 64 data).zipIdx) (fun e t => t.commitUnit p (haddr + 64 * e.2) e.1 (bitsOf pmask (2 * e.2) 2)) s).acknowledge
      src mid units
  | _ => s

/-- Whether a partition owns a slot of a pseudo-channel: in exact-timing mode its queue is served in such slots alone
(R334, R341). -/
def State.ownsPc (s : State) (p part : Nat) : Bool :=
  !s.exact || (s.pat.slotMaps.any fun e => e.1 == part &&
    (List.range (s.pat.frame)).any fun n => bitOf (e.2.getD (p * (64 * ceilDiv s.pat.frame 512) + n / 8) 0) (n % 8))

/-- The head of a queue is served in its turn; a stopped controller serves nothing (R340, R341, R493). -/
def hbmServe (p part : Nat) (s : State) : State :=
  let c := s.ctl (ctlOf p)
  if c.stopped || !s.ownsPc p part then s
  else
    match c.queue (hbmKey p part) with
    | [] => s
    | f :: rest => (s.setQueue p part rest).serveHbm f

/-- A flit reaches its controller, a queue's head is served, or both (R340). -/
def hbmRequestOp (arrive : Option SlotRef) (serve : Option PcRef) (s : State) : State :=
  let s := match arrive with
    | some r => hbmArrive r.die r.ring r.slot s
    | none => s
  match serve with
  | some q => hbmServe q.p q.part s
  | none => s

/-- Whether a slot reference names a slot of the part. -/
def slotRefOk : Option SlotRef → Bool
  | some r => decide (r.die < 8) && decide (r.ring < 4) && decide (r.slot < 288)
  | none => true

/-- Whether a reference names a pseudo-channel and a partition. -/
def pcRefOk : Option PcRef → Bool
  | some q => decide (q.p < 192) && decide (q.part < 8)
  | none => true

/-- HBM_REQUEST (R340). -/
def execHbmRequest (arrive : Option SlotRef) (serve : Option PcRef) (s : State) : Host.Outcome State Fault Refusal :=
  guarded (slotRefOk arrive && pcRefOk serve) s (hbmRequestOp arrive serve s)

/-! ### Refresh and temperature (R342-R345) -/

/-- Debt of a bank. -/
def HbmCtl.owed (c : HbmCtl) (k : Nat) : Nat := tblGet (fun _ => 0) c.debt k

/-- Refresh of an armed partition's debt is inserted while it is held: its result had extra refresh (R275, R276, R345). -/
def noteExtra (q : Nat) (s : State) : State :=
  if s.getF (ppState q) = 1 then s.modPart q fun x => { x with hadExtra := true } else s

/-- REFpb of bank `bank` of package pseudo-channel `p`. In exact-timing mode a stack that requires a class above the
compiled one owes the REFpb that the frame does not issue, every partition is to be held, and once all are held an
issued REFpb pays one (R342, R345); else it only takes time (R344). -/
def refpbOp (p bank : Nat) (s : State) : State :=
  let c := ctlOf p
  let k := p * 32 + bank
  let o := (s.ctl c).owed k
  if !s.exact || !s.armed then s
  else if s.allHeld then
    if o = 0 then s
    else forAll (List.range 8) noteExtra ((s.modCtl c fun t => { t with debt := tblPut (fun _ => 0) k (o - 1) t.debt }).incF (bExtra c) 1)
  else
    let extra := 2 ^ (min 2 (s.getF (bClass c)) - s.pat.refresh) - 1
    if extra = 0 then s
    else
      let s := s.modCtl c fun t => { t with debt := tblPut (fun _ => 0) k (o + extra) t.debt }
      forAll (List.range 8) (fun q t => if t.getF (ppState q) = 1 then t.modPart q fun x => { x with refreshDebt := true } else t) s

/-- REFPB (R344). -/
def execRefpb (p bank : Nat) (s : State) : Host.Outcome State Fault Refusal :=
  guarded (decide (p < 192) && decide (bank < 32)) s (refpbOp p bank s)

/-- The refresh class that a stack temperature requires (R343). -/
def refreshClass (t : Nat) : Nat := if t ≤ 85 then 0 else if t ≤ 95 then 1 else if t ≤ 105 then 2 else 3

/-- Every stack goes into self refresh (R493). -/
def State.restStacks (s : State) : State := forAll (List.range 6) (fun c t => t.modCtl c fun x => { x with selfRefresh := true }) s

/-- A stack temperature read: the class it requires, from which the pause requests follow (`wantsPause`); above 110 °C
the fatal HBM_TEMP (R343, R493). -/
def stackTemperatureReadOp (c : Nat) (t : BitVec 8) (s : State) : State :=
  let s := s.setF (bTemp c) t.toNat |>.setF (bClass c) (refreshClass t.toNat)
  if 110 < t.toNat then s.fatal 0x06 (16 + c) 0 t.toNat .short State.restStacks
  else s

/-- STACK_TEMPERATURE_READ (R343). -/
def execStackTemperatureRead (c : Nat) (t : BitVec 8) (s : State) : Host.Outcome State Fault Refusal :=
  guarded (decide (c < 6)) s (stackTemperatureReadOp c t s)

/-! ### Write-back, scrubbing, remap (R341, R351, R353, R356-R358) -/

/-- Whether a pseudo-channel has an idle cycle for write-back: a slot that no partition owns in exact-timing mode, which
every 32 slots have one of, else a cycle with no request waiting (R341, R351). -/
def State.idlePc (s : State) (p : Nat) : Bool :=
  s.exact || (List.range 8).all fun q => ((s.ctl (ctlOf p)).queue (hbmKey p q)).isEmpty

/-- Whether a remap copy may use an idle cycle: in exact-timing mode write-back goes first (R341, R356). -/
def State.idleCopy (s : State) (p : Nat) : Bool :=
  s.idlePc p && (!s.exact || !(s.ctl (ctlOf p)).pending.any fun w => pcOf (32 * w) == p)

/-- Whether the scrubber may use an idle cycle: in exact-timing mode remap copies go first too (R341, R358). -/
def State.idleScrub (s : State) (p : Nat) : Bool :=
  s.idleCopy p && (!s.exact || !(s.ctl (ctlOf p)).due.any fun k => k.1 == p)

/-- The oldest entry of the pseudo-channel is re-read and written back unless a write has reached it (R351). -/
def correctedWriteBackOp (p : Nat) (s : State) : State :=
  let c := ctlOf p
  match takeFirst (fun w => pcOf (32 * w) == p) (s.ctl c).pending with
  | none => s
  | some (w, rest) =>
    if (s.ctl c).stopped || !s.idlePc p then s
    else
      let s := s.modCtl c fun t => { t with pending := rest }
      if s.hbmErr w = some .correctable then { s with hbm := s.hbm.setSyn w 0 } else s

/-- CORRECTED_WRITE_BACK (R351). -/
def execCorrectedWriteBack (p : Nat) (s : State) : Host.Outcome State Fault Refusal :=
  guarded (decide (p < 192)) s (correctedWriteBackOp p s)

/-- Units of 64 bytes in a pseudo-channel. -/
def pcUnits : Nat := 2 ^ 24

/-- The scrubbers have started: heat 6 has ended (R443). -/
def State.scrubbing (s : State) : Bool := decide (6 ≤ s.getF sHeat)

/-- A stack's lap ends when every pseudo-channel has been read (R358). -/
def State.endLap (c : Nat) (s : State) : State :=
  (s.incF (bLaps c) 1 |>.setF (bLastLap c) s.tick |>.setF (bProgress c) 0).modCtl c fun t =>
    { t with scrubPos := [], prevWords := t.lapWords, lapWords := [], lapIdle := 0 }

/-- The unit that the scrubber of a pseudo-channel reads next. -/
def HbmCtl.unitAt (c : HbmCtl) (p : Nat) : Nat := tblGet (fun _ => 0) c.scrubPos p

/-- The pseudo-channels of a controller. -/
def pcsOf (c : Nat) : List Nat := (List.range 32).map fun k => 6 * k + c

/-- PROGRESS: the unit that every pseudo-channel of the stack has reached. -/
def State.lapProgress (s : State) (c : Nat) : Nat :=
  ((pcsOf c).map fun p => (s.ctl c).unitAt p).foldl min pcUnits

/-- Whether a stack is in self refresh: in DEEP, or after HBM_TEMP (R481, R493). -/
def State.stackRests (s : State) (c : Nat) : Bool := s.onF wDeep || (s.ctl c).selfRefresh

/-- The scrubber reads one unit of a pseudo-channel (R358); it sleeps in self refresh (R481). -/
def scrubAccessOp (p : Nat) (s : State) : State :=
  let c := ctlOf p
  let u := (s.ctl c).unitAt p
  if !s.scrubbing || s.stackRests c || (s.ctl c).stopped || !s.idleScrub p || decide (pcUnits ≤ u) then s
  else
    let s := s.noteHbmRead (pcAddr p (64 * u)) 64
    let s := s.modCtl c fun t => { t with scrubPos := tblPut (fun _ => 0) p (u + 1) t.scrubPos }
    let n := s.lapProgress c
    if n = pcUnits then s.endLap c else s.setF (bProgress c) n

/-- SCRUB_ACCESS (R358). -/
def execScrubAccess (p : Nat) (s : State) : Host.Outcome State Fault Refusal := guarded (decide (p < 192)) s (scrubAccessOp p s)

/-- The syndrome of a word as its copy in the spare row holds it: corrected, or poison (R356). -/
def copiedSyn (x : BitVec 32) : BitVec 32 := if isBad (classify 32 x) then poisonSyn 32 else 0

/-- The saved training record: the newer copy that is whole and of this part (R348, R452; log 71). -/
def State.savedRecord (s : State) : Option TrainRec := s.flash.records.find? fun t => t.digestOk && t.serial == Config.serial

/-- A copy of the record is written over the one that does not serve: the two copies alternate (R452, R468). -/
def State.writeRecord (t : TrainRec) (s : State) : State :=
  { s with flash := { s.flash with records := t :: (s.savedRecord.or s.flash.records.head?).toList } }

/-- The saved record's repair list takes a row (R357). -/
def State.addRepair (r : RowRef) (s : State) : State :=
  match s.savedRecord with
  | some t => s.writeRecord { t with repairs := t.repairs ++ [r] }
  | none => s

/-- Soft remap entry `n` redirects a row. -/
def State.setRemap (c n : Nat) (k : Nat × Nat × Nat) (s : State) : State :=
  s.setF (bmPc c n) (k.1 / 6) |>.setF (bmBank c n) k.2.1 |>.setF (bmRow c n) k.2.2 |>.setF (bmValid c n) 1
    |>.incF (bRemapUsed c) 1

/-- A faulty row is read and copied into its spare row and the entry switched on; without a free entry REMAP_FULL is set (R356,
R357). -/
def rowRemapCopyOp (p bank row : Nat) (s : State) : State :=
  let c := ctlOf p
  let k := (p, bank, row)
  if !(s.ctl c).due.contains k || (s.ctl c).stopped || !s.idleCopy p then s
  else
    let s := forAll ((rowWords p bank row).filter fun w => (s.hbmErr w).isSome) State.noteHbm s
    let s := s.modCtl c fun t => { t with due := t.due.filter (· != k) }
    match (List.range 64).find? fun n => !s.onF (bmValid c n) with
    | none => s.setF (bRemapFull c) 1
    | some n =>
      let s := forAll (rowWords p bank row) (fun w t => { t with hbm := t.hbm.setSyn w (copiedSyn (t.hbm.syn w)) }) s
      (s.setRemap c n k).addRepair ⟨c, p / 6, bank, row⟩

/-- ROW_REMAP_COPY (R356). -/
def execRowRemapCopy (p bank row : Nat) (s : State) : Host.Outcome State Fault Refusal :=
  guarded (decide (p < 192) && decide (bank < 32) && decide (row < 32768)) s (rowRemapCopyOp p bank row s)

/-! ### SRAM scrubbing (R351, R356, R359, R360) -/

/-- Scrubbers of a core. -/
def State.sram (s : State) (lid : Nat) : Sram := tblGet (fun _ => {}) s.srams lid

/-- Changes them. -/
def State.modSram (lid : Nat) (f : Sram → Sram) (s : State) : State := { s with srams := tblMod (fun _ => {}) lid f s.srams }

/-- Banks of each memory: how many, the number of the first, and rows per bank (R36, R132, R356). -/
def bankCount : CoreMem → Nat
  | .lace => 32
  | .tile => 8
  | .op => 2

/-- Number of a memory's first bank among a core's 42. -/
def bankBase : CoreMem → Nat
  | .lace => 0
  | .tile => 32
  | .op => 40

/-- Rows of a bank. -/
def bankRows : CoreMem → Nat
  | .lace => 2048
  | .tile => 1024
  | .op => 2048

/-- First byte and length of a row of a bank. -/
def rowRange (m : CoreMem) (b r : Nat) : Nat × Nat :=
  match m with
  | .lace => (512 * r + 16 * b, 16)
  | .tile => (512 * r + 64 * b, 64)
  | .op => (0x8000 * b + 16 * r, 16)

/-- Whether a die's core clock runs: powered, neither frozen, gated nor held (R359, R480). -/
def State.dieRuns (s : State) (d : Nat) : Bool :=
  !(s.die d).frozen && !Nat.testBit (s.getF wOff) d && !Nat.testBit (s.getF wGated) d &&
    (match s.dieOwner d with
     | some p => (s.part p).hold.isNone
     | none => true)

/-- The words of a row that stand correctable. -/
def State.rowCorrectable (s : State) (lid : Nat) (m : CoreMem) (b r : Nat) : List Nat :=
  let (a, n) := rowRange m b r
  (((s.core lid).mem m).badWords (cmWb m) a n).filter fun w => ((s.core lid).mem m).err (cmWb m) w == some .correctable

/-- The scrubber rewrites the corrected words of a row. -/
def State.rewriteRow (lid : Nat) (m : CoreMem) (b r : Nat) (s : State) : State :=
  forAll (s.rowCorrectable lid m b r) (fun w t => t.modCore lid fun c => c.setMem m ((c.mem m).setSyn w 0)) s

/-- Remap words in use of one memory of a core. -/
def Sram.used (x : Sram) (m : CoreMem) : Nat :=
  ((List.range (bankCount m)).map fun b => (tblGet (fun _ => []) x.remaps (bankBase m + b)).length).sum

/-- The counter of remap words of each memory (R362). -/
def remapFld (lid : Nat) : CoreMem → Fld
  | .lace => cLaceRemap lid
  | .tile => cTileRemap lid
  | .op => cOpRemap lid

/-- A row corrected on two successive laps takes a free remap word of its bank (R356). -/
def State.sramRemap (lid : Nat) (m : CoreMem) (b r : Nat) (s : State) : State :=
  let k := bankBase m + b
  let l := tblGet (fun _ => []) (s.sram lid).remaps k
  if l.contains r || decide (4 ≤ l.length) then s
  else
    let s := s.modSram lid fun x => { x with remaps := tblPut (fun _ => []) k (l ++ [r]) x.remaps }
    s.setF (remapFld lid m) ((s.sram lid).used m)

/-- When each of a core's banks last ended a lap: the earliest tick, with the gated ticks then (R362). -/
def State.slowest (s : State) (lid : Nat) : Nat × Nat :=
  let l := (List.range 42).map fun k => tblGet (fun _ => (0, 0)) (s.sram lid).ends k
  (l.foldl (fun a e => min a e.1) s.tick, l.foldl (fun a e => min a e.2) (tblGet (fun _ => 0) s.gatedTicks (dieOf lid)))

/-- The lap of a bank goes on to the next row, or ends. -/
def State.stepLap (lid : Nat) (m : CoreMem) (b r : Nat) (s : State) : State :=
  let k := bankBase m + b
  if r + 1 < bankRows m then s.modSram lid fun x => { x with pos := tblPut (fun _ => 0) k (r + 1) x.pos }
  else
    let g := tblGet (fun _ => 0) s.gatedTicks (dieOf lid)
    let s := s.modSram lid fun x =>
      { x with pos := tblPut (fun _ => 0) k 0 x.pos, ends := tblPut (fun _ => (0, 0)) k (s.tick, g) x.ends,
               prev := tblPut (fun _ => []) k (tblGet (fun _ => []) x.seen k) x.prev, seen := tblPut (fun _ => []) k [] x.seen }
    s.setF (cLastLap lid) (s.slowest lid).1

/-- The scrubber's lap reads a row; a row that it corrects is rewritten, and remapped if the last lap corrected it. -/
def State.scrubRow (lid : Nat) (m : CoreMem) (b r : Nat) (s : State) : State :=
  let k := bankBase m + b
  let (a, n) := rowRange m b r
  let fixed := !(s.rowCorrectable lid m b r).isEmpty
  let s := s.noteRead lid m a n
  let s :=
    if fixed then
      let again := (tblGet (fun _ => []) (s.sram lid).prev k).contains r
      let s := (s.rewriteRow lid m b r).modSram lid fun x =>
        { x with seen := tblPut (fun _ => []) k (tblGet (fun _ => []) x.seen k ++ [r]) x.seen }
      let s := s.modCore lid fun c => { c with sramPend := tblPut (fun _ => []) k ((c.pendOf k).filter (· != r)) c.sramPend }
      if again then s.sramRemap lid m b r else s
    else s
  s.stepLap lid m b r

/-- An SRAM bank's scrubber rewrites the oldest pending row, or reads the next row of its lap (R351, R359). -/
def sramScrubOp (lid : Nat) (m : CoreMem) (b : Nat) (s : State) : State :=
  let k := bankBase m + b
  if !s.scrubbing || !s.dieRuns (dieOf lid) then s
  else
    match (s.core lid).pendOf k with
    | r :: rest =>
      (s.rewriteRow lid m b r).modCore lid fun c => { c with sramPend := tblPut (fun _ => []) k rest c.sramPend }
    | [] => s.scrubRow lid m b (tblGet (fun _ => 0) (s.sram lid).pos k)

/-- SRAM_SCRUB (R359). -/
def execSramScrub (lid : Nat) (mem : CoreMem) (bank : Nat) (s : State) : Host.Outcome State Fault Refusal :=
  guarded (decide (lid < 2048) && decide (bank < bankCount mem)) s (sramScrubOp lid mem bank s)

/-! ### Overdue laps (R360) -/

/-- The tick from which a lap that has never ended counts: the end of heat 6. -/
def State.scrubStart (s : State) : Nat := (s.reg64 (reportAt 6 + 0x10)).toNat

/-- A lap is overdue: the event is logged once per setting of the flag. -/
def State.setOverdue (f : Fld) (unit : Nat) (s : State) : State := if s.onF f then s else (s.setF f 1).log 1 6 unit false 0 0

/-- The time since a lap passes its threshold, counted outside self refresh and gating (R360, R480, R481). -/
def lapOverdueOp (who : LapOwner) (s : State) : State :=
  if !s.scrubbing then s
  else
    match who with
    | .stack c =>
      let ms := s.getF (bOverdueMs c)
      let since := s.tick - max s.scrubStart (s.getF (bLastLap c)) - (s.ctl c).lapIdle
      if ms ≠ 0 ∧ 50000 * ms < since then s.setOverdue (bLapOverdue c) c else s
    | .core lid =>
      let ms := s.getF bSramMs
      let (t, g) := s.slowest lid
      let since := s.tick - max s.scrubStart t - (tblGet (fun _ => 0) s.gatedTicks (dieOf lid) - g)
      if ms ≠ 0 ∧ 50000 * ms < since then s.setOverdue bSramOverdue lid else s

/-- Whether a lap's owner is a unit of the part. -/
def lapOwnerOk : LapOwner → Bool
  | .stack c => decide (c < 6)
  | .core lid => decide (lid < 2048)

/-- LAP_OVERDUE (R360). -/
def execLapOverdue (who : LapOwner) (s : State) : Host.Outcome State Fault Refusal :=
  guarded (lapOwnerOk who) s (lapOverdueOp who s)

end Sys2Proof.Machine
end

