-- ==== Sys2Proof/Machine/Recovery.lean ====
section
/-!
DEFINITION. Ercia images: the boot ROM's verification, the recovery buffer, the boot record (R446, R468-R471).
-/
namespace Sys2Proof.Machine

/-! ### The boot ROM's verification (R469) -/

/-- "GL8 firmware". -/
def ctxFirmware : List Byte := [0x47, 0x4C, 0x38, 0x20, 0x66, 0x69, 0x72, 0x6D, 0x77, 0x61, 0x72, 0x65]

/-- The signature block at the end of an Ercia image. -/
def imageSig (d : List Byte) : List Byte := d.drop (d.length - sigBytes)

/-- The bytes before it. -/
def imageMessage (d : List Byte) : List Byte := d.take (d.length - sigBytes)

/-- The vendor slot that signed an Ercia image. -/
def signerOf (d : List Byte) : Nat := leAt (imageSig d) 5 1

/-- Whether the ROM accepts an Ercia image (R469). -/
def State.accepts (s : State) (d : List Byte) : Bool :=
  let b := imageSig d
  decide (sigBytes < d.length) && !sigMalformed b && leAt b 4 1 == 0 && s.fuses.vendorOk (signerOf d) (sigKey b) &&
    sigVerifies b ctxFirmware (sha3 (imageMessage d)) && Config.erciaPart d == 0x0801

/-- Burns one vendor revoke fuse, never the signer's and never that of the last unrevoked slot (R469). -/
def burnRevoke (signer k : Nat) (f : Fuses) : Fuses :=
  let left := (List.range 4).filter fun i => !f.vendorRevoked.getLsbD i
  if k = signer || left == [k] then f else { f with vendorRevoked := f.vendorRevoked ||| (1#4 <<< k) }

/-- The revocation list of an accepted image is burned (R469). -/
def State.burnList (d : List Byte) (s : State) : State :=
  let l := (List.range 4).filter fun k => (Config.erciaRevokes d).getLsbD k
  { s with fuses := forAll l (burnRevoke (signerOf d)) s.fuses }

/-- Ercia runs: its version is reported, M1 is extended with the image's digest, the start is counted (R402, R488,
R506). -/
def State.runErcia (d : List Byte) (s : State) : State :=
  let s := s.setF sFwMajor (Config.erciaMajor d) |>.setF sFwMinor (Config.erciaMinor d)
  let s := s.extend 1 (sha3 d)
  { s with flash := { s.flash with starts := s.flash.starts + 1 }, pwr := { s.pwr with ccRunning := true } }

/-! ### The recovery buffer (R470, R471) -/

/-- Bytes of the recovery buffer. -/
def recBytes : Nat := 4194304

/-- The image in the buffer. -/
def State.bufferImage (s : State) : List Byte := s.pwr.recBytes.load 0 (s.getF sRecLength)

/-- STATUS of the buffer; it stays 3 while an image is programmed (R470, R471). -/
def State.recStatus (n : Nat) (s : State) : State := if s.pwr.prog.isSome then s else s.setF sRecStatus n

/-- Puts bytes into the buffer, which is then receiving. -/
def State.putBuffer (a : Nat) (d : List Byte) (s : State) : State :=
  { s with pwr := { s.pwr with recBytes := s.pwr.recBytes.store a d } }.recStatus 1

/-- CLEAR empties the buffer. -/
def State.clearBuffer (s : State) : State :=
  ({ s with pwr := { s.pwr with recBytes := {} } }.setF sRecLength 0).recStatus 0

/-- An accepted image: its revocations are burned, the old image is erased, and programming begins. It ends within 30 s, at a
tick that is free (R469, R470, R471; log 58). -/
def State.startProgram (d : List Byte) (s : State) : State :=
  let fin := s.tick + 1 + s.draw.toNat % 1500000000
  ((({ s with flash := { s.flash with image := [] }, pwr := { s.pwr with prog := some (fin, d) } }.burnList d).setF sRecStatus 3)).used

/-- The image stands in flash; in recovery, heat 1 then ends well and bring-up goes on at heat 2 (R470, R471). -/
def State.endProgram (d : List Byte) (s : State) : State :=
  let s := { s with flash := { s.flash with image := d }, pwr := { s.pwr with prog := none } }.setF sRecStatus 4
  if s.onF sRecActive then
    let s := ({ s with pwr := { s.pwr with stopped := false } }.runErcia d).setF sRecActive 0
    (s.setF sHeat 1).beginHeat 2
  else s

/-- Programming ends at its tick (R471). -/
def State.programTick (s : State) : State :=
  match s.pwr.prog with
  | some (t, d) => if t ≤ s.tick then s.endProgram d else s
  | none => s

/-- COMMIT verifies the buffer as R469 does and programs flash, or refuses it and leaves flash untouched; while an image is being
programmed it does nothing (R470, R471; log 58). -/
def State.commitBuffer (s : State) : State :=
  if s.pwr.prog.isSome then s
  else if s.getF sRecLength ≤ recBytes && s.accepts s.bufferImage then s.startProgram s.bufferImage
  else s.setF sRecStatus 5

/-- A host write of COMMIT. -/
def recoveryCommitOp (s : State) : State := s.commitBuffer

/-- RECOVERY_COMMIT (R470). -/
def execRecoveryCommit (s : State) : Host.Outcome State Fault Refusal := .next (recoveryCommitOp s)

/-- A host write of CLEAR. -/
def recoveryClearOp (s : State) : State := s.clearBuffer

/-- RECOVERY_CLEAR (R470). -/
def execRecoveryClear (s : State) : Host.Outcome State Fault Refusal := .next (recoveryClearOp s)

/-- Whether a write covers a field. -/
def putsField (o size : Nat) (f : Fld) : Bool := (accessFields bar0Map o size).any fun x => x.1 == f

/-- The value a write puts into a field; 0 where it does not cover it. -/
def putOf (o size : Nat) (v : W64) (f : Fld) : Nat := if putsField o size f then writtenBits o v f else 0

/-- A host write to SYS_RECOVERY: PAGE and LENGTH, then CLEAR, then COMMIT. -/
def State.recoveryWrite (o size : Nat) (v : W64) (s : State) : State :=
  let s := s.plainWrite (accessFields bar0Map o size) o v
  let s := if putOf o size v ⟨0x800, 2, 1⟩ = 1 then s.clearBuffer else s
  if putOf o size v ⟨0x800, 1, 1⟩ = 1 then s.commitBuffer else s

/-- A host write in the buffer's window (R470). -/
def State.windowWrite (o size : Nat) (v : W64) (s : State) : State :=
  s.putBuffer (s.getF sRecPage * 0x10000 + (o - 0x10000)) (natLe size v.toNat)

/-! ### The boot record (R446) -/

/-- FULL_NEXT of SYS_BOOT. -/
def sFullNext : Fld := ⟨0x180, 0, 1⟩

/-- FULL_DAYS of SYS_BOOT. -/
def sFullDays : Fld := ⟨0x180, 16, 16⟩

/-- A host write of FULL_NEXT or FULL_DAYS goes to the boot record at once. -/
def State.bootWrite (o size : Nat) (v : W64) (s : State) : State :=
  let f := s.flash
  { s with flash := { f with fullNext := if putsField o size sFullNext then putOf o size v sFullNext == 1 else f.fullNext,
                             fullDays := if putsField o size sFullDays then putOf o size v sFullDays else f.fullDays } }

/-- A host write to SYS_BOOT. -/
def fullNextWriteOp (size : Nat) (v : W64) (s : State) : State :=
  if accessSized 0x180 size then s.bootWrite 0x180 size v else s.ignored 0x02 false true 0x180

/-- FULL_NEXT_WRITE (R446). -/
def execFullNextWrite (size : Nat) (v : W64) (s : State) : Host.Outcome State Fault Refusal := .next (fullNextWriteOp size v s)

/-- A day of power-on time is counted (R446). -/
def powerOnDayOp (s : State) : State := { s with flash := { s.flash with days := s.flash.days + 1 } }

/-- POWER_ON_DAY (R446). -/
def execPowerOnDay (s : State) : Host.Outcome State Fault Refusal := .next (powerOnDayOp s)

end Sys2Proof.Machine
end

