-- ==== Sys2Proof/Machine/HostPort.lean ====
section
/-!
DEFINITION. The host port: BAR0 accesses, CXL.mem, the DOE mailbox and the resets (R13, R333, R399-R413).
-/
namespace Sys2Proof.Machine

/-! ### Registers whose writes act (R13, R491) -/

/-- Limits a value to a range. -/
def limitTo (lo hi x : Nat) : Nat := max lo (min hi x)

/-- A host write to PWR_CAP: HOST_CAP within 800 W to 1,500 W (R475, R491). -/
def State.capWrite (o size : Nat) (v : W64) (s : State) : State :=
  let s := s.plainWrite (accessFields bar0Map o size) o v
  (s.setF wHostCap (limitTo 800 1500 (s.getF wHostCap))).effectCap

/-- A host write to PWR_THERM: T_PAUSE within 60 to 105, T_RESUME at least 2 below it (R491). -/
def State.thermWrite (o size : Nat) (v : W64) (s : State) : State :=
  let s := s.plainWrite (accessFields bar0Map o size) o v
  let s := s.setF wTPause (limitTo 60 105 (s.getF wTPause))
  s.setF wTResume (min (s.getF wTResume) (s.getF wTPause - 2))

/-- A host write to PWR_REGION_i: once WARN is cleared, HIGH and LOW start anew (R491). -/
def State.regionWrite (i o size : Nat) (v : W64) (s : State) : State :=
  let s := s.plainWrite (accessFields bar0Map o size) o v
  if putOf o size v (grWarn i) = 1 then s.setF (grHigh i) (s.getF (grOcc i)) |>.setF (grLow i) (s.getF (grOcc i)) else s

/-- A host write to PAT_CMD (R317, R318). -/
def State.patWrite (o size : Nat) (v : W64) (s : State) : State :=
  if !putsField o size ⟨0x00200008, 0, 4⟩ then s
  else
    match putOf o size v ⟨0x00200008, 0, 4⟩ with
    | 1 => verifyOp s
    | 2 => pourOp s
    | 3 => disarmOp s
    | 4 => patchOp s
    | 5 => partitionResetOp (BitVec.ofNat 8 (putOf o size v ⟨0x00200008, 8, 8⟩)) s
    | 6 => keyOp s
    | op => s.patIgnored op

/-- A host write to PAT_CKPT_p CTRL: RESTORE, then RESUME, then CMD (R292). -/
def State.ckptWrite (p o size : Nat) (v : W64) (s : State) : State :=
  let only := putOf o size v (pkResultOnly p) == 1
  let f := fun lo w => putOf o size v ⟨ckOff p, lo, w⟩
  let s := if f 0 2 = 0 then s.plainWrite (accessFields bar0Map o size) o v else s
  let s := if f 3 1 = 1 then ckptRestoreOp p s else s
  let s := if f 2 1 = 1 then ckptResumeOp p s else s
  if f 0 2 = 0 then s else saveOp p (f 0 2) only s

/-- A host write to CRC_CTL_u: REFILL of slot SLOT, RELEASE, DROP (R424). -/
def State.crcControl (u o size : Nat) (v : W64) (s : State) : State :=
  let f := fun lo w => putOf o size v ⟨0x00300038 + 0x100 * u, lo, w⟩
  let s := if f 2 1 = 1 then crcRefillOp u (f 0 2) s else s
  let s := if f 3 1 = 1 then crcReleaseOp u s else s
  if f 4 1 = 1 then crcDropOp u s else s

/-- A host write to LNK_TOPO: one with RETRAIN is ignored and counted while a pattern is armed, and trains the links
otherwise (R389, R411; log 108). -/
def State.topoWrite (o size : Nat) (v : W64) (s : State) : State :=
  if putOf o size v ⟨0x00600000, 62, 1⟩ = 1 then
    if s.armed then s.ignored 0x0B false true 0x00600000
    else (s.plainWrite (accessFields bar0Map o size) o v).retrainFree
  else s.plainWrite (accessFields bar0Map o size) o v

/-- A host write to a mapped register, by what its block makes of it (R13). -/
def State.regWrite (o size : Nat) (v : W64) (s : State) : State :=
  let r := o / 8 * 8
  if r = 0x180 then s.bootWrite o size v
  else if r = 0x800 then s.recoveryWrite o size v
  else if 0x10000 ≤ o ∧ o < 0x20000 then s.windowWrite o size v
  else if 0x00100000 ≤ r ∧ r < 0x00100800 then
    if o = r then hostCounterAddOp ((r - 0x00100000) / 8) (bitsOf v 16 16) s else s
  else if 0x00101000 ≤ r ∧ r < 0x00101200 then
    if r % 16 = 0 then s.watchWrite ((r - 0x00101000) / 16) o size v else s
  else if 0x00140000 ≤ o ∧ o < 0x00180000 then s.ignored 0x05 false true o
  else if r = 0x00200008 then s.patWrite o size v
  else if 0x00200500 ≤ r ∧ r < 0x00200600 then
    if 16 ≤ r % 32 then s.nextSeedAt ((r - 0x00200500) / 32) o size v else s
  else if 0x00200700 ≤ r ∧ r < 0x00200800 ∧ r % 32 = 0 then s.ckptWrite ((r - 0x00200700) / 32) o size v
  else if 0x00300000 ≤ r ∧ r < 0x00300800 then
    let u := (r - 0x00300000) / 0x100
    if r % 0x100 = 0x38 then s.crcControl u o size v else s.crcWrite u o size v
  else if r = 0x00400000 then s.entWrite o size v
  else if r = 0x00600000 then s.topoWrite o size v
  else if r = 0x00800008 then s.capWrite o size v
  else if r = 0x00800018 then s.thermWrite o size v
  else if 0x00800200 ≤ r ∧ r < 0x00800250 then s.regionWrite ((r - 0x00800200) / 8) o size v
  else if r = 0x00900020 then if putOf o size v ⟨0x00900020, 5, 1⟩ = 1 then dumpReleaseOp s else s
  else if corePage 0 ≤ r ∧ r < corePage 2048 ∧ (s.owner ((r - corePage 0) / 0x1000)).isNone then s
  else s.plainWrite (accessFields bar0Map o size) o v

/-! ### Configuration space, BAR2 and BAR4 (R394-R396, R408) -/

/-- A word of BAR2: the MSI-X table of 64 entries, with its vector controls, and the pending bit array at 0x8000 (R396). -/
def HostCfg.word (h : HostCfg) (o : Nat) : W32 :=
  if o < 1024 then
    if o % 16 = 12 then BitVec.ofNat 32 (h.masked.getLsbD (o / 16)).toNat else tblGet (fun _ => 0) h.msixTable (o / 4)
  else if o = 0x8000 then h.msixPending.extractLsb' 0 32
  else if o = 0x8004 then h.msixPending.extractLsb' 32 32
  else 0

/-- A write of a word of BAR2: the pending bits are read only (R396; log 5). -/
def HostCfg.setWord (o : Nat) (v : W32) (h : HostCfg) : HostCfg :=
  if 1024 ≤ o then h
  else if o % 16 = 12 then
    let b := 1#64 <<< (o / 16)
    { h with masked := if v.getLsbD 0 then h.masked ||| b else h.masked &&& ~~~b }
  else { h with msixTable := tblPut (fun _ => 0) (o / 4) v h.msixTable }

/-- Bytes of the space behind a base address register (R396). -/
def barBytes (n : Nat) : Nat := if n = 0 then 0x4000000 else if n = 2 ∨ n = 4 then 0x10000 else 0

/-- What a base address register reads: the address, as a 64-bit non-prefetchable one (R396). -/
def HostCfg.bar (h : HostCfg) (n : Nat) : W64 :=
  if barBytes n = 0 then 0 else tblGet (fun _ => 0) h.bars n &&& BitVec.ofNat 64 (2 ^ 64 - barBytes n) ||| 4

/-- What a register of configuration space reads (R395, R396, R404; bit places of PCI Express and CXL, log 5). -/
def HostCfg.config (h : HostCfg) : CfgReg → W64
  | .ids => 0x08011D8F
  | .command => BitVec.ofNat 64 (2 * h.memorySpace.toNat + 4 * h.busMaster.toNat)
  | .classCode => 0x120000
  | .bar n => h.bar n
  | .msixControl => BitVec.ofNat 64 (63 + 2 ^ 14 * h.functionMask.toNat + 2 ^ 15 * h.msixEnable.toNat)
  | .msixTable => 0x00000002
  | .msixPba => 0x00008002
  | .range => BitVec.ofNat 64 (2 ^ 32 * 0x30 + 2 ^ 13 * 4 + 2 * h.memoryActive.toNat + h.memoryInfoValid.toNat)

/-- A write of a register of configuration space (R396, R408; log 5). -/
def HostCfg.setConfig (v : W64) (h : HostCfg) : CfgReg → HostCfg
  | .command => { h with memorySpace := v.getLsbD 1, busMaster := v.getLsbD 2 }
  | .bar n => { h with bars := tblPut (fun _ => 0) n v h.bars }
  | .msixControl => { h with functionMask := v.getLsbD 14, msixEnable := v.getLsbD 15 }
  | .ids => h
  | .classCode => h
  | .msixTable => h
  | .msixPba => h
  | .range => h

/-- Key of a register of the HDM decoder. -/
def decoderKey : DecoderReg → Nat
  | .base => 0
  | .size => 1
  | .control => 2

/-- Writable bits of a register of the HDM decoder: base and size in units of 256 MiB; Lock and Commit, the interleave being
of one way only (R395; log 5). -/
def decoderMask : DecoderReg → W64
  | .base => 0xFFFFFFFFF0000000
  | .size => 0xFFFFFFFFF0000000
  | .control => 0x300

/-- What a register of the HDM decoder reads: Committed, bit 10, follows Commit, bit 9 (R395; log 5). -/
def HostCfg.decoderWord (h : HostCfg) (r : DecoderReg) : W64 :=
  let v := tblGet (fun _ => 0) h.decoder (decoderKey r)
  if r = .control then v ||| (v &&& 0x200) <<< 1 else v

/-- A host write beside BAR0; one of a size or alignment that BAR2 does not have has no effect (log 5). -/
def State.cfgWrite (a : HostAddr) (size : Nat) (v : W64) (s : State) : State :=
  let h := s.hostcfg
  match a with
  | .bar0 _ => s
  | .bar2 o =>
    if !accessSized o size then s
    else
      let h := h.setWord o (v.extractLsb' 0 32)
      { s with hostcfg := if size = 8 then h.setWord (o + 4) (v.extractLsb' 32 32) else h }
  | .decoder r => { s with hostcfg := { h with decoder := tblPut (fun _ => 0) (decoderKey r) (v &&& decoderMask r) h.decoder } }
  | .config r => { s with hostcfg := h.setConfig v r }

/-- What a host read beside BAR0 returns. -/
def State.cfgRead (a : HostAddr) (size : Nat) (s : State) : W64 :=
  let h := s.hostcfg
  match a with
  | .bar0 _ => 0
  | .bar2 o =>
    if !accessSized o size then 0 else ((if size = 8 then h.word (o + 4) else 0#32) ++ h.word o : BitVec 64)
  | .decoder r => h.decoderWord r
  | .config r => h.config r

/-- Any host write to BAR0: refused for its size, withheld, unmapped, or acting (R13, R400, R402, R411). -/
def registerWriteOp (o size : Nat) (v : W64) (s : State) : State :=
  if !accessSized o size then s.ignored 0x02 false true o
  else
    s.hostAct true o fun s => if !accessMapped bar0Map o size then s.ignored 0x01 false true o else s.regWrite o size v

/-- REGISTER_WRITE (R13, R396). -/
def execRegisterWrite (dst : HostAddr) (size : Nat) (v : W64) (s : State) : Host.Outcome State Fault Refusal :=
  match dst with
  | .bar0 off => .next (registerWriteOp off size v s)
  | a => .next (s.cfgWrite a size v)

/-! ### Reads (R13, R400, R401) -/

/-- A read in the TAKE window: one take, or the two that 8 bytes cover (R232, R400). -/
def State.takeRead (o size : Nat) (s : State) : State :=
  let h := (o - 0x00140000) / 0x400
  let n := (o - 0x00140000) % 0x400 / 4
  let (s, x) := s.takeResult h n
  if size = 8 then
    let (s, y) := s.takeResult h (n + 1)
    s.emit (.readData o 8 (BitVec.ofNat 64 (x + 2 ^ 32 * y)))
  else s.emit (.readData o 4 (BitVec.ofNat 64 x))

/-- A read of mapped registers: the value as it stands, then RC fields wholly accessed are cleared (R13, R400); those of
a core whose die belongs to no partition read reset values and clear nothing (R399). -/
def State.plainRead (o size : Nat) (s : State) : State :=
  let v := s.readVal o size
  let free := corePage 0 ≤ o ∧ o < corePage 2048 ∧ (s.owner ((o - corePage 0) / 0x1000)).isNone
  let s := if free then s else s.clearRc (accessFields bar0Map o size)
  s.emit (.readData o size v)

/-- An ignored read returns zeros (R411). -/
def State.ignoredRead (cause o size : Nat) (s : State) : State := (s.ignored cause false false o).emit (.readData o size 0)

/-- Any host read of BAR0. -/
def rcReadOp (o size : Nat) (s : State) : State :=
  if !accessSized o size then s.ignoredRead 0x02 o size
  else if s.onF sLimited && withheld o then s.ignoredRead 0x03 o size
  else if !accessMapped bar0Map o size then s.ignoredRead 0x01 o size
  else if 0x00140000 ≤ o ∧ o < 0x00180000 then s.takeRead o size
  else if o / 8 * 8 = 0x00400020 then s.randRead o size
  else s.plainRead o size

/-- RC_READ (R396, R401). -/
def execRcRead (src : HostAddr) (size : Nat) (s : State) : Host.Outcome State Fault Refusal :=
  match src with
  | .bar0 off => .next (rcReadOp off size s)
  | a => .next (s.emit (.cfgData a size (s.cfgRead a size)))

/-! ### CXL.mem (R333, R352, R354, R403, R404) -/

/-- The last address of the dump region, plus one (R333). -/
def dumpTop : Nat := 0x2F80000000

/-- Whether the host may read a byte address: below the reserved 8 GiB, or in the region of a dump that is present. -/
def State.hostReads (s : State) (a : Nat) : Bool := decide (a < hostTop) || (s.onF rDumpPresent && decide (a < dumpTop))

/-- Whether CXL.mem reads return the poison indication after a fatal condition (R495). -/
def State.memCut (s : State) : Bool := s.pwr.sprueStopped || s.ctls.any fun c => c.2.stopped

/-- Requests of a queue up to the last one that touches the 64-byte units of `[a, a + n)`. -/
def aheadOf (a n : Nat) (l : List Flit) : Nat :=
  ((l.zipIdx).map fun e => match e.1 with
    | .hbm _ _ _ h _ _ _ units _ _ => if h / 64 < (a + n + 63) / 64 ∧ a / 64 < h / 64 + units then e.2 + 1 else 0
    | _ => 0).foldl max 0

/-- Serves the `k` oldest requests of a queue. -/
def State.serveHead (p part : Nat) : Nat → State → State
  | 0, s => s
  | k + 1, s => State.serveHead p part k (hbmServe p part s)

/-- Requests that reached a unit's controller before a host access are served before it (R340). -/
def State.serveAhead (a n : Nat) (s : State) : State :=
  forAll (distinct ((wordsOf 64 a n).map fun u => pcOf (64 * u))) (fun p t =>
    forAll (List.range 8) (fun q u => u.serveHead p q (aheadOf a n ((u.ctl (ctlOf p)).queue (hbmKey p q)))) t) s

/-- A CXL.mem read: zeros before Memory_Active and in reserved regions, counted (R333, R404, R411); else the data, with
the poison indication where a word is poisoned or uncorrectable (R354). -/
def cxlmemReadOp (a n : Nat) (s : State) : State :=
  if s.onF sDegraded then s
  else if !s.hostcfg.memoryActive then (s.ignored 0x09 true false a).emit (.memData a (List.replicate n 0#8) false)
  else
    let s := s.leaveDeep.serveAhead a n
    let ok := (List.range n).filter fun i => s.hostReads (a + i)
    let d := (List.range n).map fun i => if s.hostReads (a + i) then s.hbm.byte (a + i) else 0#8
    let poison := !ok.isEmpty && (s.hbmBad a ok.length || (s.memCut && decide (a < hostTop)))
    let s := if ok.isEmpty then s else s.noteHbmRead a ok.length
    let s := if ok.length < n then s.ignored 0x09 true false (a + ok.length) else s
    s.emit (.memData a d poison)

/-- CXLMEM_READ (R403). -/
def execCxlmemRead (addr len : Nat) (s : State) : Host.Outcome State Fault Refusal :=
  if addr + len ≤ hdmTop then .next (cxlmemReadOp addr len s) else .fault .outsideHdm

/-- The bytes of word `w` that a write with byte enables leaves, and how many it writes. -/
def mergedWord (s : State) (a w : Nat) (d : List (Option Byte)) : List Byte × Nat :=
  let e := (List.range 32).map fun k => if a ≤ 32 * w + k then (d.getD (32 * w + k - a) none) else none
  ((e.zipIdx).map fun x => x.1.getD (s.hbm.byte (32 * w + x.2)), (e.filter Option.isSome).length)

/-- One 32-byte word of a CXL.mem write: whole, or merged by R352, or poisoned (R403). -/
def State.writeWord (a : Nat) (d : List (Option Byte)) (poison : Bool) (w : Nat) (s : State) : State :=
  let (bs, n) := mergedWord s a w d
  if n = 0 then s
  else if poison || (decide (n < 32) && isBad (s.hbmErr w)) then s.wrHbmPoison (32 * w) bs
  else if decide (n < 32) && s.hbmErr w == some .correctable then
    (s.correctHbm false w).wrHbm (32 * w) bs
  else s.wrHbm (32 * w) bs

/-- A check-value unit sees a 64-byte unit that the host has written (R414, R416). -/
def State.seeUnit (a : Nat) (d : List (Option Byte)) (poison : Bool) (u : Nat) (s : State) : State :=
  let e := (List.range 64).map fun k => if a ≤ 64 * u + k then (d.getD (64 * u + k - a) none) else none
  if e.any Option.isSome then s.inputWrite (64 * u) (e.all Option.isSome) poison else s

/-- A CXL.mem write: ignored and counted before Memory_Active and in the reserved 8 GiB (R333, R404). -/
def cxlmemWriteOp (a : Nat) (d : List (Option Byte)) (poison : Bool) (s : State) : State :=
  if s.onF sDegraded then s
  else if !s.hostcfg.memoryActive then (s.ignored 0x09 true true a).emit (.writeDone a)
  else
    let n := min d.length (hostTop - a)
    let s := (s.leaveDeep.serveAhead a n).noteRemap a n
    let mine := d.take n
    let s := forAll (wordsOf 32 a n) (State.writeWord a mine poison) s
    let s := forAll (wordsOf 64 a n) (State.seeUnit a mine poison) s
    let s := if n < d.length then s.ignored 0x09 true true (a + n) else s
    s.emit (.writeDone a)

/-- CXLMEM_WRITE (R403). -/
def execCxlmemWrite (addr : Nat) (data : List (Option Byte)) (poison : Bool) (s : State) : Host.Outcome State Fault Refusal :=
  if addr + data.length ≤ hdmTop then .next (cxlmemWriteOp addr data poison s) else .fault .outsideHdm

/-! ### Resets (R413, R466) -/

/-- Registers that a conventional reset keeps: ERR_DUMP (R501). -/
def keptWord (k : Nat) : Bool := inBytes 0x00900020 0x00900028 k

/-- Puts an entry into the field fuse bank. -/
def putEntry (n : Nat) (w : W32) (l : List W32) : List W32 :=
  (List.range (max l.length (n + 1))).map fun i => if i = n then w else l.getD i 0

/-- Records a defect in the next free entry, if there is one (R456, R459). -/
def State.burnField (w : W32) (s : State) : State × Bool :=
  match (List.range 64).find? fun n => s.fuseWord n == 0 with
  | some n => ({ s with fuses := { s.fuses with field := putEntry n w s.fuses.field } }, true)
  | none => (s, false)

/-- A copy of the training record whose writing was cut off: it fails its digest (R452). -/
def brokenRecord : TrainRec := ⟨false, 0, 0, 0, 0, [], 0, []⟩

/-- A reset in heat 4 may cut off the writing of the training record, and one in heat 5 or 8 that of a fuse entry, whose VALID
bit comes last: the copy fails its digest, the entry is wasted. Whether it does, and which bits stand, is free (R452, R459,
R466; log 113). -/
def State.cutWrites (s : State) : State :=
  let x := s.draw
  if s.heatRunning = some 4 then if bitOf x 0 then s.used.writeRecord brokenRecord else s.used
  else if s.heatRunning = some 5 ∨ s.heatRunning = some 8 then
    if bitOf x 0 then (s.used.burnField (BitVec.ofNat 32 (bitsOf x 1 14))).1 else s.used
  else s

/-- A conventional reset: bring-up restarts from heat 0. What stays is what the always-on domain, the fuses, the flash
and the memories hold: the tick, the dump, remap words, HBM until it is filled (R355, R356, R413, R466, R496, R498). -/
def State.deviceReset (s : State) : State :=
  let s := s.cutWrites.partialDump
  let srams := s.srams.map fun e => (e.1, ({ remaps := e.2.remaps } : Sram))
  let cores := s.cores.map fun e => (e.1, ({ lace := e.2.lace, tile := e.2.tile, op := e.2.op } : Core))
  let t : State :=
    { flash := s.flash, pending := s.pending, free := s.free, tick := s.tick, fuses := s.fuses, hbm := s.hbm, out := s.out,
      cores := cores.filter fun e => e.2 != {}, srams := srams.filter fun e => e.2 != {}, regs := tblFilter keptWord s.regs,
      pwr := { aon := s.pwr.aon, rails := s.pwr.rails, hot115 := s.pwr.hot115, ladle := s.pwr.ladle, note := s.pwr.note,
               linksStopped := true, fullWanted := s.flash.fullNext, startTick := s.tick } }
  t.beginHeat 0

/-- PERST#, hot reset or link down (R413). -/
def conventionalResetOp (s : State) : State := if s.pwr.aon then s.deviceReset else s

/-- CONVENTIONAL_RESET (R413). -/
def execConventionalReset (s : State) : Host.Outcome State Fault Refusal := .next (conventionalResetOp s)

/-- Registers of the HOST block. -/
def hostWord (k : Nat) : Bool := inBytes 0x00100000 0x00200000 k

/-- A Function Level Reset: DISARM, and the HOST block at its reset values; the HDM decoder stands (R413, R466). -/
def functionLevelResetOp (s : State) : State :=
  let s := if s.onF sFatal then s else s.disarmAll
  let h : HostCfg := { memoryInfoValid := s.hostcfg.memoryInfoValid, memoryActive := s.hostcfg.memoryActive,
                       decoder := s.hostcfg.decoder, doe := s.hostcfg.doe }
  let s := { s with hostcfg := h }
  s.resetRegs hostWord

/-- FUNCTION_LEVEL_RESET (R413). -/
def execFunctionLevelReset (s : State) : Host.Outcome State Fault Refusal := .next (functionLevelResetOp s)

end Sys2Proof.Machine
end

