-- ==== Sys2Proof/Machine/Heats.lean ====
section
/-!
DEFINITION. Bring-up: power, heats 0 to 9, reconciliation of cores, training records, test bars (R345-R348, R355-R357,
R361, R389, R443-R466, R488, R513, R514).
-/
namespace Sys2Proof.Machine

/-! ### The frame of a heat (R443, R447, R465) -/

/-- A heat acts only as the heat in progress of a bring-up that has not stopped (R443, R465). -/
def State.inHeat (h : Nat) (f : State → State) (s : State) : State :=
  if s.heatRunning = some h ∧ s.pwr.stopped = false then f s else s

/-- A heat ends and the next begins. -/
def State.passHeat (h out : Nat) (body : List Byte) (s : State) : State :=
  ((s.endHeat h out body).setF sHeat h).beginHeat (h + 1)

/-- A heat ends with OUTCOME FATAL: bring-up stops (R465). -/
def State.failHeat (h : Nat) (body : List Byte) (s : State) : State :=
  let s := s.endHeat h 5 body
  { s with pwr := { s.pwr with stopped := true } }

/-- OUTCOME of a heat: NONCONFORMANT if it found a cause, PASS_REPAIRED if it repaired something, else PASS. -/
def outcomeOf (cause repaired : Bool) : Nat := if cause then 4 else if repaired then 3 else 2

/-- A cause of non-conformance is kept to the end of bring-up (R464). -/
def State.blame (cause : Bool) (s : State) : State :=
  { s with pwr := { s.pwr with nonconformant := s.pwr.nonconformant || cause } }

/-! ### Power (R513, R514) -/

/-- The always-on domain leaves reset and heat 0 begins. -/
def pgoodAonOp (s : State) : State :=
  if s.pwr.aon then s
  else
    { s with pwr := { s.pwr with aon := true, rails := s.pwr.rails ||| 3#20, startTick := s.tick,
                                 fullWanted := s.flash.fullNext } }.beginHeat 0

/-- PGOOD_AON (R513). -/
def execPgoodAon (s : State) : Host.Outcome State Fault Refusal := .next (pgoodAonOp s)

/-- Input power is removed: only fuses and flash stay (R498, R514). -/
def powerLossOp (s : State) : State :=
  let s := s.cutWrites
  { State.reset with fuses := s.fuses, flash := s.flash, pending := s.pending, out := s.out, free := s.free }

/-- POWER_LOSS (R514). -/
def execPowerLoss (s : State) : Host.Outcome State Fault Refusal := .next (powerLossOp s)

/-! ### Heat 0 (R448, R459, R488, R514) -/

/-- The first rail, from 2 on, that has not regulated. -/
def badRail (r : BitVec 20) : Option Nat := (rangeFrom 2 20).find? fun n => !r.getLsbD n

/-- RAILS: the rails that regulated, up to the first that did not. -/
def railsUp (r : BitVec 20) : Nat :=
  match badRail r with
  | some n => 2 ^ n - 1
  | none => 2 ^ 20 - 1

/-- What the fuse image depends on besides the factory's part of it. -/
def State.fuseCode (s : State) : Nat :=
  leNat ((List.range 64).flatMap (fun n => natLe 4 (s.fuseWord n).toNat) ++ (List.range 4).flatMap (fun n => digestBytes (s.fuses.hash n)) ++
    natLe 4 s.keysWord.toNat)

/-- The body of heat 0's report. -/
def heat0Body (s : State) (r : BitVec 20) : List Byte :=
  natLe 8 (s.getF sSerial) ++ natLe 2 (s.fuses.badCores.length + s.fuses.badStops.length) ++
    natLe 1 ((List.range 64).filter fun n => s.fuseWord n != 0).length ++
    natLe 1 (s.fuses.vendorRevoked.toNat + 16 * s.fuses.ownerEnrolled.toNat) ++ natLe 4 (railsUp r)

/-- Rails 2 to 19 are enabled in order. A rail that does not regulate ends bring-up and is a fatal RAIL; else the fuses
are read and M0 is extended. -/
def heat0Op (r : Heat0In) (s : State) : State :=
  s.inHeat 0 fun s =>
    let s := { s with pwr := { s.pwr with rails := BitVec.ofNat 20 (railsUp r.rails) } }
    match badRail r.rails with
    | some n =>
      let mv := s.draw.toNat % 65536
      ((s.failHeat 0 (heat0Body s r.rails)).used).fatal 0x08 (railDie n) n mv .none State.railsOff
    | none =>
      let s := (s.setF sSerial Config.serial.toNat).extend 0 (sha3 (Config.fuseImageBytes s.fuseCode))
      s.passHeat 0 2 (heat0Body s r.rails)

/-- HEAT_0 (R514). -/
def execHeat0 (r : Heat0In) (s : State) : Host.Outcome State Fault Refusal := .next (heat0Op r s)

/-! ### Heat 1 (R392, R394, R404, R469, R470) -/

/-- The body of heat 1's report. -/
def heat1Body (s : State) (r : Heat1In) (ok : Bool) : List Byte :=
  natLe 2 (s.getF sFwMajor) ++ natLe 2 (s.getF sFwMinor) ++ natLe 1 (if ok then signerOf s.flash.image else 0) ++
    natLe 1 r.width ++ natLe 1 r.rate ++ natLe 1 0 ++ (if ok then digestBytes (sha3 s.flash.image) else [])

/-- The host port comes up; without CXL or 16 GT/s it is PCI Express only. -/
def State.hostUp (r : Heat1In) (s : State) : State :=
  { s with hostcfg := { s.hostcfg with memoryInfoValid := decide (0 < r.width) } }.setF sDegraded (!r.cxl || decide (r.rate < 16)).toNat

/-- The boot ROM verifies Ercia, or enters recovery, and the host port trains. -/
def heat1Op (r : Heat1In) (s : State) : State :=
  s.inHeat 1 fun s =>
    let s := s.hostUp r
    let d := s.flash.image
    if s.accepts d then
      let s := (s.burnList d).runErcia d
      s.passHeat 1 (outcomeOf false (s.onF sDegraded)) (heat1Body s r true)
    else
      let s := (s.failHeat 1 (heat1Body s r false)).setF sRecActive 1
      { s with pwr := { s.pwr with ccRunning := true } }

/-- Whether the host link can have trained so: x8, x4, x2 or x1 at 64, 32 or 16 GT/s, at a rate below 16 GT/s that PCI Express
alone can use, or not at all (R392, R394). -/
def heat1Ok (r : Heat1In) : Bool :=
  if r.width = 0 then decide (r.rate = 0)
  else [8, 4, 2, 1].contains r.width && ([64, 32, 16].contains r.rate || decide (r.rate < 16))

/-- HEAT_1 (R469). -/
def execHeat1 (r : Heat1In) (s : State) : Host.Outcome State Fault Refusal := guarded (heat1Ok r) s (heat1Op r s)

/-! ### Heat 2 (R450, R484) -/

/-- A crossing's buffer starts at its nominal occupancy. -/
def occStart (i : Nat) (s : State) : State := s.setF (grOcc i) 4 |>.setF (grHigh i) 4 |>.setF (grLow i) 4

/-- Die crossings and sprue lanes train; any that does not leaves the part non-conformant. -/
def heat2Op (r : Heat2In) (s : State) : State :=
  s.inHeat 2 fun s =>
    let cause := r.crossings != BitVec.allOnes 10 || r.lanes != BitVec.allOnes 16
    let s := ((forAll (List.range 10) occStart s).setF gLanesUp r.lanes.toNat).blame cause
    s.passHeat 2 (outcomeOf cause false) (natLe 2 r.crossings.toNat ++ natLe 2 r.lanes.toNat ++ natLe 2 r.plls.toNat)

/-- HEAT_2 (R450). -/
def execHeat2 (r : Heat2In) (s : State) : Host.Outcome State Fault Refusal := .next (heat2Op r s)

/-! ### Heat 3 (R343, R346-R348, R445) -/

/-- A row in the repair list of a record. -/
def rowWord (r : RowRef) : Nat := r.stack + 2 ^ 3 * r.pc + 2 ^ 8 * r.bank + 2 ^ 13 * r.row

/-- The saved record's bytes before its digest (R347). -/
def recordBody (t : TrainRec) : List Byte :=
  natLe 4 0x4E525447 ++ natLe 2 t.version ++ natLe 2 t.fwMajor ++ natLe 8 t.serial.toNat ++
    natLe 8 (0xC040 + 8 * t.repairs.length + 32) ++ natLe 4 t.rate ++ t.temps ++ natLe 2 t.repairs.length ++ natLe 28 0 ++
    freeBytes t.key 0xC000 ++ t.repairs.flatMap fun r => natLe 8 (rowWord r)

/-- Its DIGEST. -/
def recordDigest (t : TrainRec) : BitVec 256 := sha3 (recordBody t)

/-- Whether a stack's temperatures let the record serve. -/
def tempFits (was now : BitVec 8) : Bool :=
  decide (25 ≤ was.toInt) && decide (was.toInt ≤ 85) && decide (now.toInt - was.toInt ≤ 10) && decide (was.toInt - now.toInt ≤ 10)

/-- Why a copy of the saved record cannot serve, or 0 (R348). -/
def recordCode (r : Option TrainRec) (temps : List (BitVec 8)) : Nat :=
  match r with
  | none => 1
  | some t =>
    if !t.digestOk then 2
    else if t.serial ≠ Config.serial then 3
    else if t.version ≠ 1 ∨ t.rate ≠ 12000 then 4
    else if (List.range 6).all fun c => tempFits (t.temps.getD c 0) (temps.getD c 0) then 0
    else 5

/-- The copy of the saved record that serves: the newer that passes (R348, R452). -/
def State.servingRecord (s : State) (temps : List (BitVec 8)) : Option TrainRec :=
  s.flash.records.find? fun t => recordCode (some t) temps == 0

/-- RECORD of heat 3's report: 0 when a copy serves, else why the newer does not (R448; log 71). -/
def State.recordShown (s : State) (temps : List (BitVec 8)) : Nat :=
  if (s.servingRecord temps).isSome then 0 else recordCode s.flash.records.head? temps

/-- Whether an eye passes: at least 0.30 UI and 40 mV (R346). -/
def eyePasses (e : Eye) : Bool := decide (300 ≤ e.mui.toNat) && decide (40 ≤ e.mv.toNat)

/-- Eye number `c` of the six. -/
def eyeAt (l : List Eye) (c : Nat) : Eye := l.getD c ⟨0, 0⟩

/-- Whether the start is full (R445). -/
def State.fullStart (s : State) (r : Heat3In) : Bool :=
  (s.servingRecord r.temps).isNone || (List.range 6).all (fun c => !eyePasses (eyeAt r.restored c)) || s.pwr.fullWanted ||
    (s.flash.fullDays != 0 && decide (s.flash.fullDays ≤ s.flash.days))

/-- TRAINED of a stack: 1 from the record, 2 in full, 0 not at all. -/
def trainedAs (full : Bool) (r : Heat3In) (c : Nat) : Nat :=
  if !full && eyePasses (eyeAt r.restored c) then 1 else if eyePasses (eyeAt r.trained c) then 2 else 0

/-- The eye that the report shows for a stack: that of the settings in use. -/
def eyeShown (full : Bool) (r : Heat3In) (c : Nat) : Eye :=
  if trainedAs full r c = 1 then eyeAt r.restored c else eyeAt r.trained c

/-- A stack trains. -/
def trainStack (full : Bool) (r : Heat3In) (c : Nat) (s : State) : State :=
  let t := (r.temps.getD c 0).toNat
  s.setF (bTemp c) t |>.setF (bClass c) (refreshClass t) |>.setF (bTrained c) (trainedAs full r c)

/-- The body of heat 3's report. -/
def heat3Body (s : State) (full : Bool) (r : Heat3In) (code : Nat) : List Byte :=
  (List.range 6).flatMap (fun c => natLe 1 (s.getF (bTrained c))) ++ r.temps ++ natLe 1 code ++ natLe 3 0 ++
    (List.range 6).flatMap (fun c => natLe 2 (eyeShown full r c).mui.toNat) ++
    (List.range 6).flatMap fun c => natLe 2 (eyeShown full r c).mv.toNat

/-- The HBM trains in full or from the saved record; M2 takes the DIGEST of the record used, or zeros. -/
def heat3Op (r : Heat3In) (s : State) : State :=
  s.inHeat 3 fun s =>
    let code := s.recordShown r.temps
    let full := s.fullStart r
    let used := if full then none else s.servingRecord r.temps
    let digest := (used.map recordDigest).getD 0
    let s := { s with pwr := { s.pwr with full := full, serving := used } }
    let s := forAll (List.range 6) (trainStack full r) s
    let cause := (List.range 6).any fun c => s.getF (bTrained c) == 0
    ((s.blame cause).extend 2 digest).passHeat 3 (outcomeOf cause false) (heat3Body s full r code)

/-- Whether heat 3 names all six stacks. -/
def heat3Ok (r : Heat3In) : Bool :=
  decide (r.temps.length = 6) && decide (r.restored.length = 6) && decide (r.trained.length = 6)

/-- HEAT_3 (R346). -/
def execHeat3 (r : Heat3In) (s : State) : Host.Outcome State Fault Refusal := guarded (heat3Ok r) s (heat3Op r s)

/-! ### Heat 4 (R355-R357, R404, R446, R451, R452, R498) -/

/-- The rows that the saved record lists. -/
def State.listedRows (s : State) : List RowRef :=
  match s.savedRecord with
  | some t => t.repairs
  | none => []

/-- Rows to repair, rows that hard repair fixes, rows that remain, and of those the rows that the soft remap takes: at
most 48 of each controller. -/
def State.toRepair (s : State) (r : Heat4In) : List RowRef := distinct (r.failed ++ s.listedRows)

/-- The first 48 rows of each stack. -/
def softRows (l : List RowRef) : List RowRef := (List.range 6).flatMap fun c => (l.filter fun x => x.stack == c).take 48

/-- A soft remap entry for a row. -/
def remapRow (r : RowRef) (s : State) : State :=
  match (List.range 64).find? fun n => !s.onF (bmValid r.stack n) with
  | some n => s.setRemap r.stack n (6 * r.pc + r.stack, r.bank, r.row)
  | none => s

/-- The fill: zeros with valid check bits, the dump region apart while a dump is held. -/
def State.fillHbm (s : State) : State :=
  let kept := fun a => s.onF rDumpPresent && decide (dumpBase ≤ a) && decide (a < dumpTop)
  { s with hbm := { bytes := tblFilter kept s.hbm.bytes, bad := tblFilter (fun w => kept (32 * w)) s.hbm.bad } }

/-- A short dump goes from the ladle buffer to the dump region (R498). -/
def State.moveDump (s : State) : State :=
  if s.onF rDumpPresent && s.onF rDumpBuffer then
    (s.putHbm dumpBase (s.pwr.ladle.load 0 s.pwr.note.len)).setF rDumpBuffer 0
  else s

/-- The temperature that a record keeps for a stack: that of its training. -/
def State.recordTemp (s : State) (c : Nat) : BitVec 8 :=
  match s.pwr.serving with
  | some t => if s.getF (bTrained c) = 2 then BitVec.ofNat 8 (s.getF (bTemp c)) else t.temps.getD c 0
  | none => BitVec.ofNat 8 (s.getF (bTemp c))

/-- The record that heat 4 writes: after any full training its settings are new ones, internal to Ercia (log 8). -/
def State.newRecord (s : State) (rows : List RowRef) : TrainRec :=
  let fresh := (List.range 6).any fun c => s.getF (bTrained c) == 2
  let key := match s.pwr.serving with
    | some t => if fresh then s.draw.toNat else t.key
    | none => s.draw.toNat
  { digestOk := true, version := 1, fwMajor := s.getF sFwMajor, serial := Config.serial, rate := 12000,
    temps := (List.range 6).map s.recordTemp, key := key, repairs := rows }

/-- The full test clears FULL_NEXT and the day count (R446). -/
def State.fullDone (s : State) : State :=
  if s.pwr.full then ({ s with flash := { s.flash with fullNext := false, days := 0 } }).setF sLastFull 1 else s

/-- Rows of a list in a stack. -/
def inStack (l : List RowRef) (c : Nat) : Nat := (l.filter fun x => x.stack == c).length

/-- The body of heat 4's report. -/
def heat4Body (s : State) (r : Heat4In) (hard left : List RowRef) (kept : Bool) : List Byte :=
  let ok := ((List.range 6).map fun c => if s.getF (bTrained c) != 0 && decide (inStack left c ≤ 48) then 2 ^ c else 0).sum
  natLe 1 s.pwr.full.toNat ++ natLe 1 ok ++ natLe 2 hard.length ++ (List.range 6).flatMap (fun c => natLe 1 (s.getF (bRemapUsed c))) ++
    natLe 2 0 ++ (List.range 6).flatMap (fun c => natLe 4 (inStack (distinct r.failed) c)) ++ natLe 4 0 ++
    natLe 8 s.tick ++ natLe 1 kept.toNat

/-- The HBM is tested, repaired and filled, and the record is written; M2 takes its DIGEST (R488). -/
def heat4Op (r : Heat4In) (s : State) : State :=
  s.inHeat 4 fun s =>
    let all := s.toRepair r
    let hard := all.filter r.fixable.contains
    let left := all.filter fun x => !r.fixable.contains x
    let soft := softRows left
    let kept := s.onF rDumpPresent
    let cause := (List.range 6).any fun c => decide (48 < inStack left c)
    let s := (forAll soft remapRow s).fillHbm.moveDump
    let s := forAll (List.range 6) (fun c t => t.setF (bReady c) (t.getF (bTrained c) != 0).toNat) s
    let s := { s with hostcfg := { s.hostcfg with memoryActive := true } }.fullDone
    let rows := soft ++ (s.listedRows.filter fun x => left.contains x && !soft.contains x)
    let t := s.newRecord rows
    let s := ((s.writeRecord t).used.extend 2 (recordDigest t)).blame cause
    s.passHeat 4 (outcomeOf cause (!all.isEmpty)) (heat4Body s r hard left kept)

/-- Whether a row is one of the part. -/
def rowOk (r : RowRef) : Bool := decide (r.stack < 6) && decide (r.pc < 32) && decide (r.bank < 32) && decide (r.row < 32768)

/-- HEAT_4 (R451). -/
def execHeat4 (r : Heat4In) (s : State) : Host.Outcome State Fault Refusal :=
  guarded (r.failed.all rowOk && r.fixable.all rowOk) s (heat4Op r s)

/-! ### The physical map (R21, R22, R240-R244, R453-R460) -/

/-- The slots of a row. -/
def slotsOf (d w : Nat) : List PhysRef := (List.range 18).map fun k => ⟨d, w, k⟩

/-- The rows of the package. -/
def allRows : List (Nat × Nat) := (List.range 8).flatMap fun d => (List.range 16).map fun w => (d, w)

/-- Position of a slot on its die's rings (R240). -/
def ringPos (r : PhysRef) : Nat := if r.row % 2 = 0 then 18 * r.row + r.slot else 18 * r.row + 17 - r.slot

/-- SLOT_s of SYS_PHYS_d_w (R460). -/
def physFld (r : PhysRef) : Fld := ⟨0x2000 + 0x80 * r.die + 8 * r.row, 3 * r.slot, 3⟩

/-- State of a physical slot: 0 LOGICAL, 1 SPARE, 2 FUSED, 3 FIELD, 4 FAILED, 5 BYPASSED. -/
def State.slotCode (s : State) (r : PhysRef) : Nat := s.getF (physFld r)

/-- A field fuse entry in force (R459). -/
def fieldWord (r : PhysRef) (stop late : Bool) : W32 :=
  BitVec.ofNat 32 (r.die + 8 * r.row + 128 * r.slot + 4096 * stop.toNat + 8192 * late.toNat + 2 ^ 31)

/-- Whether an entry in force names a place; as a stop where asked. -/
def State.inField (s : State) (r : PhysRef) (stop : Bool) : Bool :=
  s.fuses.field.any fun w => bitOf w 31 && bitsOf w 0 12 == r.die + 8 * r.row + 128 * r.slot && (!stop || bitOf w 12)

/-- Columns 0 to 15 go to the row's in-service slots in ascending order; the rest of those are spares (R458). -/
def State.mapCodes (d w : Nat) (s : State) : State :=
  let use := (slotsOf d w).filter fun r => decide (s.slotCode r ≤ 1)
  forAll (use.zipIdx) (fun x t => t.setF (physFld x.1) (if x.2 < 16 then 0 else 1)) s

/-- The slots that present the row's columns. -/
def State.logicalSlots (s : State) (d w : Nat) : List PhysRef := (slotsOf d w).filter fun r => s.slotCode r == 0

/-- Whether a row is short of 16 cores. -/
def State.rowShort (s : State) (x : Nat × Nat) : Bool := decide ((s.logicalSlots x.1 x.2).length < 16)

/-- Whether a position's stop is bypassed. -/
def State.bypassedAt (s : State) (d p : Nat) : Bool :=
  (allRows.filter fun x => x.1 == d).any fun x => (slotsOf x.1 x.2).any fun r => ringPos r == p && s.slotCode r == 5

/-- First and second tap of a die (R242). -/
def State.tapOf (s : State) (d base : Nat) : Nat := if s.bypassedAt d base then base + 1 else base

/-- One stop is programmed (R242, R458, R267). -/
def State.programStop (r : PhysRef) (lid : Nat) (fenced : Bool) (s : State) : State :=
  let p := ringPos r
  let tap := p == s.getF (rdTap0 r.die) || p == s.getF (rdTap1 r.die)
  s.setF (rsLid r.die p) (if fenced then 0 else lid) |>.setF (rsFenced r.die p) fenced.toNat
    |>.setF (rsBypassed r.die p) (s.slotCode r == 5).toNat |>.setF (rsTap r.die p) tap.toNat

/-- Remap words that BIST found for a physical core, added to those of the logical core it becomes. -/
def State.fillRemaps (r : PhysRef) (lid : Nat) (s : State) : State :=
  let add := fun (x : SramRow) (t : Sram) =>
    let k := bankBase x.mem + x.bank
    let l := tblGet (fun _ => []) t.remaps k
    if l.contains x.row || decide (4 ≤ l.length) then t else { t with remaps := tblPut (fun _ => []) k (l ++ [x.row]) t.remaps }
  let mine := s.pwr.bist.filter fun x => x.core == r
  let s := s.modSram lid fun t => forAll mine add t
  forAll [CoreMem.lace, .tile, .op] (fun m t => t.setF (remapFld lid m) ((t.sram lid).used m)) s

/-- The stops of a row are programmed: its logical slots with their columns, the others as fenced. -/
def State.programRow (d w : Nat) (s : State) : State :=
  let on := s.logicalSlots d w
  let s := forAll (slotsOf d w) (fun r t => t.programStop r 0 true) s
  forAll (on.zipIdx) (fun x t =>
    let lid := 256 * d + 16 * w + x.2
    (t.programStop x.1 lid false).fillRemaps x.1 lid) s

/-- Rotation and taps of a die (R242, R244). -/
def State.programDie (d : Nat) (s : State) : State :=
  let n := ((List.range 288).filter fun p => s.bypassedAt d p).length
  s.setF (rdRotation d) (288 - n) |>.setF (rdTap0 d) (s.tapOf d 0) |>.setF (rdTap1 d) (s.tapOf d 144)

/-- Whether a die exceeds its stitch-overs, or has lost both candidates for a tap (R242, R244, R454). -/
def State.dieBad (s : State) (d : Nat) : Bool :=
  decide (2 < ((List.range 288).filter fun p => s.bypassedAt d p).length) || (s.bypassedAt d 0 && s.bypassedAt d 1) ||
    (s.bypassedAt d 144 && s.bypassedAt d 145)

/-! ### Heat 5 (R355, R453-R458) -/

/-- Cores with a bank that needs more than four remap words (R453). -/
def overfull (l : List SramRow) : List PhysRef :=
  let l := distinct l
  (l.filter fun x => decide (4 < (l.filter fun y => y.core == x.core && y.mem == x.mem && y.bank == x.bank).length)).map (·.core)

/-- The cores that failed BIST or the logic test. -/
def failedCores (r : Heat5In) : List PhysRef := distinct (r.cores ++ overfull r.rows)

/-- The state of a slot before new failures count: bypassed, fused, recorded, or in service (R454, R455). -/
def State.firstCode (s : State) (r : Heat5In) (x : PhysRef) : Nat :=
  if s.fuses.badStops.contains x || s.inField x true || r.stops.contains x then 5
  else if s.fuses.badCores.contains x then 2
  else if s.inField x false then 3
  else 1

/-- Whether a slot fails without being marked bad in fuses. -/
def State.newlyBad (s : State) (r : Heat5In) (x : PhysRef) : Bool :=
  ((failedCores r).contains x || r.stops.contains x) && !s.fuses.badCores.contains x && !s.fuses.badStops.contains x &&
    !s.inField x false

/-- What reconciliation has found: entries written, whether the bank was full. -/
structure Recon where
  entries : Nat := 0
  full : Bool := false
deriving DecidableEq, Repr

/-- A defect is fenced and recorded; with the bank full, fenced only (R456). -/
def recordBad (x : PhysRef) (stop late : Bool) (a : State × Recon) : State × Recon :=
  let (s, ok) := a.1.burnField (fieldWord x stop late)
  let s := if stop then s else s.setF (physFld x) (if ok then 3 else 4)
  (s, { entries := a.2.entries + ok.toNat, full := a.2.full || !ok })

/-- Reconciliation of one row: with its failing cores out it still presents 16 cores, and they are recorded, or it is
short, and nothing is (R456, R457). -/
def reconcileRow (r : Heat5In) (d w : Nat) (a : State × Recon) : State × Recon :=
  let s := a.1
  let bad := (slotsOf d w).filter (s.newlyBad r)
  let s := forAll (slotsOf d w) (fun x t => t.setF (physFld x) (s.firstCode r x)) s
  let good := ((slotsOf d w).filter fun x => s.slotCode x == 1 && !bad.contains x).length
  let a :=
    if 16 ≤ good then forAll bad (fun x b => recordBad x (r.stops.contains x) false b) (s, a.2)
    else (forAll bad (fun x t => if t.slotCode x = 5 then t else t.setF (physFld x) 4) s, a.2)
  (a.1.mapCodes d w, a.2)

/-- The SRAM rows that take remap words: the first four of each bank (R356, R453). -/
def remappedRows (l : List SramRow) : List SramRow :=
  (distinct l).foldl (fun a x =>
    if (a.filter fun y => y.core == x.core && y.mem == x.mem && y.bank == x.bank).length < 4 then a ++ [x] else a) []

/-- The body of heat 5's report. -/
def heat5Body (s : State) (r : Heat5In) (was : State) (c : Recon) : List Byte :=
  let count := fun d (p : Nat → Bool) =>
    ((allRows.filter fun x => x.1 == d).map fun x => ((slotsOf x.1 x.2).filter fun y => p (s.slotCode y)).length).sum
  let short := match allRows.find? s.rowShort with
    | some (d, w) => 16 * d + w
    | none => 0xFFFF
  let fused := allRows.flatMap fun x => (slotsOf x.1 x.2).filter fun y => was.fuses.badCores.contains y || was.inField y false
  (List.range 8).flatMap (fun d => natLe 1 (count d fun k => decide (2 ≤ k))) ++
    (List.range 8).flatMap (fun d => natLe 1 (count d fun k => k == 5)) ++ natLe 1 c.entries ++ natLe 1 c.full.toNat ++
    natLe 2 short ++ natLe 2 (fused.filter fun y => !(failedCores r).contains y).length ++ natLe 2 (remappedRows r.rows).length ++
    natLe 2 (failedCores r).length

/-- Heat 6 begins with the entropy source (R437). -/
def State.startEntropy (s : State) : State := (if s.getF eState = 0 then s.setF eState 1 else s).askRandom

/-- The SRAM fill; what BIST has found in SRAM rows is kept for the remaps. -/
def State.fillDies (rows : List SramRow) (s : State) : State :=
  { s with pwr := { s.pwr with bist := rows }, cores := [], stops := [], dies := [] }

/-- Stop programming after the reconciliation, and the end of heat 5. -/
def heat5End (r : Heat5In) (was : State) (x : State × Recon) : State :=
  let s := forAll (List.range 8) State.programDie (x.1.fillDies r.rows)
  let s := forAll allRows (fun x t => t.programRow x.1 x.2) s
  let cause := allRows.any s.rowShort || (List.range 8).any s.dieBad
  let fenced := allRows.any fun x => (slotsOf x.1 x.2).any fun y => decide (2 ≤ s.slotCode y)
  ((s.blame cause).passHeat 5 (outcomeOf cause (fenced || !r.rows.isEmpty)) (heat5Body s r was x.2)).startEntropy

/-- BIST, reconciliation, stop programming and the SRAM fill. -/
def heat5Op (r : Heat5In) (s : State) : State :=
  s.inHeat 5 fun was => heat5End r was (forAll allRows (fun x a => reconcileRow r x.1 x.2 a) (was, {}))

/-- Whether a physical place is one of the part. -/
def physOk (r : PhysRef) : Bool := decide (r.die < 8) && decide (r.row < 16) && decide (r.slot < 18)

/-- Whether an SRAM row is one of the part. -/
def sramRowOk (x : SramRow) : Bool := physOk x.core && decide (x.bank < bankCount x.mem) && decide (x.row < bankRows x.mem)

/-- HEAT_5 (R453). -/
def execHeat5 (r : Heat5In) (s : State) : Host.Outcome State Fault Refusal :=
  guarded (r.cores.all physOk && r.stops.all physOk && r.rows.all sramRowOk) s (heat5Op r s)

/-! ### Heat 6 (R361, R429, R434, R438) -/

/-- The body of heat 6's report. -/
def heat6Body (s : State) (r : Heat6In) : List Byte :=
  let (kind, n) := r.checker.getD (0, 0)
  natLe 1 kind ++ natLe 1 0 ++ natLe 2 n ++ natLe 1 (s.getF eState) ++ natLe 3 0 ++ natLe 8 s.ent.runTick

/-- The die that INFO names for a failing checker: a decoder's stack, E0 for a check-value unit; which die a bank number
names is open, so it is free (log 1). -/
def State.checkerDie (s : State) (kind n : Nat) : Nat :=
  if kind = 1 then 16 + ctlOf n else if kind = 5 then 8 else s.draw.toNat % 8

/-- A checker that fails its self-test is fatal; else the scrubbers start. -/
def heat6Op (r : Heat6In) (s : State) : State :=
  s.inHeat 6 fun s =>
    match r.checker with
    | some (kind, n) =>
      let die := s.checkerDie kind n
      ((s.failHeat 6 (heat6Body s r)).used).fatal 0x05 die (if kind = 1 then ctlOf n else 0) 0 .full id
    | none => s.passHeat 6 2 (heat6Body s r)

/-- Whether a checker is one of the part: decoders, banks of each memory, units. -/
def heat6Ok (r : Heat6In) : Bool :=
  match r.checker with
  | none => true
  | some (1, n) => decide (n < 192)
  | some (2, n) => decide (n < 65536)
  | some (3, n) => decide (n < 16384)
  | some (4, n) => decide (n < 4096)
  | some (5, n) => decide (n < 8)
  | some _ => false

/-- HEAT_6 (R361). -/
def execHeat6 (r : Heat6In) (s : State) : Host.Outcome State Fault Refusal := guarded (heat6Ok r) s (heat6Op r s)

/-! ### Heat 7 (R389, R461) -/

/-- LNK_TOPO is loaded from the link configuration record (R390). -/
def State.loadTopo (s : State) : State :=
  let f := s.flash
  s.setF lId f.linkId |>.setF lTopology f.linkTopology |>.setF lDimX f.linkX |>.setF lDimY f.linkY |>.setF lDimZ f.linkZ

/-- Links in a state. -/
def State.linksIn (s : State) (st : Nat) : Nat := ((List.range 48).filter fun n => s.getF (lkState n) == st).length

/-- The body of heat 7's report. -/
def heat7Body (s : State) (r : Heat7In) : List Byte :=
  natLe 1 r.rings.toNat ++ natLe 1 r.sprue.toNat ++ natLe 2 (s.getF lId) ++ natLe 1 (s.getF lAgreed) ++
    (List.range 6).flatMap (fun k => natLe 1 (s.getF (lpState k))) ++ natLe 1 0 ++ natLe 1 (s.linksIn 3) ++ natLe 1 (s.linksIn 0)

/-- Rings and sprue are tested, and the peer links train, stopped or not (R388); degraded links never make the part non-conformant. -/
def heat7Op (r : Heat7In) (s : State) : State :=
  s.inHeat 7 fun s =>
    let cause := r.rings != BitVec.allOnes 8 || !r.sprue
    let s := { s with pwr := { s.pwr with linksStopped := false } }
    let s := (s.loadTopo.trainLinks r.found).blame cause
    let degraded := s.dims != 0 && (s.linksIn 3 != 0 || s.linksIn 0 != 0)
    s.passHeat 7 (outcomeOf cause degraded) (heat7Body s r)

/-- HEAT_7 (R461). -/
def execHeat7 (r : Heat7In) (s : State) : Host.Outcome State Fault Refusal := guarded (foundOk r.found) s (heat7Op r s)

/-! ### Heat 8 (R462, R463) -/

/-- What the test bars have found: failed cores, rows remapped in all and in this round, the first failure with its
engines, whether a row came up short. -/
structure Bars where
  failed : Nat := 0
  remapped : List (Nat × Nat) := []
  round : List (Nat × Nat) := []
  first : Option (PhysRef × BitVec 7) := none
  short : Bool := false
deriving DecidableEq, Repr

/-- A row is mapped and programmed anew; a column that goes to another slot has that slot's remap words only. -/
def State.remapColumns (d w : Nat) (s : State) : State :=
  let old := s.logicalSlots d w
  let s := s.mapCodes d w
  let new := s.logicalSlots d w
  let moved := (List.range 16).filter fun c => old[c]? != new[c]?
  (forAll moved (fun c t => t.modSram (256 * d + 16 * w + c) fun _ => {}) s).programRow d w

/-- A core fails its test bars: a spare, or a core of a row that still presents 16, is fenced and recorded with LATE; a
row short of 16 leaves the part non-conformant and records nothing (R457, R463). `first` is the first round; later
rounds run on the logical cores of the rows remapped in the round before. -/
def failBar (firstRound : Bool) (before : List (Nat × Nat)) (x : PhysRef × BitVec 7) (a : State × Bars) : State × Bars :=
  let (s, b) := a
  let r := x.1
  let c := s.slotCode r
  let row := (r.die, r.row)
  if !(c == 0 && (firstRound || before.contains row)) && !(c == 1 && firstRound) then a
  else
    let b := { b with failed := b.failed + 1, first := if b.first.isSome then b.first else some x }
    let left := ((slotsOf r.die r.row).filter fun y => decide (s.slotCode y ≤ 1) && y != r).length
    if c = 0 ∧ left < 16 then
      ((s.setF (physFld r) 4).remapColumns r.die r.row, { b with short := true })
    else
      let s := (recordBad r false true (s, {})).1
      if c = 0 then
        (s.remapColumns r.die r.row,
          { b with remapped := distinct (b.remapped ++ [row]), round := distinct (b.round ++ [row]) })
      else (s, b)

/-- The rounds of test bars. -/
def runBars : Bool → List (List (PhysRef × BitVec 7)) → State × Bars → State × Bars
  | _, [], a => a
  | firstRound, l :: t, a =>
    let before := a.2.round
    runBars false t (forAll l (failBar firstRound before) (a.1, { a.2 with round := [] }))

/-- The body of heat 8's report. -/
def heat8Body (was : State) (b : Bars) : List Byte :=
  let cores := (allRows.map fun x => ((slotsOf x.1 x.2).filter fun y => decide (was.slotCode y ≤ 1)).length).sum
  let first := match b.first with
    | some (r, _) => 4096 * r.die + 256 * r.row + r.slot
    | none => 0xFFFF
  let engines := match b.first with
    | some (_, e) => e.toNat
    | none => 0
  natLe 2 cores ++ natLe 2 b.failed ++ natLe 1 b.remapped.length ++ natLe 1 0 ++ natLe 2 first ++ natLe 1 engines

/-- Test bars on every logical and spare core, with remapping of failures. -/
def heat8Op (r : Heat8In) (s : State) : State :=
  s.inHeat 8 fun was =>
    let (s, b) := runBars true r.rounds (was, {})
    (s.blame b.short).passHeat 8 (outcomeOf b.short (b.failed != 0)) (heat8Body was b)

/-- HEAT_8 (R462). -/
def execHeat8 (r : Heat8In) (s : State) : Host.Outcome State Fault Refusal :=
  guarded (r.rounds.all fun l => l.all fun x => physOk x.1) s (heat8Op r s)

/-! ### Heat 9 (R464, R465, R481) -/

/-- Bring-up ends: ready if conformant, LIMITED cleared in any case, and the READY event sent. -/
def heat9Op (s : State) : State :=
  s.inHeat 9 fun s =>
    let ok := !s.pwr.nonconformant
    let s := s.setF sReady ok.toNat |>.setF sConformant ok.toNat |>.setF sLimited 0 |>.setF sHeat 9
    let s := s.endHeat 9 (outcomeOf (!ok) false)
      (natLe 1 ok.toNat ++ natLe 1 ok.toNat ++ natLe 2 0 ++ natLe 4 ((s.tick - s.pwr.startTick) / 50000))
    s.idleNow.event 9

/-- HEAT_9 (R464). -/
def execHeat9 (s : State) : Host.Outcome State Fault Refusal := .next (heat9Op s)

end Sys2Proof.Machine
end

