-- ==== Sys2Proof/Machine/Monitor.lean ====
section
/-!
DEFINITION. The Siroz monitor: its commands, binary transfers and the development unlock (R440, R470, R502-R507). What
a command prints is held as the bytes it shows; their wording is Ercia's (log 8).
-/
namespace Sys2Proof.Machine

/-! ### Command lines (R502, R503) -/

/-- Whether the monitor is in a command: a binary transfer, or a challenge that waits for the DRBG. -/
def State.monBusy (s : State) : Bool := s.mon.transfer.isSome || s.ent.waiting.any fun e => e.2 == .challenge

/-- A command line acts unless a command is in progress, when its characters are discarded (R503), or the always-on domain
is in reset (R513). -/
def State.line (f : State → State) (s : State) : State := s.managed fun s => if s.monBusy then s else f s

/-- An error answer. -/
def State.fail (code : Nat) (s : State) : State := s.emit (.monErr code)

/-- Lines, then OK. -/
def State.answer (ls : List (List Byte)) (s : State) : State := (forAll ls (fun l t => t.emit (.monLine l)) s).emit .monOk

/-- The first error among the checks that hold, else the command: bad argument, unlock, state. -/
def State.checked (bad locked wrong : Bool) (f : State → State) (s : State) : State :=
  if bad then s.fail 2 else if locked then s.fail 3 else if wrong then s.fail 4 else f s

/-- Whether an unlock scope is missing, or its SECONDS have passed: 0 WRITE, 1 TEST, 2 ENTROPY (R506). -/
def State.lacks (s : State) (scope : Nat) : Bool :=
  !(s.onF mActive && decide (s.tick < s.mon.unlockEnd) && Nat.testBit (s.getF mScope) scope)

/-- Whether the control complex is not running (CC of R504). -/
def State.noCc (s : State) : Bool := !s.pwr.ccRunning

/-- ASCII text. -/
def ascii (t : String) : List Byte := t.toList.map fun c => BitVec.ofNat 8 c.toNat

/-- The commands of R504. -/
def monCommands : List String :=
  ["HELP", "STATE", "HEAT", "RD", "WR", "FUSE", "LOG", "BAUD", "FULLSTART", "LINKCFG", "LINKTEST", "MEMTEST", "DUMP", "LOAD",
   "COMMIT", "RAW", "RAWREAD", "FATAL", "RESET", "UNLOCK", "LOCK"]

/-- HELP. -/
def monHelpOp (s : State) : State := s.line fun s => s.answer (monCommands.map ascii)

/-- MON_HELP (R504). -/
def execMonHelp (s : State) : Host.Outcome State Fault Refusal := .next (monHelpOp s)

/-- STATE: SYS_STATE, ERR_FATAL, ERR_DUMP, PAT_STATE, PWR_STATE. -/
def monStateOp (s : State) : State :=
  s.line fun s => s.answer (([0x10, 0x00900000, 0x00900020, 0x00200010, 0x00800000] : List Nat).map fun o => natLe 8 (s.reg64 o).toNat)

/-- MON_STATE (R504). -/
def execMonState (s : State) : Host.Outcome State Fault Refusal := .next (monStateOp s)

/-- HEAT: a heat report. -/
def monHeatOp (h : Nat) (s : State) : State :=
  s.line fun s => s.checked (decide (9 < h)) false false fun s => s.answer [s.regBytes (reportAt h) 256]

/-- MON_HEAT (R504). -/
def execMonHeat (h : Nat) (s : State) : Host.Outcome State Fault Refusal := .next (monHeatOp h s)

/-! ### Registers (R504, R507) -/

/-- The end of what RD and WR reach: BAR0 and the monitor registers above it. -/
def monTop : Nat := 0x04000018

/-- A command that touches a core wakes the package, and the core's die from OFF (R481). -/
def State.wakeCore (d : Nat) (s : State) : State :=
  if s.onF wDeep then s.leaveDeep.setOff (s.getF wOff &&& (255 - 2 ^ (d % 8))) else s

/-- RD and WR wake what they touch. -/
def State.wakeFor (o : Nat) (s : State) : State :=
  if corePage 0 ≤ o ∧ o < corePage 2048 then s.wakeCore ((o - corePage 0) / 0x100000) else s

/-- What RD reads at `o`: as the host would, without side effects. -/
def State.monWord (s : State) (o : Nat) : List Byte :=
  natLe 8 (if s.onF sLimited && withheld o then 0 else (s.readVal o 8).toNat)

/-- RD: 1 to 64 aligned 8-byte words. -/
def monRdOp (o n : Nat) (s : State) : State :=
  s.line fun s => s.checked (decide (o % 8 ≠ 0) || decide (n < 1) || decide (64 < n) || decide (monTop < o + 8 * n)) false false fun s =>
    let s := forAll (List.range n) (fun i t => t.wakeFor (o + 8 * i)) s
    s.answer ((List.range n).map fun i => s.monWord (o + 8 * i))

/-- MON_RD (R504). -/
def execMonRd (off count : Nat) (s : State) : Host.Outcome State Fault Refusal := .next (monRdOp off count s)

/-- A host write of one word with LIMITED lifted for it (R504). -/
def State.liftedWrite (o : Nat) (v : W64) (s : State) : State :=
  let l := s.getF sLimited
  (registerWriteOp o 8 v (s.setF sLimited 0)).setF sLimited l

/-- A write of MON_ENT_RAW (R440, R507). -/
def State.rawWrite (v : W64) (s : State) : State := (s.setF mSource (bitsOf v 1 6)).setRaw (bitOf v 0)

/-- A write of a monitor register; the others take nothing. -/
def State.monRegWrite (o : Nat) (v : W64) (s : State) : State := if o = 0x04000008 then s.rawWrite v else s

/-- WR: as a host write would, under WRITE, and ENTROPY as well for MON_ENT_RAW (R504, R507). -/
def monWrOp (o : Nat) (v : W64) (s : State) : State :=
  s.line fun s =>
    s.checked (decide (o % 8 ≠ 0) || decide (monTop < o + 8)) (s.lacks 0 || (o == 0x04000008 && s.lacks 2)) false fun s =>
      let s := s.wakeFor o
      (if o < 0x04000000 then s.liftedWrite o v else s.monRegWrite o v).answer []

/-- MON_WR (R507). -/
def execMonWr (off : Nat) (v : W64) (s : State) : Host.Outcome State Fault Refusal := .next (monWrOp off v s)

/-! ### Views (R486, R504) -/

/-- A physical place as three bytes. -/
def refBytes (r : PhysRef) : List Byte := natLe 1 r.die ++ natLe 1 r.row ++ natLe 1 r.slot

/-- The fuse view: serial number, trims, factory defect map, field fuse bank, key hashes, slot states. -/
def State.fuseView (s : State) : List (List Byte) :=
  [natLe 8 Config.serial.toNat, freeBytes 0 10, s.fuses.badCores.flatMap refBytes, s.fuses.badStops.flatMap refBytes,
   (List.range 64).flatMap fun n => natLe 4 (s.fuseWord n).toNat, (List.range 4).flatMap fun n => digestBytes (Config.vendorHash n),
   (List.range 4).flatMap fun n => digestBytes (s.fuses.hash n), natLe 4 s.keysWord.toNat]

/-- FUSE. -/
def monFuseOp (s : State) : State := s.line fun s => s.answer s.fuseView

/-- MON_FUSE (R504). -/
def execMonFuse (s : State) : Host.Outcome State Fault Refusal := .next (monFuseOp s)

/-- The `n` newest entries of the error log, newest first. -/
def State.newest (s : State) (n : Nat) : List (List Byte) :=
  let l := (List.range (min n 1024)).map fun i => (s.getF rLogHead + 1023 - i) % 1024
  (l.filter fun e => s.getF (ogClass e) != 0).map fun e => s.regBytes (0x00901000 + 16 * e) 16

/-- LOG. -/
def monLogOp (n : Nat) (s : State) : State := s.line fun s => s.answer (s.newest n)

/-- MON_LOG (R504). -/
def execMonLog (n : Nat) (s : State) : Host.Outcome State Fault Refusal := .next (monLogOp n s)

/-! ### Settings (R446, R502, R504) -/

/-- The rates of R502. -/
def baudRates : List Nat := [115200, 230400, 460800, 921600, 1000000, 2000000, 3000000]

/-- BAUD: the OK goes out at the old rate. -/
def monBaudOp (rate : Nat) (s : State) : State :=
  s.line fun s => s.checked (!baudRates.contains rate) false false fun s => (s.answer []).setF mRate rate

/-- MON_BAUD (R504). -/
def execMonBaud (rate : Nat) (s : State) : Host.Outcome State Fault Refusal := .next (monBaudOp rate s)

/-- FULLSTART sets FULL_NEXT. -/
def monFullstartOp (s : State) : State :=
  s.line fun s => s.checked false false s.noCc fun s => { s with flash := { s.flash with fullNext := true } }.answer []

/-- MON_FULLSTART (R504). -/
def execMonFullstart (s : State) : Host.Outcome State Fault Refusal := .next (monFullstartOp s)

/-- LINKCFG writes the link configuration record, in the terms of LNK_TOPO's fields. -/
def monLinkcfgOp (id topology x y z : Nat) (s : State) : State :=
  s.line fun s =>
    s.checked (decide (4096 ≤ id) || decide (4 ≤ topology) || decide (4096 ≤ x) || decide (4096 ≤ y) || decide (4096 ≤ z)) false
      (s.noCc || s.armed) fun s =>
        { s with flash := { s.flash with linkId := id, linkTopology := topology, linkX := x, linkY := y, linkZ := z } }.answer []

/-- MON_LINKCFG (R504). -/
def execMonLinkcfg (id topology x y z : Nat) (s : State) : Host.Outcome State Fault Refusal :=
  .next (monLinkcfgOp id topology x y z s)

/-! ### Tests (R504) -/

/-- `n` free bytes. -/
def State.drawBytes (s : State) (n : Nat) : List Byte := (List.range n).map fun i => (Config.freeBits (s.free + i)).extractLsb' 0 8

/-- The free values that they took. -/
def State.usedBytes (n : Nat) (s : State) : State := { s with free := s.free + n }

/-- LINKTEST: an error count for each lane of the port, which the channel decides (log 1). -/
def monLinktestOp (port seconds : Nat) (s : State) : State :=
  s.line fun s =>
    s.checked (decide (6 ≤ port) || decide (seconds = 0)) (s.lacks 1) (s.noCc || s.armed) fun s =>
      let n := 16 * (portLinks s.dims port).2
      (s.answer [s.drawBytes n]).usedBytes n

/-- MON_LINKTEST (R504). -/
def execMonLinktest (port seconds : Nat) (s : State) : Host.Outcome State Fault Refusal := .next (monLinktestOp port seconds s)

/-- Contents are lost: bytes of a memory take free values (log 1). -/
def Mem.lose (k : Nat) (l : List Nat) (m : Mem) : Mem :=
  forAll l (fun a m => m.putByte a ((Config.freeBits (k + a)).extractLsb' 0 8)) m

/-- The bytes of stack `c` outside a held dump (R504). -/
def State.testBytes (s : State) (c : Nat) : List Nat :=
  (List.range hdmTop).filter fun a => ctlOf (pcOf a) == c &&
    !(s.onF rDumpPresent && !s.onF rDumpBuffer && decide (dumpBase ≤ a) && decide (a < dumpTop))

/-- March C− on a stack: what it held is lost, and its words are valid. -/
def State.testStack (c : Nat) (s : State) : State :=
  let s := s.leaveDeep
  let l := s.testBytes c
  let bad := s.hbm.bad.filter fun e => !l.contains (32 * e.1)
  ({ s with hbm := { s.hbm with bad := bad }.lose s.free l }).usedBytes hdmTop

/-- March C− on the memories of a core. -/
def testCore (c : Core) (k : Nat) : Core :=
  { c with lace := ({} : Mem).lose k (List.range (cmSize .lace)), tile := ({} : Mem).lose (k + 0x100000) (List.range (cmSize .tile)),
           op := ({} : Mem).lose (k + 0x180000) (List.range (cmSize .op)) }

/-- March C− on every SRAM of a die. -/
def State.testDie (d : Nat) (s : State) : State :=
  let s := s.wakeCore d
  forAll ((List.range 256).map (256 * d + ·)) (fun l t => (t.modCore l fun c => testCore c t.free).usedBytes 0x200000) s

/-- MEMTEST on a stack or a die; what it prints of failures is free (log 1). -/
def monMemtestOp (m : MemTarget) (s : State) : State :=
  s.line fun s =>
    let bad := match m with
      | .stack c => decide (6 ≤ c)
      | .die d => decide (8 ≤ d)
    s.checked bad (s.lacks 1) (s.noCc || s.armed) fun s =>
      let s := match m with
        | .stack c => s.testStack c
        | .die d => s.testDie d
      (s.answer [s.drawBytes 8]).usedBytes 8

/-- MON_MEMTEST (R504). -/
def execMonMemtest (target : MemTarget) (s : State) : Host.Outcome State Fault Refusal := .next (monMemtestOp target s)

/-! ### Binary transfers (R505) -/

/-- A frame: length, data, CRC-32. -/
def frameBytes (d : List Byte) : List Byte := natLe 4 d.length ++ d ++ natLe 4 (crc32 d).toNat

/-- The transfer that is now in progress, with a frame just seen. -/
def State.setTransfer (t : Option Transfer) (s : State) : State :=
  { s with mon := { s.mon with transfer := t, frameTick := s.tick } }

/-- Sends the next frame, or ends with OK. -/
def State.sendFrames (l : List (List Byte)) (s : State) : State :=
  match l with
  | [] => (s.setTransfer none).emit .monOk
  | d :: _ => (s.setTransfer (some (.sending l 0))).emit (.monFrame (frameBytes d))

/-- Data go out in frames of at most 4,096 bytes. -/
def State.sendData (d : List Byte) (s : State) : State := s.sendFrames (pieces 4096 d)

/-- Bytes of the held dump, wherever it stands. -/
def State.dumpAt (s : State) (o n : Nat) : List Byte :=
  if s.onF rDumpBuffer then s.pwr.ladle.load o n else s.hbm.load (dumpBase + o) n

/-- Offset and length in the held dump of all of it, or of section number `i` of its table. -/
def State.dumpRange (s : State) : Option Nat → Nat × Nat
  | none => (0, s.pwr.note.len)
  | some i => (leNat (s.dumpAt (256 + 32 * i) 8), leNat (s.dumpAt (264 + 32 * i) 8))

/-- The bytes of that. -/
def State.dumpPart (s : State) (sec : Option Nat) : List Byte := s.dumpAt (s.dumpRange sec).1 (s.dumpRange sec).2

/-- A dump that stands in the HBM is read there: the package leaves DEEP, and what the read finds counts (R351, R481). -/
def State.readDump (s : State) (sec : Option Nat) : State :=
  if s.onF rDumpBuffer then s else s.leaveDeep.noteHbmRead (dumpBase + (s.dumpRange sec).1) (s.dumpRange sec).2

/-- Whether the dump has no section of that number. -/
def State.noSection (s : State) : Option Nat → Bool
  | none => false
  | some i => decide (leNat (s.dumpAt 0x3C 4) ≤ i)

/-- DUMP. -/
def monDumpOp (sec : Option Nat) (s : State) : State :=
  s.line fun s => s.checked (s.onF rDumpPresent && s.noSection sec) false (!s.onF rDumpPresent) fun s =>
    (s.readDump sec).sendData (s.dumpPart sec)

/-- MON_DUMP (R505). -/
def execMonDump (sec : Option Nat) (s : State) : Host.Outcome State Fault Refusal := .next (monDumpOp sec s)

/-- LOAD: the monitor waits for the image. -/
def monLoadOp (n : Nat) (s : State) : State :=
  s.line fun s => s.checked (decide (n = 0) || decide (recBytes < n)) false false fun s => s.setTransfer (some (.loading n [] 0))

/-- MON_LOAD (R505). -/
def execMonLoad (length : Nat) (s : State) : Host.Outcome State Fault Refusal := .next (monLoadOp length s)

/-- COMMIT, as SYS_RECOVERY.COMMIT. -/
def monCommitOp (s : State) : State :=
  s.line fun s => s.checked false false s.noCc fun s => s.commitBuffer.answer []

/-- MON_COMMIT (R470). -/
def execMonCommit (s : State) : Host.Outcome State Fault Refusal := .next (monCommitOp s)

/-- The image has arrived: it stands in the recovery buffer. -/
def State.loaded (d : List Byte) (s : State) : State :=
  ((s.putBuffer 0 d).setF sRecLength d.length).sendFrames []

/-- A frame that comes to the monitor is accepted or asked for again; the eighth refusal ends the transfer. -/
def State.frameFor (ok : Bool) (refusals : Nat) (good : State → State) (bad : Transfer) (s : State) : State :=
  if ok then good (s.emit (.monByte 0x06))
  else if 8 ≤ refusals + 1 then ((s.setTransfer none).emit (.monByte 0x15)).fail 5
  else (s.setTransfer (some bad)).emit (.monByte 0x15)

/-- Whether a frame is whole. -/
def frameOk (d : List Byte) (c : W32) : Bool := decide (1 ≤ d.length) && decide (d.length ≤ 4096) && crc32 d == c

/-- A frame arrives, or the receiver answers the one sent. -/
def monFrameOp (f : FrameEvent) (s : State) : State :=
  match s.mon.transfer, f with
  | some (.sending l _), .accepted => s.sendFrames (l.drop 1)
  | some (.sending l r), .refused =>
    if 8 ≤ r + 1 then (s.setTransfer none).fail 5
    else (s.setTransfer (some (.sending l (r + 1)))).emit (.monFrame (frameBytes (l.headD [])))
  | some (.loading n got r), .received d c =>
    s.frameFor (frameOk d c && decide (d.length ≤ n)) r (fun s =>
      if d.length = n then s.loaded (got ++ d) else s.setTransfer (some (.loading (n - d.length) (got ++ d) 0)))
      (.loading n got (r + 1))
  | some (.token r), .received d c => s.frameFor (frameOk d c) r (State.setTransfer (some (.token 0))) (.token (r + 1))
  | _, _ => s

/-- MON_FRAME (R505). -/
def execMonFrame (frame : FrameEvent) (s : State) : Host.Outcome State Fault Refusal := .next (monFrameOp frame s)

/-- 2 s without a frame, which are 100,000,000 ticks, end the transfer. -/
def monTransferTimeoutOp (s : State) : State :=
  if s.mon.transfer.isSome && decide (s.mon.frameTick + 100000000 ≤ s.tick) then (s.setTransfer none).fail 5 else s

/-- MON_TRANSFER_TIMEOUT (R505). -/
def execMonTransferTimeout (s : State) : Host.Outcome State Fault Refusal := .next (monTransferTimeoutOp s)

/-- An unknown command. -/
def monUnknownCommandOp (s : State) : State := s.line (State.fail 1)

/-- MON_UNKNOWN_COMMAND (R503). -/
def execMonUnknownCommand (s : State) : Host.Outcome State Fault Refusal := .next (monUnknownCommandOp s)

/-! ### Raw entropy (R440) -/

/-- What RAW writes to MON_ENT_RAW. -/
def State.rawArg : RawArg → State → State
  | .on, s => s.setRaw true
  | .off, s => s.setRaw false
  | .all, s => s.setF mSource 32
  | .osc n, s => s.setF mSource n

/-- RAW. -/
def monRawOp (arg : RawArg) (s : State) : State :=
  let bad := match arg with
    | .osc n => decide (32 ≤ n)
    | _ => false
  s.line fun s => s.checked bad (s.lacks 2) false fun s => (State.rawArg arg s).answer []

/-- MON_RAW (R440). -/
def execMonRaw (arg : RawArg) (s : State) : Host.Outcome State Fault Refusal := .next (monRawOp arg s)

/-- RAWREAD: raw samples, which are free (log 1), while the source is in RAW. -/
def monRawreadOp (n : Nat) (s : State) : State :=
  s.line fun s => s.checked (decide (n = 0)) (s.lacks 2) (s.getF eState != 5) fun s => (s.sendData (s.drawBytes n)).usedBytes n

/-- MON_RAWREAD (R440). -/
def execMonRawread (bytes : Nat) (s : State) : Host.Outcome State Fault Refusal := .next (monRawreadOp bytes s)

/-! ### FATAL and RESET (R493, R504) -/

/-- FATAL raises INJECTED. -/
def monFatalOp (s : State) : State :=
  s.line fun s => s.checked false (s.lacks 0) false fun s => (s.answer []).fatal 0x0F 9 0 0 .full id

/-- MON_FATAL (R504). -/
def execMonFatal (s : State) : Host.Outcome State Fault Refusal := .next (monFatalOp s)

/-- RESET: a conventional reset. -/
def monResetOp (s : State) : State :=
  s.line fun s => s.checked false (s.lacks 0) false fun s => (s.answer []).deviceReset

/-- MON_RESET (R504). -/
def execMonReset (s : State) : Host.Outcome State Fault Refusal := .next (monResetOp s)

/-! ### The development unlock (R506) -/

/-- UNLOCK: a challenge from the DRBG, or of serial number, start count and tick while it gives none. -/
def monUnlockOp (s : State) : State :=
  s.line fun s => if s.serves then s.ask .challenge else s.challenged s.tickChallenge

/-- MON_UNLOCK (R506). -/
def execMonUnlock (s : State) : Host.Outcome State Fault Refusal := .next (monUnlockOp s)

/-- "GL8 unlock". -/
def ctxUnlock : List Byte := [0x47, 0x4C, 0x38, 0x20, 0x75, 0x6E, 0x6C, 0x6F, 0x63, 0x6B]

/-- Whether the signer of a token is one that R506 allows. -/
def State.signerOk (s : State) (b : List Byte) : Bool :=
  let slot := leAt b 5 1
  if leAt b 4 1 = 0 then s.fuses.vendorOk slot (sigKey b)
  else leAt b 4 1 == 1 && s.fuses.ownerOk slot && sha3 (sigKey b) == s.fuses.hash slot

/-- Whether a token's body is laid out as R506 says. -/
def tokenForm (d : List Byte) : Bool :=
  leAt d 0 4 == 0x4B4C4E55 && decide (leAt d 4 1 < 8) && zeroAt d 5 3 && decide (1 ≤ leAt d 0x30 4) &&
    decide (leAt d 0x30 4 ≤ 86400) && zeroAt d 0x34 76

/-- Whether the monitor accepts a token (R506). -/
def State.tokenOk (s : State) (d : List Byte) : Bool :=
  let body := d.take 128
  let b := d.drop 128
  decide (d.length = 3904) && tokenForm d && leAt d 8 8 == Config.serial.toNat &&
    (match s.mon.challenge with
     | some c => (d.drop 0x10).take 32 == digestBytes c && decide (s.tick ≤ s.mon.challengeTick + 3000000000)
     | none => false) &&
    !sigMalformed b && s.signerOk b && sigVerifies b ctxUnlock (sha3 body)

/-- The unlock ends. -/
def State.lockUp (s : State) : State :=
  { (s.setF mScope 0).setF mActive 0 with mon := { s.mon with unlockEnd := 0 } }

/-- A token grants its scopes for SECONDS. -/
def State.grantScopes (d : List Byte) (s : State) : State :=
  let s := s.setF mScope (leAt d 4 1) |>.setF mActive 1
  { s with mon := { s.mon with unlockEnd := s.tick + 50000000 * leAt d 0x30 4 } }

/-- The token that the monitor waits for is checked; the challenge is used in any case. The error code of a token that
is not accepted is one of R503's five, free (log 1). -/
def unlockTokenOp (d : List Byte) (s : State) : State :=
  match s.mon.transfer with
  | some (.token _) =>
    let ok := s.tokenOk d
    let s := { s with mon := { s.mon with transfer := none, challenge := none } }
    if ok then (s.grantScopes d).answer [] else (s.fail (s.draw.toNat % 5 + 1)).used
  | _ => s

/-- UNLOCK_TOKEN (R506). -/
def execUnlockToken (token : List Byte) (s : State) : Host.Outcome State Fault Refusal := .next (unlockTokenOp token s)

/-- LOCK. -/
def monLockOp (s : State) : State := s.line fun s => s.lockUp.answer []

/-- MON_LOCK (R506). -/
def execMonLock (s : State) : Host.Outcome State Fault Refusal := .next (monLockOp s)

/-- The unlock ends after SECONDS. -/
def unlockExpiryOp (s : State) : State := if s.onF mActive && decide (s.mon.unlockEnd ≤ s.tick) then s.lockUp else s

/-- UNLOCK_EXPIRY (R506). -/
def execUnlockExpiry (s : State) : Host.Outcome State Fault Refusal := .next (unlockExpiryOp s)

end Sys2Proof.Machine
end

