-- ==== Sys2Proof/Machine/Power.lean ====
section
/-!
DEFINITION. Power and temperature: sensor samples, power sums, operating points, region warnings, gating, DEEP, the
SMBus slave (R472-R485).
-/
namespace Sys2Proof.Machine

/-! ### Pins (R518) -/

/-- FATAL# is low. -/
def State.fatalPin (s : State) : Bool := s.onF rFatalValid

/-- THERM# is low: a sensor of some die reads 115 °C or more (R519). -/
def State.thermPin (s : State) : Bool := s.pwr.hot115 != 0

/-! ### Temperature (R475-R477) -/

/-- The hottest of a die's sensors. -/
def hottest (l : List (BitVec 8)) : Nat := (l.map BitVec.toNat).foldl max 0

/-- The number of the first sensor at the hottest reading. -/
def hottestAt (l : List (BitVec 8)) : Nat := (l.map BitVec.toNat).findIdx (· == hottest l)

/-- A sample of a die's sensors: registers and THERM#; the pause requests follow from the registers (`wantsPause`). A die
that comes to 110 °C raises DIE_TEMP (R475-R477, R493, R519). -/
def temperatureSampleOp (d : Nat) (l : List (BitVec 8)) (s : State) : State :=
  let old := s.getF (tpMax d)
  let m := hottest l
  let s := s.setF (tpMax d) m |>.setF (tpSensor d) (hottestAt l) |>.setF (tpBridge d) ((l.headD 0).toNat)
  let bit : BitVec 10 := 1#10 <<< d
  let s := { s with pwr := { s.pwr with hot115 := if 115 ≤ m then s.pwr.hot115 ||| bit else s.pwr.hot115 &&& ~~~bit } }
  if 110 ≤ m ∧ old < 110 then
    if d < 8 then s.fatal 0x07 d (hottestAt l) m .full (State.powerOffDie d) else s.fatal 0x07 d (hottestAt l) m .short id
  else s

/-- TEMPERATURE_SAMPLE (R476). -/
def execTemperatureSample (die : Nat) (sensors : List (BitVec 8)) (s : State) : Host.Outcome State Fault Refusal :=
  guarded (decide (die < 10) && decide (sensors.length = 16)) s (temperatureSampleOp die sensors s)

/-! ### Operating points (R472-R475) -/

/-- The clock plan of the armed pattern; POINT, MIN_POINT and HOLD_DUTY are equal in all of them (R473). -/
def State.clockPlan (s : State) : Option ClockPlan := s.pat.clocks.head?.map (·.2)

/-- HOLD_DUTY in percent. -/
def ClockPlan.duty (c : ClockPlan) : Nat := if c.holdDuty = 0 then 25 else c.holdDuty

/-- Whether held time exceeded HOLD_DUTY percent of the preceding 10 ms, which are 500,000 ticks. -/
def State.heldTooLong (s : State) (duty : Nat) : Bool :=
  match (s.pwr.heldLog.filter fun e => decide (e.1 + 500000 ≤ s.tick)).getLast? with
  | some (t, n) => decide (duty * (s.tick - t) < 100 * (s.pwr.heldTotal - n))
  | none => false

/-- Whether the point may rise: average power at most 90 % of the effective cap, every sensor at least 5 °C below
T_RESUME. -/
def State.mayRise (s : State) : Bool :=
  decide (10 * s.getF wAvg10 ≤ 9 * s.getF wEffective) &&
    (List.range 10).all fun d => decide (s.getF (tpMax d) + 5 ≤ s.getF wTResume)

/-- The point that the control complex goes to, if it goes to another (R474): only while a repeatable-timing pattern is
armed. Point 0 is the fastest. -/
def State.nextPoint (s : State) : Option Nat :=
  match s.clockPlan with
  | none => none
  | some c =>
    let q := s.getF wPoint
    if !s.armed || s.exact then none
    else if s.heldTooLong c.duty && decide (q < c.minPoint) then some (q + 1)
    else if !s.heldTooLong c.duty && s.mayRise && decide (c.point < q) then some (q - 1)
    else none

/-- Held ticks are sampled; what is older than 10 ms goes, but for the newest of it. -/
def State.sampleHeld (s : State) : State :=
  let l := s.pwr.heldLog ++ [(s.tick, s.pwr.heldTotal)]
  let old := (l.filter fun e => decide (e.1 + 500000 ≤ s.tick)).getLast?
  let recent := l.filter fun e => decide (s.tick < e.1 + 500000)
  { s with pwr := { s.pwr with heldLog := old.toList ++ recent } }

/-- Sets VOUT_MV of a die to the READ_VOUT of its core rail; the reading is the board's, so it is free (log 1). -/
def readVout (d : Nat) (s : State) : State := (s.setF (tpVout d) (s.draw.toNat % 2 ^ 16)).used

/-- A sum of the regulators' power: the averages it leaves, and the operating point that is wanted after it (R474,
R475). -/
def powerSumOp (avg avg10 : BitVec 16) (s : State) : State :=
  let s := s.setF wAvg avg.toNat |>.setF wAvg10 avg10.toNat
  let s := (forAll (List.range 10) readVout s).sampleHeld
  let s := { s with pwr := { s.pwr with pointWant := s.nextPoint } }
  s.changePoint

/-- POWER_SUM (R475). -/
def execPowerSum (avg avg10 : BitVec 16) (s : State) : Host.Outcome State Fault Refusal := .next (powerSumOp avg avg10 s)

/-! ### Region warnings (R484, R485) -/

/-- An elastic buffer's occupancy changes: at 6 or 2 a warning asks every partition for a pause; at 3 to 5 the buffer is
calm from now on, if it was not before. -/
def regionWarningOp (i occ : Nat) (s : State) : State :=
  if occ = 6 ∨ occ = 2 then
    let s := ((s.noteOcc i occ).setF (grWarn i) 1).incF (grWarnings i) 1
    forAll (List.range 8) (fun p t => if t.getF (ppState p) = 0 then t else t.modPart p fun x => { x with regionWarn := true }) s
  else if 3 ≤ occ ∧ occ ≤ 5 then
    let was := s.getF (grOcc i)
    let s := s.noteOcc i occ
    if 3 ≤ was ∧ was ≤ 5 then s
    else { s with pwr := { s.pwr with calmFrom := tblPut (fun _ => 0) i s.tick s.pwr.calmFrom } }
  else s

/-- REGION_WARNING (R485). -/
def execRegionWarning (i occ : Nat) (s : State) : Host.Outcome State Fault Refusal :=
  guarded (decide (i < 10) && decide (occ < 8)) s (regionWarningOp i occ s)

/-! ### Gating (R478-R480) -/

/-- Whether a core and its stop are quiescent: every queue waits or has ended, and nothing is in flight. -/
def State.coreQuiet (s : State) (lid : Nat) : Bool :=
  let c := s.core lid
  let t := s.stop lid
  allQueues.all (fun q => s.getF (qState lid q) != 1) && c.drains.isEmpty && c.moves.isEmpty && c.inbox.isEmpty &&
    c.deferred.isEmpty && c.phase.isNone && t.fifo.isEmpty && t.outbound.isEmpty && t.rx.isEmpty && t.arrivals.isEmpty &&
    t.ctrQ.isEmpty && t.releases.isEmpty

/-- Whether a die's rings and bridge hold nothing. -/
def State.dieQuiet (s : State) (d : Nat) : Bool :=
  let t := s.die d
  t.slots.isEmpty && t.fields.all (fun e => (e.2.bind fun f => s.fieldDue d e.1 f).isNone) && t.tap0.held == 0 &&
    t.tap1.held == 0 && decide (t.exported = 0) && !t.frozen

/-- Whether launches or traffic wait for a partition. -/
def State.traffic (s : State) (p : Nat) : Bool :=
  !(s.part p).buffered.isEmpty || !(s.part p).framed.isEmpty ||
    (s.partDies p).any fun d => (s.die d).tap0.held + (s.die d).tap1.held != 0

/-- Whether a partition is quiescent (R480). Notices packed for a link, whose partition is not kept, count for every
one. -/
def State.quiescent (s : State) (p : Nat) : Bool :=
  let t := s.part p
  s.getF (ppState p) == 1 && s.getF pPattern == 4 && s.getF (pkState p) == 0 && t.hold.isNone && !t.gated && !t.patchDue &&
    t.patchLeft.isEmpty && t.faults.isEmpty && !s.traffic p && !s.hbmBusy p && s.net.pack.isEmpty &&
    (s.partCores p).all s.coreQuiet && (s.partDies p).all s.dieQuiet && s.acks.all fun a => s.owner a.1 != some p

/-- IDLE_TICKS of a partition; 0 is never (R473). -/
def State.idleTicks (s : State) (p : Nat) : Nat :=
  match s.pat.clocks.find? fun c => c.1 == p with
  | some c => c.2.idleTicks
  | none => 0

/-- The bits of a partition's dies in a die mask. -/
def State.dieMask (s : State) (p : Nat) : Nat := ((s.partDies p).map fun d => 2 ^ d).sum

/-- A partition that has stayed quiescent for IDLE_TICKS is gated (R480). -/
def partitionGateOp (p : Nat) (s : State) : State :=
  if s.idleTicks p != 0 && s.quiescent p && decide (s.idleTicks p ≤ (s.part p).quietTicks) then
    let s := s.setF wGated (s.getF wGated ||| s.dieMask p)
    (s.modPart p fun t => { t with gated := true }).changePoint
  else s

/-- PARTITION_GATE (R480). -/
def execPartitionGate (part : Nat) (s : State) : Host.Outcome State Fault Refusal :=
  guarded (decide (part < 8)) s (partitionGateOp part s)

/-- Traffic wakes a gated partition, and is delivered once its clocks run (R480). -/
def partitionWakeOp (p : Nat) (s : State) : State :=
  if (s.part p).gated && s.traffic p then
    let s := s.setF wGated (s.getF wGated &&& (255 - s.dieMask p))
    (s.modPart p fun t => { t with gated := false }).releaseBuffered p
  else s

/-- PARTITION_WAKE (R480). -/
def execPartitionWake (part : Nat) (s : State) : Host.Outcome State Fault Refusal :=
  guarded (decide (part < 8)) s (partitionWakeOp part s)

/-! ### DEEP (R481) -/

/-- DEEP_DELAY seconds after bring-up or the last DISARM, with no pattern armed and no fatal condition, the package goes
to DEEP: every compute die is OFF. -/
def deepEntryOp (s : State) : State :=
  let delay := s.getF wDeepDelay
  if s.getF pPattern == 0 && s.getF sHeat == 9 && !s.onF sFatal && !s.onF wDeep && delay != 0 &&
      decide (s.pwr.idleFrom + 50000000 * delay ≤ s.tick) then
    forAll (List.range 8) State.powerOffDie (s.setF wDeep 1)
  else s

/-- DEEP_ENTRY (R481). -/
def execDeepEntry (s : State) : Host.Outcome State Fault Refusal := .next (deepEntryOp s)

/-! ### The SMBus slave (R483) -/

/-- Whether a partition is ACTIVE: it is there and not gated. -/
def State.anyActive (s : State) : Bool := (List.range 8).any fun p => s.getF (ppState p) != 0 && !(s.part p).gated

/-- SYS_STATE [8:0], DEEP, any partition ACTIVE. -/
def State.smbusState (s : State) : Nat :=
  bitsOf (s.reg64 0x10) 0 9 + 2 ^ 9 * s.getF wDeep + 2 ^ 10 * s.anyActive.toNat

/-- A word, as SMBus sends it. -/
def State.answerWord (n : Nat) (s : State) : State := s.emit (.smbus (natLe 2 n))

/-- READ_STATE. -/
def readStateOp (s : State) : State := s.managed fun s => s.answerWord s.smbusState

/-- READ_STATE (R483). -/
def execReadState (s : State) : Host.Outcome State Fault Refusal := .next (readStateOp s)

/-- READ_POWER. -/
def readPowerOp (s : State) : State := s.managed fun s => s.answerWord (s.getF wAvg)

/-- READ_POWER (R483). -/
def execReadPower (s : State) : Host.Outcome State Fault Refusal := .next (readPowerOp s)

/-- READ_TEMP: the hottest die sensor. -/
def readTempOp (s : State) : State :=
  s.managed fun s => s.emit (.smbus (natLe 1 (((List.range 10).map fun d => s.getF (tpMax d)).foldl max 0)))

/-- READ_TEMP (R483). -/
def execReadTemp (s : State) : Host.Outcome State Fault Refusal := .next (readTempOp s)

/-- READ_HBM_TEMP: the hottest stack. -/
def readHbmTempOp (s : State) : State :=
  s.managed fun s => s.emit (.smbus (natLe 1 (((List.range 6).map fun c => s.getF (bTemp c)).foldl max 0)))

/-- READ_HBM_TEMP (R483). -/
def execReadHbmTemp (s : State) : Host.Outcome State Fault Refusal := .next (readHbmTempOp s)

/-- CAP: a read answers BMC_CAP; a write outside 800 to 1,500 or with a wrong PEC is NACKed. -/
def capOp (write : Option (BitVec 16)) (pecOk : Bool) (s : State) : State :=
  s.managed fun s =>
    match write with
    | none => s.answerWord (s.getF wBmcCap)
    | some v =>
      if pecOk && decide (800 ≤ v.toNat) && decide (v.toNat ≤ 1500) then
        ((s.setF wBmcCap v.toNat).effectCap).emit .smbusAck
      else s.emit .smbusNack

/-- CAP (R483). -/
def execCap (write : Option (BitVec 16)) (pecOk : Bool) (s : State) : Host.Outcome State Fault Refusal :=
  .next (capOp write pecOk s)

/-- READ_SERIAL. -/
def readSerialOp (s : State) : State := s.managed fun s => s.emit (.smbus (natLe 8 (s.getF sSerial)))

/-- READ_SERIAL (R483). -/
def execReadSerial (s : State) : Host.Outcome State Fault Refusal := .next (readSerialOp s)

/-- READ_FW. -/
def readFwOp (s : State) : State := s.managed fun s => s.emit (.smbus (natLe 2 (s.getF sFwMajor) ++ natLe 2 (s.getF sFwMinor)))

/-- READ_FW (R483). -/
def execReadFw (s : State) : Host.Outcome State Fault Refusal := .next (readFwOp s)

end Sys2Proof.Machine
end

