-- ==== Sys2Proof/Machine/VecLearn.lean ====
section
/-!
DEFINITION. Learning updates, register reads and random tensors of the vector engine (R128, R184-R187, R201).
-/
namespace Sys2Proof.Machine

/-- COUNT entries from a lace address are met; an uncorrectable one raises LACE_POISON (R67, R190). -/
def steerFault (s : State) (lid a n : Nat) : Bool := (rangeFrom a (a + n)).any (s.laceBad lid)

/-- The entries are read, and an uncorrectable one sets POISON in both status registers (R67, R188); the op then faults
with LACE_POISON, else goes on with `f`. -/
def steered (lid : Nat) (op : OpWord) (f : State → State) (s : State) : State :=
  let n := vCount op
  let t := s.vecReadsLace lid (vLace op) n
  if steerFault s lid (vLace op) n then t.opFault lid .v fLacePoison else (f t).vecEnd lid

/-- A vector op with lace entries: its checks, then the entries, then `f`. -/
def vecSteered (lid : Nat) (op : OpWord) (checks : List (Bool × Nat)) (f : State → State) (s : State) : State :=
  match firstFault checks with
  | some c => s.opFault lid .v c
  | none => steered lid op f s

/-- Entry `k` of a table of s32 at tile address `a`. -/
def diffAt (s : State) (lid a k : Nat) : Int := (BitVec.ofNat 32 (s.rdNat lid .tile (a + 4 * k) 4)).toInt

/-! ### VEC.PAIRCNT (R184) -/

/-- The two bit positions of pair `k` (R184). -/
def pairBitsAt (s : State) (lid : Nat) (op : OpWord) (k : Nat) : Nat × Nat :=
  let w := s.rdNat lid .tile (vTile op + 4 * k) 4
  (w % 2 ^ 16, w / 2 ^ 16)

/-- First byte, distance and number of the sample rows (R184). -/
def sampleRows (s : State) (lid : Nat) (op : OpWord) : Nat × Nat × Nat :=
  ((s.pairBits lid (vB op) 0).toNat, (s.lane lid (vB op) 2).toNat, bitsOf op 100 11 + 1)

/-- Bit `b` of the sample row at `a`. -/
def sampleBit (s : State) (lid a b : Nat) : Bool := (s.rdNat lid .tile (a + b / 8) 1).testBit (b % 8)

/-- The samples in which both bits are 1. -/
def pairCount (s : State) (lid : Nat) (op : OpWord) (k : Nat) : Nat :=
  let r := sampleRows s lid op
  let p := pairBitsAt s lid op k
  ((List.range r.2.2).filter fun m => sampleBit s lid (r.1 + m * r.2.1) p.1 && sampleBit s lid (r.1 + m * r.2.1) p.2).length

/-- Bytes of a sample row that the table reaches. -/
def rowReach (s : State) (lid : Nat) (op : OpWord) : Nat :=
  (List.range (vCount op)).foldl (fun m k => max m (max (pairBitsAt s lid op k).1 (pairBitsAt s lid op k).2 / 8 + 1)) 0

/-- Address of the difference array (R184, R186). -/
def diffBase (op : OpWord) : Nat := vTile op + 64 * bitsOf op 87 13

/-- The checks of VEC.PAIRCNT (R190). -/
def paircntChecks (s : State) (lid : Nat) (op : OpWord) : List (Bool × Nat) :=
  let n := vCount op
  let r := sampleRows s lid op
  laceChecks (vLace op) n ++ tileChecks (vTile op) (4 * n) ++ [(decide (0x80000 < diffBase op + 4 * n), fVecRange),
    (decide (0x80000 < r.1 + (r.2.2 - 1) * r.2.1 + rowReach s lid op), fVecRange)]

/-- Adds a count to entry `k` of the difference array, as every integer sum does: clamped to s32, INT_SAT set when it was
(R28, R188). -/
def addDiff (lid a k : Nat) (x : Int) (s : State) : State :=
  let v := diffAt s lid a k + x
  (s.wr lid .tile (a + 4 * k) (natLe 4 (BitVec.ofInt 32 (satS 32 v)).toNat)).flagIf (cIntSat lid) (decide (satS 32 v ≠ v))

/-- The counts of VEC.PAIRCNT are formed from the samples before any difference is written (R184). -/
def paircntBody (lid : Nat) (op : OpWord) (s : State) : State :=
  let n := vCount op
  let r := sampleRows s lid op
  let t := (s.vecReads lid (vTile op) (4 * n)).vecReads lid (diffBase op) (4 * n)
  let t := forAll (List.range r.2.2) (fun m u => u.vecReads lid (r.1 + m * r.2.1) (rowReach s lid op)) t
  forAll (List.range n) (fun k u =>
    let c : Int := pairCount s lid op k
    addDiff lid (diffBase op) k (if bitOf op 112 then -c else c) u) t

/-- VEC.PAIRCNT (R184). -/
def vecPaircntOp (lid : Nat) (s : State) : State :=
  s.vecOp lid 0x71 [fVB, fTADDR, fLADDR, fCOUNT, (87, 13), (100, 11), (112, 1)] fun op t =>
    vecSteered lid op (paircntChecks t lid op) (paircntBody lid op) t

/-- VEC_PAIRCNT (R184). -/
def execVecPaircnt (lid : Nat) (s : State) : Host.Outcome State Fault Refusal :=
  guarded (decide (lid < 2048)) s (vecPaircntOp lid s)

/-! ### VEC.WUPD (R128, R185) -/

/-- Q of an update: fraction bits rounded away. -/
def vQ (op : OpWord) : Nat := bitsOf op 81 6

/-- Address of the key table: the first multiple of 64 at or after the end of the difference array (R185). -/
def keyBase (op : OpWord) : Nat := roundUp (vTile op + 4 * vCount op) 64

/-- The change of entry `k` (R128, R185). -/
def wupdChange (s : State) (lid : Nat) (op : OpWord) (k : Nat) : Int :=
  let d := diffAt s lid (vTile op) k
  if vQ op = 0 then d
  else
    let m := s.rdNat lid .tile (keyBase op + 8 * k) 4
    let n := s.rdNat lid .tile (keyBase op + 8 * k + 4) 4
    rnd d (vQ op) true 4 (pairDraw (s.seedOf lid) 0x07 m n (s.keySweep lid) / 2 ^ 12)

/-- Rewrites entry `k`: its weight with the change, target and last-entry bits unchanged (R185). -/
def wupdEntry (s : State) (lid : Nat) (op : OpWord) (k : Nat) (t : State) : State :=
  if diffAt s lid (vTile op) k = 0 then t
  else
    let e := s.lace lid (vLace op + k)
    let w := sbitsOf e 1 16 + wupdChange s lid op k
    let v : W32 := BitVec.ofNat 32 (bitsOf e 17 15 * 2 ^ 17 + (BitVec.ofInt 16 (satS 16 w)).toNat * 2 + bitsOf e 0 1)
    (t.setLace lid (vLace op + k) v).flagIf (cWsat lid) (decide (satS 16 w ≠ w))

/-- VEC.WUPD writes its entries; with Q it draws one PAIR block an entry (R185, R200). -/
def wupdBody (lid : Nat) (op : OpWord) (s : State) : State :=
  let n := vCount op
  let t := (s.vecReads lid (vTile op) (4 * n)).vecReads lid (keyBase op) (8 * n)
  (forAll (List.range n) (wupdEntry s lid op) t).blocks lid (if vQ op = 0 then 0 else n)

/-- VEC.WUPD (R185). -/
def vecWupdOp (lid : Nat) (s : State) : State :=
  s.vecOp lid 0x72 [fTADDR, fLADDR, fCOUNT, (81, 6)] fun op t =>
    vecSteered lid op (laceChecks (vLace op) (vCount op) ++ tileChecks (vTile op) (4 * vCount op) ++
      [(decide (0x80000 < keyBase op + 8 * vCount op), fVecRange)]) (wupdBody lid op) t

/-- VEC_WUPD (R185). -/
def execVecWupd (lid : Nat) (s : State) : Host.Outcome State Fault Refusal :=
  guarded (decide (lid < 2048)) s (vecWupdOp lid s)

/-! ### VEC.TUPD (R186) -/

/-- The element index of weight `k` (R186). -/
def tupdIndex (s : State) (lid : Nat) (op : OpWord) (k : Nat) : Nat := ((s.lane lid (vB op) 0).toNat + k) % 2 ^ 32

/-- Updates weight `k` (R186). -/
def tupdOne (lid : Nat) (op : OpWord) (k : Nat) (s : State) : State :=
  let b := fmtBytes (vFmt op)
  let d := diffAt s lid (diffBase op) k
  let c := if vQ op = 0 then d else
    rnd d (vQ op) true 4 (elementDraw (s.seedOf lid) 0x07 (tupdIndex s lid op k) (s.keySweep lid) 0 / 2 ^ 12)
  if d = 0 then s
  else
    let w := intElem (vFmt op) (s.rd lid .tile (vTile op + b * k) b) + c
    (s.wr lid .tile (vTile op + b * k) (natLe b (BitVec.ofInt 32 (satS (8 * b) w)).toNat)).flagIf (cWsat lid) (decide (satS (8 * b) w ≠ w))

/-- VEC.TUPD (R186). -/
def vecTupdOp (lid : Nat) (s : State) : State :=
  s.vecOp lid 0x73 [fVB, fTADDR, fCOUNT, fFMT, (87, 13), (81, 6)] fun op t =>
    let n := vCount op
    let b := fmtBytes (vFmt op)
    let bad := firstFault ([(decide (vFmt op ≠ 0 ∧ vFmt op ≠ 5 ∧ vFmt op ≠ 6), fVecOperand)] ++ tileChecks (vTile op) (n * b) ++
      [(decide (0x80000 < diffBase op + 4 * n), fVecRange)])
    t.vecRun lid bad fun t =>
      let octets := if vQ op = 0 then 0 else elementBlocks ((List.range n).map (tupdIndex t lid op))
      (forAll (List.range n) (tupdOne lid op) ((t.vecReads lid (vTile op) (n * b)).vecReads lid (diffBase op) (4 * n))).blocks lid octets

/-- VEC_TUPD (R186). -/
def execVecTupd (lid : Nat) (s : State) : Host.Outcome State Fault Refusal :=
  guarded (decide (lid < 2048)) s (vecTupdOp lid s)

/-! ### VEC.CREG (R187) -/

/-- Whether the 8-byte word at core page offset `o` lies in a range that VEC.CREG may read (R187). -/
def cregAllowed (o : Nat) : Bool :=
  [(0x200, 0x2A0), (0x300, 0x3A0), (0x400, 0x410), (0x500, 0x528), (0x600, 0x618), (0xB00, 0xB08), (0xE00, 0xE20)].any fun r =>
    decide (r.1 ≤ o) && decide (o + 8 ≤ r.2)

/-- Reads one word into a lane pair: RC fields are cleared, with CLEAR every W1C bit too (R187, R401). -/
def cregWord (lid d : Nat) (clear : Bool) (o p : Nat) (s : State) : State :=
  let a := corePage lid + o
  let fs := accessFields coreRegs a 8
  let v := s.readVal a 8
  let s := s.clearRc fs
  let s := if clear then s.plainWrite (fs.filter fun f => f.2 == .w1c) a (BitVec.allOnes 64) else s
  s.setPairBits lid d p v

/-- VEC.CREG (R187). -/
def vecCregOp (lid : Nat) (s : State) : State :=
  s.vecOp lid 0x75 [fVD, fCOUNT, (81, 12), (112, 1)] fun op t =>
    let o := bitsOf op 81 12
    let n := vCount op
    let bad := firstFault ([(decide (o % 8 ≠ 0), fVecOperand), (decide (32 < n), fVecOperand)] ++ runChecks op ++
      [(!(List.range n).all fun k => cregAllowed (o + 8 * k), fVecOperand)])
    t.vecRun lid bad fun t => forAll (List.range n) (fun k u => cregWord lid (vD op) (bitOf op 112) (o + 8 * k) k u) t

/-- VEC_CREG (R187). -/
def execVecCreg (lid : Nat) (s : State) : Host.Outcome State Fault Refusal :=
  guarded (decide (lid < 2048)) s (vecCregOp lid s)

/-! ### PIC.FILL (R201) -/

/-- PIC.FILL writes uniforms of a purpose and draw index to tile memory (R201). -/
def picFillOp (lid : Nat) (s : State) : State :=
  s.vecOp lid 0x74 [fVB, fTADDR, fCOUNT, (81, 24)] fun op t =>
    let n := vCount op
    let p := bitsOf op 81 8
    let bad := firstFault ([(decide (p ≠ 8 ∧ p ≠ 9), fVecOperand)] ++ tileChecks (vTile op) (2 * n))
    t.vecRun lid bad fun t =>
      let es := (List.range n).map (tupdIndex t lid op)
      let bs := es.flatMap fun e => natLe 2 (elementDraw (t.seedOf lid) p e (t.keySweep lid) (bitsOf op 89 16))
      (t.wr lid .tile (vTile op) bs).blocks lid (elementBlocks es)

/-- PIC_FILL (R201). -/
def execPicFill (lid : Nat) (s : State) : Host.Outcome State Fault Refusal :=
  guarded (decide (lid < 2048)) s (picFillOp lid s)

end Sys2Proof.Machine
end

