-- ==== Sys2Proof/Machine/VecRun.lean ====
section
/-!
DEFINITION. Energies, replica exchange and the best-k list (R114-R118, R123, R124, R178-R183).
-/
namespace Sys2Proof.Machine

/-! ### Energy (R117, R118, R178, R179) -/

/-- The term of unit `i` in the energy partial of replica `r` (R117). -/
def energyTerm (s : State) (lid r i : Nat) : Int :=
  if s.modelIndex lid i = 0xFFFFFFFF then 0
  else if s.unitState lid r i then s.bias lid i + s.field lid r i
  else 0

/-- The lace words that an energy partial reads. -/
def energyWords (s : State) (lid r : Nat) : List Nat :=
  (List.range (s.units lid)).map (s.fieldAt lid r) ++ (List.range (ceilDiv (s.units lid) 32)).map (s.stateAt lid r)

/-- The checks of VEC.ENERGY: a replica of the core, tables and planes inside their memories (R190). -/
def energyChecks (s : State) (lid r : Nat) : List (Bool × Nat) :=
  [(decide (s.replicas lid ≤ r), fVecRange),
   (decide (0x80000 < s.getF (cTables lid) + 4 * s.unitsUp lid + 4 * s.units lid), fVecRange),
   (decide (0x40000 < s.replBase lid r + s.unitsUp lid + s.unitsUp lid / 32), fVecRange)]

/-- VEC.ENERGY (R117, R178). -/
def vecEnergyOp (lid : Nat) (s : State) : State :=
  s.vecOp lid 0x6C [fVD, (71, 4)] fun op t =>
    let r := vReplica op
    let u := t.units lid
    t.vecRun lid (firstFault (energyChecks t lid r)) fun t =>
      let ws := energyWords t lid r
      let tb := t.getF (cTables lid)
      let bad := ws.any (t.laceBad lid) || t.rdBad lid .tile tb (4 * u) || t.rdBad lid .tile (tb + 4 * t.unitsUp lid) (4 * u)
      let sum := ((List.range u).map (energyTerm t lid r)).sum
      let flags := (Nat.testBit (t.getF (cSatMask lid)) r).toNat + 2 ^ 21 * (Nat.testBit (t.getF (cConflictMask lid)) r).toNat
        + 2 ^ 42 * bad.toNat
      let t := forAll ws (fun w v => v.noteLace lid w) t
      let t := ((t.noteRead lid .tile tb (4 * u)).noteRead lid .tile (tb + 4 * t.unitsUp lid) (4 * u)).flagIf (cVecPoison lid) bad
      (t.setPair lid (vD op) 0 sum).setPairBits lid (vD op) 1 (BitVec.ofNat 64 flags)

/-- VEC_ENERGY (R178). -/
def execVecEnergy (lid : Nat) (s : State) : Host.Outcome State Fault Refusal :=
  guarded (decide (lid < 2048)) s (vecEnergyOp lid s)

/-- The RFLAGS word of a total of flag words and of an odd total (R121, R179). -/
def rflags (w : W64) (odd : Bool) : Nat :=
  (decide (bitsOf w 0 21 ≠ 0)).toNat + 2 * (decide (bitsOf w 21 21 ≠ 0)).toNat + 4 * (decide (bitsOf w 42 21 ≠ 0)).toNat + 8 * odd.toNat

/-- One replica of VEC.EFIN: its energy and its flag word. -/
def efinOne (lid d r : Nat) (p : Int) (w : W64) (s : State) : State :=
  let odd := decide (p % 2 ≠ 0)
  (s.setPair lid d (2 * r) (Int.tdiv (-p) 2)).setPairBits lid d (2 * r + 1) (BitVec.ofNat 64 (rflags w odd))
    |>.flagIf (cEnergyOdd lid) odd

/-- VEC.EFIN (R118, R179). -/
def vecEfinOp (lid : Nat) (s : State) : State :=
  s.vecOp lid 0x6D [fVD, fVA] fun op t =>
    t.vecRun lid none fun t =>
      forAll (List.range (t.replicas lid)) (fun r u => efinOne lid (vD op) r (t.pair lid (vA op) (2 * r)) (t.pairBits lid (vA op) (2 * r + 1)) u) t

/-- VEC_EFIN (R179). -/
def execVecEfin (lid : Nat) (s : State) : Host.Outcome State Fault Refusal :=
  guarded (decide (lid < 2048)) s (vecEfinOp lid s)

/-! ### Replica exchange (R114-R116, R180, R181) -/

/-- The lower replicas of the pairs of exchange number `e` among `r` replicas (R114). -/
def exchangePairs (e r : Nat) : List Nat :=
  (List.range r).filter fun a => decide (a % 2 = (if e % 2 = 1 then 0 else 1)) && decide (a + 1 < r)

/-- Whether a pair is accepted (R180). -/
def acceptPair (ba bb : Nat) (ea eb : Int) (u : Nat) : Bool :=
  let x : Int := ((ba : Int) - bb) * (ea - eb)
  if 0 ≤ x then true else decide (u < actVal metroEntry x)

/-- Whether a replica's flag word rejects its pairs: SAT, POISON or ODD (R124, R180). -/
def flagsReject (w : W64) : Bool := bitOf w 0 || bitOf w 2 || bitOf w 3

/-- The decision for the pair (a, a + 1) (R180). -/
def decidePair (s : State) (lid va a : Nat) : Bool :=
  !flagsReject (s.pairBits lid va (2 * a + 1)) && !flagsReject (s.pairBits lid va (2 * a + 3)) &&
    acceptPair (s.getF (cBeta lid a)) (s.getF (cBeta lid (a + 1))) (s.pair lid va (2 * a)) (s.pair lid va (2 * a + 2))
      (unitDraw (s.seedOf lid) 0x04 a (s.keySweep lid) 0 0)

/-- A mask with the listed bits. -/
def maskOf (l : List Nat) : Nat := (l.map (2 ^ ·)).sum

/-- The pairs of an exchange that draw: those that no flag rejects (R180). -/
def drawingPairs (s : State) (lid va : Nat) (ps : List Nat) : List Nat :=
  ps.filter fun a => !flagsReject (s.pairBits lid va (2 * a + 1)) && !flagsReject (s.pairBits lid va (2 * a + 3))

/-- The blocks of an exchange: none where no pair draws, at least one for each octet of replica numbers drawn from, at
most one for each draw; which of these is free (R196, R198; log 33). -/
def exchangeBlocks (ds : List Nat) (v : W64) : Nat :=
  let n := (distinct (ds.map (· / 8))).length
  n + v.toNat % (ds.length - n + 1)

/-- VEC.XCHG (R114, R180). -/
def vecXchgOp (lid : Nat) (s : State) : State :=
  s.vecOp lid 0x6E [fVD, fVA, (81, 10)] fun op t =>
    let i := bitsOf op 81 10
    t.vecRun lid (if i = 0 then some fVecOperand else none) fun t =>
      let ps := exchangePairs (t.getF (cCurve lid) / i) (t.replicas lid)
      let acc := ps.filter (decidePair t lid (vA op))
      ((t.setLane lid (vD op) 0 (BitVec.ofNat 32 (maskOf acc))).setLane lid (vD op) 1 (BitVec.ofNat 32 (maskOf ps))
        |>.incF (cXacc lid) acc.length |>.blocks lid (exchangeBlocks (drawingPairs t lid (vA op) ps) t.draw))

/-- VEC_XCHG (R180). -/
def execVecXchg (lid : Nat) (s : State) : Host.Outcome State Fault Refusal :=
  guarded (decide (lid < 2048)) s (vecXchgOp lid s)

/-- Writes two lace words back, exchanged or unchanged: the bits as read, by full-word writes, which clear a poison (R67,
R181, R352; log 30). -/
def swapWord (lid : Nat) (exchange : Bool) (x y : Nat) (s : State) : State :=
  (s.setLace lid x (s.lace lid (if exchange then y else x))).setLace lid y (s.lace lid (if exchange then x else y))

/-- One pair of VEC.SWAP: read and written back, exchanged when accepted (R181). -/
def swapPair (lid a : Nat) (exchange : Bool) (s : State) : State :=
  let n := s.unitsUp lid + s.unitsUp lid / 32
  let x := s.replBase lid a
  let y := s.replBase lid (a + 1)
  forAll (List.range n) (fun k t => swapWord lid exchange (x + k) (y + k) t) ((s.vecReadsLace lid x n).vecReadsLace lid y n)

/-- The checks of VEC.SWAP (R167, R181, R190). -/
def swapChecks (s : State) (lid acc step : Nat) : List (Bool × Nat) :=
  let n := s.unitsUp lid + s.unitsUp lid / 32
  let rs := (maskReplicas' step).flatMap fun a => [a, a + 1]
  [((maskReplicas' acc).any fun a => !step.testBit a, fVecOperand),
   ((maskReplicas' step).any fun a => decide (s.replicas lid ≤ a + 1), fVecOperand),
   (rs.any fun r => decide (0x40000 < s.replBase lid r + n), fVecRange),
   (rs.any fun r => s.overlapsPhase lid (s.replBase lid r) (s.replBase lid r + n), fSuaOverlap)]
where
  /-- The bits set in a 16-bit mask. -/
  maskReplicas' (m : Nat) : List Nat := (List.range 16).filter m.testBit

/-- VEC.SWAP (R181). -/
def vecSwapOp (lid : Nat) (s : State) : State :=
  s.vecOp lid 0x6F [fVA] fun op t =>
    let acc := bitsOf (t.lane lid (vA op) 0) 0 16
    let step := bitsOf (t.lane lid (vA op) 1) 0 16
    t.vecRun lid (firstFault (swapChecks t lid acc step)) fun t =>
      forAll ((List.range 16).filter step.testBit) (fun a u => swapPair lid a (acc.testBit a) u) t

/-- VEC_SWAP (R181). -/
def execVecSwap (lid : Nat) (s : State) : Host.Outcome State Fault Refusal :=
  guarded (decide (lid < 2048)) s (vecSwapOp lid s)

/-! ### The best-k list (R123, R124, R182, R183) -/

/-- Issues a form of VEC.BESTK, told by CLEAR and EMIT (R183, R525). -/
def bestkOp (lid : Nat) (clear emit : Bool) (fields : List (Nat × Nat)) (f : OpWord → State → State) (s : State) : State :=
  s.issueOp lid .v (fun op => opOpcode op == 0x70 && bitOf op 112 == clear && (clear || bitOf op 113 == emit)) fun op t =>
    if opReserved fields op then t.opFault lid .v fVecOperand else f op t

/-- The core's best-k list lies where its last VEC.BESTK found it (R182, R290). -/
def listAt (lid l : Nat) (s : State) : State := s.modCore lid fun c => { c with bestkAt := some l }

/-- VEC.BESTK with CLEAR: every slot is cleared (R183). -/
def bestkClearOp (lid : Nat) (s : State) : State :=
  bestkOp lid true false [fTADDR, (112, 1)] (fun op t =>
    t.vecRun lid (firstFault (tileChecks (vTile op) 1024)) fun t =>
      (listAt lid (vTile op) t).wr lid .tile (vTile op) (List.replicate 1024 0)) s

/-- VEC_BESTK_CLEAR (R183). -/
def execVecBestkClear (lid : Nat) (s : State) : Host.Outcome State Fault Refusal :=
  guarded (decide (lid < 2048)) s (bestkClearOp lid s)

/-- Energy of slot `k` of the list at `l` (R123). -/
def slotEnergy (s : State) (lid l k : Nat) : Int := (BitVec.ofNat 64 (s.rdNat lid .tile (l + 32 * k) 8)).toInt

/-- Candidate index of slot `k` (R182). -/
def slotIndex (s : State) (lid l k : Nat) : Nat := s.rdNat lid .tile (l + 32 * k + 24) 4

/-- Whether slot `k` is used (R182). -/
def slotUsed (s : State) (lid l k : Nat) : Bool := (s.rdNat lid .tile (l + 32 * k + 28) 1).testBit 0

/-- Whether slot `a` comes after slot `b`: a higher energy, or the same and a higher index (R123, R124). -/
def slotAfter (s : State) (lid l a b : Nat) : Bool :=
  decide (slotEnergy s lid l b < slotEnergy s lid l a) ||
    (decide (slotEnergy s lid l a = slotEnergy s lid l b) && decide (slotIndex s lid l b < slotIndex s lid l a))

/-- The slot that a candidate of energy `e` takes, if it is admitted (R124). -/
def admitSlot (s : State) (lid l k : Nat) (e : Int) : Option Nat :=
  match (List.range k).find? fun j => !slotUsed s lid l j with
  | some j => some j
  | none =>
    let worst := (List.range k).foldl (fun w j => if slotAfter s lid l j w then j else w) 0
    if e < slotEnergy s lid l worst then some worst else none

/-- Writes an admitted candidate into its slot; STATE_OFFSET is left for EMIT (R123, R182, R183). -/
def writeSlot (lid l j r : Nat) (e : Int) (conflict deadline : Bool) (s : State) : State :=
  let restart := s.getF (cRestart lid)
  let head := natLe 8 (BitVec.ofInt 64 e).toNat ++ natLe 4 (s.getF (cCurve lid)) ++ natLe 2 restart ++
    [BitVec.ofNat 8 r, BitVec.ofNat 8 (4 * conflict.toNat + 8 * deadline.toNat)]
  (s.wr lid .tile (l + 32 * j) head).wr lid .tile (l + 32 * j + 24) (natLe 8 (2 ^ 32 + restart * 16 + r))

/-- The candidate of replica `r` (R124, R183). -/
def admitOne (lid : Nat) (op : OpWord) (r : Nat) (e : Int) (w : W64) (s : State) : State :=
  let l := vTile op
  if flagsReject w then s.setLane lid (vD op) r 0
  else
    match admitSlot s lid l (bitsOf op 81 10) e with
    | some j => (writeSlot lid l j r e (bitOf w 1) (bitOf op 114) s).setLane lid (vD op) r (BitVec.ofNat 32 (j + 1))
    | none => s.setLane lid (vD op) r 0

/-- K of VEC.BESTK must be 1 to 32 (R183, R190). -/
def bestkChecks (op : OpWord) (n : Nat) : List (Bool × Nat) :=
  [(decide (bitsOf op 81 10 = 0 ∨ 32 < bitsOf op 81 10), fVecBestk)] ++ tileChecks (vTile op) n

/-- VEC.BESTK admission (R124, R183). -/
def bestkAdmitOp (lid : Nat) (s : State) : State :=
  bestkOp lid false false [fVD, fVA, fTADDR, (81, 10), (114, 1)] (fun op t =>
    t.vecRun lid (firstFault (bestkChecks op 1024)) fun t =>
      let k := bitsOf op 81 10
      forAll (List.range (t.replicas lid)) (fun r u =>
        admitOne lid op r (t.pair lid (vA op) (2 * r)) (t.pairBits lid (vA op) (2 * r + 1)) u) ((listAt lid (vTile op) t).vecReads lid (vTile op) (32 * k))) s

/-- VEC_BESTK_ADMIT (R183). -/
def execVecBestkAdmit (lid : Nat) (s : State) : Host.Outcome State Fault Refusal :=
  guarded (decide (lid < 2048)) s (bestkAdmitOp lid s)

/-- Inserts slot `j` in the order of R123. -/
def insertSlot (s : State) (lid l j : Nat) : List Nat → List Nat
  | [] => [j]
  | i :: t => if slotAfter s lid l j i then i :: insertSlot s lid l j t else j :: i :: t

/-- The used slots below `k` in ascending energy, equal energies in ascending index (R123). -/
def sortedSlots (s : State) (lid l k : Nat) : List Nat :=
  ((List.range k).filter (slotUsed s lid l)).foldl (fun acc j => insertSlot s lid l j acc) []

/-- The emitted entry of slot `j` (R123, R183). -/
def entryBytes (s : State) (lid : Nat) (op : OpWord) (j : Nat) : List Byte :=
  let base := (s.pairBits lid (vB op) 0).toNat
  let each := (s.lane lid (vB op) 2).toNat
  s.rd lid .tile (vTile op + 32 * j) 16 ++ natLe 8 (base + j * each) ++ natLe 8 0

/-- The entry of an empty slot at place `i`: ENERGY and STATE_OFFSET as R123 states, offset 0x18 zero; the rest is not
stated, but the same on every run (R280, R281): a value of the place alone (log 12). -/
def emptyEntry (i : Nat) : List Byte :=
  natLe 8 0x7FFFFFFFFFFFFFFF ++ natLe 8 (Config.emptyEntryWord i).toNat ++ natLe 16 0

/-- VEC.BESTK with EMIT (R123, R183). -/
def bestkEmitOp (lid : Nat) (s : State) : State :=
  bestkOp lid false true [fVB, fTADDR, (81, 10), (113, 1)] (fun op t =>
    let k := bitsOf op 81 10
    t.vecRun lid (firstFault (bestkChecks op (1024 + 32 * k))) fun t =>
      let js := sortedSlots t lid (vTile op) k
      let bs := js.flatMap (entryBytes t lid op) ++ (rangeFrom js.length k).flatMap emptyEntry
      ((listAt lid (vTile op) t).vecReads lid (vTile op) (32 * k)).wr lid .tile (vTile op + 1024) bs) s

/-- VEC_BESTK_EMIT (R183). -/
def execVecBestkEmit (lid : Nat) (s : State) : Host.Outcome State Fault Refusal :=
  guarded (decide (lid < 2048)) s (bestkEmitOp lid s)

end Sys2Proof.Machine
end

