-- ==== Sys2Proof/Machine/Dispatch.lean ====
section
/-!
DEFINITION. One arm per command: its meaning.
-/
namespace Sys2Proof.Machine

def exec (i : Instr) (s : State) : Host.Outcome State Fault Refusal :=
  match i with
  | .nop lid q => Sys2Proof.Machine.execNop lid q s
  | .ctrAdd lid q => Sys2Proof.Machine.execCtrAdd lid q s
  | .ctrSet lid q => Sys2Proof.Machine.execCtrSet lid q s
  | .ctrTake lid q => Sys2Proof.Machine.execCtrTake lid q s
  | .ctrLook lid q => Sys2Proof.Machine.execCtrLook lid q s
  | .ctrDec lid q => Sys2Proof.Machine.execCtrDec lid q s
  | .loop lid q => Sys2Proof.Machine.execLoop lid q s
  | .endloop lid q => Sys2Proof.Machine.execEndloop lid q s
  | .select lid q => Sys2Proof.Machine.execSelect lid q s
  | .halt lid q => Sys2Proof.Machine.execHalt lid q s
  | .barArrive lid q => Sys2Proof.Machine.execBarArrive lid q s
  | .xHbm lid => Sys2Proof.Machine.execXHbm lid s
  | .xSend lid => Sys2Proof.Machine.execXSend lid s
  | .xCopy lid => Sys2Proof.Machine.execXCopy lid s
  | .moveRetire lid mid => Sys2Proof.Machine.execMoveRetire lid mid s
  | .macTile lid => Sys2Proof.Machine.execMacTile lid s
  | .macMm lid => Sys2Proof.Machine.execMacMm lid s
  | .macDrain lid => Sys2Proof.Machine.execMacDrain lid s
  | .drainRead lid => Sys2Proof.Machine.execDrainRead lid s
  | .suaPhase lid => Sys2Proof.Machine.execSuaPhase lid s
  | .heldNoticeRelease lid => Sys2Proof.Machine.execHeldNoticeRelease lid s
  | .deferredUpdateApply lid => Sys2Proof.Machine.execDeferredUpdateApply lid s
  | .suaBeta lid => Sys2Proof.Machine.execSuaBeta lid s
  | .suaClamp lid => Sys2Proof.Machine.execSuaClamp lid s
  | .suaSnap lid => Sys2Proof.Machine.execSuaSnap lid s
  | .suaClrcount lid => Sys2Proof.Machine.execSuaClrcount lid s
  | .suaSweep lid => Sys2Proof.Machine.execSuaSweep lid s
  | .suaResult lid => Sys2Proof.Machine.execSuaResult lid s
  | .suaRestartReset lid => Sys2Proof.Machine.execSuaRestartReset lid s
  | .suaRestartReplay lid => Sys2Proof.Machine.execSuaRestartReplay lid s
  | .vecLdt lid => Sys2Proof.Machine.execVecLdt lid s
  | .vecLdl lid => Sys2Proof.Machine.execVecLdl lid s
  | .vecStt lid => Sys2Proof.Machine.execVecStt lid s
  | .vecStl lid => Sys2Proof.Machine.execVecStl lid s
  | .vecAlu lid => Sys2Proof.Machine.execVecAlu lid s
  | .vecFpu lid => Sys2Proof.Machine.execVecFpu lid s
  | .vecRsum lid => Sys2Proof.Machine.execVecRsum lid s
  | .vecRsumf lid => Sys2Proof.Machine.execVecRsumf lid s
  | .vecRmax lid => Sys2Proof.Machine.execVecRmax lid s
  | .vecRmin lid => Sys2Proof.Machine.execVecRmin lid s
  | .vecPsend lid => Sys2Proof.Machine.execVecPsend lid s
  | .vecPread lid => Sys2Proof.Machine.execVecPread lid s
  | .vecEnergy lid => Sys2Proof.Machine.execVecEnergy lid s
  | .vecEfin lid => Sys2Proof.Machine.execVecEfin lid s
  | .vecXchg lid => Sys2Proof.Machine.execVecXchg lid s
  | .vecSwap lid => Sys2Proof.Machine.execVecSwap lid s
  | .vecBestkClear lid => Sys2Proof.Machine.execVecBestkClear lid s
  | .vecBestkAdmit lid => Sys2Proof.Machine.execVecBestkAdmit lid s
  | .vecBestkEmit lid => Sys2Proof.Machine.execVecBestkEmit lid s
  | .vecPaircnt lid => Sys2Proof.Machine.execVecPaircnt lid s
  | .vecWupd lid => Sys2Proof.Machine.execVecWupd lid s
  | .vecTupd lid => Sys2Proof.Machine.execVecTupd lid s
  | .vecCreg lid => Sys2Proof.Machine.execVecCreg lid s
  | .picFill lid => Sys2Proof.Machine.execPicFill lid s
  | .flipNoticeReceive die pos ring slot => Sys2Proof.Machine.execFlipNoticeReceive die pos ring slot s
  | .noticeExport die ring slot => Sys2Proof.Machine.execNoticeExport die ring slot s
  | .partialReceive die pos ring slot drain => Sys2Proof.Machine.execPartialReceive die pos ring slot drain s
  | .counterMessage lid meet => Sys2Proof.Machine.execCounterMessage lid meet s
  | .sendFlitReceive die pos ring slot drain => Sys2Proof.Machine.execSendFlitReceive die pos ring slot drain s
  | .flitInject die who place ring slot => Sys2Proof.Machine.execFlitInject die who place ring slot s
  | .reservation die pos => Sys2Proof.Machine.execReservation die pos s
  | .dieCombine die meet => Sys2Proof.Machine.execDieCombine die meet s
  | .barrierRootComplete bid => Sys2Proof.Machine.execBarrierRootComplete bid s
  | .barrierReleaseApply lid come => Sys2Proof.Machine.execBarrierReleaseApply lid come s
  | .seedStage meet => Sys2Proof.Machine.execSeedStage meet s
  | .holdEnd part => Sys2Proof.Machine.execHoldEnd part s
  | .extraRefreshHold stack part => Sys2Proof.Machine.execExtraRefreshHold stack part s
  | .partitionStop part => Sys2Proof.Machine.execPartitionStop part s
  | .syncWatchdog lid q => Sys2Proof.Machine.execSyncWatchdog lid q s
  | .hostCounterAdd h n => Sys2Proof.Machine.execHostCounterAdd h n s
  | .hostTake h n => Sys2Proof.Machine.execHostTake h n s
  | .hostCounterPatternAdd h => Sys2Proof.Machine.execHostCounterPatternAdd h s
  | .hostWatchWrite w v => Sys2Proof.Machine.execHostWatchWrite w v s
  | .msixPendingSend vec => Sys2Proof.Machine.execMsixPendingSend vec s
  | .crcRefill u slot => Sys2Proof.Machine.execCrcRefill u slot s
  | .crcRelease u => Sys2Proof.Machine.execCrcRelease u s
  | .crcDrop u => Sys2Proof.Machine.execCrcDrop u s
  | .crcConfigWrite u off size v => Sys2Proof.Machine.execCrcConfigWrite u off size v s
  | .verify => Sys2Proof.Machine.execVerify s
  | .verifyComplete => Sys2Proof.Machine.execVerifyComplete s
  | .pour => Sys2Proof.Machine.execPour s
  | .sectionLanding idx => Sys2Proof.Machine.execSectionLanding idx s
  | .arming => Sys2Proof.Machine.execArming s
  | .disarm => Sys2Proof.Machine.execDisarm s
  | .patch => Sys2Proof.Machine.execPatch s
  | .partitionReset mask => Sys2Proof.Machine.execPartitionReset mask s
  | .resetComplete part => Sys2Proof.Machine.execResetComplete part s
  | .key => Sys2Proof.Machine.execKey s
  | .ckptSaveContinue part resultOnly => Sys2Proof.Machine.execCkptSaveContinue part resultOnly s
  | .ckptSaveHold part resultOnly => Sys2Proof.Machine.execCkptSaveHold part resultOnly s
  | .ckptHold part resultOnly => Sys2Proof.Machine.execCkptHold part resultOnly s
  | .ckptResume part => Sys2Proof.Machine.execCkptResume part s
  | .ckptRestore part => Sys2Proof.Machine.execCkptRestore part s
  | .ckptHashDone part => Sys2Proof.Machine.execCkptHashDone part s
  | .nextSeedWrite part high size v => Sys2Proof.Machine.execNextSeedWrite part high size v s
  | .seedDraw part => Sys2Proof.Machine.execSeedDraw part s
  | .seedFillDone part => Sys2Proof.Machine.execSeedFillDone part s
  | .entModeWrite mode => Sys2Proof.Machine.execEntModeWrite mode s
  | .entReseed => Sys2Proof.Machine.execEntReseed s
  | .entInstantiate => Sys2Proof.Machine.execEntInstantiate s
  | .entRandRead size high => Sys2Proof.Machine.execEntRandRead size high s
  | .entropyBlock r => Sys2Proof.Machine.execEntropyBlock r s
  | .drbgGenerate => Sys2Proof.Machine.execDrbgGenerate s
  | .hbmRequest arrive serve => Sys2Proof.Machine.execHbmRequest arrive serve s
  | .writeAck lid => Sys2Proof.Machine.execWriteAck lid s
  | .refpb p bank => Sys2Proof.Machine.execRefpb p bank s
  | .scrubAccess p => Sys2Proof.Machine.execScrubAccess p s
  | .sramScrub lid mem bank => Sys2Proof.Machine.execSramScrub lid mem bank s
  | .correctedWriteBack p => Sys2Proof.Machine.execCorrectedWriteBack p s
  | .rowRemapCopy p bank row => Sys2Proof.Machine.execRowRemapCopy p bank row s
  | .stackTemperatureRead c t => Sys2Proof.Machine.execStackTemperatureRead c t s
  | .lapOverdue who => Sys2Proof.Machine.execLapOverdue who s
  | .cxlmemRead addr len => Sys2Proof.Machine.execCxlmemRead addr len s
  | .cxlmemWrite addr data poison => Sys2Proof.Machine.execCxlmemWrite addr data poison s
  | .registerWrite dst size v => Sys2Proof.Machine.execRegisterWrite dst size v s
  | .rcRead src size => Sys2Proof.Machine.execRcRead src size s
  | .conventionalReset => Sys2Proof.Machine.execConventionalReset s
  | .functionLevelReset => Sys2Proof.Machine.execFunctionLevelReset s
  | .doeDiscovery index => Sys2Proof.Machine.execDoeDiscovery index s
  | .cxlTableAccess => Sys2Proof.Machine.execCxlTableAccess s
  | .getCert => Sys2Proof.Machine.execGetCert s
  | .quote nonce => Sys2Proof.Machine.execQuote nonce s
  | .doeUnsupported protocol object => Sys2Proof.Machine.execDoeUnsupported protocol object s
  | .readState => Sys2Proof.Machine.execReadState s
  | .readPower => Sys2Proof.Machine.execReadPower s
  | .readTemp => Sys2Proof.Machine.execReadTemp s
  | .readHbmTemp => Sys2Proof.Machine.execReadHbmTemp s
  | .cap write pecOk => Sys2Proof.Machine.execCap write pecOk s
  | .readSerial => Sys2Proof.Machine.execReadSerial s
  | .readFw => Sys2Proof.Machine.execReadFw s
  | .monHelp => Sys2Proof.Machine.execMonHelp s
  | .monState => Sys2Proof.Machine.execMonState s
  | .monHeat h => Sys2Proof.Machine.execMonHeat h s
  | .monRd off count => Sys2Proof.Machine.execMonRd off count s
  | .monWr off v => Sys2Proof.Machine.execMonWr off v s
  | .monFuse => Sys2Proof.Machine.execMonFuse s
  | .monLog n => Sys2Proof.Machine.execMonLog n s
  | .monBaud rate => Sys2Proof.Machine.execMonBaud rate s
  | .monFullstart => Sys2Proof.Machine.execMonFullstart s
  | .monLinkcfg id topology x y z => Sys2Proof.Machine.execMonLinkcfg id topology x y z s
  | .monLinktest port seconds => Sys2Proof.Machine.execMonLinktest port seconds s
  | .monMemtest target => Sys2Proof.Machine.execMonMemtest target s
  | .monDump sec => Sys2Proof.Machine.execMonDump sec s
  | .monLoad length => Sys2Proof.Machine.execMonLoad length s
  | .monCommit => Sys2Proof.Machine.execMonCommit s
  | .monRaw arg => Sys2Proof.Machine.execMonRaw arg s
  | .monRawread bytes => Sys2Proof.Machine.execMonRawread bytes s
  | .monFatal => Sys2Proof.Machine.execMonFatal s
  | .monReset => Sys2Proof.Machine.execMonReset s
  | .monUnlock => Sys2Proof.Machine.execMonUnlock s
  | .unlockToken token => Sys2Proof.Machine.execUnlockToken token s
  | .monLock => Sys2Proof.Machine.execMonLock s
  | .unlockExpiry => Sys2Proof.Machine.execUnlockExpiry s
  | .monFrame frame => Sys2Proof.Machine.execMonFrame frame s
  | .monTransferTimeout => Sys2Proof.Machine.execMonTransferTimeout s
  | .monUnknownCommand => Sys2Proof.Machine.execMonUnknownCommand s
  | .recoveryCommit => Sys2Proof.Machine.execRecoveryCommit s
  | .recoveryClear => Sys2Proof.Machine.execRecoveryClear s
  | .fullNextWrite size v => Sys2Proof.Machine.execFullNextWrite size v s
  | .powerOnDay => Sys2Proof.Machine.execPowerOnDay s
  | .temperatureSample die sensors => Sys2Proof.Machine.execTemperatureSample die sensors s
  | .powerSum avg avg10 => Sys2Proof.Machine.execPowerSum avg avg10 s
  | .railFault rail mv => Sys2Proof.Machine.execRailFault rail mv s
  | .pllLossOfLock die => Sys2Proof.Machine.execPllLossOfLock die s
  | .sprueCrcError die lane => Sys2Proof.Machine.execSprueCrcError die lane s
  | .ringParity die ring => Sys2Proof.Machine.execRingParity die ring s
  | .hbmCtrlError c detail => Sys2Proof.Machine.execHbmCtrlError c detail s
  | .ccWatchdogExpiry => Sys2Proof.Machine.execCcWatchdogExpiry s
  | .regionWarning idx occ => Sys2Proof.Machine.execRegionWarning idx occ s
  | .elasticBufferSlip idx occ => Sys2Proof.Machine.execElasticBufferSlip idx occ s
  | .dumpComplete => Sys2Proof.Machine.execDumpComplete s
  | .dumpRelease => Sys2Proof.Machine.execDumpRelease s
  | .partitionGate part => Sys2Proof.Machine.execPartitionGate part s
  | .partitionWake part => Sys2Proof.Machine.execPartitionWake part s
  | .deepEntry => Sys2Proof.Machine.execDeepEntry s
  | .pgoodAon => Sys2Proof.Machine.execPgoodAon s
  | .powerLoss => Sys2Proof.Machine.execPowerLoss s
  | .heat0 r => Sys2Proof.Machine.execHeat0 r s
  | .heat1 r => Sys2Proof.Machine.execHeat1 r s
  | .heat2 r => Sys2Proof.Machine.execHeat2 r s
  | .heat3 r => Sys2Proof.Machine.execHeat3 r s
  | .heat4 r => Sys2Proof.Machine.execHeat4 r s
  | .heat5 r => Sys2Proof.Machine.execHeat5 r s
  | .heat6 r => Sys2Proof.Machine.execHeat6 r s
  | .heat7 r => Sys2Proof.Machine.execHeat7 r s
  | .heat8 r => Sys2Proof.Machine.execHeat8 r s
  | .heat9 => Sys2Proof.Machine.execHeat9 s
  | .linkFlitReceive place lane0 lane1 lane2 lane3 => Sys2Proof.Machine.execLinkFlitReceive place lane0 lane1 lane2 lane3 s
  | .groupControlWord link lanes => Sys2Proof.Machine.execGroupControlWord link lanes s
  | .linkRetrain link => Sys2Proof.Machine.execLinkRetrain link s
  | .linkNoticeFlush dpkg => Sys2Proof.Machine.execLinkNoticeFlush dpkg s
  | .larrive bid count spkg drain => Sys2Proof.Machine.execLarrive bid count spkg drain s
  | .lrelease bid dlset dlctr install => Sys2Proof.Machine.execLrelease bid dlset dlctr install s
  | .nack spkg flits => Sys2Proof.Machine.execNack spkg flits s
  | .unreach score port => Sys2Proof.Machine.execUnreach score port s
  | .retrain found => Sys2Proof.Machine.execRetrain found s
  | .linkDown link wrongNeighbour => Sys2Proof.Machine.execLinkDown link wrongNeighbour s
  | .retrainingComplete link lanes => Sys2Proof.Machine.execRetrainingComplete link lanes s
  | .frameBoundary => Sys2Proof.Machine.execFrameBoundary s
  | .saveCopied part => Sys2Proof.Machine.execSaveCopied part s
  | .restoreLoaded part => Sys2Proof.Machine.execRestoreLoaded part s
  | .entropyUnavailable => Sys2Proof.Machine.execEntropyUnavailable s
  | .controlSramUncorrectable addr => Sys2Proof.Machine.execControlSramUncorrectable addr s

end Sys2Proof.Machine
end

