-- ==== Sys2Proof/Machine/Tick.lean ====
section
/-!
DEFINITION. One tick of the always-on domain (R7): what counts ticks, and nothing else, goes on.
-/
namespace Sys2Proof.Machine

/-- A waiting queue counts a tick of its wait (R227, R238). -/
def State.waitTick (lid : Nat) (s : State) : State :=
  forAll allQueues (fun q t => if t.getF (qState lid q) = 2 then t.incF (qWticks lid q) 1 else t) s

/-- A partition's tick: waits grow unless it is held (R227), its deadline's elapsed time grows in any case (R120). -/
def State.partTick (p : Nat) (s : State) : State :=
  let t := s.part p
  let s := if t.dlRunning then s.modPart p fun t => { t with elapsed := t.elapsed + 1 } else s
  if s.getF (ppState p) = 1 && t.hold.isNone then forAll (s.partCores p) State.waitTick s else s

/-- A tick of self refresh does not count towards a stack's overdue lap (R481). -/
def State.sleepTick (s : State) : State :=
  forAll (List.range 6) (fun c t => if t.stackRests c then t.modCtl c fun x => { x with lapIdle := x.lapIdle + 1 } else t) s

/-- The ticks for which a partition has stayed quiescent (R480). -/
def State.quietTick (p : Nat) (s : State) : State :=
  if s.quiescent p then s.modPart p fun t => { t with quietTicks := t.quietTicks + 1 }
  else if (s.part p).quietTicks = 0 then s
  else s.modPart p fun t => { t with quietTicks := 0 }

/-- A tick of a gated die does not count towards its cores' overdue laps (R480). -/
def State.gateTick (s : State) : State :=
  forAll (List.range 8) (fun d t =>
    if Nat.testBit (t.getF wGated) d then { t with gatedTicks := tblMod (fun _ => 0) d (· + 1) t.gatedTicks } else t) s

/-- One tick passes (R7): TICK, waits and deadlines of the partitions, ticks in which a partition is held (R491), ticks
in which a request waits for the DRBG (R442), ticks that overdue laps leave out, ticks of quiescence (R480), the end of
programming (R471). -/
def State.passTick (s : State) : State :=
  let s := { s with tick := s.tick + 1 }
  let s := forAll (List.range 8) State.partTick s
  let s := if (List.range 8).any (fun p => (s.part p).hold.isSome) then
    { s.incF wHeldTicks 1 with pwr := { s.pwr with heldTotal := s.pwr.heldTotal + 1 } } else s
  let s := if !s.ent.waiting.isEmpty && !s.serves then s.incF eStallTicks 1 else s
  (forAll (List.range 8) State.quietTick s.sleepTick.gateTick).programTick

end Sys2Proof.Machine
end

