-- ==== Sys2Proof/Machine/Step.lean ====
section
/-!
DEFINITION. One step: the command at the front of the queue, or one tick of the always-on domain when none waits.
-/
namespace Sys2Proof.Machine

/-- Takes the command at the front of the queue and answers its outcome; on an empty queue a tick passes (R7, log 9). -/
def step (s : State) : Host.Outcome State Fault Refusal :=
  match s.pending with
  | [] => .next s.passTick
  | c :: rest => exec c { s with pending := rest }

/-- `s` with the command that the word spells at the front of its queue; unchanged where the word spells none. -/
def State.withFetchWord (s : State) (nbits w : Nat) : State :=
  match decodeTableWord nbits w with
  | some c => { s with pending := c :: s.pending }
  | none => s

end Sys2Proof.Machine
end

