-- ==== Sys2Proof/WellFormed.lean ====
section
/-!
DEFINITION. Well-formed commands: every operand names a unit, place or address that the part has, and lies in the
field that carries it. For the others exec changes nothing, or faults on an address outside the HDM range.
-/
namespace Sys2Proof

/-- A logical core (R20). -/
def coreOk (lid : Nat) : Bool := decide (lid < 2048)

/-- A partition (R29). -/
def partOk (p : Nat) : Bool := decide (p < 8)

/-- A peer link (R364). -/
def linkOk (n : Nat) : Bool := decide (n < 48)

/-- A slot of a ring of a compute die (R241). -/
def slotOk (die ring slot : Nat) : Bool := decide (die < 8) && decide (ring < 4) && decide (slot < 288)

/-- A place where flits enter the rings: a position of a stop, or tap 0 or 1 (R240, R265). -/
def placeOk (place : Nat) : Injector → Bool
  | .stop => decide (place < 288)
  | .bridge => decide (place < 2)

/-- A release that comes to a stop. -/
def comeOk : ReleaseCome → Bool
  | .passing slot => decide (slot < 288)
  | .held _ => true

/-- Banks of each memory of a core (R36, R132, R356). -/
def memBanks : CoreMem → Nat
  | .lace => 32
  | .tile => 8
  | .op => 2

/-- Access rows of a bank (R356). -/
def memRows : CoreMem → Nat
  | .lace => 2048
  | .tile => 1024
  | .op => 2048

/-- A scrub lap's owner (R360). -/
def ownerOk : LapOwner → Bool
  | .stack c => decide (c < 6)
  | .core lid => coreOk lid

/-- The DOE protocols of R412, as vendor ID and type. -/
def supportedDoe : List (Nat × Nat) := [(0x0001, 0x00), (0x1E98, 0x02), (0x1D8F, 0x01)]

/-- A row of HBM (R347). -/
def hbmRowOk (r : RowRef) : Bool := decide (r.stack < 6) && decide (r.pc < 32) && decide (r.bank < 32) && decide (r.row < 32768)

/-- A physical slot (R21). -/
def slotPlaceOk (r : PhysRef) : Bool := decide (r.die < 8) && decide (r.row < 16) && decide (r.slot < 18)

/-- An SRAM row of a physical core. -/
def bankRowOk (x : SramRow) : Bool := slotPlaceOk x.core && decide (x.bank < memBanks x.mem) && decide (x.row < memRows x.mem)

/-- A checker: HBM decoder, bank of lace, tile or op memory, check-value unit (R361, R448). -/
def checkerOk : Option (Nat × Nat) → Bool
  | none => true
  | some (1, n) => decide (n < 192)
  | some (2, n) => decide (n < 65536)
  | some (3, n) => decide (n < 16384)
  | some (4, n) => decide (n < 4096)
  | some (5, n) => decide (n < 8)
  | some _ => false

/-- What passes a station: a slot of a ring, or a sync field, which a ring 0 slot whose number is a multiple of 16
carries (R241). -/
def passOk (m : Option Pass) : Bool :=
  m.all fun x => decide (x.ring < 4) && decide (x.slot < 288) && (!x.field || (decide (x.ring = 0) && decide (x.slot % 16 = 0)))

/-- What link training found: links of the part, and identity frames with fields of their widths (R389, R390). -/
def linksFoundOk (l : List LinkFound) : Bool :=
  l.all fun f => linkOk f.link && decide (f.neighbour < 4096) && decide (f.topology < 4) && decide (f.dimX < 4096) &&
    decide (f.dimY < 4096) && decide (f.dimZ < 4096)

/-- The symbols that a link receives on its four lanes: a pair of code words has 1,088 (R367). -/
def lanesOk (lanes : List (List (BitVec 10))) : Bool := lanes.length == 4 && lanes.all fun l => decide (l.length ≤ 544)

/-- Whether a command is well-formed. -/
def Instr.wf : Instr → Bool
  | .nop lid _ => coreOk lid
  | .ctrAdd lid _ => coreOk lid
  | .ctrSet lid _ => coreOk lid
  | .ctrTake lid _ => coreOk lid
  | .ctrLook lid _ => coreOk lid
  | .ctrDec lid _ => coreOk lid
  | .loop lid _ => coreOk lid
  | .endloop lid _ => coreOk lid
  | .select lid _ => coreOk lid
  | .halt lid _ => coreOk lid
  | .barArrive lid _ => coreOk lid
  | .xHbm lid => coreOk lid
  | .xSend lid => coreOk lid
  | .xCopy lid => coreOk lid
  | .moveRetire lid mid => coreOk lid && decide (mid < 4)
  | .macTile lid => coreOk lid
  | .macMm lid => coreOk lid
  | .macDrain lid => coreOk lid
  | .drainRead lid => coreOk lid
  | .suaPhase lid => coreOk lid
  | .heldNoticeRelease lid => coreOk lid
  | .deferredUpdateApply lid => coreOk lid
  | .suaBeta lid => coreOk lid
  | .suaClamp lid => coreOk lid
  | .suaSnap lid => coreOk lid
  | .suaClrcount lid => coreOk lid
  | .suaSweep lid => coreOk lid
  | .suaResult lid => coreOk lid
  | .suaRestartReset lid => coreOk lid
  | .suaRestartReplay lid => coreOk lid
  | .vecLdt lid => coreOk lid
  | .vecLdl lid => coreOk lid
  | .vecStt lid => coreOk lid
  | .vecStl lid => coreOk lid
  | .vecAlu lid => coreOk lid
  | .vecFpu lid => coreOk lid
  | .vecRsum lid => coreOk lid
  | .vecRsumf lid => coreOk lid
  | .vecRmax lid => coreOk lid
  | .vecRmin lid => coreOk lid
  | .vecPsend lid => coreOk lid
  | .vecPread lid => coreOk lid
  | .vecEnergy lid => coreOk lid
  | .vecEfin lid => coreOk lid
  | .vecXchg lid => coreOk lid
  | .vecSwap lid => coreOk lid
  | .vecBestkClear lid => coreOk lid
  | .vecBestkAdmit lid => coreOk lid
  | .vecBestkEmit lid => coreOk lid
  | .vecPaircnt lid => coreOk lid
  | .vecWupd lid => coreOk lid
  | .vecTupd lid => coreOk lid
  | .vecCreg lid => coreOk lid
  | .picFill lid => coreOk lid
  | .flipNoticeReceive die pos ring slot => slotOk die ring slot && decide (pos < 288)
  | .noticeExport die ring slot => slotOk die ring slot
  | .partialReceive die pos ring slot _ => slotOk die ring slot && decide (pos < 288)
  | .counterMessage lid meet => coreOk lid && passOk meet
  | .sendFlitReceive die pos ring slot _ => slotOk die ring slot && decide (pos < 288)
  | .flitInject die who place ring slot => slotOk die ring slot && placeOk place who
  | .reservation die pos => decide (die < 8) && decide (pos < 288)
  | .dieCombine die meet => decide (die < 8) && passOk meet
  | .barrierRootComplete bid => decide (bid < 64)
  | .barrierReleaseApply lid come => coreOk lid && comeOk come
  | .seedStage meet => coreOk meet.lid && decide (meet.slot < 288)
  | .holdEnd part => partOk part
  | .extraRefreshHold stack part => decide (stack < 6) && partOk part
  | .partitionStop part => partOk part
  | .syncWatchdog lid _ => coreOk lid
  | .hostCounterAdd h _ => decide (h < 256)
  | .hostTake h n => decide (h < 256) && decide (n < 256)
  | .hostCounterPatternAdd h => decide (h < 256)
  | .hostWatchWrite w _ => decide (w < 32)
  | .msixPendingSend vec => decide (vec < 64)
  | .crcRefill u slot => decide (u < 8) && decide (slot < 4)
  | .crcRelease u => decide (u < 8)
  | .crcDrop u => decide (u < 8)
  | .crcConfigWrite u off _ _ => decide (u < 8) && decide (off < 0x100)
  | .verify => true
  | .verifyComplete => true
  | .pour => true
  | .sectionLanding _ => true
  | .arming => true
  | .disarm => true
  | .patch => true
  | .partitionReset _ => true
  | .resetComplete part => partOk part
  | .key => true
  | .ckptSaveContinue part _ => partOk part
  | .ckptSaveHold part _ => partOk part
  | .ckptHold part _ => partOk part
  | .ckptResume part => partOk part
  | .ckptRestore part => partOk part
  | .ckptHashDone part => partOk part
  | .nextSeedWrite part _ _ _ => partOk part
  | .seedDraw part => partOk part
  | .seedFillDone part => partOk part
  | .entModeWrite _ => true
  | .entReseed => true
  | .entInstantiate => true
  | .entRandRead _ _ => true
  | .entropyBlock _ => true
  | .drbgGenerate => true
  | .hbmRequest arrive serve => (arrive.all fun r => slotOk r.die r.ring r.slot) && (serve.all fun r => decide (r.p < 192) && partOk r.part)
  | .writeAck lid => coreOk lid
  | .refpb p bank => decide (p < 192) && decide (bank < 32)
  | .scrubAccess p => decide (p < 192)
  | .sramScrub lid mem bank => coreOk lid && decide (bank < memBanks mem)
  | .correctedWriteBack p => decide (p < 192)
  | .rowRemapCopy p bank row => decide (p < 192) && decide (bank < 32) && decide (row < 32768)
  | .stackTemperatureRead c _ => decide (c < 6)
  | .lapOverdue who => ownerOk who
  | .cxlmemRead addr len => decide (addr + len ≤ 0x3000000000)
  | .cxlmemWrite addr data _ => decide (addr + data.length ≤ 0x3000000000)
  | .registerWrite _ _ _ => true
  | .rcRead _ _ => true
  | .conventionalReset => true
  | .functionLevelReset => true
  | .doeDiscovery _ => true
  | .cxlTableAccess => true
  | .getCert => true
  | .quote _ => true
  | .doeUnsupported protocol object =>
    decide (protocol.1 < 65536) && decide (protocol.2 < 256) &&
      (object.malformed || decide (16384 < object.bytes) || !supportedDoe.contains protocol)
  | .readState => true
  | .readPower => true
  | .readTemp => true
  | .readHbmTemp => true
  | .cap _ _ => true
  | .readSerial => true
  | .readFw => true
  | .monHelp => true
  | .monState => true
  | .monHeat _ => true
  | .monRd _ _ => true
  | .monWr _ _ => true
  | .monFuse => true
  | .monLog _ => true
  | .monBaud _ => true
  | .monFullstart => true
  | .monLinkcfg _ _ _ _ _ => true
  | .monLinktest _ _ => true
  | .monMemtest _ => true
  | .monDump _ => true
  | .monLoad _ => true
  | .monCommit => true
  | .monRaw _ => true
  | .monRawread _ => true
  | .monFatal => true
  | .monReset => true
  | .monUnlock => true
  | .unlockToken _ => true
  | .monLock => true
  | .unlockExpiry => true
  | .monFrame _ => true
  | .monTransferTimeout => true
  | .monUnknownCommand => true
  | .recoveryCommit => true
  | .recoveryClear => true
  | .fullNextWrite _ _ => true
  | .powerOnDay => true
  | .temperatureSample die sensors => decide (die < 10) && decide (sensors.length = 16)
  | .powerSum _ _ => true
  | .railFault rail mv => decide (rail < 20) && decide (mv < 65536)
  | .pllLossOfLock die => decide (die < 10)
  | .sprueCrcError die lane => decide (die < 10) && decide (lane < 16)
  | .ringParity die ring => decide (die < 8) && decide (ring < 4)
  | .hbmCtrlError c _ => decide (c < 6)
  | .ccWatchdogExpiry => true
  | .regionWarning i occ => decide (i < 10) && decide (occ < 8)
  | .elasticBufferSlip i occ => decide (i < 10) && decide (occ < 8)
  | .dumpComplete => true
  | .dumpRelease => true
  | .partitionGate part => partOk part
  | .partitionWake part => partOk part
  | .deepEntry => true
  | .pgoodAon => true
  | .powerLoss => true
  | .heat0 _ => true
  | .heat1 r =>
    if r.width = 0 then decide (r.rate = 0) else [8, 4, 2, 1].contains r.width && ([64, 32, 16].contains r.rate || decide (r.rate < 16))
  | .heat2 _ => true
  | .heat3 r => decide (r.temps.length = 6) && decide (r.restored.length = 6) && decide (r.trained.length = 6)
  | .heat4 r => r.failed.all hbmRowOk && r.fixable.all hbmRowOk
  | .heat5 r => r.cores.all slotPlaceOk && r.stops.all slotPlaceOk && r.rows.all bankRowOk
  | .heat6 r => checkerOk r.checker
  | .heat7 r => linksFoundOk r.found
  | .heat8 r => r.rounds.all fun l => l.all fun x => slotPlaceOk x.1
  | .heat9 => true
  | .linkFlitReceive place lane0 lane1 lane2 lane3 =>
    linkOk place.link && lanesOk [lane0, lane1, lane2, lane3] && decide (place.flit < 5)
  | .groupControlWord link lanes => linkOk link && lanesOk lanes
  | .linkRetrain link => linkOk link
  | .linkNoticeFlush dpkg => decide (dpkg < 4096)
  | .larrive bid _ spkg _ => decide (bid < 64) && decide (spkg < 4096)
  | .lrelease bid _ dlctr _ => decide (bid < 64) && decide (dlctr < 64)
  | .nack spkg _ => decide (spkg < 4096)
  | .unreach score port => coreOk score && decide (port < 8)
  | .retrain found => linksFoundOk found
  | .linkDown link _ => linkOk link
  | .retrainingComplete link _ => linkOk link
  | .frameBoundary => true
  | .saveCopied part => partOk part
  | .restoreLoaded part => partOk part
  | .entropyUnavailable => true
  | .controlSramUncorrectable addr => decide (addr < 0x800000)

end Sys2Proof
end

