-- ==== Sys2Proof/Safety.lean ====
section
/-!
DEFINITION. What a safe run is: the canonical form of memories and tables, fuses that are never unset, commands that are
well-formed.
-/
namespace Sys2Proof.Machine

/-- The canonical form of a memory: addresses strictly rising, no byte 0 listed, no syndrome 0 listed. -/
def Mem.wf (m : Mem) : Bool := tblWf (fun _ => (0 : Byte)) m.bytes && tblWf (fun _ => (0 : BitVec 32)) m.bad

/-- The memories of a core are in canonical form. -/
def Core.wf (c : Core) : Bool := c.lace.wf && c.tile.wf && c.op.wf

/-- The canonical form of a state: registers listed only where they differ from their reset value, every memory in
canonical form. -/
def State.wf (s : State) : Bool :=
  tblWf resetWord s.regs && s.hbm.wf && s.cores.all (fun e => e.2.wf) && s.pwr.recBytes.wf && s.pwr.ladle.wf

/-- Every bit that is set in one word is set in another. -/
def bitsGrow {n : Nat} (a b : BitVec n) : Prop := a &&& b = a

/-- Fuses change only by being burned (R315, R459, R469): bits set stay set, an entry of the field bank that is used
keeps its word. -/
structure Fuses.Grow (f g : Fuses) : Prop where
  cores : g.badCores = f.badCores
  stops : g.badStops = f.badStops
  field : ∀ n, f.field.getD n 0 ≠ 0 → g.field.getD n 0 = f.field.getD n 0
  vendor : bitsGrow f.vendorRevoked g.vendorRevoked
  enrolled : bitsGrow f.ownerEnrolled g.ownerEnrolled
  revoked : bitsGrow f.ownerRevoked g.ownerRevoked

/-- Every command that waits is well-formed. -/
def State.queueWf (s : State) : Bool := s.pending.all Instr.wf

/-! ### What a command leaves alone -/

/-- A field lies within its 64-bit register (R12, R14). -/
def Fld.Ok (f : Fld) : Prop := f.lo + f.w ≤ 64

/-- The place of a field's least bit among the bits of all registers. -/
def Fld.base (f : Fld) : Nat := 32 * (f.off / 4) + f.lo

/-- Two fields share no bit. -/
def Fld.Apart (f g : Fld) : Prop := f.base + f.w ≤ g.base ∨ g.base + g.w ≤ f.base

/-- Every register field that shares no bit with those listed keeps its value. -/
def OnlyFields (l : List Fld) (s t : State) : Prop :=
  ∀ f : Fld, f.Ok → (∀ g ∈ l, f.Apart g) → t.getF f = s.getF f

/-- Nothing but the listed register fields may change: not the memories, nor the fabric, nor anything else. -/
def RegsOnly (l : List Fld) (s t : State) : Prop := t = { s with regs := t.regs } ∧ OnlyFields l s t

/-! ### Queues -/

/-- The op `op` stands at the head of a queue that may issue it (R209, R210, R212): the queue is in STATE 1 and its
partition runs, the PC lies in the queue's region and not at the last op index, the op word is not in error and names
the queue and an opcode of it. -/
structure AtHead (s : State) (lid : Nat) (q : Queue) (op : OpWord) : Prop where
  core : lid < 2048
  issues : s.issues lid q = true
  region : s.inRegion lid q (s.getF (qPc lid q)) = true
  inside : s.getF (qPc lid q) < 4095
  notPast : q.num ∉ (s.core lid).past
  clean : (s.core lid).op.badWords 8 (16 * s.getF (qPc lid q)) 16 = []
  word : s.opWord lid (s.getF (qPc lid q)) = op
  queue : opQueue op = q.num
  opcode : queueHas q (opOpcode op) = true

/-- The op at the head retires (R213): the PC goes to the next op, OPS counts it. -/
def Retired (lid : Nat) (q : Queue) (s t : State) : Prop :=
  t.getF (qPc lid q) = s.getF (qPc lid q) + 1 ∧ t.getF (qOps lid q) = satAdd 64 (s.getF (qOps lid q)) 1

/-- A queue halts at a pattern fault (R235): STATE 4, the code and the PC recorded, the partition told; nothing else
changes. -/
structure Halted (lid : Nat) (q : Queue) (c : Nat) (s t : State) : Prop where
  state : t.getF (qState lid q) = 4
  code : t.getF (qFaultCode lid q) = c
  faultPc : t.getF (qFaultPc lid q) = s.getF (qPc lid q)
  only : OnlyFields [qState lid q, qFaultCode lid q, qFaultPc lid q] s t
  rest : t = { s with regs := t.regs, parts := t.parts }
  told : ∀ p, s.owner lid = some p →
    (t.part p).faults = (s.part p).faults ++ [⟨c, lid, q.num, s.getF (qPc lid q), false⟩]
  others : ∀ p, s.owner lid ≠ some p → t.part p = s.part p

/-- No queue of a core waits on counter `n` (R218). -/
def NoWaiter (s : State) (lid n : Nat) : Prop := ∀ q : Queue, ¬ (s.getF (qState lid q) = 2 ∧ s.getF (qWctr lid q) = n)

/-- A flit enters the injection FIFO of a core's stop (R260). -/
def Sent (lid : Nat) (f : Flit) (s t : State) : Prop :=
  t.stop lid = { s.stop lid with fifo := (s.stop lid).fifo ++ [f] } ∧ ∀ l, l ≠ lid → t.stop l = s.stop l

/-- Nothing but registers and ring stops changes. -/
def RegsStops (l : List Fld) (s t : State) : Prop := t = { s with regs := t.regs, stops := t.stops } ∧ OnlyFields l s t

/-- The register fields of a queue's loop levels (R222, R238). -/
def loopFields (lid : Nat) (q : Queue) : List Fld :=
  qDepth lid q :: (List.range 4).flatMap fun k => [qRemain lid q k, qForever lid q k, qStart lid q k]

/-- Loop level `k` of one state is level `j` of another; a level past the fourth is empty (R222). -/
def SameLevel (lid : Nat) (q : Queue) (k : Nat) (t : State) (j : Nat) (s : State) : Prop :=
  t.getF (qRemain lid q k) = (if j < 4 then s.getF (qRemain lid q j) else 0) ∧
  t.getF (qForever lid q k) = (if j < 4 then s.getF (qForever lid q j) else 0) ∧
  t.getF (qStart lid q k) = (if j < 4 then s.getF (qStart lid q j) else 0)

/-! ### HBM -/

/-- No word of HBM is in error and no row is remapped (R349, R356): reads are counted nowhere. -/
def HbmClean (s : State) : Prop := s.hbm.bad = [] ∧ ∀ k, s.remapOf k = none

/-! ### Cores -/

/-- No ECC word of a core's memories is in error (R349). -/
def CleanCore (s : State) (lid : Nat) : Prop := ∀ m, ((s.core lid).mem m).bad = []

/-- Nothing but the listed register fields, one core's own state and the counter of free values changes. -/
def CoreStep (lid : Nat) (l : List Fld) (s t : State) : Prop :=
  t = { s with regs := t.regs, cores := t.cores, free := t.free } ∧ (∀ k, k ≠ lid → t.core k = s.core k) ∧ OnlyFields l s t

/-- The same, where the core's ring stop may change too. -/
def CoreStopStep (lid : Nat) (l : List Fld) (s t : State) : Prop :=
  t = { s with regs := t.regs, cores := t.cores, stops := t.stops, free := t.free } ∧
    (∀ k, k ≠ lid → t.core k = s.core k ∧ t.stop k = s.stop k) ∧ OnlyFields l s t

/-- A core's memories stay as they were. -/
def MemSame (lid : Nat) (s t : State) : Prop := ∀ m, (t.core lid).mem m = (s.core lid).mem m

/-- Every byte of a core's memories outside bytes `[a, a + n)` of one of them stays as it was. -/
def BytesOutside (lid : Nat) (m : CoreMem) (a n : Nat) (s t : State) : Prop :=
  ∀ k b, (k ≠ m ∨ b < a ∨ a + n ≤ b) → ((t.core lid).mem k).byte b = ((s.core lid).mem k).byte b

/-- A core's stop holds nothing to send (R53, R254, R260). -/
def StopIdle (s : State) (lid : Nat) : Prop :=
  (s.stop lid).fifo = [] ∧ (s.stop lid).outbound = [] ∧ (s.stop lid).arrivals = []

/-- A vector op completes (R188, R213): it retires and is counted, its waits are free; nothing else changes but the core's
own state and the fields of `l`. -/
def VecDone (lid : Nat) (l : List Fld) (s t : State) : Prop :=
  Retired lid .v s t ∧ t.getF (cVecOps lid) = satAdd 64 (s.getF (cVecOps lid)) 1 ∧
    CoreStep lid ([qPc lid .v, qOps lid .v, cVecOps lid, cVecStalls lid] ++ l) s t

/-- Nothing of a core changes but lanes, and those only where `p` says, by register and lane (R164). -/
def LanesOnly (lid : Nat) (p : Nat → Nat → Prop) (s t : State) : Prop :=
  t.core lid = { s.core lid with vregs := (t.core lid).vregs } ∧
    ∀ r l, l < 64 → ¬ p r l → t.lane lid r l = s.lane lid r l

/-- Lanes stay as they were and nothing of a core changes but its memories. -/
def MemsOnly (lid : Nat) (s t : State) : Prop :=
  t.core lid = { s.core lid with lace := (t.core lid).lace, tile := (t.core lid).tile, op := (t.core lid).op }

/-- A run of steps ends in a next state. -/
def isNext : Host.Outcome State Fault Refusal → Bool
  | .next _ => true
  | _ => false

end Sys2Proof.Machine
end

