-- ==== Sys2Proof/Certificates/Slice0/Obligations.lean ====
section
/-!
DEFINITION. What is claimed of the model, for the provers: one definition for each statement, each docstring with the
rules of the spec that it rests on.
-/
open Sys2Proof Sys2Proof.Machine

/-! ### The machine -/

/-- A step with a command at the front of the queue is that command on the state with the queue's rest. -/
def StepRunsFrontRule : Prop :=
  ∀ (s : State) (c : Instr) (rest : List Instr), s.pending = c :: rest → step s = exec c { s with pending := rest }

/-- A step on an empty queue is one tick (log 9): TICK grows by one, and the fuses, what has been sent, HBM, the cores and
the ring stops stay. Flash stays but for the image whose programming ends at this tick (R471, log 58). -/
def EmptyQueueTickRule : Prop :=
  ∀ s : State, s.pending = [] → ∃ t, step s = .next t ∧ t.tick = s.tick + 1 ∧ t.pending = [] ∧ t.fuses = s.fuses ∧
    t.out = s.out ∧ t.hbm = s.hbm ∧ t.cores = s.cores ∧ t.stops = s.stops ∧
    t.flash = (match s.pwr.prog with
      | some (fin, d) => if fin ≤ s.tick + 1 then { s.flash with image := d } else s.flash
      | none => s.flash)

/-- A step runs the command at the front of the queue, and on an empty queue it is one tick (log 9). -/
def Obligations.StepRunsFrontOrTicks : Prop := StepRunsFrontRule ∧ EmptyQueueTickRule

/-- What reset leaves in registers that the spec gives a reset value: SYS_ID.PART and SYS_STATE.LIMITED (R402), ENT
INTERVAL (R442), OVERDUE_MS (R362), the caps and T_PAUSE (R491), MON_BAUD.RATE (R507). -/
def ResetRegistersRule : Prop :=
  bitsOf (State.reset.regW 0) 0 16 = 0x0801 ∧ State.reset.getF sLimited = 1 ∧ State.reset.getF sReady = 0 ∧
  State.reset.getF eInterval = 0x10000 ∧ (∀ c, c < 6 → State.reset.getF (bOverdueMs c) = 4000) ∧
  State.reset.getF wHostCap = 1500 ∧ State.reset.getF wBmcCap = 1500 ∧ State.reset.getF wEffective = 1500 ∧
  State.reset.getF wTPause = 100 ∧ State.reset.getF mRate = 115200

/-- The state after reset is in canonical form, with no command waiting. -/
def ResetCanonicalRule : Prop := State.reset.wf = true ∧ State.reset.pending = []

/-- What reset leaves. -/
def Obligations.ResetState : Prop := ResetRegistersRule ∧ ResetCanonicalRule

/-- Every step keeps the canonical form: registers listed only where they differ from their reset values, memories with
rising addresses and no byte 0 and no valid word listed. -/
def Obligations.StepKeepsCanonical : Prop := ∀ s t : State, s.wf = true → step s = .next t → t.wf = true

/-- Every command that is well-formed completes, in every state, and none is refused. One whose operands name no unit
of the GL8 changes nothing (log 76), but for a CXL.mem access that reaches outside the HDM range, which faults. -/
def Obligations.WellFormedCompletes : Prop :=
  ∀ (c : Instr) (s : State), (c.wf = true → ∃ t, exec c s = .next t) ∧ (∀ r, exec c s ≠ .refused r) ∧
    (c.wf = false → exec c s = .next s ∨
      ((∃ a n, c = .cxlmemRead a n) ∨ ∃ a d p, c = .cxlmemWrite a d p) ∧ exec c s = .fault .outsideHdm)

/-- A step takes one command from the queue and no more, unsends nothing, and leaves burned fuses burned: bits that are
set stay set, an entry of the field bank that is used keeps its word (R315, R459, R469). -/
def Obligations.StepTakesOneCommand : Prop :=
  ∀ s t : State, step s = .next t → t.pending = s.pending.tail ∧ s.out <+: t.out ∧ s.fuses.Grow t.fuses

/-! ### Control and counter ops of the queues -/

/-- NOP retires and does nothing else; HALT stops the queue as a normal end with its PC at the HALT (R221). -/
def NopAndHaltRule : Prop :=
  ∀ (s : State) (lid : Nat) (q : Queue) (op : OpWord), AtHead s lid q op → bitsOf op 0 118 = 0 →
    (opOpcode op = 0x00 → ∃ t, exec (.nop lid q) s = .next t ∧ Retired lid q s t ∧ RegsOnly [qPc lid q, qOps lid q] s t) ∧
    (opOpcode op = 0x0A → ∃ t, exec (.halt lid q) s = .next t ∧ t.getF (qState lid q) = 3 ∧
      t.getF (qPc lid q) = s.getF (qPc lid q) ∧ t.getF (qOps lid q) = satAdd 64 (s.getF (qOps lid q)) 1 ∧
      RegsOnly [qState lid q, qOps lid q] s t)

/-- CTR.ADD and CTR.SET on the own core while no queue waits on the counter (R216, R220): SET stores N, ADD adds it; a sum
above 65,535 stores 65,535 and halts the queue with SYNC_OVERFLOW at the ADD. -/
def Obligations.CounterAddAndSet : Prop :=
  ∀ (s : State) (lid : Nat) (q : Queue) (op : OpWord), AtHead s lid q op → s.allRetired lid q = true →
    opTarget lid op = 0 → NoWaiter s lid (opCtr op) →
    (opOpcode op = 0x01 → opReserved [(0, 55)] op = false → opN op ≠ 0 →
      (s.getF (cCtr lid (opCtr op)) + opN op ≤ 65535 →
        ∃ t, exec (.ctrAdd lid q) s = .next t ∧ t.getF (cCtr lid (opCtr op)) = s.getF (cCtr lid (opCtr op)) + opN op ∧
          Retired lid q s t ∧ RegsOnly [qPc lid q, qOps lid q, cCtr lid (opCtr op)] s t) ∧
      (65535 < s.getF (cCtr lid (opCtr op)) + opN op →
        ∃ t, exec (.ctrAdd lid q) s = .next t ∧ Halted lid q 0x43 (s.setF (cCtr lid (opCtr op)) 65535) t)) ∧
    (opOpcode op = 0x02 → opReserved [(0, 35)] op = false →
      ∃ t, exec (.ctrSet lid q) s = .next t ∧ t.getF (cCtr lid (opCtr op)) = opN op ∧ Retired lid q s t ∧
        RegsOnly [qPc lid q, qOps lid q, cCtr lid (opCtr op)] s t)

/-- CTR.ADD and CTR.SET to another core of the partition, and CTR.ADD to a core of a peer package that the link port plan
holds, put a counter message into the stop's FIFO and retire; with the FIFO full they wait, and nothing changes but the
stall counter of the queue's engine (R216, R260, R383; the X queue's engine has none). -/
def CounterMessageSentRule : Prop :=
  ∀ (s : State) (lid : Nat) (q : Queue) (op : OpWord), AtHead s lid q op → s.allRetired lid q = true →
    (opOpcode op = 0x01 → opReserved [(0, 55)] op = false → opN op ≠ 0 → opTarget lid op = 1 →
      s.samePart lid (bitsOf op 24 11) = true →
      (s.fifoRoom lid 1 = true → ∃ t, exec (.ctrAdd lid q) s = .next t ∧ Retired lid q s t ∧
        Sent lid (.sync lid (.counter (bitsOf op 24 11) (opCtr op) (opN op) false 0 0 0)) s t ∧
        RegsStops [qPc lid q, qOps lid q] s t) ∧
      (s.fifoRoom lid 1 = false → ∃ t, exec (.ctrAdd lid q) s = .next t ∧ (q = .x → t = s) ∧
        t = { s with regs := t.regs, free := t.free } ∧
        OnlyFields [if q = .m then cMacStalls lid else if q = .v then cVecStalls lid else cSuaStalls lid] s t)) ∧
    (opOpcode op = 0x01 → opReserved [(0, 55)] op = false → opN op ≠ 0 → opTarget lid op = 3 →
      s.pkgOk lid (bitsOf op 43 12) = true → s.fifoRoom lid 1 = true →
      ∃ t, exec (.ctrAdd lid q) s = .next t ∧ Retired lid q s t ∧
        Sent lid (.sync lid (.counter (bitsOf op 24 11) (opCtr op) (opN op) false 2 0 (bitsOf op 43 12))) s t ∧
        RegsStops [qPc lid q, qOps lid q] s t) ∧
    (opOpcode op = 0x02 → opReserved [(0, 35)] op = false → opTarget lid op = 1 →
      s.samePart lid (bitsOf op 24 11) = true → s.fifoRoom lid 1 = true →
      ∃ t, exec (.ctrSet lid q) s = .next t ∧ Retired lid q s t ∧
        Sent lid (.sync lid (.counter (bitsOf op 24 11) (opCtr op) (opN op) true 0 0 0)) s t ∧
        RegsStops [qPc lid q, qOps lid q] s t)

/-- CTR.TAKE, CTR.LOOK and CTR.DEC (R216, R218, R220): TAKE and LOOK that are satisfied retire, TAKE subtracting N; one
that is not waits at the head in STATE 2; DEC subtracts at once, and halts with SYNC_UNDERFLOW, leaving the counter,
where the result would be below 0. -/
def CounterTakeLookDecRule : Prop :=
  ∀ (s : State) (lid : Nat) (q : Queue) (op : OpWord), AtHead s lid q op → opN op ≠ 0 →
    (∀ p, s.owner lid = some p → s.isLaunchCtr p (opCtr op) = false) →
    (opOpcode op = 0x03 → opReserved [(0, 22), (112, 1)] op = false →
      (opN op ≤ s.getF (cCtr lid (opCtr op)) → ∃ t, exec (.ctrTake lid q) s = .next t ∧ Retired lid q s t ∧
        t.getF (cCtr lid (opCtr op)) = s.getF (cCtr lid (opCtr op)) - opN op ∧
        RegsOnly [qPc lid q, qOps lid q, cCtr lid (opCtr op)] s t) ∧
      (s.getF (cCtr lid (opCtr op)) < opN op → ∃ t, exec (.ctrTake lid q) s = .next t ∧ t.getF (qState lid q) = 2 ∧
        t.getF (qWctr lid q) = opCtr op ∧ t.getF (qWticks lid q) = 0 ∧
        RegsOnly [qState lid q, qWctr lid q, qWticks lid q] s t)) ∧
    (opOpcode op = 0x04 → opReserved [(0, 22), (112, 1)] op = false →
      (opN op ≤ s.getF (cCtr lid (opCtr op)) → ∃ t, exec (.ctrLook lid q) s = .next t ∧ Retired lid q s t ∧
        RegsOnly [qPc lid q, qOps lid q] s t) ∧
      (s.getF (cCtr lid (opCtr op)) < opN op → ∃ t, exec (.ctrLook lid q) s = .next t ∧ t.getF (qState lid q) = 2 ∧
        t.getF (qWctr lid q) = opCtr op ∧ t.getF (qWticks lid q) = 0 ∧
        RegsOnly [qState lid q, qWctr lid q, qWticks lid q] s t)) ∧
    (opOpcode op = 0x05 → opReserved [(0, 22)] op = false →
      (s.getF (cCtr lid (opCtr op)) < opN op → ∃ t, exec (.ctrDec lid q) s = .next t ∧ Halted lid q 0x42 s t) ∧
      (opN op ≤ s.getF (cCtr lid (opCtr op)) → NoWaiter s lid (opCtr op) →
        ∃ t, exec (.ctrDec lid q) s = .next t ∧ Retired lid q s t ∧
          t.getF (cCtr lid (opCtr op)) = s.getF (cCtr lid (opCtr op)) - opN op ∧
          RegsOnly [qPc lid q, qOps lid q, cCtr lid (opCtr op)] s t))

/-- While its die's rings run, a stop hands its core the oldest counter message that it holds (R217, R218): it leaves the
stop's queue, and the counter is set, or grows and stops at 65,535; with no queue waiting on it nothing else of the core
changes. An overflow is told to the partition as a remote fault (R220, R236). A stop that holds none hands over nothing. -/
def CounterMessageAppliedRule : Prop :=
  ∀ (s : State) (lid n k p : Nat) (set : Bool) (dc route hc pkg : Nat) (rest : List SyncMsg),
    lid < 2048 → n < 64 → k < 65536 → s.owner lid = some p →
    (s.ringsRun (dieOf lid) = true → (s.stop lid).ctrQ = .counter dc n k set route hc pkg :: rest → NoWaiter s lid n →
      ∃ t, exec (.counterMessage lid none) s = .next t ∧
        t.getF (cCtr lid n) = (if set then k else min 65535 (s.getF (cCtr lid n) + k)) ∧
        t.stop lid = { s.stop lid with ctrQ := rest } ∧ (∀ l, l ≠ lid → t.stop l = s.stop l) ∧
        OnlyFields [cCtr lid n] s t ∧ t = { s with regs := t.regs, stops := t.stops, parts := t.parts } ∧
        (t.part p).faults = (s.part p).faults ++
          (if !set && decide (65535 < s.getF (cCtr lid n) + k) then [⟨0x43, lid, 0, 0, true⟩] else [])) ∧
    ((s.stop lid).ctrQ = [] → exec (.counterMessage lid none) s = .next s)

/-- A counter message that meets its stop in a sync field enters the stop's queue of 16 while an entry is free, and waits
for its core else; one in a SYNC flit enters while two entries are free and no other SYNC flit of its sender went past
before it, and rides on else (R217, R246, R254). -/
def CounterMessageMeetsRule : Prop :=
  ∀ (s : State) (lid slot t pos n k : Nat) (set : Bool) (route hc pkg src : Nat), lid < 2048 → route ≠ 1 → route ≠ 2 →
    s.posOf lid = some pos → s.standsAt (dieOf lid) slot pos t = true → slot < 288 →
    (∀ f, slot % 16 = 0 → s.fieldTurn (dieOf lid) slot = some (f, t) → f.msg = .counter lid n k set route hc pkg →
      ∃ u, exec (.counterMessage lid (some ⟨0, slot, true⟩)) s = .next u ∧
        ((s.stop lid).ctrQ.length < 16 → u.stop lid = { s.stop lid with ctrQ := (s.stop lid).ctrQ ++ [f.msg] } ∧
          u.syncAt (dieOf lid) slot = none) ∧
        (16 ≤ (s.stop lid).ctrQ.length → u = s) ∧ u = { s with stops := u.stops, dies := u.dies }) ∧
    (∀ ring p, ring < 4 → s.slotTurn (dieOf lid) ring slot = some (p, t) →
      p.flit = .sync src (.counter lid n k set route hc pkg) →
      ∃ u, exec (.counterMessage lid (some ⟨ring, slot, false⟩)) s = .next u ∧
        ((s.stop lid).ctrQ.length < 15 → s.syncPassOf lid p.pos = none ∨ s.syncPassOf lid p.pos = some (ring, slot) →
          (u.stop lid).ctrQ = (s.stop lid).ctrQ ++ [.counter lid n k set route hc pkg] ∧ u.slotAt (dieOf lid) ring slot = none ∧
            u.syncPassOf lid p.pos = none) ∧
        (15 ≤ (s.stop lid).ctrQ.length ∨ (∃ e, s.syncPassOf lid p.pos = some e ∧ e ≠ (ring, slot)) →
          (u.stop lid).ctrQ = (s.stop lid).ctrQ ∧ (u.slotAt (dieOf lid) ring slot).map (·.flit) = some p.flit ∧
            (s.syncPassOf lid p.pos = none → u.syncPassOf lid p.pos = some (ring, slot))) ∧
        u = { s with stops := u.stops, dies := u.dies })

/-- Counter messages are sent, met and applied (R216, R217, R218, R220). -/
def Obligations.CounterMessages : Prop := CounterMessageSentRule ∧ CounterMessageMeetsRule ∧ CounterMessageAppliedRule

/-- A rise of a counter releases a waiting LOOK before a waiting TAKE (R218): with the V queue waiting on the counter with
a LOOK and the S queue with a TAKE, both satisfied by an ADD from the X queue, all three retire and TAKE's N is taken. -/
def WaitersReleasedRule : Prop :=
  ∀ (s : State) (lid : Nat) (op look take : OpWord), AtHead s lid .x op → s.allRetired lid .x = true →
    opOpcode op = 0x01 → opReserved [(0, 55)] op = false → opN op ≠ 0 → opTarget lid op = 0 →
    s.getF (cCtr lid (opCtr op)) + opN op ≤ 65535 →
    s.opWord lid (s.getF (qPc lid .v)) = look → opOpcode look = 0x04 → s.getF (qState lid .v) = 2 →
    s.getF (qWctr lid .v) = opCtr op → s.getF (qPc lid .v) < 4095 →
    s.opWord lid (s.getF (qPc lid .s)) = take → opOpcode take = 0x03 → s.getF (qState lid .s) = 2 →
    s.getF (qWctr lid .s) = opCtr op → s.getF (qPc lid .s) < 4095 →
    opN look ≤ s.getF (cCtr lid (opCtr op)) + opN op → opN take ≤ s.getF (cCtr lid (opCtr op)) + opN op →
    s.getF (qState lid .m) ≠ 2 → (∀ p, s.owner lid = some p → s.isLaunchCtr p (opCtr op) = false) →
    ∃ t, exec (.ctrAdd lid .x) s = .next t ∧ Retired lid .x s t ∧ Retired lid .v s t ∧ Retired lid .s s t ∧
      t.getF (qState lid .v) = 1 ∧ t.getF (qState lid .s) = 1 ∧
      t.getF (cCtr lid (opCtr op)) = s.getF (cCtr lid (opCtr op)) + opN op - opN take

/-- TAKE, LOOK and DEC, and the release of waiters (R216, R218, R220). -/
def Obligations.CounterWaits : Prop := CounterTakeLookDecRule ∧ WaitersReleasedRule

/-- LOOP and ENDLOOP (R222): LOOP pushes a level with its count and its start behind it, or goes past END when the count is
0; an END that is no ENDLOOP raises SYNC_PC, a fifth level SYNC_LOOP, a COUNT above 65,536 SYNC_OPERAND; ENDLOOP counts the
innermost level down and branches to its start, branches always under FOREVER, pops the level after the last pass, and raises
SYNC_LOOP with an empty stack. -/
def Obligations.LoopAndEndloop : Prop :=
  ∀ (s : State) (lid : Nat) (q : Queue) (op : OpWord), AtHead s lid q op →
    (opOpcode op = 0x06 → opReserved [(0, 35), (112, 2)] op = false →
      (bitOf op 113 = false → bitOf op 112 = false → 65536 < bitsOf op 0 17 →
        ∃ t, exec (.loop lid q) s = .next t ∧ Halted lid q 0x41 s t) ∧
      ((bitOf op 113 || bitOf op 112 || decide (bitsOf op 0 17 ≤ 65536)) = true → s.inRegion lid q (bitsOf op 23 12) = true →
        (s.core lid).op.badWords 8 (16 * bitsOf op 23 12) 16 = [] →
        (opOpcode (s.opWord lid (bitsOf op 23 12)) ≠ 0x07 → ∃ t, exec (.loop lid q) s = .next t ∧ Halted lid q 0x47 s t) ∧
        (opOpcode (s.opWord lid (bitsOf op 23 12)) = 0x07 →
          (loopCount lid op s = 0 → bitOf op 112 = false → bitsOf op 23 12 < 4095 →
            ∃ t, exec (.loop lid q) s = .next t ∧ t.getF (qPc lid q) = bitsOf op 23 12 + 1 ∧
              t.getF (qOps lid q) = satAdd 64 (s.getF (qOps lid q)) 1 ∧ RegsOnly [qPc lid q, qOps lid q] s t) ∧
          ((loopCount lid op s ≠ 0 ∨ bitOf op 112 = true) → s.getF (qDepth lid q) < 4 →
            ∃ t, exec (.loop lid q) s = .next t ∧ Retired lid q s t ∧ t.getF (qDepth lid q) = s.getF (qDepth lid q) + 1 ∧
              t.getF (qRemain lid q 0) = loopCount lid op s ∧ t.getF (qForever lid q 0) = (bitOf op 112).toNat ∧
              t.getF (qStart lid q 0) = s.getF (qPc lid q) + 1 ∧ (∀ k, k < 3 → SameLevel lid q (k + 1) t k s) ∧
              RegsOnly ([qPc lid q, qOps lid q] ++ loopFields lid q) s t) ∧
          ((loopCount lid op s ≠ 0 ∨ bitOf op 112 = true) → 4 ≤ s.getF (qDepth lid q) →
            ∃ t, exec (.loop lid q) s = .next t ∧ Halted lid q 0x45 s t)))) ∧
    (opOpcode op = 0x07 → bitsOf op 0 118 = 0 →
      (s.getF (qDepth lid q) = 0 → ∃ t, exec (.endloop lid q) s = .next t ∧ Halted lid q 0x45 s t) ∧
      (s.getF (qDepth lid q) ≠ 0 →
        (s.getF (qForever lid q 0) = 1 ∨ 1 < s.getF (qRemain lid q 0) →
          ∃ t, exec (.endloop lid q) s = .next t ∧ t.getF (qPc lid q) = s.getF (qStart lid q 0) ∧
            t.getF (qOps lid q) = satAdd 64 (s.getF (qOps lid q)) 1 ∧
            t.getF (qRemain lid q 0) = s.getF (qRemain lid q 0) - (if s.getF (qForever lid q 0) = 1 then 0 else 1) ∧
            RegsOnly [qPc lid q, qOps lid q, qRemain lid q 0] s t) ∧
        (s.getF (qForever lid q 0) = 0 → s.getF (qRemain lid q 0) ≤ 1 →
          ∃ t, exec (.endloop lid q) s = .next t ∧ Retired lid q s t ∧ t.getF (qDepth lid q) = s.getF (qDepth lid q) - 1 ∧
            (∀ k, k < 4 → SameLevel lid q k t (k + 1) s) ∧ RegsOnly ([qPc lid q, qOps lid q] ++ loopFields lid q) s t)))

/-- SELECT (R223) takes the 16-bit entry that its counter chooses from the words behind it, pops that entry's POP levels
and goes on at its index; a counter above MAX halts the queue with SYNC_SELECT. -/
def SelectBranchesRule : Prop :=
  ∀ (s : State) (lid : Nat) (q : Queue) (op : OpWord) (v w b : Nat) (e : OpWord), AtHead s lid q op → opOpcode op = 0x08 →
    opReserved [(0, 12)] op = false → v = s.getF (cCtr lid (bitsOf op 0 6)) →
    (bitsOf op 6 6 < v → ∃ t, exec (.select lid q) s = .next t ∧ Halted lid q 0x46 s t) ∧
    (v ≤ bitsOf op 6 6 → w = s.getF (qPc lid q) + 1 + v / 8 → b = 16 * (v % 8) → s.inRegion lid q w = true →
      (s.core lid).op.badWords 8 (16 * w) 16 = [] → e = s.opWord lid w → bitOf e (b + 15) = false →
      bitsOf e (b + 12) 3 ≤ s.getF (qDepth lid q) →
      ∃ t, exec (.select lid q) s = .next t ∧ t.getF (qPc lid q) = bitsOf e b 12 ∧
        t.getF (qOps lid q) = satAdd 64 (s.getF (qOps lid q)) 1 ∧
        t.getF (qDepth lid q) = s.getF (qDepth lid q) - bitsOf e (b + 12) 3 ∧
        (∀ k, k < 4 → SameLevel lid q k t (k + bitsOf e (b + 12) 3) s) ∧
        RegsOnly ([qPc lid q, qOps lid q] ++ loopFields lid q) s t)

/-- NOP, HALT and SELECT (R221, R223). -/
def Obligations.NopHaltAndSelect : Prop := NopAndHaltRule ∧ SelectBranchesRule

/-- A fetch (R210, R212): outside the region SYNC_PC, of an uncorrectable word SYNC_POISON, of a word that names another
queue or an opcode the queue has not SYNC_OPCODE; the queue halts at the op. -/
def FetchFaultsRule : Prop :=
  ∀ (s : State) (lid : Nat) (q : Queue), lid < 2048 → s.issues lid q = true →
    (s.inRegion lid q (s.getF (qPc lid q)) = false → ∃ t, exec (.nop lid q) s = .next t ∧ Halted lid q 0x47 s t) ∧
    (s.inRegion lid q (s.getF (qPc lid q)) = true → q.num ∉ (s.core lid).past →
      (s.rdBad lid .op (16 * s.getF (qPc lid q)) 16 = true →
        ∃ t, exec (.nop lid q) s = .next t ∧ t.getF (qState lid q) = 4 ∧ t.getF (qFaultCode lid q) = 0x4A ∧
          t.getF (qPc lid q) = s.getF (qPc lid q)) ∧
      ((s.core lid).op.badWords 8 (16 * s.getF (qPc lid q)) 16 = [] →
        (opQueue (s.opWord lid (s.getF (qPc lid q))) ≠ q.num ∨
          queueHas q (opOpcode (s.opWord lid (s.getF (qPc lid q)))) = false) →
        ∃ t, exec (.nop lid q) s = .next t ∧ Halted lid q 0x40 s t))

/-- A TAKE or LOOK without NOWD that has waited LIMIT ticks raises SYNC_WATCHDOG; with NOWD, a LIMIT of 0, or in a held
partition it does not (R227). -/
def WatchdogFiresRule : Prop :=
  ∀ (s : State) (lid : Nat) (q : Queue) (p : Nat), lid < 2048 → s.owner lid = some p → s.getF (ppState p) = 1 →
    s.getF (qState lid q) = 2 →
    ((s.part p).hold = none → s.getF (qWdog lid q) ≠ 0 → bitOf (s.opWord lid (s.getF (qPc lid q))) 112 = false →
      s.getF (qWdog lid q) ≤ s.getF (qWticks lid q) →
      ∃ t, exec (.syncWatchdog lid q) s = .next t ∧ Halted lid q 0x49 s t) ∧
    ((s.part p).hold.isSome = true ∨ s.getF (qWdog lid q) = 0 ∨ bitOf (s.opWord lid (s.getF (qPc lid q))) 112 = true →
      exec (.syncWatchdog lid q) s = .next s)

/-- The faults of a fetch and of a wait (R210, R212, R227). -/
def Obligations.FetchAndWatchdogFaults : Prop := FetchFaultsRule ∧ WatchdogFiresRule

/-- BAR.ARRIVE records the release's counter and value, sets the barrier's bit in CORE_ARRIVED and hands the arrival to
the ring (R224, R225); a second arrival before the release halts the queue with SYNC_REARRIVE, and a BID that is not the
partition's, an RVAL of 0 or a DRAIN on another queue than S with SYNC_OPERAND (R226). -/
def Obligations.BarrierArrival : Prop :=
  ∀ (s : State) (lid : Nat) (q : Queue) (op : OpWord), AtHead s lid q op → s.allRetired lid q = true → opOpcode op = 0x09 →
    opReserved [(0, 16), (112, 1)] op = false →
    ((s.getF (rbValid (bitsOf op 0 6)) = 0 ∨ s.owner lid ≠ some (s.getF (rbPart (bitsOf op 0 6))) ∨ bitsOf op 12 4 = 0 ∨
        (bitOf op 112 = true ∧ q ≠ .s)) → ∃ t, exec (.barArrive lid q) s = .next t ∧ Halted lid q 0x41 s t) ∧
    (s.getF (rbValid (bitsOf op 0 6)) = 1 → s.owner lid = some (s.getF (rbPart (bitsOf op 0 6))) → bitsOf op 12 4 ≠ 0 →
      (bitOf op 112 = true → q = .s) →
      (Nat.testBit (s.getF (cArrived lid)) (bitsOf op 0 6) = true →
        ∃ t, exec (.barArrive lid q) s = .next t ∧ Halted lid q 0x48 s t) ∧
      (Nat.testBit (s.getF (cArrived lid)) (bitsOf op 0 6) = false → bitOf op 112 = false → (s.stop lid).arrivals = [] →
        s.fifoRoom lid 1 = true →
        ∃ t, exec (.barArrive lid q) s = .next t ∧ Retired lid q s t ∧
          t.getF (cArrived lid) = s.getF (cArrived lid) + 2 ^ bitsOf op 0 6 ∧
          tblGet (fun _ => (0, 0, false)) (t.stop lid).barRec (bitsOf op 0 6) = (bitsOf op 6 6, bitsOf op 12 4, false) ∧
          (t.stop lid).fifo = (s.stop lid).fifo ++ [.sync lid (.arrive (bitsOf op 0 6) 1 false)] ∧
          (∀ l, l ≠ lid → t.stop l = s.stop l) ∧
          RegsStops [qPc lid q, qOps lid q, cArrived lid] s t))

/-! ### Moves -/

/-- X.HBM and X.SEND with operands in order are taken up as move 0 of an idle core (R228, R247, R337): the queue goes on,
and the first flit stands in the stop's FIFO, an HBM flit of up to two units that crosses no multiple of 256 bytes, or a
SEND flit of up to two units, with the source's bytes where it carries data. -/
def MovesTakenUpRule : Prop :=
  ∀ (s : State) (lid : Nat) (op : OpWord), AtHead s lid .x op → (∀ k, (s.core lid).move k = none) → StopIdle s lid →
    CleanCore s lid →
    (opOpcode op = 0x80 → opReserved (hbmFields op) op = false → xHaddr op % 64 = 0 → xLoc op % 64 = 0 →
      inMem (bitOf op (if bitOf op 115 then 112 else 113)) (xLoc op) (xHlen op) = true →
      (∃ p, s.owner lid = some p ∧ s.granted p (bitOf op 115) (xHaddr op) (64 * xHlen op) = true) →
      ∃ t n, exec (.xHbm lid) s = .next t ∧ n = min (min 2 (xHlen op)) ((256 - xHaddr op % 256) / 64) ∧
        (t.stop lid).fifo.head? = some (if bitOf op 115
          then .hbm lid 0 true (xHaddr op) lid false 0 n 0 (s.rd lid (memOf (bitOf op 112)) (xLoc op) (64 * n))
          else .hbm lid 0 false (xHaddr op) lid (bitOf op 113) (xLoc op) n 0 []) ∧
        (∃ f, (t.core lid).move 0 = some ⟨op, f, 0⟩) ∧ t.getF (qPc lid .x) = s.getF (qPc lid .x) + 1 ∧
        OnlyFields [qPc lid .x] s t ∧ MemSame lid s t ∧ (∀ l, l ≠ lid → t.stop l = s.stop l ∧ t.core l = s.core l) ∧
        t = { s with regs := t.regs, cores := t.cores, stops := t.stops }) ∧
    (opOpcode op = 0x81 → opReserved sendFields op = false → xSaddr op % 64 = 0 → xDaddr op % 64 = 0 →
      inMem (bitOf op 112) (xSaddr op) (xLen op) = true → inMem (bitOf op 113) (xDaddr op) (xLen op) = true →
      (if bitOf op 115 then s.pkgOk lid (bitsOf op 87 12) else s.samePart lid (bitsOf op 76 11)) = true →
      ∃ t n, exec (.xSend lid) s = .next t ∧ n = min 2 (xLen op) ∧
        (t.stop lid).fifo.head? = some (.send lid 0 (bitsOf op 76 11) (bitOf op 115) (bitsOf op 87 12) (bitOf op 113)
          (xDaddr op) (decide (n = xLen op)) (bitOf op 114) (xSctr op) 0
          (s.rd lid (memOf (bitOf op 112)) (xSaddr op) (64 * n))) ∧
        (∃ f, (t.core lid).move 0 = some ⟨op, f, 0⟩) ∧ t.getF (qPc lid .x) = s.getF (qPc lid .x) + 1 ∧
        OnlyFields [qPc lid .x] s t ∧ MemSame lid s t ∧ (∀ l, l ≠ lid → t.stop l = s.stop l ∧ t.core l = s.core l) ∧
        t = { s with regs := t.regs, cores := t.cores, stops := t.stops })

/-- What the operands of X ops raise (R229): an address that is no multiple of 64 bytes XMV_OPERAND, a range past the end
of its memory XMV_RANGE, a destination core outside the partition or a package outside the link port plan XMV_DEST; and
an op waits while four moves are in flight (R228). -/
def MoveFaultsRule : Prop :=
  ∀ (s : State) (lid : Nat) (op : OpWord), AtHead s lid .x op →
    (opOpcode op = 0x80 → opReserved (hbmFields op) op = false →
      (xHaddr op % 64 ≠ 0 ∨ xLoc op % 64 ≠ 0 → ∃ t, exec (.xHbm lid) s = .next t ∧ Halted lid .x 0x50 s t) ∧
      (xHaddr op % 64 = 0 → xLoc op % 64 = 0 →
        (¬ inMem (bitOf op (if bitOf op 115 then 112 else 113)) (xLoc op) (xHlen op) = true ∨
          0x2E00000000 < xHaddr op + 64 * xHlen op ∨
          ∃ p, s.owner lid = some p ∧ ∀ g ∈ s.pat.grants, g.part ≠ p ∨ xHaddr op / 4096 * 4096 < g.base) →
        ∃ t, exec (.xHbm lid) s = .next t ∧ Halted lid .x 0x51 s t)) ∧
    (opOpcode op = 0x81 → opReserved sendFields op = false → xSaddr op % 64 = 0 → xDaddr op % 64 = 0 →
      (inMem (bitOf op 112) (xSaddr op) (xLen op) = false ∨ inMem (bitOf op 113) (xDaddr op) (xLen op) = false →
        ∃ t, exec (.xSend lid) s = .next t ∧ Halted lid .x 0x51 s t) ∧
      (inMem (bitOf op 112) (xSaddr op) (xLen op) = true → inMem (bitOf op 113) (xDaddr op) (xLen op) = true →
        ((bitOf op 115 = false ∧ s.samePart lid (bitsOf op 76 11) = false) ∨
          (bitOf op 115 = true ∧ s.pkgOk lid (bitsOf op 87 12) = false)) →
        ∃ t, exec (.xSend lid) s = .next t ∧ Halted lid .x 0x52 s t)) ∧
    (opOpcode op = 0x82 → opReserved [(0, 56), (99, 6), (112, 3)] op = false →
      (xSaddr op % 64 ≠ 0 ∨ xDaddr op % 64 ≠ 0 → ∃ t, exec (.xCopy lid) s = .next t ∧ Halted lid .x 0x50 s t) ∧
      (copyFault op = none → (∀ k, k < 4 → (s.core lid).move k ≠ none) → exec (.xCopy lid) s = .next s))

/-- X.COPY (R228) copies its units in ascending address while no phase is in progress: each byte comes from its place in
the source, or, where the destination follows the source in one memory, from the copy already made. It stands as a move
until it retires; everything else stays, but for the note of a state plane staged in tile memory (R290). -/
def Obligations.CopyCopies : Prop :=
  ∀ (s : State) (lid k : Nat) (op : OpWord), AtHead s lid .x op → opOpcode op = 0x82 →
    opReserved [(0, 56), (99, 6), (112, 3)] op = false → xSaddr op % 64 = 0 → xDaddr op % 64 = 0 →
    inMem (bitOf op 112) (xSaddr op) (xLen op) = true → inMem (bitOf op 113) (xDaddr op) (xLen op) = true →
    s.freeMove lid = some k → CleanCore s lid → (s.core lid).phase = none →
    ∃ t, exec (.xCopy lid) s = .next t ∧
      (∀ i, i < 64 * xLen op → ((t.core lid).mem (memOf (bitOf op 113))).byte (xDaddr op + i) =
        ((s.core lid).mem (memOf (bitOf op 112))).byte (xSaddr op +
          (if bitOf op 112 = bitOf op 113 ∧ xSaddr op < xDaddr op then i % (xDaddr op - xSaddr op) else i))) ∧
      BytesOutside lid (memOf (bitOf op 113)) (xDaddr op) (64 * xLen op) s t ∧ CleanCore t lid ∧
      (t.core lid).move k = some ⟨op, xLen op, xLen op⟩ ∧ (∀ j, j ≠ k → (t.core lid).move j = (s.core lid).move j) ∧
      t.getF (qPc lid .x) = s.getF (qPc lid .x) + 1 ∧ CoreStep lid [qPc lid .x] s t ∧
      (∃ staged, t.core lid = { s.core lid with lace := (t.core lid).lace, tile := (t.core lid).tile,
                                                moves := (t.core lid).moves, staged := staged })

/-- A move retires once every unit of it is written or acknowledged (R213, R228): its number is free again, OPS counts it,
and SIG of X.HBM and X.COPY ADDs 1 to the own core's counter SCTR. Until then nothing changes. An acknowledgement counts
its units for the move it names; in a partition in reset it is discarded (R339). -/
def MoveRetiresRule : Prop :=
  ∀ (s : State) (lid mid : Nat) (m : Move), lid < 2048 → mid < 4 → (s.core lid).move mid = some m →
    (s.coreRuns lid = true → xUnits m.op ≤ m.done →
      (bitOf m.op 114 = false ∨ opOpcode m.op = 0x81 ∨
        (NoWaiter s lid (xSctr m.op) ∧ s.getF (cCtr lid (xSctr m.op)) < 65535)) →
      ∃ t, exec (.moveRetire lid mid) s = .next t ∧ (t.core lid).move mid = none ∧
        (∀ j, j ≠ mid → (t.core lid).move j = (s.core lid).move j) ∧ MemSame lid s t ∧
        t.getF (qOps lid .x) = satAdd 64 (s.getF (qOps lid .x)) 1 ∧
        t.getF (cCtr lid (xSctr m.op)) = s.getF (cCtr lid (xSctr m.op)) +
          (if bitOf m.op 114 = true ∧ opOpcode m.op ≠ 0x81 then 1 else 0) ∧
        CoreStep lid [qOps lid .x, cCtr lid (xSctr m.op)] s t) ∧
    (m.done < xUnits m.op → exec (.moveRetire lid mid) s = .next s) ∧
    (∀ units rest, takeFirst (fun a => a.1 == lid) s.acks = some ((lid, mid, units), rest) →
      (s.resetting (dieOf lid) = false → ∃ t, exec (.writeAck lid) s = .next t ∧
        (t.core lid).move mid = some { m with done := m.done + units } ∧
        (∀ j, j ≠ mid → (t.core lid).move j = (s.core lid).move j) ∧ MemSame lid s t ∧ t.acks = rest ∧
        t = { s with cores := t.cores, acks := t.acks } ∧ (∀ l, l ≠ lid → t.core l = s.core l)) ∧
      (s.resetting (dieOf lid) = true → exec (.writeAck lid) s = .next ({ s with acks := rest }.incF gSprueDiscards 1)))

/-- Moves are taken up, fault and retire. -/
def Obligations.MovesRunAndFault : Prop := MovesTakenUpRule ∧ MoveFaultsRule ∧ MoveRetiresRule

/-! ### The MAC array -/

/-- Rounding (R143): to nearest the error is at most half a unit, and a tie goes to the even value. -/
def Obligations.RoundsToNearestEven : Prop :=
  ∀ (x : Int) (n : Nat), 1 ≤ n → 2 * |2 ^ n * rnd x n false 0 0 - x| ≤ 2 ^ n ∧
    (2 * |2 ^ n * rnd x n false 0 0 - x| = 2 ^ n → rnd x n false 0 0 % 2 = 0)

/-- Stochastic rounding (R157): over the 2^k equally likely values of the random bits, the sum of the results times 2^n
differs from 2^k times the exact value by at most 2^(n - 1), so that their mean is within 2^-(k + 1) of a unit of it; with
k or fewer bits discarded the mean is exact. Each result is the floor or one above (R143). -/
def Obligations.StochasticRoundingUnbiased : Prop :=
  ∀ (x : Int) (n k : Nat), 1 ≤ n → 1 ≤ k →
    2 * |2 ^ n * ((List.range (2 ^ k)).map fun r => rnd x n true k r).sum - 2 ^ k * x| ≤ 2 ^ n ∧
    (n ≤ k → 2 ^ n * ((List.range (2 ^ k)).map fun r => rnd x n true k r).sum = 2 ^ k * x) ∧
    ∀ r, rnd x n true k r = x / 2 ^ n ∨ rnd x n true k r = x / 2 ^ n + 1

/-- MAC.TILE (R145, R162, R163) writes its bank's parameters for the next open; FORMAT 3 raises MAC_FORMAT, a step stride
of 0 MAC_OPERAND. -/
def MacTileSetsNextRule : Prop :=
  ∀ (s : State) (lid : Nat) (op : OpWord), AtHead s lid .m op → opOpcode op = 0x20 →
    (bitsOf op 1 2 = 3 → ∃ t, exec (.macTile lid) s = .next t ∧ Halted lid .m 0x24 s t) ∧
    (bitsOf op 1 2 ≠ 3 → bitsOf op 62 12 = 0 ∨ bitsOf op 74 12 = 0 →
      ∃ t, exec (.macTile lid) s = .next t ∧ Halted lid .m 0x27 s t) ∧
    (bitsOf op 1 2 ≠ 3 → opReserved [(0, 86)] op = false → bitsOf op 62 12 ≠ 0 → bitsOf op 74 12 ≠ 0 →
      ∃ t, exec (.macTile lid) s = .next t ∧ Retired lid .m s t ∧
        tblGet (fun _ => {}) (t.core lid).macNext (bitsOf op 0 1) =
          { format := bitsOf op 1 2, anchor := sbitsOf op 3 10, foldRound := bitsOf op 13 1, elemBase := bitsOf op 14 32,
            elemStride := bitsOf op 46 16, aStep := bitsOf op 62 12, bStep := bitsOf op 74 12 } ∧
        (∀ b, b ≠ bitsOf op 0 1 →
          tblGet (fun _ => {}) (t.core lid).macNext b = tblGet (fun _ => {}) (s.core lid).macNext b) ∧
        t.core lid = { s.core lid with macNext := (t.core lid).macNext } ∧ CoreStep lid [qPc lid .m, qOps lid .m] s t)

/-- The bank states (R145-R147, R149): MAC.MM with OPEN on an OPEN bank raises MAC_REOPEN and on a CLOSED bank without a
drain MAC_UNDRAINED, and waits for one whose drain has issued or that is DRAINING; without OPEN a bank that is not OPEN raises
MAC_NOTOPEN; MAC.DRAIN of a bank that is not CLOSED, or whose drain has issued, raises MAC_NOCLOSE, and a third drain waits. -/
def MacBankFaultsRule : Prop :=
  ∀ (s : State) (lid b : Nat) (op : OpWord), AtHead s lid .m op → b = bitsOf op 0 1 →
    (opOpcode op = 0x21 → opReserved [(0, 91), (112, 2)] op = false →
      (bitOf op 112 = true → s.getF (cBankState lid b) = 1 →
        ∃ t, exec (.macMm lid) s = .next t ∧ Halted lid .m 0x21 s t) ∧
      (bitOf op 112 = true → s.getF (cBankState lid b) = 2 → s.getF (cBankDrainIssued lid b) = 0 →
        ∃ t, exec (.macMm lid) s = .next t ∧ Halted lid .m 0x22 s t) ∧
      (bitOf op 112 = true → s.getF (cBankState lid b) = 2 → s.getF (cBankDrainIssued lid b) = 1 →
        exec (.macMm lid) s = .next s) ∧
      (bitOf op 112 = true → s.getF (cBankState lid b) = 3 → exec (.macMm lid) s = .next s) ∧
      (bitOf op 112 = false → s.getF (cBankState lid b) ≠ 1 →
        ∃ t, exec (.macMm lid) s = .next t ∧ Halted lid .m 0x20 s t)) ∧
    (opOpcode op = 0x22 → opReserved [(0, 66), (112, 1)] op = false →
      (2 ≤ (s.core lid).drains.length → exec (.macDrain lid) s = .next s) ∧
      ((s.core lid).drains.length < 2 → s.getF (cBankState lid b) ≠ 2 ∨ s.getF (cBankDrainIssued lid b) = 1 →
        ∃ t, exec (.macDrain lid) s = .next t ∧ Halted lid .m 0x23 s t))

/-- MAC.MM of INT8 or INT4 (R133-R140, R145) adds the exact sum of its products to what its tile holds, from 0 where it
opens the tile, whatever the folds between; with CLOSE the inner accumulators end empty and the bank CLOSED, else OPEN.
The op retires; memories, the other bank and all else stay. -/
def MacMmSumsRule : Prop :=
  ∀ (s : State) (lid b : Nat) (op : OpWord) (p : MacParams) (k0 : Bank), AtHead s lid .m op → opOpcode op = 0x21 →
    opReserved [(0, 91), (112, 2)] op = false → b = bitsOf op 0 1 →
    s.getF (cBankState lid b) = (if bitOf op 112 then 0 else 1) →
    p = (if bitOf op 112 then tblGet (fun _ => {}) (s.core lid).macNext b else (s.bank lid b).params) →
    k0 = (if bitOf op 112 then {} else s.bank lid b) → p.format ≤ 1 → mmFault p op = none → CleanCore s lid →
    (∀ i, i < 1024 → |(elementsOf k0.outer).getD i 0| ≤ 2 ^ 62 ∧ |(elementsOf k0.inner).getD i 0| ≤ 2 ^ 21) →
    (elementsOf k0.outer).length = 1024 → (elementsOf k0.inner).length = 1024 →
    ∃ t, exec (.macMm lid) s = .next t ∧ Retired lid .m s t ∧
      (∀ i j, i < 32 → j < 32 → (t.bank lid b).outer.getD (32 * i + j) 0 + (t.bank lid b).inner.getD (32 * i + j) 0 =
        (elementsOf k0.outer).getD (32 * i + j) 0 + (elementsOf k0.inner).getD (32 * i + j) 0 +
        ((List.range (mmSteps op)).map fun k =>
          let x := (s.core lid).tile.byte (mmA op + 32 * p.aStep * k + i)
          let y := (s.core lid).tile.byte (mmB op + 32 * p.bStep * k + j)
          if p.format = 1 then s4 false x * s4 false y + s4 true x * s4 true y else s8 x * s8 y).sum) ∧
      (bitOf op 113 = true → ∀ i, i < 1024 → (t.bank lid b).inner.getD i 0 = 0) ∧
      t.getF (cBankState lid b) = (if bitOf op 113 then 2 else 1) ∧ (t.bank lid b).params = p ∧
      (∀ c, c ≠ b → t.bank lid c = s.bank lid c) ∧
      t.core lid = { s.core lid with banks := (t.core lid).banks } ∧
      t.getF (cSteps lid) = satAdd 64 (s.getF (cSteps lid)) (mmSteps op) ∧
      CoreStep lid [qPc lid .m, qOps lid .m, ⟨(cBankState lid b).off, 0, 64⟩, cSteps lid, cBlocks lid, cHolds lid,
        cMacStalls lid] s t

/-- An MXINT8 MAC.MM of one block (R134, R139-R142) on a fresh bank with CLOSE: where no scale code is 0xFF, each element
is its block sum times 2^s for a shift s of 0 to 42, the s64 limit of the block sum's sign for 43 or more, the nearest
rounding of the block sum for -1 to -21 under FOLD_ROUND 0, and 0 for less. A code of 0xFF poisons the tile (R142). -/
def MacMxFoldsRule : Prop :=
  ∀ (s : State) (lid b : Nat) (op : OpWord) (p : MacParams), AtHead s lid .m op → opOpcode op = 0x21 →
    opReserved [(0, 91), (112, 2)] op = false → b = bitsOf op 0 1 → bitOf op 112 = true → bitOf op 113 = true →
    s.getF (cBankState lid b) = 0 → p = tblGet (fun _ => {}) (s.core lid).macNext b → p.format = 2 → mmSteps op = 32 →
    mmFault p op = none → CleanCore s lid →
    ∃ t, exec (.macMm lid) s = .next t ∧ Retired lid .m s t ∧ t.getF (cBankState lid b) = 2 ∧
      (∀ i j, i < 32 → j < 32 → ∀ (ca cb : Nat) (sum sh : Int),
        ca = ((s.core lid).tile.byte (mmSA op + i)).toNat → cb = ((s.core lid).tile.byte (mmSB op + j)).toNat →
        sum = ((List.range 32).map fun k => s8 ((s.core lid).tile.byte (mmA op + 32 * p.aStep * k + i)) *
          s8 ((s.core lid).tile.byte (mmB op + 32 * p.bStep * k + j))).sum →
        sh = (ca : Int) - 127 + (cb - 127) - p.anchor →
        (ca = 255 ∨ cb = 255 → (t.bank lid b).outer.getD (32 * i + j) 0 = 0 ∧ t.getF (cBankPoison lid b) = 1 ∧
          t.getF (cMacPoison lid) = 1 ∧ t.getF (cScaleNan lid) = 1) ∧
        (ca ≠ 255 → cb ≠ 255 →
          (43 ≤ sh → sum ≠ 0 → (t.bank lid b).outer.getD (32 * i + j) 0 = (if 0 < sum then 2 ^ 63 - 1 else -2 ^ 63) ∧
            t.getF (cBankSat lid b) = 1 ∧ t.getF (cOuterSat lid) = 1) ∧
          (0 ≤ sh → sh ≤ 42 → (t.bank lid b).outer.getD (32 * i + j) 0 = sum * 2 ^ sh.toNat) ∧
          (-21 ≤ sh → sh ≤ -1 → p.foldRound = 0 →
            (t.bank lid b).outer.getD (32 * i + j) 0 = rnd sum (-sh).toNat false 4 0) ∧
          (sh ≤ -22 → (t.bank lid b).outer.getD (32 * i + j) 0 = 0 ∧
            (sum ≠ 0 → t.getF (cBankDropped lid b) = 1 ∧ t.getF (cDropped lid) = 1)))) ∧
      CoreStep lid [qPc lid .m, qOps lid .m, ⟨(cBankState lid b).off, 0, 64⟩, cSteps lid, cBlocks lid, cHolds lid,
        cMacStalls lid, cOuterSat lid, cDropped lid, cMacPoison lid, cScaleNan lid] s t

/-- MAC.MM sums products, and folds MXINT8 blocks. -/
def Obligations.MacPasses : Prop := MacMmSumsRule ∧ MacMxFoldsRule

/-- MAC.DRAIN of a CLOSED bank (R149) hands the drain, with the key sweep of its issue, to the drain engine, which holds
up to two, and the queue goes on. -/
def MacDrainIssuesRule : Prop :=
  ∀ (s : State) (lid b : Nat) (op : OpWord), AtHead s lid .m op → opOpcode op = 0x22 →
    opReserved [(0, 66), (112, 1)] op = false → b = bitsOf op 0 1 → (s.core lid).drains.length < 2 →
    s.getF (cBankState lid b) = 2 → s.getF (cBankDrainIssued lid b) = 0 → drainFault s lid op = none →
    ∃ t, exec (.macDrain lid) s = .next t ∧ t.getF (qPc lid .m) = s.getF (qPc lid .m) + 1 ∧
      t.getF (cBankDrainIssued lid b) = 1 ∧ CoreStep lid [qPc lid .m, cBankDrainIssued lid b] s t ∧
      t.core lid = { s.core lid with drains := (s.core lid).drains ++
        [⟨op, s.getF (cResult lid) * 65536 + s.getF (cSweep lid), s.getF (qPc lid .m), 0⟩] }

/-- MAC.TILE, the bank states and MAC.DRAIN. -/
def Obligations.MacBanksAndTiles : Prop := MacTileSetsNextRule ∧ MacBankFaultsRule ∧ MacDrainIssuesRule

/-- The oldest drain to tile memory (R145, R148-R152, R155) writes one row: its bank is DRAINING until the last row, and then
EMPTY, where the drain retires and counts its tile. RAW64 stores each element whole, INT32 and INT8 without stochastic
rounding its nearest rounding by SHIFT clamped to the width; of an unpoisoned bank nothing else of the core's memories
changes, and of a poisoned one every word of the row is poisoned. -/
def DrainWritesTileRule : Prop :=
  ∀ (s : State) (lid b i : Nat) (d : Drain) (rest : List Drain), lid < 2048 → (s.core lid).drains = d :: rest →
    s.coreRuns lid = true → b = bitsOf d.op 0 1 → drFormat d.op < 6 → drainFault s lid d.op = none → CleanCore s lid →
    i = d.row → i < drRows d.op →
    ∃ t, exec (.drainRead lid) s = .next t ∧
      (i + 1 < drRows d.op → (t.core lid).drains = { d with row := i + 1 } :: rest ∧ t.getF (cBankState lid b) = 3 ∧
        t.getF (cTiles lid) = s.getF (cTiles lid) ∧ t.getF (qOps lid .m) = s.getF (qOps lid .m)) ∧
      (i + 1 = drRows d.op → (t.core lid).drains = rest ∧ t.getF (cBankState lid b) = 0 ∧
        t.getF (cTiles lid) = satAdd 32 (s.getF (cTiles lid)) 1 ∧ t.getF (qOps lid .m) = satAdd 64 (s.getF (qOps lid .m)) 1) ∧
      (∀ j, j < drCols d.op → ∀ o : Int, o = (elementsOf (s.bank lid b).outer).getD (32 * i + j) 0 →
        (drFormat d.op = 0 → t.rd lid .tile (drDest d.op + i * drStride d.op + 8 * j) 8 =
          natLe 8 (BitVec.ofInt 64 o).toNat) ∧
        (drFormat d.op = 1 → bitOf d.op 112 = false → t.rd lid .tile (drDest d.op + i * drStride d.op + 4 * j) 4 =
          natLe 4 (BitVec.ofInt 32 (satS 32 (if bitsOf d.op 4 6 = 0 then o else rnd o (bitsOf d.op 4 6) false 4 0))).toNat) ∧
        (drFormat d.op = 2 → bitOf d.op 112 = false → t.rd lid .tile (drDest d.op + i * drStride d.op + j) 1 =
          natLe 1 (BitVec.ofInt 8 (satS 8 (if bitsOf d.op 4 6 = 0 then o else rnd o (bitsOf d.op 4 6) false 4 0))).toNat)) ∧
      (∀ k a, (k ≠ .tile ∨ a < drDest d.op + i * drStride d.op ∨
          drDest d.op + i * drStride d.op + rowBytes (drFormat d.op) (drCols d.op) ≤ a) →
        ((t.core lid).mem k).byte a = ((s.core lid).mem k).byte a) ∧
      (s.getF (cBankPoison lid b) = 1 → t.getF (cMacPoison lid) = 1 ∧
        ∀ a, drDest d.op + i * drStride d.op ≤ a →
          a < drDest d.op + i * drStride d.op + rowBytes (drFormat d.op) (drCols d.op) →
          (t.core lid).tile.err 8 (a / 8) = some .poison) ∧
      (s.getF (cBankPoison lid b) = 0 → CleanCore t lid ∧ CoreStep lid [qOps lid .m, cBankState lid b, cTiles lid,
        cMacStalls lid, cBlocks lid, cHolds lid, cDrainSat lid] s t)

/-- A lace drain of one element (R62, R149, R152, R154): LACE_OVER overwrites the field word of its unit, LACE_ADD adds to
it with saturation, in its replica; nothing else of the core's memories changes. -/
def DrainWritesLaceRule : Prop :=
  ∀ (s : State) (lid b w : Nat) (d : Drain) (rest : List Drain) (v : Int), lid < 2048 → (s.core lid).drains = d :: rest →
    s.coreRuns lid = true → b = bitsOf d.op 0 1 → 6 ≤ drFormat d.op → d.row = 0 → drRows d.op = 1 → drCols d.op = 1 →
    bitOf d.op 112 = false → bitsOf d.op 4 6 = 0 → (s.core lid).phase = none → s.getF (cBankPoison lid b) = 0 →
    CleanCore s lid → w = s.fieldAt lid (bitsOf d.op 30 4) (bitsOf d.op 34 15) →
    v = satS 32 ((elementsOf (s.bank lid b).outer).getD 0 0) →
    ∃ t, exec (.drainRead lid) s = .next t ∧ (t.core lid).drains = rest ∧ t.getF (cBankState lid b) = 0 ∧
      (t.lace lid w).toInt = (if drFormat d.op = 6 then v else satS 32 ((s.lace lid w).toInt + v)) ∧
      BytesOutside lid .lace (4 * w) 4 s t ∧ t.getF (cUpdates lid) = satAdd 64 (s.getF (cUpdates lid)) 1 ∧
      t.getF (cTiles lid) = satAdd 32 (s.getF (cTiles lid)) 1 ∧ t.getF (qOps lid .m) = satAdd 64 (s.getF (qOps lid .m)) 1 ∧
      CoreStep lid [qOps lid .m, cBankState lid b, cTiles lid, cMacStalls lid, cBlocks lid, cHolds lid, cDrainSat lid,
        cUpdates lid, cFieldSat lid, cSatMask lid] s t

/-- Drains write tile and lace memory. -/
def Obligations.DrainsWrite : Prop := DrainWritesTileRule ∧ DrainWritesLaceRule

/-! ### The sampling fabric and anneal runs -/

/-- SUA.PHASE over the units of one block without groups, whose descriptors name an empty list and publish nothing (R71,
R72, R75, R78, R79, R91): a unit that is mapped and unclamped takes the decision of its rule on β, its field and its
uniform; every other unit keeps its state; no other byte of memory changes, and the phase is in progress. -/
def PhaseDecidesRule : Prop :=
  ∀ (s : State) (lid c r : Nat) (op : OpWord), AtHead s lid .s op → opOpcode op = 0x40 →
    opReserved [(0, 13), (112, 2)] op = false → bitOf op 113 = false → c = bitsOf op 0 4 → r = bitsOf op 4 4 →
    (s.core lid).phase = none → phaseOperandFault s lid op = none → CleanCore s lid → (s.stop lid).outbound = [] →
    s.getF (cColFirst lid c) / 64 = (s.getF (cColEnd lid c) - 1) / 64 → tblGet (fun _ => (0, 0)) (s.core lid).groupIdx c = (0, 0) →
    (∀ i, s.getF (cColFirst lid c) ≤ i → i < s.getF (cColEnd lid c) → s.groupBit lid i = false ∧
      bitOf (s.lace lid (s.descAt lid i)) 13 = true ∧ bitOf (s.lace lid (s.descAt lid i)) 12 = false ∧
      ∀ j, s.getF (cColFirst lid c) ≤ j → j < s.getF (cColEnd lid c) → s.descAt lid i ≠ s.stateAt lid r (j / 32)) →
    ∃ t, exec (.suaPhase lid) s = .next t ∧
      (∀ i, s.getF (cColFirst lid c) ≤ i → i < s.getF (cColEnd lid c) → t.unitState lid r i =
        if s.modelIndex lid i = 0xFFFFFFFF ∨ s.clampBit lid i = true then s.unitState lid r i
        else decideUnit (bitsOf op 8 2) (s.tableEntry lid (bitsOf op 10 3)) (s.getF (cBeta lid r)) (s.field lid r i)
          (s.unitState lid r i) (unitDraw (s.seedOf lid) 1 (s.modelIndex lid i) (s.keySweep lid) r c)) ∧
      (∀ i, i < 64 → (i < s.getF (cColFirst lid c) % 64 ∨ (s.getF (cColEnd lid c) - 1) % 64 < i) →
        ∀ u, u = s.getF (cColFirst lid c) / 64 * 64 + i → t.unitState lid r u = s.unitState lid r u) ∧
      (∀ m a, (m ≠ .lace ∨ ∀ i, s.getF (cColFirst lid c) ≤ i → i < s.getF (cColEnd lid c) →
        a / 4 ≠ s.stateAt lid r (i / 32)) → ((t.core lid).mem m).byte a = ((s.core lid).mem m).byte a) ∧
      (t.core lid).phase = some ⟨c, r, bitOf op 112, false, s.getF (qPc lid .s)⟩ ∧
      t.getF (qPc lid .s) = s.getF (qPc lid .s) + 1 ∧ (bitOf op 112 = true → t.getF (cFree lid) = 1) ∧
      t.core lid = { s.core lid with lace := (t.core lid).lace, phase := (t.core lid).phase } ∧
      CoreStep lid ([qPc lid .s, cEvals lid, cFlips lid, cGroupErr lid, cBlocks lid, cHolds lid, cSuaStalls lid] ++
        if bitOf op 112 then [cFree lid] else []) s t

/-- The heat-bath rule sets a unit when its uniform is below the table's value at β times its field, Metropolis flips it
when the uniform is below the value at the change's exponent, greedy follows the field's sign and keeps the state at 0
(R78); at a breakpoint the table's value is its entry, and at the default heat-bath table's middle it is one half (R77,
R81). -/
def DecisionRulesRule : Prop :=
  (∀ (ent : Nat → Nat) (beta u : Nat) (h : Int) (st : Bool),
    (decideUnit 0 ent beta h st u = true ↔ u < actVal ent (beta * h)) ∧
    (decideUnit 1 ent beta h st u ≠ st ↔ u < actVal ent (if st then -(beta * h) else beta * h)) ∧
    (0 < h → decideUnit 2 ent beta h st u = true) ∧ (h < 0 → decideUnit 2 ent beta h st u = false) ∧
    decideUnit 2 ent beta 0 st u = st) ∧
  (∀ (ent : Nat → Nat) (k : Nat), k < 1024 → actVal ent (((k : Int) - 512) * 2 ^ 19) = ent k) ∧
  (∀ (ent : Nat → Nat) (x : Int), (x < -(2 ^ 28) → actVal ent x = ent 0) ∧ (2 ^ 28 ≤ x → actVal ent x = ent 1023)) ∧
  heatEntry 512 = 32768 ∧ metroEntry 512 = 65536

/-- A phase's batches decide by their rules. -/
def Obligations.PhasesDecide : Prop := PhaseDecidesRule ∧ DecisionRulesRule

/-- Once the last batch has issued, held notices are applied in inbox order, and no more are held (R92), and the releases
that waited for them at the stop wait on only where an update of theirs was deferred (R258): with none held the phase is
marked issued and nothing else changes; one held notice whose mirror list is a single entry of another colour
adds its weight, by the notice's direction, to its target's field. -/
def HeldNoticesReleasedRule : Prop :=
  ∀ (s : State) (lid : Nat) (p : Phase), lid < 2048 → s.coreRuns lid = true → (s.core lid).phase = some p →
    p.issued = false → CleanCore s lid →
    ((s.core lid).inbox = [] → ∃ t, exec (.heldNoticeRelease lid) s = .next t ∧
      t.core lid = { s.core lid with phase := some { p with issued := true } } ∧ CoreStopStep lid [] s t ∧ t.regs = s.regs ∧
      t.stop lid = { s.stop lid with releases := (s.stop lid).releases.map fun h =>
        { h with inbox := false, upd := h.upd || (h.inbox && !(s.core lid).deferred.isEmpty) } }) ∧
    (∀ (n : W32) (k tgt w : Nat) (e l : W32), (s.core lid).inbox = [n] → s.windowFor lid n = some k →
      e = s.lace lid (s.dirAt lid k n) → l = s.lace lid (bitsOf e 14 18) → bitOf l 0 = true → tgt = bitsOf l 17 15 →
      tgt < s.units lid → s.colourOf lid tgt ≠ some (bitsOf e 9 4) → w = s.fieldAt lid (bitsOf n 1 4) tgt →
      ∃ t, exec (.heldNoticeRelease lid) s = .next t ∧ (t.core lid).inbox = [] ∧
        (t.core lid).phase = some { p with issued := true } ∧
        (t.lace lid w).toInt = satS 32 ((s.lace lid w).toInt + (if bitOf n 5 then sbitsOf l 1 16 else -sbitsOf l 1 16)) ∧
        BytesOutside lid .lace (4 * w) 4 s t ∧ t.getF (cUpdates lid) = satAdd 64 (s.getF (cUpdates lid)) 1 ∧
        (∀ h ∈ (t.stop lid).releases, h.inbox = false) ∧
        CoreStopStep lid [cUpdates lid, cFieldSat lid, cSatMask lid, cLaceStalls lid] s t)

/-- Deferred updates are applied in the order they were generated, with saturation, once the phase's last batch has been
decided; each is a conflict that the pattern did not declare; the phase then retires (R93, R101), and no release at the stop
waits for them any more (R258). -/
def DeferredUpdatesAppliedRule : Prop :=
  ∀ (s : State) (lid : Nat) (p : Phase), lid < 2048 → s.coreRuns lid = true → (s.core lid).phase = some p →
    CleanCore s lid → StopIdle s lid →
    (p.issued = false → exec (.deferredUpdateApply lid) s = .next s) ∧
    (p.issued = true → ∃ t, exec (.deferredUpdateApply lid) s = .next t ∧ (t.core lid).phase = none ∧
      (t.core lid).deferred = [] ∧ (∀ w, w < 2 ^ 18 → (t.lace lid w).toInt = ((s.core lid).deferred).foldl
        (fun v u => if s.fieldAt lid u.r u.tgt = w then satS 32 (v + u.w) else v) (s.lace lid w).toInt) ∧
      (t.core lid).tile = (s.core lid).tile ∧ (t.core lid).op = (s.core lid).op ∧
      t.getF (qOps lid .s) = satAdd 64 (s.getF (qOps lid .s)) 1 ∧
      t.getF (cConflicts lid) = min (2 ^ 32 - 1) (s.getF (cConflicts lid) + (s.core lid).deferred.length) ∧
      ((s.core lid).deferred ≠ [] → t.getF (cUndeclared lid) = 1 ∧ t.getF (cConflict lid) = 1) ∧
      (∀ h ∈ (t.stop lid).releases, h.upd = false) ∧
      CoreStopStep lid [qOps lid .s, cUpdates lid, cFieldSat lid, cSatMask lid, cConflicts lid, cConflict lid,
        cConflictMask lid, cUndeclared lid] s t)

/-- Held notices go out and deferred updates are applied as a phase ends. -/
def Obligations.NoticesAndDeferred : Prop := HeldNoticesReleasedRule ∧ DeferredUpdatesAppliedRule

/-- A run of updates to one field word (R50). -/
def addAll (lid r tgt : Nat) (l : List Int) (s : State) : State := l.foldl (fun t w => t.addField lid r tgt w) s

/-- The update port (R51, R66): an update adds its weight to the field exactly, or where the sum lies outside the s32 range
stores the nearest limit and sets FIELD_SAT and the replica's bit of SAT_MASK, later updates acting on that; so a run of updates
of which none saturates leaves the field with the sum of their weights, whatever their order. -/
def Obligations.UpdatesSaturateAndCommute : Prop :=
  ∀ (s : State) (lid r tgt a : Nat), lid < 2048 → r < 16 → CleanCore s lid → a = s.fieldAt lid r tgt →
    (∀ w : Int, ((s.addField lid r tgt w).lace lid a).toInt = satS 32 ((s.lace lid a).toInt + w) ∧
      CleanCore (s.addField lid r tgt w) lid ∧ BytesOutside lid .lace (4 * a) 4 s (s.addField lid r tgt w) ∧
      (satS 32 ((s.lace lid a).toInt + w) ≠ (s.lace lid a).toInt + w → (s.addField lid r tgt w).getF (cFieldSat lid) = 1 ∧
        Nat.testBit ((s.addField lid r tgt w).getF (cSatMask lid)) r = true)) ∧
    (∀ l : List Int, (∀ k, k ≤ l.length → satS 32 ((s.lace lid a).toInt + (l.take k).sum) = (s.lace lid a).toInt + (l.take k).sum) →
      ((addAll lid r tgt l s).lace lid a).toInt = (s.lace lid a).toInt + l.sum ∧
        BytesOutside lid .lace (4 * a) 4 s (addAll lid r tgt l s))

/-- SUA.BETA (R101, R110) writes VALUE to the replicas of its mask, or with CURVE the value of its breakpoints at CURVE: the
first up to the first breakpoint, the last from the last on, and between two the straight line truncated towards the
earlier; a mask that names a replica the core has not raises SUA_OPERAND. -/
def BetaSetRule : Prop :=
  ∀ (s : State) (lid : Nat) (op : OpWord), AtHead s lid .s op → opOpcode op = 0x41 →
    opReserved [(0, 67), (112, 1)] op = false → (s.core lid).phase = none →
    (s.maskOk lid (bitsOf op 32 16) = false → ∃ t, exec (.suaBeta lid) s = .next t ∧ Halted lid .s 0x17 s t) ∧
    (s.maskOk lid (bitsOf op 32 16) = true → bitOf op 112 = false → ∃ t, exec (.suaBeta lid) s = .next t ∧
      Retired lid .s s t ∧ (∀ r, r < 16 → t.getF (cBeta lid r) =
        if Nat.testBit (bitsOf op 32 16) r then bitsOf op 0 32 else s.getF (cBeta lid r)) ∧
      RegsOnly ([qPc lid .s, qOps lid .s] ++ (List.range 16).map (cBeta lid)) s t) ∧
    (∀ a n k x, s.maskOk lid (bitsOf op 32 16) = true → bitOf op 112 = true → a = bitsOf op 48 19 → a % 64 = 0 →
      n = s.rdNat lid .tile a 4 → 0 < n → n ≤ 256 → a + 8 + 8 * n ≤ 0x80000 → CleanCore s lid →
      (∀ j, j + 1 < n → (s.breakpoint lid a j).1 < (s.breakpoint lid a (j + 1)).1) → x = s.getF (cCurve lid) → k < n →
      ∃ t, exec (.suaBeta lid) s = .next t ∧ Retired lid .s s t ∧
        (∀ r, r < 16 → Nat.testBit (bitsOf op 32 16) r = false → t.getF (cBeta lid r) = s.getF (cBeta lid r)) ∧
        (∀ r, r < 16 → Nat.testBit (bitsOf op 32 16) r = true →
          (x ≤ (s.breakpoint lid a 0).1 → t.getF (cBeta lid r) = (s.breakpoint lid a 0).2) ∧
          ((s.breakpoint lid a (n - 1)).1 ≤ x → t.getF (cBeta lid r) = (s.breakpoint lid a (n - 1)).2) ∧
          (k + 1 < n → (s.breakpoint lid a k).1 ≤ x → x < (s.breakpoint lid a (k + 1)).1 →
            (t.getF (cBeta lid r) : Int) = (s.breakpoint lid a k).2 +
              Int.tdiv (((s.breakpoint lid a (k + 1)).2 - (s.breakpoint lid a k).2 : Int) * (x - (s.breakpoint lid a k).1))
                ((s.breakpoint lid a (k + 1)).1 - (s.breakpoint lid a k).1))) ∧
        RegsOnly ([qPc lid .s, qOps lid .s] ++ (List.range 16).map (cBeta lid)) s t)

/-- SUA.CLAMP of one record (R82, R83): RELEASE clears the unit's clamp bit and leaves its states; otherwise the bit is set
and the unit takes VALUE in every replica of the mask; with an empty list and nothing published no field changes. A unit
that the core has not raises SUA_CLAMP_INDEX. -/
def ClampRecordRule : Prop :=
  ∀ (s : State) (lid i : Nat) (op : OpWord) (rec : W32), AtHead s lid .s op → opOpcode op = 0x42 →
    opReserved [(0, 51)] op = false → (s.core lid).phase = none → bitsOf op 19 16 = 1 → bitsOf op 0 19 % 4 = 0 →
    bitsOf op 0 19 + 4 ≤ 0x80000 → s.maskOk lid (bitsOf op 35 16) = true → CleanCore s lid → (s.stop lid).outbound = [] →
    rec = BitVec.ofNat 32 (s.rdNat lid .tile (bitsOf op 0 19) 4) → i = bitsOf rec 17 15 →
    (s.units lid ≤ i → ∃ t, exec (.suaClamp lid) s = .next t ∧ Halted lid .s 0x11 s t) ∧
    (i < s.units lid → bitOf rec 15 = true → ∃ t, exec (.suaClamp lid) s = .next t ∧ Retired lid .s s t ∧
      t.clampBit lid i = false ∧ BytesOutside lid .lace (4 * s.clampAt lid (i / 32) + i % 32 / 8) 1 s t ∧
      CoreStep lid [qPc lid .s, qOps lid .s] s t) ∧
    (i < s.units lid → bitOf rec 15 = false → bitOf (s.lace lid (s.descAt lid i)) 13 = true →
      bitOf (s.lace lid (s.descAt lid i)) 12 = false → s.descAt lid i ≠ s.clampAt lid (i / 32) →
      (∀ r, Nat.testBit (bitsOf op 35 16) r = true →
        s.stateAt lid r (i / 32) ≠ s.clampAt lid (i / 32) ∧ s.stateAt lid r (i / 32) ≠ s.descAt lid i) →
      ∃ t, exec (.suaClamp lid) s = .next t ∧ Retired lid .s s t ∧ t.clampBit lid i = true ∧
        (∀ r, r < 16 → Nat.testBit (bitsOf op 35 16) r = true → t.unitState lid r i = bitOf rec 16) ∧
        (∀ m a, (m ≠ .lace ∨ (a / 4 ≠ s.clampAt lid (i / 32) ∧ ∀ r, r < 16 → Nat.testBit (bitsOf op 35 16) r = true →
          a / 4 ≠ s.stateAt lid r (i / 32))) → ((t.core lid).mem m).byte a = ((s.core lid).mem m).byte a) ∧
        CoreStep lid [qPc lid .s, qOps lid .s] s t)

/-- SUA.SNAP (R97) copies a replica's states to tile memory, packed or one byte a unit; SUA.CLRCOUNT (R99) zeroes the
replica's on-counts by full-word writes, which clear poison. Both leave every other byte. -/
def SnapAndClearCountsRule : Prop :=
  ∀ (s : State) (lid r : Nat) (op : OpWord), AtHead s lid .s op → (s.core lid).phase = none → r = bitsOf op 50 4 →
    r < s.replicas lid →
    (∀ dest first n, opOpcode op = 0x43 → opReserved [(0, 54), (112, 1)] op = false → dest = bitsOf op 0 19 →
      first = bitsOf op 19 15 → n = bitsOf op 34 16 → dest % 64 = 0 → first % 64 = 0 → n % 64 = 0 → 64 ≤ n → n ≤ 32768 →
      first + n ≤ s.unitsUp lid → dest + (if bitOf op 112 then n else n / 8) ≤ 0x80000 → CleanCore s lid →
      ∃ t, exec (.suaSnap lid) s = .next t ∧ Retired lid .s s t ∧
        (∀ i, i < n → if bitOf op 112 then (t.core lid).tile.byte (dest + i) = BitVec.ofNat 8 (s.unitState lid r (first + i)).toNat
          else bitOf ((t.core lid).tile.byte (dest + i / 8)) (i % 8) = s.unitState lid r (first + i)) ∧
        BytesOutside lid .tile dest (if bitOf op 112 then n else n / 8) s t ∧ CoreStep lid [qPc lid .s, qOps lid .s] s t) ∧
    (opOpcode op = 0x44 → opReserved [(50, 4)] op = false →
      ∃ t, exec (.suaClrcount lid) s = .next t ∧ Retired lid .s s t ∧
        (∀ i, i < s.unitsUp lid → t.rdNat lid .lace (4 * s.onAt lid r (i / 2) + 2 * (i % 2)) 2 = 0 ∧
          (t.core lid).lace.err 4 (s.onAt lid r (i / 2)) = none) ∧
        (∀ m a, (m ≠ .lace ∨ ∀ i, i < s.unitsUp lid → a / 4 ≠ s.onAt lid r (i / 2)) →
          ((t.core lid).mem m).byte a = ((s.core lid).mem m).byte a) ∧ CoreStep lid [qPc lid .s, qOps lid .s] s t)

/-- SUA.BETA, clamp records, SUA.SNAP and SUA.CLRCOUNT. -/
def Obligations.BetaClampSnapAndClear : Prop := BetaSetRule ∧ ClampRecordRule ∧ SnapAndClearCountsRule

/-- SUA.SWEEP and SUA.RESULT (R105, R106): SWEEP adds 1 to SWEEP and CURVE, and raises RUN_SWEEP when SWEEP is 65,535;
RESULT adds 1 to RESULT, zeroes SWEEP, CURVE and RESTART and begins with no staging slot filled (R126); at the leader it captures the deadline and clears FIRED
(R120), and stages a seed that is pending for the partition, at both taps of every die (R203, R255). -/
def SweepAndResultRule : Prop :=
  ∀ (s : State) (lid p : Nat) (op : OpWord), AtHead s lid .s op → (s.core lid).phase = none → bitsOf op 0 118 = 0 →
    s.owner lid = some p →
    (opOpcode op = 0x45 → s.getF (cSweep lid) = 65535 → ∃ t, exec (.suaSweep lid) s = .next t ∧ Halted lid .s 0x18 s t) ∧
    (opOpcode op = 0x45 → s.getF (cSweep lid) ≠ 65535 → ∃ t, exec (.suaSweep lid) s = .next t ∧ Retired lid .s s t ∧
      t.getF (cSweep lid) = s.getF (cSweep lid) + 1 ∧ t.getF (cCurve lid) = (s.getF (cCurve lid) + 1) % 65536 ∧
      RegsOnly [qPc lid .s, qOps lid .s, cSweep lid, cCurve lid] s t) ∧
    (opOpcode op = 0x46 → ∃ t, exec (.suaResult lid) s = .next t ∧ Retired lid .s s t ∧
      t.getF (cResult lid) = (s.getF (cResult lid) + 1) % 2 ^ 48 ∧ t.getF (cSweep lid) = 0 ∧ t.getF (cCurve lid) = 0 ∧
      t.getF (cRestart lid) = 0 ∧ t.core lid = { s.core lid with staged := [] } ∧ (∀ k, k ≠ lid → t.core k = s.core k) ∧
      (s.leader p ≠ some lid → t = { s with regs := t.regs, cores := t.cores } ∧
        OnlyFields [qPc lid .s, qOps lid .s, cResult lid, cSweep lid, cCurve lid, cRestart lid] s t) ∧
      (s.leader p = some lid → (t.part p).dlRunning = true ∧ (t.part p).dlTicks = s.getF (pdTicks p) ∧
        (t.part p).dlMin = s.getF (pdMin p) ∧ (t.part p).elapsed = 0 ∧ t.getF (pdFired p) = 0 ∧
        (s.getF (pnPending p) = 1 → (t.part p).staged = true ∧ (t.part p).stagedSeed = s.nextSeed p ∧
          ∀ d l, d ∈ s.partDies p → l = [SyncMsg.stage p false ((s.nextSeed p).extractLsb' 0 48),
              SyncMsg.stage p true ((s.nextSeed p).extractLsb' 48 48)] →
            (t.die d).tap0.rel = (s.die d).tap0.rel ++ l ∧ (t.die d).tap1.rel = (s.die d).tap1.rel ++ l) ∧
        (s.getF (pnPending p) = 0 → t.dies = s.dies ∧ (t.part p).staged = (s.part p).staged) ∧
        OnlyFields [qPc lid .s, qOps lid .s, cResult lid, cSweep lid, cCurve lid, cRestart lid, pdFired p] s t ∧
        t = { s with regs := t.regs, cores := t.cores, parts := t.parts, dies := t.dies }))

/-- SUA.RESTART (R105, R111, R112) on one replica of a core without groups: STEP 0 sets the field of every mapped unit to
its bias, clears with ZERO the states of unclamped units, and with bit 114 adds 1 to RESTART and zeroes CURVE; STEP 1
walks the coupling list of every unit in state 1, here one unit with a list of one entry, and retires once its notices are
handed to the ring stop; it is walked once, however long it stands at the head. -/
def RestartStepsRule : Prop :=
  ∀ (s : State) (lid r : Nat) (op : OpWord), AtHead s lid .s op → (s.core lid).phase = none → opOpcode op = 0x47 →
    opReserved [(0, 16), (112, 3)] op = false → bitsOf op 0 16 = 2 ^ r → r < s.replicas lid → r < 16 → CleanCore s lid →
    (s.stop lid).outbound = [] →
    (bitOf op 112 = false → s.getF (cGroupCount lid) = 0 → s.units lid ≤ 0x8000 →
      (∀ j k, j < s.unitsUp lid / 32 → k < s.unitsUp lid / 32 → s.clampAt lid k ≠ s.stateAt lid r j) →
      ∃ t, exec (.suaRestartReset lid) s = .next t ∧ Retired lid .s s t ∧
        (∀ i, i < s.units lid → t.field lid r i =
          if s.modelIndex lid i = 0xFFFFFFFF then s.field lid r i else s.bias lid i) ∧
        (∀ i, i < s.unitsUp lid → t.unitState lid r i =
          if bitOf op 113 then s.unitState lid r i && s.clampBit lid i else s.unitState lid r i) ∧
        t.getF (cRestart lid) = (s.getF (cRestart lid) + (bitOf op 114).toNat) % 65536 ∧
        t.getF (cCurve lid) = (if bitOf op 114 then 0 else s.getF (cCurve lid)) ∧
        (∀ m a, (m ≠ .lace ∨ ∀ i, i < s.unitsUp lid → a / 4 ≠ s.fieldAt lid r i ∧ a / 4 ≠ s.stateAt lid r (i / 32)) →
          ((t.core lid).mem m).byte a = ((s.core lid).mem m).byte a) ∧
        CoreStep lid [qPc lid .s, qOps lid .s, cRestart lid, cCurve lid] s t) ∧
    (∀ i tgt w (d e : W32), bitOf op 112 = true → bitOf op 113 = false → bitOf op 114 = false → i < s.unitsUp lid →
      (∀ j, j < s.unitsUp lid → (s.unitState lid r j = true ↔ j = i)) → d = s.lace lid (s.descAt lid i) →
      bitOf d 13 = false → bitOf d 12 = false → e = s.lace lid (bitsOf d 14 18) → bitOf e 0 = true → tgt = bitsOf e 17 15 →
      tgt < s.units lid → w = s.fieldAt lid r tgt → (s.core lid).replayed = false →
      ∃ t, exec (.suaRestartReplay lid) s = .next t ∧ Retired lid .s s t ∧ (t.core lid).replayed = false ∧
        (t.lace lid w).toInt = satS 32 ((s.lace lid w).toInt + sbitsOf e 1 16) ∧ BytesOutside lid .lace (4 * w) 4 s t ∧
        t.getF (cUpdates lid) = satAdd 64 (s.getF (cUpdates lid)) 1 ∧
        CoreStep lid [qPc lid .s, qOps lid .s, cUpdates lid, cFieldSat lid, cSatMask lid, cLaceStalls lid] s t) ∧
    (bitOf op 112 = true → bitOf op 113 = false → bitOf op 114 = false → (s.core lid).replayed = true →
      ∃ t, exec (.suaRestartReplay lid) s = .next t ∧ Retired lid .s s t ∧
        t.core lid = { s.core lid with replayed := false } ∧ CoreStep lid [qPc lid .s, qOps lid .s] s t)

/-- SUA.SWEEP, SUA.RESULT and restarts. -/
def Obligations.SweepResultAndRestart : Prop := SweepAndResultRule ∧ RestartStepsRule

/-! ### The vector engine -/

/-- Loads and stores (R165-R167, R525): each of the op's registers moves at its address in its format; BF16 is widened
exactly, S16 and S8 are sign-extended on load and clamped on store, which sets INT_SAT exactly where it clamps; lace words
move unchanged. Nothing else of the core changes. -/
def Obligations.VecLoadsAndStores : Prop :=
  ∀ (s : State) (lid b : Nat) (op : OpWord), AtHead s lid .v op → vFmt op ≤ 6 → vD op + vCount op ≤ 32 → CleanCore s lid →
    b = regBytes (vFmt op) →
    (opOpcode op = 0x60 → opReserved [fVD, fTADDR, fCOUNT, fFMT] op = false → vTile op % 64 = 0 →
      vTile op + vCount op * b ≤ 0x80000 → ∃ t, exec (.vecLdt lid) s = .next t ∧ VecDone lid [] s t ∧
        LanesOnly lid (fun r _ => vD op ≤ r ∧ r < vD op + vCount op) s t ∧
        ∀ k l, k < vCount op → l < 64 → t.lane lid (vD op + k) l =
          match vFmt op with
          | 4 => BitVec.ofNat 32 (s.rdNat lid .tile (vTile op + k * b + 2 * l) 2 * 2 ^ 16)
          | 5 => (BitVec.ofNat 16 (s.rdNat lid .tile (vTile op + k * b + 2 * l) 2)).signExtend 32
          | 6 => ((s.core lid).tile.byte (vTile op + k * b + l)).signExtend 32
          | _ => BitVec.ofNat 32 (s.rdNat lid .tile (vTile op + k * b + 4 * l) 4)) ∧
    (opOpcode op = 0x61 → opReserved [fVD, fLADDR, fCOUNT, fFMT] op = false → vFmt op ≤ 1 → vLace op % 64 = 0 →
      vLace op + 64 * vCount op ≤ 0x40000 → ∃ t, exec (.vecLdl lid) s = .next t ∧ VecDone lid [] s t ∧
        LanesOnly lid (fun r _ => vD op ≤ r ∧ r < vD op + vCount op) s t ∧
        ∀ k l, k < vCount op → l < 64 → t.lane lid (vD op + k) l = s.lace lid (vLace op + 64 * k + l)) ∧
    (opOpcode op = 0x62 → opReserved [fVD, fTADDR, fCOUNT, fFMT] op = false → vTile op % 64 = 0 →
      vTile op + vCount op * b ≤ 0x80000 → ∃ t, exec (.vecStt lid) s = .next t ∧
        VecDone lid (if vFmt op = 4 then [cFpSat lid, cFpNan lid] else if vFmt op = 5 ∨ vFmt op = 6 then [cIntSat lid] else [])
          s t ∧ MemsOnly lid s t ∧ BytesOutside lid .tile (vTile op) (vCount op * b) s t ∧
        (∀ k l, k < vCount op → l < 64 →
          match vFmt op with
          | 4 => t.rd lid .tile (vTile op + k * b + 2 * l) 2 = natLe 2 (fpToBf16 (s.lane lid (vD op + k) l)).v.toNat
          | 5 => t.rd lid .tile (vTile op + k * b + 2 * l) 2 =
              natLe 2 (BitVec.ofInt 16 (satS 16 (s.lane lid (vD op + k) l).toInt)).toNat
          | 6 => t.rd lid .tile (vTile op + k * b + l) 1 =
              natLe 1 (BitVec.ofInt 8 (satS 8 (s.lane lid (vD op + k) l).toInt)).toNat
          | _ => t.rd lid .tile (vTile op + k * b + 4 * l) 4 = natLe 4 (s.lane lid (vD op + k) l).toNat) ∧
        ∀ w, (vFmt op = 5 ∧ w = 16 ∨ vFmt op = 6 ∧ w = 8) →
          ((∃ k l, k < vCount op ∧ l < 64 ∧ satS w (s.lane lid (vD op + k) l).toInt ≠ (s.lane lid (vD op + k) l).toInt) →
            t.getF (cIntSat lid) = 1) ∧
          ((∀ k l, k < vCount op → l < 64 → satS w (s.lane lid (vD op + k) l).toInt = (s.lane lid (vD op + k) l).toInt) →
            t.getF (cIntSat lid) = s.getF (cIntSat lid))) ∧
    (opOpcode op = 0x63 → opReserved [fVD, fLADDR, fCOUNT, fFMT] op = false → vFmt op ≤ 1 → vLace op % 64 = 0 →
      vLace op + 64 * vCount op ≤ 0x40000 →
      (s.overlapsPhase lid (vLace op) (vLace op + 64 * vCount op) = true →
        ∃ t, exec (.vecStl lid) s = .next t ∧ Halted lid .v 0x16 s t) ∧
      (s.overlapsPhase lid (vLace op) (vLace op + 64 * vCount op) = false →
        ∃ t, exec (.vecStl lid) s = .next t ∧ VecDone lid [] s t ∧ MemsOnly lid s t ∧
          BytesOutside lid .lace (4 * vLace op) (256 * vCount op) s t ∧
          ∀ k l, k < vCount op → l < 64 → t.lace lid (vLace op + 64 * k + l) = s.lane lid (vD op + k) l))

/-- Lane arithmetic (R168-R170): VEC.ALU and VEC.FPU write to each lane, or lane pair, of VD what their function gives of
the same lanes of VA and VB; sums, differences and products are exact and clamped to the format, INT_SAT telling of a
clamp; MULW is exact. FP32 results are no infinity, and no NaN but of a NaN input, which gives 0x7FC0_0000 and sets FP_NAN;
x + (-x) is +0. -/
def Obligations.VecLaneArithmetic : Prop :=
  (∀ (s : State) (lid fn f : Nat) (op : OpWord), AtHead s lid .v op → fn = bitsOf op 81 4 → f = vFmt op →
    (opOpcode op = 0x64 → opReserved [fVD, fVA, fVB, fFMT, (81, 4)] op = false → fn ≤ 12 → f ≤ 2 → (fn = 3 → f = 0) →
      ∃ t, exec (.vecAlu lid) s = .next t ∧ VecDone lid [cIntSat lid] s t ∧ LanesOnly lid (fun r _ => r = vD op) s t ∧
        (fn = 3 → ∀ p, p < 32 → t.pair lid (vD op) p = (s.lane lid (vA op) p).toInt * (s.lane lid (vB op) p).toInt) ∧
        (fn ≠ 3 → f ≠ 2 → ∀ l, l < 64 → t.lane lid (vD op) l =
          (aluValue (decide (f = 0)) fn (s.lane lid (vA op) l) (s.lane lid (vB op) l)).1) ∧
        (fn ≠ 3 → f ≠ 2 → (∃ l, l < 64 ∧ (aluValue (decide (f = 0)) fn (s.lane lid (vA op) l) (s.lane lid (vB op) l)).2 = true) →
          t.getF (cIntSat lid) = 1) ∧
        (fn ≠ 3 → f ≠ 2 → (∀ l, l < 64 → (aluValue (decide (f = 0)) fn (s.lane lid (vA op) l) (s.lane lid (vB op) l)).2 = false) →
          t.getF (cIntSat lid) = s.getF (cIntSat lid)) ∧
        (f = 2 → ∀ p, p < 32 → t.pairBits lid (vD op) p =
          (aluValue true fn (s.pairBits lid (vA op) p) (s.pairBits lid (vB op) p)).1) ∧
        (fn = 3 → t.getF (cIntSat lid) = s.getF (cIntSat lid))) ∧
    (opOpcode op = 0x65 → opReserved [fVD, fVA, fVB, fFMT, (81, 4)] op = false → fn ≤ 4 →
      (if fn = 3 then f ≤ 1 else f = 3 ∨ f = 4) → (3 ≤ fn → vB op = 0) →
      ∃ t, exec (.vecFpu lid) s = .next t ∧ VecDone lid [cFpSat lid, cFpNan lid, cIntSat lid] s t ∧
        LanesOnly lid (fun r _ => r = vD op) s t ∧ ∀ l, l < 64 →
          t.lane lid (vD op) l = (fpuLane fn f (s.lane lid (vA op) l) (s.lane lid (vB op) l)).v ∧
          ((fpuLane fn f (s.lane lid (vA op) l) (s.lane lid (vB op) l)).sat = true → t.getF (cFpSat lid) = 1) ∧
          ((fpuLane fn f (s.lane lid (vA op) l) (s.lane lid (vB op) l)).nan = true → t.getF (cFpNan lid) = 1))) ∧
  (∀ x y : W32, (aluValue true 0 x y).1.toInt = satS 32 (x.toInt + y.toInt) ∧
    (aluValue true 1 x y).1.toInt = satS 32 (x.toInt - y.toInt) ∧ (aluValue true 2 x y).1.toInt = satS 32 (x.toInt * y.toInt) ∧
    ((aluValue false 0 x y).1.toNat : Int) = satU 32 ((x.toNat : Int) + y.toNat) ∧
    ((aluValue false 1 x y).1.toNat : Int) = satU 32 ((x.toNat : Int) - y.toNat) ∧
    ((aluValue false 2 x y).1.toNat : Int) = satU 32 ((x.toNat : Int) * y.toNat) ∧
    (aluValue true 4 x y).1.toInt = min x.toInt y.toInt ∧ (aluValue true 5 x y).1.toInt = max x.toInt y.toInt ∧
    ((aluValue true 10 x y).1.toInt = x.toInt / 2 ^ min y.toNat 63) ∧
    ((aluValue false 10 x y).1.toNat = x.toNat / 2 ^ min y.toNat 63) ∧
    ((aluValue true 9 x y).1 = x <<< min y.toNat 63) ∧
    ((aluValue true 11 x y).1 = if x.toInt < y.toInt then 1 else 0) ∧ ((aluValue true 12 x y).1 = if x = y then 1 else 0)) ∧
  (∀ a b : W32, (fpNan a = false → fpNan b = false → fpNan (fpAdd a b).v = false ∧ fpInf (fpAdd a b).v = false ∧
      fpNan (fpMul a b).v = false ∧ fpInf (fpMul a b).v = false ∧ (fpAdd a b).v = (fpAdd b a).v) ∧
    (fpNan a = true → (fpAdd a b).v = 0x7FC00000#32 ∧ (fpMul a b).v = 0x7FC00000#32 ∧ (fpAdd a b).nan = true ∧
      (fpMul a b).nan = true) ∧
    (fpNan a = false → fpInf a = false → (fpAdd a (a ^^^ 0x80000000#32)).v = 0))

/-- VEC.RSUM (R171) gives the exact sum of its elements, clamped to s64 once, with INT_SAT where it clamps; only the lanes of
the result change. -/
def VecIntSumRule : Prop :=
  ∀ (s : State) (lid n b : Nat) (op : OpWord) (x : Int), AtHead s lid .v op → n = vCount op → b = fmtBytes (vFmt op) →
    vTile op % 64 = 0 → CleanCore s lid → opOpcode op = 0x66 → opReserved [fVD, fTADDR, fCOUNT, fFMT] op = false →
    vFmt op ≤ 2 → vTile op + n * b ≤ 0x80000 →
    x = ((List.range n).map fun k => intElem (vFmt op) (s.rd lid .tile (vTile op + k * b) b)).sum →
    ∃ t, exec (.vecRsum lid) s = .next t ∧ VecDone lid [cIntSat lid] s t ∧ t.pair lid (vD op) 0 = satS 64 x ∧
      LanesOnly lid (fun r l => r = vD op ∧ l < 2) s t ∧
      t.getF (cIntSat lid) = if satS 64 x = x then s.getF (cIntSat lid) else 1

/-- The value at position `i` of the fixed pairwise tree over `n` elements after a number of levels (R175): at level L a
position takes the sum of its value and the value 2^(L-1) further on, when that position is below `n`. -/
def fpTree (e : Nat → W32) (n : Nat) : Nat → Nat → W32
  | 0, i => e i
  | k + 1, i => if i + 2 ^ k < n then (fpAdd (fpTree e n k i) (fpTree e n k (i + 2 ^ k))).v else fpTree e n k i

/-- VEC.RSUMF (R175) gives the sum over the fixed pairwise tree, for every number of elements; a NaN among them sets
FP_NAN, an infinity, which counts as the largest finite value of its sign, FP_SAT. Only the lane of the result changes. -/
def VecFpSumRule : Prop :=
  ∀ (s : State) (lid n b : Nat) (op : OpWord) (e : Nat → FpLane), AtHead s lid .v op → n = vCount op →
    b = fmtBytes (vFmt op) → vTile op % 64 = 0 → CleanCore s lid → opOpcode op = 0x67 →
    opReserved [fVD, fTADDR, fCOUNT, fFMT] op = false → (vFmt op = 3 ∨ vFmt op = 4) → vTile op + n * b ≤ 0x80000 →
    (∀ k, e k = fpElem (vFmt op) (s.rd lid .tile (vTile op + k * b) b)) →
    ∃ t, exec (.vecRsumf lid) s = .next t ∧ VecDone lid [cFpSat lid, cFpNan lid, cIntSat lid] s t ∧
      LanesOnly lid (fun r l => r = vD op ∧ l = 0) s t ∧ t.lane lid (vD op) 0 = fpTree (fun k => (e k).v) n 16 0 ∧
      ((∃ k, k < n ∧ (e k).nan = true) → t.getF (cFpNan lid) = 1) ∧
      ((∃ k, k < n ∧ (e k).sat = true) → t.getF (cFpSat lid) = 1)

/-- One of VEC.RMAX and VEC.RMIN, by opcode and command (R176, R177): the extreme value goes to lane pair 0 and the lowest
index among those that have it to lane 2, indices counting on from lane 0 of VB modulo 2^32; with PAIRS the records carry
their indices. For FP32, −0 orders below +0, a NaN wins only where every element is one, and sets FP_NAN. -/
def VecExtremeRule (hi : Bool) (code : Nat) (command : Nat → Instr) : Prop :=
  ∀ (s : State) (lid n b base : Nat) (op : OpWord) (ix : Nat → Nat), AtHead s lid .v op → n = vCount op →
    b = fmtBytes (vFmt op) → vTile op % 64 = 0 → CleanCore s lid → opOpcode op = code →
    opReserved [fVD, fVB, fTADDR, fCOUNT, fFMT, (112, 1)] op = false → base = (s.lane lid (vB op) 0).toNat →
    (∀ k, ix k = (base + k) % 2 ^ 32) →
    (bitOf op 112 = false → (vFmt op = 0 ∨ vFmt op = 2) → vTile op + n * b ≤ 0x80000 →
      ∃ t k, exec (command lid) s = .next t ∧ VecDone lid [] s t ∧
        LanesOnly lid (fun r l => r = vD op ∧ l < 3) s t ∧ k < n ∧ (t.lane lid (vD op) 2).toNat = ix k ∧
        t.pair lid (vD op) 0 = intElem (vFmt op) (s.rd lid .tile (vTile op + k * b) b) ∧
        ∀ j, j < n → ∀ x y : Int, x = intElem (vFmt op) (s.rd lid .tile (vTile op + j * b) b) →
          y = intElem (vFmt op) (s.rd lid .tile (vTile op + k * b) b) →
          (if hi then x ≤ y else y ≤ x) ∧ (x = y → ix k ≤ ix j)) ∧
    (bitOf op 112 = true → vFmt op = 2 → vTile op + n * 16 ≤ 0x80000 →
      ∃ t k, exec (command lid) s = .next t ∧ VecDone lid [] s t ∧
        LanesOnly lid (fun r l => r = vD op ∧ l < 3) s t ∧ k < n ∧
        (t.lane lid (vD op) 2).toNat = s.rdNat lid .tile (vTile op + 16 * k + 8) 4 ∧
        t.pair lid (vD op) 0 = intElem 2 (s.rd lid .tile (vTile op + 16 * k) 8) ∧
        ∀ j, j < n → ∀ x y : Int, x = intElem 2 (s.rd lid .tile (vTile op + 16 * j) 8) →
          y = intElem 2 (s.rd lid .tile (vTile op + 16 * k) 8) → (if hi then x ≤ y else y ≤ x) ∧
          (x = y → s.rdNat lid .tile (vTile op + 16 * k + 8) 4 ≤ s.rdNat lid .tile (vTile op + 16 * j + 8) 4)) ∧
    (bitOf op 112 = false → vFmt op = 3 → vTile op + n * b ≤ 0x80000 → ∀ e : Nat → FpLane,
      (∀ k, e k = fpElem 3 (s.rd lid .tile (vTile op + k * 4) 4)) →
      ∃ t k, exec (command lid) s = .next t ∧ VecDone lid [cFpSat lid, cFpNan lid, cIntSat lid] s t ∧
        LanesOnly lid (fun r l => r = vD op ∧ l < 3) s t ∧ k < n ∧ (t.lane lid (vD op) 2).toNat = ix k ∧
        ((∀ j, j < n → (e j).nan = true) → t.lane lid (vD op) 0 = 0x7FC00000#32 ∧ ∀ j, j < n → ix k ≤ ix j) ∧
        ((∃ j, j < n ∧ (e j).nan = false) → (e k).nan = false ∧ t.lane lid (vD op) 0 = (e k).v ∧
          ∀ j, j < n → (e j).nan = false → ∀ lo up : W32, lo = (if hi then (e j).v else (e k).v) →
            up = (if hi then (e k).v else (e j).v) → fpVal lo ≤ fpVal up ∧
            (fpVal lo = fpVal up → fpNeg up = true → fpNeg lo = true) ∧ ((e j).v = (e k).v → ix k ≤ ix j)) ∧
        ((∃ j, j < n ∧ (e j).nan = true) → t.getF (cFpNan lid) = 1))

/-- Reductions (R171, R175-R177): VEC.RSUM, VEC.RSUMF, VEC.RMAX and VEC.RMIN, in every format and with PAIRS. -/
def Obligations.VecReductions : Prop :=
  VecIntSumRule ∧ VecFpSumRule ∧ VecExtremeRule true 0x68 Instr.vecRmax ∧ VecExtremeRule false 0x69 Instr.vecRmin

/-- Partials (R172-R174, R251): VEC.PSEND to the own core adds its lane pairs to the entries of its tags and ADDs their
count to the counter; to another core of the partition or a package of the link port plan it hands its partials to the
stop, eight to a flit, or waits for room, counting its stalls (R260); any other destination raises VEC_DEST. VEC.PREAD reads entries clamped to s64 and
clears them; PSUM_SAT tells of a clamp. -/
def Obligations.VecPartials : Prop :=
  ∀ (s : State) (lid n tag : Nat) (op : OpWord), AtHead s lid .v op → n = vCount op → tag = vTag op → n ≤ 32 → tag + n ≤ 64 →
    (opOpcode op = 0x6A → opReserved [fVA, fCOUNT, (75, 6), (81, 6), (87, 11), (98, 12), (112, 1)] op = false →
      (bitOf op 112 = false → bitsOf op 98 12 = 0) →
      (bitOf op 112 = false → bitsOf op 87 11 = lid → NoWaiter s lid (vCtr op) → s.getF (cCtr lid (vCtr op)) + n ≤ 65535 →
        (∀ k, k < n → -2 ^ 94 ≤ s.psbAt lid (tag + k) ∧ s.psbAt lid (tag + k) < 2 ^ 94) →
        ∃ t, exec (.vecPsend lid) s = .next t ∧ VecDone lid [cCtr lid (vCtr op)] s t ∧
          (∀ k, k < n → t.psbAt lid (tag + k) = s.psbAt lid (tag + k) + s.pair lid (vA op) k) ∧
          (∀ k, k < tag ∨ tag + n ≤ k → t.psbAt lid k = s.psbAt lid k) ∧
          t.getF (cCtr lid (vCtr op)) = s.getF (cCtr lid (vCtr op)) + n ∧
          t.core lid = { s.core lid with psb := (t.core lid).psb }) ∧
      (¬ (bitOf op 112 = false ∧ bitsOf op 87 11 = lid) →
        (if bitOf op 112 then s.pkgOk lid (bitsOf op 98 12) else s.samePart lid (bitsOf op 87 11)) = true →
        (s.fifoRoom lid ((n + 7) / 8) = false → ∃ t, exec (.vecPsend lid) s = .next t ∧
          t = { s with regs := t.regs, free := t.free } ∧ OnlyFields [cVecStalls lid] s t) ∧
        (s.fifoRoom lid ((n + 7) / 8) = true → ∃ t, exec (.vecPsend lid) s = .next t ∧ Retired lid .v s t ∧
          (t.stop lid).fifo = (s.stop lid).fifo ++ (List.range ((n + 7) / 8)).map (fun i =>
            .partials lid (bitsOf op 87 11) (bitOf op 112) (bitsOf op 98 12) (tag + 8 * i) (vCtr op) 1
              ((List.range (min 8 (n - 8 * i))).map fun k => BitVec.ofInt 96 (s.pair lid (vA op) (8 * i + k)))) ∧
          (∀ l, l ≠ lid → t.stop l = s.stop l) ∧ t = { s with regs := t.regs, stops := t.stops, free := t.free } ∧
          OnlyFields [qPc lid .v, qOps lid .v, cVecOps lid, cVecStalls lid] s t)) ∧
      ((if bitOf op 112 then s.pkgOk lid (bitsOf op 98 12) else s.samePart lid (bitsOf op 87 11)) = false →
        ∃ t, exec (.vecPsend lid) s = .next t ∧ Halted lid .v 0x31 s t)) ∧
    (opOpcode op = 0x6B → opReserved [fVD, fCOUNT, (81, 6)] op = false →
      ∃ t, exec (.vecPread lid) s = .next t ∧ VecDone lid [cPsumSat lid] s t ∧
        (∀ k, k < n → t.pair lid (vD op) k = satS 64 (s.psbAt lid (tag + k)) ∧ t.psbAt lid (tag + k) = 0 ∧
          (satS 64 (s.psbAt lid (tag + k)) ≠ s.psbAt lid (tag + k) → t.getF (cPsumSat lid) = 1)) ∧
        (∀ k, k < tag ∨ tag + n ≤ k → t.psbAt lid k = s.psbAt lid k) ∧
        (∀ r l, l < 64 → ¬ (r = vD op ∧ l < 2 * n) → t.lane lid r l = s.lane lid r l) ∧
        t.core lid = { s.core lid with vregs := (t.core lid).vregs, psb := (t.core lid).psb })

/-- Energies and replica exchange (R117, R118, R178-R181). VEC.ENERGY sums bias and field of every mapped unit in state 1
and gives the replica's flags; VEC.EFIN halves each total with its sign turned, truncated towards zero, and gathers flags;
VEC.XCHG gives the step mask and the mask of accepted pairs; VEC.SWAP exchanges the words of an accepted pair, and a mask
that breaks its rule raises VEC_OPERAND. -/
def EnergyAndExchangeRule : Prop :=
  ∀ (s : State) (lid : Nat) (op : OpWord), AtHead s lid .v op → CleanCore s lid →
    (∀ r, opOpcode op = 0x6C → opReserved [fVD, (71, 4)] op = false → r = vReplica op → firstFault (energyChecks s lid r) = none →
      ∃ t, exec (.vecEnergy lid) s = .next t ∧ VecDone lid [] s t ∧ LanesOnly lid (fun q l => q = vD op ∧ l < 4) s t ∧
        t.pair lid (vD op) 0 = ((List.range (s.units lid)).map fun i =>
          if s.modelIndex lid i ≠ 0xFFFFFFFF ∧ s.unitState lid r i = true then s.bias lid i + s.field lid r i else 0).sum ∧
        t.pairBits lid (vD op) 1 = BitVec.ofNat 64 ((Nat.testBit (s.getF (cSatMask lid)) r).toNat +
          2 ^ 21 * (Nat.testBit (s.getF (cConflictMask lid)) r).toNat)) ∧
    (opOpcode op = 0x6D → opReserved [fVD, fVA] op = false → ∃ t, exec (.vecEfin lid) s = .next t ∧
      VecDone lid [cEnergyOdd lid] s t ∧ LanesOnly lid (fun q l => q = vD op ∧ l < 4 * s.replicas lid) s t ∧
      ∀ r, r < s.replicas lid → ∀ (p : Int) (w f : W64), p = s.pair lid (vA op) (2 * r) → w = s.pairBits lid (vA op) (2 * r + 1) →
        f = t.pairBits lid (vD op) (2 * r + 1) → t.pair lid (vD op) (2 * r) = Int.tdiv (-p) 2 ∧
        (bitOf f 0 = true ↔ bitsOf w 0 21 ≠ 0) ∧ (bitOf f 1 = true ↔ bitsOf w 21 21 ≠ 0) ∧ (bitOf f 2 = true ↔ bitsOf w 42 21 ≠ 0) ∧
        (bitOf f 3 = true ↔ p % 2 ≠ 0) ∧ f.toNat < 16 ∧ (p % 2 ≠ 0 → t.getF (cEnergyOdd lid) = 1)) ∧
    (∀ e, opOpcode op = 0x6E → opReserved [fVD, fVA, (81, 10)] op = false →
      (bitsOf op 81 10 = 0 → ∃ t, exec (.vecXchg lid) s = .next t ∧ Halted lid .v 0x30 s t) ∧
      (bitsOf op 81 10 ≠ 0 → e = s.getF (cCurve lid) / bitsOf op 81 10 → ∃ t, exec (.vecXchg lid) s = .next t ∧
        VecDone lid [cXacc lid, cBlocks lid, cHolds lid] s t ∧ LanesOnly lid (fun q l => q = vD op ∧ l < 2) s t ∧
        ∀ a, a < 32 →
          (bitOf (t.lane lid (vD op) 1) a = true ↔ a + 1 < s.replicas lid ∧ a % 2 = (e + 1) % 2) ∧
          (bitOf (t.lane lid (vD op) 0) a = true ↔ (a + 1 < s.replicas lid ∧ a % 2 = (e + 1) % 2) ∧
            (∀ q, (q = a ∨ q = a + 1) → ∀ f : W64, f = s.pairBits lid (vA op) (2 * q + 1) →
              bitOf f 0 = false ∧ bitOf f 2 = false ∧ bitOf f 3 = false) ∧
            ∀ x : Int, x = ((s.getF (cBeta lid a) : Int) - s.getF (cBeta lid (a + 1))) *
                (s.pair lid (vA op) (2 * a) - s.pair lid (vA op) (2 * a + 2)) →
              (0 ≤ x ∨ unitDraw (s.seedOf lid) 4 a (s.keySweep lid) 0 0 < actVal metroEntry x)))) ∧
    (∀ acc step, opOpcode op = 0x6F → opReserved [fVA] op = false → acc = bitsOf (s.lane lid (vA op) 0) 0 16 →
      step = bitsOf (s.lane lid (vA op) 1) 0 16 →
      (((∃ a, a < 16 ∧ Nat.testBit acc a = true ∧ Nat.testBit step a = false) ∨
        (∃ a, a < 16 ∧ Nat.testBit step a = true ∧ s.replicas lid ≤ a + 1)) →
        ∃ t, exec (.vecSwap lid) s = .next t ∧ Halted lid .v 0x30 s t) ∧
      (firstFault (swapChecks s lid acc step) = none → acc = 0 → ∃ t, exec (.vecSwap lid) s = .next t ∧ VecDone lid [] s t ∧
        MemsOnly lid s t ∧ ∀ m b, ((t.core lid).mem m).byte b = ((s.core lid).mem m).byte b) ∧
      (∀ a n, firstFault (swapChecks s lid acc step) = none → acc = 2 ^ a → step = 2 ^ a →
        n = s.unitsUp lid + s.unitsUp lid / 32 →
        (s.replBase lid a + n ≤ s.replBase lid (a + 1) ∨ s.replBase lid (a + 1) + n ≤ s.replBase lid a) →
        ∃ t, exec (.vecSwap lid) s = .next t ∧ VecDone lid [] s t ∧ MemsOnly lid s t ∧
          (∀ k, k < n → t.lace lid (s.replBase lid a + k) = s.lace lid (s.replBase lid (a + 1) + k) ∧
            t.lace lid (s.replBase lid (a + 1) + k) = s.lace lid (s.replBase lid a + k)) ∧
          ∀ m b, (m ≠ .lace ∨ ∀ k, k < n → b / 4 ≠ s.replBase lid a + k ∧ b / 4 ≠ s.replBase lid (a + 1) + k) →
            ((t.core lid).mem m).byte b = ((s.core lid).mem m).byte b))

/-- The best-k list (R123, R124, R182, R183, R190): CLEAR zeroes its 32 slots; a K of 0 or above 32 raises VEC_BESTK; the
candidate of a single replica takes the lowest unused slot, or in a full list the worst one's if its energy is lower, its
lane receiving the slot's number plus 1, and 0 where it is rejected or not admitted; EMIT writes the used slots' entries
behind the list in ascending energy, then ascending index, and the rest as empty. The core's list is where the op found it
(R290). -/
def BestkListRule : Prop :=
  ∀ (s : State) (lid l k : Nat) (op : OpWord), AtHead s lid .v op → opOpcode op = 0x70 → CleanCore s lid → l = vTile op →
    k = bitsOf op 81 10 → l % 64 = 0 →
    (bitOf op 112 = true → opReserved [fTADDR, (112, 1)] op = false → l + 1024 ≤ 0x80000 →
      ∃ t, exec (.vecBestkClear lid) s = .next t ∧ VecDone lid [] s t ∧
        t.core lid = { s.core lid with tile := (t.core lid).tile, bestkAt := some l } ∧
        BytesOutside lid .tile l 1024 s t ∧ ∀ i, i < 1024 → (t.core lid).tile.byte (l + i) = 0) ∧
    (bitOf op 112 = false → bitOf op 113 = false → opReserved [fVD, fVA, fTADDR, (81, 10), (114, 1)] op = false →
      (k = 0 ∨ 32 < k → ∃ t, exec (.vecBestkAdmit lid) s = .next t ∧ Halted lid .v 0x33 s t) ∧
      (1 ≤ k → k ≤ 32 → l + 1024 ≤ 0x80000 → ∃ t, exec (.vecBestkAdmit lid) s = .next t ∧ VecDone lid [] s t ∧
        BytesOutside lid .tile l (32 * k) s t ∧
        t.core lid = { s.core lid with tile := (t.core lid).tile, vregs := (t.core lid).vregs, bestkAt := some l } ∧
        (∀ r i, i < 64 → ¬ (r = vD op ∧ i < s.replicas lid) → t.lane lid r i = s.lane lid r i) ∧
        (s.replicas lid = 1 → ∀ (e : Int) (f : W64), e = s.pair lid (vA op) 0 → f = s.pairBits lid (vA op) 1 →
          ((bitOf f 0 = true ∨ bitOf f 2 = true ∨ bitOf f 3 = true) → t.lane lid (vD op) 0 = 0 ∧ MemSame lid s t) ∧
          (bitOf f 0 = false → bitOf f 2 = false → bitOf f 3 = false →
            (∀ j, j < k → slotUsed s lid l j = false → (∀ i, i < j → slotUsed s lid l i = true) →
              t.lane lid (vD op) 0 = BitVec.ofNat 32 (j + 1) ∧ slotUsed t lid l j = true ∧ slotEnergy t lid l j = e ∧
              slotIndex t lid l j = s.getF (cRestart lid) * 16 ∧ t.rdNat lid .tile (l + 32 * j + 8) 4 = s.getF (cCurve lid) ∧
              t.rdNat lid .tile (l + 32 * j + 15) 1 = 4 * (bitOf f 1).toNat + 8 * (bitOf op 114).toNat ∧
              ∀ i, i < k → i ≠ j → t.rd lid .tile (l + 32 * i) 32 = s.rd lid .tile (l + 32 * i) 32) ∧
            ((∀ j, j < k → slotUsed s lid l j = true) →
              ((∃ j, j < k ∧ e < slotEnergy s lid l j) → ∃ j, j < k ∧ (∀ i, i < k → slotEnergy s lid l i ≤ slotEnergy s lid l j ∧
                  (slotEnergy s lid l i = slotEnergy s lid l j → slotIndex s lid l i ≤ slotIndex s lid l j)) ∧
                t.lane lid (vD op) 0 = BitVec.ofNat 32 (j + 1) ∧ slotEnergy t lid l j = e ∧
                ∀ i, i < k → i ≠ j → t.rd lid .tile (l + 32 * i) 32 = s.rd lid .tile (l + 32 * i) 32) ∧
              ((∀ j, j < k → slotEnergy s lid l j ≤ e) → t.lane lid (vD op) 0 = 0 ∧ MemSame lid s t)))))) ∧
    (bitOf op 112 = false → bitOf op 113 = true → opReserved [fVB, fTADDR, (81, 10), (113, 1)] op = false → 1 ≤ k → k ≤ 32 →
      l + 1024 + 32 * k ≤ 0x80000 → ∃ (t : State) (js : List Nat), exec (.vecBestkEmit lid) s = .next t ∧ VecDone lid [] s t ∧
        t.core lid = { s.core lid with tile := (t.core lid).tile, bestkAt := some l } ∧ BytesOutside lid .tile (l + 1024) (32 * k) s t ∧
        js.Perm ((List.range k).filter fun j => slotUsed s lid l j) ∧
        js.Pairwise (fun i j => slotEnergy s lid l i < slotEnergy s lid l j ∨
          (slotEnergy s lid l i = slotEnergy s lid l j ∧ slotIndex s lid l i ≤ slotIndex s lid l j)) ∧
        (∀ i j, js[i]? = some j → t.rd lid .tile (l + 1024 + 32 * i) 16 = s.rd lid .tile (l + 32 * j) 16 ∧
          t.rdNat lid .tile (l + 1024 + 32 * i + 16) 8 =
            ((s.pairBits lid (vB op) 0).toNat + j * (s.lane lid (vB op) 2).toNat) % 2 ^ 64 ∧
          t.rdNat lid .tile (l + 1024 + 32 * i + 24) 8 = 0) ∧
        ∀ i, js.length ≤ i → i < k → t.rdNat lid .tile (l + 1024 + 32 * i) 8 = 0x7FFFFFFFFFFFFFFF ∧
          t.rdNat lid .tile (l + 1024 + 32 * i + 16) 8 = 0 ∧ t.rdNat lid .tile (l + 1024 + 32 * i + 24) 8 = 0)

/-- Energies, exchange and the best-k list. -/
def Obligations.EnergyExchangeAndBestk : Prop := EnergyAndExchangeRule ∧ BestkListRule

/-- Learning updates, register reads and random tensors (R184-R187, R201). VEC.PAIRCNT adds or subtracts, for each entry,
the samples in which both its bits are 1, clamped to s32 with INT_SAT telling of a clamp (R28); VEC.WUPD and VEC.TUPD with Q 0 add each difference to its weight, clamped to
the weight's width, WSAT telling of a clamp, and leave an entry's target and last bit; VEC.CREG reads words of the own
core page, clears their RC fields, but for the engine's own counters that go on, and with CLEAR their W1C bits; PIC.FILL writes uniforms of consecutive elements. -/
def Obligations.LearningAndFill : Prop :=
  ∀ (s : State) (lid n : Nat) (op : OpWord), AtHead s lid .v op → CleanCore s lid → n = vCount op →
    (opOpcode op = 0x71 → opReserved [fVB, fTADDR, fLADDR, fCOUNT, (87, 13), (100, 11), (112, 1)] op = false →
      firstFault (paircntChecks s lid op) = none →
      ∃ t, exec (.vecPaircnt lid) s = .next t ∧ VecDone lid [cIntSat lid] s t ∧ MemsOnly lid s t ∧
        BytesOutside lid .tile (diffBase op) (4 * n) s t ∧
        ∀ k, k < n → ∀ (p q c : Nat) (x : Int), p = s.rdNat lid .tile (vTile op + 4 * k) 2 → q = s.rdNat lid .tile (vTile op + 4 * k + 2) 2 →
          c = ((List.range (bitsOf op 100 11 + 1)).filter fun m =>
            sampleBit s lid ((s.pairBits lid (vB op) 0).toNat + m * (s.lane lid (vB op) 2).toNat) p &&
            sampleBit s lid ((s.pairBits lid (vB op) 0).toNat + m * (s.lane lid (vB op) 2).toNat) q).length →
          x = diffAt s lid (diffBase op) k + (if bitOf op 112 then -(c : Int) else c) →
          diffAt t lid (diffBase op) k = satS 32 x ∧ (satS 32 x ≠ x → t.getF (cIntSat lid) = 1)) ∧
    (opOpcode op = 0x72 → opReserved [fTADDR, fLADDR, fCOUNT, (81, 6)] op = false → vQ op = 0 → vLace op % 64 = 0 →
      vTile op % 64 = 0 → vLace op + n ≤ 0x40000 → keyBase op + 8 * n ≤ 0x80000 →
      ∃ t, exec (.vecWupd lid) s = .next t ∧ VecDone lid [cWsat lid, cBlocks lid, cHolds lid] s t ∧ MemsOnly lid s t ∧
        BytesOutside lid .lace (4 * vLace op) (4 * n) s t ∧
        ∀ k, k < n → ∀ (x y : W32) (d : Int), x = s.lace lid (vLace op + k) → y = t.lace lid (vLace op + k) →
          d = diffAt s lid (vTile op) k → bitsOf y 17 15 = bitsOf x 17 15 ∧ bitsOf y 0 1 = bitsOf x 0 1 ∧
          sbitsOf y 1 16 = satS 16 (sbitsOf x 1 16 + d) ∧
          (satS 16 (sbitsOf x 1 16 + d) ≠ sbitsOf x 1 16 + d → t.getF (cWsat lid) = 1)) ∧
    (∀ w, opOpcode op = 0x73 → opReserved [fVB, fTADDR, fCOUNT, fFMT, (87, 13), (81, 6)] op = false → vQ op = 0 →
      (vFmt op = 0 ∨ vFmt op = 5 ∨ vFmt op = 6) → w = fmtBytes (vFmt op) → vTile op % 64 = 0 → vTile op + n * w ≤ 0x80000 →
      diffBase op + 4 * n ≤ 0x80000 → vTile op + n * w ≤ diffBase op →
      ∃ t, exec (.vecTupd lid) s = .next t ∧ VecDone lid [cWsat lid, cBlocks lid, cHolds lid] s t ∧ MemsOnly lid s t ∧
        BytesOutside lid .tile (vTile op) (n * w) s t ∧
        ∀ k, k < n → ∀ x d : Int, x = intElem (vFmt op) (s.rd lid .tile (vTile op + w * k) w) → d = diffAt s lid (diffBase op) k →
          intElem (vFmt op) (t.rd lid .tile (vTile op + w * k) w) = satS (8 * w) (x + d) ∧
          (satS (8 * w) (x + d) ≠ x + d → t.getF (cWsat lid) = 1)) ∧
    (∀ o, opOpcode op = 0x75 → opReserved [fVD, fCOUNT, (81, 12), (112, 1)] op = false → o = bitsOf op 81 12 → o % 8 = 0 →
      n ≤ 32 → vD op + n ≤ 32 → (∀ k, k < n → cregAllowed (o + 8 * k) = true) →
      ∃ t, exec (.vecCreg lid) s = .next t ∧ Retired lid .v s t ∧ LanesOnly lid (fun r l => r = vD op ∧ l < 2 * n) s t ∧
        (∀ k, k < n → t.pairBits lid (vD op) k = s.readVal (corePage lid + o + 8 * k) 8 ∧
          ∀ f, f.off ≠ corePage lid + 0x604 → f.off ≠ corePage lid + 0x610 →
            ((f, FTy.rc) ∈ accessFields coreRegs (corePage lid + o + 8 * k) 8 ∨
              (bitOf op 112 = true ∧ (f, FTy.w1c) ∈ accessFields coreRegs (corePage lid + o + 8 * k) 8)) → t.getF f = 0) ∧
        t = { s with regs := t.regs, cores := t.cores, free := t.free } ∧
        OnlyFields ([qPc lid .v, qOps lid .v, cVecOps lid, cVecStalls lid] ++
          (List.range n).map fun k => ⟨corePage lid + o + 8 * k, 0, 64⟩) s t) ∧
    (opOpcode op = 0x74 → opReserved [fVB, fTADDR, fCOUNT, (81, 24)] op = false → (bitsOf op 81 8 = 8 ∨ bitsOf op 81 8 = 9) →
      vTile op % 64 = 0 → vTile op + 2 * n ≤ 0x80000 →
      ∃ t, exec (.picFill lid) s = .next t ∧ VecDone lid [cBlocks lid, cHolds lid] s t ∧ MemsOnly lid s t ∧
        BytesOutside lid .tile (vTile op) (2 * n) s t ∧ ∀ k, k < n → t.rdNat lid .tile (vTile op + 2 * k) 2 =
          elementDraw (s.seedOf lid) (bitsOf op 81 8) (((s.lane lid (vB op) 0).toNat + k) % 2 ^ 32) (s.keySweep lid) (bitsOf op 89 16))

/-! ### Runner rings, barriers, holds -/

/-- Injection at a stop in repeatable timing (R252, R254, R260-R262). The head of the stop's FIFO meets slot `slot` in core
cycle `t0` and cannot use a lower ring. It takes an empty slot that no other position reserves and waits for any other; a
PARTIAL of one destination, tag and counter combines with the one in the slot; a sync message rides a free upstream field,
and an arrival joins the ARRIVE of its barrier in one. Nothing else changes. -/
def FlitsInjectedRule : Prop :=
  ∀ (s : State) (d pos lid ring slot t0 : Nat) (f : Flit), d < 8 → pos < 288 → ring < 4 → slot < 288 → s.ringsRun d = true →
    s.slotExists d slot = true → s.lidAt d pos = some lid → s.getF (rdExact d) = 0 → (s.stop lid).fifo = [f] →
    (s.stop lid).outbound = [] → (s.stop lid).arrivals = [] → (∀ k, (s.core lid).move k = none) →
    t0 = s.meetAt d slot pos (max (s.die d).now (s.stop lid).nextInject) → s.quiet d t0 slot 6 = true →
    (∀ r, r < ring → takeSlot s d pos (s.stopTable lid) f r slot = .wait) →
    ((∀ c m, f = .sync c m → s.joinedAt d ring slot m = none ∧ (upstream ring slot = true → s.syncAt d slot ≠ none)) →
      mayRide f ring slot = true → s.slotAt d ring slot = none →
      (s.reservedBy d ring slot = none ∨ s.reservedBy d ring slot = some pos) →
      ∃ t, exec (.flitInject d .stop pos ring slot) s = .next t ∧ t.slotAt d ring slot = some ⟨pos, f, false, t0 + 1, false⟩ ∧
        t.reservedBy d ring slot = none ∧
        t.stop lid = { s.stop lid with fifo := [], nextInject := t0 + 1,
                                       sent := lastEight ((s.stop lid).sent ++ [slotHeader pos f]) } ∧
        (∀ l, l ≠ lid → t.stop l = s.stop l) ∧ (∀ e, e ≠ d → t.die e = s.die e) ∧ (t.die d).now = t0 ∧
        (∀ r k, slotKey r k ≠ slotKey ring slot → t.slotAt d r k = s.slotAt d r k) ∧
        t.getF (rdFlits d) = satAdd 64 (s.getF (rdFlits d)) 1 ∧ OnlyFields [rdFlits d] s t ∧
        t = { s with regs := t.regs, stops := t.stops, dies := t.dies }) ∧
    (∀ p, (∀ c m, f ≠ .sync c m) → s.slotAt d ring slot = some p → combines f p.flit = false →
      exec (.flitInject d .stop pos ring slot) s = .next s) ∧
    (∀ src dc remote dpkg tag ctr n n' src' pos' again nx ex x y, f = .partials src dc remote dpkg tag ctr n x →
      s.slotAt d ring slot = some ⟨pos', .partials src' dc remote dpkg tag ctr n' y, again, nx, ex⟩ → x.length = y.length →
      ∃ t, exec (.flitInject d .stop pos ring slot) s = .next t ∧ t.slotAt d ring slot =
          some ⟨pos', .partials src' dc remote dpkg tag ctr (n + n') (List.zipWith (· + ·) y x), again, nx, ex⟩ ∧
        (t.stop lid).fifo = [] ∧ t.getF (rdCombines d) = satAdd 64 (s.getF (rdCombines d)) 1 ∧ OnlyFields [rdCombines d] s t ∧
        t = { s with regs := t.regs, stops := t.stops, dies := t.dies }) ∧
    (∀ src m, f = .sync src m → ring = 0 → slot % 32 = 0 → s.syncAt d slot = none →
      ∃ t, exec (.flitInject d .stop pos ring slot) s = .next t ∧ (t.stop lid).fifo = [] ∧
        t.syncAt d slot = some ⟨src, m, t0 + 1, none⟩ ∧ (t.die d).slots = (s.die d).slots ∧
        t = { s with stops := t.stops, dies := t.dies }) ∧
    (∀ src src' b n n' a a' nx up, f = .sync src (.arrive b n a) → ring = 0 → slot % 32 = 0 →
      s.syncAt d slot = some ⟨src', .arrive b n' a', nx, up⟩ →
      ∃ t, exec (.flitInject d .stop pos ring slot) s = .next t ∧ (t.stop lid).fifo = [] ∧
        t.syncAt d slot = some ⟨src', .arrive b (n' + n) (a' && a), nx, up⟩ ∧ (t.die d).slots = (s.die d).slots ∧
        t = { s with stops := t.stops, dies := t.dies })

/-- Injection at a stop in exact-timing mode (R261): a flit goes only into a slot that its stop's table owns; an owned slot
that is occupied is RING_COLLISION, a table with no slot for the flit RING_UNSLOTTED, and it waits for any other slot. -/
def ExactInjectionRule : Prop :=
  ∀ (s : State) (d pos lid ring slot t0 p : Nat) (f : Flit), d < 8 → pos < 288 → ring < 4 → slot < 288 → s.ringsRun d = true →
    s.slotExists d slot = true → s.lidAt d pos = some lid → s.getF (rdExact d) = 1 → (s.stop lid).fifo = [f] →
    (s.stop lid).outbound = [] → (s.stop lid).arrivals = [] → (∀ k, (s.core lid).move k = none) → (∀ c m, f ≠ .sync c m) →
    t0 = s.meetAt d slot pos (max (s.die d).now (s.stop lid).nextInject) → s.quiet d t0 slot 6 = true →
    (∀ r, r < ring → takeSlot s d pos (s.stopTable lid) f r slot = .wait) → mayRide f ring slot = true →
    s.owner lid = some p → (∀ q, s.slotAt d ring slot = some q → combines f q.flit = false) →
    (ownsSlot (s.stopTable lid) ring slot = true → s.slotAt d ring slot = none →
      ∃ t, exec (.flitInject d .stop pos ring slot) s = .next t ∧ (t.stop lid).fifo = [] ∧
        t.slotAt d ring slot = some ⟨pos, f, false, t0 + 1, false⟩ ∧ OnlyFields [rdFlits d] s t) ∧
    (ownsSlot (s.stopTable lid) ring slot = true → s.slotAt d ring slot ≠ none →
      ∃ t, exec (.flitInject d .stop pos ring slot) s = .next t ∧
        (t.part p).faults = (s.part p).faults ++ [⟨0x60, lid, 0, 0, true⟩] ∧ t.stops = s.stops ∧
        t.slotAt d ring slot = s.slotAt d ring slot) ∧
    ((∀ r k, r < 4 → k < 288 → ownsSlot (s.stopTable lid) r k = false) →
      ∃ t, exec (.flitInject d .stop pos ring slot) s = .next t ∧
        (t.part p).faults = (s.part p).faults ++ [⟨0x61, lid, 0, 0, true⟩] ∧ t.stops = s.stops ∧
        t.slotAt d ring slot = s.slotAt d ring slot) ∧
    (∀ r k, r < 4 → k < 288 → ownsSlot (s.stopTable lid) r k = true → mayRide f r k = true →
      ownsSlot (s.stopTable lid) ring slot = false → exec (.flitInject d .stop pos ring slot) s = .next s)

/-- A bridge serves one of its taps (R254, R255, R262, R265): RELEASE, STAGE and STOP go before COUNTER into a downstream
field that is free, and what is broadcast goes as far as the other tap; a flit takes an empty slot that its tap's own stop
does not use. -/
def BridgeInjectsRule : Prop :=
  ∀ (s : State) (d pos other ring slot t0 : Nat) (tap : Bool) (x : Tap), d < 8 → ring < 4 → slot < 288 → s.ringsRun d = true →
    s.slotExists d slot = true → pos = s.getF (if tap then rdTap1 d else rdTap0 d) →
    other = s.getF (if tap then rdTap0 d else rdTap1 d) → x = (s.die d).tap tap → t0 = s.meetAt d slot pos (s.die d).now →
    s.quiet d t0 slot 6 = true →
    (∀ m rest, ring = 0 → slot % 32 = 16 → s.syncAt d slot = none → x.rel = m :: rest →
      ∃ t, exec (.flitInject d .bridge tap.toNat ring slot) s = .next t ∧
        t.syncAt d slot = some ⟨0, m, t0, some (s.meetAt d slot other (t0 + 1))⟩ ∧
        (t.die d).tap tap = { x with rel := rest } ∧ t = { s with dies := t.dies }) ∧
    (∀ m rest, ring = 0 → slot % 32 = 16 → s.syncAt d slot = none → x.rel = [] → x.ctr = m :: rest →
      ∃ t, exec (.flitInject d .bridge tap.toNat ring slot) s = .next t ∧ t.syncAt d slot = some ⟨0, m, t0, none⟩ ∧
        (t.die d).tap tap = { x with ctr := rest } ∧ t = { s with dies := t.dies }) ∧
    (∀ f rest, ring ≠ 0 ∨ slot % 32 ≠ 16 ∨ (x.rel = [] ∧ x.ctr = []) → s.ownUses d pos ring slot t0 = false →
      x.flits = f :: rest → (∀ c m, f ≠ .sync c m) → s.getF (rdExact d) = 0 → mayRide f ring slot = true →
      s.slotAt d ring slot = none → s.reservedBy d ring slot = none →
      ∃ t, exec (.flitInject d .bridge tap.toNat ring slot) s = .next t ∧
        t.slotAt d ring slot = some ⟨pos, f, false, firstMeet f t0, false⟩ ∧ (t.die d).tap tap = { x with flits := rest } ∧
        t.getF (rdFlits d) = satAdd 64 (s.getF (rdFlits d)) 1 ∧ OnlyFields [rdFlits d] s t ∧
        t = { s with regs := t.regs, dies := t.dies })

/-- A waiting head reserves its home slot on the ring from 1 to 3 that brings it past first (R262): the slot is then its
position's, and RESERVES counts it; no stop holds more than one reservation. -/
def HomeSlotReservedRule : Prop :=
  ∀ (s : State) (d pos lid r k t0 : Nat) (f : Flit), d < 8 → pos < 288 → s.ringsRun d = true → s.lidAt d pos = some lid →
    s.getF (rdExact d) = 0 → (s.stop lid).fifo.head? = some f → r = 1 ∨ r = 2 ∨ r = 3 → k = s.homeSlot d pos r →
    t0 = s.homeAt d pos r →
    ((∀ q, q = 1 ∨ q = 2 ∨ q = 3 → t0 < s.homeAt d pos q ∨ (t0 = s.homeAt d pos q ∧ r ≤ q)) →
      (∀ q, q = 1 ∨ q = 2 ∨ q = 3 → s.reservedBy d q (s.homeSlot d pos q) ≠ some pos) → s.reservedBy d r k = none →
      s.quiet d t0 k 0 = true →
      ∃ t, exec (.reservation d pos) s = .next t ∧ t.reservedBy d r k = some pos ∧ (t.die d).now = t0 ∧
        (∀ q j, slotKey q j ≠ slotKey r k → t.reservedBy d q j = s.reservedBy d q j) ∧
        t.getF (rsReserves d pos) = satAdd 16 (s.getF (rsReserves d pos)) 1 ∧ OnlyFields [rsReserves d pos] s t ∧
        t = { s with regs := t.regs, dies := t.dies }) ∧
    (s.reservedBy d r k = some pos → exec (.reservation d pos) s = .next s)

/-- What meets a stop in a slot (R54-R56, R228, R246, R248, R249, R265): the flit of slot `slot` of a ring is acted on at
position `pos` in core cycle `t0`. A NOTICES flit that comes back to its injector with no KEEP bit frees its slot and is
counted off; a stop with a matching window applies the notice's mirror list and lets the flit go on; a PARTIAL or SEND flit
enters its destination's receive buffer of 8 or passes a full one, a SEND only in the order in which its position injected;
one for another die is taken by a tap. The first tap exports a matching notice to the window's die. -/
def FlitsReceivedRule : Prop :=
  ∀ (s : State) (d pos lid ring slot t0 : Nat) (p : Placed), d < 8 → pos < 288 → ring < 4 → slot < 288 →
    s.slotTurn d ring slot = some (p, t0) → s.standsAt d slot pos t0 = true → s.lidAt d pos = some lid → lid < 2048 →
    dieOf lid = d → CleanCore s lid → (s.core lid).phase = none →
    (∀ src items, p.flit = .notices src items [] → p.pos = pos → src < 2048 → StopIdle s src → (∀ k, (s.core src).move k = none) →
      (pos = s.getF (rdTap0 d) → s.exportDue d p items = false) →
      ∃ t, exec (.flipNoticeReceive d pos ring slot) s = .next t ∧ t.slotAt d ring slot = none ∧
        (t.stop src).outNotices = (s.stop src).outNotices - 1) ∧
    (∀ (src k tgt w : Nat) (n e l : W32), p.flit = .notices src [n] [] → p.pos ≠ pos → p.again = false →
      (pos = s.getF (rdTap0 d) → s.exportDue d p [n] = false) →
      s.windowFor lid n = some k → (s.core lid).inbox = [] → e = s.lace lid (s.dirAt lid k n) → bitOf e 13 = true →
      bitsOf n 1 4 < s.replicas lid → l = s.lace lid (bitsOf e 14 18) → bitOf l 0 = true → tgt = bitsOf l 17 15 →
      tgt < s.units lid → s.colourOf lid tgt ≠ some (bitsOf e 9 4) → w = s.fieldAt lid (bitsOf n 1 4) tgt →
      ∃ t, exec (.flipNoticeReceive d pos ring slot) s = .next t ∧ t.slotAt d ring slot = some { p with next := t0 + 1 } ∧
        (t.lace lid w).toInt = satS 32 ((s.lace lid w).toInt + (if bitOf n 5 then sbitsOf l 1 16 else -sbitsOf l 1 16)) ∧
        BytesOutside lid .lace (4 * w) 4 s t) ∧
    (∀ src dpkg tag ctr n v, p.flit = .partials src lid false dpkg tag ctr n v →
      ((s.stop lid).rx.length < 8 → ∃ t, exec (.partialReceive d pos ring slot 0) s = .next t ∧
        t.slotAt d ring slot = none ∧ (t.stop lid).rx = (s.stop lid).rx ++ [p.flit] ∧
        t = { s with stops := t.stops, dies := t.dies }) ∧
      (8 ≤ (s.stop lid).rx.length → ∃ t, exec (.partialReceive d pos ring slot 0) s = .next t ∧
        t.slotAt d ring slot = some { p with next := t0 + 1 } ∧ t = { s with dies := t.dies })) ∧
    (∀ src mid dpkg dmem daddr last sig sctr pm data,
      p.flit = .send src mid lid false dpkg dmem daddr last sig sctr pm data →
      ((s.stop lid).rx.length < 8 → s.passOf lid p.pos = none ∨ s.passOf lid p.pos = some (ring, slot) →
        ∃ t, exec (.sendFlitReceive d pos ring slot 0) s = .next t ∧
        t.slotAt d ring slot = none ∧ (t.stop lid).rx = (s.stop lid).rx ++ [p.flit] ∧ t.passOf lid p.pos = none ∧
        t = { s with stops := t.stops, dies := t.dies }) ∧
      (8 ≤ (s.stop lid).rx.length → s.passOf lid p.pos = none → ∃ t, exec (.sendFlitReceive d pos ring slot 0) s = .next t ∧
        t.slotAt d ring slot = some { p with next := t0 + 1 } ∧ t.passOf lid p.pos = some (ring, slot) ∧
        (t.stop lid).rx = (s.stop lid).rx) ∧
      (∀ e, s.passOf lid p.pos = some e → e ≠ (ring, slot) → ∃ t, exec (.sendFlitReceive d pos ring slot 0) s = .next t ∧
        t.slotAt d ring slot = some { p with next := t0 + 1 } ∧ t = { s with dies := t.dies })) ∧
    (∀ src mid dc dpkg dmem daddr last sig sctr pm data,
      p.flit = .send src mid dc false dpkg dmem daddr last sig sctr pm data → dc < 2048 → dieOf dc ≠ d →
      s.resetting (dieOf dc) = false → ∃ t, exec (.sendFlitReceive d pos ring slot 0) s = .next t ∧
        t.slotAt d ring slot = none ∧ ((t.die (dieOf dc)).tap (s.viaTap1 dc)).flits =
          ((s.die (dieOf dc)).tap (s.viaTap1 dc)).flits ++ [p.flit] ∧ t = { s with dies := t.dies }) ∧
    (∀ src n k e, p.flit = .notices src [n] [] → p.exported = false → pos = s.getF (rdTap0 d) → s.exportsOf d n = [k] →
      s.getF (reLink d k) = 0 → s.getF (reDies d k) = 2 ^ e → e < 8 → e ≠ d → s.resetting e = false →
      (s.die e).tap0.flits = [] →
      ∃ t, exec (.noticeExport d ring slot) s = .next t ∧ (t.die e).tap0.flits = [.notices bridgeSrc [n] []] ∧
        (t.die d).exported = (s.die d).exported + 1 ∧ t.slotAt d ring slot = some { p with exported := true, next := t0 } ∧
        t = { s with dies := t.dies })

/-- A stop delivers the oldest flit of its receive buffer (R172, R228, R245): a PARTIAL is added to its entry of the
partial sum buffer and its contributions are ADDed to its counter; the data of a SEND are written to the core's memory and
its move knows it; with LAST and SIG, 1 is then ADDed to SCTR. Here nothing meets the stop meanwhile. -/
def FlitsDeliveredRule : Prop :=
  ∀ (s : State) (d pos lid ring slot : Nat), d < 8 → pos < 288 → ring < 4 → slot < 288 → s.ringsRun d = true →
    s.slotAt d ring slot = none → s.lidAt d pos = some lid → lid < 2048 → dieOf lid = d → CleanCore s lid →
    (s.core lid).phase = none →
    (∀ src dpkg tag ctr n v rest, (s.stop lid).rx = .partials src lid false dpkg tag ctr n [v] :: rest → tag < 64 → ctr < 64 →
      NoWaiter s lid ctr → s.getF (cCtr lid ctr) + n ≤ 65535 →
      -2 ^ 94 ≤ s.psbAt lid tag → s.psbAt lid tag < 2 ^ 94 → -2 ^ 94 ≤ v.toInt → v.toInt < 2 ^ 94 →
      ∃ t, exec (.partialReceive d pos ring slot 1) s = .next t ∧ t.stop lid = { s.stop lid with rx := rest } ∧
        t.psbAt lid tag = s.psbAt lid tag + v.toInt ∧ t.getF (cCtr lid ctr) = s.getF (cCtr lid ctr) + n ∧
        OnlyFields [cCtr lid ctr] s t ∧ t = { s with regs := t.regs, cores := t.cores, stops := t.stops }) ∧
    (∀ src mid dpkg dmem daddr last sig sctr data rest m,
      (s.stop lid).rx = .send src mid lid false dpkg dmem daddr last sig sctr 0 data :: rest → src < 2048 → src ≠ lid → mid < 4 →
      (s.core src).move mid = some m → data.length = 64 ∨ data.length = 128 →
      sctr < 64 → ((last && sig) = true → NoWaiter s lid sctr ∧ s.getF (cCtr lid sctr) + 1 ≤ 65535) →
      ∃ t, exec (.sendFlitReceive d pos ring slot 1) s = .next t ∧ t.stop lid = { s.stop lid with rx := rest } ∧
        (∀ i, i < data.length → ((t.core lid).mem (memOf dmem)).byte (daddr + i) = data.getD i 0) ∧
        BytesOutside lid (memOf dmem) daddr data.length s t ∧
        (t.core src).move mid = some { m with done := m.done + data.length / 64 } ∧
        t.getF (cCtr lid sctr) = s.getF (cCtr lid sctr) + (last && sig).toNat ∧ OnlyFields [cCtr lid sctr] s t ∧
        t = { s with regs := t.regs, cores := t.cores, stops := t.stops })

/-- Flits are injected, received and delivered. -/
def Obligations.FlitsOnRings : Prop :=
  FlitsInjectedRule ∧ ExactInjectionRule ∧ BridgeInjectsRule ∧ HomeSlotReservedRule ∧ FlitsReceivedRule ∧ FlitsDeliveredRule

/-- Messages of the root wait at both taps of a die, behind what waited there (R255). -/
def toldBoth (ms : List SyncMsg) (x : Die) : Die :=
  { x with tap0 := { x.tap0 with rel := x.tap0.rel ++ ms }, tap1 := { x.tap1 with rel := x.tap1.rel ++ ms } }

/-- The root's messages wait at every die of partition `p`, and nothing of any die changes else (R255). -/
def Broadcast (p : Nat) (ms : List SyncMsg) (s t : State) : Prop :=
  ∀ d, t.die d = if d ∈ s.partDies p then toldBoth ms (s.die d) else s.die d

/-- A die's combiner (R254, R255, R258): a tap takes an arrival from an upstream field, and the combiner adds it; a full
count goes to the root with its drain bit, a DRAIN count only once every notice that the die exported is off its slots.
A counter message for a host counter goes to E0. -/
def DieCombinesRule : Prop :=
  ∀ (s : State) (d slot t0 : Nat), d < 8 → slot < 288 → (∀ b, (s.combOf d b).1 < 256) →
    (∀ (f : FieldMsg) (bid n c : Nat) (drain all : Bool), bid < 64 → slot % 32 = 0 → s.fieldTurn d slot = some (f, t0) →
      f.msg = .arrive bid n drain → s.barResetting bid = false → s.combOf d bid = (c, all) →
      ∃ t, exec (.dieCombine d (some ⟨0, slot, true⟩)) s = .next t ∧ t.syncAt d slot = none ∧ (t.die d).now = t0 ∧
        (c + n < 256 ∨ (all && drain) = true ∧ (s.die d).exported ≠ 0 →
          t.combOf d bid = (c + n, all && drain) ∧ t = { s with dies := t.dies }) ∧
        (256 ≤ c + n → (all && drain) = false ∨ (s.die d).exported = 0 → s.getF (rbCount bid) + c + n < 4096 →
          t.combOf d bid = (0, true) ∧ t.getF (rbCount bid) = s.getF (rbCount bid) + c + n ∧
          t.rootAll bid = (s.rootAll bid && (all && drain)) ∧ OnlyFields [rbCount bid] s t)) ∧
    (∀ (p : Placed) (ring src dc ctr n hc pkg : Nat) (set : Bool), ring < 4 → s.slotTurn d ring slot = some (p, t0) →
      p.flit = .sync src (.counter dc ctr n set 1 hc pkg) →
      ∃ t, exec (.dieCombine d (some ⟨ring, slot, false⟩)) s = .next t ∧ t.slotAt d ring slot = none ∧
        t.hostIn = s.hostIn ++ [⟨hc, n, src⟩] ∧ t = { s with hostIn := t.hostIn, dies := t.dies })

/-- The root (R120, R203, R255, R256): below EXPECTED nothing happens; at EXPECTED it clears its count and sends the release
to every die of the partition, with the deadline's SET and the seed's install only at a notice-drain completion, here with
no pause table. In exact-timing mode, unless the barrier spans packages, EXACT is 1 and TARGET a cycle modulo 4,096. -/
def RootReleasesRule : Prop :=
  ∀ (s : State) (bid p : Nat), bid < 64 → p = s.getF (rbPart bid) → s.getF (rbValid bid) = 1 → s.getF (ppState p) = 1 →
    s.getF (rbSpan bid) = 0 → s.getF (rbExpected bid) ≠ 0 →
    (s.getF (rbCount bid) < s.getF (rbExpected bid) → exec (.barrierRootComplete bid) s = .next s) ∧
    (s.getF (rbExpected bid) ≤ s.getF (rbCount bid) → s.rootAll bid = false →
      ∃ t target, exec (.barrierRootComplete bid) s = .next t ∧ t.getF (rbCount bid) = 0 ∧ t.rootAll bid = true ∧
        OnlyFields [rbCount bid] s t ∧ t.parts = s.parts ∧ t.cores = s.cores ∧ target < 4096 ∧
        Broadcast p [.release bid target s.exact false (s.getF (pdCtr p)) false] s t) ∧
    (s.getF (rbExpected bid) ≤ s.getF (rbCount bid) → s.rootAll bid = true → s.pauseTbl p = none →
      ∃ t target, exec (.barrierRootComplete bid) s = .next t ∧ t.getF (rbCount bid) = 0 ∧ target < 4096 ∧
        t.getF (pdFired p) = (if s.deadlineActs p then 1 else s.getF (pdFired p)) ∧
        ((s.part p).staged = true → t.getF (psLo p) = bitsOf (s.part p).stagedSeed 0 64 ∧
          t.getF (psHi p) = bitsOf (s.part p).stagedSeed 64 32 ∧ t.getF (pnPending p) = 0 ∧ (t.part p).staged = false) ∧
        OnlyFields ([rbCount bid, pdFired p] ++
          if (s.part p).staged then [psLo p, psHi p, psFresh p, pnPending p] else []) s t ∧ t.cores = s.cores ∧
        Broadcast p [.release bid target s.exact (s.deadlineActs p) (s.getF (pdCtr p)) (s.part p).staged] s t)

/-- A release is applied to core `lid` (R218, R225): the SET of the deadline, then RVAL ADDed to RCTR, in one message; the
barrier's bit of CORE_ARRIVED is cleared; a staged seed is installed where the release says so. -/
def ReleaseApplied (s t : State) (lid bid rctr rval dlctr : Nat) (dlset install : Bool) : Prop :=
  t.getF (cCtr lid rctr) = (if dlset && dlctr == rctr then 1 else s.getF (cCtr lid rctr)) + rval ∧
  (dlset = true → dlctr ≠ rctr → t.getF (cCtr lid dlctr) = 1) ∧
  t.getF (cArrived lid) = s.getF (cArrived lid) - (if Nat.testBit (s.getF (cArrived lid)) bid then 2 ^ bid else 0) ∧
  (∀ lo hi, install = true → (s.stop lid).seedLo = some lo → (s.stop lid).seedHi = some hi → t.seedOf lid = hi ++ lo) ∧
  OnlyFields ([cCtr lid rctr, cArrived lid] ++ (if dlset then [cCtr lid dlctr] else []) ++
    if install then [cSeedLo lid, cSeedHi lid] else []) s t ∧
  t = { s with regs := t.regs, stops := t.stops, dies := t.dies }

/-- A RELEASE at a stop (R256-R258). One without EXACT is applied as it arrives, but at a notice-drain barrier held while a
notice or an update that came before it is still to be applied; one with EXACT is held until TARGET and applied then, and
raises RING_LATE if at a notice-drain barrier something is still to be applied. The message travels on. -/
def ReleaseAtStopRule : Prop :=
  ∀ (s : State) (lid slot t0 p bid target dlctr rctr rval : Nat) (dlset install drain : Bool) (m : SyncMsg), lid < 2048 →
    slot < 288 → bid < 64 → tblGet (fun _ => (0, 0, false)) (s.stop lid).barRec bid = (rctr, rval, drain) → rctr < 64 →
    rval ≠ 0 → rval < 16 → dlctr < 64 → (∀ n, NoWaiter s lid n) → s.getF (cCtr lid rctr) + rval ≤ 65535 → s.owner lid = some p →
    (∀ f, f.msg = m → s.fieldTurn (dieOf lid) slot = some (f, t0) → s.atCore lid slot t0 = true →
      (m = .release bid target false dlset dlctr install → (s.stop lid).ctrQ = [] →
        (drain = false ∨ s.undrained lid = false → ∃ t, exec (.barrierReleaseApply lid (.passing slot)) s = .next t ∧
          ReleaseApplied s t lid bid rctr rval dlctr dlset install ∧
          t.syncAt (dieOf lid) slot = some { f with next := t0 + 1 }) ∧
        (drain = true → s.undrained lid = true → ∃ t, exec (.barrierReleaseApply lid (.passing slot)) s = .next t ∧
          (t.stop lid).releases = (s.stop lid).releases ++
            [⟨m, !(s.core lid).inbox.isEmpty, !(s.core lid).deferred.isEmpty⟩] ∧
          t.syncAt (dieOf lid) slot = some { f with next := t0 + 1 } ∧ t = { s with stops := t.stops, dies := t.dies })) ∧
      (m = .release bid target true dlset dlctr install → ∃ t, exec (.barrierReleaseApply lid (.passing slot)) s = .next t ∧
        (t.stop lid).releases = (s.stop lid).releases ++ [⟨m, false, false⟩] ∧
        t.syncAt (dieOf lid) slot = some { f with next := t0 + 1 } ∧ t = { s with stops := t.stops, dies := t.dies })) ∧
    (∀ rest exact late, (s.stop lid).releases = ⟨.release bid target exact dlset dlctr install, false, false⟩ :: rest →
      s.ringsRun (dieOf lid) = true →
      ((exact && drain && (s.undrained lid || late)) = false →
        ∃ t, exec (.barrierReleaseApply lid (.held late)) s = .next t ∧
          ReleaseApplied s t lid bid rctr rval dlctr dlset install ∧ (t.stop lid).releases = rest ∧ t.dies = s.dies) ∧
      ((exact && drain && (s.undrained lid || late)) = true →
        ∃ t, exec (.barrierReleaseApply lid (.held late)) s = .next t ∧ (t.stop lid).releases = rest ∧
          (t.part p).faults = (s.part p).faults ++ [⟨0x62, lid, 0, 0, true⟩] ∧
          t = { s with stops := t.stops, parts := t.parts }))

/-- A STAGE half that meets a stop is written to its seed staging register and travels on (R257). -/
def SeedStagedRule : Prop :=
  ∀ (s : State) (lid slot t0 p : Nat) (f : FieldMsg) (half : Bool) (seed : BitVec 48), lid < 2048 → slot < 288 →
    s.fieldTurn (dieOf lid) slot = some (f, t0) → s.atCore lid slot t0 = true → f.msg = .stage p half seed →
    ∃ t, exec (.seedStage ⟨lid, slot⟩) s = .next t ∧ t.syncAt (dieOf lid) slot = some { f with next := t0 + 1 } ∧
      t.stop lid = { s.stop lid with seedLo := if half then (s.stop lid).seedLo else some seed,
                                     seedHi := if half then some seed else (s.stop lid).seedHi } ∧
      (∀ l, l ≠ lid → t.stop l = s.stop l) ∧ t = { s with stops := t.stops, dies := t.dies }

/-- A frame boundary delivers the launches that waited for it to every core of their partition (R342). -/
def FrameBoundaryRule : Prop :=
  ∀ (s : State) (p : Nat) (l : Launch), p < 8 → s.clocked p = true → (s.part p).framed = [l] → l.stale = none →
    s.getF (hcPart l.h) = p → l.h < 256 → s.getF (ppState p) = 1 → (∀ q, q ≠ p → (s.part q).framed = []) →
    (∀ c, c ∈ s.partCores p → (∀ n, NoWaiter s c n) ∧ s.getF (cCtr c (s.getF (hcCtr l.h))) + l.n ≤ 65535) →
    ∃ t, exec .frameBoundary s = .next t ∧ (t.part p).framed = [] ∧ (∀ c, c ∈ s.partCores p →
      t.getF (cCtr c (s.getF (hcCtr l.h))) = s.getF (cCtr c (s.getF (hcCtr l.h))) + l.n) ∧
      OnlyFields ((s.partCores p).map fun c => cCtr c (s.getF (hcCtr l.h))) s t ∧
      t = { s with regs := t.regs, parts := t.parts }

/-- Barriers that span packages (R384): the home root adds a member's arrivals and records its sender, and a count past
TOTAL is LINK_BARRIER at the leader; a member root takes the LRELEASE and distributes a release without EXACT. -/
def SpanningBarrierRule : Prop :=
  (∀ (s : State) (bid n q p : Nat) (drain : Bool), bid < 64 → q < 4096 → p = s.getF (rbPart bid) →
    s.getF (lbHome bid) = s.pkgId → s.getF (rbValid bid) = 1 → s.barResetting bid = false →
    (s.getF (lbCount bid) + n < s.getF (lbTotal bid) → ∃ t, exec (.larrive bid n q drain) s = .next t ∧
      t.getF (lbCount bid) = s.getF (lbCount bid) + n ∧ q ∈ t.sendersOf bid ∧ OnlyFields [lbCount bid] s t ∧
      t = { s with regs := t.regs, net := t.net }) ∧
    (∀ l, s.getF (lbTotal bid) < s.getF (lbCount bid) + n → s.leader p = some l → s.owner l = some p →
      ∃ t, exec (.larrive bid n q drain) s = .next t ∧ t = { s with parts := t.parts } ∧
        (t.part p).faults = (s.part p).faults ++ [⟨0x71, l, 0, 0, true⟩])) ∧
  (∀ (s : State) (bid p c : Nat) (dlset install : Bool), bid < 64 → c < 64 → p = s.getF (rbPart bid) → s.getF (rbValid bid) = 1 →
    s.getF (rbSpan bid) = 1 → s.getF (ppState p) = 1 → s.pauseTbl p = none →
    ∃ t, exec (.lrelease bid dlset c install) s = .next t ∧ (t.part p).hadSpan = true ∧ t.rootAll bid = true ∧
      Broadcast p [.release bid 0 false dlset c install] s t)

/-- Barriers, seeds and frame boundaries. -/
def Obligations.Barriers : Prop :=
  DieCombinesRule ∧ RootReleasesRule ∧ ReleaseAtStopRule ∧ SeedStagedRule ∧ FrameBoundaryRule ∧ SpanningBarrierRule

/-- Holds and stops (R235, R238, R273, R275, R293, R345): a hold with no reason left ends with every release that it kept
sent, and one with a reason stays; a stack's refresh debt holds a running partition of an exact-timing pattern; the first
fault that reaches E0 is recorded and stops the partition: its running and waiting queues read STATE 5, its arrivals are
given up, its bridges are sent a STOP, its event is raised. -/
def Obligations.HoldsAndStops : Prop :=
  ∀ (s : State) (p : Nat), p < 8 →
    (∀ h, (s.part p).hold = some h → s.holdOver p h = false → exec (.holdEnd p) s = .next s) ∧
    (∀ h, (s.part p).hold = some h → s.holdOver p h = true → (∀ r, r ∈ h.releases → r.install = false) →
      (s.part p).reentry = 0 → (s.part p).patched = false → (s.part p).buffered = [] →
      (s.part p).forwarded ≠ (s.part p).resultEnds →
      ∃ (t : State) (tg : Nat → Nat), exec (.holdEnd p) s = .next t ∧ (t.part p).hold = none ∧
        (t.part p).refreshDebt = ((s.part p).refreshDebt && s.owesRefresh) ∧ (∀ i, tg i < 4096) ∧
        Broadcast p (h.releases.zipIdx.map fun e =>
          .release e.1.bid (tg e.2) (s.exact && !s.spans e.1.bid) e.1.dlset e.1.dlctr false) s t ∧
        (∀ q, q ≠ p → t.part q = s.part q) ∧ OnlyFields [wHeld, pdFired p] s t ∧ t.cores = s.cores ∧ t.stops = s.stops) ∧
    (∀ c, c < 6 → s.exact = true → s.getF (ppState p) = 1 → (s.part p).hold = none → (s.ctl c).debt ≠ [] →
      ∃ t, exec (.extraRefreshHold c p) s = .next t ∧ (t.part p).hold =
          some ({ refresh := true, resumeAt := some (s.tick + s.getF wPauseMin) } : Hold) ∧ (t.part p).hadExtra = true ∧ t.getF wHeld = 1 ∧
        OnlyFields [wHeld] s t ∧ t = { s with regs := t.regs, parts := t.parts }) ∧
    (∀ r rest, (s.part p).faults = r :: rest → s.getF (ppState p) = 1 → r.code < 256 → r.core < 2048 → r.queue < 4 → r.pc < 4096 →
      ∃ t, exec (.partitionStop p) s = .next t ∧ t.getF (ppState p) = 2 ∧ t.getF (pfCode p) = r.code ∧
        t.getF (pfCore p) = r.core ∧ t.getF (pfQueue p) = r.queue ∧ t.getF (pfPc p) = r.pc ∧ t.getF (pfRemote p) = r.remote.toNat ∧
        t.getF (pfValid p) = 1 ∧ (t.part p).faults = [] ∧ Nat.testBit (t.getF hEvent) p = true ∧
        (∀ c q, c ∈ s.partCores p → t.getF (qState c q) =
          if s.getF (qState c q) = 1 ∨ s.getF (qState c q) = 2 then 5 else s.getF (qState c q)) ∧
        (∀ c, c ∈ s.partCores p → t.getF (cArrived c) = 0 ∧ (t.stop c).barRec = [] ∧ (t.stop c).arrivals = []) ∧
        (∀ d, t.die d = if d ∈ s.partDies p then toldBoth [.stop p r.code] { s.die d with comb := [] } else s.die d) ∧
        (s.getF (pkState p) = 1 → t.getF (pkState p) = 0 ∧ t.getF (pkStatus p) = 7) ∧ t.cores = s.cores ∧ t.hbm = s.hbm) ∧
    ((s.part p).faults = [] → exec (.partitionStop p) s = .next s)

/-! ### The host side -/

/-- No enabled watch looks at host counter `h` (R234). -/
def NoWatch (s : State) (h : Nat) : Prop := ∀ w, w < 32 → ¬ (s.getF (wtCounter w) = h ∧ s.onF (wtEn w) = true)

/-- The fields that a change of host counter `h` writes when no enabled watch looks at it (R233, R234). -/
def counterFields (s : State) (h : Nat) : List Fld :=
  hcValue h :: ((List.range 32).filter fun w => s.getF (wtCounter w) == h).map wtAbove

/-- Host counters (R230-R234, R407, R408): a host ADD adds, an ADD of 0 is ignored and counted, an ADD to a launch counter
goes to every core of its partition; a TAKE that is satisfied subtracts and returns the value, else returns 0 and changes
nothing; a pattern ADD adds or, past 65,535, stores 65,535 and faults at its sender; ABOVE follows, and an enabled watch
that becomes above fires: a flag write with the next sequence number, or an MSI-X message; a held message is sent once
nothing holds it. -/
def Obligations.HostCounters : Prop :=
  ∀ (s : State) (h : Nat), h < 256 → s.onF sLimited = false → s.onF sFatal = false → s.armed = true →
    (∀ n : BitVec 16, s.onF (hcForward h) = false → n ≠ 0 → s.getF (hcValue h) + n.toNat ≤ 65535 →
      (NoWatch s h → ∃ t, exec (.hostCounterAdd h n) s = .next t ∧ t.getF (hcValue h) = s.getF (hcValue h) + n.toNat ∧
        (∀ w, w < 32 → s.getF (wtCounter w) = h →
          t.getF (wtAbove w) = (decide (s.getF (wtThreshold w) ≤ t.getF (hcValue h))).toNat) ∧
        RegsOnly (counterFields s h) s t) ∧
      (∀ w, w < 32 → s.getF (wtCounter w) = h → s.onF (wtEn w) = true → s.getF (wtAbove w) = 0 →
        s.getF (wtThreshold w) ≤ s.getF (hcValue h) + n.toNat →
        (∀ v, v < 32 → v ≠ w → ¬ (s.getF (wtCounter v) = h ∧ s.onF (wtEn v) = true)) →
        (s.getF (wtAction w) = 2 → s.hostcfg.busMaster = true → s.hostcfg.msixEnable = true →
          s.hostcfg.functionMask = false → s.hostcfg.masked.getLsbD (s.getF (wtVector w)) = false →
          ∃ t, exec (.hostCounterAdd h n) s = .next t ∧ t.out = s.out ++ [s.msixMessage (s.getF (wtVector w))] ∧
            t.getF (wtAbove w) = 1 ∧ t.getF (wtFires w) = satAdd 32 (s.getF (wtFires w)) 1) ∧
        (s.getF (wtAction w) = 1 → s.hostcfg.busMaster = true → s.getF (flEn (s.getF (wtFlag w))) = 1 →
          ∃ t q, exec (.hostCounterAdd h n) s = .next t ∧ q = (s.getF (flSeq (s.getF (wtFlag w))) + 1) % 2 ^ 32 ∧
            t.getF (flSeq (s.getF (wtFlag w))) = q ∧ t.out = s.out ++ [.flagWrite (s.getF (flAddr (s.getF (wtFlag w))) / 8 * 8)
              (BitVec.ofNat 64 (q + 2 ^ 32 * (s.getF (hcValue h) + n.toNat) + 2 ^ 48 * w))]))) ∧
    (∃ t, exec (.hostCounterAdd h 0) s = .next t ∧ t.getF sIgnored = satAdd 64 (s.getF sIgnored) 1 ∧ t.getF sIgnCause = 5 ∧
      RegsOnly [sIgnored, sIgnCause, sIgnCxl, sIgnWrite, sIgnAddr] s t) ∧
    (∀ (n : BitVec 16) (p c : Nat), s.onF (hcForward h) = true → n ≠ 0 → s.inputUnit h = none → p = s.getF (hcPart h) →
      c = s.getF (hcCtr h) → s.getF (ppState p) = 1 → (s.part p).hold = none → (s.part p).gated = false →
      (s.part p).disarmed = false → s.exact = false →
      (∀ l, l ∈ s.partCores p → NoWaiter s l c ∧ s.getF (cCtr l c) + n.toNat ≤ 65535) →
      ∃ t, exec (.hostCounterAdd h n) s = .next t ∧
        (∀ l, l ∈ s.partCores p → t.getF (cCtr l c) = s.getF (cCtr l c) + n.toNat) ∧
        t.getF (hcTotal h) = (s.getF (hcTotal h) + n.toNat) % 65536 ∧ t.getF (hcValue h) = s.getF (hcValue h) ∧
        OnlyFields (hcTotal h :: (s.partCores p).map fun l => cCtr l c) s t ∧ t = { s with regs := t.regs, parts := t.parts }) ∧
    (∀ n, n < 256 → s.onF (hcForward h) = false → NoWatch s h →
      (n ≠ 0 → n ≤ s.getF (hcValue h) → ∃ t, exec (.hostTake h n) s = .next t ∧
        t.getF (hcValue h) = s.getF (hcValue h) - n ∧ OnlyFields (counterFields s h) s t ∧
        t = { s with regs := t.regs, out := s.out ++ [.readData (takeOff h n) 4 (BitVec.ofNat 64 (s.getF (hcValue h)))] }) ∧
      (s.getF (hcValue h) < n →
        exec (.hostTake h n) s = .next { s with out := s.out ++ [.readData (takeOff h n) 4 0] })) ∧
    (∀ a rest, s.hostIn = a :: rest → a.h = h → s.onF (hcForward h) = false → NoWatch s h →
      (∀ u, u < 8 → ¬ (s.onF (uEn u) = true ∧ s.onF (uDir u) = true ∧ s.getF (uHc u) = h)) →
      (s.getF (hcValue h) + a.n ≤ 65535 → ∃ t, exec (.hostCounterPatternAdd h) s = .next t ∧
        t.getF (hcValue h) = s.getF (hcValue h) + a.n ∧ OnlyFields (counterFields s h) s t ∧
        t = { s with hostIn := rest, regs := t.regs }) ∧
      (∀ p, 65535 < s.getF (hcValue h) + a.n → s.owner a.src = some p → ∃ t, exec (.hostCounterPatternAdd h) s = .next t ∧
        t.getF (hcValue h) = 65535 ∧ (t.part p).faults = (s.part p).faults ++ [⟨0x43, a.src, 0, 0, true⟩])) ∧
    (∀ (w : Nat) (v : W64), w < 32 → bitOf v 63 = false → ∃ t, exec (.hostWatchWrite w v) s = .next t ∧
      t.getF (wtCounter w) = bitsOf v 0 8 ∧ t.getF (wtThreshold w) = bitsOf v 8 16 ∧ t.getF (wtAction w) = bitsOf v 24 2 ∧
      t.getF (wtFlag w) = bitsOf v 26 5 ∧ t.getF (wtVector w) = bitsOf v 31 6 ∧ t.getF (wtEn w) = 0 ∧
      t.getF (wtAbove w) = (decide (bitsOf v 8 16 ≤ s.getF (hcValue (bitsOf v 0 8)))).toNat ∧
      RegsOnly [wtCounter w, wtThreshold w, wtAction w, wtFlag w, wtVector w, wtEn w, wtAbove w] s t) ∧
    (∀ vec, vec < 64 → s.hostcfg.msixPending.getLsbD vec = true → s.hostcfg.busMaster = true → s.hostcfg.msixEnable = true →
      s.hostcfg.functionMask = false → s.hostcfg.masked.getLsbD vec = false →
      ∃ t, exec (.msixPendingSend vec) s = .next t ∧ t.out = s.out ++ [s.msixMessage vec] ∧
        (∀ i, i < 64 → t.hostcfg.msixPending.getLsbD i = (s.hostcfg.msixPending.getLsbD i && decide (i ≠ vec))) ∧
        t = { s with out := t.out, hostcfg := { s.hostcfg with msixPending := t.hostcfg.msixPending } })

/-- The CRC function (R416, R418, R419): the worked table's six check values, and a register built up from two parts of a
block in either order is that of the block in ascending order. -/
def Obligations.CrcFunction : Prop :=
  (∀ d : List Byte, d = [0x31, 0x32, 0x33, 0x34, 0x35, 0x36, 0x37, 0x38, 0x39] →
    crc d 8 0x07 0 0 false false = 0xF4 ∧ crc d 16 0x1021 0xFFFF 0 false false = 0x29B1 ∧
    crc d 32 0x04C11DB7 0xFFFFFFFF 0xFFFFFFFF true true = 0xCBF43926 ∧
    crc d 32 0x1EDC6F41 0xFFFFFFFF 0xFFFFFFFF true true = 0xE3069283 ∧
    crc d 64 0x42F0E1EBA9EA3693 0 0 false false = 0x6C40DF5F0B497347 ∧
    crc d 64 0x42F0E1EBA9EA3693 0xFFFFFFFFFFFFFFFF 0xFFFFFFFFFFFFFFFF true true = 0x995DC9BBDF1939FA) ∧
  (∀ (w : Nat) (poly r : W64) (refin : Bool) (a b : List Byte), 8 ≤ w → w ≤ 64 → r &&& crcMask w = r →
    crcReg w poly refin r (a ++ b) =
      crcZeros w poly (a.length + b.length) r ^^^ crcZeros w poly b.length (crcReg w poly refin 0 a) ^^^ crcReg w poly refin 0 b)

/-- Check-value units (R418, R422-R424, R427): a launch whose block is GOOD is forwarded, NEXT and NEXT_SLOT advance and
the slot is EMPTY; under HOLD a block that is not GOOD holds it and raises STALE; REFILL empties the slot, RELEASE
forwards the held launch, DROP discards it; an enabled unit's configuration takes no write, and EN takes effect only with a
valid configuration. -/
def Obligations.CheckValues : Prop :=
  ∀ (s : State) (u k p c : Nat), u < 8 → s.onF sLimited = false → k = s.getF (uNextSlot u) → p = s.unitPart u →
    c = s.getF (hcCtr (s.getF (uHc u))) →
    (∀ j, j < 4 → s.getF (uDir u) = 0 → ∃ t, exec (.crcRefill u j) s = .next t ∧ t.getF (uSlotState u j) = 0 ∧
      t.getF (uRunning u j) = 0 ∧ t.getF (uFilled u j) = 0 ∧ t.getF (uDamaged u j) = 0 ∧
      OnlyFields [uSlotState u j, uRunning u j, uFilled u j, uDamaged u j] s t ∧
      t = { s with regs := t.regs, crcUnits := t.crcUnits }) ∧
    (s.getF (uHeld u) = 1 → ∃ t, exec (.crcDrop u) s = .next t ∧ t.getF (uHeld u) = 0 ∧
      t.getF (uDrops u) = satAdd 32 (s.getF (uDrops u)) 1 ∧ t.getF (uSlotState u k) = 0 ∧
      OnlyFields [uHeld u, uDrops u, uSlotState u k, uRunning u k, uFilled u k, uDamaged u k] s t ∧
      t = { s with regs := t.regs, crcUnits := t.crcUnits }) ∧
    (s.getF (ppState p) = 1 → (s.part p).hold = none → (s.part p).gated = false → s.exact = false → s.onF (uStaleSet u) = false →
      (∀ l, l ∈ s.partCores p → NoWaiter s l c ∧ s.getF (cCtr l c) < 65535) →
      (∀ st, s.getF (uHeld u) = 1 → st = s.getF (uResult u k) → ∃ t, exec (.crcRelease u) s = .next t ∧
        (∀ l, l ∈ s.partCores p → t.getF (cCtr l c) = s.getF (cCtr l c) + 1) ∧ t.getF (uHeld u) = 0 ∧
        t.getF (uSlotState u k) = 0 ∧ t.getF (uNextSlot u) = (k + 1) % (s.getF (uSlots u) + 1) ∧
        t.getF (uNext u) = ((if st ≤ 2 then s.blockAlive u else s.getF (uNext u)) + 1) % 65536 ∧ t.hbm = s.hbm ∧ t.cores = s.cores) ∧
      (s.onF sFatal = false → s.armed = true → s.onF (hcForward (s.getF (uHc u))) = true → s.inputUnit (s.getF (uHc u)) = some u →
        (s.part p).disarmed = false → s.getF (uHeld u) = 0 →
        (s.blockStatus u = 0 → ∃ t, exec (.hostCounterAdd (s.getF (uHc u)) 1) s = .next t ∧
          (∀ l, l ∈ s.partCores p → t.getF (cCtr l c) = s.getF (cCtr l c) + 1) ∧ t.getF (uHeld u) = 0 ∧
          t.getF (uSlotState u k) = 0 ∧ t.getF (uNextSlot u) = (k + 1) % (s.getF (uSlots u) + 1) ∧
          t.getF (uNext u) = (s.blockAlive u + 1) % 65536 ∧ t.getF (uResult u k) = 0 ∧ t.getF (uStale u) = s.getF (uStale u)) ∧
        (∀ st, st = s.blockStatus u → st ≠ 0 → s.onF (uHold u) = true → ∃ t, exec (.hostCounterAdd (s.getF (uHc u)) 1) s = .next t ∧
          t.getF (uHeld u) = 1 ∧ t.getF (uResult u k) = st ∧ t.getF (uStale u) = satAdd 32 (s.getF (uStale u)) 1 ∧
          Nat.testBit (t.getF hEvent) 12 = true ∧ t.getF (uNext u) = s.getF (uNext u) ∧ t.getF (uNextSlot u) = k ∧
          t.getF (hcTotal (s.getF (uHc u))) = s.getF (hcTotal (s.getF (uHc u))) ∧ t.cores = s.cores ∧ t.stops = s.stops))) ∧
    (∀ v : W64, (s.onF (uEn u) = true → exec (.crcConfigWrite u 8 8 v) s = .next s) ∧
      (s.onF (uEn u) = false → ∃ t, exec (.crcConfigWrite u 8 8 v) s = .next t ∧ t.getF (uPoly u) = v.toNat ∧
        RegsOnly [uPoly u] s t) ∧
      (s.onF (uEn u) = false → bitOf v 0 = true → ∃ t, exec (.crcConfigWrite u 0 8 v) s = .next t ∧
        (t.getF (uEn u) = 1 ↔ s.getF (uPoly u) % 2 = 1 ∧ 8 ≤ bitsOf v 8 7 ∧ bitsOf v 8 7 ≤ 64 ∧
          (bitOf v 1 = true ∨ s.onF (hcForward (bitsOf v 24 8)) = true)) ∧ t.getF (uWidth u) = bitsOf v 8 7))

/-- A command of the PAT block that is neither withheld nor stopped by a fatal condition (R318, R402, R495). -/
def PatMay (s : State) : Prop := s.onF sLimited = false ∧ s.onF sFatal = false

/-- VERIFY copies the image's header and table and sets VERIFYING; verification ends as VERIFIED with the image's digest or
as REFUSED with its reason (R318, R319); KEY enrols or revokes the record's slot, or gives its reason and changes no fuse
(R315, R316); in any other state VERIFY is ignored and counted (R318). -/
def Obligations.Verification : Prop :=
  ∀ s : State, PatMay s →
    (s.mayVerify = true → HbmClean s → ∃ t, exec .verify s = .next t ∧ t.getF pImage = 1 ∧ OnlyFields [pImage] s t ∧
      t = { s with regs := t.regs, pat := { s.pat with work := some (s.copyImage (s.getF pImageAddr)), verified := none } }) ∧
    (s.mayVerify = false → ∃ t, exec .verify s = .next t ∧ t.getF pIgnoredOp = 1 ∧ t.getF sIgnored = satAdd 64 (s.getF sIgnored) 1 ∧
      t.getF sIgnCause = 6 ∧ RegsOnly [pIgnoredOp, sIgnored, sIgnCause, sIgnCxl, sIgnWrite, sIgnAddr] s t) ∧
    (∀ w, s.pat.work = some w → ∃ t, exec .verifyComplete s = .next t ∧ t.pat.work = none ∧ Nat.testBit (t.getF hEvent) 10 = true ∧
      (if verifyReason s w = 0 then t.getF pImage = 2 ∧ t.pat.verified = some w.image ∧
        ∀ k, k < 4 → t.getF (pVdigest k) = (w.image.digest.extractLsb' (64 * k) 64).toNat
       else t.getF pImage = 3 ∧ t.getF pReason = verifyReason s w % 256 ∧ t.pat.verified = s.pat.verified) ∧
      t.cores = s.cores ∧ t.hbm = s.hbm ∧ t.fuses = s.fuses) ∧
    (s.mayVerify = true → ∀ a d n, a = s.getF pImageAddr → d = s.hbm.load a 128 → n = leAt d 5 1 →
      ∃ t, exec .key s = .next t ∧ Nat.testBit (t.getF hEvent) 10 = true ∧
        (if keyRecordBad s a = true then t.getF pReason = 0x20 ∧ t.fuses = s.fuses
         else if keyForbidden s a = true then t.getF pReason = 0x21 ∧ t.fuses = s.fuses
         else if sigVerifies (s.hbm.load (a + 128) sigBytes) ctxKeyRecord (sha3 d) = false then
          t.getF pReason = 0x22 ∧ t.fuses = s.fuses
         else if leAt d 4 1 = 1 then t.fuses.ownerEnrolled.getLsbD n = true ∧
          t.fuses.hash n = BitVec.ofNat 256 (leAt d 0x10 32) ∧ t.fuses.ownerRevoked = s.fuses.ownerRevoked
         else t.fuses.ownerRevoked.getLsbD n = true ∧ t.fuses.ownerEnrolled = s.fuses.ownerEnrolled) ∧
        t.hbm = s.hbm ∧ t.cores = s.cores)

/-- POUR empties every die and takes the verified image (R321, R322, R428); a section lands in every core it names, or in
HBM, and counts; a digest that does not match abandons the pour (R321, R323); once all has landed the partition is armed:
its digest is reported, its cores take its seed, their counters their initial values, their used queues their entries
(R202, R209, R216, R310, R321). -/
def Obligations.Pouring : Prop :=
  ∀ s : State,
    (PatMay s → s.mayPour = true → ∃ t, exec .pour s = .next t ∧ t.getF pPattern = 1 ∧ t.getF pLanded = 0 ∧ t.getF wOff = 0 ∧
      t.getF wDeep = 0 ∧ t.pat.cur = s.pat.verified ∧ t.cores = [] ∧ t.stops = [] ∧ (∀ p, p < 8 → t.getF (ppState p) = 0) ∧
      (∀ u, u < 8 → t.getF (uEn u) = 0 ∧ t.getF (uNext u) = s.getF (uNext u)) ∧ t.hbm = s.hbm ∧ t.fuses = s.fuses) ∧
    (∀ i k e, s.getF pPattern = 1 ∨ s.getF pPattern = 2 → s.pat.cur = some i → i.sections[k]? = some e → s.mayLand i k = true →
      (landReason s i e = 0 → s.freshParts = [] → e.kind = kTile → ∃ t, exec (.sectionLanding k) s = .next t ∧
        t.getF pPattern = 2 ∧ t.getF pLanded = satAdd 32 (s.getF pLanded) 1 ∧ t.pat.landed = s.pat.landed ++ [k] ∧
        (∀ lid j, lid ∈ s.landing e → j < e.length → (t.core lid).tile.byte (e.addr + j) = s.hbm.byte (i.base + e.offset + j)) ∧
        (∀ lid, lid ∉ s.landing e → t.core lid = s.core lid) ∧ t.hbm = s.hbm) ∧
      (landReason s i e = 0 → s.freshParts = [] → e.kind = kHbmData → ∃ t, exec (.sectionLanding k) s = .next t ∧
        t.getF pPattern = 2 ∧ (∀ j, j < e.length → t.hbm.byte (e.addr + j) = s.hbm.byte (i.base + e.offset + j)) ∧
        (∀ a, a < e.addr ∨ e.addr + e.length ≤ a → t.hbm.byte a = s.hbm.byte a) ∧ t.cores = s.cores) ∧
      (landReason s i e ≠ 0 → ∃ t, exec (.sectionLanding k) s = .next t ∧ t.getF pPattern = 0 ∧ t.getF pImage = 3 ∧
        t.getF pReason = landReason s i e % 256 ∧ t.pat.verified = none ∧ t.cores = [] ∧ t.hbm = s.hbm)) ∧
    (∀ i r, s.pat.cur = some i → s.getF pPattern = 2 → s.pat.recs = [r] → r.fresh = false → r.part < 8 → s.allLanded i = true →
      (∀ p, p < 8 → s.getF (ppState p) = 0) → (∀ lid, lid ∈ coresOfDies r.dies → s.getF (cGroupCount lid) = 0) →
      ∃ t, exec .arming s = .next t ∧ t.getF pPattern = 4 ∧ Nat.testBit (t.getF hEvent) 10 = true ∧
        (∀ k, k < 4 → t.getF (pDigest k) = (i.digest.extractLsb' (64 * k) 64).toNat) ∧
        t.getF xM3Count = satAdd 16 (s.getF xM3Count) 1 ∧ t.getF (ppState r.part) = 1 ∧ t.getF (ppDies r.part) = r.dies.toNat ∧
        t.getF wOff = (~~~r.dies).toNat ∧ (∀ lid, lid ∈ coresOfDies r.dies →
          t.getF (cSeedLo lid) = bitsOf r.seed 0 64 ∧ t.getF (cSeedHi lid) = bitsOf r.seed 64 32 ∧
          (∀ n, n < 64 → t.getF (cCtr lid n) = (tblGet (fun _ => 0#16) (s.core lid).reload n).toNat) ∧
          (∀ q, s.getF (qUsed lid q) = 1 → t.getF (qPc lid q) = s.getF (qEntry lid q) ∧ t.getF (qState lid q) = 1) ∧
          (∀ q, s.getF (qUsed lid q) = 0 → t.getF (qState lid q) = s.getF (qState lid q)) ∧ MemSame lid s t) ∧ t.hbm = s.hbm)

/-- A reset abandons every queue and wait of its partition and keeps its memories and seed (R239, R266); when it completes,
used queues start at their entries with the counters reloaded; DISARM resets every partition and, when the last reset
completes, empties the dies (R324); during a pour, RESET and DISARM abandon it (R324); PATCH waits for its partition's
result end, and a weight section replaces bits 16 to 1 of each lace word (R325, R326). -/
def Obligations.ResetsAndPatches : Prop :=
  ∀ s : State,
    (PatMay s → s.pouring = true → ∀ mask, ∃ t u, exec (.partitionReset mask) s = .next t ∧ exec .disarm s = .next u ∧ t = u ∧
      t.getF pPattern = 0 ∧ t.getF pReason = 0x12 ∧ t.cores = [] ∧ t.hbm = s.hbm) ∧
    (∀ p, PatMay s → s.getF pPattern = 4 → p < 8 → (∃ r, r ∈ s.pat.recs ∧ r.part = p) → s.getF (ppState p) ≠ 0 →
      ∃ t, exec (.partitionReset (BitVec.ofNat 8 (2 ^ p))) s = .next t ∧ t.getF (ppState p) = 3 ∧ t.getF (pfValid p) = 0 ∧
        (∀ lid q, lid ∈ s.partCores p → t.getF (qState lid q) = 0 ∧ t.getF (qDepth lid q) = 0 ∧ t.getF (cArrived lid) = 0) ∧
        (∀ lid, lid ∈ s.partCores p → MemSame lid s t ∧ (t.core lid).moves = [] ∧ (t.core lid).phase = none ∧
          t.seedOf lid = s.seedOf lid) ∧
        (∀ lid, lid < 2048 → lid ∉ s.partCores p → t.core lid = s.core lid ∧ ∀ q, t.getF (qState lid q) = s.getF (qState lid q)) ∧
        (∀ q, q < 8 → q ≠ p → t.getF (ppState q) = s.getF (ppState q)) ∧ t.hbm = s.hbm) ∧
    (PatMay s → s.getF pPattern = 4 → (∃ p, p < 8 ∧ s.getF (ppState p) ≠ 0) → ∃ t, exec .disarm s = .next t ∧
      t.pat.disarming = true ∧ t.getF pPattern = 4 ∧
      (∀ p, p < 8 → t.getF (ppState p) = if s.getF (ppState p) = 0 then 0 else 3) ∧ t.hbm = s.hbm) ∧
    (∀ p, p < 8 → s.getF (ppState p) = 3 → s.hbmBusy p = false →
      (s.pat.disarming = false → (s.part p).disarmed = false → (∀ u, u < 8 → s.getF (uEn u) = 0) →
        ∃ t, exec (.resetComplete p) s = .next t ∧ t.getF (ppState p) = 1 ∧
          (∀ d, d ∈ s.partDies p → t.getF (rdResetting d) = 0) ∧ t = { s with regs := t.regs } ∧
          (∀ lid, lid ∈ s.partCores p →
            (∀ n, n < 64 → t.getF (cCtr lid n) = (tblGet (fun _ => 0#16) (s.core lid).reload n).toNat) ∧
            ∀ q, s.getF (qUsed lid q) = 1 → t.getF (qPc lid q) = s.getF (qEntry lid q) ∧ t.getF (qState lid q) = 1)) ∧
      (s.pat.disarming = true → (∀ q, q < 8 → q ≠ p → s.getF (ppState q) ≠ 3) → ∃ t, exec (.resetComplete p) s = .next t ∧
        t.getF pPattern = 0 ∧ t.cores = [] ∧ (∀ q, q < 8 → t.getF (ppState q) = 0) ∧ t.hbm = s.hbm)) ∧
    (∀ p, PatMay s → s.mayPatch = true → s.patchParts = [p] → (s.part p).forwarded ≠ (s.part p).resultEnds →
      ∃ t, exec .patch s = .next t ∧ t.getF pPattern = 5 ∧ t.getF pLanded = 0 ∧ (t.part p).patchDue = true ∧
        (t.part p).patchLeft = s.patchSections p ∧ OnlyFields [pPattern, pLanded] s t ∧
        t = { s with regs := t.regs, parts := t.parts }) ∧
    (∀ i k e h lid, s.getF pPattern = 5 → s.pat.verified = some i → i.kind = 1 → i.sections[k]? = some e → e.kind = kLace →
      e.length % 64 = 0 → e.addr % 4 = 0 → (s.part e.part).hold = some h → h.patch = true → k ∈ (s.part e.part).patchLeft →
      ((s.part e.part).patchLeft.filter (· != k)) ≠ [] → landReason s i e = 0 → s.landing e = [lid] →
      ∃ t, exec (.sectionLanding k) s = .next t ∧ t.getF pLanded = satAdd 32 (s.getF pLanded) 1 ∧
        (∀ j b, j < e.length / 4 → b < 32 → (t.lace lid (e.addr / 4 + j)).getLsbD b =
          if 1 ≤ b ∧ b ≤ 16 then (BitVec.ofNat 32 (leNat (((s.payload i e).drop (4 * j)).take 4))).getLsbD b
          else (s.lace lid (e.addr / 4 + j)).getLsbD b) ∧
        BytesOutside lid .lace e.addr e.length s t ∧ (t.part e.part).patchLeft = (s.part e.part).patchLeft.filter (· != k))

/-- Checkpoints (R290-R298): a save or hold that can be carried out waits for its point; a save's copy is the checkpoint's
bytes at the command's address, and its digest follows; RESUME lets the hold end; a restore holds the partition, and its
loading brings back the seed and every core's run counters, in STATE 3; a command that cannot be carried out is counted and
gives its status. -/
def Obligations.Checkpoints : Prop :=
  ∀ (s : State) (p : Nat), p < 8 →
    (∀ c only u, PatMay s → u = s.setF (pkResultOnly p) (only : Bool).toNat → (s.part p).forwarded ≠ (s.part p).resultEnds →
      saveReason p c u = 0 → (∀ i, i = Instr.ckptSaveContinue p only ∧ c = 1 ∨ i = Instr.ckptSaveHold p only ∧ c = 2 ∨
          i = Instr.ckptHold p only ∧ c = 3 →
        ∃ t, exec i s = .next t ∧ t.getF (pkState p) = (if s.getF (pkState p) = 3 then 3 else 1) ∧ (t.part p).ckptCmd = c ∧
          (t.part p).ckptAddr = s.getF (pkAddr p) ∧ t.getF (pkResultOnly p) = only.toNat ∧
          OnlyFields [pkState p, pkResultOnly p] s t ∧ t = { s with regs := t.regs, parts := t.parts })) ∧
    (PatMay s → s.getF (ppState p) ≠ 1 → ∃ t, exec (.ckptHold p false) s = .next t ∧ t.getF (pkStatus p) = 7 ∧
      t.getF sIgnored = satAdd 64 (s.getF sIgnored) 1 ∧ t.getF sIgnCause = 8 ∧
      RegsOnly [pkStatus p, pkResultOnly p, sIgnored, sIgnCause, sIgnCxl, sIgnWrite, sIgnAddr] s t) ∧
    (∀ a d, s.getF (pkState p) = 2 → a = (s.part p).ckptAddr → d = ckptBytes s p (s.part p).ckptKind →
      ∃ t, exec (.saveCopied p) s = .next t ∧ (∀ i, i < d.length → t.hbm.byte (a + i) = d.getD i 0) ∧
      (∀ b, b < a ∨ a + d.length ≤ b → t.hbm.byte b = s.hbm.byte b) ∧ (t.part p).ckptLen = d.length ∧
      t.getF (pkKind p) = (s.part p).ckptKind % 2 ∧ t.getF (pkKib p) = ceilDiv (d.length + 32) 1024 % 2 ^ 32 ∧
      t.getF (pkState p) = (if (s.part p).ckptCmd = 2 then 3 else 5) ∧ (t.part p).ckptCmd = 4 ∧ t.cores = s.cores) ∧
    (∀ a n, (s.part p).ckptCmd = 4 → a = (s.part p).ckptAddr → n = (s.part p).ckptLen →
      ∃ t, exec (.ckptHashDone p) s = .next t ∧ t.getF (pkStatus p) = 1 ∧ (t.part p).ckptCmd = 0 ∧
        t.hbm.load (a + n) 32 = digestBytes (sha3 (s.hbm.load a n)) ∧ Nat.testBit (t.getF hEvent) 11 = true ∧
        t.getF (pkState p) = (if s.getF (pkState p) = 5 then 0 else s.getF (pkState p)) ∧ t.cores = s.cores) ∧
    (∀ h, PatMay s → s.getF (pkState p) = 3 → (s.part p).ckptCmd ≠ 4 → (s.part p).hold = some h →
      ∃ t, exec (.ckptResume p) s = .next t ∧ (t.part p).hold = some { h with host := false } ∧
        t.getF (pkState p) = (if (s.part p).ckptCmd = 0 then 0 else 1) ∧
        t.getF (pkStatus p) = 1 ∧ t.cores = s.cores ∧ t.hbm = s.hbm) ∧
    (PatMay s → restoreReason p s = 0 → HbmClean s → ∃ t, exec (.ckptRestore p) s = .next t ∧ t.getF (pkState p) = 4 ∧
      (∃ h, (t.part p).hold = some h ∧ h.host = true) ∧ (t.part p).ckptAddr = s.getF (pkAddr p) ∧
      (t.part p).ckptWas = s.getF (pkState p) ∧ OnlyFields [pkState p] s t ∧
      t = { s with regs := t.regs, parts := t.parts }) ∧
    (∀ st was, s.getF (pkState p) = 4 → st = loadReason p (s.part p).ckptAddr s → st ≠ 0 → was = (s.part p).ckptWas → was < 8 →
      ∃ t, exec (.restoreLoaded p) s = .next t ∧ t.getF (pkState p) = was ∧ t.getF (pkStatus p) = st ∧ t.getF sIgnCause = 8 ∧
        t.getF sIgnored = satAdd 64 (s.getF sIgnored) 1 ∧ (t.part p).hold = (if was = 3 then (s.part p).hold else none) ∧
        (∀ q, q ≠ p → t.part q = s.part q) ∧ t.cores = s.cores ∧ t.stops = s.stops ∧ t.hbm = s.hbm) ∧
    (∀ a d, s.getF (pkState p) = 4 → (s.part p).disarmed = false → a = (s.part p).ckptAddr → loadReason p a s = 0 →
      d = s.hbm.load a (leNat (s.hbm.load (a + 8) 8)) → ∃ t, exec (.restoreLoaded p) s = .next t ∧ t.getF (pkState p) = 3 ∧
        t.getF (pkStatus p) = 1 ∧ Nat.testBit (t.getF hEvent) 11 = true ∧
        (t.part p).hold = (s.part p).hold.map (fun h => { h with releases := [] }) ∧
        t.getF (psLo p) = leAt d 0x50 8 ∧ t.getF (psHi p) = leAt d 0x58 4 ∧ (t.part p).reentry = leAt d 0x4E 1 + 1 ∧
        (t.part p).elapsed = leAt d 0x6C 4 ∧ ∀ lid, lid ∈ s.partCores p → t.getF (cResult lid) = leAt d 0x40 8 % 2 ^ 48 ∧
          t.getF (cSweep lid) = leAt d 0x48 2 ∧ t.getF (cCurve lid) = leAt d 0x4A 2 ∧ t.getF (cRestart lid) = leAt d 0x4C 2 ∧
          t.getF (cSeedLo lid) = leAt d 0x50 8 ∧ ∀ q, t.getF (qState lid q) = 0)

/-- Next seeds (R203, R438, R439): a write stages a word; DRAW sets FILLING and asks the DRBG; while FILLING a write is ignored
and counted; the DRBG's output clears FILLING and sets PENDING. -/
def NextSeedsRule : Prop :=
  ∀ (s : State) (p : Nat), p < 8 →
    (PatMay s → s.onF (pnFilling p) = false →
      (∀ v, ∃ t, exec (.nextSeedWrite p false 8 v) s = .next t ∧ t.getF (pnLo p) = v.toNat ∧ (t.part p).nextDrbg = false ∧
        OnlyFields [pnLo p] s t ∧ t = { s with regs := t.regs, parts := t.parts }) ∧
      (∀ v : W64, bitOf v 62 = false → ∃ t, exec (.nextSeedWrite p true 8 v) s = .next t ∧ t.getF (pnHi p) = bitsOf v 0 32 ∧
        t.getF (pnPending p) = bitsOf v 63 1 ∧ OnlyFields [pnHi p, pnPending p] s t) ∧
      (s.getF eState ≠ 6 → ∃ t, exec (.seedDraw p) s = .next t ∧ t.getF (pnFilling p) = 1 ∧
        t.ent.waiting = insertReq s.tick (.nextSeed p) s.ent.waiting ∧ OnlyFields [pnFilling p] s t ∧
        t = { s with regs := t.regs, ent := { s.ent with waiting := t.ent.waiting } })) ∧
    (PatMay s → s.onF (pnFilling p) = true → ∀ hi v, ∃ t, exec (.nextSeedWrite p hi 8 v) s = .next t ∧ t.getF sIgnCause = 7 ∧
      t.getF sIgnored = satAdd 64 (s.getF sIgnored) 1 ∧ RegsOnly [sIgnored, sIgnCause, sIgnCxl, sIgnWrite, sIgnAddr] s t) ∧
    (s.onF (pnFilling p) = true → (s.part p).filled = true → ∃ t, exec (.seedFillDone p) s = .next t ∧
      t.getF (pnFilling p) = 0 ∧ t.getF (pnPending p) = 1 ∧ (t.part p).nextDrbg = true ∧
      OnlyFields [pnFilling p, pnPending p] s t ∧ t = { s with regs := t.regs, parts := t.parts })

/-- The entropy source (R431-R437, R442): MODE restarts it; RESEED and INSTANTIATE are due with the next blocks; outside
STARTUP to RESTART its samples change nothing, and the first of a pair waits for the second. With the second, every
oscillator's conditioned bit is tested. A stream that fails a test discards the block and restarts the source, and the
fourth failure running is the alarm; else the tests of STARTUP end with the known-answer tests, and once every stream has 16
bits they form a block, of which the second since start-up instantiates the DRBG. -/
def EntropySourceRule : Prop :=
  ∀ s : State,
    (∀ m, s.onF sLimited = false → ∃ t, exec (.entModeWrite m) s = .next t ∧ t.getF eMode = m.toNat ∧
      t.getF eState = (if s.getF eState = 1 ∨ s.getF eState = 2 then 1 else if s.getF eState = 3 ∨ s.getF eState = 4 then 4
        else s.getF eState) ∧ (1 ≤ s.getF eState → s.getF eState ≤ 4 → t.ent.oscs = [] ∧ t.ent.odd = none ∧ t.ent.seed = none) ∧
      t.ent.drbg = s.ent.drbg ∧ t.ent.waiting = s.ent.waiting ∧ OnlyFields [eMode, eState] s t ∧
      t = { s with regs := t.regs, ent := t.ent }) ∧
    (s.onF sLimited = false → exec .entReseed s = .next { s with ent := { s.ent with reseedDue := true } }) ∧
    (s.onF sLimited = false → exec .entInstantiate s = .next { s with ent := { s.ent with instDue := true, seed := none } }) ∧
    (∀ l kat, s.getF eState = 0 ∨ 5 ≤ s.getF eState → exec (.entropyBlock ⟨l, kat⟩) s = .next s) ∧
    (1 ≤ s.getF eState → s.getF eState ≤ 4 → s.ent.odd = none → ∀ x kat,
      exec (.entropyBlock ⟨[x], kat⟩) s = .next { s with ent := { s.ent with odd := some x } }) ∧
    (∀ (a x : W32) (kat : Bool) (l : List (Osc × Option Fld)), 1 ≤ s.getF eState → s.getF eState ≤ 4 → s.ent.odd = some a →
      l = (List.range 32).map (s.oscPair a x) →
      (∀ f, (l.filterMap Prod.snd).head? = some f →
        (s.getF eFails < 3 → ∃ t, exec (.entropyBlock ⟨[x], kat⟩) s = .next t ∧ t.getF f = satAdd 32 (s.getF f) 1 ∧
          t.getF eFails = s.getF eFails + 1 ∧ t.getF eState = (if 3 ≤ s.getF eState then 4 else 1) ∧ t.ent.oscs = [] ∧
          OnlyFields [f, eFails, eState] s t ∧ t = { s with regs := t.regs, ent := t.ent }) ∧
        (s.getF eFails = 3 → s.onF rFatalValid = false → ∃ t, exec (.entropyBlock ⟨[x], kat⟩) s = .next t ∧ t.getF eState = 6 ∧
          t.getF rFatalCode = 2 ∧ t.getF rFatalValid = 1 ∧ t.onF sFatal = true ∧ t.ent.waiting = [])) ∧
      (l.filterMap Prod.snd = [] → s.getF eState = 1 → (∀ o, o ∈ l → startUpBits ≤ o.1.started) →
        (∃ o, o ∈ l ∧ o.1.bits.length < 16) → kat = true → ∃ t, exec (.entropyBlock ⟨[x], kat⟩) s = .next t ∧ t.getF eState = 2 ∧
          t.ent.oscs = l.map Prod.fst ∧ OnlyFields [eState] s t ∧ t = { s with regs := t.regs, ent := t.ent }) ∧
      (l.filterMap Prod.snd = [] → s.getF eState = 2 → (∀ o, o ∈ l → 16 ≤ o.1.bits.length) →
        (s.ent.seed = none → ∃ t b, exec (.entropyBlock ⟨[x], kat⟩) s = .next t ∧ t.getF eState = 2 ∧ t.ent.seed = some b ∧
          (∀ i j, i < 32 → j < 16 → some (b.getLsbD (16 * i + j)) = (l[i]?).bind fun o => o.1.bits[j]?) ∧
          t.ent.oscs = l.map (fun o => o.1.used) ∧ OnlyFields [eFails] s t) ∧
        (∀ e, s.ent.seed = some e → ∃ t b, exec (.entropyBlock ⟨[x], kat⟩) s = .next t ∧ t.getF eState = 3 ∧ t.getF eFails = 0 ∧
          t.getF eRequests = 0 ∧ t.ent.seed = none ∧ t.ent.instDue = false ∧ t.ent.drbg =
            some (drbgInstantiate (blockBytes512 e) ((blockBytes512 b).take 32) (natLe 8 (s.getF sSerial) ++ s.persBytes)) ∧
          (∀ i j, i < 32 → j < 16 → some (b.getLsbD (16 * i + j)) = (l[i]?).bind fun o => o.1.bits[j]?) ∧
          OnlyFields [eState, eRequests, eFails, eStretched, eStalled] s t)))

/-- Who draws from the DRBG (R435, R436, R438, R441): it serves the first request with one Generate call and counts it; the
random register gives its oldest value; a quote that has waited 40 ms is answered with status 2. -/
def DrbgServesRule : Prop :=
  ∀ s : State,
    (∀ e rest d x, s.ent.waiting = e :: rest → s.ent.drbg = some d → s.serves = true → s.getF eRequests < 2 ^ 24 - 1 →
      x = BitVec.ofNat 512 (leNat (drbgGenerate d).1) →
      ∃ t, exec .drbgGenerate s = .next t ∧ t.ent.waiting = rest ∧ t.ent.drbg = some (drbgGenerate d).2 ∧
        t.getF eRequests = s.getF eRequests + 1 ∧
        (∀ p, e.2 = .nextSeed p → p < 8 → t.getF (pnLo p) = bitsOf x 0 64 ∧ t.getF (pnHi p) = bitsOf x 64 32 ∧
          (t.part p).filled = true) ∧
        (∀ p, e.2 = .pourSeed p → p < 8 → t.getF (psLo p) = bitsOf x 0 64 ∧ t.getF (psHi p) = bitsOf x 64 32 ∧
          t.getF (psFresh p) = 1 ∧ (t.part p).seeded = true) ∧
        (e.2 = .hostRandom → t.ent.fifo = (List.range 16).map fun i => x.extractLsb' (32 * i) 32)) ∧
    (∀ x l, s.onF sLimited = false → s.ent.fifo = x :: l → l ≠ [] → exec (.entRandRead 8 false) s =
      .next { s with ent := { s.ent with fifo := l }, out := s.out ++ [.readData 0x00400020 8 (1#32 ++ x)] }) ∧
    (∀ t0 nonce rest, s.ent.waiting = (t0, .quote nonce) :: rest → t0 + 2000000 ≤ s.tick → s.hostcfg.doe = [] →
      exec .entropyUnavailable s =
        .next { s with ent := { s.ent with waiting := rest }, out := s.out ++ [.doe (quoteStatus 2)] })

/-- The entropy source, the DRBG's consumers and next seeds. -/
def Obligations.EntropyAndSeeds : Prop := NextSeedsRule ∧ EntropySourceRule ∧ DrbgServesRule

/-- HBM requests (R246, R332, R338-R341, R363): the first tap that meets a request takes it to the queue of its
pseudo-channel and partition, where a seventeenth faults its sender in exact timing; a queue's head is served in turn, in
exact timing only where its partition owns a slot of the pseudo-channel: a read's data go back as a SEND flit, a write is
stored and acknowledged, a poisoned quarter with the poison syndrome. -/
def HbmRequestsServedRule : Prop :=
  ∀ (s : State) (p part : Nat), p < 192 → part < 8 →
    (∀ d ring slot x t0 src mid wr haddr dcore dmem daddr units pm data, d < 8 → ring < 4 → slot < 288 →
      s.slotTurn d ring slot = some (x, t0) → x.flit = .hbm src mid wr haddr dcore dmem daddr units pm data →
      s.owner src = some part → pcOf haddr = p →
      (s.exact = false ∨ ((s.ctl (ctlOf p)).queue (hbmKey p part)).length < 16 →
        ∃ t, exec (.hbmRequest (some ⟨d, ring, slot⟩) none) s = .next t ∧ t.slotAt d ring slot = none ∧
          (t.ctl (ctlOf p)).queue (hbmKey p part) = (s.ctl (ctlOf p)).queue (hbmKey p part) ++ [x.flit] ∧
          t = { s with dies := t.dies, ctls := t.ctls }) ∧
      (s.exact = true → 16 ≤ ((s.ctl (ctlOf p)).queue (hbmKey p part)).length →
        ∃ t, exec (.hbmRequest (some ⟨d, ring, slot⟩) none) s = .next t ∧ t.slotAt d ring slot = none ∧ t.ctls = s.ctls ∧
          (t.part part).faults = (s.part part).faults ++ [⟨0x68, src, 0, 0, true⟩])) ∧
    (s.ownsPc p part = false → exec (.hbmRequest none (some ⟨p, part⟩)) s = .next s) ∧
    (∀ src mid haddr dcore dmem daddr units pm data rest, (s.ctl (ctlOf p)).stopped = false → s.ownsPc p part = true →
      HbmClean s →
      ((s.ctl (ctlOf p)).queue (hbmKey p part) = .hbm src mid false haddr dcore dmem daddr units pm data :: rest →
        s.resetting (dieOf dcore) = false → ∃ t, exec (.hbmRequest none (some ⟨p, part⟩)) s = .next t ∧
          (t.ctl (ctlOf p)).queue (hbmKey p part) = rest ∧ ((t.die (dieOf dcore)).tap (s.viaTap1 dcore)).flits =
            ((s.die (dieOf dcore)).tap (s.viaTap1 dcore)).flits ++
              [.send src mid dcore false 0 dmem daddr false false 0 0 (s.hbm.load haddr (64 * units))] ∧
          t = { s with dies := t.dies, ctls := t.ctls }) ∧
      ((s.ctl (ctlOf p)).queue (hbmKey p part) = .hbm src mid true haddr dcore dmem daddr units pm data :: rest →
        (∀ u, u < 8 → s.onF (uEn u) = false) → data.length = 64 * units → haddr % 64 = 0 → s.owner src = some part →
        ∃ t, exec (.hbmRequest none (some ⟨p, part⟩)) s = .next t ∧ (t.ctl (ctlOf p)).queue (hbmKey p part) = rest ∧
          t.acks = (if s.resetting (dieOf src) then s.acks else s.acks ++ [(src, mid, units)]) ∧
          (∀ i, i < data.length → t.hbm.byte (haddr + i) =
            (s.stampRecord part (haddr + i / 64 * 64) ((data.drop (i / 64 * 64)).take 64)).getD (i % 64) 0) ∧
          (∀ a, a < haddr ∨ haddr + data.length ≤ a → t.hbm.byte a = s.hbm.byte a) ∧ (∀ q, q < 2 * units → q < 6 →
            t.hbm.err 32 (haddr / 32 + q) = if pm.getLsbD q then some .poison else none) ∧ t.cores = s.cores))

/-- What the GL8 itself sets in a result record's header (R120, R276): FLAGS bit 8 when the deadline has acted, bit 12 in
exact timing when an event has broken the promise; every other bit is as the pattern wrote it, and so is every other
write. -/
def RecordsStampedRule : Prop :=
  ∀ (s : State) (p a : Nat) (bs : List Byte), bs.length = 64 →
    (s.isRecord p a bs = false → s.stampRecord p a bs = bs) ∧
    (s.isRecord p a bs = true → (s.stampRecord p a bs).length = 64 ∧
      (∀ i, i < 12 ∨ 16 ≤ i → (s.stampRecord p a bs).getD i 0 = bs.getD i 0) ∧
      ∀ k, k < 32 → Nat.testBit (leNat (((s.stampRecord p a bs).drop 12).take 4)) k =
        (Nat.testBit (leNat ((bs.drop 12).take 4)) k || (decide (k = 8) && s.onF (pdFired p)) ||
          (decide (k = 12) && s.notExact p)))

/-- HBM requests and result records. -/
def Obligations.HbmRequests : Prop := HbmRequestsServedRule ∧ RecordsStampedRule

/-- Refresh, scrubbing and repair (R342-R345, R351, R353, R356-R360): a REFpb costs nothing in repeatable timing; in exact
timing a hotter stack owes what the frame does not issue, and pays while every partition is held; a temperature gives the
refresh class, and above 110 °C the fatal HBM_TEMP and self refresh; a corrected word is counted, logged and, in an idle
cycle, written back; a faulty row goes in one to a free spare row with its words corrected, else REMAP_FULL is set; an SRAM
scrubber rewrites a pending row or goes on; a lap past its threshold is flagged and logged once. -/
def Obligations.HbmUpkeep : Prop :=
  ∀ (s : State) (p c : Nat), p < 192 → c = ctlOf p →
    (∀ bank k, bank < 32 → k = p * 32 + bank → s.armed = true →
      (s.exact = false → exec (.refpb p bank) s = .next s) ∧
      (s.exact = true → s.allHeld = false → s.pat.refresh < min 2 (s.getF (bClass c)) → ∃ t, exec (.refpb p bank) s = .next t ∧
        (t.ctl c).owed k = (s.ctl c).owed k + (2 ^ (min 2 (s.getF (bClass c)) - s.pat.refresh) - 1) ∧
        (∀ q, q < 8 → s.getF (ppState q) = 1 → (t.part q).refreshDebt = true) ∧ t = { s with ctls := t.ctls, parts := t.parts }) ∧
      (s.exact = true → s.allHeld = true → 0 < (s.ctl c).owed k → ∃ t, exec (.refpb p bank) s = .next t ∧
        (t.ctl c).owed k = (s.ctl c).owed k - 1 ∧ t.getF (bExtra c) = satAdd 32 (s.getF (bExtra c)) 1 ∧
        (∀ q, q < 8 → s.getF (ppState q) = 1 → (t.part q).hadExtra = true) ∧
        OnlyFields [bExtra c] s t ∧ t = { s with regs := t.regs, ctls := t.ctls, parts := t.parts })) ∧
    (∀ tp : BitVec 8, (tp.toNat ≤ 110 → ∃ t, exec (.stackTemperatureRead c tp) s = .next t ∧ t.getF (bTemp c) = tp.toNat ∧
        t.getF (bClass c) = (if tp.toNat ≤ 85 then 0 else if tp.toNat ≤ 95 then 1 else if tp.toNat ≤ 105 then 2 else 3) ∧
        RegsOnly [bTemp c, bClass c] s t) ∧
      (110 < tp.toNat → s.onF rFatalValid = false → ∃ t, exec (.stackTemperatureRead c tp) s = .next t ∧ t.getF rFatalCode = 6 ∧
        t.getF rInfoDie = 16 + c ∧ t.getF rInfoDetail = tp.toNat ∧ t.onF sFatal = true ∧
        ∀ k, k < 6 → (t.ctl k).selfRefresh = true)) ∧
    (∀ w rest, (s.ctl c).pending = w :: rest → pcOf (32 * w) = p → (s.ctl c).stopped = false →
      s.hbm.err 32 w = some .correctable →
      (s.idlePc p = true → ∃ t, exec (.correctedWriteBack p) s = .next t ∧ (t.ctl c).pending = rest ∧ t.hbm.err 32 w = none ∧
        t.hbm.bytes = s.hbm.bytes ∧ (∀ v, v ≠ w → t.hbm.err 32 v = s.hbm.err 32 v) ∧
        t = { s with hbm := t.hbm, ctls := t.ctls }) ∧
      (s.idlePc p = false → exec (.correctedWriteBack p) s = .next s)) ∧
    (∀ u, u = (s.ctl c).unitAt p → s.scrubbing = true → s.stackRests c = false → (s.ctl c).stopped = false →
      s.idleScrub p = true → u + 1 < 2 ^ 24 → (∀ k, s.remapOf k = none) →
      (s.hbm.bad = [] → ∃ t, exec (.scrubAccess p) s = .next t ∧ (t.ctl c).unitAt p = u + 1 ∧
        t.getF (bProgress c) = t.lapProgress c ∧ OnlyFields [bProgress c] s t ∧ t = { s with regs := t.regs, ctls := t.ctls }) ∧
      (∀ w x, w = pcAddr p (64 * u) / 32 → s.hbm.bad = [(w, x)] → classify 32 x = some .correctable → (s.ctl c).pending = [] →
        (s.ctl c).prevWords = [] →
        (s.ctl c).lapWords = [] → ∃ t, exec (.scrubAccess p) s = .next t ∧ (t.ctl c).unitAt p = u + 1 ∧
          (t.ctl c).pending = [w] ∧ (t.ctl c).lapWords = [w] ∧ t.getF (bCorrected c) = satAdd 32 (s.getF (bCorrected c)) 1 ∧
          t.getF rCorrected = satAdd 32 (s.getF rCorrected) 1 ∧ t.hbm = s.hbm)) ∧
    (∀ bank row k, bank < 32 → row < 32768 → k = (p, bank, row) → (s.ctl c).due = [k] → (s.ctl c).stopped = false →
      s.idleCopy p = true →
      (∀ n, n < 64 → (∀ m, m < n → s.onF (bmValid c m) = true) → s.onF (bmValid c n) = false →
        ∃ t, exec (.rowRemapCopy p bank row) s = .next t ∧ (t.ctl c).due = [] ∧ t.getF (bmValid c n) = 1 ∧ t.getF (bmPc c n) = p / 6 ∧
          t.getF (bmBank c n) = bank ∧ t.getF (bmRow c n) = row ∧ t.getF (bRemapUsed c) = satAdd 7 (s.getF (bRemapUsed c)) 1 ∧
          t.hbm.bytes = s.hbm.bytes ∧ (∀ w, t.hbm.err 32 w =
            if w ∈ rowWords p bank row then (if isBad (s.hbm.err 32 w) then some .poison else none) else s.hbm.err 32 w) ∧
          ((∀ w, w ∈ rowWords p bank row → s.hbm.err 32 w = none) →
            OnlyFields [bmValid c n, bmPc c n, bmBank c n, bmRow c n, bRemapUsed c] s t)) ∧
      ((∀ n, n < 64 → s.onF (bmValid c n) = true) → ∃ t, exec (.rowRemapCopy p bank row) s = .next t ∧
        t.getF (bRemapFull c) = 1 ∧ t.hbm = s.hbm ∧
        ((∀ w, w ∈ rowWords p bank row → s.hbm.err 32 w = none) → OnlyFields [bRemapFull c] s t))) ∧
    (∀ lid m b k, lid < 2048 → b < bankCount m → k = bankBase m + b → s.scrubbing = true → s.dieRuns (dieOf lid) = true →
      (∀ r rest, (s.core lid).pendOf k = r :: rest → ∃ t, exec (.sramScrub lid m b) s = .next t ∧ (t.core lid).pendOf k = rest ∧
        (∀ w, ((t.core lid).mem m).err (cmWb m) w =
          if w ∈ s.rowCorrectable lid m b r then none else ((s.core lid).mem m).err (cmWb m) w) ∧
        ((t.core lid).mem m).bytes = ((s.core lid).mem m).bytes ∧ t = { s with cores := t.cores }) ∧
      (∀ r, (s.core lid).pendOf k = [] → CleanCore s lid → r = tblGet (fun _ => 0) (s.sram lid).pos k → r + 1 < bankRows m →
        ∃ t, exec (.sramScrub lid m b) s = .next t ∧ tblGet (fun _ => 0) (t.sram lid).pos k = r + 1 ∧
          t = { s with srams := t.srams })) ∧
    (∀ since, since = s.tick - max s.scrubStart (s.getF (bLastLap c)) - (s.ctl c).lapIdle → s.scrubbing = true →
      s.getF (bOverdueMs c) ≠ 0 →
      (50000 * s.getF (bOverdueMs c) < since → s.onF (bLapOverdue c) = false → ∃ t, exec (.lapOverdue (.stack c)) s = .next t ∧
        t.getF (bLapOverdue c) = 1 ∧ t.getF rCorrected = satAdd 32 (s.getF rCorrected) 1) ∧
      (since ≤ 50000 * s.getF (bOverdueMs c) ∨ s.onF (bLapOverdue c) = true → exec (.lapOverdue (.stack c)) s = .next s))

/-- The register fields that record an ignored access (R411). -/
def ignoredFields : List Fld := [sIgnored, sIgnCause, sIgnCxl, sIgnWrite, sIgnAddr]

/-- A host access is ignored and counted with a cause; a read then returns zeros (R411). -/
def Ignored (cause : Nat) (s t : State) : Prop :=
  t.getF sIgnored = satAdd 64 (s.getF sIgnored) 1 ∧ t.getF sIgnCause = cause ∧ OnlyFields ignoredFields s t

/-- BAR0 accesses by field type (R13, R399-R402, R411, R491): an RW field takes the value, a W1C field clears the bits written
as 1, an RO register takes nothing; a value out of range is limited; a read returns the register and clears the RC fields it
covers whole; a wrong size, an address where nothing is mapped and, while LIMITED is 1, a block that does not respond are
ignored and counted. -/
def Bar0Rule : Prop :=
  ∀ (s : State) (v : W64),
    (s.onF sLimited = false →
      (∃ t, exec (.registerWrite (.bar0 0x00200000) 8 v) s = .next t ∧ t.getF pImageAddr = bitsOf v 0 38 ∧ RegsOnly [pImageAddr] s t) ∧
      (∃ t, exec (.registerWrite (.bar0 0x00103000) 8 v) s = .next t ∧ RegsOnly [hEvent] s t ∧
        ∀ i, i < 14 → Nat.testBit (t.getF hEvent) i = (Nat.testBit (s.getF hEvent) i && !v.getLsbD i)) ∧
      exec (.registerWrite (.bar0 0x00200010) 8 v) s = .next s ∧
      (∃ t, exec (.rcRead (.bar0 0x00200010) 8) s = .next t ∧ t.regs = s.regs ∧ t.out = s.out ++ [.readData 0x00200010 8 (s.reg64 0x00200010)])) ∧
    (∃ t, exec (.registerWrite (.bar0 0x00800008) 8 v) s = .next t ∧ t.getF wHostCap = max 800 (min 1500 (bitsOf v 0 16)) ∧
      (s.getF wPlanCap = 0 → t.getF wEffective = max 800 (min 1500 (min (t.getF wHostCap) (s.getF wBmcCap)))) ∧
      RegsOnly [wHostCap, wEffective] s t) ∧
    (∃ t, exec (.rcRead (.bar0 0x00900048) 8) s = .next t ∧ t.getF rCorrected = 0 ∧ t.getF rContained = 0 ∧
      OnlyFields [rCorrected, rContained] s t ∧
      t = { s with regs := t.regs, out := s.out ++ [.readData 0x00900048 8 (s.reg64 0x00900048)] }) ∧
    (∃ t, exec (.rcRead (.bar0 0x00900048) 4) s = .next t ∧ t.getF rCorrected = 0 ∧ t.getF rContained = s.getF rContained) ∧
    (∀ o size, accessSized o size = false → ∃ t u, exec (.registerWrite (.bar0 o) size v) s = .next t ∧ Ignored 2 s t ∧
      exec (.rcRead (.bar0 o) size) s = .next u ∧ Ignored 2 s u ∧ u.out = s.out ++ [.readData o size 0]) ∧
    (∀ o size, accessSized o size = true → s.onF sLimited = true → withheld o = true → ∃ t u,
      exec (.registerWrite (.bar0 o) size v) s = .next t ∧ Ignored 3 s t ∧ t = { s with regs := t.regs } ∧
      exec (.rcRead (.bar0 o) size) s = .next u ∧ Ignored 3 s u ∧ u.out = s.out ++ [.readData o size 0]) ∧
    (∀ o size, accessSized o size = true → withheld o = false → accessMapped bar0Map o size = false → ∃ t u,
      exec (.registerWrite (.bar0 o) size v) s = .next t ∧ Ignored 1 s t ∧ t = { s with regs := t.regs } ∧
      exec (.rcRead (.bar0 o) size) s = .next u ∧ Ignored 1 s u ∧ u.out = s.out ++ [.readData o size 0])

/-- Beside BAR0 (R394-R396, R408): configuration space identifies the part and its class, and its writes set Bus Master
Enable, MSI-X Enable and the function mask; BAR2 holds the MSI-X table, whose vector control words are the masks, and the
pending bits. The places of the bits are those of PCI Express (log 5). -/
def ConfigSpaceRule : Prop :=
  ∀ (s : State) (v : W64),
    exec (.rcRead (.config .ids) 4) s = .next { s with out := s.out ++ [.cfgData (.config .ids) 4 0x08011D8F] } ∧
    exec (.rcRead (.config .classCode) 4) s = .next { s with out := s.out ++ [.cfgData (.config .classCode) 4 0x120000] } ∧
    exec (.registerWrite (.config .command) 4 v) s =
      .next { s with hostcfg := { s.hostcfg with memorySpace := v.getLsbD 1, busMaster := v.getLsbD 2 } } ∧
    exec (.registerWrite (.config .msixControl) 4 v) s =
      .next { s with hostcfg := { s.hostcfg with functionMask := v.getLsbD 14, msixEnable := v.getLsbD 15 } } ∧
    (∀ k, k < 64 → ∃ t, exec (.registerWrite (.bar2 (16 * k + 12)) 4 v) s = .next t ∧
      (∀ i, i < 64 → t.hostcfg.masked.getLsbD i = if i = k then v.getLsbD 0 else s.hostcfg.masked.getLsbD i) ∧
      t = { s with hostcfg := { s.hostcfg with masked := t.hostcfg.masked } }) ∧
    (∀ k, k < 64 → ∃ t, exec (.registerWrite (.bar2 (16 * k)) 8 v) s = .next t ∧ (∀ w, ∃ u,
      exec (.registerWrite (.bar2 (16 * k + 8)) 4 w) t = .next u ∧
      u.msixMessage k = .msix k v.toNat (w.extractLsb' 0 32) ∧ (∀ j, j ≠ k → u.msixMessage j = s.msixMessage j))) ∧
    exec (.rcRead (.bar2 0x8000) 8) s = .next { s with out := s.out ++ [.cfgData (.bar2 0x8000) 8 s.hostcfg.msixPending] }

/-- Host accesses to the registers of the part and of its configuration. -/
def Obligations.RegisterAccesses : Prop := Bar0Rule ∧ ConfigSpaceRule

/-- No request waits at an HBM controller (R340). -/
def NoRequests (s : State) : Prop := ∀ c, (s.ctl c).queues = []

/-- CXL.mem (R333, R340, R352, R354, R403, R404, R411): a read returns the bytes as they stand, with the poison indication
where a word is uncorrectable or poisoned; a write changes exactly the bytes it enables, and with poison leaves the words it
touches poisoned; a request of the pattern that reached the controller of the unit before it is served before it; what lies
in the reserved top 8 GiB reads zero, takes no write and is counted, and so is every access before Memory_Active. -/
def Obligations.CxlMemory : Prop :=
  ∀ (s : State) (a : Nat), s.onF sDegraded = false →
    (∀ n, a + n ≤ hostTop → 0 < n → s.hostcfg.memoryActive = true → s.memCut = false → NoRequests s →
      (HbmClean s → ∃ t, exec (.cxlmemRead a n) s = .next t ∧ OnlyFields [wDeep] s t ∧ t.getF wDeep = 0 ∧
        t = { s with regs := t.regs, out := s.out ++ [.memData a (s.hbm.load a n) false] }) ∧
      (s.hbmBad a n = true → ∃ t, exec (.cxlmemRead a n) s = .next t ∧ t.out = s.out ++ [.memData a (s.hbm.load a n) true] ∧
        t.hbm = s.hbm)) ∧
    (∀ d poison, a + d.length ≤ hostTop → s.hostcfg.memoryActive = true → NoRequests s →
      ∃ t, exec (.cxlmemWrite a d poison) s = .next t ∧
      (∀ i, i < d.length → t.hbm.byte (a + i) = (d.getD i none).getD (s.hbm.byte (a + i))) ∧
      (∀ b, b < a ∨ a + d.length ≤ b → t.hbm.byte b = s.hbm.byte b) ∧
      (∀ i, i < d.length → d.getD i none ≠ none → poison = true → t.hbm.err 32 ((a + i) / 32) = some .poison) ∧
      (∀ w, a ≤ 32 * w → 32 * w + 32 ≤ a + d.length → (∀ i, i < d.length → d.getD i none ≠ none) → poison = false →
        t.hbm.err 32 w = none)) ∧
    (∀ c p part src mid dcore dmem daddr data, a % 64 = 0 → a + 64 ≤ hostTop → p = pcOf a → c = ctlOf p → part < 8 →
      s.hostcfg.memoryActive = true → s.memCut = false → HbmClean s → s.exact = false → (∀ u, u < 8 → s.onF (uEn u) = false) →
      s.owner src = some part → s.isRecord part a data = false → data.length = 64 → (∀ k, k ≠ c → (s.ctl k).queues = []) →
      (s.ctl c).queues = [(hbmKey p part, [.hbm src mid true a dcore dmem daddr 1 0 data])] →
      ∃ t, exec (.cxlmemRead a 64) s = .next t ∧ t.out = s.out ++ [.memData a data false] ∧ (t.ctl c).queues = []) ∧
    (∀ n d poison, hostTop ≤ a → a + n ≤ hdmTop → 0 < n → a + d.length ≤ hdmTop → 0 < d.length → s.hostcfg.memoryActive = true →
      s.onF rDumpPresent = false → NoRequests s →
      ∃ t u, exec (.cxlmemRead a n) s = .next t ∧ t.out = s.out ++ [.memData a (List.replicate n 0#8) false] ∧
        t.getF sIgnored = satAdd 64 (s.getF sIgnored) 1 ∧ t.getF sIgnCause = 9 ∧ exec (.cxlmemWrite a d poison) s = .next u ∧
        u.hbm = s.hbm ∧ u.getF sIgnored = satAdd 64 (s.getF sIgnored) 1 ∧ u.getF sIgnCause = 9) ∧
    (∀ n d poison, a + n ≤ hdmTop → a + d.length ≤ hdmTop → s.hostcfg.memoryActive = false → ∃ t u,
      exec (.cxlmemRead a n) s = .next t ∧ Ignored 9 s t ∧ t.out = s.out ++ [.memData a (List.replicate n 0#8) false] ∧
      exec (.cxlmemWrite a d poison) s = .next u ∧ Ignored 9 s u ∧ u.hbm = s.hbm)

/-- A conventional reset returns every register to its reset value but the dump's and the report of heat 0, which runs, and
keeps tick, fuses, flash and HBM, but that one in heat 4, 5 or 8 may cut off the writing of a record or fuse (R413, R466,
log 113); a Function Level Reset returns the HOST block to its reset values and disarms
(R413, R466); removal of input power leaves only fuses and flash (R498, R514). -/
def Obligations.Resets : Prop :=
  ∀ s : State,
    (s.pwr.aon = true → s.getF rDumpState ≠ 1 → ∃ t, exec .conventionalReset s = .next t ∧ t.outcome 0 = 1 ∧
      (∀ k, keptWord k = true → t.regW k = s.regW k) ∧
      (∀ k, keptWord k = false → inBytes 0x1000 0x1100 k = false → t.regW k = resetWord k) ∧ t.parts = [] ∧ t.stops = [] ∧
      t.tick = s.tick ∧ s.fuses.Grow t.fuses ∧ (s.heatRunning ≠ some 5 → s.heatRunning ≠ some 8 → t.fuses = s.fuses) ∧
      t.flash = { s.flash with records := t.flash.records } ∧ (s.heatRunning ≠ some 4 → t.flash = s.flash) ∧
      t.hbm = s.hbm ∧ t.out = s.out) ∧
    (∃ t, exec .functionLevelReset s = .next t ∧ (∀ k, hostWord k = true → t.regW k = resetWord k) ∧
      t.hostcfg.busMaster = false ∧ t.hostcfg.msixEnable = false ∧ t.hostcfg.memoryActive = s.hostcfg.memoryActive ∧
      t.hostcfg.decoder = s.hostcfg.decoder ∧
      (s.onF sFatal = false → s.getF pPattern = 4 → (∃ p, p < 8 ∧ s.getF (ppState p) ≠ 0) → t.pat.disarming = true ∧
        ∀ p, p < 8 → t.getF (ppState p) = if s.getF (ppState p) = 0 then 0 else 3) ∧
      (s.pouring = false → s.armed = false → ∀ k, hostWord k = false → t.regW k = s.regW k) ∧ t.hbm = s.hbm) ∧
    (∃ t, exec .powerLoss s = .next t ∧ t.fuses = s.fuses ∧ t.flash = s.flash ∧ t.pwr.aon = false ∧ t.regs = [] ∧ t.hbm = {} ∧
      t.cores = [] ∧ t.tick = 0) ∧
    (s.pwr.aon = false → ∃ t, exec .pgoodAon s = .next t ∧ t.pwr.aon = true ∧ t.outcome 0 = 1 ∧ t.heatRunning.isSome = true ∧
      (∀ k, inBytes 0x1000 0x1100 k = false → t.regW k = s.regW k) ∧ t.fuses = s.fuses ∧ t.flash = s.flash)

/-- An answer and nothing else. -/
def Answers (i : Instr) (o : Output) (s : State) : Prop := exec i s = .next { s with out := s.out ++ [o] }

/-- The DOE mailbox (R412, R438, R487-R490): Discovery lists the three protocols; Table Access returns the CDAT, whose bytes
sum to 0; a quote without a fitting certificate has status 1, after an entropy alarm status 2, else it waits for the DRBG; an
object that is malformed, too long or of another protocol is counted. While a request is in hand, others wait their turn. -/
def DoeMailboxRule : Prop :=
  ∀ s : State,
    (cdat.map BitVec.toNat).sum % 256 = 0 ∧ leAt cdat 0 4 = cdat.length ∧ leAt cdat 32 8 = 192 * 2 ^ 30 ∧
    (s.doeBusy = false → s.hostcfg.doe = [] →
      Answers (.doeDiscovery 0) (.doe [0x01, 0x00, 0x00, 0x01]) s ∧ Answers (.doeDiscovery 1) (.doe [0x98, 0x1E, 0x02, 0x02]) s ∧
      Answers (.doeDiscovery 2) (.doe [0x8F, 0x1D, 0x01, 0x00]) s ∧
      (∀ i, 3 ≤ i → Answers (.doeDiscovery i) (.doe [0xFF, 0xFF, 0xFF, 0x00]) s) ∧
      Answers .cxlTableAccess (.doe ([0x00, 0x00, 0xFF, 0xFF] ++ cdat)) s ∧
      Answers .getCert (.doe (natLe 4 (if Config.certificate = [] then 1 else 0) ++ Config.certificate)) s ∧
      (∀ nonce, if certificateFits = false ∨ Config.certificate = [] then Answers (.quote nonce) (.doe (quoteStatus 1)) s
        else if s.getF eState = 6 then Answers (.quote nonce) (.doe (quoteStatus 2)) s
        else ∃ t, exec (.quote nonce) s = .next t ∧
          t = { s with ent := { s.ent with waiting := insertReq s.tick (.quote nonce) s.ent.waiting } }) ∧
      (∀ ven ty n bad, ven < 65536 → ty < 256 → bad = true ∨ 16384 < n ∨ doeProtocols.contains (ven, ty) = false →
        ∃ t, exec (.doeUnsupported (ven, ty) ⟨n, bad⟩) s = .next t ∧ Ignored 0x0C s t ∧ t.out = s.out)) ∧
    (s.doeBusy = true →
      (∀ i, exec (.doeDiscovery i) s = .next { s with hostcfg := { s.hostcfg with doe := s.hostcfg.doe ++ [.discovery i] } }) ∧
      exec .cxlTableAccess s = .next { s with hostcfg := { s.hostcfg with doe := s.hostcfg.doe ++ [.cdat] } } ∧
      exec .getCert s = .next { s with hostcfg := { s.hostcfg with doe := s.hostcfg.doe ++ [.cert] } } ∧
      (∀ n, exec (.quote n) s = .next { s with hostcfg := { s.hostcfg with doe := s.hostcfg.doe ++ [.quote n] } }))

/-- The SMBus slave (R475, R483): each read answers its value, and CAP takes a value of 800 to 1,500 W, NACKing any other and
any with a wrong PEC; before PGOOD_AON nothing answers (log 114). -/
def SmbusRule : Prop :=
  ∀ s : State,
    (s.pwr.aon = false → exec .readState s = .next s ∧ exec .readPower s = .next s ∧ exec .readSerial s = .next s ∧
      exec .readFw s = .next s ∧ exec .readTemp s = .next s ∧ exec .readHbmTemp s = .next s ∧
      ∀ w ok, exec (.cap w ok) s = .next s) ∧
    (s.pwr.aon = true →
    Answers .readState (.smbus (natLe 2 (bitsOf (s.reg64 0x10) 0 9 + 2 ^ 9 * s.getF wDeep + 2 ^ 10 * s.anyActive.toNat))) s ∧
    Answers .readPower (.smbus (natLe 2 (s.getF wAvg))) s ∧ Answers .readSerial (.smbus (natLe 8 (s.getF sSerial))) s ∧
    Answers .readFw (.smbus (natLe 2 (s.getF sFwMajor) ++ natLe 2 (s.getF sFwMinor))) s ∧
    (∃ m, Answers .readTemp (.smbus (natLe 1 m)) s ∧ (∀ d, d < 10 → s.getF (tpMax d) ≤ m) ∧
      (m = 0 ∨ ∃ d, d < 10 ∧ s.getF (tpMax d) = m)) ∧
    (∃ m, Answers .readHbmTemp (.smbus (natLe 1 m)) s ∧ (∀ c, c < 6 → s.getF (bTemp c) ≤ m) ∧ (m = 0 ∨ ∃ c, c < 6 ∧ s.getF (bTemp c) = m)) ∧
    (∀ ok, Answers (.cap none ok) (.smbus (natLe 2 (s.getF wBmcCap))) s) ∧
    (∀ v : BitVec 16, 800 ≤ v.toNat → v.toNat ≤ 1500 → ∃ t, exec (.cap (some v) true) s = .next t ∧ t.getF wBmcCap = v.toNat ∧
      OnlyFields [wBmcCap, wEffective] s t ∧ t = { s with regs := t.regs, out := s.out ++ [.smbusAck] }) ∧
    (∀ (v : BitVec 16) ok, v.toNat < 800 ∨ 1500 < v.toNat ∨ ok = false → Answers (.cap (some v) ok) .smbusNack s))

/-- The DOE mailbox and the SMBus slave. -/
def Obligations.DoeAndSmbus : Prop := DoeMailboxRule ∧ SmbusRule

/-- The monitor's command lines (R503, R504). -/
def isLine : Instr → Bool
  | .monHelp | .monState | .monHeat _ | .monRd _ _ | .monWr _ _ | .monFuse | .monLog _ | .monBaud _ | .monFullstart => true
  | .monLinkcfg _ _ _ _ _ | .monLinktest _ _ | .monMemtest _ | .monDump _ | .monLoad _ | .monCommit | .monRaw _ => true
  | .monRawread _ | .monFatal | .monReset | .monUnlock | .monLock | .monUnknownCommand => true
  | _ => false

/-- The monitor prints lines, then OK, and nothing else changes. -/
def Says (i : Instr) (ls : List (List Byte)) (s : State) : Prop :=
  exec i s = .next { s with out := s.out ++ (ls.map Output.monLine ++ [.monOk]) }

/-- The monitor answers ERR, and nothing else changes (R503). -/
def Errs (i : Instr) (code : Nat) (s : State) : Prop := exec i s = .next { s with out := s.out ++ [.monErr code] }

/-- Monitor commands that read and set (R446, R502-R504, R507): characters that come while a command is in progress, or
before PGOOD_AON (log 114), are discarded; each command gives its lines, then OK; a bad argument is ERR 02, a missing unlock ERR 03, a wrong state ERR 04, an
unknown command ERR 01; WR writes as a host would, under WRITE alone. -/
def Obligations.MonitorLines : Prop :=
  ∀ s : State, (∀ i, isLine i = true → s.monBusy = true ∨ s.pwr.aon = false → exec i s = .next s) ∧
    (s.monBusy = false → s.pwr.aon = true →
      Says .monHelp (monCommands.map ascii) s ∧
      Says .monState (([0x10, 0x00900000, 0x00900020, 0x00200010, 0x00800000] : List Nat).map fun o => natLe 8 (s.reg64 o).toNat) s ∧
      Says .monFuse s.fuseView s ∧ Errs .monUnknownCommand 1 s ∧
      (∀ h, (h ≤ 9 → Says (.monHeat h) [s.regBytes (reportAt h) 256] s) ∧ (9 < h → Errs (.monHeat h) 2 s)) ∧
      (∀ n, Says (.monLog n) (s.newest n) s) ∧
      (∀ o n, o % 8 = 0 → 1 ≤ n → n ≤ 64 → o + 8 * n ≤ monTop → s.onF wDeep = false →
        Says (.monRd o n) ((List.range n).map fun i => s.monWord (o + 8 * i)) s) ∧
      (∀ o v, o % 8 = 0 → o + 8 ≤ monTop → s.lacks 0 = true → Errs (.monWr o v) 3 s) ∧
      (∀ v, s.lacks 0 = false → ∃ t, exec (.monWr 0x00200000 v) s = .next t ∧ t.getF pImageAddr = bitsOf v 0 38 ∧
        OnlyFields [pImageAddr] s t ∧ t = { s with regs := t.regs, out := s.out ++ [.monOk] }) ∧
      (∀ rate, (rate ∈ baudRates → ∃ t, exec (.monBaud rate) s = .next t ∧ t.getF mRate = rate ∧ OnlyFields [mRate] s t ∧
        t = { s with regs := t.regs, out := s.out ++ [.monOk] }) ∧ (rate ∉ baudRates → Errs (.monBaud rate) 2 s)) ∧
      (if s.pwr.ccRunning = true then
        exec .monFullstart s = .next { s with flash := { s.flash with fullNext := true }, out := s.out ++ [.monOk] }
       else Errs .monFullstart 4 s) ∧
      (∀ id topo x y z, id < 4096 → topo < 4 → x < 4096 → y < 4096 → z < 4096 → s.pwr.ccRunning = true → s.armed = false →
        exec (.monLinkcfg id topo x y z) s = .next { s with
          flash := { s.flash with linkId := id, linkTopology := topo, linkX := x, linkY := y, linkZ := z },
          out := s.out ++ [.monOk] }) ∧
      (∀ a n, s.getF rDumpPresent = 0 → Errs (.monDump a) 4 s ∧ (n = 0 → Errs (.monLoad n) 2 s)))

/-- The buffer has been committed (R469-R471): an image that the ROM accepts is taken, STATUS reads 3, flash is erased, and
programming ends within 30 s, at a tick that is free (log 58); any other image is refused with STATUS 5 and changes nothing
else. -/
def Committed (s t : State) : Prop :=
  if s.getF sRecLength ≤ recBytes ∧ s.accepts s.bufferImage = true then
    t.getF sRecStatus = 3 ∧ t.flash = { s.flash with image := [] } ∧ s.fuses.Grow t.fuses ∧
      ∃ fin, t.pwr.prog = some (fin, s.bufferImage) ∧ s.tick < fin ∧ fin ≤ s.tick + 1500000000
  else t = { s with regs := t.regs, out := t.out } ∧ t.getF sRecStatus = 5 ∧ OnlyFields [sRecStatus] s t

/-- Monitor commands that act (R440, R470, R493, R504-R506): LINKTEST and MEMTEST answer free figures, MEMTEST leaves every
byte outside what it tests; DUMP and RAWREAD start a transfer, LOAD waits for one; COMMIT begins to program the buffer or
refuses it; RAW takes the source to RAW; FATAL raises INJECTED; RESET is a conventional reset; UNLOCK asks the DRBG for a
challenge, or prints one at once. -/
def Obligations.MonitorActs : Prop :=
  ∀ s : State, s.monBusy = false → s.pwr.aon = true → s.pwr.ccRunning = true →
    (s.lacks 1 = false → s.armed = false →
      (∀ port secs, port < 6 → secs ≠ 0 → ∃ t b, exec (.monLinktest port secs) s = .next t ∧
        b.length = 16 * (portLinks s.dims port).2 ∧ t = { s with out := s.out ++ [.monLine b, .monOk], free := t.free }) ∧
      (∀ c, c < 6 → ∃ t b, exec (.monMemtest (.stack c)) s = .next t ∧ t.out = s.out ++ [.monLine b, .monOk] ∧
        (∀ a, ctlOf (pcOf a) ≠ c → t.hbm.byte a = s.hbm.byte a) ∧
        (s.onF rDumpPresent = true → s.onF rDumpBuffer = false → ∀ a, dumpBase ≤ a → a < dumpTop →
          t.hbm.byte a = s.hbm.byte a) ∧ t.cores = s.cores) ∧
      (∀ d, d < 8 → ∃ t b, exec (.monMemtest (.die d)) s = .next t ∧ t.out = s.out ++ [.monLine b, .monOk] ∧
        (∀ l, dieOf l ≠ d → t.core l = s.core l) ∧ t.hbm = s.hbm)) ∧
    (∀ d, d = s.dumpPart none → d ≠ [] → s.onF rDumpPresent = true → ∃ t, exec (.monDump none) s = .next t ∧
      t.out = s.out ++ [.monFrame (frameBytes (d.take 4096))] ∧ t.mon.transfer = some (.sending (pieces 4096 d) 0) ∧
      (HbmClean s → OnlyFields [wDeep] s t)) ∧
    (∀ n, 0 < n → n ≤ recBytes → exec (.monLoad n) s =
      .next { s with mon := { s.mon with transfer := some (.loading n [] 0), frameTick := s.tick } }) ∧
    (s.pwr.prog = none → ∃ t, exec .monCommit s = .next t ∧ t.out = s.out ++ [.monOk] ∧ Committed s t) ∧
    (s.lacks 2 = false →
      (1 ≤ s.getF eState → s.getF eState ≤ 4 → ∃ t, exec (.monRaw .on) s = .next t ∧ t.getF eState = 5 ∧ t.getF mRaw = 1 ∧
        t.out = s.out ++ [.monOk] ∧ OnlyFields [eState, mRaw] s t) ∧
      (∀ n, n < 32 → ∃ t, exec (.monRaw (.osc n)) s = .next t ∧ t.getF mSource = n ∧ OnlyFields [mSource] s t) ∧
      (∀ n, 0 < n → s.getF eState = 5 → ∃ t b, exec (.monRawread n) s = .next t ∧ b.length = n ∧
        t.mon.transfer = some (.sending (pieces 4096 b) 0) ∧ t.out = s.out ++ [.monFrame (frameBytes (b.take 4096))])) ∧
    (s.lacks 0 = false →
      (s.onF rFatalValid = false → ∃ t, exec .monFatal s = .next t ∧ t.getF rFatalCode = 0x0F ∧ t.getF rFatalValid = 1 ∧
        t.onF sFatal = true) ∧
      (∃ t, exec .monReset s = .next t ∧ exec .conventionalReset { s with out := s.out ++ [.monOk] } = .next t ∧
        t.outcome 0 = 1 ∧ t.out = s.out ++ [.monOk])) ∧
    (s.serves = true → exec .monUnlock s =
      .next { s with ent := { s.ent with waiting := insertReq s.tick .challenge s.ent.waiting } }) ∧
    (s.serves = false → ∃ t, exec .monUnlock s = .next t ∧ t.mon.challenge = some s.tickChallenge ∧ t.mon.challengeTick = s.tick ∧
      t.mon.transfer = some (.token 0) ∧ t.out = s.out ++ [.monLine (digestBytes s.tickChallenge)])

/-- Transfers and the unlock (R505, R506): an accepted frame brings the next or OK, a refused one is sent again and its
eighth refusal ends the transfer with ERR 05; received frames build up the image, which then stands in the buffer; 2 s without
a frame end a transfer; a token that is accepted grants its scopes for its seconds, any other is answered with an error; LOCK
and expiry end the unlock. -/
def Obligations.MonitorTransfers : Prop :=
  ∀ s : State,
    (∀ a l r, s.mon.transfer = some (.sending (a :: l) r) →
      (∀ b l', l = b :: l' → ∃ t, exec (.monFrame .accepted) s = .next t ∧ t.out = s.out ++ [.monFrame (frameBytes b)] ∧
        t.mon.transfer = some (.sending l 0)) ∧
      (l = [] → ∃ t, exec (.monFrame .accepted) s = .next t ∧ t.out = s.out ++ [.monOk] ∧ t.mon.transfer = none) ∧
      (r + 1 < 8 → ∃ t, exec (.monFrame .refused) s = .next t ∧ t.out = s.out ++ [.monFrame (frameBytes a)] ∧
        t.mon.transfer = some (.sending (a :: l) (r + 1))) ∧
      (8 ≤ r + 1 → ∃ t, exec (.monFrame .refused) s = .next t ∧ t.out = s.out ++ [.monErr 5] ∧ t.mon.transfer = none)) ∧
    (∀ n got r d, s.mon.transfer = some (.loading n got r) → 1 ≤ d.length → d.length ≤ 4096 →
      (d.length < n → ∃ t, exec (.monFrame (.received d (crc32 d))) s = .next t ∧ t.out = s.out ++ [.monByte 0x06] ∧
        t.mon.transfer = some (.loading (n - d.length) (got ++ d) 0)) ∧
      (d.length = n → (got ++ d).length < 2 ^ 32 → ∃ t, exec (.monFrame (.received d (crc32 d))) s = .next t ∧
        t.out = s.out ++ [.monByte 0x06, .monOk] ∧ t.mon.transfer = none ∧ t.getF sRecLength = (got ++ d).length ∧
        t.getF sRecStatus = (if s.pwr.prog.isSome then s.getF sRecStatus else 1) ∧ ∀ i, i < (got ++ d).length → t.pwr.recBytes.byte i = (got ++ d).getD i 0) ∧
      (∀ c, c ≠ crc32 d → r + 1 < 8 → ∃ t, exec (.monFrame (.received d c)) s = .next t ∧ t.out = s.out ++ [.monByte 0x15] ∧
        t.mon.transfer = some (.loading n got (r + 1)))) ∧
    (∀ x, s.mon.transfer = some x →
      (s.mon.frameTick + 100000000 ≤ s.tick → ∃ t, exec .monTransferTimeout s = .next t ∧ t.out = s.out ++ [.monErr 5] ∧
        t.mon.transfer = none) ∧
      (s.tick < s.mon.frameTick + 100000000 → exec .monTransferTimeout s = .next s)) ∧
    (∀ r d, s.mon.transfer = some (.token r) → ∃ t, exec (.unlockToken d) s = .next t ∧ t.mon.challenge = none ∧
      t.mon.transfer = none ∧
      (if s.tokenOk d = true then t.getF mScope = leAt d 4 1 ∧ t.getF mActive = 1 ∧ t.out = s.out ++ [.monOk] ∧
          t.mon.unlockEnd = s.tick + 50000000 * leAt d 0x30 4
       else t.getF mScope = s.getF mScope ∧ t.getF mActive = s.getF mActive ∧ ∃ code, 1 ≤ code ∧ code ≤ 5 ∧
          t.out = s.out ++ [.monErr code])) ∧
    (s.monBusy = false → s.pwr.aon = true → ∃ t, exec .monLock s = .next t ∧ t.getF mScope = 0 ∧ t.getF mActive = 0 ∧ t.out = s.out ++ [.monOk] ∧
      OnlyFields [mScope, mActive] s t) ∧
    (s.onF mActive = true → (s.mon.unlockEnd ≤ s.tick → ∃ t, exec .unlockExpiry s = .next t ∧ t.getF mScope = 0 ∧
        t.getF mActive = 0 ∧ OnlyFields [mScope, mActive] s t) ∧
      (s.tick < s.mon.unlockEnd → exec .unlockExpiry s = .next s))

/-- The recovery buffer, the boot record and the day count (R446, R470, R471): COMMIT verifies the buffer and begins to program
flash, or leaves it untouched, and does nothing while an image is being programmed (log 58); at its end the image stands in
flash and, in recovery, bring-up goes on at heat 2; CLEAR empties the buffer; a write sets FULL_NEXT and FULL_DAYS. -/
def Obligations.RecoveryAndBoot : Prop :=
  ∀ s : State,
    (s.pwr.prog = none → ∃ t, exec .recoveryCommit s = .next t ∧ t.out = s.out ∧ Committed s t) ∧
    (s.pwr.prog.isSome = true → exec .recoveryCommit s = .next s) ∧
    (∀ fin d, s.pending = [] → s.pwr.prog = some (fin, d) → fin ≤ s.tick + 1 →
      ∃ t, step s = .next t ∧ t.flash.image = d ∧ t.getF sRecStatus = 4 ∧ t.pwr.prog = none ∧
        (s.onF sRecActive = true → t.getF sRecActive = 0 ∧ t.pwr.ccRunning = true ∧ t.outcome 2 = 1 ∧ t.getF sHeat = 1)) ∧
    (∃ t, exec .recoveryClear s = .next t ∧ t.pwr.recBytes = {} ∧ t.getF sRecLength = 0 ∧
      t.getF sRecStatus = (if s.pwr.prog.isSome then s.getF sRecStatus else 0) ∧
      OnlyFields [sRecLength, sRecStatus] s t ∧ t.flash = s.flash) ∧
    (∀ v : W64, exec (.fullNextWrite 8 v) s =
      .next { s with flash := { s.flash with fullNext := bitOf v 0, fullDays := bitsOf v 16 16 } }) ∧
    exec .powerOnDay s = .next { s with flash := { s.flash with days := s.flash.days + 1 } }

/-! ### Power and temperature -/

/-- The operating point goes to `q`: at once where every partition of the pattern is held, else it is waited for. -/
def PointGoes (q : Nat) (s t : State) : Prop :=
  if s.allHeld = true then t.getF wPoint = q ∧ t.getF wChanges = satAdd 32 (s.getF wChanges) 1 ∧ t.pwr.pointWant = none
  else t.getF wPoint = s.getF wPoint ∧ t.pwr.pointWant = some q

/-- Samples, power sums, region warnings, gating and DEEP (R473-R481, R484, R485, R491, R493): a sample sets its die's
registers and THERM#, and a die that comes to 110 °C raises DIE_TEMP and loses its power; a power sum sets the averages, and
under a repeatable-timing pattern the wanted point falls by one while held time exceeds HOLD_DUTY and rises by one under the
conditions of R474 (the window of held ticks is the model's); a buffer at 6 or 2 warns every partition; a partition that has
stayed quiescent for its IDLE_TICKS is gated, no other is, and traffic wakes it; DEEP takes every compute die OFF, with its
rail, and keeps HBM. -/
def Obligations.PowerAndTemperature : Prop :=
  ∀ s : State,
    (∀ d (l : List (BitVec 8)), d < 10 → l.length = 16 →
      (hottest l < 110 → ∃ t, exec (.temperatureSample d l) s = .next t ∧ t.getF (tpMax d) = hottest l ∧
        t.getF (tpSensor d) = hottestAt l ∧ t.getF (tpBridge d) = (l.headD 0).toNat ∧
        OnlyFields [tpMax d, tpSensor d, tpBridge d] s t ∧ t.pwr.hot115 = s.pwr.hot115 &&& ~~~(1#10 <<< d) ∧
        t = { s with regs := t.regs, pwr := { s.pwr with hot115 := t.pwr.hot115 } }) ∧
      (110 ≤ hottest l → s.getF (tpMax d) < 110 → d < 8 → s.onF rFatalValid = false →
        ∃ t, exec (.temperatureSample d l) s = .next t ∧ t.getF rFatalCode = 0x07 ∧ t.getF rFatalValid = 1 ∧ t.getF rInfoDie = d ∧
          t.getF rInfoItem = hottestAt l ∧ t.getF rInfoDetail = hottest l ∧ Nat.testBit (t.getF wOff) d = true ∧
          (∀ c, c < 2048 → dieOf c = d → t.core c = {}) ∧ t.thermPin = (s.pwr.hot115 &&& ~~~(1#10 <<< d) != 0 || decide (115 ≤ hottest l)))) ∧
    (∀ avg avg10 : BitVec 16, ∃ t, exec (.powerSum avg avg10) s = .next t ∧ t.getF wAvg = avg.toNat ∧ t.getF wAvg10 = avg10.toNat ∧
      t.hbm = s.hbm ∧ t.cores = s.cores ∧
      (s.armed = false ∨ s.exact = true → t.getF wPoint = s.getF wPoint ∧ t.pwr.pointWant = none) ∧
      (∀ c, s.clockPlan = some c → s.armed = true → s.exact = false →
        ((∀ e ∈ s.pwr.heldLog, s.tick < e.1 + 500000) → 10 * avg10.toNat ≤ 9 * s.getF wEffective →
          (∀ d, d < 10 → s.getF (tpMax d) + 5 ≤ s.getF wTResume) → c.point < s.getF wPoint →
          PointGoes (s.getF wPoint - 1) s t) ∧
        (∀ u n rest, s.pwr.heldLog = (u, n) :: rest → u + 500000 ≤ s.tick → (∀ e ∈ rest, s.tick < e.1 + 500000) →
          c.duty * (s.tick - u) < 100 * (s.pwr.heldTotal - n) → s.getF wPoint < c.minPoint → c.minPoint < 4 →
          PointGoes (s.getF wPoint + 1) s t))) ∧
    (∀ i, i < 10 →
      (∀ occ, occ = 6 ∨ occ = 2 → ∃ t, exec (.regionWarning i occ) s = .next t ∧ t.getF (grOcc i) = occ ∧ t.getF (grWarn i) = 1 ∧
        t.getF (grWarnings i) = satAdd 32 (s.getF (grWarnings i)) 1 ∧ t.getF (grHigh i) = max (s.getF (grHigh i)) occ ∧
        t.getF (grLow i) = min (s.getF (grLow i)) occ ∧
        ∀ p, t.part p = if p < 8 ∧ s.getF (ppState p) ≠ 0 then { s.part p with regionWarn := true } else s.part p) ∧
      (∀ occ, 3 ≤ occ → occ ≤ 5 → ∃ t, exec (.regionWarning i occ) s = .next t ∧ t.getF (grOcc i) = occ ∧
        t.parts = s.parts ∧ OnlyFields [grOcc i, grHigh i, grLow i] s t)) ∧
    (∀ p, p < 8 →
      (s.idleTicks p ≠ 0 → s.quiescent p = true → s.idleTicks p ≤ (s.part p).quietTicks → ∃ t, exec (.partitionGate p) s = .next t ∧ (t.part p).gated = true ∧
        t.getF wGated = s.getF wGated ||| s.dieMask p ∧ OnlyFields [wGated, wPoint, wChanges] s t ∧ t.cores = s.cores) ∧
      (s.quiescent p = false ∨ s.idleTicks p = 0 ∨ (s.part p).quietTicks < s.idleTicks p →
        exec (.partitionGate p) s = .next s) ∧
      ((s.part p).gated = true → s.traffic p = true → ∃ t, exec (.partitionWake p) s = .next t ∧ (t.part p).gated = false ∧
        t.getF wGated = s.getF wGated &&& (255 - s.dieMask p) ∧ (t.part p).buffered = []) ∧
      ((s.part p).gated = false → exec (.partitionWake p) s = .next s)) ∧
    (s.getF pPattern = 0 → s.getF sHeat = 9 → s.onF sFatal = false → s.onF wDeep = false → s.getF wDeepDelay ≠ 0 →
      s.pwr.idleFrom + 50000000 * s.getF wDeepDelay ≤ s.tick → ∃ t, exec .deepEntry s = .next t ∧ t.getF wDeep = 1 ∧
        t.getF wOff = 0xFF ∧ t.pwr.rails = s.pwr.rails &&& 0xFFF#20 ∧ (∀ c, c < 2048 → t.core c = {}) ∧ t.hbm = s.hbm) ∧
    (s.onF sFatal = true → exec .deepEntry s = .next s)

/-! ### Fatal conditions and the dump -/

/-- A fatal condition is latched: the first one with its code, the tick and what INFO says of it, and the first stays (R494). -/
def Latched (code die item detail : Nat) (s t : State) : Prop :=
  t.getF rFatalValid = 1 ∧
    if s.onF rFatalValid = true then
      t.getF rSecond = satAdd 8 (s.getF rSecond) 1 ∧ t.getF rFatalCode = s.getF rFatalCode ∧
        t.getF rInfoDie = s.getF rInfoDie ∧ t.getF rInfoItem = s.getF rInfoItem ∧ t.getF rInfoDetail = s.getF rInfoDetail
    else
      t.getF rFatalCode = code ∧ t.getF rInfoDie = die ∧ t.getF rInfoItem = item ∧ t.getF rInfoDetail = detail ∧
        t.getF sFatal = 1 ∧ t.getF rSecond = s.getF rSecond

/-- Every powered compute die stops its core clocks, one that the condition takes out of service apart (R494). -/
def Frozen (t : State) : Prop :=
  ∀ d, d < 8 → Nat.testBit (t.getF wOff) d = false → (t.die d).frozen = true

/-- The fatal conditions (R388, R467, R477, R484, R493, R494, R502): each latches its
code, where INFO points and its detail, stops the core clocks of the powered dies, and takes its own part out of service:
Ercia, a die, the sprue ring with the links, a stack's controller, every rail but the always-on ones. -/
def Obligations.FatalConditions : Prop :=
  ∀ s : State,
    (∃ t, exec .ccWatchdogExpiry s = .next t ∧ Latched 0x01 8 0 0 s t ∧ Frozen t ∧ t.pwr.ccRunning = false) ∧
    (∀ a, a < 0x800000 → ∃ t, exec (.controlSramUncorrectable a) s = .next t ∧ Latched 0x01 8 0 a s t ∧ Frozen t ∧
      t.pwr.ccRunning = false) ∧
    (∀ d, d < 8 → ∃ t, exec (.pllLossOfLock d) s = .next t ∧ Latched 0x09 d d 0 s t ∧ Frozen t ∧
      Nat.testBit (t.getF wOff) d = true ∧ ∀ c, c < 2048 → dieOf c = d → t.core c = {}) ∧
    (∀ d, 8 ≤ d → d < 10 → ∃ t, exec (.pllLossOfLock d) s = .next t ∧ Latched 0x09 d d 0 s t ∧ Frozen t ∧
      ∀ n, n < 48 → t.getF (lkState n) = 0) ∧
    (∀ d lane, d < 10 → lane < 16 → ∃ t, exec (.sprueCrcError d lane) s = .next t ∧ Latched 0x04 d lane 0 s t ∧ Frozen t ∧
      t.pwr.sprueStopped = true ∧ ∀ n, n < 48 → t.getF (lkState n) = 0) ∧
    (∀ d ring, d < 8 → ring < 4 → ∃ t, exec (.ringParity d ring) s = .next t ∧ Latched 0x0A d ring 0 s t ∧ Frozen t) ∧
    (∀ c (detail : BitVec 48), c < 6 → ∃ t, exec (.hbmCtrlError c detail) s = .next t ∧ Latched 0x0B (16 + c) c detail.toNat s t ∧
      Frozen t ∧ (t.ctl c).stopped = true) ∧
    (∀ r mv, 12 ≤ r → r < 20 → mv < 65536 → ∃ t, exec (.railFault r mv) s = .next t ∧ Latched 0x08 (r - 12) r mv s t ∧
      Frozen t ∧ Nat.testBit (t.getF wOff) (r - 12) = true ∧ t.pwr.rails = s.pwr.rails &&& ~~~(1#20 <<< r)) ∧
    (∀ r mv, r < 12 → mv < 65536 → ∃ t, exec (.railFault r mv) s = .next t ∧ Latched 0x08 (railDie r) r mv s t ∧
      t.getF wOff = 0xFF ∧ t.pwr.rails = s.pwr.rails &&& 3#20 ∧ t.hbm = {} ∧ t.cores = [] ∧ t.fuses = s.fuses ∧ t.flash = s.flash) ∧
    (∀ i occ, i < 10 → occ = 7 ∨ occ = 1 → ∃ t, exec (.elasticBufferSlip i occ) s = .next t ∧ Latched 0x03 (crossingDie i) i 0 s t ∧
      Frozen t ∧ t.getF (grOcc i) = occ ∧ t.pwr.sprueStopped = true)

/-- The dump (R494, R496-R498, R501): once written it is complete and held, the bytes stand in the dump region or in the ladle
buffer, PATTERN reads EMPTY and FATAL is raised; a condition that finds one held counts it as skipped; one in heat 0 begins
none; RELEASE lets it go, but for one that is being written, where it is ignored and counted. -/
def Obligations.LadleDump : Prop :=
  ∀ s : State,
    (s.getF rDumpState = 1 → ∃ t, exec .dumpComplete s = .next t ∧ t.getF rDumpState = 2 ∧ t.getF rDumpPresent = 1 ∧
      t.getF pPattern = 0 ∧ Nat.testBit (t.getF hEvent) 8 = true ∧ t.cores = s.cores ∧
      (s.onF rDumpBuffer = false → t.pwr.ladle = s.pwr.ladle ∧ (∀ a, a < dumpBase → t.hbm.byte a = s.hbm.byte a) ∧
        ∀ i, i < 4 → t.hbm.byte (dumpBase + i) = (ascii "GLDL").getD i 0) ∧
      (s.onF rDumpBuffer = true → t.hbm = s.hbm ∧ ∀ i, i < 4 → t.pwr.ladle.byte i = (ascii "GLDL").getD i 0)) ∧
    (s.getF rDumpState ≠ 1 → exec .dumpComplete s = .next s) ∧
    (s.getF rDumpState ≠ 1 → ∃ t, exec .dumpRelease s = .next t ∧ t.getF rDumpState = 0 ∧ t.getF rDumpPresent = 0 ∧
      t.getF rDumpBuffer = 0 ∧ t.pwr.ladle = {} ∧ OnlyFields [rDumpState, rDumpPresent, rDumpBuffer] s t ∧ t.hbm = s.hbm) ∧
    (s.getF rDumpState = 1 → ∃ t, exec .dumpRelease s = .next t ∧ t.getF rDumpState = 1 ∧
      t.getF sIgnored = satAdd 64 (s.getF sIgnored) 1 ∧ OnlyFields ignoredFields s t) ∧
    (s.getF rDumpState ≠ 1 → s.onF rDumpPresent = true → ∃ t, exec (.ringParity 0 0) s = .next t ∧
      t.getF rSkipped = satAdd 8 (s.getF rSkipped) 1 ∧ t.getF rDumpState = s.getF rDumpState ∧ t.getF rDumpPresent = 1 ∧
      t.hbm = s.hbm) ∧
    (s.getF rDumpState ≠ 1 → s.onF rDumpPresent = false → s.heatRunning = some 0 → ∃ t, exec (.ringParity 0 0) s = .next t ∧
      t.getF rDumpState = s.getF rDumpState ∧ t.getF rDumpPresent = 0 ∧ t.outcome 0 = 5 ∧ t.pwr.stopped = true)

/-! ### Bring-up -/

/-- The heat that a command is. -/
def heatNo : Instr → Option Nat
  | .heat0 _ => some 0
  | .heat1 _ => some 1
  | .heat2 _ => some 2
  | .heat3 _ => some 3
  | .heat4 _ => some 4
  | .heat5 _ => some 5
  | .heat6 _ => some 6
  | .heat7 _ => some 7
  | .heat8 _ => some 8
  | .heat9 => some 9
  | _ => none

/-- A heat of bring-up ends and the next begins (R443, R447): its report has its OUTCOME, SYS_STATE says which heat is done,
and the next report reads RUNNING. -/
def HeatDone (h out : Nat) (t : State) : Prop :=
  t.outcome h = out ∧ t.getF sHeat = h ∧ t.heatRunning = some (h + 1) ∧ t.pwr.stopped = false

/-- A heat that ends with OUTCOME FATAL: bring-up has stopped (R465). -/
def HeatStopped (h : Nat) (t : State) : Prop := t.outcome h = 5 ∧ t.pwr.stopped = true

/-- The heat in progress of a bring-up that has not stopped. -/
def InHeat (h : Nat) (s : State) : Prop := s.heatRunning = some h ∧ s.pwr.stopped = false

/-- Bring-up goes through its heats in order (R443, R447, R464, R465): one that is not in progress changes nothing; heat 0
enables the rails, or stops with RAIL; heat 1 runs Ercia, or enters recovery; a crossing or lane that does not train makes
heat 2 non-conformant; a checker that fails stops heat 6; heat 9 ends bring-up, READY only when nothing made the part
non-conformant, with LIMITED cleared and the READY event either way. -/
def Obligations.HeatsInOrder : Prop :=
  ∀ s : State,
    (∀ i h, heatNo i = some h → i.wf = true → ¬ InHeat h s → exec i s = .next s) ∧
    (InHeat 0 s → ∀ r : BitVec 20,
      (r.ushiftRight 2 = BitVec.ofNat 20 (2 ^ 18 - 1) → ∃ t, exec (.heat0 ⟨r⟩) s = .next t ∧ HeatDone 0 2 t ∧ t.pwr.rails = BitVec.allOnes 20 ∧
        t.hbm = s.hbm) ∧
      (∀ n, badRail r = some n → ∃ t mv, exec (.heat0 ⟨r⟩) s = .next t ∧ HeatStopped 0 t ∧
        Latched 0x08 (railDie n) n mv s t)) ∧
    (InHeat 1 s → ∀ r : Heat1In, heat1Ok r = true → ∃ t, exec (.heat1 r) s = .next t ∧
      t.getF sDegraded = (!r.cxl || decide (r.rate < 16)).toNat ∧
      (if s.accepts s.flash.image = true then HeatDone 1 (if r.cxl = true ∧ 16 ≤ r.rate then 2 else 3) t
       else HeatStopped 1 t ∧ t.getF sRecActive = 1 ∧ t.fuses = s.fuses)) ∧
    (InHeat 2 s → ∀ r : Heat2In, ∃ t, exec (.heat2 r) s = .next t ∧ t.getF gLanesUp = r.lanes.toNat ∧
      (∀ i, i < 10 → t.getF (grOcc i) = 4) ∧
      if r.crossings = BitVec.allOnes 10 ∧ r.lanes = BitVec.allOnes 16 then HeatDone 2 2 t ∧ t.pwr.nonconformant = s.pwr.nonconformant
      else HeatDone 2 4 t ∧ t.pwr.nonconformant = true) ∧
    (InHeat 6 s → (∃ t, exec (.heat6 ⟨none⟩) s = .next t ∧ HeatDone 6 2 t) ∧
      ((∀ n, n < 192 → ∃ t, exec (.heat6 ⟨some (1, n)⟩) s = .next t ∧ HeatStopped 6 t ∧ Latched 0x05 (16 + ctlOf n) (ctlOf n) 0 s t) ∧
        (∀ n, n < 8 → ∃ t, exec (.heat6 ⟨some (5, n)⟩) s = .next t ∧ HeatStopped 6 t ∧ Latched 0x05 8 0 0 s t))) ∧
    (InHeat 9 s → ∃ t, exec .heat9 s = .next t ∧ t.getF sHeat = 9 ∧ t.getF sLimited = 0 ∧ Nat.testBit (t.getF hEvent) 9 = true ∧
      t.getF sReady = (!s.pwr.nonconformant).toNat ∧ t.getF sConformant = (!s.pwr.nonconformant).toNat ∧
      t.outcome 9 = if s.pwr.nonconformant then 4 else 2)

/-- An eye within the pass limits of R346. -/
abbrev EyeWithin (e : Eye) : Prop := 300 ≤ e.mui.toNat ∧ 40 ≤ e.mv.toNat

/-- A copy of the saved record may serve at these temperatures (R348). -/
def MayServe (k : TrainRec) (temps : List (BitVec 8)) : Prop :=
  k.digestOk = true ∧ k.serial = Config.serial ∧ k.version = 1 ∧ k.rate = 12000 ∧
    ∀ c, c < 6 → 25 ≤ (k.temps.getD c 0).toInt ∧ (k.temps.getD c 0).toInt ≤ 85 ∧
      (temps.getD c 0).toInt - (k.temps.getD c 0).toInt ≤ 10 ∧ (k.temps.getD c 0).toInt - (temps.getD c 0).toInt ≤ 10

/-- The heats that bring HBM and the peer links up (R346, R348, R355, R389, R404, R445, R446, R451, R461, R498): heat 3 trains
each stack from the record or in full, a record serves only under R348, an eye passes only within R346's limits, and a stack
that does not train makes the part non-conformant; heat 4 fills HBM with zeros, the region of a held dump apart, moves a short
dump there, makes memory active, writes the record, and a full test clears FULL_NEXT; heat 7 loads the topology, trains the
links to it and reports a port with another neighbour than the declared one, and only its rings and sprue can make the part
non-conformant. -/
def Obligations.HeatsOfMemoryAndLinks : Prop :=
  ∀ s : State,
    (InHeat 3 s → ∀ r : Heat3In, r.temps.length = 6 → r.restored.length = 6 → r.trained.length = 6 →
      ∃ t, exec (.heat3 r) s = .next t ∧ t.pwr.full = s.fullStart r ∧
        (∀ c, c < 6 → t.getF (bTemp c) = (r.temps.getD c 0).toNat ∧ t.getF (bTrained c) =
          if s.fullStart r = false ∧ EyeWithin (eyeAt r.restored c) then 1 else if EyeWithin (eyeAt r.trained c) then 2 else 0) ∧
        (if ((List.range 6).any fun c => t.getF (bTrained c) == 0) = true then HeatDone 3 4 t ∧ t.pwr.nonconformant = true else HeatDone 3 2 t)) ∧
    (∀ r, (s.flash.records = [] ∨ s.pwr.fullWanted = true ∨ (∀ c, c < 6 → ¬ EyeWithin (eyeAt r.restored c)) → s.fullStart r = true) ∧
      (s.fullStart r = false → ∃ k ∈ s.flash.records, MayServe k r.temps) ∧
      (∀ k rest, s.flash.records = k :: rest → MayServe k r.temps → s.pwr.fullWanted = false → s.flash.fullDays = 0 →
        (∃ c, c < 6 ∧ EyeWithin (eyeAt r.restored c)) → s.fullStart r = false)) ∧
    (InHeat 4 s → ∀ r : Heat4In, r.failed.all rowOk = true → r.fixable.all rowOk = true →
      ∃ t k, exec (.heat4 r) s = .next t ∧ t.hostcfg.memoryActive = true ∧ t.flash.records.head? = some k ∧
        k.digestOk = true ∧ k.version = 1 ∧ k.serial = Config.serial ∧ k.fwMajor = s.getF sFwMajor ∧ k.rate = 12000 ∧
        (∀ c, c < 6 → t.getF (bReady c) = if s.getF (bTrained c) = 0 then 0 else 1) ∧
        (s.onF rDumpPresent = false → t.hbm = {}) ∧
        (s.onF rDumpPresent = true → s.onF rDumpBuffer = false → ∀ a, t.hbm.byte a =
          if dumpBase ≤ a ∧ a < dumpTop then s.hbm.byte a else 0) ∧
        (s.onF rDumpPresent = true → s.onF rDumpBuffer = true → t.getF rDumpBuffer = 0 ∧
          ∀ i, i < s.pwr.note.len → t.hbm.byte (dumpBase + i) = s.pwr.ladle.byte i) ∧
        (s.pwr.full = true → t.flash.fullNext = false ∧ t.flash.days = 0) ∧
        (if ((List.range 6).any fun c => decide (48 < inStack ((s.toRepair r).filter fun x => !r.fixable.contains x) c)) = true then
          HeatDone 4 4 t ∧ t.pwr.nonconformant = true
         else HeatDone 4 (if s.toRepair r = [] then 2 else 3) t ∧ t.pwr.nonconformant = s.pwr.nonconformant)) ∧
    (InHeat 7 s → ∀ r : Heat7In, foundOk r.found = true → s.flash.linkId < 4096 → s.flash.linkTopology < 4 →
      ∃ t, exec (.heat7 r) s = .next t ∧ t.getF lId = s.flash.linkId ∧ t.getF lTopology = s.flash.linkTopology ∧
        (∀ n, n < 48 → s.flash.linkTopology ≠ 0 → t.getF (lkState n) = match r.found.find? fun f => f.link == n with
          | some f => (laneState f.lanes).1
          | none => 0) ∧
        t.net.torus = t.declared ∧ t.pwr.linksStopped = false ∧
        (∀ k f, k < 2 * s.flash.linkTopology → f ∈ r.found → f.lanes ≠ .down → linkPort s.flash.linkTopology f.link = k →
          f.neighbour ≠ t.expectedAt k ∨ f.topology ≠ s.flash.linkTopology → t.getF (lpState k) = 3 ∧ t.getF lAgreed = 0) ∧
        (r.rings ≠ BitVec.allOnes 8 ∨ r.sprue = false → HeatDone 7 4 t ∧ t.pwr.nonconformant = true) ∧
        (r.rings = BitVec.allOnes 8 → r.sprue = true → t.pwr.nonconformant = s.pwr.nonconformant ∧
          (s.flash.linkTopology = 0 → HeatDone 7 2 t ∧ ∀ n, n < 48 → t.getF (lkState n) = 0)))

/-- The field bank has no entry in force, and no fuse marks a core or stop bad. -/
def CleanFuses (s : State) : Prop := s.fuses.badCores = [] ∧ s.fuses.badStops = [] ∧ s.fuses.field = []

/-- Reconciliation at heat 5 and the test bars of heat 8 (R240-R242, R244, R453-R458, R462, R463): on a clean part each row's
columns 0 to 15 go to its first slots and the rest are spares, nothing is bypassed, and SRAM is filled; a core that fails is
fenced and recorded in the field bank, the columns move on, and heat 5 says PASS_REPAIRED; a spare that fails its test bar is
fenced and recorded with LATE. -/
def Obligations.Reconciliation : Prop :=
  ∀ s : State,
    (InHeat 5 s → (∀ r : Heat5In, r.cores.all physOk = true → r.stops.all physOk = true → r.rows.all sramRowOk = true →
        ∃ t out, exec (.heat5 r) s = .next t ∧ HeatDone 5 out t ∧ 2 ≤ out ∧ out ≤ 4 ∧ t.cores = [] ∧ t.stops = [] ∧
          t.pwr.bist = r.rows ∧ t.hbm = s.hbm) ∧
      (CleanFuses s →
        (∃ t, exec (.heat5 ⟨[], [], []⟩) s = .next t ∧ HeatDone 5 2 t ∧ t.fuses = s.fuses ∧
          t.pwr.nonconformant = s.pwr.nonconformant ∧
          ∀ d, d < 8 → t.getF (rdRotation d) = 288 ∧ t.getF (rdTap0 d) = 0 ∧ t.getF (rdTap1 d) = 144 ∧
            ∀ w k, w < 16 → k < 18 → t.slotCode ⟨d, w, k⟩ = (if k < 16 then 0 else 1) ∧
              t.getF (rsFenced d (ringPos ⟨d, w, k⟩)) = (if k < 16 then 0 else 1) ∧
              t.getF (rsLid d (ringPos ⟨d, w, k⟩)) = (if k < 16 then 256 * d + 16 * w + k else 0)) ∧
        (∀ x : PhysRef, physOk x = true → ∃ t, exec (.heat5 ⟨[x], [], []⟩) s = .next t ∧ HeatDone 5 3 t ∧
          t.fuses = { s.fuses with field := t.fuses.field } ∧ t.fuseWord 0 = fieldWord x false false ∧
          (∀ n, n ≠ 0 → t.fuseWord n = 0) ∧ t.pwr.nonconformant = s.pwr.nonconformant ∧
          ∀ k, k < 18 → t.slotCode { x with slot := k } = if k = x.slot then 3
            else if (if k < x.slot then k else k - 1) < 16 then 0 else 1))) ∧
    (InHeat 8 s →
      (∃ t, exec (.heat8 ⟨[]⟩) s = .next t ∧ HeatDone 8 2 t ∧ t.fuses = s.fuses ∧ t.cores = s.cores ∧
        ∀ x, physOk x = true → t.slotCode x = s.slotCode x) ∧
      (∀ (x : PhysRef) (e : BitVec 7), physOk x = true → s.slotCode x = 1 → s.fuseWord 0 = 0 →
        ∃ t, exec (.heat8 ⟨[[(x, e)]]⟩) s = .next t ∧ HeatDone 8 3 t ∧ t.slotCode x = 3 ∧ t.fuseWord 0 = fieldWord x false true ∧
          (∀ n, n ≠ 0 → t.fuseWord n = s.fuseWord n) ∧ ∀ y, physOk y = true → y ≠ x → t.slotCode y = s.slotCode y))

/-! ### Peer links -/

/-- Nothing but the listed register fields, the links, the ports and what is sent changes. -/
def LinksOnly (l : List Fld) (s t : State) : Prop :=
  t = { s with regs := t.regs, links := t.links, ports := t.ports, out := t.out } ∧ OnlyFields l s t

/-- A link receiver and transmitter (R366, R368, R370, R371, R377): it accepts the flit it expects, acknowledges it and holds
it until its PSEQ is next, a resend whose PSEQ is past it only acknowledges (the model's reading, log 86); one with a bad CRC it discards with a NAK of the last good LSEQ, and any that follows it silently;
an acknowledgement frees the flits up to its LSEQ, a NAK resends what is left, the sixteenth retrains, credits come back; a
group's end counts the code words that were corrected and takes no control word from one that could not be. A DOWN link takes
nothing. What stands for a flit and a control word is read from the symbols on the link's live lanes (`flitOn`, `groupOn`). -/
def Obligations.LinkProtocol : Prop :=
  ∀ (s : State) (n : Nat), n < 48 →
    (∀ l0 l1 l2 l3 lanes i, lanes = [l0, l1, l2, l3] → lanesFit lanes = true → i < 5 →
      (s.linkLive n = false → exec (.linkFlitReceive ⟨n, i⟩ l0 l1 l2 l3) s = .next s) ∧
      (s.linkLive n = true →
        (∀ x, s.flitOn n lanes i = some x → x.lseq = (s.link n).rxSeq → x.pseq ≠ (s.port (linkPort s.dims n)).rxPseq →
          (x.pseq + 65536 - (s.port (linkPort s.dims n)).rxPseq) % 65536 < 32768 →
          tblGet (fun _ => none) (s.port (linkPort s.dims n)).reorder (s.port (linkPort s.dims n)).rxPseq = none →
          ∃ t, exec (.linkFlitReceive ⟨n, i⟩ l0 l1 l2 l3) s = .next t ∧ LinksOnly [] s t ∧
            t.link n = { s.link n with rxSeq := ((s.link n).rxSeq + 1) % 4096, nakPending := false } ∧
            tblGet (fun _ => none) (t.port (linkPort s.dims n)).reorder x.pseq = some (n, x) ∧
            t.out = s.out ++ [.linkWord n (controlWord x.lseq true false 0 0)]) ∧
        (∀ x, s.flitOn n lanes i = some x → x.lseq = (s.link n).rxSeq →
          32768 ≤ (x.pseq + 65536 - (s.port (linkPort s.dims n)).rxPseq) % 65536 →
          ∃ t, exec (.linkFlitReceive ⟨n, i⟩ l0 l1 l2 l3) s = .next t ∧ LinksOnly [] s t ∧ t.ports = s.ports ∧
            t.link n = { s.link n with rxSeq := ((s.link n).rxSeq + 1) % 4096, nakPending := false } ∧
            t.out = s.out ++ [.linkWord n (controlWord x.lseq true false 0 0)]) ∧
        (s.flitOn n lanes i = none ∨
            (∃ x, s.flitOn n lanes i = some x ∧ x.lseq ≠ (s.link n).rxSeq ∧ (s.link n).nakPending = false) →
          ∃ t, exec (.linkFlitReceive ⟨n, i⟩ l0 l1 l2 l3) s = .next t ∧ LinksOnly [] s t ∧ t.ports = s.ports ∧
            t.link n = { s.link n with nakPending := true } ∧
            t.out = s.out ++ [.linkWord n (controlWord ((s.link n).rxSeq + 4095) true true 0 0)]) ∧
        (∀ x, s.flitOn n lanes i = some x → x.lseq ≠ (s.link n).rxSeq → (s.link n).nakPending = true →
          exec (.linkFlitReceive ⟨n, i⟩ l0 l1 l2 l3) s = .next s))) ∧
    (∀ lanes, lanesFit lanes = true →
      (s.linkLive n = false → exec (.groupControlWord n lanes) s = .next s) ∧
      (s.linkLive n = true → (s.port (linkPort s.dims n)).outq = [] → ∃ t, exec (.groupControlWord n lanes) s = .next t ∧
        t.getF (lkCorr n) = satAdd 32 (s.getF (lkCorr n)) (s.groupOn n lanes).corrected) ∧
      (s.linkLive n = true → (s.groupOn n lanes).word = none → ∃ t, exec (.groupControlWord n lanes) s = .next t ∧
        t.links = s.links ∧ t.ports = s.ports) ∧
      (s.linkLive n = true → (s.port (linkPort s.dims n)).outq = [] → (s.groupOn n lanes).corrected = 0 →
        (∀ ack, ack < 4096 → (s.groupOn n lanes).word = some (controlWord ack true false 0 0) →
          ∃ t, exec (.groupControlWord n lanes) s = .next t ∧ LinksOnly [] s t ∧
            (t.link n).unacked = dropAcked ack (s.link n).unacked ∧ t.out = s.out ∧ ∀ k, k ≠ n → t.link k = s.link k) ∧
        (∀ c0 c1, c0 < 64 → c1 < 64 → (s.groupOn n lanes).word = some (controlWord 0 false false c0 c1) →
          ∃ t, exec (.groupControlWord n lanes) s = .next t ∧ LinksOnly [] s t ∧
            (t.port (linkPort s.dims n)).spent0 = (s.port (linkPort s.dims n)).spent0 - c0 ∧
            (t.port (linkPort s.dims n)).spent1 = (s.port (linkPort s.dims n)).spent1 - c1) ∧
        ((s.groupOn n lanes).word = some (controlWord 0 false true 0 0) →
          ((s.link n).naks + 1 < 16 → ∃ t, exec (.groupControlWord n lanes) s = .next t ∧
            t.getF (lkResends n) = satAdd 32 (s.getF (lkResends n)) 1 ∧ (t.link n).unacked = (s.link n).unacked ∧
            t.out = s.out ++ (s.link n).unacked.map (.linkSend n)) ∧
          (16 ≤ (s.link n).naks + 1 → ∃ t, exec (.groupControlWord n lanes) s = .next t ∧
            t.getF (lkState n) = 1 ∧ t.getF (lkRetrains n) = satAdd 32 (s.getF (lkRetrains n)) 1)))) ∧
    (s.linkLive n = true → ∃ t, exec (.linkRetrain n) s = .next t ∧ ((s.port (linkPort s.dims n)).outq = [] →
      t.getF (lkState n) = 1 ∧ t.getF (lkRetrains n) = satAdd 32 (s.getF (lkRetrains n)) 1 ∧ t.cores = s.cores ∧
      t.dies = s.dies)) ∧
    (s.linkLive n = false → exec (.linkRetrain n) s = .next s) ∧
    (s.getF (lkState n) = 1 → ∀ r, ∃ t, exec (.retrainingComplete n r) s = .next t ∧
      ((s.port (linkPort s.dims n)).outq = [] → t.getF (lkState n) = (laneState r).1 ∧ t.getF (lkPair n) = (laneState r).2 ∧
        (r ≠ .down → ∀ tx ∈ (s.link n).unacked, ∃ q, .linkSend n { tx with lseq := q } ∈ t.out))) ∧
    (s.getF (lkState n) ≠ 1 → ∀ r, exec (.retrainingComplete n r) s = .next s) ∧
    (s.dims ≠ 0 →
      (s.getF (lkState n) ≠ 0 → ∃ t, exec (.linkDown n false) s = .next t ∧ ((s.port (linkPort s.dims n)).outq = [] →
        t.getF (lkState n) = 0 ∧
        if t.getF (lpState (linkPort s.dims n)) = s.getF (lpState (linkPort s.dims n)) then t.getF hEvent = s.getF hEvent
        else Nat.testBit (t.getF hEvent) 13 = true)) ∧
      (s.getF (lkState n) = 0 → exec (.linkDown n false) s = .next s) ∧
      (s.getF (lpState (linkPort s.dims n)) = 3 → exec (.linkDown n true) s = .next s) ∧
      (s.getF (lpState (linkPort s.dims n)) ≠ 3 → ∃ t, exec (.linkDown n true) s = .next t ∧
        Nat.testBit (t.getF hEvent) 13 = true ∧
        ((s.port (linkPort s.dims n)).outq = [] → t.getF (lpState (linkPort s.dims n)) = 3 ∧ t.links = s.links)))

/-- Flit `i` on the lanes of link `n` is the next one that its receiver and its port await, with nothing behind it. -/
def NextOnLink (n : Nat) (lanes : List (List (BitVec 10))) (i : Nat) (x : LinkTx) (s : State) : Prop :=
  s.linkLive n = true ∧ s.flitOn n lanes i = some x ∧ x.lseq = (s.link n).rxSeq ∧
    x.pseq = (s.port (linkPort s.dims n)).rxPseq ∧ (s.port (linkPort s.dims n)).reorder = []

/-- The receiver's answer to a flit that leaves the receive buffer at once: its acknowledgement, and its credit (R368, R370, R377). -/
def answersAtOnce (n : Nat) (x : LinkTx) : List Output :=
  [.linkWord n (controlWord x.lseq true false 0 0), .linkWord n (controlWord 0 false false (!x.vc).toNat x.vc.toNat)]

/-- What packages send one another (R369, R374, R377, R379, R381-R383, R387-R389): a SEND or PARTIALS flit in order for this
package, whose core's partition is armed, goes to the first tap of that core's die and gives its credit back; an idle flit is
numbered and does nothing else; packed notices leave as one NOTICES flit on the next link of their route; a NACK lowers the count of
unanswered ones; UNREACH raises LINK_UNREACHABLE in the partition of its core; RETRAIN is ignored while a pattern is armed, does
nothing while the links stand stopped, else trains every link anew to LNK_TOPO. -/
def Obligations.PackagesExchange : Prop :=
  ∀ s : State,
    (∀ n l0 l1 l2 l3 lanes i x, n < 48 → lanes = [l0, l1, l2, l3] → lanesFit lanes = true → i < 5 → NextOnLink n lanes i x s →
      (∀ p spkg score dc tag ctr contrib fields, x.flit = .partials s.pkgId spkg score dc tag ctr contrib fields →
        s.owner dc = some p → s.getF (ppState p) = 1 → s.resetting (dieOf dc) = false →
        ∃ t, exec (.linkFlitReceive ⟨n, i⟩ l0 l1 l2 l3) s = .next t ∧
          (t.die (dieOf dc)).tap0.flits = (s.die (dieOf dc)).tap0.flits ++ [.partials 2048 dc false 0 tag ctr contrib fields] ∧
          (t.part p).hadLink = true ∧ (t.port (linkPort s.dims n)).rxPseq = (x.pseq + 1) % 65536 ∧
          t.out = s.out ++ answersAtOnce n x) ∧
      (∀ p spkg score dc dmem daddr last sig sctr pmask data, x.flit = .send s.pkgId spkg score dc dmem daddr last sig sctr pmask data →
        s.owner dc = some p → s.getF (ppState p) = 1 → s.resetting (dieOf dc) = false →
        ∃ t, exec (.linkFlitReceive ⟨n, i⟩ l0 l1 l2 l3) s = .next t ∧
          (t.die (dieOf dc)).tap0.flits = (s.die (dieOf dc)).tap0.flits ++ sendPieces dc dmem daddr last sig sctr pmask data ∧
          (t.part p).hadLink = true ∧ t.out = s.out ++ answersAtOnce n x) ∧
      (x.flit = .idle → ∃ t, exec (.linkFlitReceive ⟨n, i⟩ l0 l1 l2 l3) s = .next t ∧ LinksOnly [] s t ∧
        (t.link n).rxSeq = (x.lseq + 1) % 4096 ∧ (t.port (linkPort s.dims n)).rxPseq = (x.pseq + 1) % 65536 ∧
        t.out = s.out ++ [.linkWord n (controlWord x.lseq true false 0 0)])) ∧
    (∀ q, q < 4096 → s.packFor q = [] → exec (.linkNoticeFlush q) s = .next s) ∧
    (∀ q l dim p n, q < 4096 → s.packFor q = l → l ≠ [] → s.routeDim q = some dim → p = portOf s.dims dim (s.routePlus q dim) →
      s.getF (lpState p) = 1 → (s.port p).outq = [] →
      (s.port p).credit (s.routeVc s.pkgId dim (s.routePlus q dim)) = true → s.nextLinkOf p = some n →
      ∃ t, exec (.linkNoticeFlush q) s = .next t ∧ t.packFor q = [] ∧ t.net.unackedNotices = s.net.unackedNotices + 1 ∧
        t.out = s.out ++ [.linkSend n ⟨(s.link n).txSeq, (s.port p).txPseq, s.routeVc s.pkgId dim (s.routePlus q dim),
          .notices q s.pkgId l⟩]) ∧
    (∀ spkg n, spkg < 4096 → exec (.nack spkg n) s =
      .next { s with net := { s.net with unackedNotices := s.net.unackedNotices - n } }) ∧
    (∀ score port p, score < 2048 → port < 8 → s.owner score = some p → ∃ t, exec (.unreach score port) s = .next t ∧
      (t.part p).faults = (s.part p).faults ++ [⟨0x70, score, 0, 0, true⟩] ∧ t.regs = s.regs ∧ t.cores = s.cores) ∧
    (∀ found, foundOk found = true → s.onF sLimited = false →
      (s.armed = true → ∃ t, exec (.retrain found) s = .next t ∧ Ignored 0x0B s t ∧ t = { s with regs := t.regs }) ∧
      (s.armed = false → s.pwr.linksStopped = true → exec (.retrain found) s = .next s) ∧
      (s.armed = false → s.pwr.linksStopped = false → s.getF lTopology ≠ 0 → (∀ k, k < 6 → (s.port k).outq = []) →
        ∃ t, exec (.retrain found) s = .next t ∧ t.cores = s.cores ∧ t.net.torus = s.declared ∧
        ∀ n, n < 48 → t.link n = {} ∧ t.getF (lkPort n) = linkPort (s.getF lTopology) n ∧ t.getF (lkState n) =
          match found.find? fun f => f.link == n with
          | some f => (laneState f.lanes).1
          | none => 0))

/-- A sync message within its fields (R253). -/
def MsgFits : SyncMsg → Prop
  | .arrive bid count _ => bid < 64 ∧ count < 4096
  | .release bid target _ _ dlctr _ => bid < 64 ∧ target < 4096 ∧ dlctr < 64
  | .counter dcore ctr n _ route hc dpkg => dcore < 2048 ∧ ctr < 64 ∧ n < 65536 ∧ route < 4 ∧ hc < 256 ∧ dpkg < 4096
  | .stage part _ _ => part < 8
  | .stop part code => part < 8 ∧ code < 256

/-- A message of a link SYNC flit within its fields (R384). -/
def LinkMsgFits : LinkMsg → Prop
  | .sync m => MsgFits m
  | .larrive bid count _ => bid < 64 ∧ count < 2 ^ 24
  | .lrelease bid _ dlctr _ => bid < 64 ∧ dlctr < 64
  | .nack flits => flits < 256
  | .unreach score port => score < 2048 ∧ port < 8

/-- A link flit within its fields (R251, R369). -/
def LinkFits (x : LinkTx) : Prop :=
  x.lseq < 4096 ∧ x.pseq < 65536 ∧
    match x.flit with
    | .idle => True
    | .notices d p items => d < 4096 ∧ p < 4096 ∧ 1 ≤ items.length ∧ items.length ≤ 59
    | .send d p c dc _ a _ _ ctr _ data =>
      d < 4096 ∧ p < 4096 ∧ c < 2048 ∧ dc < 2048 ∧ a < 2 ^ 20 ∧ a % 64 = 0 ∧ ctr < 64 ∧
        (data.length = 64 ∨ data.length = 128 ∨ data.length = 192)
    | .partials d p c dc tag ctr n fs =>
      d < 4096 ∧ p < 4096 ∧ c < 2048 ∧ dc < 2048 ∧ tag < 64 ∧ ctr < 64 ∧ n < 65536 ∧ 1 ≤ fs.length ∧ fs.length ≤ 8
    | .sync d p c ms => d < 4096 ∧ p < 4096 ∧ c < 2048 ∧ 1 ≤ ms.length ∧ ms.length ≤ 29 ∧ ∀ m ∈ ms, LinkMsgFits m

/-- What is sent is read back (R253, R367, R369, R370, R384): 64 bits hold each sync message within its fields; the 256 bytes of every flit within its fields hold that flit, with
its numbers and virtual channel, and bytes whose CRC is wrong hold none; and a pair of code words received as it was sent, over
four lanes or two, gives the group's bits with nothing corrected. -/
def Obligations.LinkFlitsReadBack : Prop :=
  (∀ m : SyncMsg, MsgFits m → syncOf (syncBits m).toNat = some m) ∧
    (∀ x : LinkTx, LinkFits x → x.bytes.length = 256 ∧ linkFlitOf x.bytes = some x) ∧
    (∀ bs : List (BitVec 8), bs.length = 256 → leNat (bs.drop 252) ≠ (crc32 (bs.take 252)).toNat → linkFlitOf bs = none) ∧
    ∀ n bits, n = 2 ∨ n = 4 → bits < 2 ^ 10280 → fecGroup (fecLanes n bits) = ⟨bits, true, true, 0⟩
end

