-- ==== Sys2Proof/Laws/Fec.lean ====
section
/-!
SUPPORT. A code word without errors is read as it was sent, over four lanes or two (R367).
-/
namespace Sys2Proof.Machine

theorem fecStep_length (g r : List Sym) (d : Sym) : (fecStep g r d).length = 30 := by simp [fecStep]

theorem fecCheck_length (d : List Sym) : (fecCheck d).length = 30 := by
  unfold fecCheck
  generalize hr : List.replicate 30 (0 : Sym) = r
  have h : r.length = 30 := by rw [← hr]; simp
  clear hr
  induction d generalizing r with
  | nil => exact h
  | cons a t ih => exact ih _ (fecStep_length _ _ _)

theorem fecEncode_length {d : List Sym} (h : d.length = 514) : (fecEncode d).length = 544 := by
  simp [fecEncode, fecCheck_length, h]

/-- A code word as it was sent has its message, and nothing is corrected. -/
theorem fecDecode_fecEncode {d : List Sym} (h : d.length = 514) : fecDecode (fecEncode d) = some (d, false) := by
  have ht : (fecEncode d).take 514 = d := by rw [fecEncode, List.take_append_of_le_length (by omega), List.take_of_length_le (by omega)]
  have hd : (fecEncode d).drop 514 = (fecCheck d).reverse := by
    rw [fecEncode, List.drop_append_of_le_length (by omega), List.drop_of_length_le (by omega)]; rfl
  have hz : (List.zipWith (· ^^^ ·) (fecCheck d).reverse.reverse (fecCheck d)).all (· == 0) = true := by
    rw [List.reverse_reverse, List.zipWith_self]
    simp
  simp only [fecDecode, ht, hd, hz, if_true]

/-- The symbols of two code words that were spread over `n` lanes, gathered again. -/
theorem interleaved_fecLanes {n : Nat} (bits : Nat) (h : n = 2 ∨ n = 4) :
    interleaved (fecLanes n bits) =
      fecEncode ((List.range 514).map fun k => BitVec.ofNat 10 (bits / 2 ^ (10 * k) % 1024)) ++
        fecEncode ((List.range 514).map fun k => BitVec.ofNat 10 (bits / 2 ^ (10 * (514 + k)) % 1024)) := by
  have hn : 0 < n := by omega
  have hm : 1088 / n * n = 1088 := by rcases h with rfl | rfl <;> rfl
  unfold interleaved fecLanes
  generalize hw : fecEncode ((List.range 514).map fun k => BitVec.ofNat 10 (bits / 2 ^ (10 * k) % 1024)) ++
    fecEncode ((List.range 514).map fun k => BitVec.ofNat 10 (bits / 2 ^ (10 * (514 + k)) % 1024)) = w
  have hl : w.length = 1088 := by
    rw [← hw, List.length_append, fecEncode_length (by simp), fecEncode_length (by simp)]
  apply List.ext_getElem
  · simp [hl]
  · intro j h1 h2
    simp only [List.length_map, List.length_range] at h1
    have a : j % n < n := Nat.mod_lt _ hn
    have b : j / n < 1088 / n := by rw [Nat.div_lt_iff_lt_mul hn, hm]; exact h1
    simp only [List.getElem_map, List.getElem_range, List.length_map, List.length_range, coef, List.getD_eq_getElem?_getD,
      List.getElem?_map, List.getElem?_range a, List.getElem?_range b, Option.map_some, Option.getD_some, hw]
    have c : n * (j / n) + j % n = j := Nat.div_add_mod j n
    rw [c, List.getElem?_eq_getElem (by omega)]
    rfl

/-- A pair of code words as they were sent, over four lanes or two. -/
theorem fecGroup_fecLanes {n : Nat} (bits : Nat) (h : n = 2 ∨ n = 4) : fecGroup (fecLanes n bits) =
    ⟨symNat ((List.range 514).map fun k => BitVec.ofNat 10 (bits / 2 ^ (10 * k) % 1024)) +
      2 ^ 5140 * symNat ((List.range 514).map fun k => BitVec.ofNat 10 (bits / 2 ^ (10 * (514 + k)) % 1024)), true, true, 0⟩ := by
  simp only [fecGroup, interleaved_fecLanes bits h]
  generalize ha : (List.range 514).map (fun k => BitVec.ofNat 10 (bits / 2 ^ (10 * k) % 1024)) = a
  generalize hb : (List.range 514).map (fun k => BitVec.ofNat 10 (bits / 2 ^ (10 * (514 + k)) % 1024)) = b
  have la : a.length = 514 := by rw [← ha]; simp
  have lb : b.length = 514 := by rw [← hb]; simp
  rw [List.take_left' (fecEncode_length la), List.drop_left' (fecEncode_length la), fecDecode_fecEncode la, fecDecode_fecEncode lb]
  rfl

end Sys2Proof.Machine
end

