-- ==== Sys2Proof/Laws/Tbl.lean ====
section
/-!
SUPPORT. Sparse tables: a read after a write, and the canonical form that writes and filters keep.
-/
namespace Sys2Proof.Machine

variable {α : Type}

theorem tblGet_tblDel_ne (d : Nat → α) {k j : Nat} (h : j ≠ k) (t : List (Nat × α)) :
    tblGet d (tblDel k t) j = tblGet d t j := by
  induction t with
  | nil => rfl
  | cons e t ih =>
    obtain ⟨i, w⟩ := e
    by_cases hk : k = i
    · subst hk; simp [tblDel, tblGet, h, ih]
    · by_cases hj : j = i <;> simp [tblDel, tblGet, hk, hj, ih]

theorem tblGet_tblIns_same (d : Nat → α) (k : Nat) (v : α) (t : List (Nat × α)) (h : ∀ e ∈ t, e.1 ≠ k) :
    tblGet d (tblIns k v t) k = v := by
  induction t with
  | nil => simp [tblIns, tblGet]
  | cons e t ih =>
    obtain ⟨j, w⟩ := e
    have hj : k ≠ j := fun he => h (j, w) (by simp) he.symm
    by_cases hk : k < j
    · simp [tblIns, tblGet, hk]
    · simp [tblIns, tblGet, hk, hj, ih fun e he => h e (by simp [he])]

theorem tblGet_tblIns_ne (d : Nat → α) {k j : Nat} (v : α) (h : j ≠ k) (t : List (Nat × α)) :
    tblGet d (tblIns k v t) j = tblGet d t j := by
  induction t with
  | nil => simp [tblIns, tblGet, h]
  | cons e t ih =>
    obtain ⟨i, w⟩ := e
    by_cases hk : k < i
    · simp [tblIns, tblGet, hk, h]
    · by_cases hj : j = i <;> simp [tblIns, tblGet, hk, hj, ih]

/-- Deleting a key keeps the entries of the other keys. -/
theorem tblDel_eq_filter (k : Nat) : ∀ t : List (Nat × α), tblDel k t = t.filter fun e => decide (k ≠ e.1)
  | [] => rfl
  | (j, w) :: t => by
    rw [List.filter_cons, ← tblDel_eq_filter k t, tblDel]
    split <;> simp_all

theorem ne_of_mem_tblDel (k : Nat) (t : List (Nat × α)) (e : Nat × α) (he : e ∈ tblDel k t) : e.1 ≠ k := by
  rw [tblDel_eq_filter, List.mem_filter, decide_eq_true_eq] at he
  exact he.2.symm

/-- A key that no entry has reads as the default. -/
theorem tblGet_of_absent (d : Nat → α) {k : Nat} : ∀ {t : List (Nat × α)}, (∀ e ∈ t, k ≠ e.1) → tblGet d t k = d k
  | [], _ => rfl
  | (j, w) :: t, h => by
    rw [tblGet, if_neg (h (j, w) (List.mem_cons_self ..))]
    exact tblGet_of_absent d fun e he => h e (List.mem_cons_of_mem _ he)

theorem tblGet_tblDel_same (d : Nat → α) (k : Nat) (t : List (Nat × α)) : tblGet d (tblDel k t) k = d k :=
  tblGet_of_absent d fun e he => (ne_of_mem_tblDel k t e he).symm

theorem tblGet_tblPut [DecidableEq α] (d : Nat → α) (k : Nat) (v : α) (t : List (Nat × α)) (j : Nat) :
    tblGet d (tblPut d k v t) j = if j = k then v else tblGet d t j := by
  unfold tblPut
  by_cases hj : j = k
  · subst hj
    by_cases hv : v = d j
    · simp [hv, tblGet_tblDel_same]
    · simp [hv, tblGet_tblIns_same d j v _ (ne_of_mem_tblDel j t)]
  · by_cases hv : v = d k <;> simp [hv, hj, tblGet_tblDel_ne d hj, tblGet_tblIns_ne d v hj]

theorem tblGet_tblPut_same [DecidableEq α] (d : Nat → α) (k : Nat) (v : α) (t : List (Nat × α)) :
    tblGet d (tblPut d k v t) k = v := by rw [tblGet_tblPut]; simp

theorem tblGet_tblPut_ne [DecidableEq α] (d : Nat → α) {k j : Nat} (h : j ≠ k) (v : α) (t : List (Nat × α)) :
    tblGet d (tblPut d k v t) j = tblGet d t j := by rw [tblGet_tblPut]; simp [h]

theorem tblGet_tblMod [DecidableEq α] (d : Nat → α) (k : Nat) (f : α → α) (t : List (Nat × α)) (j : Nat) :
    tblGet d (tblMod d k f t) j = if j = k then f (tblGet d t k) else tblGet d t j := tblGet_tblPut d k _ t j

/-! ### The canonical form -/

theorem tblRising_cons (e : Nat × α) (t : List (Nat × α)) :
    tblRising (e :: t) = true ↔ tblRising t = true ∧ ∀ x ∈ t, e.1 < x.1 := by
  induction t generalizing e with
  | nil => simp [tblRising]
  | cons f t ih =>
    obtain ⟨j, w⟩ := e
    obtain ⟨k, v⟩ := f
    simp only [tblRising, Bool.and_eq_true, decide_eq_true_eq, List.mem_cons, forall_eq_or_imp]
    constructor
    · rintro ⟨h1, h2⟩
      exact ⟨h2, h1, fun x hx => Nat.lt_trans h1 ((ih (k, v)).1 h2 |>.2 x hx)⟩
    · rintro ⟨h2, h1, _⟩
      exact ⟨h1, h2⟩

/-- Entries taken out of a rising table leave it rising. -/
theorem tblRising_filter (p : Nat × α → Bool) : ∀ {t : List (Nat × α)}, tblRising t = true → tblRising (t.filter p) = true
  | [], _ => rfl
  | e :: t, h => by
    have ⟨ht, hlt⟩ := (tblRising_cons e t).1 h
    have hr := tblRising_filter p ht
    rw [List.filter_cons]
    split
    · exact (tblRising_cons _ _).2 ⟨hr, fun x hx => hlt x (List.mem_filter.1 hx).1⟩
    · exact hr

theorem mem_tblIns {k : Nat} {v : α} {t : List (Nat × α)} {e : Nat × α} (h : e ∈ tblIns k v t) : e = (k, v) ∨ e ∈ t := by
  induction t with
  | nil => simpa [tblIns] using h
  | cons f t ih =>
    obtain ⟨j, w⟩ := f
    by_cases hk : k < j
    · simpa [tblIns, hk] using h
    · simp only [tblIns, hk, if_false, List.mem_cons] at h
      rcases h with rfl | h
      · exact .inr (by simp)
      · rcases ih h with h | h
        · exact .inl h
        · exact .inr (by simp [h])

theorem tblRising_tblIns {k : Nat} {v : α} {t : List (Nat × α)} (h : tblRising t = true) (hk : ∀ e ∈ t, e.1 ≠ k) :
    tblRising (tblIns k v t) = true := by
  induction t with
  | nil => rfl
  | cons f t ih =>
    obtain ⟨j, w⟩ := f
    rw [tblRising_cons] at h
    by_cases hlt : k < j
    · simp only [tblIns, hlt, if_true]
      rw [tblRising_cons, tblRising_cons]
      refine ⟨h, fun x hx => ?_⟩
      rcases List.mem_cons.1 hx with rfl | hx
      · exact hlt
      · exact Nat.lt_trans hlt (h.2 x hx)
    · simp only [tblIns, hlt, if_false]
      rw [tblRising_cons]
      refine ⟨ih h.1 fun e he => hk e (by simp [he]), fun x hx => ?_⟩
      have hj : j ≠ k := hk (j, w) (by simp)
      rcases mem_tblIns hx with rfl | hx
      · simp only; omega
      · exact h.2 x hx

/-- A write keeps the canonical form. -/
theorem tblWf_tblPut [DecidableEq α] (d : Nat → α) (k : Nat) (v : α) {t : List (Nat × α)} (h : tblWf d t = true) :
    tblWf d (tblPut d k v t) = true := by
  simp only [tblWf, Bool.and_eq_true, List.all_eq_true, decide_eq_true_eq] at h ⊢
  have hdel : tblRising (tblDel k t) = true := by rw [tblDel_eq_filter]; exact tblRising_filter _ h.1
  have hall : ∀ e ∈ tblDel k t, e.2 ≠ d e.1 := by
    intro e he; rw [tblDel_eq_filter] at he; exact h.2 e (List.mem_of_mem_filter he)
  by_cases hv : v = d k
  · simp only [tblPut, hv, if_true]; exact ⟨hdel, hall⟩
  · simp only [tblPut, hv, if_false]
    refine ⟨tblRising_tblIns hdel (ne_of_mem_tblDel k t), fun e he => ?_⟩
    rcases mem_tblIns he with rfl | he
    · exact hv
    · exact hall e he

/-- A filter keeps the canonical form. -/
theorem tblWf_filter [DecidableEq α] (d : Nat → α) (p : Nat × α → Bool) {t : List (Nat × α)} (h : tblWf d t = true) :
    tblWf d (t.filter p) = true := by
  simp only [tblWf, Bool.and_eq_true, List.all_eq_true, decide_eq_true_eq] at h ⊢
  exact ⟨tblRising_filter p h.1, fun e he => h.2 e (List.mem_of_mem_filter he)⟩

theorem tblWf_tblFilter [DecidableEq α] (d : Nat → α) (p : Nat → Bool) {t : List (Nat × α)} (h : tblWf d t = true) :
    tblWf d (tblFilter p t) = true := tblWf_filter d _ h

theorem tblWf_nil [DecidableEq α] (d : Nat → α) : tblWf d ([] : List (Nat × α)) = true := rfl

/-- Every value of a table after a write is the one written or an old one. -/
theorem all_tblPut [DecidableEq α] (d : Nat → α) (k : Nat) (v : α) (p : α → Bool) {t : List (Nat × α)}
    (h : t.all (fun e => p e.2) = true) (hv : p v = true) : (tblPut d k v t).all (fun e => p e.2) = true := by
  rw [List.all_eq_true] at h ⊢
  have hdel : ∀ e ∈ tblDel k t, p e.2 = true := by
    intro e he; rw [tblDel_eq_filter] at he; exact h e (List.mem_of_mem_filter he)
  intro e he
  unfold tblPut at he
  split at he
  · exact hdel e he
  · rcases mem_tblIns he with rfl | he
    · exact hv
    · exact hdel e he

theorem all_tblFilter (keep : Nat → Bool) {p : α → Bool} {t : List (Nat × α)} (h : t.all (fun e => p e.2) = true) :
    (tblFilter keep t).all (fun e => p e.2) = true := by
  rw [List.all_eq_true] at h ⊢
  intro e he
  exact h e (List.mem_of_mem_filter he)

/-- A value read from a table satisfies what its values and its default satisfy. -/
theorem tblGet_all (d : Nat → α) (k : Nat) (p : α → Bool) {t : List (Nat × α)} (h : t.all (fun e => p e.2) = true)
    (hd : p (d k) = true) : p (tblGet d t k) = true := by
  induction t with
  | nil => exact hd
  | cons e t ih =>
    obtain ⟨j, v⟩ := e
    simp only [List.all_cons, Bool.and_eq_true] at h
    by_cases hk : k = j
    · simp [tblGet, hk, h.1]
    · simp only [tblGet, hk, if_false]; exact ih h.2

end Sys2Proof.Machine
end

