-- ==== Sys2Proof/Laws/Fields.lean ====
section
/-!
SUPPORT. Register fields: a field reads back what was written, and a write leaves every field that shares no bit with it.
-/
namespace Sys2Proof.Machine

variable {s : State}

@[simp] theorem regW_setW_same (k : Nat) (v : W32) : (s.setW k v).regW k = v := tblGet_tblPut_same _ _ _ _

theorem regW_setW_ne {k j : Nat} (v : W32) (h : j ≠ k) : (s.setW k v).regW j = s.regW j := tblGet_tblPut_ne _ h _ _

/-- Bit `n` of all register words laid end to end. -/
def State.bit (s : State) (n : Nat) : Bool := (s.regW (n / 32)).getLsbD (n % 32)

theorem getLsbD_reg64 (off : Nat) {i : Nat} (h : i < 64) : (s.reg64 off).getLsbD i = s.bit (32 * (off / 4) + i) := by
  unfold State.reg64 State.bit
  rw [BitVec.getLsbD_append]
  by_cases hi : i < 32
  · rw [show (32 * (off / 4) + i) / 32 = off / 4 by omega, show (32 * (off / 4) + i) % 32 = i by omega]
    simp [hi]
  · rw [show (32 * (off / 4) + i) / 32 = off / 4 + 1 by omega, show (32 * (off / 4) + i) % 32 = i - 32 by omega]
    simp [hi]

theorem bit_set64 (off : Nat) (v : W64) (n : Nat) :
    (s.set64 off v).bit n =
      if 32 * (off / 4) ≤ n ∧ n < 32 * (off / 4) + 64 then v.getLsbD (n - 32 * (off / 4)) else s.bit n := by
  unfold State.set64 State.bit
  by_cases h1 : n / 32 = off / 4 + 1
  · rw [h1, regW_setW_same, if_pos (by omega), BitVec.getLsbD_extractLsb']
    rw [show 32 + n % 32 = n - 32 * (off / 4) by omega]
    simp; omega
  · rw [regW_setW_ne _ h1]
    by_cases h0 : n / 32 = off / 4
    · rw [h0, regW_setW_same, if_pos (by omega), BitVec.getLsbD_extractLsb']
      rw [show 0 + n % 32 = n - 32 * (off / 4) by omega]
      simp; omega
    · rw [regW_setW_ne _ h0, if_neg (by omega)]

theorem getLsbD_insBits (x : W64) (lo w n : Nat) {i : Nat} (hi : i < 64) :
    (insBits x lo w n).getLsbD i = if lo ≤ i ∧ i < lo + w then n.testBit (i - lo) else x.getLsbD i := by
  unfold insBits
  simp only [BitVec.getLsbD_or, BitVec.getLsbD_and, BitVec.getLsbD_not, BitVec.getLsbD_shiftLeft, BitVec.getLsbD_ofNat,
    Nat.testBit_two_pow_sub_one, Nat.testBit_mod_two_pow, hi, decide_true, Bool.true_and]
  by_cases h1 : i < lo
  · have : ¬ lo ≤ i := by omega
    simp [h1, this]
  · have h2 : lo ≤ i := by omega
    have h3 : i - lo < 64 := by omega
    by_cases h4 : i < lo + w
    · have : i - lo < w := by omega
      simp [h1, h2, h3, h4, this]
    · have : ¬ i - lo < w := by omega
      simp [h1, h2, h3, h4, this]

theorem bit_setF (f : Fld) (n : Nat) (h : f.Ok) (j : Nat) :
    (s.setF f n).bit j = if f.base ≤ j ∧ j < f.base + f.w then n.testBit (j - f.base) else s.bit j := by
  unfold State.setF Fld.base
  unfold Fld.Ok at h
  rw [bit_set64]
  split
  · rename_i hj
    rw [getLsbD_insBits _ _ _ _ (by omega)]
    by_cases hc : f.lo ≤ j - 32 * (f.off / 4) ∧ j - 32 * (f.off / 4) < f.lo + f.w
    · rw [if_pos hc, if_pos (by omega), show j - 32 * (f.off / 4) - f.lo = j - (32 * (f.off / 4) + f.lo) by omega]
    · rw [if_neg hc, if_neg (by omega), getLsbD_reg64 _ (by omega), show 32 * (f.off / 4) + (j - 32 * (f.off / 4)) = j by omega]
  · rw [if_neg (by omega)]

theorem testBit_getF (f : Fld) (h : f.Ok) (i : Nat) :
    (s.getF f).testBit i = (decide (i < f.w) && s.bit (f.base + i)) := by
  unfold State.getF bitsOf Fld.base
  unfold Fld.Ok at h
  rw [BitVec.testBit_toNat, BitVec.getLsbD_extractLsb']
  by_cases hi : i < f.w
  · rw [getLsbD_reg64 _ (by omega), show 32 * (f.off / 4) + (f.lo + i) = 32 * (f.off / 4) + f.lo + i by omega]
  · simp [hi]

/-- A field is below 2 to the power of its width. -/
theorem getF_lt (f : Fld) : s.getF f < 2 ^ f.w := by
  unfold State.getF bitsOf
  exact BitVec.isLt _

/-- A field reads back what was written. -/
theorem getF_setF_same (f : Fld) (n : Nat) (h : f.Ok) : (s.setF f n).getF f = n % 2 ^ f.w := by
  apply Nat.eq_of_testBit_eq
  intro i
  rw [testBit_getF f h, bit_setF f n h, Nat.testBit_mod_two_pow]
  by_cases hi : i < f.w
  · rw [if_pos (by omega), show f.base + i - f.base = i by omega]
  · simp [hi]

/-- A write leaves a field that shares no bit with the one written. -/
theorem getF_setF_apart (f g : Fld) (n : Nat) (h : f.Ok) (k : g.Ok) (a : f.Apart g) : (s.setF g n).getF f = s.getF f := by
  apply Nat.eq_of_testBit_eq
  intro i
  rw [testBit_getF f h, testBit_getF f h, bit_setF g n k]
  by_cases hi : i < f.w
  · unfold Fld.Apart at a
    rw [if_neg (by omega)]
  · simp [hi]

/-- A counter that saturates. -/
theorem getF_incF_same (f : Fld) (n : Nat) (h : f.Ok) : (s.incF f n).getF f = satAdd f.w (s.getF f) n := by
  unfold State.incF
  rw [getF_setF_same f _ h, Nat.mod_eq_of_lt]
  unfold satAdd
  have := Nat.two_pow_pos f.w
  split <;> omega

theorem getF_incF_apart (f g : Fld) (n : Nat) (h : f.Ok) (k : g.Ok) (a : f.Apart g) : (s.incF g n).getF f = s.getF f :=
  getF_setF_apart f g _ h k a

/-- What the registers hold decides what a field reads. -/
theorem getF_congr {t : State} (h : t.regs = s.regs) (f : Fld) : t.getF f = s.getF f := by
  unfold State.getF State.reg64 State.regW
  rw [h]

/-! ### Frames -/

variable {t u : State} {l m : List Fld}

theorem OnlyFields.refl (l : List Fld) (s : State) : OnlyFields l s s := fun _ _ _ => rfl

theorem OnlyFields.trans (h : OnlyFields l s t) (k : OnlyFields l t u) : OnlyFields l s u :=
  fun f hf ha => (k f hf ha).trans (h f hf ha)

theorem OnlyFields.mono (h : OnlyFields l s t) (hs : ∀ f ∈ l, f ∈ m) : OnlyFields m s t :=
  fun f hf ha => h f hf fun g hg => ha g (hs g hg)

theorem onlyFields_setF (f : Fld) (n : Nat) (h : f.Ok) (hm : f ∈ l) : OnlyFields l s (s.setF f n) :=
  fun g hg ha => getF_setF_apart g f n hg h (ha f hm)

theorem RegsOnly.refl (l : List Fld) (s : State) : RegsOnly l s s := ⟨rfl, .refl l s⟩

theorem RegsOnly.trans (h : RegsOnly l s t) (k : RegsOnly l t u) : RegsOnly l s u := by
  refine ⟨?_, h.2.trans k.2⟩
  rw [k.1, h.1]

theorem RegsOnly.mono (h : RegsOnly l s t) (hs : ∀ f ∈ l, f ∈ m) : RegsOnly m s t := ⟨h.1, h.2.mono hs⟩

theorem regsOnly_setF (f : Fld) (n : Nat) (h : f.Ok) (hm : f ∈ l) : RegsOnly l s (s.setF f n) :=
  ⟨rfl, onlyFields_setF f n h hm⟩

theorem regsOnly_incF (f : Fld) (n : Nat) (h : f.Ok) (hm : f ∈ l) : RegsOnly l s (s.incF f n) := regsOnly_setF f _ h hm

end Sys2Proof.Machine
end

