-- ==== Sys2Proof/Laws/Keeps.lean ====
section
/-!
SUPPORT. What every command keeps (`Keeps`): the queue of waiting commands, what has been sent, burned fuses, the
canonical form. Here: the relation and the operations that everything else is made of.
-/
namespace Sys2Proof.Machine

theorem bitsGrow_refl {n : Nat} (a : BitVec n) : bitsGrow a a := by simp [bitsGrow]

theorem bitsGrow_trans {n : Nat} {a b c : BitVec n} (h : bitsGrow a b) (k : bitsGrow b c) : bitsGrow a c := by
  unfold bitsGrow at *
  calc a &&& c = a &&& b &&& c := by rw [h]
    _ = a &&& (b &&& c) := BitVec.and_assoc ..
    _ = a := by rw [k, h]

theorem bitsGrow_or {n : Nat} (a b : BitVec n) : bitsGrow a (a ||| b) := by
  unfold bitsGrow; ext i hi; simp; intro h; exact .inl h

theorem Fuses.Grow.refl (f : Fuses) : f.Grow f :=
  ⟨rfl, rfl, fun _ _ => rfl, bitsGrow_refl _, bitsGrow_refl _, bitsGrow_refl _⟩

theorem Fuses.Grow.trans {f g h : Fuses} (a : f.Grow g) (b : g.Grow h) : f.Grow h :=
  ⟨b.cores.trans a.cores, b.stops.trans a.stops,
    fun n hn => (b.field n (by rw [a.field n hn]; exact hn)).trans (a.field n hn),
    bitsGrow_trans a.vendor b.vendor, bitsGrow_trans a.enrolled b.enrolled, bitsGrow_trans a.revoked b.revoked⟩

/-- What every command keeps. -/
structure Keeps (s t : State) : Prop where
  pending : t.pending = s.pending
  out : s.out <+: t.out
  fuses : s.fuses.Grow t.fuses
  free : s.free ≤ t.free
  wf : s.wf = true → t.wf = true

variable {a s t : State}

theorem Keeps.refl (s : State) : Keeps s s := ⟨rfl, List.prefix_refl _, Fuses.Grow.refl _, Nat.le_refl _, id⟩

theorem Keeps.trans (h : Keeps a s) (k : Keeps s t) : Keeps a t :=
  ⟨k.pending.trans h.pending, h.out.trans k.out, h.fuses.trans k.fuses, Nat.le_trans h.free k.free, fun w => k.wf (h.wf w)⟩

/-- A state that agrees in everything that `Keeps` speaks of. -/
theorem Keeps.congr (h : Keeps a s) (hp : t.pending = s.pending) (ho : t.out = s.out) (hf : t.fuses = s.fuses)
    (hn : t.free = s.free) (hr : t.regs = s.regs) (hh : t.hbm = s.hbm) (hc : t.cores = s.cores)
    (hb : t.pwr.recBytes = s.pwr.recBytes) (hl : t.pwr.ladle = s.pwr.ladle) : Keeps a t := by
  refine h.trans ⟨hp, by rw [ho], by rw [hf]; exact Fuses.Grow.refl _, by rw [hn], fun w => ?_⟩
  simpa [State.wf, hr, hh, hc, hb, hl] using w

/-- The fields that `Keeps` does not speak of take any value. -/
theorem fields_keeps {tick : Nat} {stops : List (Nat × Stop)} {dies : List (Nat × Die)} {parts : List (Nat × Part)}
    {pat : Pat} {crcUnits : List (Nat × CrcUnit)} {hostIn : List PatAdd} {flash : Flash} {ctls : List (Nat × HbmCtl)}
    {srams : List (Nat × Sram)} {gatedTicks : List (Nat × Nat)} {acks : List (Nat × Nat × Nat)} {links : List (Nat × Link)}
    {ports : List (Nat × Port)} {net : Net} {ent : Ent} {hostcfg : HostCfg} {mon : Mon} {pwr : Pwr} (h : Keeps a s)
    (hb : pwr.recBytes = s.pwr.recBytes) (hl : pwr.ladle = s.pwr.ladle) :
    Keeps a (State.mk s.pending s.free tick s.regs s.cores stops dies parts pat crcUnits hostIn s.fuses flash s.hbm ctls srams
      gatedTicks acks links ports net ent hostcfg s.out mon pwr) :=
  h.congr rfl rfl rfl rfl rfl rfl rfl hb hl

/-- A conditional. -/
theorem keeps_ite {c : Prop} [Decidable c] (hs : Keeps a s) (ht : Keeps a t) : Keeps a (if c then s else t) := by
  split <;> assumption

theorem keeps_ite_fst {β : Type} {c : Prop} [Decidable c] {x y : State × β} (hx : Keeps a x.1) (hy : Keeps a y.1) :
    Keeps a (if c then x else y).1 := by
  split <;> assumption

/-- The state in a pair that has been taken apart. -/
theorem keeps_of_eq {β : Type} {x : State × β} {b : β} (e : x = (s, b)) (h : Keeps a x.1) : Keeps a s := by
  rw [e] at h; exact h

/-- A step made for each of a list. -/
theorem forAll_keeps {α : Type} {l : List α} {f : α → State → State} (hf : ∀ x u, Keeps a u → Keeps a (f x u))
    (h : Keeps a s) : Keeps a (forAll l f s) := by
  unfold forAll
  induction l generalizing s with
  | nil => exact h
  | cons x l ih => exact ih (hf x s h)

/-- The same where a result is carried beside the state. -/
theorem forAll_keeps_fst {α β : Type} {l : List α} {f : α → State × β → State × β} {x : State × β}
    (hf : ∀ e u, Keeps a u.1 → Keeps a (f e u).1) (h : Keeps a x.1) : Keeps a (forAll l f x).1 := by
  unfold forAll
  induction l generalizing x with
  | nil => exact h
  | cons e l ih => exact ih (hf e x h)

/-! ### Memories -/

theorem Mem.wf_iff (m : Mem) : m.wf = true ↔ tblWf (fun _ => (0 : Byte)) m.bytes = true ∧ tblWf (fun _ => (0 : BitVec 32)) m.bad = true := by
  simp [Mem.wf]

theorem Mem.putByte_wf (x : Nat) (b : Byte) {m : Mem} (h : m.wf = true) : (m.putByte x b).wf = true := by
  rw [Mem.wf_iff] at h ⊢; exact ⟨tblWf_tblPut _ _ _ h.1, h.2⟩

theorem Mem.setSyn_wf (w : Nat) (x : BitVec 32) {m : Mem} (h : m.wf = true) : (m.setSyn w x).wf = true := by
  rw [Mem.wf_iff] at h ⊢; exact ⟨h.1, tblWf_tblPut _ _ _ h.2⟩

theorem Mem.store_wf (x : Nat) (l : List Byte) {m : Mem} (h : m.wf = true) : (m.store x l).wf = true := by
  induction l generalizing x m with
  | nil => exact h
  | cons b l ih => exact ih (x + 1) (Mem.putByte_wf x b h)

theorem Mem.forAll_wf {α : Type} (l : List α) {f : α → Mem → Mem} (hf : ∀ e m, m.wf = true → (f e m).wf = true) {m : Mem}
    (h : m.wf = true) : (forAll l f m).wf = true := by
  unfold forAll
  induction l generalizing m with
  | nil => exact h
  | cons e l ih => exact ih (hf e m h)

theorem Mem.write_wf (wb x : Nat) (l : List Byte) {m : Mem} (h : m.wf = true) : (m.write wb x l).wf = true :=
  Mem.forAll_wf _ (fun _ _ h => Mem.setSyn_wf _ _ h) (Mem.store_wf x l h)

theorem Mem.poison_wf (wb x n : Nat) {m : Mem} (h : m.wf = true) : (m.poison wb x n).wf = true :=
  Mem.forAll_wf _ (fun _ _ h => Mem.setSyn_wf _ _ h) h

theorem Mem.lose_wf (k : Nat) (l : List Nat) {m : Mem} (h : m.wf = true) : (m.lose k l).wf = true :=
  Mem.forAll_wf _ (fun _ _ h => Mem.putByte_wf _ _ h) h

theorem Core.wf_iff (c : Core) : c.wf = true ↔ c.lace.wf = true ∧ c.tile.wf = true ∧ c.op.wf = true := by
  simp [Core.wf, and_assoc]

theorem Core.setMem_wf (m : CoreMem) {v : Mem} {c : Core} (h : c.wf = true) (hv : v.wf = true) : (c.setMem m v).wf = true := by
  rw [Core.wf_iff] at h ⊢
  cases m
  · exact ⟨hv, h.2⟩
  · exact ⟨h.1, hv, h.2.2⟩
  · exact ⟨h.1, h.2.1, hv⟩

theorem Core.mem_wf (m : CoreMem) {c : Core} (h : c.wf = true) : (c.mem m).wf = true := by
  rw [Core.wf_iff] at h
  cases m
  · exact h.1
  · exact h.2.1
  · exact h.2.2

/-! ### Updates of State -/

theorem State.wf_iff (s : State) : s.wf = true ↔ tblWf resetWord s.regs = true ∧ s.hbm.wf = true ∧
    s.cores.all (fun e => e.2.wf) = true ∧ s.pwr.recBytes.wf = true ∧ s.pwr.ladle.wf = true := by
  simp [State.wf, and_assoc]

/-- Every field but the queue, the fuses and what has been sent takes a value in canonical form. -/
theorem state_keeps {free tick : Nat} {regs : List (Nat × W32)} {cores : List (Nat × Core)} {stops : List (Nat × Stop)}
    {dies : List (Nat × Die)} {parts : List (Nat × Part)}
    {pat : Pat} {crcUnits : List (Nat × CrcUnit)} {hostIn : List PatAdd} {flash : Flash} {hbm : Mem} {ctls : List (Nat × HbmCtl)}
    {srams : List (Nat × Sram)} {gatedTicks : List (Nat × Nat)} {acks : List (Nat × Nat × Nat)} {links : List (Nat × Link)}
    {ports : List (Nat × Port)} {net : Net} {ent : Ent} {hostcfg : HostCfg} {mon : Mon} {pwr : Pwr} (h : Keeps a s)
    (hn : s.free ≤ free) (hr : tblWf resetWord s.regs = true → tblWf resetWord regs = true)
    (hc : s.cores.all (fun e => e.2.wf) = true → cores.all (fun e => e.2.wf) = true)
    (hh : s.hbm.wf = true → hbm.wf = true) (hb : s.pwr.recBytes.wf = true → pwr.recBytes.wf = true)
    (hl : s.pwr.ladle.wf = true → pwr.ladle.wf = true) :
    Keeps a (State.mk s.pending free tick regs cores stops dies parts pat crcUnits hostIn s.fuses flash hbm ctls srams
      gatedTicks acks links ports net ent hostcfg s.out mon pwr) := by
  refine h.trans ⟨rfl, List.prefix_refl _, Fuses.Grow.refl _, hn, fun w => ?_⟩
  rw [State.wf_iff] at w ⊢
  exact ⟨hr w.1, hh w.2.1, hc w.2.2.1, hb w.2.2.2.1, hl w.2.2.2.2⟩

/-- Fuses that are burned. -/
theorem fuses_keeps {f : Fuses} (h : Keeps a s) (hg : s.fuses.Grow f) : Keeps a { s with fuses := f } :=
  h.trans ⟨rfl, List.prefix_refl _, hg, Nat.le_refl _, id⟩

theorem setW_keeps (k : Nat) (v : W32) (h : Keeps a s) : Keeps a (s.setW k v) := by
  refine h.trans ⟨rfl, List.prefix_refl _, Fuses.Grow.refl _, Nat.le_refl _, fun w => ?_⟩
  rw [State.wf_iff] at w ⊢
  exact ⟨tblWf_tblPut _ _ _ w.1, w.2⟩

theorem set64_keeps (o : Nat) (v : W64) (h : Keeps a s) : Keeps a (s.set64 o v) := setW_keeps _ _ (setW_keeps _ _ h)

theorem setF_keeps (f : Fld) (n : Nat) (h : Keeps a s) : Keeps a (s.setF f n) := set64_keeps _ _ h

theorem incF_keeps (f : Fld) (n : Nat) (h : Keeps a s) : Keeps a (s.incF f n) := setF_keeps _ _ h

theorem resetRegs_keeps (p : Nat → Bool) (h : Keeps a s) : Keeps a (s.resetRegs p) := by
  refine h.trans ⟨rfl, List.prefix_refl _, Fuses.Grow.refl _, Nat.le_refl _, fun w => ?_⟩
  rw [State.wf_iff] at w ⊢
  exact ⟨tblWf_tblFilter (t := s.regs) resetWord (fun k => !p k) w.1, w.2⟩

/-- Cores replaced by cores in canonical form. -/
theorem cores_keeps (h : Keeps a s) (hp : t.pending = s.pending) (ho : t.out = s.out) (hf : t.fuses = s.fuses)
    (hn : t.free = s.free) (hr : t.regs = s.regs) (hh : t.hbm = s.hbm)
    (hb : t.pwr.recBytes = s.pwr.recBytes) (hl : t.pwr.ladle = s.pwr.ladle)
    (hc : s.cores.all (fun e => e.2.wf) = true → t.cores.all (fun e => e.2.wf) = true) : Keeps a t := by
  refine h.trans ⟨hp, by rw [ho], by rw [hf]; exact Fuses.Grow.refl _, by rw [hn], fun w => ?_⟩
  rw [State.wf_iff] at w ⊢
  rw [hr, hh, hb, hl]
  exact ⟨w.1, w.2.1, hc w.2.2.1, w.2.2.2⟩

theorem modCore_keeps (lid : Nat) {f : Core → Core} (hf : ∀ c, c.wf = true → (f c).wf = true) (h : Keeps a s) :
    Keeps a (s.modCore lid f) :=
  cores_keeps h rfl rfl rfl rfl rfl rfl rfl rfl fun hc =>
    all_tblPut (fun _ => ({} : Core)) lid (f (s.core lid)) Core.wf hc (hf _ (tblGet_all (fun _ => ({} : Core)) lid Core.wf hc rfl))

/-- HBM replaced by HBM in canonical form. -/
theorem hbm_keeps (h : Keeps a s) (hp : t.pending = s.pending) (ho : t.out = s.out) (hf : t.fuses = s.fuses)
    (hn : t.free = s.free) (hr : t.regs = s.regs) (hc : t.cores = s.cores) (hb : t.pwr.recBytes = s.pwr.recBytes)
    (hl : t.pwr.ladle = s.pwr.ladle) (hh : s.hbm.wf = true → t.hbm.wf = true) : Keeps a t := by
  refine h.trans ⟨hp, by rw [ho], by rw [hf]; exact Fuses.Grow.refl _, by rw [hn], fun w => ?_⟩
  rw [State.wf_iff] at w ⊢
  rw [hr, hc, hb, hl]
  exact ⟨w.1, hh w.2.1, w.2.2⟩

theorem modStop_keeps (lid : Nat) (f : Stop → Stop) (h : Keeps a s) : Keeps a (s.modStop lid f) :=
  h.congr rfl rfl rfl rfl rfl rfl rfl rfl rfl

theorem modDie_keeps (d : Nat) (f : Die → Die) (h : Keeps a s) : Keeps a (s.modDie d f) :=
  h.congr rfl rfl rfl rfl rfl rfl rfl rfl rfl

theorem modPart_keeps (p : Nat) (f : Part → Part) (h : Keeps a s) : Keeps a (s.modPart p f) :=
  h.congr rfl rfl rfl rfl rfl rfl rfl rfl rfl

theorem modUnit_keeps (u : Nat) (f : CrcUnit → CrcUnit) (h : Keeps a s) : Keeps a (s.modUnit u f) :=
  h.congr rfl rfl rfl rfl rfl rfl rfl rfl rfl

theorem modCtl_keeps (c : Nat) (f : HbmCtl → HbmCtl) (h : Keeps a s) : Keeps a (s.modCtl c f) :=
  h.congr rfl rfl rfl rfl rfl rfl rfl rfl rfl

theorem modLink_keeps (n : Nat) (f : Link → Link) (h : Keeps a s) : Keeps a (s.modLink n f) :=
  h.congr rfl rfl rfl rfl rfl rfl rfl rfl rfl

theorem modPort_keeps (k : Nat) (f : Port → Port) (h : Keeps a s) : Keeps a (s.modPort k f) :=
  h.congr rfl rfl rfl rfl rfl rfl rfl rfl rfl

theorem modSram_keeps (lid : Nat) (f : Sram → Sram) (h : Keeps a s) : Keeps a (s.modSram lid f) :=
  h.congr rfl rfl rfl rfl rfl rfl rfl rfl rfl

theorem emit_keeps (o : Output) (h : Keeps a s) : Keeps a (s.emit o) :=
  h.trans ⟨rfl, List.prefix_append _ _, Fuses.Grow.refl _, Nat.le_refl _, id⟩

/-- More free values are drawn. -/
theorem free_keeps (h : Keeps a s) (hp : t.pending = s.pending) (ho : t.out = s.out) (hf : t.fuses = s.fuses)
    (hn : s.free ≤ t.free) (hr : t.regs = s.regs) (hh : t.hbm = s.hbm) (hc : t.cores = s.cores)
    (hb : t.pwr.recBytes = s.pwr.recBytes) (hl : t.pwr.ladle = s.pwr.ladle) : Keeps a t := by
  refine h.trans ⟨hp, by rw [ho], by rw [hf]; exact Fuses.Grow.refl _, hn, fun w => ?_⟩
  simpa [State.wf, hr, hh, hc, hb, hl] using w

theorem used_keeps (h : Keeps a s) : Keeps a s.used := free_keeps h rfl rfl rfl (Nat.le_succ _) rfl rfl rfl rfl rfl

end Sys2Proof.Machine
end

