-- ==== Sys2Proof/Laws/KeepsOps.lean ====
section
/-!
SUPPORT. What the operations of Machine/Ops.lean keep (`Keeps`): one lemma each.
-/
namespace Sys2Proof.Machine

theorem putHbm_keeps {k0 s : State} (a : Nat) (bs : List Byte) (hk : Keeps k0 s) : Keeps k0 (State.putHbm a bs s) := by
  unfold State.putHbm
  try dsimp only
  repeat' (first
    | with_reducible assumption | intro _ | with_reducible apply keeps_ite | with_reducible apply keeps_ite_fst
    | with_reducible apply forAll_keeps | with_reducible apply forAll_keeps_fst
    | refine keeps_of_eq (by with_reducible assumption) ?_ | dsimp only | split
    | with_reducible refine fields_keeps ?_ (by with_reducible rfl) (by with_reducible rfl)
    | with_reducible apply state_keeps | exact Nat.le_refl _ | exact Nat.le_add_right _ _
    | with_reducible apply Mem.write_wf)

theorem addFree_keeps {k0 s : State} (f : Fld) (hk : Keeps k0 s) : Keeps k0 (State.addFree f s) := by
  unfold State.addFree
  try dsimp only
  repeat' (first
    | with_reducible assumption | intro _ | with_reducible apply incF_keeps | with_reducible apply used_keeps)

theorem log_keeps {k0 s : State} (cls : Nat) (src : Nat) (unit : Nat) (poison : Bool) (code : Nat) (loc : Nat)
    (hk : Keeps k0 s) : Keeps k0 (State.log cls src unit poison code loc s) := by
  unfold State.log
  try dsimp only
  repeat' (first
    | with_reducible assumption | intro _ | with_reducible apply setF_keeps | with_reducible apply incF_keeps
    | with_reducible apply keeps_ite)

theorem ignored_keeps {k0 s : State} (cause : Nat) (cxl : Bool) (write : Bool) (addr : Nat) (hk : Keeps k0 s) : Keeps
    k0 (State.ignored cause cxl write addr s) := by
  unfold State.ignored
  try dsimp only
  repeat' (first
    | with_reducible assumption | intro _ | with_reducible apply setF_keeps | with_reducible apply incF_keeps)

theorem msix_keeps {k0 s : State} (v : Nat) (hk : Keeps k0 s) : Keeps k0 (State.msix v s) := by
  unfold State.msix
  try dsimp only
  repeat' (first
    | with_reducible assumption | intro _ | with_reducible apply emit_keeps | with_reducible apply keeps_ite
    | with_reducible apply keeps_ite_fst | with_reducible apply forAll_keeps | with_reducible apply forAll_keeps_fst
    | refine keeps_of_eq (by with_reducible assumption) ?_ | dsimp only | split
    | with_reducible refine fields_keeps ?_ (by with_reducible rfl) (by with_reducible rfl))

theorem event_keeps {k0 s : State} (i : Nat) (hk : Keeps k0 s) : Keeps k0 (State.event i s) := by
  unfold State.event
  try dsimp only
  repeat' (first
    | with_reducible assumption | intro _ | with_reducible apply setF_keeps | with_reducible apply msix_keeps
    | with_reducible apply keeps_ite)

theorem flagWrite_keeps {k0 s : State} (w : Nat) (value : Nat) (hk : Keeps k0 s) : Keeps k0
    (State.flagWrite w value s) := by
  unfold State.flagWrite
  try dsimp only
  repeat' (first
    | with_reducible assumption | intro _ | with_reducible apply setF_keeps | with_reducible apply ignored_keeps
    | with_reducible apply emit_keeps | with_reducible apply keeps_ite)

theorem fire_keeps {k0 s : State} (w : Nat) (value : Nat) (hk : Keeps k0 s) : Keeps k0 (State.fire w value s) := by
  unfold State.fire
  try dsimp only
  repeat' (first
    | with_reducible assumption | intro _ | with_reducible apply incF_keeps | with_reducible apply msix_keeps
    | with_reducible apply flagWrite_keeps | with_reducible apply keeps_ite)

theorem resolveWatch_keeps {k0 s : State} (w : Nat) (was : Bool) (hk : Keeps k0 s) : Keeps k0
    (State.resolveWatch w was s) := by
  unfold State.resolveWatch
  try dsimp only
  repeat' (first
    | with_reducible assumption | intro _ | with_reducible apply setF_keeps | with_reducible apply fire_keeps
    | with_reducible apply keeps_ite)

theorem resolveWatches_keeps {k0 s : State} (h : Nat) (hk : Keeps k0 s) : Keeps k0 (State.resolveWatches h s) := by
  unfold State.resolveWatches
  try dsimp only
  repeat' (first
    | with_reducible assumption | intro _ | with_reducible apply resolveWatch_keeps | with_reducible apply keeps_ite
    | with_reducible apply keeps_ite_fst | with_reducible apply forAll_keeps)

theorem signalFault_keeps {k0 s : State} (lid : Nat) (r : FaultRec) (hk : Keeps k0 s) : Keeps k0
    (State.signalFault lid r s) := by
  unfold State.signalFault
  try dsimp only
  repeat' (first
    | with_reducible assumption | intro _ | with_reducible apply modPart_keeps | with_reducible apply keeps_ite
    | with_reducible apply keeps_ite_fst | with_reducible apply forAll_keeps | with_reducible apply forAll_keeps_fst
    | refine keeps_of_eq (by with_reducible assumption) ?_ | dsimp only | split)

theorem opFault_keeps {k0 s : State} (lid : Nat) (q : Queue) (code : Nat) (hk : Keeps k0 s) : Keeps k0
    (State.opFault lid q code s) := by
  unfold State.opFault
  try dsimp only
  repeat' (first
    | with_reducible assumption | intro _ | with_reducible apply setF_keeps | with_reducible apply signalFault_keeps)

theorem remoteFault_keeps {k0 s : State} (lid : Nat) (code : Nat) (hk : Keeps k0 s) : Keeps k0
    (State.remoteFault lid code s) := by
  unfold State.remoteFault
  try dsimp only
  repeat' (first
    | with_reducible assumption | intro _ | with_reducible apply signalFault_keeps)

theorem countCorrected_keeps {k0 s : State} (lid : Nat) (m : CoreMem) (w : Nat) (hk : Keeps k0 s) : Keeps k0
    (State.countCorrected lid m w s) := by
  unfold State.countCorrected
  try dsimp only
  repeat' (first
    | with_reducible assumption | intro _ | with_reducible apply incF_keeps | with_reducible apply log_keeps)

theorem correctPart_keeps {k0 s : State} (lid : Nat) (m : CoreMem) (w : Nat) (hk : Keeps k0 s) : Keeps k0
    (State.correctPart lid m w s) := by
  unfold State.correctPart
  try dsimp only
  repeat' (first
    | with_reducible assumption | intro _ | with_reducible apply countCorrected_keeps
    | with_reducible apply keeps_ite)

theorem noteWord_keeps {k0 s : State} (lid : Nat) (m : CoreMem) (w : Nat) (hk : Keeps k0 s) : Keeps k0
    (State.noteWord lid m w s) := by
  unfold State.noteWord
  try dsimp only
  repeat' (first
    | with_reducible assumption | exact fun (_ : Core) hc => hc | intro _ | with_reducible apply setF_keeps
    | with_reducible apply incF_keeps | with_reducible apply modCore_keeps | with_reducible apply log_keeps
    | with_reducible apply countCorrected_keeps | with_reducible apply keeps_ite | with_reducible apply keeps_ite_fst
    | with_reducible apply forAll_keeps | with_reducible apply forAll_keeps_fst
    | refine keeps_of_eq (by with_reducible assumption) ?_ | dsimp only | split)

theorem noteRead_keeps {k0 s : State} (lid : Nat) (m : CoreMem) (a : Nat) (n : Nat) (hk : Keeps k0 s) : Keeps k0
    (State.noteRead lid m a n s) := by
  unfold State.noteRead
  try dsimp only
  repeat' (first
    | with_reducible assumption | intro _ | with_reducible apply noteWord_keeps | with_reducible apply keeps_ite
    | with_reducible apply keeps_ite_fst | with_reducible apply forAll_keeps)

theorem wr_keeps {k0 s : State} (lid : Nat) (m : CoreMem) (a : Nat) (bs : List Byte) (hk : Keeps k0 s) : Keeps k0
    (State.wr lid m a bs s) := by
  unfold State.wr
  try dsimp only
  repeat' (first
    | with_reducible assumption | exact fun (_ : Core) hc => hc
    | exact fun (_ : Core) hc => Core.setMem_wf _ hc (Mem.write_wf _ _ _ (Core.mem_wf _ hc))
    | exact fun (_ : Core) hc => Core.setMem_wf _ hc (Mem.poison_wf _ _ _ (Mem.store_wf _ _ (Core.mem_wf _ hc)))
    | exact fun (_ : Core) hc => Core.setMem_wf _ hc (Mem.setSyn_wf _ _ (Core.mem_wf _ hc)) | intro _
    | with_reducible apply incF_keeps | with_reducible apply modCore_keeps | with_reducible apply correctPart_keeps
    | with_reducible apply keeps_ite | with_reducible apply keeps_ite_fst | with_reducible apply forAll_keeps)

theorem wrPoison_keeps {k0 s : State} (lid : Nat) (m : CoreMem) (a : Nat) (bs : List Byte) (hk : Keeps k0 s) : Keeps
    k0 (State.wrPoison lid m a bs s) := by
  unfold State.wrPoison
  try dsimp only
  repeat' (first
    | with_reducible assumption | exact fun (_ : Core) hc => hc
    | exact fun (_ : Core) hc => Core.setMem_wf _ hc (Mem.write_wf _ _ _ (Core.mem_wf _ hc))
    | exact fun (_ : Core) hc => Core.setMem_wf _ hc (Mem.poison_wf _ _ _ (Mem.store_wf _ _ (Core.mem_wf _ hc)))
    | exact fun (_ : Core) hc => Core.setMem_wf _ hc (Mem.setSyn_wf _ _ (Core.mem_wf _ hc)) | intro _
    | with_reducible apply incF_keeps | with_reducible apply modCore_keeps)

theorem setLace_keeps {k0 s : State} (lid : Nat) (w : Nat) (v : W32) (hk : Keeps k0 s) : Keeps k0
    (State.setLace lid w v s) := by
  unfold State.setLace
  try dsimp only
  repeat' (first
    | with_reducible assumption | intro _ | with_reducible apply wr_keeps)

theorem noteLace_keeps {k0 s : State} (lid : Nat) (w : Nat) (hk : Keeps k0 s) : Keeps k0 (State.noteLace lid w s) := by
  unfold State.noteLace
  try dsimp only
  repeat' (first
    | with_reducible assumption | intro _ | with_reducible apply noteRead_keeps)

theorem issueOp_keeps {k0 s : State} (lid : Nat) (q : Queue) (mine : OpWord → Bool) {f : OpWord → State → State}
    (hf : ∀ x0 u, Keeps k0 u → Keeps k0 (f x0 u)) (hk : Keeps k0 s) : Keeps k0 (State.issueOp lid q mine f s) := by
  unfold State.issueOp
  try dsimp only
  repeat' (first
    | with_reducible assumption | intro _ | with_reducible apply hf | with_reducible apply opFault_keeps
    | with_reducible apply noteRead_keeps | with_reducible apply keeps_ite)

theorem issue_keeps {k0 s : State} (lid : Nat) (q : Queue) (code : Nat) {f : OpWord → State → State} (hf : ∀ x0 u,
    Keeps k0 u → Keeps k0 (f x0 u)) (hk : Keeps k0 s) : Keeps k0 (State.issue lid q code f s) := by
  unfold State.issue
  try dsimp only
  repeat' (first
    | with_reducible assumption | intro _ | with_reducible apply hf | with_reducible apply issueOp_keeps)

theorem goto_keeps {k0 s : State} (lid : Nat) (q : Queue) (i : Nat) (hk : Keeps k0 s) : Keeps k0
    (State.goto lid q i s) := by
  unfold State.goto
  try dsimp only
  repeat' (first
    | with_reducible assumption | exact fun (_ : Core) hc => hc | intro _ | with_reducible apply setF_keeps
    | with_reducible apply modCore_keeps | with_reducible apply keeps_ite)

theorem retire_keeps {k0 s : State} (lid : Nat) (q : Queue) (hk : Keeps k0 s) : Keeps k0 (State.retire lid q s) := by
  unfold State.retire
  try dsimp only
  repeat' (first
    | with_reducible assumption | intro _ | with_reducible apply incF_keeps | with_reducible apply goto_keeps)

theorem advance_keeps {k0 s : State} (lid : Nat) (q : Queue) (hk : Keeps k0 s) : Keeps k0 (State.advance lid q s) := by
  unfold State.advance
  try dsimp only
  repeat' (first
    | with_reducible assumption | intro _ | with_reducible apply goto_keeps)

theorem opDone_keeps {k0 s : State} (lid : Nat) (q : Queue) (hk : Keeps k0 s) : Keeps k0 (State.opDone lid q s) := by
  unfold State.opDone
  try dsimp only
  repeat' (first
    | with_reducible assumption | intro _ | with_reducible apply incF_keeps)

theorem releaseWait_keeps {k0 s : State} (lid : Nat) (q : Queue) (hk : Keeps k0 s) : Keeps k0
    (State.releaseWait lid q s) := by
  unfold State.releaseWait
  try dsimp only
  repeat' (first
    | with_reducible assumption | intro _ | with_reducible apply setF_keeps | with_reducible apply addFree_keeps
    | with_reducible apply retire_keeps)

theorem periodStart_keeps {k0 s : State} (lid : Nat) (q : Queue) (n : Nat) (hk : Keeps k0 s) : Keeps k0
    (State.periodStart lid q n s) := by
  unfold State.periodStart
  try dsimp only
  repeat' (first
    | with_reducible assumption | intro _ | with_reducible apply modPart_keeps | with_reducible apply keeps_ite
    | with_reducible apply keeps_ite_fst | with_reducible apply forAll_keeps | with_reducible apply forAll_keeps_fst
    | refine keeps_of_eq (by with_reducible assumption) ?_ | dsimp only | split)

theorem resolveCtr_keeps {k0 s : State} (lid : Nat) (n : Nat) (hk : Keeps k0 s) : Keeps k0
    (State.resolveCtr lid n s) := by
  unfold State.resolveCtr
  try dsimp only
  repeat' (first
    | with_reducible assumption | intro _ | with_reducible apply setF_keeps | with_reducible apply releaseWait_keeps
    | with_reducible apply periodStart_keeps | with_reducible apply keeps_ite | with_reducible apply keeps_ite_fst
    | with_reducible apply forAll_keeps)

theorem bump_keeps {k0 s : State} (lid : Nat) (n : Nat) (k : Nat) (hk : Keeps k0 s) : Keeps k0
    (State.bump lid n k s) := by
  unfold State.bump
  try dsimp only
  repeat' (first
    | with_reducible assumption | intro _ | with_reducible apply setF_keeps)

theorem remoteAdd_keeps {k0 s : State} (lid : Nat) (n : Nat) (k : Nat) (hk : Keeps k0 s) : Keeps k0
    (State.remoteAdd lid n k s) := by
  unfold State.remoteAdd
  try dsimp only
  repeat' (first
    | with_reducible assumption | intro _ | with_reducible apply remoteFault_keeps
    | with_reducible apply resolveCtr_keeps | with_reducible apply bump_keeps | with_reducible apply keeps_ite)

theorem hostBump_keeps {k0 s : State} (lid : Nat) (n : Nat) (k : Nat) (addr : Nat) (hk : Keeps k0 s) : Keeps k0
    (State.hostBump lid n k addr s) := by
  unfold State.hostBump
  try dsimp only
  repeat' (first
    | with_reducible assumption | intro _ | with_reducible apply setF_keeps | with_reducible apply ignored_keeps
    | with_reducible apply resolveCtr_keeps | with_reducible apply bump_keeps | with_reducible apply keeps_ite)

end Sys2Proof.Machine
end

