-- ==== Sys2Proof/Laws/KeepsQueue.lean ====
section
/-!
SUPPORT. What the operations of Machine/Queue.lean keep (`Keeps`): one lemma each.
-/
namespace Sys2Proof.Machine

theorem control_keeps {k0 s : State} (lid : Nat) (q : Queue) (code : Nat) (fields : List (Nat × Nat)) {f : OpWord →
    State → State} (hf : ∀ x0 u, Keeps k0 u → Keeps k0 (f x0 u)) (hk : Keeps k0 s) : Keeps k0
    (State.control lid q code fields f s) := by
  unfold State.control
  try dsimp only
  repeat' (first
    | with_reducible assumption | intro _ | with_reducible apply hf | with_reducible apply opFault_keeps
    | with_reducible apply issue_keeps | with_reducible apply keeps_ite)

theorem periodEnd_keeps {k0 s : State} (lid : Nat) (q : Queue) (hk : Keeps k0 s) : Keeps k0
    (State.periodEnd lid q s) := by
  unfold State.periodEnd
  try dsimp only
  repeat' (first
    | with_reducible assumption | intro _ | with_reducible apply setF_keeps | with_reducible apply incF_keeps
    | with_reducible apply modPart_keeps | with_reducible apply used_keeps | with_reducible apply keeps_ite
    | with_reducible apply keeps_ite_fst | with_reducible apply forAll_keeps | with_reducible apply forAll_keeps_fst
    | refine keeps_of_eq (by with_reducible assumption) ?_ | dsimp only | split)

theorem toFifo_keeps {k0 s : State} (lid : Nat) (f : Flit) (hk : Keeps k0 s) : Keeps k0 (State.toFifo lid f s) := by
  unfold State.toFifo
  try dsimp only
  repeat' (first
    | with_reducible assumption | intro _ | with_reducible apply modStop_keeps)

theorem nopOp_keeps {k0 s : State} (lid : Nat) (q : Queue) (hk : Keeps k0 s) : Keeps k0 (nopOp lid q s) := by
  unfold nopOp
  try dsimp only
  repeat' (first
    | with_reducible assumption | intro _ | with_reducible apply retire_keeps | with_reducible apply control_keeps)

theorem haltOp_keeps {k0 s : State} (lid : Nat) (q : Queue) (hk : Keeps k0 s) : Keeps k0 (haltOp lid q s) := by
  unfold haltOp
  try dsimp only
  repeat' (first
    | with_reducible assumption | intro _ | with_reducible apply setF_keeps | with_reducible apply incF_keeps
    | with_reducible apply control_keeps)

theorem addOwn_keeps {k0 s : State} (lid : Nat) (q : Queue) (n : Nat) (k : Nat) (hk : Keeps k0 s) : Keeps k0
    (addOwn lid q n k s) := by
  unfold addOwn
  try dsimp only
  repeat' (first
    | with_reducible assumption | intro _ | with_reducible apply opFault_keeps | with_reducible apply retire_keeps
    | with_reducible apply resolveCtr_keeps | with_reducible apply bump_keeps | with_reducible apply keeps_ite)

theorem holdFull_keeps {k0 s : State} (lid : Nat) (q : Queue) (hk : Keeps k0 s) : Keeps k0
    (State.holdFull lid q s) := by
  unfold State.holdFull
  try dsimp only
  repeat' (first
    | with_reducible assumption | intro _ | with_reducible apply addFree_keeps | with_reducible apply keeps_ite
    | with_reducible apply keeps_ite_fst | with_reducible apply forAll_keeps | with_reducible apply forAll_keeps_fst
    | refine keeps_of_eq (by with_reducible assumption) ?_ | dsimp only | split)

theorem sendAndRetire_keeps {k0 s : State} (lid : Nat) (q : Queue) (m : SyncMsg) (hk : Keeps k0 s) : Keeps k0
    (sendAndRetire lid q m s) := by
  unfold sendAndRetire
  try dsimp only
  repeat' (first
    | with_reducible assumption | intro _ | with_reducible apply retire_keeps | with_reducible apply toFifo_keeps
    | with_reducible apply holdFull_keeps | with_reducible apply keeps_ite)

theorem ctrAddBody_keeps {k0 s : State} (lid : Nat) (q : Queue) (op : OpWord) (hk : Keeps k0 s) : Keeps k0
    (ctrAddBody lid q op s) := by
  unfold ctrAddBody
  try dsimp only
  repeat' (first
    | with_reducible assumption | intro _ | with_reducible apply opFault_keeps | with_reducible apply periodEnd_keeps
    | with_reducible apply addOwn_keeps | with_reducible apply holdFull_keeps
    | with_reducible apply sendAndRetire_keeps | with_reducible apply keeps_ite)

theorem ctrAddOp_keeps {k0 s : State} (lid : Nat) (q : Queue) (hk : Keeps k0 s) : Keeps k0 (ctrAddOp lid q s) := by
  unfold ctrAddOp
  try dsimp only
  repeat' (first
    | with_reducible assumption | intro _ | with_reducible apply control_keeps | with_reducible apply ctrAddBody_keeps
    | with_reducible apply keeps_ite)

theorem ctrSetBody_keeps {k0 s : State} (lid : Nat) (q : Queue) (op : OpWord) (hk : Keeps k0 s) : Keeps k0
    (ctrSetBody lid q op s) := by
  unfold ctrSetBody
  try dsimp only
  repeat' (first
    | with_reducible assumption | intro _ | with_reducible apply setF_keeps | with_reducible apply opFault_keeps
    | with_reducible apply retire_keeps | with_reducible apply resolveCtr_keeps
    | with_reducible apply sendAndRetire_keeps | with_reducible apply keeps_ite)

theorem ctrSetOp_keeps {k0 s : State} (lid : Nat) (q : Queue) (hk : Keeps k0 s) : Keeps k0 (ctrSetOp lid q s) := by
  unfold ctrSetOp
  try dsimp only
  repeat' (first
    | with_reducible assumption | intro _ | with_reducible apply control_keeps | with_reducible apply ctrSetBody_keeps
    | with_reducible apply keeps_ite)

theorem beginWait_keeps {k0 s : State} (lid : Nat) (q : Queue) (n : Nat) (hk : Keeps k0 s) : Keeps k0
    (beginWait lid q n s) := by
  unfold beginWait
  try dsimp only
  repeat' (first
    | with_reducible assumption | intro _ | with_reducible apply setF_keeps)

theorem ctrTakeOp_keeps {k0 s : State} (lid : Nat) (q : Queue) (hk : Keeps k0 s) : Keeps k0 (ctrTakeOp lid q s) := by
  unfold ctrTakeOp
  try dsimp only
  repeat' (first
    | with_reducible assumption | intro _ | with_reducible apply setF_keeps | with_reducible apply opFault_keeps
    | with_reducible apply retire_keeps | with_reducible apply periodStart_keeps | with_reducible apply control_keeps
    | with_reducible apply beginWait_keeps | with_reducible apply keeps_ite)

theorem ctrLookOp_keeps {k0 s : State} (lid : Nat) (q : Queue) (hk : Keeps k0 s) : Keeps k0 (ctrLookOp lid q s) := by
  unfold ctrLookOp
  try dsimp only
  repeat' (first
    | with_reducible assumption | intro _ | with_reducible apply opFault_keeps | with_reducible apply retire_keeps
    | with_reducible apply control_keeps | with_reducible apply beginWait_keeps | with_reducible apply keeps_ite)

theorem ctrDecOp_keeps {k0 s : State} (lid : Nat) (q : Queue) (hk : Keeps k0 s) : Keeps k0 (ctrDecOp lid q s) := by
  unfold ctrDecOp
  try dsimp only
  repeat' (first
    | with_reducible assumption | intro _ | with_reducible apply setF_keeps | with_reducible apply opFault_keeps
    | with_reducible apply retire_keeps | with_reducible apply resolveCtr_keeps | with_reducible apply control_keeps
    | with_reducible apply keeps_ite)

theorem copyLevel_keeps {k0 s : State} (lid : Nat) (q : Queue) (j : Nat) (k : Nat) (hk : Keeps k0 s) : Keeps k0
    (copyLevel lid q j k s) := by
  unfold copyLevel
  try dsimp only
  repeat' (first
    | with_reducible assumption | intro _ | with_reducible apply setF_keeps)

theorem clearLevel_keeps {k0 s : State} (lid : Nat) (q : Queue) (k : Nat) (hk : Keeps k0 s) : Keeps k0
    (clearLevel lid q k s) := by
  unfold clearLevel
  try dsimp only
  repeat' (first
    | with_reducible assumption | intro _ | with_reducible apply setF_keeps)

theorem pushLevel_keeps {k0 s : State} (lid : Nat) (q : Queue) (count : Nat) (forever : Bool) (start : Nat)
    (hk : Keeps k0 s) : Keeps k0 (pushLevel lid q count forever start s) := by
  unfold pushLevel
  try dsimp only
  repeat' (first
    | with_reducible assumption | intro _ | with_reducible apply setF_keeps | with_reducible apply copyLevel_keeps)

theorem popLevel_keeps {k0 s : State} (lid : Nat) (q : Queue) (hk : Keeps k0 s) : Keeps k0 (popLevel lid q s) := by
  unfold popLevel
  try dsimp only
  repeat' (first
    | with_reducible assumption | intro _ | with_reducible apply setF_keeps | with_reducible apply copyLevel_keeps
    | with_reducible apply clearLevel_keeps)

theorem loopOp_keeps {k0 s : State} (lid : Nat) (q : Queue) (hk : Keeps k0 s) : Keeps k0 (loopOp lid q s) := by
  unfold loopOp
  try dsimp only
  repeat' (first
    | with_reducible assumption | intro _ | with_reducible apply incF_keeps | with_reducible apply opFault_keeps
    | with_reducible apply noteRead_keeps | with_reducible apply goto_keeps | with_reducible apply retire_keeps
    | with_reducible apply control_keeps | with_reducible apply pushLevel_keeps | with_reducible apply keeps_ite)

theorem endloopOp_keeps {k0 s : State} (lid : Nat) (q : Queue) (hk : Keeps k0 s) : Keeps k0 (endloopOp lid q s) := by
  unfold endloopOp
  try dsimp only
  repeat' (first
    | with_reducible assumption | intro _ | with_reducible apply setF_keeps | with_reducible apply incF_keeps
    | with_reducible apply opFault_keeps | with_reducible apply goto_keeps | with_reducible apply retire_keeps
    | with_reducible apply control_keeps | with_reducible apply popLevel_keeps | with_reducible apply keeps_ite)

theorem popLevels_keeps {k0 s : State} (lid : Nat) (q : Queue) (n : Nat) (hk : Keeps k0 s) :
    Keeps k0 (popLevels lid q n s) := by
  induction n generalizing s with
  | zero => exact hk
  | succ n ih => exact ih (popLevel_keeps _ _ hk)

theorem selectOp_keeps {k0 s : State} (lid : Nat) (q : Queue) (hk : Keeps k0 s) : Keeps k0 (selectOp lid q s) := by
  unfold selectOp
  try dsimp only
  repeat' (first
    | with_reducible assumption | intro _ | with_reducible apply incF_keeps | with_reducible apply opFault_keeps
    | with_reducible apply noteRead_keeps | with_reducible apply goto_keeps | with_reducible apply control_keeps
    | with_reducible apply popLevels_keeps | with_reducible apply keeps_ite)

theorem presentUpTo_keeps {k0 s : State} (lid n : Nat) (hk : Keeps k0 s) : Keeps k0 (State.presentUpTo lid n s) := by
  induction n generalizing s with
  | zero => exact hk
  | succ n ih =>
    unfold State.presentUpTo
    split
    · exact keeps_ite (ih (toFifo_keeps _ _ (modStop_keeps _ _ hk))) hk
    · exact hk

theorem presentArrivals_keeps {k0 s : State} (lid : Nat) (hk : Keeps k0 s) : Keeps k0
    (State.presentArrivals lid s) := by
  unfold State.presentArrivals
  try dsimp only
  repeat' (first
    | with_reducible assumption | intro _ | with_reducible apply presentUpTo_keeps)

theorem barArriveBody_keeps {k0 s : State} (lid : Nat) (q : Queue) (op : OpWord) (hk : Keeps k0 s) : Keeps k0
    (barArriveBody lid q op s) := by
  unfold barArriveBody
  try dsimp only
  repeat' (first
    | with_reducible assumption | intro _ | with_reducible apply setF_keeps | with_reducible apply modStop_keeps
    | with_reducible apply opFault_keeps | with_reducible apply retire_keeps
    | with_reducible apply presentArrivals_keeps | with_reducible apply keeps_ite)

theorem barArriveOp_keeps {k0 s : State} (lid : Nat) (q : Queue) (hk : Keeps k0 s) : Keeps k0
    (barArriveOp lid q s) := by
  unfold barArriveOp
  try dsimp only
  repeat' (first
    | with_reducible assumption | intro _ | with_reducible apply control_keeps
    | with_reducible apply barArriveBody_keeps | with_reducible apply keeps_ite)

theorem applyCounter_keeps {k0 s : State} (lid : Nat) (n : Nat) (k : Nat) (set : Bool) (hk : Keeps k0 s) : Keeps k0
    (State.applyCounter lid n k set s) := by
  unfold State.applyCounter
  try dsimp only
  repeat' (first
    | with_reducible assumption | intro _ | with_reducible apply setF_keeps | with_reducible apply resolveCtr_keeps
    | with_reducible apply remoteAdd_keeps | with_reducible apply keeps_ite)

theorem syncWatchdogOp_keeps {k0 s : State} (lid : Nat) (q : Queue) (hk : Keeps k0 s) : Keeps k0
    (syncWatchdogOp lid q s) := by
  unfold syncWatchdogOp
  try dsimp only
  repeat' (first
    | with_reducible assumption | intro _ | with_reducible apply opFault_keeps | with_reducible apply keeps_ite
    | with_reducible apply keeps_ite_fst | with_reducible apply forAll_keeps | with_reducible apply forAll_keeps_fst
    | refine keeps_of_eq (by with_reducible assumption) ?_ | dsimp only | split)

end Sys2Proof.Machine
end

