-- ==== Sys2Proof/Laws/KeepsPicot.lean ====
section
/-!
SUPPORT. What the operations of Machine/Picot.lean keep (`Keeps`): one lemma each.
-/
namespace Sys2Proof.Machine

theorem blocks_keeps {k0 s : State} (lid : Nat) (n : Nat) (hk : Keeps k0 s) : Keeps k0 (State.blocks lid n s) := by
  unfold State.blocks
  try dsimp only
  repeat' (first
    | with_reducible assumption | intro _ | with_reducible apply incF_keeps | with_reducible apply addFree_keeps)

end Sys2Proof.Machine
end

