-- ==== Sys2Proof/Laws/KeepsLace.lean ====
section
/-!
SUPPORT. What the operations of Machine/Lace.lean keep (`Keeps`): one lemma each.
-/
namespace Sys2Proof.Machine

theorem on_keeps {k0 : State} {r : Res} {f : State → Res} (hf : ∀ u, Keeps k0 u → Keeps k0 (f u).1)
    (hk : Keeps k0 r.1) : Keeps k0 (Res.on r f).1 := by
  unfold Res.on
  split
  · exact hf _ hk
  · exact hk

theorem walkRes_keeps {k0 s : State} {α : Type} {f : α → State → Res} (hf : ∀ x u, Keeps k0 u → Keeps k0 (f x u).1)
    (l : List α) (hk : Keeps k0 s) : Keeps k0 (walkRes f l s).1 := by
  induction l generalizing s with
  | nil => exact hk
  | cons x l ih => exact on_keeps (fun _ => ih) (hf _ _ hk)

theorem putLaceBit_keeps {k0 s : State} (lid : Nat) (w : Nat) (i : Nat) (b : Bool) (hk : Keeps k0 s) : Keeps k0
    (State.putLaceBit lid w i b s) := by
  unfold State.putLaceBit
  try dsimp only
  repeat' (first
    | with_reducible assumption | intro _ | with_reducible apply wr_keeps)

theorem putState_keeps {k0 s : State} (lid : Nat) (r : Nat) (i : Nat) (b : Bool) (hk : Keeps k0 s) : Keeps k0
    (State.putState lid r i b s) := by
  unfold State.putState
  try dsimp only
  repeat' (first
    | with_reducible assumption | intro _ | with_reducible apply putLaceBit_keeps)

theorem addField_keeps {k0 s : State} (lid : Nat) (r : Nat) (tgt : Nat) (w : Int) (hk : Keeps k0 s) : Keeps k0
    (State.addField lid r tgt w s) := by
  unfold State.addField
  try dsimp only
  repeat' (first
    | with_reducible assumption | intro _ | with_reducible apply setF_keeps | with_reducible apply incF_keeps
    | with_reducible apply noteRead_keeps | with_reducible apply setLace_keeps | with_reducible apply noteLace_keeps
    | with_reducible apply keeps_ite)

theorem countConflict_keeps {k0 s : State} (lid : Nat) (r : Nat) (hk : Keeps k0 s) : Keeps k0
    (State.countConflict lid r s) := by
  unfold State.countConflict
  try dsimp only
  repeat' (first
    | with_reducible assumption | intro _ | with_reducible apply setF_keeps | with_reducible apply incF_keeps)

theorem update_keeps {k0 s : State} (lid : Nat) (r : Nat) (src : Option Nat) (exempt : List Nat) (tgt : Nat)
    (w : Int) (hk : Keeps k0 s) : Keeps k0 (State.update lid r src exempt tgt w s).1 := by
  unfold State.update
  try dsimp only
  repeat' (first
    | with_reducible assumption | exact fun (_ : Core) hc => hc | intro _ | with_reducible apply modCore_keeps
    | with_reducible apply addField_keeps | with_reducible apply countConflict_keeps | with_reducible apply keeps_ite
    | with_reducible apply keeps_ite_fst | with_reducible apply forAll_keeps | with_reducible apply forAll_keeps_fst
    | refine keeps_of_eq (by with_reducible assumption) ?_ | dsimp only | split)

theorem applyList_keeps {k0 s : State} (lid r : Nat) (dir : Bool) (src : Option Nat) (exempt : List Nat) (n p : Nat)
    (hk : Keeps k0 s) : Keeps k0 (State.applyList lid r dir src exempt n p s).1 := by
  induction n generalizing s p with
  | zero => exact hk
  | succ n ih =>
    unfold State.applyList
    repeat' (first
      | with_reducible assumption
      | with_reducible apply keeps_ite_fst
      | with_reducible apply noteLace_keeps
      | with_reducible apply update_keeps
      | with_reducible apply ih
      | (with_reducible apply on_keeps; intro _ _))

theorem walkList_keeps {k0 s : State} (lid : Nat) (r : Nat) (dir : Bool) (src : Option Nat) (exempt : List Nat)
    (p : Nat) (hk : Keeps k0 s) : Keeps k0 (State.walkList lid r dir src exempt p s).1 := by
  unfold State.walkList
  try dsimp only
  repeat' (first
    | with_reducible assumption | intro _ | with_reducible apply addFree_keeps | with_reducible apply applyList_keeps)

theorem sendNotice_keeps {k0 s : State} (lid : Nat) (n : W32) (hk : Keeps k0 s) : Keeps k0
    (State.sendNotice lid n s) := by
  unfold State.sendNotice
  try dsimp only
  repeat' (first
    | with_reducible assumption | intro _ | with_reducible apply modStop_keeps)

theorem flip_keeps {k0 s : State} (lid : Nat) (r : Nat) (i : Nat) (dir : Bool) (src : Option Nat)
    (exempt : List Nat) (hk : Keeps k0 s) : Keeps k0 (State.flip lid r i dir src exempt s).1 := by
  unfold State.flip
  try dsimp only
  repeat' (first
    | with_reducible assumption | intro _ | with_reducible apply noteLace_keeps | with_reducible apply walkList_keeps
    | with_reducible apply sendNotice_keeps | with_reducible apply keeps_ite | with_reducible apply keeps_ite_fst)

theorem flushNotices_keeps {k0 s : State} (lid n : Nat) (hk : Keeps k0 s) : Keeps k0 (State.flushNotices lid n s) := by
  induction n generalizing s with
  | zero => exact hk
  | succ n ih => exact keeps_ite hk (ih (modStop_keeps _ _ hk))

theorem flush_keeps {k0 s : State} (lid : Nat) (hk : Keeps k0 s) : Keeps k0 (State.flush lid s) := by
  unfold State.flush
  try dsimp only
  repeat' (first
    | with_reducible assumption | intro _ | with_reducible apply flushNotices_keeps)

theorem phaseFault_keeps {k0 s : State} (lid : Nat) (code : Nat) (hk : Keeps k0 s) : Keeps k0
    (State.phaseFault lid code s) := by
  unfold State.phaseFault
  try dsimp only
  repeat' (first
    | with_reducible assumption | exact fun (_ : Core) hc => hc | intro _ | with_reducible apply setF_keeps
    | with_reducible apply modCore_keeps | with_reducible apply opFault_keeps | with_reducible apply keeps_ite
    | with_reducible apply keeps_ite_fst | with_reducible apply forAll_keeps | with_reducible apply forAll_keeps_fst
    | refine keeps_of_eq (by with_reducible assumption) ?_ | dsimp only | split)

theorem noticeFault_keeps {k0 s : State} (lid : Nat) (code : Nat) (hk : Keeps k0 s) : Keeps k0
    (State.noticeFault lid code s) := by
  unfold State.noticeFault
  try dsimp only
  repeat' (first
    | with_reducible assumption | intro _ | with_reducible apply remoteFault_keeps
    | with_reducible apply phaseFault_keeps | with_reducible apply keeps_ite)

theorem applyMirror_keeps {k0 s : State} (lid : Nat) (k : Nat) (n : W32) (hk : Keeps k0 s) : Keeps k0
    (State.applyMirror lid k n s) := by
  unfold State.applyMirror
  try dsimp only
  repeat' (first
    | with_reducible assumption | intro _ | with_reducible apply walkList_keeps
    | with_reducible apply noticeFault_keeps | with_reducible apply keeps_ite | with_reducible apply keeps_ite_fst
    | with_reducible apply forAll_keeps | with_reducible apply forAll_keeps_fst
    | refine keeps_of_eq (by with_reducible assumption) ?_ | dsimp only | split)

theorem takeNotice_keeps {k0 s : State} (lid : Nat) (k : Nat) (n : W32) (hk : Keeps k0 s) : Keeps k0
    (State.takeNotice lid k n s) := by
  unfold State.takeNotice
  try dsimp only
  repeat' (first
    | with_reducible assumption | exact fun (_ : Core) hc => hc | intro _ | with_reducible apply incF_keeps
    | with_reducible apply modCore_keeps | with_reducible apply remoteFault_keeps
    | with_reducible apply noteLace_keeps | with_reducible apply applyMirror_keeps | with_reducible apply keeps_ite
    | with_reducible apply keeps_ite_fst | with_reducible apply forAll_keeps | with_reducible apply forAll_keeps_fst
    | refine keeps_of_eq (by with_reducible assumption) ?_ | dsimp only | split)

theorem releaseInbox_keeps {k0 s : State} (lid : Nat) (hk : Keeps k0 s) : Keeps k0 (State.releaseInbox lid s) := by
  unfold State.releaseInbox
  try dsimp only
  repeat' (first
    | with_reducible assumption | exact fun (_ : Core) hc => hc | intro _ | with_reducible apply modCore_keeps
    | with_reducible apply applyMirror_keeps | with_reducible apply keeps_ite | with_reducible apply keeps_ite_fst
    | with_reducible apply forAll_keeps | with_reducible apply forAll_keeps_fst
    | refine keeps_of_eq (by with_reducible assumption) ?_ | dsimp only | split)

end Sys2Proof.Machine
end

