-- ==== Sys2Proof/Laws/KeepsSua.lean ====
section
/-!
SUPPORT. What the operations of Machine/Sua.lean keep (`Keeps`): one lemma each.
-/
namespace Sys2Proof.Machine

theorem suaOp_keeps {k0 s : State} (lid : Nat) (code : Nat) (fields : List (Nat × Nat)) (bad : Nat) {f : OpWord →
    State → State} (hf : ∀ x0 u, Keeps k0 u → Keeps k0 (f x0 u)) (hk : Keeps k0 s) : Keeps k0
    (State.suaOp lid code fields bad f s) := by
  unfold State.suaOp
  try dsimp only
  repeat' (first
    | with_reducible assumption | intro _ | with_reducible apply hf | with_reducible apply opFault_keeps
    | with_reducible apply issue_keeps | with_reducible apply keeps_ite)

theorem suaEnd_keeps {k0 : State} (lid : Nat) {r : Res} (hk : Keeps k0 r.1) : Keeps k0 (State.suaEnd lid r) := by
  unfold State.suaEnd
  try dsimp only
  repeat' (first
    | with_reducible assumption | intro _ | with_reducible apply opFault_keeps | with_reducible apply retire_keeps
    | with_reducible apply flush_keeps | with_reducible apply keeps_ite | with_reducible apply keeps_ite_fst
    | with_reducible apply forAll_keeps | with_reducible apply forAll_keeps_fst
    | refine keeps_of_eq (by with_reducible assumption) ?_ | dsimp only | split)

theorem bumpOn_keeps {k0 s : State} (lid : Nat) (r : Nat) (i : Nat) (hk : Keeps k0 s) : Keeps k0
    (State.bumpOn lid r i s) := by
  unfold State.bumpOn
  try dsimp only
  repeat' (first
    | with_reducible assumption | intro _ | with_reducible apply setF_keeps | with_reducible apply wr_keeps
    | with_reducible apply noteLace_keeps | with_reducible apply keeps_ite)

theorem writeStates_keeps {k0 s : State} (x : PhaseRun) (outs : List LaneOut) (hk : Keeps k0 s) : Keeps k0
    (writeStates x outs s) := by
  unfold writeStates
  try dsimp only
  repeat' (first
    | with_reducible assumption | intro _ | with_reducible apply putState_keeps | with_reducible apply keeps_ite
    | with_reducible apply keeps_ite_fst | with_reducible apply forAll_keeps)

theorem walkFlips_keeps {k0 s : State} (x : PhaseRun) (outs : List LaneOut) (hk : Keeps k0 s) : Keeps k0
    (walkFlips x outs s).1 := by
  unfold walkFlips
  try dsimp only
  repeat' (first
    | with_reducible assumption | intro _ | with_reducible apply walkRes_keeps | with_reducible apply flip_keeps)

theorem countBatch_keeps {k0 s : State} (x : PhaseRun) (outs : List LaneOut) (hk : Keeps k0 s) : Keeps k0
    (countBatch x outs s) := by
  unfold countBatch
  try dsimp only
  repeat' (first
    | with_reducible assumption | intro _ | with_reducible apply setF_keeps | with_reducible apply incF_keeps
    | with_reducible apply addFree_keeps | with_reducible apply blocks_keeps | with_reducible apply on_keeps
    | with_reducible apply bumpOn_keeps | with_reducible apply keeps_ite | with_reducible apply keeps_ite_fst
    | with_reducible apply forAll_keeps)

theorem noteBatch_keeps {k0 s : State} (lid : Nat) (r : Nat) (m : Nat) (gs : List Nat) (hk : Keeps k0 s) : Keeps k0
    (State.noteBatch lid r m gs s) := by
  unfold State.noteBatch
  try dsimp only
  repeat' (first
    | with_reducible assumption | intro _ | with_reducible apply noteRead_keeps | with_reducible apply noteLace_keeps
    | with_reducible apply keeps_ite | with_reducible apply keeps_ite_fst | with_reducible apply forAll_keeps)

theorem phaseBatch_keeps {k0 s : State} (x : PhaseRun) (m : Nat) (hk : Keeps k0 s) : Keeps k0 (phaseBatch x m s).1 := by
  unfold phaseBatch
  try dsimp only
  repeat' (first
    | with_reducible assumption | intro _ | with_reducible apply noteLace_keeps
    | with_reducible apply writeStates_keeps | with_reducible apply walkFlips_keeps
    | with_reducible apply countBatch_keeps | with_reducible apply noteBatch_keeps | with_reducible apply keeps_ite
    | with_reducible apply keeps_ite_fst | with_reducible apply forAll_keeps | with_reducible apply forAll_keeps_fst
    | refine keeps_of_eq (by with_reducible assumption) ?_ | dsimp only | split)

theorem phaseBegin_keeps {k0 s : State} (x : PhaseRun) (hk : Keeps k0 s) : Keeps k0 (phaseBegin x s) := by
  unfold phaseBegin
  try dsimp only
  repeat' (first
    | with_reducible assumption | exact fun (_ : Core) hc => hc | intro _ | with_reducible apply setF_keeps
    | with_reducible apply modCore_keeps | with_reducible apply keeps_ite)

theorem phaseIssued_keeps {k0 : State} (lid : Nat) {r : Res} (hk : Keeps k0 r.1) : Keeps k0 (phaseIssued lid r) := by
  unfold phaseIssued
  try dsimp only
  repeat' (first
    | with_reducible assumption | exact fun (_ : Core) hc => hc | intro _ | with_reducible apply modCore_keeps
    | with_reducible apply used_keeps | with_reducible apply opFault_keeps | with_reducible apply advance_keeps
    | with_reducible apply flush_keeps | with_reducible apply keeps_ite | with_reducible apply keeps_ite_fst
    | with_reducible apply forAll_keeps | with_reducible apply forAll_keeps_fst
    | refine keeps_of_eq (by with_reducible assumption) ?_ | dsimp only | split)

theorem phaseBody_keeps {k0 s : State} (lid : Nat) (op : OpWord) (hk : Keeps k0 s) : Keeps k0 (phaseBody lid op s) := by
  unfold phaseBody
  try dsimp only
  repeat' (first
    | with_reducible assumption | intro _ | with_reducible apply opFault_keeps | with_reducible apply walkRes_keeps
    | with_reducible apply phaseBatch_keeps | with_reducible apply phaseBegin_keeps
    | with_reducible apply phaseIssued_keeps | with_reducible apply keeps_ite | with_reducible apply keeps_ite_fst
    | with_reducible apply forAll_keeps | with_reducible apply forAll_keeps_fst
    | refine keeps_of_eq (by with_reducible assumption) ?_ | dsimp only | split)

theorem suaPhaseOp_keeps {k0 s : State} (lid : Nat) (hk : Keeps k0 s) : Keeps k0 (suaPhaseOp lid s) := by
  unfold suaPhaseOp
  try dsimp only
  repeat' (first
    | with_reducible assumption | intro _ | with_reducible apply suaOp_keeps | with_reducible apply phaseBody_keeps)

theorem inboxApplied_keeps {k0 s : State} (lid : Nat) (hk : Keeps k0 s) : Keeps k0 (State.inboxApplied lid s) := by
  unfold State.inboxApplied
  try dsimp only
  repeat' (first
    | with_reducible assumption | intro _ | with_reducible apply modStop_keeps)

theorem updatesApplied_keeps {k0 s : State} (lid : Nat) (hk : Keeps k0 s) : Keeps k0 (State.updatesApplied lid s) := by
  unfold State.updatesApplied
  try dsimp only
  repeat' (first
    | with_reducible assumption | intro _ | with_reducible apply modStop_keeps)

theorem heldReleaseOp_keeps {k0 s : State} (lid : Nat) (hk : Keeps k0 s) : Keeps k0 (heldReleaseOp lid s) := by
  unfold heldReleaseOp
  try dsimp only
  repeat' (first
    | with_reducible assumption | exact fun (_ : Core) hc => hc | intro _ | with_reducible apply modCore_keeps
    | with_reducible apply releaseInbox_keeps | with_reducible apply inboxApplied_keeps
    | with_reducible apply keeps_ite | with_reducible apply keeps_ite_fst | with_reducible apply forAll_keeps
    | with_reducible apply forAll_keeps_fst | refine keeps_of_eq (by with_reducible assumption) ?_ | dsimp only
    | split)

theorem drainDeferred_keeps {k0 s : State} (lid : Nat) (hk : Keeps k0 s) : Keeps k0 (State.drainDeferred lid s) := by
  unfold State.drainDeferred
  try dsimp only
  repeat' (first
    | with_reducible assumption | exact fun (_ : Core) hc => hc | intro _ | with_reducible apply setF_keeps
    | with_reducible apply modCore_keeps | with_reducible apply addField_keeps
    | with_reducible apply countConflict_keeps | with_reducible apply keeps_ite | with_reducible apply keeps_ite_fst
    | with_reducible apply forAll_keeps)

theorem retirePhase_keeps {k0 s : State} (lid : Nat) (hk : Keeps k0 s) : Keeps k0 (State.retirePhase lid s) := by
  unfold State.retirePhase
  try dsimp only
  repeat' (first
    | with_reducible assumption | exact fun (_ : Core) hc => hc | intro _ | with_reducible apply modCore_keeps
    | with_reducible apply opDone_keeps | with_reducible apply holdFull_keeps
    | with_reducible apply presentArrivals_keeps | with_reducible apply flush_keeps | with_reducible apply keeps_ite)

theorem deferredApplyOp_keeps {k0 s : State} (lid : Nat) (hk : Keeps k0 s) : Keeps k0 (deferredApplyOp lid s) := by
  unfold deferredApplyOp
  try dsimp only
  repeat' (first
    | with_reducible assumption | intro _ | with_reducible apply updatesApplied_keeps
    | with_reducible apply drainDeferred_keeps | with_reducible apply retirePhase_keeps
    | with_reducible apply keeps_ite | with_reducible apply keeps_ite_fst | with_reducible apply forAll_keeps
    | with_reducible apply forAll_keeps_fst | refine keeps_of_eq (by with_reducible assumption) ?_ | dsimp only
    | split)

theorem setBetas_keeps {k0 s : State} (lid : Nat) (mask : Nat) (v : Nat) (hk : Keeps k0 s) : Keeps k0
    (State.setBetas lid mask v s) := by
  unfold State.setBetas
  try dsimp only
  repeat' (first
    | with_reducible assumption | intro _ | with_reducible apply setF_keeps | with_reducible apply keeps_ite
    | with_reducible apply keeps_ite_fst | with_reducible apply forAll_keeps)

theorem betaCurve_keeps {k0 s : State} (lid : Nat) (op : OpWord) (hk : Keeps k0 s) : Keeps k0 (betaCurve lid op s) := by
  unfold betaCurve
  try dsimp only
  repeat' (first
    | with_reducible assumption | intro _ | with_reducible apply opFault_keeps | with_reducible apply noteRead_keeps
    | with_reducible apply retire_keeps | with_reducible apply setBetas_keeps | with_reducible apply keeps_ite)

theorem suaBetaOp_keeps {k0 s : State} (lid : Nat) (hk : Keeps k0 s) : Keeps k0 (suaBetaOp lid s) := by
  unfold suaBetaOp
  try dsimp only
  repeat' (first
    | with_reducible assumption | intro _ | with_reducible apply opFault_keeps | with_reducible apply retire_keeps
    | with_reducible apply suaOp_keeps | with_reducible apply setBetas_keeps | with_reducible apply betaCurve_keeps
    | with_reducible apply keeps_ite)

theorem clampIn_keeps {k0 s : State} (lid : Nat) (i : Nat) (v : Bool) (r : Nat) (hk : Keeps k0 s) : Keeps k0
    (clampIn lid i v r s).1 := by
  unfold clampIn
  try dsimp only
  repeat' (first
    | with_reducible assumption | intro _ | with_reducible apply noteLace_keeps | with_reducible apply putState_keeps
    | with_reducible apply flip_keeps | with_reducible apply keeps_ite | with_reducible apply keeps_ite_fst)

theorem putClamp_keeps {k0 s : State} (lid : Nat) (w : Nat) (i : Nat) (b : Bool) (hk : Keeps k0 s) : Keeps k0
    (State.putClamp lid w i b s) := by
  unfold State.putClamp
  try dsimp only
  repeat' (first
    | with_reducible assumption | intro _ | with_reducible apply noteLace_keeps
    | with_reducible apply putLaceBit_keeps | with_reducible apply keeps_ite)

theorem clampRecord_keeps {k0 s : State} (lid : Nat) (mask : Nat) (a : Nat) (hk : Keeps k0 s) : Keeps k0
    (clampRecord lid mask a s).1 := by
  unfold clampRecord
  try dsimp only
  repeat' (first
    | with_reducible assumption | intro _ | with_reducible apply noteRead_keeps | with_reducible apply walkRes_keeps
    | with_reducible apply clampIn_keeps | with_reducible apply putClamp_keeps | with_reducible apply keeps_ite
    | with_reducible apply keeps_ite_fst)

theorem suaClampOp_keeps {k0 s : State} (lid : Nat) (hk : Keeps k0 s) : Keeps k0 (suaClampOp lid s) := by
  unfold suaClampOp
  try dsimp only
  repeat' (first
    | with_reducible assumption | intro _ | with_reducible apply opFault_keeps | with_reducible apply walkRes_keeps
    | with_reducible apply suaOp_keeps | with_reducible apply suaEnd_keeps | with_reducible apply clampRecord_keeps
    | with_reducible apply keeps_ite)

theorem snapPair_keeps {k0 s : State} (lid : Nat) (r : Nat) (first : Nat) (dest : Nat) (expanded : Bool)
    (k : Nat) (hk : Keeps k0 s) : Keeps k0 (snapPair lid r first dest expanded k s) := by
  unfold snapPair
  try dsimp only
  repeat' (first
    | with_reducible assumption | intro _ | with_reducible apply wr_keeps | with_reducible apply wrPoison_keeps
    | with_reducible apply noteLace_keeps | with_reducible apply keeps_ite)

theorem suaSnapOp_keeps {k0 s : State} (lid : Nat) (hk : Keeps k0 s) : Keeps k0 (suaSnapOp lid s) := by
  unfold suaSnapOp
  try dsimp only
  repeat' (first
    | with_reducible assumption | intro _ | with_reducible apply opFault_keeps | with_reducible apply retire_keeps
    | with_reducible apply suaOp_keeps | with_reducible apply snapPair_keeps | with_reducible apply keeps_ite
    | with_reducible apply keeps_ite_fst | with_reducible apply forAll_keeps)

theorem suaClrcountOp_keeps {k0 s : State} (lid : Nat) (hk : Keeps k0 s) : Keeps k0 (suaClrcountOp lid s) := by
  unfold suaClrcountOp
  try dsimp only
  repeat' (first
    | with_reducible assumption | intro _ | with_reducible apply opFault_keeps | with_reducible apply setLace_keeps
    | with_reducible apply retire_keeps | with_reducible apply suaOp_keeps | with_reducible apply keeps_ite
    | with_reducible apply keeps_ite_fst | with_reducible apply forAll_keeps)

end Sys2Proof.Machine
end

