-- ==== Sys2Proof/Laws/KeepsRun.lean ====
section
/-!
SUPPORT. What the operations of Machine/Run.lean keep (`Keeps`): one lemma each.
-/
namespace Sys2Proof.Machine

theorem suaSweepOp_keeps {k0 s : State} (lid : Nat) (hk : Keeps k0 s) : Keeps k0 (suaSweepOp lid s) := by
  unfold suaSweepOp
  try dsimp only
  repeat' (first
    | with_reducible assumption | intro _ | with_reducible apply setF_keeps | with_reducible apply opFault_keeps
    | with_reducible apply retire_keeps | with_reducible apply suaOp_keeps | with_reducible apply keeps_ite)

theorem bothTaps_keeps {k0 s : State} (d : Nat) (m : SyncMsg) (hk : Keeps k0 s) : Keeps k0 (State.bothTaps d m s) := by
  unfold State.bothTaps
  try dsimp only
  repeat' (first
    | with_reducible assumption | intro _ | with_reducible apply modDie_keeps)

theorem broadcast_keeps {k0 s : State} (p : Nat) (m : SyncMsg) (hk : Keeps k0 s) : Keeps k0
    (State.broadcast p m s) := by
  unfold State.broadcast
  try dsimp only
  repeat' (first
    | with_reducible assumption | intro _ | with_reducible apply bothTaps_keeps | with_reducible apply keeps_ite
    | with_reducible apply keeps_ite_fst | with_reducible apply forAll_keeps)

theorem leaderResult_keeps {k0 s : State} (p : Nat) (hk : Keeps k0 s) : Keeps k0 (State.leaderResult p s) := by
  unfold State.leaderResult
  try dsimp only
  repeat' (first
    | with_reducible assumption | intro _ | with_reducible apply setF_keeps | with_reducible apply modPart_keeps
    | with_reducible apply broadcast_keeps | with_reducible apply keeps_ite)

theorem suaResultOp_keeps {k0 s : State} (lid : Nat) (hk : Keeps k0 s) : Keeps k0 (suaResultOp lid s) := by
  unfold suaResultOp
  try dsimp only
  repeat' (first
    | with_reducible assumption | exact fun (_ : Core) hc => hc | intro _ | with_reducible apply setF_keeps
    | with_reducible apply modCore_keeps | with_reducible apply retire_keeps | with_reducible apply suaOp_keeps
    | with_reducible apply leaderResult_keeps | with_reducible apply keeps_ite | with_reducible apply keeps_ite_fst
    | with_reducible apply forAll_keeps | with_reducible apply forAll_keeps_fst
    | refine keeps_of_eq (by with_reducible assumption) ?_ | dsimp only | split)

theorem zeroWord_keeps {k0 s : State} (lid : Nat) (r : Nat) (k : Nat) (hk : Keeps k0 s) : Keeps k0
    (zeroWord lid r k s) := by
  unfold zeroWord
  try dsimp only
  repeat' (first
    | with_reducible assumption | intro _ | with_reducible apply setLace_keeps | with_reducible apply noteLace_keeps)

theorem hotGroup_keeps {k0 s : State} (lid : Nat) (r : Nat) (g : Nat) (hk : Keeps k0 s) : Keeps k0
    (hotGroup lid r g s).1 := by
  unfold hotGroup
  try dsimp only
  repeat' (first
    | with_reducible assumption | intro _ | with_reducible apply noteLace_keeps | with_reducible apply putState_keeps
    | with_reducible apply keeps_ite | with_reducible apply keeps_ite_fst)

theorem fieldToBias_keeps {k0 s : State} (lid : Nat) (r : Nat) (i : Nat) (hk : Keeps k0 s) : Keeps k0
    (fieldToBias lid r i s) := by
  unfold fieldToBias
  try dsimp only
  repeat' (first
    | with_reducible assumption | intro _ | with_reducible apply setLace_keeps | with_reducible apply keeps_ite)

theorem resetReplica_keeps {k0 s : State} (lid : Nat) (zero : Bool) (r : Nat) (hk : Keeps k0 s) : Keeps k0
    (resetReplica lid zero r s).1 := by
  unfold resetReplica
  try dsimp only
  repeat' (first
    | with_reducible assumption | intro _ | with_reducible apply noteRead_keeps | with_reducible apply on_keeps
    | with_reducible apply walkRes_keeps | with_reducible apply zeroWord_keeps | with_reducible apply hotGroup_keeps
    | with_reducible apply fieldToBias_keeps | with_reducible apply keeps_ite | with_reducible apply keeps_ite_fst
    | with_reducible apply forAll_keeps)

theorem restartReset_keeps {k0 s : State} (lid : Nat) (op : OpWord) (hk : Keeps k0 s) : Keeps k0
    (restartReset lid op s) := by
  unfold restartReset
  try dsimp only
  repeat' (first
    | with_reducible assumption | intro _ | with_reducible apply setF_keeps | with_reducible apply walkRes_keeps
    | with_reducible apply suaEnd_keeps | with_reducible apply resetReplica_keeps | with_reducible apply keeps_ite)

theorem replayReplica_keeps {k0 s : State} (lid : Nat) (r : Nat) (hk : Keeps k0 s) : Keeps k0
    (replayReplica lid r s).1 := by
  unfold replayReplica
  try dsimp only
  repeat' (first
    | with_reducible assumption | intro _ | with_reducible apply noteLace_keeps | with_reducible apply walkRes_keeps
    | with_reducible apply flip_keeps | with_reducible apply keeps_ite | with_reducible apply keeps_ite_fst
    | with_reducible apply forAll_keeps)

theorem retireReplay_keeps {k0 s : State} (lid : Nat) (hk : Keeps k0 s) : Keeps k0 (State.retireReplay lid s) := by
  unfold State.retireReplay
  try dsimp only
  repeat' (first
    | with_reducible assumption | exact fun (_ : Core) hc => hc | intro _ | with_reducible apply modCore_keeps
    | with_reducible apply retire_keeps | with_reducible apply holdFull_keeps | with_reducible apply flush_keeps
    | with_reducible apply keeps_ite)

theorem restartReplay_keeps {k0 s : State} (lid : Nat) (op : OpWord) (hk : Keeps k0 s) : Keeps k0
    (restartReplay lid op s) := by
  unfold restartReplay
  try dsimp only
  repeat' (first
    | with_reducible assumption | intro _ | with_reducible apply opFault_keeps | with_reducible apply walkRes_keeps
    | with_reducible apply flush_keeps | with_reducible apply replayReplica_keeps
    | with_reducible apply retireReplay_keeps | with_reducible apply keeps_ite | with_reducible apply keeps_ite_fst
    | with_reducible apply forAll_keeps | with_reducible apply forAll_keeps_fst
    | refine keeps_of_eq (by with_reducible assumption) ?_ | dsimp only | split)

theorem restartOp_keeps {k0 s : State} (lid : Nat) (step : Bool) {f : OpWord → State → State} (hf : ∀ x0 u, Keeps k0 u
    → Keeps k0 (f x0 u)) (hk : Keeps k0 s) : Keeps k0 (restartOp lid step f s) := by
  unfold restartOp
  try dsimp only
  repeat' (first
    | with_reducible assumption | intro _ | with_reducible apply hf | with_reducible apply opFault_keeps
    | with_reducible apply issueOp_keeps | with_reducible apply keeps_ite)

theorem restartResetOp_keeps {k0 s : State} (lid : Nat) (hk : Keeps k0 s) : Keeps k0 (restartResetOp lid s) := by
  unfold restartResetOp
  try dsimp only
  repeat' (first
    | with_reducible assumption | intro _ | with_reducible apply restartReset_keeps
    | with_reducible apply restartOp_keeps)

theorem restartReplayOp_keeps {k0 s : State} (lid : Nat) (hk : Keeps k0 s) : Keeps k0 (restartReplayOp lid s) := by
  unfold restartReplayOp
  try dsimp only
  repeat' (first
    | with_reducible assumption | intro _ | with_reducible apply restartReplay_keeps
    | with_reducible apply restartOp_keeps)

end Sys2Proof.Machine
end

