-- ==== Sys2Proof/Laws/KeepsMac.lean ====
section
/-!
SUPPORT. What the operations of Machine/Mac.lean keep (`Keeps`): one lemma each.
-/
namespace Sys2Proof.Machine

theorem macTileOp_keeps {k0 s : State} (lid : Nat) (hk : Keeps k0 s) : Keeps k0 (macTileOp lid s) := by
  unfold macTileOp
  try dsimp only
  repeat' (first
    | with_reducible assumption | exact fun (_ : Core) hc => hc | intro _ | with_reducible apply modCore_keeps
    | with_reducible apply opFault_keeps | with_reducible apply issue_keeps | with_reducible apply retire_keeps
    | with_reducible apply keeps_ite)

theorem setBank_keeps {k0 s : State} (lid : Nat) (b : Nat) (k : Bank) (hk : Keeps k0 s) : Keeps k0
    (State.setBank lid b k s) := by
  unfold State.setBank
  try dsimp only
  repeat' (first
    | with_reducible assumption | exact fun (_ : Core) hc => hc | intro _ | with_reducible apply modCore_keeps)

theorem mmReads_keeps {k0 s : State} (lid : Nat) (p : MacParams) (op : OpWord) (hk : Keeps k0 s) : Keeps k0
    (mmReads lid p op s) := by
  unfold mmReads
  try dsimp only
  repeat' (first
    | with_reducible assumption | intro _ | with_reducible apply noteRead_keeps | with_reducible apply keeps_ite
    | with_reducible apply keeps_ite_fst | with_reducible apply forAll_keeps)

theorem pushFlags_keeps {k0 s : State} (lid : Nat) (b : Nat) (x : Push) (hk : Keeps k0 s) : Keeps k0
    (pushFlags lid b x s) := by
  unfold pushFlags
  try dsimp only
  repeat' (first
    | with_reducible assumption | intro _ | with_reducible apply setF_keeps | with_reducible apply on_keeps
    | with_reducible apply keeps_ite)

theorem openBank_keeps {k0 s : State} (lid : Nat) (b : Nat) (p : MacParams) (hk : Keeps k0 s) : Keeps k0
    (openBank lid b p s) := by
  unfold openBank
  try dsimp only
  repeat' (first
    | with_reducible assumption | intro _ | with_reducible apply set64_keeps | with_reducible apply setF_keeps)

theorem mmPush_keeps {k0 s : State} (lid : Nat) (b : Nat) (p : MacParams) (op : OpWord) (hk : Keeps k0 s) : Keeps k0
    (mmPush lid b p op s) := by
  unfold mmPush
  try dsimp only
  repeat' (first
    | with_reducible assumption | intro _ | with_reducible apply setF_keeps | with_reducible apply incF_keeps
    | with_reducible apply addFree_keeps | with_reducible apply retire_keeps | with_reducible apply blocks_keeps
    | with_reducible apply setBank_keeps | with_reducible apply mmReads_keeps | with_reducible apply pushFlags_keeps
    | with_reducible apply openBank_keeps | with_reducible apply keeps_ite)

theorem macMmOp_keeps {k0 s : State} (lid : Nat) (hk : Keeps k0 s) : Keeps k0 (macMmOp lid s) := by
  unfold macMmOp
  try dsimp only
  repeat' (first
    | with_reducible assumption | intro _ | with_reducible apply opFault_keeps | with_reducible apply issue_keeps
    | with_reducible apply mmPush_keeps | with_reducible apply keeps_ite | with_reducible apply keeps_ite_fst
    | with_reducible apply forAll_keeps | with_reducible apply forAll_keeps_fst
    | refine keeps_of_eq (by with_reducible assumption) ?_ | dsimp only | split)

theorem macDrainOp_keeps {k0 s : State} (lid : Nat) (hk : Keeps k0 s) : Keeps k0 (macDrainOp lid s) := by
  unfold macDrainOp
  try dsimp only
  repeat' (first
    | with_reducible assumption | exact fun (_ : Core) hc => hc | intro _ | with_reducible apply setF_keeps
    | with_reducible apply modCore_keeps | with_reducible apply opFault_keeps | with_reducible apply issue_keeps
    | with_reducible apply advance_keeps | with_reducible apply keeps_ite | with_reducible apply keeps_ite_fst
    | with_reducible apply forAll_keeps | with_reducible apply forAll_keeps_fst
    | refine keeps_of_eq (by with_reducible assumption) ?_ | dsimp only | split)

theorem drainRow_keeps {k0 s : State} (lid : Nat) (k : Bank) (poison : Bool) (d : Drain) (i : Nat) (hk : Keeps k0 s) :
    Keeps k0 (drainRow lid k poison d i s) := by
  unfold drainRow
  try dsimp only
  repeat' (first
    | with_reducible assumption | intro _ | with_reducible apply setF_keeps | with_reducible apply wr_keeps
    | with_reducible apply wrPoison_keeps | with_reducible apply blocks_keeps | with_reducible apply keeps_ite)

theorem drainLace_keeps {k0 s : State} (lid : Nat) (k : Bank) (poison : Bool) (d : Drain) (e : Nat × Nat)
    (hk : Keeps k0 s) : Keeps k0 (drainLace lid k poison d e s) := by
  unfold drainLace
  try dsimp only
  repeat' (first
    | with_reducible assumption | intro _ | with_reducible apply setF_keeps | with_reducible apply incF_keeps
    | with_reducible apply wrPoison_keeps | with_reducible apply setLace_keeps | with_reducible apply addField_keeps
    | with_reducible apply keeps_ite)

theorem drainWrite_keeps {k0 s : State} (lid : Nat) (d : Drain) (i : Nat) (hk : Keeps k0 s) : Keeps k0
    (drainWrite lid d i s) := by
  unfold drainWrite
  try dsimp only
  repeat' (first
    | with_reducible assumption | intro _ | with_reducible apply setF_keeps | with_reducible apply blocks_keeps
    | with_reducible apply drainRow_keeps | with_reducible apply drainLace_keeps | with_reducible apply keeps_ite
    | with_reducible apply keeps_ite_fst | with_reducible apply forAll_keeps)

theorem drainReadOp_keeps {k0 s : State} (lid : Nat) (hk : Keeps k0 s) : Keeps k0 (drainReadOp lid s) := by
  unfold drainReadOp
  try dsimp only
  repeat' (first
    | with_reducible assumption | exact fun (_ : Core) hc => hc | intro _ | with_reducible apply setF_keeps
    | with_reducible apply incF_keeps | with_reducible apply modCore_keeps | with_reducible apply addFree_keeps
    | with_reducible apply opFault_keeps | with_reducible apply opDone_keeps | with_reducible apply drainWrite_keeps
    | with_reducible apply keeps_ite | with_reducible apply keeps_ite_fst | with_reducible apply forAll_keeps
    | with_reducible apply forAll_keeps_fst | refine keeps_of_eq (by with_reducible assumption) ?_ | dsimp only
    | split)

end Sys2Proof.Machine
end

