-- ==== Sys2Proof/Laws/KeepsVec.lean ====
section
/-!
SUPPORT. What the operations of Machine/Vec.lean keep (`Keeps`): one lemma each.
-/
namespace Sys2Proof.Machine

theorem setLane_keeps {k0 s : State} (lid : Nat) (r : Nat) (l : Nat) (v : W32) (hk : Keeps k0 s) : Keeps k0
    (State.setLane lid r l v s) := by
  unfold State.setLane
  try dsimp only
  repeat' (first
    | with_reducible assumption | exact fun (_ : Core) hc => hc | intro _ | with_reducible apply modCore_keeps)

theorem setReg_keeps {k0 s : State} (lid : Nat) (r : Nat) (vs : List W32) (hk : Keeps k0 s) : Keeps k0
    (State.setReg lid r vs s) := by
  unfold State.setReg
  try dsimp only
  repeat' (first
    | with_reducible assumption | intro _ | with_reducible apply setLane_keeps | with_reducible apply keeps_ite
    | with_reducible apply keeps_ite_fst | with_reducible apply forAll_keeps)

theorem setPairBits_keeps {k0 s : State} (lid : Nat) (r : Nat) (p : Nat) (v : W64) (hk : Keeps k0 s) : Keeps k0
    (State.setPairBits lid r p v s) := by
  unfold State.setPairBits
  try dsimp only
  repeat' (first
    | with_reducible assumption | intro _ | with_reducible apply setLane_keeps)

theorem setPair_keeps {k0 s : State} (lid : Nat) (r : Nat) (p : Nat) (v : Int) (hk : Keeps k0 s) : Keeps k0
    (State.setPair lid r p v s) := by
  unfold State.setPair
  try dsimp only
  repeat' (first
    | with_reducible assumption | intro _ | with_reducible apply setPairBits_keeps)

theorem vecOp_keeps {k0 s : State} (lid : Nat) (code : Nat) (fields : List (Nat × Nat)) {f : OpWord → State → State}
    (hf : ∀ x0 u, Keeps k0 u → Keeps k0 (f x0 u)) (hk : Keeps k0 s) : Keeps k0 (State.vecOp lid code fields f s) := by
  unfold State.vecOp
  try dsimp only
  repeat' (first
    | with_reducible assumption | intro _ | with_reducible apply hf | with_reducible apply opFault_keeps
    | with_reducible apply issue_keeps | with_reducible apply keeps_ite)

theorem vecEnd_keeps {k0 s : State} (lid : Nat) (hk : Keeps k0 s) : Keeps k0 (State.vecEnd lid s) := by
  unfold State.vecEnd
  try dsimp only
  repeat' (first
    | with_reducible assumption | intro _ | with_reducible apply incF_keeps | with_reducible apply addFree_keeps
    | with_reducible apply retire_keeps)

theorem vecRun_keeps {k0 s : State} (lid : Nat) (bad : Option Nat) {f : State → State} (hf : ∀  u, Keeps k0 u → Keeps
    k0 (f u)) (hk : Keeps k0 s) : Keeps k0 (State.vecRun lid bad f s) := by
  unfold State.vecRun
  try dsimp only
  repeat' (first
    | with_reducible assumption | intro _ | with_reducible apply hf | with_reducible apply opFault_keeps
    | with_reducible apply vecEnd_keeps | with_reducible apply keeps_ite | with_reducible apply keeps_ite_fst
    | with_reducible apply forAll_keeps | with_reducible apply forAll_keeps_fst
    | refine keeps_of_eq (by with_reducible assumption) ?_ | dsimp only | split)

theorem flagIf_keeps {k0 s : State} (f : Fld) (on : Bool) (hk : Keeps k0 s) : Keeps k0 (State.flagIf f on s) := by
  unfold State.flagIf
  try dsimp only
  repeat' (first
    | with_reducible assumption | intro _ | with_reducible apply setF_keeps | with_reducible apply on_keeps
    | with_reducible apply keeps_ite)

theorem vecReads_keeps {k0 s : State} (lid : Nat) (a : Nat) (n : Nat) (hk : Keeps k0 s) : Keeps k0
    (State.vecReads lid a n s) := by
  unfold State.vecReads
  try dsimp only
  repeat' (first
    | with_reducible assumption | intro _ | with_reducible apply noteRead_keeps | with_reducible apply flagIf_keeps)

theorem vecReadsLace_keeps {k0 s : State} (lid : Nat) (a : Nat) (n : Nat) (hk : Keeps k0 s) : Keeps k0
    (State.vecReadsLace lid a n s) := by
  unfold State.vecReadsLace
  try dsimp only
  repeat' (first
    | with_reducible assumption | intro _ | with_reducible apply noteLace_keeps | with_reducible apply flagIf_keeps
    | with_reducible apply keeps_ite | with_reducible apply keeps_ite_fst | with_reducible apply forAll_keeps)

theorem fpFlags_keeps {k0 s : State} (lid : Nat) (ls : List FpLane) (hk : Keeps k0 s) : Keeps k0
    (fpFlags lid ls s) := by
  unfold fpFlags
  try dsimp only
  repeat' (first
    | with_reducible assumption | intro _ | with_reducible apply flagIf_keeps)

theorem vecLdtOp_keeps {k0 s : State} (lid : Nat) (hk : Keeps k0 s) : Keeps k0 (vecLdtOp lid s) := by
  unfold vecLdtOp
  try dsimp only
  repeat' (first
    | with_reducible assumption | intro _ | with_reducible apply setReg_keeps | with_reducible apply vecOp_keeps
    | with_reducible apply vecRun_keeps | with_reducible apply vecReads_keeps | with_reducible apply keeps_ite
    | with_reducible apply keeps_ite_fst | with_reducible apply forAll_keeps)

theorem vecLdlOp_keeps {k0 s : State} (lid : Nat) (hk : Keeps k0 s) : Keeps k0 (vecLdlOp lid s) := by
  unfold vecLdlOp
  try dsimp only
  repeat' (first
    | with_reducible assumption | intro _ | with_reducible apply setReg_keeps | with_reducible apply vecOp_keeps
    | with_reducible apply vecRun_keeps | with_reducible apply vecReadsLace_keeps | with_reducible apply keeps_ite
    | with_reducible apply keeps_ite_fst | with_reducible apply forAll_keeps)

theorem vecSttOp_keeps {k0 s : State} (lid : Nat) (hk : Keeps k0 s) : Keeps k0 (vecSttOp lid s) := by
  unfold vecSttOp
  try dsimp only
  repeat' (first
    | with_reducible assumption | intro _ | with_reducible apply wr_keeps | with_reducible apply vecOp_keeps
    | with_reducible apply vecRun_keeps | with_reducible apply fpFlags_keeps | with_reducible apply keeps_ite
    | with_reducible apply keeps_ite_fst | with_reducible apply forAll_keeps)

theorem vecStlOp_keeps {k0 s : State} (lid : Nat) (hk : Keeps k0 s) : Keeps k0 (vecStlOp lid s) := by
  unfold vecStlOp
  try dsimp only
  repeat' (first
    | with_reducible assumption | intro _ | with_reducible apply setLace_keeps | with_reducible apply vecOp_keeps
    | with_reducible apply vecRun_keeps | with_reducible apply keeps_ite | with_reducible apply keeps_ite_fst
    | with_reducible apply forAll_keeps)

theorem aluLanes_keeps {k0 s : State} (lid : Nat) (op : OpWord) (hk : Keeps k0 s) : Keeps k0 (aluLanes lid op s) := by
  unfold aluLanes
  try dsimp only
  repeat' (first
    | with_reducible assumption | intro _ | with_reducible apply setReg_keeps | with_reducible apply flagIf_keeps)

theorem aluPairs_keeps {k0 s : State} (lid : Nat) (op : OpWord) (hk : Keeps k0 s) : Keeps k0 (aluPairs lid op s) := by
  unfold aluPairs
  try dsimp only
  repeat' (first
    | with_reducible assumption | intro _ | with_reducible apply setPairBits_keeps | with_reducible apply flagIf_keeps
    | with_reducible apply keeps_ite | with_reducible apply keeps_ite_fst | with_reducible apply forAll_keeps)

theorem aluMulw_keeps {k0 s : State} (lid : Nat) (op : OpWord) (hk : Keeps k0 s) : Keeps k0 (aluMulw lid op s) := by
  unfold aluMulw
  try dsimp only
  repeat' (first
    | with_reducible assumption | intro _ | with_reducible apply setPair_keeps | with_reducible apply keeps_ite
    | with_reducible apply keeps_ite_fst | with_reducible apply forAll_keeps)

theorem vecAluOp_keeps {k0 s : State} (lid : Nat) (hk : Keeps k0 s) : Keeps k0 (vecAluOp lid s) := by
  unfold vecAluOp
  try dsimp only
  repeat' (first
    | with_reducible assumption | intro _ | with_reducible apply vecOp_keeps | with_reducible apply vecRun_keeps
    | with_reducible apply aluLanes_keeps | with_reducible apply aluPairs_keeps | with_reducible apply aluMulw_keeps
    | with_reducible apply keeps_ite | with_reducible apply keeps_ite_fst | with_reducible apply forAll_keeps
    | with_reducible apply forAll_keeps_fst | refine keeps_of_eq (by with_reducible assumption) ?_ | dsimp only
    | split)

theorem vecFpuOp_keeps {k0 s : State} (lid : Nat) (hk : Keeps k0 s) : Keeps k0 (vecFpuOp lid s) := by
  unfold vecFpuOp
  try dsimp only
  repeat' (first
    | with_reducible assumption | intro _ | with_reducible apply setReg_keeps | with_reducible apply vecOp_keeps
    | with_reducible apply vecRun_keeps | with_reducible apply fpFlags_keeps)

end Sys2Proof.Machine
end

