-- ==== Sys2Proof/Laws/KeepsVecSum.lean ====
section
/-!
SUPPORT. What the operations of Machine/VecSum.lean keep (`Keeps`): one lemma each.
-/
namespace Sys2Proof.Machine

theorem vecRsumOp_keeps {k0 s : State} (lid : Nat) (hk : Keeps k0 s) : Keeps k0 (vecRsumOp lid s) := by
  unfold vecRsumOp
  try dsimp only
  repeat' (first
    | with_reducible assumption | intro _ | with_reducible apply setPair_keeps | with_reducible apply vecOp_keeps
    | with_reducible apply vecRun_keeps | with_reducible apply flagIf_keeps | with_reducible apply vecReads_keeps)

theorem vecRsumfOp_keeps {k0 s : State} (lid : Nat) (hk : Keeps k0 s) : Keeps k0 (vecRsumfOp lid s) := by
  unfold vecRsumfOp
  try dsimp only
  repeat' (first
    | with_reducible assumption | intro _ | with_reducible apply setLane_keeps | with_reducible apply vecOp_keeps
    | with_reducible apply vecRun_keeps | with_reducible apply vecReads_keeps | with_reducible apply fpFlags_keeps)

theorem putCand_keeps {k0 s : State} (lid : Nat) (d : Nat) (c : Cand) (hk : Keeps k0 s) : Keeps k0
    (putCand lid d c s) := by
  unfold putCand
  try dsimp only
  repeat' (first
    | with_reducible assumption | intro _ | with_reducible apply setLane_keeps
    | with_reducible apply setPairBits_keeps)

theorem fpReduce_keeps {k0 s : State} (lid : Nat) (hi : Bool) (op : OpWord) (hk : Keeps k0 s) : Keeps k0
    (fpReduce lid hi op s) := by
  unfold fpReduce
  try dsimp only
  repeat' (first
    | with_reducible assumption | intro _ | with_reducible apply used_keeps | with_reducible apply setLane_keeps
    | with_reducible apply fpFlags_keeps | with_reducible apply putCand_keeps | with_reducible apply keeps_ite
    | with_reducible apply keeps_ite_fst | with_reducible apply forAll_keeps | with_reducible apply forAll_keeps_fst
    | refine keeps_of_eq (by with_reducible assumption) ?_ | dsimp only | split)

theorem vecExtremeOp_keeps {k0 s : State} (lid : Nat) (code : Nat) (hi : Bool) (hk : Keeps k0 s) : Keeps k0
    (vecExtremeOp lid code hi s) := by
  unfold vecExtremeOp
  try dsimp only
  repeat' (first
    | with_reducible assumption | intro _ | with_reducible apply vecOp_keeps | with_reducible apply vecRun_keeps
    | with_reducible apply vecReads_keeps | with_reducible apply putCand_keeps | with_reducible apply fpReduce_keeps
    | with_reducible apply keeps_ite | with_reducible apply keeps_ite_fst | with_reducible apply forAll_keeps
    | with_reducible apply forAll_keeps_fst | refine keeps_of_eq (by with_reducible assumption) ?_ | dsimp only
    | split)

theorem vecRmaxOp_keeps {k0 s : State} (lid : Nat) (hk : Keeps k0 s) : Keeps k0 (vecRmaxOp lid s) := by
  unfold vecRmaxOp
  try dsimp only
  repeat' (first
    | with_reducible assumption | intro _ | with_reducible apply vecExtremeOp_keeps)

theorem vecRminOp_keeps {k0 s : State} (lid : Nat) (hk : Keeps k0 s) : Keeps k0 (vecRminOp lid s) := by
  unfold vecRminOp
  try dsimp only
  repeat' (first
    | with_reducible assumption | intro _ | with_reducible apply vecExtremeOp_keeps)

theorem setPsb_keeps {k0 s : State} (lid : Nat) (t : Nat) (v : Int) (hk : Keeps k0 s) : Keeps k0
    (State.setPsb lid t v s) := by
  unfold State.setPsb
  try dsimp only
  repeat' (first
    | with_reducible assumption | exact fun (_ : Core) hc => hc | intro _ | with_reducible apply modCore_keeps)

theorem applyPartial_keeps {k0 s : State} (lid : Nat) (tag : Nat) (ctr : Nat) (contrib : Nat) (v : Int)
    (hk : Keeps k0 s) : Keeps k0 (State.applyPartial lid tag ctr contrib v s) := by
  unfold State.applyPartial
  try dsimp only
  repeat' (first
    | with_reducible assumption | intro _ | with_reducible apply remoteAdd_keeps | with_reducible apply setPsb_keeps)

theorem applyPartials_keeps {k0 s : State} (lid ctr contrib tag : Nat) (l : List (BitVec 96)) (hk : Keeps k0 s) :
    Keeps k0 (State.applyPartials lid ctr contrib tag l s) := by
  induction l generalizing s tag with
  | nil => exact hk
  | cons x l ih => exact ih _ (applyPartial_keeps _ _ _ _ _ hk)

theorem psendFlits_keeps {k0 s : State} (lid : Nat) (op : OpWord) (hk : Keeps k0 s) : Keeps k0
    (psendFlits lid op s) := by
  unfold psendFlits
  try dsimp only
  repeat' (first
    | with_reducible assumption | intro _ | with_reducible apply toFifo_keeps | with_reducible apply keeps_ite
    | with_reducible apply keeps_ite_fst | with_reducible apply forAll_keeps)

theorem vecPsendOp_keeps {k0 s : State} (lid : Nat) (hk : Keeps k0 s) : Keeps k0 (vecPsendOp lid s) := by
  unfold vecPsendOp
  try dsimp only
  repeat' (first
    | with_reducible assumption | intro _ | with_reducible apply holdFull_keeps | with_reducible apply vecOp_keeps
    | with_reducible apply vecRun_keeps | with_reducible apply applyPartials_keeps
    | with_reducible apply psendFlits_keeps | with_reducible apply keeps_ite)

theorem readPsb_keeps {k0 s : State} (lid : Nat) (d : Nat) (tag : Nat) (p : Nat) (hk : Keeps k0 s) : Keeps k0
    (readPsb lid d tag p s) := by
  unfold readPsb
  try dsimp only
  repeat' (first
    | with_reducible assumption | intro _ | with_reducible apply setPair_keeps | with_reducible apply flagIf_keeps
    | with_reducible apply setPsb_keeps)

theorem vecPreadOp_keeps {k0 s : State} (lid : Nat) (hk : Keeps k0 s) : Keeps k0 (vecPreadOp lid s) := by
  unfold vecPreadOp
  try dsimp only
  repeat' (first
    | with_reducible assumption | intro _ | with_reducible apply vecOp_keeps | with_reducible apply vecRun_keeps
    | with_reducible apply readPsb_keeps | with_reducible apply keeps_ite | with_reducible apply keeps_ite_fst
    | with_reducible apply forAll_keeps)

end Sys2Proof.Machine
end

