-- ==== Sys2Proof/Laws/KeepsVecRun.lean ====
section
/-!
SUPPORT. What the operations of Machine/VecRun.lean keep (`Keeps`): one lemma each.
-/
namespace Sys2Proof.Machine

theorem vecEnergyOp_keeps {k0 s : State} (lid : Nat) (hk : Keeps k0 s) : Keeps k0 (vecEnergyOp lid s) := by
  unfold vecEnergyOp
  try dsimp only
  repeat' (first
    | with_reducible assumption | intro _ | with_reducible apply noteRead_keeps | with_reducible apply noteLace_keeps
    | with_reducible apply setPairBits_keeps | with_reducible apply setPair_keeps | with_reducible apply vecOp_keeps
    | with_reducible apply vecRun_keeps | with_reducible apply flagIf_keeps | with_reducible apply keeps_ite
    | with_reducible apply keeps_ite_fst | with_reducible apply forAll_keeps)

theorem efinOne_keeps {k0 s : State} (lid : Nat) (d : Nat) (r : Nat) (p : Int) (w : W64) (hk : Keeps k0 s) : Keeps k0
    (efinOne lid d r p w s) := by
  unfold efinOne
  try dsimp only
  repeat' (first
    | with_reducible assumption | intro _ | with_reducible apply setPairBits_keeps
    | with_reducible apply setPair_keeps | with_reducible apply flagIf_keeps)

theorem vecEfinOp_keeps {k0 s : State} (lid : Nat) (hk : Keeps k0 s) : Keeps k0 (vecEfinOp lid s) := by
  unfold vecEfinOp
  try dsimp only
  repeat' (first
    | with_reducible assumption | intro _ | with_reducible apply vecOp_keeps | with_reducible apply vecRun_keeps
    | with_reducible apply efinOne_keeps | with_reducible apply keeps_ite | with_reducible apply keeps_ite_fst
    | with_reducible apply forAll_keeps)

theorem vecXchgOp_keeps {k0 s : State} (lid : Nat) (hk : Keeps k0 s) : Keeps k0 (vecXchgOp lid s) := by
  unfold vecXchgOp
  try dsimp only
  repeat' (first
    | with_reducible assumption | intro _ | with_reducible apply incF_keeps | with_reducible apply blocks_keeps
    | with_reducible apply setLane_keeps | with_reducible apply vecOp_keeps | with_reducible apply vecRun_keeps)

theorem swapWord_keeps {k0 s : State} (lid : Nat) (exchange : Bool) (x : Nat) (y : Nat) (hk : Keeps k0 s) : Keeps k0
    (swapWord lid exchange x y s) := by
  unfold swapWord
  try dsimp only
  repeat' (first
    | with_reducible assumption | intro _ | with_reducible apply setLace_keeps)

theorem swapPair_keeps {k0 s : State} (lid : Nat) (a : Nat) (exchange : Bool) (hk : Keeps k0 s) : Keeps k0
    (swapPair lid a exchange s) := by
  unfold swapPair
  try dsimp only
  repeat' (first
    | with_reducible assumption | intro _ | with_reducible apply vecReadsLace_keeps
    | with_reducible apply swapWord_keeps | with_reducible apply keeps_ite | with_reducible apply keeps_ite_fst
    | with_reducible apply forAll_keeps)

theorem vecSwapOp_keeps {k0 s : State} (lid : Nat) (hk : Keeps k0 s) : Keeps k0 (vecSwapOp lid s) := by
  unfold vecSwapOp
  try dsimp only
  repeat' (first
    | with_reducible assumption | intro _ | with_reducible apply vecOp_keeps | with_reducible apply vecRun_keeps
    | with_reducible apply swapPair_keeps | with_reducible apply keeps_ite | with_reducible apply keeps_ite_fst
    | with_reducible apply forAll_keeps)

theorem bestkOp_keeps {k0 s : State} (lid : Nat) (clear : Bool) (emit : Bool) (fields : List (Nat × Nat)) {f : OpWord
    → State → State} (hf : ∀ x0 u, Keeps k0 u → Keeps k0 (f x0 u)) (hk : Keeps k0 s) : Keeps k0 (bestkOp lid clear
    emit fields f s) := by
  unfold bestkOp
  try dsimp only
  repeat' (first
    | with_reducible assumption | intro _ | with_reducible apply hf | with_reducible apply emit_keeps
    | with_reducible apply opFault_keeps | with_reducible apply issueOp_keeps | with_reducible apply keeps_ite)

theorem listAt_keeps {k0 s : State} (lid : Nat) (l : Nat) (hk : Keeps k0 s) : Keeps k0 (listAt lid l s) := by
  unfold listAt
  try dsimp only
  repeat' (first
    | with_reducible assumption | exact fun (_ : Core) hc => hc | intro _ | with_reducible apply modCore_keeps)

theorem bestkClearOp_keeps {k0 s : State} (lid : Nat) (hk : Keeps k0 s) : Keeps k0 (bestkClearOp lid s) := by
  unfold bestkClearOp
  try dsimp only
  repeat' (first
    | with_reducible assumption | intro _ | with_reducible apply wr_keeps | with_reducible apply vecRun_keeps
    | with_reducible apply bestkOp_keeps | with_reducible apply listAt_keeps)

theorem writeSlot_keeps {k0 s : State} (lid : Nat) (l : Nat) (j : Nat) (r : Nat) (e : Int) (conflict : Bool)
    (deadline : Bool) (hk : Keeps k0 s) : Keeps k0 (writeSlot lid l j r e conflict deadline s) := by
  unfold writeSlot
  try dsimp only
  repeat' (first
    | with_reducible assumption | intro _ | with_reducible apply wr_keeps)

theorem admitOne_keeps {k0 s : State} (lid : Nat) (op : OpWord) (r : Nat) (e : Int) (w : W64) (hk : Keeps k0 s) :
    Keeps k0 (admitOne lid op r e w s) := by
  unfold admitOne
  try dsimp only
  repeat' (first
    | with_reducible assumption | intro _ | with_reducible apply setLane_keeps | with_reducible apply writeSlot_keeps
    | with_reducible apply keeps_ite | with_reducible apply keeps_ite_fst | with_reducible apply forAll_keeps
    | with_reducible apply forAll_keeps_fst | refine keeps_of_eq (by with_reducible assumption) ?_ | dsimp only
    | split)

theorem bestkAdmitOp_keeps {k0 s : State} (lid : Nat) (hk : Keeps k0 s) : Keeps k0 (bestkAdmitOp lid s) := by
  unfold bestkAdmitOp
  try dsimp only
  repeat' (first
    | with_reducible assumption | intro _ | with_reducible apply vecRun_keeps | with_reducible apply vecReads_keeps
    | with_reducible apply bestkOp_keeps | with_reducible apply listAt_keeps | with_reducible apply admitOne_keeps
    | with_reducible apply keeps_ite | with_reducible apply keeps_ite_fst | with_reducible apply forAll_keeps)

theorem bestkEmitOp_keeps {k0 s : State} (lid : Nat) (hk : Keeps k0 s) : Keeps k0 (bestkEmitOp lid s) := by
  unfold bestkEmitOp
  try dsimp only
  repeat' (first
    | with_reducible assumption | intro _ | with_reducible apply wr_keeps | with_reducible apply vecRun_keeps
    | with_reducible apply vecReads_keeps | with_reducible apply bestkOp_keeps | with_reducible apply listAt_keeps)

end Sys2Proof.Machine
end

