-- ==== Sys2Proof/Laws/KeepsAccess.lean ====
section
/-!
SUPPORT. What the operations of Machine/Access.lean keep (`Keeps`): one lemma each.
-/
namespace Sys2Proof.Machine

theorem hostAct_keeps {k0 s : State} (write : Bool) (o : Nat) {f : State → State} (hf : ∀  u, Keeps k0 u → Keeps k0
    (f u)) (hk : Keeps k0 s) : Keeps k0 (State.hostAct write o f s) := by
  unfold State.hostAct
  try dsimp only
  repeat' (first
    | with_reducible assumption | intro _ | with_reducible apply hf | with_reducible apply ignored_keeps
    | with_reducible apply keeps_ite)

theorem managed_keeps {k0 s : State} {f : State → State} (hf : ∀  u, Keeps k0 u → Keeps k0 (f u)) (hk : Keeps k0 s) :
    Keeps k0 (State.managed f s) := by
  unfold State.managed
  try dsimp only
  repeat' (first
    | with_reducible assumption | intro _ | with_reducible apply hf | with_reducible apply keeps_ite)

theorem clearRc_keeps {k0 s : State} (fs : List (Fld × FTy)) (hk : Keeps k0 s) : Keeps k0 (State.clearRc fs s) := by
  unfold State.clearRc
  try dsimp only
  repeat' (first
    | with_reducible assumption | intro _ | with_reducible apply setF_keeps | with_reducible apply keeps_ite
    | with_reducible apply keeps_ite_fst | with_reducible apply forAll_keeps)

theorem plainWrite_keeps {k0 s : State} (fs : List (Fld × FTy)) (o : Nat) (v : W64) (hk : Keeps k0 s) : Keeps k0
    (State.plainWrite fs o v s) := by
  unfold State.plainWrite
  try dsimp only
  repeat' (first
    | with_reducible assumption | intro _ | with_reducible apply setF_keeps | with_reducible apply keeps_ite
    | with_reducible apply keeps_ite_fst | with_reducible apply forAll_keeps | with_reducible apply forAll_keeps_fst
    | refine keeps_of_eq (by with_reducible assumption) ?_ | dsimp only | split)

end Sys2Proof.Machine
end

