-- ==== Sys2Proof/Laws/KeepsVecLearn.lean ====
section
/-!
SUPPORT. What the operations of Machine/VecLearn.lean keep (`Keeps`): one lemma each.
-/
namespace Sys2Proof.Machine

theorem steered_keeps {k0 s : State} (lid : Nat) (op : OpWord) {f : State → State} (hf : ∀  u, Keeps k0 u → Keeps k0
    (f u)) (hk : Keeps k0 s) : Keeps k0 (steered lid op f s) := by
  unfold steered
  try dsimp only
  repeat' (first
    | with_reducible assumption | intro _ | with_reducible apply hf | with_reducible apply opFault_keeps
    | with_reducible apply vecEnd_keeps | with_reducible apply vecReadsLace_keeps | with_reducible apply keeps_ite)

theorem vecSteered_keeps {k0 s : State} (lid : Nat) (op : OpWord) (checks : List (Bool × Nat)) {f : State → State}
    (hf : ∀  u, Keeps k0 u → Keeps k0 (f u)) (hk : Keeps k0 s) : Keeps k0 (vecSteered lid op checks f s) := by
  unfold vecSteered
  try dsimp only
  repeat' (first
    | with_reducible assumption | intro _ | with_reducible apply hf | with_reducible apply opFault_keeps
    | with_reducible apply steered_keeps | with_reducible apply keeps_ite | with_reducible apply keeps_ite_fst
    | with_reducible apply forAll_keeps | with_reducible apply forAll_keeps_fst
    | refine keeps_of_eq (by with_reducible assumption) ?_ | dsimp only | split)

theorem addDiff_keeps {k0 s : State} (lid : Nat) (a : Nat) (k : Nat) (x : Int) (hk : Keeps k0 s) : Keeps k0
    (addDiff lid a k x s) := by
  unfold addDiff
  try dsimp only
  repeat' (first
    | with_reducible assumption | intro _ | with_reducible apply wr_keeps | with_reducible apply flagIf_keeps)

theorem paircntBody_keeps {k0 s : State} (lid : Nat) (op : OpWord) (hk : Keeps k0 s) : Keeps k0
    (paircntBody lid op s) := by
  unfold paircntBody
  try dsimp only
  repeat' (first
    | with_reducible assumption | intro _ | with_reducible apply vecReads_keeps | with_reducible apply addDiff_keeps
    | with_reducible apply keeps_ite | with_reducible apply keeps_ite_fst | with_reducible apply forAll_keeps)

theorem vecPaircntOp_keeps {k0 s : State} (lid : Nat) (hk : Keeps k0 s) : Keeps k0 (vecPaircntOp lid s) := by
  unfold vecPaircntOp
  try dsimp only
  repeat' (first
    | with_reducible assumption | intro _ | with_reducible apply vecOp_keeps | with_reducible apply vecSteered_keeps
    | with_reducible apply paircntBody_keeps)

theorem wupdEntry_keeps {k0 : State} (s : State) (lid : Nat) (op : OpWord) (k : Nat) {t : State} (hk : Keeps k0 t) :
    Keeps k0 (wupdEntry s lid op k t) := by
  unfold wupdEntry
  try dsimp only
  repeat' (first
    | with_reducible assumption | intro _ | with_reducible apply setLace_keeps | with_reducible apply flagIf_keeps
    | with_reducible apply keeps_ite)

theorem wupdBody_keeps {k0 s : State} (lid : Nat) (op : OpWord) (hk : Keeps k0 s) : Keeps k0 (wupdBody lid op s) := by
  unfold wupdBody
  try dsimp only
  repeat' (first
    | with_reducible assumption | intro _ | with_reducible apply blocks_keeps | with_reducible apply vecReads_keeps
    | with_reducible apply wupdEntry_keeps | with_reducible apply keeps_ite | with_reducible apply keeps_ite_fst
    | with_reducible apply forAll_keeps)

theorem vecWupdOp_keeps {k0 s : State} (lid : Nat) (hk : Keeps k0 s) : Keeps k0 (vecWupdOp lid s) := by
  unfold vecWupdOp
  try dsimp only
  repeat' (first
    | with_reducible assumption | intro _ | with_reducible apply vecOp_keeps | with_reducible apply vecSteered_keeps
    | with_reducible apply wupdBody_keeps)

theorem tupdOne_keeps {k0 s : State} (lid : Nat) (op : OpWord) (k : Nat) (hk : Keeps k0 s) : Keeps k0
    (tupdOne lid op k s) := by
  unfold tupdOne
  try dsimp only
  repeat' (first
    | with_reducible assumption | intro _ | with_reducible apply wr_keeps | with_reducible apply flagIf_keeps
    | with_reducible apply keeps_ite)

theorem vecTupdOp_keeps {k0 s : State} (lid : Nat) (hk : Keeps k0 s) : Keeps k0 (vecTupdOp lid s) := by
  unfold vecTupdOp
  try dsimp only
  repeat' (first
    | with_reducible assumption | intro _ | with_reducible apply blocks_keeps | with_reducible apply vecOp_keeps
    | with_reducible apply vecRun_keeps | with_reducible apply vecReads_keeps | with_reducible apply tupdOne_keeps
    | with_reducible apply keeps_ite | with_reducible apply keeps_ite_fst | with_reducible apply forAll_keeps)

theorem cregWord_keeps {k0 s : State} (lid : Nat) (d : Nat) (clear : Bool) (o : Nat) (p : Nat) (hk : Keeps k0 s) :
    Keeps k0 (cregWord lid d clear o p s) := by
  unfold cregWord
  try dsimp only
  repeat' (first
    | with_reducible assumption | intro _ | with_reducible apply setPairBits_keeps
    | with_reducible apply clearRc_keeps | with_reducible apply plainWrite_keeps | with_reducible apply keeps_ite)

theorem vecCregOp_keeps {k0 s : State} (lid : Nat) (hk : Keeps k0 s) : Keeps k0 (vecCregOp lid s) := by
  unfold vecCregOp
  try dsimp only
  repeat' (first
    | with_reducible assumption | intro _ | with_reducible apply vecOp_keeps | with_reducible apply vecRun_keeps
    | with_reducible apply cregWord_keeps | with_reducible apply keeps_ite | with_reducible apply keeps_ite_fst
    | with_reducible apply forAll_keeps)

theorem picFillOp_keeps {k0 s : State} (lid : Nat) (hk : Keeps k0 s) : Keeps k0 (picFillOp lid s) := by
  unfold picFillOp
  try dsimp only
  repeat' (first
    | with_reducible assumption | intro _ | with_reducible apply wr_keeps | with_reducible apply blocks_keeps
    | with_reducible apply vecOp_keeps | with_reducible apply vecRun_keeps)

end Sys2Proof.Machine
end

