-- ==== Sys2Proof/Laws/KeepsFabric.lean ====
section
/-!
SUPPORT. What the operations of Machine/Fabric.lean keep (`Keeps`): one lemma each.
-/
namespace Sys2Proof.Machine

theorem modTap_keeps {k0 s : State} (d : Nat) (second : Bool) (f : Tap → Tap) (hk : Keeps k0 s) : Keeps k0
    (State.modTap d second f s) := by
  unfold State.modTap
  try dsimp only
  repeat' (first
    | with_reducible assumption | intro _ | with_reducible apply modDie_keeps)

theorem toDie_keeps {k0 s : State} (lid : Nat) (f : Flit) (hk : Keeps k0 s) : Keeps k0 (State.toDie lid f s) := by
  unfold State.toDie
  try dsimp only
  repeat' (first
    | with_reducible assumption | intro _ | with_reducible apply incF_keeps | with_reducible apply modTap_keeps
    | with_reducible apply keeps_ite)

theorem toTap0_keeps {k0 s : State} (d : Nat) (f : Flit) (hk : Keeps k0 s) : Keeps k0 (State.toTap0 d f s) := by
  unfold State.toTap0
  try dsimp only
  repeat' (first
    | with_reducible assumption | intro _ | with_reducible apply incF_keeps | with_reducible apply modTap_keeps
    | with_reducible apply keeps_ite)

theorem msgToDie_keeps {k0 s : State} (lid : Nat) (m : SyncMsg) (hk : Keeps k0 s) : Keeps k0
    (State.msgToDie lid m s) := by
  unfold State.msgToDie
  try dsimp only
  repeat' (first
    | with_reducible assumption | intro _ | with_reducible apply incF_keeps | with_reducible apply modTap_keeps
    | with_reducible apply keeps_ite)

theorem exportTo_keeps {k0 s : State} (src : Nat) (d : Nat) (n : W32) (hk : Keeps k0 s) : Keeps k0
    (State.exportTo src d n s) := by
  unfold State.exportTo
  try dsimp only
  repeat' (first
    | with_reducible assumption | intro _ | with_reducible apply incF_keeps | with_reducible apply modDie_keeps
    | with_reducible apply modTap_keeps | with_reducible apply keeps_ite)

theorem takePlace_keeps {k0 s : State} (n : Nat) (vc : Bool) (hk : Keeps k0 s) : Keeps k0 (State.takePlace n vc s) := by
  unfold State.takePlace
  try dsimp only
  repeat' (first
    | with_reducible assumption | intro _ | with_reducible apply incF_keeps)

theorem freePlace_keeps {k0 s : State} (n : Nat) (vc : Bool) (hk : Keeps k0 s) : Keeps k0 (State.freePlace n vc s) := by
  unfold State.freePlace
  try dsimp only
  repeat' (first
    | with_reducible assumption | intro _ | with_reducible apply setF_keeps | with_reducible apply emit_keeps
    | with_reducible apply keeps_ite | with_reducible apply keeps_ite_fst | with_reducible apply forAll_keeps
    | with_reducible apply forAll_keeps_fst | refine keeps_of_eq (by with_reducible assumption) ?_ | dsimp only
    | split)

theorem freeHeld_keeps {k0 s : State} (held : Option (Nat × Bool)) (hk : Keeps k0 s) : Keeps k0
    (State.freeHeld held s) := by
  unfold State.freeHeld
  try dsimp only
  repeat' (first
    | with_reducible assumption | intro _ | with_reducible apply freePlace_keeps | with_reducible apply keeps_ite
    | with_reducible apply keeps_ite_fst | with_reducible apply forAll_keeps | with_reducible apply forAll_keeps_fst
    | refine keeps_of_eq (by with_reducible assumption) ?_ | dsimp only | split)

theorem transmit_keeps {k0 s : State} (k : Nat) (l : Nat) (vc : Bool) (f : LinkFlit) (hk : Keeps k0 s) : Keeps k0
    (State.transmit k l vc f s) := by
  unfold State.transmit
  try dsimp only
  repeat' (first
    | with_reducible assumption | intro _ | with_reducible apply modLink_keeps | with_reducible apply modPort_keeps
    | with_reducible apply emit_keeps)

theorem pumpPort_keeps {k0 s : State} (k n : Nat) (hk : Keeps k0 s) : Keeps k0 (State.pumpPort k n s) := by
  induction n generalizing s with
  | zero => exact hk
  | succ n ih =>
    unfold State.pumpPort
    split
    · exact ih (freeHeld_keeps _ (transmit_keeps _ _ _ _ (modPort_keeps _ _ hk)))
    · exact hk

theorem pump_keeps {k0 s : State} (k : Nat) (hk : Keeps k0 s) : Keeps k0 (State.pump k s) := by
  unfold State.pump
  try dsimp only
  repeat' (first
    | with_reducible assumption | intro _ | with_reducible apply pumpPort_keeps)

theorem linkPut_keeps {k0 s : State} (held : Option (Nat × Bool)) (f : LinkFlit) (hk : Keeps k0 s) : Keeps k0
    (State.linkPut held f s).1 := by
  unfold State.linkPut
  try dsimp only
  repeat' (first
    | with_reducible assumption | intro _ | with_reducible apply incF_keeps | with_reducible apply modPort_keeps
    | with_reducible apply freeHeld_keeps | with_reducible apply pump_keeps | with_reducible apply keeps_ite
    | with_reducible apply keeps_ite_fst | with_reducible apply forAll_keeps | with_reducible apply forAll_keeps_fst
    | refine keeps_of_eq (by with_reducible assumption) ?_ | dsimp only | split)

theorem noteLink_keeps {k0 s : State} (p : Nat) (hk : Keeps k0 s) : Keeps k0 (State.noteLink p s) := by
  unfold State.noteLink
  try dsimp only
  repeat' (first
    | with_reducible assumption | intro _ | with_reducible apply modPart_keeps)

theorem toTarget_keeps {k0 s : State} (lid : Nat) {f : State → State} (hf : ∀  u, Keeps k0 u → Keeps k0
    (f u)) (hk : Keeps k0 s) : Keeps k0 (State.toTarget lid f s) := by
  unfold State.toTarget
  try dsimp only
  repeat' (first
    | with_reducible assumption | intro _ | with_reducible apply hf | with_reducible apply incF_keeps
    | with_reducible apply noteLink_keeps | with_reducible apply keeps_ite | with_reducible apply keeps_ite_fst
    | with_reducible apply forAll_keeps | with_reducible apply forAll_keeps_fst
    | refine keeps_of_eq (by with_reducible assumption) ?_ | dsimp only | split)

theorem importDie_keeps {k0 s : State} (spkg : Nat) (k : Nat) (d : Nat) (items : List W32) (hk : Keeps k0 s) : Keeps
    k0 (State.importDie spkg k d items s).1 := by
  unfold State.importDie
  try dsimp only
  repeat' (first
    | with_reducible assumption | intro _ | with_reducible apply incF_keeps | with_reducible apply toTap0_keeps
    | with_reducible apply noteLink_keeps | with_reducible apply keeps_ite | with_reducible apply keeps_ite_fst
    | with_reducible apply forAll_keeps | with_reducible apply forAll_keeps_fst
    | refine keeps_of_eq (by with_reducible assumption) ?_ | dsimp only | split)

theorem importDies_keeps {k0 s : State} (spkg k : Nat) (items : List W32) (l : List Nat) (hk : Keeps k0 s) :
    Keeps k0 (State.importDies spkg k items l s).1 := by
  induction l generalizing s with
  | nil => exact hk
  | cons d l ih => exact ih (importDie_keeps _ _ _ _ hk)

theorem importNotices_keeps {k0 s : State} (spkg : Nat) (items : List W32) (hk : Keeps k0 s) : Keeps k0
    (State.importNotices spkg items s).1 := by
  unfold State.importNotices
  try dsimp only
  repeat' (first
    | with_reducible assumption | intro _ | with_reducible apply incF_keeps | with_reducible apply importDies_keeps
    | with_reducible apply keeps_ite | with_reducible apply keeps_ite_fst | with_reducible apply forAll_keeps
    | with_reducible apply forAll_keeps_fst | refine keeps_of_eq (by with_reducible assumption) ?_ | dsimp only
    | split | with_reducible refine fields_keeps ?_ (by with_reducible rfl) (by with_reducible rfl))

theorem nackOp_keeps {k0 s : State} (flits : Nat) (hk : Keeps k0 s) : Keeps k0 (nackOp flits s) := by
  unfold nackOp
  try dsimp only
  repeat' (first
    | with_reducible assumption | intro _ | with_reducible apply keeps_ite | with_reducible apply keeps_ite_fst
    | with_reducible apply forAll_keeps | with_reducible apply forAll_keeps_fst
    | refine keeps_of_eq (by with_reducible assumption) ?_ | dsimp only | split
    | with_reducible refine fields_keeps ?_ (by with_reducible rfl) (by with_reducible rfl))

theorem unreachFault_keeps {k0 s : State} (score : Nat) (hk : Keeps k0 s) : Keeps k0 (State.unreachFault score s) := by
  unfold State.unreachFault
  try dsimp only
  repeat' (first
    | with_reducible assumption | intro _ | with_reducible apply remoteFault_keeps)

theorem unreachOp_keeps {k0 s : State} (score : Nat) (hk : Keeps k0 s) : Keeps k0 (unreachOp score s) := by
  unfold unreachOp
  try dsimp only
  repeat' (first
    | with_reducible assumption | intro _ | with_reducible apply unreachFault_keeps)

theorem messageHere_keeps {k0 s : State} (m : LinkMsg) (hk : Keeps k0 s) : Keeps k0 (State.messageHere m s) := by
  unfold State.messageHere
  try dsimp only
  repeat' (first
    | with_reducible assumption | intro _ | with_reducible apply msgToDie_keeps | with_reducible apply toTarget_keeps
    | with_reducible apply nackOp_keeps | with_reducible apply unreachOp_keeps | with_reducible apply keeps_ite
    | with_reducible apply keeps_ite_fst | with_reducible apply forAll_keeps | with_reducible apply forAll_keeps_fst
    | refine keeps_of_eq (by with_reducible assumption) ?_ | dsimp only | split)

theorem deliverHere_keeps {k0 s : State} (f : LinkFlit) (hk : Keeps k0 s) : Keeps k0 (State.deliverHere f s) := by
  unfold State.deliverHere
  try dsimp only
  repeat' (first
    | with_reducible assumption | intro _ | with_reducible apply toTap0_keeps | with_reducible apply toTarget_keeps
    | with_reducible apply importNotices_keeps | with_reducible apply nackOp_keeps
    | with_reducible apply messageHere_keeps | with_reducible apply keeps_ite | with_reducible apply keeps_ite_fst
    | with_reducible apply forAll_keeps | with_reducible apply forAll_keeps_fst
    | refine keeps_of_eq (by with_reducible assumption) ?_ | dsimp only | split)

theorem linkForward_keeps {k0 s : State} (held : Option (Nat × Bool)) (f : LinkFlit) (hk : Keeps k0 s) : Keeps k0
    (State.linkForward held f s) := by
  unfold State.linkForward
  try dsimp only
  repeat' (first
    | with_reducible assumption | intro _ | with_reducible apply freeHeld_keeps | with_reducible apply linkPut_keeps
    | with_reducible apply unreachFault_keeps | with_reducible apply deliverHere_keeps
    | with_reducible apply keeps_ite | with_reducible apply keeps_ite_fst | with_reducible apply forAll_keeps
    | with_reducible apply forAll_keeps_fst | refine keeps_of_eq (by with_reducible assumption) ?_ | dsimp only
    | split)

theorem linkSendOut_keeps {k0 s : State} (f : LinkFlit) (hk : Keeps k0 s) : Keeps k0 (State.linkSendOut f s) := by
  unfold State.linkSendOut
  try dsimp only
  repeat' (first
    | with_reducible assumption | intro _ | with_reducible apply linkForward_keeps)

theorem requeue_keeps {k0 s : State} (k : Nat) (hk : Keeps k0 s) : Keeps k0 (State.requeue k s) := by
  unfold State.requeue
  try dsimp only
  repeat' (first
    | with_reducible assumption | intro _ | with_reducible apply modPort_keeps
    | with_reducible apply linkForward_keeps | with_reducible apply keeps_ite | with_reducible apply keeps_ite_fst
    | with_reducible apply forAll_keeps)

end Sys2Proof.Machine
end

