-- ==== Sys2Proof/Laws/KeepsMoves.lean ====
section
/-!
SUPPORT. What the operations of Machine/Moves.lean keep (`Keeps`): one lemma each.
-/
namespace Sys2Proof.Machine

theorem putQuarter_keeps {k0 s : State} (lid : Nat) (m : CoreMem) (a : Nat) (bad : Bool) (bs : List Byte)
    (hk : Keeps k0 s) : Keeps k0 (State.putQuarter lid m a bad bs s) := by
  unfold State.putQuarter
  try dsimp only
  repeat' (first
    | with_reducible assumption | intro _ | with_reducible apply wr_keeps | with_reducible apply wrPoison_keeps
    | with_reducible apply keeps_ite)

theorem landPiece_keeps {k0 s : State} (lid : Nat) (lace : Bool) (a : Nat) (pmask : BitVec 6) (data : List Byte)
    (hk : Keeps k0 s) : Keeps k0 (State.landPiece lid lace a pmask data s) := by
  unfold State.landPiece
  try dsimp only
  repeat' (first
    | with_reducible assumption | intro _ | with_reducible apply remoteFault_keeps
    | with_reducible apply putQuarter_keeps | with_reducible apply keeps_ite | with_reducible apply keeps_ite_fst
    | with_reducible apply forAll_keeps)

theorem notePiece_keeps {k0 s : State} (lid : Nat) (m : Move) (n : Nat) (hk : Keeps k0 s) : Keeps k0
    (notePiece lid m n s) := by
  unfold notePiece
  try dsimp only
  repeat' (first
    | with_reducible assumption | intro _ | with_reducible apply noteRead_keeps | with_reducible apply keeps_ite)

theorem formPiece_keeps {k0 s : State} (lid : Nat) (mid : Nat) (m : Move) (hk : Keeps k0 s) : Keeps k0
    (State.formPiece lid mid m s) := by
  unfold State.formPiece
  try dsimp only
  repeat' (first
    | with_reducible assumption | exact fun (_ : Core) hc => hc | intro _ | with_reducible apply modCore_keeps
    | with_reducible apply toFifo_keeps | with_reducible apply notePiece_keeps)

theorem formMove_keeps {k0 s : State} (lid mid n : Nat) (hk : Keeps k0 s) : Keeps k0 (State.formMove lid mid n s) := by
  induction n generalizing s with
  | zero => exact hk
  | succ n ih =>
    unfold State.formMove
    split
    · exact keeps_ite (ih (formPiece_keeps _ _ _ hk)) hk
    · exact hk

theorem refill_keeps {k0 s : State} (lid : Nat) (hk : Keeps k0 s) : Keeps k0 (State.refill lid s) := by
  unfold State.refill
  try dsimp only
  repeat' (first
    | with_reducible assumption | intro _ | with_reducible apply presentArrivals_keeps
    | with_reducible apply flush_keeps | with_reducible apply formMove_keeps | with_reducible apply keeps_ite
    | with_reducible apply keeps_ite_fst | with_reducible apply forAll_keeps)

theorem startMove_keeps {k0 s : State} (lid : Nat) (op : OpWord) (hk : Keeps k0 s) : Keeps k0
    (State.startMove lid op s) := by
  unfold State.startMove
  try dsimp only
  repeat' (first
    | with_reducible assumption | exact fun (_ : Core) hc => hc
    | exact fun (_ : Core) hc => Core.setMem_wf _ hc (Mem.write_wf _ _ _ (Core.mem_wf _ hc))
    | exact fun (_ : Core) hc => Core.setMem_wf _ hc (Mem.poison_wf _ _ _ (Mem.store_wf _ _ (Core.mem_wf _ hc)))
    | exact fun (_ : Core) hc => Core.setMem_wf _ hc (Mem.setSyn_wf _ _ (Core.mem_wf _ hc)) | intro _
    | with_reducible apply modCore_keeps | with_reducible apply advance_keeps | with_reducible apply refill_keeps
    | with_reducible apply keeps_ite | with_reducible apply keeps_ite_fst | with_reducible apply forAll_keeps
    | with_reducible apply forAll_keeps_fst | refine keeps_of_eq (by with_reducible assumption) ?_ | dsimp only
    | split)

theorem xHbmOp_keeps {k0 s : State} (lid : Nat) (hk : Keeps k0 s) : Keeps k0 (xHbmOp lid s) := by
  unfold xHbmOp
  try dsimp only
  repeat' (first
    | with_reducible assumption | intro _ | with_reducible apply opFault_keeps | with_reducible apply issue_keeps
    | with_reducible apply startMove_keeps | with_reducible apply keeps_ite | with_reducible apply keeps_ite_fst
    | with_reducible apply forAll_keeps | with_reducible apply forAll_keeps_fst
    | refine keeps_of_eq (by with_reducible assumption) ?_ | dsimp only | split)

theorem xSendOp_keeps {k0 s : State} (lid : Nat) (hk : Keeps k0 s) : Keeps k0 (xSendOp lid s) := by
  unfold xSendOp
  try dsimp only
  repeat' (first
    | with_reducible assumption | intro _ | with_reducible apply opFault_keeps | with_reducible apply issue_keeps
    | with_reducible apply startMove_keeps | with_reducible apply keeps_ite | with_reducible apply keeps_ite_fst
    | with_reducible apply forAll_keeps | with_reducible apply forAll_keeps_fst
    | refine keeps_of_eq (by with_reducible assumption) ?_ | dsimp only | split)

theorem copyUnit_keeps {k0 s : State} (lid : Nat) (op : OpWord) (k : Nat) (hk : Keeps k0 s) : Keeps k0
    (copyUnit lid op k s) := by
  unfold copyUnit
  try dsimp only
  repeat' (first
    | with_reducible assumption | intro _ | with_reducible apply noteRead_keeps
    | with_reducible apply landPiece_keeps)

theorem noteStaged_keeps {k0 s : State} (lid : Nat) (op : OpWord) (hk : Keeps k0 s) : Keeps k0
    (noteStaged lid op s) := by
  unfold noteStaged
  try dsimp only
  repeat' (first
    | with_reducible assumption | exact fun (_ : Core) hc => hc | intro _ | with_reducible apply modCore_keeps
    | with_reducible apply keeps_ite)

theorem copyBody_keeps {k0 s : State} (lid : Nat) (op : OpWord) (hk : Keeps k0 s) : Keeps k0 (copyBody lid op s) := by
  unfold copyBody
  try dsimp only
  repeat' (first
    | with_reducible assumption | exact fun (_ : Core) hc => hc | intro _ | with_reducible apply modCore_keeps
    | with_reducible apply advance_keeps | with_reducible apply copyUnit_keeps | with_reducible apply noteStaged_keeps
    | with_reducible apply keeps_ite | with_reducible apply keeps_ite_fst | with_reducible apply forAll_keeps
    | with_reducible apply forAll_keeps_fst | refine keeps_of_eq (by with_reducible assumption) ?_ | dsimp only
    | split)

theorem xCopyOp_keeps {k0 s : State} (lid : Nat) (hk : Keeps k0 s) : Keeps k0 (xCopyOp lid s) := by
  unfold xCopyOp
  try dsimp only
  repeat' (first
    | with_reducible assumption | intro _ | with_reducible apply opFault_keeps | with_reducible apply issue_keeps
    | with_reducible apply copyBody_keeps | with_reducible apply keeps_ite | with_reducible apply keeps_ite_fst
    | with_reducible apply forAll_keeps | with_reducible apply forAll_keeps_fst
    | refine keeps_of_eq (by with_reducible assumption) ?_ | dsimp only | split)

theorem moveDone_keeps {k0 s : State} (lid : Nat) (mid : Nat) (units : Nat) (hk : Keeps k0 s) : Keeps k0
    (State.moveDone lid mid units s) := by
  unfold State.moveDone
  try dsimp only
  repeat' (first
    | with_reducible assumption | exact fun (_ : Core) hc => hc | intro _ | with_reducible apply modCore_keeps
    | with_reducible apply keeps_ite | with_reducible apply keeps_ite_fst | with_reducible apply forAll_keeps
    | with_reducible apply forAll_keeps_fst | refine keeps_of_eq (by with_reducible assumption) ?_ | dsimp only
    | split)

theorem moveRetireOp_keeps {k0 s : State} (lid : Nat) (mid : Nat) (hk : Keeps k0 s) : Keeps k0
    (moveRetireOp lid mid s) := by
  unfold moveRetireOp
  try dsimp only
  repeat' (first
    | with_reducible assumption | exact fun (_ : Core) hc => hc | intro _ | with_reducible apply modCore_keeps
    | with_reducible apply opDone_keeps | with_reducible apply remoteAdd_keeps | with_reducible apply keeps_ite
    | with_reducible apply keeps_ite_fst | with_reducible apply forAll_keeps | with_reducible apply forAll_keeps_fst
    | refine keeps_of_eq (by with_reducible assumption) ?_ | dsimp only | split)

theorem writeAckOp_keeps {k0 s : State} (lid : Nat) (hk : Keeps k0 s) : Keeps k0 (writeAckOp lid s) := by
  unfold writeAckOp
  try dsimp only
  repeat' (first
    | with_reducible assumption | intro _ | with_reducible apply incF_keeps | with_reducible apply moveDone_keeps
    | with_reducible apply keeps_ite | with_reducible apply keeps_ite_fst | with_reducible apply forAll_keeps
    | with_reducible apply forAll_keeps_fst | refine keeps_of_eq (by with_reducible assumption) ?_ | dsimp only
    | split | with_reducible refine fields_keeps ?_ (by with_reducible rfl) (by with_reducible rfl))

end Sys2Proof.Machine
end

