-- ==== Sys2Proof/Laws/KeepsRings.lean ====
section
/-!
SUPPORT. What the operations of Machine/Rings.lean keep (`Keeps`): one lemma each.
-/
namespace Sys2Proof.Machine

theorem setSlot_keeps {k0 s : State} (d : Nat) (ring : Nat) (slot : Nat) (p : Option Placed) (hk : Keeps k0 s) : Keeps
    k0 (State.setSlot d ring slot p s) := by
  unfold State.setSlot
  try dsimp only
  repeat' (first
    | with_reducible assumption | intro _ | with_reducible apply modDie_keeps)

theorem setSync_keeps {k0 s : State} (d : Nat) (slot : Nat) (m : Option FieldMsg) (hk : Keeps k0 s) : Keeps k0
    (State.setSync d slot m s) := by
  unfold State.setSync
  try dsimp only
  repeat' (first
    | with_reducible assumption | intro _ | with_reducible apply modDie_keeps)

theorem setReserved_keeps {k0 s : State} (d : Nat) (ring : Nat) (slot : Nat) (p : Option Nat) (hk : Keeps k0 s) :
    Keeps k0 (State.setReserved d ring slot p s) := by
  unfold State.setReserved
  try dsimp only
  repeat' (first
    | with_reducible assumption | intro _ | with_reducible apply modDie_keeps)

theorem ringTo_keeps {k0 s : State} (d : Nat) (t : Nat) (hk : Keeps k0 s) : Keeps k0 (State.ringTo d t s) := by
  unfold State.ringTo
  try dsimp only
  repeat' (first
    | with_reducible assumption | intro _ | with_reducible apply modDie_keeps)

theorem place_keeps {k0 s : State} (d : Nat) (pos : Nat) (f : Flit) (ring : Nat) (slot : Nat) (next : Nat)
    (hk : Keeps k0 s) : Keeps k0 (State.place d pos f ring slot next s) := by
  unfold State.place
  try dsimp only
  repeat' (first
    | with_reducible assumption | intro _ | with_reducible apply incF_keeps | with_reducible apply setSlot_keeps
    | with_reducible apply setReserved_keeps | with_reducible apply keeps_ite)

theorem fold_keeps {k0 s : State} (d : Nat) (ring : Nat) (slot : Nat) (f : Flit) (hk : Keeps k0 s) : Keeps k0
    (State.fold d ring slot f s) := by
  unfold State.fold
  try dsimp only
  repeat' (first
    | with_reducible assumption | intro _ | with_reducible apply incF_keeps | with_reducible apply setSlot_keeps
    | with_reducible apply keeps_ite | with_reducible apply keeps_ite_fst | with_reducible apply forAll_keeps
    | with_reducible apply forAll_keeps_fst | refine keeps_of_eq (by with_reducible assumption) ?_ | dsimp only
    | split)

theorem noteSent_keeps {k0 s : State} (lid : Nat) (pos : Nat) (f : Flit) (hk : Keeps k0 s) : Keeps k0
    (State.noteSent lid pos f s) := by
  unfold State.noteSent
  try dsimp only
  repeat' (first
    | with_reducible assumption | intro _ | with_reducible apply modStop_keeps)

theorem noteTaken_keeps {k0 s : State} (lid : Nat) (pos : Nat) (f : Flit) (hk : Keeps k0 s) : Keeps k0
    (State.noteTaken lid pos f s) := by
  unfold State.noteTaken
  try dsimp only
  repeat' (first
    | with_reducible assumption | intro _ | with_reducible apply modStop_keeps)

theorem popHead_keeps {k0 s : State} (lid : Nat) (t : Nat) (hk : Keeps k0 s) : Keeps k0 (State.popHead lid t s) := by
  unfold State.popHead
  try dsimp only
  repeat' (first
    | with_reducible assumption | intro _ | with_reducible apply modStop_keeps | with_reducible apply refill_keeps)

theorem injectHead_keeps {k0 s : State} (d : Nat) (pos : Nat) (lid : Nat) (ring : Nat) (slot : Nat) (t : Nat)
    (f : Flit) (hk : Keeps k0 s) : Keeps k0 (State.injectHead d pos lid ring slot t f s) := by
  unfold State.injectHead
  try dsimp only
  repeat' (first
    | with_reducible assumption | intro _ | with_reducible apply remoteFault_keeps
    | with_reducible apply setSync_keeps | with_reducible apply place_keeps | with_reducible apply fold_keeps
    | with_reducible apply noteSent_keeps | with_reducible apply popHead_keeps | with_reducible apply combine_keeps
    | with_reducible apply keeps_ite | with_reducible apply keeps_ite_fst | with_reducible apply forAll_keeps
    | with_reducible apply forAll_keeps_fst | refine keeps_of_eq (by with_reducible assumption) ?_ | dsimp only
    | split)

theorem injectStop_keeps {k0 s : State} (d : Nat) (pos : Nat) (lid : Nat) (ring : Nat) (slot : Nat) (hk : Keeps k0 s)
    : Keeps k0 (injectStop d pos lid ring slot s) := by
  unfold injectStop
  try dsimp only
  repeat' (first
    | with_reducible assumption | intro _ | with_reducible apply refill_keeps | with_reducible apply ringTo_keeps
    | with_reducible apply injectHead_keeps | with_reducible apply keeps_ite | with_reducible apply keeps_ite_fst
    | with_reducible apply forAll_keeps | with_reducible apply forAll_keeps_fst
    | refine keeps_of_eq (by with_reducible assumption) ?_ | dsimp only | split)

theorem injectField_keeps {k0 s : State} (d : Nat) (tap : Bool) (slot : Nat) (t : Nat) (hk : Keeps k0 s) : Keeps k0
    (State.injectField d tap slot t s) := by
  unfold State.injectField
  try dsimp only
  repeat' (first
    | with_reducible assumption | intro _ | with_reducible apply modTap_keeps | with_reducible apply setSync_keeps
    | with_reducible apply keeps_ite | with_reducible apply keeps_ite_fst | with_reducible apply forAll_keeps
    | with_reducible apply forAll_keeps_fst | refine keeps_of_eq (by with_reducible assumption) ?_ | dsimp only
    | split)

theorem injectFlit_keeps {k0 s : State} (d : Nat) (pos : Nat) (tap : Bool) (ring : Nat) (slot : Nat) (t : Nat)
    (hk : Keeps k0 s) : Keeps k0 (State.injectFlit d pos tap ring slot t s) := by
  unfold State.injectFlit
  try dsimp only
  repeat' (first
    | with_reducible assumption | intro _ | with_reducible apply remoteFault_keeps | with_reducible apply modTap_keeps
    | with_reducible apply place_keeps | with_reducible apply fold_keeps | with_reducible apply combine_keeps
    | with_reducible apply keeps_ite | with_reducible apply keeps_ite_fst | with_reducible apply forAll_keeps
    | with_reducible apply forAll_keeps_fst | refine keeps_of_eq (by with_reducible assumption) ?_ | dsimp only
    | split)

theorem injectBridge_keeps {k0 s : State} (d : Nat) (tap : Bool) (ring : Nat) (slot : Nat) (hk : Keeps k0 s) : Keeps
    k0 (injectBridge d tap ring slot s) := by
  unfold injectBridge
  try dsimp only
  repeat' (first
    | with_reducible assumption | intro _ | with_reducible apply ringTo_keeps | with_reducible apply injectField_keeps
    | with_reducible apply injectFlit_keeps | with_reducible apply keeps_ite)

theorem flitInjectOp_keeps {k0 s : State} (d : Nat) (who : Injector) (place ring slot : Nat) (hk : Keeps k0 s) : Keeps
    k0 (flitInjectOp d who place ring slot s) := by
  unfold flitInjectOp
  try dsimp only
  repeat' (first
    | with_reducible assumption | intro _ | with_reducible apply injectStop_keeps
    | with_reducible apply injectBridge_keeps | with_reducible apply keeps_ite | with_reducible apply keeps_ite_fst
    | with_reducible apply forAll_keeps | with_reducible apply forAll_keeps_fst
    | refine keeps_of_eq (by with_reducible assumption) ?_ | dsimp only | split)

theorem reservationOp_keeps {k0 s : State} (d : Nat) (pos : Nat) (hk : Keeps k0 s) : Keeps k0
    (reservationOp d pos s) := by
  unfold reservationOp
  try dsimp only
  repeat' (first
    | with_reducible assumption | intro _ | with_reducible apply incF_keeps | with_reducible apply setReserved_keeps
    | with_reducible apply ringTo_keeps | with_reducible apply keeps_ite | with_reducible apply keeps_ite_fst
    | with_reducible apply forAll_keeps | with_reducible apply forAll_keeps_fst
    | refine keeps_of_eq (by with_reducible assumption) ?_ | dsimp only | split)

theorem setKept_keeps {k0 s : State} (lid : Nat) (ring : Nat) (slot : Nat) (l : List Nat) (hk : Keeps k0 s) : Keeps k0
    (State.setKept lid ring slot l s) := by
  unfold State.setKept
  try dsimp only
  repeat' (first
    | with_reducible assumption | intro _ | with_reducible apply modStop_keeps)

theorem offerNotice_keeps {k0 s : State} (d : Nat) (pos : Nat) (lid : Nat) (ring : Nat) (slot : Nat)
    (again : Bool) (j : Nat) (n : W32) (hk : Keeps k0 s) : Keeps k0 (offerNotice d pos lid ring slot again j n s).1 :=
    by
  unfold offerNotice
  try dsimp only
  repeat' (first
    | with_reducible assumption | intro _ | with_reducible apply setF_keeps | with_reducible apply incF_keeps
    | with_reducible apply remoteFault_keeps | with_reducible apply takeNotice_keeps
    | with_reducible apply setKept_keeps | with_reducible apply keeps_ite | with_reducible apply keeps_ite_fst
    | with_reducible apply forAll_keeps | with_reducible apply forAll_keeps_fst
    | refine keeps_of_eq (by with_reducible assumption) ?_ | dsimp only | split)

theorem offerAll_keeps {k0 s : State} (d pos lid ring slot : Nat) (again : Bool) (l : List (W32 × Nat))
    (keep : List Nat)
    (hk : Keeps k0 s) : Keeps k0 (offerAll d pos lid ring slot again l keep s).1 := by
  induction l generalizing s keep with
  | nil => exact hk
  | cons x l ih => exact ih _ (offerNotice_keeps _ _ _ _ _ _ _ _ hk)

theorem noticesRemoved_keeps {k0 s : State} (src : Nat) (items : List W32) (hk : Keeps k0 s) : Keeps k0
    (State.noticesRemoved src items s) := by
  unfold State.noticesRemoved
  try dsimp only
  repeat' (first
    | with_reducible assumption | intro _ | with_reducible apply modStop_keeps | with_reducible apply modDie_keeps
    | with_reducible apply linkSendOut_keeps | with_reducible apply refill_keeps | with_reducible apply keeps_ite
    | with_reducible apply keeps_ite_fst | with_reducible apply forAll_keeps | with_reducible apply forAll_keeps_fst
    | refine keeps_of_eq (by with_reducible assumption) ?_ | dsimp only | split
    | with_reducible refine fields_keeps ?_ (by with_reducible rfl) (by with_reducible rfl))

theorem noticePass_keeps {k0 s : State} (d : Nat) (pos : Nat) (ring : Nat) (slot : Nat) (t : Nat) (p : Placed)
    (src : Nat) (items : List W32) (keep : List Nat) (hk : Keeps k0 s) : Keeps k0 (noticePass d pos ring slot t p src
    items keep s) := by
  unfold noticePass
  try dsimp only
  repeat' (first
    | with_reducible assumption | intro _ | with_reducible apply setSlot_keeps | with_reducible apply noteTaken_keeps
    | with_reducible apply offerAll_keeps | with_reducible apply noticesRemoved_keeps | with_reducible apply keeps_ite
    | with_reducible apply keeps_ite_fst | with_reducible apply forAll_keeps | with_reducible apply forAll_keeps_fst
    | refine keeps_of_eq (by with_reducible assumption) ?_ | dsimp only | split)

theorem flipNoticeReceiveOp_keeps {k0 s : State} (d : Nat) (pos : Nat) (ring : Nat) (slot : Nat) (hk : Keeps k0 s) :
    Keeps k0 (flipNoticeReceiveOp d pos ring slot s) := by
  unfold flipNoticeReceiveOp
  try dsimp only
  repeat' (first
    | with_reducible assumption | intro _ | with_reducible apply ringTo_keeps | with_reducible apply noticePass_keeps
    | with_reducible apply keeps_ite | with_reducible apply keeps_ite_fst | with_reducible apply forAll_keeps
    | with_reducible apply forAll_keeps_fst | refine keeps_of_eq (by with_reducible assumption) ?_ | dsimp only
    | split)

theorem setPack_keeps {k0 s : State} (q : Nat) (l : List W32) (hk : Keeps k0 s) : Keeps k0 (State.setPack q l s) := by
  unfold State.setPack
  try dsimp only
  repeat' (first
    | with_reducible assumption | intro _ | with_reducible apply keeps_ite | with_reducible apply keeps_ite_fst
    | with_reducible apply forAll_keeps | with_reducible apply forAll_keeps_fst
    | refine keeps_of_eq (by with_reducible assumption) ?_ | dsimp only | split
    | with_reducible refine fields_keeps ?_ (by with_reducible rfl) (by with_reducible rfl))

theorem sendPack_keeps {k0 s : State} (q : Nat) (hk : Keeps k0 s) : Keeps k0 (State.sendPack q s) := by
  unfold State.sendPack
  try dsimp only
  repeat' (first
    | with_reducible assumption | intro _ | with_reducible apply linkSendOut_keeps
    | with_reducible apply setPack_keeps | with_reducible apply keeps_ite | with_reducible apply keeps_ite_fst
    | with_reducible apply forAll_keeps | with_reducible apply forAll_keeps_fst
    | refine keeps_of_eq (by with_reducible assumption) ?_ | dsimp only | split
    | with_reducible refine fields_keeps ?_ (by with_reducible rfl) (by with_reducible rfl))

theorem packTo_keeps {k0 s : State} (q : Nat) (n : W32) (hk : Keeps k0 s) : Keeps k0 (State.packTo q n s) := by
  unfold State.packTo
  try dsimp only
  repeat' (first
    | with_reducible assumption | intro _ | with_reducible apply setPack_keeps | with_reducible apply sendPack_keeps
    | with_reducible apply keeps_ite)

theorem linkExport_keeps {k0 s : State} (n : W32) (hk : Keeps k0 s) : Keeps k0 (State.linkExport n s) := by
  unfold State.linkExport
  try dsimp only
  repeat' (first
    | with_reducible assumption | intro _ | with_reducible apply packTo_keeps | with_reducible apply keeps_ite
    | with_reducible apply keeps_ite_fst | with_reducible apply forAll_keeps)

theorem exportNotice_keeps {k0 s : State} (d : Nat) (n : W32) (hk : Keeps k0 s) : Keeps k0
    (State.exportNotice d n s) := by
  unfold State.exportNotice
  try dsimp only
  repeat' (first
    | with_reducible assumption | intro _ | with_reducible apply exportTo_keeps
    | with_reducible apply linkExport_keeps | with_reducible apply keeps_ite | with_reducible apply keeps_ite_fst
    | with_reducible apply forAll_keeps)

theorem noticeExportOp_keeps {k0 s : State} (d : Nat) (ring : Nat) (slot : Nat) (hk : Keeps k0 s) : Keeps k0
    (noticeExportOp d ring slot s) := by
  unfold noticeExportOp
  try dsimp only
  repeat' (first
    | with_reducible assumption | intro _ | with_reducible apply setSlot_keeps | with_reducible apply ringTo_keeps
    | with_reducible apply exportNotice_keeps | with_reducible apply keeps_ite | with_reducible apply keeps_ite_fst
    | with_reducible apply forAll_keeps | with_reducible apply forAll_keeps_fst
    | refine keeps_of_eq (by with_reducible assumption) ?_ | dsimp only | split)

theorem pieceWritten_keeps {k0 s : State} (src : Nat) (mid : Nat) (units : Nat) (hk : Keeps k0 s) : Keeps k0
    (State.pieceWritten src mid units s) := by
  unfold State.pieceWritten
  try dsimp only
  repeat' (first
    | with_reducible assumption | intro _ | with_reducible apply moveDone_keeps | with_reducible apply keeps_ite)

theorem landFlit_keeps {k0 s : State} (f : Flit) (hk : Keeps k0 s) : Keeps k0 (State.landFlit f s) := by
  unfold State.landFlit
  try dsimp only
  repeat' (first
    | with_reducible assumption | intro _ | with_reducible apply remoteAdd_keeps
    | with_reducible apply applyPartials_keeps | with_reducible apply landPiece_keeps
    | with_reducible apply pieceWritten_keeps | with_reducible apply keeps_ite | with_reducible apply keeps_ite_fst
    | with_reducible apply forAll_keeps | with_reducible apply forAll_keeps_fst
    | refine keeps_of_eq (by with_reducible assumption) ?_ | dsimp only | split)

theorem drainRx_keeps {k0 s : State} (lid n : Nat) (hk : Keeps k0 s) : Keeps k0 (State.drainRx lid n s) := by
  induction n generalizing s with
  | zero => exact hk
  | succ n ih =>
    unfold State.drainRx
    split
    · exact hk
    · exact ih (landFlit_keeps _ (modStop_keeps _ _ hk))

theorem drainAt_keeps {k0 s : State} (d : Nat) (pos : Nat) (n : Nat) (hk : Keeps k0 s) : Keeps k0
    (State.drainAt d pos n s) := by
  unfold State.drainAt
  try dsimp only
  repeat' (first
    | with_reducible assumption | intro _ | with_reducible apply drainRx_keeps | with_reducible apply keeps_ite
    | with_reducible apply keeps_ite_fst | with_reducible apply forAll_keeps | with_reducible apply forAll_keeps_fst
    | refine keeps_of_eq (by with_reducible assumption) ?_ | dsimp only | split)

theorem letPass_keeps {k0 s : State} (d : Nat) (ring : Nat) (slot : Nat) (t : Nat) (p : Placed) (hk : Keeps k0 s) :
    Keeps k0 (State.letPass d ring slot t p s) := by
  unfold State.letPass
  try dsimp only
  repeat' (first
    | with_reducible assumption | intro _ | with_reducible apply setSlot_keeps)

theorem intoRx_keeps {k0 s : State} (d : Nat) (ring : Nat) (slot : Nat) (lid : Nat) (p : Placed) (hk : Keeps k0 s) :
    Keeps k0 (State.intoRx d ring slot lid p s) := by
  unfold State.intoRx
  try dsimp only
  repeat' (first
    | with_reducible assumption | intro _ | with_reducible apply modStop_keeps | with_reducible apply setSlot_keeps
    | with_reducible apply noteTaken_keeps)

theorem takePartial_keeps {k0 s : State} (d : Nat) (ring : Nat) (slot : Nat) (t : Nat) (p : Placed) (hk : Keeps k0 s)
    : Keeps k0 (takePartial d ring slot t p s) := by
  unfold takePartial
  try dsimp only
  repeat' (first
    | with_reducible assumption | intro _ | with_reducible apply toDie_keeps | with_reducible apply linkSendOut_keeps
    | with_reducible apply setSlot_keeps | with_reducible apply letPass_keeps | with_reducible apply intoRx_keeps
    | with_reducible apply keeps_ite | with_reducible apply keeps_ite_fst | with_reducible apply forAll_keeps
    | with_reducible apply forAll_keeps_fst | refine keeps_of_eq (by with_reducible assumption) ?_ | dsimp only
    | split)

theorem partialReceiveOp_keeps {k0 s : State} (d : Nat) (pos : Nat) (ring : Nat) (slot : Nat) (drain : Nat)
    (hk : Keeps k0 s) : Keeps k0 (partialReceiveOp d pos ring slot drain s) := by
  unfold partialReceiveOp
  try dsimp only
  repeat' (first
    | with_reducible assumption | intro _ | with_reducible apply ringTo_keeps | with_reducible apply drainAt_keeps
    | with_reducible apply takePartial_keeps | with_reducible apply keeps_ite | with_reducible apply keeps_ite_fst
    | with_reducible apply forAll_keeps | with_reducible apply forAll_keeps_fst
    | refine keeps_of_eq (by with_reducible assumption) ?_ | dsimp only | split)

theorem setPass_keeps {k0 s : State} (lid : Nat) (pos : Nat) (v : Option (Nat × Nat)) (hk : Keeps k0 s) : Keeps k0
    (State.setPass lid pos v s) := by
  unfold State.setPass
  try dsimp only
  repeat' (first
    | with_reducible assumption | intro _ | with_reducible apply modStop_keeps)

theorem takeSend_keeps {k0 s : State} (d : Nat) (ring : Nat) (slot : Nat) (lid : Nat) (t : Nat) (p : Placed)
    (hk : Keeps k0 s) : Keeps k0 (takeSend d ring slot lid t p s) := by
  unfold takeSend
  try dsimp only
  repeat' (first
    | with_reducible assumption | intro _ | with_reducible apply letPass_keeps | with_reducible apply intoRx_keeps
    | with_reducible apply setPass_keeps | with_reducible apply keeps_ite)

theorem repackUnit_keeps {k0 s : State} (key : Nat) (dpkg : Nat) (src : Nat) (dc : Nat) (dmem : Bool)
    (daddr : Nat) (last : Bool) (sig : Bool) (sctr : Nat) (pmask : Nat) (unit : List Byte) (hk : Keeps k0 s) : Keeps
    k0 (State.repackUnit key dpkg src dc dmem daddr last sig sctr pmask unit s) := by
  unfold State.repackUnit
  try dsimp only
  repeat' (first
    | with_reducible assumption | intro _ | with_reducible apply linkSendOut_keeps | with_reducible apply keeps_ite
    | with_reducible apply keeps_ite_fst | with_reducible apply forAll_keeps | with_reducible apply forAll_keeps_fst
    | refine keeps_of_eq (by with_reducible assumption) ?_ | dsimp only | split
    | with_reducible refine fields_keeps ?_ (by with_reducible rfl) (by with_reducible rfl))

theorem sendRemote_keeps {k0 s : State} (f : Flit) (hk : Keeps k0 s) : Keeps k0 (State.sendRemote f s) := by
  unfold State.sendRemote
  try dsimp only
  repeat' (first
    | with_reducible assumption | intro _ | with_reducible apply pieceWritten_keeps
    | with_reducible apply repackUnit_keeps | with_reducible apply keeps_ite | with_reducible apply keeps_ite_fst
    | with_reducible apply forAll_keeps | with_reducible apply forAll_keeps_fst
    | refine keeps_of_eq (by with_reducible assumption) ?_ | dsimp only | split)

theorem meetSend_keeps {k0 s : State} (d : Nat) (ring : Nat) (slot : Nat) (t : Nat) (p : Placed) (hk : Keeps k0 s) :
    Keeps k0 (meetSend d ring slot t p s) := by
  unfold meetSend
  try dsimp only
  repeat' (first
    | with_reducible assumption | intro _ | with_reducible apply toDie_keeps | with_reducible apply setSlot_keeps
    | with_reducible apply takeSend_keeps | with_reducible apply sendRemote_keeps | with_reducible apply keeps_ite
    | with_reducible apply keeps_ite_fst | with_reducible apply forAll_keeps | with_reducible apply forAll_keeps_fst
    | refine keeps_of_eq (by with_reducible assumption) ?_ | dsimp only | split)

theorem sendFlitReceiveOp_keeps {k0 s : State} (d : Nat) (pos : Nat) (ring : Nat) (slot : Nat) (drain : Nat)
    (hk : Keeps k0 s) : Keeps k0 (sendFlitReceiveOp d pos ring slot drain s) := by
  unfold sendFlitReceiveOp
  try dsimp only
  repeat' (first
    | with_reducible assumption | intro _ | with_reducible apply ringTo_keeps | with_reducible apply drainAt_keeps
    | with_reducible apply meetSend_keeps | with_reducible apply keeps_ite | with_reducible apply keeps_ite_fst
    | with_reducible apply forAll_keeps | with_reducible apply forAll_keeps_fst
    | refine keeps_of_eq (by with_reducible assumption) ?_ | dsimp only | split)

theorem takeField_keeps {k0 s : State} (lid : Nat) (slot : Nat) (t : Nat) (m : SyncMsg) (hk : Keeps k0 s) : Keeps k0
    (takeField lid slot t m s) := by
  unfold takeField
  try dsimp only
  repeat' (first
    | with_reducible assumption | intro _ | with_reducible apply modStop_keeps | with_reducible apply setSync_keeps
    | with_reducible apply ringTo_keeps | with_reducible apply keeps_ite)

theorem setSyncPass_keeps {k0 s : State} (lid : Nat) (pos : Nat) (v : Option (Nat × Nat)) (hk : Keeps k0 s) : Keeps k0
    (State.setSyncPass lid pos v s) := by
  unfold State.setSyncPass
  try dsimp only
  repeat' (first
    | with_reducible assumption | intro _ | with_reducible apply modStop_keeps)

theorem takeSync_keeps {k0 s : State} (lid : Nat) (ring : Nat) (slot : Nat) (t : Nat) (p : Placed) (m : SyncMsg)
    (hk : Keeps k0 s) : Keeps k0 (takeSync lid ring slot t p m s) := by
  unfold takeSync
  try dsimp only
  repeat' (first
    | with_reducible assumption | intro _ | with_reducible apply modStop_keeps | with_reducible apply setSlot_keeps
    | with_reducible apply ringTo_keeps | with_reducible apply noteTaken_keeps | with_reducible apply letPass_keeps
    | with_reducible apply setSyncPass_keeps | with_reducible apply keeps_ite)

theorem meetCounter_keeps {k0 s : State} (lid : Nat) (at_ : Pass) (hk : Keeps k0 s) : Keeps k0
    (meetCounter lid at_ s) := by
  unfold meetCounter
  try dsimp only
  repeat' (first
    | with_reducible assumption | intro _ | with_reducible apply takeField_keeps | with_reducible apply takeSync_keeps
    | with_reducible apply keeps_ite | with_reducible apply keeps_ite_fst | with_reducible apply forAll_keeps
    | with_reducible apply forAll_keeps_fst | refine keeps_of_eq (by with_reducible assumption) ?_ | dsimp only
    | split)

theorem handCounter_keeps {k0 s : State} (lid : Nat) (hk : Keeps k0 s) : Keeps k0 (handCounter lid s) := by
  unfold handCounter
  try dsimp only
  repeat' (first
    | with_reducible assumption | intro _ | with_reducible apply modStop_keeps
    | with_reducible apply applyCounter_keeps | with_reducible apply keeps_ite | with_reducible apply keeps_ite_fst
    | with_reducible apply forAll_keeps | with_reducible apply forAll_keeps_fst
    | refine keeps_of_eq (by with_reducible assumption) ?_ | dsimp only | split)

theorem counterMessageOp_keeps {k0 s : State} (lid : Nat) (meet : Option Pass) (hk : Keeps k0 s) : Keeps k0
    (counterMessageOp lid meet s) := by
  unfold counterMessageOp
  try dsimp only
  repeat' (first
    | with_reducible assumption | intro _ | with_reducible apply meetCounter_keeps
    | with_reducible apply handCounter_keeps | with_reducible apply keeps_ite | with_reducible apply keeps_ite_fst
    | with_reducible apply forAll_keeps | with_reducible apply forAll_keeps_fst
    | refine keeps_of_eq (by with_reducible assumption) ?_ | dsimp only | split)

theorem routeSync_keeps {k0 s : State} (src : Nat) (m : SyncMsg) (hk : Keeps k0 s) : Keeps k0
    (State.routeSync src m s) := by
  unfold State.routeSync
  try dsimp only
  repeat' (first
    | with_reducible assumption | intro _ | with_reducible apply msgToDie_keeps
    | with_reducible apply linkSendOut_keeps | with_reducible apply keeps_ite | with_reducible apply keeps_ite_fst
    | with_reducible apply forAll_keeps | with_reducible apply forAll_keeps_fst
    | refine keeps_of_eq (by with_reducible assumption) ?_ | dsimp only | split
    | with_reducible refine fields_keeps ?_ (by with_reducible rfl) (by with_reducible rfl))

end Sys2Proof.Machine
end

