-- ==== Sys2Proof/Laws/KeepsBarrier.lean ====
section
/-!
SUPPORT. What the operations of Machine/Barrier.lean keep (`Keeps`): one lemma each.
-/
namespace Sys2Proof.Machine

theorem launchCore_keeps {k0 s : State} (l : Launch) (ctr : Nat) (lid : Nat) (hk : Keeps k0 s) : Keeps k0
    (launchCore l ctr lid s) := by
  unfold launchCore
  try dsimp only
  repeat' (first
    | with_reducible assumption | intro _ | with_reducible apply hostBump_keeps
    | with_reducible apply applyCounter_keeps | with_reducible apply keeps_ite | with_reducible apply keeps_ite_fst
    | with_reducible apply forAll_keeps | with_reducible apply forAll_keeps_fst
    | refine keeps_of_eq (by with_reducible assumption) ?_ | dsimp only | split)

theorem launchNow_keeps {k0 s : State} (l : Launch) (hk : Keeps k0 s) : Keeps k0 (State.launchNow l s) := by
  unfold State.launchNow
  try dsimp only
  repeat' (first
    | with_reducible assumption | intro _ | with_reducible apply incF_keeps | with_reducible apply launchCore_keeps
    | with_reducible apply keeps_ite | with_reducible apply keeps_ite_fst | with_reducible apply forAll_keeps)

theorem forwardLaunch_keeps {k0 s : State} (l : Launch) (hk : Keeps k0 s) : Keeps k0 (State.forwardLaunch l s) := by
  unfold State.forwardLaunch
  try dsimp only
  repeat' (first
    | with_reducible assumption | intro _ | with_reducible apply setF_keeps | with_reducible apply modPart_keeps
    | with_reducible apply launchNow_keeps | with_reducible apply keeps_ite)

theorem releaseBuffered_keeps {k0 s : State} (p : Nat) (hk : Keeps k0 s) : Keeps k0 (State.releaseBuffered p s) := by
  unfold State.releaseBuffered
  try dsimp only
  repeat' (first
    | with_reducible assumption | intro _ | with_reducible apply modPart_keeps | with_reducible apply launchNow_keeps
    | with_reducible apply keeps_ite | with_reducible apply keeps_ite_fst | with_reducible apply forAll_keeps)

theorem frameBoundaryOp_keeps {k0 s : State} (hk : Keeps k0 s) : Keeps k0 (frameBoundaryOp s) := by
  unfold frameBoundaryOp
  try dsimp only
  repeat' (first
    | with_reducible assumption | intro _ | with_reducible apply modPart_keeps | with_reducible apply launchNow_keeps
    | with_reducible apply keeps_ite | with_reducible apply keeps_ite_fst | with_reducible apply forAll_keeps)

theorem installSeed_keeps {k0 s : State} (p : Nat) (hk : Keeps k0 s) : Keeps k0 (State.installSeed p s) := by
  unfold State.installSeed
  try dsimp only
  repeat' (first
    | with_reducible assumption | intro _ | with_reducible apply setF_keeps | with_reducible apply modPart_keeps
    | with_reducible apply keeps_ite)

theorem sendRelease_keeps {k0 s : State} (p : Nat) (r : Release) (hk : Keeps k0 s) : Keeps k0
    (State.sendRelease p r s) := by
  unfold State.sendRelease
  try dsimp only
  repeat' (first
    | with_reducible assumption | intro _ | with_reducible apply setF_keeps | with_reducible apply used_keeps
    | with_reducible apply broadcast_keeps | with_reducible apply installSeed_keeps | with_reducible apply keeps_ite)

theorem takeCkpt_keeps {k0 s : State} (p : Nat) (kind : Nat) (hk : Keeps k0 s) : Keeps k0
    (State.takeCkpt p kind s) := by
  unfold State.takeCkpt
  try dsimp only
  repeat' (first
    | with_reducible assumption | intro _ | with_reducible apply setF_keeps | with_reducible apply modPart_keeps
    | with_reducible apply event_keeps | with_reducible apply keeps_ite)

theorem noteHeld_keeps {k0 s : State} (hk : Keeps k0 s) : Keeps k0 (State.noteHeld s) := by
  unfold State.noteHeld
  try dsimp only
  repeat' (first
    | with_reducible assumption | intro _ | with_reducible apply setF_keeps)

theorem changePoint_keeps {k0 s : State} (hk : Keeps k0 s) : Keeps k0 (State.changePoint s) := by
  unfold State.changePoint
  try dsimp only
  repeat' (first
    | with_reducible assumption | intro _ | with_reducible apply setF_keeps | with_reducible apply incF_keeps
    | with_reducible apply keeps_ite | with_reducible apply keeps_ite_fst | with_reducible apply forAll_keeps
    | with_reducible apply forAll_keeps_fst | refine keeps_of_eq (by with_reducible assumption) ?_ | dsimp only
    | split | with_reducible refine fields_keeps ?_ (by with_reducible rfl) (by with_reducible rfl)
    | with_reducible apply state_keeps | exact Nat.le_refl _ | exact Nat.le_add_right _ _
    | with_reducible apply Mem.write_wf | with_reducible apply Mem.store_wf | with_reducible apply Mem.poison_wf
    | with_reducible apply Mem.setSyn_wf | with_reducible apply all_tblFilter | assumption)

theorem beginHold_keeps {k0 s : State} (p : Nat) (kind : Nat) (h : Hold) (hk : Keeps k0 s) : Keeps k0
    (State.beginHold p kind h s) := by
  unfold State.beginHold
  try dsimp only
  repeat' (first
    | with_reducible assumption | intro _ | with_reducible apply incF_keeps | with_reducible apply modPart_keeps
    | with_reducible apply takeCkpt_keeps | with_reducible apply noteHeld_keeps
    | with_reducible apply changePoint_keeps | with_reducible apply keeps_ite)

theorem releaseOrHold_keeps {k0 s : State} (p : Nat) (drain : Bool) (r : Release) (hk : Keeps k0 s) : Keeps k0
    (State.releaseOrHold p drain r s) := by
  unfold State.releaseOrHold
  try dsimp only
  repeat' (first
    | with_reducible assumption | intro _ | with_reducible apply modPart_keeps
    | with_reducible apply sendRelease_keeps | with_reducible apply beginHold_keeps | with_reducible apply keeps_ite)

theorem setComb_keeps {k0 s : State} (d : Nat) (bid : Nat) (v : Nat × Bool) (hk : Keeps k0 s) : Keeps k0
    (State.setComb d bid v s) := by
  unfold State.setComb
  try dsimp only
  repeat' (first
    | with_reducible assumption | intro _ | with_reducible apply modDie_keeps)

theorem combine_keeps {k0 s : State} (d : Nat) (bid : Nat) (count : Nat) (drain : Bool) (hk : Keeps k0 s) : Keeps k0
    (State.combine d bid count drain s) := by
  unfold State.combine
  try dsimp only
  repeat' (first
    | with_reducible assumption | intro _ | with_reducible apply setComb_keeps | with_reducible apply keeps_ite)

theorem setRootAll_keeps {k0 s : State} (bid : Nat) (b : Bool) (hk : Keeps k0 s) : Keeps k0
    (State.setRootAll bid b s) := by
  unfold State.setRootAll
  try dsimp only
  repeat' (first
    | with_reducible assumption | intro _ | with_reducible apply keeps_ite | with_reducible apply keeps_ite_fst
    | with_reducible apply forAll_keeps | with_reducible apply forAll_keeps_fst
    | refine keeps_of_eq (by with_reducible assumption) ?_ | dsimp only | split
    | with_reducible refine fields_keeps ?_ (by with_reducible rfl) (by with_reducible rfl))

theorem forwardComb_keeps {k0 s : State} (d : Nat) (bid : Nat) (hk : Keeps k0 s) : Keeps k0
    (State.forwardComb d bid s) := by
  unfold State.forwardComb
  try dsimp only
  repeat' (first
    | with_reducible assumption | intro _ | with_reducible apply setF_keeps | with_reducible apply setComb_keeps
    | with_reducible apply setRootAll_keeps | with_reducible apply keeps_ite)

theorem fromTap_keeps {k0 s : State} (d : Nat) (src : Nat) (m : SyncMsg) (hk : Keeps k0 s) : Keeps k0
    (State.fromTap d src m s) := by
  unfold State.fromTap
  try dsimp only
  repeat' (first
    | with_reducible assumption | intro _ | with_reducible apply routeSync_keeps | with_reducible apply combine_keeps
    | with_reducible apply keeps_ite | with_reducible apply keeps_ite_fst | with_reducible apply forAll_keeps
    | with_reducible apply forAll_keeps_fst | refine keeps_of_eq (by with_reducible assumption) ?_ | dsimp only
    | split)

theorem tapTakes_keeps {k0 s t : State} {d src : Nat} {at_ : Pass} {m : SyncMsg} (e : s.tapTakes d at_ = some
    (src, m, t))
    (hk : Keeps k0 s) : Keeps k0 t := by
  unfold State.tapTakes at e
  split at e
  · split at e
    · split at e
      · cases e; exact setSync_keeps _ _ _ (ringTo_keeps _ _ hk)
      · cases e
    · cases e
  · split at e
    · split at e
      · split at e
        · cases e
        · cases e; exact setSlot_keeps _ _ _ _ (ringTo_keeps _ _ hk)
      · cases e
    · cases e

theorem dieCombineOp_keeps {k0 s : State} (d : Nat) (meet : Option Pass) (hk : Keeps k0 s) : Keeps k0
    (dieCombineOp d meet s) := by
  unfold dieCombineOp
  refine forAll_keeps (fun x u h => forwardComb_keeps _ _ h) ?_
  split
  · rename_i e
    cases meet with
    | none => cases e
    | some p => exact fromTap_keeps _ _ _ (tapTakes_keeps e hk)
  · exact hk

theorem lreleaseOp_keeps {k0 s : State} (bid : Nat) (dlset : Bool) (dlctr : Nat) (install : Bool) (hk : Keeps k0 s) :
    Keeps k0 (lreleaseOp bid dlset dlctr install s) := by
  unfold lreleaseOp
  try dsimp only
  repeat' (first
    | with_reducible assumption | intro _ | with_reducible apply modPart_keeps
    | with_reducible apply releaseOrHold_keeps | with_reducible apply setRootAll_keeps
    | with_reducible apply keeps_ite)

theorem setHome_keeps {k0 s : State} (bid : Nat) (l : List Nat) (all : Bool) (hk : Keeps k0 s) : Keeps k0
    (State.setHome bid l all s) := by
  unfold State.setHome
  try dsimp only
  repeat' (first
    | with_reducible assumption | intro _ | with_reducible apply keeps_ite | with_reducible apply keeps_ite_fst
    | with_reducible apply forAll_keeps | with_reducible apply forAll_keeps_fst
    | refine keeps_of_eq (by with_reducible assumption) ?_ | dsimp only | split
    | with_reducible refine fields_keeps ?_ (by with_reducible rfl) (by with_reducible rfl))

theorem homeComplete_keeps {k0 s : State} (bid : Nat) (hk : Keeps k0 s) : Keeps k0 (State.homeComplete bid s) := by
  unfold State.homeComplete
  try dsimp only
  repeat' (first
    | with_reducible assumption | intro _ | with_reducible apply setF_keeps | with_reducible apply linkSendOut_keeps
    | with_reducible apply lreleaseOp_keeps | with_reducible apply setHome_keeps | with_reducible apply keeps_ite
    | with_reducible apply keeps_ite_fst | with_reducible apply forAll_keeps)

theorem larriveOp_keeps {k0 s : State} (bid : Nat) (count : Nat) (spkg : Nat) (drain : Bool) (hk : Keeps k0 s) : Keeps
    k0 (larriveOp bid count spkg drain s) := by
  unfold larriveOp
  try dsimp only
  repeat' (first
    | with_reducible assumption | intro _ | with_reducible apply setF_keeps | with_reducible apply remoteFault_keeps
    | with_reducible apply setHome_keeps | with_reducible apply homeComplete_keeps | with_reducible apply keeps_ite
    | with_reducible apply keeps_ite_fst | with_reducible apply forAll_keeps | with_reducible apply forAll_keeps_fst
    | refine keeps_of_eq (by with_reducible assumption) ?_ | dsimp only | split)

theorem spanComplete_keeps {k0 s : State} (bid : Nat) (hk : Keeps k0 s) : Keeps k0 (State.spanComplete bid s) := by
  unfold State.spanComplete
  try dsimp only
  repeat' (first
    | with_reducible assumption | intro _ | with_reducible apply setF_keeps | with_reducible apply linkSendOut_keeps
    | with_reducible apply larriveOp_keeps | with_reducible apply keeps_ite)

theorem barrierRootCompleteOp_keeps {k0 s : State} (bid : Nat) (hk : Keeps k0 s) : Keeps k0
    (barrierRootCompleteOp bid s) := by
  unfold barrierRootCompleteOp
  try dsimp only
  repeat' (first
    | with_reducible assumption | intro _ | with_reducible apply setF_keeps | with_reducible apply releaseOrHold_keeps
    | with_reducible apply setRootAll_keeps | with_reducible apply spanComplete_keeps
    | with_reducible apply keeps_ite)

theorem applyRelease_keeps {k0 s : State} (lid : Nat) (bid : Nat) (dlset : Bool) (dlctr : Nat) (install : Bool)
    (hk : Keeps k0 s) : Keeps k0 (State.applyRelease lid bid dlset dlctr install s) := by
  unfold State.applyRelease
  try dsimp only
  repeat' (first
    | with_reducible assumption | intro _ | with_reducible apply setF_keeps | with_reducible apply modStop_keeps
    | with_reducible apply resolveCtr_keeps | with_reducible apply remoteAdd_keeps | with_reducible apply keeps_ite
    | with_reducible apply keeps_ite_fst | with_reducible apply forAll_keeps | with_reducible apply forAll_keeps_fst
    | refine keeps_of_eq (by with_reducible assumption) ?_ | dsimp only | split)

theorem fieldOn_keeps {k0 s : State} (d : Nat) (slot : Nat) (t : Nat) (f : FieldMsg) (hk : Keeps k0 s) : Keeps k0
    (State.fieldOn d slot t f s) := by
  unfold State.fieldOn
  try dsimp only
  repeat' (first
    | with_reducible assumption | intro _ | with_reducible apply setSync_keeps | with_reducible apply ringTo_keeps)

theorem meetRelease_keeps {k0 s : State} (lid : Nat) (slot : Nat) (hk : Keeps k0 s) : Keeps k0
    (meetRelease lid slot s) := by
  unfold meetRelease
  try dsimp only
  repeat' (first
    | with_reducible assumption | intro _ | with_reducible apply modStop_keeps | with_reducible apply on_keeps
    | with_reducible apply applyRelease_keeps | with_reducible apply fieldOn_keeps | with_reducible apply keeps_ite
    | with_reducible apply keeps_ite_fst | with_reducible apply forAll_keeps | with_reducible apply forAll_keeps_fst
    | refine keeps_of_eq (by with_reducible assumption) ?_ | dsimp only | split)

theorem applyHeld_keeps {k0 s : State} (lid : Nat) (late : Bool) (hk : Keeps k0 s) : Keeps k0 (applyHeld lid late s)
    := by
  unfold applyHeld
  try dsimp only
  repeat' (first
    | with_reducible assumption | intro _ | with_reducible apply modStop_keeps
    | with_reducible apply remoteFault_keeps | with_reducible apply applyRelease_keeps
    | with_reducible apply keeps_ite | with_reducible apply keeps_ite_fst | with_reducible apply forAll_keeps
    | with_reducible apply forAll_keeps_fst | refine keeps_of_eq (by with_reducible assumption) ?_ | dsimp only
    | split)

theorem barrierReleaseApplyOp_keeps {k0 s : State} (lid : Nat) (come : ReleaseCome) (hk : Keeps k0 s) :
    Keeps k0 (barrierReleaseApplyOp lid come s) := by
  unfold barrierReleaseApplyOp
  try dsimp only
  repeat' (first
    | with_reducible assumption | intro _ | with_reducible apply meetRelease_keeps
    | with_reducible apply applyHeld_keeps | with_reducible apply keeps_ite | with_reducible apply keeps_ite_fst
    | with_reducible apply forAll_keeps | with_reducible apply forAll_keeps_fst
    | refine keeps_of_eq (by with_reducible assumption) ?_ | dsimp only | split)

theorem seedStageOp_keeps {k0 s : State} (lid : Nat) (slot : Nat) (hk : Keeps k0 s) : Keeps k0
    (seedStageOp lid slot s) := by
  unfold seedStageOp
  try dsimp only
  repeat' (first
    | with_reducible assumption | intro _ | with_reducible apply modStop_keeps | with_reducible apply fieldOn_keeps
    | with_reducible apply keeps_ite | with_reducible apply keeps_ite_fst | with_reducible apply forAll_keeps
    | with_reducible apply forAll_keeps_fst | refine keeps_of_eq (by with_reducible assumption) ?_ | dsimp only
    | split)

end Sys2Proof.Machine
end

