-- ==== Sys2Proof/Laws/KeepsHbmWord.lean ====
section
/-!
SUPPORT. What the operations of Machine/HbmWord.lean keep (`Keeps`): one lemma each.
-/
namespace Sys2Proof.Machine

theorem rowDue_keeps {k0 s : State} (k : Nat × Nat × Nat) (hk : Keeps k0 s) : Keeps k0 (State.rowDue k s) := by
  unfold State.rowDue
  try dsimp only
  repeat' (first
    | with_reducible assumption | intro _ | with_reducible apply modCtl_keeps | with_reducible apply keeps_ite)

theorem noteRemap_keeps {k0 s : State} (a : Nat) (n : Nat) (hk : Keeps k0 s) : Keeps k0 (State.noteRemap a n s) := by
  unfold State.noteRemap
  try dsimp only
  repeat' (first
    | with_reducible assumption | intro _ | with_reducible apply incF_keeps | with_reducible apply keeps_ite
    | with_reducible apply keeps_ite_fst | with_reducible apply forAll_keeps)

theorem noteLap_keeps {k0 s : State} (w : Nat) (hk : Keeps k0 s) : Keeps k0 (State.noteLap w s) := by
  unfold State.noteLap
  try dsimp only
  repeat' (first
    | with_reducible assumption | intro _ | with_reducible apply modCtl_keeps | with_reducible apply rowDue_keeps
    | with_reducible apply keeps_ite)

theorem correctHbm_keeps {k0 s : State} (enter : Bool) (w : Nat) (hk : Keeps k0 s) : Keeps k0
    (State.correctHbm enter w s) := by
  unfold State.correctHbm
  try dsimp only
  repeat' (first
    | with_reducible assumption | intro _ | with_reducible apply incF_keeps | with_reducible apply modCtl_keeps
    | with_reducible apply log_keeps | with_reducible apply noteLap_keeps | with_reducible apply keeps_ite)

theorem noteHbm_keeps {k0 s : State} (w : Nat) (hk : Keeps k0 s) : Keeps k0 (State.noteHbm w s) := by
  unfold State.noteHbm
  try dsimp only
  repeat' (first
    | with_reducible assumption | intro _ | with_reducible apply incF_keeps | with_reducible apply log_keeps
    | with_reducible apply rowDue_keeps | with_reducible apply correctHbm_keeps | with_reducible apply keeps_ite
    | with_reducible apply keeps_ite_fst | with_reducible apply forAll_keeps | with_reducible apply forAll_keeps_fst
    | refine keeps_of_eq (by with_reducible assumption) ?_ | dsimp only | split)

theorem noteHbmRead_keeps {k0 s : State} (a : Nat) (n : Nat) (hk : Keeps k0 s) : Keeps k0
    (State.noteHbmRead a n s) := by
  unfold State.noteHbmRead
  try dsimp only
  repeat' (first
    | with_reducible assumption | intro _ | with_reducible apply noteRemap_keeps | with_reducible apply noteHbm_keeps
    | with_reducible apply keeps_ite | with_reducible apply keeps_ite_fst | with_reducible apply forAll_keeps)

theorem wrHbm_keeps {k0 s : State} (a : Nat) (bs : List Byte) (hk : Keeps k0 s) : Keeps k0 (State.wrHbm a bs s) := by
  unfold State.wrHbm
  try dsimp only
  repeat' (first
    | with_reducible assumption | intro _ | with_reducible apply incF_keeps | with_reducible apply putHbm_keeps
    | with_reducible apply correctHbm_keeps | with_reducible apply keeps_ite | with_reducible apply keeps_ite_fst
    | with_reducible apply forAll_keeps)

theorem wrHbmPoison_keeps {k0 s : State} (a : Nat) (bs : List Byte) (hk : Keeps k0 s) : Keeps k0
    (State.wrHbmPoison a bs s) := by
  unfold State.wrHbmPoison
  try dsimp only
  repeat' (first
    | with_reducible assumption | intro _ | with_reducible apply incF_keeps | with_reducible apply keeps_ite
    | with_reducible apply keeps_ite_fst | with_reducible apply forAll_keeps | with_reducible apply forAll_keeps_fst
    | refine keeps_of_eq (by with_reducible assumption) ?_ | dsimp only | split
    | with_reducible refine fields_keeps ?_ (by with_reducible rfl) (by with_reducible rfl)
    | with_reducible apply state_keeps | exact Nat.le_refl _ | exact Nat.le_add_right _ _
    | with_reducible apply Mem.write_wf | with_reducible apply Mem.store_wf | with_reducible apply Mem.poison_wf)

end Sys2Proof.Machine
end

