-- ==== Sys2Proof/Laws/KeepsLinks.lean ====
section
/-!
SUPPORT. What the operations of Machine/Links.lean keep (`Keeps`): one lemma each.
-/
namespace Sys2Proof.Machine

theorem linkMsg_keeps {k0 s : State} (spkg : Nat) (m : LinkMsg) (hk : Keeps k0 s) : Keeps k0
    (State.linkMsg spkg m s) := by
  unfold State.linkMsg
  try dsimp only
  repeat' (first
    | with_reducible assumption | intro _ | with_reducible apply messageHere_keeps
    | with_reducible apply lreleaseOp_keeps | with_reducible apply larriveOp_keeps | with_reducible apply keeps_ite
    | with_reducible apply keeps_ite_fst | with_reducible apply forAll_keeps | with_reducible apply forAll_keeps_fst
    | refine keeps_of_eq (by with_reducible assumption) ?_ | dsimp only | split)

theorem linkDeliver_keeps {k0 s : State} (f : LinkFlit) (hk : Keeps k0 s) : Keeps k0 (State.linkDeliver f s) := by
  unfold State.linkDeliver
  try dsimp only
  repeat' (first
    | with_reducible assumption | intro _ | with_reducible apply importNotices_keeps
    | with_reducible apply deliverHere_keeps | with_reducible apply linkSendOut_keeps
    | with_reducible apply linkMsg_keeps | with_reducible apply keeps_ite | with_reducible apply keeps_ite_fst
    | with_reducible apply forAll_keeps | with_reducible apply forAll_keeps_fst
    | refine keeps_of_eq (by with_reducible assumption) ?_ | dsimp only | split)

theorem linkAccept_keeps {k0 s : State} (n : Nat) (x : LinkTx) (hk : Keeps k0 s) : Keeps k0
    (State.linkAccept n x s) := by
  unfold State.linkAccept
  try dsimp only
  repeat' (first
    | with_reducible assumption | intro _ | with_reducible apply takePlace_keeps
    | with_reducible apply freePlace_keeps | with_reducible apply linkForward_keeps
    | with_reducible apply linkDeliver_keeps | with_reducible apply keeps_ite)

theorem reorder_keeps {k0 s : State} (k n : Nat) (hk : Keeps k0 s) : Keeps k0 (State.reorder k n s) := by
  induction n generalizing s with
  | zero => exact hk
  | succ n ih =>
    unfold State.reorder
    split
    · exact hk
    · exact ih (linkAccept_keeps _ _ (modPort_keeps _ _ hk))

theorem takeFlit_keeps {k0 s : State} (n : Nat) (x : LinkTx) (hk : Keeps k0 s) : Keeps k0 (takeFlit n x s) := by
  unfold takeFlit
  try dsimp only
  repeat' (first
    | with_reducible assumption | intro _ | with_reducible apply modLink_keeps | with_reducible apply modPort_keeps
    | with_reducible apply emit_keeps | with_reducible apply reorder_keeps | with_reducible apply keeps_ite)

theorem flitIn_keeps {k0 s : State} (n : Nat) (x : Option LinkTx) (hk : Keeps k0 s) : Keeps k0 (flitIn n x s) := by
  unfold flitIn
  try dsimp only
  repeat' (first
    | with_reducible assumption | intro _ | with_reducible apply modLink_keeps | with_reducible apply emit_keeps
    | with_reducible apply takeFlit_keeps | with_reducible apply keeps_ite | with_reducible apply keeps_ite_fst
    | with_reducible apply forAll_keeps | with_reducible apply forAll_keeps_fst
    | refine keeps_of_eq (by with_reducible assumption) ?_ | dsimp only | split)

theorem linkFlitReceiveOp_keeps {k0 s : State} (n : Nat) (lanes : List (List Sym)) (i : Nat) (hk : Keeps k0 s) : Keeps
    k0 (linkFlitReceiveOp n lanes i s) := by
  unfold linkFlitReceiveOp
  try dsimp only
  repeat' (first
    | with_reducible assumption | intro _ | with_reducible apply flitIn_keeps | with_reducible apply keeps_ite)

theorem refreshPort_keeps {k0 s : State} (k : Nat) (hk : Keeps k0 s) : Keeps k0 (State.refreshPort k s) := by
  unfold State.refreshPort
  try dsimp only
  repeat' (first
    | with_reducible assumption | intro _ | with_reducible apply setF_keeps | with_reducible apply event_keeps
    | with_reducible apply requeue_keeps | with_reducible apply keeps_ite)

theorem resendElsewhere_keeps {k0 s : State} (k : Nat) (l : List LinkTx) (hk : Keeps k0 s) :
    Keeps k0 (State.resendElsewhere k l s).1 := by
  induction l generalizing s with
  | nil => exact hk
  | cons x l ih =>
    unfold State.resendElsewhere
    split
    · exact hk
    · exact ih (emit_keeps _ (modPort_keeps _ _ (modLink_keeps _ _ hk)))

theorem linkOut_keeps {k0 s : State} (n : Nat) (st : Nat) (hk : Keeps k0 s) : Keeps k0 (State.linkOut n st s) := by
  unfold State.linkOut
  try dsimp only
  repeat' (first
    | with_reducible assumption | intro _ | with_reducible apply setF_keeps | with_reducible apply modLink_keeps
    | with_reducible apply refreshPort_keeps | with_reducible apply resendElsewhere_keeps)

theorem linkRetrainOp_keeps {k0 s : State} (n : Nat) (hk : Keeps k0 s) : Keeps k0 (linkRetrainOp n s) := by
  unfold linkRetrainOp
  try dsimp only
  repeat' (first
    | with_reducible assumption | intro _ | with_reducible apply incF_keeps | with_reducible apply linkOut_keeps
    | with_reducible apply keeps_ite)

theorem retrainingCompleteOp_keeps {k0 s : State} (n : Nat) (r : LaneResult) (hk : Keeps k0 s) : Keeps k0
    (retrainingCompleteOp n r s) := by
  unfold retrainingCompleteOp
  try dsimp only
  repeat' (first
    | with_reducible assumption | intro _ | with_reducible apply setF_keeps | with_reducible apply modLink_keeps
    | with_reducible apply log_keeps | with_reducible apply emit_keeps | with_reducible apply pump_keeps
    | with_reducible apply refreshPort_keeps | with_reducible apply keeps_ite | with_reducible apply keeps_ite_fst
    | with_reducible apply forAll_keeps)

theorem linkDownOp_keeps {k0 s : State} (n : Nat) (wrongNeighbour : Bool) (hk : Keeps k0 s) : Keeps k0
    (linkDownOp n wrongNeighbour s) := by
  unfold linkDownOp
  try dsimp only
  repeat' (first
    | with_reducible assumption | intro _ | with_reducible apply setF_keeps | with_reducible apply event_keeps
    | with_reducible apply requeue_keeps | with_reducible apply linkOut_keeps | with_reducible apply keeps_ite)

theorem wordIn_keeps {k0 s : State} (n : Nat) (w : BitVec 40) (hk : Keeps k0 s) : Keeps k0 (wordIn n w s) := by
  unfold wordIn
  try dsimp only
  repeat' (first
    | with_reducible assumption | intro _ | with_reducible apply incF_keeps | with_reducible apply modLink_keeps
    | with_reducible apply modPort_keeps | with_reducible apply log_keeps | with_reducible apply emit_keeps
    | with_reducible apply pump_keeps | with_reducible apply linkRetrainOp_keeps | with_reducible apply keeps_ite
    | with_reducible apply keeps_ite_fst | with_reducible apply forAll_keeps)

theorem groupControlWordOp_keeps {k0 s : State} (n : Nat) (lanes : List (List Sym)) (hk : Keeps k0 s) : Keeps k0
    (groupControlWordOp n lanes s) := by
  unfold groupControlWordOp
  try dsimp only
  repeat' (first
    | with_reducible assumption | intro _ | with_reducible apply incF_keeps | with_reducible apply log_keeps
    | with_reducible apply wordIn_keeps | with_reducible apply keeps_ite | with_reducible apply keeps_ite_fst
    | with_reducible apply forAll_keeps | with_reducible apply forAll_keeps_fst
    | refine keeps_of_eq (by with_reducible assumption) ?_ | dsimp only | split)

theorem linkNoticeFlushOp_keeps {k0 s : State} (q : Nat) (hk : Keeps k0 s) : Keeps k0 (linkNoticeFlushOp q s) := by
  unfold linkNoticeFlushOp
  try dsimp only
  repeat' (first
    | with_reducible assumption | intro _ | with_reducible apply sendPack_keeps)

theorem trainLink_keeps {k0 s : State} (found : List LinkFound) (n : Nat) (hk : Keeps k0 s) : Keeps k0
    (State.trainLink found n s) := by
  unfold State.trainLink
  try dsimp only
  repeat' (first
    | with_reducible assumption | intro _ | with_reducible apply setF_keeps | with_reducible apply modLink_keeps)

theorem trainPort_keeps {k0 s : State} (found : List LinkFound) (k : Nat) (hk : Keeps k0 s) : Keeps k0
    (State.trainPort found k s) := by
  unfold State.trainPort
  try dsimp only
  repeat' (first
    | with_reducible assumption | intro _ | with_reducible apply setF_keeps | with_reducible apply modPort_keeps)

theorem trainLinks_keeps {k0 s : State} (found : List LinkFound) (hk : Keeps k0 s) : Keeps k0
    (State.trainLinks found s) := by
  unfold State.trainLinks
  try dsimp only
  repeat' (first
    | with_reducible assumption | intro _ | with_reducible apply setF_keeps | with_reducible apply event_keeps
    | with_reducible apply linkSendOut_keeps | with_reducible apply trainLink_keeps
    | with_reducible apply trainPort_keeps | with_reducible apply keeps_ite | with_reducible apply keeps_ite_fst
    | with_reducible apply forAll_keeps | with_reducible apply forAll_keeps_fst
    | refine keeps_of_eq (by with_reducible assumption) ?_ | dsimp only | split
    | with_reducible refine fields_keeps ?_ (by with_reducible rfl) (by with_reducible rfl))

theorem retrain_keeps {k0 s : State} (found : List LinkFound) (hk : Keeps k0 s) : Keeps k0 (State.retrain found s) := by
  unfold State.retrain
  try dsimp only
  repeat' (first
    | with_reducible assumption | intro _ | with_reducible apply ignored_keeps | with_reducible apply trainLinks_keeps
    | with_reducible apply keeps_ite)

theorem retrainOp_keeps {k0 s : State} (found : List LinkFound) (hk : Keeps k0 s) : Keeps k0 (retrainOp found s) := by
  unfold retrainOp
  try dsimp only
  repeat' (first
    | with_reducible assumption | intro _ | with_reducible apply hostAct_keeps | with_reducible apply retrain_keeps)

theorem retrainFree_keeps {k0 s : State} (hk : Keeps k0 s) : Keeps k0 (State.retrainFree s) := by
  unfold State.retrainFree
  try dsimp only
  repeat' (first
    | with_reducible assumption | intro _ | with_reducible apply retrain_keeps | with_reducible apply keeps_ite
    | with_reducible apply keeps_ite_fst | with_reducible apply forAll_keeps | with_reducible apply forAll_keeps_fst
    | refine keeps_of_eq (by with_reducible assumption) ?_ | dsimp only | split
    | with_reducible refine fields_keeps ?_ (by with_reducible rfl) (by with_reducible rfl)
    | with_reducible apply state_keeps | exact Nat.le_refl _ | exact Nat.le_add_right _ _)

end Sys2Proof.Machine
end

