-- ==== Sys2Proof/Laws/KeepsCrc.lean ====
section
/-!
SUPPORT. What the operations of Machine/Crc.lean keep (`Keeps`): one lemma each.
-/
namespace Sys2Proof.Machine

theorem emptySlot_keeps {k0 s : State} (u : Nat) (k : Nat) (hk : Keeps k0 s) : Keeps k0 (State.emptySlot u k s) := by
  unfold State.emptySlot
  try dsimp only
  repeat' (first
    | with_reducible assumption | intro _ | with_reducible apply setF_keeps | with_reducible apply modUnit_keeps)

theorem countUnit_keeps {k0 s : State} (u : Nat) (k : Nat) (o : Nat) (bs : List Byte) (bad : Bool) (n : Nat)
    (total : Nat) (hk : Keeps k0 s) : Keeps k0 (State.countUnit u k o bs bad n total s) := by
  unfold State.countUnit
  try dsimp only
  repeat' (first
    | with_reducible assumption | intro _ | with_reducible apply setF_keeps | with_reducible apply keeps_ite)

theorem evaluate_keeps {k0 s : State} (u : Nat) (k : Nat) (hk : Keeps k0 s) : Keeps k0 (State.evaluate u k s) := by
  unfold State.evaluate
  try dsimp only
  repeat' (first
    | with_reducible assumption | intro _ | with_reducible apply modUnit_keeps)

theorem checkBlock_keeps {k0 s : State} (u : Nat) (hk : Keeps k0 s) : Keeps k0 (State.checkBlock u s).1 := by
  unfold State.checkBlock
  try dsimp only
  repeat' (first
    | with_reducible assumption | intro _ | with_reducible apply setF_keeps | with_reducible apply incF_keeps
    | with_reducible apply event_keeps | with_reducible apply keeps_ite)

theorem forwardBlock_keeps {k0 s : State} (u : Nat) (st : Nat) (hk : Keeps k0 s) : Keeps k0
    (State.forwardBlock u st s) := by
  unfold State.forwardBlock
  try dsimp only
  repeat' (first
    | with_reducible assumption | intro _ | with_reducible apply setF_keeps | with_reducible apply forwardLaunch_keeps
    | with_reducible apply emptySlot_keeps)

theorem runLaunches_keeps {k0 s : State} (u n : Nat) (hk : Keeps k0 s) : Keeps k0 (State.runLaunches u n s) := by
  induction n generalizing s with
  | zero => exact hk
  | succ n ih =>
    have hc := checkBlock_keeps u hk
    exact keeps_ite hk (keeps_ite (modUnit_keeps _ _ hc) (ih (setF_keeps _ _ (forwardBlock_keeps _ _ hc))))

theorem runHeld_keeps {k0 s : State} (u : Nat) (hk : Keeps k0 s) : Keeps k0 (State.runHeld u s) := by
  unfold State.runHeld
  try dsimp only
  repeat' (first
    | with_reducible assumption | intro _ | with_reducible apply runLaunches_keeps | with_reducible apply keeps_ite)

theorem forwardHeld_keeps {k0 s : State} (u : Nat) (hk : Keeps k0 s) : Keeps k0 (State.forwardHeld u s) := by
  unfold State.forwardHeld
  try dsimp only
  repeat' (first
    | with_reducible assumption | intro _ | with_reducible apply setF_keeps | with_reducible apply forwardBlock_keeps
    | with_reducible apply runHeld_keeps | with_reducible apply keeps_ite)

theorem unitLaunches_keeps {k0 s : State} (u : Nat) (n : Nat) (hk : Keeps k0 s) : Keeps k0
    (State.unitLaunches u n s) := by
  unfold State.unitLaunches
  try dsimp only
  repeat' (first
    | with_reducible assumption | intro _ | with_reducible apply setF_keeps | with_reducible apply runLaunches_keeps
    | with_reducible apply keeps_ite)

theorem hostLaunch_keeps {k0 s : State} (h : Nat) (n : Nat) (hk : Keeps k0 s) : Keeps k0 (State.hostLaunch h n s) := by
  unfold State.hostLaunch
  try dsimp only
  repeat' (first
    | with_reducible assumption | intro _ | with_reducible apply forwardLaunch_keeps
    | with_reducible apply unitLaunches_keeps | with_reducible apply keeps_ite | with_reducible apply keeps_ite_fst
    | with_reducible apply forAll_keeps | with_reducible apply forAll_keeps_fst
    | refine keeps_of_eq (by with_reducible assumption) ?_ | dsimp only | split)

theorem inputWrite_keeps {k0 s : State} (a : Nat) (whole : Bool) (poison : Bool) (hk : Keeps k0 s) : Keeps k0
    (State.inputWrite a whole poison s) := by
  unfold State.inputWrite
  try dsimp only
  repeat' (first
    | with_reducible assumption | intro _ | with_reducible apply setF_keeps | with_reducible apply countUnit_keeps
    | with_reducible apply evaluate_keeps | with_reducible apply runHeld_keeps | with_reducible apply keeps_ite
    | with_reducible apply keeps_ite_fst | with_reducible apply forAll_keeps | with_reducible apply forAll_keeps_fst
    | refine keeps_of_eq (by with_reducible assumption) ?_ | dsimp only | split)

theorem crcRefillOp_keeps {k0 s : State} (u : Nat) (k : Nat) (hk : Keeps k0 s) : Keeps k0 (crcRefillOp u k s) := by
  unfold crcRefillOp
  try dsimp only
  repeat' (first
    | with_reducible assumption | intro _ | with_reducible apply modUnit_keeps | with_reducible apply hostAct_keeps
    | with_reducible apply emptySlot_keeps | with_reducible apply keeps_ite)

theorem crcReleaseOp_keeps {k0 s : State} (u : Nat) (hk : Keeps k0 s) : Keeps k0 (crcReleaseOp u s) := by
  unfold crcReleaseOp
  try dsimp only
  repeat' (first
    | with_reducible assumption | intro _ | with_reducible apply setF_keeps | with_reducible apply hostAct_keeps
    | with_reducible apply forwardBlock_keeps | with_reducible apply runHeld_keeps | with_reducible apply keeps_ite)

theorem crcDropOp_keeps {k0 s : State} (u : Nat) (hk : Keeps k0 s) : Keeps k0 (crcDropOp u s) := by
  unfold crcDropOp
  try dsimp only
  repeat' (first
    | with_reducible assumption | intro _ | with_reducible apply setF_keeps | with_reducible apply incF_keeps
    | with_reducible apply hostAct_keeps | with_reducible apply emptySlot_keeps | with_reducible apply runHeld_keeps
    | with_reducible apply keeps_ite)

theorem recordUnit_keeps {k0 s : State} (u : Nat) (k : Nat) (o : Nat) (n : Nat) (bs : List Byte) (bad : Bool)
    (hk : Keeps k0 s) : Keeps k0 (State.recordUnit u k o n bs bad s) := by
  unfold State.recordUnit
  try dsimp only
  repeat' (first
    | with_reducible assumption | intro _ | with_reducible apply countUnit_keeps | with_reducible apply keeps_ite)

theorem recordHeader_keeps {k0 s : State} (u : Nat) (k : Nat) (bs : List Byte) (bad : Bool) (hk : Keeps k0 s) : Keeps
    k0 (State.recordHeader u k bs bad s).1 := by
  unfold State.recordHeader
  try dsimp only
  repeat' (first
    | with_reducible assumption | intro _ | with_reducible apply setF_keeps | with_reducible apply modUnit_keeps
    | with_reducible apply recordUnit_keeps | with_reducible apply keeps_ite | with_reducible apply keeps_ite_fst
    | with_reducible apply forAll_keeps)

theorem outputWrite_keeps {k0 s : State} (a : Nat) (bs : List Byte) (poison : Bool) (hk : Keeps k0 s) : Keeps k0
    (State.outputWrite a bs poison s).1 := by
  unfold State.outputWrite
  try dsimp only
  repeat' (first
    | with_reducible assumption | intro _ | with_reducible apply modUnit_keeps | with_reducible apply recordUnit_keeps
    | with_reducible apply recordHeader_keeps | with_reducible apply keeps_ite | with_reducible apply keeps_ite_fst
    | with_reducible apply forAll_keeps | with_reducible apply forAll_keeps_fst
    | refine keeps_of_eq (by with_reducible assumption) ?_ | dsimp only | split)

theorem closeRecord_keeps {k0 s : State} (u : Nat) (hk : Keeps k0 s) : Keeps k0 (State.closeRecord u s) := by
  unfold State.closeRecord
  try dsimp only
  repeat' (first
    | with_reducible assumption | intro _ | with_reducible apply setF_keeps | with_reducible apply incF_keeps
    | with_reducible apply emptySlot_keeps | with_reducible apply keeps_ite | with_reducible apply keeps_ite_fst
    | with_reducible apply forAll_keeps | with_reducible apply forAll_keeps_fst
    | refine keeps_of_eq (by with_reducible assumption) ?_ | dsimp only | split)

theorem closeRecords_keeps {k0 s : State} (h : Nat) (hk : Keeps k0 s) : Keeps k0 (State.closeRecords h s) := by
  unfold State.closeRecords
  try dsimp only
  repeat' (first
    | with_reducible assumption | intro _ | with_reducible apply closeRecord_keeps | with_reducible apply keeps_ite
    | with_reducible apply keeps_ite_fst | with_reducible apply forAll_keeps)

theorem resumeSlot_keeps {k0 s : State} (u : Nat) (k : Nat) (hk : Keeps k0 s) : Keeps k0 (State.resumeSlot u k s) := by
  unfold State.resumeSlot
  try dsimp only
  repeat' (first
    | with_reducible assumption | intro _ | with_reducible apply setF_keeps | with_reducible apply evaluate_keeps
    | with_reducible apply keeps_ite)

theorem crcWrite_keeps {k0 s : State} (u : Nat) (o : Nat) (size : Nat) (v : W64) (hk : Keeps k0 s) : Keeps k0
    (State.crcWrite u o size v s) := by
  unfold State.crcWrite
  try dsimp only
  repeat' (first
    | with_reducible assumption | intro _ | with_reducible apply setF_keeps | with_reducible apply plainWrite_keeps
    | with_reducible apply resumeSlot_keeps | with_reducible apply keeps_ite | with_reducible apply keeps_ite_fst
    | with_reducible apply forAll_keeps | with_reducible apply forAll_keeps_fst
    | refine keeps_of_eq (by with_reducible assumption) ?_ | dsimp only | split)

theorem crcConfigWriteOp_keeps {k0 s : State} (u : Nat) (o : Nat) (size : Nat) (v : W64) (hk : Keeps k0 s) : Keeps k0
    (crcConfigWriteOp u o size v s) := by
  unfold crcConfigWriteOp
  try dsimp only
  repeat' (first
    | with_reducible assumption | intro _ | with_reducible apply ignored_keeps | with_reducible apply hostAct_keeps
    | with_reducible apply crcWrite_keeps | with_reducible apply keeps_ite)

theorem clearUnit_keeps {k0 s : State} (u : Nat) (hk : Keeps k0 s) : Keeps k0 (State.clearUnit u s) := by
  unfold State.clearUnit
  try dsimp only
  repeat' (first
    | with_reducible assumption | intro _ | with_reducible apply setF_keeps | with_reducible apply incF_keeps
    | with_reducible apply modUnit_keeps | with_reducible apply emptySlot_keeps | with_reducible apply keeps_ite
    | with_reducible apply keeps_ite_fst | with_reducible apply forAll_keeps)

end Sys2Proof.Machine
end

