-- ==== Sys2Proof/Laws/KeepsHostCtr.lean ====
section
/-!
SUPPORT. What the operations of Machine/HostCtr.lean keep (`Keeps`): one lemma each.
-/
namespace Sys2Proof.Machine

theorem aliveAct_keeps {k0 s : State} (cause : Nat) (write : Bool) (o : Nat) {f : State → State} (hf : ∀  u, Keeps k0
    u → Keeps k0 (f u)) (hk : Keeps k0 s) : Keeps k0 (State.aliveAct cause write o f s) := by
  unfold State.aliveAct
  try dsimp only
  repeat' (first
    | with_reducible assumption | intro _ | with_reducible apply hf | with_reducible apply ignored_keeps
    | with_reducible apply hostAct_keeps | with_reducible apply keeps_ite)

theorem hostCounterAddOp_keeps {k0 s : State} (h : Nat) (n : Nat) (hk : Keeps k0 s) : Keeps k0
    (hostCounterAddOp h n s) := by
  unfold hostCounterAddOp
  try dsimp only
  repeat' (first
    | with_reducible assumption | intro _ | with_reducible apply setF_keeps | with_reducible apply ignored_keeps
    | with_reducible apply resolveWatches_keeps | with_reducible apply hostLaunch_keeps
    | with_reducible apply aliveAct_keeps | with_reducible apply keeps_ite)

theorem takeResult_keeps {k0 s : State} (h : Nat) (n : Nat) (hk : Keeps k0 s) : Keeps k0
    (State.takeResult h n s).1 := by
  unfold State.takeResult
  try dsimp only
  repeat' (first
    | with_reducible assumption | intro _ | with_reducible apply setF_keeps | with_reducible apply ignored_keeps
    | with_reducible apply resolveWatches_keeps | with_reducible apply keeps_ite | with_reducible apply keeps_ite_fst)

theorem hostTakeOp_keeps {k0 s : State} (h : Nat) (n : Nat) (hk : Keeps k0 s) : Keeps k0 (hostTakeOp h n s) := by
  unfold hostTakeOp
  try dsimp only
  repeat' (first
    | with_reducible assumption | intro _ | with_reducible apply emit_keeps | with_reducible apply takeResult_keeps)

theorem hostCounterPatternAddOp_keeps {k0 s : State} (h : Nat) (hk : Keeps k0 s) : Keeps k0
    (hostCounterPatternAddOp h s) := by
  unfold hostCounterPatternAddOp
  try dsimp only
  repeat' (first
    | with_reducible assumption | intro _ | with_reducible apply setF_keeps
    | with_reducible apply resolveWatches_keeps | with_reducible apply remoteFault_keeps
    | with_reducible apply closeRecords_keeps | with_reducible apply keeps_ite | with_reducible apply keeps_ite_fst
    | with_reducible apply forAll_keeps | with_reducible apply forAll_keeps_fst
    | refine keeps_of_eq (by with_reducible assumption) ?_ | dsimp only | split
    | with_reducible refine fields_keeps ?_ (by with_reducible rfl) (by with_reducible rfl))

theorem watchWrite_keeps {k0 s : State} (w : Nat) (o : Nat) (size : Nat) (v : W64) (hk : Keeps k0 s) : Keeps k0
    (State.watchWrite w o size v s) := by
  unfold State.watchWrite
  try dsimp only
  repeat' (first
    | with_reducible assumption | intro _ | with_reducible apply resolveWatch_keeps
    | with_reducible apply plainWrite_keeps)

theorem hostWatchWriteOp_keeps {k0 s : State} (w : Nat) (v : W64) (hk : Keeps k0 s) : Keeps k0
    (hostWatchWriteOp w v s) := by
  unfold hostWatchWriteOp
  try dsimp only
  repeat' (first
    | with_reducible assumption | intro _ | with_reducible apply hostAct_keeps
    | with_reducible apply watchWrite_keeps)

theorem msixPendingSendOp_keeps {k0 s : State} (vec : Nat) (hk : Keeps k0 s) : Keeps k0 (msixPendingSendOp vec s) := by
  unfold msixPendingSendOp
  try dsimp only
  repeat' (first
    | with_reducible assumption | intro _ | with_reducible apply emit_keeps | with_reducible apply keeps_ite
    | with_reducible apply keeps_ite_fst | with_reducible apply forAll_keeps | with_reducible apply forAll_keeps_fst
    | refine keeps_of_eq (by with_reducible assumption) ?_ | dsimp only | split
    | with_reducible refine fields_keeps ?_ (by with_reducible rfl) (by with_reducible rfl))

end Sys2Proof.Machine
end

