-- ==== Sys2Proof/Laws/KeepsImage.lean ====
section
/-!
SUPPORT. What the operations of Machine/Image.lean keep (`Keeps`): one lemma each.
-/
namespace Sys2Proof.Machine

theorem landWord_keeps {k0 s : State} (m : List RegDesc) (base : Nat) (d : List Byte) (a : Nat) (hk : Keeps k0 s) :
    Keeps k0 (landWord m base d a s) := by
  unfold landWord
  try dsimp only
  repeat' (first
    | with_reducible assumption | intro _ | with_reducible apply setW_keeps | with_reducible apply keeps_ite)

theorem landImage_keeps {k0 s : State} (m : List RegDesc) (base : Nat) (d : List Byte) (hk : Keeps k0 s) : Keeps k0
    (landImage m base d s) := by
  unfold landImage
  try dsimp only
  repeat' (first
    | with_reducible assumption | intro _ | with_reducible apply landWord_keeps | with_reducible apply keeps_ite
    | with_reducible apply keeps_ite_fst | with_reducible apply forAll_keeps)

theorem landCrc_keeps {k0 s : State} (d : List Byte) (hk : Keeps k0 s) : Keeps k0 (landCrc d s) := by
  unfold landCrc
  try dsimp only
  repeat' (first
    | with_reducible assumption | intro _ | with_reducible apply landWord_keeps | with_reducible apply landImage_keeps
    | with_reducible apply keeps_ite | with_reducible apply keeps_ite_fst | with_reducible apply forAll_keeps)

theorem landPackage_keeps {k0 s : State} (x : Section) (d : List Byte) (hk : Keeps k0 s) : Keeps k0
    (landPackage x d s) := by
  unfold landPackage
  try dsimp only
  repeat' (first
    | with_reducible assumption | intro _ | with_reducible apply landImage_keeps | with_reducible apply landCrc_keeps
    | with_reducible apply keeps_ite)

end Sys2Proof.Machine
end

