-- ==== Sys2Proof/Laws/KeepsVerify.lean ====
section
/-!
SUPPORT. What the operations of Machine/Verify.lean keep (`Keeps`): one lemma each.
-/
namespace Sys2Proof.Machine


/-- A key record only adds to the fuses (R315). -/
theorem burnKey_grow (d : List Byte) (f : Fuses) : f.Grow (burnKey d f) := by
  unfold burnKey
  dsimp only
  split
  · exact ⟨rfl, rfl, fun _ _ => rfl, bitsGrow_refl _, bitsGrow_or _ _, bitsGrow_refl _⟩
  · exact ⟨rfl, rfl, fun _ _ => rfl, bitsGrow_refl _, bitsGrow_refl _, bitsGrow_or _ _⟩

theorem patIgnored_keeps {k0 s : State} (op : Nat) (hk : Keeps k0 s) : Keeps k0 (State.patIgnored op s) := by
  unfold State.patIgnored
  try dsimp only
  repeat' (first
    | with_reducible assumption | intro _ | with_reducible apply setF_keeps | with_reducible apply ignored_keeps)

theorem patCommand_keeps {k0 s : State} (op : Nat) (ok : State → Bool) {f : State → State} (hf : ∀  u, Keeps k0 u →
    Keeps k0 (f u)) (hk : Keeps k0 s) : Keeps k0 (State.patCommand op ok f s) := by
  unfold State.patCommand
  try dsimp only
  repeat' (first
    | with_reducible assumption | intro _ | with_reducible apply hf | with_reducible apply hostAct_keeps
    | with_reducible apply patIgnored_keeps | with_reducible apply keeps_ite)

theorem noteReads_keeps {k0 s : State} (l : List (Nat × Nat)) (hk : Keeps k0 s) : Keeps k0 (State.noteReads l s) := by
  unfold State.noteReads
  try dsimp only
  repeat' (first
    | with_reducible assumption | intro _ | with_reducible apply noteHbmRead_keeps | with_reducible apply keeps_ite
    | with_reducible apply keeps_ite_fst | with_reducible apply forAll_keeps)

theorem verifyOp_keeps {k0 s : State} (hk : Keeps k0 s) : Keeps k0 (verifyOp s) := by
  unfold verifyOp
  try dsimp only
  repeat' (first
    | with_reducible assumption | intro _ | with_reducible apply setF_keeps | with_reducible apply noteHbmRead_keeps
    | with_reducible apply patCommand_keeps | with_reducible apply keeps_ite | with_reducible apply keeps_ite_fst
    | with_reducible apply forAll_keeps | with_reducible apply forAll_keeps_fst
    | refine keeps_of_eq (by with_reducible assumption) ?_ | dsimp only | split
    | with_reducible refine fields_keeps ?_ (by with_reducible rfl) (by with_reducible rfl))

theorem verifyCompleteOp_keeps {k0 s : State} (hk : Keeps k0 s) : Keeps k0 (verifyCompleteOp s) := by
  unfold verifyCompleteOp
  try dsimp only
  repeat' (first
    | with_reducible assumption | intro _ | with_reducible apply setF_keeps | with_reducible apply event_keeps
    | with_reducible apply noteReads_keeps | with_reducible apply keeps_ite | with_reducible apply keeps_ite_fst
    | with_reducible apply forAll_keeps | with_reducible apply forAll_keeps_fst
    | refine keeps_of_eq (by with_reducible assumption) ?_ | dsimp only | split
    | with_reducible refine fields_keeps ?_ (by with_reducible rfl) (by with_reducible rfl))

theorem keyOp_keeps {k0 s : State} (hk : Keeps k0 s) : Keeps k0 (keyOp s) := by
  unfold keyOp
  refine patCommand_keeps _ _ (fun u h => ?_) hk
  have hn := keeps_ite (c := u.getF pImageAddr % 4096 ≠ 0 ∨ hostTop < u.getF pImageAddr + 128 + sigBytes) h
    (noteHbmRead_keeps (u.getF pImageAddr) (128 + sigBytes) h)
  exact keeps_ite (event_keeps _ (fuses_keeps hn (burnKey_grow _ _))) (event_keeps _ (setF_keeps _ _ hn))

end Sys2Proof.Machine
end

