-- ==== Sys2Proof/Laws/KeepsPour.lean ====
section
/-!
SUPPORT. What the operations of Machine/Pour.lean keep (`Keeps`): one lemma each.
-/
namespace Sys2Proof.Machine

theorem set256_keeps {k0 s : State} (f : Nat → Fld) (d : BitVec 256) (hk : Keeps k0 s) : Keeps k0
    (State.set256 f d s) := by
  unfold State.set256
  try dsimp only
  repeat' (first
    | with_reducible assumption | intro _ | with_reducible apply setF_keeps | with_reducible apply keeps_ite
    | with_reducible apply keeps_ite_fst | with_reducible apply forAll_keeps)

theorem extend_keeps {k0 s : State} (m : Nat) (v : BitVec 256) (hk : Keeps k0 s) : Keeps k0 (State.extend m v s) := by
  unfold State.extend
  try dsimp only
  repeat' (first
    | with_reducible assumption | intro _ | with_reducible apply set256_keeps)

theorem extendM3_keeps {k0 s : State} (v : BitVec 256) (hk : Keeps k0 s) : Keeps k0 (State.extendM3 v s) := by
  unfold State.extendM3
  try dsimp only
  repeat' (first
    | with_reducible assumption | intro _ | with_reducible apply incF_keeps | with_reducible apply extend_keeps)

theorem effectCap_keeps {k0 s : State} (hk : Keeps k0 s) : Keeps k0 (State.effectCap s) := by
  unfold State.effectCap
  try dsimp only
  repeat' (first
    | with_reducible assumption | intro _ | with_reducible apply setF_keeps)

theorem planCap_keeps {k0 s : State} (hk : Keeps k0 s) : Keeps k0 (State.planCap s) := by
  unfold State.planCap
  try dsimp only
  repeat' (first
    | with_reducible assumption | intro _ | with_reducible apply setF_keeps | with_reducible apply effectCap_keeps)

theorem leaveDeep_keeps {k0 s : State} (hk : Keeps k0 s) : Keeps k0 (State.leaveDeep s) := by
  unfold State.leaveDeep
  try dsimp only
  repeat' (first
    | with_reducible assumption | intro _ | with_reducible apply setF_keeps)

theorem setOff_keeps {k0 s : State} (m : Nat) (hk : Keeps k0 s) : Keeps k0 (State.setOff m s) := by
  unfold State.setOff
  try dsimp only
  repeat' (first
    | with_reducible assumption | intro _ | with_reducible apply setF_keeps | with_reducible apply keeps_ite
    | with_reducible apply keeps_ite_fst | with_reducible apply forAll_keeps | with_reducible apply forAll_keeps_fst
    | refine keeps_of_eq (by with_reducible assumption) ?_ | dsimp only | split
    | with_reducible refine fields_keeps ?_ (by with_reducible rfl) (by with_reducible rfl))

theorem freeDie_keeps {k0 s : State} (d : Nat) (hk : Keeps k0 s) : Keeps k0 (freeDie d s) := by
  unfold freeDie
  try dsimp only
  repeat' (first
    | with_reducible assumption | intro _ | with_reducible apply setF_keeps | with_reducible apply modDie_keeps)

theorem freePart_keeps {k0 s : State} (p : Nat) (hk : Keeps k0 s) : Keeps k0 (freePart p s) := by
  unfold freePart
  try dsimp only
  repeat' (first
    | with_reducible assumption | intro _ | with_reducible apply set64_keeps | with_reducible apply setF_keeps
    | with_reducible apply modPart_keeps)

theorem emptyDies_keeps {k0 s : State} (hk : Keeps k0 s) : Keeps k0 (State.emptyDies s) := by
  unfold State.emptyDies
  try dsimp only
  repeat' (first
    | with_reducible assumption | intro _ | with_reducible apply setF_keeps | with_reducible apply resetRegs_keeps
    | with_reducible apply modCtl_keeps | with_reducible apply noteHeld_keeps | with_reducible apply clearUnit_keeps
    | with_reducible apply planCap_keeps | with_reducible apply freeDie_keeps | with_reducible apply freePart_keeps
    | with_reducible apply keeps_ite | with_reducible apply keeps_ite_fst | with_reducible apply forAll_keeps
    | with_reducible apply forAll_keeps_fst | refine keeps_of_eq (by with_reducible assumption) ?_ | dsimp only
    | split | with_reducible refine fields_keeps ?_ (by with_reducible rfl) (by with_reducible rfl)
    | with_reducible apply state_keeps | exact Nat.le_refl _ | exact Nat.le_add_right _ _
    | with_reducible apply Mem.write_wf | with_reducible apply Mem.store_wf | with_reducible apply Mem.poison_wf
    | with_reducible apply Mem.setSyn_wf | with_reducible apply all_tblFilter | assumption | rfl)

theorem ask_keeps {k0 s : State} (r : EntReq) (hk : Keeps k0 s) : Keeps k0 (State.ask r s) := by
  unfold State.ask
  try dsimp only
  repeat' (first
    | with_reducible assumption | intro _ | with_reducible apply keeps_ite | with_reducible apply keeps_ite_fst
    | with_reducible apply forAll_keeps | with_reducible apply forAll_keeps_fst
    | refine keeps_of_eq (by with_reducible assumption) ?_ | dsimp only | split
    | with_reducible refine fields_keeps ?_ (by with_reducible rfl) (by with_reducible rfl))

theorem dropSeeds_keeps {k0 s : State} (hk : Keeps k0 s) : Keeps k0 (State.dropSeeds s) := by
  unfold State.dropSeeds
  try dsimp only
  repeat' (first
    | with_reducible assumption | intro _ | with_reducible apply keeps_ite | with_reducible apply keeps_ite_fst
    | with_reducible apply forAll_keeps | with_reducible apply forAll_keeps_fst
    | refine keeps_of_eq (by with_reducible assumption) ?_ | dsimp only | split
    | with_reducible refine fields_keeps ?_ (by with_reducible rfl) (by with_reducible rfl))

theorem idleNow_keeps {k0 s : State} (hk : Keeps k0 s) : Keeps k0 (State.idleNow s) := by
  unfold State.idleNow
  try dsimp only
  repeat' (first
    | with_reducible assumption | intro _ | with_reducible apply keeps_ite | with_reducible apply keeps_ite_fst
    | with_reducible apply forAll_keeps | with_reducible apply forAll_keeps_fst
    | refine keeps_of_eq (by with_reducible assumption) ?_ | dsimp only | split
    | with_reducible refine fields_keeps ?_ (by with_reducible rfl) (by with_reducible rfl))

theorem refuseImage_keeps {k0 s : State} (hk : Keeps k0 s) : Keeps k0 (State.refuseImage s) := by
  unfold State.refuseImage
  try dsimp only
  repeat' (first
    | with_reducible assumption | intro _ | with_reducible apply setF_keeps | with_reducible apply keeps_ite
    | with_reducible apply keeps_ite_fst | with_reducible apply forAll_keeps | with_reducible apply forAll_keeps_fst
    | refine keeps_of_eq (by with_reducible assumption) ?_ | dsimp only | split
    | with_reducible refine fields_keeps ?_ (by with_reducible rfl) (by with_reducible rfl))

theorem abandonPour_keeps {k0 s : State} (reason : Nat) (refused : Bool) (hk : Keeps k0 s) : Keeps k0
    (State.abandonPour reason refused s) := by
  unfold State.abandonPour
  try dsimp only
  repeat' (first
    | with_reducible assumption | intro _ | with_reducible apply set64_keeps | with_reducible apply setF_keeps
    | with_reducible apply addFree_keeps | with_reducible apply event_keeps | with_reducible apply emptyDies_keeps
    | with_reducible apply dropSeeds_keeps | with_reducible apply idleNow_keeps
    | with_reducible apply refuseImage_keeps | with_reducible apply keeps_ite | with_reducible apply keeps_ite_fst
    | with_reducible apply forAll_keeps)

theorem pourOp_keeps {k0 s : State} (hk : Keeps k0 s) : Keeps k0 (pourOp s) := by
  unfold pourOp
  try dsimp only
  repeat' (first
    | with_reducible assumption | intro _ | with_reducible apply setF_keeps | with_reducible apply patCommand_keeps
    | with_reducible apply leaveDeep_keeps | with_reducible apply setOff_keeps | with_reducible apply emptyDies_keeps
    | with_reducible apply keeps_ite | with_reducible apply keeps_ite_fst | with_reducible apply forAll_keeps
    | with_reducible apply forAll_keeps_fst | refine keeps_of_eq (by with_reducible assumption) ?_ | dsimp only
    | split | with_reducible refine fields_keeps ?_ (by with_reducible rfl) (by with_reducible rfl))

theorem mergeWeight_keeps {k0 s : State} (lid : Nat) (a : Nat) (d : List Byte) (hk : Keeps k0 s) : Keeps k0
    (mergeWeight lid a d s) := by
  unfold mergeWeight
  try dsimp only
  repeat' (first
    | with_reducible assumption | intro _ | with_reducible apply correctPart_keeps | with_reducible apply wr_keeps
    | with_reducible apply wrPoison_keeps | with_reducible apply keeps_ite | with_reducible apply keeps_ite_fst
    | with_reducible apply forAll_keeps | with_reducible apply forAll_keeps_fst
    | refine keeps_of_eq (by with_reducible assumption) ?_ | dsimp only | split)

theorem landCore_keeps {k0 s : State} (patch : Bool) (e : Section) (d : List Byte) (lid : Nat) (hk : Keeps k0 s) :
    Keeps k0 (landCore patch e d lid s) := by
  unfold landCore
  try dsimp only
  repeat' (first
    | with_reducible assumption | exact fun (_ : Core) hc => hc | intro _ | with_reducible apply modCore_keeps
    | with_reducible apply wr_keeps | with_reducible apply landImage_keeps | with_reducible apply mergeWeight_keeps
    | with_reducible apply keeps_ite | with_reducible apply keeps_ite_fst | with_reducible apply forAll_keeps)

theorem landStops_keeps {k0 s : State} (first : Nat) (d : List Byte) (hk : Keeps k0 s) : Keeps k0
    (landStops first d s) := by
  unfold landStops
  try dsimp only
  repeat' (first
    | with_reducible assumption | intro _ | with_reducible apply modStop_keeps | with_reducible apply modDie_keeps
    | with_reducible apply keeps_ite | with_reducible apply keeps_ite_fst | with_reducible apply forAll_keeps)

theorem settleCounters_keeps {k0 s : State} (was : List Bool) (hk : Keeps k0 s) : Keeps k0 (settleCounters was s) := by
  unfold settleCounters
  try dsimp only
  repeat' (first
    | with_reducible assumption | intro _ | with_reducible apply resolveWatch_keeps | with_reducible apply keeps_ite
    | with_reducible apply keeps_ite_fst | with_reducible apply forAll_keeps)

theorem landPkg_keeps {k0 s : State} (i : Image) (e : Section) (d : List Byte) (hk : Keeps k0 s) : Keeps k0
    (landPkg i e d s) := by
  unfold landPkg
  try dsimp only
  repeat' (first
    | with_reducible assumption | intro _ | with_reducible apply setF_keeps | with_reducible apply putHbm_keeps
    | with_reducible apply landPackage_keeps | with_reducible apply planCap_keeps
    | with_reducible apply settleCounters_keeps | with_reducible apply keeps_ite | with_reducible apply keeps_ite_fst
    | with_reducible apply forAll_keeps | with_reducible apply forAll_keeps_fst
    | refine keeps_of_eq (by with_reducible assumption) ?_ | dsimp only | split
    | with_reducible refine fields_keeps ?_ (by with_reducible rfl) (by with_reducible rfl))

theorem landSection_keeps {k0 s : State} (i : Image) (e : Section) (hk : Keeps k0 s) : Keeps k0
    (State.landSection i e s) := by
  unfold State.landSection
  try dsimp only
  repeat' (first
    | with_reducible assumption | intro _ | with_reducible apply landCore_keeps | with_reducible apply landStops_keeps
    | with_reducible apply landPkg_keeps | with_reducible apply keeps_ite | with_reducible apply keeps_ite_fst
    | with_reducible apply forAll_keeps)

theorem noteSection_keeps {k0 s : State} (i : Image) (e : Section) (hk : Keeps k0 s) : Keeps k0
    (State.noteSection i e s) := by
  unfold State.noteSection
  try dsimp only
  repeat' (first
    | with_reducible assumption | intro _ | with_reducible apply noteHbmRead_keeps | with_reducible apply keeps_ite
    | with_reducible apply keeps_ite_fst | with_reducible apply forAll_keeps)

theorem resetCore_keeps {k0 s : State} (lid : Nat) (hk : Keeps k0 s) : Keeps k0 (resetCore lid s) := by
  unfold resetCore
  try dsimp only
  repeat' (first
    | with_reducible assumption | exact fun (_ : Core) hc => hc | intro _ | with_reducible apply set64_keeps
    | with_reducible apply setF_keeps | with_reducible apply modCore_keeps | with_reducible apply modStop_keeps
    | with_reducible apply clearLevel_keeps | with_reducible apply keeps_ite | with_reducible apply keeps_ite_fst
    | with_reducible apply forAll_keeps)

theorem resetDie_keeps {k0 s : State} (d : Nat) (hk : Keeps k0 s) : Keeps k0 (resetDie d s) := by
  unfold resetDie
  try dsimp only
  repeat' (first
    | with_reducible assumption | intro _ | with_reducible apply setF_keeps | with_reducible apply incF_keeps
    | with_reducible apply modDie_keeps)

theorem resetBarrier_keeps {k0 s : State} (p : Nat) (bid : Nat) (hk : Keeps k0 s) : Keeps k0
    (resetBarrier p bid s) := by
  unfold resetBarrier
  try dsimp only
  repeat' (first
    | with_reducible assumption | intro _ | with_reducible apply setF_keeps | with_reducible apply setRootAll_keeps
    | with_reducible apply setHome_keeps | with_reducible apply keeps_ite)

theorem finishPatch_keeps {k0 s : State} (hk : Keeps k0 s) : Keeps k0 (State.finishPatch s) := by
  unfold State.finishPatch
  try dsimp only
  repeat' (first
    | with_reducible assumption | intro _ | with_reducible apply setF_keeps | with_reducible apply event_keeps
    | with_reducible apply extendM3_keeps | with_reducible apply keeps_ite | with_reducible apply keeps_ite_fst
    | with_reducible apply forAll_keeps | with_reducible apply forAll_keeps_fst
    | refine keeps_of_eq (by with_reducible assumption) ?_ | dsimp only | split
    | with_reducible refine fields_keeps ?_ (by with_reducible rfl) (by with_reducible rfl))

theorem resetActs_keeps {k0 s : State} (p : Nat) (hk : Keeps k0 s) : Keeps k0 (resetActs p s).1 := by
  unfold resetActs
  try dsimp only
  repeat' (first
    | with_reducible assumption | intro _ | with_reducible apply setF_keeps | with_reducible apply event_keeps
    | with_reducible apply keeps_ite)

theorem resetPart_keeps {k0 s : State} (p : Nat) (hk : Keeps k0 s) : Keeps k0 (resetPart p s) := by
  unfold resetPart
  try dsimp only
  repeat' (first
    | with_reducible assumption | intro _ | with_reducible apply set64_keeps | with_reducible apply setF_keeps
    | with_reducible apply incF_keeps | with_reducible apply modPart_keeps | with_reducible apply noteHeld_keeps
    | with_reducible apply resetCore_keeps | with_reducible apply resetDie_keeps
    | with_reducible apply resetBarrier_keeps | with_reducible apply resetActs_keeps | with_reducible apply keeps_ite
    | with_reducible apply keeps_ite_fst | with_reducible apply forAll_keeps | with_reducible apply forAll_keeps_fst
    | refine keeps_of_eq (by with_reducible assumption) ?_ | dsimp only | split
    | with_reducible refine fields_keeps ?_ (by with_reducible rfl) (by with_reducible rfl))

theorem abandonRestore_keeps {k0 s : State} (p : Nat) (hk : Keeps k0 s) : Keeps k0 (abandonRestore p s) := by
  unfold abandonRestore
  try dsimp only
  repeat' (first
    | with_reducible assumption | intro _ | with_reducible apply setF_keeps | with_reducible apply modPart_keeps
    | with_reducible apply event_keeps | with_reducible apply noteHeld_keeps | with_reducible apply keeps_ite)

theorem resetOne_keeps {k0 s : State} (p : Nat) (hk : Keeps k0 s) : Keeps k0 (resetOne p s) := by
  unfold resetOne
  try dsimp only
  repeat' (first
    | with_reducible assumption | intro _ | with_reducible apply resetPart_keeps
    | with_reducible apply abandonRestore_keeps | with_reducible apply keeps_ite)

theorem partitionResetOp_keeps {k0 s : State} (mask : BitVec 8) (hk : Keeps k0 s) : Keeps k0
    (partitionResetOp mask s) := by
  unfold partitionResetOp
  try dsimp only
  repeat' (first
    | with_reducible assumption | intro _ | with_reducible apply patCommand_keeps
    | with_reducible apply abandonPour_keeps | with_reducible apply finishPatch_keeps
    | with_reducible apply resetOne_keeps | with_reducible apply keeps_ite | with_reducible apply keeps_ite_fst
    | with_reducible apply forAll_keeps)

theorem startQueue_keeps {k0 s : State} (lid : Nat) (i : Nat) (q : Queue) (hk : Keeps k0 s) : Keeps k0
    (startQueue lid i q s) := by
  unfold startQueue
  try dsimp only
  repeat' (first
    | with_reducible assumption | intro _ | with_reducible apply setF_keeps | with_reducible apply keeps_ite)

theorem reloadCounters_keeps {k0 s : State} (lid : Nat) (hk : Keeps k0 s) : Keeps k0 (reloadCounters lid s) := by
  unfold reloadCounters
  try dsimp only
  repeat' (first
    | with_reducible assumption | intro _ | with_reducible apply setF_keeps | with_reducible apply keeps_ite
    | with_reducible apply keeps_ite_fst | with_reducible apply forAll_keeps)

theorem startCore_keeps {k0 s : State} (lid : Nat) (hk : Keeps k0 s) : Keeps k0 (startCore lid s) := by
  unfold startCore
  try dsimp only
  repeat' (first
    | with_reducible assumption | intro _ | with_reducible apply startQueue_keeps
    | with_reducible apply reloadCounters_keeps | with_reducible apply keeps_ite | with_reducible apply keeps_ite_fst
    | with_reducible apply forAll_keeps)

theorem finishDisarm_keeps {k0 s : State} (hk : Keeps k0 s) : Keeps k0 (State.finishDisarm s) := by
  unfold State.finishDisarm
  try dsimp only
  repeat' (first
    | with_reducible assumption | intro _ | with_reducible apply setF_keeps | with_reducible apply emptyDies_keeps
    | with_reducible apply idleNow_keeps | with_reducible apply keeps_ite)

theorem resetCompleteOp_keeps {k0 s : State} (p : Nat) (hk : Keeps k0 s) : Keeps k0 (resetCompleteOp p s) := by
  unfold resetCompleteOp
  try dsimp only
  repeat' (first
    | with_reducible assumption | intro _ | with_reducible apply setF_keeps | with_reducible apply forwardHeld_keeps
    | with_reducible apply startCore_keeps | with_reducible apply finishDisarm_keeps | with_reducible apply keeps_ite
    | with_reducible apply keeps_ite_fst | with_reducible apply forAll_keeps)

theorem disarmAll_keeps {k0 s : State} (hk : Keeps k0 s) : Keeps k0 (State.disarmAll s) := by
  unfold State.disarmAll
  try dsimp only
  repeat' (first
    | with_reducible assumption | intro _ | with_reducible apply setF_keeps | with_reducible apply abandonPour_keeps
    | with_reducible apply resetPart_keeps | with_reducible apply finishDisarm_keeps | with_reducible apply keeps_ite
    | with_reducible apply keeps_ite_fst | with_reducible apply forAll_keeps | with_reducible apply forAll_keeps_fst
    | refine keeps_of_eq (by with_reducible assumption) ?_ | dsimp only | split
    | with_reducible refine fields_keeps ?_ (by with_reducible rfl) (by with_reducible rfl))

theorem disarmOp_keeps {k0 s : State} (hk : Keeps k0 s) : Keeps k0 (disarmOp s) := by
  unfold disarmOp
  try dsimp only
  repeat' (first
    | with_reducible assumption | intro _ | with_reducible apply patCommand_keeps
    | with_reducible apply disarmAll_keeps)

theorem actAtRest_keeps {k0 s : State} (p : Nat) (hk : Keeps k0 s) : Keeps k0 (State.actAtRest p s) := by
  unfold State.actAtRest
  try dsimp only
  repeat' (first
    | with_reducible assumption | intro _ | with_reducible apply beginHold_keeps | with_reducible apply keeps_ite)

theorem patchOp_keeps {k0 s : State} (hk : Keeps k0 s) : Keeps k0 (patchOp s) := by
  unfold patchOp
  try dsimp only
  repeat' (first
    | with_reducible assumption | intro _ | with_reducible apply setF_keeps | with_reducible apply modPart_keeps
    | with_reducible apply patCommand_keeps | with_reducible apply finishPatch_keeps
    | with_reducible apply actAtRest_keeps | with_reducible apply keeps_ite | with_reducible apply keeps_ite_fst
    | with_reducible apply forAll_keeps)

theorem disarmPart_keeps {k0 s : State} (p : Nat) (hk : Keeps k0 s) : Keeps k0 (State.disarmPart p s) := by
  unfold State.disarmPart
  try dsimp only
  repeat' (first
    | with_reducible assumption | intro _ | with_reducible apply setF_keeps | with_reducible apply modPart_keeps
    | with_reducible apply noteHeld_keeps | with_reducible apply keeps_ite | with_reducible apply keeps_ite_fst
    | with_reducible apply forAll_keeps)

theorem abandonPatch_keeps {k0 s : State} (p : Nat) (reason : Nat) (hk : Keeps k0 s) : Keeps k0
    (State.abandonPatch p reason s) := by
  unfold State.abandonPatch
  try dsimp only
  repeat' (first
    | with_reducible assumption | intro _ | with_reducible apply setF_keeps | with_reducible apply finishPatch_keeps
    | with_reducible apply disarmPart_keeps)

theorem patchLanded_keeps {k0 s : State} (p : Nat) (hk : Keeps k0 s) : Keeps k0 (State.patchLanded p s) := by
  unfold State.patchLanded
  try dsimp only
  repeat' (first
    | with_reducible assumption | intro _ | with_reducible apply setF_keeps | with_reducible apply modPart_keeps
    | with_reducible apply finishPatch_keeps)

theorem patchLanding_keeps {k0 s : State} (k : Nat) (hk : Keeps k0 s) : Keeps k0 (patchLanding k s) := by
  unfold patchLanding
  try dsimp only
  repeat' (first
    | with_reducible assumption | intro _ | with_reducible apply incF_keeps | with_reducible apply modPart_keeps
    | with_reducible apply landSection_keeps | with_reducible apply noteSection_keeps
    | with_reducible apply abandonPatch_keeps | with_reducible apply patchLanded_keeps
    | with_reducible apply keeps_ite | with_reducible apply keeps_ite_fst | with_reducible apply forAll_keeps
    | with_reducible apply forAll_keeps_fst | refine keeps_of_eq (by with_reducible assumption) ?_ | dsimp only
    | split)

theorem beginSeeding_keeps {k0 s : State} (hk : Keeps k0 s) : Keeps k0 (State.beginSeeding s) := by
  unfold State.beginSeeding
  try dsimp only
  repeat' (first
    | with_reducible assumption | intro _ | with_reducible apply setF_keeps | with_reducible apply ask_keeps
    | with_reducible apply abandonPour_keeps | with_reducible apply keeps_ite | with_reducible apply keeps_ite_fst
    | with_reducible apply forAll_keeps)

theorem pourLanding_keeps {k0 s : State} (k : Nat) (hk : Keeps k0 s) : Keeps k0 (pourLanding k s) := by
  unfold pourLanding
  try dsimp only
  repeat' (first
    | with_reducible assumption | intro _ | with_reducible apply setF_keeps | with_reducible apply incF_keeps
    | with_reducible apply abandonPour_keeps | with_reducible apply landSection_keeps
    | with_reducible apply noteSection_keeps | with_reducible apply beginSeeding_keeps
    | with_reducible apply keeps_ite | with_reducible apply keeps_ite_fst | with_reducible apply forAll_keeps
    | with_reducible apply forAll_keeps_fst | refine keeps_of_eq (by with_reducible assumption) ?_ | dsimp only
    | split | with_reducible refine fields_keeps ?_ (by with_reducible rfl) (by with_reducible rfl))

theorem sectionLandingOp_keeps {k0 s : State} (k : Nat) (hk : Keeps k0 s) : Keeps k0 (sectionLandingOp k s) := by
  unfold sectionLandingOp
  try dsimp only
  repeat' (first
    | with_reducible assumption | intro _ | with_reducible apply patchLanding_keeps
    | with_reducible apply pourLanding_keeps | with_reducible apply keeps_ite)

theorem recordGroups_keeps {k0 s : State} (lid : Nat) (hk : Keeps k0 s) : Keeps k0 (recordGroups lid s) := by
  unfold recordGroups
  try dsimp only
  repeat' (first
    | with_reducible assumption | exact fun (_ : Core) hc => hc | intro _ | with_reducible apply modCore_keeps
    | with_reducible apply remoteFault_keeps | with_reducible apply noteLace_keeps | with_reducible apply keeps_ite
    | with_reducible apply keeps_ite_fst | with_reducible apply forAll_keeps)

theorem armCore_keeps {k0 s : State} (p : Nat) (lid : Nat) (hk : Keeps k0 s) : Keeps k0 (armCore p lid s) := by
  unfold armCore
  try dsimp only
  repeat' (first
    | with_reducible assumption | intro _ | with_reducible apply setF_keeps | with_reducible apply startCore_keeps
    | with_reducible apply recordGroups_keeps)

theorem armPart_keeps {k0 s : State} (i : Image) (r : PartRec) (hk : Keeps k0 s) : Keeps k0 (armPart i r s) := by
  unfold armPart
  try dsimp only
  repeat' (first
    | with_reducible assumption | intro _ | with_reducible apply set64_keeps | with_reducible apply setF_keeps
    | with_reducible apply modPart_keeps | with_reducible apply armCore_keeps | with_reducible apply keeps_ite
    | with_reducible apply keeps_ite_fst | with_reducible apply forAll_keeps)

theorem armingOp_keeps {k0 s : State} (hk : Keeps k0 s) : Keeps k0 (armingOp s) := by
  unfold armingOp
  try dsimp only
  repeat' (first
    | with_reducible assumption | intro _ | with_reducible apply setF_keeps | with_reducible apply used_keeps
    | with_reducible apply event_keeps | with_reducible apply set256_keeps | with_reducible apply extendM3_keeps
    | with_reducible apply setOff_keeps | with_reducible apply armPart_keeps | with_reducible apply keeps_ite
    | with_reducible apply keeps_ite_fst | with_reducible apply forAll_keeps | with_reducible apply forAll_keeps_fst
    | refine keeps_of_eq (by with_reducible assumption) ?_ | dsimp only | split
    | with_reducible refine fields_keeps ?_ (by with_reducible rfl) (by with_reducible rfl))

end Sys2Proof.Machine
end

