-- ==== Sys2Proof/Laws/KeepsCkpt.lean ====
section
/-!
SUPPORT. What the operations of Machine/Ckpt.lean keep (`Keeps`): one lemma each.
-/
namespace Sys2Proof.Machine

theorem noteSaved_keeps {k0 s : State} (p : Nat) (hk : Keeps k0 s) : Keeps k0 (noteSaved p s) := by
  unfold noteSaved
  try dsimp only
  repeat' (first
    | with_reducible assumption | intro _ | with_reducible apply noteHbmRead_keeps | with_reducible apply keeps_ite
    | with_reducible apply keeps_ite_fst | with_reducible apply forAll_keeps)

theorem ckRefuse_keeps {k0 s : State} (p : Nat) (st : Nat) (hk : Keeps k0 s) : Keeps k0 (State.ckRefuse p st s) := by
  unfold State.ckRefuse
  try dsimp only
  repeat' (first
    | with_reducible assumption | intro _ | with_reducible apply setF_keeps | with_reducible apply ignored_keeps)

theorem ckRead_keeps {k0 s : State} (p : Nat) (st : Nat) (hk : Keeps k0 s) : Keeps k0 (State.ckRead p st s) := by
  unfold State.ckRead
  try dsimp only
  repeat' (first
    | with_reducible assumption | intro _ | with_reducible apply noteHbmRead_keeps | with_reducible apply keeps_ite)

theorem ckCommand_keeps {k0 s : State} (p : Nat) (check : State → Nat) {f : State → State} (hf : ∀  u, Keeps k0 u →
    Keeps k0 (f u)) (hk : Keeps k0 s) : Keeps k0 (State.ckCommand p check f s) := by
  unfold State.ckCommand
  try dsimp only
  repeat' (first
    | with_reducible assumption | intro _ | with_reducible apply hf | with_reducible apply aliveAct_keeps
    | with_reducible apply ckRefuse_keeps | with_reducible apply ckRead_keeps | with_reducible apply keeps_ite)

theorem setResultOnly_keeps {k0 s : State} (p : Nat) (resultOnly : Bool) (hk : Keeps k0 s) : Keeps k0
    (State.setResultOnly p resultOnly s) := by
  unfold State.setResultOnly
  try dsimp only
  repeat' (first
    | with_reducible assumption | intro _ | with_reducible apply setF_keeps | with_reducible apply keeps_ite)

theorem saveOp_keeps {k0 s : State} (p : Nat) (c : Nat) (resultOnly : Bool) (hk : Keeps k0 s) : Keeps k0
    (saveOp p c resultOnly s) := by
  unfold saveOp
  try dsimp only
  repeat' (first
    | with_reducible assumption | intro _ | with_reducible apply setF_keeps | with_reducible apply modPart_keeps
    | with_reducible apply actAtRest_keeps | with_reducible apply ckCommand_keeps
    | with_reducible apply setResultOnly_keeps | with_reducible apply keeps_ite)

theorem saveHoldOp_keeps {k0 s : State} (p : Nat) (resultOnly : Bool) (hk : Keeps k0 s) : Keeps k0
    (saveHoldOp p resultOnly s) := by
  unfold saveHoldOp
  try dsimp only
  repeat' (first
    | with_reducible assumption | intro _ | with_reducible apply saveOp_keeps)

theorem plainHoldOp_keeps {k0 s : State} (p : Nat) (resultOnly : Bool) (hk : Keeps k0 s) : Keeps k0
    (plainHoldOp p resultOnly s) := by
  unfold plainHoldOp
  try dsimp only
  repeat' (first
    | with_reducible assumption | intro _ | with_reducible apply saveOp_keeps)

theorem modHold_keeps {k0 s : State} (p : Nat) (f : Hold → Hold) (hk : Keeps k0 s) : Keeps k0
    (State.modHold p f s) := by
  unfold State.modHold
  try dsimp only
  repeat' (first
    | with_reducible assumption | intro _ | with_reducible apply modPart_keeps)

theorem saveCopiedOp_keeps {k0 s : State} (p : Nat) (hk : Keeps k0 s) : Keeps k0 (saveCopiedOp p s) := by
  unfold saveCopiedOp
  try dsimp only
  repeat' (first
    | with_reducible assumption | intro _ | with_reducible apply setF_keeps | with_reducible apply modPart_keeps
    | with_reducible apply wrHbm_keeps | with_reducible apply noteSaved_keeps | with_reducible apply modHold_keeps
    | with_reducible apply keeps_ite)

theorem ckptHashDoneOp_keeps {k0 s : State} (p : Nat) (hk : Keeps k0 s) : Keeps k0 (ckptHashDoneOp p s) := by
  unfold ckptHashDoneOp
  try dsimp only
  repeat' (first
    | with_reducible assumption | intro _ | with_reducible apply setF_keeps | with_reducible apply modPart_keeps
    | with_reducible apply event_keeps | with_reducible apply noteHbmRead_keeps | with_reducible apply wrHbm_keeps
    | with_reducible apply keeps_ite)

theorem ckptResumeOp_keeps {k0 s : State} (p : Nat) (hk : Keeps k0 s) : Keeps k0 (ckptResumeOp p s) := by
  unfold ckptResumeOp
  try dsimp only
  repeat' (first
    | with_reducible assumption | intro _ | with_reducible apply setF_keeps | with_reducible apply modPart_keeps
    | with_reducible apply event_keeps | with_reducible apply ckCommand_keeps | with_reducible apply modHold_keeps
    | with_reducible apply keeps_ite)

theorem ckptRestoreOp_keeps {k0 s : State} (p : Nat) (hk : Keeps k0 s) : Keeps k0 (ckptRestoreOp p s) := by
  unfold ckptRestoreOp
  try dsimp only
  repeat' (first
    | with_reducible assumption | intro _ | with_reducible apply setF_keeps | with_reducible apply modPart_keeps
    | with_reducible apply noteHbmRead_keeps | with_reducible apply ckCommand_keeps)

theorem emptyPart_keeps {k0 s : State} (p : Nat) (hk : Keeps k0 s) : Keeps k0 (emptyPart p s) := by
  unfold emptyPart
  try dsimp only
  repeat' (first
    | with_reducible assumption | intro _ | with_reducible apply setF_keeps | with_reducible apply resetRegs_keeps
    | with_reducible apply keeps_ite | with_reducible apply keeps_ite_fst | with_reducible apply forAll_keeps
    | with_reducible apply forAll_keeps_fst | refine keeps_of_eq (by with_reducible assumption) ?_ | dsimp only
    | split | with_reducible refine fields_keeps ?_ (by with_reducible rfl) (by with_reducible rfl)
    | with_reducible apply state_keeps | exact Nat.le_refl _ | exact Nat.le_add_right _ _
    | with_reducible apply Mem.write_wf | with_reducible apply Mem.store_wf | with_reducible apply Mem.poison_wf
    | with_reducible apply Mem.setSyn_wf | with_reducible apply all_tblFilter)

theorem relandAll_keeps {k0 s : State} (i : Image) (l : List Section) (hk : Keeps k0 s) :
    Keeps k0 (relandAll i l s).1 := by
  induction l generalizing s with
  | nil => exact hk
  | cons e l ih =>
    have hn := noteSection_keeps i e hk
    exact keeps_ite_fst (ih (landSection_keeps _ _ hn)) hn

theorem repour_keeps {k0 s : State} (p : Nat) (hk : Keeps k0 s) : Keeps k0 (repour p s).1 := by
  unfold repour
  try dsimp only
  repeat' (first
    | with_reducible assumption | intro _ | with_reducible apply set64_keeps | with_reducible apply setF_keeps
    | with_reducible apply modPart_keeps | with_reducible apply recordGroups_keeps
    | with_reducible apply emptyPart_keeps | with_reducible apply relandAll_keeps | with_reducible apply keeps_ite
    | with_reducible apply keeps_ite_fst | with_reducible apply forAll_keeps | with_reducible apply forAll_keeps_fst
    | refine keeps_of_eq (by with_reducible assumption) ?_ | dsimp only | split)

theorem putWord_keeps {k0 s : State} (lid : Nat) (x : Nat × List Byte) (hk : Keeps k0 s) : Keeps k0
    (putWord lid x s) := by
  unfold putWord
  try dsimp only
  repeat' (first
    | with_reducible assumption | intro _ | with_reducible apply setLace_keeps)

theorem putReg_keeps {k0 s : State} (lid : Nat) (x : Nat × List Byte) (hk : Keeps k0 s) : Keeps k0
    (putReg lid x s) := by
  unfold putReg
  try dsimp only
  repeat' (first
    | with_reducible assumption | intro _ | with_reducible apply setW_keeps)

theorem loadCore_keeps {k0 s : State} (lid : Nat) (d : List Byte) (hk : Keeps k0 s) : Keeps k0 (loadCore lid d s) := by
  unfold loadCore
  try dsimp only
  repeat' (first
    | with_reducible assumption | intro _ | with_reducible apply putWord_keeps | with_reducible apply putReg_keeps
    | with_reducible apply keeps_ite | with_reducible apply keeps_ite_fst | with_reducible apply forAll_keeps)

theorem loadRanges_keeps {k0 s : State} (lid : Nat) (rs : List (CoreMem × Nat × Nat)) (ds : List (List Byte))
    (hk : Keeps k0 s) : Keeps k0 (loadRanges lid rs ds s) := by
  induction rs generalizing s ds with
  | nil => exact hk
  | cons r rs ih =>
    cases ds with
    | nil => exact hk
    | cons d ds => exact ih _ (wr_keeps _ _ _ _ hk)

theorem loadHbm_keeps {k0 s : State} (rs : List (Nat × Nat)) (ds : List (List Byte)) (hk : Keeps k0 s) :
    Keeps k0 (loadHbm rs ds s) := by
  induction rs generalizing s ds with
  | nil => exact hk
  | cons r rs ih =>
    cases ds with
    | nil => exact hk
    | cons d ds => exact ih _ (wrHbm_keeps _ _ hk)

theorem loadPlace_keeps {k0 s : State} (lid : Nat) (kind : Nat) (d : List Byte) (hk : Keeps k0 s) : Keeps k0
    (loadPlace lid kind d s) := by
  unfold loadPlace
  try dsimp only
  repeat' (first
    | with_reducible assumption | exact fun (_ : Core) hc => hc | intro _ | with_reducible apply modCore_keeps
    | with_reducible apply wr_keeps | with_reducible apply keeps_ite)

theorem loadRun_keeps {k0 s : State} (p : Nat) (lid : Nat) (d : List Byte) (hk : Keeps k0 s) : Keeps k0
    (loadRun p lid d s) := by
  unfold loadRun
  try dsimp only
  repeat' (first
    | with_reducible assumption | intro _ | with_reducible apply setF_keeps
    | with_reducible apply reloadCounters_keeps | with_reducible apply keeps_ite | with_reducible apply keeps_ite_fst
    | with_reducible apply forAll_keeps | with_reducible apply forAll_keeps_fst
    | refine keeps_of_eq (by with_reducible assumption) ?_ | dsimp only | split)

theorem loadCounters_keeps {k0 s : State} (p : Nat) (d : List Byte) (hk : Keeps k0 s) : Keeps k0
    (loadCounters p d s) := by
  unfold loadCounters
  try dsimp only
  repeat' (first
    | with_reducible assumption | intro _ | with_reducible apply setF_keeps
    | with_reducible apply resolveWatches_keeps | with_reducible apply keeps_ite | with_reducible apply keeps_ite_fst
    | with_reducible apply forAll_keeps)

theorem loadCkpt_keeps {k0 s : State} (p : Nat) (d : List Byte) (hk : Keeps k0 s) : Keeps k0 (loadCkpt p d s) := by
  unfold loadCkpt
  try dsimp only
  repeat' (first
    | with_reducible assumption | intro _ | with_reducible apply setF_keeps | with_reducible apply modDie_keeps
    | with_reducible apply modPart_keeps | with_reducible apply resetCore_keeps
    | with_reducible apply resetBarrier_keeps | with_reducible apply loadCore_keeps
    | with_reducible apply loadRanges_keeps | with_reducible apply loadHbm_keeps
    | with_reducible apply loadPlace_keeps | with_reducible apply loadRun_keeps
    | with_reducible apply loadCounters_keeps | with_reducible apply keeps_ite | with_reducible apply keeps_ite_fst
    | with_reducible apply forAll_keeps)

theorem restoreFails_keeps {k0 s : State} (p : Nat) (st : Nat) (hk : Keeps k0 s) : Keeps k0 (restoreFails p st s) := by
  unfold restoreFails
  try dsimp only
  repeat' (first
    | with_reducible assumption | intro _ | with_reducible apply setF_keeps | with_reducible apply modPart_keeps
    | with_reducible apply event_keeps | with_reducible apply ckRefuse_keeps)

theorem restoreLoadedOp_keeps {k0 s : State} (p : Nat) (hk : Keeps k0 s) : Keeps k0 (restoreLoadedOp p s) := by
  unfold restoreLoadedOp
  try dsimp only
  repeat' (first
    | with_reducible assumption | intro _ | with_reducible apply setF_keeps | with_reducible apply event_keeps
    | with_reducible apply modHold_keeps | with_reducible apply repour_keeps | with_reducible apply loadCkpt_keeps
    | with_reducible apply restoreFails_keeps | with_reducible apply keeps_ite | with_reducible apply keeps_ite_fst)

theorem reenter_keeps {k0 s : State} (p : Nat) (hk : Keeps k0 s) : Keeps k0 (reenter p s) := by
  unfold reenter
  try dsimp only
  repeat' (first
    | with_reducible assumption | intro _ | with_reducible apply modPart_keeps | with_reducible apply startQueue_keeps
    | with_reducible apply keeps_ite | with_reducible apply keeps_ite_fst | with_reducible apply forAll_keeps
    | with_reducible apply forAll_keeps_fst | refine keeps_of_eq (by with_reducible assumption) ?_ | dsimp only
    | split)

theorem signalPatch_keeps {k0 s : State} (p : Nat) (hk : Keeps k0 s) : Keeps k0 (signalPatch p s) := by
  unfold signalPatch
  try dsimp only
  repeat' (first
    | with_reducible assumption | intro _ | with_reducible apply modPart_keeps | with_reducible apply remoteAdd_keeps
    | with_reducible apply keeps_ite | with_reducible apply keeps_ite_fst | with_reducible apply forAll_keeps)

theorem holdEndOp_keeps {k0 s : State} (p : Nat) (hk : Keeps k0 s) : Keeps k0 (holdEndOp p s) := by
  unfold holdEndOp
  try dsimp only
  repeat' (first
    | with_reducible assumption | intro _ | with_reducible apply modPart_keeps
    | with_reducible apply releaseBuffered_keeps | with_reducible apply sendRelease_keeps
    | with_reducible apply noteHeld_keeps | with_reducible apply actAtRest_keeps | with_reducible apply reenter_keeps
    | with_reducible apply signalPatch_keeps | with_reducible apply keeps_ite | with_reducible apply keeps_ite_fst
    | with_reducible apply forAll_keeps | with_reducible apply forAll_keeps_fst
    | refine keeps_of_eq (by with_reducible assumption) ?_ | dsimp only | split)

theorem extraRefreshHoldOp_keeps {k0 s : State} (c : Nat) (p : Nat) (hk : Keeps k0 s) : Keeps k0
    (extraRefreshHoldOp c p s) := by
  unfold extraRefreshHoldOp
  try dsimp only
  repeat' (first
    | with_reducible assumption | intro _ | with_reducible apply beginHold_keeps | with_reducible apply keeps_ite)

theorem stopQueue_keeps {k0 s : State} (lid : Nat) (q : Queue) (hk : Keeps k0 s) : Keeps k0 (stopQueue lid q s) := by
  unfold stopQueue
  try dsimp only
  repeat' (first
    | with_reducible assumption | intro _ | with_reducible apply setF_keeps | with_reducible apply keeps_ite)

theorem stopCore_keeps {k0 s : State} (lid : Nat) (hk : Keeps k0 s) : Keeps k0 (stopCore lid s) := by
  unfold stopCore
  try dsimp only
  repeat' (first
    | with_reducible assumption | intro _ | with_reducible apply setF_keeps | with_reducible apply modStop_keeps
    | with_reducible apply stopQueue_keeps | with_reducible apply keeps_ite | with_reducible apply keeps_ite_fst
    | with_reducible apply forAll_keeps)

theorem partitionStopOp_keeps {k0 s : State} (p : Nat) (hk : Keeps k0 s) : Keeps k0 (partitionStopOp p s) := by
  unfold partitionStopOp
  try dsimp only
  repeat' (first
    | with_reducible assumption | intro _ | with_reducible apply setF_keeps | with_reducible apply modDie_keeps
    | with_reducible apply modPart_keeps | with_reducible apply log_keeps | with_reducible apply event_keeps
    | with_reducible apply broadcast_keeps | with_reducible apply resetBarrier_keeps
    | with_reducible apply stopCore_keeps | with_reducible apply keeps_ite | with_reducible apply keeps_ite_fst
    | with_reducible apply forAll_keeps | with_reducible apply forAll_keeps_fst
    | refine keeps_of_eq (by with_reducible assumption) ?_ | dsimp only | split)

theorem drawSeed_keeps {k0 s : State} (p : Nat) (hk : Keeps k0 s) : Keeps k0 (drawSeed p s) := by
  unfold drawSeed
  try dsimp only
  repeat' (first
    | with_reducible assumption | intro _ | with_reducible apply setF_keeps | with_reducible apply ask_keeps
    | with_reducible apply keeps_ite)

theorem nextSeedAt_keeps {k0 s : State} (p : Nat) (o : Nat) (size : Nat) (v : W64) (hk : Keeps k0 s) : Keeps k0
    (State.nextSeedAt p o size v s) := by
  unfold State.nextSeedAt
  try dsimp only
  repeat' (first
    | with_reducible assumption | intro _ | with_reducible apply modPart_keeps | with_reducible apply ignored_keeps
    | with_reducible apply plainWrite_keeps | with_reducible apply aliveAct_keeps
    | with_reducible apply drawSeed_keeps | with_reducible apply keeps_ite)

theorem nextSeedWriteOp_keeps {k0 s : State} (p : Nat) (high : Bool) (size : Nat) (v : W64) (hk : Keeps k0 s) : Keeps
    k0 (nextSeedWriteOp p high size v s) := by
  unfold nextSeedWriteOp
  try dsimp only
  repeat' (first
    | with_reducible assumption | intro _ | with_reducible apply nextSeedAt_keeps)

theorem seedDrawOp_keeps {k0 s : State} (p : Nat) (hk : Keeps k0 s) : Keeps k0 (seedDrawOp p s) := by
  unfold seedDrawOp
  try dsimp only
  repeat' (first
    | with_reducible assumption | intro _ | with_reducible apply ignored_keeps | with_reducible apply aliveAct_keeps
    | with_reducible apply drawSeed_keeps | with_reducible apply keeps_ite)

theorem seedFillDoneOp_keeps {k0 s : State} (p : Nat) (hk : Keeps k0 s) : Keeps k0 (seedFillDoneOp p s) := by
  unfold seedFillDoneOp
  try dsimp only
  repeat' (first
    | with_reducible assumption | intro _ | with_reducible apply setF_keeps | with_reducible apply modPart_keeps
    | with_reducible apply keeps_ite)

end Sys2Proof.Machine
end

