-- ==== Sys2Proof/Laws/KeepsFatal.lean ====
section
/-!
SUPPORT. What the operations of Machine/Fatal.lean keep (`Keeps`): one lemma each.
-/
namespace Sys2Proof.Machine

theorem putWords_keeps {k0 s : State} (k : Nat) (l : List (List Byte)) (hk : Keeps k0 s) :
    Keeps k0 (putWords k l s) := by
  induction l generalizing s k with
  | nil => exact hk
  | cons w l ih => exact ih _ (setW_keeps _ _ hk)

theorem report_keeps {k0 s : State} (h : Nat) (d : List Byte) (hk : Keeps k0 s) : Keeps k0 (State.report h d s) := by
  unfold State.report
  try dsimp only
  repeat' (first
    | with_reducible assumption | intro _ | with_reducible apply putWords_keeps)

theorem beginHeat_keeps {k0 s : State} (h : Nat) (hk : Keeps k0 s) : Keeps k0 (State.beginHeat h s) := by
  unfold State.beginHeat
  try dsimp only
  repeat' (first
    | with_reducible assumption | intro _ | with_reducible apply report_keeps)

theorem endHeat_keeps {k0 s : State} (h : Nat) (out : Nat) (body : List Byte) (hk : Keeps k0 s) : Keeps k0
    (State.endHeat h out body s) := by
  unfold State.endHeat
  try dsimp only
  repeat' (first
    | with_reducible assumption | intro _ | with_reducible apply emit_keeps | with_reducible apply report_keeps)

theorem stopHeat_keeps {k0 s : State} (hk : Keeps k0 s) : Keeps k0 (State.stopHeat s) := by
  unfold State.stopHeat
  try dsimp only
  repeat' (first
    | with_reducible assumption | intro _ | with_reducible apply endHeat_keeps | with_reducible apply keeps_ite
    | with_reducible apply keeps_ite_fst | with_reducible apply forAll_keeps | with_reducible apply forAll_keeps_fst
    | refine keeps_of_eq (by with_reducible assumption) ?_ | dsimp only | split
    | with_reducible refine fields_keeps ?_ (by with_reducible rfl) (by with_reducible rfl))

theorem latchFatal_keeps {k0 s : State} (code : Nat) (die : Nat) (item : Nat) (detail : Nat) (hk : Keeps k0 s) : Keeps
    k0 (State.latchFatal code die item detail s) := by
  unfold State.latchFatal
  try dsimp only
  repeat' (first
    | with_reducible assumption | intro _ | with_reducible apply setF_keeps | with_reducible apply incF_keeps
    | with_reducible apply log_keeps | with_reducible apply keeps_ite)

theorem freezeDies_keeps {k0 s : State} (hk : Keeps k0 s) : Keeps k0 (State.freezeDies s) := by
  unfold State.freezeDies
  try dsimp only
  repeat' (first
    | with_reducible assumption | intro _ | with_reducible apply modDie_keeps | with_reducible apply keeps_ite
    | with_reducible apply keeps_ite_fst | with_reducible apply forAll_keeps)

theorem coreRailOff_keeps {k0 s : State} (d : Nat) (hk : Keeps k0 s) : Keeps k0 (State.coreRailOff d s) := by
  unfold State.coreRailOff
  try dsimp only
  repeat' (first
    | with_reducible assumption | intro _ | with_reducible apply setF_keeps | with_reducible apply keeps_ite
    | with_reducible apply keeps_ite_fst | with_reducible apply forAll_keeps | with_reducible apply forAll_keeps_fst
    | refine keeps_of_eq (by with_reducible assumption) ?_ | dsimp only | split
    | with_reducible refine fields_keeps ?_ (by with_reducible rfl) (by with_reducible rfl))

theorem powerOffDie_keeps {k0 s : State} (d : Nat) (hk : Keeps k0 s) : Keeps k0 (State.powerOffDie d s) := by
  unfold State.powerOffDie
  have h := coreRailOff_keeps d hk
  generalize State.coreRailOff d s = u at h ⊢
  dsimp only
  with_reducible refine state_keeps (resetRegs_keeps _ h) (Nat.le_refl _) (fun w => w) ?_ (fun w => w) (fun w => w) (fun w => w)
  exact all_tblFilter _

theorem railsOff_keeps {k0 s : State} (hk : Keeps k0 s) : Keeps k0 (State.railsOff s) := by
  unfold State.railsOff
  try dsimp only
  repeat' (first
    | with_reducible assumption | intro _ | with_reducible apply setF_keeps | with_reducible apply resetRegs_keeps
    | with_reducible apply keeps_ite | with_reducible apply keeps_ite_fst | with_reducible apply forAll_keeps
    | with_reducible apply forAll_keeps_fst | refine keeps_of_eq (by with_reducible assumption) ?_ | dsimp only
    | split | with_reducible refine fields_keeps ?_ (by with_reducible rfl) (by with_reducible rfl)
    | with_reducible apply state_keeps | exact Nat.le_refl _ | exact Nat.le_add_right _ _
    | with_reducible apply Mem.write_wf | with_reducible apply Mem.store_wf | with_reducible apply Mem.poison_wf
    | with_reducible apply Mem.setSyn_wf | with_reducible apply all_tblFilter | assumption | rfl)

theorem linksStop_keeps {k0 s : State} (hk : Keeps k0 s) : Keeps k0 (State.linksStop s) := by
  unfold State.linksStop
  try dsimp only
  repeat' (first
    | with_reducible assumption | intro _ | with_reducible apply setF_keeps | with_reducible apply modLink_keeps
    | with_reducible apply refreshPort_keeps | with_reducible apply keeps_ite | with_reducible apply keeps_ite_fst
    | with_reducible apply forAll_keeps | with_reducible apply forAll_keeps_fst
    | refine keeps_of_eq (by with_reducible assumption) ?_ | dsimp only | split
    | with_reducible refine fields_keeps ?_ (by with_reducible rfl) (by with_reducible rfl))

theorem stopSprue_keeps {k0 s : State} (hk : Keeps k0 s) : Keeps k0 (State.stopSprue s) := by
  unfold State.stopSprue
  try dsimp only
  repeat' (first
    | with_reducible assumption | intro _ | with_reducible apply linksStop_keeps | with_reducible apply keeps_ite
    | with_reducible apply keeps_ite_fst | with_reducible apply forAll_keeps | with_reducible apply forAll_keeps_fst
    | refine keeps_of_eq (by with_reducible assumption) ?_ | dsimp only | split
    | with_reducible refine fields_keeps ?_ (by with_reducible rfl) (by with_reducible rfl))

theorem putDump_keeps {k0 s : State} (d : List Byte) (hk : Keeps k0 s) : Keeps k0 (State.putDump d s) := by
  unfold State.putDump
  try dsimp only
  repeat' (first
    | with_reducible assumption | intro _ | with_reducible apply putHbm_keeps | with_reducible apply keeps_ite
    | with_reducible apply keeps_ite_fst | with_reducible apply forAll_keeps | with_reducible apply forAll_keeps_fst
    | refine keeps_of_eq (by with_reducible assumption) ?_ | dsimp only | split
    | with_reducible refine fields_keeps ?_ (by with_reducible rfl) (by with_reducible rfl)
    | with_reducible apply state_keeps | exact Nat.le_refl _ | exact Nat.le_add_right _ _
    | with_reducible apply Mem.write_wf | with_reducible apply Mem.store_wf | with_reducible apply Mem.poison_wf
    | with_reducible apply Mem.setSyn_wf | with_reducible apply all_tblFilter | assumption | rfl)

theorem usedDump_keeps {k0 s : State} (hk : Keeps k0 s) : Keeps k0 (State.usedDump s) := by
  unfold State.usedDump
  try dsimp only
  repeat' (first
    | with_reducible assumption | intro _ | with_reducible apply keeps_ite | with_reducible apply keeps_ite_fst
    | with_reducible apply forAll_keeps | with_reducible apply forAll_keeps_fst
    | refine keeps_of_eq (by with_reducible assumption) ?_ | dsimp only | split
    | with_reducible refine fields_keeps ?_ (by with_reducible rfl) (by with_reducible rfl)
    | with_reducible apply state_keeps | exact Nat.le_refl _ | exact Nat.le_add_right _ _)

theorem fatalDone_keeps {k0 s : State} (hk : Keeps k0 s) : Keeps k0 (State.fatalDone s) := by
  unfold State.fatalDone
  try dsimp only
  repeat' (first
    | with_reducible assumption | intro _ | with_reducible apply setF_keeps | with_reducible apply event_keeps)

theorem startDump_keeps {k0 s : State} (code : Nat) (short : Bool) (hk : Keeps k0 s) : Keeps k0
    (State.startDump code short s) := by
  unfold State.startDump
  try dsimp only
  repeat' (first
    | with_reducible assumption | intro _ | with_reducible apply setF_keeps | with_reducible apply keeps_ite
    | with_reducible apply keeps_ite_fst | with_reducible apply forAll_keeps | with_reducible apply forAll_keeps_fst
    | refine keeps_of_eq (by with_reducible assumption) ?_ | dsimp only | split
    | with_reducible refine fields_keeps ?_ (by with_reducible rfl) (by with_reducible rfl))

theorem dumpAgain_keeps {k0 s : State} (code : Nat) (k : DumpKind) (hk : Keeps k0 s) : Keeps k0
    (State.dumpAgain code k s) := by
  unfold State.dumpAgain
  try dsimp only
  repeat' (first
    | with_reducible assumption | intro _ | with_reducible apply setF_keeps | with_reducible apply fatalDone_keeps
    | with_reducible apply keeps_ite | with_reducible apply keeps_ite_fst | with_reducible apply forAll_keeps
    | with_reducible apply forAll_keeps_fst | refine keeps_of_eq (by with_reducible assumption) ?_ | dsimp only
    | split | with_reducible refine fields_keeps ?_ (by with_reducible rfl) (by with_reducible rfl))

theorem dumpFor_keeps {k0 s : State} (code : Nat) (k : DumpKind) (hk : Keeps k0 s) : Keeps k0
    (State.dumpFor code k s) := by
  unfold State.dumpFor
  try dsimp only
  repeat' (first
    | with_reducible assumption | intro _ | with_reducible apply incF_keeps | with_reducible apply fatalDone_keeps
    | with_reducible apply startDump_keeps | with_reducible apply dumpAgain_keeps | with_reducible apply keeps_ite
    | with_reducible apply keeps_ite_fst | with_reducible apply forAll_keeps | with_reducible apply forAll_keeps_fst
    | refine keeps_of_eq (by with_reducible assumption) ?_ | dsimp only | split)

theorem fatal_keeps {k0 s : State} (code : Nat) (die : Nat) (item : Nat) (detail : Nat) (k : DumpKind) {effect : State
    → State} (heffect : ∀  u, Keeps k0 u → Keeps k0 (effect u)) (hk : Keeps k0 s) : Keeps k0
    (State.fatal code die item detail k effect s) := by
  unfold State.fatal
  try dsimp only
  repeat' (first
    | with_reducible assumption | intro _ | with_reducible apply heffect | with_reducible apply abandonPour_keeps
    | with_reducible apply stopHeat_keeps | with_reducible apply latchFatal_keeps
    | with_reducible apply freezeDies_keeps | with_reducible apply dumpFor_keeps | with_reducible apply keeps_ite)

theorem dumpCompleteOp_keeps {k0 s : State} (hk : Keeps k0 s) : Keeps k0 (dumpCompleteOp s) := by
  unfold dumpCompleteOp
  try dsimp only
  repeat' (first
    | with_reducible assumption | intro _ | with_reducible apply setF_keeps | with_reducible apply putDump_keeps
    | with_reducible apply usedDump_keeps | with_reducible apply fatalDone_keeps | with_reducible apply keeps_ite)

theorem partialDump_keeps {k0 s : State} (hk : Keeps k0 s) : Keeps k0 (State.partialDump s) := by
  unfold State.partialDump
  try dsimp only
  repeat' (first
    | with_reducible assumption | intro _ | with_reducible apply setF_keeps | with_reducible apply putDump_keeps
    | with_reducible apply usedDump_keeps | with_reducible apply keeps_ite)

theorem dumpReleaseOp_keeps {k0 s : State} (hk : Keeps k0 s) : Keeps k0 (dumpReleaseOp s) := by
  unfold dumpReleaseOp
  try dsimp only
  repeat' (first
    | with_reducible assumption | intro _ | with_reducible apply setF_keeps | with_reducible apply used_keeps
    | with_reducible apply ignored_keeps | with_reducible apply keeps_ite | with_reducible apply keeps_ite_fst
    | with_reducible apply forAll_keeps | with_reducible apply forAll_keeps_fst
    | refine keeps_of_eq (by with_reducible assumption) ?_ | dsimp only | split
    | with_reducible refine fields_keeps ?_ (by with_reducible rfl) (by with_reducible rfl)
    | with_reducible apply state_keeps | exact Nat.le_refl _ | exact Nat.le_add_right _ _
    | with_reducible apply Mem.write_wf | with_reducible apply Mem.store_wf | with_reducible apply Mem.poison_wf
    | with_reducible apply Mem.setSyn_wf | with_reducible apply all_tblFilter | assumption | rfl)

theorem ccStop_keeps {k0 s : State} (hk : Keeps k0 s) : Keeps k0 (State.ccStop s) := by
  unfold State.ccStop
  try dsimp only
  repeat' (first
    | with_reducible assumption | intro _ | with_reducible apply keeps_ite | with_reducible apply keeps_ite_fst
    | with_reducible apply forAll_keeps | with_reducible apply forAll_keeps_fst
    | refine keeps_of_eq (by with_reducible assumption) ?_ | dsimp only | split
    | with_reducible refine fields_keeps ?_ (by with_reducible rfl) (by with_reducible rfl))

theorem ccWatchdogExpiryOp_keeps {k0 s : State} (hk : Keeps k0 s) : Keeps k0 (ccWatchdogExpiryOp s) := by
  unfold ccWatchdogExpiryOp
  try dsimp only
  repeat' (first
    | with_reducible assumption | intro _ | with_reducible apply fatal_keeps | with_reducible apply ccStop_keeps)

theorem controlSramUncorrectableOp_keeps {k0 s : State} (addr : Nat) (hk : Keeps k0 s) : Keeps k0
    (controlSramUncorrectableOp addr s) := by
  unfold controlSramUncorrectableOp
  try dsimp only
  repeat' (first
    | with_reducible assumption | intro _ | with_reducible apply fatal_keeps | with_reducible apply ccStop_keeps)

theorem pllLossOfLockOp_keeps {k0 s : State} (die : Nat) (hk : Keeps k0 s) : Keeps k0 (pllLossOfLockOp die s) := by
  unfold pllLossOfLockOp
  try dsimp only
  repeat' (first
    | with_reducible assumption | intro _ | with_reducible apply powerOffDie_keeps
    | with_reducible apply linksStop_keeps | with_reducible apply fatal_keeps | with_reducible apply keeps_ite)

theorem sprueCrcErrorOp_keeps {k0 s : State} (die : Nat) (lane : Nat) (hk : Keeps k0 s) : Keeps k0
    (sprueCrcErrorOp die lane s) := by
  unfold sprueCrcErrorOp
  try dsimp only
  repeat' (first
    | with_reducible assumption | intro _ | with_reducible apply stopSprue_keeps | with_reducible apply fatal_keeps)

theorem ringParityOp_keeps {k0 s : State} (die : Nat) (ring : Nat) (hk : Keeps k0 s) : Keeps k0
    (ringParityOp die ring s) := by
  unfold ringParityOp
  try dsimp only
  repeat' (first
    | with_reducible assumption | exact fun (_ : State) h => h | intro _ | with_reducible apply fatal_keeps)

theorem hbmCtrlErrorOp_keeps {k0 s : State} (c : Nat) (detail : BitVec 48) (hk : Keeps k0 s) : Keeps k0
    (hbmCtrlErrorOp c detail s) := by
  unfold hbmCtrlErrorOp
  try dsimp only
  repeat' (first
    | with_reducible assumption | intro _ | with_reducible apply modCtl_keeps | with_reducible apply fatal_keeps)

theorem railFaultOp_keeps {k0 s : State} (rail : Nat) (mv : Nat) (hk : Keeps k0 s) : Keeps k0
    (railFaultOp rail mv s) := by
  unfold railFaultOp
  try dsimp only
  repeat' (first
    | with_reducible assumption | intro _ | with_reducible apply powerOffDie_keeps
    | with_reducible apply railsOff_keeps | with_reducible apply fatal_keeps | with_reducible apply keeps_ite)

theorem noteOcc_keeps {k0 s : State} (i : Nat) (occ : Nat) (hk : Keeps k0 s) : Keeps k0 (State.noteOcc i occ s) := by
  unfold State.noteOcc
  try dsimp only
  repeat' (first
    | with_reducible assumption | intro _ | with_reducible apply setF_keeps)

theorem elasticBufferSlipOp_keeps {k0 s : State} (i : Nat) (occ : Nat) (hk : Keeps k0 s) : Keeps k0
    (elasticBufferSlipOp i occ s) := by
  unfold elasticBufferSlipOp
  try dsimp only
  repeat' (first
    | with_reducible assumption | intro _ | with_reducible apply stopSprue_keeps | with_reducible apply fatal_keeps
    | with_reducible apply noteOcc_keeps | with_reducible apply keeps_ite)

end Sys2Proof.Machine
end

