-- ==== Sys2Proof/Laws/KeepsDoe.lean ====
section
/-!
SUPPORT. What the operations of Machine/Doe.lean keep (`Keeps`): one lemma each.
-/
namespace Sys2Proof.Machine

theorem serveDoe_keeps {k0 s : State} (r : DoeReq) (hk : Keeps k0 s) : Keeps k0 (State.serveDoe r s) := by
  unfold State.serveDoe
  try dsimp only
  repeat' (first
    | with_reducible assumption | intro _ | with_reducible apply used_keeps | with_reducible apply ignored_keeps
    | with_reducible apply emit_keeps | with_reducible apply ask_keeps | with_reducible apply keeps_ite
    | with_reducible apply keeps_ite_fst | with_reducible apply forAll_keeps | with_reducible apply forAll_keeps_fst
    | refine keeps_of_eq (by with_reducible assumption) ?_ | dsimp only | split)

theorem doeNext_keeps {k0 s : State} (n : Nat) (hk : Keeps k0 s) : Keeps k0 (State.doeNext n s) := by
  induction n generalizing s with
  | zero => exact hk
  | succ n ih =>
    unfold State.doeNext
    split
    · exact hk
    · refine keeps_ite hk (ih (serveDoe_keeps _ ?_))
      exact fields_keeps hk rfl rfl

theorem doeRequest_keeps {k0 s : State} (r : DoeReq) (hk : Keeps k0 s) : Keeps k0 (State.doeRequest r s) := by
  unfold State.doeRequest
  try dsimp only
  repeat' (first
    | with_reducible assumption | intro _ | with_reducible apply doeNext_keeps | with_reducible apply keeps_ite
    | with_reducible apply keeps_ite_fst | with_reducible apply forAll_keeps | with_reducible apply forAll_keeps_fst
    | refine keeps_of_eq (by with_reducible assumption) ?_ | dsimp only | split
    | with_reducible refine fields_keeps ?_ (by with_reducible rfl) (by with_reducible rfl))

theorem answerDoe_keeps {k0 s : State} (bs : List Byte) (hk : Keeps k0 s) : Keeps k0 (State.answerDoe bs s) := by
  unfold State.answerDoe
  try dsimp only
  repeat' (first
    | with_reducible assumption | intro _ | with_reducible apply emit_keeps | with_reducible apply doeNext_keeps)

end Sys2Proof.Machine
end

