-- ==== Sys2Proof/Laws/KeepsEntropy.lean ====
section
/-!
SUPPORT. What the operations of Machine/Entropy.lean keep (`Keeps`): one lemma each.
-/
namespace Sys2Proof.Machine

theorem askRandom_keeps {k0 s : State} (hk : Keeps k0 s) : Keeps k0 (State.askRandom s) := by
  unfold State.askRandom
  try dsimp only
  repeat' (first
    | with_reducible assumption | intro _ | with_reducible apply ask_keeps | with_reducible apply keeps_ite)

theorem countCall_keeps {k0 s : State} (hk : Keeps k0 s) : Keeps k0 (State.countCall s) := by
  unfold State.countCall
  try dsimp only
  repeat' (first
    | with_reducible assumption | intro _ | with_reducible apply setF_keeps | with_reducible apply incF_keeps
    | with_reducible apply keeps_ite)

theorem challenged_keeps {k0 s : State} (c : BitVec 256) (hk : Keeps k0 s) : Keeps k0 (State.challenged c s) := by
  unfold State.challenged
  try dsimp only
  repeat' (first
    | with_reducible assumption | intro _ | with_reducible apply emit_keeps | with_reducible apply keeps_ite
    | with_reducible apply keeps_ite_fst | with_reducible apply forAll_keeps | with_reducible apply forAll_keeps_fst
    | refine keeps_of_eq (by with_reducible assumption) ?_ | dsimp only | split
    | with_reducible refine fields_keeps ?_ (by with_reducible rfl) (by with_reducible rfl))

theorem deliver_keeps {k0 s : State} (r : EntReq) (x : BitVec 512) (hk : Keeps k0 s) : Keeps k0
    (State.deliver r x s) := by
  unfold State.deliver
  try dsimp only
  repeat' (first
    | with_reducible assumption | intro _ | with_reducible apply setF_keeps | with_reducible apply modPart_keeps
    | with_reducible apply answerDoe_keeps | with_reducible apply challenged_keeps | with_reducible apply keeps_ite
    | with_reducible apply keeps_ite_fst | with_reducible apply forAll_keeps | with_reducible apply forAll_keeps_fst
    | refine keeps_of_eq (by with_reducible assumption) ?_ | dsimp only | split
    | with_reducible refine fields_keeps ?_ (by with_reducible rfl) (by with_reducible rfl))

theorem drbgGenerateOp_keeps {k0 s : State} (hk : Keeps k0 s) : Keeps k0 (drbgGenerateOp s) := by
  unfold drbgGenerateOp
  try dsimp only
  repeat' (first
    | with_reducible assumption | intro _ | with_reducible apply countCall_keeps | with_reducible apply deliver_keeps
    | with_reducible apply keeps_ite | with_reducible apply keeps_ite_fst | with_reducible apply forAll_keeps
    | with_reducible apply forAll_keeps_fst | refine keeps_of_eq (by with_reducible assumption) ?_ | dsimp only
    | split | with_reducible refine fields_keeps ?_ (by with_reducible rfl) (by with_reducible rfl))

theorem entropyUnavailableOp_keeps {k0 s : State} (hk : Keeps k0 s) : Keeps k0 (entropyUnavailableOp s) := by
  unfold entropyUnavailableOp
  try dsimp only
  repeat' (first
    | with_reducible assumption | intro _ | with_reducible apply answerDoe_keeps | with_reducible apply keeps_ite
    | with_reducible apply keeps_ite_fst | with_reducible apply forAll_keeps | with_reducible apply forAll_keeps_fst
    | refine keeps_of_eq (by with_reducible assumption) ?_ | dsimp only | split
    | with_reducible refine fields_keeps ?_ (by with_reducible rfl) (by with_reducible rfl))

theorem refuseReq_keeps {k0 s : State} (r : EntReq) (hk : Keeps k0 s) : Keeps k0 (refuseReq r s) := by
  unfold refuseReq
  try dsimp only
  repeat' (first
    | with_reducible assumption | intro _ | with_reducible apply setF_keeps | with_reducible apply abandonPour_keeps
    | with_reducible apply answerDoe_keeps | with_reducible apply challenged_keeps | with_reducible apply keeps_ite
    | with_reducible apply keeps_ite_fst | with_reducible apply forAll_keeps | with_reducible apply forAll_keeps_fst
    | refine keeps_of_eq (by with_reducible assumption) ?_ | dsimp only | split)

theorem freshSource_keeps {k0 s : State} (hk : Keeps k0 s) : Keeps k0 (State.freshSource s) := by
  unfold State.freshSource
  try dsimp only
  repeat' (first
    | with_reducible assumption | intro _ | with_reducible apply keeps_ite | with_reducible apply keeps_ite_fst
    | with_reducible apply forAll_keeps | with_reducible apply forAll_keeps_fst
    | refine keeps_of_eq (by with_reducible assumption) ?_ | dsimp only | split
    | with_reducible refine fields_keeps ?_ (by with_reducible rfl) (by with_reducible rfl))

theorem entropyAlarm_keeps {k0 s : State} (hk : Keeps k0 s) : Keeps k0 (State.entropyAlarm s) := by
  unfold State.entropyAlarm
  try dsimp only
  repeat' (first
    | with_reducible assumption | exact fun (_ : State) h => h | intro _ | with_reducible apply setF_keeps
    | with_reducible apply fatal_keeps | with_reducible apply refuseReq_keeps | with_reducible apply freshSource_keeps
    | with_reducible apply keeps_ite | with_reducible apply keeps_ite_fst | with_reducible apply forAll_keeps
    | with_reducible apply forAll_keeps_fst | refine keeps_of_eq (by with_reducible assumption) ?_ | dsimp only
    | split | with_reducible refine fields_keeps ?_ (by with_reducible rfl) (by with_reducible rfl))

theorem healthFail_keeps {k0 s : State} (f : Fld) (hk : Keeps k0 s) : Keeps k0 (State.healthFail f s) := by
  unfold State.healthFail
  try dsimp only
  repeat' (first
    | with_reducible assumption | intro _ | with_reducible apply setF_keeps | with_reducible apply incF_keeps
    | with_reducible apply freshSource_keeps | with_reducible apply entropyAlarm_keeps
    | with_reducible apply keeps_ite)

theorem freshDrbg_keeps {k0 s : State} (hk : Keeps k0 s) : Keeps k0 (State.freshDrbg s) := by
  unfold State.freshDrbg
  try dsimp only
  repeat' (first
    | with_reducible assumption | intro _ | with_reducible apply setF_keeps)

theorem instantiate_keeps {k0 s : State} (e : BitVec 512) (n : BitVec 512) (hk : Keeps k0 s) : Keeps k0
    (State.instantiate e n s) := by
  unfold State.instantiate
  try dsimp only
  repeat' (first
    | with_reducible assumption | intro _ | with_reducible apply freshDrbg_keeps | with_reducible apply keeps_ite
    | with_reducible apply keeps_ite_fst | with_reducible apply forAll_keeps | with_reducible apply forAll_keeps_fst
    | refine keeps_of_eq (by with_reducible assumption) ?_ | dsimp only | split
    | with_reducible refine fields_keeps ?_ (by with_reducible rfl) (by with_reducible rfl))

theorem reseed_keeps {k0 s : State} (b : BitVec 512) (hk : Keeps k0 s) : Keeps k0 (State.reseed b s) := by
  unfold State.reseed
  try dsimp only
  repeat' (first
    | with_reducible assumption | intro _ | with_reducible apply incF_keeps | with_reducible apply freshDrbg_keeps
    | with_reducible apply keeps_ite | with_reducible apply keeps_ite_fst | with_reducible apply forAll_keeps
    | with_reducible apply forAll_keeps_fst | refine keeps_of_eq (by with_reducible assumption) ?_ | dsimp only
    | split | with_reducible refine fields_keeps ?_ (by with_reducible rfl) (by with_reducible rfl))

theorem useBlock_keeps {k0 s : State} (b : BitVec 512) (hk : Keeps k0 s) : Keeps k0 (State.useBlock b s) := by
  unfold State.useBlock
  try dsimp only
  repeat' (first
    | with_reducible assumption | intro _ | with_reducible apply instantiate_keeps | with_reducible apply reseed_keeps
    | with_reducible apply keeps_ite | with_reducible apply keeps_ite_fst | with_reducible apply forAll_keeps
    | with_reducible apply forAll_keeps_fst | refine keeps_of_eq (by with_reducible assumption) ?_ | dsimp only
    | split | with_reducible refine fields_keeps ?_ (by with_reducible rfl) (by with_reducible rfl))

theorem blockPass_keeps {k0 s : State} (b : BitVec 512) (hk : Keeps k0 s) : Keeps k0 (State.blockPass b s) := by
  unfold State.blockPass
  try dsimp only
  repeat' (first
    | with_reducible assumption | intro _ | with_reducible apply setF_keeps | with_reducible apply instantiate_keeps
    | with_reducible apply useBlock_keeps | with_reducible apply keeps_ite | with_reducible apply keeps_ite_fst
    | with_reducible apply forAll_keeps | with_reducible apply forAll_keeps_fst
    | refine keeps_of_eq (by with_reducible assumption) ?_ | dsimp only | split
    | with_reducible refine fields_keeps ?_ (by with_reducible rfl) (by with_reducible rfl))

theorem gather_keeps {k0 s : State} (hk : Keeps k0 s) : Keeps k0 (State.gather s) := by
  unfold State.gather
  try dsimp only
  repeat' (first
    | with_reducible assumption | intro _ | with_reducible apply used_keeps | with_reducible apply blockPass_keeps
    | with_reducible apply keeps_ite | with_reducible apply keeps_ite_fst | with_reducible apply forAll_keeps
    | with_reducible apply forAll_keeps_fst | refine keeps_of_eq (by with_reducible assumption) ?_ | dsimp only
    | split | with_reducible refine fields_keeps ?_ (by with_reducible rfl) (by with_reducible rfl))

theorem startUp_keeps {k0 s : State} (kat : Bool) (hk : Keeps k0 s) : Keeps k0 (State.startUp kat s) := by
  unfold State.startUp
  try dsimp only
  repeat' (first
    | with_reducible assumption | intro _ | with_reducible apply setF_keeps | with_reducible apply entropyAlarm_keeps
    | with_reducible apply keeps_ite)

theorem samplePair_keeps {k0 s : State} (kat : Bool) (a : W32) (b : W32) (hk : Keeps k0 s) : Keeps k0
    (State.samplePair kat a b s) := by
  unfold State.samplePair
  try dsimp only
  repeat' (first
    | with_reducible assumption | intro _ | with_reducible apply healthFail_keeps | with_reducible apply gather_keeps
    | with_reducible apply startUp_keeps | with_reducible apply keeps_ite | with_reducible apply keeps_ite_fst
    | with_reducible apply forAll_keeps | with_reducible apply forAll_keeps_fst
    | refine keeps_of_eq (by with_reducible assumption) ?_ | dsimp only | split
    | with_reducible refine fields_keeps ?_ (by with_reducible rfl) (by with_reducible rfl))

theorem sample_keeps {k0 s : State} (kat : Bool) (x : W32) (hk : Keeps k0 s) : Keeps k0 (State.sample kat x s) := by
  unfold State.sample
  try dsimp only
  repeat' (first
    | with_reducible assumption | intro _ | with_reducible apply samplePair_keeps | with_reducible apply keeps_ite
    | with_reducible apply keeps_ite_fst | with_reducible apply forAll_keeps | with_reducible apply forAll_keeps_fst
    | refine keeps_of_eq (by with_reducible assumption) ?_ | dsimp only | split
    | with_reducible refine fields_keeps ?_ (by with_reducible rfl) (by with_reducible rfl))

theorem entropyBlockOp_keeps {k0 s : State} (samples : List W32) (kat : Bool) (hk : Keeps k0 s) : Keeps k0
    (entropyBlockOp samples kat s) := by
  unfold entropyBlockOp
  try dsimp only
  repeat' (first
    | with_reducible assumption | intro _ | with_reducible apply sample_keeps | with_reducible apply keeps_ite
    | with_reducible apply keeps_ite_fst | with_reducible apply forAll_keeps)

theorem restartSource_keeps {k0 s : State} (hk : Keeps k0 s) : Keeps k0 (State.restartSource s) := by
  unfold State.restartSource
  try dsimp only
  repeat' (first
    | with_reducible assumption | intro _ | with_reducible apply setF_keeps | with_reducible apply freshSource_keeps
    | with_reducible apply keeps_ite)

theorem wantReseed_keeps {k0 s : State} (hk : Keeps k0 s) : Keeps k0 (State.wantReseed s) := by
  unfold State.wantReseed
  try dsimp only
  repeat' (first
    | with_reducible assumption | intro _ | with_reducible apply keeps_ite | with_reducible apply keeps_ite_fst
    | with_reducible apply forAll_keeps | with_reducible apply forAll_keeps_fst
    | refine keeps_of_eq (by with_reducible assumption) ?_ | dsimp only | split
    | with_reducible refine fields_keeps ?_ (by with_reducible rfl) (by with_reducible rfl))

theorem wantInstantiate_keeps {k0 s : State} (hk : Keeps k0 s) : Keeps k0 (State.wantInstantiate s) := by
  unfold State.wantInstantiate
  try dsimp only
  repeat' (first
    | with_reducible assumption | intro _ | with_reducible apply keeps_ite | with_reducible apply keeps_ite_fst
    | with_reducible apply forAll_keeps | with_reducible apply forAll_keeps_fst
    | refine keeps_of_eq (by with_reducible assumption) ?_ | dsimp only | split
    | with_reducible refine fields_keeps ?_ (by with_reducible rfl) (by with_reducible rfl))

theorem setRaw_keeps {k0 s : State} (on : Bool) (hk : Keeps k0 s) : Keeps k0 (State.setRaw on s) := by
  unfold State.setRaw
  try dsimp only
  repeat' (first
    | with_reducible assumption | intro _ | with_reducible apply setF_keeps | with_reducible apply on_keeps
    | with_reducible apply freshSource_keeps | with_reducible apply freshDrbg_keeps | with_reducible apply keeps_ite
    | with_reducible apply keeps_ite_fst | with_reducible apply forAll_keeps | with_reducible apply forAll_keeps_fst
    | refine keeps_of_eq (by with_reducible assumption) ?_ | dsimp only | split
    | with_reducible refine fields_keeps ?_ (by with_reducible rfl) (by with_reducible rfl))

theorem entWrite_keeps {k0 s : State} (o : Nat) (size : Nat) (v : W64) (hk : Keeps k0 s) : Keeps k0
    (State.entWrite o size v s) := by
  unfold State.entWrite
  try dsimp only
  repeat' (first
    | with_reducible assumption | intro _ | with_reducible apply plainWrite_keeps
    | with_reducible apply restartSource_keeps | with_reducible apply wantReseed_keeps
    | with_reducible apply wantInstantiate_keeps | with_reducible apply keeps_ite)

theorem entModeWriteOp_keeps {k0 s : State} (mode : Bool) (hk : Keeps k0 s) : Keeps k0 (entModeWriteOp mode s) := by
  unfold entModeWriteOp
  try dsimp only
  repeat' (first
    | with_reducible assumption | intro _ | with_reducible apply setF_keeps | with_reducible apply hostAct_keeps
    | with_reducible apply restartSource_keeps)

theorem entReseedOp_keeps {k0 s : State} (hk : Keeps k0 s) : Keeps k0 (entReseedOp s) := by
  unfold entReseedOp
  try dsimp only
  repeat' (first
    | with_reducible assumption | intro _ | with_reducible apply hostAct_keeps
    | with_reducible apply wantReseed_keeps)

theorem entInstantiateOp_keeps {k0 s : State} (hk : Keeps k0 s) : Keeps k0 (entInstantiateOp s) := by
  unfold entInstantiateOp
  try dsimp only
  repeat' (first
    | with_reducible assumption | intro _ | with_reducible apply hostAct_keeps
    | with_reducible apply wantInstantiate_keeps)

theorem randRead_keeps {k0 s : State} (o : Nat) (size : Nat) (hk : Keeps k0 s) : Keeps k0
    (State.randRead o size s) := by
  unfold State.randRead
  try dsimp only
  repeat' (first
    | with_reducible assumption | intro _ | with_reducible apply ignored_keeps | with_reducible apply emit_keeps
    | with_reducible apply askRandom_keeps | with_reducible apply keeps_ite | with_reducible apply keeps_ite_fst
    | with_reducible apply forAll_keeps | with_reducible apply forAll_keeps_fst
    | refine keeps_of_eq (by with_reducible assumption) ?_ | dsimp only | split
    | with_reducible refine fields_keeps ?_ (by with_reducible rfl) (by with_reducible rfl))

theorem entRandReadOp_keeps {k0 s : State} (size : Nat) (high : Bool) (hk : Keeps k0 s) : Keeps k0
    (entRandReadOp size high s) := by
  unfold entRandReadOp
  try dsimp only
  repeat' (first
    | with_reducible assumption | intro _ | with_reducible apply ignored_keeps | with_reducible apply emit_keeps
    | with_reducible apply randRead_keeps | with_reducible apply keeps_ite)

end Sys2Proof.Machine
end

