-- ==== Sys2Proof/Laws/KeepsHbm.lean ====
section
/-!
SUPPORT. What the operations of Machine/Hbm.lean keep (`Keeps`): one lemma each.
-/
namespace Sys2Proof.Machine

theorem setQueue_keeps {k0 s : State} (p : Nat) (part : Nat) (l : List Flit) (hk : Keeps k0 s) : Keeps k0
    (State.setQueue p part l s) := by
  unfold State.setQueue
  try dsimp only
  repeat' (first
    | with_reducible assumption | intro _ | with_reducible apply modCtl_keeps)

theorem toController_keeps {k0 s : State} (src : Nat) (part : Nat) (a : Nat) (f : Flit) (hk : Keeps k0 s) : Keeps k0
    (State.toController src part a f s) := by
  unfold State.toController
  try dsimp only
  repeat' (first
    | with_reducible assumption | intro _ | with_reducible apply remoteFault_keeps
    | with_reducible apply setQueue_keeps | with_reducible apply keeps_ite)

theorem hbmArrive_keeps {k0 s : State} (d : Nat) (ring : Nat) (slot : Nat) (hk : Keeps k0 s) : Keeps k0
    (hbmArrive d ring slot s) := by
  unfold hbmArrive
  try dsimp only
  repeat' (first
    | with_reducible assumption | intro _ | with_reducible apply setSlot_keeps | with_reducible apply ringTo_keeps
    | with_reducible apply toController_keeps | with_reducible apply keeps_ite | with_reducible apply keeps_ite_fst
    | with_reducible apply forAll_keeps | with_reducible apply forAll_keeps_fst
    | refine keeps_of_eq (by with_reducible assumption) ?_ | dsimp only | split)

theorem commitUnit_keeps {k0 s : State} (p : Nat) (a : Nat) (bs : List Byte) (m : Nat) (hk : Keeps k0 s) : Keeps k0
    (State.commitUnit p a bs m s) := by
  unfold State.commitUnit
  try dsimp only
  repeat' (first
    | with_reducible assumption | intro _ | with_reducible apply noteRemap_keeps | with_reducible apply wrHbm_keeps
    | with_reducible apply wrHbmPoison_keeps | with_reducible apply outputWrite_keeps | with_reducible apply keeps_ite
    | with_reducible apply keeps_ite_fst | with_reducible apply forAll_keeps)

theorem acknowledge_keeps {k0 s : State} (src : Nat) (mid : Nat) (units : Nat) (hk : Keeps k0 s) : Keeps k0
    (State.acknowledge src mid units s) := by
  unfold State.acknowledge
  try dsimp only
  repeat' (first
    | with_reducible assumption | intro _ | with_reducible apply incF_keeps | with_reducible apply keeps_ite
    | with_reducible apply keeps_ite_fst | with_reducible apply forAll_keeps | with_reducible apply forAll_keeps_fst
    | refine keeps_of_eq (by with_reducible assumption) ?_ | dsimp only | split
    | with_reducible refine fields_keeps ?_ (by with_reducible rfl) (by with_reducible rfl))

theorem serveHbm_keeps {k0 s : State} (f : Flit) (hk : Keeps k0 s) : Keeps k0 (State.serveHbm f s) := by
  unfold State.serveHbm
  try dsimp only
  repeat' (first
    | with_reducible assumption | intro _ | with_reducible apply toDie_keeps | with_reducible apply noteHbmRead_keeps
    | with_reducible apply commitUnit_keeps | with_reducible apply acknowledge_keeps | with_reducible apply keeps_ite
    | with_reducible apply keeps_ite_fst | with_reducible apply forAll_keeps | with_reducible apply forAll_keeps_fst
    | refine keeps_of_eq (by with_reducible assumption) ?_ | dsimp only | split)

theorem hbmServe_keeps {k0 s : State} (p : Nat) (part : Nat) (hk : Keeps k0 s) : Keeps k0 (hbmServe p part s) := by
  unfold hbmServe
  try dsimp only
  repeat' (first
    | with_reducible assumption | intro _ | with_reducible apply setQueue_keeps | with_reducible apply serveHbm_keeps
    | with_reducible apply keeps_ite | with_reducible apply keeps_ite_fst | with_reducible apply forAll_keeps
    | with_reducible apply forAll_keeps_fst | refine keeps_of_eq (by with_reducible assumption) ?_ | dsimp only
    | split)

theorem hbmRequestOp_keeps {k0 s : State} (arrive : Option SlotRef) (serve : Option PcRef) (hk : Keeps k0 s) : Keeps
    k0 (hbmRequestOp arrive serve s) := by
  unfold hbmRequestOp
  try dsimp only
  repeat' (first
    | with_reducible assumption | intro _ | with_reducible apply hbmArrive_keeps | with_reducible apply hbmServe_keeps
    | with_reducible apply keeps_ite | with_reducible apply keeps_ite_fst | with_reducible apply forAll_keeps
    | with_reducible apply forAll_keeps_fst | refine keeps_of_eq (by with_reducible assumption) ?_ | dsimp only
    | split)

theorem noteExtra_keeps {k0 s : State} (q : Nat) (hk : Keeps k0 s) : Keeps k0 (noteExtra q s) := by
  unfold noteExtra
  try dsimp only
  repeat' (first
    | with_reducible assumption | intro _ | with_reducible apply modPart_keeps | with_reducible apply keeps_ite)

theorem refpbOp_keeps {k0 s : State} (p : Nat) (bank : Nat) (hk : Keeps k0 s) : Keeps k0 (refpbOp p bank s) := by
  unfold refpbOp
  try dsimp only
  repeat' (first
    | with_reducible assumption | intro _ | with_reducible apply incF_keeps | with_reducible apply modPart_keeps
    | with_reducible apply modCtl_keeps | with_reducible apply noteExtra_keeps | with_reducible apply keeps_ite
    | with_reducible apply keeps_ite_fst | with_reducible apply forAll_keeps)

theorem restStacks_keeps {k0 s : State} (hk : Keeps k0 s) : Keeps k0 (State.restStacks s) := by
  unfold State.restStacks
  try dsimp only
  repeat' (first
    | with_reducible assumption | intro _ | with_reducible apply modCtl_keeps | with_reducible apply keeps_ite
    | with_reducible apply keeps_ite_fst | with_reducible apply forAll_keeps)

theorem stackTemperatureReadOp_keeps {k0 s : State} (c : Nat) (t : BitVec 8) (hk : Keeps k0 s) : Keeps k0
    (stackTemperatureReadOp c t s) := by
  unfold stackTemperatureReadOp
  try dsimp only
  repeat' (first
    | with_reducible assumption | intro _ | with_reducible apply setF_keeps | with_reducible apply fatal_keeps
    | with_reducible apply restStacks_keeps | with_reducible apply keeps_ite)

theorem correctedWriteBackOp_keeps {k0 s : State} (p : Nat) (hk : Keeps k0 s) : Keeps k0
    (correctedWriteBackOp p s) := by
  unfold correctedWriteBackOp
  try dsimp only
  repeat' (first
    | with_reducible assumption | intro _ | with_reducible apply modCtl_keeps | with_reducible apply keeps_ite
    | with_reducible apply keeps_ite_fst | with_reducible apply forAll_keeps | with_reducible apply forAll_keeps_fst
    | refine keeps_of_eq (by with_reducible assumption) ?_ | dsimp only | split
    | with_reducible refine fields_keeps ?_ (by with_reducible rfl) (by with_reducible rfl)
    | with_reducible apply state_keeps | exact Nat.le_refl _ | exact Nat.le_add_right _ _
    | with_reducible apply Mem.write_wf | with_reducible apply Mem.store_wf | with_reducible apply Mem.poison_wf
    | with_reducible apply Mem.setSyn_wf)

theorem endLap_keeps {k0 s : State} (c : Nat) (hk : Keeps k0 s) : Keeps k0 (State.endLap c s) := by
  unfold State.endLap
  try dsimp only
  repeat' (first
    | with_reducible assumption | intro _ | with_reducible apply setF_keeps | with_reducible apply incF_keeps
    | with_reducible apply modCtl_keeps)

theorem scrubAccessOp_keeps {k0 s : State} (p : Nat) (hk : Keeps k0 s) : Keeps k0 (scrubAccessOp p s) := by
  unfold scrubAccessOp
  try dsimp only
  repeat' (first
    | with_reducible assumption | intro _ | with_reducible apply setF_keeps | with_reducible apply modCtl_keeps
    | with_reducible apply noteHbmRead_keeps | with_reducible apply endLap_keeps | with_reducible apply keeps_ite)

theorem writeRecord_keeps {k0 s : State} (t : TrainRec) (hk : Keeps k0 s) : Keeps k0 (State.writeRecord t s) := by
  unfold State.writeRecord
  try dsimp only
  repeat' (first
    | with_reducible assumption | intro _ | with_reducible apply keeps_ite | with_reducible apply keeps_ite_fst
    | with_reducible apply forAll_keeps | with_reducible apply forAll_keeps_fst
    | refine keeps_of_eq (by with_reducible assumption) ?_ | dsimp only | split
    | with_reducible refine fields_keeps ?_ (by with_reducible rfl) (by with_reducible rfl))

theorem addRepair_keeps {k0 s : State} (r : RowRef) (hk : Keeps k0 s) : Keeps k0 (State.addRepair r s) := by
  unfold State.addRepair
  try dsimp only
  repeat' (first
    | with_reducible assumption | intro _ | with_reducible apply writeRecord_keeps | with_reducible apply keeps_ite
    | with_reducible apply keeps_ite_fst | with_reducible apply forAll_keeps | with_reducible apply forAll_keeps_fst
    | refine keeps_of_eq (by with_reducible assumption) ?_ | dsimp only | split)

theorem setRemap_keeps {k0 s : State} (c : Nat) (n : Nat) (k : Nat × Nat × Nat) (hk : Keeps k0 s) : Keeps k0
    (State.setRemap c n k s) := by
  unfold State.setRemap
  try dsimp only
  repeat' (first
    | with_reducible assumption | intro _ | with_reducible apply setF_keeps | with_reducible apply incF_keeps)

theorem rowRemapCopyOp_keeps {k0 s : State} (p : Nat) (bank : Nat) (row : Nat) (hk : Keeps k0 s) : Keeps k0
    (rowRemapCopyOp p bank row s) := by
  unfold rowRemapCopyOp
  try dsimp only
  repeat' (first
    | with_reducible assumption | intro _ | with_reducible apply setF_keeps | with_reducible apply modCtl_keeps
    | with_reducible apply noteHbm_keeps | with_reducible apply addRepair_keeps | with_reducible apply setRemap_keeps
    | with_reducible apply keeps_ite | with_reducible apply keeps_ite_fst | with_reducible apply forAll_keeps
    | with_reducible apply forAll_keeps_fst | refine keeps_of_eq (by with_reducible assumption) ?_ | dsimp only
    | split | with_reducible refine fields_keeps ?_ (by with_reducible rfl) (by with_reducible rfl)
    | with_reducible apply state_keeps | exact Nat.le_refl _ | exact Nat.le_add_right _ _
    | with_reducible apply Mem.write_wf | with_reducible apply Mem.store_wf | with_reducible apply Mem.poison_wf
    | with_reducible apply Mem.setSyn_wf)

theorem rewriteRow_keeps {k0 s : State} (lid : Nat) (m : CoreMem) (b : Nat) (r : Nat) (hk : Keeps k0 s) : Keeps k0
    (State.rewriteRow lid m b r s) := by
  unfold State.rewriteRow
  try dsimp only
  repeat' (first
    | with_reducible assumption | exact fun (_ : Core) hc => hc
    | exact fun (_ : Core) hc => Core.setMem_wf _ hc (Mem.write_wf _ _ _ (Core.mem_wf _ hc))
    | exact fun (_ : Core) hc => Core.setMem_wf _ hc (Mem.poison_wf _ _ _ (Mem.store_wf _ _ (Core.mem_wf _ hc)))
    | exact fun (_ : Core) hc => Core.setMem_wf _ hc (Mem.setSyn_wf _ _ (Core.mem_wf _ hc)) | intro _
    | with_reducible apply modCore_keeps | with_reducible apply keeps_ite | with_reducible apply keeps_ite_fst
    | with_reducible apply forAll_keeps)

theorem sramRemap_keeps {k0 s : State} (lid : Nat) (m : CoreMem) (b : Nat) (r : Nat) (hk : Keeps k0 s) : Keeps k0
    (State.sramRemap lid m b r s) := by
  unfold State.sramRemap
  try dsimp only
  repeat' (first
    | with_reducible assumption | intro _ | with_reducible apply setF_keeps | with_reducible apply used_keeps
    | with_reducible apply modSram_keeps | with_reducible apply keeps_ite)

theorem stepLap_keeps {k0 s : State} (lid : Nat) (m : CoreMem) (b : Nat) (r : Nat) (hk : Keeps k0 s) : Keeps k0
    (State.stepLap lid m b r s) := by
  unfold State.stepLap
  try dsimp only
  repeat' (first
    | with_reducible assumption | intro _ | with_reducible apply setF_keeps | with_reducible apply modSram_keeps
    | with_reducible apply keeps_ite)

theorem scrubRow_keeps {k0 s : State} (lid : Nat) (m : CoreMem) (b : Nat) (r : Nat) (hk : Keeps k0 s) : Keeps k0
    (State.scrubRow lid m b r s) := by
  unfold State.scrubRow
  try dsimp only
  repeat' (first
    | with_reducible assumption | exact fun (_ : Core) hc => hc | intro _ | with_reducible apply modCore_keeps
    | with_reducible apply noteRead_keeps | with_reducible apply modSram_keeps | with_reducible apply rewriteRow_keeps
    | with_reducible apply sramRemap_keeps | with_reducible apply stepLap_keeps | with_reducible apply keeps_ite)

theorem sramScrubOp_keeps {k0 s : State} (lid : Nat) (m : CoreMem) (b : Nat) (hk : Keeps k0 s) : Keeps k0
    (sramScrubOp lid m b s) := by
  unfold sramScrubOp
  try dsimp only
  repeat' (first
    | with_reducible assumption | exact fun (_ : Core) hc => hc | intro _ | with_reducible apply modCore_keeps
    | with_reducible apply rewriteRow_keeps | with_reducible apply scrubRow_keeps | with_reducible apply keeps_ite
    | with_reducible apply keeps_ite_fst | with_reducible apply forAll_keeps | with_reducible apply forAll_keeps_fst
    | refine keeps_of_eq (by with_reducible assumption) ?_ | dsimp only | split)

theorem setOverdue_keeps {k0 s : State} (f : Fld) (unit : Nat) (hk : Keeps k0 s) : Keeps k0
    (State.setOverdue f unit s) := by
  unfold State.setOverdue
  try dsimp only
  repeat' (first
    | with_reducible assumption | intro _ | with_reducible apply setF_keeps | with_reducible apply log_keeps
    | with_reducible apply keeps_ite)

theorem lapOverdueOp_keeps {k0 s : State} (who : LapOwner) (hk : Keeps k0 s) : Keeps k0 (lapOverdueOp who s) := by
  unfold lapOverdueOp
  try dsimp only
  repeat' (first
    | with_reducible assumption | intro _ | with_reducible apply setOverdue_keeps | with_reducible apply keeps_ite
    | with_reducible apply keeps_ite_fst | with_reducible apply forAll_keeps | with_reducible apply forAll_keeps_fst
    | refine keeps_of_eq (by with_reducible assumption) ?_ | dsimp only | split)

end Sys2Proof.Machine
end

