-- ==== Sys2Proof/Laws/KeepsRecovery.lean ====
section
/-!
SUPPORT. What the operations of Machine/Recovery.lean keep (`Keeps`): one lemma each.
-/
namespace Sys2Proof.Machine


/-- Burning a revoke fuse only adds to the fuses (R469). -/
theorem burnRevoke_grow (signer k : Nat) (f : Fuses) : f.Grow (burnRevoke signer k f) := by
  unfold burnRevoke
  dsimp only
  split
  · exact Fuses.Grow.refl _
  · exact ⟨rfl, rfl, fun _ _ => rfl, bitsGrow_or _ _, bitsGrow_refl _, bitsGrow_refl _⟩

theorem burnAll_grow (signer : Nat) (l : List Nat) (f : Fuses) : f.Grow (forAll l (burnRevoke signer) f) := by
  unfold forAll
  induction l generalizing f with
  | nil => exact Fuses.Grow.refl _
  | cons k l ih => exact (burnRevoke_grow signer k f).trans (ih _)

theorem burnList_keeps {k0 s : State} (d : List Byte) (hk : Keeps k0 s) : Keeps k0 (State.burnList d s) :=
  fuses_keeps hk (burnAll_grow _ _ _)

theorem runErcia_keeps {k0 s : State} (d : List Byte) (hk : Keeps k0 s) : Keeps k0 (State.runErcia d s) := by
  unfold State.runErcia
  try dsimp only
  repeat' (first
    | with_reducible assumption | intro _ | with_reducible apply setF_keeps | with_reducible apply extend_keeps
    | with_reducible apply keeps_ite | with_reducible apply keeps_ite_fst | with_reducible apply forAll_keeps
    | with_reducible apply forAll_keeps_fst | refine keeps_of_eq (by with_reducible assumption) ?_ | dsimp only
    | split | with_reducible refine fields_keeps ?_ (by with_reducible rfl) (by with_reducible rfl))

theorem recStatus_keeps {k0 s : State} (n : Nat) (hk : Keeps k0 s) : Keeps k0 (State.recStatus n s) := by
  unfold State.recStatus
  try dsimp only
  repeat' (first
    | with_reducible assumption | intro _ | with_reducible apply setF_keeps | with_reducible apply keeps_ite)

theorem putBuffer_keeps {k0 s : State} (a : Nat) (d : List Byte) (hk : Keeps k0 s) : Keeps k0
    (State.putBuffer a d s) := by
  unfold State.putBuffer
  try dsimp only
  repeat' (first
    | with_reducible assumption | intro _ | with_reducible apply recStatus_keeps | with_reducible apply keeps_ite
    | with_reducible apply keeps_ite_fst | with_reducible apply forAll_keeps | with_reducible apply forAll_keeps_fst
    | refine keeps_of_eq (by with_reducible assumption) ?_ | dsimp only | split
    | with_reducible refine fields_keeps ?_ (by with_reducible rfl) (by with_reducible rfl)
    | with_reducible apply state_keeps | exact Nat.le_refl _ | exact Nat.le_add_right _ _
    | with_reducible apply Mem.write_wf | with_reducible apply Mem.store_wf)

theorem clearBuffer_keeps {k0 s : State} (hk : Keeps k0 s) : Keeps k0 (State.clearBuffer s) := by
  unfold State.clearBuffer
  try dsimp only
  repeat' (first
    | with_reducible assumption | intro _ | with_reducible apply setF_keeps | with_reducible apply recStatus_keeps
    | with_reducible apply keeps_ite | with_reducible apply keeps_ite_fst | with_reducible apply forAll_keeps
    | with_reducible apply forAll_keeps_fst | refine keeps_of_eq (by with_reducible assumption) ?_ | dsimp only
    | split | with_reducible refine fields_keeps ?_ (by with_reducible rfl) (by with_reducible rfl)
    | with_reducible apply state_keeps | exact Nat.le_refl _ | exact Nat.le_add_right _ _
    | with_reducible apply Mem.write_wf | with_reducible apply Mem.store_wf | with_reducible apply Mem.poison_wf
    | with_reducible apply Mem.setSyn_wf | with_reducible apply all_tblFilter | assumption | rfl)

theorem startProgram_keeps {k0 s : State} (d : List Byte) (hk : Keeps k0 s) : Keeps k0 (State.startProgram d s) := by
  unfold State.startProgram
  try dsimp only
  repeat' (first
    | with_reducible assumption | intro _ | with_reducible apply setF_keeps | with_reducible apply used_keeps
    | with_reducible apply burnList_keeps | with_reducible apply keeps_ite | with_reducible apply keeps_ite_fst
    | with_reducible apply forAll_keeps | with_reducible apply forAll_keeps_fst
    | refine keeps_of_eq (by with_reducible assumption) ?_ | dsimp only | split
    | with_reducible refine fields_keeps ?_ (by with_reducible rfl) (by with_reducible rfl))

theorem endProgram_keeps {k0 s : State} (d : List Byte) (hk : Keeps k0 s) : Keeps k0 (State.endProgram d s) := by
  unfold State.endProgram
  try dsimp only
  repeat' (first
    | with_reducible assumption | intro _ | with_reducible apply setF_keeps | with_reducible apply beginHeat_keeps
    | with_reducible apply runErcia_keeps | with_reducible apply keeps_ite | with_reducible apply keeps_ite_fst
    | with_reducible apply forAll_keeps | with_reducible apply forAll_keeps_fst
    | refine keeps_of_eq (by with_reducible assumption) ?_ | dsimp only | split
    | with_reducible refine fields_keeps ?_ (by with_reducible rfl) (by with_reducible rfl))

theorem programTick_keeps {k0 s : State} (hk : Keeps k0 s) : Keeps k0 (State.programTick s) := by
  unfold State.programTick
  try dsimp only
  repeat' (first
    | with_reducible assumption | intro _ | with_reducible apply endProgram_keeps | with_reducible apply keeps_ite
    | with_reducible apply keeps_ite_fst | with_reducible apply forAll_keeps | with_reducible apply forAll_keeps_fst
    | refine keeps_of_eq (by with_reducible assumption) ?_ | dsimp only | split)

theorem commitBuffer_keeps {k0 s : State} (hk : Keeps k0 s) : Keeps k0 (State.commitBuffer s) := by
  unfold State.commitBuffer
  try dsimp only
  repeat' (first
    | with_reducible assumption | intro _ | with_reducible apply setF_keeps | with_reducible apply startProgram_keeps
    | with_reducible apply keeps_ite)

theorem recoveryCommitOp_keeps {k0 s : State} (hk : Keeps k0 s) : Keeps k0 (recoveryCommitOp s) := by
  unfold recoveryCommitOp
  try dsimp only
  repeat' (first
    | with_reducible assumption | intro _ | with_reducible apply commitBuffer_keeps)

theorem recoveryClearOp_keeps {k0 s : State} (hk : Keeps k0 s) : Keeps k0 (recoveryClearOp s) := by
  unfold recoveryClearOp
  try dsimp only
  repeat' (first
    | with_reducible assumption | intro _ | with_reducible apply clearBuffer_keeps)

theorem recoveryWrite_keeps {k0 s : State} (o : Nat) (size : Nat) (v : W64) (hk : Keeps k0 s) : Keeps k0
    (State.recoveryWrite o size v s) := by
  unfold State.recoveryWrite
  try dsimp only
  repeat' (first
    | with_reducible assumption | intro _ | with_reducible apply plainWrite_keeps
    | with_reducible apply clearBuffer_keeps | with_reducible apply commitBuffer_keeps
    | with_reducible apply keeps_ite)

theorem windowWrite_keeps {k0 s : State} (o : Nat) (size : Nat) (v : W64) (hk : Keeps k0 s) : Keeps k0
    (State.windowWrite o size v s) := by
  unfold State.windowWrite
  try dsimp only
  repeat' (first
    | with_reducible assumption | intro _ | with_reducible apply putBuffer_keeps)

theorem bootWrite_keeps {k0 s : State} (o : Nat) (size : Nat) (v : W64) (hk : Keeps k0 s) : Keeps k0
    (State.bootWrite o size v s) := by
  unfold State.bootWrite
  try dsimp only
  repeat' (first
    | with_reducible assumption | intro _ | with_reducible apply keeps_ite | with_reducible apply keeps_ite_fst
    | with_reducible apply forAll_keeps | with_reducible apply forAll_keeps_fst
    | refine keeps_of_eq (by with_reducible assumption) ?_ | dsimp only | split
    | with_reducible refine fields_keeps ?_ (by with_reducible rfl) (by with_reducible rfl))

theorem fullNextWriteOp_keeps {k0 s : State} (size : Nat) (v : W64) (hk : Keeps k0 s) : Keeps k0
    (fullNextWriteOp size v s) := by
  unfold fullNextWriteOp
  try dsimp only
  repeat' (first
    | with_reducible assumption | intro _ | with_reducible apply ignored_keeps | with_reducible apply bootWrite_keeps
    | with_reducible apply keeps_ite)

theorem powerOnDayOp_keeps {k0 s : State} (hk : Keeps k0 s) : Keeps k0 (powerOnDayOp s) := by
  unfold powerOnDayOp
  try dsimp only
  repeat' (first
    | with_reducible assumption | intro _ | with_reducible apply keeps_ite | with_reducible apply keeps_ite_fst
    | with_reducible apply forAll_keeps | with_reducible apply forAll_keeps_fst
    | refine keeps_of_eq (by with_reducible assumption) ?_ | dsimp only | split
    | with_reducible refine fields_keeps ?_ (by with_reducible rfl) (by with_reducible rfl))

end Sys2Proof.Machine
end

