-- ==== Sys2Proof/Laws/KeepsHostPort.lean ====
section
/-!
SUPPORT. What the operations of Machine/HostPort.lean keep (`Keeps`): one lemma each.
-/
namespace Sys2Proof.Machine


/-- An entry put into the bank leaves the others. -/
theorem putEntry_ne (n m : Nat) (w : W32) (l : List W32) (h : m ≠ n) : (putEntry n w l).getD m 0 = l.getD m 0 := by
  unfold putEntry
  by_cases hm : m < max l.length (n + 1)
  · simp [List.getD_eq_getElem?_getD, hm, h]
  · have : l.length ≤ m := by omega
    simp [List.getD_eq_getElem?_getD, this]
    rw [List.getElem?_eq_none] <;> simp; omega

theorem capWrite_keeps {k0 s : State} (o : Nat) (size : Nat) (v : W64) (hk : Keeps k0 s) : Keeps k0
    (State.capWrite o size v s) := by
  unfold State.capWrite
  try dsimp only
  repeat' (first
    | with_reducible assumption | intro _ | with_reducible apply setF_keeps | with_reducible apply plainWrite_keeps
    | with_reducible apply effectCap_keeps)

theorem thermWrite_keeps {k0 s : State} (o : Nat) (size : Nat) (v : W64) (hk : Keeps k0 s) : Keeps k0
    (State.thermWrite o size v s) := by
  unfold State.thermWrite
  try dsimp only
  repeat' (first
    | with_reducible assumption | intro _ | with_reducible apply setF_keeps | with_reducible apply plainWrite_keeps)

theorem regionWrite_keeps {k0 s : State} (i : Nat) (o : Nat) (size : Nat) (v : W64) (hk : Keeps k0 s) : Keeps k0
    (State.regionWrite i o size v s) := by
  unfold State.regionWrite
  try dsimp only
  repeat' (first
    | with_reducible assumption | intro _ | with_reducible apply setF_keeps | with_reducible apply plainWrite_keeps
    | with_reducible apply keeps_ite)

theorem patWrite_keeps {k0 s : State} (o : Nat) (size : Nat) (v : W64) (hk : Keeps k0 s) : Keeps k0
    (State.patWrite o size v s) := by
  unfold State.patWrite
  try dsimp only
  repeat' (first
    | with_reducible assumption | intro _ | with_reducible apply patIgnored_keeps
    | with_reducible apply verifyOp_keeps | with_reducible apply keyOp_keeps | with_reducible apply pourOp_keeps
    | with_reducible apply partitionResetOp_keeps | with_reducible apply disarmOp_keeps
    | with_reducible apply patchOp_keeps | with_reducible apply keeps_ite | with_reducible apply keeps_ite_fst
    | with_reducible apply forAll_keeps | with_reducible apply forAll_keeps_fst
    | refine keeps_of_eq (by with_reducible assumption) ?_ | dsimp only | split)

theorem ckptWrite_keeps {k0 s : State} (p : Nat) (o : Nat) (size : Nat) (v : W64) (hk : Keeps k0 s) : Keeps k0
    (State.ckptWrite p o size v s) := by
  unfold State.ckptWrite
  try dsimp only
  repeat' (first
    | with_reducible assumption | intro _ | with_reducible apply plainWrite_keeps | with_reducible apply saveOp_keeps
    | with_reducible apply ckptResumeOp_keeps | with_reducible apply ckptRestoreOp_keeps
    | with_reducible apply keeps_ite)

theorem crcControl_keeps {k0 s : State} (u : Nat) (o : Nat) (size : Nat) (v : W64) (hk : Keeps k0 s) : Keeps k0
    (State.crcControl u o size v s) := by
  unfold State.crcControl
  try dsimp only
  repeat' (first
    | with_reducible assumption | intro _ | with_reducible apply crcRefillOp_keeps
    | with_reducible apply crcReleaseOp_keeps | with_reducible apply crcDropOp_keeps | with_reducible apply keeps_ite)

theorem topoWrite_keeps {k0 s : State} (o : Nat) (size : Nat) (v : W64) (hk : Keeps k0 s) : Keeps k0
    (State.topoWrite o size v s) := by
  unfold State.topoWrite
  try dsimp only
  repeat' (first
    | with_reducible assumption | intro _ | with_reducible apply ignored_keeps | with_reducible apply plainWrite_keeps
    | with_reducible apply retrainFree_keeps | with_reducible apply keeps_ite)

theorem regWrite_keeps {k0 s : State} (o : Nat) (size : Nat) (v : W64) (hk : Keeps k0 s) : Keeps k0
    (State.regWrite o size v s) := by
  unfold State.regWrite
  try dsimp only
  repeat' (first
    | with_reducible assumption | intro _ | with_reducible apply ignored_keeps | with_reducible apply plainWrite_keeps
    | with_reducible apply crcWrite_keeps | with_reducible apply hostCounterAddOp_keeps
    | with_reducible apply watchWrite_keeps | with_reducible apply nextSeedAt_keeps
    | with_reducible apply dumpReleaseOp_keeps | with_reducible apply entWrite_keeps
    | with_reducible apply recoveryWrite_keeps | with_reducible apply windowWrite_keeps
    | with_reducible apply bootWrite_keeps | with_reducible apply capWrite_keeps
    | with_reducible apply thermWrite_keeps | with_reducible apply regionWrite_keeps
    | with_reducible apply patWrite_keeps | with_reducible apply ckptWrite_keeps
    | with_reducible apply crcControl_keeps | with_reducible apply topoWrite_keeps | with_reducible apply keeps_ite)

theorem cfgWrite_keeps {k0 s : State} (a : HostAddr) (size : Nat) (v : W64) (hk : Keeps k0 s) : Keeps k0
    (State.cfgWrite a size v s) := by
  unfold State.cfgWrite
  try dsimp only
  repeat' (first
    | with_reducible assumption | intro _ | with_reducible apply keeps_ite | with_reducible apply keeps_ite_fst
    | with_reducible apply forAll_keeps | with_reducible apply forAll_keeps_fst
    | refine keeps_of_eq (by with_reducible assumption) ?_ | dsimp only | split
    | with_reducible refine fields_keeps ?_ (by with_reducible rfl) (by with_reducible rfl))

theorem registerWriteOp_keeps {k0 s : State} (o : Nat) (size : Nat) (v : W64) (hk : Keeps k0 s) : Keeps k0
    (registerWriteOp o size v s) := by
  unfold registerWriteOp
  try dsimp only
  repeat' (first
    | with_reducible assumption | intro _ | with_reducible apply ignored_keeps | with_reducible apply hostAct_keeps
    | with_reducible apply regWrite_keeps | with_reducible apply keeps_ite)

theorem takeRead_keeps {k0 s : State} (o : Nat) (size : Nat) (hk : Keeps k0 s) : Keeps k0
    (State.takeRead o size s) := by
  unfold State.takeRead
  try dsimp only
  repeat' (first
    | with_reducible assumption | intro _ | with_reducible apply emit_keeps | with_reducible apply takeResult_keeps
    | with_reducible apply keeps_ite)

theorem plainRead_keeps {k0 s : State} (o : Nat) (size : Nat) (hk : Keeps k0 s) : Keeps k0
    (State.plainRead o size s) := by
  unfold State.plainRead
  try dsimp only
  repeat' (first
    | with_reducible assumption | intro _ | with_reducible apply emit_keeps | with_reducible apply clearRc_keeps
    | with_reducible apply keeps_ite)

theorem ignoredRead_keeps {k0 s : State} (cause : Nat) (o : Nat) (size : Nat) (hk : Keeps k0 s) : Keeps k0
    (State.ignoredRead cause o size s) := by
  unfold State.ignoredRead
  try dsimp only
  repeat' (first
    | with_reducible assumption | intro _ | with_reducible apply ignored_keeps | with_reducible apply emit_keeps)

theorem rcReadOp_keeps {k0 s : State} (o : Nat) (size : Nat) (hk : Keeps k0 s) : Keeps k0 (rcReadOp o size s) := by
  unfold rcReadOp
  try dsimp only
  repeat' (first
    | with_reducible assumption | intro _ | with_reducible apply randRead_keeps | with_reducible apply takeRead_keeps
    | with_reducible apply plainRead_keeps | with_reducible apply ignoredRead_keeps | with_reducible apply keeps_ite)

theorem serveHead_keeps {k0 s : State} (p part n : Nat) (hk : Keeps k0 s) : Keeps k0 (State.serveHead p part n s) := by
  induction n generalizing s with
  | zero => exact hk
  | succ n ih => exact ih (hbmServe_keeps _ _ hk)

theorem serveAhead_keeps {k0 s : State} (a : Nat) (n : Nat) (hk : Keeps k0 s) : Keeps k0 (State.serveAhead a n s) := by
  unfold State.serveAhead
  try dsimp only
  repeat' (first
    | with_reducible assumption | intro _ | with_reducible apply serveHead_keeps | with_reducible apply keeps_ite
    | with_reducible apply keeps_ite_fst | with_reducible apply forAll_keeps)

theorem cxlmemReadOp_keeps {k0 s : State} (a : Nat) (n : Nat) (hk : Keeps k0 s) : Keeps k0 (cxlmemReadOp a n s) := by
  unfold cxlmemReadOp
  try dsimp only
  repeat' (first
    | with_reducible assumption | intro _ | with_reducible apply ignored_keeps | with_reducible apply emit_keeps
    | with_reducible apply noteHbmRead_keeps | with_reducible apply leaveDeep_keeps
    | with_reducible apply serveAhead_keeps | with_reducible apply keeps_ite)

theorem writeWord_keeps {k0 s : State} (a : Nat) (d : List (Option Byte)) (poison : Bool) (w : Nat) (hk : Keeps k0 s)
    : Keeps k0 (State.writeWord a d poison w s) := by
  unfold State.writeWord
  try dsimp only
  repeat' (first
    | with_reducible assumption | intro _ | with_reducible apply correctHbm_keeps | with_reducible apply wrHbm_keeps
    | with_reducible apply wrHbmPoison_keeps | with_reducible apply keeps_ite)

theorem seeUnit_keeps {k0 s : State} (a : Nat) (d : List (Option Byte)) (poison : Bool) (u : Nat) (hk : Keeps k0 s) :
    Keeps k0 (State.seeUnit a d poison u s) := by
  unfold State.seeUnit
  try dsimp only
  repeat' (first
    | with_reducible assumption | intro _ | with_reducible apply inputWrite_keeps | with_reducible apply keeps_ite)

theorem cxlmemWriteOp_keeps {k0 s : State} (a : Nat) (d : List (Option Byte)) (poison : Bool) (hk : Keeps k0 s) :
    Keeps k0 (cxlmemWriteOp a d poison s) := by
  unfold cxlmemWriteOp
  try dsimp only
  repeat' (first
    | with_reducible assumption | intro _ | with_reducible apply ignored_keeps | with_reducible apply emit_keeps
    | with_reducible apply noteRemap_keeps | with_reducible apply leaveDeep_keeps
    | with_reducible apply serveAhead_keeps | with_reducible apply writeWord_keeps
    | with_reducible apply seeUnit_keeps | with_reducible apply keeps_ite | with_reducible apply keeps_ite_fst
    | with_reducible apply forAll_keeps)

theorem burnField_keeps {k0 s : State} (w : W32) (hk : Keeps k0 s) : Keeps k0 (State.burnField w s).1 := by
  unfold State.burnField
  split
  · rename_i n hn
    refine fuses_keeps hk ⟨rfl, rfl, fun m hm => ?_, bitsGrow_refl _, bitsGrow_refl _, bitsGrow_refl _⟩
    have h0 := List.find?_some hn
    simp only [State.fuseWord, beq_iff_eq] at h0
    exact putEntry_ne _ _ _ _ (fun e => hm (by rw [e]; exact h0))
  · exact hk

theorem cutWrites_keeps {k0 s : State} (hk : Keeps k0 s) : Keeps k0 (State.cutWrites s) := by
  unfold State.cutWrites
  try dsimp only
  repeat' (first
    | with_reducible assumption | intro _ | with_reducible apply used_keeps | with_reducible apply writeRecord_keeps
    | with_reducible apply burnField_keeps | with_reducible apply keeps_ite)

theorem deviceReset_keeps {k0 s : State} (hk : Keeps k0 s) : Keeps k0 (State.deviceReset s) := by
  unfold State.deviceReset
  have hp := partialDump_keeps (cutWrites_keeps hk)
  generalize s.cutWrites.partialDump = u at hp
  refine beginHeat_keeps _ ?_
  refine hp.trans ⟨rfl, List.prefix_refl _, Fuses.Grow.refl _, Nat.le_refl _, fun w => ?_⟩
  rw [State.wf_iff] at w ⊢
  refine ⟨tblWf_tblFilter _ keptWord w.1, w.2.1, ?_, rfl, w.2.2.2.2⟩
  rw [List.all_eq_true] at w ⊢
  intro e he
  obtain ⟨x, hx, rfl⟩ := List.mem_map.1 (List.mem_filter.1 he).1
  exact w.2.2.1 x hx

theorem conventionalResetOp_keeps {k0 s : State} (hk : Keeps k0 s) : Keeps k0 (conventionalResetOp s) := by
  unfold conventionalResetOp
  try dsimp only
  repeat' (first
    | with_reducible assumption | intro _ | with_reducible apply deviceReset_keeps | with_reducible apply keeps_ite)

theorem functionLevelResetOp_keeps {k0 s : State} (hk : Keeps k0 s) : Keeps k0 (functionLevelResetOp s) := by
  unfold functionLevelResetOp
  try dsimp only
  repeat' (first
    | with_reducible assumption | intro _ | with_reducible apply resetRegs_keeps
    | with_reducible apply disarmAll_keeps | with_reducible apply keeps_ite | with_reducible apply keeps_ite_fst
    | with_reducible apply forAll_keeps | with_reducible apply forAll_keeps_fst
    | refine keeps_of_eq (by with_reducible assumption) ?_ | dsimp only | split
    | with_reducible refine fields_keeps ?_ (by with_reducible rfl) (by with_reducible rfl))

end Sys2Proof.Machine
end

