-- ==== Sys2Proof/Laws/KeepsPower.lean ====
section
/-!
SUPPORT. What the operations of Machine/Power.lean keep (`Keeps`): one lemma each.
-/
namespace Sys2Proof.Machine

theorem temperatureSampleOp_keeps {k0 s : State} (d : Nat) (l : List (BitVec 8)) (hk : Keeps k0 s) : Keeps k0
    (temperatureSampleOp d l s) := by
  unfold temperatureSampleOp
  try dsimp only
  repeat' (first
    | with_reducible assumption | exact fun (_ : State) h => h | intro _ | with_reducible apply setF_keeps
    | with_reducible apply powerOffDie_keeps | with_reducible apply fatal_keeps | with_reducible apply keeps_ite
    | with_reducible apply keeps_ite_fst | with_reducible apply forAll_keeps | with_reducible apply forAll_keeps_fst
    | refine keeps_of_eq (by with_reducible assumption) ?_ | dsimp only | split
    | with_reducible refine fields_keeps ?_ (by with_reducible rfl) (by with_reducible rfl))

theorem sampleHeld_keeps {k0 s : State} (hk : Keeps k0 s) : Keeps k0 (State.sampleHeld s) := by
  unfold State.sampleHeld
  try dsimp only
  repeat' (first
    | with_reducible assumption | intro _ | with_reducible apply keeps_ite | with_reducible apply keeps_ite_fst
    | with_reducible apply forAll_keeps | with_reducible apply forAll_keeps_fst
    | refine keeps_of_eq (by with_reducible assumption) ?_ | dsimp only | split
    | with_reducible refine fields_keeps ?_ (by with_reducible rfl) (by with_reducible rfl))

theorem readVout_keeps {k0 s : State} (d : Nat) (hk : Keeps k0 s) : Keeps k0 (readVout d s) := by
  unfold readVout
  try dsimp only
  repeat' (first
    | with_reducible assumption | intro _ | with_reducible apply setF_keeps | with_reducible apply used_keeps)

theorem powerSumOp_keeps {k0 s : State} (avg : BitVec 16) (avg10 : BitVec 16) (hk : Keeps k0 s) : Keeps k0
    (powerSumOp avg avg10 s) := by
  unfold powerSumOp
  try dsimp only
  repeat' (first
    | with_reducible assumption | intro _ | with_reducible apply setF_keeps | with_reducible apply changePoint_keeps
    | with_reducible apply sampleHeld_keeps | with_reducible apply readVout_keeps | with_reducible apply keeps_ite
    | with_reducible apply keeps_ite_fst | with_reducible apply forAll_keeps | with_reducible apply forAll_keeps_fst
    | refine keeps_of_eq (by with_reducible assumption) ?_ | dsimp only | split
    | with_reducible refine fields_keeps ?_ (by with_reducible rfl) (by with_reducible rfl))

theorem regionWarningOp_keeps {k0 s : State} (i : Nat) (occ : Nat) (hk : Keeps k0 s) : Keeps k0
    (regionWarningOp i occ s) := by
  unfold regionWarningOp
  try dsimp only
  repeat' (first
    | with_reducible assumption | intro _ | with_reducible apply setF_keeps | with_reducible apply incF_keeps
    | with_reducible apply modPart_keeps | with_reducible apply noteOcc_keeps | with_reducible apply keeps_ite
    | with_reducible apply keeps_ite_fst | with_reducible apply forAll_keeps | with_reducible apply forAll_keeps_fst
    | refine keeps_of_eq (by with_reducible assumption) ?_ | dsimp only | split
    | with_reducible refine fields_keeps ?_ (by with_reducible rfl) (by with_reducible rfl))

theorem partitionGateOp_keeps {k0 s : State} (p : Nat) (hk : Keeps k0 s) : Keeps k0 (partitionGateOp p s) := by
  unfold partitionGateOp
  try dsimp only
  repeat' (first
    | with_reducible assumption | intro _ | with_reducible apply setF_keeps | with_reducible apply modPart_keeps
    | with_reducible apply changePoint_keeps | with_reducible apply keeps_ite)

theorem partitionWakeOp_keeps {k0 s : State} (p : Nat) (hk : Keeps k0 s) : Keeps k0 (partitionWakeOp p s) := by
  unfold partitionWakeOp
  try dsimp only
  repeat' (first
    | with_reducible assumption | intro _ | with_reducible apply setF_keeps | with_reducible apply modPart_keeps
    | with_reducible apply releaseBuffered_keeps | with_reducible apply keeps_ite)

theorem deepEntryOp_keeps {k0 s : State} (hk : Keeps k0 s) : Keeps k0 (deepEntryOp s) := by
  unfold deepEntryOp
  try dsimp only
  repeat' (first
    | with_reducible assumption | intro _ | with_reducible apply setF_keeps | with_reducible apply powerOffDie_keeps
    | with_reducible apply keeps_ite | with_reducible apply keeps_ite_fst | with_reducible apply forAll_keeps)

theorem answerWord_keeps {k0 s : State} (n : Nat) (hk : Keeps k0 s) : Keeps k0 (State.answerWord n s) := by
  unfold State.answerWord
  try dsimp only
  repeat' (first
    | with_reducible assumption | intro _ | with_reducible apply emit_keeps)

theorem readStateOp_keeps {k0 s : State} (hk : Keeps k0 s) : Keeps k0 (readStateOp s) := by
  unfold readStateOp
  try dsimp only
  repeat' (first
    | with_reducible assumption | intro _ | with_reducible apply managed_keeps
    | with_reducible apply answerWord_keeps)

theorem readPowerOp_keeps {k0 s : State} (hk : Keeps k0 s) : Keeps k0 (readPowerOp s) := by
  unfold readPowerOp
  try dsimp only
  repeat' (first
    | with_reducible assumption | intro _ | with_reducible apply managed_keeps
    | with_reducible apply answerWord_keeps)

theorem readTempOp_keeps {k0 s : State} (hk : Keeps k0 s) : Keeps k0 (readTempOp s) := by
  unfold readTempOp
  try dsimp only
  repeat' (first
    | with_reducible assumption | intro _ | with_reducible apply emit_keeps | with_reducible apply managed_keeps)

theorem readHbmTempOp_keeps {k0 s : State} (hk : Keeps k0 s) : Keeps k0 (readHbmTempOp s) := by
  unfold readHbmTempOp
  try dsimp only
  repeat' (first
    | with_reducible assumption | intro _ | with_reducible apply emit_keeps | with_reducible apply managed_keeps)

theorem capOp_keeps {k0 s : State} (write : Option (BitVec 16)) (pecOk : Bool) (hk : Keeps k0 s) : Keeps k0
    (capOp write pecOk s) := by
  unfold capOp
  try dsimp only
  repeat' (first
    | with_reducible assumption | intro _ | with_reducible apply setF_keeps | with_reducible apply emit_keeps
    | with_reducible apply managed_keeps | with_reducible apply effectCap_keeps
    | with_reducible apply answerWord_keeps | with_reducible apply keeps_ite | with_reducible apply keeps_ite_fst
    | with_reducible apply forAll_keeps | with_reducible apply forAll_keeps_fst
    | refine keeps_of_eq (by with_reducible assumption) ?_ | dsimp only | split)

theorem readSerialOp_keeps {k0 s : State} (hk : Keeps k0 s) : Keeps k0 (readSerialOp s) := by
  unfold readSerialOp
  try dsimp only
  repeat' (first
    | with_reducible assumption | intro _ | with_reducible apply emit_keeps | with_reducible apply managed_keeps)

theorem readFwOp_keeps {k0 s : State} (hk : Keeps k0 s) : Keeps k0 (readFwOp s) := by
  unfold readFwOp
  try dsimp only
  repeat' (first
    | with_reducible assumption | intro _ | with_reducible apply emit_keeps | with_reducible apply managed_keeps)

end Sys2Proof.Machine
end

