-- ==== Sys2Proof/Laws/KeepsMonitor.lean ====
section
/-!
SUPPORT. What the operations of Machine/Monitor.lean keep (`Keeps`): one lemma each.
-/
namespace Sys2Proof.Machine

theorem line_keeps {k0 s : State} {f : State → State} (hf : ∀  u, Keeps k0 u → Keeps k0 (f u)) (hk : Keeps k0 s) :
    Keeps k0 (State.line f s) := by
  unfold State.line
  try dsimp only
  repeat' (first
    | with_reducible assumption | intro _ | with_reducible apply hf | with_reducible apply managed_keeps
    | with_reducible apply keeps_ite)

theorem fail_keeps {k0 s : State} (code : Nat) (hk : Keeps k0 s) : Keeps k0 (State.fail code s) := by
  unfold State.fail
  try dsimp only
  repeat' (first
    | with_reducible assumption | intro _ | with_reducible apply emit_keeps)

theorem answer_keeps {k0 s : State} (ls : List (List Byte)) (hk : Keeps k0 s) : Keeps k0 (State.answer ls s) := by
  unfold State.answer
  try dsimp only
  repeat' (first
    | with_reducible assumption | intro _ | with_reducible apply emit_keeps | with_reducible apply keeps_ite
    | with_reducible apply keeps_ite_fst | with_reducible apply forAll_keeps)

theorem checked_keeps {k0 s : State} (bad : Bool) (locked : Bool) (wrong : Bool) {f : State → State} (hf : ∀  u, Keeps
    k0 u → Keeps k0 (f u)) (hk : Keeps k0 s) : Keeps k0 (State.checked bad locked wrong f s) := by
  unfold State.checked
  try dsimp only
  repeat' (first
    | with_reducible assumption | intro _ | with_reducible apply hf | with_reducible apply fail_keeps
    | with_reducible apply keeps_ite)

theorem monHelpOp_keeps {k0 s : State} (hk : Keeps k0 s) : Keeps k0 (monHelpOp s) := by
  unfold monHelpOp
  try dsimp only
  repeat' (first
    | with_reducible assumption | intro _ | with_reducible apply line_keeps | with_reducible apply answer_keeps)

theorem monStateOp_keeps {k0 s : State} (hk : Keeps k0 s) : Keeps k0 (monStateOp s) := by
  unfold monStateOp
  try dsimp only
  repeat' (first
    | with_reducible assumption | intro _ | with_reducible apply line_keeps | with_reducible apply answer_keeps)

theorem monHeatOp_keeps {k0 s : State} (h : Nat) (hk : Keeps k0 s) : Keeps k0 (monHeatOp h s) := by
  unfold monHeatOp
  try dsimp only
  repeat' (first
    | with_reducible assumption | intro _ | with_reducible apply line_keeps | with_reducible apply answer_keeps
    | with_reducible apply checked_keeps)

theorem wakeCore_keeps {k0 s : State} (d : Nat) (hk : Keeps k0 s) : Keeps k0 (State.wakeCore d s) := by
  unfold State.wakeCore
  try dsimp only
  repeat' (first
    | with_reducible assumption | intro _ | with_reducible apply leaveDeep_keeps | with_reducible apply setOff_keeps
    | with_reducible apply keeps_ite)

theorem wakeFor_keeps {k0 s : State} (o : Nat) (hk : Keeps k0 s) : Keeps k0 (State.wakeFor o s) := by
  unfold State.wakeFor
  try dsimp only
  repeat' (first
    | with_reducible assumption | intro _ | with_reducible apply wakeCore_keeps | with_reducible apply keeps_ite)

theorem monRdOp_keeps {k0 s : State} (o : Nat) (n : Nat) (hk : Keeps k0 s) : Keeps k0 (monRdOp o n s) := by
  unfold monRdOp
  try dsimp only
  repeat' (first
    | with_reducible assumption | intro _ | with_reducible apply line_keeps | with_reducible apply answer_keeps
    | with_reducible apply checked_keeps | with_reducible apply wakeFor_keeps | with_reducible apply keeps_ite
    | with_reducible apply keeps_ite_fst | with_reducible apply forAll_keeps)

theorem liftedWrite_keeps {k0 s : State} (o : Nat) (v : W64) (hk : Keeps k0 s) : Keeps k0
    (State.liftedWrite o v s) := by
  unfold State.liftedWrite
  try dsimp only
  repeat' (first
    | with_reducible assumption | intro _ | with_reducible apply setF_keeps
    | with_reducible apply registerWriteOp_keeps)

theorem rawWrite_keeps {k0 s : State} (v : W64) (hk : Keeps k0 s) : Keeps k0 (State.rawWrite v s) := by
  unfold State.rawWrite
  try dsimp only
  repeat' (first
    | with_reducible assumption | intro _ | with_reducible apply setF_keeps | with_reducible apply setRaw_keeps)

theorem monRegWrite_keeps {k0 s : State} (o : Nat) (v : W64) (hk : Keeps k0 s) : Keeps k0
    (State.monRegWrite o v s) := by
  unfold State.monRegWrite
  try dsimp only
  repeat' (first
    | with_reducible assumption | intro _ | with_reducible apply rawWrite_keeps | with_reducible apply keeps_ite)

theorem monWrOp_keeps {k0 s : State} (o : Nat) (v : W64) (hk : Keeps k0 s) : Keeps k0 (monWrOp o v s) := by
  unfold monWrOp
  try dsimp only
  repeat' (first
    | with_reducible assumption | intro _ | with_reducible apply line_keeps | with_reducible apply answer_keeps
    | with_reducible apply checked_keeps | with_reducible apply wakeFor_keeps | with_reducible apply liftedWrite_keeps
    | with_reducible apply monRegWrite_keeps | with_reducible apply keeps_ite)

theorem monFuseOp_keeps {k0 s : State} (hk : Keeps k0 s) : Keeps k0 (monFuseOp s) := by
  unfold monFuseOp
  try dsimp only
  repeat' (first
    | with_reducible assumption | intro _ | with_reducible apply line_keeps | with_reducible apply answer_keeps)

theorem monLogOp_keeps {k0 s : State} (n : Nat) (hk : Keeps k0 s) : Keeps k0 (monLogOp n s) := by
  unfold monLogOp
  try dsimp only
  repeat' (first
    | with_reducible assumption | intro _ | with_reducible apply line_keeps | with_reducible apply answer_keeps)

theorem monBaudOp_keeps {k0 s : State} (rate : Nat) (hk : Keeps k0 s) : Keeps k0 (monBaudOp rate s) := by
  unfold monBaudOp
  try dsimp only
  repeat' (first
    | with_reducible assumption | intro _ | with_reducible apply setF_keeps | with_reducible apply line_keeps
    | with_reducible apply answer_keeps | with_reducible apply checked_keeps)

theorem monFullstartOp_keeps {k0 s : State} (hk : Keeps k0 s) : Keeps k0 (monFullstartOp s) := by
  unfold monFullstartOp
  try dsimp only
  repeat' (first
    | with_reducible assumption | intro _ | with_reducible apply line_keeps | with_reducible apply answer_keeps
    | with_reducible apply checked_keeps | with_reducible apply keeps_ite | with_reducible apply keeps_ite_fst
    | with_reducible apply forAll_keeps | with_reducible apply forAll_keeps_fst
    | refine keeps_of_eq (by with_reducible assumption) ?_ | dsimp only | split
    | with_reducible refine fields_keeps ?_ (by with_reducible rfl) (by with_reducible rfl))

theorem monLinkcfgOp_keeps {k0 s : State} (id : Nat) (topology : Nat) (x : Nat) (y : Nat) (z : Nat) (hk : Keeps k0 s)
    : Keeps k0 (monLinkcfgOp id topology x y z s) := by
  unfold monLinkcfgOp
  try dsimp only
  repeat' (first
    | with_reducible assumption | exact fun (_ : State) h => h | intro _ | with_reducible apply line_keeps
    | with_reducible apply answer_keeps | with_reducible apply checked_keeps | with_reducible apply keeps_ite
    | with_reducible apply keeps_ite_fst | with_reducible apply forAll_keeps | with_reducible apply forAll_keeps_fst
    | refine keeps_of_eq (by with_reducible assumption) ?_ | dsimp only | split
    | with_reducible refine fields_keeps ?_ (by with_reducible rfl) (by with_reducible rfl))

theorem usedBytes_keeps {k0 s : State} (n : Nat) (hk : Keeps k0 s) : Keeps k0 (State.usedBytes n s) := by
  unfold State.usedBytes
  try dsimp only
  repeat' (first
    | with_reducible assumption | intro _ | with_reducible apply keeps_ite | with_reducible apply keeps_ite_fst
    | with_reducible apply forAll_keeps | with_reducible apply forAll_keeps_fst
    | refine keeps_of_eq (by with_reducible assumption) ?_ | dsimp only | split
    | with_reducible refine fields_keeps ?_ (by with_reducible rfl) (by with_reducible rfl)
    | with_reducible apply state_keeps | exact Nat.le_refl _ | exact Nat.le_add_right _ _)

theorem monLinktestOp_keeps {k0 s : State} (port : Nat) (seconds : Nat) (hk : Keeps k0 s) : Keeps k0
    (monLinktestOp port seconds s) := by
  unfold monLinktestOp
  try dsimp only
  repeat' (first
    | with_reducible assumption | intro _ | with_reducible apply line_keeps | with_reducible apply answer_keeps
    | with_reducible apply checked_keeps | with_reducible apply usedBytes_keeps)

theorem testStack_keeps {k0 s : State} (c : Nat) (hk : Keeps k0 s) : Keeps k0 (State.testStack c s) := by
  unfold State.testStack
  dsimp only
  apply usedBytes_keeps
  have h1 := leaveDeep_keeps hk
  generalize s.leaveDeep = t at h1
  generalize t.testBytes c = l
  refine hbm_keeps h1 rfl rfl rfl rfl rfl rfl rfl rfl fun w => ?_
  apply Mem.lose_wf
  rw [Mem.wf_iff] at w ⊢
  exact ⟨w.1, tblWf_filter _ _ w.2⟩

/-- What a tested core memory holds is in canonical form. -/
theorem testCore_wf (c : Core) (k : Nat) : (testCore c k).wf = true := by
  unfold testCore
  generalize List.range (cmSize .lace) = l1
  generalize List.range (cmSize .tile) = l2
  generalize List.range (cmSize .op) = l3
  rw [Core.wf_iff]
  refine ⟨?_, ?_, ?_⟩ <;> exact Mem.lose_wf _ _ (by decide)

theorem testDie_keeps {k0 s : State} (d : Nat) (hk : Keeps k0 s) : Keeps k0 (State.testDie d s) := by
  unfold State.testDie
  generalize (List.range 256).map (256 * d + ·) = l
  dsimp only
  apply forAll_keeps
  · intro x u h
    apply usedBytes_keeps
    exact modCore_keeps _ (fun c _ => testCore_wf _ _) h
  · exact wakeCore_keeps _ hk

theorem monMemtestOp_keeps {k0 s : State} (m : MemTarget) (hk : Keeps k0 s) : Keeps k0 (monMemtestOp m s) := by
  unfold monMemtestOp
  try dsimp only
  repeat' (first
    | with_reducible assumption | intro _ | with_reducible apply line_keeps | with_reducible apply answer_keeps
    | with_reducible apply checked_keeps | with_reducible apply usedBytes_keeps | with_reducible apply testStack_keeps
    | with_reducible apply testDie_keeps | with_reducible apply keeps_ite | with_reducible apply keeps_ite_fst
    | with_reducible apply forAll_keeps | with_reducible apply forAll_keeps_fst
    | refine keeps_of_eq (by with_reducible assumption) ?_ | dsimp only | split)

theorem setTransfer_keeps {k0 s : State} (t : Option Transfer) (hk : Keeps k0 s) : Keeps k0
    (State.setTransfer t s) := by
  unfold State.setTransfer
  try dsimp only
  repeat' (first
    | with_reducible assumption | intro _ | with_reducible apply keeps_ite | with_reducible apply keeps_ite_fst
    | with_reducible apply forAll_keeps | with_reducible apply forAll_keeps_fst
    | refine keeps_of_eq (by with_reducible assumption) ?_ | dsimp only | split
    | with_reducible refine fields_keeps ?_ (by with_reducible rfl) (by with_reducible rfl))

theorem sendFrames_keeps {k0 s : State} (l : List (List Byte)) (hk : Keeps k0 s) : Keeps k0 (State.sendFrames l s) := by
  unfold State.sendFrames
  try dsimp only
  repeat' (first
    | with_reducible assumption | intro _ | with_reducible apply emit_keeps | with_reducible apply setTransfer_keeps
    | with_reducible apply keeps_ite | with_reducible apply keeps_ite_fst | with_reducible apply forAll_keeps
    | with_reducible apply forAll_keeps_fst | refine keeps_of_eq (by with_reducible assumption) ?_ | dsimp only
    | split)

theorem sendData_keeps {k0 s : State} (d : List Byte) (hk : Keeps k0 s) : Keeps k0 (State.sendData d s) := by
  unfold State.sendData
  try dsimp only
  repeat' (first
    | with_reducible assumption | intro _ | with_reducible apply sendFrames_keeps)

theorem readDump_keeps {k0 s : State} (sec : Option Nat) (hk : Keeps k0 s) : Keeps k0 (State.readDump s sec) := by
  unfold State.readDump
  try dsimp only
  repeat' (first
    | with_reducible assumption | intro _ | with_reducible apply noteHbmRead_keeps
    | with_reducible apply leaveDeep_keeps | with_reducible apply keeps_ite)

theorem monDumpOp_keeps {k0 s : State} (sec : Option Nat) (hk : Keeps k0 s) : Keeps k0 (monDumpOp sec s) := by
  unfold monDumpOp
  try dsimp only
  repeat' (first
    | with_reducible assumption | intro _ | with_reducible apply line_keeps | with_reducible apply checked_keeps
    | with_reducible apply sendData_keeps | with_reducible apply readDump_keeps)

theorem monLoadOp_keeps {k0 s : State} (n : Nat) (hk : Keeps k0 s) : Keeps k0 (monLoadOp n s) := by
  unfold monLoadOp
  try dsimp only
  repeat' (first
    | with_reducible assumption | intro _ | with_reducible apply line_keeps | with_reducible apply checked_keeps
    | with_reducible apply setTransfer_keeps)

theorem monCommitOp_keeps {k0 s : State} (hk : Keeps k0 s) : Keeps k0 (monCommitOp s) := by
  unfold monCommitOp
  try dsimp only
  repeat' (first
    | with_reducible assumption | intro _ | with_reducible apply commitBuffer_keeps | with_reducible apply line_keeps
    | with_reducible apply answer_keeps | with_reducible apply checked_keeps)

theorem loaded_keeps {k0 s : State} (d : List Byte) (hk : Keeps k0 s) : Keeps k0 (State.loaded d s) := by
  unfold State.loaded
  try dsimp only
  repeat' (first
    | with_reducible assumption | intro _ | with_reducible apply setF_keeps | with_reducible apply putBuffer_keeps
    | with_reducible apply sendFrames_keeps)

theorem frameFor_keeps {k0 s : State} (ok : Bool) (refusals : Nat) {good : State → State} (bad : Transfer)
    (hgood : ∀  u, Keeps k0 u → Keeps k0 (good u)) (hk : Keeps k0 s) : Keeps k0 (State.frameFor ok refusals good bad
    s) := by
  unfold State.frameFor
  try dsimp only
  repeat' (first
    | with_reducible assumption | intro _ | with_reducible apply hgood | with_reducible apply emit_keeps
    | with_reducible apply fail_keeps | with_reducible apply setTransfer_keeps | with_reducible apply keeps_ite)

theorem monFrameOp_keeps {k0 s : State} (f : FrameEvent) (hk : Keeps k0 s) : Keeps k0 (monFrameOp f s) := by
  unfold monFrameOp
  try dsimp only
  repeat' (first
    | with_reducible assumption | intro _ | with_reducible apply emit_keeps | with_reducible apply fail_keeps
    | with_reducible apply setTransfer_keeps | with_reducible apply sendFrames_keeps
    | with_reducible apply loaded_keeps | with_reducible apply frameFor_keeps | with_reducible apply keeps_ite
    | with_reducible apply keeps_ite_fst | with_reducible apply forAll_keeps | with_reducible apply forAll_keeps_fst
    | refine keeps_of_eq (by with_reducible assumption) ?_ | dsimp only | split)

theorem monTransferTimeoutOp_keeps {k0 s : State} (hk : Keeps k0 s) : Keeps k0 (monTransferTimeoutOp s) := by
  unfold monTransferTimeoutOp
  try dsimp only
  repeat' (first
    | with_reducible assumption | intro _ | with_reducible apply fail_keeps | with_reducible apply setTransfer_keeps
    | with_reducible apply keeps_ite)

theorem monUnknownCommandOp_keeps {k0 s : State} (hk : Keeps k0 s) : Keeps k0 (monUnknownCommandOp s) := by
  unfold monUnknownCommandOp
  try dsimp only
  repeat' (first
    | with_reducible assumption | intro _ | with_reducible apply line_keeps | with_reducible apply fail_keeps)

theorem rawArg_keeps {k0 s : State} (x : RawArg) (hk : Keeps k0 s) : Keeps k0 (State.rawArg x s) := by
  unfold State.rawArg
  split
  · exact setRaw_keeps _ hk
  · exact setRaw_keeps _ hk
  · exact setF_keeps _ _ hk
  · exact setF_keeps _ _ hk

theorem monRawOp_keeps {k0 s : State} (arg : RawArg) (hk : Keeps k0 s) : Keeps k0 (monRawOp arg s) := by
  unfold monRawOp
  try dsimp only
  repeat' (first
    | with_reducible assumption | intro _ | with_reducible apply line_keeps | with_reducible apply answer_keeps
    | with_reducible apply checked_keeps | with_reducible apply rawArg_keeps)

theorem monRawreadOp_keeps {k0 s : State} (n : Nat) (hk : Keeps k0 s) : Keeps k0 (monRawreadOp n s) := by
  unfold monRawreadOp
  try dsimp only
  repeat' (first
    | with_reducible assumption | intro _ | with_reducible apply line_keeps | with_reducible apply checked_keeps
    | with_reducible apply usedBytes_keeps | with_reducible apply sendData_keeps)

theorem monFatalOp_keeps {k0 s : State} (hk : Keeps k0 s) : Keeps k0 (monFatalOp s) := by
  unfold monFatalOp
  try dsimp only
  repeat' (first
    | with_reducible assumption | exact fun (_ : State) h => h | intro _ | with_reducible apply fatal_keeps
    | with_reducible apply line_keeps | with_reducible apply answer_keeps | with_reducible apply checked_keeps)

theorem monResetOp_keeps {k0 s : State} (hk : Keeps k0 s) : Keeps k0 (monResetOp s) := by
  unfold monResetOp
  try dsimp only
  repeat' (first
    | with_reducible assumption | intro _ | with_reducible apply deviceReset_keeps | with_reducible apply line_keeps
    | with_reducible apply answer_keeps | with_reducible apply checked_keeps)

theorem monUnlockOp_keeps {k0 s : State} (hk : Keeps k0 s) : Keeps k0 (monUnlockOp s) := by
  unfold monUnlockOp
  try dsimp only
  repeat' (first
    | with_reducible assumption | intro _ | with_reducible apply ask_keeps | with_reducible apply challenged_keeps
    | with_reducible apply line_keeps | with_reducible apply keeps_ite)

theorem lockUp_keeps {k0 s : State} (hk : Keeps k0 s) : Keeps k0 (State.lockUp s) := by
  unfold State.lockUp
  try dsimp only
  repeat' (first
    | with_reducible assumption | intro _ | with_reducible apply setF_keeps | with_reducible apply keeps_ite
    | with_reducible apply keeps_ite_fst | with_reducible apply forAll_keeps | with_reducible apply forAll_keeps_fst
    | refine keeps_of_eq (by with_reducible assumption) ?_ | dsimp only | split
    | with_reducible refine fields_keeps ?_ (by with_reducible rfl) (by with_reducible rfl))

theorem grantScopes_keeps {k0 s : State} (d : List Byte) (hk : Keeps k0 s) : Keeps k0 (State.grantScopes d s) := by
  unfold State.grantScopes
  try dsimp only
  repeat' (first
    | with_reducible assumption | intro _ | with_reducible apply setF_keeps | with_reducible apply keeps_ite
    | with_reducible apply keeps_ite_fst | with_reducible apply forAll_keeps | with_reducible apply forAll_keeps_fst
    | refine keeps_of_eq (by with_reducible assumption) ?_ | dsimp only | split
    | with_reducible refine fields_keeps ?_ (by with_reducible rfl) (by with_reducible rfl))

theorem unlockTokenOp_keeps {k0 s : State} (d : List Byte) (hk : Keeps k0 s) : Keeps k0 (unlockTokenOp d s) := by
  unfold unlockTokenOp
  try dsimp only
  repeat' (first
    | with_reducible assumption | intro _ | with_reducible apply used_keeps | with_reducible apply fail_keeps
    | with_reducible apply answer_keeps | with_reducible apply grantScopes_keeps | with_reducible apply keeps_ite
    | with_reducible apply keeps_ite_fst | with_reducible apply forAll_keeps | with_reducible apply forAll_keeps_fst
    | refine keeps_of_eq (by with_reducible assumption) ?_ | dsimp only | split
    | with_reducible refine fields_keeps ?_ (by with_reducible rfl) (by with_reducible rfl))

theorem monLockOp_keeps {k0 s : State} (hk : Keeps k0 s) : Keeps k0 (monLockOp s) := by
  unfold monLockOp
  try dsimp only
  repeat' (first
    | with_reducible assumption | intro _ | with_reducible apply line_keeps | with_reducible apply answer_keeps
    | with_reducible apply lockUp_keeps)

theorem unlockExpiryOp_keeps {k0 s : State} (hk : Keeps k0 s) : Keeps k0 (unlockExpiryOp s) := by
  unfold unlockExpiryOp
  try dsimp only
  repeat' (first
    | with_reducible assumption | intro _ | with_reducible apply lockUp_keeps | with_reducible apply keeps_ite)

end Sys2Proof.Machine
end

