-- ==== Sys2Proof/Laws/KeepsHeats.lean ====
section
/-!
SUPPORT. What the operations of Machine/Heats.lean keep (`Keeps`): one lemma each.
-/
namespace Sys2Proof.Machine

theorem inHeat_keeps {k0 s : State} (h : Nat) {f : State → State} (hf : ∀  u, Keeps k0 u → Keeps k0 (f u))
    (hk : Keeps k0 s) : Keeps k0 (State.inHeat h f s) := by
  unfold State.inHeat
  try dsimp only
  repeat' (first
    | with_reducible assumption | intro _ | with_reducible apply hf | with_reducible apply keeps_ite)

theorem passHeat_keeps {k0 s : State} (h : Nat) (out : Nat) (body : List Byte) (hk : Keeps k0 s) : Keeps k0
    (State.passHeat h out body s) := by
  unfold State.passHeat
  try dsimp only
  repeat' (first
    | with_reducible assumption | intro _ | with_reducible apply setF_keeps | with_reducible apply beginHeat_keeps
    | with_reducible apply endHeat_keeps)

theorem failHeat_keeps {k0 s : State} (h : Nat) (body : List Byte) (hk : Keeps k0 s) : Keeps k0
    (State.failHeat h body s) := by
  unfold State.failHeat
  try dsimp only
  repeat' (first
    | with_reducible assumption | intro _ | with_reducible apply endHeat_keeps | with_reducible apply keeps_ite
    | with_reducible apply keeps_ite_fst | with_reducible apply forAll_keeps | with_reducible apply forAll_keeps_fst
    | refine keeps_of_eq (by with_reducible assumption) ?_ | dsimp only | split
    | with_reducible refine fields_keeps ?_ (by with_reducible rfl) (by with_reducible rfl))

theorem blame_keeps {k0 s : State} (cause : Bool) (hk : Keeps k0 s) : Keeps k0 (State.blame cause s) := by
  unfold State.blame
  try dsimp only
  repeat' (first
    | with_reducible assumption | intro _ | with_reducible apply keeps_ite | with_reducible apply keeps_ite_fst
    | with_reducible apply forAll_keeps | with_reducible apply forAll_keeps_fst
    | refine keeps_of_eq (by with_reducible assumption) ?_ | dsimp only | split
    | with_reducible refine fields_keeps ?_ (by with_reducible rfl) (by with_reducible rfl))

theorem pgoodAonOp_keeps {k0 s : State} (hk : Keeps k0 s) : Keeps k0 (pgoodAonOp s) := by
  unfold pgoodAonOp
  try dsimp only
  repeat' (first
    | with_reducible assumption | intro _ | with_reducible apply beginHeat_keeps | with_reducible apply keeps_ite
    | with_reducible apply keeps_ite_fst | with_reducible apply forAll_keeps | with_reducible apply forAll_keeps_fst
    | refine keeps_of_eq (by with_reducible assumption) ?_ | dsimp only | split
    | with_reducible refine fields_keeps ?_ (by with_reducible rfl) (by with_reducible rfl))

theorem powerLossOp_keeps {k0 s : State} (hk : Keeps k0 s) : Keeps k0 (powerLossOp s) := by
  unfold powerLossOp
  have hc := cutWrites_keeps hk
  generalize s.cutWrites = u at hc
  exact hc.trans ⟨rfl, List.prefix_refl _, Fuses.Grow.refl _, Nat.le_refl _, fun _ => rfl⟩

theorem heat0Op_keeps {k0 s : State} (r : Heat0In) (hk : Keeps k0 s) : Keeps k0 (heat0Op r s) := by
  unfold heat0Op
  try dsimp only
  repeat' (first
    | with_reducible assumption | intro _ | with_reducible apply setF_keeps | with_reducible apply used_keeps
    | with_reducible apply extend_keeps | with_reducible apply railsOff_keeps | with_reducible apply fatal_keeps
    | with_reducible apply inHeat_keeps | with_reducible apply passHeat_keeps | with_reducible apply failHeat_keeps
    | with_reducible apply keeps_ite | with_reducible apply keeps_ite_fst | with_reducible apply forAll_keeps
    | with_reducible apply forAll_keeps_fst | refine keeps_of_eq (by with_reducible assumption) ?_ | dsimp only
    | split | with_reducible refine fields_keeps ?_ (by with_reducible rfl) (by with_reducible rfl))

theorem hostUp_keeps {k0 s : State} (r : Heat1In) (hk : Keeps k0 s) : Keeps k0 (State.hostUp r s) := by
  unfold State.hostUp
  try dsimp only
  repeat' (first
    | with_reducible assumption | intro _ | with_reducible apply setF_keeps | with_reducible apply keeps_ite
    | with_reducible apply keeps_ite_fst | with_reducible apply forAll_keeps | with_reducible apply forAll_keeps_fst
    | refine keeps_of_eq (by with_reducible assumption) ?_ | dsimp only | split
    | with_reducible refine fields_keeps ?_ (by with_reducible rfl) (by with_reducible rfl))

theorem heat1Op_keeps {k0 s : State} (r : Heat1In) (hk : Keeps k0 s) : Keeps k0 (heat1Op r s) := by
  unfold heat1Op
  try dsimp only
  repeat' (first
    | with_reducible assumption | intro _ | with_reducible apply setF_keeps | with_reducible apply burnList_keeps
    | with_reducible apply runErcia_keeps | with_reducible apply inHeat_keeps | with_reducible apply passHeat_keeps
    | with_reducible apply failHeat_keeps | with_reducible apply hostUp_keeps | with_reducible apply keeps_ite
    | with_reducible apply keeps_ite_fst | with_reducible apply forAll_keeps | with_reducible apply forAll_keeps_fst
    | refine keeps_of_eq (by with_reducible assumption) ?_ | dsimp only | split
    | with_reducible refine fields_keeps ?_ (by with_reducible rfl) (by with_reducible rfl))

theorem occStart_keeps {k0 s : State} (i : Nat) (hk : Keeps k0 s) : Keeps k0 (occStart i s) := by
  unfold occStart
  try dsimp only
  repeat' (first
    | with_reducible assumption | intro _ | with_reducible apply setF_keeps)

theorem heat2Op_keeps {k0 s : State} (r : Heat2In) (hk : Keeps k0 s) : Keeps k0 (heat2Op r s) := by
  unfold heat2Op
  try dsimp only
  repeat' (first
    | with_reducible assumption | intro _ | with_reducible apply setF_keeps | with_reducible apply inHeat_keeps
    | with_reducible apply passHeat_keeps | with_reducible apply blame_keeps | with_reducible apply occStart_keeps
    | with_reducible apply keeps_ite | with_reducible apply keeps_ite_fst | with_reducible apply forAll_keeps)

theorem trainStack_keeps {k0 s : State} (full : Bool) (r : Heat3In) (c : Nat) (hk : Keeps k0 s) : Keeps k0
    (trainStack full r c s) := by
  unfold trainStack
  try dsimp only
  repeat' (first
    | with_reducible assumption | intro _ | with_reducible apply setF_keeps)

theorem heat3Op_keeps {k0 s : State} (r : Heat3In) (hk : Keeps k0 s) : Keeps k0 (heat3Op r s) := by
  unfold heat3Op
  try dsimp only
  repeat' (first
    | with_reducible assumption | intro _ | with_reducible apply used_keeps | with_reducible apply extend_keeps
    | with_reducible apply inHeat_keeps | with_reducible apply passHeat_keeps | with_reducible apply blame_keeps
    | with_reducible apply trainStack_keeps | with_reducible apply keeps_ite | with_reducible apply keeps_ite_fst
    | with_reducible apply forAll_keeps | with_reducible apply forAll_keeps_fst
    | refine keeps_of_eq (by with_reducible assumption) ?_ | dsimp only | split
    | with_reducible refine fields_keeps ?_ (by with_reducible rfl) (by with_reducible rfl))

theorem remapRow_keeps {k0 s : State} (r : RowRef) (hk : Keeps k0 s) : Keeps k0 (remapRow r s) := by
  unfold remapRow
  try dsimp only
  repeat' (first
    | with_reducible assumption | intro _ | with_reducible apply setRemap_keeps | with_reducible apply keeps_ite
    | with_reducible apply keeps_ite_fst | with_reducible apply forAll_keeps | with_reducible apply forAll_keeps_fst
    | refine keeps_of_eq (by with_reducible assumption) ?_ | dsimp only | split)

theorem fillHbm_keeps {k0 s : State} (hk : Keeps k0 s) : Keeps k0 (State.fillHbm s) := by
  unfold State.fillHbm
  dsimp only
  refine hbm_keeps hk rfl rfl rfl rfl rfl rfl rfl rfl fun w => ?_
  rw [Mem.wf_iff] at w ⊢
  dsimp only
  constructor
  · apply tblWf_tblFilter; exact w.1
  · apply tblWf_tblFilter; exact w.2

theorem moveDump_keeps {k0 s : State} (hk : Keeps k0 s) : Keeps k0 (State.moveDump s) := by
  unfold State.moveDump
  try dsimp only
  repeat' (first
    | with_reducible assumption | intro _ | with_reducible apply setF_keeps | with_reducible apply putHbm_keeps
    | with_reducible apply keeps_ite)

theorem fullDone_keeps {k0 s : State} (hk : Keeps k0 s) : Keeps k0 (State.fullDone s) := by
  unfold State.fullDone
  try dsimp only
  repeat' (first
    | with_reducible assumption | intro _ | with_reducible apply setF_keeps | with_reducible apply keeps_ite
    | with_reducible apply keeps_ite_fst | with_reducible apply forAll_keeps | with_reducible apply forAll_keeps_fst
    | refine keeps_of_eq (by with_reducible assumption) ?_ | dsimp only | split
    | with_reducible refine fields_keeps ?_ (by with_reducible rfl) (by with_reducible rfl))

theorem heat4Op_keeps {k0 s : State} (r : Heat4In) (hk : Keeps k0 s) : Keeps k0 (heat4Op r s) := by
  unfold heat4Op
  try dsimp only
  repeat' (first
    | with_reducible assumption | intro _ | with_reducible apply setF_keeps | with_reducible apply used_keeps
    | with_reducible apply extend_keeps | with_reducible apply writeRecord_keeps | with_reducible apply inHeat_keeps
    | with_reducible apply passHeat_keeps | with_reducible apply blame_keeps | with_reducible apply remapRow_keeps
    | with_reducible apply fillHbm_keeps | with_reducible apply moveDump_keeps | with_reducible apply fullDone_keeps
    | with_reducible apply keeps_ite | with_reducible apply keeps_ite_fst | with_reducible apply forAll_keeps
    | with_reducible apply forAll_keeps_fst | refine keeps_of_eq (by with_reducible assumption) ?_ | dsimp only
    | split | with_reducible refine fields_keeps ?_ (by with_reducible rfl) (by with_reducible rfl))

theorem mapCodes_keeps {k0 s : State} (d : Nat) (w : Nat) (hk : Keeps k0 s) : Keeps k0 (State.mapCodes d w s) := by
  unfold State.mapCodes
  try dsimp only
  repeat' (first
    | with_reducible assumption | intro _ | with_reducible apply setF_keeps | with_reducible apply keeps_ite
    | with_reducible apply keeps_ite_fst | with_reducible apply forAll_keeps)

theorem programStop_keeps {k0 s : State} (r : PhysRef) (lid : Nat) (fenced : Bool) (hk : Keeps k0 s) : Keeps k0
    (State.programStop r lid fenced s) := by
  unfold State.programStop
  try dsimp only
  repeat' (first
    | with_reducible assumption | intro _ | with_reducible apply setF_keeps)

theorem fillRemaps_keeps {k0 s : State} (r : PhysRef) (lid : Nat) (hk : Keeps k0 s) : Keeps k0
    (State.fillRemaps r lid s) := by
  unfold State.fillRemaps
  try dsimp only
  repeat' (first
    | with_reducible assumption | intro _ | with_reducible apply setF_keeps | with_reducible apply used_keeps
    | with_reducible apply modSram_keeps | with_reducible apply keeps_ite | with_reducible apply keeps_ite_fst
    | with_reducible apply forAll_keeps)

theorem programRow_keeps {k0 s : State} (d : Nat) (w : Nat) (hk : Keeps k0 s) : Keeps k0 (State.programRow d w s) := by
  unfold State.programRow
  try dsimp only
  repeat' (first
    | with_reducible assumption | intro _ | with_reducible apply on_keeps | with_reducible apply programStop_keeps
    | with_reducible apply fillRemaps_keeps | with_reducible apply keeps_ite | with_reducible apply keeps_ite_fst
    | with_reducible apply forAll_keeps)

theorem programDie_keeps {k0 s : State} (d : Nat) (hk : Keeps k0 s) : Keeps k0 (State.programDie d s) := by
  unfold State.programDie
  try dsimp only
  repeat' (first
    | with_reducible assumption | intro _ | with_reducible apply setF_keeps)

theorem recordBad_keeps {k0 : State} (x : PhysRef) (stop : Bool) (late : Bool) {a : State × Recon} (hk : Keeps k0 a.1)
    : Keeps k0 (recordBad x stop late a).1 := by
  unfold recordBad
  try dsimp only
  repeat' (first
    | with_reducible assumption | intro _ | with_reducible apply setF_keeps | with_reducible apply burnField_keeps
    | with_reducible apply keeps_ite)

theorem reconcileRow_keeps {k0 : State} (r : Heat5In) (d : Nat) (w : Nat) {a : State × Recon} (hk : Keeps k0 a.1) :
    Keeps k0 (reconcileRow r d w a).1 := by
  unfold reconcileRow
  try dsimp only
  repeat' (first
    | with_reducible assumption | intro _ | with_reducible apply setF_keeps | with_reducible apply mapCodes_keeps
    | with_reducible apply recordBad_keeps | with_reducible apply keeps_ite | with_reducible apply keeps_ite_fst
    | with_reducible apply forAll_keeps | with_reducible apply forAll_keeps_fst)

theorem startEntropy_keeps {k0 s : State} (hk : Keeps k0 s) : Keeps k0 (State.startEntropy s) := by
  unfold State.startEntropy
  try dsimp only
  repeat' (first
    | with_reducible assumption | intro _ | with_reducible apply setF_keeps | with_reducible apply askRandom_keeps
    | with_reducible apply keeps_ite)

theorem fillDies_keeps {k0 s : State} (rows : List SramRow) (hk : Keeps k0 s) : Keeps k0 (State.fillDies rows s) := by
  unfold State.fillDies
  try dsimp only
  repeat' (first
    | with_reducible assumption | intro _ | with_reducible apply keeps_ite | with_reducible apply keeps_ite_fst
    | with_reducible apply forAll_keeps | with_reducible apply forAll_keeps_fst
    | refine keeps_of_eq (by with_reducible assumption) ?_ | dsimp only | split
    | with_reducible refine fields_keeps ?_ (by with_reducible rfl) (by with_reducible rfl)
    | with_reducible apply state_keeps | exact Nat.le_refl _ | exact Nat.le_add_right _ _
    | with_reducible apply Mem.write_wf | with_reducible apply Mem.store_wf | with_reducible apply Mem.poison_wf
    | with_reducible apply Mem.setSyn_wf | with_reducible apply all_tblFilter | assumption | rfl)

theorem heat5End_keeps {k0 : State} (r : Heat5In) (was : State) {x : State × Recon} (hk : Keeps k0 x.1) : Keeps k0
    (heat5End r was x) := by
  unfold heat5End
  try dsimp only
  repeat' (first
    | with_reducible assumption | intro _ | with_reducible apply passHeat_keeps | with_reducible apply blame_keeps
    | with_reducible apply programRow_keeps | with_reducible apply programDie_keeps
    | with_reducible apply startEntropy_keeps | with_reducible apply fillDies_keeps | with_reducible apply keeps_ite
    | with_reducible apply keeps_ite_fst | with_reducible apply forAll_keeps)

theorem heat5Op_keeps {k0 s : State} (r : Heat5In) (hk : Keeps k0 s) : Keeps k0 (heat5Op r s) := by
  unfold heat5Op
  try dsimp only
  repeat' (first
    | with_reducible assumption | intro _ | with_reducible apply inHeat_keeps
    | with_reducible apply reconcileRow_keeps | with_reducible apply heat5End_keeps | with_reducible apply keeps_ite
    | with_reducible apply keeps_ite_fst | with_reducible apply forAll_keeps | with_reducible apply forAll_keeps_fst)

theorem heat6Op_keeps {k0 s : State} (r : Heat6In) (hk : Keeps k0 s) : Keeps k0 (heat6Op r s) := by
  unfold heat6Op
  try dsimp only
  repeat' (first
    | with_reducible assumption | exact fun (_ : State) h => h | intro _ | with_reducible apply used_keeps
    | with_reducible apply fatal_keeps | with_reducible apply inHeat_keeps | with_reducible apply passHeat_keeps
    | with_reducible apply failHeat_keeps | with_reducible apply keeps_ite | with_reducible apply keeps_ite_fst
    | with_reducible apply forAll_keeps | with_reducible apply forAll_keeps_fst
    | refine keeps_of_eq (by with_reducible assumption) ?_ | dsimp only | split)

theorem loadTopo_keeps {k0 s : State} (hk : Keeps k0 s) : Keeps k0 (State.loadTopo s) := by
  unfold State.loadTopo
  try dsimp only
  repeat' (first
    | with_reducible assumption | intro _ | with_reducible apply setF_keeps)

theorem heat7Op_keeps {k0 s : State} (r : Heat7In) (hk : Keeps k0 s) : Keeps k0 (heat7Op r s) := by
  unfold heat7Op
  try dsimp only
  repeat' (first
    | with_reducible assumption | intro _ | with_reducible apply trainLinks_keeps | with_reducible apply inHeat_keeps
    | with_reducible apply passHeat_keeps | with_reducible apply blame_keeps | with_reducible apply loadTopo_keeps
    | with_reducible apply keeps_ite | with_reducible apply keeps_ite_fst | with_reducible apply forAll_keeps
    | with_reducible apply forAll_keeps_fst | refine keeps_of_eq (by with_reducible assumption) ?_ | dsimp only
    | split | with_reducible refine fields_keeps ?_ (by with_reducible rfl) (by with_reducible rfl))

theorem remapColumns_keeps {k0 s : State} (d : Nat) (w : Nat) (hk : Keeps k0 s) : Keeps k0
    (State.remapColumns d w s) := by
  unfold State.remapColumns
  try dsimp only
  repeat' (first
    | with_reducible assumption | intro _ | with_reducible apply modSram_keeps | with_reducible apply mapCodes_keeps
    | with_reducible apply programRow_keeps | with_reducible apply keeps_ite | with_reducible apply keeps_ite_fst
    | with_reducible apply forAll_keeps)

theorem failBar_keeps {k0 : State} (firstRound : Bool) (before : List (Nat × Nat)) (x : PhysRef × BitVec 7) {a : State
    × Bars} (hk : Keeps k0 a.1) : Keeps k0 (failBar firstRound before x a).1 := by
  unfold failBar
  try dsimp only
  repeat' (first
    | with_reducible assumption | intro _ | with_reducible apply setF_keeps | with_reducible apply recordBad_keeps
    | with_reducible apply remapColumns_keeps | with_reducible apply keeps_ite | with_reducible apply keeps_ite_fst)

theorem runBars_keeps {k0 : State} (firstRound : Bool) (l : List (List (PhysRef × BitVec 7))) {x : State × Bars}
    (hk : Keeps k0 x.1) : Keeps k0 (runBars firstRound l x).1 := by
  induction l generalizing x firstRound with
  | nil => exact hk
  | cons r l ih => exact ih _ (forAll_keeps_fst (fun _ _ h => failBar_keeps _ _ _ h) hk)

theorem heat8Op_keeps {k0 s : State} (r : Heat8In) (hk : Keeps k0 s) : Keeps k0 (heat8Op r s) := by
  unfold heat8Op
  try dsimp only
  repeat' (first
    | with_reducible assumption | intro _ | with_reducible apply inHeat_keeps | with_reducible apply passHeat_keeps
    | with_reducible apply blame_keeps | with_reducible apply runBars_keeps)

theorem heat9Op_keeps {k0 s : State} (hk : Keeps k0 s) : Keeps k0 (heat9Op s) := by
  unfold heat9Op
  try dsimp only
  repeat' (first
    | with_reducible assumption | intro _ | with_reducible apply setF_keeps | with_reducible apply event_keeps
    | with_reducible apply idleNow_keeps | with_reducible apply endHeat_keeps | with_reducible apply inHeat_keeps)

end Sys2Proof.Machine
end

