-- ==== Sys2Proof/Laws/KeepsTick.lean ====
section
/-!
SUPPORT. What the operations of Machine/Tick.lean keep (`Keeps`): one lemma each.
-/
namespace Sys2Proof.Machine

theorem waitTick_keeps {k0 s : State} (lid : Nat) (hk : Keeps k0 s) : Keeps k0 (State.waitTick lid s) := by
  unfold State.waitTick
  try dsimp only
  repeat' (first
    | with_reducible assumption | intro _ | with_reducible apply incF_keeps | with_reducible apply keeps_ite
    | with_reducible apply keeps_ite_fst | with_reducible apply forAll_keeps)

theorem partTick_keeps {k0 s : State} (p : Nat) (hk : Keeps k0 s) : Keeps k0 (State.partTick p s) := by
  unfold State.partTick
  try dsimp only
  repeat' (first
    | with_reducible assumption | intro _ | with_reducible apply modPart_keeps | with_reducible apply waitTick_keeps
    | with_reducible apply keeps_ite | with_reducible apply keeps_ite_fst | with_reducible apply forAll_keeps)

theorem sleepTick_keeps {k0 s : State} (hk : Keeps k0 s) : Keeps k0 (State.sleepTick s) := by
  unfold State.sleepTick
  try dsimp only
  repeat' (first
    | with_reducible assumption | intro _ | with_reducible apply modCtl_keeps | with_reducible apply keeps_ite
    | with_reducible apply keeps_ite_fst | with_reducible apply forAll_keeps)

theorem quietTick_keeps {k0 s : State} (p : Nat) (hk : Keeps k0 s) : Keeps k0 (State.quietTick p s) := by
  unfold State.quietTick
  try dsimp only
  repeat' (first
    | with_reducible assumption | intro _ | with_reducible apply modPart_keeps | with_reducible apply keeps_ite)

theorem gateTick_keeps {k0 s : State} (hk : Keeps k0 s) : Keeps k0 (State.gateTick s) := by
  unfold State.gateTick
  try dsimp only
  repeat' (first
    | with_reducible assumption | intro _ | with_reducible apply keeps_ite | with_reducible apply keeps_ite_fst
    | with_reducible apply forAll_keeps | with_reducible apply forAll_keeps_fst
    | refine keeps_of_eq (by with_reducible assumption) ?_ | dsimp only | split
    | with_reducible refine fields_keeps ?_ (by with_reducible rfl) (by with_reducible rfl))

theorem passTick_keeps {k0 s : State} (hk : Keeps k0 s) : Keeps k0 (State.passTick s) := by
  unfold State.passTick
  try dsimp only
  repeat' (first
    | with_reducible assumption | intro _ | with_reducible apply incF_keeps | with_reducible apply programTick_keeps
    | with_reducible apply partTick_keeps | with_reducible apply sleepTick_keeps
    | with_reducible apply quietTick_keeps | with_reducible apply gateTick_keeps | with_reducible apply keeps_ite
    | with_reducible apply keeps_ite_fst | with_reducible apply forAll_keeps | with_reducible apply forAll_keeps_fst
    | refine keeps_of_eq (by with_reducible assumption) ?_ | dsimp only | split
    | with_reducible refine fields_keeps ?_ (by with_reducible rfl) (by with_reducible rfl)
    | with_reducible apply state_keeps | exact Nat.le_refl _ | exact Nat.le_add_right _ _
    | with_reducible apply Mem.write_wf | with_reducible apply Mem.store_wf | with_reducible apply Mem.poison_wf
    | with_reducible apply Mem.setSyn_wf | with_reducible apply all_tblFilter | assumption)

end Sys2Proof.Machine
end

