-- ==== Sys2Proof/Laws/State.lean ====
section
/-!
SUPPORT. What each update of State leaves: one lemma per field and update, so that no proof unfolds a record update;
and what a read after an update gives.
-/
namespace Sys2Proof.Machine

variable {s : State}

/-! ### setW -/

@[simp] theorem setW_pending (k : Nat) (v : W32) : (s.setW k v).pending = s.pending := rfl
@[simp] theorem setW_free (k : Nat) (v : W32) : (s.setW k v).free = s.free := rfl
@[simp] theorem setW_tick (k : Nat) (v : W32) : (s.setW k v).tick = s.tick := rfl
@[simp] theorem setW_cores (k : Nat) (v : W32) : (s.setW k v).cores = s.cores := rfl
@[simp] theorem setW_stops (k : Nat) (v : W32) : (s.setW k v).stops = s.stops := rfl
@[simp] theorem setW_dies (k : Nat) (v : W32) : (s.setW k v).dies = s.dies := rfl
@[simp] theorem setW_parts (k : Nat) (v : W32) : (s.setW k v).parts = s.parts := rfl
@[simp] theorem setW_pat (k : Nat) (v : W32) : (s.setW k v).pat = s.pat := rfl
@[simp] theorem setW_crcUnits (k : Nat) (v : W32) : (s.setW k v).crcUnits = s.crcUnits := rfl
@[simp] theorem setW_hostIn (k : Nat) (v : W32) : (s.setW k v).hostIn = s.hostIn := rfl
@[simp] theorem setW_fuses (k : Nat) (v : W32) : (s.setW k v).fuses = s.fuses := rfl
@[simp] theorem setW_flash (k : Nat) (v : W32) : (s.setW k v).flash = s.flash := rfl
@[simp] theorem setW_hbm (k : Nat) (v : W32) : (s.setW k v).hbm = s.hbm := rfl
@[simp] theorem setW_ctls (k : Nat) (v : W32) : (s.setW k v).ctls = s.ctls := rfl
@[simp] theorem setW_srams (k : Nat) (v : W32) : (s.setW k v).srams = s.srams := rfl
@[simp] theorem setW_gatedTicks (k : Nat) (v : W32) : (s.setW k v).gatedTicks = s.gatedTicks := rfl
@[simp] theorem setW_acks (k : Nat) (v : W32) : (s.setW k v).acks = s.acks := rfl
@[simp] theorem setW_links (k : Nat) (v : W32) : (s.setW k v).links = s.links := rfl
@[simp] theorem setW_ports (k : Nat) (v : W32) : (s.setW k v).ports = s.ports := rfl
@[simp] theorem setW_net (k : Nat) (v : W32) : (s.setW k v).net = s.net := rfl
@[simp] theorem setW_ent (k : Nat) (v : W32) : (s.setW k v).ent = s.ent := rfl
@[simp] theorem setW_hostcfg (k : Nat) (v : W32) : (s.setW k v).hostcfg = s.hostcfg := rfl
@[simp] theorem setW_out (k : Nat) (v : W32) : (s.setW k v).out = s.out := rfl
@[simp] theorem setW_mon (k : Nat) (v : W32) : (s.setW k v).mon = s.mon := rfl
@[simp] theorem setW_pwr (k : Nat) (v : W32) : (s.setW k v).pwr = s.pwr := rfl
@[simp] theorem core_setW (i : Nat) (k : Nat) (v : W32) : (s.setW k v).core i = s.core i := rfl
@[simp] theorem stop_setW (i : Nat) (k : Nat) (v : W32) : (s.setW k v).stop i = s.stop i := rfl
@[simp] theorem die_setW (i : Nat) (k : Nat) (v : W32) : (s.setW k v).die i = s.die i := rfl
@[simp] theorem part_setW (i : Nat) (k : Nat) (v : W32) : (s.setW k v).part i = s.part i := rfl
@[simp] theorem unit_setW (i : Nat) (k : Nat) (v : W32) : (s.setW k v).unit i = s.unit i := rfl
@[simp] theorem ctl_setW (i : Nat) (k : Nat) (v : W32) : (s.setW k v).ctl i = s.ctl i := rfl
@[simp] theorem link_setW (i : Nat) (k : Nat) (v : W32) : (s.setW k v).link i = s.link i := rfl
@[simp] theorem port_setW (i : Nat) (k : Nat) (v : W32) : (s.setW k v).port i = s.port i := rfl

/-! ### set64 -/

@[simp] theorem set64_pending (o : Nat) (v : W64) : (s.set64 o v).pending = s.pending := rfl
@[simp] theorem set64_free (o : Nat) (v : W64) : (s.set64 o v).free = s.free := rfl
@[simp] theorem set64_tick (o : Nat) (v : W64) : (s.set64 o v).tick = s.tick := rfl
@[simp] theorem set64_cores (o : Nat) (v : W64) : (s.set64 o v).cores = s.cores := rfl
@[simp] theorem set64_stops (o : Nat) (v : W64) : (s.set64 o v).stops = s.stops := rfl
@[simp] theorem set64_dies (o : Nat) (v : W64) : (s.set64 o v).dies = s.dies := rfl
@[simp] theorem set64_parts (o : Nat) (v : W64) : (s.set64 o v).parts = s.parts := rfl
@[simp] theorem set64_pat (o : Nat) (v : W64) : (s.set64 o v).pat = s.pat := rfl
@[simp] theorem set64_crcUnits (o : Nat) (v : W64) : (s.set64 o v).crcUnits = s.crcUnits := rfl
@[simp] theorem set64_hostIn (o : Nat) (v : W64) : (s.set64 o v).hostIn = s.hostIn := rfl
@[simp] theorem set64_fuses (o : Nat) (v : W64) : (s.set64 o v).fuses = s.fuses := rfl
@[simp] theorem set64_flash (o : Nat) (v : W64) : (s.set64 o v).flash = s.flash := rfl
@[simp] theorem set64_hbm (o : Nat) (v : W64) : (s.set64 o v).hbm = s.hbm := rfl
@[simp] theorem set64_ctls (o : Nat) (v : W64) : (s.set64 o v).ctls = s.ctls := rfl
@[simp] theorem set64_srams (o : Nat) (v : W64) : (s.set64 o v).srams = s.srams := rfl
@[simp] theorem set64_gatedTicks (o : Nat) (v : W64) : (s.set64 o v).gatedTicks = s.gatedTicks := rfl
@[simp] theorem set64_acks (o : Nat) (v : W64) : (s.set64 o v).acks = s.acks := rfl
@[simp] theorem set64_links (o : Nat) (v : W64) : (s.set64 o v).links = s.links := rfl
@[simp] theorem set64_ports (o : Nat) (v : W64) : (s.set64 o v).ports = s.ports := rfl
@[simp] theorem set64_net (o : Nat) (v : W64) : (s.set64 o v).net = s.net := rfl
@[simp] theorem set64_ent (o : Nat) (v : W64) : (s.set64 o v).ent = s.ent := rfl
@[simp] theorem set64_hostcfg (o : Nat) (v : W64) : (s.set64 o v).hostcfg = s.hostcfg := rfl
@[simp] theorem set64_out (o : Nat) (v : W64) : (s.set64 o v).out = s.out := rfl
@[simp] theorem set64_mon (o : Nat) (v : W64) : (s.set64 o v).mon = s.mon := rfl
@[simp] theorem set64_pwr (o : Nat) (v : W64) : (s.set64 o v).pwr = s.pwr := rfl
@[simp] theorem core_set64 (i : Nat) (o : Nat) (v : W64) : (s.set64 o v).core i = s.core i := rfl
@[simp] theorem stop_set64 (i : Nat) (o : Nat) (v : W64) : (s.set64 o v).stop i = s.stop i := rfl
@[simp] theorem die_set64 (i : Nat) (o : Nat) (v : W64) : (s.set64 o v).die i = s.die i := rfl
@[simp] theorem part_set64 (i : Nat) (o : Nat) (v : W64) : (s.set64 o v).part i = s.part i := rfl
@[simp] theorem unit_set64 (i : Nat) (o : Nat) (v : W64) : (s.set64 o v).unit i = s.unit i := rfl
@[simp] theorem ctl_set64 (i : Nat) (o : Nat) (v : W64) : (s.set64 o v).ctl i = s.ctl i := rfl
@[simp] theorem link_set64 (i : Nat) (o : Nat) (v : W64) : (s.set64 o v).link i = s.link i := rfl
@[simp] theorem port_set64 (i : Nat) (o : Nat) (v : W64) : (s.set64 o v).port i = s.port i := rfl

/-! ### setF -/

@[simp] theorem setF_pending (f : Fld) (n : Nat) : (s.setF f n).pending = s.pending := rfl
@[simp] theorem setF_free (f : Fld) (n : Nat) : (s.setF f n).free = s.free := rfl
@[simp] theorem setF_tick (f : Fld) (n : Nat) : (s.setF f n).tick = s.tick := rfl
@[simp] theorem setF_cores (f : Fld) (n : Nat) : (s.setF f n).cores = s.cores := rfl
@[simp] theorem setF_stops (f : Fld) (n : Nat) : (s.setF f n).stops = s.stops := rfl
@[simp] theorem setF_dies (f : Fld) (n : Nat) : (s.setF f n).dies = s.dies := rfl
@[simp] theorem setF_parts (f : Fld) (n : Nat) : (s.setF f n).parts = s.parts := rfl
@[simp] theorem setF_pat (f : Fld) (n : Nat) : (s.setF f n).pat = s.pat := rfl
@[simp] theorem setF_crcUnits (f : Fld) (n : Nat) : (s.setF f n).crcUnits = s.crcUnits := rfl
@[simp] theorem setF_hostIn (f : Fld) (n : Nat) : (s.setF f n).hostIn = s.hostIn := rfl
@[simp] theorem setF_fuses (f : Fld) (n : Nat) : (s.setF f n).fuses = s.fuses := rfl
@[simp] theorem setF_flash (f : Fld) (n : Nat) : (s.setF f n).flash = s.flash := rfl
@[simp] theorem setF_hbm (f : Fld) (n : Nat) : (s.setF f n).hbm = s.hbm := rfl
@[simp] theorem setF_ctls (f : Fld) (n : Nat) : (s.setF f n).ctls = s.ctls := rfl
@[simp] theorem setF_srams (f : Fld) (n : Nat) : (s.setF f n).srams = s.srams := rfl
@[simp] theorem setF_gatedTicks (f : Fld) (n : Nat) : (s.setF f n).gatedTicks = s.gatedTicks := rfl
@[simp] theorem setF_acks (f : Fld) (n : Nat) : (s.setF f n).acks = s.acks := rfl
@[simp] theorem setF_links (f : Fld) (n : Nat) : (s.setF f n).links = s.links := rfl
@[simp] theorem setF_ports (f : Fld) (n : Nat) : (s.setF f n).ports = s.ports := rfl
@[simp] theorem setF_net (f : Fld) (n : Nat) : (s.setF f n).net = s.net := rfl
@[simp] theorem setF_ent (f : Fld) (n : Nat) : (s.setF f n).ent = s.ent := rfl
@[simp] theorem setF_hostcfg (f : Fld) (n : Nat) : (s.setF f n).hostcfg = s.hostcfg := rfl
@[simp] theorem setF_out (f : Fld) (n : Nat) : (s.setF f n).out = s.out := rfl
@[simp] theorem setF_mon (f : Fld) (n : Nat) : (s.setF f n).mon = s.mon := rfl
@[simp] theorem setF_pwr (f : Fld) (n : Nat) : (s.setF f n).pwr = s.pwr := rfl
@[simp] theorem core_setF (i : Nat) (f : Fld) (n : Nat) : (s.setF f n).core i = s.core i := rfl
@[simp] theorem stop_setF (i : Nat) (f : Fld) (n : Nat) : (s.setF f n).stop i = s.stop i := rfl
@[simp] theorem die_setF (i : Nat) (f : Fld) (n : Nat) : (s.setF f n).die i = s.die i := rfl
@[simp] theorem part_setF (i : Nat) (f : Fld) (n : Nat) : (s.setF f n).part i = s.part i := rfl
@[simp] theorem unit_setF (i : Nat) (f : Fld) (n : Nat) : (s.setF f n).unit i = s.unit i := rfl
@[simp] theorem ctl_setF (i : Nat) (f : Fld) (n : Nat) : (s.setF f n).ctl i = s.ctl i := rfl
@[simp] theorem link_setF (i : Nat) (f : Fld) (n : Nat) : (s.setF f n).link i = s.link i := rfl
@[simp] theorem port_setF (i : Nat) (f : Fld) (n : Nat) : (s.setF f n).port i = s.port i := rfl

/-! ### incF -/

@[simp] theorem incF_pending (f : Fld) (n : Nat) : (s.incF f n).pending = s.pending := rfl
@[simp] theorem incF_free (f : Fld) (n : Nat) : (s.incF f n).free = s.free := rfl
@[simp] theorem incF_tick (f : Fld) (n : Nat) : (s.incF f n).tick = s.tick := rfl
@[simp] theorem incF_cores (f : Fld) (n : Nat) : (s.incF f n).cores = s.cores := rfl
@[simp] theorem incF_stops (f : Fld) (n : Nat) : (s.incF f n).stops = s.stops := rfl
@[simp] theorem incF_dies (f : Fld) (n : Nat) : (s.incF f n).dies = s.dies := rfl
@[simp] theorem incF_parts (f : Fld) (n : Nat) : (s.incF f n).parts = s.parts := rfl
@[simp] theorem incF_pat (f : Fld) (n : Nat) : (s.incF f n).pat = s.pat := rfl
@[simp] theorem incF_crcUnits (f : Fld) (n : Nat) : (s.incF f n).crcUnits = s.crcUnits := rfl
@[simp] theorem incF_hostIn (f : Fld) (n : Nat) : (s.incF f n).hostIn = s.hostIn := rfl
@[simp] theorem incF_fuses (f : Fld) (n : Nat) : (s.incF f n).fuses = s.fuses := rfl
@[simp] theorem incF_flash (f : Fld) (n : Nat) : (s.incF f n).flash = s.flash := rfl
@[simp] theorem incF_hbm (f : Fld) (n : Nat) : (s.incF f n).hbm = s.hbm := rfl
@[simp] theorem incF_ctls (f : Fld) (n : Nat) : (s.incF f n).ctls = s.ctls := rfl
@[simp] theorem incF_srams (f : Fld) (n : Nat) : (s.incF f n).srams = s.srams := rfl
@[simp] theorem incF_gatedTicks (f : Fld) (n : Nat) : (s.incF f n).gatedTicks = s.gatedTicks := rfl
@[simp] theorem incF_acks (f : Fld) (n : Nat) : (s.incF f n).acks = s.acks := rfl
@[simp] theorem incF_links (f : Fld) (n : Nat) : (s.incF f n).links = s.links := rfl
@[simp] theorem incF_ports (f : Fld) (n : Nat) : (s.incF f n).ports = s.ports := rfl
@[simp] theorem incF_net (f : Fld) (n : Nat) : (s.incF f n).net = s.net := rfl
@[simp] theorem incF_ent (f : Fld) (n : Nat) : (s.incF f n).ent = s.ent := rfl
@[simp] theorem incF_hostcfg (f : Fld) (n : Nat) : (s.incF f n).hostcfg = s.hostcfg := rfl
@[simp] theorem incF_out (f : Fld) (n : Nat) : (s.incF f n).out = s.out := rfl
@[simp] theorem incF_mon (f : Fld) (n : Nat) : (s.incF f n).mon = s.mon := rfl
@[simp] theorem incF_pwr (f : Fld) (n : Nat) : (s.incF f n).pwr = s.pwr := rfl
@[simp] theorem core_incF (i : Nat) (f : Fld) (n : Nat) : (s.incF f n).core i = s.core i := rfl
@[simp] theorem stop_incF (i : Nat) (f : Fld) (n : Nat) : (s.incF f n).stop i = s.stop i := rfl
@[simp] theorem die_incF (i : Nat) (f : Fld) (n : Nat) : (s.incF f n).die i = s.die i := rfl
@[simp] theorem part_incF (i : Nat) (f : Fld) (n : Nat) : (s.incF f n).part i = s.part i := rfl
@[simp] theorem unit_incF (i : Nat) (f : Fld) (n : Nat) : (s.incF f n).unit i = s.unit i := rfl
@[simp] theorem ctl_incF (i : Nat) (f : Fld) (n : Nat) : (s.incF f n).ctl i = s.ctl i := rfl
@[simp] theorem link_incF (i : Nat) (f : Fld) (n : Nat) : (s.incF f n).link i = s.link i := rfl
@[simp] theorem port_incF (i : Nat) (f : Fld) (n : Nat) : (s.incF f n).port i = s.port i := rfl

/-! ### resetRegs -/

@[simp] theorem resetRegs_pending (p : Nat → Bool) : (s.resetRegs p).pending = s.pending := rfl
@[simp] theorem resetRegs_free (p : Nat → Bool) : (s.resetRegs p).free = s.free := rfl
@[simp] theorem resetRegs_tick (p : Nat → Bool) : (s.resetRegs p).tick = s.tick := rfl
@[simp] theorem resetRegs_cores (p : Nat → Bool) : (s.resetRegs p).cores = s.cores := rfl
@[simp] theorem resetRegs_stops (p : Nat → Bool) : (s.resetRegs p).stops = s.stops := rfl
@[simp] theorem resetRegs_dies (p : Nat → Bool) : (s.resetRegs p).dies = s.dies := rfl
@[simp] theorem resetRegs_parts (p : Nat → Bool) : (s.resetRegs p).parts = s.parts := rfl
@[simp] theorem resetRegs_pat (p : Nat → Bool) : (s.resetRegs p).pat = s.pat := rfl
@[simp] theorem resetRegs_crcUnits (p : Nat → Bool) : (s.resetRegs p).crcUnits = s.crcUnits := rfl
@[simp] theorem resetRegs_hostIn (p : Nat → Bool) : (s.resetRegs p).hostIn = s.hostIn := rfl
@[simp] theorem resetRegs_fuses (p : Nat → Bool) : (s.resetRegs p).fuses = s.fuses := rfl
@[simp] theorem resetRegs_flash (p : Nat → Bool) : (s.resetRegs p).flash = s.flash := rfl
@[simp] theorem resetRegs_hbm (p : Nat → Bool) : (s.resetRegs p).hbm = s.hbm := rfl
@[simp] theorem resetRegs_ctls (p : Nat → Bool) : (s.resetRegs p).ctls = s.ctls := rfl
@[simp] theorem resetRegs_srams (p : Nat → Bool) : (s.resetRegs p).srams = s.srams := rfl
@[simp] theorem resetRegs_gatedTicks (p : Nat → Bool) : (s.resetRegs p).gatedTicks = s.gatedTicks := rfl
@[simp] theorem resetRegs_acks (p : Nat → Bool) : (s.resetRegs p).acks = s.acks := rfl
@[simp] theorem resetRegs_links (p : Nat → Bool) : (s.resetRegs p).links = s.links := rfl
@[simp] theorem resetRegs_ports (p : Nat → Bool) : (s.resetRegs p).ports = s.ports := rfl
@[simp] theorem resetRegs_net (p : Nat → Bool) : (s.resetRegs p).net = s.net := rfl
@[simp] theorem resetRegs_ent (p : Nat → Bool) : (s.resetRegs p).ent = s.ent := rfl
@[simp] theorem resetRegs_hostcfg (p : Nat → Bool) : (s.resetRegs p).hostcfg = s.hostcfg := rfl
@[simp] theorem resetRegs_out (p : Nat → Bool) : (s.resetRegs p).out = s.out := rfl
@[simp] theorem resetRegs_mon (p : Nat → Bool) : (s.resetRegs p).mon = s.mon := rfl
@[simp] theorem resetRegs_pwr (p : Nat → Bool) : (s.resetRegs p).pwr = s.pwr := rfl
@[simp] theorem core_resetRegs (i : Nat) (p : Nat → Bool) : (s.resetRegs p).core i = s.core i := rfl
@[simp] theorem stop_resetRegs (i : Nat) (p : Nat → Bool) : (s.resetRegs p).stop i = s.stop i := rfl
@[simp] theorem die_resetRegs (i : Nat) (p : Nat → Bool) : (s.resetRegs p).die i = s.die i := rfl
@[simp] theorem part_resetRegs (i : Nat) (p : Nat → Bool) : (s.resetRegs p).part i = s.part i := rfl
@[simp] theorem unit_resetRegs (i : Nat) (p : Nat → Bool) : (s.resetRegs p).unit i = s.unit i := rfl
@[simp] theorem ctl_resetRegs (i : Nat) (p : Nat → Bool) : (s.resetRegs p).ctl i = s.ctl i := rfl
@[simp] theorem link_resetRegs (i : Nat) (p : Nat → Bool) : (s.resetRegs p).link i = s.link i := rfl
@[simp] theorem port_resetRegs (i : Nat) (p : Nat → Bool) : (s.resetRegs p).port i = s.port i := rfl

/-! ### modCore -/

@[simp] theorem modCore_pending (l : Nat) (f : Core → Core) : (s.modCore l f).pending = s.pending := rfl
@[simp] theorem modCore_free (l : Nat) (f : Core → Core) : (s.modCore l f).free = s.free := rfl
@[simp] theorem modCore_tick (l : Nat) (f : Core → Core) : (s.modCore l f).tick = s.tick := rfl
@[simp] theorem modCore_regs (l : Nat) (f : Core → Core) : (s.modCore l f).regs = s.regs := rfl
@[simp] theorem modCore_stops (l : Nat) (f : Core → Core) : (s.modCore l f).stops = s.stops := rfl
@[simp] theorem modCore_dies (l : Nat) (f : Core → Core) : (s.modCore l f).dies = s.dies := rfl
@[simp] theorem modCore_parts (l : Nat) (f : Core → Core) : (s.modCore l f).parts = s.parts := rfl
@[simp] theorem modCore_pat (l : Nat) (f : Core → Core) : (s.modCore l f).pat = s.pat := rfl
@[simp] theorem modCore_crcUnits (l : Nat) (f : Core → Core) : (s.modCore l f).crcUnits = s.crcUnits := rfl
@[simp] theorem modCore_hostIn (l : Nat) (f : Core → Core) : (s.modCore l f).hostIn = s.hostIn := rfl
@[simp] theorem modCore_fuses (l : Nat) (f : Core → Core) : (s.modCore l f).fuses = s.fuses := rfl
@[simp] theorem modCore_flash (l : Nat) (f : Core → Core) : (s.modCore l f).flash = s.flash := rfl
@[simp] theorem modCore_hbm (l : Nat) (f : Core → Core) : (s.modCore l f).hbm = s.hbm := rfl
@[simp] theorem modCore_ctls (l : Nat) (f : Core → Core) : (s.modCore l f).ctls = s.ctls := rfl
@[simp] theorem modCore_srams (l : Nat) (f : Core → Core) : (s.modCore l f).srams = s.srams := rfl
@[simp] theorem modCore_gatedTicks (l : Nat) (f : Core → Core) : (s.modCore l f).gatedTicks = s.gatedTicks := rfl
@[simp] theorem modCore_acks (l : Nat) (f : Core → Core) : (s.modCore l f).acks = s.acks := rfl
@[simp] theorem modCore_links (l : Nat) (f : Core → Core) : (s.modCore l f).links = s.links := rfl
@[simp] theorem modCore_ports (l : Nat) (f : Core → Core) : (s.modCore l f).ports = s.ports := rfl
@[simp] theorem modCore_net (l : Nat) (f : Core → Core) : (s.modCore l f).net = s.net := rfl
@[simp] theorem modCore_ent (l : Nat) (f : Core → Core) : (s.modCore l f).ent = s.ent := rfl
@[simp] theorem modCore_hostcfg (l : Nat) (f : Core → Core) : (s.modCore l f).hostcfg = s.hostcfg := rfl
@[simp] theorem modCore_out (l : Nat) (f : Core → Core) : (s.modCore l f).out = s.out := rfl
@[simp] theorem modCore_mon (l : Nat) (f : Core → Core) : (s.modCore l f).mon = s.mon := rfl
@[simp] theorem modCore_pwr (l : Nat) (f : Core → Core) : (s.modCore l f).pwr = s.pwr := rfl
@[simp] theorem getF_modCore (g : Fld) (l : Nat) (f : Core → Core) : (s.modCore l f).getF g = s.getF g := rfl
@[simp] theorem onF_modCore (g : Fld) (l : Nat) (f : Core → Core) : (s.modCore l f).onF g = s.onF g := rfl
@[simp] theorem stop_modCore (i : Nat) (l : Nat) (f : Core → Core) : (s.modCore l f).stop i = s.stop i := rfl
@[simp] theorem die_modCore (i : Nat) (l : Nat) (f : Core → Core) : (s.modCore l f).die i = s.die i := rfl
@[simp] theorem part_modCore (i : Nat) (l : Nat) (f : Core → Core) : (s.modCore l f).part i = s.part i := rfl
@[simp] theorem unit_modCore (i : Nat) (l : Nat) (f : Core → Core) : (s.modCore l f).unit i = s.unit i := rfl
@[simp] theorem ctl_modCore (i : Nat) (l : Nat) (f : Core → Core) : (s.modCore l f).ctl i = s.ctl i := rfl
@[simp] theorem link_modCore (i : Nat) (l : Nat) (f : Core → Core) : (s.modCore l f).link i = s.link i := rfl
@[simp] theorem port_modCore (i : Nat) (l : Nat) (f : Core → Core) : (s.modCore l f).port i = s.port i := rfl

/-! ### modStop -/

@[simp] theorem modStop_pending (l : Nat) (f : Stop → Stop) : (s.modStop l f).pending = s.pending := rfl
@[simp] theorem modStop_free (l : Nat) (f : Stop → Stop) : (s.modStop l f).free = s.free := rfl
@[simp] theorem modStop_tick (l : Nat) (f : Stop → Stop) : (s.modStop l f).tick = s.tick := rfl
@[simp] theorem modStop_regs (l : Nat) (f : Stop → Stop) : (s.modStop l f).regs = s.regs := rfl
@[simp] theorem modStop_cores (l : Nat) (f : Stop → Stop) : (s.modStop l f).cores = s.cores := rfl
@[simp] theorem modStop_dies (l : Nat) (f : Stop → Stop) : (s.modStop l f).dies = s.dies := rfl
@[simp] theorem modStop_parts (l : Nat) (f : Stop → Stop) : (s.modStop l f).parts = s.parts := rfl
@[simp] theorem modStop_pat (l : Nat) (f : Stop → Stop) : (s.modStop l f).pat = s.pat := rfl
@[simp] theorem modStop_crcUnits (l : Nat) (f : Stop → Stop) : (s.modStop l f).crcUnits = s.crcUnits := rfl
@[simp] theorem modStop_hostIn (l : Nat) (f : Stop → Stop) : (s.modStop l f).hostIn = s.hostIn := rfl
@[simp] theorem modStop_fuses (l : Nat) (f : Stop → Stop) : (s.modStop l f).fuses = s.fuses := rfl
@[simp] theorem modStop_flash (l : Nat) (f : Stop → Stop) : (s.modStop l f).flash = s.flash := rfl
@[simp] theorem modStop_hbm (l : Nat) (f : Stop → Stop) : (s.modStop l f).hbm = s.hbm := rfl
@[simp] theorem modStop_ctls (l : Nat) (f : Stop → Stop) : (s.modStop l f).ctls = s.ctls := rfl
@[simp] theorem modStop_srams (l : Nat) (f : Stop → Stop) : (s.modStop l f).srams = s.srams := rfl
@[simp] theorem modStop_gatedTicks (l : Nat) (f : Stop → Stop) : (s.modStop l f).gatedTicks = s.gatedTicks := rfl
@[simp] theorem modStop_acks (l : Nat) (f : Stop → Stop) : (s.modStop l f).acks = s.acks := rfl
@[simp] theorem modStop_links (l : Nat) (f : Stop → Stop) : (s.modStop l f).links = s.links := rfl
@[simp] theorem modStop_ports (l : Nat) (f : Stop → Stop) : (s.modStop l f).ports = s.ports := rfl
@[simp] theorem modStop_net (l : Nat) (f : Stop → Stop) : (s.modStop l f).net = s.net := rfl
@[simp] theorem modStop_ent (l : Nat) (f : Stop → Stop) : (s.modStop l f).ent = s.ent := rfl
@[simp] theorem modStop_hostcfg (l : Nat) (f : Stop → Stop) : (s.modStop l f).hostcfg = s.hostcfg := rfl
@[simp] theorem modStop_out (l : Nat) (f : Stop → Stop) : (s.modStop l f).out = s.out := rfl
@[simp] theorem modStop_mon (l : Nat) (f : Stop → Stop) : (s.modStop l f).mon = s.mon := rfl
@[simp] theorem modStop_pwr (l : Nat) (f : Stop → Stop) : (s.modStop l f).pwr = s.pwr := rfl
@[simp] theorem getF_modStop (g : Fld) (l : Nat) (f : Stop → Stop) : (s.modStop l f).getF g = s.getF g := rfl
@[simp] theorem onF_modStop (g : Fld) (l : Nat) (f : Stop → Stop) : (s.modStop l f).onF g = s.onF g := rfl
@[simp] theorem core_modStop (i : Nat) (l : Nat) (f : Stop → Stop) : (s.modStop l f).core i = s.core i := rfl
@[simp] theorem die_modStop (i : Nat) (l : Nat) (f : Stop → Stop) : (s.modStop l f).die i = s.die i := rfl
@[simp] theorem part_modStop (i : Nat) (l : Nat) (f : Stop → Stop) : (s.modStop l f).part i = s.part i := rfl
@[simp] theorem unit_modStop (i : Nat) (l : Nat) (f : Stop → Stop) : (s.modStop l f).unit i = s.unit i := rfl
@[simp] theorem ctl_modStop (i : Nat) (l : Nat) (f : Stop → Stop) : (s.modStop l f).ctl i = s.ctl i := rfl
@[simp] theorem link_modStop (i : Nat) (l : Nat) (f : Stop → Stop) : (s.modStop l f).link i = s.link i := rfl
@[simp] theorem port_modStop (i : Nat) (l : Nat) (f : Stop → Stop) : (s.modStop l f).port i = s.port i := rfl

/-! ### modDie -/

@[simp] theorem modDie_pending (d : Nat) (f : Die → Die) : (s.modDie d f).pending = s.pending := rfl
@[simp] theorem modDie_free (d : Nat) (f : Die → Die) : (s.modDie d f).free = s.free := rfl
@[simp] theorem modDie_tick (d : Nat) (f : Die → Die) : (s.modDie d f).tick = s.tick := rfl
@[simp] theorem modDie_regs (d : Nat) (f : Die → Die) : (s.modDie d f).regs = s.regs := rfl
@[simp] theorem modDie_cores (d : Nat) (f : Die → Die) : (s.modDie d f).cores = s.cores := rfl
@[simp] theorem modDie_stops (d : Nat) (f : Die → Die) : (s.modDie d f).stops = s.stops := rfl
@[simp] theorem modDie_parts (d : Nat) (f : Die → Die) : (s.modDie d f).parts = s.parts := rfl
@[simp] theorem modDie_pat (d : Nat) (f : Die → Die) : (s.modDie d f).pat = s.pat := rfl
@[simp] theorem modDie_crcUnits (d : Nat) (f : Die → Die) : (s.modDie d f).crcUnits = s.crcUnits := rfl
@[simp] theorem modDie_hostIn (d : Nat) (f : Die → Die) : (s.modDie d f).hostIn = s.hostIn := rfl
@[simp] theorem modDie_fuses (d : Nat) (f : Die → Die) : (s.modDie d f).fuses = s.fuses := rfl
@[simp] theorem modDie_flash (d : Nat) (f : Die → Die) : (s.modDie d f).flash = s.flash := rfl
@[simp] theorem modDie_hbm (d : Nat) (f : Die → Die) : (s.modDie d f).hbm = s.hbm := rfl
@[simp] theorem modDie_ctls (d : Nat) (f : Die → Die) : (s.modDie d f).ctls = s.ctls := rfl
@[simp] theorem modDie_srams (d : Nat) (f : Die → Die) : (s.modDie d f).srams = s.srams := rfl
@[simp] theorem modDie_gatedTicks (d : Nat) (f : Die → Die) : (s.modDie d f).gatedTicks = s.gatedTicks := rfl
@[simp] theorem modDie_acks (d : Nat) (f : Die → Die) : (s.modDie d f).acks = s.acks := rfl
@[simp] theorem modDie_links (d : Nat) (f : Die → Die) : (s.modDie d f).links = s.links := rfl
@[simp] theorem modDie_ports (d : Nat) (f : Die → Die) : (s.modDie d f).ports = s.ports := rfl
@[simp] theorem modDie_net (d : Nat) (f : Die → Die) : (s.modDie d f).net = s.net := rfl
@[simp] theorem modDie_ent (d : Nat) (f : Die → Die) : (s.modDie d f).ent = s.ent := rfl
@[simp] theorem modDie_hostcfg (d : Nat) (f : Die → Die) : (s.modDie d f).hostcfg = s.hostcfg := rfl
@[simp] theorem modDie_out (d : Nat) (f : Die → Die) : (s.modDie d f).out = s.out := rfl
@[simp] theorem modDie_mon (d : Nat) (f : Die → Die) : (s.modDie d f).mon = s.mon := rfl
@[simp] theorem modDie_pwr (d : Nat) (f : Die → Die) : (s.modDie d f).pwr = s.pwr := rfl
@[simp] theorem getF_modDie (g : Fld) (d : Nat) (f : Die → Die) : (s.modDie d f).getF g = s.getF g := rfl
@[simp] theorem onF_modDie (g : Fld) (d : Nat) (f : Die → Die) : (s.modDie d f).onF g = s.onF g := rfl
@[simp] theorem core_modDie (i : Nat) (d : Nat) (f : Die → Die) : (s.modDie d f).core i = s.core i := rfl
@[simp] theorem stop_modDie (i : Nat) (d : Nat) (f : Die → Die) : (s.modDie d f).stop i = s.stop i := rfl
@[simp] theorem part_modDie (i : Nat) (d : Nat) (f : Die → Die) : (s.modDie d f).part i = s.part i := rfl
@[simp] theorem unit_modDie (i : Nat) (d : Nat) (f : Die → Die) : (s.modDie d f).unit i = s.unit i := rfl
@[simp] theorem ctl_modDie (i : Nat) (d : Nat) (f : Die → Die) : (s.modDie d f).ctl i = s.ctl i := rfl
@[simp] theorem link_modDie (i : Nat) (d : Nat) (f : Die → Die) : (s.modDie d f).link i = s.link i := rfl
@[simp] theorem port_modDie (i : Nat) (d : Nat) (f : Die → Die) : (s.modDie d f).port i = s.port i := rfl

/-! ### modPart -/

@[simp] theorem modPart_pending (p : Nat) (f : Part → Part) : (s.modPart p f).pending = s.pending := rfl
@[simp] theorem modPart_free (p : Nat) (f : Part → Part) : (s.modPart p f).free = s.free := rfl
@[simp] theorem modPart_tick (p : Nat) (f : Part → Part) : (s.modPart p f).tick = s.tick := rfl
@[simp] theorem modPart_regs (p : Nat) (f : Part → Part) : (s.modPart p f).regs = s.regs := rfl
@[simp] theorem modPart_cores (p : Nat) (f : Part → Part) : (s.modPart p f).cores = s.cores := rfl
@[simp] theorem modPart_stops (p : Nat) (f : Part → Part) : (s.modPart p f).stops = s.stops := rfl
@[simp] theorem modPart_dies (p : Nat) (f : Part → Part) : (s.modPart p f).dies = s.dies := rfl
@[simp] theorem modPart_pat (p : Nat) (f : Part → Part) : (s.modPart p f).pat = s.pat := rfl
@[simp] theorem modPart_crcUnits (p : Nat) (f : Part → Part) : (s.modPart p f).crcUnits = s.crcUnits := rfl
@[simp] theorem modPart_hostIn (p : Nat) (f : Part → Part) : (s.modPart p f).hostIn = s.hostIn := rfl
@[simp] theorem modPart_fuses (p : Nat) (f : Part → Part) : (s.modPart p f).fuses = s.fuses := rfl
@[simp] theorem modPart_flash (p : Nat) (f : Part → Part) : (s.modPart p f).flash = s.flash := rfl
@[simp] theorem modPart_hbm (p : Nat) (f : Part → Part) : (s.modPart p f).hbm = s.hbm := rfl
@[simp] theorem modPart_ctls (p : Nat) (f : Part → Part) : (s.modPart p f).ctls = s.ctls := rfl
@[simp] theorem modPart_srams (p : Nat) (f : Part → Part) : (s.modPart p f).srams = s.srams := rfl
@[simp] theorem modPart_gatedTicks (p : Nat) (f : Part → Part) : (s.modPart p f).gatedTicks = s.gatedTicks := rfl
@[simp] theorem modPart_acks (p : Nat) (f : Part → Part) : (s.modPart p f).acks = s.acks := rfl
@[simp] theorem modPart_links (p : Nat) (f : Part → Part) : (s.modPart p f).links = s.links := rfl
@[simp] theorem modPart_ports (p : Nat) (f : Part → Part) : (s.modPart p f).ports = s.ports := rfl
@[simp] theorem modPart_net (p : Nat) (f : Part → Part) : (s.modPart p f).net = s.net := rfl
@[simp] theorem modPart_ent (p : Nat) (f : Part → Part) : (s.modPart p f).ent = s.ent := rfl
@[simp] theorem modPart_hostcfg (p : Nat) (f : Part → Part) : (s.modPart p f).hostcfg = s.hostcfg := rfl
@[simp] theorem modPart_out (p : Nat) (f : Part → Part) : (s.modPart p f).out = s.out := rfl
@[simp] theorem modPart_mon (p : Nat) (f : Part → Part) : (s.modPart p f).mon = s.mon := rfl
@[simp] theorem modPart_pwr (p : Nat) (f : Part → Part) : (s.modPart p f).pwr = s.pwr := rfl
@[simp] theorem getF_modPart (g : Fld) (p : Nat) (f : Part → Part) : (s.modPart p f).getF g = s.getF g := rfl
@[simp] theorem onF_modPart (g : Fld) (p : Nat) (f : Part → Part) : (s.modPart p f).onF g = s.onF g := rfl
@[simp] theorem core_modPart (i : Nat) (p : Nat) (f : Part → Part) : (s.modPart p f).core i = s.core i := rfl
@[simp] theorem stop_modPart (i : Nat) (p : Nat) (f : Part → Part) : (s.modPart p f).stop i = s.stop i := rfl
@[simp] theorem die_modPart (i : Nat) (p : Nat) (f : Part → Part) : (s.modPart p f).die i = s.die i := rfl
@[simp] theorem unit_modPart (i : Nat) (p : Nat) (f : Part → Part) : (s.modPart p f).unit i = s.unit i := rfl
@[simp] theorem ctl_modPart (i : Nat) (p : Nat) (f : Part → Part) : (s.modPart p f).ctl i = s.ctl i := rfl
@[simp] theorem link_modPart (i : Nat) (p : Nat) (f : Part → Part) : (s.modPart p f).link i = s.link i := rfl
@[simp] theorem port_modPart (i : Nat) (p : Nat) (f : Part → Part) : (s.modPart p f).port i = s.port i := rfl

/-! ### modUnit -/

@[simp] theorem modUnit_pending (u : Nat) (f : CrcUnit → CrcUnit) : (s.modUnit u f).pending = s.pending := rfl
@[simp] theorem modUnit_free (u : Nat) (f : CrcUnit → CrcUnit) : (s.modUnit u f).free = s.free := rfl
@[simp] theorem modUnit_tick (u : Nat) (f : CrcUnit → CrcUnit) : (s.modUnit u f).tick = s.tick := rfl
@[simp] theorem modUnit_regs (u : Nat) (f : CrcUnit → CrcUnit) : (s.modUnit u f).regs = s.regs := rfl
@[simp] theorem modUnit_cores (u : Nat) (f : CrcUnit → CrcUnit) : (s.modUnit u f).cores = s.cores := rfl
@[simp] theorem modUnit_stops (u : Nat) (f : CrcUnit → CrcUnit) : (s.modUnit u f).stops = s.stops := rfl
@[simp] theorem modUnit_dies (u : Nat) (f : CrcUnit → CrcUnit) : (s.modUnit u f).dies = s.dies := rfl
@[simp] theorem modUnit_parts (u : Nat) (f : CrcUnit → CrcUnit) : (s.modUnit u f).parts = s.parts := rfl
@[simp] theorem modUnit_pat (u : Nat) (f : CrcUnit → CrcUnit) : (s.modUnit u f).pat = s.pat := rfl
@[simp] theorem modUnit_hostIn (u : Nat) (f : CrcUnit → CrcUnit) : (s.modUnit u f).hostIn = s.hostIn := rfl
@[simp] theorem modUnit_fuses (u : Nat) (f : CrcUnit → CrcUnit) : (s.modUnit u f).fuses = s.fuses := rfl
@[simp] theorem modUnit_flash (u : Nat) (f : CrcUnit → CrcUnit) : (s.modUnit u f).flash = s.flash := rfl
@[simp] theorem modUnit_hbm (u : Nat) (f : CrcUnit → CrcUnit) : (s.modUnit u f).hbm = s.hbm := rfl
@[simp] theorem modUnit_ctls (u : Nat) (f : CrcUnit → CrcUnit) : (s.modUnit u f).ctls = s.ctls := rfl
@[simp] theorem modUnit_srams (u : Nat) (f : CrcUnit → CrcUnit) : (s.modUnit u f).srams = s.srams := rfl
@[simp] theorem modUnit_gatedTicks (u : Nat) (f : CrcUnit → CrcUnit) : (s.modUnit u f).gatedTicks = s.gatedTicks := rfl
@[simp] theorem modUnit_acks (u : Nat) (f : CrcUnit → CrcUnit) : (s.modUnit u f).acks = s.acks := rfl
@[simp] theorem modUnit_links (u : Nat) (f : CrcUnit → CrcUnit) : (s.modUnit u f).links = s.links := rfl
@[simp] theorem modUnit_ports (u : Nat) (f : CrcUnit → CrcUnit) : (s.modUnit u f).ports = s.ports := rfl
@[simp] theorem modUnit_net (u : Nat) (f : CrcUnit → CrcUnit) : (s.modUnit u f).net = s.net := rfl
@[simp] theorem modUnit_ent (u : Nat) (f : CrcUnit → CrcUnit) : (s.modUnit u f).ent = s.ent := rfl
@[simp] theorem modUnit_hostcfg (u : Nat) (f : CrcUnit → CrcUnit) : (s.modUnit u f).hostcfg = s.hostcfg := rfl
@[simp] theorem modUnit_out (u : Nat) (f : CrcUnit → CrcUnit) : (s.modUnit u f).out = s.out := rfl
@[simp] theorem modUnit_mon (u : Nat) (f : CrcUnit → CrcUnit) : (s.modUnit u f).mon = s.mon := rfl
@[simp] theorem modUnit_pwr (u : Nat) (f : CrcUnit → CrcUnit) : (s.modUnit u f).pwr = s.pwr := rfl
@[simp] theorem getF_modUnit (g : Fld) (u : Nat) (f : CrcUnit → CrcUnit) : (s.modUnit u f).getF g = s.getF g := rfl
@[simp] theorem onF_modUnit (g : Fld) (u : Nat) (f : CrcUnit → CrcUnit) : (s.modUnit u f).onF g = s.onF g := rfl
@[simp] theorem core_modUnit (i : Nat) (u : Nat) (f : CrcUnit → CrcUnit) : (s.modUnit u f).core i = s.core i := rfl
@[simp] theorem stop_modUnit (i : Nat) (u : Nat) (f : CrcUnit → CrcUnit) : (s.modUnit u f).stop i = s.stop i := rfl
@[simp] theorem die_modUnit (i : Nat) (u : Nat) (f : CrcUnit → CrcUnit) : (s.modUnit u f).die i = s.die i := rfl
@[simp] theorem part_modUnit (i : Nat) (u : Nat) (f : CrcUnit → CrcUnit) : (s.modUnit u f).part i = s.part i := rfl
@[simp] theorem ctl_modUnit (i : Nat) (u : Nat) (f : CrcUnit → CrcUnit) : (s.modUnit u f).ctl i = s.ctl i := rfl
@[simp] theorem link_modUnit (i : Nat) (u : Nat) (f : CrcUnit → CrcUnit) : (s.modUnit u f).link i = s.link i := rfl
@[simp] theorem port_modUnit (i : Nat) (u : Nat) (f : CrcUnit → CrcUnit) : (s.modUnit u f).port i = s.port i := rfl

/-! ### modCtl -/

@[simp] theorem modCtl_pending (c : Nat) (f : HbmCtl → HbmCtl) : (s.modCtl c f).pending = s.pending := rfl
@[simp] theorem modCtl_free (c : Nat) (f : HbmCtl → HbmCtl) : (s.modCtl c f).free = s.free := rfl
@[simp] theorem modCtl_tick (c : Nat) (f : HbmCtl → HbmCtl) : (s.modCtl c f).tick = s.tick := rfl
@[simp] theorem modCtl_regs (c : Nat) (f : HbmCtl → HbmCtl) : (s.modCtl c f).regs = s.regs := rfl
@[simp] theorem modCtl_cores (c : Nat) (f : HbmCtl → HbmCtl) : (s.modCtl c f).cores = s.cores := rfl
@[simp] theorem modCtl_stops (c : Nat) (f : HbmCtl → HbmCtl) : (s.modCtl c f).stops = s.stops := rfl
@[simp] theorem modCtl_dies (c : Nat) (f : HbmCtl → HbmCtl) : (s.modCtl c f).dies = s.dies := rfl
@[simp] theorem modCtl_parts (c : Nat) (f : HbmCtl → HbmCtl) : (s.modCtl c f).parts = s.parts := rfl
@[simp] theorem modCtl_pat (c : Nat) (f : HbmCtl → HbmCtl) : (s.modCtl c f).pat = s.pat := rfl
@[simp] theorem modCtl_crcUnits (c : Nat) (f : HbmCtl → HbmCtl) : (s.modCtl c f).crcUnits = s.crcUnits := rfl
@[simp] theorem modCtl_hostIn (c : Nat) (f : HbmCtl → HbmCtl) : (s.modCtl c f).hostIn = s.hostIn := rfl
@[simp] theorem modCtl_fuses (c : Nat) (f : HbmCtl → HbmCtl) : (s.modCtl c f).fuses = s.fuses := rfl
@[simp] theorem modCtl_flash (c : Nat) (f : HbmCtl → HbmCtl) : (s.modCtl c f).flash = s.flash := rfl
@[simp] theorem modCtl_hbm (c : Nat) (f : HbmCtl → HbmCtl) : (s.modCtl c f).hbm = s.hbm := rfl
@[simp] theorem modCtl_srams (c : Nat) (f : HbmCtl → HbmCtl) : (s.modCtl c f).srams = s.srams := rfl
@[simp] theorem modCtl_gatedTicks (c : Nat) (f : HbmCtl → HbmCtl) : (s.modCtl c f).gatedTicks = s.gatedTicks := rfl
@[simp] theorem modCtl_acks (c : Nat) (f : HbmCtl → HbmCtl) : (s.modCtl c f).acks = s.acks := rfl
@[simp] theorem modCtl_links (c : Nat) (f : HbmCtl → HbmCtl) : (s.modCtl c f).links = s.links := rfl
@[simp] theorem modCtl_ports (c : Nat) (f : HbmCtl → HbmCtl) : (s.modCtl c f).ports = s.ports := rfl
@[simp] theorem modCtl_net (c : Nat) (f : HbmCtl → HbmCtl) : (s.modCtl c f).net = s.net := rfl
@[simp] theorem modCtl_ent (c : Nat) (f : HbmCtl → HbmCtl) : (s.modCtl c f).ent = s.ent := rfl
@[simp] theorem modCtl_hostcfg (c : Nat) (f : HbmCtl → HbmCtl) : (s.modCtl c f).hostcfg = s.hostcfg := rfl
@[simp] theorem modCtl_out (c : Nat) (f : HbmCtl → HbmCtl) : (s.modCtl c f).out = s.out := rfl
@[simp] theorem modCtl_mon (c : Nat) (f : HbmCtl → HbmCtl) : (s.modCtl c f).mon = s.mon := rfl
@[simp] theorem modCtl_pwr (c : Nat) (f : HbmCtl → HbmCtl) : (s.modCtl c f).pwr = s.pwr := rfl
@[simp] theorem getF_modCtl (g : Fld) (c : Nat) (f : HbmCtl → HbmCtl) : (s.modCtl c f).getF g = s.getF g := rfl
@[simp] theorem onF_modCtl (g : Fld) (c : Nat) (f : HbmCtl → HbmCtl) : (s.modCtl c f).onF g = s.onF g := rfl
@[simp] theorem core_modCtl (i : Nat) (c : Nat) (f : HbmCtl → HbmCtl) : (s.modCtl c f).core i = s.core i := rfl
@[simp] theorem stop_modCtl (i : Nat) (c : Nat) (f : HbmCtl → HbmCtl) : (s.modCtl c f).stop i = s.stop i := rfl
@[simp] theorem die_modCtl (i : Nat) (c : Nat) (f : HbmCtl → HbmCtl) : (s.modCtl c f).die i = s.die i := rfl
@[simp] theorem part_modCtl (i : Nat) (c : Nat) (f : HbmCtl → HbmCtl) : (s.modCtl c f).part i = s.part i := rfl
@[simp] theorem unit_modCtl (i : Nat) (c : Nat) (f : HbmCtl → HbmCtl) : (s.modCtl c f).unit i = s.unit i := rfl
@[simp] theorem link_modCtl (i : Nat) (c : Nat) (f : HbmCtl → HbmCtl) : (s.modCtl c f).link i = s.link i := rfl
@[simp] theorem port_modCtl (i : Nat) (c : Nat) (f : HbmCtl → HbmCtl) : (s.modCtl c f).port i = s.port i := rfl

/-! ### modLink -/

@[simp] theorem modLink_pending (n : Nat) (f : Link → Link) : (s.modLink n f).pending = s.pending := rfl
@[simp] theorem modLink_free (n : Nat) (f : Link → Link) : (s.modLink n f).free = s.free := rfl
@[simp] theorem modLink_tick (n : Nat) (f : Link → Link) : (s.modLink n f).tick = s.tick := rfl
@[simp] theorem modLink_regs (n : Nat) (f : Link → Link) : (s.modLink n f).regs = s.regs := rfl
@[simp] theorem modLink_cores (n : Nat) (f : Link → Link) : (s.modLink n f).cores = s.cores := rfl
@[simp] theorem modLink_stops (n : Nat) (f : Link → Link) : (s.modLink n f).stops = s.stops := rfl
@[simp] theorem modLink_dies (n : Nat) (f : Link → Link) : (s.modLink n f).dies = s.dies := rfl
@[simp] theorem modLink_parts (n : Nat) (f : Link → Link) : (s.modLink n f).parts = s.parts := rfl
@[simp] theorem modLink_pat (n : Nat) (f : Link → Link) : (s.modLink n f).pat = s.pat := rfl
@[simp] theorem modLink_crcUnits (n : Nat) (f : Link → Link) : (s.modLink n f).crcUnits = s.crcUnits := rfl
@[simp] theorem modLink_hostIn (n : Nat) (f : Link → Link) : (s.modLink n f).hostIn = s.hostIn := rfl
@[simp] theorem modLink_fuses (n : Nat) (f : Link → Link) : (s.modLink n f).fuses = s.fuses := rfl
@[simp] theorem modLink_flash (n : Nat) (f : Link → Link) : (s.modLink n f).flash = s.flash := rfl
@[simp] theorem modLink_hbm (n : Nat) (f : Link → Link) : (s.modLink n f).hbm = s.hbm := rfl
@[simp] theorem modLink_ctls (n : Nat) (f : Link → Link) : (s.modLink n f).ctls = s.ctls := rfl
@[simp] theorem modLink_srams (n : Nat) (f : Link → Link) : (s.modLink n f).srams = s.srams := rfl
@[simp] theorem modLink_gatedTicks (n : Nat) (f : Link → Link) : (s.modLink n f).gatedTicks = s.gatedTicks := rfl
@[simp] theorem modLink_acks (n : Nat) (f : Link → Link) : (s.modLink n f).acks = s.acks := rfl
@[simp] theorem modLink_ports (n : Nat) (f : Link → Link) : (s.modLink n f).ports = s.ports := rfl
@[simp] theorem modLink_net (n : Nat) (f : Link → Link) : (s.modLink n f).net = s.net := rfl
@[simp] theorem modLink_ent (n : Nat) (f : Link → Link) : (s.modLink n f).ent = s.ent := rfl
@[simp] theorem modLink_hostcfg (n : Nat) (f : Link → Link) : (s.modLink n f).hostcfg = s.hostcfg := rfl
@[simp] theorem modLink_out (n : Nat) (f : Link → Link) : (s.modLink n f).out = s.out := rfl
@[simp] theorem modLink_mon (n : Nat) (f : Link → Link) : (s.modLink n f).mon = s.mon := rfl
@[simp] theorem modLink_pwr (n : Nat) (f : Link → Link) : (s.modLink n f).pwr = s.pwr := rfl
@[simp] theorem getF_modLink (g : Fld) (n : Nat) (f : Link → Link) : (s.modLink n f).getF g = s.getF g := rfl
@[simp] theorem onF_modLink (g : Fld) (n : Nat) (f : Link → Link) : (s.modLink n f).onF g = s.onF g := rfl
@[simp] theorem core_modLink (i : Nat) (n : Nat) (f : Link → Link) : (s.modLink n f).core i = s.core i := rfl
@[simp] theorem stop_modLink (i : Nat) (n : Nat) (f : Link → Link) : (s.modLink n f).stop i = s.stop i := rfl
@[simp] theorem die_modLink (i : Nat) (n : Nat) (f : Link → Link) : (s.modLink n f).die i = s.die i := rfl
@[simp] theorem part_modLink (i : Nat) (n : Nat) (f : Link → Link) : (s.modLink n f).part i = s.part i := rfl
@[simp] theorem unit_modLink (i : Nat) (n : Nat) (f : Link → Link) : (s.modLink n f).unit i = s.unit i := rfl
@[simp] theorem ctl_modLink (i : Nat) (n : Nat) (f : Link → Link) : (s.modLink n f).ctl i = s.ctl i := rfl
@[simp] theorem port_modLink (i : Nat) (n : Nat) (f : Link → Link) : (s.modLink n f).port i = s.port i := rfl

/-! ### modPort -/

@[simp] theorem modPort_pending (k : Nat) (f : Port → Port) : (s.modPort k f).pending = s.pending := rfl
@[simp] theorem modPort_free (k : Nat) (f : Port → Port) : (s.modPort k f).free = s.free := rfl
@[simp] theorem modPort_tick (k : Nat) (f : Port → Port) : (s.modPort k f).tick = s.tick := rfl
@[simp] theorem modPort_regs (k : Nat) (f : Port → Port) : (s.modPort k f).regs = s.regs := rfl
@[simp] theorem modPort_cores (k : Nat) (f : Port → Port) : (s.modPort k f).cores = s.cores := rfl
@[simp] theorem modPort_stops (k : Nat) (f : Port → Port) : (s.modPort k f).stops = s.stops := rfl
@[simp] theorem modPort_dies (k : Nat) (f : Port → Port) : (s.modPort k f).dies = s.dies := rfl
@[simp] theorem modPort_parts (k : Nat) (f : Port → Port) : (s.modPort k f).parts = s.parts := rfl
@[simp] theorem modPort_pat (k : Nat) (f : Port → Port) : (s.modPort k f).pat = s.pat := rfl
@[simp] theorem modPort_crcUnits (k : Nat) (f : Port → Port) : (s.modPort k f).crcUnits = s.crcUnits := rfl
@[simp] theorem modPort_hostIn (k : Nat) (f : Port → Port) : (s.modPort k f).hostIn = s.hostIn := rfl
@[simp] theorem modPort_fuses (k : Nat) (f : Port → Port) : (s.modPort k f).fuses = s.fuses := rfl
@[simp] theorem modPort_flash (k : Nat) (f : Port → Port) : (s.modPort k f).flash = s.flash := rfl
@[simp] theorem modPort_hbm (k : Nat) (f : Port → Port) : (s.modPort k f).hbm = s.hbm := rfl
@[simp] theorem modPort_ctls (k : Nat) (f : Port → Port) : (s.modPort k f).ctls = s.ctls := rfl
@[simp] theorem modPort_srams (k : Nat) (f : Port → Port) : (s.modPort k f).srams = s.srams := rfl
@[simp] theorem modPort_gatedTicks (k : Nat) (f : Port → Port) : (s.modPort k f).gatedTicks = s.gatedTicks := rfl
@[simp] theorem modPort_acks (k : Nat) (f : Port → Port) : (s.modPort k f).acks = s.acks := rfl
@[simp] theorem modPort_links (k : Nat) (f : Port → Port) : (s.modPort k f).links = s.links := rfl
@[simp] theorem modPort_net (k : Nat) (f : Port → Port) : (s.modPort k f).net = s.net := rfl
@[simp] theorem modPort_ent (k : Nat) (f : Port → Port) : (s.modPort k f).ent = s.ent := rfl
@[simp] theorem modPort_hostcfg (k : Nat) (f : Port → Port) : (s.modPort k f).hostcfg = s.hostcfg := rfl
@[simp] theorem modPort_out (k : Nat) (f : Port → Port) : (s.modPort k f).out = s.out := rfl
@[simp] theorem modPort_mon (k : Nat) (f : Port → Port) : (s.modPort k f).mon = s.mon := rfl
@[simp] theorem modPort_pwr (k : Nat) (f : Port → Port) : (s.modPort k f).pwr = s.pwr := rfl
@[simp] theorem getF_modPort (g : Fld) (k : Nat) (f : Port → Port) : (s.modPort k f).getF g = s.getF g := rfl
@[simp] theorem onF_modPort (g : Fld) (k : Nat) (f : Port → Port) : (s.modPort k f).onF g = s.onF g := rfl
@[simp] theorem core_modPort (i : Nat) (k : Nat) (f : Port → Port) : (s.modPort k f).core i = s.core i := rfl
@[simp] theorem stop_modPort (i : Nat) (k : Nat) (f : Port → Port) : (s.modPort k f).stop i = s.stop i := rfl
@[simp] theorem die_modPort (i : Nat) (k : Nat) (f : Port → Port) : (s.modPort k f).die i = s.die i := rfl
@[simp] theorem part_modPort (i : Nat) (k : Nat) (f : Port → Port) : (s.modPort k f).part i = s.part i := rfl
@[simp] theorem unit_modPort (i : Nat) (k : Nat) (f : Port → Port) : (s.modPort k f).unit i = s.unit i := rfl
@[simp] theorem ctl_modPort (i : Nat) (k : Nat) (f : Port → Port) : (s.modPort k f).ctl i = s.ctl i := rfl
@[simp] theorem link_modPort (i : Nat) (k : Nat) (f : Port → Port) : (s.modPort k f).link i = s.link i := rfl

/-! ### modSram -/

@[simp] theorem modSram_pending (l : Nat) (f : Sram → Sram) : (s.modSram l f).pending = s.pending := rfl
@[simp] theorem modSram_free (l : Nat) (f : Sram → Sram) : (s.modSram l f).free = s.free := rfl
@[simp] theorem modSram_tick (l : Nat) (f : Sram → Sram) : (s.modSram l f).tick = s.tick := rfl
@[simp] theorem modSram_regs (l : Nat) (f : Sram → Sram) : (s.modSram l f).regs = s.regs := rfl
@[simp] theorem modSram_cores (l : Nat) (f : Sram → Sram) : (s.modSram l f).cores = s.cores := rfl
@[simp] theorem modSram_stops (l : Nat) (f : Sram → Sram) : (s.modSram l f).stops = s.stops := rfl
@[simp] theorem modSram_dies (l : Nat) (f : Sram → Sram) : (s.modSram l f).dies = s.dies := rfl
@[simp] theorem modSram_parts (l : Nat) (f : Sram → Sram) : (s.modSram l f).parts = s.parts := rfl
@[simp] theorem modSram_pat (l : Nat) (f : Sram → Sram) : (s.modSram l f).pat = s.pat := rfl
@[simp] theorem modSram_crcUnits (l : Nat) (f : Sram → Sram) : (s.modSram l f).crcUnits = s.crcUnits := rfl
@[simp] theorem modSram_hostIn (l : Nat) (f : Sram → Sram) : (s.modSram l f).hostIn = s.hostIn := rfl
@[simp] theorem modSram_fuses (l : Nat) (f : Sram → Sram) : (s.modSram l f).fuses = s.fuses := rfl
@[simp] theorem modSram_flash (l : Nat) (f : Sram → Sram) : (s.modSram l f).flash = s.flash := rfl
@[simp] theorem modSram_hbm (l : Nat) (f : Sram → Sram) : (s.modSram l f).hbm = s.hbm := rfl
@[simp] theorem modSram_ctls (l : Nat) (f : Sram → Sram) : (s.modSram l f).ctls = s.ctls := rfl
@[simp] theorem modSram_gatedTicks (l : Nat) (f : Sram → Sram) : (s.modSram l f).gatedTicks = s.gatedTicks := rfl
@[simp] theorem modSram_acks (l : Nat) (f : Sram → Sram) : (s.modSram l f).acks = s.acks := rfl
@[simp] theorem modSram_links (l : Nat) (f : Sram → Sram) : (s.modSram l f).links = s.links := rfl
@[simp] theorem modSram_ports (l : Nat) (f : Sram → Sram) : (s.modSram l f).ports = s.ports := rfl
@[simp] theorem modSram_net (l : Nat) (f : Sram → Sram) : (s.modSram l f).net = s.net := rfl
@[simp] theorem modSram_ent (l : Nat) (f : Sram → Sram) : (s.modSram l f).ent = s.ent := rfl
@[simp] theorem modSram_hostcfg (l : Nat) (f : Sram → Sram) : (s.modSram l f).hostcfg = s.hostcfg := rfl
@[simp] theorem modSram_out (l : Nat) (f : Sram → Sram) : (s.modSram l f).out = s.out := rfl
@[simp] theorem modSram_mon (l : Nat) (f : Sram → Sram) : (s.modSram l f).mon = s.mon := rfl
@[simp] theorem modSram_pwr (l : Nat) (f : Sram → Sram) : (s.modSram l f).pwr = s.pwr := rfl
@[simp] theorem getF_modSram (g : Fld) (l : Nat) (f : Sram → Sram) : (s.modSram l f).getF g = s.getF g := rfl
@[simp] theorem onF_modSram (g : Fld) (l : Nat) (f : Sram → Sram) : (s.modSram l f).onF g = s.onF g := rfl
@[simp] theorem core_modSram (i : Nat) (l : Nat) (f : Sram → Sram) : (s.modSram l f).core i = s.core i := rfl
@[simp] theorem stop_modSram (i : Nat) (l : Nat) (f : Sram → Sram) : (s.modSram l f).stop i = s.stop i := rfl
@[simp] theorem die_modSram (i : Nat) (l : Nat) (f : Sram → Sram) : (s.modSram l f).die i = s.die i := rfl
@[simp] theorem part_modSram (i : Nat) (l : Nat) (f : Sram → Sram) : (s.modSram l f).part i = s.part i := rfl
@[simp] theorem unit_modSram (i : Nat) (l : Nat) (f : Sram → Sram) : (s.modSram l f).unit i = s.unit i := rfl
@[simp] theorem ctl_modSram (i : Nat) (l : Nat) (f : Sram → Sram) : (s.modSram l f).ctl i = s.ctl i := rfl
@[simp] theorem link_modSram (i : Nat) (l : Nat) (f : Sram → Sram) : (s.modSram l f).link i = s.link i := rfl
@[simp] theorem port_modSram (i : Nat) (l : Nat) (f : Sram → Sram) : (s.modSram l f).port i = s.port i := rfl

/-! ### putHbm -/

@[simp] theorem putHbm_pending (x : Nat) (b : List Byte) : (s.putHbm x b).pending = s.pending := rfl
@[simp] theorem putHbm_free (x : Nat) (b : List Byte) : (s.putHbm x b).free = s.free := rfl
@[simp] theorem putHbm_tick (x : Nat) (b : List Byte) : (s.putHbm x b).tick = s.tick := rfl
@[simp] theorem putHbm_regs (x : Nat) (b : List Byte) : (s.putHbm x b).regs = s.regs := rfl
@[simp] theorem putHbm_cores (x : Nat) (b : List Byte) : (s.putHbm x b).cores = s.cores := rfl
@[simp] theorem putHbm_stops (x : Nat) (b : List Byte) : (s.putHbm x b).stops = s.stops := rfl
@[simp] theorem putHbm_dies (x : Nat) (b : List Byte) : (s.putHbm x b).dies = s.dies := rfl
@[simp] theorem putHbm_parts (x : Nat) (b : List Byte) : (s.putHbm x b).parts = s.parts := rfl
@[simp] theorem putHbm_pat (x : Nat) (b : List Byte) : (s.putHbm x b).pat = s.pat := rfl
@[simp] theorem putHbm_crcUnits (x : Nat) (b : List Byte) : (s.putHbm x b).crcUnits = s.crcUnits := rfl
@[simp] theorem putHbm_hostIn (x : Nat) (b : List Byte) : (s.putHbm x b).hostIn = s.hostIn := rfl
@[simp] theorem putHbm_fuses (x : Nat) (b : List Byte) : (s.putHbm x b).fuses = s.fuses := rfl
@[simp] theorem putHbm_flash (x : Nat) (b : List Byte) : (s.putHbm x b).flash = s.flash := rfl
@[simp] theorem putHbm_ctls (x : Nat) (b : List Byte) : (s.putHbm x b).ctls = s.ctls := rfl
@[simp] theorem putHbm_srams (x : Nat) (b : List Byte) : (s.putHbm x b).srams = s.srams := rfl
@[simp] theorem putHbm_gatedTicks (x : Nat) (b : List Byte) : (s.putHbm x b).gatedTicks = s.gatedTicks := rfl
@[simp] theorem putHbm_acks (x : Nat) (b : List Byte) : (s.putHbm x b).acks = s.acks := rfl
@[simp] theorem putHbm_links (x : Nat) (b : List Byte) : (s.putHbm x b).links = s.links := rfl
@[simp] theorem putHbm_ports (x : Nat) (b : List Byte) : (s.putHbm x b).ports = s.ports := rfl
@[simp] theorem putHbm_net (x : Nat) (b : List Byte) : (s.putHbm x b).net = s.net := rfl
@[simp] theorem putHbm_ent (x : Nat) (b : List Byte) : (s.putHbm x b).ent = s.ent := rfl
@[simp] theorem putHbm_hostcfg (x : Nat) (b : List Byte) : (s.putHbm x b).hostcfg = s.hostcfg := rfl
@[simp] theorem putHbm_out (x : Nat) (b : List Byte) : (s.putHbm x b).out = s.out := rfl
@[simp] theorem putHbm_mon (x : Nat) (b : List Byte) : (s.putHbm x b).mon = s.mon := rfl
@[simp] theorem putHbm_pwr (x : Nat) (b : List Byte) : (s.putHbm x b).pwr = s.pwr := rfl
@[simp] theorem getF_putHbm (g : Fld) (x : Nat) (b : List Byte) : (s.putHbm x b).getF g = s.getF g := rfl
@[simp] theorem onF_putHbm (g : Fld) (x : Nat) (b : List Byte) : (s.putHbm x b).onF g = s.onF g := rfl
@[simp] theorem core_putHbm (i : Nat) (x : Nat) (b : List Byte) : (s.putHbm x b).core i = s.core i := rfl
@[simp] theorem stop_putHbm (i : Nat) (x : Nat) (b : List Byte) : (s.putHbm x b).stop i = s.stop i := rfl
@[simp] theorem die_putHbm (i : Nat) (x : Nat) (b : List Byte) : (s.putHbm x b).die i = s.die i := rfl
@[simp] theorem part_putHbm (i : Nat) (x : Nat) (b : List Byte) : (s.putHbm x b).part i = s.part i := rfl
@[simp] theorem unit_putHbm (i : Nat) (x : Nat) (b : List Byte) : (s.putHbm x b).unit i = s.unit i := rfl
@[simp] theorem ctl_putHbm (i : Nat) (x : Nat) (b : List Byte) : (s.putHbm x b).ctl i = s.ctl i := rfl
@[simp] theorem link_putHbm (i : Nat) (x : Nat) (b : List Byte) : (s.putHbm x b).link i = s.link i := rfl
@[simp] theorem port_putHbm (i : Nat) (x : Nat) (b : List Byte) : (s.putHbm x b).port i = s.port i := rfl

/-! ### emit -/

@[simp] theorem emit_pending (o : Output) : (s.emit o).pending = s.pending := rfl
@[simp] theorem emit_free (o : Output) : (s.emit o).free = s.free := rfl
@[simp] theorem emit_tick (o : Output) : (s.emit o).tick = s.tick := rfl
@[simp] theorem emit_regs (o : Output) : (s.emit o).regs = s.regs := rfl
@[simp] theorem emit_cores (o : Output) : (s.emit o).cores = s.cores := rfl
@[simp] theorem emit_stops (o : Output) : (s.emit o).stops = s.stops := rfl
@[simp] theorem emit_dies (o : Output) : (s.emit o).dies = s.dies := rfl
@[simp] theorem emit_parts (o : Output) : (s.emit o).parts = s.parts := rfl
@[simp] theorem emit_pat (o : Output) : (s.emit o).pat = s.pat := rfl
@[simp] theorem emit_crcUnits (o : Output) : (s.emit o).crcUnits = s.crcUnits := rfl
@[simp] theorem emit_hostIn (o : Output) : (s.emit o).hostIn = s.hostIn := rfl
@[simp] theorem emit_fuses (o : Output) : (s.emit o).fuses = s.fuses := rfl
@[simp] theorem emit_flash (o : Output) : (s.emit o).flash = s.flash := rfl
@[simp] theorem emit_hbm (o : Output) : (s.emit o).hbm = s.hbm := rfl
@[simp] theorem emit_ctls (o : Output) : (s.emit o).ctls = s.ctls := rfl
@[simp] theorem emit_srams (o : Output) : (s.emit o).srams = s.srams := rfl
@[simp] theorem emit_gatedTicks (o : Output) : (s.emit o).gatedTicks = s.gatedTicks := rfl
@[simp] theorem emit_acks (o : Output) : (s.emit o).acks = s.acks := rfl
@[simp] theorem emit_links (o : Output) : (s.emit o).links = s.links := rfl
@[simp] theorem emit_ports (o : Output) : (s.emit o).ports = s.ports := rfl
@[simp] theorem emit_net (o : Output) : (s.emit o).net = s.net := rfl
@[simp] theorem emit_ent (o : Output) : (s.emit o).ent = s.ent := rfl
@[simp] theorem emit_hostcfg (o : Output) : (s.emit o).hostcfg = s.hostcfg := rfl
@[simp] theorem emit_mon (o : Output) : (s.emit o).mon = s.mon := rfl
@[simp] theorem emit_pwr (o : Output) : (s.emit o).pwr = s.pwr := rfl
@[simp] theorem getF_emit (g : Fld) (o : Output) : (s.emit o).getF g = s.getF g := rfl
@[simp] theorem onF_emit (g : Fld) (o : Output) : (s.emit o).onF g = s.onF g := rfl
@[simp] theorem core_emit (i : Nat) (o : Output) : (s.emit o).core i = s.core i := rfl
@[simp] theorem stop_emit (i : Nat) (o : Output) : (s.emit o).stop i = s.stop i := rfl
@[simp] theorem die_emit (i : Nat) (o : Output) : (s.emit o).die i = s.die i := rfl
@[simp] theorem part_emit (i : Nat) (o : Output) : (s.emit o).part i = s.part i := rfl
@[simp] theorem unit_emit (i : Nat) (o : Output) : (s.emit o).unit i = s.unit i := rfl
@[simp] theorem ctl_emit (i : Nat) (o : Output) : (s.emit o).ctl i = s.ctl i := rfl
@[simp] theorem link_emit (i : Nat) (o : Output) : (s.emit o).link i = s.link i := rfl
@[simp] theorem port_emit (i : Nat) (o : Output) : (s.emit o).port i = s.port i := rfl

/-! ### used -/

@[simp] theorem used_pending : (s.used).pending = s.pending := rfl
@[simp] theorem used_tick : (s.used).tick = s.tick := rfl
@[simp] theorem used_regs : (s.used).regs = s.regs := rfl
@[simp] theorem used_cores : (s.used).cores = s.cores := rfl
@[simp] theorem used_stops : (s.used).stops = s.stops := rfl
@[simp] theorem used_dies : (s.used).dies = s.dies := rfl
@[simp] theorem used_parts : (s.used).parts = s.parts := rfl
@[simp] theorem used_pat : (s.used).pat = s.pat := rfl
@[simp] theorem used_crcUnits : (s.used).crcUnits = s.crcUnits := rfl
@[simp] theorem used_hostIn : (s.used).hostIn = s.hostIn := rfl
@[simp] theorem used_fuses : (s.used).fuses = s.fuses := rfl
@[simp] theorem used_flash : (s.used).flash = s.flash := rfl
@[simp] theorem used_hbm : (s.used).hbm = s.hbm := rfl
@[simp] theorem used_ctls : (s.used).ctls = s.ctls := rfl
@[simp] theorem used_srams : (s.used).srams = s.srams := rfl
@[simp] theorem used_gatedTicks : (s.used).gatedTicks = s.gatedTicks := rfl
@[simp] theorem used_acks : (s.used).acks = s.acks := rfl
@[simp] theorem used_links : (s.used).links = s.links := rfl
@[simp] theorem used_ports : (s.used).ports = s.ports := rfl
@[simp] theorem used_net : (s.used).net = s.net := rfl
@[simp] theorem used_ent : (s.used).ent = s.ent := rfl
@[simp] theorem used_hostcfg : (s.used).hostcfg = s.hostcfg := rfl
@[simp] theorem used_out : (s.used).out = s.out := rfl
@[simp] theorem used_mon : (s.used).mon = s.mon := rfl
@[simp] theorem used_pwr : (s.used).pwr = s.pwr := rfl
@[simp] theorem getF_used (g : Fld) : (s.used).getF g = s.getF g := rfl
@[simp] theorem onF_used (g : Fld) : (s.used).onF g = s.onF g := rfl
@[simp] theorem core_used (i : Nat) : (s.used).core i = s.core i := rfl
@[simp] theorem stop_used (i : Nat) : (s.used).stop i = s.stop i := rfl
@[simp] theorem die_used (i : Nat) : (s.used).die i = s.die i := rfl
@[simp] theorem part_used (i : Nat) : (s.used).part i = s.part i := rfl
@[simp] theorem unit_used (i : Nat) : (s.used).unit i = s.unit i := rfl
@[simp] theorem ctl_used (i : Nat) : (s.used).ctl i = s.ctl i := rfl
@[simp] theorem link_used (i : Nat) : (s.used).link i = s.link i := rfl
@[simp] theorem port_used (i : Nat) : (s.used).port i = s.port i := rfl

/-! ### A read after an update -/

@[simp] theorem core_modCore_same (i : Nat) (f : Core → Core) : (s.modCore i f).core i = f (s.core i) := by
  unfold State.core State.modCore; rw [tblGet_tblMod, if_pos rfl]
theorem core_modCore_ne {i j : Nat} (f : Core → Core) (h : j ≠ i) : (s.modCore i f).core j = s.core j := by
  unfold State.core State.modCore; rw [tblGet_tblMod, if_neg h]

@[simp] theorem stop_modStop_same (i : Nat) (f : Stop → Stop) : (s.modStop i f).stop i = f (s.stop i) := by
  unfold State.stop State.modStop; rw [tblGet_tblMod, if_pos rfl]
theorem stop_modStop_ne {i j : Nat} (f : Stop → Stop) (h : j ≠ i) : (s.modStop i f).stop j = s.stop j := by
  unfold State.stop State.modStop; rw [tblGet_tblMod, if_neg h]

@[simp] theorem die_modDie_same (i : Nat) (f : Die → Die) : (s.modDie i f).die i = f (s.die i) := by
  unfold State.die State.modDie; rw [tblGet_tblMod, if_pos rfl]
theorem die_modDie_ne {i j : Nat} (f : Die → Die) (h : j ≠ i) : (s.modDie i f).die j = s.die j := by
  unfold State.die State.modDie; rw [tblGet_tblMod, if_neg h]

@[simp] theorem part_modPart_same (i : Nat) (f : Part → Part) : (s.modPart i f).part i = f (s.part i) := by
  unfold State.part State.modPart; rw [tblGet_tblMod, if_pos rfl]
theorem part_modPart_ne {i j : Nat} (f : Part → Part) (h : j ≠ i) : (s.modPart i f).part j = s.part j := by
  unfold State.part State.modPart; rw [tblGet_tblMod, if_neg h]

@[simp] theorem unit_modUnit_same (i : Nat) (f : CrcUnit → CrcUnit) : (s.modUnit i f).unit i = f (s.unit i) := by
  unfold State.unit State.modUnit; rw [tblGet_tblMod, if_pos rfl]
theorem unit_modUnit_ne {i j : Nat} (f : CrcUnit → CrcUnit) (h : j ≠ i) : (s.modUnit i f).unit j = s.unit j := by
  unfold State.unit State.modUnit; rw [tblGet_tblMod, if_neg h]

@[simp] theorem ctl_modCtl_same (i : Nat) (f : HbmCtl → HbmCtl) : (s.modCtl i f).ctl i = f (s.ctl i) := by
  unfold State.ctl State.modCtl; rw [tblGet_tblMod, if_pos rfl]
theorem ctl_modCtl_ne {i j : Nat} (f : HbmCtl → HbmCtl) (h : j ≠ i) : (s.modCtl i f).ctl j = s.ctl j := by
  unfold State.ctl State.modCtl; rw [tblGet_tblMod, if_neg h]

@[simp] theorem link_modLink_same (i : Nat) (f : Link → Link) : (s.modLink i f).link i = f (s.link i) := by
  unfold State.link State.modLink; rw [tblGet_tblMod, if_pos rfl]
theorem link_modLink_ne {i j : Nat} (f : Link → Link) (h : j ≠ i) : (s.modLink i f).link j = s.link j := by
  unfold State.link State.modLink; rw [tblGet_tblMod, if_neg h]

@[simp] theorem port_modPort_same (i : Nat) (f : Port → Port) : (s.modPort i f).port i = f (s.port i) := by
  unfold State.port State.modPort; rw [tblGet_tblMod, if_pos rfl]
theorem port_modPort_ne {i j : Nat} (f : Port → Port) (h : j ≠ i) : (s.modPort i f).port j = s.port j := by
  unfold State.port State.modPort; rw [tblGet_tblMod, if_neg h]

end Sys2Proof.Machine
end

