-- ==== Sys2Proof/Laws/LinkEffect.lean ====
section
/-!
SUPPORT. Everything that sending a flit to a package can do (`SendEffect`): the counters of discarded traffic, the occupancy
of receive buffers, the dies' bridges, the partitions' faults, the links and ports, and what is sent; no die starts or stops by
it.
-/
namespace Sys2Proof.Machine

/-- The counters of traffic that goes nowhere, and the occupancy of the ports' receive buffers. -/
def SendField (f : Fld) : Prop :=
  (∃ k, f = lpUnreach k) ∨ f = gSprueDiscards ∨ f = lNoTarget ∨ f = lNoImport ∨ ∃ k vc, f = lpOcc k vc

/-- What sending a flit may change. -/
structure SendEffect (s t : State) : Prop where
  only : t = { s with regs := t.regs, dies := t.dies, parts := t.parts, links := t.links, ports := t.ports, net := t.net,
                      out := t.out }
  fields : ∀ f : Fld, f.Ok → (∀ g, SendField g → f.Apart g) → t.getF f = s.getF f
  frozen : ∀ d, (t.die d).frozen = (s.die d).frozen

variable {a s t : State}

theorem SendEffect.refl (s : State) : SendEffect s s := ⟨rfl, fun _ _ _ => rfl, fun _ => rfl⟩

theorem SendEffect.trans (h : SendEffect a s) (k : SendEffect s t) : SendEffect a t :=
  ⟨by rw [k.only, h.only], fun f ho ha => (k.fields f ho ha).trans (h.fields f ho ha), fun d => (k.frozen d).trans (h.frozen d)⟩

theorem sendEffect_ite {c : Prop} [Decidable c] (hs : SendEffect a s) (ht : SendEffect a t) :
    SendEffect a (if c then s else t) := by
  split <;> assumption

theorem sendEffect_ite_fst {β : Type} {c : Prop} [Decidable c] {x y : State × β} (hx : SendEffect a x.1)
    (hy : SendEffect a y.1) : SendEffect a (if c then x else y).1 := by
  split <;> assumption

theorem sendEffect_forAll {α : Type} {l : List α} {f : α → State → State}
    (hf : ∀ x u, SendEffect a u → SendEffect a (f x u)) (h : SendEffect a s) : SendEffect a (forAll l f s) := by
  unfold forAll
  induction l generalizing s with
  | nil => exact h
  | cons x l ih => exact ih (hf x s h)

theorem setF_send (f : Fld) (n : Nat) (ho : f.Ok) (hm : SendField f) (h : SendEffect a s) : SendEffect a (s.setF f n) :=
  h.trans ⟨rfl, fun _ hg ha => getF_setF_apart _ _ _ hg ho (ha f hm), fun _ => rfl⟩

theorem incF_send (f : Fld) (n : Nat) (ho : f.Ok) (hm : SendField f) (h : SendEffect a s) : SendEffect a (s.incF f n) :=
  setF_send f _ ho hm h

theorem modDie_send (d : Nat) (f : Die → Die) (hf : ∀ x, (f x).frozen = x.frozen) (h : SendEffect a s) :
    SendEffect a (s.modDie d f) := by
  refine h.trans ⟨rfl, fun _ _ _ => rfl, fun e => ?_⟩
  unfold State.die State.modDie
  rw [tblGet_tblMod]
  split
  · rename_i he; rw [he, hf]
  · rfl

theorem modPart_send (p : Nat) (f : Part → Part) (h : SendEffect a s) : SendEffect a (s.modPart p f) :=
  h.trans ⟨rfl, fun _ _ _ => rfl, fun _ => rfl⟩

theorem modLink_send (n : Nat) (f : Link → Link) (h : SendEffect a s) : SendEffect a (s.modLink n f) :=
  h.trans ⟨rfl, fun _ _ _ => rfl, fun _ => rfl⟩

theorem modPort_send (n : Nat) (f : Port → Port) (h : SendEffect a s) : SendEffect a (s.modPort n f) :=
  h.trans ⟨rfl, fun _ _ _ => rfl, fun _ => rfl⟩

theorem emit_send (o : Output) (h : SendEffect a s) : SendEffect a (s.emit o) :=
  h.trans ⟨rfl, fun _ _ _ => rfl, fun _ => rfl⟩

theorem net_send (n : Net) (h : SendEffect a s) : SendEffect a { s with net := n } :=
  h.trans ⟨rfl, fun _ _ _ => rfl, fun _ => rfl⟩

/-- A counter of discarded traffic that is not a port's. -/
theorem lost_send {f : Fld} (n : Nat) (hf : f = gSprueDiscards ∨ f = lNoTarget ∨ f = lNoImport) (h : SendEffect a s) :
    SendEffect a (s.incF f n) := by
  obtain rfl | rfl | rfl := hf <;> exact incF_send _ n (by unfold Fld.Ok; decide) (by simp [SendField]) h

theorem modTap_send (d : Nat) (b : Bool) (f : Tap → Tap) (h : SendEffect a s) : SendEffect a (s.modTap d b f) :=
  modDie_send _ _ (fun _ => by split <;> rfl) h

theorem toDie_send (lid : Nat) (f : Flit) (h : SendEffect a s) : SendEffect a (s.toDie lid f) :=
  sendEffect_ite (lost_send _ (by simp) h) (modTap_send _ _ _ h)

theorem toTap0_send (d : Nat) (f : Flit) (h : SendEffect a s) : SendEffect a (s.toTap0 d f) :=
  sendEffect_ite (lost_send _ (by simp) h) (modTap_send _ _ _ h)

theorem msgToDie_send (lid : Nat) (m : SyncMsg) (h : SendEffect a s) : SendEffect a (s.msgToDie lid m) :=
  sendEffect_ite (lost_send _ (by simp) h) (modTap_send _ _ _ h)

theorem remoteFault_send (lid code : Nat) (h : SendEffect a s) : SendEffect a (s.remoteFault lid code) := by
  unfold State.remoteFault State.signalFault
  split
  · exact modPart_send _ _ h
  · exact h

theorem noteLink_send (p : Nat) (h : SendEffect a s) : SendEffect a (s.noteLink p) := modPart_send _ _ h

theorem toTarget_send (lid : Nat) {f : State → State} (hf : ∀ u, SendEffect a u → SendEffect a (f u)) (h : SendEffect a s) :
    SendEffect a (s.toTarget lid f) := by
  unfold State.toTarget
  split
  · exact sendEffect_ite (hf _ (noteLink_send _ h)) (lost_send _ (by simp) h)
  · exact lost_send _ (by simp) h

theorem importDie_send (spkg k d : Nat) (items : List W32) (h : SendEffect a s) :
    SendEffect a (s.importDie spkg k d items).1 := by
  have hi : SendEffect a (s.incF lNoTarget 1) := lost_send _ (by simp) h
  unfold State.importDie
  dsimp only
  split
  · split
    · exact noteLink_send _ (sendEffect_forAll (fun _ _ hu => toTap0_send _ _ hu) h)
    · exact sendEffect_ite h hi
  · exact sendEffect_ite h hi

theorem importDies_send (spkg k : Nat) (items : List W32) (l : List Nat) (h : SendEffect a s) :
    SendEffect a (State.importDies spkg k items l s).1 := by
  induction l generalizing s with
  | nil => exact h
  | cons d l ih => exact ih (importDie_send _ _ _ _ h)

theorem importNotices_send (spkg : Nat) (items : List W32) (h : SendEffect a s) :
    SendEffect a (s.importNotices spkg items).1 := by
  have hl : SendEffect a (if (items.filter fun n => (s.importFor spkg n).isNone).length = 0 then s
      else s.incF lNoImport (items.filter fun n => (s.importFor spkg n).isNone).length) :=
    sendEffect_ite h (lost_send _ (by simp) h)
  have hd := fun n => importDies_send spkg s.net.nackNext items (List.range 8) (net_send n hl)
  unfold State.importNotices
  dsimp only
  exact sendEffect_ite_fst (hd _) (net_send _ (hd _))

theorem nackOp_send (n : Nat) (h : SendEffect a s) : SendEffect a (nackOp n s) := net_send _ h

theorem messageHere_send (m : LinkMsg) (h : SendEffect a s) : SendEffect a (s.messageHere m) := by
  unfold State.messageHere
  split
  · exact toTarget_send _ (fun _ hu => msgToDie_send _ _ hu) h
  · exact nackOp_send _ h
  · exact remoteFault_send _ _ h
  · exact h

theorem deliverHere_send (f : LinkFlit) (h : SendEffect a s) : SendEffect a (s.deliverHere f) := by
  unfold State.deliverHere
  split
  · exact h
  · exact sendEffect_ite (nackOp_send _ (importNotices_send _ _ h)) (importNotices_send _ _ h)
  · exact toTarget_send _ (fun _ hu => sendEffect_forAll (fun _ _ hv => toTap0_send _ _ hv) hu) h
  · exact toTarget_send _ (fun _ hu => toTap0_send _ _ hu) h
  · exact sendEffect_forAll (fun _ _ hu => messageHere_send _ hu) h

theorem lpOcc_ok (k : Nat) (vc : Bool) : (lpOcc k vc).Ok := by
  unfold lpOcc Fld.Ok
  cases vc <;> simp [lpOcc0, lpOcc1]

theorem freePlace_send (n : Nat) (vc : Bool) (h : SendEffect a s) : SendEffect a (s.freePlace n vc) := by
  have hs := setF_send _ (s.getF (lpOcc (linkPort s.dims n) vc) - 1) (lpOcc_ok _ vc)
    (.inr (.inr (.inr (.inr ⟨linkPort s.dims n, vc, rfl⟩)))) h
  unfold State.freePlace
  dsimp only
  split
  · exact emit_send _ hs
  · exact hs

theorem freeHeld_send (held : Option (Nat × Bool)) (h : SendEffect a s) : SendEffect a (s.freeHeld held) := by
  unfold State.freeHeld
  split
  · exact freePlace_send _ _ h
  · exact h

theorem transmit_send (k l : Nat) (vc : Bool) (f : LinkFlit) (h : SendEffect a s) : SendEffect a (s.transmit k l vc f) :=
  emit_send _ (modPort_send _ _ (modLink_send _ _ h))

theorem pumpPort_send (k n : Nat) (h : SendEffect a s) : SendEffect a (State.pumpPort k n s) := by
  induction n generalizing s with
  | zero => exact h
  | succ n ih =>
    unfold State.pumpPort
    split
    · exact ih (freeHeld_send _ (transmit_send _ _ _ _ (modPort_send _ _ h)))
    · exact h

theorem routeDim_lt {dest k : Nat} (h : s.routeDim dest = some k) : k < s.dims := by
  unfold State.routeDim at h
  exact List.mem_range.mp (List.mem_of_find?_eq_some h)

theorem dims_lt (s : State) : s.dims < 4 := Nat.mod_lt _ (by decide)

theorem linkPut_send (held : Option (Nat × Bool)) (f : LinkFlit) (h : SendEffect a s) : SendEffect a (s.linkPut held f).1 := by
  unfold State.linkPut
  split
  · exact freeHeld_send _ h
  · dsimp only
    split
    · exact pumpPort_send _ _ (modPort_send _ _ h)
    · exact freeHeld_send _ (incF_send _ _ (Nat.le_refl 64) (.inl ⟨_, rfl⟩) h)

/-- Sending a flit on does nothing else. -/
theorem linkForward_send (held : Option (Nat × Bool)) (f : LinkFlit) (h : SendEffect a s) :
    SendEffect a (s.linkForward held f) := by
  unfold State.linkForward
  refine sendEffect_ite (freeHeld_send _ (deliverHere_send _ h)) ?_
  have hp := linkPut_send held f h
  split
  · rename_i e; rw [e] at hp; exact hp
  · rename_i e
    rw [e] at hp
    split
    · exact hp
    · exact sendEffect_ite (remoteFault_send _ _ hp) (linkPut_send _ _ hp)

/-- Sending a flit does nothing else. -/
theorem linkSendOut_send (f : LinkFlit) (h : SendEffect a s) : SendEffect a (s.linkSendOut f) := linkForward_send none f h

/-- Putting what waits at a port on its route again does nothing else. -/
theorem requeue_send (k : Nat) (h : SendEffect a s) : SendEffect a (s.requeue k) :=
  sendEffect_forAll (fun _ _ hu => linkForward_send _ _ hu) (modPort_send _ _ h)

/-- A field that none of them overlaps keeps its value. -/
theorem SendEffect.getF (h : SendEffect s t) (f : Fld) (ho : f.Ok) (ha : ∀ g, SendField g → f.Apart g) : t.getF f = s.getF f :=
  h.fields f ho ha

end Sys2Proof.Machine
end

