-- ==== Sys2Proof/Laws/Shared.lean ====
section
/-!
SUPPORT. What the shared operations can do, once for each: the frame of a command, the head of a queue, retirement,
pattern faults, host accesses.
-/
namespace Sys2Proof.Machine

variable {s t : State} {lid : Nat} {q : Queue} {op : OpWord}

/-! ### The frame of a command -/

/-- A command ends in the state that it makes, or changes nothing where its operands name nothing. -/
theorem guarded_next (ok : Bool) (s t u : State) : guarded ok s t = .next u ↔ u = if ok then t else s := by
  unfold guarded
  rw [Host.Outcome.next.injEq, eq_comm]

theorem guarded_of {ok : Bool} (h : ok = true) (s t : State) : guarded ok s t = .next t := by rw [guarded, if_pos h]

/-! ### The head of a queue -/

theorem wordsOf_mem {wb a n w : Nat} (h : w ∈ wordsOf wb a n) : a / wb ≤ w ∧ w * wb < a + n := by
  unfold wordsOf at h
  split at h
  · simp at h
  · rename_i hn
    simp only [rangeFrom, List.mem_map, List.mem_range] at h
    obtain ⟨i, hi, rfl⟩ := h
    refine ⟨by omega, ?_⟩
    have h1 : a / wb + i ≤ (a + n - 1) / wb := by omega
    have h2 := Nat.mul_le_mul_right wb h1
    have h3 := Nat.div_mul_le_self (a + n - 1) wb
    omega

/-- With no word in error listed, a range has none. -/
theorem badIn_of_badWords {m : Mem} {wb a n : Nat} (h : m.badWords wb a n = []) : m.badIn wb a n = false := by
  unfold Mem.badIn
  rw [List.any_eq_false]
  intro w hw
  obtain ⟨h1, h2⟩ := wordsOf_mem hw
  have habs : ∀ e ∈ m.bad, w ≠ e.1 := fun e he hwe => by
    have : w ∈ m.badWords wb a n := List.mem_filter.2 ⟨List.mem_map.2 ⟨e, he, hwe.symm⟩, by simp [h1, h2]⟩
    simp [h] at this
  simp [Mem.err, Mem.syn, tblGet_of_absent _ habs, classify, isBad]

theorem rdBad_of_clean {m : CoreMem} {a n : Nat} (h : ((s.core lid).mem m).badWords (cmWb m) a n = []) :
    s.rdBad lid m a n = false :=
  badIn_of_badWords h

/-- A read that meets no word in error leaves the state. -/
theorem noteRead_of_clean {m : CoreMem} {a n : Nat} (h : ((s.core lid).mem m).badWords (cmWb m) a n = []) :
    s.noteRead lid m a n = s := by
  unfold State.noteRead
  rw [h]; rfl

/-- An op at the head of a queue that may issue goes to the command of its row; the command of another row changes
nothing (R210, R212). -/
theorem issueOp_of_atHead (h : AtHead s lid q op) (mine : OpWord → Bool) (f : OpWord → State → State) :
    s.issueOp lid q mine f = if mine op then f op s else s := by
  have hc : ((s.core lid).mem .op).badWords (cmWb .op) (16 * s.getF (qPc lid q)) 16 = [] := h.clean
  have hp : (s.core lid).past.contains q.num = false := by simpa using h.notPast
  unfold State.issueOp
  simp only [h.issues, h.region, hp, rdBad_of_clean hc, noteRead_of_clean hc, h.word, h.queue, h.opcode]
  simp

theorem issue_of_atHead (h : AtHead s lid q op) (f : OpWord → State → State) : s.issue lid q (opOpcode op) f = f op s := by
  unfold State.issue
  rw [issueOp_of_atHead h]; simp

/-- A control or counter op without a reserved bit set (R211, R212). -/
theorem control_of_atHead (h : AtHead s lid q op) {l : List (Nat × Nat)} (hr : opReserved l op = false)
    (f : OpWord → State → State) : s.control lid q (opOpcode op) l f = f op s := by
  unfold State.control
  rw [issue_of_atHead h]; simp [hr]

/-- A control or counter op with a reserved bit set raises SYNC_OPERAND (R212). -/
theorem control_reserved (h : AtHead s lid q op) {l : List (Nat × Nat)} (hr : opReserved l op = true)
    (f : OpWord → State → State) : s.control lid q (opOpcode op) l f = s.opFault lid q fSyncOperand := by
  unfold State.control
  rw [issue_of_atHead h]; simp [hr]

/-- An S-queue op while no phase is in progress (R101, R105). -/
theorem suaOp_of_atHead (h : AtHead s lid .s op) (hp : (s.core lid).phase = none) {l : List (Nat × Nat)} {bad : Nat}
    (hr : opReserved l op = false) (f : OpWord → State → State) : s.suaOp lid (opOpcode op) l bad f = f op s := by
  unfold State.suaOp
  rw [issue_of_atHead h]; simp [hr, hp]

/-- A vector op that sets no bit it does not use (R189). -/
theorem vecOp_of_atHead (h : AtHead s lid .v op) {l : List (Nat × Nat)} (hr : opReserved l op = false)
    (f : OpWord → State → State) : s.vecOp lid (opOpcode op) l f = f op s := by
  unfold State.vecOp
  rw [issue_of_atHead h]; simp [hr]

/-! ### Retirement and faults -/

theorem qPc_ok (lid : Nat) (q : Queue) : (qPc lid q).Ok := by simp [Fld.Ok, qPc]
theorem qState_ok (lid : Nat) (q : Queue) : (qState lid q).Ok := by simp [Fld.Ok, qState]
theorem qOps_ok (lid : Nat) (q : Queue) : (qOps lid q).Ok := by simp [Fld.Ok, qOps]
theorem qFaultCode_ok (lid : Nat) (q : Queue) : (qFaultCode lid q).Ok := by simp [Fld.Ok, qFaultCode]
theorem qFaultPc_ok (lid : Nat) (q : Queue) : (qFaultPc lid q).Ok := by simp [Fld.Ok, qFaultPc]

/-- A queue goes on inside op memory (R213). -/
theorem goto_inside {i : Nat} (h : i < 4096) : s.goto lid q i = s.setF (qPc lid q) i := by
  unfold State.goto
  simp [h, Nat.mod_eq_of_lt h]

theorem retire_inside (h : s.getF (qPc lid q) < 4095) :
    s.retire lid q = (s.setF (qPc lid q) (s.getF (qPc lid q) + 1)).incF (qOps lid q) 1 := by
  unfold State.retire
  rw [goto_inside (by omega)]

theorem retire_regsOnly (h : s.getF (qPc lid q) < 4095) : RegsOnly [qPc lid q, qOps lid q] s (s.retire lid q) := by
  rw [retire_inside h]
  exact (regsOnly_setF _ _ (qPc_ok lid q) (by simp)).trans (regsOnly_incF _ _ (qOps_ok lid q) (by simp))

theorem retire_retired (h : s.getF (qPc lid q) < 4095) : Retired lid q s (s.retire lid q) := by
  have ha : (qPc lid q).Apart (qOps lid q) := by cases q <;> simp [Fld.Apart, Fld.base, qPc, qOps, corePage, Queue.num] <;> omega
  have hb : (qOps lid q).Apart (qPc lid q) := by cases q <;> simp [Fld.Apart, Fld.base, qPc, qOps, corePage, Queue.num] <;> omega
  rw [retire_inside h]
  refine ⟨?_, ?_⟩
  · rw [getF_incF_apart _ _ _ (qPc_ok lid q) (qOps_ok lid q) ha, getF_setF_same _ _ (qPc_ok lid q)]
    exact Nat.mod_eq_of_lt (show s.getF (qPc lid q) + 1 < 4096 by omega)
  · rw [getF_incF_same _ _ (qOps_ok lid q), getF_setF_apart _ _ _ (qOps_ok lid q) (qPc_ok lid q) hb]
    rfl

/-- Who owns a core follows from the partitions' registers alone. -/
theorem owner_congr (h1 : ∀ p, p < 8 → t.getF (ppDies p) = s.getF (ppDies p))
    (h2 : ∀ p, p < 8 → t.getF (ppState p) = s.getF (ppState p)) (lid : Nat) : t.owner lid = s.owner lid := by
  have hd : ∀ p, p < 8 → t.hasDie p (dieOf lid) = s.hasDie p (dieOf lid) := fun p hp => by
    simp only [State.hasDie, h1 p hp, h2 p hp]
  show (List.find? (fun p => t.hasDie p (dieOf lid)) [0, 1, 2, 3, 4, 5, 6, 7]) =
    List.find? (fun p => s.hasDie p (dieOf lid)) [0, 1, 2, 3, 4, 5, 6, 7]
  simp only [List.find?, hd 0 (by decide), hd 1 (by decide), hd 2 (by decide), hd 3 (by decide), hd 4 (by decide),
    hd 5 (by decide), hd 6 (by decide), hd 7 (by decide)]

/-- Writing a field of a core's page leaves who owns a core. -/
theorem owner_setF_page (f : Fld) (n : Nat) (hf : f.Ok) (hp : 0x01000000 ≤ f.off) (lid : Nat) :
    (s.setF f n).owner lid = s.owner lid := by
  have ha : ∀ p, p < 8 → (ppDies p).Apart f ∧ (ppState p).Apart f := by
    intro p hp
    simp only [Fld.Apart, Fld.base, ppDies, ppState]
    omega
  exact owner_congr (fun p h => getF_setF_apart _ _ _ (by simp [Fld.Ok, ppDies]) hf (ha p h).1)
    (fun p h => getF_setF_apart _ _ _ (by simp [Fld.Ok, ppState]) hf (ha p h).2) lid

/-- Telling a partition of a fault changes that partition's record only (R235). -/
theorem signalFault_rest (lid : Nat) (r : FaultRec) (u : State) :
    u.signalFault lid r = { u with parts := (u.signalFault lid r).parts } ∧ (u.signalFault lid r).regs = u.regs := by
  unfold State.signalFault
  split <;> exact ⟨rfl, rfl⟩

/-- What a pattern fault of an op leaves (R235). -/
theorem opFault_halted (lid : Nat) (q : Queue) {code : Nat} (hc : code < 256) (s : State) :
    Halted lid q code s (s.opFault lid q code) := by
  have a1 : (qState lid q).Apart (qFaultCode lid q) := by cases q <;> simp [Fld.Apart, Fld.base, qState, qFaultCode, corePage, Queue.num] <;> omega
  have a2 : (qState lid q).Apart (qFaultPc lid q) := by cases q <;> simp [Fld.Apart, Fld.base, qState, qFaultPc, corePage, Queue.num] <;> omega
  have a3 : (qFaultCode lid q).Apart (qFaultPc lid q) := by cases q <;> simp [Fld.Apart, Fld.base, qFaultCode, qFaultPc, corePage, Queue.num]
  have hr : ∀ r, (State.signalFault lid r s).regs = s.regs := by
    intro r; unfold State.signalFault; split <;> rfl
  have hs : ∀ (u : State) r f, (State.signalFault lid r u).getF f = u.getF f := by
    intro u r f; unfold State.signalFault; split <;> rfl
  have ho : (((s.setF (qState lid q) 4).setF (qFaultCode lid q) code).setF (qFaultPc lid q) (s.getF (qPc lid q))).owner lid =
      s.owner lid := by
    rw [owner_setF_page _ _ (qFaultPc_ok ..) (by simp [qFaultPc, corePage]; omega),
      owner_setF_page _ _ (qFaultCode_ok ..) (by simp [qFaultCode, corePage]; omega),
      owner_setF_page _ _ (qState_ok ..) (by simp [qState, corePage]; omega)]
  unfold State.opFault
  dsimp only
  refine ⟨?_, ?_, ?_, ?_, ?_, ?_, ?_⟩
  · rw [hs, getF_setF_apart _ _ _ (qState_ok ..) (qFaultPc_ok ..) a2, getF_setF_apart _ _ _ (qState_ok ..) (qFaultCode_ok ..) a1,
      getF_setF_same _ _ (qState_ok ..)]; rfl
  · rw [hs, getF_setF_apart _ _ _ (qFaultCode_ok ..) (qFaultPc_ok ..) a3, getF_setF_same _ _ (qFaultCode_ok ..)]
    exact Nat.mod_eq_of_lt hc
  · rw [hs, getF_setF_same _ _ (qFaultPc_ok ..)]
    exact Nat.mod_eq_of_lt (getF_lt (qPc lid q))
  · intro f hf ha
    have h1 := ha (qState lid q) (by simp)
    have h2 := ha (qFaultCode lid q) (by simp)
    have h3 := ha (qFaultPc lid q) (by simp)
    rw [hs, getF_setF_apart _ _ _ hf (qFaultPc_ok ..) h3, getF_setF_apart _ _ _ hf (qFaultCode_ok ..) h2,
      getF_setF_apart _ _ _ hf (qState_ok ..) h1]
  · have h1 : RegsOnly [qState lid q, qFaultCode lid q, qFaultPc lid q] s
        (((s.setF (qState lid q) 4).setF (qFaultCode lid q) code).setF (qFaultPc lid q) (s.getF (qPc lid q))) :=
      ((regsOnly_setF _ _ (qState_ok ..) (by simp)).trans (regsOnly_setF _ _ (qFaultCode_ok ..) (by simp))).trans
        (regsOnly_setF _ _ (qFaultPc_ok ..) (by simp))
    generalize ((s.setF (qState lid q) 4).setF (qFaultCode lid q) code).setF (qFaultPc lid q) (s.getF (qPc lid q)) = u at h1
    obtain ⟨h2, h3⟩ := signalFault_rest lid ⟨code, lid, q.num, s.getF (qPc lid q), false⟩ u
    refine h2.trans ?_
    rw [h3]
    generalize (State.signalFault lid _ u).parts = x
    obtain ⟨h1, -⟩ := h1
    generalize u.regs = r at h1 ⊢
    rw [h1]
  · intro p hp
    unfold State.signalFault
    rw [ho, hp]
    simp
  · intro p hp
    unfold State.signalFault
    rw [ho]
    split
    · rename_i p' h'
      exact part_modPart_ne _ fun e => hp (by rw [h', e])
    · rfl

end Sys2Proof.Machine
end

