-- ==== Sys2Proof/Laws/SharedHost.lean ====
section
/-!
SUPPORT. What the shared operations of the host side can do, once for each: host accesses, PAT and checkpoint commands,
heats, monitor lines, ignored accesses, and writes of memory without words in error.
-/
namespace Sys2Proof.Machine

variable {s : State}

/-! ### Ignored accesses (R411) -/

theorem sIgn_ok : sIgnored.Ok ∧ sIgnCause.Ok ∧ sIgnCxl.Ok ∧ sIgnWrite.Ok ∧ sIgnAddr.Ok := by
  simp [Fld.Ok, sIgnored, sIgnCause, sIgnCxl, sIgnWrite, sIgnAddr]

theorem sIgn_apart : sIgnored.Apart sIgnCause ∧ sIgnored.Apart sIgnCxl ∧ sIgnored.Apart sIgnWrite ∧ sIgnored.Apart sIgnAddr ∧
    sIgnCause.Apart sIgnCxl ∧ sIgnCause.Apart sIgnWrite ∧ sIgnCause.Apart sIgnAddr := by
  simp [Fld.Apart, Fld.base, sIgnored, sIgnCause, sIgnCxl, sIgnWrite, sIgnAddr]

/-- An ignored access is counted, its cause recorded, and nothing but the record changes. -/
theorem ignored_spec {cause : Nat} (hc : cause < 256) (cxl write : Bool) (a : Nat) (s : State) :
    (s.ignored cause cxl write a).getF sIgnored = satAdd 64 (s.getF sIgnored) 1 ∧
      (s.ignored cause cxl write a).getF sIgnCause = cause ∧
      RegsOnly [sIgnored, sIgnCause, sIgnCxl, sIgnWrite, sIgnAddr] s (s.ignored cause cxl write a) := by
  obtain ⟨o1, o2, o3, o4, o5⟩ := sIgn_ok
  obtain ⟨a12, a13, a14, a15, a23, a24, a25⟩ := sIgn_apart
  refine ⟨?_, ?_, ?_⟩
  · unfold State.ignored
    rw [getF_setF_apart _ _ _ o1 o5 a15, getF_setF_apart _ _ _ o1 o4 a14, getF_setF_apart _ _ _ o1 o3 a13,
      getF_setF_apart _ _ _ o1 o2 a12, getF_incF_same _ _ o1]
    rfl
  · unfold State.ignored
    rw [getF_setF_apart _ _ _ o2 o5 a25, getF_setF_apart _ _ _ o2 o4 a24, getF_setF_apart _ _ _ o2 o3 a23,
      getF_setF_same _ _ o2]
    exact Nat.mod_eq_of_lt hc
  · unfold State.ignored
    exact ((((regsOnly_incF _ _ o1 (by simp)).trans (regsOnly_setF _ _ o2 (by simp))).trans
      (regsOnly_setF _ _ o3 (by simp))).trans (regsOnly_setF _ _ o4 (by simp))).trans (regsOnly_setF _ _ o5 (by simp))

/-! ### Host accesses (R402, R495) -/

/-- A host access acts, or is withheld by LIMITED, ignored and counted. -/
theorem hostAct_cases (write : Bool) (o : Nat) (f : State → State) (s : State) :
    s.hostAct write o f = f s ∧ (s.onF sLimited && withheld o) = false ∨
      s.hostAct write o f = s.ignored 0x03 false write o ∧ (s.onF sLimited && withheld o) = true := by
  unfold State.hostAct
  cases s.onF sLimited && withheld o <;> simp

/-- Outside LIMITED a host access acts. -/
theorem hostAct_open (h : s.onF sLimited = false) (write : Bool) (o : Nat) (f : State → State) :
    s.hostAct write o f = f s := by
  simp [State.hostAct, h]

/-- A command that a fatal condition stops acts, or is ignored with its cause, or is withheld. -/
theorem aliveAct_cases (cause : Nat) (write : Bool) (o : Nat) (f : State → State) (s : State) :
    s.aliveAct cause write o f = f s ∧ s.onF sFatal = false ∨
      s.aliveAct cause write o f = s.ignored cause false write o ∧ s.onF sFatal = true ∨
      s.aliveAct cause write o f = s.ignored 0x03 false write o ∧ s.onF sLimited = true := by
  unfold State.aliveAct
  rcases hostAct_cases write o (fun s => if s.onF sFatal then s.ignored cause false write o else f s) s with h | h
  · rw [h.1]
    cases s.onF sFatal
    · simp
    · simp
  · exact .inr (.inr ⟨h.1, by have := h.2; simp only [Bool.and_eq_true] at this; exact this.1⟩)

/-- Outside LIMITED and without a fatal condition it acts. -/
theorem aliveAct_open (h : s.onF sLimited = false) (hf : s.onF sFatal = false) (cause : Nat) (write : Bool) (o : Nat)
    (f : State → State) : s.aliveAct cause write o f = f s := by
  simp [State.aliveAct, hostAct_open h, hf]

/-- A PAT command acts when its condition holds (R318). -/
theorem patCommand_acts (h : s.onF sLimited = false) (hf : s.onF sFatal = false) (op : Nat) {ok : State → Bool}
    (ho : ok s = true) (f : State → State) : s.patCommand op ok f = f s := by
  simp [State.patCommand, hostAct_open h, hf, ho]

/-- A PAT command whose condition does not hold, or after a fatal condition, is ignored and named (R318, R411). -/
theorem patCommand_ignored (h : s.onF sLimited = false) (op : Nat) {ok : State → Bool}
    (ho : s.onF sFatal = true ∨ ok s = false) (f : State → State) : s.patCommand op ok f = s.patIgnored op := by
  rw [State.patCommand, hostAct_open h, if_pos]
  rcases ho with ho | ho <;> simp [ho]

/-- A checkpoint command is taken when nothing speaks against it, else refused with its status (R292, R297). -/
theorem ckCommand_open (h : s.onF sLimited = false) (hf : s.onF sFatal = false) (p : Nat) (check : State → Nat)
    (f : State → State) : s.ckCommand p check f = if check s = 0 then f s else (s.ckRead p (check s)).ckRefuse p (check s) := by
  simp [State.ckCommand, aliveAct_open h hf]

/-! ### Heats (R443, R465) -/

/-- A heat acts only as the heat in progress. -/
theorem inHeat_acts {h : Nat} (hr : s.heatRunning = some h) (hs : s.pwr.stopped = false) (f : State → State) :
    s.inHeat h f = f s := by
  simp [State.inHeat, hr, hs]

/-- Any other heat changes nothing. -/
theorem inHeat_other {h : Nat} (hr : s.heatRunning ≠ some h) (f : State → State) : s.inHeat h f = s := by
  simp [State.inHeat, hr]

/-! ### Monitor lines (R503, R504) -/

/-- A management interface acts while the always-on domain is out of reset. -/
theorem managed_aon (h : s.pwr.aon = true) (f : State → State) : s.managed f = f s := by
  simp [State.managed, h]

/-- A line acts while no command is in progress, and is discarded else or before the always-on domain runs. -/
theorem line_cases (f : State → State) (s : State) :
    s.line f = f s ∧ s.pwr.aon = true ∧ s.monBusy = false ∨ s.line f = s ∧ (s.pwr.aon = false ∨ s.monBusy = true) := by
  unfold State.line State.managed
  cases ha : s.pwr.aon <;> cases hb : s.monBusy <;> simp [hb]

/-- A command passes its checks, or is answered with the code of the first that fails. -/
theorem checked_cases (bad locked wrong : Bool) (f : State → State) (s : State) :
    s.checked bad locked wrong f = f s ∧ bad = false ∧ locked = false ∧ wrong = false ∨
      ∃ c, (c = 2 ∨ c = 3 ∨ c = 4) ∧ s.checked bad locked wrong f = s.fail c := by
  unfold State.checked
  cases bad
  · cases locked
    · cases wrong
      · exact .inl ⟨rfl, rfl, rfl, rfl⟩
      · exact .inr ⟨4, by simp, rfl⟩
    · exact .inr ⟨3, by simp, rfl⟩
  · exact .inr ⟨2, by simp, rfl⟩

/-! ### Writes that meet no word in error (R352) -/

/-- A memory that lists no syndrome has no word in error. -/
theorem err_of_clean {m : Mem} (h : m.bad = []) (wb w : Nat) : m.err wb w = none := by
  simp [Mem.err, Mem.syn, h, tblGet, classify]

/-- With no word of the memory in error, no partial write meets one. -/
theorem partials_of_clean {m : Mem} (h : m.bad = []) (wb a n : Nat) {p : Option WordErr → Bool} (hp : p none = false) :
    m.partials wb a n p = [] := by
  unfold Mem.partials
  rw [List.filter_eq_nil_iff]
  intro w _
  simp [err_of_clean h, hp]

/-- A write of a core memory without words in error only stores its bytes. -/
theorem wr_of_clean {lid : Nat} {m : CoreMem} (h : ((s.core lid).mem m).bad = []) (a : Nat) (bs : List Byte) :
    s.wr lid m a bs = s.modCore lid fun c => c.setMem m ((c.mem m).write (cmWb m) a bs) := by
  unfold State.wr
  dsimp only
  rw [partials_of_clean h _ _ _ rfl, partials_of_clean h _ _ _ rfl]
  rfl

/-- A write of HBM without words in error only stores its bytes. -/
theorem wrHbm_of_clean (h : s.hbm.bad = []) (a : Nat) (bs : List Byte) : s.wrHbm a bs = s.putHbm a bs := by
  unfold State.wrHbm
  dsimp only
  rw [partials_of_clean h _ _ _ rfl, partials_of_clean h _ _ _ rfl]
  rfl

end Sys2Proof.Machine
end

