-- ==== Sys2Proof/Tests/Slice0.lean ====
section
/-!
SUPPORT. Tests of the model against the spec: ill-formed commands, the spec's worked values, and for every statement a state
and operands that meet its hypotheses, clause by clause, with what the command does there.
-/
namespace Sys2Proof.Tests
open Sys2Proof Sys2Proof.Machine
set_option Elab.async false

/-! ### Helpers -/

/-- The state that a command leaves. -/
def run (c : Instr) (s : State) : State :=
  match exec c s with
  | .next t => t
  | _ => s

/-- Sets register fields. -/
def put (l : List (Fld × Nat)) (s : State) : State := forAll l (fun x t => t.setF x.1 x.2) s

/-- Whether fields hold values. -/
def has (l : List (Fld × Nat)) (s : State) : Bool := l.all fun x => s.getF x.1 == x.2

/-- Partition 0 armed on die 0; core 0's queues in STATE 1 with all of op memory as region. -/
def base : State :=
  put ([(ppState 0, 1), (ppDies 0, 1)] ++ allQueues.flatMap fun q => [(qState 0 q, 1), (qLimit 0 q, 4095)]) State.reset

/-- An op word from queue, opcode and fields by first bit. -/
def opw (q : Queue) (code : Nat) (fs : List (Nat × Nat)) : OpWord :=
  BitVec.ofNat 128 (2 ^ 118 * q.num + 2 ^ 120 * code + (fs.map fun f => f.2 * 2 ^ f.1).sum)

/-- Core 0 with an op word at op index `i`. -/
def opAt (i : Nat) (op : OpWord) (s : State) : State := s.wr 0 .op (16 * i) (natLe 16 op.toNat)

/-- `base` with an op word at the head of every queue of core 0. -/
def one (op : OpWord) : State := opAt 0 op base

/-- AtHead for core 0, evaluated. -/
def headB (s : State) (q : Queue) (op : OpWord) : Bool :=
  s.issues 0 q && s.inRegion 0 q (s.getF (qPc 0 q)) && decide (s.getF (qPc 0 q) < 4095) && !(s.core 0).past.contains q.num &&
    (s.core 0).op.badWords 8 (16 * s.getF (qPc 0 q)) 16 == [] && s.opWord 0 (s.getF (qPc 0 q)) == op && opQueue op == q.num &&
    queueHas q (opOpcode op)

theorem atHead {s : State} {q : Queue} {op : OpWord} (h : headB s q op = true) : AtHead s 0 q op := by
  simp only [headB, Bool.and_eq_true, decide_eq_true_eq, beq_iff_eq, Bool.not_eq_true', List.contains_eq_mem, decide_eq_false_iff_not] at h
  obtain ⟨⟨⟨⟨⟨⟨⟨a, b⟩, c⟩, d⟩, e⟩, f⟩, g⟩, i⟩ := h
  exact ⟨by decide, a, b, c, d, e, f, g, i⟩

theorem noWaiter {s : State} {n : Nat}
    (h : (allQueues.all fun q => !(s.getF (qState 0 q) == 2 && s.getF (qWctr 0 q) == n)) = true) : NoWaiter s 0 n := by
  intro q hq
  have := List.all_eq_true.1 h q (by cases q <;> decide)
  simp [hq.1, hq.2] at this

theorem clean {s : State} {lid : Nat}
    (h : ((s.core lid).lace.bad, (s.core lid).tile.bad, (s.core lid).op.bad) = ([], [], [])) : CleanCore s lid := by
  simp only [Prod.mk.injEq] at h
  intro m
  cases m
  · exact h.1
  · exact h.2.1
  · exact h.2.2

theorem noLaunch {s : State} {n : Nat} (h : s.owner 0 = some 0 ∧ s.isLaunchCtr 0 n = false) :
    ∀ p, s.owner 0 = some p → s.isLaunchCtr p n = false := by
  intro p hp
  rw [h.1] at hp
  cases hp
  exact h.2

theorem noMoves {s : State} (h : (s.core 0).moves = []) : ∀ k, (s.core 0).move k = none := by
  intro k
  simp only [Core.move, h]
  rfl

theorem idle {s : State} {l : Nat} (h : ((s.stop l).fifo, (s.stop l).outbound, (s.stop l).arrivals) = ([], [], [])) : StopIdle s l := by
  simp only [Prod.mk.injEq] at h
  exact h

theorem noWaiters {s : State} {lid : Nat} (h : (allQueues.all fun q => !(s.getF (qState lid q) == 2)) = true) : ∀ n, NoWaiter s lid n := by
  intro n q hq
  have := List.all_eq_true.1 h q (by cases q <;> decide)
  simp [hq.1] at this

/-! ### The machine, control and counter ops -/

theorem test_front : { base with pending := [.nop 0 .m, .halt 0 .m] }.pending = .nop 0 .m :: [.halt 0 .m] ∧ State.reset.pending = [] ∧
    (match step State.reset with | .next t => decide (t.tick = 1) | _ => false) = true := by decide +kernel

theorem test_canonical : base.wf = true ∧ (match step { base with pending := [.halt 0 .m] } with
    | .next t => t.wf && t.pending == [] && t.getF (qState 0 .m) == 1
    | _ => false) = true := by decide +kernel

theorem test_nop : AtHead (one (opw .v 0 [])) 0 .v (opw .v 0 []) ∧ bitsOf (opw .v 0 []) 0 118 = 0 ∧
    opOpcode (opw .v 0 []) = 0 ∧ has [(qPc 0 .v, 1), (qOps 0 .v, 1)] (run (.nop 0 .v) (one (opw .v 0 []))) = true :=
  ⟨atHead (by decide +kernel), by decide +kernel⟩

theorem test_halt : AtHead (one (opw .x 0x0A [])) 0 .x (opw .x 0x0A []) ∧ bitsOf (opw .x 0x0A []) 0 118 = 0 ∧
    opOpcode (opw .x 0x0A []) = 0x0A ∧
    has [(qPc 0 .x, 0), (qOps 0 .x, 1), (qState 0 .x, 3)] (run (.halt 0 .x) (one (opw .x 0x0A []))) = true :=
  ⟨atHead (by decide +kernel), by decide +kernel⟩

/-- ADD of 65,535 to counter 63, at 0 and at 1: the sum fits, and it does not. -/
theorem test_ctrAdd : ∃ (op : OpWord),
    op = opw .m 1 [(0, 63), (6, 65535)] ∧
    AtHead (one op) 0 .m op ∧
    AtHead (put [(cCtr 0 63, 1)] (one op)) 0 .m op ∧ NoWaiter (one op) 0 (opCtr op) ∧
    NoWaiter (put [(cCtr 0 63, 1)] (one op)) 0 (opCtr op) ∧ ((one op).allRetired 0 .m = true ∧ opTarget 0 op = 0 ∧ opOpcode op = 1 ∧
      opReserved [(0, 55)] op = false ∧ opN op = 65535 ∧ (one op).getF (cCtr 0 (opCtr op)) + opN op ≤ 65535 ∧
      has [(cCtr 0 63, 65535), (qPc 0 .m, 1)] (run (.ctrAdd 0 .m) (one op)) = true) ∧
    65535 < (put [(cCtr 0 63, 1)] (one op)).getF (cCtr 0 (opCtr op)) + opN op ∧
    has [(cCtr 0 63, 65535), (qPc 0 .m, 0), (qState 0 .m, 4), (qFaultCode 0 .m, 0x43)]
      (run (.ctrAdd 0 .m) (put [(cCtr 0 63, 1)] (one op))) = true :=
  ⟨_, rfl,
    atHead (by decide +kernel), atHead (by decide +kernel), noWaiter (by decide +kernel), noWaiter (by decide +kernel),
    by decide +kernel⟩

theorem test_ctrSet : ∃ (op : OpWord),
    op = opw .s 2 [(0, 5), (6, 7)] ∧
    AtHead (one op) 0 .s op ∧ NoWaiter (one op) 0 (opCtr op) ∧
    (one op).allRetired 0 .s = true ∧ opTarget 0 op = 0 ∧ opOpcode op = 2 ∧ opReserved [(0, 35)] op = false ∧
    has [(cCtr 0 5, 7), (qPc 0 .s, 1)] (run (.ctrSet 0 .s) (one op)) = true :=
  ⟨_, rfl,
    atHead (by decide +kernel), noWaiter (by decide +kernel), by decide +kernel⟩

/-- ADD and SET to core 255 of the partition, and ADD to core 9 of package 4,095, which the link port plan holds. -/
theorem test_ctrAdd_other : ∃ (op : OpWord),
    op = opw .m 1 [(0, 3), (6, 2), (22, 1), (24, 255)] ∧
    AtHead (one op) 0 .m op ∧
    (one op).allRetired 0 .m = true ∧ opOpcode op = 1 ∧ opReserved [(0, 55)] op = false ∧ opN op ≠ 0 ∧ opTarget 0 op = 1 ∧
    (one op).samePart 0 (bitsOf op 24 11) = true ∧ (one op).fifoRoom 0 1 = true ∧
    ((run (.ctrAdd 0 .m) (one op)).stop 0).fifo = [.sync 0 (.counter 255 3 2 false 0 0 0)] ∧
    ((one op).modStop 0 fun t => { t with fifo := List.replicate 16 (.notices 0 [] []) }).fifoRoom 0 1 = false :=
  ⟨_, rfl,
    atHead (by decide +kernel), by decide +kernel⟩

theorem test_ctrAdd_package : ∃ (op : OpWord) (s : State),
    op = opw .x 1 [(0, 3), (6, 2), (22, 3), (24, 9), (43, 4095)] ∧ s = put [(⟨0x00606000 + 8 * 63, 63, 1⟩, 1)] (one op) ∧
    AtHead s 0 .x op ∧ s.allRetired 0 .x = true ∧ opOpcode op = 1 ∧
    opReserved [(0, 55)] op = false ∧ opN op ≠ 0 ∧ opTarget 0 op = 3 ∧ s.pkgOk 0 (bitsOf op 43 12) = true ∧
    s.fifoRoom 0 1 = true ∧ ((run (.ctrAdd 0 .x) s).stop 0).fifo = [.sync 0 (.counter 9 3 2 false 2 0 4095)] :=
  ⟨_, _, rfl, rfl,
    atHead (by decide +kernel), by decide +kernel⟩

theorem test_ctrSet_other : ∃ (op : OpWord),
    op = opw .m 2 [(0, 3), (6, 2), (22, 1), (24, 255)] ∧
    AtHead (one op) 0 .m op ∧
    (one op).allRetired 0 .m = true ∧ opOpcode op = 2 ∧ opReserved [(0, 35)] op = false ∧ opTarget 0 op = 1 ∧
    (one op).samePart 0 (bitsOf op 24 11) = true ∧ (one op).fifoRoom 0 1 = true ∧
    ((run (.ctrSet 0 .m) (one op)).stop 0).fifo = [.sync 0 (.counter 255 3 2 true 0 0 0)] :=
  ⟨_, rfl,
    atHead (by decide +kernel), by decide +kernel⟩

/-- TAKE, LOOK and DEC of 5 from counter 63, at 5 and at 4. -/
theorem test_ctrTake : ∃ (op : OpWord) (s u : State),
    op = opw .v 3 [(0, 63), (6, 5)] ∧ s = put [(cCtr 0 63, 5)] (one op) ∧ u = put [(cCtr 0 63, 4)] (one op) ∧
    AtHead s 0 .v op ∧ AtHead u 0 .v op ∧ opN op ≠ 0 ∧ opOpcode op = 3 ∧
    opReserved [(0, 22), (112, 1)] op = false ∧ (s.owner 0 = some 0 ∧ s.isLaunchCtr 0 (opCtr op) = false) ∧
    opN op ≤ s.getF (cCtr 0 (opCtr op)) ∧ has [(cCtr 0 63, 0), (qPc 0 .v, 1)] (run (.ctrTake 0 .v) s) = true ∧
    u.getF (cCtr 0 (opCtr op)) < opN op ∧
    has [(cCtr 0 63, 4), (qPc 0 .v, 0), (qState 0 .v, 2), (qWctr 0 .v, 63)] (run (.ctrTake 0 .v) u) = true :=
  ⟨_, _, _, rfl, rfl, rfl,
    atHead (by decide +kernel), atHead (by decide +kernel), by decide +kernel⟩

theorem test_ctrLook : ∃ (op : OpWord) (s u : State),
    op = opw .v 4 [(0, 63), (6, 5)] ∧ s = put [(cCtr 0 63, 5)] (one op) ∧ u = put [(cCtr 0 63, 4)] (one op) ∧
    AtHead s 0 .v op ∧ AtHead u 0 .v op ∧ opN op ≠ 0 ∧ opOpcode op = 4 ∧
    opReserved [(0, 22), (112, 1)] op = false ∧ opN op ≤ s.getF (cCtr 0 (opCtr op)) ∧
    has [(cCtr 0 63, 5), (qPc 0 .v, 1)] (run (.ctrLook 0 .v) s) = true ∧ u.getF (cCtr 0 (opCtr op)) < opN op ∧
    has [(qPc 0 .v, 0), (qState 0 .v, 2), (qWctr 0 .v, 63)] (run (.ctrLook 0 .v) u) = true :=
  ⟨_, _, _, rfl, rfl, rfl,
    atHead (by decide +kernel), atHead (by decide +kernel), by decide +kernel⟩

theorem test_ctrDec : ∃ (op : OpWord) (s u : State),
    op = opw .v 5 [(0, 63), (6, 5)] ∧ s = put [(cCtr 0 63, 5)] (one op) ∧ u = put [(cCtr 0 63, 4)] (one op) ∧
    AtHead s 0 .v op ∧ AtHead u 0 .v op ∧ NoWaiter s 0 (opCtr op) ∧ opN op ≠ 0 ∧
    opOpcode op = 5 ∧ opReserved [(0, 22)] op = false ∧ opN op ≤ s.getF (cCtr 0 (opCtr op)) ∧
    has [(cCtr 0 63, 0), (qPc 0 .v, 1)] (run (.ctrDec 0 .v) s) = true ∧ u.getF (cCtr 0 (opCtr op)) < opN op ∧
    has [(cCtr 0 63, 4), (qPc 0 .v, 0), (qState 0 .v, 4), (qFaultCode 0 .v, 0x42)] (run (.ctrDec 0 .v) u) = true :=
  ⟨_, _, _, rfl, rfl, rfl,
    atHead (by decide +kernel), atHead (by decide +kernel), noWaiter (by decide +kernel), by decide +kernel⟩

/-- An ADD of 3 to counter 1 on the X queue with a LOOK of 3 waiting on V and a TAKE of 2 on S. -/
theorem test_released : ∃ (op look take : OpWord) (s : State),
    op = opw .x 1 [(0, 1), (6, 3)] ∧ look = opw .v 4 [(0, 1), (6, 3)] ∧ take = opw .s 3 [(0, 1), (6, 2)] ∧ s = put [(qPc 0 .v, 1), (qPc 0 .s, 2), (qState 0 .v, 2), (qState 0 .s, 2), (qWctr 0 .v, 1), (qWctr 0 .s, 1)] (opAt 2 take (opAt 1 look (one op))) ∧
    AtHead s 0 .x op ∧ s.allRetired 0 .x = true ∧
    opOpcode op = 1 ∧ opReserved [(0, 55)] op = false ∧ opN op ≠ 0 ∧ opTarget 0 op = 0 ∧
    s.getF (cCtr 0 (opCtr op)) + opN op ≤ 65535 ∧ s.opWord 0 (s.getF (qPc 0 .v)) = look ∧ opOpcode look = 4 ∧
    s.getF (qState 0 .v) = 2 ∧ s.getF (qWctr 0 .v) = opCtr op ∧ s.opWord 0 (s.getF (qPc 0 .s)) = take ∧ opOpcode take = 3 ∧
    s.getF (qState 0 .s) = 2 ∧ s.getF (qWctr 0 .s) = opCtr op ∧ opN look ≤ s.getF (cCtr 0 (opCtr op)) + opN op ∧
    opN take ≤ s.getF (cCtr 0 (opCtr op)) + opN op ∧ s.getF (qState 0 .m) ≠ 2 ∧ s.isLaunchCtr 0 (opCtr op) = false :=
  ⟨_, _, _, _, rfl, rfl, rfl, rfl,
    atHead (by decide +kernel), by decide +kernel⟩

/-- LOOP of 65,536 passes to an ENDLOOP at 2, of none, to an op that is none, with four levels open, and of 65,537 passes. -/
theorem test_loop : ∃ (op zero big : OpWord) (s : State),
    op = opw .m 6 [(0, 65536), (23, 2)] ∧ zero = opw .m 6 [(23, 2)] ∧ big = opw .m 6 [(0, 65537), (23, 2)] ∧ s = opAt 2 (opw .m 7 []) (one op) ∧
    AtHead s 0 .m op ∧
    AtHead (opAt 0 zero s) 0 .m zero ∧ AtHead (one op) 0 .m op ∧ AtHead (put [(qDepth 0 .m, 4)] s) 0 .m op ∧
    AtHead (one big) 0 .m big ∧ opOpcode op = 6 ∧ opReserved [(0, 35), (112, 2)] op = false ∧
    (bitOf op 113 || bitOf op 112 || decide (bitsOf op 0 17 ≤ 65536)) = true ∧ s.inRegion 0 .m (bitsOf op 23 12) = true ∧
    (s.core 0).op.badWords 8 (16 * bitsOf op 23 12) 16 = [] ∧ opOpcode (s.opWord 0 (bitsOf op 23 12)) = 7 ∧
    loopCount 0 op s = 65536 ∧ loopCount 0 zero (opAt 0 zero s) = 0 ∧ bitOf zero 112 = false ∧
    opOpcode ((one op).opWord 0 2) ≠ 7 ∧ 65536 < bitsOf big 0 17 ∧ opReserved [(0, 35), (112, 2)] big = false ∧
    has [(qPc 0 .m, 1), (qDepth 0 .m, 1), (qRemain 0 .m 0, 65536), (qStart 0 .m 0, 1)] (run (.loop 0 .m) s) = true ∧
    has [(qPc 0 .m, 3), (qDepth 0 .m, 0)] (run (.loop 0 .m) (opAt 0 zero s)) = true ∧
    has [(qFaultCode 0 .m, 0x47)] (run (.loop 0 .m) (one op)) = true ∧
    has [(qFaultCode 0 .m, 0x45)] (run (.loop 0 .m) (put [(qDepth 0 .m, 4)] s)) = true ∧
    has [(qFaultCode 0 .m, 0x41)] (run (.loop 0 .m) (one big)) = true :=
  ⟨_, _, _, _, rfl, rfl, rfl, rfl,
    atHead (by decide +kernel), atHead (by decide +kernel), atHead (by decide +kernel), atHead (by decide +kernel),
    atHead (by decide +kernel), by decide +kernel⟩

/-- ENDLOOP with two passes left, under FOREVER, in its last pass, and with no level open. -/
theorem test_endloop : ∃ (op : OpWord) (l : List (Fld × Nat)) (s u v : State),
    op = opw .m 7 [] ∧ l = [(qPc 0 .m, 3), (qDepth 0 .m, 2), (qStart 0 .m 0, 1), (qRemain 0 .m 1, 9), (qForever 0 .m 1, 1)] ∧ s = put (l ++ [(qRemain 0 .m 0, 2)]) (opAt 3 op base) ∧ u = put (l ++ [(qForever 0 .m 0, 1)]) (opAt 3 op base) ∧ v = put (l ++ [(qRemain 0 .m 0, 1)]) (opAt 3 op base) ∧
    AtHead s 0 .m op ∧ AtHead u 0 .m op ∧ AtHead v 0 .m op ∧
    AtHead (one op) 0 .m op ∧ opOpcode op = 7 ∧ bitsOf op 0 118 = 0 ∧ s.getF (qDepth 0 .m) ≠ 0 ∧ 1 < s.getF (qRemain 0 .m 0) ∧
    u.getF (qForever 0 .m 0) = 1 ∧ v.getF (qForever 0 .m 0) = 0 ∧ v.getF (qRemain 0 .m 0) ≤ 1 ∧ (one op).getF (qDepth 0 .m) = 0 ∧
    has [(qPc 0 .m, 1), (qDepth 0 .m, 2), (qRemain 0 .m 0, 1)] (run (.endloop 0 .m) s) = true ∧
    has [(qPc 0 .m, 1), (qDepth 0 .m, 2), (qRemain 0 .m 0, 0)] (run (.endloop 0 .m) u) = true ∧
    has [(qPc 0 .m, 4), (qDepth 0 .m, 1), (qRemain 0 .m 0, 9), (qForever 0 .m 0, 1), (qRemain 0 .m 1, 0)] (run (.endloop 0 .m) v) = true ∧
    has [(qFaultCode 0 .m, 0x45)] (run (.endloop 0 .m) (one op)) = true :=
  ⟨_, _, _, _, _, rfl, rfl, rfl, rfl, rfl,
    atHead (by decide +kernel), atHead (by decide +kernel), atHead (by decide +kernel), atHead (by decide +kernel),
    by decide +kernel⟩

/-- SELECT of entry 8, in the second table word, which pops one level; and of entry 9 with MAX 8. -/
theorem test_select : ∃ (op e : OpWord) (s u : State),
    op = opw .s 8 [(0, 2), (6, 8)] ∧ e = BitVec.ofNat 128 (77 + 4096) ∧ s = put [(cCtr 0 2, 8), (qDepth 0 .s, 1), (qRemain 0 .s 0, 3)] (opAt 2 e (one op)) ∧ u = put [(cCtr 0 2, 9)] (one op) ∧
    AtHead s 0 .s op ∧ AtHead u 0 .s op ∧ opOpcode op = 8 ∧ opReserved [(0, 12)] op = false ∧ bitsOf op 6 6 < u.getF (cCtr 0 2) ∧
    s.getF (cCtr 0 (bitsOf op 0 6)) ≤ bitsOf op 6 6 ∧ s.inRegion 0 .s 2 = true ∧ (s.core 0).op.badWords 8 32 16 = [] ∧
    e = s.opWord 0 2 ∧ bitOf e 15 = false ∧ bitsOf e 12 3 ≤ s.getF (qDepth 0 .s) ∧
    has [(qPc 0 .s, 77), (qDepth 0 .s, 0), (qRemain 0 .s 0, 0), (qOps 0 .s, 1)] (run (.select 0 .s) s) = true ∧
    has [(qFaultCode 0 .s, 0x46), (qPc 0 .s, 0)] (run (.select 0 .s) u) = true :=
  ⟨_, _, _, _, rfl, rfl, rfl, rfl,
    atHead (by decide +kernel), atHead (by decide +kernel), by decide +kernel⟩

/-- A fetch one past the region, of a poisoned word, of another queue's op. -/
theorem test_fetch : ∃ (s u v : State),
    s = put [(qLimit 0 .m, 3), (qPc 0 .m, 4)] base ∧ (u = base.modCore 0 fun c => { c with op := c.op.poison 8 0 8 }) ∧ v = one (opw .v 0 []) ∧
    s.issues 0 .m = true ∧ s.inRegion 0 .m (s.getF (qPc 0 .m)) = false ∧ u.issues 0 .m = true ∧ u.inRegion 0 .m 0 = true ∧
    (u.core 0).past = [] ∧ u.rdBad 0 .op 0 16 = true ∧ v.issues 0 .m = true ∧ v.inRegion 0 .m 0 = true ∧ (v.core 0).past = [] ∧
    (v.core 0).op.badWords 8 0 16 = [] ∧ opQueue (v.opWord 0 0) ≠ Queue.num .m ∧
    has [(qFaultCode 0 .m, 0x47), (qFaultPc 0 .m, 4), (qState 0 .m, 4)] (run (.nop 0 .m) s) = true ∧
    has [(qFaultCode 0 .m, 0x4A)] (run (.nop 0 .m) u) = true ∧ has [(qFaultCode 0 .m, 0x40)] (run (.nop 0 .m) v) = true :=
  ⟨_, _, _, rfl, rfl, rfl,
    by decide +kernel⟩

/-- A TAKE that has waited LIMIT ticks; one with LIMIT 0; one in a held partition. -/
theorem test_watchdog : ∃ (s u v : State),
    s = put [(qState 0 .s, 2), (qWdog 0 .s, 5), (qWticks 0 .s, 5)] (one (opw .s 3 [(6, 1)])) ∧ u = put [(qWdog 0 .s, 0)] s ∧ (v = s.modPart 0 fun p => { p with hold := some {} }) ∧
    s.owner 0 = some 0 ∧
    s.getF (ppState 0) = 1 ∧ s.getF (qState 0 .s) = 2 ∧ (s.part 0).hold = none ∧ s.getF (qWdog 0 .s) ≠ 0 ∧
    bitOf (s.opWord 0 (s.getF (qPc 0 .s))) 112 = false ∧ s.getF (qWdog 0 .s) ≤ s.getF (qWticks 0 .s) ∧
    has [(qFaultCode 0 .s, 0x49), (qState 0 .s, 4)] (run (.syncWatchdog 0 .s) s) = true ∧ u.getF (qWdog 0 .s) = 0 ∧
    u.getF (qState 0 .s) = 2 ∧ (run (.syncWatchdog 0 .s) u).regs = u.regs ∧ (v.part 0).hold.isSome = true ∧ v.owner 0 = some 0 ∧
    v.getF (ppState 0) = 1 ∧ v.getF (qState 0 .s) = 2 ∧ (run (.syncWatchdog 0 .s) v).regs = v.regs :=
  ⟨_, _, _, rfl, rfl, rfl,
    by decide +kernel⟩

/-- BAR.ARRIVE on barrier 63 of the partition; at one that is not valid; before its release. -/
theorem test_barArrive : ∃ (op : OpWord) (s u : State),
    op = opw .s 9 [(0, 63), (6, 5), (12, 15)] ∧ s = put [(rbValid 63, 1)] (one op) ∧ u = put [(cArrived 0, 2 ^ 63)] s ∧
    AtHead s 0 .s op ∧ AtHead (one op) 0 .s op ∧
    AtHead u 0 .s op ∧ s.allRetired 0 .s = true ∧ opOpcode op = 9 ∧ opReserved [(0, 16), (112, 1)] op = false ∧
    (one op).getF (rbValid (bitsOf op 0 6)) = 0 ∧ s.getF (rbValid (bitsOf op 0 6)) = 1 ∧
    s.owner 0 = some (s.getF (rbPart (bitsOf op 0 6))) ∧ bitsOf op 12 4 ≠ 0 ∧ bitOf op 112 = false ∧
    Nat.testBit (s.getF (cArrived 0)) 63 = false ∧ (s.stop 0).arrivals = [] ∧ s.fifoRoom 0 1 = true ∧
    Nat.testBit (u.getF (cArrived 0)) 63 = true ∧ u.owner 0 = some (u.getF (rbPart (bitsOf op 0 6))) ∧
    has [(cArrived 0, 2 ^ 63), (qPc 0 .s, 1)] (run (.barArrive 0 .s) s) = true ∧
    ((run (.barArrive 0 .s) s).stop 0).fifo = [.sync 0 (.arrive 63 1 false)] ∧
    has [(qFaultCode 0 .s, 0x48)] (run (.barArrive 0 .s) u) = true ∧
    has [(qFaultCode 0 .s, 0x41)] (run (.barArrive 0 .s) (one op)) = true :=
  ⟨_, _, _, rfl, rfl, rfl,
    atHead (by decide +kernel), atHead (by decide +kernel), atHead (by decide +kernel), by decide +kernel⟩


/-! ### Moves -/

/-- A write of 3 units from the end of tile memory that begins 64 bytes before a multiple of 256, and a read into lace. -/
theorem test_xHbm : ∃ (op rd : OpWord) (s u : State),
    op = opw .x 0x80 [(0, 0xC0), (38, 0x7FF40), (58, 2), (115, 1)] ∧ rd = opw .x 0x80 [(0, 0x100), (38, 0xFFFC0), (113, 1)] ∧
    s = { one op with pat := { grants := [⟨0, 0, 4096, 0, false⟩] } } ∧ u = { one rd with pat := s.pat } ∧
    AtHead s 0 .x op ∧ AtHead u 0 .x rd ∧ (∀ k, (s.core 0).move k = none) ∧ StopIdle s 0 ∧ CleanCore s 0 ∧ opOpcode op = 0x80 ∧
    opReserved (hbmFields op) op = false ∧ xHaddr op % 64 = 0 ∧ xLoc op % 64 = 0 ∧ inMem false (xLoc op) (xHlen op) = true ∧
    bitOf op 112 = false ∧ s.owner 0 = some 0 ∧ s.granted 0 (bitOf op 115) (xHaddr op) (64 * xHlen op) = true ∧
    opReserved (hbmFields rd) rd = false ∧ inMem true (xLoc rd) (xHlen rd) = true ∧
    u.granted 0 (bitOf rd 115) (xHaddr rd) (64 * xHlen rd) = true ∧
    ((run (.xHbm 0) s).stop 0).fifo.head? = some (.hbm 0 0 true 0xC0 0 false 0 1 0 (List.replicate 64 0)) ∧
    ((run (.xHbm 0) u).stop 0).fifo = [.hbm 0 0 false 0x100 0 true 0xFFFC0 1 0 []] ∧
    has [(qPc 0 .x, 1), (qOps 0 .x, 0)] (run (.xHbm 0) s) = true :=
  ⟨_, _, _, _, rfl, rfl, rfl, rfl, atHead (by decide +kernel), atHead (by decide +kernel), noMoves (by decide +kernel),
    idle (by decide +kernel), clean (by decide +kernel), by decide +kernel⟩

theorem test_xSend : ∃ (op : OpWord) (s : State), op = opw .x 0x81 [(0, 0x7FF80), (20, 0xFFF80), (40, 1), (76, 255), (99, 63), (113, 1), (114, 1)] ∧
    s = one op ∧ AtHead s 0 .x op ∧ (∀ k, (s.core 0).move k = none) ∧ StopIdle s 0 ∧ CleanCore s 0 ∧ opOpcode op = 0x81 ∧
    opReserved sendFields op = false ∧ xSaddr op % 64 = 0 ∧ xDaddr op % 64 = 0 ∧
    inMem (bitOf op 112) (xSaddr op) (xLen op) = true ∧ inMem (bitOf op 113) (xDaddr op) (xLen op) = true ∧
    bitOf op 115 = false ∧ s.samePart 0 (bitsOf op 76 11) = true ∧
    ((run (.xSend 0) s).stop 0).fifo = [.send 0 0 255 false 0 true 0xFFF80 true true 63 0 (List.replicate 128 0)] :=
  ⟨_, _, rfl, rfl, atHead (by decide +kernel), noMoves (by decide +kernel), idle (by decide +kernel), clean (by decide +kernel),
    by decide +kernel⟩

/-- A misaligned X.HBM; one a unit past the end of tile memory; one without a grant. -/
theorem test_xHbm_faults : ∃ (a b c : OpWord) (s : State), a = opw .x 0x80 [(0, 32)] ∧ b = opw .x 0x80 [(38, 0x7FFC0), (58, 1)] ∧
    c = opw .x 0x80 [(0, 0x2DFFFFFFC0), (58, 1)] ∧ s = one (opw .x 0x80 []) ∧ AtHead (one a) 0 .x a ∧ AtHead (one b) 0 .x b ∧
    AtHead (one c) 0 .x c ∧ AtHead s 0 .x (opw .x 0x80 []) ∧ opReserved (hbmFields a) a = false ∧ xHaddr a % 64 ≠ 0 ∧
    opReserved (hbmFields b) b = false ∧ xHaddr b % 64 = 0 ∧ xLoc b % 64 = 0 ∧ inMem (bitOf b 113) (xLoc b) (xHlen b) = false ∧
    opReserved (hbmFields c) c = false ∧ 0x2E00000000 < xHaddr c + 64 * xHlen c ∧ s.owner 0 = some 0 ∧ s.pat.grants = [] ∧
    has [(qFaultCode 0 .x, 0x50)] (run (.xHbm 0) (one a)) = true ∧ has [(qFaultCode 0 .x, 0x51)] (run (.xHbm 0) (one b)) = true ∧
    has [(qFaultCode 0 .x, 0x51)] (run (.xHbm 0) (one c)) = true ∧ has [(qFaultCode 0 .x, 0x51)] (run (.xHbm 0) s) = true :=
  ⟨_, _, _, _, rfl, rfl, rfl, rfl, atHead (by decide +kernel), atHead (by decide +kernel), atHead (by decide +kernel),
    atHead (by decide +kernel), by decide +kernel⟩

/-- An X.SEND past the end of tile memory, to core 256 outside the partition, and to a package outside the link port plan. -/
theorem test_xSend_faults : ∃ (a b c : OpWord), a = opw .x 0x81 [(0, 0x7FFC0), (40, 1)] ∧ b = opw .x 0x81 [(76, 256)] ∧
    c = opw .x 0x81 [(87, 1), (115, 1)] ∧ AtHead (one a) 0 .x a ∧ AtHead (one b) 0 .x b ∧ AtHead (one c) 0 .x c ∧
    opReserved sendFields a = false ∧ inMem (bitOf a 112) (xSaddr a) (xLen a) = false ∧
    opReserved sendFields b = false ∧ (one b).samePart 0 (bitsOf b 76 11) = false ∧
    opReserved sendFields c = false ∧ (one c).pkgOk 0 (bitsOf c 87 12) = false ∧
    has [(qFaultCode 0 .x, 0x51)] (run (.xSend 0) (one a)) = true ∧ has [(qFaultCode 0 .x, 0x52)] (run (.xSend 0) (one b)) = true ∧
    has [(qFaultCode 0 .x, 0x52)] (run (.xSend 0) (one c)) = true :=
  ⟨_, _, _, rfl, rfl, rfl, atHead (by decide +kernel), atHead (by decide +kernel), atHead (by decide +kernel), by decide +kernel⟩

/-- An overlapping X.COPY of two units by 64 bytes, the last into the end of tile memory; a misaligned one; one while four moves
are in flight. -/
theorem test_xCopy : ∃ (op bad : OpWord) (s u : State), op = opw .x 0x82 [(0, 0x7FF40), (20, 0x7FF80), (40, 1)] ∧
    bad = opw .x 0x82 [(20, 32)] ∧ s = (one op).wr 0 .tile 0x7FF40 [9, 8] ∧
    u = (one op).modCore 0 (fun c => { c with moves := [(0, some ⟨op, 0, 0⟩), (1, some ⟨op, 0, 0⟩), (2, some ⟨op, 0, 0⟩), (3, some ⟨op, 0, 0⟩)] }) ∧
    AtHead s 0 .x op ∧ AtHead (one bad) 0 .x bad ∧ AtHead u 0 .x op ∧ CleanCore s 0 ∧ opOpcode op = 0x82 ∧
    opReserved [(0, 56), (99, 6), (112, 3)] op = false ∧ xSaddr op % 64 = 0 ∧ xDaddr op % 64 = 0 ∧
    inMem (bitOf op 112) (xSaddr op) (xLen op) = true ∧ inMem (bitOf op 113) (xDaddr op) (xLen op) = true ∧
    s.freeMove 0 = some 0 ∧ (s.core 0).phase = none ∧ copyFault op = none ∧ (∀ k, k < 4 → (u.core 0).move k ≠ none) ∧
    xDaddr bad % 64 ≠ 0 ∧ (run (.xCopy 0) s).rd 0 .tile 0x7FF80 2 = [9, 8] ∧ (run (.xCopy 0) s).rd 0 .tile 0x7FFC0 2 = [9, 8] ∧
    has [(qFaultCode 0 .x, 0x50)] (run (.xCopy 0) (one bad)) = true ∧ (run (.xCopy 0) u).regs = u.regs :=
  ⟨_, _, _, _, rfl, rfl, rfl, rfl, atHead (by decide +kernel), atHead (by decide +kernel), atHead (by decide +kernel),
    clean (by decide +kernel), by decide +kernel⟩

/-- Move 3 with SIG, done and not done; an acknowledgement of 2 units, delivered and in a die in reset. -/
theorem test_moveRetire : ∃ (m d : Move) (s u : State), m = ⟨opw .x 0x80 [(58, 3), (99, 63), (114, 1)], 4, 2⟩ ∧ d = { m with done := 4 } ∧
    s = { base.modCore 0 fun c => { c with moves := [(3, some m)] } with acks := [(0, 3, 2)] } ∧
    u = base.modCore 0 (fun c => { c with moves := [(3, some d)] }) ∧ NoWaiter u 0 (xSctr d.op) ∧ (s.core 0).move 3 = some m ∧
    m.done < xUnits m.op ∧ (u.core 0).move 3 = some d ∧ u.coreRuns 0 = true ∧ xUnits d.op ≤ d.done ∧
    u.getF (cCtr 0 (xSctr d.op)) < 65535 ∧ takeFirst (fun a => a.1 == 0) s.acks = some ((0, 3, 2), []) ∧
    s.resetting (dieOf 0) = false ∧ (s.setF (rdResetting 0) 1).resetting (dieOf 0) = true ∧
    has [(cCtr 0 63, 1), (qOps 0 .x, 1)] (run (.moveRetire 0 3) u) = true ∧ ((run (.moveRetire 0 3) u).core 0).moves = [] ∧
    ((run (.moveRetire 0 3) s).core 0).move 3 = some m ∧ ((run (.writeAck 0) s).core 0).move 3 = some d ∧
    has [(gSprueDiscards, 1)] (run (.writeAck 0) (s.setF (rdResetting 0) 1)) = true :=
  ⟨_, _, _, _, rfl, rfl, rfl, rfl, noWaiter (by decide +kernel), by decide +kernel⟩

/-! ### The MAC array -/

/-- Rounding 5 halves, a tie, to even, and 3 bits of 5 quarters up with probability a quarter (R143, R157). -/
theorem test_rnd : rnd 5 1 false 0 0 = 2 ∧ rnd 7 1 false 0 0 = 4 ∧ rnd (-5) 1 false 0 0 = -2 ∧
    (List.range 4).map (rnd 5 2 true 2) = [2, 1, 1, 1] := by decide +kernel

theorem test_macTile : ∃ (op a b : OpWord), op = opw .m 0x20 [(0, 1), (1, 2), (3, 1023), (13, 1), (62, 4095), (74, 1)] ∧
    a = opw .m 0x20 [(1, 3)] ∧ b = opw .m 0x20 [(62, 1)] ∧ AtHead (one op) 0 .m op ∧ AtHead (one a) 0 .m a ∧ AtHead (one b) 0 .m b ∧
    opOpcode op = 0x20 ∧ bitsOf op 1 2 ≠ 3 ∧ opReserved [(0, 86)] op = false ∧ bitsOf op 62 12 ≠ 0 ∧ bitsOf op 74 12 ≠ 0 ∧
    bitsOf a 1 2 = 3 ∧ bitsOf b 1 2 ≠ 3 ∧ bitsOf b 74 12 = 0 ∧
    ((run (.macTile 0) (one op)).core 0).macNext = [(1, { format := 2, anchor := -1, foldRound := 1, aStep := 4095, bStep := 1 })] ∧
    has [(qFaultCode 0 .m, 0x24)] (run (.macTile 0) (one a)) = true ∧ has [(qFaultCode 0 .m, 0x27)] (run (.macTile 0) (one b)) = true :=
  ⟨_, _, _, rfl, rfl, rfl, atHead (by decide +kernel), atHead (by decide +kernel), atHead (by decide +kernel), by decide +kernel⟩

/-- MAC.MM with OPEN on a bank that is OPEN, CLOSED, CLOSED with its drain issued, and DRAINING; without OPEN on one that is
EMPTY. -/
theorem test_macMm_faults : ∃ (op a : OpWord) (s u v : State), op = opw .m 0x21 [(0, 1), (112, 1)] ∧ a = opw .m 0x21 [] ∧
    s = put [(cBankState 0 1, 1)] (one op) ∧ u = put [(cBankState 0 1, 2)] (one op) ∧ v = put [(cBankDrainIssued 0 1, 1)] u ∧
    AtHead s 0 .m op ∧ AtHead u 0 .m op ∧ AtHead v 0 .m op ∧ AtHead (one a) 0 .m a ∧ opOpcode op = 0x21 ∧
    opReserved [(0, 91), (112, 2)] op = false ∧ bitsOf op 0 1 = 1 ∧ bitOf op 112 = true ∧ s.getF (cBankState 0 1) = 1 ∧
    u.getF (cBankState 0 1) = 2 ∧ u.getF (cBankDrainIssued 0 1) = 0 ∧ v.getF (cBankState 0 1) = 2 ∧
    v.getF (cBankDrainIssued 0 1) = 1 ∧ (put [(cBankState 0 1, 3)] (one op)).getF (cBankState 0 1) = 3 ∧
    headB (put [(cBankState 0 1, 3)] (one op)) .m op = true ∧ (run (.macMm 0) (put [(cBankState 0 1, 3)] (one op))).getF (qPc 0 .m) = 0 ∧
    opReserved [(0, 91), (112, 2)] a = false ∧ bitOf a 112 = false ∧
    (one a).getF (cBankState 0 0) ≠ 1 ∧ has [(qFaultCode 0 .m, 0x21)] (run (.macMm 0) s) = true ∧
    has [(qFaultCode 0 .m, 0x22)] (run (.macMm 0) u) = true ∧ (run (.macMm 0) v).regs = v.regs ∧
    has [(qFaultCode 0 .m, 0x20)] (run (.macMm 0) (one a)) = true :=
  ⟨_, _, _, _, _, rfl, rfl, rfl, rfl, rfl, atHead (by decide +kernel), atHead (by decide +kernel), atHead (by decide +kernel),
    atHead (by decide +kernel), by decide +kernel⟩

/-- What the pushes of a MAC.MM on a fresh bank leave. -/
def pushed (s : State) (p : MacParams) (op : OpWord) : Push :=
  (List.range (mmSteps op)).foldl (fun x i => pushStep s 0 p 0 op i x)
    { inner := List.replicate 1024 0, outer := List.replicate 1024 0, steps := 0, folds := 0 }

theorem zeros (i : Nat) : |(elementsOf ({} : Bank).outer).getD i 0| ≤ 2 ^ 62 ∧ |(elementsOf ({} : Bank).inner).getD i 0| ≤ 2 ^ 21 := by
  have h : (elementsOf []).getD i 0 = 0 := by
    show (List.replicate 1024 (0 : Int)).getD i 0 = 0
    rw [List.getD_eq_getElem?_getD, List.getElem?_replicate]; split <;> rfl
  show |(elementsOf []).getD i 0| ≤ 2 ^ 62 ∧ |(elementsOf []).getD i 0| ≤ 2 ^ 21
  rw [h]
  decide

/-- Two INT8 steps that open and close bank 0: -128 × -128 and 3 × 2 in element (0,0). -/
theorem test_macMm : ∃ (op : OpWord) (p : MacParams) (s : State), op = opw .m 0x21 [(1, 0x100), (20, 0x200), (77, 1), (112, 1), (113, 1)] ∧
    p = { aStep := 1, bStep := 1 } ∧
    s = (((one op).wr 0 .tile 0x100 ([0x80#8] ++ List.replicate 31 0 ++ [3])).wr 0 .tile 0x200 ([0x80#8] ++ List.replicate 31 0 ++ [2])).modCore
      0 (fun c => { c with macNext := [(0, p)] }) ∧ AtHead s 0 .m op ∧ CleanCore s 0 ∧
    (∀ i, i < 1024 → |(elementsOf ({} : Bank).outer).getD i 0| ≤ 2 ^ 62 ∧ |(elementsOf ({} : Bank).inner).getD i 0| ≤ 2 ^ 21) ∧
    (elementsOf ({} : Bank).outer).length = 1024 ∧ opOpcode op = 0x21 ∧ opReserved [(0, 91), (112, 2)] op = false ∧ bitsOf op 0 1 = 0 ∧
    bitOf op 112 = true ∧ s.getF (cBankState 0 0) = 0 ∧ p = tblGet (fun _ => {}) (s.core 0).macNext 0 ∧ p.format ≤ 1 ∧
    mmFault p op = none ∧ (pushed s p op).outer.head? = some 16390 :=
  ⟨_, _, _, rfl, rfl, rfl, atHead (by decide +kernel), clean (by decide +kernel),
    fun i _ => zeros i, by decide +kernel, by decide +kernel⟩

/-- An MXINT8 block with scales 2^1 and 2^0 and ANCHOR 0: 64 × 64 in element (0,0) of a shift of 1; a scale code of 0xFF. -/
theorem test_macMx : ∃ (op : OpWord) (p : MacParams) (s u : State), op = opw .m 0x21 [(1, 0x1000), (20, 0x2000), (39, 0x100), (58, 0x200), (77, 31), (112, 1), (113, 1)] ∧
    p = { format := 2, aStep := 1, bStep := 1 } ∧
    s = (((((one op).wr 0 .tile 0x1000 [64]).wr 0 .tile 0x2000 [64]).wr 0 .tile 0x100 [128]).wr 0 .tile 0x200 [127]).modCore 0
      (fun c => { c with macNext := [(0, p)] }) ∧ u = s.wr 0 .tile 0x100 [255] ∧ AtHead s 0 .m op ∧ AtHead u 0 .m op ∧ CleanCore s 0 ∧ CleanCore u 0 ∧
    opOpcode op = 0x21 ∧ opReserved [(0, 91), (112, 2)] op = false ∧ bitsOf op 0 1 = 0 ∧ bitOf op 112 = true ∧ bitOf op 113 = true ∧
    s.getF (cBankState 0 0) = 0 ∧ p = tblGet (fun _ => {}) (s.core 0).macNext 0 ∧ p.format = 2 ∧ mmSteps op = 32 ∧ mmFault p op = none ∧
    ((s.core 0).tile.byte (mmSA op)).toNat = 128 ∧ ((u.core 0).tile.byte (mmSA op)).toNat = 255 ∧
    (pushed s p op).outer.head? = some 8192 :=
  ⟨_, _, _, _, rfl, rfl, rfl, rfl, atHead (by decide +kernel), atHead (by decide +kernel), clean (by decide +kernel),
    clean (by decide +kernel), by decide +kernel⟩

theorem test_macDrain : ∃ (op : OpWord) (d : Drain) (s u : State), op = opw .m 0x22 [(0, 1), (1, 1), (4, 1), (49, 16)] ∧ d = ⟨op, 0, 0, 0⟩ ∧
    s = put [(cBankState 0 1, 2)] (one op) ∧ u = s.modCore 0 (fun c => { c with drains := [d, d] }) ∧ AtHead s 0 .m op ∧
    AtHead u 0 .m op ∧ AtHead (one op) 0 .m op ∧ opOpcode op = 0x22 ∧ opReserved [(0, 66), (112, 1)] op = false ∧ bitsOf op 0 1 = 1 ∧
    (s.core 0).drains.length < 2 ∧ s.getF (cBankState 0 1) = 2 ∧ s.getF (cBankDrainIssued 0 1) = 0 ∧ drainFault s 0 op = none ∧
    2 ≤ (u.core 0).drains.length ∧ (one op).getF (cBankState 0 1) ≠ 2 ∧ ((run (.macDrain 0) s).core 0).drains = [d] ∧
    (run (.macDrain 0) u).regs = u.regs ∧ has [(qFaultCode 0 .m, 0x23)] (run (.macDrain 0) (one op)) = true :=
  ⟨_, _, _, _, rfl, rfl, rfl, rfl, atHead (by decide +kernel), atHead (by decide +kernel), atHead (by decide +kernel), by decide +kernel⟩

/-- One element 2^40 + 3 drained as RAW64, as INT32 with SHIFT 1 (clamped), as INT8, to lace in both forms; a poisoned bank. -/
theorem test_drainRead : ∃ (f : Nat → OpWord) (g : Nat → State),
    f = (fun n => opw .m 0x22 [(1, n), (4, 1), (30, 0x40), (49, 16)]) ∧
    g = (fun n => base.modCore 0 fun c => { c with drains := [⟨f n, 0, 0, 0⟩], banks := [(0, { outer := [2 ^ 40 + 3] })] }) ∧
    CleanCore (g 0) 0 ∧ CleanCore (g 1) 0 ∧ CleanCore (g 2) 0 ∧
    ((g 0).core 0).drains = [⟨f 0, 0, 0, 0⟩] ∧ (g 0).coreRuns 0 = true ∧ bitsOf (f 0) 0 1 = 0 ∧ drFormat (f 0) = 0 ∧ drFormat (f 1) = 1 ∧
    drFormat (f 2) = 2 ∧ (∀ n, n < 3 → drainFault (g n) 0 (f n) = none ∧ bitOf (f n) 112 = false) ∧
    (g 0).getF (cBankPoison 0 0) = 0 ∧ (put [(cBankPoison 0 0, 1)] (g 0)).getF (cBankPoison 0 0) = 1 ∧
    (run (.drainRead 0) (g 0)).rd 0 .tile 0x40 8 = [3, 0, 0, 0, 0, 1, 0, 0] ∧
    (run (.drainRead 0) (g 1)).rd 0 .tile 0x40 4 = [0xFF, 0xFF, 0xFF, 0x7F] ∧ (run (.drainRead 0) (g 2)).rd 0 .tile 0x40 1 = [0x7F] ∧
    ((run (.drainRead 0) (put [(cBankPoison 0 0, 1)] (g 0))).core 0).tile.err 8 (0x40 / 8) = some .poison :=
  ⟨_, _, rfl, rfl, clean (by decide +kernel), clean (by decide +kernel), clean (by decide +kernel), by decide +kernel⟩

theorem test_drainLace : ∃ (f : Nat → OpWord) (g : Nat → State), f = (fun n => opw .m 0x22 [(1, n), (30, 1), (34, 31)]) ∧
    g = (fun n => (put [(cUnits 0, 32), (cReplicas 0, 2), (cReplStride 0, 64)] base).modCore 0 fun c =>
      { c with drains := [⟨f n, 0, 0, 0⟩], banks := [(0, { outer := [-2 ^ 31] })] }) ∧ CleanCore (g 6) 0 ∧ CleanCore (g 7) 0 ∧
    ((g 6).core 0).drains = [⟨f 6, 0, 0, 0⟩] ∧ (g 6).coreRuns 0 = true ∧ (∀ n, n < 8 → 6 ≤ n → 6 ≤ drFormat (f n) ∧ drRows (f n) = 1 ∧
      drCols (f n) = 1 ∧ bitOf (f n) 112 = false ∧ bitsOf (f n) 4 6 = 0) ∧ ((g 6).core 0).phase = none ∧
    (g 6).getF (cBankPoison 0 0) = 0 ∧
    (∀ n, n < 8 → 6 ≤ n → drainElem 0 ((g n).bank 0 0) ⟨f n, 0, 0, 0⟩ 0 0 = (-2 ^ 31, false) ∧ laceElem (f n) 0 0 = (1, 31)) :=
  ⟨_, _, rfl, rfl, clean (by decide +kernel), clean (by decide +kernel), by decide +kernel⟩

/-! ### The sampling fabric and anneal runs -/

theorem upTo {n e f : Nat} {P : Nat → Prop} (h : ∀ i, i < n → P i) (he : e = n) : ∀ i, f ≤ i → i < e → P i :=
  fun i _ b => h i (he ▸ b)

/-- A core of 64 units and 2 replicas: descriptors of empty lists at word 0x100, flags at 0x200, replicas at 0x400; colour 0 is
units 0 and 1; unit 1 is not mapped. -/
def lay (s : State) : State :=
  forAll [0x100, 0x101] (fun w t => t.setLace 0 w 0x2000)
    ((put [(cUnits 0, 64), (cReplicas 0, 1), (cColEnd 0 0, 2), (cDescBase 0, 0x100), (cFlagBase 0, 0x200), (cReplBase 0, 0x400),
      (cReplStride 0, 0x80)] s).wr 0 .tile 260 [0xFF, 0xFF, 0xFF, 0xFF])

/-- A greedy phase of colour 0 in replica 1 with a field of 5 in unit 0. -/
theorem test_suaPhase : ∃ (op : OpWord) (s : State), op = opw .s 0x40 [(4, 1), (8, 2)] ∧ s = (lay (one op)).setLace 0 0x480 5 ∧
    AtHead s 0 .s op ∧ CleanCore s 0 ∧
    (∀ i, s.getF (cColFirst 0 0) ≤ i → i < s.getF (cColEnd 0 0) → s.groupBit 0 i = false ∧
      bitOf (s.lace 0 (s.descAt 0 i)) 13 = true ∧ bitOf (s.lace 0 (s.descAt 0 i)) 12 = false ∧
      ∀ j, s.getF (cColFirst 0 0) ≤ j → j < s.getF (cColEnd 0 0) → s.descAt 0 i ≠ s.stateAt 0 1 (j / 32)) ∧
    opOpcode op = 0x40 ∧ opReserved [(0, 13), (112, 2)] op = false ∧ bitOf op 113 = false ∧ bitsOf op 0 4 = 0 ∧ bitsOf op 4 4 = 1 ∧
    (s.core 0).phase = none ∧ phaseOperandFault s 0 op = none ∧ (s.stop 0).outbound = [] ∧
    s.getF (cColFirst 0 0) / 64 = (s.getF (cColEnd 0 0) - 1) / 64 ∧ tblGet (fun _ => (0, 0)) (s.core 0).groupIdx 0 = (0, 0) ∧
    s.modelIndex 0 1 = 0xFFFFFFFF ∧ s.modelIndex 0 0 = 0 ∧ decideUnit 2 (s.tableEntry 0 0) 0 (s.field 0 1 0) false 0 = true := by
  have h : ∀ i, i < 2 → ((lay (one (opw .s 0x40 [(4, 1), (8, 2)]))).setLace 0 0x480 5).groupBit 0 i = false ∧
      bitOf (((lay (one (opw .s 0x40 [(4, 1), (8, 2)]))).setLace 0 0x480 5).lace 0 (((lay (one (opw .s 0x40 [(4, 1), (8, 2)]))).setLace 0 0x480 5).descAt 0 i)) 13 = true ∧
      bitOf (((lay (one (opw .s 0x40 [(4, 1), (8, 2)]))).setLace 0 0x480 5).lace 0 (((lay (one (opw .s 0x40 [(4, 1), (8, 2)]))).setLace 0 0x480 5).descAt 0 i)) 12 = false ∧
      ∀ j, j < 2 → ((lay (one (opw .s 0x40 [(4, 1), (8, 2)]))).setLace 0 0x480 5).descAt 0 i ≠
        ((lay (one (opw .s 0x40 [(4, 1), (8, 2)]))).setLace 0 0x480 5).stateAt 0 1 (j / 32) := by decide +kernel
  exact ⟨_, _, rfl, rfl, atHead (by decide +kernel), clean (by decide +kernel),
    upTo (n := 2) (fun i hi => ⟨(h i hi).1, (h i hi).2.1, (h i hi).2.2.1, upTo (n := 2) (h i hi).2.2.2 (by decide +kernel)⟩) (by decide +kernel),
    by decide +kernel⟩

/-- One held notice of unit 65 of core 9 whose mirror list is the single entry of unit 63 with weight -3. -/
theorem test_heldNotice : ∃ (n : W32) (s u : State), n = BitVec.ofNat 32 (9 * 2 ^ 21 + 65 * 64 + 2 ^ 5 + 2) ∧
    u = (lay base).modCore 0 (fun c => { c with phase := some ⟨0, 0, false, false, 0⟩ }) ∧
    s = (((put [(cWinValid 0 0, 1), (cWinFirst 0 0, 9 * 2 ^ 15 + 64), (cWinLast 0 0, 127), (cWinDir 0 0, 0x300)] u).setLace 0 0x301
      (BitVec.ofNat 32 (0x380 * 2 ^ 14))).setLace 0 0x380 (BitVec.ofNat 32 (63 * 2 ^ 17 + (2 ^ 16 - 3) * 2 + 1))).modCore 0
      (fun c => { c with inbox := [n] }) ∧ CleanCore s 0 ∧ CleanCore u 0 ∧ s.coreRuns 0 = true ∧
    (s.core 0).phase = some ⟨0, 0, false, false, 0⟩ ∧ (u.core 0).phase = some ⟨0, 0, false, false, 0⟩ ∧ u.coreRuns 0 = true ∧ (u.core 0).inbox = [] ∧
    (s.core 0).inbox = [n] ∧ s.windowFor 0 n = some 0 ∧ s.dirAt 0 0 n = 0x301 ∧ bitsOf (s.lace 0 0x301) 14 18 = 0x380 ∧
    bitOf (s.lace 0 0x380) 0 = true ∧ bitsOf (s.lace 0 0x380) 17 15 = 63 ∧ 63 < s.units 0 ∧
    s.colourOf 0 63 ≠ some (bitsOf (s.lace 0 0x301) 9 4) ∧ ((run (.heldNoticeRelease 0) s).core 0).lace.load (4 * 0x4BF) 4 = [0xFD, 0xFF, 0xFF, 0xFF] :=
  ⟨_, _, _, rfl, rfl, rfl, clean (by decide +kernel), clean (by decide +kernel), by decide +kernel⟩

theorem test_deferred : ∃ (s u : State), s = (lay base).modCore 0 (fun c =>
      { c with phase := some ⟨0, 0, false, true, 0⟩, deferred := [⟨63, 2 ^ 31 - 1, 1⟩, ⟨63, 9, 1⟩, ⟨63, -4, 1⟩] }) ∧
    u = base.modCore 0 (fun c => { c with phase := some ⟨0, 0, false, false, 0⟩ }) ∧ CleanCore s 0 ∧ StopIdle s 0 ∧ CleanCore u 0 ∧
    StopIdle u 0 ∧ s.coreRuns 0 = true ∧ (s.core 0).phase = some ⟨0, 0, false, true, 0⟩ ∧ u.coreRuns 0 = true ∧
    (u.core 0).phase = some ⟨0, 0, false, false, 0⟩ ∧ (s.core 0).deferred ≠ [] ∧
    (run (.deferredUpdateApply 0) s).field 0 1 63 = 2 ^ 31 - 5 ∧ ((run (.deferredUpdateApply 0) s).core 0).phase = none ∧
    has [(cConflicts 0, 3), (cUndeclared 0, 1)] (run (.deferredUpdateApply 0) s) = true :=
  ⟨_, _, rfl, rfl, clean (by decide +kernel), idle (by decide +kernel), clean (by decide +kernel), idle (by decide +kernel), by decide +kernel⟩

/-- Updates by 2^31 - 1 and 1 to a field of 0: the second saturates and says so. -/
theorem test_addField : ∃ (s : State), s = lay base ∧ CleanCore s 0 ∧
    ((addAll 0 1 63 [2 ^ 31 - 1, 1, -5] s).lace 0 (s.fieldAt 0 1 63)).toInt = 2 ^ 31 - 6 ∧
    has [(cFieldSat 0, 1), (cSatMask 0, 2), (cUpdates 0, 3)] (addAll 0 1 63 [2 ^ 31 - 1, 1, -5] s) = true ∧
    (∀ k, k ≤ 2 → satS 32 ((s.lace 0 (s.fieldAt 0 1 63)).toInt + (([7, -9] : List Int).take k).sum) =
      (s.lace 0 (s.fieldAt 0 1 63)).toInt + (([7, -9] : List Int).take k).sum) :=
  ⟨_, rfl, clean (by decide +kernel), by decide +kernel⟩

/-- β 9 into replica 1; a mask with replica 2; breakpoints (10, 100), (20, 50) at CURVE 13, at 10 and at 20. -/
theorem test_suaBeta : ∃ (op bad cv : OpWord) (s u : State) (c : Nat → State), op = opw .s 0x41 [(0, 9), (32, 2)] ∧
    bad = opw .s 0x41 [(32, 4)] ∧ cv = opw .s 0x41 [(32, 2), (48, 0x1000), (112, 1)] ∧ s = lay (one op) ∧ u = lay (one bad) ∧
    c = (fun n => (put [(cCurve 0, n)] (lay (one cv))).wr 0 .tile 0x1000 (natLe 4 2 ++ natLe 4 0 ++ natLe 4 10 ++ natLe 4 100 ++ natLe 4 20 ++ natLe 4 50)) ∧
    AtHead s 0 .s op ∧ AtHead u 0 .s bad ∧ AtHead (c 13) 0 .s cv ∧ CleanCore (c 13) 0 ∧ opOpcode op = 0x41 ∧
    opReserved [(0, 67), (112, 1)] op = false ∧ (s.core 0).phase = none ∧ s.maskOk 0 (bitsOf op 32 16) = true ∧ bitOf op 112 = false ∧
    opReserved [(0, 67), (112, 1)] bad = false ∧ u.maskOk 0 (bitsOf bad 32 16) = false ∧ opReserved [(0, 67), (112, 1)] cv = false ∧
    (c 13).maskOk 0 (bitsOf cv 32 16) = true ∧ bitOf cv 112 = true ∧ bitsOf cv 48 19 = 0x1000 ∧ (c 13).rdNat 0 .tile 0x1000 4 = 2 ∧
    (∀ j, j < 1 → ((c 13).breakpoint 0 0x1000 j).1 < ((c 13).breakpoint 0 0x1000 (j + 1)).1) ∧ (c 13).getF (cCurve 0) = 13 ∧
    has [(cBeta 0 0, 0), (cBeta 0 1, 9), (qPc 0 .s, 1)] (run (.suaBeta 0) s) = true ∧
    has [(qFaultCode 0 .s, 0x17)] (run (.suaBeta 0) u) = true ∧ has [(cBeta 0 1, 85)] (run (.suaBeta 0) (c 13)) = true ∧
    has [(cBeta 0 1, 100)] (run (.suaBeta 0) (c 10)) = true ∧ has [(cBeta 0 1, 50)] (run (.suaBeta 0) (c 20)) = true :=
  ⟨_, _, _, _, _, _, rfl, rfl, rfl, rfl, rfl, rfl, atHead (by decide +kernel), atHead (by decide +kernel), atHead (by decide +kernel),
    clean (by decide +kernel), by decide +kernel⟩

/-- Clamping unit 1 to 1 in replica 1, releasing it, and a record of unit 64. -/
theorem test_suaClamp : ∃ (op : OpWord) (g : Nat → State), op = opw .s 0x42 [(0, 0x7FFFC), (19, 1), (35, 2)] ∧
    g = (fun n => (lay (one op)).wr 0 .tile 0x7FFFC (natLe 4 n)) ∧ AtHead (g (2 ^ 17 + 2 ^ 16)) 0 .s op ∧ CleanCore (g (2 ^ 17 + 2 ^ 16)) 0 ∧
    AtHead (g (2 ^ 17 + 2 ^ 15)) 0 .s op ∧ AtHead (g (64 * 2 ^ 17)) 0 .s op ∧ opOpcode op = 0x42 ∧ opReserved [(0, 51)] op = false ∧
    bitsOf op 19 16 = 1 ∧ bitsOf op 0 19 % 4 = 0 ∧ bitsOf op 0 19 + 4 ≤ 0x80000 ∧
    (∀ n, n ∈ [2 ^ 17 + 2 ^ 16, 2 ^ 17 + 2 ^ 15, 64 * 2 ^ 17] → ((g n).core 0).phase = none ∧ (g n).maskOk 0 (bitsOf op 35 16) = true ∧
      ((g n).stop 0).outbound = [] ∧ (g n).rdNat 0 .tile (bitsOf op 0 19) 4 = n ∧ (g n).units 0 = 64 ∧
      bitOf ((g n).lace 0 ((g n).descAt 0 1)) 13 = true ∧ bitOf ((g n).lace 0 ((g n).descAt 0 1)) 12 = false ∧
      (g n).descAt 0 1 ≠ (g n).clampAt 0 0 ∧ (g n).stateAt 0 1 0 ≠ (g n).clampAt 0 0 ∧ (g n).stateAt 0 1 0 ≠ (g n).descAt 0 1) ∧
    ((run (.suaClamp 0) (g (2 ^ 17 + 2 ^ 16))).clampBit 0 1 = true ∧ (run (.suaClamp 0) (g (2 ^ 17 + 2 ^ 16))).unitState 0 1 1 = true ∧
      (run (.suaClamp 0) (g (2 ^ 17 + 2 ^ 15))).clampBit 0 1 = false) ∧
    has [(qFaultCode 0 .s, 0x11)] (run (.suaClamp 0) (g (64 * 2 ^ 17))) = true :=
  ⟨_, _, rfl, rfl, atHead (by decide +kernel), clean (by decide +kernel), atHead (by decide +kernel), atHead (by decide +kernel), by decide +kernel⟩

/-- SNAP of 64 states as bytes to the end of tile memory; CLRCOUNT of replica 1. -/
theorem test_suaSnap : ∃ (op cl : OpWord) (s u : State), op = opw .s 0x43 [(0, 0x7FFC0), (34, 64), (50, 1), (112, 1)] ∧ cl = opw .s 0x44 [(50, 1)] ∧
    s = (lay (one op)).setLace 0 0x4C0 2 ∧ u = (lay (one cl)).setLace 0 0x4C2 7 ∧ AtHead s 0 .s op ∧ AtHead u 0 .s cl ∧ CleanCore s 0 ∧
    (s.core 0).phase = none ∧ (u.core 0).phase = none ∧ bitsOf op 50 4 < s.replicas 0 ∧ bitsOf cl 50 4 < u.replicas 0 ∧ opOpcode op = 0x43 ∧
    opReserved [(0, 54), (112, 1)] op = false ∧ bitsOf op 0 19 % 64 = 0 ∧ bitsOf op 19 15 % 64 = 0 ∧ bitsOf op 34 16 = 64 ∧
    bitsOf op 19 15 + 64 ≤ s.unitsUp 0 ∧ bitsOf op 0 19 + 64 ≤ 0x80000 ∧ opOpcode cl = 0x44 ∧ opReserved [(50, 4)] cl = false ∧
    (run (.suaSnap 0) s).rd 0 .tile 0x7FFC0 3 = [0, 1, 0] ∧ (run (.suaClrcount 0) u).lace 0 0x4C2 = 0 :=
  ⟨_, _, _, _, rfl, rfl, rfl, rfl, atHead (by decide +kernel), atHead (by decide +kernel), clean (by decide +kernel), by decide +kernel⟩

/-- SWEEP at 65,535 and at 65,534; RESULT at the leader with a seed pending, and at core 1, which is no leader. -/
theorem test_suaSweep : ∃ (sw re : OpWord) (s u v w : State), sw = opw .s 0x45 [] ∧ re = opw .s 0x46 [] ∧
    s = put [(cSweep 0, 65535)] (one sw) ∧ u = put [(cSweep 0, 65534), (cCurve 0, 65535)] (one sw) ∧
    v = put [(cSweep 0, 7), (pdTicks 0, 5), (pdFired 0, 1)] (one re) ∧ w = put [(pnPending 0, 1)] v ∧ AtHead s 0 .s sw ∧ AtHead u 0 .s sw ∧
    AtHead v 0 .s re ∧ AtHead w 0 .s re ∧ (s.core 0).phase = none ∧ bitsOf sw 0 118 = 0 ∧ bitsOf re 0 118 = 0 ∧ s.owner 0 = some 0 ∧
    opOpcode sw = 0x45 ∧ opOpcode re = 0x46 ∧ s.getF (cSweep 0) = 65535 ∧ u.getF (cSweep 0) ≠ 65535 ∧ v.leader 0 = some 0 ∧
    v.leader 0 ≠ some 1 ∧ w.getF (pnPending 0) = 1 ∧ v.getF (pnPending 0) = 0 ∧
    has [(qFaultCode 0 .s, 0x18), (cSweep 0, 65535)] (run (.suaSweep 0) s) = true ∧
    has [(cSweep 0, 65535), (cCurve 0, 0)] (run (.suaSweep 0) u) = true ∧
    has [(cResult 0, 1), (cSweep 0, 0), (pdFired 0, 0)] (run (.suaResult 0) v) = true ∧ ((run (.suaResult 0) v).part 0).dlTicks = 5 ∧
    ((run (.suaResult 0) w).part 0).staged = true :=
  ⟨_, _, _, _, _, _, rfl, rfl, rfl, rfl, rfl, rfl, atHead (by decide +kernel), atHead (by decide +kernel), atHead (by decide +kernel),
    atHead (by decide +kernel), by decide +kernel⟩

/-- STEP 0 of a restart of replica 1 with a bias of 5 in unit 0; STEP 1 with unit 2 in state 1 and a list of one entry, unit 63,
to be walked and walked. -/
theorem test_suaRestart : ∃ (a b : OpWord) (s u : State), a = opw .s 0x47 [(0, 2), (113, 1), (114, 1)] ∧ b = opw .s 0x47 [(0, 2), (112, 1)] ∧
    s = ((lay (one a)).wr 0 .tile 0 [5]).setLace 0 0x4C0 4 ∧
    u = (((lay (one b)).setLace 0 0x4C0 4).setLace 0 0x102 (BitVec.ofNat 32 (0x380 * 2 ^ 14))).setLace 0 0x380 (BitVec.ofNat 32 (63 * 2 ^ 17 + 9 * 2 + 1)) ∧
    AtHead s 0 .s a ∧ AtHead u 0 .s b ∧ CleanCore s 0 ∧ CleanCore u 0 ∧ (s.core 0).phase = none ∧ (u.core 0).phase = none ∧ opOpcode a = 0x47 ∧
    opOpcode b = 0x47 ∧ opReserved [(0, 16), (112, 3)] a = false ∧ opReserved [(0, 16), (112, 3)] b = false ∧ bitsOf a 0 16 = 2 ^ 1 ∧
    bitsOf b 0 16 = 2 ^ 1 ∧ 1 < s.replicas 0 ∧ (s.stop 0).outbound = [] ∧ (u.stop 0).outbound = [] ∧ bitOf a 112 = false ∧
    s.getF (cGroupCount 0) = 0 ∧ s.units 0 = 64 ∧ s.unitsUp 0 = 64 ∧
    (∀ j, j < 2 → ∀ k, k < 2 → s.clampAt 0 k ≠ s.stateAt 0 1 j) ∧ bitOf b 112 = true ∧ bitOf b 113 = false ∧ bitOf b 114 = false ∧
    (∀ j, j < 64 → (u.unitState 0 1 j = true ↔ j = 2)) ∧ bitOf (u.lace 0 (u.descAt 0 2)) 13 = false ∧ bitOf (u.lace 0 (u.descAt 0 2)) 12 = false ∧
    bitOf (u.lace 0 (bitsOf (u.lace 0 (u.descAt 0 2)) 14 18)) 0 = true ∧ bitsOf (u.lace 0 0x380) 17 15 = 63 ∧
    (run (.suaRestartReset 0) s).field 0 1 0 = 5 ∧ (run (.suaRestartReset 0) s).unitState 0 1 2 = false ∧
    has [(cRestart 0, 1)] (run (.suaRestartReset 0) s) = true ∧ (u.core 0).replayed = false ∧
    has [(qPc 0 .s, 1), (qOps 0 .s, 1)] (run (.suaRestartReplay 0) (u.modCore 0 fun c => { c with replayed := true })) = true :=
  ⟨_, _, _, _, rfl, rfl, rfl, rfl, atHead (by decide +kernel), atHead (by decide +kernel), clean (by decide +kernel), clean (by decide +kernel), by decide +kernel⟩

/-! ### The vector engine -/

/-- BF16 from the end of tile memory into v31; S16 of 300 registers' worth is out of range; lace words from the end of lace. -/
theorem test_vecLoad : ∃ (op l : OpWord), op = opw .v 0x60 [(0, 31), (15, 4), (18, 0x7FF80)] ∧ l = opw .v 0x61 [(0, 30), (37, 0x3FF80), (55, 1)] ∧
    AtHead (one op) 0 .v op ∧ AtHead (one l) 0 .v l ∧ CleanCore (one op) 0 ∧ CleanCore (one l) 0 ∧ vFmt op ≤ 6 ∧ vD op + vCount op ≤ 32 ∧
    opOpcode op = 0x60 ∧ opReserved [fVD, fTADDR, fCOUNT, fFMT] op = false ∧ vTile op % 64 = 0 ∧
    vTile op + vCount op * regBytes (vFmt op) ≤ 0x80000 ∧ opOpcode l = 0x61 ∧ vD l + vCount l ≤ 32 ∧
    opReserved [fVD, fLADDR, fCOUNT, fFMT] l = false ∧ vFmt l ≤ 1 ∧ vLace l % 64 = 0 ∧ vLace l + 64 * vCount l ≤ 0x40000 :=
  ⟨_, _, rfl, rfl, atHead (by decide +kernel), atHead (by decide +kernel), clean (by decide +kernel), clean (by decide +kernel), by decide +kernel⟩

/-- A store of v31 as S8, whose lane 0 holds 300, and one to lace, with and without a phase in progress over it. -/
theorem test_vecStore : ∃ (op l : OpWord) (s u : State), op = opw .v 0x62 [(0, 31), (15, 6), (18, 0x7FFC0)] ∧ l = opw .v 0x63 [(0, 31), (37, 0x400)] ∧
    s = (one op).modCore 0 (fun c => { c with vregs := [(31 * 64, 300)] }) ∧
    u = (put [(cUnits 0, 64), (cReplBase 0, 0x400), (cReplStride 0, 0x80)] (one l)).modCore 0 (fun c => { c with phase := some ⟨0, 0, false, false, 0⟩ }) ∧
    AtHead s 0 .v op ∧ AtHead (one l) 0 .v l ∧ AtHead u 0 .v l ∧ CleanCore s 0 ∧ CleanCore u 0 ∧ vFmt op ≤ 6 ∧ vD op + vCount op ≤ 32 ∧
    opOpcode op = 0x62 ∧ opReserved [fVD, fTADDR, fCOUNT, fFMT] op = false ∧ vTile op % 64 = 0 ∧
    vTile op + vCount op * regBytes (vFmt op) ≤ 0x80000 ∧ satS 8 (s.lane 0 31 0).toInt ≠ (s.lane 0 31 0).toInt ∧ opOpcode l = 0x63 ∧
    vD l + vCount l ≤ 32 ∧ opReserved [fVD, fLADDR, fCOUNT, fFMT] l = false ∧ vFmt l ≤ 1 ∧ vLace l % 64 = 0 ∧
    vLace l + 64 * vCount l ≤ 0x40000 ∧ (one l).overlapsPhase 0 (vLace l) (vLace l + 64 * vCount l) = false ∧
    u.overlapsPhase 0 (vLace l) (vLace l + 64 * vCount l) = true ∧ has [(qFaultCode 0 .v, 0x16)] (run (.vecStl 0) u) = true :=
  ⟨_, _, _, _, rfl, rfl, rfl, rfl, atHead (by decide +kernel), atHead (by decide +kernel), atHead (by decide +kernel), clean (by decide +kernel),
    clean (by decide +kernel), by decide +kernel⟩

/-- Sums, products and shifts at their limits (R168), FP32 corner cases (R169). -/
theorem test_lanes : aluValue true 0 (0x7FFFFFFF#32) 1#32 = (0x7FFFFFFF#32, true) ∧ aluValue false 1 (1#32) 2#32 = (0#32, true) ∧
    aluValue true 10 (0x80000000#32) 99#32 = (0xFFFFFFFF#32, false) ∧ (fpAdd 0x3F800000 0xBF800000).v = 0 ∧
    (fpAdd 0x7F7FFFFF 0x7F7FFFFF).v = 0x7F7FFFFF ∧ (fpAdd 0x3F800000 0x33800000).v = 0x3F800000 ∧
    (fpMul 0x00000001 0x3F000000).v = 0 ∧ (fpMul 0x7FC12345 0).v = 0x7FC00000 := by decide +kernel

theorem test_vecAlu : ∃ (op w d : OpWord), op = opw .v 0x64 [(0, 1), (5, 2), (10, 3), (81, 12)] ∧ w = opw .v 0x64 [(0, 1), (81, 3)] ∧
    d = opw .v 0x64 [(0, 1), (15, 2), (81, 0)] ∧ AtHead (one op) 0 .v op ∧ AtHead (one w) 0 .v w ∧ AtHead (one d) 0 .v d ∧ opOpcode op = 0x64 ∧
    opReserved [fVD, fVA, fVB, fFMT, (81, 4)] op = false ∧ bitsOf op 81 4 ≤ 12 ∧ vFmt op ≤ 2 ∧ bitsOf op 81 4 ≠ 3 ∧
    opReserved [fVD, fVA, fVB, fFMT, (81, 4)] w = false ∧ bitsOf w 81 4 = 3 ∧ vFmt w = 0 ∧
    opReserved [fVD, fVA, fVB, fFMT, (81, 4)] d = false ∧ vFmt d = 2 :=
  ⟨_, _, _, rfl, rfl, rfl, atHead (by decide +kernel), atHead (by decide +kernel), atHead (by decide +kernel), by decide +kernel⟩

theorem test_vecFpu : ∃ (op c : OpWord), op = opw .v 0x65 [(0, 1), (5, 2), (10, 3), (15, 3), (81, 2)] ∧ c = opw .v 0x65 [(0, 1), (15, 1), (81, 3)] ∧
    AtHead (one op) 0 .v op ∧ AtHead (one c) 0 .v c ∧ opOpcode op = 0x65 ∧ opReserved [fVD, fVA, fVB, fFMT, (81, 4)] op = false ∧
    bitsOf op 81 4 ≤ 4 ∧ bitsOf op 81 4 ≠ 3 ∧ vFmt op = 3 ∧ opReserved [fVD, fVA, fVB, fFMT, (81, 4)] c = false ∧ bitsOf c 81 4 = 3 ∧
    vFmt c ≤ 1 ∧ vB c = 0 :=
  ⟨_, _, rfl, rfl, atHead (by decide +kernel), atHead (by decide +kernel), by decide +kernel⟩

/-- RSUM of two S32 elements at the end of tile memory; RSUMF of 6 FP32 elements; RMAX, RMIN by position, by index and in FP32. -/
theorem test_vecReduce : ∃ (a b : OpWord) (m : Nat → Nat → Nat → OpWord), a = opw .v 0x66 [(0, 1), (18, 0x7FFC0), (55, 15)] ∧
    b = opw .v 0x67 [(0, 1), (15, 3), (18, 0x40), (55, 5)] ∧
    m = (fun code f x => opw .v code [(0, 31), (10, 2), (15, f), (18, 0x40), (55, 3), (112, x)]) ∧ AtHead (one a) 0 .v a ∧ AtHead (one b) 0 .v b ∧
    AtHead (one (m 0x68 0 0)) 0 .v (m 0x68 0 0) ∧ AtHead (one (m 0x69 2 1)) 0 .v (m 0x69 2 1) ∧ AtHead (one (m 0x69 3 0)) 0 .v (m 0x69 3 0) ∧
    CleanCore (one a) 0 ∧ CleanCore (one (m 0x69 2 1)) 0 ∧ vTile a % 64 = 0 ∧ opOpcode a = 0x66 ∧ opReserved [fVD, fTADDR, fCOUNT, fFMT] a = false ∧
    vFmt a ≤ 2 ∧ vTile a + vCount a * fmtBytes (vFmt a) ≤ 0x80000 ∧ opOpcode b = 0x67 ∧ opReserved [fVD, fTADDR, fCOUNT, fFMT] b = false ∧
    vFmt b = 3 ∧ vCount b = 6 ∧ (∀ f x, (f, x) ∈ [(0, 0), (2, 1), (3, 0)] → opOpcode (m 0x69 f x) = 0x69 ∧
      opReserved [fVD, fVB, fTADDR, fCOUNT, fFMT, (112, 1)] (m 0x69 f x) = false ∧ bitOf (m 0x69 f x) 112 = decide (x = 1) ∧ vFmt (m 0x69 f x) = f ∧
      ((one (m 0x69 f x)).lane 0 (vB (m 0x69 f x)) 0).toNat + vCount (m 0x69 f x) ≤ 2 ^ 32 ∧ vTile (m 0x69 f x) + vCount (m 0x69 f x) * 16 ≤ 0x80000) := by
  refine ⟨_, _, _, rfl, rfl, rfl, atHead (by decide +kernel), atHead (by decide +kernel), atHead (by decide +kernel), atHead (by decide +kernel),
    atHead (by decide +kernel), clean (by decide +kernel), clean (by decide +kernel), by decide +kernel, by decide +kernel, by decide +kernel,
    by decide +kernel, by decide +kernel, by decide +kernel, by decide +kernel, by decide +kernel, by decide +kernel, ?_⟩
  intro f x h
  simp only [List.mem_cons, Prod.mk.injEq, List.not_mem_nil, or_false] at h
  rcases h with ⟨rfl, rfl⟩ | ⟨rfl, rfl⟩ | ⟨rfl, rfl⟩ <;> decide +kernel

/-- PSEND of 32 pairs to the own core, of 9 to core 255, to core 256 outside the partition; PREAD of 32 tags, the last 63. -/
theorem test_vecPartials : ∃ (a b c d : OpWord) (s : State), a = opw .v 0x6A [(5, 3), (55, 31), (75, 63), (81, 32)] ∧
    b = opw .v 0x6A [(55, 8), (87, 255)] ∧ c = opw .v 0x6A [(87, 256)] ∧ d = opw .v 0x6B [(0, 1), (55, 31), (81, 32)] ∧
    s = (one b).modStop 0 (fun t => { t with fifo := List.replicate 15 (.notices 0 [] []) }) ∧ AtHead (one a) 0 .v a ∧ AtHead (one b) 0 .v b ∧
    AtHead s 0 .v b ∧ AtHead (one c) 0 .v c ∧ AtHead (one d) 0 .v d ∧ NoWaiter (one a) 0 (vCtr a) ∧ vCount a ≤ 32 ∧ vTag a + vCount a ≤ 64 ∧
    opOpcode a = 0x6A ∧ opReserved [fVA, fCOUNT, (75, 6), (81, 6), (87, 11), (98, 12), (112, 1)] a = false ∧ bitOf a 112 = false ∧
    bitsOf a 98 12 = 0 ∧ bitsOf a 87 11 = 0 ∧ (one a).getF (cCtr 0 (vCtr a)) + vCount a ≤ 65535 ∧
    (∀ k, k < 32 → -2 ^ 94 ≤ (one a).psbAt 0 (vTag a + k) ∧ (one a).psbAt 0 (vTag a + k) < 2 ^ 94) ∧
    opReserved [fVA, fCOUNT, (75, 6), (81, 6), (87, 11), (98, 12), (112, 1)] b = false ∧ bitsOf b 87 11 ≠ 0 ∧ bitsOf b 98 12 = 0 ∧
    (one b).samePart 0 (bitsOf b 87 11) = true ∧ (one b).fifoRoom 0 ((vCount b + 7) / 8) = true ∧ s.samePart 0 (bitsOf b 87 11) = true ∧
    s.fifoRoom 0 ((vCount b + 7) / 8) = false ∧ (one c).samePart 0 (bitsOf c 87 11) = false ∧
    opReserved [fVA, fCOUNT, (75, 6), (81, 6), (87, 11), (98, 12), (112, 1)] c = false ∧ opOpcode d = 0x6B ∧
    opReserved [fVD, fCOUNT, (81, 6)] d = false ∧ vTag d + vCount d ≤ 64 ∧ has [(qFaultCode 0 .v, 0x31)] (run (.vecPsend 0) (one c)) = true ∧
    (run (.vecPsend 0) s).stops = s.stops :=
  ⟨_, _, _, _, _, rfl, rfl, rfl, rfl, rfl, atHead (by decide +kernel), atHead (by decide +kernel), atHead (by decide +kernel),
    atHead (by decide +kernel), atHead (by decide +kernel), noWaiter (by decide +kernel), by decide +kernel⟩

/-! ### Energies, exchange, best-k, learning -/

/-- The replica of `lay` with units 0 and 2 in state 1, a field of 5 in unit 0 and of -2 in unit 2. -/
def energies (s : State) : State := (((lay s).setLace 0 0x4C0 5).setLace 0 0x480 5).setLace 0 0x482 (BitVec.ofInt 32 (-2))

theorem test_vecEnergy : ∃ (op ef : OpWord) (s : State), op = opw .v 0x6C [(0, 31), (71, 1)] ∧ ef = opw .v 0x6D [(0, 1), (5, 2)] ∧
    s = energies (put [(cSatMask 0, 2)] (one op)) ∧ AtHead s 0 .v op ∧ AtHead (one ef) 0 .v ef ∧ CleanCore s 0 ∧ CleanCore (one ef) 0 ∧
    opOpcode op = 0x6C ∧ opReserved [fVD, (71, 4)] op = false ∧ vReplica op = 1 ∧ firstFault (energyChecks s 0 1) = none ∧
    s.modelIndex 0 0 ≠ 0xFFFFFFFF ∧ s.unitState 0 1 0 = true ∧ ((List.range 64).map fun i => s.field 0 1 i).sum = 3 ∧ opOpcode ef = 0x6D ∧
    opReserved [fVD, fVA] ef = false ∧ Int.tdiv (-(-3)) 2 = 1 ∧ Int.tdiv (-3) 2 = -1 ∧ rflags (BitVec.ofNat 64 (2 ^ 21)) true = 10 :=
  ⟨_, _, _, rfl, rfl, rfl, atHead (by decide +kernel), atHead (by decide +kernel), clean (by decide +kernel), clean (by decide +kernel), by decide +kernel⟩

/-- Exchange number 4 of 3 replicas pairs 1 with 2; K_I 0 faults. Equal energies are accepted, the hotter worse is not always. -/
theorem test_vecXchg : ∃ (op z : OpWord) (s : State), op = opw .v 0x6E [(0, 1), (5, 2), (81, 10)] ∧ z = opw .v 0x6E [] ∧
    s = put [(cReplicas 0, 2), (cCurve 0, 45)] (one op) ∧ AtHead s 0 .v op ∧ AtHead (one z) 0 .v z ∧ CleanCore s 0 ∧ CleanCore (one z) 0 ∧
    opOpcode op = 0x6E ∧ opReserved [fVD, fVA, (81, 10)] op = false ∧ opReserved [fVD, fVA, (81, 10)] z = false ∧ bitsOf z 81 10 = 0 ∧
    bitsOf op 81 10 ≠ 0 ∧ s.getF (cCurve 0) / bitsOf op 81 10 = 4 ∧ exchangePairs 4 (s.replicas 0) = [1] ∧
    decidePair s 0 2 1 = true ∧ has [(qFaultCode 0 .v, 0x30)] (run (.vecXchg 0) (one z)) = true :=
  ⟨_, _, _, rfl, rfl, rfl, atHead (by decide +kernel), atHead (by decide +kernel), clean (by decide +kernel), clean (by decide +kernel), by decide +kernel⟩

/-- A step mask 1 with and without acceptance, an accepted pair that was not proposed, and a pair past the replicas. -/
theorem test_vecSwap : ∃ (op : OpWord) (g : Nat → Nat → State), op = opw .v 0x6F [(5, 3)] ∧
    g = (fun acc step => (energies (one op)).modCore 0 (fun c => { c with vregs := [(3 * 64, BitVec.ofNat 32 acc), (3 * 64 + 1, BitVec.ofNat 32 step)] })) ∧
    (∀ x ∈ [(0, 1), (1, 1), (2, 1), (0, 2)], AtHead (g x.1 x.2) 0 .v op ∧ CleanCore (g x.1 x.2) 0 ∧
      bitsOf ((g x.1 x.2).lane 0 (vA op) 0) 0 16 = x.1 ∧ bitsOf ((g x.1 x.2).lane 0 (vA op) 1) 0 16 = x.2) ∧ opOpcode op = 0x6F ∧
    opReserved [fVA] op = false ∧ firstFault (swapChecks (g 0 1) 0 0 1) = none ∧ firstFault (swapChecks (g 1 1) 0 1 1) = none ∧
    (g 1 1).unitsUp 0 + (g 1 1).unitsUp 0 / 32 = 66 ∧ (g 1 1).replBase 0 0 + 66 ≤ (g 1 1).replBase 0 1 ∧ (g 0 2).replicas 0 = 2 ∧
    has [(qFaultCode 0 .v, 0x30)] (run (.vecSwap 0) (g 2 1)) = true ∧ has [(qFaultCode 0 .v, 0x30)] (run (.vecSwap 0) (g 0 2)) = true := by
  refine ⟨_, _, rfl, rfl, ?_, by decide +kernel⟩
  intro x h
  simp only [List.mem_cons, List.not_mem_nil, or_false] at h
  rcases h with rfl | rfl | rfl | rfl <;>
    exact ⟨atHead (by decide +kernel), clean (by decide +kernel), by decide +kernel⟩

/-- One replica with energy -7 and a list of 2 slots: empty, full with a worse one, full with better ones; K 0, CLEAR and EMIT. -/
theorem test_bestk : ∃ (op z cl em : OpWord) (s full low e : State), op = opw .v 0x70 [(0, 1), (5, 2), (18, 0x40), (81, 2), (114, 1)] ∧
    z = opw .v 0x70 [(18, 0x40), (81, 33)] ∧ cl = opw .v 0x70 [(18, 0x40), (112, 1)] ∧ em = opw .v 0x70 [(10, 3), (18, 0x40), (81, 2), (113, 1)] ∧
    s = (put [(cReplicas 0, 0), (cRestart 0, 3)] (one op)).modCore 0 (fun c => { c with vregs := [(2 * 64, BitVec.ofInt 32 (-7)), (2 * 64 + 1, BitVec.ofInt 32 (-1))] }) ∧
    full = (s.wr 0 .tile 0x5C [1]).wr 0 .tile 0x7C [1] ∧
    low = (full.wr 0 .tile 0x40 (natLe 8 (2 ^ 64 - 7))).wr 0 .tile 0x60 (natLe 8 (2 ^ 64 - 8)) ∧
    e = ((one em).wr 0 .tile 0x5C [1]).wr 0 .tile 0x40 (natLe 8 9) ∧ AtHead s 0 .v op ∧ AtHead full 0 .v op ∧ AtHead low 0 .v op ∧
    AtHead (one z) 0 .v z ∧ AtHead (one cl) 0 .v cl ∧ AtHead e 0 .v em ∧ CleanCore s 0 ∧ CleanCore full 0 ∧ CleanCore low 0 ∧ CleanCore e 0 ∧
    opOpcode op = 0x70 ∧ opOpcode em = 0x70 ∧ vTile op = 0x40 ∧ bitsOf op 81 10 = 2 ∧ s.replicas 0 = 1 ∧ bitOf op 112 = false ∧ bitOf op 113 = false ∧
    opReserved [fVD, fVA, fTADDR, (81, 10), (114, 1)] op = false ∧ opReserved [fVD, fVA, fTADDR, (81, 10), (114, 1)] z = false ∧
    bitOf cl 112 = true ∧ opReserved [fTADDR, (112, 1)] cl = false ∧ bitOf em 113 = true ∧ opReserved [fVB, fTADDR, (81, 10), (113, 1)] em = false ∧
    s.pair 0 2 0 = -7 ∧ (bitOf (s.pairBits 0 2 1) 0, bitOf (s.pairBits 0 2 1) 2, bitOf (s.pairBits 0 2 1) 3) = (false, false, false) ∧
    slotUsed s 0 0x40 0 = false ∧ admitSlot s 0 0x40 2 (-7) = some 0 ∧ (slotUsed full 0 0x40 0 && slotUsed full 0 0x40 1) = true ∧
    admitSlot full 0 0x40 2 (-7) = some 0 ∧ (∀ j, j < 2 → slotEnergy low 0 0x40 j ≤ -7) ∧ admitSlot low 0 0x40 2 (-7) = none ∧
    sortedSlots e 0 0x40 2 = [0] ∧ flagsReject 8#64 = true ∧ has [(qFaultCode 0 .v, 0x33)] (run (.vecBestkAdmit 0) (one z)) = true :=
  ⟨_, _, _, _, _, _, _, _, rfl, rfl, rfl, rfl, rfl, rfl, rfl, rfl, atHead (by decide +kernel), atHead (by decide +kernel), atHead (by decide +kernel),
    atHead (by decide +kernel), atHead (by decide +kernel), atHead (by decide +kernel), clean (by decide +kernel), clean (by decide +kernel),
    clean (by decide +kernel), clean (by decide +kernel), by decide +kernel⟩

/-- One pair of bits 0 and 9 over 2 samples of which the first has both; one difference at the next 64 bytes. -/
theorem test_paircnt : ∃ (op : OpWord) (s : State), op = opw .v 0x71 [(10, 2), (18, 0x40), (37, 0x100), (87, 1), (100, 1), (112, 1)] ∧
    s = (((one op).modCore 0 (fun c => { c with vregs := [(2 * 64, 0x1000#32), (2 * 64 + 2, 64#32)] })).wr 0 .tile 0x40 (natLe 4 (9 * 2 ^ 16))).wr 0 .tile 0x1000 [1, 2] ∧
    AtHead s 0 .v op ∧ CleanCore s 0 ∧ vCount op = 1 ∧ opOpcode op = 0x71 ∧
    opReserved [fVB, fTADDR, fLADDR, fCOUNT, (87, 13), (100, 11), (112, 1)] op = false ∧ firstFault (paircntChecks s 0 op) = none ∧
    diffBase op = 0x80 ∧ pairCount s 0 op 0 = 1 ∧ satS 32 (diffAt s 0 0x80 0 - 1) = diffAt s 0 0x80 0 - 1 :=
  ⟨_, _, rfl, rfl, atHead (by decide +kernel), clean (by decide +kernel), by decide +kernel⟩

/-- A weight of 32,767 with difference 1 in lace, and of 127 in a tensor of S8. -/
theorem test_updates : ∃ (w t : OpWord) (s u : State), w = opw .v 0x72 [(18, 0x40), (37, 0x100)] ∧ t = opw .v 0x73 [(10, 2), (15, 6), (18, 0x40), (87, 1)] ∧
    s = ((one w).setLace 0 0x100 (BitVec.ofNat 32 (63 * 2 ^ 17 + 32767 * 2 + 1))).wr 0 .tile 0x40 (natLe 4 1) ∧
    u = ((one t).wr 0 .tile 0x40 [127]).wr 0 .tile 0x80 (natLe 4 1) ∧ AtHead s 0 .v w ∧ AtHead u 0 .v t ∧ CleanCore s 0 ∧ CleanCore u 0 ∧
    opOpcode w = 0x72 ∧ opReserved [fTADDR, fLADDR, fCOUNT, (81, 6)] w = false ∧ vQ w = 0 ∧ vLace w % 64 = 0 ∧ vTile w % 64 = 0 ∧
    keyBase w + 8 * 1 ≤ 0x80000 ∧ sbitsOf (s.lace 0 0x100) 1 16 + diffAt s 0 0x40 0 = 32768 ∧ opOpcode t = 0x73 ∧
    opReserved [fVB, fTADDR, fCOUNT, fFMT, (87, 13), (81, 6)] t = false ∧ vQ t = 0 ∧ vFmt t = 6 ∧ diffBase t = 0x80 ∧
    vTile t + 1 * fmtBytes (vFmt t) ≤ diffBase t ∧
    (wupdEntry s 0 w 0 s).lace 0 0x100 = BitVec.ofNat 32 (63 * 2 ^ 17 + 32767 * 2 + 1) ∧ (tupdOne 0 t 0 u).rd 0 .tile 0x40 1 = [127] :=
  ⟨_, _, _, _, rfl, rfl, rfl, rfl, atHead (by decide +kernel), atHead (by decide +kernel), clean (by decide +kernel), clean (by decide +kernel), by decide +kernel⟩

/-- Words 0x600 to 0x610 of the core page with CLEAR, and one word past a range; two uniforms for purpose 9. -/
theorem test_creg_fill : ∃ (c p : OpWord), c = opw .v 0x75 [(0, 30), (55, 1), (81, 0x600), (112, 1)] ∧ p = opw .v 0x74 [(10, 2), (18, 0x40), (55, 1), (81, 9), (89, 5)] ∧
    AtHead (one c) 0 .v c ∧ AtHead (one p) 0 .v p ∧ CleanCore (one p) 0 ∧ opOpcode c = 0x75 ∧
    opReserved [fVD, fCOUNT, (81, 12), (112, 1)] c = false ∧ bitsOf c 81 12 = 0x600 ∧ vCount c = 2 ∧ vD c + vCount c ≤ 32 ∧
    (∀ k, k < 2 → cregAllowed (0x600 + 8 * k) = true) ∧ cregAllowed 0x618 = false ∧ opOpcode p = 0x74 ∧
    opReserved [fVB, fTADDR, fCOUNT, (81, 24)] p = false ∧ bitsOf p 81 8 = 9 ∧ vTile p % 64 = 0 ∧ vTile p + 2 * vCount p ≤ 0x80000 :=
  ⟨_, _, rfl, rfl, atHead (by decide +kernel), atHead (by decide +kernel), clean (by decide +kernel), by decide +kernel⟩

/-! ### Rings, barriers, holds -/

/-- Die 0's rings turn in 288 cycles; positions 0 to 4 are fenced, position 5 serves core 0, 6 core 1, 7 core 9 and the first
tap, 100 core 10 and the second. -/
def rings : State := put ([(rdRotation 0, 288), (rsLid 0 5, 0), (rsLid 0 6, 1), (rsLid 0 7, 9), (rsLid 0 100, 10), (rdTap0 0, 7),
  (rdTap1 0, 100)] ++ (List.range 5).map fun p => (rsFenced 0 p, 1)) base

/-- A flit heads the FIFO of core 0's stop. -/
def head (f : Flit) : State := rings.modStop 0 fun t => { t with fifo := [f] }

/-- A flit that position `pos` injected is in slot 9 of ring 0, and is not to be looked at before core cycle `nx`: the slot
meets position 5 in cycle 284, 7 in 286 and 100 in 91. -/
def placed (pos nx : Nat) (f : Flit) : Placed := ⟨pos, f, false, nx, false⟩
def inSlot (pos nx : Nat) (f : Flit) (s : State) : State := s.setSlot 0 0 9 (some (placed pos nx f))

/-- A message is in a sync field, and is not to be looked at before core cycle `nx`. -/
def inField (slot nx : Nat) (m : SyncMsg) (s : State) : State := s.setSync 0 slot (some ⟨0, m, nx, none⟩)

/-- What core 0's stop holds: a SET, and an ADD that overflows; one in a field at slot 16, which meets it in cycle 277, and
one in a SYNC flit, with room for it, with a passed one of its sender, and without room. -/
theorem test_counterMessage : ∃ (m : SyncMsg) (s u a b : State) (q : Nat → State), m = .counter 0 63 9 true 0 0 0 ∧
    s = rings.modStop 0 (fun t => { t with ctrQ := [m] }) ∧
    u = (put [(cCtr 0 63, 1)] rings).modStop 0 (fun t => { t with ctrQ := [.counter 0 63 65535 false 0 0 0] }) ∧
    a = inField 16 277 m rings ∧ b = inSlot 7 284 (.sync 9 m) rings ∧
    q = (fun n => b.modStop 0 fun t => { t with ctrQ := List.replicate n m }) ∧ NoWaiter s 0 63 ∧ s.owner 0 = some 0 ∧
    s.ringsRun 0 = true ∧ (s.stop 0).ctrQ = [m] ∧ (rings.stop 0).ctrQ = [] ∧
    has [(cCtr 0 63, 9)] (run (.counterMessage 0 none) s) = true ∧ has [(cCtr 0 63, 65535)] (run (.counterMessage 0 none) u) = true ∧
    ((run (.counterMessage 0 none) u).part 0).faults = [⟨0x43, 0, 0, 0, true⟩] ∧ a.posOf 0 = some 5 ∧
    a.standsAt 0 16 5 277 = true ∧ a.fieldTurn 0 16 = some (⟨0, m, 277, none⟩, 277) ∧ (a.stop 0).ctrQ.length < 16 ∧
    ((run (.counterMessage 0 (some ⟨0, 16, true⟩)) a).stop 0).ctrQ = [m] ∧
    (run (.counterMessage 0 (some ⟨0, 16, true⟩)) (a.modStop 0 fun t => { t with ctrQ := List.replicate 16 m })).dies = a.dies ∧
    b.standsAt 0 9 5 284 = true ∧ b.slotTurn 0 0 9 = some (placed 7 284 (.sync 9 m), 284) ∧ b.syncPassOf 0 7 = none ∧
    ((run (.counterMessage 0 (some ⟨0, 9, false⟩)) (q 14)).stop 0).ctrQ.length = 15 ∧
    (run (.counterMessage 0 (some ⟨0, 9, false⟩)) (q 15)).syncPassOf 0 7 = some (0, 9) ∧
    ((run (.counterMessage 0 (some ⟨0, 9, false⟩)) (b.setSyncPass 0 7 (some (0, 10)))).stop 0).ctrQ = [] :=
  ⟨_, _, _, _, _, _, rfl, rfl, rfl, rfl, rfl, rfl, noWaiter (by decide +kernel), by decide +kernel⟩

/-- A PARTIAL into an empty slot, into one with a PARTIAL of its tag, and past one of another core. -/
theorem test_inject : ∃ (f g : Flit) (s t u : State), f = .partials 0 9 false 0 3 4 1 [7#96] ∧ g = .partials 1 9 false 0 3 4 2 [5#96] ∧ s = head f ∧
    t = inSlot 6 286 g s ∧ u = inSlot 6 286 (.partials 1 8 false 0 3 4 2 [5]) s ∧ (∀ k, (s.core 0).move k = none) ∧ (∀ c m, f ≠ .sync c m) ∧
    s.ringsRun 0 = true ∧ s.slotExists 0 9 = true ∧ s.lidAt 0 5 = some 0 ∧ s.getF (rdExact 0) = 0 ∧ (s.stop 0).fifo = [f] ∧ (s.stop 0).outbound = [] ∧
    (s.stop 0).arrivals = [] ∧ s.meetAt 0 9 5 (max (s.die 0).now (s.stop 0).nextInject) = 284 ∧
    (s.quiet 0 284 9 6 && t.quiet 0 284 9 6 && u.quiet 0 284 9 6) = true ∧ mayRide f 0 9 = true ∧ mayRide f 0 16 = false ∧
    s.slotAt 0 0 9 = none ∧ s.reservedBy 0 0 9 = none ∧ (s.setReserved 0 0 9 (some 5)).reservedBy 0 0 9 = some 5 ∧ u.slotAt 0 0 9 ≠ none ∧
    combines f (.partials 1 8 false 0 3 4 2 [5]) = false ∧ t.slotAt 0 0 9 = some (placed 6 286 g) ∧
    (run (.flitInject 0 .stop 5 0 9) t).slotAt 0 0 9 = some (placed 6 286 (.partials 1 9 false 0 3 4 3 [12])) ∧
    (run (.flitInject 0 .stop 5 0 9) s).slotAt 0 0 9 = some (placed 5 285 f) ∧ has [(rdFlits 0, 1)] (run (.flitInject 0 .stop 5 0 9) s) = true ∧
    (run (.flitInject 0 .stop 5 0 9) u).stops = u.stops :=
  ⟨_, _, _, _, _, rfl, rfl, rfl, rfl, rfl, noMoves (by decide +kernel), (fun _ _ h => nomatch h), by decide +kernel⟩

/-- An arrival into the upstream field of slot 32, which meets position 5 in cycle 261, and into one that holds an ARRIVE of its
barrier; a SYNC flit for a slot without a field. -/
theorem test_injectSync : ∃ (f : Flit) (s t : State), f = .sync 0 (.arrive 3 1 false) ∧ s = head f ∧ t = inField 32 263 (.arrive 3 2 true) s ∧
    (∀ k, (s.core 0).move k = none) ∧ s.slotExists 0 32 = true ∧ s.meetAt 0 32 5 (max (s.die 0).now (s.stop 0).nextInject) = 261 ∧
    (s.quiet 0 261 32 6 && t.quiet 0 261 32 6) = true ∧ s.syncAt 0 32 = none ∧ t.syncAt 0 32 = some ⟨0, .arrive 3 2 true, 263, none⟩ ∧
    s.joinedAt 0 0 9 (.arrive 3 1 false) = none ∧ upstream 0 9 = false ∧ mayRide f 0 9 = true ∧
    (run (.flitInject 0 .stop 5 0 32) s).syncAt 0 32 = some ⟨0, .arrive 3 1 false, 262, none⟩ ∧ ((run (.flitInject 0 .stop 5 0 32) s).stop 0).fifo = [] ∧
    (run (.flitInject 0 .stop 5 0 32) t).syncAt 0 32 = some ⟨0, .arrive 3 3 false, 263, none⟩ :=
  ⟨_, _, _, rfl, rfl, rfl, noMoves (by decide +kernel), by decide +kernel⟩

/-- In exact-timing mode: a table that owns slot 9 of ring 0, empty and occupied, none at all, and one that owns slot 10. -/
theorem test_injectExact : ∃ (f : Flit) (g : Byte → State) (o : State), f = .partials 0 9 false 0 3 4 1 [7#96] ∧
    g = (fun b => ((head f).setF (rdExact 0) 1).modStop 0 fun t => { t with slots := if b = 0 then [] else [(1, b)] }) ∧
    o = inSlot 6 286 (.partials 1 8 false 0 3 4 2 [5]) (g 2) ∧ (∀ k, ((g 0).core 0).move k = none) ∧ (∀ c m, f ≠ .sync c m) ∧
    (g 2).getF (rdExact 0) = 1 ∧ (g 2).owner 0 = some 0 ∧ (g 2).meetAt 0 9 5 (max ((g 2).die 0).now ((g 2).stop 0).nextInject) = 284 ∧
    ((g 2).quiet 0 284 9 6 && o.quiet 0 284 9 6) = true ∧ ownsSlot ((g 2).stopTable 0) 0 9 = true ∧ o.slotAt 0 0 9 ≠ none ∧
    ownsSlot ((g 4).stopTable 0) 0 9 = false ∧ ownsSlot ((g 4).stopTable 0) 0 10 = true ∧ mayRide f 0 10 = true ∧ ((g 0).stop 0).slots = [] ∧
    (run (.flitInject 0 .stop 5 0 9) (g 2)).slotAt 0 0 9 = some (placed 5 285 f) ∧
    ((run (.flitInject 0 .stop 5 0 9) o).part 0).faults = [⟨0x60, 0, 0, 0, true⟩] ∧
    ((run (.flitInject 0 .stop 5 0 9) (g 0)).part 0).faults = [⟨0x61, 0, 0, 0, true⟩] ∧ (run (.flitInject 0 .stop 5 0 9) (g 4)).stops = (g 4).stops :=
  ⟨_, _, _, rfl, rfl, rfl, noMoves (by decide +kernel), (fun _ _ h => nomatch h), by decide +kernel⟩

/-- A tap of die 0 with a STOP, a COUNTER and a SEND to hand over: slot 16 meets the first tap in cycle 279. -/
def atTap (rel ctr : List SyncMsg) (l : List Flit) : State := rings.modTap 0 false fun _ => ⟨rel, ctr, l⟩

theorem test_bridge : ∃ (f : Flit) (m : SyncMsg), f = .send 300 2 0 false 0 true 0x40 true false 0 0 (List.replicate 64 7) ∧ m = .counter 1 2 3 false 0 0 0 ∧
    (atTap [.stop 0 5] [m] [f]).meetAt 0 16 7 0 = 279 ∧ (atTap [.stop 0 5] [m] [f]).quiet 0 279 16 6 = true ∧ (atTap [] [] [f]).quiet 0 286 9 6 = true ∧
    (atTap [] [] [f]).meetAt 0 9 7 0 = 286 ∧ (atTap [] [] [f]).ownUses 0 7 0 9 286 = false ∧ mayRide f 0 9 = true ∧
    (run (.flitInject 0 .bridge 0 0 16) (atTap [.stop 0 5] [m] [f])).syncAt 0 16 = some ⟨0, .stop 0 5, 279, some 372⟩ ∧
    (run (.flitInject 0 .bridge 0 0 16) (atTap [] [m] [f])).syncAt 0 16 = some ⟨0, m, 279, none⟩ ∧
    (run (.flitInject 0 .bridge 0 0 9) (atTap [] [] [f])).slotAt 0 0 9 = some (placed 7 286 f) ∧
    has [(rdFlits 0, 1)] (run (.flitInject 0 .bridge 0 0 9) (atTap [] [] [f])) = true := ⟨_, _, rfl, rfl, by decide +kernel⟩

/-- The home slot on ring 3 of position 5 stands there in cycle 0, and is not yet, and already, reserved. -/
theorem test_reservation : ∃ s : State, s = head (.partials 0 9 false 0 3 4 1 [7]) ∧ (s.homeSlot 0 5 1, s.homeSlot 0 5 2, s.homeSlot 0 5 3) = (101, 197, 5) ∧
    (s.homeAt 0 5 1, s.homeAt 0 5 2, s.homeAt 0 5 3) = (192, 96, 0) ∧ s.quiet 0 0 5 0 = true ∧ s.reservedBy 0 3 5 = none ∧
    (s.stop 0).fifo.head? ≠ none ∧ (run (.reservation 0 5) s).reservedBy 0 3 5 = some 5 ∧ has [(rsReserves 0 5, 1)] (run (.reservation 0 5) s) = true ∧
    (s.setReserved 0 3 5 (some 5)).reservedBy 0 3 5 = some 5 := ⟨_, rfl, by decide +kernel⟩

namespace NoticeMeets

def n : W32 :=
  BitVec.ofNat 32 (9 * 2 ^ 21 + 65 * 64 + 2 ^ 5)

def s : State :=
  ((((put [(cUnits 0, 128), (cColEnd 0 0, 1), (cDescBase 0, 0x100), (cReplBase 0, 0x400), (cWinValid 0 0, 1), (cWinFirst 0 0, 9 * 2 ^ 15 +
  64), (cWinLast 0 0, 127), (cWinDir 0 0, 0x300)] rings).setLace 0 0x301 (BitVec.ofNat 32 (0x380 * 2 ^ 14 + 2 ^ 13))).setLace 0 0x380
  (BitVec.ofNat 32 (63 * 2 ^ 17 + 3 * 2 + 1))))

def a : State :=
  inSlot 5 284 (.notices 0 [n] []) s

def b : State :=
  inSlot 7 284 (.notices 9 [n] []) s

def e : State :=
  put [(reValid 0 3, 1), (reFirst 0 3, 9 * 2 ^ 15 + 64), (reLast 0 3, 127), (reDies 0 3, 2)] (inSlot 5 286 (.notices 0 [n] []) s)

theorem home_premises :
    a.slotTurn 0 0 9 = some (placed 5 284 (.notices 0 [n] []), 284) ∧ a.standsAt 0 9 5 284 = true ∧ a.lidAt 0 5 = some 0 := by
  decide +kernel

theorem core_premises :
    b.slotTurn 0 0 9 = some (placed 7 284 (.notices 9 [n] []), 284) ∧ (b.core 0).phase = none ∧ (b.core 0).inbox = [] ∧ b.windowFor 0 n =
    some 0 ∧ b.dirAt 0 0 n = 0x301 ∧ bitOf (b.lace 0 0x301) 13 = true ∧ bitsOf n 1 4 < b.replicas 0 ∧ bitsOf (b.lace 0 0x301) 14 18 = 0x380
    ∧ bitOf (b.lace 0 0x380) 0 = true ∧ bitsOf (b.lace 0 0x380) 17 15 = 63 ∧ 63 < b.units 0 ∧ b.colourOf 0 63 ≠ some (bitsOf (b.lace 0
    0x301) 9 4) := by
  decide +kernel

theorem home_freed :
    (run (.flipNoticeReceive 0 5 0 9) a).slotAt 0 0 9 = none := by
  decide +kernel

theorem core_passed :
    (run (.flipNoticeReceive 0 5 0 9) b).slotAt 0 0 9 = some (placed 7 285 (.notices 9 [n] [])) := by
  decide +kernel

theorem export_premises :
    e.slotTurn 0 0 9 = some (placed 5 286 (.notices 0 [n] []), 286) ∧ e.standsAt 0 9 7 286 = true ∧ e.lidAt 0 7 = some 9 ∧ e.exportsOf 0 n
    = [3] ∧ e.getF (reLink 0 3) = 0 ∧ e.getF (reDies 0 3) = 2 ^ 1 ∧ e.resetting 1 = false ∧ (e.die 1).tap0.flits = [] := by
  decide +kernel

theorem export_copied :
    ((run (.noticeExport 0 0 9) e).die 1).tap0.flits = [.notices bridgeSrc [n] []] := by
  decide +kernel

end NoticeMeets

open NoticeMeets in
/-- A notice back at its injector; a notice of unit 65 of core 9 at a core with a window for it; an export to die 1. -/
theorem test_noticeFlit : ∃ (n : W32) (s a b e : State), n = BitVec.ofNat 32 (9 * 2 ^ 21 + 65 * 64 + 2 ^ 5) ∧
    s = ((((put [(cUnits 0, 128), (cColEnd 0 0, 1), (cDescBase 0, 0x100), (cReplBase 0, 0x400), (cWinValid 0 0, 1), (cWinFirst 0 0, 9 * 2 ^ 15 + 64),
      (cWinLast 0 0, 127), (cWinDir 0 0, 0x300)] rings).setLace 0 0x301 (BitVec.ofNat 32 (0x380 * 2 ^ 14 + 2 ^ 13))).setLace 0 0x380
        (BitVec.ofNat 32 (63 * 2 ^ 17 + 3 * 2 + 1)))) ∧
    a = inSlot 5 284 (.notices 0 [n] []) s ∧ b = inSlot 7 284 (.notices 9 [n] []) s ∧
    e = put [(reValid 0 3, 1), (reFirst 0 3, 9 * 2 ^ 15 + 64), (reLast 0 3, 127), (reDies 0 3, 2)] (inSlot 5 286 (.notices 0 [n] []) s) ∧ CleanCore s 0 ∧ StopIdle a 0 ∧
    (∀ k, (a.core 0).move k = none) ∧ a.slotTurn 0 0 9 = some (placed 5 284 (.notices 0 [n] []), 284) ∧ a.standsAt 0 9 5 284 = true ∧ a.lidAt 0 5 = some 0 ∧
    b.slotTurn 0 0 9 = some (placed 7 284 (.notices 9 [n] []), 284) ∧ (b.core 0).phase = none ∧ (b.core 0).inbox = [] ∧
    b.windowFor 0 n = some 0 ∧ b.dirAt 0 0 n = 0x301 ∧ bitOf (b.lace 0 0x301) 13 = true ∧ bitsOf n 1 4 < b.replicas 0 ∧
    bitsOf (b.lace 0 0x301) 14 18 = 0x380 ∧ bitOf (b.lace 0 0x380) 0 = true ∧ bitsOf (b.lace 0 0x380) 17 15 = 63 ∧ 63 < b.units 0 ∧
    b.colourOf 0 63 ≠ some (bitsOf (b.lace 0 0x301) 9 4) ∧ (run (.flipNoticeReceive 0 5 0 9) a).slotAt 0 0 9 = none ∧
    (run (.flipNoticeReceive 0 5 0 9) b).slotAt 0 0 9 = some (placed 7 285 (.notices 9 [n] [])) ∧
    e.slotTurn 0 0 9 = some (placed 5 286 (.notices 0 [n] []), 286) ∧ e.standsAt 0 9 7 286 = true ∧ e.lidAt 0 7 = some 9 ∧ e.exportsOf 0 n = [3] ∧
    e.getF (reLink 0 3) = 0 ∧ e.getF (reDies 0 3) = 2 ^ 1 ∧ e.resetting 1 = false ∧ (e.die 1).tap0.flits = [] ∧
    ((run (.noticeExport 0 0 9) e).die 1).tap0.flits = [.notices bridgeSrc [n] []] :=
  ⟨n, s, a, b, e, rfl, rfl, rfl, rfl, rfl, clean (by decide +kernel), idle (by decide +kernel), noMoves (by decide +kernel), home_premises.1,
  home_premises.2.1, home_premises.2.2, core_premises.1, core_premises.2.1, core_premises.2.2.1, core_premises.2.2.2.1, core_premises.2.2.2.2.1, core_premises.2.2.2.2.2.1, core_premises.2.2.2.2.2.2.1,
  core_premises.2.2.2.2.2.2.2.1, core_premises.2.2.2.2.2.2.2.2.1, core_premises.2.2.2.2.2.2.2.2.2.1, core_premises.2.2.2.2.2.2.2.2.2.2.1, core_premises.2.2.2.2.2.2.2.2.2.2.2,
  home_freed, core_passed, export_premises.1, export_premises.2.1, export_premises.2.2.1, export_premises.2.2.2.1, export_premises.2.2.2.2.1, export_premises.2.2.2.2.2.1, export_premises.2.2.2.2.2.2.1,
  export_premises.2.2.2.2.2.2.2, export_copied⟩

/-- A PARTIAL and a SEND for core 0 with room, without it, and past a passed one of its sender; a SEND for core 256 at the first tap. -/
theorem test_receive : ∃ (f g h : Flit) (s p q : State), f = .partials 9 0 false 0 63 63 2 [5#96] ∧
    g = .send 9 2 0 false 0 true 0x40 true false 0 0 (List.replicate 64 7) ∧ h = .send 0 2 256 false 0 true 0x40 true false 0 0 (List.replicate 64 7) ∧
    s = inSlot 7 284 f rings ∧ p = inSlot 7 284 g rings ∧ q = p.modStop 0 (fun t => { t with rx := List.replicate 8 g }) ∧
    CleanCore s 0 ∧ s.slotTurn 0 0 9 = some (placed 7 284 f, 284) ∧ s.standsAt 0 9 5 284 = true ∧ p.slotTurn 0 0 9 = some (placed 7 284 g, 284) ∧
    (s.core 0).phase = none ∧ (s.stop 0).rx.length < 8 ∧ p.passOf 0 7 = none ∧ 8 ≤ (q.stop 0).rx.length ∧
    ((run (.partialReceive 0 5 0 9 0) s).stop 0).rx = [f] ∧ ((run (.sendFlitReceive 0 5 0 9 0) p).stop 0).rx = [g] ∧
    (run (.partialReceive 0 5 0 9 0) (s.modStop 0 fun t => { t with rx := List.replicate 8 g })).slotAt 0 0 9 = some (placed 7 285 f) ∧
    (run (.sendFlitReceive 0 5 0 9 0) q).passOf 0 7 = some (0, 9) ∧
    (run (.sendFlitReceive 0 5 0 9 0) (p.setPass 0 7 (some (1, 9)))).slotAt 0 0 9 = some (placed 7 285 g) ∧
    (inSlot 5 285 h rings).slotTurn 0 0 9 = some (placed 5 285 h, 286) ∧ rings.standsAt 0 9 7 286 = true ∧ rings.lidAt 0 7 = some 9 ∧ dieOf 9 = 0 ∧
    dieOf 256 = 1 ∧ rings.resetting 1 = false ∧ ((run (.sendFlitReceive 0 7 0 9 0) (inSlot 5 285 h rings)).die 1).tap0.flits = [h] :=
  ⟨_, _, _, _, _, _, rfl, rfl, rfl, rfl, rfl, rfl, clean (by decide +kernel), by decide +kernel⟩

/-- A PARTIAL of two contributions and the last flit of a SEND with SIG leave core 0's receive buffer. -/
theorem test_deliver : ∃ (f g : Flit) (s r : State), f = .partials 9 0 false 0 63 63 2 [5#96] ∧
    g = .send 9 2 0 false 0 false 0x40 true true 62 0 (List.replicate 64 7) ∧ s = rings.modStop 0 (fun t => { t with rx := [f] }) ∧
    r = (rings.modStop 0 (fun t => { t with rx := [g] })).modCore 9 (fun c => { c with moves := [(2, some ⟨opw .x 0x81 [(40, 1)], 1, 0⟩)] }) ∧
    CleanCore s 0 ∧ CleanCore r 0 ∧ NoWaiter s 0 63 ∧ NoWaiter r 0 62 ∧ s.ringsRun 0 = true ∧ s.slotAt 0 0 9 = none ∧ s.lidAt 0 5 = some 0 ∧
    (s.core 0).phase = none ∧ s.getF (cCtr 0 63) + 2 ≤ 65535 ∧ -2 ^ 94 ≤ s.psbAt 0 63 ∧ s.psbAt 0 63 < 2 ^ 94 ∧
    r.getF (cCtr 0 62) + 1 ≤ 65535 ∧ (r.core 9).move 2 = some ⟨opw .x 0x81 [(40, 1)], 1, 0⟩ ∧
    (run (.partialReceive 0 5 0 9 1) s).psbAt 0 63 = 5 ∧ has [(cCtr 0 63, 2)] (run (.partialReceive 0 5 0 9 1) s) = true ∧
    (run (.sendFlitReceive 0 5 0 9 1) r).rd 0 .tile 0x7F 2 = [7, 0] ∧ has [(cCtr 0 62, 1)] (run (.sendFlitReceive 0 5 0 9 1) r) = true ∧
    (((run (.sendFlitReceive 0 5 0 9 1) r).core 9).move 2) = some ⟨opw .x 0x81 [(40, 1)], 1, 1⟩ :=
  ⟨_, _, _, _, rfl, rfl, rfl, rfl, clean (by decide +kernel), clean (by decide +kernel), noWaiter (by decide +kernel), noWaiter (by decide +kernel), by decide +kernel⟩

/-- An arrival of 255 and of 256, with a drain count that waits for an exported notice; a counter message for E0. -/
theorem test_barrierUp : ∃ (g : Nat → Bool → State) (h : State),
    g = (fun n b => (inField 32 263 (.arrive 63 n b) rings).modDie 0 fun t => { t with exported := b.toNat }) ∧
    h = rings.setSlot 0 1 9 (some (placed 5 285 (.sync 0 (.counter 0 5 2 false 1 7 0)))) ∧
    (∀ n b, (n, b) ∈ [(255, false), (256, false), (256, true)] → (g n b).fieldTurn 0 32 = some (⟨0, .arrive 63 n b, 263, none⟩, 263)) ∧
    (g 255 false).barResetting 63 = false ∧ ((g 255 false).die 0).comb = [] ∧ (g 255 false).combOf 0 63 = (0, true) ∧
    (run (.dieCombine 0 (some ⟨0, 32, true⟩)) (g 255 false)).combOf 0 63 = (255, false) ∧
    has [(rbCount 63, 256)] (run (.dieCombine 0 (some ⟨0, 32, true⟩)) (g 256 false)) = true ∧
    (run (.dieCombine 0 (some ⟨0, 32, true⟩)) (g 256 false)).combOf 0 63 = (0, true) ∧ ((g 256 true).die 0).exported ≠ 0 ∧
    (run (.dieCombine 0 (some ⟨0, 32, true⟩)) (g 256 true)).combOf 0 63 = (256, true) ∧
    h.slotTurn 0 1 9 = some (placed 5 285 (.sync 0 (.counter 0 5 2 false 1 7 0)), 286) ∧
    (run (.dieCombine 0 (some ⟨1, 9, false⟩)) h).hostIn = [⟨7, 2, 0⟩] := by
  refine ⟨_, _, rfl, rfl, ?_, by decide +kernel⟩
  intro n b h
  simp only [List.mem_cons, Prod.mk.injEq, List.not_mem_nil, or_false] at h
  rcases h with ⟨rfl, rfl⟩ | ⟨rfl, rfl⟩ | ⟨rfl, rfl⟩ <;> decide +kernel

/-- The root below EXPECTED, at it, and past it with a drain completion. -/
theorem test_barrierRoot : ∃ r : Nat → Bool → State,
    r = (fun n b => (put [(rbValid 63, 1), (rbExpected 63, 512), (rbCount 63, n)] base).setRootAll 63 b) ∧
    (r 511 false).getF (rbCount 63) < (r 511 false).getF (rbExpected 63) ∧ (r 512 false).getF (rbSpan 63) = 0 ∧
    (r 512 false).rootAll 63 = false ∧ (r 513 true).rootAll 63 = true ∧ (r 513 true).pauseTbl 0 = none ∧ ((r 513 true).part 0).staged = false ∧
    has [(rbCount 63, 0)] (run (.barrierRootComplete 63) (r 512 false)) = true ∧
    ((run (.barrierRootComplete 63) (r 512 false)).die 0).tap0.rel.length = 1 ∧ ((run (.barrierRootComplete 63) (r 513 true)).die 0).tap1.rel.length = 1 ∧
    ((r 512 false).setF (pnPending 0) 1).getF (pnPending 0) = 1 := ⟨_, rfl, by decide +kernel⟩

/-- Core 0 waits at barrier 63 with RVAL 15 for RCTR 2, at a notice-drain barrier or not; slot 16 meets its stop in cycle 277. -/
def waits (drain : Bool) (l : List HeldRelease) (s : State) : State :=
  (put [(cCtr 0 2, 65520), (cArrived 0, 2 ^ 63 + 1)] s).modStop 0 fun t =>
    { t with barRec := [(63, (2, 15, drain))], seedLo := some 1, seedHi := some 2, releases := l }

namespace ReleaseDown

def m : SyncMsg :=
  .release 63 7 false true 3 true

def x : SyncMsg :=
  .release 63 7 true true 3 true

def a : State :=
  waits false [] (inField 16 277 m rings)

def b : State :=
  (waits true [] (inField 16 277 m rings)).modCore 0 (fun t => { t with inbox := [0] })

def c : State :=
  waits true [] (inField 16 277 x rings)

def e : State :=
  waits true [⟨x, false, false⟩] rings

def l : State :=
  e.modCore 0 (fun t => { t with inbox := [0] })

def u : State :=
  inField 16 277 (.stage 0 true 9) rings

theorem plain_premises :
    (a.stop 0).ctrQ = [] ∧ a.owner 0 = some 0 ∧ tblGet (fun _ => (0, 0, false)) (a.stop 0).barRec 63 = (2, 15, false) ∧ a.getF (cCtr 0 2) +
    15 ≤ 65535 ∧ a.fieldTurn 0 16 = some (⟨0, m, 277, none⟩, 277) ∧ a.atCore 0 16 277 = true := by
  decide +kernel

theorem behind_inbox_premises :
    b.fieldTurn 0 16 = some (⟨0, m, 277, none⟩, 277) ∧ b.undrained 0 = true := by
  decide +kernel

theorem exact_premises :
    c.fieldTurn 0 16 = some (⟨0, x, 277, none⟩, 277) ∧ e.ringsRun 0 = true ∧ e.undrained 0 = false ∧ l.undrained 0 = true := by
  decide +kernel

theorem stage_premises :
    u.fieldTurn 0 16 = some (⟨0, .stage 0 true 9, 277, none⟩, 277) := by
  decide +kernel

theorem plain_applied :
    has [(cCtr 0 2, 65535), (cCtr 0 3, 1), (cArrived 0, 1), (cSeedLo 0, 2 ^ 49 + 1)] (run (.barrierReleaseApply 0 (.passing 16)) a) = true := by
  decide +kernel

theorem behind_inbox_held :
    ((run (.barrierReleaseApply 0 (.passing 16)) b).stop 0).releases = [⟨m, true, false⟩] := by
  decide +kernel

theorem exact_held :
    ((run (.barrierReleaseApply 0 (.passing 16)) c).stop 0).releases = [⟨x, false, false⟩] := by
  decide +kernel

theorem held_applied :
    has [(cCtr 0 2, 65535)] (run (.barrierReleaseApply 0 (.held false)) e) = true ∧ ((run (.barrierReleaseApply 0 (.held false)) l).part
    0).faults = [⟨0x62, 0, 0, 0, true⟩] := by
  decide +kernel

theorem stage_written :
    ((run (.seedStage ⟨0, 16⟩) u).stop 0).seedHi = some 9 := by
  decide +kernel

end ReleaseDown

open ReleaseDown in
/-- A release with the deadline's SET of counter 3 and a seed's install: applied as it meets, held behind a notice in the inbox,
held for TARGET; a held one applied, and one whose notice is still to be applied; a staged high half. -/
theorem test_barrierDown : ∃ (m x : SyncMsg) (a b c e l u : State), m = .release 63 7 false true 3 true ∧ x = .release 63 7 true true 3 true ∧
    a = waits false [] (inField 16 277 m rings) ∧ b = (waits true [] (inField 16 277 m rings)).modCore 0 (fun t => { t with inbox := [0] }) ∧
    c = waits true [] (inField 16 277 x rings) ∧ e = waits true [⟨x, false, false⟩] rings ∧ l = e.modCore 0 (fun t => { t with inbox := [0] }) ∧
    u = inField 16 277 (.stage 0 true 9) rings ∧ (∀ n, NoWaiter a 0 n) ∧ (∀ n, NoWaiter e 0 n) ∧ (a.stop 0).ctrQ = [] ∧ a.owner 0 = some 0 ∧
    tblGet (fun _ => (0, 0, false)) (a.stop 0).barRec 63 = (2, 15, false) ∧ a.getF (cCtr 0 2) + 15 ≤ 65535 ∧
    a.fieldTurn 0 16 = some (⟨0, m, 277, none⟩, 277) ∧ a.atCore 0 16 277 = true ∧ b.fieldTurn 0 16 = some (⟨0, m, 277, none⟩, 277) ∧
    b.undrained 0 = true ∧ c.fieldTurn 0 16 = some (⟨0, x, 277, none⟩, 277) ∧ e.ringsRun 0 = true ∧ e.undrained 0 = false ∧ l.undrained 0 = true ∧
    u.fieldTurn 0 16 = some (⟨0, .stage 0 true 9, 277, none⟩, 277) ∧
    has [(cCtr 0 2, 65535), (cCtr 0 3, 1), (cArrived 0, 1), (cSeedLo 0, 2 ^ 49 + 1)] (run (.barrierReleaseApply 0 (.passing 16)) a) = true ∧
    ((run (.barrierReleaseApply 0 (.passing 16)) b).stop 0).releases = [⟨m, true, false⟩] ∧
    ((run (.barrierReleaseApply 0 (.passing 16)) c).stop 0).releases = [⟨x, false, false⟩] ∧
    has [(cCtr 0 2, 65535)] (run (.barrierReleaseApply 0 (.held false)) e) = true ∧
    ((run (.barrierReleaseApply 0 (.held false)) l).part 0).faults = [⟨0x62, 0, 0, 0, true⟩] ∧
    ((run (.seedStage ⟨0, 16⟩) u).stop 0).seedHi = some 9 :=
  ⟨m, x, a, b, c, e, l, u, rfl, rfl, rfl, rfl, rfl, rfl, rfl, rfl, noWaiters (by decide +kernel), noWaiters (by decide +kernel), plain_premises.1,
  plain_premises.2.1, plain_premises.2.2.1, plain_premises.2.2.2.1, plain_premises.2.2.2.2.1, plain_premises.2.2.2.2.2, behind_inbox_premises.1, behind_inbox_premises.2, exact_premises.1, exact_premises.2.1, exact_premises.2.2.1, exact_premises.2.2.2,
  stage_premises, plain_applied, behind_inbox_held, exact_held, held_applied.1, held_applied.2, stage_written⟩

/-- A framed launch of counter 4; LARRIVEs below TOTAL and past it at the home; an LRELEASE at a member. -/
theorem test_span : ∃ (f h m : State), f = (put [(hcPart 4, 0), (hcCtr 4, 63)] base).modPart 0 (fun t => { t with framed := [⟨4, 9, none⟩] }) ∧
    h = put [(rbValid 63, 1), (lbTotal 63, 512), (lbCount 63, 256)] base ∧ m = put [(rbValid 63, 1), (rbSpan 63, 1)] base ∧ f.clocked 0 = true ∧
    (f.part 0).framed = [⟨4, 9, none⟩] ∧ f.partCores 0 = List.range 256 ∧ (∀ q, q < 8 → q ≠ 0 → (f.part q).framed = []) ∧
    h.getF (lbHome 63) = h.pkgId ∧ h.barResetting 63 = false ∧ h.leader 0 = some 0 ∧ h.owner 0 = some 0 ∧
    (run (.larrive 63 255 0 false) h).sendersOf 63 = [0] ∧ has [(lbCount 63, 511)] (run (.larrive 63 255 0 false) h) = true ∧
    ((run (.larrive 63 257 0 false) h).part 0).faults = [⟨0x71, 0, 0, 0, true⟩] ∧ m.pauseTbl 0 = none ∧ (m.part 0).staged = false ∧
    ((run (.lrelease 63 true 3 false) m).die 0).tap0.rel = [.release 63 0 false true 3 false] :=
  ⟨_, _, _, rfl, rfl, rfl, by decide +kernel⟩

/-- An image of 512 bytes at HBM address 0x1000 whose MODES is `modes`. -/
def img (modes : Nat) (l : List Section) : Image := ⟨0x1000, 512, 0, 0, modes, 1, 0, 0, 0, 0, l⟩

/-- A hold with and without a reason; a stack's debt; a first fault at E0 with a checkpoint command pending. -/
theorem test_holds : ∃ (g : Bool → State) (e f : State),
    g = (fun b => base.modPart 0 fun t => { t with hold := some { host := b, releases := [⟨1, false, 0, false⟩] }, forwarded := 2, resultEnds := 1 }) ∧
    e = { base.modCtl 5 (fun c => { c with debt := [(0, 1)] }) with pat := { cur := some (img 1 []) } } ∧
    f = (put [(pkState 0, 1), (qState 0 .v, 2)] base).modPart 0 (fun t => { t with faults := [⟨0x31, 7, 2, 9, true⟩, ⟨1, 1, 1, 1, false⟩] }) ∧
    ((g true).holdOver 0 { host := true, releases := [⟨1, false, 0, false⟩] } = false) ∧
    ((g false).holdOver 0 { releases := [⟨1, false, 0, false⟩] } = true) ∧ e.exact = true ∧ (e.ctl 5).debt ≠ [] ∧ e.pwr.pointWant = none ∧
    e.getF (ppState 0) = 1 ∧ (e.part 0).hold = none ∧ f.getF (ppState 0) = 1 ∧ ((run (.holdEnd 0) (g false)).part 0).hold = none ∧
    ((run (.holdEnd 0) (g false)).die 0).tap0.rel.length = 1 ∧ has [(wHeld, 1)] (run (.extraRefreshHold 5 0) e) = true :=
  ⟨_, _, _, rfl, rfl, rfl, by decide +kernel⟩

/-! ### The host side -/

/-- Partition 0 of an armed package. -/
def armed : State := put [(pPattern, 4), (sLimited, 0)] base

/-- The watch of counter 7 at 10 for flag 3 (`a` 1) or vector 63 (`a` 2). -/
def watched (a : Nat) : State :=
  let s := put [(wtCounter 31, 7), (wtThreshold 31, 10), (wtEn 31, 1), (wtAction 31, a), (wtFlag 31, 3), (wtVector 31, 63), (hcValue 7, 9), (flEn 3, 1),
    (flSeq 3, 4294967295), (flAddr 3, 0x1000)] armed
  { s with hostcfg := { s.hostcfg with busMaster := true, msixEnable := true, functionMask := false, masked := 0 } }

theorem test_hostAdd : armed.onF sLimited = false ∧ armed.onF sFatal = false ∧ armed.armed = true ∧ armed.onF (hcForward 7) = false ∧
    (∀ w, w < 32 → ¬ (armed.getF (wtCounter w) = 7 ∧ armed.onF (wtEn w) = true)) ∧ has [(hcValue 7, 65535)] (run (.hostCounterAdd 7 65535) armed) = true ∧
    (∀ v, v < 32 → v ≠ 31 → ¬ ((watched 1).getF (wtCounter v) = 7 ∧ (watched 1).onF (wtEn v) = true)) ∧ (watched 1).getF (wtAbove 31) = 0 ∧
    (run (.hostCounterAdd 7 1) (watched 1)).out = [.flagWrite 0x1000 (BitVec.ofNat 64 (10 * 2 ^ 32 + 31 * 2 ^ 48))] ∧
    (run (.hostCounterAdd 7 1) (watched 2)).out = [.msix 63 0 0] ∧ has [(wtAbove 31, 1), (wtFires 31, 1), (flSeq 3, 4294967295)] (run (.hostCounterAdd 7 1) (watched 2)) = true ∧
    has [(sIgnored, 1), (sIgnCause, 5)] (run (.hostCounterAdd 7 0) armed) = true := by decide +kernel

/-- A launch counter: its ADD of 3 goes to counter 9 of the partition's cores. -/
theorem test_hostLaunch : ∃ s : State, s = put [(hcForward 7, 1), (hcPart 7, 0), (hcCtr 7, 9)] armed ∧ (∀ n, NoWaiter s 0 n) ∧ s.armed = true ∧
    s.onF (hcForward 7) = true ∧ s.inputUnit 7 = none ∧ s.getF (ppState 0) = 1 ∧ (s.part 0).hold = none ∧ (s.part 0).gated = false ∧
    (s.part 0).disarmed = false ∧ s.exact = false ∧ (∀ l, l < 256 → (allQueues.all fun q => !(s.getF (qState l q) == 2)) = true ∧ s.getF (cCtr l 9) + 3 ≤ 65535) :=
  ⟨_, rfl, noWaiters (by decide +kernel), by decide +kernel⟩

/-- TAKE of 255 from 255, from 254; a pattern ADD to 65,535 and past it; a watch's word 0; a pending vector. -/
theorem test_hostTake : ∃ (s t : State), s = put [(hcValue 7, 255)] armed ∧ t = { put [(hcValue 7, 65534)] armed with hostIn := [⟨8, 1, 0⟩, ⟨7, 1, 0⟩, ⟨7, 1, 5⟩] } ∧
    s.onF (hcForward 7) = false ∧ (run (.hostTake 7 255) s).out = [.readData (takeOff 7 255) 4 255] ∧ has [(hcValue 7, 0)] (run (.hostTake 7 255) s) = true ∧
    (run (.hostTake 7 255) (put [(hcValue 7, 254)] s)).out = [.readData (takeOff 7 255) 4 0] ∧
    (∀ u, u < 8 → ¬ (t.onF (uEn u) = true ∧ t.onF (uDir u) = true ∧ t.getF (uHc u) = 7)) ∧ t.owner 0 = some 0 ∧ t.owner 5 = some 0 ∧
    has [(hcValue 7, 65535)] (run (.hostCounterPatternAdd 7) { t with hostIn := [⟨7, 1, 0⟩] }) = true ∧
    ((run (.hostCounterPatternAdd 7) { put [(hcValue 7, 65535)] t with hostIn := [⟨7, 1, 5⟩] }).part 0).faults = [⟨0x43, 5, 0, 0, true⟩] ∧
    has [(wtCounter 31, 7), (wtThreshold 31, 255), (wtVector 31, 63), (wtAbove 31, 1)] (run (.hostWatchWrite 31 (BitVec.ofNat 64 (7 + 255 * 2 ^ 8 + 63 * 2 ^ 31))) s) = true ∧
    (run (.msixPendingSend 63) { watched 2 with hostcfg := { (watched 2).hostcfg with msixPending := 1#64 <<< 63 } }).out = [.msix 63 0 0] :=
  ⟨_, _, rfl, rfl, by decide +kernel⟩

/-- The worked table of R418. -/
theorem test_crc : ((fun d => [crc d 8 0x07 0 0 false false, crc d 16 0x1021 0xFFFF 0 false false,
    crc d 32 0x04C11DB7 0xFFFFFFFF 0xFFFFFFFF true true, crc d 32 0x1EDC6F41 0xFFFFFFFF 0xFFFFFFFF true true,
    crc d 64 0x42F0E1EBA9EA3693 0 0 false false, crc d 64 0x42F0E1EBA9EA3693 0xFFFFFFFFFFFFFFFF 0xFFFFFFFFFFFFFFFF true true])
      ([0x31, 0x32, 0x33, 0x34, 0x35, 0x36, 0x37, 0x38, 0x39] : List Byte)) =
    [0xF4, 0x29B1, 0xCBF43926, 0xE3069283, 0x6C40DF5F0B497347, 0x995DC9BBDF1939FA] := by decide +kernel

/-- A CRC-8 register of three bytes in two parts. -/
theorem test_crcParts : (0x5A#64 &&& crcMask 8 = 0x5A) ∧ crcReg 8 0x07 true 0x5A ([1, 2] ++ [3]) =
    crcZeros 8 0x07 3 0x5A ^^^ crcZeros 8 0x07 1 (crcReg 8 0x07 true 0 [1, 2]) ^^^ crcReg 8 0x07 true 0 [3] := by decide +kernel

/-- Unit 7 checks blocks for counter 7; its slot 0 is COMPLETE (`st` 2) with alive counter 5 where NEXT is 5, or FILLING. -/
def unit7 (st : Nat) : State :=
  let s := put [(uEn 7, 1), (uHc 7, 7), (uBlockBytes 7, 64), (uSlotBytes 7, 64), (uSlots 7, 3), (uAliveEn 7, 1), (uNext 7, 5), (uHold 7, 1), (uSlotState 7 0, st),
    (hcForward 7, 1), (hcCtr 7, 9)] armed
  { s with crcUnits := [(7, { seen := [(0, (false, 5))] })] }

theorem test_checkValues : (unit7 2).unitPart 7 = 0 ∧ (unit7 2).onF sLimited = false ∧ (unit7 2).armed = true ∧ (unit7 2).onF (hcForward 7) = true ∧
    (unit7 2).inputUnit 7 = some 7 ∧ (unit7 2).getF (uHeld 7) = 0 ∧ (unit7 2).blockStatus 7 = 0 ∧ (unit7 1).blockStatus 7 = 4 ∧ (unit7 1).onF (uHold 7) = true ∧
    (unit7 2).exact = false ∧ (unit7 2).onF (uStaleSet 7) = false ∧ ((unit7 2).part 0).hold = none ∧ ((unit7 2).part 0).gated = false ∧
    ((unit7 2).part 0).disarmed = false ∧ has [(uHeld 7, 1), (uResult 7 0, 4), (uStale 7, 1), (hEvent, 2 ^ 12)] (run (.hostCounterAdd 7 1) (unit7 1)) = true ∧
    has [(uHeld 7, 0), (uDrops 7, 1), (uSlotState 7 0, 0)] (run (.crcDrop 7) (run (.hostCounterAdd 7 1) (unit7 1))) = true ∧
    has [(uSlotState 7 0, 0)] (run (.crcRefill 7 0) (unit7 2)) = true ∧ (unit7 2).getF (uDir 7) = 0 := by decide +kernel

/-- A held launch released over one die's counters at 0, and writes of POLY and of word 0 to a disabled and an enabled unit. -/
theorem test_checkRelease : has [(uHeld 7, 1)] (put [(uHeld 7, 1)] (unit7 1)) = true ∧ (put [(uHeld 7, 1)] (unit7 1)).getF (ppState 0) = 1 ∧
    has [(uPoly 7, 3)] (run (.crcConfigWrite 7 8 8 3) armed) = true ∧ has [(uPoly 7, 0)] (run (.crcConfigWrite 7 8 8 3) (unit7 2)) = true ∧
    (unit7 2).onF (uEn 7) = true ∧ armed.onF (uEn 7) = false ∧
    has [(uEn 7, 1), (uWidth 7, 64)] (run (.crcConfigWrite 7 0 8 (BitVec.ofNat 64 (3 + 64 * 2 ^ 8))) (put [(uPoly 7, 3)] armed)) = true ∧
    has [(uEn 7, 0), (uWidth 7, 65)] (run (.crcConfigWrite 7 0 8 (BitVec.ofNat 64 (3 + 65 * 2 ^ 8))) (put [(uPoly 7, 3)] armed)) = true := by decide +kernel

/-! ### Images, pours, resets, patches -/

/-- A package that has started, with nothing armed. -/
def started : State := put [(sLimited, 0), (sReady, 1), (sConformant, 1)] State.reset

/-- A tile section of 64 zero bytes at tile address 0x40 of core 9, one of HBM data at 0x2000, and one with a wrong digest. -/
def secTile : Section := ⟨kTile, 0, 0, 0, 9, 1, 64, 0x100, 0x40, sha3 (List.replicate 64 0)⟩
def secHbm : Section := ⟨kHbmData, 0, 0, 0, 0, 0, 64, 0x100, 0x2000, sha3 (List.replicate 64 0)⟩
def secBad : Section := ⟨kTile, 0, 0, 0, 9, 1, 64, 0x100, 0x40, 0⟩

/-- SHA3-256 of no bytes (FIPS 202). -/
theorem test_sha3 : sha3 [] = 0x4A43F8804B0AD882FA493BE44DFF80F562D661A05647C15166D71EBFF8C6FFA7#256 := by decide +kernel

theorem test_verify : PatMay started ∧ started.mayVerify = true ∧ (put [(pImage, 1)] started).mayVerify = false ∧
    has [(pIgnoredOp, 1), (sIgnored, 1), (sIgnCause, 6)] (run .verify (put [(pImage, 1)] started)) = true ∧
    (run .verify started).pat.work = some ⟨0, List.replicate 256 0, false⟩ ∧ verifyReason started ⟨0, List.replicate 256 0, false⟩ = 1 ∧
    has [(pImage, 3), (pReason, 1), (hEvent, 1024)] (run .verifyComplete (run .verify started)) = true ∧ keyRecordBad started 0 = true ∧
    has [(pReason, 0x20)] (run .key started) = true := by unfold PatMay; decide +kernel

/-- A package that pours an image of one section, whose partition 0 has die 0. -/
def pouringOf (e : Section) : State :=
  { put [(pPattern, 1)] started with pat := { cur := some (img 0 [e]), recs := [⟨0, 1, false, 255, 0, 7⟩] } }

theorem test_pour : ∃ s : State, s = { put [(pImage, 2)] started with pat := { verified := some (img 0 [secTile]) } } ∧ PatMay s ∧ s.mayPour = true ∧
    has [(pPattern, 1)] (run .pour s) = true ∧ (∀ e ∈ [secTile, secHbm], (pouringOf e).mayLand (img 0 [e]) 0 = true ∧
      landReason (pouringOf e) (img 0 [e]) e = 0 ∧ (pouringOf e).freshParts = []) ∧ (pouringOf secTile).landing secTile = [9] ∧
    landReason (pouringOf secBad) (img 0 [secBad]) secBad = 0x10 ∧ has [(pPattern, 0), (pReason, 0x10), (pImage, 3)] (run (.sectionLanding 0) (pouringOf secBad)) = true ∧
    has [(pPattern, 2), (pLanded, 1)] (run (.sectionLanding 0) (pouringOf secHbm)) = true :=
  ⟨_, rfl, by unfold PatMay; decide +kernel⟩

theorem test_arming : ∃ s : State, s = { put [(pPattern, 2)] started with pat := { (pouringOf secTile).pat with landed := [0] } } ∧
    s.pat.recs = [⟨0, 1, false, 255, 0, 7⟩] ∧ s.allLanded (img 0 [secTile]) = true ∧ (∀ p, p < 8 → s.getF (ppState p) = 0) ∧
    (∀ lid, lid < 256 → s.getF (cGroupCount lid) = 0) ∧ coresOfDies 1 = List.range 256 := ⟨_, rfl, by decide +kernel⟩

/-- Partition 0 armed under a record; being reset, alone and under DISARM. -/
def recd : State := { armed with pat := { cur := some (img 0 []), recs := [⟨0, 1, false, 255, 0, 7⟩] } }

theorem test_resets : PatMay recd ∧ PatMay (put [(pPattern, 2)] recd) ∧ (put [(pPattern, 2)] recd).pouring = true ∧ recd.getF pPattern = 4 ∧
    recd.getF (ppState 0) ≠ 0 ∧ (put [(ppState 0, 3)] recd).hbmBusy 0 = false ∧ recd.pat.disarming = false ∧ (recd.part 0).disarmed = false ∧
    (∀ u, u < 8 → recd.getF (uEn u) = 0) ∧ (∀ q, q < 8 → q ≠ 0 → (put [(ppState 0, 3)] recd).getF (ppState q) ≠ 3) ∧
    (put [(pPattern, 1)] recd).pouring = true ∧ has [(pPattern, 0), (pReason, 0x12)] (run .disarm (put [(pPattern, 1)] recd)) = true := by unfold PatMay; decide +kernel

/-- A patch of two lace sections of core 9, ahead of its result end and in its hold. -/
def secLace (k : Nat) : Section := ⟨kLace, 0, 0, 2, 9, 1, 64, 0x100 + 64 * k, 0x400 + 64 * k, sha3 (List.replicate 64 0)⟩
def patching (pat : Nat) (h : Option Hold) : State :=
  let s := { put [(pImage, 2), (pPattern, pat)] recd with pat := { recd.pat with verified := some { img 0 [secLace 0, secLace 1] with kind := 1, patchSeq := 1 } } }
  (s.modPart 0 fun t => { t with forwarded := 1, hold := h, patchLeft := if pat = 5 then [0, 1] else [] }).setLace 9 0x100 0xFFFFFFFF

theorem test_patch : PatMay (patching 4 none) ∧ (patching 4 none).mayPatch = true ∧ (patching 4 none).patchParts = [0] ∧
    ((patching 4 none).part 0).forwarded ≠ ((patching 4 none).part 0).resultEnds ∧ ((run .patch (patching 4 none)).part 0).patchLeft = [0, 1] ∧
    landReason (patching 5 (some { patch := true })) { img 0 [secLace 0, secLace 1] with kind := 1, patchSeq := 1 } (secLace 0) = 0 ∧
    (patching 5 (some { patch := true })).landing (secLace 0) = [9] ∧
    (run (.sectionLanding 0) (patching 5 (some { patch := true }))).lace 9 0x100 = 0xFFFE0001 ∧
    ((run (.sectionLanding 0) (patching 5 (some { patch := true }))).part 0).patchLeft = [1] := by unfold PatMay; decide +kernel

/-! ### Checkpoints, seeds, entropy -/

/-- Partition 1 with no cores of its own, and a grant for checkpoints from 0x1000 on; `st` launches have been forwarded. -/
def saver (st : Nat) : State :=
  ({ put [(pPattern, 4), (ppState 1, 1), (sLimited, 0), (pkAddr 1, 0x1000)] State.reset with pat := { grants := [⟨1, 0x1000, 0x100000, 3, false⟩] } }).modPart 1
    fun t => { t with forwarded := st }

/-- The copy of a save at address 0x1000 that was commanded of it is due. -/
def saving : State := (put [(pkState 1, 2)] (saver 1)).modPart 1 fun t => { t with ckptCmd := 1, ckptAddr := 0x1000, ckptKind := 1 }

theorem test_save : PatMay (saver 1) ∧ ((saver 1).part 1).forwarded ≠ ((saver 1).part 1).resultEnds ∧
    saveReason 1 1 ((saver 1).setF (pkResultOnly 1) 1) = 0 ∧ saveReason 1 2 ((saver 1).setF (pkResultOnly 1) 0) = 0 ∧
    saveReason 1 3 ((saver 1).setF (pkResultOnly 1) 0) = 0 ∧ has [(pkState 1, 1), (pkResultOnly 1, 1)] (run (.ckptSaveContinue 1 true) (saver 1)) = true ∧
    has [(pkStatus 1, 7), (sIgnored, 1), (sIgnCause, 8), (hEvent, 0)] (run (.ckptHold 1 false) (put [(ppState 1, 2)] (saver 1))) = true ∧
    (put [(ppState 1, 2)] (saver 1)).getF (ppState 1) ≠ 1 ∧ has [(pkState 1, 5), (pkKib 1, 1)] (run (.saveCopied 1) saving) = true ∧
    (run (.saveCopied 1) saving).hbm.load 0x1000 6 = [0x47, 0x4C, 0x43, 0x4B, 1, 0] := by unfold PatMay; decide +kernel

theorem test_resume : ∃ s u : State, s = (put [(pkState 1, 3)] (saver 1)).modPart 1 (fun t => { t with hold := some { host := true } }) ∧
    u = (put [(pkState 1, 5)] (saver 1)).modPart 1 (fun t => { t with ckptCmd := 4, ckptAddr := 0x1000, ckptLen := 40 }) ∧ PatMay s ∧ (s.part 1).ckptCmd ≠ 4 ∧
    (s.part 1).hold = some { host := true } ∧ (u.part 1).ckptCmd = 4 ∧ has [(pkState 1, 0), (pkStatus 1, 1), (hEvent, 2048)] (run (.ckptResume 1) s) = true ∧
    has [(pkState 1, 0), (pkStatus 1, 1)] (run (.ckptHashDone 1) u) = true :=
  ⟨_, _, rfl, rfl, by unfold PatMay; decide +kernel⟩

/-- A checkpoint without sections: RESULT 9, SWEEP 3, KIND 1, its digest behind it. -/
def savedHead : List Byte :=
  natLe 4 0x4B434C47 ++ natLe 2 1 ++ natLe 2 1 ++ natLe 8 160 ++ List.replicate 32 0 ++ natLe 16 (geometryWord (saver 0) 1).toNat ++ natLe 8 9 ++ natLe 2 3 ++
    natLe 4 0 ++ natLe 1 1 ++ natLe 1 0 ++ natLe 8 77 ++ List.replicate 40 0
def saved (st : Nat) : State :=
  { (put [(sFwMajor, 1), (pkState 1, st)] (saver 0)).modPart 1 (fun t => { t with ckptAddr := 0x1000 }) with hbm := (saver 0).hbm.store 0x1000 (savedHead ++ natLe 32 0xBF6BDC076B1DCAD644480D7748BF30121758F5531257300F813E29AF73782479) }

theorem test_restore : PatMay (saved 0) ∧ savedHead.length = 128 ∧ restoreReason 1 (saved 0) = 0 ∧ ((saved 4).part 1).disarmed = false ∧
    (saved 4).getF (pkState 1) = 4 ∧ has [(pkState 1, 4)] (run (.ckptRestore 1) (saved 0)) = true ∧
    has [(pkState 1, 3), (pkStatus 1, 1), (psLo 1, 77)] (run (.restoreLoaded 1) (saved 4)) = true ∧ ((run (.restoreLoaded 1) (saved 4)).part 1).reentry = 2 ∧
    loadReason 1 0x1000 (saved 4) = 0 ∧ restoreReason 1 { saved 0 with hbm := (saved 0).hbm.store 0x1040 [8] } = 3 ∧
    has [(pkState 1, 0), (pkStatus 1, 3), (sIgnCause, 8)] (run (.restoreLoaded 1) { saved 4 with hbm := (saved 4).hbm.store 0x1040 [8] }) = true := by unfold PatMay; decide +kernel

theorem test_nextSeed : PatMay (saver 0) ∧ (saver 0).onF (pnFilling 1) = false ∧ (saver 0).getF eState ≠ 6 ∧ bitOf (BitVec.ofNat 64 (2 ^ 63 + 5)) 62 = false ∧
    has [(pnLo 1, 2 ^ 64 - 1)] (run (.nextSeedWrite 1 false 8 (2 ^ 64 - 1)) (saver 0)) = true ∧
    has [(pnHi 1, 5), (pnPending 1, 1)] (run (.nextSeedWrite 1 true 8 (BitVec.ofNat 64 (2 ^ 63 + 5))) (saver 0)) = true ∧
    (run (.seedDraw 1) (saver 0)).ent.waiting = [(0, .nextSeed 1)] ∧ has [(pnFilling 1, 1)] (run (.seedDraw 1) (saver 0)) = true ∧
    has [(sIgnored, 1), (sIgnCause, 7), (pnLo 1, 0)] (run (.nextSeedWrite 1 false 8 5) (put [(pnFilling 1, 1)] (saver 0))) = true ∧
    has [(pnFilling 1, 0), (pnPending 1, 1)] (run (.seedFillDone 1) ((put [(pnFilling 1, 1)] (saver 0)).modPart 1 fun t => { t with filled := true })) = true := by
  unfold PatMay; decide +kernel

/-- The entropy source in a state, after `f` failures running, with the first of a pair of samples, whose streams all stand as
`o`. -/
def source (st f : Nat) (o : Osc) : State :=
  { put [(sLimited, 0), (eState, st), (eFails, f)] State.reset with ent := { oscs := List.replicate 32 o, odd := some 0 } }

/-- A stream whose next bit 0 completes 16 of a block, 4,096 of the start-up tests, or fails a test. -/
def full : Osc := { started := 4096, bits := List.replicate 15 true }
def starting : Osc := { started := 4095 }

theorem test_source : (source 3 0 {}).onF sLimited = false ∧ has [(eMode, 1), (eState, 4)] (run (.entModeWrite true) (source 3 0 {})) = true ∧
    (run .entReseed (source 3 0 {})).ent.reseedDue = true ∧ (run .entInstantiate (source 3 0 {})).ent.instDue = true ∧
    (run (.entropyBlock ⟨[5], true⟩) { source 3 0 {} with ent := {} }).ent.odd = some 5 ∧
    (run (.entropyBlock ⟨[5], true⟩) (source 5 0 {})).ent = (source 5 0 {}).ent ∧
    has [(eState, 2)] (run (.entropyBlock ⟨[0], true⟩) (source 1 0 starting)) = true ∧
    has [(eState, 2), (eFails, 0)] (run (.entropyBlock ⟨[0], true⟩) (source 2 1 full)) = true ∧
    (run (.entropyBlock ⟨[0], true⟩) (source 2 1 full)).ent.seed = some (BitVec.ofNat 512 ((2 ^ 512 - 1) / (2 ^ 16 - 1) * (2 ^ 15 - 1))) ∧
    ((List.range 32).map ((source 2 1 full).oscPair 0 0)).filterMap Prod.snd = [] ∧
    has [(eRctFails, 1), (eFails, 3), (eState, 4)] (run (.entropyBlock ⟨[0], true⟩) (source 3 2 { run := 25 })) = true ∧
    has [(eAptFails, 1), (eFails, 1), (eState, 1)] (run (.entropyBlock ⟨[0], true⟩) (source 2 0 { winAt := 9, winCount := 663 })) = true ∧
    (source 4 3 { run := 25 }).onF rFatalValid = false ∧
    has [(eState, 6), (rFatalCode, 2), (rFatalValid, 1)] (run (.entropyBlock ⟨[0], true⟩) (source 4 3 { run := 25 })) = true := by
  decide +kernel

/-- The second block of an instantiation: its register effects, and what the DRBG is made of. -/
theorem test_instantiate : ∃ s : State, s = { source 2 1 full with ent := { (source 2 1 full).ent with seed := some 7 } } ∧ s.ent.seed = some 7 ∧
    (∀ o, o ∈ (List.range 32).map (s.oscPair 0 0) → 16 ≤ o.1.bits.length) ∧
    has [(eState, 3), (eFails, 0), (eRequests, 0)] (run (.entropyBlock ⟨[0], true⟩) s) = true ∧
    (run (.entropyBlock ⟨[0], true⟩) s).ent.drbg.isSome = true := ⟨_, rfl, by decide +kernel⟩

/-- AES-256 of the block and key of FIPS 197, appendix C.3. -/
theorem test_aes : aes ((List.range 32).map (BitVec.ofNat 8)) ((List.range 16).map fun i => BitVec.ofNat 8 (17 * i)) =
    [0x8E, 0xA2, 0xB7, 0xCA, 0x51, 0x67, 0x45, 0xBF, 0xEA, 0xFC, 0x49, 0x90, 0x4B, 0x49, 0x60, 0x89] := by decide +kernel

theorem test_drbg : ∃ (d : DrbgState) (g : EntReq → State) (q : State), d = ⟨List.replicate 32 1, List.replicate 16 2⟩ ∧
    g = (fun e => { source 3 0 {} with ent := { waiting := [(0, e)], fifo := [7, 8], drbg := some d } }) ∧
    q = { g (.quote 5) with tick := 2000000 } ∧ (g (.nextSeed 0)).serves = true ∧ (g (.nextSeed 0)).getF eRequests < 2 ^ 24 - 1 ∧
    (run .drbgGenerate (g (.nextSeed 0))).ent.waiting = [] ∧ has [(eRequests, 1)] (run .drbgGenerate (g .hostRandom)) = true ∧
    (run (.entRandRead 8 false) (g .challenge)).out = [.readData 0x00400020 8 0x100000007] ∧ (run (.entRandRead 8 false) (g .challenge)).ent.fifo = [8] ∧
    q.hostcfg.doe = [] ∧ (run .entropyUnavailable q).out = [.doe (quoteStatus 2)] := ⟨_, _, _, rfl, rfl, rfl, by decide +kernel⟩

/-! ### HBM -/

/-- An HBM flit of core 9 for pseudo-channel 191 in slot 9 of ring 1 of die 0. -/
def hflit (wr : Bool) : Flit := .hbm 9 2 wr 0xBF00 9 false 0x40 1 2 (if wr then List.replicate 64 7 else [])
def hslot : State := rings.setSlot 0 1 9 (some (placed 5 285 (hflit true)))
def hqueue (wr : Bool) : State := rings.setQueue 191 0 [hflit wr]

theorem test_hbmRequest : ∃ (e r w : State), e = { (hslot.setQueue 191 0 (List.replicate 16 (hflit true))) with pat := { cur := some (img 1 []) } } ∧
    r = run (.hbmRequest none (some ⟨191, 0⟩)) (hqueue false) ∧ w = run (.hbmRequest none (some ⟨191, 0⟩)) (hqueue true) ∧
    hslot.slotTurn 0 1 9 = some (placed 5 285 (hflit true), 286) ∧ hslot.owner 9 = some 0 ∧ pcOf 0xBF00 = 191 ∧ hslot.exact = false ∧ e.exact = true ∧
    e.slotTurn 0 1 9 = some (placed 5 285 (hflit true), 286) ∧ 16 ≤ ((e.ctl (ctlOf 191)).queue (hbmKey 191 0)).length ∧ e.ownsPc 191 0 = false ∧
    ((run (.hbmRequest (some ⟨0, 1, 9⟩) none) hslot).ctl 5).queue (hbmKey 191 0) = [hflit true] ∧
    ((run (.hbmRequest (some ⟨0, 1, 9⟩) none) e).part 0).faults = [⟨0x68, 9, 0, 0, true⟩] ∧ ((hqueue false).ctl 5).stopped = false ∧
    (hqueue false).ownsPc 191 0 = true ∧ (hqueue false).hbm.bad = [] ∧ (hqueue false).remapOf (rowKey 0xBF00) = none ∧ (hqueue false).resetting 0 = false ∧
    (∀ u, u < 8 → (hqueue true).onF (uEn u) = false) ∧ ((r.die 0).tap ((hqueue false).viaTap1 9)).flits =
      [.send 9 2 9 false 0 false 0x40 false false 0 0 (List.replicate 64 0)] ∧ w.acks = [(9, 2, 1)] ∧
    w.hbm.byte 0xBF3F = 7 ∧ w.hbm.err 32 0x5F9 = some .poison ∧ w.hbm.err 32 0x5F8 = none := ⟨_, _, _, rfl, rfl, rfl, by decide +kernel⟩

/-- A record header written by partition 0 in exact timing, once the deadline has acted and a span has broken the promise. -/
theorem test_stamp : ∃ (s : State) (b : List Byte), b = natLe 4 0x38524C47 ++ natLe 2 1 ++ List.replicate 58 0 ∧
    s = { (put [(pdFired 0, 1)] base).modPart 0 (fun t => { t with hadSpan := true }) with pat := { cur := some (img 1 []), grants := [⟨0, 0x1000, 0x1000, 2, false⟩] } } ∧
    b.length = 64 ∧ s.isRecord 0 0x1FC0 b = true ∧ s.isRecord 0 0x2000 b = false ∧ s.notExact 0 = true ∧
    (s.stampRecord 0 0x1FC0 b).drop 12 = [0, 0x11] ++ List.replicate 50 0 := ⟨_, _, rfl, rfl, by decide +kernel⟩

/-- An exact-timing package whose stack 5 is at class `k`, with partition 0 held or not, and `o` REFpb owed by bank 31 of pseudo-channel 191. -/
def refreshing (k o : Nat) (h : Option Hold) : State :=
  (({ put [(bClass 5, k)] armed with pat := { cur := some (img 1 []) } }).modPart 0 fun t => { t with hold := h }).modCtl 5 fun c =>
    { c with debt := if o = 0 then [] else [(191 * 32 + 31, o)] }

theorem test_refpb : armed.exact = false ∧ armed.armed = true ∧ (refreshing 2 1 none).exact = true ∧ (refreshing 2 1 none).armed = true ∧
    (refreshing 2 1 none).allHeld = false ∧ (refreshing 2 1 none).pat.refresh < min 2 ((refreshing 2 1 none).getF (bClass 5)) ∧
    (refreshing 2 1 (some {})).allHeld = true ∧ ((refreshing 2 1 none).ctl 5).owed (191 * 32 + 31) = 1 ∧
    ((run (.refpb 191 31) (refreshing 2 1 none)).ctl 5).owed (191 * 32 + 31) = 4 ∧ ((run (.refpb 191 31) (refreshing 2 1 (some {}))).ctl 5).owed (191 * 32 + 31) = 0 ∧
    has [(bExtra 5, 1)] (run (.refpb 191 31) (refreshing 2 1 (some {}))) = true ∧ has [(bTemp 5, 105), (bClass 5, 2)] (run (.stackTemperatureRead 5 105) armed) = true ∧
    armed.onF rFatalValid = false ∧ has [(rFatalCode, 6), (rInfoDie, 21), (rInfoDetail, 111)] (run (.stackTemperatureRead 5 111) armed) = true := by decide +kernel

/-- The start of pseudo-channel 191's first unit is correctable, and waits for write-back; scrubbing runs. -/
def scrub (bad : Bool) (pend : List Nat) : State :=
  let s := put [(sHeat, 9)] armed
  { s.modCtl 5 fun c => { c with pending := pend } with hbm := { bad := if bad then [(0x5F8, 1)] else [] } }

theorem test_scrub : ((scrub true [0x5F8]).ctl 5).pending = [0x5F8] ∧ pcOf (32 * 0x5F8) = 191 ∧ (scrub true [0x5F8]).hbm.err 32 0x5F8 = some .correctable ∧
    ((scrub true []).ctl 5).unitAt 191 = 0 ∧ (scrub true []).scrubbing = true ∧ (scrub true []).stackRests 5 = false ∧ (scrub true []).idleScrub 191 = true ∧ ((scrub true []).ctl 5).stopped = false ∧
    (scrub true []).remapOf (rowKey (pcAddr 191 0)) = none ∧ pcAddr 191 0 / 32 = 0x5F8 ∧ (scrub true []).hbm.bad = [(0x5F8, 1)] ∧ classify 32 1 = some .correctable ∧ (scrub true []).idlePc 191 = true ∧
    ((hqueue false).idlePc 191) = false ∧
    (run (.correctedWriteBack 191) (scrub true [0x5F8])).hbm.err 32 0x5F8 = none ∧ ((run (.scrubAccess 191) (scrub true [])).ctl 5).pending = [0x5F8] ∧
    has [(bCorrected 5, 1), (rCorrected, 1)] (run (.scrubAccess 191) (scrub true [])) = true ∧ ((run (.scrubAccess 191) (scrub false [])).ctl 5).unitAt 191 = 1 := by
  decide +kernel

/-- Row 32,767 of bank 31 of pseudo-channel 191 waits for its copy, with all 64 entries used or one free. -/
def rowDue (n : Nat) : State :=
  (put ((List.range n).map fun k => (bmValid 5 k, 1)) armed).modCtl 5 fun c => { c with due := [(191, 31, 32767)] }

theorem test_rowRemap : ((rowDue 63).ctl 5).due = [(191, 31, 32767)] ∧ ((rowDue 63).ctl 5).stopped = false ∧ (rowDue 63).idleCopy 191 = true ∧
    (∀ m, m < 63 → (rowDue 63).onF (bmValid 5 m) = true) ∧ (rowDue 63).onF (bmValid 5 63) = false ∧ (∀ n, n < 64 → (rowDue 64).onF (bmValid 5 n) = true) ∧
    has [(bmValid 5 63, 1), (bmPc 5 63, 31), (bmBank 5 63, 31), (bmRow 5 63, 32767), (bRemapUsed 5, 1)] (run (.rowRemapCopy 191 31 32767) (rowDue 63)) = true ∧
    has [(bRemapFull 5, 1)] (run (.rowRemapCopy 191 31 32767) (rowDue 64)) = true := by decide +kernel

/-- Lace bank 31 of core 0: row 2,046 of its lap comes next, with and without row 5 pending, its first word correctable. -/
def sram (pend : List Nat) : State :=
  (((put [(sHeat, 9)] armed).modSram 0 fun x => { x with pos := [(31, 2046)] }).modCore 0 fun c =>
    { c with sramPend := if pend.isEmpty then [] else [(31, pend)], lace := { bad := if pend.isEmpty then [] else [((512 * 5 + 16 * 31) / 4, 1)] } })

theorem test_sram : (sram [5]).scrubbing = true ∧ (sram [5]).dieRuns 0 = true ∧ ((sram [5]).core 0).pendOf 31 = [5] ∧ ((sram []).core 0).pendOf 31 = [] ∧
    ((sram []).core 0).lace.bad = [] ∧ ((sram []).core 0).tile.bad = [] ∧ ((sram []).core 0).op.bad = [] ∧ tblGet (fun _ => 0) ((sram []).sram 0).pos 31 = 2046 ∧
    ((run (.sramScrub 0 .lace 31) (sram [5])).core 0).pendOf 31 = [] ∧ ((run (.sramScrub 0 .lace 31) (sram [5])).core 0).lace.bad = [] ∧
    tblGet (fun _ => 0) ((run (.sramScrub 0 .lace 31) (sram [])).sram 0).pos 31 = 2047 := by decide +kernel

theorem test_overdue : ∃ g : Nat → State, g = (fun n => { put [(sHeat, 9), (bOverdueMs 5, 1)] armed with tick := n }) ∧ (g 50001).scrubbing = true ∧
    (g 50001).getF (bOverdueMs 5) ≠ 0 ∧ (g 50001).onF (bLapOverdue 5) = false ∧ (g 50001).scrubStart = 0 ∧ (g 50001).getF (bLastLap 5) = 0 ∧
    ((g 50001).ctl 5).lapIdle = 0 ∧ has [(bLapOverdue 5, 1), (rCorrected, 1)] (run (.lapOverdue (.stack 5)) (g 50001)) = true ∧
    has [(bLapOverdue 5, 0)] (run (.lapOverdue (.stack 5)) (g 50000)) = true := ⟨_, rfl, by decide +kernel⟩

/-! ### The host port -/

/-- A package that has started, with CXL.mem active and scrubbing. -/
def live : State := { put [(sHeat, 9)] started with pwr := { State.reset.pwr with aon := true, ccRunning := true }, hostcfg := { memoryActive := true } }

theorem test_registers : live.onF sLimited = false ∧ has [(pImageAddr, 2 ^ 38 - 1)] (run (.registerWrite (.bar0 0x00200000) 8 (2 ^ 64 - 1)) live) = true ∧
    has [(hEvent, 1)] (run (.registerWrite (.bar0 0x00103000) 8 2) (put [(hEvent, 3)] live)) = true ∧
    has [(wHostCap, 800), (wEffective, 800)] (run (.registerWrite (.bar0 0x00800008) 8 799) live) = true ∧ live.getF wPlanCap = 0 ∧
    has [(wHostCap, 1500)] (run (.registerWrite (.bar0 0x00800008) 8 1501) live) = true ∧ has [(rCorrected, 0), (rContained, 4)] (run (.rcRead (.bar0 0x00900048) 4) (put [(rCorrected, 3), (rContained, 4)] live)) = true ∧
    (run (.rcRead (.bar0 0x00900048) 8) (put [(rCorrected, 3), (rContained, 4)] live)).out = [.readData 0x00900048 8 0x400000003] ∧
    accessSized 4 8 = false ∧ accessSized 0x00200000 8 = true ∧ State.reset.onF sLimited = true ∧ withheld 0x00200000 = true ∧
    has [(sIgnored, 1), (sIgnCause, 3), (sIgnAddr, 0x00200000), (sIgnWrite, 1)] (run (.registerWrite (.bar0 0x00200000) 8 5) State.reset) = true ∧
    accessSized 0x0080FFF8 8 = true ∧ withheld 0x0080FFF8 = false ∧ accessMapped bar0Map 0x0080FFF8 8 = false ∧
    (run (.rcRead (.bar0 0x0080FFF8) 8) live).out = [.readData 0x0080FFF8 8 0] ∧ has [(sIgnCause, 1), (sIgnWrite, 0)] (run (.rcRead (.bar0 0x0080FFF8) 8) live) = true := by
  decide +kernel

/-- Configuration space and BAR2: places 0 and 63 of the MSI-X table, masked and not. -/
theorem test_config : ∃ w : HostAddr → Nat → State, w = (fun a v => run (.registerWrite a 4 (BitVec.ofNat 64 v)) live) ∧
    (run (.rcRead (.config .ids) 4) live).out = [.cfgData (.config .ids) 4 0x08011D8F] ∧
    (run (.rcRead (.config .classCode) 4) live).out = [.cfgData (.config .classCode) 4 0x120000] ∧
    (w (.config .command) 4).hostcfg.busMaster = true ∧ (w (.config .command) 0xFFFB).hostcfg.busMaster = false ∧
    (w (.config .msixControl) 0x8000).hostcfg.msixEnable = true ∧ (w (.config .msixControl) 0x8000).hostcfg.functionMask = false ∧
    (w (.config .msixControl) 0x4000).hostcfg.functionMask = true ∧
    (w (.bar2 (16 * 63 + 12)) 0).hostcfg.masked = BitVec.allOnes 64 >>> 1 ∧ (w (.bar2 12) 2).hostcfg.masked = BitVec.allOnes 64 - 1 ∧
    (run (.registerWrite (.bar2 1016) 4 5) (run (.registerWrite (.bar2 1008) 8 (2 ^ 64 - 1)) live)).msixMessage 63 = .msix 63 (2 ^ 64 - 1) 5 ∧
    (run (.rcRead (.bar2 0x8000) 8) { live with hostcfg := { live.hostcfg with msixPending := 9 } }).out = [.cfgData (.bar2 0x8000) 8 9] :=
  ⟨_, rfl, by decide +kernel⟩

/-- Reads of 64 bytes from 0x1000, with its second word uncorrectable; writes below, at and past the host's HBM. -/
theorem test_cxl : ∃ s : State, s = { live with hbm := { bad := [(0x81, 0x101)] } } ∧ live.onF sDegraded = false ∧ live.hostcfg.memoryActive = true ∧
    live.memCut = false ∧ live.remapOf (rowKey 0x1000) = none ∧ live.hbm.bad = [] ∧ (∀ c, c < 6 → (live.ctl c).queues = []) ∧ s.hbmBad 0x1000 64 = true ∧ 0x1000 + 64 ≤ hostTop ∧ hostTop + 64 ≤ hdmTop ∧
    live.onF rDumpPresent = false ∧ State.reset.hostcfg.memoryActive = false ∧ (run (.cxlmemRead 0x1000 64) s).out = [.memData 0x1000 (List.replicate 64 0) true] ∧
    (run (.cxlmemWrite 0x1000 (List.replicate 31 (some 9) ++ [none]) false) live).hbm.load 0x101E 2 = [9, 0] ∧
    (run (.cxlmemWrite 0x1000 [some 9] true) live).hbm.bad = [(0x80, poisonSyn 32)] ∧ (run (.cxlmemWrite 0x1020 (List.replicate 32 (some 9)) false) s).hbm.bad = [] ∧
    has [(sIgnCause, 9), (sIgnored, 1), (sIgnCxl, 1)] (run (.cxlmemWrite hostTop [some 9] false) live) = true ∧
    has [(sIgnCause, 9), (sIgnored, 1)] (run (.cxlmemRead 0 8) (put [(sLimited, 0)] State.reset)) = true := ⟨_, rfl, by decide +kernel⟩

theorem test_outside : exec (.cxlmemRead hdmTop 1) live = .fault .outsideHdm ∧ exec (.cxlmemWrite (hdmTop - 1) [none, none] false) live = .fault .outsideHdm :=
  ⟨rfl, rfl⟩

theorem test_conventional : live.pwr.aon = true ∧ (∀ h, h ∈ [4, 5, 8] → live.heatRunning ≠ some h) ∧ live.getF rDumpState ≠ 1 ∧ keptWord (0x00900020 / 4) = true ∧ keptWord 0 = false ∧ State.reset.pwr.aon = false ∧
    (run .conventionalReset live).outcome 0 = 1 ∧ has [(sLimited, 1), (sHeat, 0)] (run .conventionalReset live) = true ∧
    live.onF sFatal = false ∧ recd.getF pPattern = 4 ∧ recd.getF (ppState 0) ≠ 0 ∧ live.pouring = false ∧ live.armed = false ∧ hostWord (0x00100000 / 4) = true ∧
    (run .powerLoss live).pwr.aon = false ∧ (run .pgoodAon State.reset).pwr.aon = true := by decide +kernel

theorem test_doe : (run (.doeDiscovery 2) live).out = [.doe [0x8F, 0x1D, 0x01, 0x00]] ∧ (cdat.map BitVec.toNat).sum % 256 = 0 ∧ cdat.length = 136 ∧
    doeProtocols.contains (1, 1) = false ∧ (run (.cap (some 1500) true) live).out = [.smbusAck] ∧ (run (.cap (some 1501) true) live).out = [.smbusNack] ∧
    has [(wBmcCap, 800)] (run (.cap (some 800) true) live) = true ∧ (run .readTemp (put [(tpMax 9, 77)] live)).out = [.smbus [77]] := by decide +kernel

/-- The DOE mailbox with a quote in hand, objects that it does not take, and a sleeping SMBus slave. -/
theorem test_doeQueue : ∃ s : State, s = { live with ent := { waiting := [(0, .quote 5)] } } ∧ s.doeBusy = true ∧ live.doeBusy = false ∧ live.hostcfg.doe = [] ∧
    (run (.doeDiscovery 1) s).hostcfg.doe = [.discovery 1] ∧ (run (.quote 6) s).hostcfg.doe = [.quote 6] ∧ (run (.quote 6) s).out = [] ∧
    doeBad (1, 0) ⟨8, true⟩ = true ∧ doeBad (0x1E98, 2) ⟨16385, false⟩ = true ∧ doeBad (0x1E98, 2) ⟨16384, false⟩ = false ∧ doeBad (65535, 255) ⟨8, false⟩ = true ∧
    (run (.doeUnsupported (1, 0) ⟨8, true⟩) live).free = live.free + 1 ∧ (run (.doeUnsupported (1, 0) ⟨8, true⟩) live).out = [] ∧ State.reset.pwr.aon = false ∧
    (run .readState State.reset).out = [] ∧ has [(wBmcCap, 1500)] (run (.cap (some 800) true) State.reset) = true := ⟨_, rfl, by decide +kernel⟩

/-- A pattern's write at a controller, which a later read by the host does not pass. -/
theorem test_cxlQueue : ∃ (s : State) (d : List Byte), d = List.replicate 64 3 ∧ s = ({ armed with hostcfg := { memoryActive := true } }).modCtl (ctlOf (pcOf 0x1040)) (fun t =>
      { t with queues := [(hbmKey (pcOf 0x1040) 0, [.hbm 0 0 true 0x1040 0 false 0 1 0 d])] }) ∧ s.onF sDegraded = false ∧ s.memCut = false ∧ s.exact = false ∧
    (∀ u, u < 8 → s.onF (uEn u) = false) ∧ s.owner 0 = some 0 ∧ s.isRecord 0 0x1040 d = false ∧ s.hbm.bad = [] ∧ s.remapOf (rowKey 0x1040) = none ∧
    (run (.cxlmemRead 0x1040 64) s).out = [.memData 0x1040 d false] ∧ ((run (.cxlmemRead 0x1040 64) s).ctl (ctlOf (pcOf 0x1040))).queues = [] :=
  ⟨_, _, rfl, rfl, by decide +kernel⟩

/-- A Function Level Reset while a pattern is armed, and while none is. -/
theorem test_functionReset : ∃ s : State, s = put [(pPattern, 4), (ppState 0, 1), (hEvent, 5)] live ∧ s.onF sFatal = false ∧ s.getF pPattern = 4 ∧ s.getF (ppState 0) ≠ 0 ∧
    has [(ppState 0, 3), (ppState 7, 0), (hEvent, 0)] (run .functionLevelReset s) = true ∧ (run .functionLevelReset s).pat.disarming = true ∧
    has [(hEvent, 0), (sHeat, 9)] (run .functionLevelReset (put [(hEvent, 5)] live)) = true ∧ (run .functionLevelReset live).hostcfg.memoryActive = true :=
  ⟨_, rfl, by decide +kernel⟩

/-! ### The monitor and recovery -/

/-- The monitor with its scopes unlocked. -/
def unlocked : State := { put [(mActive, 1), (mScope, 7)] live with mon := { unlockEnd := 1 }, ent := { drbg := some ⟨[], []⟩ } }

theorem test_monLines : live.monBusy = false ∧ isLine .monHelp = true ∧ { live with mon := { transfer := some (.token 0) } }.monBusy = true ∧
    (run .monUnknownCommand live).out = [.monErr 1] ∧ (run (.monHeat 10) live).out = [.monErr 2] ∧ (run (.monLog 3) live).out = [.monOk] ∧
    live.onF wDeep = false ∧ live.lacks 0 = true ∧ unlocked.lacks 0 = false ∧ (run (.monWr 0x00200000 5) live).out = [.monErr 3] ∧
    has [(pImageAddr, 5)] (run (.monWr 0x00200000 5) unlocked) = true ∧ 3000000 ∈ baudRates ∧ (run (.monBaud 9600) live).out = [.monErr 2] ∧
    live.pwr.ccRunning = true ∧ (run .monFullstart live).flash.fullNext = true ∧ live.armed = false ∧ (run (.monLinkcfg 4095 3 1 2 4095) live).flash.linkZ = 4095 ∧
    live.getF rDumpPresent = 0 ∧ (run (.monDump none) live).out = [.monErr 4] ∧ (run (.monRd 0x00200000 65) live).out = [.monErr 2] := by decide +kernel

theorem test_monActs : unlocked.monBusy = false ∧ unlocked.pwr.ccRunning = true ∧ unlocked.lacks 1 = false ∧ unlocked.armed = false ∧ unlocked.lacks 2 = false ∧
    (run (.monLoad 5) unlocked).mon.transfer = some (.loading 5 [] 0) ∧ has [(sRecStatus, 5)] (run .monCommit unlocked) = true ∧ unlocked.onF rFatalValid = false ∧
    has [(eState, 5), (mRaw, 1)] (run (.monRaw .on) (put [(eState, 1)] unlocked)) = true ∧ (put [(eState, 1)] unlocked).getF eState = 1 ∧
    has [(mSource, 31)] (run (.monRaw (.osc 31)) unlocked) = true ∧ (put [(eState, 5)] unlocked).getF eState = 5 ∧ unlocked.pwr.aon = true ∧
    (run .monFatal unlocked).getF rFatalCode = 0x0F ∧ (put [(eState, 3)] unlocked).serves = true ∧ unlocked.serves = false ∧
    (run .monUnlock (put [(eState, 3)] unlocked)).ent.waiting = [(0, .challenge)] ∧ (run .monUnlock unlocked).mon.transfer = some (.token 0) := by decide +kernel

/-- A dump of five bytes held in the ladle buffer. -/
theorem test_monDump : ∃ s : State, s = { put [(rDumpPresent, 1), (rDumpBuffer, 1)] live with pwr := { live.pwr with ladle := Mem.store 0 [1, 2, 3, 4, 5] {}, note := { len := 5 } } } ∧
    s.onF rDumpPresent = true ∧ s.dumpPart none = [1, 2, 3, 4, 5] ∧ s.monBusy = false ∧ (run (.monDump none) s).out = [.monFrame (frameBytes [1, 2, 3, 4, 5])] :=
  ⟨_, rfl, by decide +kernel⟩

theorem test_transfers : ∃ g : Transfer → State, g = (fun x => { live with mon := { transfer := some x } }) ∧
    (run (.monFrame .accepted) (g (.sending [[1], [2]] 0))).mon.transfer = some (.sending [[2]] 0) ∧ (run (.monFrame .accepted) (g (.sending [[1]] 0))).out = [.monOk] ∧
    (run (.monFrame .refused) (g (.sending [[1]] 6))).mon.transfer = some (.sending [[1]] 7) ∧ (run (.monFrame .refused) (g (.sending [[1]] 7))).out = [.monErr 5] ∧
    (run (.monFrame (.received [1] (crc32 [1]))) (g (.loading 2 [] 0))).mon.transfer = some (.loading 1 [1] 0) ∧
    has [(sRecLength, 2), (sRecStatus, 1)] (run (.monFrame (.received [2] (crc32 [2]))) (g (.loading 1 [1] 0))) = true ∧
    (run (.monFrame (.received [1] (crc32 [1] + 1))) (g (.loading 2 [] 6))).mon.transfer = some (.loading 2 [] 7) ∧
    (run .monTransferTimeout { g (.token 0) with tick := 100000000 }).out = [.monErr 5] ∧ (run .monTransferTimeout { g (.token 0) with tick := 99999999 }).out = [] ∧
    (run (.unlockToken []) (g (.token 0))).mon.transfer = none ∧ live.monBusy = false ∧ has [(mScope, 0), (mActive, 0)] (run .monLock unlocked) = true ∧
    unlocked.onF mActive = true ∧ has [(mScope, 0)] (run .unlockExpiry { unlocked with mon := { unlockEnd := 5 }, tick := 5 }) = true ∧
    has [(mScope, 7)] (run .unlockExpiry { unlocked with mon := { unlockEnd := 6 }, tick := 5 }) = true := ⟨_, rfl, by decide +kernel⟩

theorem test_recovery : has [(sRecStatus, 5)] (run .recoveryCommit live) = true ∧ (run .recoveryClear { live with pwr := { live.pwr with recBytes := Mem.store 0 [1] {} } }).pwr.recBytes = {} ∧
    (run (.fullNextWrite 8 0x70001) live).flash.fullDays = 7 ∧ (run .powerOnDay live).flash.days = 1 := by decide +kernel

/-- An image being programmed, which ends at the next tick, in recovery and not; a COMMIT meanwhile does nothing. -/
theorem test_programming : ∃ (g : Nat → State) (u : State → State), g = (fun n => { put [(sRecStatus, 3), (sRecActive, n)] State.reset with pwr := { State.reset.pwr with prog := some (1, [7]) } }) ∧
    u = (fun s => match step s with | .next t => t | _ => s) ∧ (g 0).pending = [] ∧ (g 1).onF sRecActive = true ∧
    has [(sRecStatus, 3)] (run .recoveryCommit (g 0)) = true ∧ (u (g 0)).flash.image = [7] ∧ has [(sRecStatus, 4)] (u (g 0)) = true ∧ (u (g 0)).pwr.prog = none ∧
    (u (g 1)).pwr.ccRunning = true ∧ (u (g 1)).flash.image = [7] ∧ (u { g 0 with pwr := { State.reset.pwr with prog := some (2, [7]) } }).pwr.prog = some (2, [7]) ∧
    has [(sRecStatus, 3)] (run .recoveryClear (g 0)) = true := ⟨_, _, rfl, rfl, by decide +kernel⟩

/-! ### Power, fatal conditions, the dump -/

theorem test_temperature : hottest (List.replicate 15 50 ++ [109]) = 109 ∧ hottestAt (List.replicate 15 50 ++ [109]) = 15 ∧
    has [(tpMax 9, 109), (tpSensor 9, 15), (tpBridge 9, 50), (rFatalValid, 0)] (run (.temperatureSample 9 (List.replicate 15 50 ++ [109])) live) = true ∧
    live.getF (tpMax 7) < 110 ∧ live.onF rFatalValid = false ∧ has [(rFatalCode, 7), (rInfoDie, 7), (rInfoItem, 0), (rInfoDetail, 115), (wOff, 128)]
      (run (.temperatureSample 7 (List.replicate 16 115)) live) = true ∧ (run (.temperatureSample 7 (List.replicate 16 115)) live).thermPin = true := by
  decide +kernel

/-- A repeatable-timing pattern at point `q` of 0 to 2, HOLD_DUTY 25 %, with the samples of held time given. -/
def planned (q : Nat) (l : List (Nat × Nat)) (held : Nat) : State :=
  { put [(wPoint, q), (wEffective, 1000), (wTResume, 90)] armed with
    tick := 600000, pat := { clocks := [(0, ⟨0, 2, 0, 500, 25⟩)] }, pwr := { State.reset.pwr with heldLog := l, heldTotal := held } }

theorem test_points : (planned 1 [] 0).clockPlan = some ⟨0, 2, 0, 500, 25⟩ ∧ (planned 1 [] 0).armed = true ∧ (planned 1 [] 0).exact = false ∧
    (∀ d, d < 10 → (planned 1 [] 0).getF (tpMax d) + 5 ≤ (planned 1 [] 0).getF wTResume) ∧ (planned 1 [] 0).getF wEffective = 1000 ∧
    (planned 1 [] 0).getF wPoint = 1 ∧ (planned 1 [(100000, 0), (300000, 9)] 125001).pwr.heldLog = [(100000, 0), (300000, 9)] ∧
    100000 + 500000 ≤ 600000 ∧ (planned 1 [] 0).allHeld = false ∧ State.reset.armed = false ∧ State.reset.allHeld = true ∧
    (planned 1 [(100000, 0), (300000, 9)] 125001).heldTooLong 25 = true ∧ (planned 1 [(100000, 0)] 125000).heldTooLong 25 = false := by decide +kernel

/-- Partition 0 with dies but nothing in its queues for 500 ticks, gated or not, with a launch that waits or not. -/
def quiet (g : Bool) (l : List Launch) : State :=
  ({ put [(pPattern, 4), (ppState 0, 1), (ppDies 0, 1), (wGated, if g then 3 else 2), (hcCtr 4, 9)] State.reset with pat := { clocks := [(0, ⟨0, 2, 0, 500, 25⟩)] } }).modPart 0
    fun t => { t with gated := g, buffered := l, quietTicks := 500 }

theorem test_gating : (quiet false []).idleTicks 0 = 500 ∧ (quiet false []).quiescent 0 = true ∧ base.quiescent 0 = false ∧
    ((quiet true [⟨4, 1, none⟩]).part 0).gated = true ∧ (quiet true [⟨4, 1, none⟩]).traffic 0 = true ∧ ((quiet false []).part 0).gated = false ∧
    has [(wGated, 3)] (run (.partitionGate 0) (quiet false [])) = true ∧ ((quiet false []).part 0).quietTicks = 500 ∧
    has [(wGated, 2)] (run (.partitionGate 0) ((quiet false []).modPart 0 fun t => { t with quietTicks := 499 })) = true ∧ has [(grOcc 9, 6), (grWarn 9, 1), (grHigh 9, 6)] (run (.regionWarning 9 6) base) = true ∧
    ((run (.regionWarning 9 2) base).part 0).regionWarn = true ∧ (run (.regionWarning 9 5) base).parts = [] := by decide +kernel

theorem test_deep : ∃ g : Nat → State, g = (fun n => { put [(wDeepDelay, 1)] live with tick := n }) ∧ (g 50000000).getF pPattern = 0 ∧
    (g 50000000).getF sHeat = 9 ∧ (g 50000000).onF sFatal = false ∧ (g 50000000).onF wDeep = false ∧ (g 50000000).getF wDeepDelay ≠ 0 ∧
    (g 50000000).pwr.idleFrom + 50000000 * (g 50000000).getF wDeepDelay ≤ (g 50000000).tick ∧ has [(wDeep, 1), (wOff, 255)] (run .deepEntry (g 50000000)) = true ∧
    has [(wDeep, 0)] (run .deepEntry (g 49999999)) = true ∧ (put [(sFatal, 1)] live).onF sFatal = true := ⟨_, rfl, by decide +kernel⟩

theorem test_fatal : has [(rFatalCode, 1), (rFatalValid, 1), (rInfoDie, 8)] (run .ccWatchdogExpiry live) = true ∧ ((run .ccWatchdogExpiry live).die 7).frozen = true ∧
    has [(rFatalCode, 1), (rSecond, 1), (rInfoDetail, 0)] (run (.controlSramUncorrectable 0x7FFFFF) (run .ccWatchdogExpiry live)) = true ∧
    has [(rFatalCode, 9), (wOff, 128)] (run (.pllLossOfLock 7) live) = true ∧ has [(rFatalCode, 9), (rInfoDie, 9)] (run (.pllLossOfLock 9) live) = true ∧
    (run (.sprueCrcError 9 15) live).pwr.sprueStopped = true ∧ has [(rFatalCode, 10), (rInfoItem, 3)] (run (.ringParity 7 3) live) = true ∧
    ((run (.hbmCtrlError 5 7) live).ctl 5).stopped = true ∧ has [(rFatalCode, 8), (rInfoItem, 19), (rInfoDetail, 65535), (wOff, 128)] (run (.railFault 19 65535) live) = true ∧
    has [(rFatalCode, 8), (wOff, 255)] (run (.railFault 11 0) live) = true ∧ has [(rFatalCode, 3), (grOcc 9, 1)] (run (.elasticBufferSlip 9 1) live) = true := by
  decide +kernel

theorem test_dump : ∃ s : State, s = put [(rDumpState, 1)] live ∧ s.getF rDumpState = 1 ∧ live.getF rDumpState ≠ 1 ∧ s.onF rDumpBuffer = false ∧
    (put [(rDumpBuffer, 1)] s).onF rDumpBuffer = true ∧ has [(rDumpPresent, 0), (rDumpState, 0)] (run .dumpRelease (put [(rDumpPresent, 1), (rDumpState, 2)] live)) = true ∧
    { put [(rDumpPresent, 1), (rDumpState, 2)] live with pwr := { live.pwr with rails := BitVec.allOnes 20 } }.pwr.rails.getLsbD 3 = true ∧
    has [(rSkipped, 1), (rDumpState, 2)] (run (.ringParity 0 0) { put [(rDumpPresent, 1), (rDumpState, 2)] live with pwr := { live.pwr with rails := BitVec.allOnes 20 } }) = true :=
  ⟨_, rfl, by decide +kernel⟩

/-! ### Bring-up -/

/-- A bring-up in heat `h`. -/
def heating (h : Nat) : State := ({ put [(sHeat, h - 1)] State.reset with pwr := { State.reset.pwr with aon := true } }).setW (reportAt h / 4 + 1) 0x100

theorem test_heats : (∀ h, h < 10 → InHeat h (heating h)) ∧ ¬ InHeat 3 (heating 2) ∧ (heating 0).getF rDumpState ≠ 1 ∧ (heating 0).onF rDumpPresent = false ∧ heatNo (.heat2 ⟨0, 0, 0⟩) = some 2 ∧ (Instr.heat2 ⟨0, 0, 0⟩).wf = true ∧
    (0xFFFFC#20).ushiftRight 2 = BitVec.ofNat 20 (2 ^ 18 - 1) ∧ badRail 0xFFFEC#20 = some 4 := by
  unfold InHeat; decide +kernel

/-- Heat 7 of a lone package, and of one whose port 0 finds package 2 in place of 1 or no package. -/
theorem test_heat7 : ∃ (g : State) (l : LinkFound), g = { heating 7 with flash := { State.reset.flash with linkTopology := 1, linkX := 3 } } ∧ l = ⟨23, .four, 2, 1, 3, 0, 0⟩ ∧
    badRail 0x7FFFF#20 = some 19 ∧ foundOk [l] = true ∧ linkPort 1 23 = 0 ∧ g.flash.linkId < 4096 ∧
    has [(lkState 23, 2), (lpState 0, 3), (lAgreed, 0)] ((g.loadTopo).trainLinks [l]) = true ∧ has [(lpState 0, 2)] ((g.loadTopo).trainLinks []) = true ∧
    (run (.heat7 ⟨0x7F#8, true, []⟩) (heating 7)).outcome 7 = 4 :=
  ⟨_, _, rfl, rfl, by decide +kernel, by decide +kernel, by decide +kernel, by decide +kernel, by decide +kernel, by decide +kernel,
    by decide +kernel⟩

theorem test_heat2 : (run (.heat2 ⟨BitVec.allOnes 10, BitVec.allOnes 16, 0⟩) (heating 2)).outcome 2 = 2 ∧
    (run (.heat2 ⟨BitVec.allOnes 10, 0x7FFF, 0⟩) (heating 2)).outcome 2 = 4 ∧ (run (.heat2 ⟨BitVec.allOnes 10, 0x7FFF, 0⟩) (heating 2)).pwr.nonconformant = true :=
  ⟨by decide +kernel, by decide +kernel⟩

theorem test_heat6 : (run (.heat6 ⟨none⟩) (heating 6)).heatRunning = some 7 ∧ (run (.heat6 ⟨some (1, 191)⟩) (heating 6)).getF rFatalCode = 5 :=
  ⟨by decide +kernel, by decide +kernel⟩

theorem test_heat9 : (run .heat9 (heating 9)).outcome 9 = 2 ∧
    has [(sReady, 1), (sLimited, 0), (sHeat, 9), (hEvent, 512)] (run .heat9 (heating 9)) = true := by
  decide +kernel

/-- Full training at 40 °C: every stack trains but one whose eye is 1/1000 UI or 1 mV too narrow. -/
theorem test_heat3 : ∃ (g : Eye → Heat3In) (u : Eye → State), g = (fun e => ⟨List.replicate 6 40, List.replicate 6 ⟨0, 0⟩, List.replicate 5 ⟨300, 40⟩ ++ [e]⟩) ∧
    u = (fun e => run (.heat3 (g e)) (heating 3)) ∧ (heating 3).flash.records = [] ∧ (heating 3).fullStart (g ⟨300, 40⟩) = true ∧
    (u ⟨299, 40⟩).outcome 3 = 4 ∧ (u ⟨299, 40⟩).pwr.nonconformant = true ∧ trainedAs true (g ⟨300, 39⟩) 4 = 2 ∧ trainedAs true (g ⟨300, 39⟩) 5 = 0 ∧
    (u ⟨300, 40⟩).outcome 3 = 2 ∧ has [(bTrained 5, 2), (bTemp 5, 40)] (u ⟨300, 40⟩) = true :=
  ⟨_, _, rfl, rfl, by decide +kernel, by decide +kernel, by decide +kernel, by decide +kernel, by decide +kernel, by decide +kernel,
    by decide +kernel⟩

/-- A record at 85 °C serves at 75 °C, a start that is not full; at 74 °C it does not, nor in a full start that is due by its days. -/
theorem test_record : ∃ (k : TrainRec) (g : BitVec 8 → Heat3In) (s : Nat → State), k = ⟨true, 1, 1, Config.serial, 12000, List.replicate 6 85, 0, []⟩ ∧
    g = (fun c => ⟨List.replicate 6 c, ⟨300, 40⟩ :: List.replicate 5 ⟨0, 0⟩, List.replicate 6 ⟨0, 0⟩⟩) ∧
    s = (fun n => { heating 3 with flash := { State.reset.flash with records := [k], fullDays := n, days := 2 } }) ∧
    MayServe k (g 75).temps ∧ (s 0).pwr.fullWanted = false ∧ (s 0).flash.fullDays = 0 ∧ EyeWithin (eyeAt (g 75).restored 0) ∧
    (s 0).fullStart (g 75) = false ∧ (s 3).fullStart (g 75) = false ∧ (s 2).fullStart (g 75) = true ∧ (s 0).fullStart (g 74) = true ∧
    trainedAs false (g 75) 0 = 1 ∧ trainedAs false (g 75) 1 = 0 := by
  have h : ∀ c, recordCode (some ⟨true, 1, 1, Config.serial, 12000, List.replicate 6 85, 0, []⟩) c =
      if ((List.range 6).all fun i => tempFits ((List.replicate 6 (85 : BitVec 8)).getD i 0) (c.getD i 0)) then 0 else 5 := by
    intro c; simp [recordCode]
  refine ⟨_, _, _, rfl, rfl, rfl, ⟨rfl, rfl, rfl, rfl, by decide⟩, by decide +kernel, by decide +kernel, by decide, ?_, ?_, ?_, ?_, by decide, by decide⟩ <;>
    simp only [State.fullStart, State.servingRecord, List.find?_cons, h] <;> decide +kernel

/-- Heat 4: with no dump held, with one in the dump region, and with one of 4 bytes in the ladle buffer. -/
theorem test_heat4 : ∃ (z : Heat4In) (m : Nat → Nat → State), z = ⟨[], []⟩ ∧ m = (fun p b => { put [(rDumpPresent, p), (rDumpBuffer, b), (bTrained 5, 2)] (heating 4) with
      hbm := (({} : Mem).store (dumpBase + 8) [7]).store 64 [6],
      pwr := { (heating 4).pwr with full := true, ladle := ({} : Mem).store 0 [1, 2, 3, 4], note := { State.reset.pwr.note with len := 4 } } }) ∧
    (m 0 0).heatRunning = some 4 ∧ (m 1 1).onF rDumpBuffer = true ∧ (m 1 1).pwr.note.len = 4 ∧ (m 0 0).toRepair z = [] ∧
    (m 0 0).fillHbm.moveDump.hbm.bytes = [] ∧ (m 1 0).fillHbm.moveDump.hbm.bytes = [(dumpBase + 8, 7)] ∧
    (m 1 1).fillHbm.moveDump.hbm.load dumpBase 4 = [1, 2, 3, 4] ∧ has [(rDumpBuffer, 0)] (m 1 1).fillHbm.moveDump = true ∧
    (m 0 0).fullDone.getF sLastFull = 1 ∧ ((m 0 0).newRecord []).temps.length = 6 ∧ (((m 0 0).writeRecord ((m 0 0).newRecord [])).flash.records.length = 1) ∧
    (heating 4).toRepair ⟨[⟨5, 31, 31, 32767⟩], []⟩ = [⟨5, 31, 31, 32767⟩] ∧
    [(⟨5, 31, 31, 32767⟩ : RowRef)].all rowOk = true ∧ rowOk ⟨6, 0, 0, 0⟩ = false := ⟨_, _, rfl, rfl, by decide +kernel⟩

theorem test_reconcile : CleanFuses (heating 5) ∧ physOk ⟨7, 15, 17⟩ = true ∧ (put [(physFld ⟨7, 15, 17⟩, 1)] (heating 8)).slotCode ⟨7, 15, 17⟩ = 1 ∧
    (heating 8).fuseWord 0 = 0 ∧ (heating 7).flash.linkId < 4096 ∧ foundOk [⟨47, .four, 4095, 1, 3, 0, 0⟩] = true ∧ ringPos ⟨0, 1, 0⟩ = 35 ∧
    (run (.heat8 ⟨[[(⟨7, 15, 17⟩, 1)]]⟩) (put [(physFld ⟨7, 15, 17⟩, 1)] (heating 8))).fuses.field = [fieldWord ⟨7, 15, 17⟩ false true] := by
  unfold CleanFuses; decide +kernel

/-! ### Peer links -/

/-- Package 0 of a line of four, partition 0 armed; link 23 of port 0 is live with `x` held, or in training. -/
def linked (st : Nat) (l : Link) : State :=
  { put [(lTopology, 1), (lDimX, 3), (lkState 23, st), (lpState 0, 1)] armed with net := { torus := ⟨0, 1, 3, 0, 0⟩ } }.modLink 23 fun _ => l

/-- Message bits of a group whose first flit is `x` and whose others are not good, with a control word, and its symbols. -/
def groupBits (x : LinkTx) (w : BitVec 40) : Nat := leNat x.bytes + 2 ^ 10240 * w.toNat
def groupOf (x : LinkTx) (w : BitVec 40) : List (List (BitVec 10)) := fecLanes 4 (groupBits x w)

/-- The message bits that the code words of a group give. -/
def gathered (b : Nat) : Nat := symNat ((List.range 514).map fun k => BitVec.ofNat 10 (b / 2 ^ (10 * k) % 1024)) +
  2 ^ 5140 * symNat ((List.range 514).map fun k => BitVec.ofNat 10 (b / 2 ^ (10 * (514 + k)) % 1024))

/-- A group on a link's four lanes is the group that was sent. -/
theorem group_on {s : State} {n : Nat} {x : LinkTx} {w : BitVec 40} (h : s.getF (lkState n) ≠ 3)
    (hb : gathered (groupBits x w) = groupBits x w) : s.groupOn n (groupOf x w) = ⟨groupBits x w, true, true, 0⟩ := by
  have hl : (groupOf x w).length = 4 := by simp [groupOf, fecLanes]
  rw [State.groupOn, State.liveLanes, if_neg h, List.take_of_length_le (by omega), groupOf, fecGroup_fecLanes _ (Or.inr rfl)]
  exact congrArg (fun b => (⟨b, true, true, 0⟩ : Group)) hb

theorem flit_on {s : State} {n : Nat} {x : LinkTx} {w : BitVec 40} (h : s.getF (lkState n) ≠ 3)
    (hb : gathered (groupBits x w) = groupBits x w) (i : Nat) : s.flitOn n (groupOf x w) i =
      ((⟨groupBits x w, true, true, 0⟩ : Group).flit i).bind linkFlitOf := by
  rw [State.flitOn, group_on h hb]

set_option maxRecDepth 8000 in
/-- A flit of PSEQ 0 that is next at its link: next at its port, out of order, a resend of one delivered; one that its link does not
expect, with and without a NAK pending; a bad one. -/
theorem test_linkReceive : ∃ (x : LinkTx) (g : Nat → Nat → State), x = ⟨0, 0, false, .partials 0 1 9 0 5 6 1 [7]⟩ ∧
    g = (fun r p => (linked 2 { rxSeq := r }).modPort 0 fun t => { t with rxPseq := p }) ∧
    gathered (groupBits x 0) = groupBits x 0 ∧ (∀ r p, (r, p) ∈ [(0, 0), (0, 65535), (0, 1), (9, 0)] → (g r p).flitOn 23 (groupOf x 0) 0 = some x ∧
      (g r p).flitOn 23 (groupOf x 0) 1 = none) ∧ lanesFit (groupOf x 0) = true ∧ (linked 2 {}).linkLive 23 = true ∧ (linked 1 {}).linkLive 23 = false ∧
    linkPort (linked 2 {}).dims 23 = 0 ∧ ((g 0 65535).port 0).reorder = [] ∧ (linked 2 {}).owner 0 = some 0 ∧ (linked 2 {}).getF (ppState 0) = 1 ∧
    (linked 2 {}).resetting 0 = false ∧ (linked 2 {}).pkgId = 0 ∧
    ((flitIn 23 (some x) (g 0 65535)).port 0).reorder = [(0, some (23, x))] ∧ (flitIn 23 (some x) (g 0 1)).out = [.linkWord 23 (controlWord 0 true false 0 0)] ∧
    ((flitIn 23 (some x) (g 0 0)).die 0).tap0.flits = [.partials 2048 0 false 0 5 6 1 [7]] ∧ (flitIn 23 (some x) (g 0 0)).out = answersAtOnce 23 x ∧
    (flitIn 23 none (g 0 0)).out = [.linkWord 23 (controlWord 4095 true true 0 0)] ∧ (flitIn 23 (some x) (g 9 0)).out = [.linkWord 23 (controlWord 8 true true 0 0)] ∧
    (flitIn 23 (some x) (linked 2 { rxSeq := 9, nakPending := true })).out = [] := by
  have hb : gathered (groupBits ⟨0, 0, false, .partials 0 1 9 0 5 6 1 [7]⟩ 0) = groupBits ⟨0, 0, false, .partials 0 1 9 0 5 6 1 [7]⟩ 0 := by decide +kernel
  refine ⟨_, _, rfl, rfl, hb, ?_, by decide +kernel⟩
  intro r p h
  simp only [List.mem_cons, Prod.mk.injEq, List.not_mem_nil, or_false] at h
  have hs : ∀ i, ((linked 2 { rxSeq := r }).modPort 0 fun t => { t with rxPseq := p }).flitOn 23 _ i = _ :=
    fun i => flit_on (s := (linked 2 { rxSeq := r }).modPort 0 fun t => { t with rxPseq := p })
      (show (linked 2 {}).getF (lkState 23) ≠ 3 by decide +kernel) hb i
  exact ⟨(hs 0).trans (by decide +kernel), (hs 1).trans (by decide +kernel)⟩

set_option maxRecDepth 8000 in
/-- A SEND flit in order, with its three units. -/
theorem test_linkSend : ∃ (x : LinkTx) (f : List Flit), x = ⟨0, 0, false, .send 0 1 9 0 true 0x40 true true 63 0 (List.replicate 192 7)⟩ ∧
    f = [.send 2048 4 0 false 0 true 0x40 false true 63 0 (List.replicate 128 7), .send 2048 4 0 false 0 true 0xC0 true true 63 0 (List.replicate 64 7)] ∧ (linked 2 {}).flitOn 23 (groupOf x 0) 0 = some x ∧
    ((flitIn 23 (some x) (linked 2 {})).die 0).tap0.flits = f := by
  refine ⟨_, _, rfl, rfl, (flit_on (by decide +kernel) (by decide +kernel) 0).trans ?_, ?_⟩ <;> decide +kernel

set_option maxRecDepth 8000 in
/-- Control words: the group of an idle flit with an acknowledgement, with credits, with a NAK, and of one with neither. -/
theorem test_linkWord : ∃ (x : LinkTx) (g : BitVec 40 → Group), x = ⟨0, 0, false, .idle⟩ ∧ g = (fun w => ⟨groupBits x w, true, true, 0⟩) ∧
    (∀ w, w ∈ [controlWord 7 true false 0 0, controlWord 0 false false 5 9, controlWord 0 false true 0 0] →
      (linked 2 {}).groupOn 23 (groupOf x w) = g w ∧ (g w).word = some w) ∧
    (linked 2 {}).flitOn 23 (groupOf x 0) 0 = some x := by
  refine ⟨_, _, rfl, rfl, ?_, (flit_on (by decide +kernel) (by decide +kernel) 0).trans (by decide +kernel)⟩
  intro w h
  simp only [List.mem_cons, List.not_mem_nil, or_false] at h
  rcases h with rfl | rfl | rfl <;> exact ⟨group_on (by decide +kernel) (by decide +kernel), by decide +kernel⟩

theorem test_linkControl : ∃ x : LinkTx, x = ⟨7, 9, false, .notices 1 0 [5]⟩ ∧ ((linked 2 { unacked := [x] }).port 0).outq = [] ∧
    ((linked 2 { naks := 15 }).link 23).naks = 15 ∧
    has [(lkState 23, 1)] (run (.linkRetrain 23) (linked 2 {})) = true ∧ (linked 1 {}).getF (lkState 23) = 1 ∧ (linked 2 {}).dims ≠ 0 ∧
    (run (.retrainingComplete 23 .four) (linked 1 { unacked := [x] })).out = [.linkSend 23 { x with lseq := 0 }] ∧ has [(lkState 23, 0), (lpState 0, 2), (hEvent, 2 ^ 13)] (run (.linkDown 23 false) (linked 2 {})) = true ∧
    has [(lkState 23, 0), (lpState 0, 1), (hEvent, 0)] (run (.linkDown 23 false) (put [(lkState 22, 2)] (linked 2 {}))) = true ∧
    has [(lpState 0, 3), (hEvent, 2 ^ 13)] (run (.linkDown 23 true) (linked 2 {})) = true ∧ (linked 2 {}).getF (lkState 0) = 0 ∧
    has [(hEvent, 0)] (run (.linkDown 23 true) (put [(lpState 0, 3)] (linked 2 {}))) = true ∧
    ((run (.linkDown 23 false) ((linked 2 {}).modPort 0 fun p => { p with outq := [⟨false, x.flit, none⟩] })).port 0).outq = [] ∧
    has [(lpUnreach 0, 1)] (run (.linkDown 23 false) ((linked 2 {}).modPort 0 fun p => { p with outq := [⟨false, x.flit, none⟩] })) = true := ⟨_, rfl, by decide +kernel⟩

theorem test_packages : ∃ s : State, s = (linked 2 {}).setPack 1 [5] ∧ (linked 2 {}).packFor 1 = [] ∧ s.packFor 1 = [5] ∧ s.routeDim 1 = some 0 ∧ s.routePlus 1 0 = true ∧
    portOf s.dims 0 true = 0 ∧ (∀ k, k < 6 → (s.port k).outq = []) ∧ s.getF (lpState 0) = 1 ∧ (s.port 0).outq = [] ∧ (s.port 0).credit (s.routeVc s.pkgId 0 true) = true ∧ s.nextLinkOf 0 = some 23 ∧
    (run (.linkNoticeFlush 1) s).out = [.linkSend 23 ⟨0, 0, false, .notices 1 0 [5]⟩] ∧ (run (.nack 1 3) { s with net := { s.net with unackedNotices := 5 } }).net.unackedNotices = 2 ∧
    ((run (.unreach 0 7) s).part 0).faults = [⟨0x70, 0, 0, 0, true⟩] ∧ has [(sIgnored, 1), (sIgnCause, 11)] (run (.retrain []) s) = true ∧ s.onF sLimited = false ∧
    (put [(pPattern, 0)] s).armed = false ∧ s.pwr.linksStopped = false ∧
    has [(lkState 23, 0)] (run (.retrain []) { put [(pPattern, 0)] s with pwr := { s.pwr with linksStopped := true } }) = false ∧
    has [(lkState 47, 3), (lkPort 47, 1), (lpState 1, 1), (lkState 23, 0)] (run (.retrain [⟨47, .pair01, 3, 1, 3, 0, 0⟩]) (put [(pPattern, 0)] s)) = true :=
  ⟨_, rfl, by decide +kernel⟩

set_option maxRecDepth 8000 in
/-- Sync messages in 64 bits, and flits in 256 bytes, with the last value of their fields. -/
theorem test_readBack : ∃ (m : SyncMsg) (x : LinkTx), m = .counter 2047 63 65535 true 3 255 4095 ∧
    x = ⟨4095, 65535, true, .sync 4095 4095 2047 (List.replicate 29 (.sync m))⟩ ∧ MsgFits m ∧ LinkFits x ∧
    syncOf (syncBits m).toNat = some m ∧ linkFlitOf x.bytes = some x ∧
    leNat ((x.bytes.set 20 9).drop 252) ≠ (crc32 ((x.bytes.set 20 9).take 252)).toNat ∧ linkFlitOf (x.bytes.set 20 9) = none := by
  refine ⟨_, _, rfl, rfl, by simp [MsgFits], ?_, by decide +kernel⟩
  simp only [LinkFits, List.length_replicate, List.mem_replicate]
  refine ⟨by decide, by decide, by decide, by decide, by decide, by decide, by decide, ?_⟩
  rintro _ ⟨_, rfl⟩
  simp [LinkMsgFits, MsgFits]

/-! ### Ill-formed commands: the smoke test -/

/-- A command that names what the part does not have, refused by each check in turn. -/
theorem test_illFormedCore : ([.nop 2048 .m, .ctrAdd 2048 .x, .loop 4096 .v, .moveRetire 2048 0, .moveRetire 0 4, .vecAlu 2048, .flipNoticeReceive 8 0 0 0,
    .flipNoticeReceive 0 288 0 0, .flipNoticeReceive 0 0 4 0, .flipNoticeReceive 0 0 0 288, .noticeExport 0 4 0, .partialReceive 0 288 0 0 0,
    .counterMessage 2048 none, .counterMessage 0 (some ⟨4, 0, false⟩), .counterMessage 0 (some ⟨0, 288, false⟩), .counterMessage 0 (some ⟨1, 0, true⟩),
    .dieCombine 0 (some ⟨0, 8, true⟩), .sendFlitReceive 0 288 0 0 0, .flitInject 0 .stop 288 0 0, .flitInject 0 .bridge 2 0 0, .flitInject 0 .bridge 1 4 0, .reservation 8 0,
    .reservation 0 288, .dieCombine 8 none, .barrierRootComplete 64, .barrierReleaseApply 2048 (.held false), .barrierReleaseApply 0 (.passing 288),
    .seedStage ⟨2048, 0⟩, .seedStage ⟨0, 288⟩] : List Instr).all (fun c => !c.wf) = true := by decide +kernel

theorem test_illFormedHost : ([.holdEnd 8, .extraRefreshHold 6 0, .extraRefreshHold 0 8, .partitionStop 8, .hostCounterAdd 256 1, .hostTake 256 0, .hostTake 0 256,
    .hostCounterPatternAdd 256, .hostWatchWrite 32 0, .msixPendingSend 64, .crcRefill 8 0, .crcRefill 0 4, .crcRelease 8, .crcDrop 8, .crcConfigWrite 8 0 8 0,
    .crcConfigWrite 0 256 8 0, .resetComplete 8, .ckptSaveContinue 8 false, .nextSeedWrite 8 false 8 0, .hbmRequest (some ⟨8, 0, 0⟩) none,
    .hbmRequest none (some ⟨192, 0⟩), .hbmRequest none (some ⟨0, 8⟩), .refpb 192 0, .refpb 0 32, .scrubAccess 192, .sramScrub 0 .op 2, .sramScrub 0 .tile 8,
    .sramScrub 0 .lace 32, .correctedWriteBack 192, .rowRemapCopy 192 0 0, .rowRemapCopy 0 32 0, .rowRemapCopy 0 0 32768, .stackTemperatureRead 6 0,
    .lapOverdue (.stack 6), .lapOverdue (.core 2048), .cxlmemRead 0x2FFFFFFFFF 2, .cxlmemWrite 0x3000000000 [some 0] false, .doeUnsupported (1, 0) ⟨0, false⟩,
    .doeUnsupported (0x1E98, 2) ⟨16384, false⟩, .doeUnsupported (0x1D8F, 1) ⟨8, false⟩, .doeUnsupported (65536, 0) ⟨8, true⟩, .doeUnsupported (1, 256) ⟨8, true⟩,
    .saveCopied 8, .restoreLoaded 8] : List Instr).all (fun c => !c.wf) = true := by decide +kernel

theorem test_illFormedPackage : ([.temperatureSample 10 (List.replicate 16 0), .temperatureSample 0 [], .railFault 20 0, .railFault 0 65536, .pllLossOfLock 10,
    .sprueCrcError 10 0, .sprueCrcError 0 16, .ringParity 8 0, .ringParity 0 4, .hbmCtrlError 6 0, .regionWarning 10 6, .regionWarning 0 8, .elasticBufferSlip 10 7,
    .elasticBufferSlip 0 8, .partitionGate 8, .partitionWake 8, .heat1 ⟨3, 64, true⟩, .heat1 ⟨8, 40, false⟩, .heat1 ⟨0, 16, false⟩, .heat3 ⟨[], List.replicate 6 ⟨0, 0⟩, List.replicate 6 ⟨0, 0⟩⟩,
    .heat3 ⟨List.replicate 6 0, [], List.replicate 6 ⟨0, 0⟩⟩, .heat3 ⟨List.replicate 6 0, List.replicate 6 ⟨0, 0⟩, []⟩, .heat4 ⟨[⟨6, 0, 0, 0⟩], []⟩,
    .heat4 ⟨[⟨0, 32, 0, 0⟩], []⟩, .heat4 ⟨[], [⟨0, 0, 32, 0⟩]⟩, .heat4 ⟨[], [⟨0, 0, 0, 32768⟩]⟩, .heat5 ⟨[⟨8, 0, 0⟩], [], []⟩, .heat5 ⟨[], [⟨0, 16, 0⟩], []⟩,
    .heat5 ⟨[], [⟨0, 0, 18⟩], []⟩, .heat5 ⟨[], [], [⟨⟨0, 0, 0⟩, .op, 2, 0⟩]⟩, .heat5 ⟨[], [], [⟨⟨0, 0, 0⟩, .tile, 0, 1024⟩]⟩, .heat6 ⟨some (0, 0)⟩, .heat6 ⟨some (1, 192)⟩,
    .heat6 ⟨some (2, 65536)⟩, .heat6 ⟨some (3, 16384)⟩, .heat6 ⟨some (4, 4096)⟩, .heat6 ⟨some (5, 8)⟩, .heat7 ⟨0, true, [⟨48, .four, 0, 0, 0, 0, 0⟩]⟩,
    .heat8 ⟨[[(⟨8, 0, 0⟩, 1)]]⟩, .controlSramUncorrectable 0x800000] : List Instr).all (fun c => !c.wf) = true := by decide +kernel

/-- Four lanes without a symbol. -/
def noLanes : List (List (BitVec 10)) := List.replicate 4 []

theorem test_illFormedLink : ([.linkFlitReceive ⟨48, 0⟩ [] [] [] [], .linkFlitReceive ⟨0, 5⟩ [] [] [] [],
    .linkFlitReceive ⟨0, 0⟩ [] [] [] (List.replicate 545 0), .groupControlWord 0 (List.replicate 5 []), .groupControlWord 48 noLanes, .groupControlWord 0 [], .linkRetrain 48, .linkNoticeFlush 4096, .larrive 64 0 0 false,
    .larrive 0 0 4096 false, .lrelease 64 false 0 false, .lrelease 0 false 64 false, .nack 4096 0, .unreach 2048 0, .unreach 0 8, .retrain [⟨48, .down, 0, 0, 0, 0, 0⟩],
    .retrain [⟨0, .down, 4096, 0, 0, 0, 0⟩], .retrain [⟨0, .down, 0, 4, 0, 0, 0⟩], .retrain [⟨0, .down, 0, 0, 4096, 0, 0⟩], .retrain [⟨0, .down, 0, 0, 0, 4096, 0⟩],
    .retrain [⟨0, .down, 0, 0, 0, 0, 4096⟩], .linkDown 48 true, .retrainingComplete 48 .four] : List Instr).all (fun c => !c.wf) = true := by decide +kernel

/-- Whether exec changes nothing at reset but counters of the command's own: the queue, the tick and the core are as before. -/
def idles (c : Instr) : Bool :=
  match exec c State.reset with
  | .next t => t.pending == [] && t.tick == 0 && t.cores.isEmpty && t.out.isEmpty
  | _ => false

/-- The last values that each check admits, and what exec answers on an ill-formed command. -/
theorem test_wellFormedEdges : ([.nop 2047 .v, .moveRetire 2047 3, .flipNoticeReceive 7 287 3 287, .counterMessage 2047 (some ⟨3, 287, false⟩), .dieCombine 7 (some ⟨0, 272, true⟩),
    .barrierReleaseApply 2047 (.passing 287), .sramScrub 2047 .lace 31, .cxlmemRead 0x2FFFFFFFFF 1, .doeUnsupported (1, 0) ⟨8, true⟩, .doeUnsupported (1, 0) ⟨16385, false⟩, .doeUnsupported (1, 0x98) ⟨8, false⟩,
    .hbmRequest (some ⟨7, 3, 287⟩) (some ⟨191, 7⟩), .regionWarning 9 7, .heat1 ⟨1, 16, false⟩, .heat1 ⟨0, 0, false⟩, .heat6 ⟨some (2, 65535)⟩,
    .linkFlitReceive ⟨47, 4⟩ (List.replicate 544 0) [] [] (List.replicate 544 0), .retrain [⟨47, .down, 4095, 3, 4095, 4095, 4095⟩], .railFault 19 65535,
    .controlSramUncorrectable 0x7FFFFF] : List Instr).all Instr.wf = true ∧ idles (.nop 2048 .m) = true ∧ idles (.partitionStop 8) = true ∧
    (match exec (.cxlmemRead 0x3000000000 1) State.reset with | .fault .outsideHdm => true | _ => false) = true := by decide +kernel

end Sys2Proof.Tests
end

section
/-!
PROOFS. Scope: what reset leaves, what every step keeps, and the host's register accesses.
-/
namespace Sys2Proof.Machine

/-! ### What every command keeps (R13, R36, R132) -/

section Commands

variable {a s t u : State}

/-- A command that ends in a state that keeps everything keeps everything. -/
theorem next_keeps (hk : Keeps s t) (hx : (.next t : Host.Outcome State Fault Refusal) = .next u) : Keeps s u := by
  rw [Host.Outcome.next.injEq] at hx
  exact hx ▸ hk

/-- One whose operands may name nothing keeps everything in either case (log 76). -/
theorem guarded_keeps {ok : Bool} (hk : Keeps s t) (hx : guarded ok s t = .next u) : Keeps s u := by
  rw [(guarded_next ok s t u).1 hx]
  exact keeps_ite hk (.refl s)

/-- A CXL.mem read inside the HDM range keeps everything; outside it there is no next state (R403). -/
theorem execCxlmemRead_keeps {addr len : Nat} (hx : execCxlmemRead addr len s = .next t) : Keeps s t := by
  unfold execCxlmemRead at hx
  split at hx
  · exact next_keeps (cxlmemReadOp_keeps addr len (.refl s)) hx
  · cases hx

theorem execCxlmemWrite_keeps {addr : Nat} {data : List (Option Byte)} {poison : Bool}
    (hx : execCxlmemWrite addr data poison s = .next t) : Keeps s t := by
  unfold execCxlmemWrite at hx
  split at hx
  · exact next_keeps (cxlmemWriteOp_keeps addr data poison (.refl s)) hx
  · cases hx

/-- A host write keeps everything, in BAR0 and beside it. -/
theorem execRegisterWrite_keeps {dst : HostAddr} {size : Nat} {v : W64} (hx : execRegisterWrite dst size v s = .next t) :
    Keeps s t := by
  unfold execRegisterWrite at hx
  split at hx
  · exact next_keeps (registerWriteOp_keeps _ size v (.refl s)) hx
  · exact next_keeps (cfgWrite_keeps dst size v (.refl s)) hx

theorem execRcRead_keeps {src : HostAddr} {size : Nat} (hx : execRcRead src size s = .next t) : Keeps s t := by
  unfold execRcRead at hx
  split at hx
  · exact next_keeps (rcReadOp_keeps _ size (.refl s)) hx
  · exact next_keeps (emit_keeps _ (.refl s)) hx

/-- Every command keeps the queue's rest, what was sent, burned fuses and the canonical form. -/
theorem exec_keeps {c : Instr} (hx : exec c s = .next t) : Keeps s t := by
  have hs := Keeps.refl s
  cases c with
  | nop lid q => exact guarded_keeps (nopOp_keeps lid q hs) hx
  | ctrAdd lid q => exact guarded_keeps (ctrAddOp_keeps lid q hs) hx
  | ctrSet lid q => exact guarded_keeps (ctrSetOp_keeps lid q hs) hx
  | ctrTake lid q => exact guarded_keeps (ctrTakeOp_keeps lid q hs) hx
  | ctrLook lid q => exact guarded_keeps (ctrLookOp_keeps lid q hs) hx
  | ctrDec lid q => exact guarded_keeps (ctrDecOp_keeps lid q hs) hx
  | loop lid q => exact guarded_keeps (loopOp_keeps lid q hs) hx
  | endloop lid q => exact guarded_keeps (endloopOp_keeps lid q hs) hx
  | select lid q => exact guarded_keeps (selectOp_keeps lid q hs) hx
  | halt lid q => exact guarded_keeps (haltOp_keeps lid q hs) hx
  | barArrive lid q => exact guarded_keeps (barArriveOp_keeps lid q hs) hx
  | xHbm lid => exact guarded_keeps (xHbmOp_keeps lid hs) hx
  | xSend lid => exact guarded_keeps (xSendOp_keeps lid hs) hx
  | xCopy lid => exact guarded_keeps (xCopyOp_keeps lid hs) hx
  | moveRetire lid mid => exact guarded_keeps (moveRetireOp_keeps lid mid hs) hx
  | macTile lid => exact guarded_keeps (macTileOp_keeps lid hs) hx
  | macMm lid => exact guarded_keeps (macMmOp_keeps lid hs) hx
  | macDrain lid => exact guarded_keeps (macDrainOp_keeps lid hs) hx
  | drainRead lid => exact guarded_keeps (drainReadOp_keeps lid hs) hx
  | suaPhase lid => exact guarded_keeps (suaPhaseOp_keeps lid hs) hx
  | heldNoticeRelease lid => exact guarded_keeps (heldReleaseOp_keeps lid hs) hx
  | deferredUpdateApply lid => exact guarded_keeps (deferredApplyOp_keeps lid hs) hx
  | suaBeta lid => exact guarded_keeps (suaBetaOp_keeps lid hs) hx
  | suaClamp lid => exact guarded_keeps (suaClampOp_keeps lid hs) hx
  | suaSnap lid => exact guarded_keeps (suaSnapOp_keeps lid hs) hx
  | suaClrcount lid => exact guarded_keeps (suaClrcountOp_keeps lid hs) hx
  | suaSweep lid => exact guarded_keeps (suaSweepOp_keeps lid hs) hx
  | suaResult lid => exact guarded_keeps (suaResultOp_keeps lid hs) hx
  | suaRestartReset lid => exact guarded_keeps (restartResetOp_keeps lid hs) hx
  | suaRestartReplay lid => exact guarded_keeps (restartReplayOp_keeps lid hs) hx
  | vecLdt lid => exact guarded_keeps (vecLdtOp_keeps lid hs) hx
  | vecLdl lid => exact guarded_keeps (vecLdlOp_keeps lid hs) hx
  | vecStt lid => exact guarded_keeps (vecSttOp_keeps lid hs) hx
  | vecStl lid => exact guarded_keeps (vecStlOp_keeps lid hs) hx
  | vecAlu lid => exact guarded_keeps (vecAluOp_keeps lid hs) hx
  | vecFpu lid => exact guarded_keeps (vecFpuOp_keeps lid hs) hx
  | vecRsum lid => exact guarded_keeps (vecRsumOp_keeps lid hs) hx
  | vecRsumf lid => exact guarded_keeps (vecRsumfOp_keeps lid hs) hx
  | vecRmax lid => exact guarded_keeps (vecRmaxOp_keeps lid hs) hx
  | vecRmin lid => exact guarded_keeps (vecRminOp_keeps lid hs) hx
  | vecPsend lid => exact guarded_keeps (vecPsendOp_keeps lid hs) hx
  | vecPread lid => exact guarded_keeps (vecPreadOp_keeps lid hs) hx
  | vecEnergy lid => exact guarded_keeps (vecEnergyOp_keeps lid hs) hx
  | vecEfin lid => exact guarded_keeps (vecEfinOp_keeps lid hs) hx
  | vecXchg lid => exact guarded_keeps (vecXchgOp_keeps lid hs) hx
  | vecSwap lid => exact guarded_keeps (vecSwapOp_keeps lid hs) hx
  | vecBestkClear lid => exact guarded_keeps (bestkClearOp_keeps lid hs) hx
  | vecBestkAdmit lid => exact guarded_keeps (bestkAdmitOp_keeps lid hs) hx
  | vecBestkEmit lid => exact guarded_keeps (bestkEmitOp_keeps lid hs) hx
  | vecPaircnt lid => exact guarded_keeps (vecPaircntOp_keeps lid hs) hx
  | vecWupd lid => exact guarded_keeps (vecWupdOp_keeps lid hs) hx
  | vecTupd lid => exact guarded_keeps (vecTupdOp_keeps lid hs) hx
  | vecCreg lid => exact guarded_keeps (vecCregOp_keeps lid hs) hx
  | picFill lid => exact guarded_keeps (picFillOp_keeps lid hs) hx
  | flipNoticeReceive die pos ring slot => exact guarded_keeps (flipNoticeReceiveOp_keeps die pos ring slot hs) hx
  | noticeExport die ring slot => exact guarded_keeps (noticeExportOp_keeps die ring slot hs) hx
  | partialReceive die pos ring slot drain => exact guarded_keeps (partialReceiveOp_keeps die pos ring slot drain hs) hx
  | counterMessage lid meet => exact guarded_keeps (counterMessageOp_keeps lid meet hs) hx
  | sendFlitReceive die pos ring slot drain => exact guarded_keeps (sendFlitReceiveOp_keeps die pos ring slot drain hs) hx
  | flitInject die who place ring slot => exact guarded_keeps (flitInjectOp_keeps die who place ring slot hs) hx
  | reservation die pos => exact guarded_keeps (reservationOp_keeps die pos hs) hx
  | dieCombine die meet => exact guarded_keeps (dieCombineOp_keeps die meet hs) hx
  | barrierRootComplete bid => exact guarded_keeps (barrierRootCompleteOp_keeps bid hs) hx
  | barrierReleaseApply lid come => exact guarded_keeps (barrierReleaseApplyOp_keeps lid come hs) hx
  | seedStage meet => exact guarded_keeps (seedStageOp_keeps meet.lid meet.slot hs) hx
  | holdEnd part => exact guarded_keeps (holdEndOp_keeps part hs) hx
  | extraRefreshHold stack part => exact guarded_keeps (extraRefreshHoldOp_keeps stack part hs) hx
  | partitionStop part => exact guarded_keeps (partitionStopOp_keeps part hs) hx
  | syncWatchdog lid q => exact guarded_keeps (syncWatchdogOp_keeps lid q hs) hx
  | hostCounterAdd h n => exact guarded_keeps (hostCounterAddOp_keeps h n.toNat hs) hx
  | hostTake h n => exact guarded_keeps (hostTakeOp_keeps h n hs) hx
  | hostCounterPatternAdd h => exact guarded_keeps (hostCounterPatternAddOp_keeps h hs) hx
  | hostWatchWrite w v => exact guarded_keeps (hostWatchWriteOp_keeps w v hs) hx
  | msixPendingSend vec => exact guarded_keeps (msixPendingSendOp_keeps vec hs) hx
  | crcRefill u slot => exact guarded_keeps (crcRefillOp_keeps u slot hs) hx
  | crcRelease u => exact guarded_keeps (crcReleaseOp_keeps u hs) hx
  | crcDrop u => exact guarded_keeps (crcDropOp_keeps u hs) hx
  | crcConfigWrite u off size v => exact guarded_keeps (crcConfigWriteOp_keeps u off size v hs) hx
  | verify => exact next_keeps (verifyOp_keeps hs) hx
  | verifyComplete => exact next_keeps (verifyCompleteOp_keeps hs) hx
  | pour => exact next_keeps (pourOp_keeps hs) hx
  | sectionLanding idx => exact next_keeps (sectionLandingOp_keeps idx hs) hx
  | arming => exact next_keeps (armingOp_keeps hs) hx
  | disarm => exact next_keeps (disarmOp_keeps hs) hx
  | patch => exact next_keeps (patchOp_keeps hs) hx
  | partitionReset mask => exact next_keeps (partitionResetOp_keeps mask hs) hx
  | resetComplete part => exact guarded_keeps (resetCompleteOp_keeps part hs) hx
  | key => exact next_keeps (keyOp_keeps hs) hx
  | ckptSaveContinue part resultOnly => exact guarded_keeps (saveOp_keeps part 1 resultOnly hs) hx
  | ckptSaveHold part resultOnly => exact guarded_keeps (saveHoldOp_keeps part resultOnly hs) hx
  | ckptHold part resultOnly => exact guarded_keeps (plainHoldOp_keeps part resultOnly hs) hx
  | ckptResume part => exact guarded_keeps (ckptResumeOp_keeps part hs) hx
  | ckptRestore part => exact guarded_keeps (ckptRestoreOp_keeps part hs) hx
  | ckptHashDone part => exact guarded_keeps (ckptHashDoneOp_keeps part hs) hx
  | nextSeedWrite part high size v => exact guarded_keeps (nextSeedWriteOp_keeps part high size v hs) hx
  | seedDraw part => exact guarded_keeps (seedDrawOp_keeps part hs) hx
  | seedFillDone part => exact guarded_keeps (seedFillDoneOp_keeps part hs) hx
  | entModeWrite mode => exact next_keeps (entModeWriteOp_keeps mode hs) hx
  | entReseed => exact next_keeps (entReseedOp_keeps hs) hx
  | entInstantiate => exact next_keeps (entInstantiateOp_keeps hs) hx
  | entRandRead size high => exact next_keeps (entRandReadOp_keeps size high hs) hx
  | entropyBlock r => exact next_keeps (entropyBlockOp_keeps r.samples r.kat hs) hx
  | drbgGenerate => exact next_keeps (drbgGenerateOp_keeps hs) hx
  | hbmRequest arrive serve => exact guarded_keeps (hbmRequestOp_keeps arrive serve hs) hx
  | writeAck lid => exact guarded_keeps (writeAckOp_keeps lid hs) hx
  | refpb p bank => exact guarded_keeps (refpbOp_keeps p bank hs) hx
  | scrubAccess p => exact guarded_keeps (scrubAccessOp_keeps p hs) hx
  | sramScrub lid mem bank => exact guarded_keeps (sramScrubOp_keeps lid mem bank hs) hx
  | correctedWriteBack p => exact guarded_keeps (correctedWriteBackOp_keeps p hs) hx
  | rowRemapCopy p bank row => exact guarded_keeps (rowRemapCopyOp_keeps p bank row hs) hx
  | stackTemperatureRead c t => exact guarded_keeps (stackTemperatureReadOp_keeps c t hs) hx
  | lapOverdue who => exact guarded_keeps (lapOverdueOp_keeps who hs) hx
  | cxlmemRead addr len => exact execCxlmemRead_keeps hx
  | cxlmemWrite addr data poison => exact execCxlmemWrite_keeps hx
  | registerWrite dst size v => exact execRegisterWrite_keeps hx
  | rcRead src size => exact execRcRead_keeps hx
  | conventionalReset => exact next_keeps (conventionalResetOp_keeps hs) hx
  | functionLevelReset => exact next_keeps (functionLevelResetOp_keeps hs) hx
  | doeDiscovery index => exact next_keeps (doeRequest_keeps (.discovery index) hs) hx
  | cxlTableAccess => exact next_keeps (doeRequest_keeps .cdat hs) hx
  | getCert => exact next_keeps (doeRequest_keeps .cert hs) hx
  | quote nonce => exact next_keeps (doeRequest_keeps (.quote nonce) hs) hx
  | doeUnsupported => exact guarded_keeps (doeRequest_keeps .bad hs) hx
  | readState => exact next_keeps (readStateOp_keeps hs) hx
  | readPower => exact next_keeps (readPowerOp_keeps hs) hx
  | readTemp => exact next_keeps (readTempOp_keeps hs) hx
  | readHbmTemp => exact next_keeps (readHbmTempOp_keeps hs) hx
  | cap write pecOk => exact next_keeps (capOp_keeps write pecOk hs) hx
  | readSerial => exact next_keeps (readSerialOp_keeps hs) hx
  | readFw => exact next_keeps (readFwOp_keeps hs) hx
  | monHelp => exact next_keeps (monHelpOp_keeps hs) hx
  | monState => exact next_keeps (monStateOp_keeps hs) hx
  | monHeat h => exact next_keeps (monHeatOp_keeps h hs) hx
  | monRd off count => exact next_keeps (monRdOp_keeps off count hs) hx
  | monWr off v => exact next_keeps (monWrOp_keeps off v hs) hx
  | monFuse => exact next_keeps (monFuseOp_keeps hs) hx
  | monLog n => exact next_keeps (monLogOp_keeps n hs) hx
  | monBaud rate => exact next_keeps (monBaudOp_keeps rate hs) hx
  | monFullstart => exact next_keeps (monFullstartOp_keeps hs) hx
  | monLinkcfg id topology x y z => exact next_keeps (monLinkcfgOp_keeps id topology x y z hs) hx
  | monLinktest port seconds => exact next_keeps (monLinktestOp_keeps port seconds hs) hx
  | monMemtest target => exact next_keeps (monMemtestOp_keeps target hs) hx
  | monDump sec => exact next_keeps (monDumpOp_keeps sec hs) hx
  | monLoad length => exact next_keeps (monLoadOp_keeps length hs) hx
  | monCommit => exact next_keeps (monCommitOp_keeps hs) hx
  | monRaw arg => exact next_keeps (monRawOp_keeps arg hs) hx
  | monRawread bytes => exact next_keeps (monRawreadOp_keeps bytes hs) hx
  | monFatal => exact next_keeps (monFatalOp_keeps hs) hx
  | monReset => exact next_keeps (monResetOp_keeps hs) hx
  | monUnlock => exact next_keeps (monUnlockOp_keeps hs) hx
  | unlockToken token => exact next_keeps (unlockTokenOp_keeps token hs) hx
  | monLock => exact next_keeps (monLockOp_keeps hs) hx
  | unlockExpiry => exact next_keeps (unlockExpiryOp_keeps hs) hx
  | monFrame frame => exact next_keeps (monFrameOp_keeps frame hs) hx
  | monTransferTimeout => exact next_keeps (monTransferTimeoutOp_keeps hs) hx
  | monUnknownCommand => exact next_keeps (monUnknownCommandOp_keeps hs) hx
  | recoveryCommit => exact next_keeps (recoveryCommitOp_keeps hs) hx
  | recoveryClear => exact next_keeps (recoveryClearOp_keeps hs) hx
  | fullNextWrite size v => exact next_keeps (fullNextWriteOp_keeps size v hs) hx
  | powerOnDay => exact next_keeps (powerOnDayOp_keeps hs) hx
  | temperatureSample die sensors => exact guarded_keeps (temperatureSampleOp_keeps die sensors hs) hx
  | powerSum avg avg10 => exact next_keeps (powerSumOp_keeps avg avg10 hs) hx
  | railFault rail mv => exact guarded_keeps (railFaultOp_keeps rail mv hs) hx
  | pllLossOfLock die => exact guarded_keeps (pllLossOfLockOp_keeps die hs) hx
  | sprueCrcError die lane => exact guarded_keeps (sprueCrcErrorOp_keeps die lane hs) hx
  | ringParity die ring => exact guarded_keeps (ringParityOp_keeps die ring hs) hx
  | hbmCtrlError c detail => exact guarded_keeps (hbmCtrlErrorOp_keeps c detail hs) hx
  | ccWatchdogExpiry => exact next_keeps (ccWatchdogExpiryOp_keeps hs) hx
  | regionWarning idx occ => exact guarded_keeps (regionWarningOp_keeps idx occ hs) hx
  | elasticBufferSlip idx occ => exact guarded_keeps (elasticBufferSlipOp_keeps idx occ hs) hx
  | dumpComplete => exact next_keeps (dumpCompleteOp_keeps hs) hx
  | dumpRelease => exact next_keeps (dumpReleaseOp_keeps hs) hx
  | partitionGate part => exact guarded_keeps (partitionGateOp_keeps part hs) hx
  | partitionWake part => exact guarded_keeps (partitionWakeOp_keeps part hs) hx
  | deepEntry => exact next_keeps (deepEntryOp_keeps hs) hx
  | pgoodAon => exact next_keeps (pgoodAonOp_keeps hs) hx
  | powerLoss => exact next_keeps (powerLossOp_keeps hs) hx
  | heat0 r => exact next_keeps (heat0Op_keeps r hs) hx
  | heat1 r => exact guarded_keeps (heat1Op_keeps r hs) hx
  | heat2 r => exact next_keeps (heat2Op_keeps r hs) hx
  | heat3 r => exact guarded_keeps (heat3Op_keeps r hs) hx
  | heat4 r => exact guarded_keeps (heat4Op_keeps r hs) hx
  | heat5 r => exact guarded_keeps (heat5Op_keeps r hs) hx
  | heat6 r => exact guarded_keeps (heat6Op_keeps r hs) hx
  | heat7 r => exact guarded_keeps (heat7Op_keeps r hs) hx
  | heat8 r => exact guarded_keeps (heat8Op_keeps r hs) hx
  | heat9 => exact next_keeps (heat9Op_keeps hs) hx
  | linkFlitReceive place lane0 lane1 lane2 lane3 =>
    exact guarded_keeps (linkFlitReceiveOp_keeps place.link [lane0, lane1, lane2, lane3] place.flit hs) hx
  | groupControlWord link lanes => exact guarded_keeps (groupControlWordOp_keeps link lanes hs) hx
  | linkRetrain link => exact guarded_keeps (linkRetrainOp_keeps link hs) hx
  | linkNoticeFlush dpkg => exact guarded_keeps (linkNoticeFlushOp_keeps dpkg hs) hx
  | larrive bid count spkg drain => exact guarded_keeps (larriveOp_keeps bid count spkg drain hs) hx
  | lrelease bid dlset dlctr install => exact guarded_keeps (lreleaseOp_keeps bid dlset dlctr install hs) hx
  | nack _ flits => exact guarded_keeps (nackOp_keeps flits hs) hx
  | unreach score => exact guarded_keeps (unreachOp_keeps score hs) hx
  | retrain found => exact guarded_keeps (retrainOp_keeps found hs) hx
  | linkDown link wrongNeighbour => exact guarded_keeps (linkDownOp_keeps link wrongNeighbour hs) hx
  | retrainingComplete link lanes => exact guarded_keeps (retrainingCompleteOp_keeps link lanes hs) hx
  | frameBoundary => exact next_keeps (frameBoundaryOp_keeps hs) hx
  | saveCopied part => exact guarded_keeps (saveCopiedOp_keeps part hs) hx
  | restoreLoaded part => exact guarded_keeps (restoreLoadedOp_keeps part hs) hx
  | entropyUnavailable => exact next_keeps (entropyUnavailableOp_keeps hs) hx
  | controlSramUncorrectable addr => exact guarded_keeps (controlSramUncorrectableOp_keeps addr hs) hx

/-- A step takes the front of the queue and keeps what a command keeps; an empty queue stays empty. -/
theorem step_keeps (hx : step s = .next t) : Keeps { s with pending := s.pending.tail } t := by
  unfold step at hx
  split at hx
  next hp =>
    have hs : { s with pending := s.pending.tail } = s := by rw [hp, List.tail_nil, ← hp]
    rw [hs]
    exact next_keeps (passTick_keeps (.refl s)) hx
  next c rest hp =>
    rw [hp]
    exact exec_keeps hx

end Commands

/-- Settles O3: the canonical form is part of what a step keeps (`step_keeps`), and the queue has no part in it. -/
theorem stepKeepsCanonical : Obligations.StepKeepsCanonical := by
  unfold Obligations.StepKeepsCanonical
  intro s t hs hx
  have hfront : ({ s with pending := s.pending.tail } : State).wf = true := hs
  exact (step_keeps hx).wf hfront

/-! ### The state after reset (R402, R442, R362, R491, R507) -/

/-- A register that the table does not list reads its reset value, and after reset it lists none. -/
theorem reset_registers : ResetRegistersRule := by
  unfold ResetRegistersRule
  decide +kernel

/-- Empty tables are canonical. -/
theorem reset_canonical : ResetCanonicalRule := ⟨rfl, rfl⟩

/-- Settles O2, by the reset values of the register table and its being empty after reset. -/
theorem resetState : Obligations.ResetState := ⟨reset_registers, reset_canonical⟩

/-! ### Reads of a register with reserved bits (R13, R14, R400) -/

/-- A part out of LIMITED (SYS_STATE is 0) whose word of PAT_STATUS holds bit 5, which is reserved (R14). -/
def reservedBitHeld : State := { State.reset with regs := [(0x10 / 4, 0#32), (0x00200010 / 4, 0x20#32)] }

/-- A read of PAT_STATUS gives the reserved bit as 0 (R14). -/
theorem reservedBitHeld_read : (rcReadOp 0x00200010 8 reservedBitHeld).out = [.readData 0x00200010 8 0] := by
  decide +kernel

theorem reservedBitHeld_reg64 : reservedBitHeld.reg64 0x00200010 = 0x20 := by decide +kernel

/-- Refutes O44: `Bar0Rule` has a read of PAT_STATUS return all 64 bits that the state holds, in every state. The model
returns the fields and gives the reserved bits 5 to 7 and 20 to 31 as 0 (R14), so it differs on `reservedBitHeld`. -/
theorem not_registerAccesses : ¬ Obligations.RegisterAccesses := by
  unfold Obligations.RegisterAccesses
  rintro ⟨hbar0, -⟩
  obtain ⟨hopen, -⟩ := hbar0 reservedBitHeld 0
  obtain ⟨-, -, -, t, hx, -, hout⟩ := hopen (by decide +kernel)
  obtain rfl : rcReadOp 0x00200010 8 reservedBitHeld = t := Host.Outcome.next.inj hx
  rw [reservedBitHeld_read, reservedBitHeld_reg64] at hout
  exact absurd hout (by decide +kernel)

end Sys2Proof.Machine
end

section
/-!
PROOFS. Scope: a command acts just when it is well-formed.
-/
namespace Sys2Proof.Machine

/-! ### The guard of a meaning is the command's well-formedness (log 76) -/

/-- Where a command names a slot of a ring of a die, its own condition `p` may come between die and ring. -/
theorem slotOk_and (die ring slot : Nat) (p : Bool) :
    (decide (die < 8) && p && decide (ring < 4) && decide (slot < 288)) = (slotOk die ring slot && p) := by
  unfold slotOk
  ac_rfl

theorem slotRefOk_eq_all (arrive : Option SlotRef) : slotRefOk arrive = arrive.all fun r => slotOk r.die r.ring r.slot := by
  cases arrive <;> rfl

theorem pcRefOk_eq_all (serve : Option PcRef) : pcRefOk serve = serve.all fun r => decide (r.p < 192) && partOk r.part := by
  cases serve <;> rfl

/-- A command acts where it is well-formed and changes nothing where it is not. -/
def GuardedByWf (c : Instr) (s : State) : Prop := ∃ t, exec c s = guarded c.wf s t

/-- A command is a CXL.mem access that is ill-formed and faults, for it reaches outside the HDM range (R403). -/
def FaultsOutsideHdm (c : Instr) (s : State) : Prop :=
  ((∃ a n, c = .cxlmemRead a n) ∨ ∃ a d p, c = .cxlmemWrite a d p) ∧ c.wf = false ∧ exec c s = .fault .outsideHdm

section GuardedByWf

variable {c : Instr} {s t : State}

/-- One whose guard is another spelling of its well-formedness. -/
theorem GuardedByWf.of_guard {ok : Bool} (hx : exec c s = guarded ok s t) (hok : ok = c.wf) : GuardedByWf c s :=
  ⟨t, hok ▸ hx⟩

/-- One that acts and is well-formed. -/
theorem GuardedByWf.of_next (hx : exec c s = .next t) (hw : c.wf = true) : GuardedByWf c s :=
  ⟨t, hx.trans (guarded_of hw s t).symm⟩

theorem GuardedByWf.completes (h : GuardedByWf c s) : ∃ u, exec c s = .next u :=
  let ⟨_, hx⟩ := h
  ⟨_, hx⟩

/-- An ill-formed one changes nothing. -/
theorem GuardedByWf.idle (h : GuardedByWf c s) (hw : c.wf = false) : exec c s = .next s := by
  obtain ⟨t, hx⟩ := h
  rw [hx, hw]
  exact (guarded_next false s t s).2 rfl

/-- A CXL.mem read acts within the HDM range and faults outside it (R403). -/
theorem cxlmemRead_guarded_or_faults (a n : Nat) (s : State) :
    GuardedByWf (.cxlmemRead a n) s ∨ FaultsOutsideHdm (.cxlmemRead a n) s := by
  by_cases h : a + n ≤ hdmTop
  · exact .inl (.of_next (if_pos h) (decide_eq_true h))
  · exact .inr ⟨.inl ⟨a, n, rfl⟩, decide_eq_false h, if_neg h⟩

theorem cxlmemWrite_guarded_or_faults (a : Nat) (d : List (Option Byte)) (p : Bool) (s : State) :
    GuardedByWf (.cxlmemWrite a d p) s ∨ FaultsOutsideHdm (.cxlmemWrite a d p) s := by
  by_cases h : a + d.length ≤ hdmTop
  · exact .inl (.of_next (if_pos h) (decide_eq_true h))
  · exact .inr ⟨.inr ⟨a, d, p, rfl⟩, decide_eq_false h, if_neg h⟩

/-- Every command is guarded by its well-formedness, but for a CXL.mem access outside the HDM range. The guard in the
meaning of a command that is not named here is the well-formedness that `Instr.wf` gives it, unfolded; one without a guard
is well-formed with any operands. -/
theorem exec_guarded_or_faults (c : Instr) (s : State) : GuardedByWf c s ∨ FaultsOutsideHdm c s := by
  cases c with
  | cxlmemRead a n => exact cxlmemRead_guarded_or_faults a n s
  | cxlmemWrite a d p => exact cxlmemWrite_guarded_or_faults a d p s
  | registerWrite dst size v => cases dst <;> exact .inl (.of_next rfl rfl)
  | rcRead src size => cases src <;> exact .inl (.of_next rfl rfl)
  | flipNoticeReceive die pos ring slot | partialReceive die pos ring slot _ | sendFlitReceive die pos ring slot _ =>
    exact .inl (.of_guard rfl (slotOk_and die ring slot (decide (pos < 288))))
  | flitInject die who place ring slot => exact .inl (.of_guard rfl (slotOk_and die ring slot (placeOk place who)))
  | hbmRequest arrive serve =>
    exact .inl (.of_guard rfl (congrArg₂ and (slotRefOk_eq_all arrive) (pcRefOk_eq_all serve)))
  | _ => exact .inl ⟨_, rfl⟩

end GuardedByWf

/-- Settles O4, by every command's being guarded by its well-formedness (`exec_guarded_or_faults`). -/
theorem wellFormedCompletes : Obligations.WellFormedCompletes := by
  unfold Obligations.WellFormedCompletes
  intro c s
  obtain hg | ⟨haccess, hw, hx⟩ := exec_guarded_or_faults c s
  · obtain ⟨u, hu⟩ := hg.completes
    exact ⟨fun _ => ⟨u, hu⟩, by simp [hu], fun hw => .inl (hg.idle hw)⟩
  · exact ⟨by simp [hw], by simp [hx], fun _ => .inr ⟨haccess, hx⟩⟩

end Sys2Proof.Machine
end

section
/-!
PROOFS. What a read of a memory returns after a write, and what a write of a core memory without words in error leaves
(R10, R352).
-/
namespace Sys2Proof.Machine

/-! ### Numbers as bytes (R10) -/

@[simp] theorem length_natLe (n x : Nat) : (natLe n x).length = n := by
  induction n generalizing x with
  | zero => rfl
  | succ n ih => rw [natLe, List.length_cons, ih]

/-- A number reads back from its bytes, modulo what they can hold. -/
theorem leNat_natLe (n x : Nat) : leNat (natLe n x) = x % 256 ^ n := by
  induction n generalizing x with
  | zero => rw [pow_zero, Nat.mod_one]; rfl
  | succ n ih =>
    have hb : (BitVec.ofNat 8 (x % 256)).toNat = x % 256 := Nat.mod_eq_of_lt (Nat.mod_lt x (by decide))
    rw [natLe, leNat, ih, hb, pow_succ', Nat.mod_mul]

/-! ### Bytes of a memory -/

namespace Mem

variable (m : Mem)

@[simp] theorem byte_putByte_same (a : Nat) (b : Byte) : (m.putByte a b).byte a = b := tblGet_tblPut_same _ _ _ _

theorem byte_putByte_ne {a x : Nat} (b : Byte) (h : x ≠ a) : (m.putByte a b).byte x = m.byte x := tblGet_tblPut_ne _ h _ _

@[simp] theorem store_bad (a : Nat) (bs : List Byte) : (m.store a bs).bad = m.bad := by
  induction bs generalizing a m with
  | nil => rfl
  | cons b bs ih => exact ih (m.putByte a b) (a + 1)

theorem byte_store_outside {a x : Nat} {bs : List Byte} (h : x < a ∨ a + bs.length ≤ x) :
    (m.store a bs).byte x = m.byte x := by
  induction bs generalizing a m with
  | nil => rfl
  | cons b bs ih =>
    rw [List.length_cons] at h
    rw [store, ih _ (by omega), byte_putByte_ne _ _ (by omega)]

theorem byte_store_inside (a : Nat) {bs : List Byte} {i : Nat} (h : i < bs.length) : (m.store a bs).byte (a + i) = bs[i] := by
  induction bs generalizing a i m with
  | nil => exact absurd h (Nat.not_lt_zero i)
  | cons b bs ih =>
    cases i with
    | zero => rw [store, byte_store_outside _ (.inl (by omega))]; exact byte_putByte_same _ _ _
    | succ i =>
      have hi : i < bs.length := Nat.lt_of_succ_lt_succ h
      rw [store, show a + (i + 1) = a + 1 + i by omega, ih _ _ hi, List.getElem_cons_succ]

/-- What has been stored reads back. -/
theorem load_store_same (a : Nat) (bs : List Byte) : (m.store a bs).load a bs.length = bs := by
  apply List.ext_getElem
  · simp [load]
  · intro i _ hi
    simp [load, byte_store_inside m a hi]

theorem forAll_setSyn_bytes (l : List Nat) (f : Nat → BitVec 32) :
    (forAll l (fun w m => m.setSyn w (f w)) m).bytes = m.bytes := by
  unfold forAll
  induction l generalizing m with
  | nil => rfl
  | cons w l ih => exact ih (m.setSyn w (f w))

/-- Valid check bits given to words of a memory that has no word in error leave it so. -/
theorem forAll_setSyn_clean {l : List Nat} {f : Nat → BitVec 32} {m : Mem} (hm : m.bad = []) (hf : ∀ w, f w = 0) :
    (forAll l (fun w m => m.setSyn w (f w)) m).bad = [] := by
  unfold forAll
  induction l generalizing m with
  | nil => exact hm
  | cons w l ih => exact ih (by simp [setSyn, hm, hf, tblPut, tblDel])

@[simp] theorem byte_write (wb a : Nat) (bs : List Byte) (x : Nat) : (m.write wb a bs).byte x = (m.store a bs).byte x := by
  unfold byte write
  rw [forAll_setSyn_bytes]

@[simp] theorem load_write (wb a : Nat) (bs : List Byte) (x n : Nat) :
    (m.write wb a bs).load x n = (m.store a bs).load x n := by
  simp [load]

/-- A code word is a code word after any write (R352). -/
theorem synAfterWrite_zero (wb a n w : Nat) : synAfterWrite wb a n w 0 = 0 := by
  simp [synAfterWrite, classify, isBad]

/-- A write leaves a memory without words in error without any. -/
theorem write_bad_of_clean {m : Mem} (h : m.bad = []) (wb a : Nat) (bs : List Byte) : (m.write wb a bs).bad = [] := by
  refine forAll_setSyn_clean ((m.store_bad a bs).trans h) fun w => ?_
  rw [show m.syn w = 0 by simp [syn, h, tblGet], synAfterWrite_zero]

end Mem

/-! ### The memories of a core -/

@[simp] theorem mem_setMem_same (c : Core) (m : CoreMem) (v : Mem) : (c.setMem m v).mem m = v := by
  cases m <;> rfl

theorem mem_setMem_ne (c : Core) {m k : CoreMem} (v : Mem) (h : k ≠ m) : (c.setMem m v).mem k = c.mem k := by
  cases m <;> cases k <;> simp_all [Core.setMem, Core.mem]

section CoreMemories

variable {s t u : State} {lid : Nat} {m : CoreMem} {a n : Nat}

theorem CleanCore.congr (h : CleanCore s lid) (hc : t.core lid = s.core lid) : CleanCore t lid :=
  fun m => by rw [hc]; exact h m

theorem BytesOutside.refl (lid : Nat) (m : CoreMem) (a n : Nat) (s : State) : BytesOutside lid m a n s s :=
  fun _ _ _ => rfl

theorem BytesOutside.trans (h : BytesOutside lid m a n s t) (k : BytesOutside lid m a n t u) : BytesOutside lid m a n s u :=
  fun j b hb => (k j b hb).trans (h j b hb)

theorem BytesOutside.congr (h : BytesOutside lid m a n s t) (hc : u.core lid = t.core lid) : BytesOutside lid m a n s u :=
  fun j b hb => by rw [hc]; exact h j b hb

theorem mem_wr_same (h : CleanCore s lid) (bs : List Byte) :
    ((s.wr lid m a bs).core lid).mem m = ((s.core lid).mem m).write (cmWb m) a bs := by
  rw [wr_of_clean (h m), core_modCore_same, mem_setMem_same]

theorem mem_wr_ne (h : CleanCore s lid) {k : CoreMem} (hk : k ≠ m) (bs : List Byte) :
    ((s.wr lid m a bs).core lid).mem k = (s.core lid).mem k := by
  rw [wr_of_clean (h m), core_modCore_same, mem_setMem_ne _ _ hk]

/-- A write of a clean core's memory changes no register. -/
theorem getF_wr_of_clean (h : CleanCore s lid) (bs : List Byte) (f : Fld) : (s.wr lid m a bs).getF f = s.getF f := by
  rw [wr_of_clean (h m), getF_modCore]

theorem CleanCore.wr (h : CleanCore s lid) (m : CoreMem) (a : Nat) (bs : List Byte) : CleanCore (s.wr lid m a bs) lid := by
  intro k
  by_cases hk : k = m
  · subst hk
    rw [mem_wr_same h]
    exact Mem.write_bad_of_clean (h k) _ _ _
  · rw [mem_wr_ne h hk]
    exact h k

/-- A write leaves every byte outside those it names. -/
theorem CleanCore.bytesOutside_wr (h : CleanCore s lid) (m : CoreMem) (a : Nat) (bs : List Byte) :
    BytesOutside lid m a bs.length s (s.wr lid m a bs) := by
  intro k b hb
  by_cases hk : k = m
  · subst hk
    have hout : b < a ∨ a + bs.length ≤ b := hb.resolve_left fun hne => hne rfl
    rw [mem_wr_same h, Mem.byte_write, Mem.byte_store_outside _ hout]
  · rw [mem_wr_ne h hk]

/-- What has been written reads back. -/
theorem rd_wr_same (h : CleanCore s lid) (bs : List Byte) : (s.wr lid m a bs).rd lid m a bs.length = bs := by
  rw [State.rd, mem_wr_same h, Mem.load_write, Mem.load_store_same]

/-- A read of a clean core's memory meets no word in error (R351). -/
theorem CleanCore.noteRead_eq (h : CleanCore s lid) (m : CoreMem) (a n : Nat) : s.noteRead lid m a n = s :=
  noteRead_of_clean (by simp [Mem.badWords, h m])

/-! ### Lace words (R36) -/

theorem CleanCore.laceBad_eq_false (h : CleanCore s lid) (w : Nat) : s.laceBad lid w = false := by
  have herr : (s.core lid).lace.err 4 w = none := err_of_clean (h .lace) 4 w
  rw [State.laceBad, herr]; rfl

theorem lace_congr (hc : t.core lid = s.core lid) (w : Nat) : t.lace lid w = s.lace lid w := by
  simp only [State.lace, State.rdNat, State.rd, hc]

/-- A lace word reads back what was written. -/
theorem lace_setLace_same (h : CleanCore s lid) (w : Nat) (v : W32) : (s.setLace lid w v).lace lid w = v := by
  have hr : (s.setLace lid w v).rd lid .lace (4 * w) 4 = natLe 4 v.toNat := by
    simpa only [length_natLe, State.setLace] using rd_wr_same (m := .lace) (a := 4 * w) h (natLe 4 v.toNat)
  apply BitVec.eq_of_toNat_eq
  rw [State.lace, State.rdNat, hr, leNat_natLe, BitVec.toNat_ofNat]
  have := v.isLt
  omega

theorem CleanCore.setLace (h : CleanCore s lid) (w : Nat) (v : W32) : CleanCore (s.setLace lid w v) lid :=
  h.wr _ _ _

theorem CleanCore.bytesOutside_setLace (h : CleanCore s lid) (w : Nat) (v : W32) :
    BytesOutside lid .lace (4 * w) 4 s (s.setLace lid w v) := by
  simpa only [length_natLe, State.setLace] using h.bytesOutside_wr .lace (4 * w) (natLe 4 v.toNat)

theorem getF_setLace_of_clean (h : CleanCore s lid) (w : Nat) (v : W32) (f : Fld) :
    (s.setLace lid w v).getF f = s.getF f :=
  getF_wr_of_clean h _ f

end CoreMemories

end Sys2Proof.Machine
end

section
/-!
PROOFS. Scope: the update port (R50, R51, R66): one update, and runs of them.
-/
namespace Sys2Proof.Machine

/-! ### Saturation (R16) -/

/-- What saturates to 32 bits is a number of 32 bits. -/
theorem toInt_ofInt_satS (x : Int) : (BitVec.ofInt 32 (satS 32 x)).toInt = satS 32 x := by
  have hmin : sMin 32 = -2147483648 := rfl
  have hmax : sMax 32 = 2147483647 := rfl
  have hlo : -2147483648 ≤ satS 32 x := by unfold satS; split_ifs <;> omega
  have hhi : satS 32 x < 2147483648 := by unfold satS; split_ifs <;> omega
  rw [BitVec.toInt_ofInt]
  exact Int.bmod_eq_of_le (by omega) (by omega)

section UpdatePort

variable {s t : State} {lid r tgt : Nat} {w : Int}

/-- What an update records where its sum saturates: FIELD_SAT, and its replica in SAT_MASK (R66). -/
def State.noteSat (lid r : Nat) (s : State) : State :=
  (s.setF (cFieldSat lid) 1).setF (cSatMask lid) (s.getF (cSatMask lid) ||| 2 ^ r)

theorem cFieldSat_ok (lid : Nat) : (cFieldSat lid).Ok := by simp [Fld.Ok, cFieldSat]
theorem cSatMask_ok (lid : Nat) : (cSatMask lid).Ok := by simp [Fld.Ok, cSatMask]
theorem cUpdates_ok (lid : Nat) : (cUpdates lid).Ok := by simp [Fld.Ok, cUpdates]

theorem cFieldSat_apart_cSatMask (lid : Nat) : (cFieldSat lid).Apart (cSatMask lid) := by
  simp only [Fld.Apart, Fld.base, cFieldSat, cSatMask]; omega
theorem cFieldSat_apart_cUpdates (lid : Nat) : (cFieldSat lid).Apart (cUpdates lid) := by
  simp only [Fld.Apart, Fld.base, cFieldSat, cUpdates]; omega
theorem cSatMask_apart_cUpdates (lid : Nat) : (cSatMask lid).Apart (cUpdates lid) := by
  simp only [Fld.Apart, Fld.base, cSatMask, cUpdates]; omega

/-- The core's state, memories included, is no register. -/
@[simp] theorem core_noteSat (i lid r : Nat) (s : State) : (s.noteSat lid r).core i = s.core i := rfl

theorem noteSat_onlyFields (lid r : Nat) (s : State) :
    OnlyFields [cFieldSat lid, cSatMask lid, cUpdates lid] s (s.noteSat lid r) :=
  (onlyFields_setF _ _ (cFieldSat_ok lid) (by simp)).trans (onlyFields_setF _ _ (cSatMask_ok lid) (by simp))

theorem cFieldSat_noteSat (lid r : Nat) (s : State) : (s.noteSat lid r).getF (cFieldSat lid) = 1 := by
  rw [State.noteSat, getF_setF_apart _ _ _ (cFieldSat_ok lid) (cSatMask_ok lid) (cFieldSat_apart_cSatMask lid),
    getF_setF_same _ _ (cFieldSat_ok lid)]
  rfl

theorem cSatMask_noteSat (hr : r < 16) (lid : Nat) (s : State) :
    Nat.testBit ((s.noteSat lid r).getF (cSatMask lid)) r = true := by
  have hw : r < (cSatMask lid).w := hr
  rw [State.noteSat, getF_setF_same _ _ (cSatMask_ok lid), Nat.testBit_mod_two_pow, Nat.testBit_or,
    Nat.testBit_two_pow_self]
  simp [hw]

/-- An update of a clean core writes the saturated sum, records saturation, and is counted (R50, R66). -/
theorem addField_of_clean (h : CleanCore s lid) (r tgt : Nat) (w : Int) :
    s.addField lid r tgt w =
      let v := (s.lace lid (s.fieldAt lid r tgt)).toInt + w
      let u := s.setLace lid (s.fieldAt lid r tgt) (BitVec.ofInt 32 (satS 32 v))
      (if satS 32 v = v then u else u.noteSat lid r).incF (cUpdates lid) 1 := by
  simp only [State.addField, h.laceBad_eq_false, h.noteRead_eq, Bool.false_eq_true, if_false]
  rfl

/-- Of a core's state, an update changes the field word alone. -/
theorem core_addField (h : CleanCore s lid) (r tgt : Nat) (w : Int) :
    (s.addField lid r tgt w).core lid = (s.setLace lid (s.fieldAt lid r tgt)
      (BitVec.ofInt 32 (satS 32 ((s.lace lid (s.fieldAt lid r tgt)).toInt + w)))).core lid := by
  rw [addField_of_clean h]
  dsimp only
  rw [core_incF]
  split
  · rfl
  · exact core_noteSat ..

/-- An update stores the exact sum, or the nearest limit (R51, R66). -/
theorem lace_addField_same (h : CleanCore s lid) (r tgt : Nat) (w : Int) :
    ((s.addField lid r tgt w).lace lid (s.fieldAt lid r tgt)).toInt =
      satS 32 ((s.lace lid (s.fieldAt lid r tgt)).toInt + w) := by
  rw [lace_congr (core_addField h r tgt w), lace_setLace_same h, toInt_ofInt_satS]

theorem CleanCore.addField (h : CleanCore s lid) (r tgt : Nat) (w : Int) : CleanCore (s.addField lid r tgt w) lid :=
  (h.setLace _ _).congr (core_addField h r tgt w)

theorem CleanCore.bytesOutside_addField (h : CleanCore s lid) (r tgt : Nat) (w : Int) :
    BytesOutside lid .lace (4 * s.fieldAt lid r tgt) 4 s (s.addField lid r tgt w) :=
  (h.bytesOutside_setLace _ _).congr (core_addField h r tgt w)

/-- Where the sum saturates, FIELD_SAT and the replica's bit of SAT_MASK read 1 (R66). -/
theorem addField_saturated (h : CleanCore s lid) (hr : r < 16)
    (hw : satS 32 ((s.lace lid (s.fieldAt lid r tgt)).toInt + w) ≠ (s.lace lid (s.fieldAt lid r tgt)).toInt + w) :
    (s.addField lid r tgt w).getF (cFieldSat lid) = 1 ∧
      Nat.testBit ((s.addField lid r tgt w).getF (cSatMask lid)) r = true := by
  rw [addField_of_clean h]
  dsimp only
  rw [if_neg hw, getF_incF_apart _ _ _ (cFieldSat_ok lid) (cUpdates_ok lid) (cFieldSat_apart_cUpdates lid),
    getF_incF_apart _ _ _ (cSatMask_ok lid) (cUpdates_ok lid) (cSatMask_apart_cUpdates lid)]
  exact ⟨cFieldSat_noteSat .., cSatMask_noteSat hr ..⟩

/-- Of the registers, an update changes FIELD_SAT, SAT_MASK and the count of updates. -/
theorem addField_onlyFields (h : CleanCore s lid) (r tgt : Nat) (w : Int) :
    OnlyFields [cFieldSat lid, cSatMask lid, cUpdates lid] s (s.addField lid r tgt w) := by
  rw [addField_of_clean h]
  dsimp only
  have hset : OnlyFields [cFieldSat lid, cSatMask lid, cUpdates lid] s (s.setLace lid (s.fieldAt lid r tgt)
      (BitVec.ofInt 32 (satS 32 ((s.lace lid (s.fieldAt lid r tgt)).toInt + w)))) :=
    fun f _ _ => getF_setLace_of_clean h _ _ f
  have hcount : ∀ u : State, OnlyFields [cFieldSat lid, cSatMask lid, cUpdates lid] u (u.incF (cUpdates lid) 1) :=
    fun u => onlyFields_setF _ _ (cUpdates_ok lid) (by simp)
  split
  · exact hset.trans (hcount _)
  · exact (hset.trans (noteSat_onlyFields lid r _)).trans (hcount _)

/-! ### Runs of updates (R50) -/

/-- The place of the replicas decides where a field word lies (R38, R39). -/
theorem fieldAt_congr (hb : t.getF (cReplBase lid) = s.getF (cReplBase lid))
    (hs : t.getF (cReplStride lid) = s.getF (cReplStride lid)) (r tgt : Nat) : t.fieldAt lid r tgt = s.fieldAt lid r tgt := by
  simp only [State.fieldAt, State.replBase, hb, hs]

/-- An update leaves the place of the fields. -/
theorem fieldAt_addField (h : CleanCore s lid) (r tgt : Nat) (w : Int) (r' tgt' : Nat) :
    (s.addField lid r tgt w).fieldAt lid r' tgt' = s.fieldAt lid r' tgt' := by
  have only := addField_onlyFields h r tgt w
  refine fieldAt_congr (only _ ?_ ?_) (only _ ?_ ?_) r' tgt'
  · simp [Fld.Ok, cReplBase]
  · simp only [List.forall_mem_cons, Fld.Apart, Fld.base, cReplBase, cFieldSat, cSatMask, cUpdates]
    refine ⟨?_, ?_, ?_, List.forall_mem_nil _⟩ <;> omega
  · simp [Fld.Ok, cReplStride]
  · simp only [List.forall_mem_cons, Fld.Apart, Fld.base, cReplStride, cFieldSat, cSatMask, cUpdates]
    refine ⟨?_, ?_, ?_, List.forall_mem_nil _⟩ <;> omega

/-- A run of updates changes the field word alone. -/
theorem bytesOutside_addAll (h : CleanCore s lid) (r tgt : Nat) (l : List Int) :
    BytesOutside lid .lace (4 * s.fieldAt lid r tgt) 4 s (addAll lid r tgt l s) := by
  induction l generalizing s with
  | nil => exact .refl lid .lace _ 4 s
  | cons w l ih =>
    have htail := ih (h.addField r tgt w)
    rw [fieldAt_addField h] at htail
    exact (h.bytesOutside_addField r tgt w).trans htail

/-- No partial sum of the run leaves the s32 range. -/
def Unsaturated (x : Int) (l : List Int) : Prop := ∀ k, k ≤ l.length → satS 32 (x + (l.take k).sum) = x + (l.take k).sum

theorem Unsaturated.head {x w : Int} {l : List Int} (h : Unsaturated x (w :: l)) : satS 32 (x + w) = x + w := by
  simpa using h 1 (by simp)

theorem Unsaturated.tail {x w : Int} {l : List Int} (h : Unsaturated x (w :: l)) : Unsaturated (x + w) l := by
  intro k hk
  simpa [Int.add_assoc] using h (k + 1) (by simpa using hk)

/-- Where no update of a run saturates, the field ends with the sum of the weights, which no order of theirs changes. -/
theorem lace_addAll_of_unsaturated (h : CleanCore s lid) (r tgt : Nat) (l : List Int)
    (hl : Unsaturated (s.lace lid (s.fieldAt lid r tgt)).toInt l) :
    ((addAll lid r tgt l s).lace lid (s.fieldAt lid r tgt)).toInt =
      (s.lace lid (s.fieldAt lid r tgt)).toInt + l.sum := by
  induction l generalizing s with
  | nil => exact (Int.add_zero _).symm
  | cons w l ih =>
    have hfirst := (lace_addField_same h r tgt w).trans hl.head
    have htail := ih (h.addField r tgt w)
    rw [fieldAt_addField h, hfirst] at htail
    rw [List.sum_cons, ← Int.add_assoc]
    exact htail hl.tail

end UpdatePort

/-- Settles O22: each update by the equation of an update of a clean core (`addField_of_clean`), a run by induction on its
weights, after each of which the field word stands where it stood. -/
theorem updatesSaturateAndCommute : Obligations.UpdatesSaturateAndCommute := by
  unfold Obligations.UpdatesSaturateAndCommute
  rintro s lid r tgt a - hr h rfl
  refine ⟨fun w => ?_, fun l hl => ?_⟩
  · exact ⟨lace_addField_same h r tgt w, h.addField r tgt w, h.bytesOutside_addField r tgt w, addField_saturated h hr⟩
  · exact ⟨lace_addAll_of_unsaturated h r tgt l hl, bytesOutside_addAll h r tgt l⟩

end Sys2Proof.Machine
end

section
/-!
PROOFS. What a command changes of a core: the frames of the elementary updates, how frames chain, and the registers below
a place of the register map, from which a core's layout is read (R38, R41).
-/
namespace Sys2Proof.Machine

section Frames

variable {s t u : State} {lid : Nat} {l m : List Fld}

/-! ### One core and some fields -/

theorem CoreStep.refl (lid : Nat) (l : List Fld) (s : State) : CoreStep lid l s s := ⟨rfl, fun _ _ => rfl, .refl l s⟩

theorem CoreStep.trans (h : CoreStep lid l s t) (k : CoreStep lid l t u) : CoreStep lid l s u := by
  obtain ⟨hrest, hcores, hregs⟩ := h
  obtain ⟨krest, kcores, kregs⟩ := k
  refine ⟨?_, fun i hi => (kcores i hi).trans (hcores i hi), hregs.trans kregs⟩
  rw [krest, hrest]

theorem CoreStep.mono (h : CoreStep lid l s t) (hs : ∀ f ∈ l, f ∈ m) : CoreStep lid m s t := ⟨h.1, h.2.1, h.2.2.mono hs⟩

theorem RegsOnly.coreStep (h : RegsOnly l s t) (lid : Nat) : CoreStep lid l s t := by
  obtain ⟨hrest, hregs⟩ := h
  exact ⟨by rw [hrest], fun i _ => by rw [hrest]; rfl, hregs⟩

theorem RegsOnly.core_eq (h : RegsOnly l s t) (i : Nat) : t.core i = s.core i := by
  obtain ⟨hrest, -⟩ := h
  rw [hrest]; rfl

theorem coreStep_setF (lid : Nat) {f : Fld} (n : Nat) (h : f.Ok) (hm : f ∈ l) : CoreStep lid l s (s.setF f n) :=
  (regsOnly_setF f n h hm).coreStep lid

theorem coreStep_incF (lid : Nat) {f : Fld} (n : Nat) (h : f.Ok) (hm : f ∈ l) : CoreStep lid l s (s.incF f n) :=
  (regsOnly_incF f n h hm).coreStep lid

theorem coreStep_modCore (lid : Nat) (l : List Fld) (f : Core → Core) (s : State) : CoreStep lid l s (s.modCore lid f) :=
  ⟨rfl, fun _ hi => core_modCore_ne f hi, fun _ _ _ => rfl⟩

/-- A step of one core leaves every ring stop. -/
theorem CoreStep.stop_eq (h : CoreStep lid l s t) (i : Nat) : t.stop i = s.stop i := by
  obtain ⟨hrest, -⟩ := h
  rw [hrest]; rfl

/-! ### Fields and free values -/

/-- Nothing but the fields of `l` and the counter of free values changes. -/
def Counted (l : List Fld) (s t : State) : Prop := t = { s with regs := t.regs, free := t.free } ∧ OnlyFields l s t

theorem Counted.trans (h : Counted l s t) (k : Counted l t u) : Counted l s u := by
  obtain ⟨hrest, hregs⟩ := h
  obtain ⟨krest, kregs⟩ := k
  exact ⟨by rw [krest, hrest], hregs.trans kregs⟩

theorem counted_incF {f : Fld} (n : Nat) (h : f.Ok) (hm : f ∈ l) : Counted l s (s.incF f n) := ⟨rfl, onlyFields_setF f _ h hm⟩

theorem counted_used (l : List Fld) (s : State) : Counted l s s.used := ⟨rfl, fun _ _ _ => rfl⟩

theorem counted_addFree {f : Fld} (h : f.Ok) (hm : f ∈ l) : Counted l s (s.addFree f) :=
  (counted_incF _ h hm).trans (counted_used l _)

theorem Counted.coreStep (h : Counted l s t) (lid : Nat) : CoreStep lid l s t := by
  obtain ⟨hrest, hregs⟩ := h
  exact ⟨by rw [hrest], fun i _ => by rw [hrest]; rfl, hregs⟩

theorem Counted.core_eq (h : Counted l s t) (i : Nat) : t.core i = s.core i := by
  obtain ⟨hrest, -⟩ := h
  rw [hrest]; rfl

/-! ### The core's ring stop besides -/

theorem CoreStep.stopStep (h : CoreStep lid l s t) : CoreStopStep lid l s t := by
  refine ⟨?_, fun i hi => ⟨h.2.1 i hi, h.stop_eq i⟩, h.2.2⟩
  obtain ⟨hrest, -⟩ := h
  rw [hrest]

theorem CoreStopStep.trans (h : CoreStopStep lid l s t) (k : CoreStopStep lid l t u) : CoreStopStep lid l s u := by
  obtain ⟨hrest, hcores, hregs⟩ := h
  obtain ⟨krest, kcores, kregs⟩ := k
  refine ⟨?_, fun i hi => ⟨(kcores i hi).1.trans (hcores i hi).1, (kcores i hi).2.trans (hcores i hi).2⟩, hregs.trans kregs⟩
  rw [krest, hrest]

theorem coreStopStep_modStop (lid : Nat) (l : List Fld) (f : Stop → Stop) (s : State) :
    CoreStopStep lid l s (s.modStop lid f) :=
  ⟨rfl, fun _ hi => ⟨rfl, stop_modStop_ne f hi⟩, fun _ _ _ => rfl⟩

/-! ### Registers below a place (R398) -/

/-- The registers below byte offset `n` hold what they held. -/
def RegsBelow (n : Nat) (s t : State) : Prop := ∀ f : Fld, f.Ok → f.base + f.w ≤ 8 * n → t.getF f = s.getF f

theorem OnlyFields.regsBelow (h : OnlyFields l s t) {n : Nat} (hl : ∀ g ∈ l, 8 * n ≤ g.base) : RegsBelow n s t :=
  fun f hf hn => h f hf fun g hg => .inl (Nat.le_trans hn (hl g hg))

theorem CoreStep.regsBelow (h : CoreStep lid [] s t) (n : Nat) : RegsBelow n s t := h.2.2.regsBelow (by simp)

theorem RegsBelow.trans {n : Nat} (h : RegsBelow n s t) (k : RegsBelow n t u) : RegsBelow n s u :=
  fun f hf hn => (k f hf hn).trans (h f hf hn)

theorem RegsBelow.mono {n k : Nat} (h : RegsBelow n s t) (hk : k ≤ n) : RegsBelow k s t :=
  fun f hf hn => h f hf (by omega)

/-! ### Where a core keeps its planes (R38, R39, R41) -/

/-- The registers that say where a core's planes lie stand below byte 0x280 of its page. -/
abbrev SameLayout (lid : Nat) (s t : State) : Prop := RegsBelow (corePage lid + 0x280) s t

theorem SameLayout.units_eq (h : SameLayout lid s t) : t.units lid = s.units lid :=
  h _ (by simp [Fld.Ok, cUnits]) (by simp only [Fld.base, cUnits, corePage]; omega)

theorem SameLayout.unitsUp_eq (h : SameLayout lid s t) : t.unitsUp lid = s.unitsUp lid := by
  simp only [State.unitsUp, h.units_eq]

theorem SameLayout.replBase_eq (h : SameLayout lid s t) (r : Nat) : t.replBase lid r = s.replBase lid r := by
  have hb : t.getF (cReplBase lid) = s.getF (cReplBase lid) :=
    h _ (by simp [Fld.Ok, cReplBase]) (by simp only [Fld.base, cReplBase, corePage]; omega)
  have hs : t.getF (cReplStride lid) = s.getF (cReplStride lid) :=
    h _ (by simp [Fld.Ok, cReplStride]) (by simp only [Fld.base, cReplStride, corePage]; omega)
  simp only [State.replBase, hb, hs]

theorem SameLayout.fieldAt_eq (h : SameLayout lid s t) (r i : Nat) : t.fieldAt lid r i = s.fieldAt lid r i := by
  simp only [State.fieldAt, h.replBase_eq]

theorem SameLayout.stateAt_eq (h : SameLayout lid s t) (r k : Nat) : t.stateAt lid r k = s.stateAt lid r k := by
  simp only [State.stateAt, h.replBase_eq, h.unitsUp_eq]

theorem SameLayout.onAt_eq (h : SameLayout lid s t) (r k : Nat) : t.onAt lid r k = s.onAt lid r k := by
  simp only [State.onAt, h.replBase_eq, h.unitsUp_eq]

theorem SameLayout.flagBase_eq (h : SameLayout lid s t) : t.getF (cFlagBase lid) = s.getF (cFlagBase lid) :=
  h _ (by simp [Fld.Ok, cFlagBase]) (by simp only [Fld.base, cFlagBase, corePage]; omega)

theorem SameLayout.clampAt_eq (h : SameLayout lid s t) (k : Nat) : t.clampAt lid k = s.clampAt lid k := by
  simp only [State.clampAt, h.flagBase_eq]

theorem SameLayout.groupAt_eq (h : SameLayout lid s t) (k : Nat) : t.groupAt lid k = s.groupAt lid k := by
  simp only [State.groupAt, h.flagBase_eq, h.unitsUp_eq]

theorem SameLayout.descAt_eq (h : SameLayout lid s t) (i : Nat) : t.descAt lid i = s.descAt lid i := by
  have hd : t.getF (cDescBase lid) = s.getF (cDescBase lid) :=
    h _ (by simp [Fld.Ok, cDescBase]) (by simp only [Fld.base, cDescBase, corePage]; omega)
  simp only [State.descAt, hd]

theorem SameLayout.colFirst_eq (h : SameLayout lid s t) {c : Nat} (hc : c < 16) :
    t.getF (cColFirst lid c) = s.getF (cColFirst lid c) :=
  h _ (by simp [Fld.Ok, cColFirst]) (by simp only [Fld.base, cColFirst, corePage]; omega)

theorem SameLayout.colEnd_eq (h : SameLayout lid s t) {c : Nat} (hc : c < 16) :
    t.getF (cColEnd lid c) = s.getF (cColEnd lid c) :=
  h _ (by simp [Fld.Ok, cColEnd]) (by simp only [Fld.base, cColEnd, corePage]; omega)

end Frames

end Sys2Proof.Machine
end

section
/-!
PROOFS. Lace memory by words and bits (R36, R43, R44): what a write of a word or of one bit of it leaves, and the planes'
bits after it.
-/
namespace Sys2Proof.Machine

/-! ### Bits of numbers given by bytes (R10) -/

/-- Bit `i` of a number lies in its byte `i / 8`. -/
theorem testBit_leNat (bs : List Byte) (i : Nat) : (leNat bs).testBit i = bitOf (bs.getD (i / 8) 0) (i % 8) := by
  induction bs generalizing i with
  | nil => simp [leNat, bitOf]
  | cons b bs ih =>
    rw [leNat, Nat.add_comm, show 256 = 2 ^ 8 by rfl, Nat.testBit_two_pow_mul_add _ b.isLt]
    split
    case isTrue h => rw [Nat.div_eq_of_lt h, Nat.mod_eq_of_lt h]; rfl
    case isFalse h =>
      rw [ih, show i / 8 = (i - 8) / 8 + 1 by omega, show i % 8 = (i - 8) % 8 by omega]; rfl

/-- One less than an odd number has another bit 0 and the same bits above. -/
theorem testBit_pred_of_odd {q : Nat} (h : q % 2 = 1) (i : Nat) : (q - 1).testBit i = (q.testBit i && decide (i ≠ 0)) := by
  cases i with
  | zero => simp [Nat.testBit_zero]; omega
  | succ i => rw [Nat.testBit_succ, Nat.testBit_succ, show (q - 1) / 2 = q / 2 by omega]; simp

/-- Taking a bit that is set out of a number. -/
theorem testBit_sub_two_pow {n k : Nat} (h : n.testBit k = true) (j : Nat) :
    (n - 2 ^ k).testBit j = (n.testBit j && decide (j ≠ k)) := by
  have hodd : n / 2 ^ k % 2 = 1 := by simpa [Nat.testBit_eq_decide_div_mod_eq] using h
  have hr : n % 2 ^ k < 2 ^ k := Nat.mod_lt _ (Nat.two_pow_pos k)
  have hn : 2 ^ k * (n / 2 ^ k) + n % 2 ^ k = n := Nat.div_add_mod n (2 ^ k)
  generalize n / 2 ^ k = q at hodd hn
  generalize n % 2 ^ k = r at hr hn
  have hsub : n - 2 ^ k = 2 ^ k * (q - 1) + r := by
    have hle : 2 ^ k ≤ 2 ^ k * q := Nat.le_mul_of_pos_right _ (by omega)
    rw [Nat.mul_sub, Nat.mul_one]
    omega
  rw [hsub, ← hn, Nat.testBit_two_pow_mul_add _ hr, Nat.testBit_two_pow_mul_add _ hr]
  by_cases hj : j < k
  · simp [hj, Nat.ne_of_lt hj]
  · rw [if_neg hj, if_neg hj, testBit_pred_of_odd hodd]
    congr 1
    exact decide_eq_decide.2 (by omega)

/-- A number with bit `k` made `b`, as a write of one lace bit makes it. -/
theorem testBit_withBit (n k : Nat) (b : Bool) (j : Nat) :
    (if b then n ||| 2 ^ k else n - (if n.testBit k then 2 ^ k else 0)).testBit j = if j = k then b else n.testBit j := by
  by_cases hj : j = k
  · subst hj
    cases b <;> cases hn : n.testBit j <;> simp [hn, testBit_sub_two_pow]
  · cases b <;> cases hn : n.testBit k <;> simp [hn, hj, testBit_sub_two_pow, Nat.testBit_two_pow_of_ne (Ne.symm hj)]

section LaceWords

variable {s t u : State} {lid w : Nat} {W V : Nat → Prop}

/-! ### Words of lace memory -/

/-- A write of a clean core's memory leaves its bytes there. -/
theorem byte_wr_inside {m : CoreMem} {a i : Nat} {bs : List Byte} (h : CleanCore s lid) (hi : i < bs.length) :
    (((s.wr lid m a bs).core lid).mem m).byte (a + i) = bs[i] := by
  rw [mem_wr_same h, Mem.byte_write, Mem.byte_store_inside _ _ hi]

/-- A bit of a lace word lies in one of its bytes. -/
theorem bitOf_lace (s : State) (lid w : Nat) {i : Nat} (hi : i < 32) :
    bitOf (s.lace lid w) i = bitOf ((s.core lid).lace.byte (4 * w + i / 8)) (i % 8) := by
  have hb : i / 8 < 4 := by omega
  rw [bitOf, State.lace, BitVec.getLsbD_ofNat, State.rdNat, testBit_leNat]
  simp [hi, hb, State.rd, Mem.load, Core.mem, List.getD_eq_getElem?_getD]

/-- Four bytes make a lace word. -/
theorem lace_eq_of_bytes (h : ∀ i, i < 4 → (t.core lid).lace.byte (4 * w + i) = (s.core lid).lace.byte (4 * w + i)) :
    t.lace lid w = s.lace lid w := by
  have hl : t.rd lid .lace (4 * w) 4 = s.rd lid .lace (4 * w) 4 :=
    List.map_congr_left fun i hi => h i (List.mem_range.1 hi)
  simp only [State.lace, State.rdNat, hl]

/-- Of a core's memories only lace words in `W` change. -/
def WordsOutside (lid : Nat) (W : Nat → Prop) (s t : State) : Prop :=
  ∀ m a, (m ≠ .lace ∨ ¬ W (a / 4)) → ((t.core lid).mem m).byte a = ((s.core lid).mem m).byte a

theorem WordsOutside.trans (h : WordsOutside lid W s t) (k : WordsOutside lid W t u) : WordsOutside lid W s u :=
  fun m a hm => (k m a hm).trans (h m a hm)

theorem WordsOutside.mono (h : WordsOutside lid W s t) (hV : ∀ w, W w → V w) : WordsOutside lid V s t :=
  fun m a hm => h m a (hm.imp_right fun hn hw => hn (hV _ hw))

theorem WordsOutside.congr (h : WordsOutside lid W s t) (hc : u.core lid = t.core lid) : WordsOutside lid W s u :=
  fun m a hm => by rw [hc]; exact h m a hm

theorem WordsOutside.lace_eq (h : WordsOutside lid W s t) (hw : ¬ W w) : t.lace lid w = s.lace lid w :=
  lace_eq_of_bytes fun i hi => h .lace _ (.inr (by rwa [show (4 * w + i) / 4 = w by omega]))

/-- A write within one lace word. -/
theorem BytesOutside.wordsOutside {a n : Nat} (h : BytesOutside lid .lace a n s t) (hw : 4 * w ≤ a) (hn : a + n ≤ 4 * w + 4) :
    WordsOutside lid (· = w) s t :=
  fun m b hm => h m b (hm.imp_right fun hne => by omega)

/-- A command's work on lace memory: of the core only words in `W` change, and no register; memories without words in
error stay so. -/
structure LaceStep (lid : Nat) (W : Nat → Prop) (s t : State) : Prop where
  step : CoreStep lid [] s t
  own : t.core lid = { s.core lid with lace := (t.core lid).lace }
  clean : CleanCore s lid → CleanCore t lid
  words : WordsOutside lid W s t

theorem LaceStep.refl (lid : Nat) (W : Nat → Prop) (s : State) : LaceStep lid W s s :=
  ⟨.refl lid [] s, rfl, id, fun _ _ _ => rfl⟩

theorem LaceStep.trans (h : LaceStep lid W s t) (k : LaceStep lid W t u) : LaceStep lid W s u :=
  ⟨h.step.trans k.step, by rw [k.own, h.own], k.clean ∘ h.clean, h.words.trans k.words⟩

theorem LaceStep.mono (h : LaceStep lid W s t) (hV : ∀ w, W w → V w) : LaceStep lid V s t :=
  ⟨h.step, h.own, h.clean, h.words.mono hV⟩

theorem LaceStep.layout (h : LaceStep lid W s t) : SameLayout lid s t := h.step.regsBelow _

theorem LaceStep.coreStep (h : LaceStep lid W s t) (l : List Fld) : CoreStep lid l s t := h.step.mono (by simp)

theorem LaceStep.lace_eq (h : LaceStep lid W s t) (hw : ¬ W w) : t.lace lid w = s.lace lid w := h.words.lace_eq hw

/-- A write within a lace word of a clean core. -/
theorem laceStep_wr (h : CleanCore s lid) {a : Nat} {bs : List Byte} (hw : 4 * w ≤ a) (hn : a + bs.length ≤ 4 * w + 4) :
    LaceStep lid (· = w) s (s.wr lid .lace a bs) := by
  refine ⟨?_, ?_, fun h => h.wr .lace a bs, (h.bytesOutside_wr .lace a bs).wordsOutside hw hn⟩
  · rw [wr_of_clean (h .lace)]; exact coreStep_modCore ..
  · rw [wr_of_clean (h .lace), core_modCore_same]; rfl

/-! ### One bit of a lace word (R352) -/

theorem laceStep_putLaceBit (h : CleanCore s lid) (w : Nat) {i : Nat} (hi : i < 32) (b : Bool) :
    LaceStep lid (· = w) s (s.putLaceBit lid w i b) :=
  laceStep_wr h (by omega) (by simp only [List.length_singleton]; omega)

theorem bytesOutside_putLaceBit (h : CleanCore s lid) (w i : Nat) (b : Bool) :
    BytesOutside lid .lace (4 * w + i / 8) 1 s (s.putLaceBit lid w i b) :=
  h.bytesOutside_wr .lace (4 * w + i / 8) [_]

/-- The bit that is written reads back; every other bit of lace memory stays. -/
theorem bitOf_lace_putLaceBit (h : CleanCore s lid) (w : Nat) {i : Nat} (hi : i < 32) (b : Bool) (v : Nat) {j : Nat} (hj : j < 32) :
    bitOf ((s.putLaceBit lid w i b).lace lid v) j = if v = w ∧ j = i then b else bitOf (s.lace lid v) j := by
  rw [bitOf_lace _ _ _ hj, bitOf_lace _ _ _ hj]
  by_cases ha : 4 * v + j / 8 = 4 * w + i / 8
  · have hold : s.rdNat lid .lace (4 * w + i / 8) 1 = ((s.core lid).lace.byte (4 * w + i / 8)).toNat := by
      simp [State.rdNat, State.rd, Mem.load, leNat, Core.mem]
    have hnew : ((s.putLaceBit lid w i b).core lid).lace.byte (4 * w + i / 8) = BitVec.ofNat 8
        (if b then s.rdNat lid .lace (4 * w + i / 8) 1 ||| 2 ^ (i % 8) else s.rdNat lid .lace (4 * w + i / 8) 1 -
          (if (s.rdNat lid .lace (4 * w + i / 8) 1).testBit (i % 8) then 2 ^ (i % 8) else 0)) := by
      exact byte_wr_inside (m := .lace) (a := 4 * w + i / 8) (bs := [_]) h (i := 0) Nat.one_pos
    have hj8 : j % 8 < 8 := Nat.mod_lt _ (by decide)
    rw [ha, hnew, bitOf, BitVec.getLsbD_ofNat, testBit_withBit, hold]
    simp only [hj8, decide_true, Bool.true_and]
    have hiff : (j % 8 = i % 8) ↔ (v = w ∧ j = i) := by omega
    simp only [hiff]
    rfl
  · rw [if_neg (by omega)]
    exact congrArg (bitOf · _) (bytesOutside_putLaceBit h w i b .lace _ (.inr (by omega)))

/-! ### What the planes and tables read (R43-R47, R77) -/

theorem MemSame.lace_eq (h : MemSame lid s t) (w : Nat) : t.lace lid w = s.lace lid w := by
  simp only [State.lace, State.rdNat, State.rd, h .lace]

theorem memSame_modCore {f : Core → Core} (hf : ∀ c m, (f c).mem m = c.mem m) (s : State) : MemSame lid s (s.modCore lid f) :=
  fun m => by rw [core_modCore_same, hf]

theorem MemSame.clean (h : MemSame lid s t) (hs : CleanCore s lid) : CleanCore t lid := fun m => by rw [h m]; exact hs m

theorem unitState_eq (h : MemSame lid s t) (hl : SameLayout lid s t) (r i : Nat) : t.unitState lid r i = s.unitState lid r i := by
  simp only [State.unitState, hl.stateAt_eq, h.lace_eq]

theorem clampBit_eq (h : MemSame lid s t) (hl : SameLayout lid s t) (i : Nat) : t.clampBit lid i = s.clampBit lid i := by
  simp only [State.clampBit, hl.clampAt_eq, h.lace_eq]

theorem groupBit_eq (h : MemSame lid s t) (hl : SameLayout lid s t) (i : Nat) : t.groupBit lid i = s.groupBit lid i := by
  simp only [State.groupBit, hl.groupAt_eq, h.lace_eq]

theorem field_eq (h : MemSame lid s t) (hl : SameLayout lid s t) (r i : Nat) : t.field lid r i = s.field lid r i := by
  simp only [State.field, hl.fieldAt_eq, h.lace_eq]

theorem modelIndex_eq (h : MemSame lid s t) (hl : SameLayout lid s t) (i : Nat) : t.modelIndex lid i = s.modelIndex lid i := by
  have ht : t.getF (cTables lid) = s.getF (cTables lid) :=
    hl _ (by simp [Fld.Ok, cTables]) (by simp only [Fld.base, cTables, corePage]; omega)
  simp only [State.modelIndex, State.rdNat, State.rd, h .tile, hl.unitsUp_eq, ht]

/-- An activation table's entry follows from tile memory, the table's place and, past the memory's end, from the counter
of free values. -/
theorem tableEntry_eq (h : MemSame lid s t) {n k : Nat} (hb : t.getF (cTable lid n) = s.getF (cTable lid n)) (hf : t.free = s.free) :
    t.tableEntry lid n k = s.tableEntry lid n k := by
  simp only [State.tableEntry, State.rdNat, State.rd, h .tile, hb, hf]

end LaceWords

end Sys2Proof.Machine
end

section
/-!
PROOFS. What an engine of a core does to nothing: reads that meet no word in error, notices and lists that are empty; and
the states of units after writes of the state plane (R44, R50, R53, R75).
-/
namespace Sys2Proof.Machine

section Engines

variable {s t : State} {lid r : Nat}

/-! ### Work that changes nothing -/

theorem forAll_eq_self {α σ : Type} {l : List α} {f : α → σ → σ} {s : σ} (h : ∀ a ∈ l, f a s = s) : forAll l f s = s := by
  unfold forAll
  induction l with
  | nil => rfl
  | cons a l ih =>
    rw [List.foldl_cons, h a (List.mem_cons_self ..)]
    exact ih fun b hb => h b (List.mem_cons_of_mem _ hb)

theorem forAll_nil {α σ : Type} (f : α → σ → σ) (s : σ) : forAll [] f s = s := rfl

theorem forAll_cons {α σ : Type} (a : α) (l : List α) (f : α → σ → σ) (s : σ) : forAll (a :: l) f s = forAll l f (f a s) := rfl

theorem walkRes_cons_of_none {α : Type} {a : α} {l : List α} {f : α → State → Res} (h : f a s = (t, none)) :
    walkRes f (a :: l) s = walkRes f l t := by
  rw [walkRes, h]; rfl

theorem walkRes_eq_self {α : Type} {l : List α} {f : α → State → Res} (h : ∀ a ∈ l, f a s = (s, none)) :
    walkRes f l s = (s, none) := by
  induction l with
  | nil => rfl
  | cons a l ih =>
    rw [walkRes_cons_of_none (h a (List.mem_cons_self ..))]
    exact ih fun b hb => h b (List.mem_cons_of_mem _ hb)

/-- A read of a lace word of a clean core meets no error (R67). -/
theorem CleanCore.noteLace_eq (h : CleanCore s lid) (w : Nat) : s.noteLace lid w = s := h.noteRead_eq ..

/-- A flip of a unit with an empty list that publishes nothing changes nothing (R50, R53). -/
theorem flip_of_empty (h : CleanCore s lid) {i : Nat} (hempty : bitOf (s.lace lid (s.descAt lid i)) 13 = true)
    (hpub : bitOf (s.lace lid (s.descAt lid i)) 12 = false) (r : Nat) (dir : Bool) (src : Option Nat) (exempt : List Nat) :
    s.flip lid r i dir src exempt = (s, none) := by
  simp [State.flip, h.laceBad_eq_false, h.noteLace_eq, hempty, hpub]

/-- A stop without outbound notices hands none to its FIFO (R53). -/
theorem flush_of_outbound_nil (h : (s.stop lid).outbound = []) : s.flush lid = s := by
  simp [State.flush, State.flushNotices, h]

/-- An S-queue op that meets no fault and sends nothing retires. -/
theorem suaEnd_none (h : (t.stop lid).outbound = []) : State.suaEnd lid (t, none) = t.retire lid .s := by
  rw [State.suaEnd, flush_of_outbound_nil h]

theorem suaEnd_some (h : (t.stop lid).outbound = []) (c : Nat) : State.suaEnd lid (t, some c) = t.opFault lid .s c := by
  rw [State.suaEnd, flush_of_outbound_nil h]

/-! ### The state plane (R44) -/

/-- Two words of a plane that lie less than a memory apart have one address just when they are one word (R36). -/
theorem stateAt_eq_iff (s : State) (lid r : Nat) {j k : Nat} (hj : j < k + 0x40000) (hk : k < j + 0x40000) :
    s.stateAt lid r j = s.stateAt lid r k ↔ j = k := by
  simp only [State.stateAt, wa]
  omega

/-- A write of a unit's state is read by every unit of any replica that has that place, and by no other. -/
theorem unitState_putState (h : CleanCore s lid) (r i : Nat) (b : Bool) (r' j : Nat) :
    (s.putState lid r i b).unitState lid r' j =
      if s.stateAt lid r' (j / 32) = s.stateAt lid r (i / 32) ∧ j % 32 = i % 32 then b else s.unitState lid r' j := by
  have hi : i % 32 < 32 := Nat.mod_lt _ (by decide)
  have hlay : SameLayout lid s (s.putState lid r i b) := (laceStep_putLaceBit h _ hi b).layout
  rw [State.unitState, hlay.stateAt_eq, State.putState, bitOf_lace_putLaceBit h _ hi b _ (Nat.mod_lt _ (by decide))]
  rfl

/-- Within one block of 64 units a write is read by its unit alone. -/
theorem unitState_putState_block (h : CleanCore s lid) {i j : Nat} (hb : i / 64 = j / 64) (b : Bool) :
    (s.putState lid r i b).unitState lid r j = if i = j then b else s.unitState lid r j := by
  have hplace : s.stateAt lid r (j / 32) = s.stateAt lid r (i / 32) ∧ j % 32 = i % 32 ↔ i = j := by
    rw [stateAt_eq_iff _ _ _ (by omega) (by omega)]
    omega
  simp only [unitState_putState h, hplace]

theorem laceStep_putState (h : CleanCore s lid) (r i : Nat) (b : Bool) :
    LaceStep lid (· = s.stateAt lid r (i / 32)) s (s.putState lid r i b) :=
  laceStep_putLaceBit h _ (Nat.mod_lt _ (by decide)) b

/-- A run of writes of one replica's states. -/
def State.putStates (lid r : Nat) (fl : List (Nat × Bool)) (s : State) : State :=
  forAll fl (fun f t => t.putState lid r f.1 f.2) s

theorem laceStep_putStates (h : CleanCore s lid) {W : Nat → Prop} {fl : List (Nat × Bool)}
    (hW : ∀ f ∈ fl, W (s.stateAt lid r (f.1 / 32))) : LaceStep lid W s (s.putStates lid r fl) := by
  induction fl generalizing s with
  | nil => exact .refl lid W s
  | cons f fl ih =>
    have hhead := laceStep_putState h r f.1 f.2
    have htail := ih (hhead.clean h) fun g hg => by
      rw [hhead.layout.stateAt_eq]; exact hW g (List.mem_cons_of_mem _ hg)
    exact (hhead.mono fun w hw => hw ▸ hW f (List.mem_cons_self ..)).trans htail

/-- What a run of writes to units of one block leaves in unit `j`: `v`, where every write to `j` writes `v` and either
there is one or `j` held `v` before. -/
theorem unitState_putStates (h : CleanCore s lid) {fl : List (Nat × Bool)} {j : Nat} {v : Bool}
    (hb : ∀ f ∈ fl, f.1 / 64 = j / 64) (hv : ∀ f ∈ fl, f.1 = j → f.2 = v)
    (hj : s.unitState lid r j = v ∨ ∃ f ∈ fl, f.1 = j) : (s.putStates lid r fl).unitState lid r j = v := by
  induction fl generalizing s with
  | nil => exact hj.resolve_right (by simp)
  | cons f fl ih =>
    have hhead := unitState_putState_block (r := r) h (hb f (List.mem_cons_self ..)) f.2
    refine ih ((laceStep_putState h r f.1 f.2).clean h) (fun g hg => hb g (List.mem_cons_of_mem _ hg))
      (fun g hg => hv g (List.mem_cons_of_mem _ hg)) ?_
    by_cases hf : f.1 = j
    · exact .inl (by rw [hhead, if_pos hf, hv f (List.mem_cons_self ..) hf])
    · rw [hhead, if_neg hf]
      exact hj.imp_right fun ⟨g, hg, hgj⟩ => ⟨g, (List.mem_cons.1 hg).resolve_left (by rintro rfl; exact hf hgj), hgj⟩

end Engines

end Sys2Proof.Machine
end

section
/-!
PROOFS. Scope: a phase over one block without groups, and the decision rules (R71-R81, R91).
-/
namespace Sys2Proof.Machine

section Phase

variable {s t : State} {lid : Nat} {x : PhaseRun}

/-! ### What the batch of ungrouped units decides (R72, R78) -/

/-- What a phase decides for unit `i`: an idle lane keeps its state, any other takes its rule's decision. -/
def decided (x : PhaseRun) (s : State) (i : Nat) : Bool :=
  if laneIdle x s i then s.unitState x.lid x.replica i
  else decideUnit x.rule (s.tableEntry x.lid x.table) x.beta (s.field x.lid x.replica i) (s.unitState x.lid x.replica i)
    (x.draw 1 (s.modelIndex x.lid i))

/-- A lane outside groups flips its unit where the decision differs from its state. -/
theorem singleLane_flips {i : Nat} (hg : s.groupBit x.lid i = false) : (singleLane x s i).flips =
    if decided x s i = s.unitState x.lid x.replica i then [] else [(i, decided x s i)] := by
  unfold singleLane decided
  cases laneIdle x s i
  · simp only [hg, Bool.or_self, Bool.false_eq_true, if_false]
  · simp

/-- A lane of one unit meets no fault, reads no list and skips no group. -/
theorem singleLane_quiet (x : PhaseRun) (s : State) (i : Nat) :
    (singleLane x s i).fault = none ∧ (singleLane x s i).reads = [] ∧ (singleLane x s i).err = 0 := by
  unfold singleLane
  split <;> exact ⟨rfl, rfl, rfl⟩

/-- In a clean core an unmapped or clamped unit of the colour range is idle, and no other. -/
theorem laneIdle_of_clean (h : CleanCore s x.lid) {i : Nat} (hfirst : s.getF (cColFirst x.lid x.colour) ≤ i)
    (hend : i < s.getF (cColEnd x.lid x.colour)) :
    laneIdle x s i = (s.modelIndex x.lid i == 0xFFFFFFFF || s.clampBit x.lid i) := by
  simp [laneIdle, State.planeBad, h.laceBad_eq_false, Nat.not_lt.2 hfirst, Nat.not_le.2 hend]

/-- Units of colour `x.colour` in block `m`. -/
def blockLanes (x : PhaseRun) (s : State) (m : Nat) : List Nat :=
  (rangeFrom (64 * m) (64 * m + 64)).filter fun i =>
    decide (s.getF (cColFirst x.lid x.colour) ≤ i) && decide (i < s.getF (cColEnd x.lid x.colour))

theorem mem_rangeFrom {a b i : Nat} : i ∈ rangeFrom a b ↔ a ≤ i ∧ i < b := by
  simp only [rangeFrom, List.mem_map, List.mem_range]
  exact ⟨by rintro ⟨k, hk, rfl⟩; omega, fun h => ⟨i - a, by omega, by omega⟩⟩

theorem mem_blockLanes {m i : Nat} : i ∈ blockLanes x s m ↔
    i / 64 = m ∧ s.getF (cColFirst x.lid x.colour) ≤ i ∧ i < s.getF (cColEnd x.lid x.colour) := by
  rw [blockLanes, List.mem_filter, mem_rangeFrom]
  simp only [Bool.and_eq_true, decide_eq_true_eq]
  omega

/-- The flips that a block's lanes outside groups decide: of each unit whose decision differs from its state. -/
theorem mem_flips {l : List Nat} (hg : ∀ i ∈ l, s.groupBit x.lid i = false) {f : Nat × Bool} :
    f ∈ (l.map (singleLane x s)).flatMap (·.flips) ↔
      f.1 ∈ l ∧ f.2 = decided x s f.1 ∧ decided x s f.1 ≠ s.unitState x.lid x.replica f.1 := by
  simp only [List.mem_flatMap, List.mem_map]
  constructor
  · rintro ⟨_, ⟨i, hi, rfl⟩, hf⟩
    rw [singleLane_flips (hg i hi)] at hf
    split at hf
    case isTrue => simp at hf
    case isFalse hne =>
      obtain rfl := List.mem_singleton.1 hf
      exact ⟨hi, rfl, hne⟩
  · rintro ⟨hi, hd, hne⟩
    refine ⟨_, ⟨f.1, hi, rfl⟩, ?_⟩
    rw [singleLane_flips (hg _ hi), if_neg hne, List.mem_singleton, ← hd]

/-! ### One batch (R71-R75) -/

theorem noteBatch_of_clean (h : CleanCore s lid) (r m : Nat) (gs : List Nat) : s.noteBatch lid r m gs = s := by
  rw [State.noteBatch, forAll_eq_self fun w _ => h.noteLace_eq w, h.noteRead_eq]

/-- A batch of units outside groups, in a clean core whose colour has no group descriptors: the states are written, the
batch is counted, the flips are walked. -/
theorem phaseBatch_of_ungrouped (h : CleanCore s x.lid) {m : Nat}
    (hgs : tblGet (fun _ => (0, 0)) (s.core x.lid).groupIdx x.colour = (0, 0))
    (hg : ∀ i ∈ blockLanes x s m, s.groupBit x.lid i = false) :
    phaseBatch x m s = walkFlips x ((blockLanes x s m).map (singleLane x s))
      (countBatch x ((blockLanes x s m).map (singleLane x s)) (writeStates x ((blockLanes x s m).map (singleLane x s)) s)) := by
  have hgroups : s.batchGroups x.lid x.colour m = [] := by rw [State.batchGroups, hgs]; rfl
  have hfault : batchFault x s (blockLanes x s m) [] = none := by
    simpa [batchFault] using fun i hi _ => hg i hi
  have hreads : ((blockLanes x s m).map (singleLane x s)).flatMap (·.reads) = [] := by
    simp [List.flatMap_eq_nil_iff, singleLane_quiet]
  have hquiet : ((blockLanes x s m).map (singleLane x s)).findSome? (·.fault) = none := by
    simp [List.findSome?_eq_none_iff, singleLane_quiet]
  unfold blockLanes at *
  simp only [phaseBatch, hgroups, noteBatch_of_clean h, hfault, List.find?_nil, List.any_nil, Bool.false_eq_true, if_false,
    hreads, hquiet, forAll_nil]

/-- The counters that a batch without groups and on-counts touches (R100, R204). -/
def batchCounters (lid : Nat) : List Fld := [cEvals lid, cFlips lid, cGroupErr lid, cBlocks lid, cHolds lid, cSuaStalls lid]

theorem batchCounters_ok : ∀ f ∈ batchCounters lid, f.Ok := by
  simp [batchCounters, Fld.Ok, cEvals, cFlips, cGroupErr, cBlocks, cHolds, cSuaStalls]

theorem batchCounters_above (lid : Nat) : ∀ f ∈ batchCounters lid, 8 * (corePage lid + 0x384) ≤ f.base := by
  simp only [batchCounters, List.forall_mem_cons, Fld.base, cEvals, cFlips, cGroupErr, cBlocks, cHolds, cSuaStalls, corePage]
  refine ⟨?_, ?_, ?_, ?_, ?_, ?_, List.forall_mem_nil _⟩ <;> omega

theorem countBatch_of_quiet {outs : List LaneOut} (herr : ∀ o ∈ outs, o.err = 0) (hon : x.onCount = false) :
    Counted (batchCounters x.lid) s (countBatch x outs s) := by
  have hsum : (outs.map (·.err)).sum = 0 := List.sum_eq_zero (by simpa using herr)
  have hinc : ∀ {f : Fld}, f ∈ batchCounters x.lid → ∀ (n : Nat) (u : State), Counted (batchCounters x.lid) u (u.incF f n) :=
    fun hf n u => counted_incF n (batchCounters_ok _ hf) hf
  have hfree : ∀ {f : Fld}, f ∈ batchCounters x.lid → ∀ u : State, Counted (batchCounters x.lid) u (u.addFree f) :=
    fun hf u => counted_addFree (batchCounters_ok _ hf) hf
  simp only [countBatch, hsum, if_true, hon, Bool.false_eq_true, if_false, State.blocks]
  exact ((((((hinc (by simp [batchCounters]) _ _).trans (hinc (by simp [batchCounters]) _ _)).trans
    (hinc (by simp [batchCounters]) _ _)).trans (hinc (by simp [batchCounters]) _ _)).trans
    (hfree (by simp [batchCounters]) _)).trans (hinc (by simp [batchCounters]) _ _)).trans (hfree (by simp [batchCounters]) _)

theorem walkFlips_eq_self {outs : List LaneOut}
    (hf : ∀ o ∈ outs, ∀ f ∈ o.flips, s.flip x.lid x.replica f.1 f.2 (some x.colour) o.members = (s, none)) :
    walkFlips x outs s = (s, none) :=
  walkRes_eq_self fun o ho => walkRes_eq_self fun f hfo => hf o ho f hfo

/-- The lace words that a block's batch may write: its lanes' words of the state plane (R75). -/
def blockStates (x : PhaseRun) (s : State) (m : Nat) (w : Nat) : Prop :=
  ∃ i ∈ blockLanes x s m, w = s.stateAt x.lid x.replica (i / 32)

/-- What the batch of a block outside groups, with empty lists and nothing published, does: the block's lanes take what
they decide, the counters count, and nothing else changes (R71-R75). -/
theorem phaseBatch_effect (h : CleanCore s x.lid) {m : Nat} (hon : x.onCount = false)
    (hgs : tblGet (fun _ => (0, 0)) (s.core x.lid).groupIdx x.colour = (0, 0))
    (hg : ∀ i ∈ blockLanes x s m, s.groupBit x.lid i = false)
    (hempty : ∀ i ∈ blockLanes x s m, bitOf (s.lace x.lid (s.descAt x.lid i)) 13 = true)
    (hpub : ∀ i ∈ blockLanes x s m, bitOf (s.lace x.lid (s.descAt x.lid i)) 12 = false)
    (hdesc : ∀ i ∈ blockLanes x s m, ¬ blockStates x s m (s.descAt x.lid i)) :
    ∃ t, phaseBatch x m s = (t, none) ∧ CoreStep x.lid (batchCounters x.lid) s t ∧
      t.core x.lid = { s.core x.lid with lace := (t.core x.lid).lace } ∧ WordsOutside x.lid (blockStates x s m) s t ∧
      ∀ j, j / 64 = m → t.unitState x.lid x.replica j =
        if j ∈ blockLanes x s m then decided x s j else s.unitState x.lid x.replica j := by
  rw [phaseBatch_of_ungrouped h hgs hg]
  generalize houts : (blockLanes x s m).map (singleLane x s) = outs
  have hfl : ∀ {f : Nat × Bool}, f ∈ outs.flatMap (·.flips) ↔
      f.1 ∈ blockLanes x s m ∧ f.2 = decided x s f.1 ∧ decided x s f.1 ≠ s.unitState x.lid x.replica f.1 :=
    houts ▸ mem_flips hg
  have hwrite : LaceStep x.lid (blockStates x s m) s (writeStates x outs s) :=
    laceStep_putStates h fun f hf => ⟨f.1, (hfl.1 hf).1, rfl⟩
  have hstates : ∀ j, j / 64 = m → (writeStates x outs s).unitState x.lid x.replica j =
      if j ∈ blockLanes x s m then decided x s j else s.unitState x.lid x.replica j := by
    intro j hj
    refine unitState_putStates h (fun f hf => ?_) (fun f hf hfj => ?_) ?_
    · rw [(mem_blockLanes.1 (hfl.1 hf).1).1, hj]
    · obtain ⟨hl, hd, -⟩ := hfl.1 hf
      rw [← hfj, if_pos hl, hd]
    · by_cases hl : j ∈ blockLanes x s m
      · rw [if_pos hl]
        by_cases hd : decided x s j = s.unitState x.lid x.replica j
        · exact .inl hd.symm
        · exact .inr ⟨(j, decided x s j), hfl.2 ⟨hl, rfl, hd⟩, rfl⟩
      · exact .inl (if_neg hl).symm
  have hcount := countBatch_of_quiet (s := writeStates x outs s) (outs := outs) (by rw [← houts]; simp [singleLane_quiet]) hon
  have hlay : SameLayout x.lid s (countBatch x outs (writeStates x outs s)) :=
    hwrite.layout.trans ((hcount.2.regsBelow (batchCounters_above x.lid)).mono (by omega))
  generalize countBatch x outs (writeStates x outs s) = t at hcount hlay
  generalize writeStates x outs s = u at *
  have hcore := hcount.core_eq x.lid
  have hlace : ∀ w, t.lace x.lid w = u.lace x.lid w := lace_congr hcore
  have hquiet : walkFlips x outs t = (t, none) := by
    refine walkFlips_eq_self fun o ho f hf => ?_
    have hi : f.1 ∈ blockLanes x s m := (hfl.1 (List.mem_flatMap.2 ⟨o, ho, hf⟩)).1
    have hd : t.lace x.lid (t.descAt x.lid f.1) = s.lace x.lid (s.descAt x.lid f.1) := by
      rw [hlay.descAt_eq, hlace, hwrite.lace_eq (hdesc _ hi)]
    exact flip_of_empty ((hwrite.clean h).congr hcore) (hd ▸ hempty _ hi) (hd ▸ hpub _ hi) ..
  refine ⟨t, hquiet, (hwrite.coreStep _).trans (hcount.coreStep _), ?_, hwrite.words.congr hcore, fun j hj => ?_⟩
  · rw [hcore]; exact hwrite.own
  · rw [← hstates j hj, State.unitState, State.unitState, hlay.stateAt_eq, hwrite.layout.stateAt_eq, hlace]

/-! ### The phase's beginning and end (R65, R91) -/

/-- The fields that a phase's beginning writes. -/
def beginFields (lid : Nat) (free : Bool) : List Fld := if free then [cFree lid] else []

theorem cFree_ok (lid : Nat) : (cFree lid).Ok := by simp [Fld.Ok, cFree]

theorem core_phaseBegin (x : PhaseRun) (s : State) : (phaseBegin x s).core x.lid =
    { s.core x.lid with phase := some ⟨x.colour, x.replica, x.free, false, s.getF (qPc x.lid .s)⟩ } := by
  unfold phaseBegin
  split <;> simp only [core_setF, core_modCore_same]

theorem free_phaseBegin (x : PhaseRun) (s : State) : (phaseBegin x s).free = s.free := by
  unfold phaseBegin
  split <;> rfl

theorem coreStep_phaseBegin (x : PhaseRun) (s : State) :
    CoreStep x.lid (beginFields x.lid x.free) s (phaseBegin x s) := by
  unfold phaseBegin beginFields
  split
  · exact (coreStep_modCore ..).trans (coreStep_setF x.lid 1 (cFree_ok _) (by simp))
  · exact coreStep_modCore ..

theorem beginFields_above (lid : Nat) (free : Bool) : ∀ f ∈ beginFields lid free, 8 * (corePage lid + 0x380) ≤ f.base := by
  cases free
  · simp [beginFields]
  · simp only [beginFields, if_true, List.forall_mem_singleton, Fld.base, cFree, corePage]
    omega

theorem cFree_phaseBegin (hx : x.free = true) (s : State) : (phaseBegin x s).getF (cFree x.lid) = 1 := by
  simp only [phaseBegin, hx, if_true]
  rw [getF_setF_same _ _ (cFree_ok _)]
  rfl

theorem memSame_phaseBegin (x : PhaseRun) (s : State) : MemSame x.lid s (phaseBegin x s) := by
  intro m
  rw [core_phaseBegin]
  cases m <;> rfl

/-- What a unit of the colour range decides in a clean core, written out (R72, R78). -/
theorem decided_of_clean (h : CleanCore s x.lid) {i : Nat} (hfirst : s.getF (cColFirst x.lid x.colour) ≤ i)
    (hend : i < s.getF (cColEnd x.lid x.colour)) : decided x s i =
      if s.modelIndex x.lid i = 0xFFFFFFFF ∨ s.clampBit x.lid i = true then s.unitState x.lid x.replica i
      else decideUnit x.rule (s.tableEntry x.lid x.table) x.beta (s.field x.lid x.replica i) (s.unitState x.lid x.replica i)
        (x.draw 1 (s.modelIndex x.lid i)) := by
  simp only [decided, laneIdle_of_clean h hfirst hend, Bool.or_eq_true, beq_iff_eq]

/-- A phase without an operand fault has a colour range that is not empty (R101). -/
theorem colour_nonempty {op : OpWord} (h : phaseOperandFault s lid op = none) :
    s.getF (cColFirst lid (bitsOf op 0 4)) < s.getF (cColEnd lid (bitsOf op 0 4)) := by
  by_contra hc
  simp [phaseOperandFault, Nat.not_lt.1 hc] at h

/-- A colour range within one block is one batch (R71). -/
theorem phaseBlocks_of_one {c : Nat} (hne : s.getF (cColFirst lid c) < s.getF (cColEnd lid c))
    (hb : s.getF (cColFirst lid c) / 64 = (s.getF (cColEnd lid c) - 1) / 64) :
    phaseBlocks s lid c = [s.getF (cColFirst lid c) / 64] := by
  have hceil : ceilDiv (s.getF (cColEnd lid c)) 64 = s.getF (cColFirst lid c) / 64 + 1 := by
    rw [ceilDiv]; omega
  simp [phaseBlocks, hceil, rangeFrom]

theorem advance_inside {q : Queue} (h : s.getF (qPc lid q) < 4095) :
    s.advance lid q = s.setF (qPc lid q) (s.getF (qPc lid q) + 1) := by
  rw [State.advance, goto_inside (by omega)]

/-- A phase whose batches meet no fault and send nothing goes on to the next op (R91). -/
theorem phaseIssued_none (hout : (t.stop lid).outbound = []) (hpc : t.getF (qPc lid .s) < 4095) :
    phaseIssued lid (t, none) = t.used.setF (qPc lid .s) (t.getF (qPc lid .s) + 1) := by
  rw [phaseIssued, flush_of_outbound_nil hout]
  exact advance_inside hpc

/-! ### A phase over one block (R71-R79, R91) -/

/-- The units of colour `c` lie in one block, in no group, and have empty lists and nothing to publish; no state-plane word
of theirs in replica `r` holds a descriptor of theirs. -/
structure PlainBlock (s : State) (lid c r : Nat) : Prop where
  nonempty : s.getF (cColFirst lid c) < s.getF (cColEnd lid c)
  block : s.getF (cColFirst lid c) / 64 = (s.getF (cColEnd lid c) - 1) / 64
  groups : tblGet (fun _ => (0, 0)) (s.core lid).groupIdx c = (0, 0)
  units : ∀ i, s.getF (cColFirst lid c) ≤ i → i < s.getF (cColEnd lid c) → s.groupBit lid i = false ∧
    bitOf (s.lace lid (s.descAt lid i)) 13 = true ∧ bitOf (s.lace lid (s.descAt lid i)) 12 = false ∧
    ∀ j, s.getF (cColFirst lid c) ≤ j → j < s.getF (cColEnd lid c) → s.descAt lid i ≠ s.stateAt lid r (j / 32)

theorem PlainBlock.mem_lanes (h : PlainBlock s x.lid x.colour x.replica) {i : Nat} :
    i ∈ blockLanes x s (s.getF (cColFirst x.lid x.colour) / 64) ↔
      s.getF (cColFirst x.lid x.colour) ≤ i ∧ i < s.getF (cColEnd x.lid x.colour) := by
  have hb := h.block
  rw [mem_blockLanes]
  omega

/-- Which units a block has, and that it is plain, follows from memories, group descriptors and the registers below the
phase's own. -/
theorem PlainBlock.congr {c r : Nat} (h : PlainBlock s lid c r) (hc : c < 16) (hm : MemSame lid s t)
    (hr : SameLayout lid s t) (hg : (t.core lid).groupIdx = (s.core lid).groupIdx) : PlainBlock t lid c r := by
  obtain ⟨hne, hb, hgs, hu⟩ := h
  refine ⟨?_, ?_, ?_, ?_⟩ <;> simp only [hr.colFirst_eq hc, hr.colEnd_eq hc, hg, groupBit_eq hm hr, hm.lace_eq, hr.descAt_eq, hr.stateAt_eq] <;>
    assumption

/-- The words of replica `r`'s state plane that hold units of colour `c`. -/
def colourStates (s : State) (lid c r w : Nat) : Prop :=
  ∃ i, s.getF (cColFirst lid c) ≤ i ∧ i < s.getF (cColEnd lid c) ∧ w = s.stateAt lid r (i / 32)

/-- The batch of a plain block: its units take what they decide. -/
theorem PlainBlock.batch (hp : PlainBlock s x.lid x.colour x.replica) (h : CleanCore s x.lid) (hon : x.onCount = false) :
    ∃ t, phaseBatch x (s.getF (cColFirst x.lid x.colour) / 64) s = (t, none) ∧
      CoreStep x.lid (batchCounters x.lid) s t ∧ t.core x.lid = { s.core x.lid with lace := (t.core x.lid).lace } ∧
      WordsOutside x.lid (colourStates s x.lid x.colour x.replica) s t ∧
      ∀ j, j / 64 = s.getF (cColFirst x.lid x.colour) / 64 → t.unitState x.lid x.replica j =
        if s.getF (cColFirst x.lid x.colour) ≤ j ∧ j < s.getF (cColEnd x.lid x.colour) then decided x s j
        else s.unitState x.lid x.replica j := by
  have hu : ∀ i ∈ blockLanes x s (s.getF (cColFirst x.lid x.colour) / 64), _ := fun i hi =>
    hp.units i (hp.mem_lanes.1 hi).1 (hp.mem_lanes.1 hi).2
  have hwords : ∀ w, blockStates x s (s.getF (cColFirst x.lid x.colour) / 64) w →
      colourStates s x.lid x.colour x.replica w := by
    rintro w ⟨i, hi, hw⟩
    exact ⟨i, (hp.mem_lanes.1 hi).1, (hp.mem_lanes.1 hi).2, hw⟩
  have hdesc : ∀ i ∈ blockLanes x s (s.getF (cColFirst x.lid x.colour) / 64),
      ¬ blockStates x s (s.getF (cColFirst x.lid x.colour) / 64) (s.descAt x.lid i) := by
    intro i hi hw
    obtain ⟨k, hfirst, hend, hk⟩ := hwords _ hw
    exact (hu i hi).2.2.2 k hfirst hend hk
  obtain ⟨t, hbatch, hcount, hown, hout, hstates⟩ := phaseBatch_effect h hon hp.groups (fun i hi => (hu i hi).1)
    (fun i hi => (hu i hi).2.1) (fun i hi => (hu i hi).2.2.1) hdesc
  simp only [hp.mem_lanes] at hstates
  exact ⟨t, hbatch, hcount, hown, hout.mono hwords, hstates⟩

/-- What unit `i` holds after SUA.PHASE `op` (R72, R78, R79). -/
def phaseState (s : State) (lid : Nat) (op : OpWord) (i : Nat) : Bool :=
  if s.modelIndex lid i = 0xFFFFFFFF ∨ s.clampBit lid i = true then s.unitState lid (bitsOf op 4 4) i
  else decideUnit (bitsOf op 8 2) (s.tableEntry lid (bitsOf op 10 3)) (s.getF (cBeta lid (bitsOf op 4 4)))
    (s.field lid (bitsOf op 4 4) i) (s.unitState lid (bitsOf op 4 4) i)
    (unitDraw (s.seedOf lid) 1 (s.modelIndex lid i) (s.keySweep lid) (bitsOf op 4 4) (bitsOf op 0 4))

theorem bitsOf_lt {n : Nat} (v : BitVec n) (lo w : Nat) : bitsOf v lo w < 2 ^ w := BitVec.isLt _

/-- A unit's decision follows from the memories, the registers below the SUA's own and the counter of free values. -/
theorem decided_congr (h : CleanCore s x.lid) (hm : MemSame x.lid s t) (hr : RegsBelow (corePage x.lid + 0x380) s t)
    (hf : t.free = s.free) (hc : x.colour < 16) (htab : x.table < 8) {i : Nat}
    (hfirst : s.getF (cColFirst x.lid x.colour) ≤ i) (hend : i < s.getF (cColEnd x.lid x.colour)) :
    decided x t i = decided x s i := by
  have hlay : SameLayout x.lid s t := hr.mono (by omega)
  have hentry : t.tableEntry x.lid x.table = s.tableEntry x.lid x.table := funext fun k => tableEntry_eq hm
    (hr _ (by simp [Fld.Ok, cTable]) (by simp only [Fld.base, cTable, corePage]; omega)) hf
  rw [decided_of_clean (hm.clean h) ((hlay.colFirst_eq hc).trans_le hfirst) (hend.trans_eq (hlay.colEnd_eq hc).symm), decided_of_clean h hfirst hend, modelIndex_eq hm hlay,
    clampBit_eq hm hlay, unitState_eq hm hlay, field_eq hm hlay, hentry]

theorem decided_phaseRun (h : CleanCore s lid) {op : OpWord} {i : Nat}
    (hfirst : s.getF (cColFirst lid (bitsOf op 0 4)) ≤ i) (hend : i < s.getF (cColEnd lid (bitsOf op 0 4))) :
    decided (phaseRun lid op s) s i = phaseState s lid op i :=
  decided_of_clean (x := phaseRun lid op s) h hfirst hend

/-- What SUA.PHASE does over a plain block: its units take what they decide, the phase is in progress, and nothing else of
the core changes but the counters. -/
theorem phaseBody_effect {op : OpWord} (h : CleanCore s lid) (hp : PlainBlock s lid (bitsOf op 0 4) (bitsOf op 4 4))
    (hfault : phaseOperandFault s lid op = none) (hon : bitOf op 113 = false) :
    ∃ t, phaseBody lid op s = phaseIssued lid (t, none) ∧
      CoreStep lid (batchCounters lid ++ beginFields lid (bitOf op 112)) s t ∧
      t.core lid = { s.core lid with
        lace := (t.core lid).lace, phase := some ⟨bitsOf op 0 4, bitsOf op 4 4, bitOf op 112, false, s.getF (qPc lid .s)⟩ } ∧
      WordsOutside lid (colourStates s lid (bitsOf op 0 4) (bitsOf op 4 4)) s t ∧
      (bitOf op 112 = true → t.getF (cFree lid) = 1) ∧
      ∀ j, j / 64 = s.getF (cColFirst lid (bitsOf op 0 4)) / 64 → t.unitState lid (bitsOf op 4 4) j =
        if s.getF (cColFirst lid (bitsOf op 0 4)) ≤ j ∧ j < s.getF (cColEnd lid (bitsOf op 0 4)) then phaseState s lid op j
        else s.unitState lid (bitsOf op 4 4) j := by
  have hc : bitsOf op 0 4 < 16 := bitsOf_lt ..
  have htab : bitsOf op 10 3 < 8 := bitsOf_lt ..
  have hm : MemSame lid s (phaseBegin (phaseRun lid op s) s) := memSame_phaseBegin _ _
  have hbegin : CoreStep lid (beginFields lid (bitOf op 112)) s (phaseBegin (phaseRun lid op s) s) := coreStep_phaseBegin _ _
  have hbelow : RegsBelow (corePage lid + 0x380) s (phaseBegin (phaseRun lid op s) s) :=
    hbegin.2.2.regsBelow (beginFields_above _ _)
  have hlay : SameLayout lid s (phaseBegin (phaseRun lid op s) s) := hbelow.mono (by omega)
  have hfree := free_phaseBegin (phaseRun lid op s) s
  have hcore : (phaseBegin (phaseRun lid op s) s).core lid = { s.core lid with
      phase := some ⟨bitsOf op 0 4, bitsOf op 4 4, bitOf op 112, false, s.getF (qPc lid .s)⟩ } := core_phaseBegin _ _
  have hset : bitOf op 112 = true → (phaseBegin (phaseRun lid op s) s).getF (cFree lid) = 1 :=
    fun hx => cFree_phaseBegin (x := phaseRun lid op s) hx s
  have hbody : phaseBody lid op s = phaseIssued lid (walkRes (phaseBatch (phaseRun lid op s))
      [s.getF (cColFirst lid (bitsOf op 0 4)) / 64] (phaseBegin (phaseRun lid op s) s)) := by
    rw [phaseBody, hfault, ← phaseBlocks_of_one hp.nonempty hp.block]
  have hdecide : ∀ i, s.getF (cColFirst lid (bitsOf op 0 4)) ≤ i → i < s.getF (cColEnd lid (bitsOf op 0 4)) →
      decided (phaseRun lid op s) (phaseBegin (phaseRun lid op s) s) i = phaseState s lid op i := fun i hfirst hend =>
    (decided_congr (x := phaseRun lid op s) h hm hbelow hfree hc htab hfirst hend).trans (decided_phaseRun h hfirst hend)
  generalize phaseBegin (phaseRun lid op s) s = b at *
  have hfirst := hlay.colFirst_eq hc
  have hend := hlay.colEnd_eq hc
  have hplain : PlainBlock b lid (bitsOf op 0 4) (bitsOf op 4 4) := hp.congr hc hm hlay (by rw [hcore])
  obtain ⟨t, hbatch, hcount, hown, hwords, hstates⟩ := PlainBlock.batch (x := phaseRun lid op s) hplain (hm.clean h) hon
  refine ⟨t, ?_, (hbegin.mono fun _ => List.mem_append_right _).trans (CoreStep.mono hcount fun _ => List.mem_append_left _),
    ?_, ?_, fun hx => ?_, fun j hj => ?_⟩
  · rw [hbody, ← hfirst]
    exact congrArg _ (walkRes_cons_of_none hbatch)
  · exact hown.trans (by rw [show b.core (phaseRun lid op s).lid = _ from hcore]; rfl)
  · refine WordsOutside.trans (fun m a _ => by rw [hm m]) (WordsOutside.mono hwords ?_)
    rintro w ⟨i, hi, hi', hw⟩
    exact ⟨i, hfirst.symm.trans_le hi, hi'.trans_eq hend, hw.trans (hlay.stateAt_eq _ _)⟩
  · have hkeep : RegsBelow (corePage lid + 0x384) b t := hcount.2.2.regsBelow (batchCounters_above lid)
    rw [hkeep _ (cFree_ok lid) (by simp only [Fld.base, cFree, corePage]; omega), hset hx]
  · refine (hstates j (hj.trans (congrArg (· / 64) hfirst.symm))).trans ?_
    by_cases hin : s.getF (cColFirst lid (bitsOf op 0 4)) ≤ j ∧ j < s.getF (cColEnd lid (bitsOf op 0 4))
    · rw [if_pos hin, ← hdecide j hin.1 hin.2]
      exact if_pos ⟨hfirst.trans_le hin.1, hin.2.trans_eq hend.symm⟩
    · rw [if_neg hin, ← unitState_eq hm hlay]
      exact if_neg fun hl => hin ⟨hfirst.symm.trans_le hl.1, hl.2.trans_eq hend⟩

end Phase

theorem guarded_of_lid {f : State} {s : State} {lid : Nat} (h : lid < 2048) : guarded (decide (lid < 2048)) s f = .next f :=
  guarded_of (decide_eq_true h) s f

theorem qPc_apart_phase (lid : Nat) (free : Bool) : ∀ g ∈ batchCounters lid ++ beginFields lid free, (qPc lid .s).Apart g := by
  cases free <;>
    simp [batchCounters, beginFields, Fld.Apart, Fld.base, qPc, Queue.num, corePage, cEvals, cFlips, cGroupErr, cBlocks, cHolds,
      cSuaStalls, cFree] <;>
    omega

theorem qPc_above (lid : Nat) (q : Queue) : 8 * (corePage lid + 0x900) ≤ (qPc lid q).base := by
  simp only [Fld.base, qPc, corePage]
  omega

theorem cFree_apart_qPc (lid : Nat) : (cFree lid).Apart (qPc lid .s) := by
  simp only [Fld.Apart, Fld.base, qPc, cFree, Queue.num, corePage]
  omega

theorem phaseDecides : PhaseDecidesRule := by
  unfold PhaseDecidesRule
  rintro s lid c r op hhead hop hres hon rfl rfl hphase hfault hclean hout hblock hgroups hunits
  have hplain : PlainBlock s lid (bitsOf op 0 4) (bitsOf op 4 4) := ⟨colour_nonempty hfault, hblock, hgroups, hunits⟩
  obtain ⟨t, hbody, hstep, hown, hwords, hfree, hstates⟩ := phaseBody_effect hclean hplain hfault hon
  have hpc : t.getF (qPc lid .s) = s.getF (qPc lid .s) := hstep.2.2 _ (qPc_ok ..) (qPc_apart_phase _ _)
  have hissued : suaPhaseOp lid s = t.used.setF (qPc lid .s) (s.getF (qPc lid .s) + 1) := by
    rw [suaPhaseOp, ← hop, suaOp_of_atHead hhead hphase hres, hbody, phaseIssued_none (by rwa [hstep.stop_eq])
      (hpc.trans_lt hhead.inside), hpc]
  have hgo : Counted [qPc lid .s] t (suaPhaseOp lid s) := by
    rw [hissued]
    exact (counted_used _ t).trans ⟨rfl, onlyFields_setF _ _ (qPc_ok ..) (by simp)⟩
  have hcore := hgo.core_eq lid
  have hlay : SameLayout lid t (suaPhaseOp lid s) :=
    (hgo.2.regsBelow (by simpa using qPc_above lid .s)).mono (by omega)
  have hstate : ∀ j, (suaPhaseOp lid s).unitState lid (bitsOf op 4 4) j = t.unitState lid (bitsOf op 4 4) j :=
    unitState_eq (fun m => by rw [hcore]) hlay _
  refine ⟨suaPhaseOp lid s, guarded_of_lid hhead.core, fun i hi hi' => ?_, fun i _ hi u hu => ?_, fun m a ha => ?_, ?_, ?_,
    fun hx => ?_, ?_, ?_⟩
  · rw [hstate, hstates i (by omega), if_pos ⟨hi, hi'⟩]
    rfl
  · rw [hstate, hstates u (by omega), if_neg (by omega)]
  · refine (hwords.congr hcore) m a (ha.imp_right fun hall => ?_)
    rintro ⟨i, hi, hi', hw⟩
    exact hall i hi hi' hw
  · rw [hcore, hown]
  · rw [hissued, getF_setF_same _ _ (qPc_ok ..)]
    have := hhead.inside
    exact Nat.mod_eq_of_lt (show _ < 2 ^ 12 by omega)
  · rw [hgo.2 _ (cFree_ok lid) (by simpa using cFree_apart_qPc lid), hfree hx]
  · rw [hcore]; exact hown.trans (by rw [hown])
  · refine (hstep.mono fun f hf => ?_).trans ((hgo.coreStep lid).mono fun f hf => ?_)
    · exact List.mem_cons_of_mem _ hf
    · exact List.mem_append_left _ (List.mem_singleton.1 hf ▸ List.mem_cons_self ..)

/-! ### The decision rules and the activation tables (R77, R78, R81) -/

section DecisionRules

variable (ent : Nat → Nat) (beta u : Nat) (h : Int) (st : Bool)

/-- Heat-bath sets the unit where its uniform is below the table's value. -/
theorem decideUnit_heatBath : decideUnit 0 ent beta h st u = true ↔ u < actVal ent (beta * h) := by
  simp [decideUnit]

/-- Metropolis flips the unit where its uniform is below the value at the change's exponent. -/
theorem decideUnit_metropolis : decideUnit 1 ent beta h st u ≠ st ↔ u < actVal ent (if st then -(beta * h) else beta * h) := by
  have hdef : decideUnit 1 ent beta h st u = if u < actVal ent (if st then -(beta * h) else beta * h) then !st else st := rfl
  rw [hdef]
  split
  case isTrue hu => simp [hu]
  case isFalse hu => simp [hu]

/-- Greedy follows the field's sign and keeps the state at 0. -/
theorem decideUnit_greedy : decideUnit 2 ent beta h st u = if 0 < h then true else if h < 0 then false else st := rfl

/-- Below the table's range it gives its first entry. -/
theorem actVal_below {x : Int} (hx : x < -(2 ^ 28)) : actVal ent x = ent 0 :=
  if_pos (by omega)

/-- From the end of the table's range on it gives its last entry. -/
theorem actVal_above {x : Int} (hx : 2 ^ 28 ≤ x) : actVal ent x = ent 1023 := by
  unfold actVal
  rw [if_neg (by omega), if_pos (by omega)]

/-- At a breakpoint the table gives its entry: the fraction is 0. -/
theorem actVal_breakpoint {k : Nat} (hk : k < 1024) : actVal ent (((k : Int) - 512) * 2 ^ 19) = ent k := by
  have hy : ((k : Int) - 512) * 2 ^ 19 + 16 * 2 ^ 24 = ((k * 2 ^ 19 : Nat) : Int) := by push_cast; omega
  unfold actVal
  simp only [hy, Int.toNat_natCast, Nat.mul_div_cancel k (show 0 < 2 ^ 19 by decide), Nat.mul_mod_left]
  rw [if_neg (by omega), if_neg (by push_cast; omega)]
  split
  case isTrue h => rw [h]
  case isFalse => simp

end DecisionRules

theorem decisionRules : DecisionRulesRule := by
  unfold DecisionRulesRule
  refine ⟨fun ent beta u h st => ⟨decideUnit_heatBath .., decideUnit_metropolis .., fun hh => ?_, fun hh => ?_, ?_⟩,
    fun ent k hk => actVal_breakpoint ent hk, fun ent x => ⟨actVal_below ent, actVal_above ent⟩, by decide +kernel, by decide +kernel⟩
  · rw [decideUnit_greedy, if_pos hh]
  · rw [decideUnit_greedy, if_neg (by omega), if_pos hh]
  · rfl

/-- Settles O20: the batch of the block by what its lanes decide on the state as the phase finds it (`phaseBody_effect`),
the rules and the table by the branches of their definitions. -/
theorem phasesDecide : Obligations.PhasesDecide := ⟨phaseDecides, decisionRules⟩

end Sys2Proof.Machine
end

section
/-!
PROOFS. Scope: held notices and deferred updates as a phase ends (R56, R92, R93, R101, R258).
-/
namespace Sys2Proof.Machine

section PhaseEnd

variable {s t : State} {lid : Nat} {l : List Fld}

/-! ### One update (R50, R66) -/

theorem laceStep_setLace (h : CleanCore s lid) (w : Nat) (v : W32) : LaceStep lid (· = w) s (s.setLace lid w v) :=
  laceStep_wr h (Nat.le_refl _) (by rw [length_natLe])

/-- Of a core's state, an update changes lace memory alone. -/
theorem own_addField (h : CleanCore s lid) (r tgt : Nat) (w : Int) :
    (s.addField lid r tgt w).core lid = { s.core lid with lace := ((s.addField lid r tgt w).core lid).lace } := by
  rw [core_addField h]
  exact (laceStep_setLace h _ _).own

theorem coreStep_addField (h : CleanCore s lid) (r tgt : Nat) (w : Int) :
    CoreStep lid [cFieldSat lid, cSatMask lid, cUpdates lid] s (s.addField lid r tgt w) := by
  rw [addField_of_clean h]
  dsimp only
  have hset := (laceStep_setLace h (s.fieldAt lid r tgt)
    (BitVec.ofInt 32 (satS 32 ((s.lace lid (s.fieldAt lid r tgt)).toInt + w)))).coreStep [cFieldSat lid, cSatMask lid, cUpdates lid]
  refine CoreStep.trans ?_ (coreStep_incF lid 1 (cUpdates_ok lid) (by simp))
  split
  · exact hset
  · exact hset.trans ((coreStep_setF lid _ (cFieldSat_ok lid) (by simp)).trans (coreStep_setF lid _ (cSatMask_ok lid) (by simp)))

/-- An update is counted (R66). -/
theorem cUpdates_addField (h : CleanCore s lid) (r tgt : Nat) (w : Int) :
    (s.addField lid r tgt w).getF (cUpdates lid) = satAdd 64 (s.getF (cUpdates lid)) 1 := by
  have hnote : ∀ u : State, (u.noteSat lid r).getF (cUpdates lid) = u.getF (cUpdates lid) := fun u => by
    rw [State.noteSat, getF_setF_apart _ _ _ (cUpdates_ok lid) (cSatMask_ok lid) (cSatMask_apart_cUpdates lid).symm,
      getF_setF_apart _ _ _ (cUpdates_ok lid) (cFieldSat_ok lid) (cFieldSat_apart_cUpdates lid).symm]
  rw [addField_of_clean h]
  dsimp only
  rw [getF_incF_same _ _ (cUpdates_ok lid)]
  split
  · rw [getF_setLace_of_clean h]; rfl
  · rw [hnote, getF_setLace_of_clean h]; rfl

/-- An update leaves every lace word but its field's. -/
theorem lace_addField (h : CleanCore s lid) (r tgt : Nat) (w : Int) (v : Nat) :
    ((s.addField lid r tgt w).lace lid v).toInt =
      if s.fieldAt lid r tgt = v then satS 32 ((s.lace lid v).toInt + w) else (s.lace lid v).toInt := by
  split
  case isTrue hv => rw [← hv, lace_addField_same h]
  case isFalse hv =>
    rw [((h.bytesOutside_addField r tgt w).wordsOutside (Nat.le_refl _) (Nat.le_refl _)).lace_eq fun he => hv he.symm]

/-! ### A mirror list of one entry (R50, R56) -/

/-- A walk of a list whose first entry is its last, to a unit of the core that is no conflict, is one update. -/
theorem walkList_single (h : CleanCore s lid) {p : Nat} (hp : p < 0x40000) (hlast : bitOf (s.lace lid p) 0 = true)
    (hunit : bitsOf (s.lace lid p) 17 15 < s.units lid) {src : Option Nat} {exempt : List Nat}
    (hcol : s.conflicts lid src exempt (bitsOf (s.lace lid p) 17 15) = false) (r : Nat) (dir : Bool) :
    s.walkList lid r dir src exempt p = ((s.addField lid r (bitsOf (s.lace lid p) 17 15)
      (if dir then sbitsOf (s.lace lid p) 1 16 else -sbitsOf (s.lace lid p) 1 16)).addFree (cLaceStalls lid), none) := by
  obtain ⟨n, hn⟩ : ∃ n, 0x40001 - p = n + 1 := ⟨0x40000 - p, by omega⟩
  have hin : ¬ 0x3FFFF < p := by omega
  have hlist : s.applyList lid r dir src exempt (n + 1) p = (s.addField lid r (bitsOf (s.lace lid p) 17 15)
      (if dir then sbitsOf (s.lace lid p) 1 16 else -sbitsOf (s.lace lid p) 1 16), none) := by
    rw [State.applyList, if_neg hin, h.laceBad_eq_false, if_neg Bool.false_ne_true, h.noteLace_eq]
    dsimp only
    rw [if_neg (Nat.not_le.2 hunit), State.update, hcol, if_neg Bool.false_ne_true, Res.on]
    dsimp only
    rw [if_pos hlast]
  rw [State.walkList, hn, hlist]

/-- A notice whose mirror list is one entry of another colour is one update, by its direction. -/
theorem applyMirror_single (h : CleanCore s lid) {k : Nat} {n e m : W32} (he : e = s.lace lid (s.dirAt lid k n))
    (hm : m = s.lace lid (bitsOf e 14 18)) (hlast : bitOf m 0 = true) (hunit : bitsOf m 17 15 < s.units lid)
    (hcol : s.colourOf lid (bitsOf m 17 15) ≠ some (bitsOf e 9 4)) :
    s.applyMirror lid k n = (s.addField lid (bitsOf n 1 4) (bitsOf m 17 15)
      (if bitOf n 5 then sbitsOf m 1 16 else -sbitsOf m 1 16)).addFree (cLaceStalls lid) := by
  subst hm
  have hp : bitsOf e 14 18 < 0x40000 := bitsOf_lt ..
  have hconf : s.conflicts lid (some (bitsOf e 9 4)) [] (bitsOf (s.lace lid (bitsOf e 14 18)) 17 15) = false := by
    simp [State.conflicts, hcol]
  rw [State.applyMirror, ← he, walkList_single h hp hlast hunit hconf]

/-! ### Held notices (R92, R258) -/

/-- The state that the release of held notices works on: the phase is marked issued, the inbox is empty. -/
def State.heldTaken (lid : Nat) (p : Phase) (s : State) : State :=
  (s.modCore lid fun c => { c with phase := some { p with issued := true } }).modCore lid fun c => { c with inbox := [] }

theorem core_heldTaken (lid : Nat) (p : Phase) (s : State) : (s.heldTaken lid p).core lid =
    { s.core lid with phase := some { p with issued := true }, inbox := [] } := by
  simp only [State.heldTaken, core_modCore_same]

theorem memSame_heldTaken (lid : Nat) (p : Phase) (s : State) : MemSame lid s (s.heldTaken lid p) := by
  intro m
  rw [core_heldTaken]
  cases m <;> rfl

theorem coreStep_heldTaken (lid : Nat) (p : Phase) (l : List Fld) (s : State) : CoreStep lid l s (s.heldTaken lid p) :=
  (coreStep_modCore ..).trans (coreStep_modCore ..)

/-- Once the phase's last batch has issued it is marked so and its held notices are released. -/
theorem heldReleaseOp_eq {p : Phase} (hrun : s.coreRuns lid = true) (hp : (s.core lid).phase = some p) (hi : p.issued = false) :
    heldReleaseOp lid s =
      ((s.modCore lid fun c => { c with phase := some { p with issued := true } }).releaseInbox lid).inboxApplied lid := by
  simp only [heldReleaseOp, hp, hrun, hi, Bool.not_false, Bool.and_self, if_true]

theorem releases_inboxApplied (lid : Nat) (t : State) : ∀ h ∈ ((t.inboxApplied lid).stop lid).releases, h.inbox = false := by
  simp [State.inboxApplied]

/-- Without held notices the phase is marked issued. -/
theorem heldReleaseOp_of_none {p : Phase} (hrun : s.coreRuns lid = true) (hp : (s.core lid).phase = some p)
    (hi : p.issued = false) (hin : (s.core lid).inbox = []) :
    heldReleaseOp lid s = (s.heldTaken lid p).inboxApplied lid := by
  rw [heldReleaseOp_eq hrun hp hi, State.releaseInbox, core_modCore_same]
  simp only [hin, forAll_nil, State.heldTaken]

/-- One held notice is applied through its window. -/
theorem heldReleaseOp_of_one {p : Phase} (hrun : s.coreRuns lid = true) (hp : (s.core lid).phase = some p)
    (hi : p.issued = false) {n : W32} {k : Nat} (hin : (s.core lid).inbox = [n]) (hw : s.windowFor lid n = some k) :
    heldReleaseOp lid s = ((s.heldTaken lid p).applyMirror lid k n).inboxApplied lid := by
  have hw' : (s.heldTaken lid p).windowFor lid n = some k := hw
  rw [State.heldTaken] at hw'
  rw [heldReleaseOp_eq hrun hp hi, State.releaseInbox, core_modCore_same]
  simp only [hin, forAll_cons, forAll_nil, State.heldTaken, hw']

theorem cLaceStalls_ok (lid : Nat) : (cLaceStalls lid).Ok := by simp [Fld.Ok, cLaceStalls]

theorem cUpdates_apart_cLaceStalls (lid : Nat) : (cUpdates lid).Apart (cLaceStalls lid) := by
  simp only [Fld.Apart, Fld.base, cUpdates, cLaceStalls, corePage]
  omega

/-- What the update of a mirror list's one entry leaves, its walk's holds counted. -/
theorem addField_addFree_effect (h : CleanCore s lid) (r tgt : Nat) (v : Int) {x : State}
    (hx : x = (s.addField lid r tgt v).addFree (cLaceStalls lid)) :
    CoreStep lid [cUpdates lid, cFieldSat lid, cSatMask lid, cLaceStalls lid] s x ∧
      x.core lid = { s.core lid with lace := (x.core lid).lace } ∧
      (x.lace lid (s.fieldAt lid r tgt)).toInt = satS 32 ((s.lace lid (s.fieldAt lid r tgt)).toInt + v) ∧
      BytesOutside lid .lace (4 * s.fieldAt lid r tgt) 4 s x ∧
      x.getF (cUpdates lid) = satAdd 64 (s.getF (cUpdates lid)) 1 := by
  have hstall : Counted [cLaceStalls lid] (s.addField lid r tgt v) x :=
    hx ▸ counted_addFree (cLaceStalls_ok lid) (by simp)
  have hcore := hstall.core_eq lid
  refine ⟨((coreStep_addField h r tgt v).mono ?_).trans ((hstall.coreStep lid).mono ?_), ?_, ?_, ?_, ?_⟩
  · simp +contextual
  · simp
  · rw [hcore]; exact own_addField h r tgt v
  · rw [lace_congr hcore, lace_addField_same h]
  · exact (h.bytesOutside_addField r tgt v).congr hcore
  · rw [hstall.2 _ (cUpdates_ok lid) (by simpa using cUpdates_apart_cLaceStalls lid), cUpdates_addField h]

end PhaseEnd

theorem heldNoticesReleased : HeldNoticesReleasedRule := by
  unfold HeldNoticesReleasedRule
  intro s lid p hlid hrun hp hi hclean
  refine ⟨fun hin => ?_, fun n k tgt w e l hin hw he hl hlast htgt hunit hcol hfw => ?_⟩
  · have ht := heldReleaseOp_of_none hrun hp hi hin
    refine ⟨heldReleaseOp lid s, guarded_of_lid hlid, ?_, ?_, ?_, ?_⟩ <;> rw [ht]
    · show (s.heldTaken lid p).core lid = _
      rw [core_heldTaken]
      simp only [← hin]
    · exact (coreStep_heldTaken ..).stopStep.trans (coreStopStep_modStop ..)
    · rfl
    · show ((s.heldTaken lid p).modStop lid _).stop lid = _
      rw [stop_modStop_same, core_heldTaken]
      rfl
  · subst htgt hfw
    have hmem := memSame_heldTaken lid p s
    have ht := heldReleaseOp_of_one hrun hp hi hin hw
    obtain ⟨hstep, hown, hlace, hbytes, hcount⟩ := addField_addFree_effect (hmem.clean hclean) _ _ _
      (applyMirror_single (hmem.clean hclean) (he.trans (hmem.lace_eq _).symm) (hl.trans (hmem.lace_eq _).symm) hlast hunit hcol)
    rw [core_heldTaken] at hown
    have hcore : (heldReleaseOp lid s).core lid = ((s.heldTaken lid p).applyMirror lid k n).core lid := by rw [ht]; rfl
    generalize (s.heldTaken lid p).applyMirror lid k n = x at *
    refine ⟨heldReleaseOp lid s, guarded_of_lid hlid, by rw [hcore, hown], by rw [hcore, hown], ?_, ?_, ?_, ?_, ?_⟩
    · rw [lace_congr hcore, ← hmem.lace_eq]
      exact hlace
    · exact BytesOutside.congr (fun m a ha => (hbytes m a ha).trans (by rw [hmem m])) hcore
    · rw [ht]
      exact hcount
    · rw [ht]
      exact releases_inboxApplied lid x
    · rw [ht]
      exact ((coreStep_heldTaken lid p _ s).trans hstep).stopStep.trans (coreStopStep_modStop ..)

/-! ### Deferred updates (R93) -/

section Deferred

variable {s t : State} {lid : Nat} {l : List Fld}

/-- The fields that an update that was deferred may write (R65, R66, R93). -/
def deferredFields (lid : Nat) : List Fld := [cUpdates lid, cFieldSat lid, cSatMask lid, cConflicts lid, cConflict lid,
  cConflictMask lid, cUndeclared lid]

theorem deferredFields_ok (lid : Nat) : ∀ f ∈ deferredFields lid, f.Ok := by
  simp [deferredFields, Fld.Ok, cUpdates, cFieldSat, cSatMask, cConflicts, cConflict, cConflictMask, cUndeclared]

theorem deferredFields_above (lid : Nat) : ∀ f ∈ deferredFields lid, 8 * (corePage lid + 0x280) ≤ f.base := by
  simp [deferredFields, Fld.base, cUpdates, cFieldSat, cSatMask, cConflicts, cConflict, cConflictMask, cUndeclared, corePage]
  omega

/-- One update of the deferral buffer: applied, counted as a conflict that the pattern did not declare (R93). -/
def State.applyDeferred (lid : Nat) (u : Upd) (t : State) : State :=
  ((t.addField lid u.r u.tgt u.w).countConflict lid u.r).setF (cUndeclared lid) 1

/-- The records of a conflict are registers. -/
theorem regsOnly_conflict (lid r : Nat) (t : State) :
    RegsOnly (deferredFields lid) t ((t.countConflict lid r).setF (cUndeclared lid) 1) := by
  have hset : ∀ {f : Fld}, f ∈ deferredFields lid → ∀ (n : Nat) (u : State), RegsOnly (deferredFields lid) u (u.setF f n) :=
    fun hf n u => regsOnly_setF _ n (deferredFields_ok lid _ hf) hf
  exact (((hset (by simp [deferredFields]) _ t).trans (hset (by simp [deferredFields]) _ _)).trans
    (hset (by simp [deferredFields]) _ _)).trans (hset (by simp [deferredFields]) _ _)

theorem core_applyDeferred (lid : Nat) (u : Upd) (t : State) (i : Nat) :
    (t.applyDeferred lid u).core i = (t.addField lid u.r u.tgt u.w).core i :=
  (regsOnly_conflict lid u.r _).core_eq i

theorem CleanCore.applyDeferred (h : CleanCore t lid) (u : Upd) : CleanCore (t.applyDeferred lid u) lid :=
  (h.addField u.r u.tgt u.w).congr (core_applyDeferred ..)

theorem coreStep_applyDeferred (h : CleanCore t lid) (u : Upd) :
    CoreStep lid (deferredFields lid) t (t.applyDeferred lid u) :=
  ((coreStep_addField h u.r u.tgt u.w).mono (by simp [deferredFields])).trans ((regsOnly_conflict lid u.r _).coreStep lid)

theorem own_applyDeferred (h : CleanCore t lid) (u : Upd) :
    (t.applyDeferred lid u).core lid = { t.core lid with lace := ((t.applyDeferred lid u).core lid).lace } := by
  rw [core_applyDeferred]
  exact own_addField h u.r u.tgt u.w

theorem fieldAt_applyDeferred (h : CleanCore t lid) (u : Upd) (r tgt : Nat) :
    (t.applyDeferred lid u).fieldAt lid r tgt = t.fieldAt lid r tgt :=
  SameLayout.fieldAt_eq ((coreStep_applyDeferred h u).2.2.regsBelow (deferredFields_above lid)) r tgt

theorem lace_applyDeferred (h : CleanCore t lid) (u : Upd) (w : Nat) : ((t.applyDeferred lid u).lace lid w).toInt =
    if t.fieldAt lid u.r u.tgt = w then satS 32 ((t.lace lid w).toInt + u.w) else (t.lace lid w).toInt := by
  rw [lace_congr (core_applyDeferred lid u t lid), lace_addField h]

theorem cConflicts_applyDeferred (h : CleanCore t lid) (u : Upd) :
    (t.applyDeferred lid u).getF (cConflicts lid) = min (2 ^ 32 - 1) (t.getF (cConflicts lid) + 1) := by
  have hok : (cConflicts lid).Ok := by simp [Fld.Ok, cConflicts]
  have hadd : (t.addField lid u.r u.tgt u.w).getF (cConflicts lid) = t.getF (cConflicts lid) := by
    refine (coreStep_addField h u.r u.tgt u.w).2.2 _ hok ?_
    simp [Fld.Apart, Fld.base, cConflicts, cFieldSat, cSatMask, cUpdates, corePage]
    omega
  rw [State.applyDeferred, State.countConflict, getF_setF_apart _ _ _ hok (by simp [Fld.Ok, cUndeclared]),
    getF_setF_apart _ _ _ hok (by simp [Fld.Ok, cConflictMask]), getF_setF_apart _ _ _ hok (by simp [Fld.Ok, cConflict]),
    getF_incF_same _ _ hok, hadd, satAdd, show (cConflicts lid).w = 32 from rfl]
  · split <;> omega
  all_goals
    simp only [Fld.Apart, Fld.base, cConflicts, cConflict, cConflictMask, cUndeclared, corePage]
    omega

theorem cConflict_applyDeferred (lid : Nat) (u : Upd) (t : State) : (t.applyDeferred lid u).getF (cConflict lid) = 1 := by
  have hok : (cConflict lid).Ok := by simp [Fld.Ok, cConflict]
  rw [State.applyDeferred, State.countConflict, getF_setF_apart _ _ _ hok (by simp [Fld.Ok, cUndeclared]),
    getF_setF_apart _ _ _ hok (by simp [Fld.Ok, cConflictMask]), getF_setF_same _ _ hok]
  · rfl
  all_goals
    simp only [Fld.Apart, Fld.base, cConflict, cConflictMask, cUndeclared, corePage]
    omega

theorem cUndeclared_applyDeferred (lid : Nat) (u : Upd) (t : State) : (t.applyDeferred lid u).getF (cUndeclared lid) = 1 := by
  rw [State.applyDeferred, getF_setF_same _ _ (by simp [Fld.Ok, cUndeclared])]
  rfl

/-! ### The deferral buffer, in order (R93) -/

/-- A run of updates that were deferred. -/
def State.applyAllDeferred (lid : Nat) (us : List Upd) (t : State) : State := forAll us (State.applyDeferred lid) t

/-- The state that the buffer is applied to: the buffer is empty. -/
def State.deferredTaken (lid : Nat) (s : State) : State := s.modCore lid fun c => { c with deferred := [] }

theorem drainDeferred_eq (lid : Nat) (s : State) :
    s.drainDeferred lid = (s.deferredTaken lid).applyAllDeferred lid (s.core lid).deferred := rfl

theorem memSame_deferredTaken (lid : Nat) (s : State) : MemSame lid s (s.deferredTaken lid) :=
  memSame_modCore (fun c m => by cases m <;> rfl) s

theorem applyAllDeferred_cons (lid : Nat) (u : Upd) (us : List Upd) (t : State) :
    t.applyAllDeferred lid (u :: us) = (t.applyDeferred lid u).applyAllDeferred lid us := rfl

theorem applyAllDeferred_frame (h : CleanCore t lid) (us : List Upd) :
    CoreStep lid (deferredFields lid) t (t.applyAllDeferred lid us) ∧
      (t.applyAllDeferred lid us).core lid = { t.core lid with lace := ((t.applyAllDeferred lid us).core lid).lace } := by
  induction us generalizing t with
  | nil => exact ⟨.refl .., rfl⟩
  | cons u us ih =>
    rw [applyAllDeferred_cons]
    obtain ⟨hstep, hown⟩ := ih (h.applyDeferred u)
    exact ⟨(coreStep_applyDeferred h u).trans hstep, by rw [hown, own_applyDeferred h]⟩

/-- What applying the buffer does to the state as a whole: the buffer is emptied, only lace memory and the fields of
updates and conflicts change. -/
theorem drainDeferred_frame (h : CleanCore s lid) : CoreStep lid (deferredFields lid) s (s.drainDeferred lid) ∧
    (s.drainDeferred lid).core lid =
      { s.core lid with lace := ((s.drainDeferred lid).core lid).lace, deferred := [] } := by
  obtain ⟨hstep, hown⟩ := applyAllDeferred_frame ((memSame_deferredTaken lid s).clean h) (s.core lid).deferred
  rw [drainDeferred_eq]
  refine ⟨(coreStep_modCore ..).trans hstep, hown.trans ?_⟩
  rw [State.deferredTaken, core_modCore_same]

/-- Each lace word takes the updates to it in order, with saturation. -/
theorem lace_applyAllDeferred (h : CleanCore t lid) (us : List Upd) (w : Nat) :
    ((t.applyAllDeferred lid us).lace lid w).toInt =
      us.foldl (fun v u => if t.fieldAt lid u.r u.tgt = w then satS 32 (v + u.w) else v) (t.lace lid w).toInt := by
  induction us generalizing t with
  | nil => rfl
  | cons u us ih =>
    rw [applyAllDeferred_cons, ih (h.applyDeferred u), lace_applyDeferred h]
    simp only [fieldAt_applyDeferred h, List.foldl_cons]

theorem cConflicts_applyAllDeferred (h : CleanCore t lid) (us : List Upd) :
    (t.applyAllDeferred lid us).getF (cConflicts lid) = min (2 ^ 32 - 1) (t.getF (cConflicts lid) + us.length) := by
  induction us generalizing t with
  | nil =>
    have hlt : t.getF (cConflicts lid) < 2 ^ 32 := getF_lt _
    exact (Nat.min_eq_right (Nat.le_sub_one_of_lt hlt)).symm
  | cons u us ih =>
    rw [applyAllDeferred_cons, ih (h.applyDeferred u), cConflicts_applyDeferred h, List.length_cons]
    omega

/-- A field that every such update leaves at 1 reads 1 after a run of them. -/
theorem getF_applyAllDeferred_eq_one {f : Fld} (hf : ∀ u (t : State), (t.applyDeferred lid u).getF f = 1) {us : List Upd}
    (h : us ≠ [] ∨ t.getF f = 1) : (t.applyAllDeferred lid us).getF f = 1 := by
  induction us generalizing t with
  | nil => exact h.resolve_left fun hne => hne rfl
  | cons u us ih => exact ih (.inr (hf u t))

/-! ### The phase retires (R101) -/

theorem presentArrivals_of_nil (h : (t.stop lid).arrivals = []) : t.presentArrivals lid = t := by
  rw [State.presentArrivals, h]
  rfl

theorem retirePhase_of_idle (h : StopIdle t lid) :
    t.retirePhase lid = (t.modCore lid fun c => { c with phase := none }).incF (qOps lid .s) 1 := by
  obtain ⟨-, hout, harr⟩ := h
  rw [State.retirePhase, flush_of_outbound_nil hout]
  simp only [hout, List.isEmpty_nil, if_true]
  exact presentArrivals_of_nil harr

/-- The fields of updates and conflicts lie below the queues' registers. -/
theorem deferredFields_apart_qOps (lid : Nat) : ∀ f ∈ deferredFields lid, f.Apart (qOps lid .s) := by
  simp [deferredFields, Fld.Apart, Fld.base, cUpdates, cFieldSat, cSatMask, cConflicts, cConflict, cConflictMask, cUndeclared, qOps,
    Queue.num, corePage]
  omega

/-- The end of a phase whose last batch has issued, at a stop with nothing to send: the buffer is applied, the releases wait
for it no more, the phase retires (R93, R101, R258). -/
theorem deferredApplyOp_of_issued {p : Phase} (h : CleanCore s lid) (hidle : StopIdle s lid) (hrun : s.coreRuns lid = true)
    (hp : (s.core lid).phase = some p) (hi : p.issued = true) : deferredApplyOp lid s =
      (((s.drainDeferred lid).updatesApplied lid).modCore lid fun c => { c with phase := none }).incF (qOps lid .s) 1 := by
  simp only [deferredApplyOp, hp, hrun, hi, Bool.and_self, if_true]
  refine retirePhase_of_idle ?_
  have hstop : (s.drainDeferred lid).stop lid = s.stop lid := (drainDeferred_frame h).1.stop_eq lid
  simpa [StopIdle, State.updatesApplied, hstop] using hidle

end Deferred

theorem deferredUpdatesApplied : DeferredUpdatesAppliedRule := by
  unfold DeferredUpdatesAppliedRule
  intro s lid p hlid hrun hp hclean hidle
  refine ⟨fun hi => ?_, fun hi => ?_⟩
  · have hs : deferredApplyOp lid s = s := by simp [deferredApplyOp, hp, hi]
    exact (guarded_of_lid hlid).trans (congrArg _ hs)
  have hmem := memSame_deferredTaken lid s
  have hclean' := hmem.clean hclean
  obtain ⟨hstep, hown⟩ := drainDeferred_frame hclean
  have ht := deferredApplyOp_of_issued hclean hidle hrun hp hi
  have hlace := lace_applyAllDeferred hclean' (s.core lid).deferred
  have hcount := cConflicts_applyAllDeferred hclean' (s.core lid).deferred
  have hundeclared := fun hne => getF_applyAllDeferred_eq_one (cUndeclared_applyDeferred lid)
    (us := (s.core lid).deferred) (t := s.deferredTaken lid) (.inl hne)
  have hconflict := fun hne => getF_applyAllDeferred_eq_one (cConflict_applyDeferred lid)
    (us := (s.core lid).deferred) (t := s.deferredTaken lid) (.inl hne)
  rw [← drainDeferred_eq] at hlace hcount hundeclared hconflict
  generalize s.drainDeferred lid = d at *
  have hcore : (deferredApplyOp lid s).core lid =
      { s.core lid with lace := (d.core lid).lace, deferred := [], phase := none } := by
    rw [ht, core_incF, core_modCore_same]
    show ({ d.core lid with phase := none } : Core) = _
    rw [hown]
  have hkeep : ∀ f ∈ deferredFields lid, (deferredApplyOp lid s).getF f = d.getF f := fun f hf => by
    rw [ht]
    exact getF_incF_apart _ _ _ (deferredFields_ok lid f hf) (qOps_ok ..) (deferredFields_apart_qOps lid f hf)
  refine ⟨deferredApplyOp lid s, guarded_of_lid hlid, by rw [hcore], by rw [hcore], fun w _ => ?_, by rw [hcore], by rw [hcore],
    ?_, ?_, fun hne => ⟨?_, ?_⟩, ?_, ?_⟩
  · have hl : (deferredApplyOp lid s).lace lid w = d.lace lid w :=
      MemSame.lace_eq (s := d) (fun m => by rw [hcore, hown]; cases m <;> rfl) w
    rw [hl, hlace, hmem.lace_eq]
    rfl
  · rw [ht, getF_incF_same _ _ (qOps_ok ..)]
    exact congrArg (satAdd 64 · 1) (hstep.2.2 _ (qOps_ok ..) fun g hg => (deferredFields_apart_qOps lid g hg).symm)
  · rw [hkeep _ (by simp [deferredFields]), hcount]
    rfl
  · rw [hkeep _ (by simp [deferredFields]), hundeclared hne]
  · rw [hkeep _ (by simp [deferredFields]), hconflict hne]
  · rw [ht]
    simp [State.updatesApplied]
  · rw [ht]
    exact ((hstep.mono fun f hf => List.mem_cons_of_mem _ hf).stopStep.trans (coreStopStep_modStop ..)).trans
      ((coreStep_modCore ..).trans (coreStep_incF lid _ (qOps_ok ..) (by simp))).stopStep

/-- Settles O21: one held notice through its window is one update (`applyMirror_single`); the deferral buffer by induction on
its updates. -/
theorem noticesAndDeferred : Obligations.NoticesAndDeferred := ⟨heldNoticesReleased, deferredUpdatesApplied⟩

end Sys2Proof.Machine
end

section
/-!
PROOFS. Scope: SUA.BETA and the anneal curve (R101, R109, R110).
-/
namespace Sys2Proof.Machine

/-! ### The anneal curve (R110) -/

/-- The straight line between two breakpoints, truncated towards the earlier. -/
theorem betweenPoints_eq {p q : Nat × Nat} {x : Nat} (hp : p.1 ≤ x) (hq : x < q.1) : (betweenPoints p q x : Int) =
    p.2 + Int.tdiv ((q.2 - p.2 : Int) * (x - p.1)) (q.1 - p.1) := by
  have hx : ((x - p.1 : Nat) : Int) = x - p.1 := by omega
  have hd : ((q.1 - p.1 : Nat) : Int) = q.1 - p.1 := by omega
  unfold betweenPoints
  split
  case isTrue hle =>
    have hr : ((q.2 - p.2 : Nat) : Int) = q.2 - p.2 := by omega
    rw [← hx, ← hd, ← hr]
    push_cast
    rw [Int.tdiv_eq_ediv_of_nonneg (by positivity)]
  case isFalse hgt =>
    have hr : (q.2 - p.2 : Int) = -((p.2 - q.2 : Nat) : Int) := by omega
    have hle : (p.2 - q.2) * (x - p.1) / (q.1 - p.1) ≤ p.2 := by
      refine (Nat.div_le_of_le_mul ?_).trans (Nat.sub_le p.2 q.2)
      rw [Nat.mul_comm]
      exact Nat.mul_le_mul_right _ (by omega)
    rw [← hx, ← hd, hr, Int.neg_mul, Int.neg_tdiv, Int.tdiv_eq_ediv_of_nonneg (by positivity)]
    rw [Int.natCast_sub hle]
    push_cast
    ring

theorem betweenPoints_first {p q : Nat × Nat} : betweenPoints p q p.1 = p.2 := by
  simp [betweenPoints]

/-- Between two values the line takes no greater one. -/
theorem betweenPoints_le {p q : Nat × Nat} {x : Nat} (hq : x < q.1) : betweenPoints p q x ≤ max p.2 q.2 := by
  unfold betweenPoints
  split
  case isTrue hle =>
    have hdiv : (q.2 - p.2) * (x - p.1) / (q.1 - p.1) ≤ q.2 - p.2 := by
      refine Nat.div_le_of_le_mul ?_
      rw [Nat.mul_comm]
      exact Nat.mul_le_mul_right _ (by omega)
    omega
  case isFalse => exact (Nat.sub_le _ _).trans (le_max_left _ _)

theorem curveAt_of_le {p : Nat × Nat} {l : List (Nat × Nat)} {x : Nat} (h : x ≤ p.1) : curveAt (p :: l) x = p.2 := by
  cases l with
  | nil => rfl
  | cons q l => rw [curveAt, if_pos h]

/-- The curve takes no greater value than its breakpoints. -/
theorem curveAt_le {l : List (Nat × Nat)} {x b : Nat} (h : ∀ p ∈ l, p.2 ≤ b) : curveAt l x ≤ b := by
  induction l with
  | nil => exact Nat.zero_le b
  | cons p l ih =>
    cases l with
    | nil => exact h p (by simp)
    | cons q l =>
      rw [curveAt]
      split
      · exact h p (by simp)
      · split
        case isTrue hq => exact (betweenPoints_le hq).trans (max_le (h p (by simp)) (h q (by simp)))
        case isFalse => exact ih fun r hr => h r (List.mem_cons_of_mem _ hr)

section Curve

variable {p : Nat → Nat × Nat} {n k x : Nat}

theorem sweepsRise_range' (a : Nat) (h : ∀ j, a ≤ j → j + 1 < a + n → (p j).1 < (p (j + 1)).1) :
    sweepsRise ((List.range' a n).map p) = true := by
  induction n generalizing a with
  | zero => rfl
  | succ n ih =>
    cases n with
    | zero => rfl
    | succ n =>
      have htail := ih (a + 1) fun j hj hn => h j (by omega) (by omega)
      simp only [List.range'_succ, List.map_cons, sweepsRise, Bool.and_eq_true, decide_eq_true_eq] at htail ⊢
      exact ⟨h a (Nat.le_refl a) (by omega), htail⟩

/-- From a breakpoint on whose sweep has been reached, the curve is that of the breakpoints from it on. -/
theorem curveAt_from (h : ∀ j, j + 1 < n → (p j).1 < (p (j + 1)).1) (hk : k < n) (hx : (p k).1 ≤ x) :
    curveAt ((List.range n).map p) x = curveAt ((List.range' k (n - k)).map p) x := by
  induction k with
  | zero => rw [List.range_eq_range', Nat.sub_zero]
  | succ k ih =>
    have hrise := h k hk
    obtain ⟨m, hm⟩ : ∃ m, n - k = m + 2 := ⟨n - k - 2, by omega⟩
    rw [ih (by omega) (by omega), hm, show n - (k + 1) = m + 1 by omega]
    simp only [List.range'_succ, List.map_cons]
    rw [curveAt, if_neg (by omega), if_neg (by omega)]

theorem curveAt_first (hn : 0 < n) (hx : x ≤ (p 0).1) : curveAt ((List.range n).map p) x = (p 0).2 := by
  obtain ⟨m, rfl⟩ : ∃ m, n = m + 1 := ⟨n - 1, by omega⟩
  rw [List.range_succ_eq_map, List.map_cons, curveAt_of_le hx]

theorem curveAt_last (h : ∀ j, j + 1 < n → (p j).1 < (p (j + 1)).1) (hn : 0 < n) (hx : (p (n - 1)).1 ≤ x) :
    curveAt ((List.range n).map p) x = (p (n - 1)).2 := by
  rw [curveAt_from h (by omega) hx, show n - (n - 1) = 1 by omega]
  rfl

theorem curveAt_between (h : ∀ j, j + 1 < n → (p j).1 < (p (j + 1)).1) (hk : k + 1 < n) (hlo : (p k).1 ≤ x)
    (hhi : x < (p (k + 1)).1) : curveAt ((List.range n).map p) x = betweenPoints (p k) (p (k + 1)) x := by
  obtain ⟨m, hm⟩ : ∃ m, n - k = m + 2 := ⟨n - k - 2, by omega⟩
  rw [curveAt_from h (by omega) hlo, hm]
  simp only [List.range'_succ, List.map_cons]
  rw [curveAt]
  by_cases hle : x ≤ (p k).1
  · rw [if_pos hle, Nat.le_antisymm hle hlo, betweenPoints_first]
  · rw [if_neg hle, if_pos hhi]

end Curve

/-! ### Writing β (R101) -/

section Beta

variable {s t : State} {lid : Nat} {l : List Fld} {q : Queue}

/-- The β registers of a core (R100). -/
def betaFields (lid : Nat) : List Fld := (List.range 16).map (cBeta lid)

theorem cBeta_ok (lid r : Nat) : (cBeta lid r).Ok := by simp [Fld.Ok, cBeta]

theorem cBeta_apart {r r' : Nat} (lid : Nat) (h : r ≠ r') : (cBeta lid r).Apart (cBeta lid r') := by
  simp only [Fld.Apart, Fld.base, cBeta, corePage]
  omega

theorem mem_maskReplicas {m r : Nat} : r ∈ maskReplicas m ↔ r < 16 ∧ m.testBit r = true := by
  simp [maskReplicas]

theorem setBetas_regsOnly (lid mask v : Nat) (s : State) : RegsOnly (betaFields lid) s (s.setBetas lid mask v) := by
  have hlist : ∀ (rs : List Nat) (t : State), (∀ r ∈ rs, r < 16) →
      RegsOnly (betaFields lid) t (forAll rs (fun r t => t.setF (cBeta lid r) v) t) := by
    intro rs
    induction rs with
    | nil => exact fun t _ => .refl _ t
    | cons r rs ih =>
      intro t hlt
      have hmem : cBeta lid r ∈ betaFields lid := List.mem_map_of_mem (List.mem_range.2 (hlt r (List.mem_cons_self ..)))
      exact (regsOnly_setF _ v (cBeta_ok lid r) hmem).trans (ih _ fun r' hr' => hlt r' (List.mem_cons_of_mem _ hr'))
  exact hlist _ s fun r hr => (mem_maskReplicas.1 hr).1

theorem cBeta_setBetas {v : Nat} (hv : v < 2 ^ 32) (lid mask : Nat) {r : Nat} (hr : r < 16) (s : State) :
    (s.setBetas lid mask v).getF (cBeta lid r) = if mask.testBit r then v else s.getF (cBeta lid r) := by
  have hlist : ∀ (rs : List Nat) (t : State), (forAll rs (fun r t => t.setF (cBeta lid r) v) t).getF (cBeta lid r) =
      if r ∈ rs then v else t.getF (cBeta lid r) := by
    intro rs
    induction rs with
    | nil => exact fun t => rfl
    | cons r' rs ih =>
      intro t
      rw [forAll_cons, ih]
      by_cases hm : r ∈ rs
      · simp [hm]
      · by_cases he : r = r'
        · subst he
          rw [if_neg hm, getF_setF_same _ _ (cBeta_ok lid r), if_pos (List.mem_cons_self ..)]
          exact Nat.mod_eq_of_lt hv
        · rw [if_neg hm, getF_setF_apart _ _ _ (cBeta_ok lid r) (cBeta_ok lid r') (cBeta_apart lid he),
            if_neg (by simp [hm, he])]
  rw [State.setBetas, hlist]
  simp only [mem_maskReplicas, hr, true_and]

/-! ### An op that retires after its work (R213) -/

/-- An op that leaves its queue's PC and count of ops to retirement retires. -/
theorem retired_of_onlyFields (h : OnlyFields l s t) (hpc : ∀ g ∈ l, (qPc lid q).Apart g) (hops : ∀ g ∈ l, (qOps lid q).Apart g)
    (hin : s.getF (qPc lid q) < 4095) : Retired lid q s (t.retire lid q) := by
  have hp := h _ (qPc_ok lid q) hpc
  have ho := h _ (qOps_ok lid q) hops
  obtain ⟨hpc', hops'⟩ := retire_retired (lid := lid) (q := q) (hp.trans_lt hin)
  exact ⟨hpc'.trans (by rw [hp]), hops'.trans (by rw [ho])⟩

theorem betaFields_apart (lid : Nat) : ∀ g ∈ betaFields lid, (qPc lid .s).Apart g ∧ (qOps lid .s).Apart g := by
  intro g hg
  obtain ⟨r, hr, rfl⟩ := List.mem_map.1 hg
  have := List.mem_range.1 hr
  simp only [Fld.Apart, Fld.base, qPc, qOps, cBeta, Queue.num, corePage]
  omega

/-- Writing β and retiring: the replicas of the mask take the value, the other registers stay. -/
theorem setBetas_retire {v : Nat} (hv : v < 2 ^ 32) (mask : Nat) (hin : s.getF (qPc lid .s) < 4095) :
    Retired lid .s s ((s.setBetas lid mask v).retire lid .s) ∧
      (∀ r, r < 16 → ((s.setBetas lid mask v).retire lid .s).getF (cBeta lid r) =
        if mask.testBit r then v else s.getF (cBeta lid r)) ∧
      RegsOnly ([qPc lid .s, qOps lid .s] ++ (List.range 16).map (cBeta lid)) s ((s.setBetas lid mask v).retire lid .s) := by
  have hset := setBetas_regsOnly lid mask v s
  have hpc : (s.setBetas lid mask v).getF (qPc lid .s) = s.getF (qPc lid .s) :=
    hset.2 _ (qPc_ok ..) fun g hg => (betaFields_apart lid g hg).1
  have hret := retire_regsOnly (lid := lid) (q := .s) (hpc.trans_lt hin)
  refine ⟨retired_of_onlyFields hset.2 (fun g hg => (betaFields_apart lid g hg).1) (fun g hg => (betaFields_apart lid g hg).2) hin,
    fun r hr => ?_, (hset.mono fun f hf => List.mem_append_right _ hf).trans (hret.mono fun f hf => List.mem_append_left _ hf)⟩
  have hmem : cBeta lid r ∈ betaFields lid := List.mem_map_of_mem (List.mem_range.2 hr)
  rw [hret.2 _ (cBeta_ok lid r), cBeta_setBetas hv lid mask hr]
  simpa using ⟨(betaFields_apart lid _ hmem).1.symm, (betaFields_apart lid _ hmem).2.symm⟩

theorem leNat_lt (bs : List Byte) : leNat bs < 256 ^ bs.length := by
  induction bs with
  | nil => exact Nat.one_pos
  | cons b bs ih =>
    have := b.isLt
    rw [leNat, List.length_cons, pow_succ]
    omega

theorem rdNat_lt (s : State) (lid : Nat) (m : CoreMem) (a n : Nat) : s.rdNat lid m a n < 256 ^ n := by
  have hlen : (s.rd lid m a n).length = n := by simp [State.rd, Mem.load]
  have hlt := leNat_lt (s.rd lid m a n)
  rwa [hlen] at hlt

theorem breakpoint_snd_lt (s : State) (lid a k : Nat) : (s.breakpoint lid a k).2 < 2 ^ 32 := rdNat_lt ..

/-- SUA.BETA with CURVE 1 over breakpoints of rising sweeps (R109, R110). -/
theorem betaCurve_eq (h : CleanCore s lid) {op : OpWord} (ha : bitsOf op 48 19 % 64 = 0) {n : Nat}
    (hn : n = s.rdNat lid .tile (bitsOf op 48 19) 4) (hpos : 0 < n) (hmax : n ≤ 256)
    (hend : bitsOf op 48 19 + 8 + 8 * n ≤ 0x80000)
    (hrise : ∀ j, j + 1 < n → (s.breakpoint lid (bitsOf op 48 19) j).1 < (s.breakpoint lid (bitsOf op 48 19) (j + 1)).1) :
    betaCurve lid op s = (s.setBetas lid (bitsOf op 32 16)
      (curveAt ((List.range n).map (s.breakpoint lid (bitsOf op 48 19))) (s.getF (cCurve lid)))).retire lid .s := by
  have hrises : sweepsRise ((List.range n).map (s.breakpoint lid (bitsOf op 48 19))) = true := by
    rw [List.range_eq_range']
    exact sweepsRise_range' 0 fun j _ hj => hrise j (by omega)
  simp only [betaCurve, ← hn]
  rw [if_neg (by omega), if_neg (by omega), if_neg (by omega), h.noteRead_eq, hrises, if_neg (by simp)]

end Beta

theorem betaSet : BetaSetRule := by
  unfold BetaSetRule
  intro s lid op hhead hop hres hphase
  have hbeta : suaBetaOp lid s = if !s.maskOk lid (bitsOf op 32 16) then s.opFault lid .s fSuaOperand
      else if bitOf op 112 then betaCurve lid op s
      else (s.setBetas lid (bitsOf op 32 16) (bitsOf op 0 32)).retire lid .s := by
    rw [suaBetaOp, ← hop, suaOp_of_atHead hhead hphase hres]
  refine ⟨fun hmask => ⟨suaBetaOp lid s, guarded_of_lid hhead.core, ?_⟩,
    fun hmask hcurve => ⟨suaBetaOp lid s, guarded_of_lid hhead.core, ?_⟩,
    fun a n k x hmask hcurve ha hal hn hpos hmax hend hclean hrise hx hk => ⟨suaBetaOp lid s, guarded_of_lid hhead.core, ?_⟩⟩
  · rw [hbeta, hmask]
    exact opFault_halted lid .s (by decide) s
  · rw [hbeta, hmask, hcurve]
    exact setBetas_retire (bitsOf_lt op 0 32) _ hhead.inside
  · subst ha hx
    have hlt : curveAt ((List.range n).map (s.breakpoint lid (bitsOf op 48 19))) (s.getF (cCurve lid)) < 2 ^ 32 := by
      refine Nat.lt_of_le_of_lt (curveAt_le (b := 2 ^ 32 - 1) fun r hr => ?_) (by decide)
      obtain ⟨j, -, rfl⟩ := List.mem_map.1 hr
      exact Nat.le_sub_one_of_lt (breakpoint_snd_lt ..)
    rw [hbeta, hmask, hcurve]
    simp only [Bool.not_true, Bool.false_eq_true, if_false, if_true]
    rw [betaCurve_eq hclean hal hn hpos hmax hend hrise]
    obtain ⟨hret, hval, hregs⟩ := setBetas_retire hlt (bitsOf op 32 16) hhead.inside
    refine ⟨hret, fun r hr hbit => ?_, fun r hr hbit => ?_, hregs⟩
    · rw [hval r hr, hbit]; rfl
    · rw [hval r hr, hbit, if_pos rfl]
      refine ⟨curveAt_first hpos, curveAt_last hrise hpos, fun hk1 hlo hhi => ?_⟩
      rw [curveAt_between hrise hk1 hlo hhi, betweenPoints_eq hlo hhi]

end Sys2Proof.Machine
end

section
/-!
PROOFS. Scope: SUA.CLAMP of one record (R82, R83).
-/
namespace Sys2Proof.Machine

section Clamp

variable {s t u : State} {lid i r : Nat} {v : Bool}

theorem walkRes_singleton {α : Type} (f : α → State → Res) (a : α) (s : State) : walkRes f [a] s = f a s := by
  rw [walkRes]
  obtain ⟨t, _ | c⟩ := f a s <;> rfl

/-- Work of a core that leaves the registers ends by retiring (R213). -/
theorem retire_after (h : CoreStep lid [] s t) (hin : s.getF (qPc lid .s) < 4095) :
    Retired lid .s s (t.retire lid .s) ∧ CoreStep lid [qPc lid .s, qOps lid .s] s (t.retire lid .s) ∧
      (t.retire lid .s).core lid = t.core lid ∧ SameLayout lid t (t.retire lid .s) := by
  have hpc : t.getF (qPc lid .s) = s.getF (qPc lid .s) := h.2.2 _ (qPc_ok ..) (by simp)
  have hret := retire_regsOnly (lid := lid) (q := .s) (hpc.trans_lt hin)
  have hlay : SameLayout lid t (t.retire lid .s) := by
    refine hret.2.regsBelow ?_
    simp [Fld.base, qPc, qOps, Queue.num, corePage]
    omega
  exact ⟨retired_of_onlyFields h.2.2 (by simp) (by simp) hin, (h.mono (by simp)).trans (hret.coreStep lid), hret.core_eq lid,
    hlay⟩

/-! ### The clamp plane (R43) -/

theorem putClamp_of_clean (h : CleanCore s lid) (w j : Nat) (b : Bool) : s.putClamp lid w j b = s.putLaceBit lid w j b := by
  simp [State.putClamp, h.noteLace_eq, h.laceBad_eq_false]

/-- One clamp record in a clean core: an index that the core has not, a release, or a clamp of every replica of the mask. -/
theorem clampRecord_of_clean (h : CleanCore s lid) {a : Nat} {rec : W32} (hrec : rec = BitVec.ofNat 32 (s.rdNat lid .tile a 4))
    (mask : Nat) : clampRecord lid mask a s =
      if s.units lid ≤ bitsOf rec 17 15 then (s, some fSuaClampIndex)
      else if bitOf rec 15 then
        (s.putLaceBit lid (s.clampAt lid (bitsOf rec 17 15 / 32)) (bitsOf rec 17 15 % 32) false, none)
      else walkRes (clampIn lid (bitsOf rec 17 15) (bitOf rec 16)) (maskReplicas mask)
        (s.putLaceBit lid (s.clampAt lid (bitsOf rec 17 15 / 32)) (bitsOf rec 17 15 % 32) true) := by
  simp only [clampRecord, ← hrec, h.noteRead_eq, putClamp_of_clean h]

/-- A clamp list of one record is that record. -/
theorem suaClampOp_eq {op : OpWord} (hhead : AtHead s lid .s op) (hop : opOpcode op = 0x42)
    (hres : opReserved [(0, 51)] op = false) (hphase : (s.core lid).phase = none) (hone : bitsOf op 19 16 = 1)
    (hal : bitsOf op 0 19 % 4 = 0) (hend : bitsOf op 0 19 + 4 ≤ 0x80000) (hmask : s.maskOk lid (bitsOf op 35 16) = true) :
    suaClampOp lid s = State.suaEnd lid (clampRecord lid (bitsOf op 35 16) (bitsOf op 0 19) s) := by
  have hok : ¬ (bitsOf op 19 16 = 0 ∨ bitsOf op 0 19 % 4 ≠ 0 ∨ 0x80000 < bitsOf op 0 19 + 4 * bitsOf op 19 16 ∨
      (!s.maskOk lid (bitsOf op 35 16)) = true) := by
    rw [hmask, hone]
    simp only [Bool.not_true, Bool.false_eq_true, or_false]
    omega
  rw [suaClampOp, ← hop, suaOp_of_atHead hhead hphase hres]
  dsimp only
  rw [if_neg hok, hone, show List.range 1 = [0] from rfl, walkRes_singleton, Nat.mul_zero, Nat.add_zero]

/-! ### A clamped unit's states (R83) -/

/-- In a replica a clamped unit takes the value; with an empty list and nothing published that is all. -/
theorem clampIn_of_empty (h : CleanCore u lid) (hempty : bitOf (u.lace lid (u.descAt lid i)) 13 = true)
    (hpub : bitOf (u.lace lid (u.descAt lid i)) 12 = false) (hdesc : u.descAt lid i ≠ u.stateAt lid r (i / 32)) :
    clampIn lid i v r u = (if u.unitState lid r i = v then u else u.putState lid r i v, none) := by
  have hput := laceStep_putState h r i v
  have hd : (u.putState lid r i v).lace lid ((u.putState lid r i v).descAt lid i) = u.lace lid (u.descAt lid i) := by
    rw [hput.layout.descAt_eq, hput.lace_eq hdesc]
  have hflip := flip_of_empty (hput.clean h) (hd ▸ hempty) (hd ▸ hpub) r v none []
  simp only [clampIn, h.laceBad_eq_false, h.noteLace_eq, Bool.or_false, decide_eq_true_eq, hflip]
  split <;> rfl

/-- Over a list of replicas, which may share a state plane, a clamped unit takes the value in each. -/
theorem walk_clampIn (h : CleanCore u lid) (hempty : bitOf (u.lace lid (u.descAt lid i)) 13 = true)
    (hpub : bitOf (u.lace lid (u.descAt lid i)) 12 = false) {rs : List Nat}
    (hdesc : ∀ r ∈ rs, u.descAt lid i ≠ u.stateAt lid r (i / 32)) :
    ∃ t, walkRes (clampIn lid i v) rs u = (t, none) ∧
      LaceStep lid (fun w => ∃ r ∈ rs, w = u.stateAt lid r (i / 32)) u t ∧
      ∀ r, r ∈ rs ∨ u.unitState lid r i = v → t.unitState lid r i = v := by
  induction rs generalizing u with
  | nil => exact ⟨u, rfl, .refl .., fun r hr => hr.resolve_left (by simp)⟩
  | cons r rs ih =>
    have hr : u.descAt lid i ≠ u.stateAt lid r (i / 32) := hdesc r (List.mem_cons_self ..)
    have hput := laceStep_putState h r i v
    have hhead : LaceStep lid (· = u.stateAt lid r (i / 32)) u (if u.unitState lid r i = v then u else u.putState lid r i v) := by
      split
      · exact .refl ..
      · exact hput
    have hval : ∀ r', r' = r ∨ u.unitState lid r' i = v →
        (if u.unitState lid r i = v then u else u.putState lid r i v).unitState lid r' i = v := by
      intro r' hr'
      split
      case isTrue hv => exact hr'.elim (fun e => e ▸ hv) id
      case isFalse =>
        rw [unitState_putState h]
        split
        · rfl
        case isFalse hne => exact hr'.resolve_left fun e => hne ⟨by rw [e], rfl⟩
    rw [walkRes_cons_of_none (clampIn_of_empty h hempty hpub hr)]
    generalize (if u.unitState lid r i = v then u else u.putState lid r i v) = x at hhead hval
    have hd : x.lace lid (x.descAt lid i) = u.lace lid (u.descAt lid i) := by
      rw [hhead.layout.descAt_eq, hhead.lace_eq hr]
    obtain ⟨t, hwalk, hstep, hall⟩ := ih (hhead.clean h) (hd ▸ hempty) (hd ▸ hpub) fun r' hr' => by
      rw [hhead.layout.descAt_eq, hhead.layout.stateAt_eq]
      exact hdesc r' (List.mem_cons_of_mem _ hr')
    refine ⟨t, hwalk, (hhead.mono ?_).trans (hstep.mono ?_), fun r' hr' => hall r' ?_⟩
    · rintro w rfl
      exact ⟨r, List.mem_cons_self .., rfl⟩
    · rintro w ⟨r', hr', rfl⟩
      exact ⟨r', List.mem_cons_of_mem _ hr', hhead.layout.stateAt_eq ..⟩
    · rcases hr' with hr' | hr'
      · exact (List.mem_cons.1 hr').symm.imp_right fun e => hval r' (.inl e)
      · exact .inr (hval r' (.inr hr'))

/-- A clamp of one unit: its bit is set, it takes the value in every replica of the list, and nothing else changes. -/
theorem clampSet_effect (h : CleanCore s lid) (hempty : bitOf (s.lace lid (s.descAt lid i)) 13 = true)
    (hpub : bitOf (s.lace lid (s.descAt lid i)) 12 = false) (hdesc : s.descAt lid i ≠ s.clampAt lid (i / 32)) {rs : List Nat}
    (hstates : ∀ r ∈ rs, s.stateAt lid r (i / 32) ≠ s.clampAt lid (i / 32) ∧ s.stateAt lid r (i / 32) ≠ s.descAt lid i) :
    ∃ t, walkRes (clampIn lid i v) rs (s.putLaceBit lid (s.clampAt lid (i / 32)) (i % 32) true) = (t, none) ∧
      LaceStep lid (fun w => w = s.clampAt lid (i / 32) ∨ ∃ r ∈ rs, w = s.stateAt lid r (i / 32)) s t ∧
      t.clampBit lid i = true ∧ ∀ r ∈ rs, t.unitState lid r i = v := by
  have hbit : i % 32 < 32 := Nat.mod_lt _ (by decide)
  have hput := laceStep_putLaceBit h (s.clampAt lid (i / 32)) hbit true
  have hset := bitOf_lace_putLaceBit h (s.clampAt lid (i / 32)) hbit true (s.clampAt lid (i / 32)) hbit
  rw [if_pos ⟨rfl, rfl⟩] at hset
  generalize s.putLaceBit lid (s.clampAt lid (i / 32)) (i % 32) true = u at hput hset ⊢
  have hd : u.lace lid (u.descAt lid i) = s.lace lid (s.descAt lid i) := by
    rw [hput.layout.descAt_eq, hput.lace_eq hdesc]
  have hstateAt := fun r => hput.layout.stateAt_eq r (i / 32)
  obtain ⟨t, hwalk, hstep, hall⟩ := walk_clampIn (v := v) (hput.clean h) (hd ▸ hempty) (hd ▸ hpub) (rs := rs) fun r hr => by
    rw [hput.layout.descAt_eq, hstateAt]
    exact (hstates r hr).2.symm
  simp only [hstateAt] at hstep
  have hkeep : ¬ ∃ r ∈ rs, s.clampAt lid (i / 32) = s.stateAt lid r (i / 32) :=
    fun ⟨r, hr, hw⟩ => (hstates r hr).1 hw.symm
  refine ⟨t, hwalk, (hput.mono fun _ => .inl).trans (hstep.mono fun _ => .inr), ?_, fun r hr => hall r (.inl hr)⟩
  rw [State.clampBit, SameLayout.clampAt_eq (hput.layout.trans hstep.layout), hstep.lace_eq hkeep, hset]

end Clamp

theorem clampRecords : ClampRecordRule := by
  unfold ClampRecordRule
  rintro s lid i op rec hhead hop hres hphase hone hal hend hmask hclean hout hrec rfl
  have hop' : suaClampOp lid s = _ := suaClampOp_eq hhead hop hres hphase hone hal hend hmask
  rw [clampRecord_of_clean hclean hrec] at hop'
  have hbit : bitsOf rec 17 15 % 32 < 32 := Nat.mod_lt _ (by decide)
  refine ⟨fun hout' => ⟨suaClampOp lid s, guarded_of_lid hhead.core, ?_⟩,
    fun hin hrel => ⟨suaClampOp lid s, guarded_of_lid hhead.core, ?_⟩,
    fun hin hset hempty hpub hdesc hstates => ⟨suaClampOp lid s, guarded_of_lid hhead.core, ?_⟩⟩
  · rw [hop', if_pos hout', suaEnd_some hout]
    exact opFault_halted lid .s (by decide) s
  · rw [hop', if_neg (Nat.not_le.2 hin), if_pos hrel]
    have hput := laceStep_putLaceBit hclean (s.clampAt lid (bitsOf rec 17 15 / 32)) hbit false
    rw [suaEnd_none (by rwa [hput.step.stop_eq])]
    obtain ⟨hret, hstep, hcore, hlay⟩ := retire_after hput.step hhead.inside
    refine ⟨hret, ?_, (bytesOutside_putLaceBit hclean _ _ false).congr hcore, hstep⟩
    rw [State.clampBit, SameLayout.clampAt_eq (hput.layout.trans hlay), lace_congr hcore, bitOf_lace_putLaceBit hclean _ hbit _ _ hbit, if_pos ⟨rfl, rfl⟩]
  · obtain ⟨t, hwalk, hclamp, hbit, hall⟩ := clampSet_effect (v := bitOf rec 16) (rs := maskReplicas (bitsOf op 35 16)) hclean
      hempty hpub hdesc fun r hr => hstates r (mem_maskReplicas.1 hr).2
    rw [hop', if_neg (Nat.not_le.2 hin), if_neg (by simp [hset]), hwalk, suaEnd_none (by rwa [hclamp.step.stop_eq])]
    obtain ⟨hret, hstep, hcore, hlay⟩ := retire_after hclamp.step hhead.inside
    have hmem : MemSame lid t (t.retire lid .s) := fun m => by rw [hcore]
    refine ⟨hret, (clampBit_eq hmem hlay _).trans hbit, fun r hr hb => ?_, fun m a ha => ?_, hstep⟩
    · exact (unitState_eq hmem hlay ..).trans (hall r (mem_maskReplicas.2 ⟨hr, hb⟩))
    · rw [hcore]
      refine hclamp.words m a (ha.imp_right ?_)
      rintro ⟨hc, hs⟩ (hw | ⟨r, hr, hw⟩)
      · exact hc hw
      · exact hs r (mem_maskReplicas.1 hr).1 (mem_maskReplicas.1 hr).2 hw

end Sys2Proof.Machine
end

section
/-!
PROOFS. Scope: SUA.SNAP and SUA.CLRCOUNT (R97, R99).
-/
namespace Sys2Proof.Machine

section Snapshot

variable {s t u : State} {lid r first dest k : Nat} {e : Bool}

/-! ### The bytes of a snapshot (R97) -/

/-- Tile bytes that a state-plane word fills in a snapshot. -/
def wordBytes (expanded : Bool) : Nat := if expanded then 32 else 4

theorem length_snapBytes (e : Bool) (v : W32) : (snapBytes e v).length = wordBytes e := by
  cases e
  · simp [snapBytes, wordBytes]
  · simp [snapBytes, wordBytes]

/-- Expanded, a byte holds one unit's state. -/
theorem snapBytes_expanded (v : W32) {j : Nat} (hj : j < 32) :
    (snapBytes true v).getD j 0 = BitVec.ofNat 8 (bitOf v j).toNat := by
  simp [snapBytes, hj, List.getD_eq_getElem?_getD]

/-- Packed, a byte holds eight units' states. -/
theorem snapBytes_packed (v : W32) {b j : Nat} (hj : j < 8) :
    bitOf ((snapBytes false v).getD b 0) j = bitOf v (8 * b + j) := by
  have hbit := testBit_leNat (natLe 4 v.toNat) (8 * b + j)
  rw [leNat_natLe, Nat.mod_eq_of_lt (by exact v.isLt), show (8 * b + j) / 8 = b by omega, show (8 * b + j) % 8 = j by omega] at hbit
  exact hbit.symm

/-- Of a core only tile memory changes, and no register. -/
structure TileStep (lid : Nat) (s t : State) : Prop where
  step : CoreStep lid [] s t
  others : ∀ m, m ≠ .tile → (t.core lid).mem m = (s.core lid).mem m
  clean : CleanCore s lid → CleanCore t lid

theorem TileStep.refl (lid : Nat) (s : State) : TileStep lid s s := ⟨.refl .., fun _ _ => rfl, id⟩

theorem TileStep.trans (h : TileStep lid s t) (k : TileStep lid t u) : TileStep lid s u :=
  ⟨h.step.trans k.step, fun m hm => (k.others m hm).trans (h.others m hm), k.clean ∘ h.clean⟩

theorem tileStep_wr (h : CleanCore s lid) (a : Nat) (bs : List Byte) : TileStep lid s (s.wr lid .tile a bs) := by
  refine ⟨?_, fun m hm => mem_wr_ne h hm bs, fun h => h.wr .tile a bs⟩
  rw [wr_of_clean (h .tile)]
  exact coreStep_modCore ..

theorem TileStep.lace_eq (h : TileStep lid s t) (w : Nat) : t.lace lid w = s.lace lid w :=
  lace_eq_of_bytes fun i _ => congrArg (fun m : Mem => m.byte (4 * w + i)) (h.others .lace (by decide))

theorem TileStep.stateAt_eq (h : TileStep lid s t) (r k : Nat) : t.stateAt lid r k = s.stateAt lid r k :=
  SameLayout.stateAt_eq (h.step.regsBelow _) r k

/-- The bytes of two state-plane words of a snapshot, in order. -/
def pairBytes (s : State) (lid r first : Nat) (e : Bool) (k : Nat) : List Byte :=
  snapBytes e (s.lace lid (s.stateAt lid r (first / 32 + 2 * k))) ++
    snapBytes e (s.lace lid (s.stateAt lid r (first / 32 + 2 * k + 1)))

theorem length_pairBytes : (pairBytes s lid r first e k).length = 2 * wordBytes e := by
  rw [pairBytes, List.length_append, length_snapBytes, length_snapBytes]
  omega

/-- Two bytes runs written one behind the other leave the bytes of the whole run. -/
theorem byte_wr_wr (h : CleanCore s lid) {a n j : Nat} {lo hi : List Byte} (hn : lo.length = n) (hj : j < (lo ++ hi).length) :
    (((s.wr lid .tile a lo).wr lid .tile (a + n) hi).core lid).tile.byte (a + j) = (lo ++ hi).getD j 0 := by
  have h' := h.wr .tile a lo
  rw [List.getD_eq_getElem _ _ hj]
  by_cases hlo : j < n
  · have hout := h'.bytesOutside_wr .tile (a + n) hi .tile (a + j) (.inr (.inl (by omega)))
    have hin := byte_wr_inside (m := .tile) (a := a) (i := j) (bs := lo) h (by omega)
    rw [List.getElem_append_left (by omega), ← hin]
    exact hout
  · obtain ⟨i, rfl⟩ : ∃ i, j = n + i := ⟨j - n, by omega⟩
    have hi' : i < hi.length := by rw [List.length_append] at hj; omega
    have hin := byte_wr_inside (m := .tile) (a := a + n) (i := i) (bs := hi) h' hi'
    rw [List.getElem_append_right (by omega)]
    simp only [hn, Nat.add_sub_cancel_left]
    rw [← hin, Nat.add_assoc]
    rfl

/-- In a clean core a pair of state-plane words is written to tile memory, in one run or two. -/
theorem snapPair_of_clean (h : CleanCore s lid) : snapPair lid r first dest e k s =
    if e then (s.wr lid .tile (dest + 64 * k) (snapBytes true (s.lace lid (s.stateAt lid r (first / 32 + 2 * k))))).wr lid .tile
      (dest + 64 * k + 32) (snapBytes true (s.lace lid (s.stateAt lid r (first / 32 + 2 * k + 1))))
    else s.wr lid .tile (dest + 8 * k) (pairBytes s lid r first false k) := by
  cases e <;> simp [snapPair, pairBytes, h.laceBad_eq_false, h.noteLace_eq]

/-- A pair of state-plane words fills its part of the snapshot and nothing else. -/
theorem snapPair_effect (h : CleanCore s lid) : TileStep lid s (snapPair lid r first dest e k s) ∧
    (∀ j, j < 2 * wordBytes e → ((snapPair lid r first dest e k s).core lid).tile.byte (dest + 2 * wordBytes e * k + j) =
      (pairBytes s lid r first e k).getD j 0) ∧
    ∀ a, a < dest + 2 * wordBytes e * k ∨ dest + 2 * wordBytes e * k + 2 * wordBytes e ≤ a →
      ((snapPair lid r first dest e k s).core lid).tile.byte a = (s.core lid).tile.byte a := by
  have hlen := length_pairBytes (s := s) (lid := lid) (r := r) (first := first) (e := e) (k := k)
  rw [snapPair_of_clean h]
  cases e
  · refine ⟨tileStep_wr h _ _, fun j hj => ?_, fun a ha => ?_⟩
    · have hin := byte_wr_inside (m := .tile) (a := dest + 8 * k) (i := j) h (hj.trans_eq hlen.symm)
      rw [List.getD_eq_getElem _ _ (hj.trans_eq hlen.symm), ← hin]
      rfl
    · refine h.bytesOutside_wr .tile (dest + 8 * k) _ .tile a (.inr ?_)
      rw [hlen]
      exact ha
  · have hhalf := length_snapBytes true
    refine ⟨(tileStep_wr h _ _).trans (tileStep_wr (h.wr _ _ _) _ _), fun j hj => ?_, fun a ha => ?_⟩
    · exact byte_wr_wr h (hhalf _) (hj.trans_eq hlen.symm)
    · have hlo := h.bytesOutside_wr .tile (dest + 64 * k) (snapBytes true (s.lace lid (s.stateAt lid r (first / 32 + 2 * k))))
        .tile a (.inr (by rw [hhalf]; simp only [wordBytes, if_true] at ha ⊢; omega))
      have hhi := (h.wr .tile (dest + 64 * k) (snapBytes true (s.lace lid (s.stateAt lid r (first / 32 + 2 * k))))).bytesOutside_wr
        .tile (dest + 64 * k + 32) (snapBytes true (s.lace lid (s.stateAt lid r (first / 32 + 2 * k + 1)))) .tile a
        (.inr (by rw [hhalf]; simp only [wordBytes, if_true] at ha ⊢; omega))
      exact hhi.trans hlo

/-! ### The whole snapshot -/

/-- The first `N` pairs of a snapshot. -/
def State.snapPairs (lid r first dest : Nat) (e : Bool) (N : Nat) (s : State) : State :=
  forAll (List.range N) (snapPair lid r first dest e) s

theorem snapPairs_succ (N : Nat) (s : State) : s.snapPairs lid r first dest e (N + 1) =
    snapPair lid r first dest e N (s.snapPairs lid r first dest e N) := by
  simp [State.snapPairs, forAll, List.range_succ]

theorem pairBytes_congr (h : TileStep lid s t) : pairBytes t lid r first e k = pairBytes s lid r first e k := by
  simp only [pairBytes, h.lace_eq, h.stateAt_eq]

/-- What the first `N` pairs leave: their parts of the snapshot filled, every other byte as it was. -/
theorem snapPairs_effect (h : CleanCore s lid) (N : Nat) : TileStep lid s (s.snapPairs lid r first dest e N) ∧
    (∀ k, k < N → ∀ j, j < 2 * wordBytes e →
      ((s.snapPairs lid r first dest e N).core lid).tile.byte (dest + 2 * wordBytes e * k + j) =
        (pairBytes s lid r first e k).getD j 0) ∧
    ∀ a, a < dest ∨ dest + 2 * wordBytes e * N ≤ a →
      ((s.snapPairs lid r first dest e N).core lid).tile.byte a = (s.core lid).tile.byte a := by
  induction N with
  | zero => exact ⟨.refl .., fun k hk => absurd hk (Nat.not_lt_zero k), fun _ _ => rfl⟩
  | succ N ih =>
    obtain ⟨hstep, hin, hout⟩ := ih
    rw [snapPairs_succ]
    obtain ⟨hpair, hpin, hpout⟩ := snapPair_effect (r := r) (first := first) (dest := dest) (k := N) (e := e) (hstep.clean h)
    have hmul : 2 * wordBytes e * (N + 1) = 2 * wordBytes e * N + 2 * wordBytes e := Nat.mul_succ ..
    refine ⟨hstep.trans hpair, fun k hk j hj => ?_, fun a ha => ?_⟩
    · rcases Nat.lt_succ_iff_lt_or_eq.1 hk with hlt | rfl
      · have hle : 2 * wordBytes e * k + 2 * wordBytes e ≤ 2 * wordBytes e * N := Nat.mul_le_mul_left (2 * wordBytes e) hlt
        rw [hpout _ (.inl (by omega)), hin k hlt j hj]
      · rw [hpin j hj, pairBytes_congr hstep]
    · rw [hpout a (by omega), hout a (by omega)]

/-- Word `q` of a snapshot holds word `first / 32 + q` of the state plane. -/
theorem snapPairs_word (h : CleanCore s lid) {N q j : Nat} (hq : q < 2 * N) (hj : j < wordBytes e) :
    ((s.snapPairs lid r first dest e N).core lid).tile.byte (dest + wordBytes e * q + j) =
      (snapBytes e (s.lace lid (s.stateAt lid r (first / 32 + q)))).getD j 0 := by
  obtain ⟨-, hin, -⟩ := snapPairs_effect (r := r) (first := first) (dest := dest) (e := e) h N
  obtain ⟨k, rfl | rfl⟩ : ∃ k, q = 2 * k ∨ q = 2 * k + 1 := ⟨q / 2, by omega⟩
  · have hbyte := hin k (by omega) j (by omega)
    rw [show dest + wordBytes e * (2 * k) + j = dest + 2 * wordBytes e * k + j by ring_nf, hbyte, pairBytes,
      List.getD_append _ _ _ _ (by rwa [length_snapBytes])]
  · have hbyte := hin k (by omega) (wordBytes e + j) (by omega)
    rw [show dest + wordBytes e * (2 * k + 1) + j = dest + 2 * wordBytes e * k + (wordBytes e + j) by ring_nf, hbyte, pairBytes,
      List.getD_append_right _ _ _ _ (by rw [length_snapBytes]; omega), length_snapBytes, Nat.add_sub_cancel_left, Nat.add_assoc]

/-- Expanded, each unit of a snapshot has a byte (R97). -/
theorem snapPairs_expanded (h : CleanCore s lid) {N i : Nat} (hi : i < 64 * N) (hfirst : first % 64 = 0) :
    ((s.snapPairs lid r first dest true N).core lid).tile.byte (dest + i) = BitVec.ofNat 8 (s.unitState lid r (first + i)).toNat := by
  have hword := snapPairs_word (r := r) (first := first) (dest := dest) (e := true) h (N := N) (q := i / 32) (j := i % 32)
    (by omega) (Nat.mod_lt _ (by decide))
  rw [snapBytes_expanded _ (Nat.mod_lt _ (by decide)), show first / 32 + i / 32 = (first + i) / 32 by omega,
    show i % 32 = (first + i) % 32 by omega] at hword
  rw [State.unitState, ← hword]
  congr 1
  simp only [wordBytes, if_true]
  omega

/-- Packed, each unit of a snapshot has a bit (R97). -/
theorem snapPairs_packed (h : CleanCore s lid) {N i : Nat} (hi : i < 64 * N) (hfirst : first % 64 = 0) :
    bitOf (((s.snapPairs lid r first dest false N).core lid).tile.byte (dest + i / 8)) (i % 8) = s.unitState lid r (first + i) := by
  have hword := snapPairs_word (r := r) (first := first) (dest := dest) (e := false) h (N := N) (q := i / 32) (j := i / 8 % 4)
    (by omega) (Nat.mod_lt _ (by decide))
  rw [show first / 32 + i / 32 = (first + i) / 32 by omega] at hword
  have hbit := snapBytes_packed (s.lace lid (s.stateAt lid r ((first + i) / 32))) (b := i / 8 % 4) (j := i % 8)
    (Nat.mod_lt _ (by decide))
  rw [← hword, show 8 * (i / 8 % 4) + i % 8 = (first + i) % 32 by omega] at hbit
  rw [State.unitState, ← hbit]
  congr 2
  simp only [wordBytes, Bool.false_eq_true, if_false]
  omega

/-! ### On-counts (R46, R99) -/

theorem wordsOf_lace (w : Nat) : wordsOf 4 (4 * w) 4 = [w] := by
  simp [wordsOf, rangeFrom, show (4 * w + 3) / 4 + 1 - w = 1 by omega, show 4 * w / 4 = w by omega]

/-- A full write of a lace word meets no word that it covers in part, whatever the memory's errors (R352). -/
theorem setLace_full (lid w : Nat) (v : W32) (s : State) : s.setLace lid w v =
    s.modCore lid fun c => c.setMem .lace ((c.mem .lace).write 4 (4 * w) (natLe 4 v.toNat)) := by
  have hpartials : ∀ p : Option WordErr → Bool, (s.core lid).lace.partials 4 (4 * w) 4 p = [] := fun p => by
    simp [Mem.partials, wordsOf_lace, Nat.mul_comm w 4, show (w + 1) * 4 = 4 * w + 4 by omega]
  have hlen : (natLe 4 v.toNat).length = 4 := length_natLe ..
  unfold State.setLace State.wr
  simp only [hlen, cmWb, Core.mem, hpartials, List.isEmpty_nil, if_true]
  rfl

/-- A full write of a word leaves it a code word (R352). -/
theorem Mem.write_full (m : Mem) (w : Nat) {bs : List Byte} (hb : bs.length = 4) :
    m.write 4 (4 * w) bs = (m.store (4 * w) bs).setSyn w 0 := by
  have hsyn : synAfterWrite 4 (4 * w) 4 w (m.syn w) = 0 := if_pos ⟨by omega, by omega⟩
  simp only [Mem.write, hb, wordsOf_lace, forAll, List.foldl_cons, List.foldl_nil, hsyn]

theorem lace_setLace (lid w : Nat) (v : W32) (s : State) : ((s.setLace lid w v).core lid).lace =
    ((s.core lid).lace.store (4 * w) (natLe 4 v.toNat)).setSyn w 0 := by
  rw [setLace_full, core_modCore_same]
  exact Mem.write_full _ w (length_natLe ..)

theorem laceStep_setLace_full (lid w : Nat) (v : W32) (s : State) : LaceStep lid (· = w) s (s.setLace lid w v) := by
  refine ⟨?_, ?_, fun h => h.setLace w v, fun m a ha => ?_⟩
  · rw [setLace_full]; exact coreStep_modCore ..
  · rw [setLace_full, core_modCore_same]; rfl
  · by_cases hm : m = .lace
    · subst hm
      have hw : ¬ a / 4 = w := ha.resolve_left fun hne => hne rfl
      show ((s.setLace lid w v).core lid).lace.byte a = _
      rw [lace_setLace]
      exact Mem.byte_store_outside _ (by rw [length_natLe]; omega)
    · rw [setLace_full, core_modCore_same, mem_setMem_ne _ _ hm]

/-- A lace word that reads 0 and is a code word. -/
def Zeroed (lid : Nat) (s : State) (w : Nat) : Prop :=
  (∀ b, b < 4 → (s.core lid).lace.byte (4 * w + b) = 0) ∧ (s.core lid).lace.err 4 w = none

theorem zeroed_setLace_same (lid w : Nat) (s : State) : Zeroed lid (s.setLace lid w 0) w := by
  refine ⟨fun b hb => ?_, ?_⟩
  · rw [lace_setLace]
    have hbyte := (s.core lid).lace.byte_store_inside (4 * w) (bs := natLe 4 0) (i := b) hb
    refine hbyte.trans ?_
    have hzero : natLe 4 0 = List.replicate 4 0 := rfl
    simp only [hzero, List.getElem_replicate]
  · rw [lace_setLace, Mem.err, Mem.syn, Mem.setSyn, tblGet_tblPut_same]
    rfl

/-- A word that is zeroed stays so as words are zeroed. -/
theorem Zeroed.setLace {w : Nat} (h : Zeroed lid s w) (v : Nat) : Zeroed lid (s.setLace lid v 0) w := by
  by_cases hw : w = v
  · exact hw ▸ zeroed_setLace_same lid w s
  · obtain ⟨hbytes, herr⟩ := h
    refine ⟨fun b hb => ?_, ?_⟩
    · exact ((laceStep_setLace_full lid v 0 s).words .lace _ (.inr (by omega))).trans (hbytes b hb)
    · rw [lace_setLace, Mem.err, Mem.syn, Mem.setSyn, tblGet_tblPut_ne _ hw, Mem.store_bad]
      exact herr

/-- Zeroing the first `N` words of a replica's on-count plane. -/
def State.zeroOnCounts (lid r N : Nat) (s : State) : State :=
  forAll (List.range N) (fun k u => u.setLace lid (u.onAt lid r k) 0) s

theorem zeroOnCounts_succ (N : Nat) (s : State) : s.zeroOnCounts lid r (N + 1) =
    (s.zeroOnCounts lid r N).setLace lid ((s.zeroOnCounts lid r N).onAt lid r N) 0 := by
  simp [State.zeroOnCounts, forAll, List.range_succ]

theorem zeroOnCounts_effect (N : Nat) (s : State) :
    LaceStep lid (fun w => ∃ k, k < N ∧ w = s.onAt lid r k) s (s.zeroOnCounts lid r N) ∧
      ∀ k, k < N → Zeroed lid (s.zeroOnCounts lid r N) (s.onAt lid r k) := by
  induction N with
  | zero => exact ⟨.refl .., fun k hk => absurd hk (Nat.not_lt_zero k)⟩
  | succ N ih =>
    obtain ⟨hstep, hzero⟩ := ih
    rw [zeroOnCounts_succ, hstep.layout.onAt_eq]
    refine ⟨(hstep.mono ?_).trans ((laceStep_setLace_full ..).mono ?_), fun k hk => ?_⟩
    · rintro w ⟨k, hk, rfl⟩
      exact ⟨k, by omega, rfl⟩
    · rintro w rfl
      exact ⟨N, by omega, rfl⟩
    · rcases Nat.lt_succ_iff_lt_or_eq.1 hk with hlt | rfl
      · exact (hzero k hlt).setLace _
      · exact zeroed_setLace_same ..

theorem Zeroed.rdNat_eq_zero {w a : Nat} (h : Zeroed lid s w) (ha : a < 3) : s.rdNat lid .lace (4 * w + a) 2 = 0 := by
  have h0 := h.1 a (by omega)
  have h1 := h.1 (a + 1) (by omega)
  simp [State.rdNat, State.rd, Mem.load, Core.mem, List.range_succ, leNat, h0, Nat.add_assoc, h1]

theorem even_unitsUp (s : State) (lid : Nat) : s.unitsUp lid % 2 = 0 := by
  rw [State.unitsUp, roundUp]
  omega

end Snapshot

theorem snapAndClearCounts : SnapAndClearCountsRule := by
  unfold SnapAndClearCountsRule
  rintro s lid r op hhead hphase rfl hr
  refine ⟨?_, fun hop hres => ⟨suaClrcountOp lid s, guarded_of_lid hhead.core, ?_⟩⟩
  · rintro dest first n hop hres rfl rfl rfl hdest hfirst hn hlo hhi hunits hend hclean
    refine ⟨suaSnapOp lid s, guarded_of_lid hhead.core, ?_⟩
    have hsnap : suaSnapOp lid s = (s.snapPairs lid (bitsOf op 50 4) (bitsOf op 19 15) (bitsOf op 0 19) (bitOf op 112)
        (bitsOf op 34 16 / 64)).retire lid .s := by
      rw [suaSnapOp, ← hop, suaOp_of_atHead hhead hphase hres]
      exact if_neg (by omega)
    obtain ⟨hstep, -, hout⟩ := snapPairs_effect (r := bitsOf op 50 4) (first := bitsOf op 19 15) (dest := bitsOf op 0 19)
      (e := bitOf op 112) hclean (bitsOf op 34 16 / 64)
    obtain ⟨hret, hframe, hcore, -⟩ := retire_after hstep.step hhead.inside
    have hlen : 2 * wordBytes (bitOf op 112) * (bitsOf op 34 16 / 64) =
        if bitOf op 112 then bitsOf op 34 16 else bitsOf op 34 16 / 8 := by
      cases bitOf op 112 <;> simp only [wordBytes, Bool.false_eq_true, if_false, if_true] <;> omega
    rw [hsnap]
    refine ⟨hret, fun i hi => ?_, fun m a ha => ?_, hframe⟩
    · rw [hcore]
      cases bitOf op 112
      · exact snapPairs_packed hclean (by omega) hfirst
      · exact snapPairs_expanded hclean (by omega) hfirst
    · rw [hcore]
      by_cases hm : m = .tile
      · subst hm
        exact hout a (by rw [hlen]; exact ha.resolve_left fun hne => hne rfl)
      · rw [hstep.others m hm]
  · have hclr : suaClrcountOp lid s = (s.zeroOnCounts lid (bitsOf op 50 4) (s.unitsUp lid / 2)).retire lid .s := by
      rw [suaClrcountOp, ← hop, suaOp_of_atHead hhead hphase hres]
      exact if_neg (Nat.not_le.2 hr)
    obtain ⟨hstep, hzero⟩ := zeroOnCounts_effect (lid := lid) (r := bitsOf op 50 4) (s.unitsUp lid / 2) s
    obtain ⟨hret, hframe, hcore, -⟩ := retire_after hstep.step hhead.inside
    have heven := even_unitsUp s lid
    rw [hclr]
    refine ⟨hret, fun i hi => ?_, fun m a ha => ?_, hframe⟩
    · have hz := hzero (i / 2) (by omega)
      refine ⟨?_, by rw [hcore]; exact hz.2⟩
      have hread := hz.rdNat_eq_zero (a := 2 * (i % 2)) (by omega)
      simpa only [State.rdNat, State.rd, hcore] using hread
    · rw [hcore]
      refine hstep.words m a (ha.imp_right ?_)
      rintro hne ⟨k, hk, hw⟩
      exact hne (2 * k) (by omega) (by rw [hw, Nat.mul_div_cancel_left k (by decide)])

/-- Settles O23: β by the breakpoints from the one reached on (`curveAt_from`), a clamp record by induction on the replicas of
its mask, a snapshot and the zeroing of on-counts by induction on the words. -/
theorem betaClampSnapAndClear : Obligations.BetaClampSnapAndClear := ⟨betaSet, clampRecords, snapAndClearCounts⟩

end Sys2Proof.Machine
end

section
/-!
PROOFS. Scope: SUA.SWEEP and SUA.RESULT (R105, R106, R120, R126, R203, R255).
-/
namespace Sys2Proof.Machine

/-! ### Retirement after work on registers (R213) -/

section Retire

variable {s t : State} {lid : Nat} {q : Queue} {l : List Fld}

/-- Work that leaves a queue's PC and count of ops ends by retiring, which changes these two alone. -/
theorem retire_of_onlyFields (h : OnlyFields l s t) (ha : ∀ g ∈ l, (qPc lid q).Apart g ∧ (qOps lid q).Apart g)
    (hin : s.getF (qPc lid q) < 4095) :
    Retired lid q s (t.retire lid q) ∧ RegsOnly [qPc lid q, qOps lid q] t (t.retire lid q) :=
  ⟨retired_of_onlyFields h (fun g hg => (ha g hg).1) (fun g hg => (ha g hg).2) hin,
    retire_regsOnly ((h _ (qPc_ok ..) fun g hg => (ha g hg).1).trans_lt hin)⟩

theorem getF_of_retire (h : RegsOnly [qPc lid q, qOps lid q] s t) {f : Fld} (hf : f.Ok)
    (ha : (qPc lid q).Apart f ∧ (qOps lid q).Apart f) : t.getF f = s.getF f :=
  h.2 f hf (by simpa using ⟨ha.1.symm, ha.2.symm⟩)

/-- An op whose bits below QUEUE are all 0 has no reserved bit set (R211). -/
theorem opReserved_of_zero {op : OpWord} (h : bitsOf op 0 118 = 0) (fields : List (Nat × Nat)) : opReserved fields op = false := by
  have hz : op.extractLsb' 0 118 = 0#118 := BitVec.eq_of_toNat_eq h
  rw [opReserved, bne_eq_false_iff_eq, BitVec.extractLsb'_and, hz, BitVec.zero_and]
  rfl

end Retire

/-! ### The run counters (R103) -/

section RunCounters

variable {s t : State} {lid : Nat}

theorem cResult_ok (lid : Nat) : (cResult lid).Ok := by simp [Fld.Ok, cResult]
theorem cSweep_ok (lid : Nat) : (cSweep lid).Ok := by simp [Fld.Ok, cSweep]
theorem cCurve_ok (lid : Nat) : (cCurve lid).Ok := by simp [Fld.Ok, cCurve]
theorem cRestart_ok (lid : Nat) : (cRestart lid).Ok := by simp [Fld.Ok, cRestart]

/-- The run counters of a core. -/
def runCounters (lid : Nat) : List Fld := [cResult lid, cSweep lid, cCurve lid, cRestart lid]

theorem runCounters_ok (lid : Nat) : ∀ f ∈ runCounters lid, f.Ok := by
  simp [runCounters, cResult_ok, cSweep_ok, cCurve_ok, cRestart_ok]

theorem cResult_apart_cSweep (lid : Nat) : (cResult lid).Apart (cSweep lid) := by
  simp only [Fld.Apart, Fld.base, cResult, cSweep, corePage]; omega
theorem cResult_apart_cCurve (lid : Nat) : (cResult lid).Apart (cCurve lid) := by
  simp only [Fld.Apart, Fld.base, cResult, cCurve, corePage]; omega
theorem cResult_apart_cRestart (lid : Nat) : (cResult lid).Apart (cRestart lid) := by
  simp only [Fld.Apart, Fld.base, cResult, cRestart, corePage]; omega
theorem cSweep_apart_cCurve (lid : Nat) : (cSweep lid).Apart (cCurve lid) := by
  simp only [Fld.Apart, Fld.base, cSweep, cCurve, corePage]; omega
theorem cSweep_apart_cRestart (lid : Nat) : (cSweep lid).Apart (cRestart lid) := by
  simp only [Fld.Apart, Fld.base, cSweep, cRestart, corePage]; omega
theorem cCurve_apart_cRestart (lid : Nat) : (cCurve lid).Apart (cRestart lid) := by
  simp only [Fld.Apart, Fld.base, cCurve, cRestart, corePage]; omega

/-- The run counters lie in the core's page, below its queues' registers. -/
theorem runCounters_place (lid : Nat) : ∀ f ∈ runCounters lid, 8 * (corePage lid + 0x280) ≤ f.base ∧
    f.base + f.w ≤ 8 * (corePage lid + 0x900) := by
  simp only [runCounters, List.forall_mem_cons, Fld.base, cResult, cSweep, cCurve, cRestart, corePage]
  refine ⟨?_, ?_, ?_, ?_, List.forall_mem_nil _⟩ <;> omega

theorem queue_apart_of_below {f : Fld} (q : Queue) (h : f.base + f.w ≤ 8 * (corePage lid + 0x900)) :
    (qPc lid q).Apart f ∧ (qOps lid q).Apart f := by
  simp only [Fld.Apart, Fld.base, qPc, qOps] at *
  omega

theorem runCounters_apart_queue (lid : Nat) (q : Queue) : ∀ f ∈ runCounters lid, (qPc lid q).Apart f ∧ (qOps lid q).Apart f :=
  fun f hf => queue_apart_of_below q (runCounters_place lid f hf).2

/-! ### SUA.SWEEP (R105, R106) -/

/-- SWEEP and CURVE grow by one. -/
def State.countSweep (lid : Nat) (s : State) : State :=
  (s.setF (cSweep lid) (s.getF (cSweep lid) + 1)).setF (cCurve lid) (s.getF (cCurve lid) + 1)

theorem regsOnly_countSweep (lid : Nat) (s : State) : RegsOnly [cSweep lid, cCurve lid] s (s.countSweep lid) :=
  (regsOnly_setF _ _ (cSweep_ok lid) (by simp)).trans (regsOnly_setF _ _ (cCurve_ok lid) (by simp))

theorem cSweep_countSweep (h : s.getF (cSweep lid) ≠ 65535) :
    (s.countSweep lid).getF (cSweep lid) = s.getF (cSweep lid) + 1 := by
  have hlt : s.getF (cSweep lid) < 65536 := getF_lt (cSweep lid)
  rw [State.countSweep, getF_setF_apart _ _ _ (cSweep_ok lid) (cCurve_ok lid) (cSweep_apart_cCurve lid),
    getF_setF_same _ _ (cSweep_ok lid)]
  exact Nat.mod_eq_of_lt (show _ < 65536 by omega)

theorem cCurve_countSweep (lid : Nat) (s : State) :
    (s.countSweep lid).getF (cCurve lid) = (s.getF (cCurve lid) + 1) % 65536 := by
  rw [State.countSweep, getF_setF_same _ _ (cCurve_ok lid)]
  rfl

/-! ### SUA.RESULT (R105, R126) -/

/-- RESULT grows by one, SWEEP, CURVE and RESTART become 0, and no staging slot is filled. -/
def State.beginResult (lid : Nat) (s : State) : State :=
  ((((s.modCore lid fun c => { c with staged := [] }).setF (cResult lid) (s.getF (cResult lid) + 1)).setF (cSweep lid) 0).setF
    (cCurve lid) 0).setF (cRestart lid) 0

/-- Of the state besides the core, beginning a result changes the run counters. -/
theorem regsOnly_beginResult (lid : Nat) (s : State) :
    RegsOnly (runCounters lid) (s.modCore lid fun c => { c with staged := [] }) (s.beginResult lid) :=
  (((regsOnly_setF _ _ (cResult_ok lid) (by simp [runCounters])).trans
    (regsOnly_setF _ _ (cSweep_ok lid) (by simp [runCounters]))).trans
    (regsOnly_setF _ _ (cCurve_ok lid) (by simp [runCounters]))).trans (regsOnly_setF _ _ (cRestart_ok lid) (by simp [runCounters]))

theorem coreStep_beginResult (lid : Nat) (s : State) : CoreStep lid (runCounters lid) s (s.beginResult lid) :=
  (coreStep_modCore ..).trans ((regsOnly_beginResult lid s).coreStep lid)

theorem core_beginResult (lid : Nat) (s : State) : (s.beginResult lid).core lid = { s.core lid with staged := [] } := by
  rw [(regsOnly_beginResult lid s).core_eq, core_modCore_same]

theorem beginResult_rest (lid : Nat) (s : State) :
    s.beginResult lid = { s with regs := (s.beginResult lid).regs, cores := (s.beginResult lid).cores } := by
  obtain ⟨hrest, -⟩ := regsOnly_beginResult lid s
  rw [hrest]
  rfl

theorem cResult_beginResult (lid : Nat) (s : State) :
    (s.beginResult lid).getF (cResult lid) = (s.getF (cResult lid) + 1) % 2 ^ 48 := by
  rw [State.beginResult, getF_setF_apart _ _ _ (cResult_ok lid) (cRestart_ok lid) (cResult_apart_cRestart lid),
    getF_setF_apart _ _ _ (cResult_ok lid) (cCurve_ok lid) (cResult_apart_cCurve lid),
    getF_setF_apart _ _ _ (cResult_ok lid) (cSweep_ok lid) (cResult_apart_cSweep lid), getF_setF_same _ _ (cResult_ok lid)]
  rfl

theorem cSweep_beginResult (lid : Nat) (s : State) : (s.beginResult lid).getF (cSweep lid) = 0 := by
  rw [State.beginResult, getF_setF_apart _ _ _ (cSweep_ok lid) (cRestart_ok lid) (cSweep_apart_cRestart lid),
    getF_setF_apart _ _ _ (cSweep_ok lid) (cCurve_ok lid) (cSweep_apart_cCurve lid), getF_setF_same _ _ (cSweep_ok lid)]
  rfl

theorem cCurve_beginResult (lid : Nat) (s : State) : (s.beginResult lid).getF (cCurve lid) = 0 := by
  rw [State.beginResult, getF_setF_apart _ _ _ (cCurve_ok lid) (cRestart_ok lid) (cCurve_apart_cRestart lid),
    getF_setF_same _ _ (cCurve_ok lid)]
  rfl

theorem cRestart_beginResult (lid : Nat) (s : State) : (s.beginResult lid).getF (cRestart lid) = 0 := by
  rw [State.beginResult, getF_setF_same _ _ (cRestart_ok lid)]
  rfl

/-! ### The partitions' registers (R317) -/

/-- The core pages lie above every other register (R399). -/
theorem corePage_above (lid k : Nat) : 8 * 0x01000000 ≤ 8 * (corePage lid + k) := by
  simp only [corePage]
  omega

/-- The registers below the core pages hold what they held. -/
abbrev SameFabric (s t : State) : Prop := RegsBelow 0x01000000 s t

theorem SameFabric.hasDie_eq (h : SameFabric s t) {p : Nat} (hp : p < 8) (d : Nat) : t.hasDie p d = s.hasDie p d := by
  have hd : t.getF (ppDies p) = s.getF (ppDies p) :=
    h _ (by simp [Fld.Ok, ppDies]) (by simp only [Fld.base, ppDies]; omega)
  have hs : t.getF (ppState p) = s.getF (ppState p) :=
    h _ (by simp [Fld.Ok, ppState]) (by simp only [Fld.base, ppState]; omega)
  simp only [State.hasDie, hd, hs]

theorem SameFabric.partDies_eq (h : SameFabric s t) {p : Nat} (hp : p < 8) : t.partDies p = s.partDies p := by
  simp only [State.partDies, h.hasDie_eq hp]

theorem SameFabric.leader_eq (h : SameFabric s t) {p : Nat} (hp : p < 8) : t.leader p = s.leader p := by
  simp only [State.leader, State.partCores, h.partDies_eq hp]

theorem SameFabric.owner_eq (h : SameFabric s t) (lid : Nat) : t.owner lid = s.owner lid := by
  refine owner_congr (fun p hp => h _ ?_ ?_) (fun p hp => h _ ?_ ?_) lid
  · simp [Fld.Ok, ppDies]
  · simp only [Fld.base, ppDies]; omega
  · simp [Fld.Ok, ppState]
  · simp only [Fld.base, ppState]; omega

theorem sameFabric_beginResult (lid : Nat) (s : State) : SameFabric s (s.beginResult lid) :=
  (coreStep_beginResult lid s).2.2.regsBelow fun f hf => (corePage_above lid _).trans (runCounters_place lid f hf).1

theorem owner_lt {p : Nat} (h : s.owner lid = some p) : p < 8 := by
  rw [State.owner, State.dieOwner] at h
  exact List.mem_range.1 (List.mem_of_find?_eq_some h)

end RunCounters

/-! ### Messages of the root (R255) -/

section Broadcast

variable {s : State} {p : Nat} {m : SyncMsg}

/-- A die whose taps have each been handed a message. -/
def Die.told (m : SyncMsg) (x : Die) : Die :=
  { x with tap0 := { x.tap0 with rel := x.tap0.rel ++ [m] }, tap1 := { x.tap1 with rel := x.tap1.rel ++ [m] } }

/-- A broadcast changes dies alone. -/
theorem forAll_bothTaps_rest (ds : List Nat) (m : SyncMsg) (s : State) :
    forAll ds (fun d t => t.bothTaps d m) s = { s with dies := (forAll ds (fun d t => t.bothTaps d m) s).dies } := by
  induction ds generalizing s with
  | nil => rfl
  | cons d ds ih => rw [forAll_cons, ih]; rfl

theorem broadcast_rest (p : Nat) (m : SyncMsg) (s : State) : s.broadcast p m = { s with dies := (s.broadcast p m).dies } :=
  forAll_bothTaps_rest ..

/-- Each die of a list without repetition is told once. -/
theorem die_forAll_bothTaps {ds : List Nat} (h : ds.Nodup) (s : State) (d : Nat) :
    (forAll ds (fun d t => t.bothTaps d m) s).die d = if d ∈ ds then (s.die d).told m else s.die d := by
  induction ds generalizing s with
  | nil => rfl
  | cons e ds ih =>
    obtain ⟨he, hds⟩ := List.nodup_cons.1 h
    rw [forAll_cons, ih hds]
    by_cases hd : d = e
    · subst hd
      rw [if_neg he, if_pos (List.mem_cons_self ..)]
      exact die_modDie_same ..
    · rw [State.bothTaps, die_modDie_ne _ hd]
      simp only [List.mem_cons, hd, false_or]

/-- Every die of the partition is told. -/
theorem die_broadcast {d : Nat} (hd : d ∈ s.partDies p) : (s.broadcast p m).die d = (s.die d).told m := by
  have hnodup : (s.partDies p).Nodup := List.nodup_range.filter _
  rw [State.broadcast, die_forAll_bothTaps hnodup, if_pos hd]

theorem regs_broadcast (p : Nat) (m : SyncMsg) (s : State) : (s.broadcast p m).regs = s.regs := by rw [broadcast_rest]

theorem part_broadcast (p : Nat) (m : SyncMsg) (s : State) (i : Nat) : (s.broadcast p m).part i = s.part i := by
  rw [broadcast_rest]; rfl

theorem partDies_congr {t : State} (h : t.regs = s.regs) (p : Nat) : t.partDies p = s.partDies p := by
  simp only [State.partDies, State.hasDie, getF_congr h]

end Broadcast

/-! ### The leader's SUA.RESULT (R120, R203, R255) -/

section Leader

variable {s t : State} {p : Nat}

theorem pdFired_ok (p : Nat) : (pdFired p).Ok := by simp [Fld.Ok, pdFired]

/-- The deadline is captured and FIRED cleared. -/
def State.captureDeadline (p : Nat) (s : State) : State :=
  (s.modPart p fun t => { t with dlRunning := true, dlTicks := s.getF (pdTicks p), dlMin := s.getF (pdMin p), elapsed := 0 }).setF
    (pdFired p) 0

/-- The next seed is staged at the root. -/
def State.keepSeed (p : Nat) (s : State) : State :=
  s.modPart p fun t => { t with staged := true, stagedSeed := s.nextSeed p, stagedDrbg := t.nextDrbg }

/-- The next seed is staged, and both its halves go to every die of the partition. -/
def State.stageSeed (p : Nat) (s : State) : State :=
  ((s.keepSeed p).broadcast p (.stage p false ((s.nextSeed p).extractLsb' 0 48))).broadcast p
    (.stage p true ((s.nextSeed p).extractLsb' 48 48))

theorem leaderResult_eq (p : Nat) (s : State) : s.leaderResult p =
    if (s.captureDeadline p).onF (pnPending p) then (s.captureDeadline p).stageSeed p else s.captureDeadline p := rfl

theorem captureDeadline_rest (p : Nat) (s : State) :
    s.captureDeadline p = { s with regs := (s.captureDeadline p).regs, parts := (s.captureDeadline p).parts } := rfl

theorem captureDeadline_dies (p : Nat) (s : State) : (s.captureDeadline p).dies = s.dies := by
  rw [State.captureDeadline, setF_dies, modPart_dies]

theorem die_captureDeadline (p : Nat) (s : State) (d : Nat) : (s.captureDeadline p).die d = s.die d := by
  rw [State.captureDeadline, die_setF, die_modPart]

theorem onlyFields_captureDeadline (p : Nat) (s : State) : OnlyFields [pdFired p] s (s.captureDeadline p) :=
  onlyFields_setF (s := s.modPart p _) _ _ (pdFired_ok p) (by simp)

theorem part_captureDeadline (p : Nat) (s : State) : (s.captureDeadline p).part p =
    { s.part p with dlRunning := true, dlTicks := s.getF (pdTicks p), dlMin := s.getF (pdMin p), elapsed := 0 } := by
  rw [State.captureDeadline, part_setF, part_modPart_same]

theorem pdFired_captureDeadline (p : Nat) (s : State) : (s.captureDeadline p).getF (pdFired p) = 0 := by
  rw [State.captureDeadline, getF_setF_same _ _ (pdFired_ok p)]
  rfl

/-- FIRED shares no bit with the next seed and its PENDING. -/
theorem nextSeed_captureDeadline (p : Nat) (s : State) : (s.captureDeadline p).nextSeed p = s.nextSeed p ∧
    (s.captureDeadline p).getF (pnPending p) = s.getF (pnPending p) := by
  have only := onlyFields_captureDeadline p s
  have hlo : (s.captureDeadline p).getF (pnLo p) = s.getF (pnLo p) :=
    only _ (by simp [Fld.Ok, pnLo]) (by simp only [List.forall_mem_singleton, Fld.Apart, Fld.base, pnLo, pdFired]; omega)
  have hhi : (s.captureDeadline p).getF (pnHi p) = s.getF (pnHi p) :=
    only _ (by simp [Fld.Ok, pnHi]) (by simp only [List.forall_mem_singleton, Fld.Apart, Fld.base, pnHi, pdFired]; omega)
  refine ⟨by simp only [State.nextSeed, hlo, hhi], only _ (by simp [Fld.Ok, pnPending]) ?_⟩
  simp only [List.forall_mem_singleton, Fld.Apart, Fld.base, pnPending, pdFired]
  omega

theorem partDies_captureDeadline (hp : p < 8) (s : State) : (s.captureDeadline p).partDies p = s.partDies p := by
  have h : RegsBelow 0x00200400 s (s.captureDeadline p) :=
    (onlyFields_captureDeadline p s).regsBelow (by simp only [List.forall_mem_singleton, Fld.base, pdFired]; omega)
  have hd : (s.captureDeadline p).getF (ppDies p) = s.getF (ppDies p) :=
    h _ (by simp [Fld.Ok, ppDies]) (by simp only [Fld.base, ppDies]; omega)
  have hs : (s.captureDeadline p).getF (ppState p) = s.getF (ppState p) :=
    h _ (by simp [Fld.Ok, ppState]) (by simp only [Fld.base, ppState]; omega)
  simp only [State.partDies, State.hasDie, hd, hs]

theorem stageSeed_rest (p : Nat) (s : State) :
    s.stageSeed p = { s with parts := (s.stageSeed p).parts, dies := (s.stageSeed p).dies } := by
  rw [State.stageSeed, broadcast_rest, broadcast_rest]
  rfl

theorem part_stageSeed (p : Nat) (s : State) : (s.stageSeed p).part p =
    { s.part p with staged := true, stagedSeed := s.nextSeed p, stagedDrbg := (s.part p).nextDrbg } := by
  rw [State.stageSeed, part_broadcast, part_broadcast, State.keepSeed, part_modPart_same]

theorem die_stageSeed {d : Nat} (hd : d ∈ s.partDies p) : (s.stageSeed p).die d =
    ((s.die d).told (.stage p false ((s.nextSeed p).extractLsb' 0 48))).told (.stage p true ((s.nextSeed p).extractLsb' 48 48)) := by
  have hkept : d ∈ (s.keepSeed p).partDies p := hd
  have hkept' : d ∈ ((s.keepSeed p).broadcast p (.stage p false ((s.nextSeed p).extractLsb' 0 48))).partDies p := by
    rwa [partDies_congr (regs_broadcast ..)]
  rw [State.stageSeed, die_broadcast hkept', die_broadcast hkept]
  rfl

/-- What the leader's SUA.RESULT does to its partition: only FIRED, the partition and dies may change. -/
theorem leaderResult_frame (p : Nat) (s : State) : OnlyFields [pdFired p] s (s.leaderResult p) ∧
    s.leaderResult p = { s with regs := (s.leaderResult p).regs, parts := (s.leaderResult p).parts, dies := (s.leaderResult p).dies } ∧
    (s.leaderResult p).getF (pdFired p) = 0 := by
  rw [leaderResult_eq]
  split
  · have hr : ((s.captureDeadline p).stageSeed p).regs = (s.captureDeadline p).regs := by rw [stageSeed_rest]
    refine ⟨fun f hf ha => (getF_congr hr f).trans (onlyFields_captureDeadline p s f hf ha), ?_,
      (getF_congr hr _).trans (pdFired_captureDeadline p s)⟩
    rw [stageSeed_rest, captureDeadline_rest]
  · exact ⟨onlyFields_captureDeadline p s, rfl, pdFired_captureDeadline p s⟩

/-- The deadline is captured whether a seed is pending or not. -/
theorem part_leaderResult (p : Nat) (s : State) : ((s.leaderResult p).part p).dlRunning = true ∧
    ((s.leaderResult p).part p).dlTicks = s.getF (pdTicks p) ∧ ((s.leaderResult p).part p).dlMin = s.getF (pdMin p) ∧
    ((s.leaderResult p).part p).elapsed = 0 := by
  rw [leaderResult_eq]
  split
  · simp only [part_stageSeed, part_captureDeadline, and_self]
  · simp only [part_captureDeadline, and_self]

theorem leaderResult_of_pending (h : s.getF (pnPending p) = 1) :
    s.leaderResult p = (s.captureDeadline p).stageSeed p := by
  rw [leaderResult_eq, if_pos]
  simp [State.onF, (nextSeed_captureDeadline p s).2, h]

theorem leaderResult_of_none (h : s.getF (pnPending p) = 0) : s.leaderResult p = s.captureDeadline p := by
  rw [leaderResult_eq, if_neg]
  simp [State.onF, (nextSeed_captureDeadline p s).2, h]

end Leader

/-! ### SUA.SWEEP and SUA.RESULT -/

section SweepAndResult

variable {s : State} {lid p : Nat} {op : OpWord}

theorem suaSweepOp_of_atHead (hhead : AtHead s lid .s op) (hphase : (s.core lid).phase = none) (hres : opReserved [] op = false)
    (hop : opOpcode op = 0x45) : suaSweepOp lid s =
      if s.getF (cSweep lid) = 65535 then s.opFault lid .s fRunSweep else (s.countSweep lid).retire lid .s := by
  rw [suaSweepOp, ← hop, suaOp_of_atHead hhead hphase hres]
  rfl

theorem suaResultOp_of_atHead (hhead : AtHead s lid .s op) (hphase : (s.core lid).phase = none) (hres : opReserved [] op = false)
    (hop : opOpcode op = 0x46) (howner : s.owner lid = some p) : suaResultOp lid s =
      (if s.leader p = some lid then (s.beginResult lid).leaderResult p else s.beginResult lid).retire lid .s := by
  have hfab := sameFabric_beginResult lid s
  have hown : (s.beginResult lid).owner lid = some p := (hfab.owner_eq lid).trans howner
  have hlead : (s.beginResult lid).leader p = s.leader p := hfab.leader_eq (owner_lt howner)
  have hdef : suaResultOp lid s = (match (s.beginResult lid).owner lid with
      | some p => if (s.beginResult lid).leader p == some lid then (s.beginResult lid).leaderResult p else s.beginResult lid
      | none => s.beginResult lid).retire lid .s := by
    rw [suaResultOp, ← hop, suaOp_of_atHead hhead hphase hres]
    rfl
  rw [hdef, hown]
  simp only [hlead, beq_iff_eq]

/-- SUA.RESULT of a core that is not its partition's leader changes its own run counters. -/
theorem result_effect {l : List Fld} {u : State} (hin : s.getF (qPc lid .s) < 4095)
    (hu : OnlyFields l (s.beginResult lid) u) (hcores : u.cores = (s.beginResult lid).cores)
    (hl : ∀ g ∈ l, g.base + g.w ≤ 8 * 0x01000000) :
    Retired lid .s s (u.retire lid .s) ∧ (u.retire lid .s).getF (cResult lid) = (s.getF (cResult lid) + 1) % 2 ^ 48 ∧
      (u.retire lid .s).getF (cSweep lid) = 0 ∧ (u.retire lid .s).getF (cCurve lid) = 0 ∧
      (u.retire lid .s).getF (cRestart lid) = 0 ∧ (u.retire lid .s).core lid = { s.core lid with staged := [] } ∧
      (∀ k, k ≠ lid → (u.retire lid .s).core k = s.core k) ∧
      OnlyFields ([qPc lid .s, qOps lid .s, cResult lid, cSweep lid, cCurve lid, cRestart lid] ++ l) s (u.retire lid .s) ∧
      RegsOnly [qPc lid .s, qOps lid .s] u (u.retire lid .s) := by
  have hbegin := coreStep_beginResult lid s
  have hall : OnlyFields (runCounters lid ++ l) s u :=
    (hbegin.2.2.mono fun f hf => List.mem_append_left _ hf).trans (hu.mono fun f hf => List.mem_append_right _ hf)
  have hqueue : ∀ g ∈ runCounters lid ++ l, (qPc lid .s).Apart g ∧ (qOps lid .s).Apart g := by
    intro g hg
    refine queue_apart_of_below .s ?_
    rcases List.mem_append.1 hg with hg | hg
    · exact (runCounters_place lid g hg).2
    · exact (hl g hg).trans (corePage_above lid _)
  obtain ⟨hret, hregs⟩ := retire_of_onlyFields hall hqueue hin
  have hcore : ∀ k, (u.retire lid .s).core k = (s.beginResult lid).core k := fun k => by
    rw [hregs.core_eq, State.core, hcores]
    rfl
  have hkeep : ∀ f ∈ runCounters lid, (u.retire lid .s).getF f = (s.beginResult lid).getF f := by
    intro f hf
    have hok := runCounters_ok lid f hf
    rw [getF_of_retire hregs hok (runCounters_apart_queue lid .s f hf)]
    exact hu f hok fun g hg => .inr ((hl g hg).trans ((corePage_above lid _).trans (runCounters_place lid f hf).1))
  refine ⟨hret, ?_, ?_, ?_, ?_, ?_, fun k hk => ?_, ?_, hregs⟩
  · rw [hkeep _ (by simp [runCounters]), cResult_beginResult]
  · rw [hkeep _ (by simp [runCounters]), cSweep_beginResult]
  · rw [hkeep _ (by simp [runCounters]), cCurve_beginResult]
  · rw [hkeep _ (by simp [runCounters]), cRestart_beginResult]
  · rw [hcore, core_beginResult]
  · rw [hcore, hbegin.2.1 k hk]
  · exact (hall.mono fun f hf => List.mem_append.2 ((List.mem_append.1 hf).imp_left (List.mem_append_right [_, _]))).trans
      (hregs.2.mono (by simp))

theorem RegsOnly.part_eq {t u : State} {l : List Fld} (h : RegsOnly l t u) (i : Nat) : u.part i = t.part i := by
  obtain ⟨hrest, -⟩ := h
  rw [hrest]; rfl

theorem RegsOnly.dies_eq {t u : State} {l : List Fld} (h : RegsOnly l t u) : u.dies = t.dies := by
  obtain ⟨hrest, -⟩ := h
  rw [hrest]

theorem RegsOnly.die_eq {t u : State} {l : List Fld} (h : RegsOnly l t u) (d : Nat) : u.die d = t.die d := by
  rw [State.die, h.dies_eq]; rfl

/-- What the leader's SUA.RESULT leaves at the root, in its partition and at the taps (R120, R203, R255). -/
theorem leader_effect {t : State} (hp : p < 8)
    (h : RegsOnly [qPc lid .s, qOps lid .s] ((s.beginResult lid).leaderResult p) t) :
    t.getF (pdFired p) = 0 ∧
      ((t.part p).dlRunning = true ∧ (t.part p).dlTicks = s.getF (pdTicks p) ∧ (t.part p).dlMin = s.getF (pdMin p) ∧
        (t.part p).elapsed = 0) ∧
      (s.getF (pnPending p) = 1 → (t.part p).staged = true ∧ (t.part p).stagedSeed = s.nextSeed p ∧
        ∀ d l, d ∈ s.partDies p → l = [SyncMsg.stage p false ((s.nextSeed p).extractLsb' 0 48),
            SyncMsg.stage p true ((s.nextSeed p).extractLsb' 48 48)] →
          (t.die d).tap0.rel = (s.die d).tap0.rel ++ l ∧ (t.die d).tap1.rel = (s.die d).tap1.rel ++ l) ∧
      (s.getF (pnPending p) = 0 → t.dies = s.dies ∧ (t.part p).staged = (s.part p).staged) := by
  have hfab := sameFabric_beginResult lid s
  have hticks : (s.beginResult lid).getF (pdTicks p) = s.getF (pdTicks p) :=
    hfab _ (by simp [Fld.Ok, pdTicks]) (by simp only [Fld.base, pdTicks]; omega)
  have hmin : (s.beginResult lid).getF (pdMin p) = s.getF (pdMin p) :=
    hfab _ (by simp [Fld.Ok, pdMin]) (by simp only [Fld.base, pdMin]; omega)
  have hpending : (s.beginResult lid).getF (pnPending p) = s.getF (pnPending p) :=
    hfab _ (by simp [Fld.Ok, pnPending]) (by simp only [Fld.base, pnPending]; omega)
  have hseed : (s.beginResult lid).nextSeed p = s.nextSeed p := by
    have hlo : (s.beginResult lid).getF (pnLo p) = s.getF (pnLo p) :=
      hfab _ (by simp [Fld.Ok, pnLo]) (by simp only [Fld.base, pnLo]; omega)
    have hhi : (s.beginResult lid).getF (pnHi p) = s.getF (pnHi p) :=
      hfab _ (by simp [Fld.Ok, pnHi]) (by simp only [Fld.base, pnHi]; omega)
    simp only [State.nextSeed, hlo, hhi]
  have hdies : (s.beginResult lid).partDies p = s.partDies p := hfab.partDies_eq hp
  have hpart : (s.beginResult lid).part p = s.part p := ((regsOnly_beginResult lid s).part_eq p).trans (part_modCore ..)
  have hdie : ∀ d, (s.beginResult lid).die d = s.die d := fun d =>
    ((regsOnly_beginResult lid s).die_eq d).trans (die_modCore ..)
  have hsame : (s.beginResult lid).dies = s.dies := by rw [beginResult_rest]
  generalize s.beginResult lid = b at *
  obtain ⟨honly, -, hfired⟩ := leaderResult_frame p b
  obtain ⟨hrun, hdl, hdm, hel⟩ := part_leaderResult p b
  obtain ⟨hkept, -⟩ := nextSeed_captureDeadline p b
  rw [h.part_eq]
  refine ⟨?_, ⟨hrun, hdl.trans hticks, hdm.trans hmin, hel⟩, fun hone => ?_, fun hzero => ?_⟩
  · rw [h.2 _ (pdFired_ok p), hfired]
    refine fun g hg => .inl ?_
    have habove : 8 * 0x01000000 ≤ g.base := (corePage_above lid 0x900).trans (by
      simp only [List.mem_cons, List.not_mem_nil, or_false] at hg
      rcases hg with rfl | rfl <;> simp only [Fld.base, qPc, qOps] <;> omega)
    refine le_trans ?_ habove
    simp only [Fld.base, pdFired]
    omega
  · rw [leaderResult_of_pending (hpending.trans hone), part_stageSeed, hkept, hseed]
    refine ⟨rfl, rfl, ?_⟩
    rintro d l hd rfl
    rw [h.die_eq, leaderResult_of_pending (hpending.trans hone),
      die_stageSeed (by rwa [partDies_captureDeadline hp, hdies]), hkept, hseed, die_captureDeadline, hdie]
    simp only [Die.told, List.append_assoc]
    exact ⟨rfl, rfl⟩
  · rw [h.dies_eq, leaderResult_of_none (hpending.trans hzero), part_captureDeadline, captureDeadline_dies, ← hpart]
    exact ⟨hsame, rfl⟩

end SweepAndResult

theorem sweepAndResult : SweepAndResultRule := by
  unfold SweepAndResultRule
  intro s lid p op hhead hphase hzero howner
  have hres := opReserved_of_zero hzero []
  have hp : p < 8 := owner_lt howner
  refine ⟨fun hop hfull => ⟨suaSweepOp lid s, guarded_of_lid hhead.core, ?_⟩,
    fun hop hfull => ⟨suaSweepOp lid s, guarded_of_lid hhead.core, ?_⟩,
    fun hop => ⟨suaResultOp lid s, guarded_of_lid hhead.core, ?_⟩⟩
  · rw [suaSweepOp_of_atHead hhead hphase hres hop, if_pos hfull]
    exact opFault_halted lid .s (by decide) s
  · rw [suaSweepOp_of_atHead hhead hphase hres hop, if_neg hfull]
    have hcount := regsOnly_countSweep lid s
    have hmem : ∀ g ∈ [cSweep lid, cCurve lid], g ∈ runCounters lid := by simp [runCounters]
    obtain ⟨hret, hregs⟩ := retire_of_onlyFields hcount.2 (fun g hg => runCounters_apart_queue lid .s g (hmem g hg)) hhead.inside
    have hkeep : ∀ f ∈ [cSweep lid, cCurve lid], ((s.countSweep lid).retire lid .s).getF f = (s.countSweep lid).getF f :=
      fun f hf => getF_of_retire hregs (runCounters_ok lid f (hmem f hf)) (runCounters_apart_queue lid .s f (hmem f hf))
    refine ⟨hret, ?_, ?_, (hcount.mono (by simp)).trans (hregs.mono (by simp))⟩
    · rw [hkeep _ (by simp), cSweep_countSweep hfull]
    · rw [hkeep _ (by simp), cCurve_countSweep]
  · rw [suaResultOp_of_atHead hhead hphase hres hop howner]
    by_cases hlead : s.leader p = some lid
    · rw [if_pos hlead]
      obtain ⟨honly, hrest, hfired⟩ := leaderResult_frame p (s.beginResult lid)
      obtain ⟨hret, hresult, hsweep, hcurve, hrestart, hcore, hothers, honly', hregs⟩ :=
        result_effect (l := [pdFired p]) (u := (s.beginResult lid).leaderResult p) hhead.inside honly (by rw [hrest])
          (by simp only [List.forall_mem_singleton, Fld.base, pdFired]; omega)
      obtain ⟨hfired', hdeadline, hpending, hnone⟩ := leader_effect (lid := lid) hp hregs
      refine ⟨hret, hresult, hsweep, hcurve, hrestart, hcore, hothers, fun h => absurd hlead h, fun _ => ?_⟩
      obtain ⟨hrunning, hticks, hmin, helapsed⟩ := hdeadline
      refine ⟨hrunning, hticks, hmin, helapsed, hfired', hpending, hnone, honly', ?_⟩
      rw [hregs.1, hrest, beginResult_rest]
    · rw [if_neg hlead]
      obtain ⟨hret, hresult, hsweep, hcurve, hrestart, hcore, hothers, honly, hregs⟩ :=
        result_effect (l := []) (u := s.beginResult lid) hhead.inside (.refl [] _) rfl (by simp)
      refine ⟨hret, hresult, hsweep, hcurve, hrestart, hcore, hothers, fun _ => ⟨?_, honly⟩, fun h => absurd h hlead⟩
      rw [hregs.1, beginResult_rest]

end Sys2Proof.Machine
end

section
/-!
PROOFS. Scope: SUA.RESTART, its reset and its replay (R105, R111, R112).
-/
namespace Sys2Proof.Machine

/-! ### Lists with one member that counts -/

/-- A predicate that holds of one number below `n` picks that number. -/
theorem filter_range_eq_singleton {n i : Nat} (hi : i < n) {p : Nat → Bool} (hp : ∀ j, j < n → (p j = true ↔ j = i)) :
    (List.range n).filter p = [i] := by
  have hcongr : (List.range n).filter p = (List.range n).filter (· = i) := by
    refine List.filter_congr fun j hj => Bool.eq_iff_iff.2 ?_
    rw [hp j (List.mem_range.1 hj), decide_eq_true_eq]
  rw [hcongr, List.filter_eq, List.count_eq_one_of_mem List.nodup_range (List.mem_range.2 hi), List.replicate_one]

/-- A mask of one bit names one replica. -/
theorem maskReplicas_two_pow {r : Nat} (hr : r < 16) : maskReplicas (2 ^ r) = [r] :=
  filter_range_eq_singleton hr fun j _ => by rw [Nat.testBit_two_pow, decide_eq_true_eq, eq_comm]

section Restart

variable {s t u : State} {lid r : Nat} {op : OpWord}

/-! ### Issue (R105, R131) -/

/-- SUA.RESTART with a mask of the core's replicas, at the head of its queue. -/
theorem restartOp_of_atHead (hhead : AtHead s lid .s op) (hphase : (s.core lid).phase = none) (hop : opOpcode op = 0x47)
    (hres : opReserved [(0, 16), (112, 3)] op = false) {step : Bool} (hstep : bitOf op 112 = step)
    (hbits : step = true → bitOf op 113 = false ∧ bitOf op 114 = false) (hmask : s.maskOk lid (bitsOf op 0 16) = true)
    (f : OpWord → State → State) : restartOp lid step f s = f op s := by
  have hflags : (step && (bitOf op 113 || bitOf op 114)) = false := by
    cases step
    · rfl
    · simp [hbits rfl]
  rw [restartOp, issueOp_of_atHead hhead]
  simp [hop, hstep, hphase, hres, hflags, hmask]

theorem maskOk_two_pow (hr : r < 16) (h : r < s.replicas lid) : s.maskOk lid (2 ^ r) = true := by
  simp [State.maskOk, maskReplicas_two_pow hr, h]

/-! ### The run counters of a restart (R105) -/

/-- Where a restart counts, RESTART grows by one and CURVE becomes 0. -/
def State.countRestart (lid : Nat) (counts : Bool) (s : State) : State :=
  if counts then (s.setF (cRestart lid) (s.getF (cRestart lid) + 1)).setF (cCurve lid) 0 else s

theorem regsOnly_countRestart (lid : Nat) (counts : Bool) (s : State) :
    RegsOnly [cRestart lid, cCurve lid] s (s.countRestart lid counts) := by
  cases counts
  · exact .refl ..
  · exact (regsOnly_setF _ _ (cRestart_ok lid) (by simp)).trans (regsOnly_setF _ _ (cCurve_ok lid) (by simp))

theorem cRestart_countRestart (lid : Nat) (counts : Bool) (s : State) :
    (s.countRestart lid counts).getF (cRestart lid) = (s.getF (cRestart lid) + counts.toNat) % 65536 := by
  cases counts
  · exact (Nat.mod_eq_of_lt (getF_lt (cRestart lid))).symm
  · rw [State.countRestart, if_pos rfl, getF_setF_apart _ _ _ (cRestart_ok lid) (cCurve_ok lid) (cCurve_apart_cRestart lid).symm,
      getF_setF_same _ _ (cRestart_ok lid)]
    rfl

theorem cCurve_countRestart (lid : Nat) (counts : Bool) (s : State) :
    (s.countRestart lid counts).getF (cCurve lid) = if counts then 0 else s.getF (cCurve lid) := by
  cases counts
  · rfl
  · rw [State.countRestart, if_pos rfl, getF_setF_same _ _ (cCurve_ok lid)]
    rfl

/-! ### The places of fields and states (R38, R39) -/

theorem fieldAt_eq_iff (s : State) (lid r : Nat) {i j : Nat} (hi : i < 0x40000) (hj : j < 0x40000) :
    s.fieldAt lid r i = s.fieldAt lid r j ↔ i = j := by
  simp only [State.fieldAt, wa]
  omega

/-- A replica's field words and its state plane lie apart. -/
theorem fieldAt_ne_stateAt (s : State) (lid r : Nat) {i k : Nat} (hu : s.unitsUp lid ≤ 0x8000) (hi : i < s.unitsUp lid)
    (hk : k < s.unitsUp lid) : s.fieldAt lid r i ≠ s.stateAt lid r k := by
  simp only [State.fieldAt, State.stateAt, wa]
  omega

theorem units_le_unitsUp (s : State) (lid : Nat) : s.units lid ≤ s.unitsUp lid := by
  rw [State.unitsUp, roundUp]
  omega

theorem unitsUp_le (h : s.units lid ≤ 0x8000) : s.unitsUp lid ≤ 0x8000 := by
  rw [State.unitsUp, roundUp]
  omega

theorem unitsUp_mod (s : State) (lid : Nat) : s.unitsUp lid % 64 = 0 := by
  rw [State.unitsUp, roundUp]
  omega

/-! ### ZERO (R111) -/

theorem zeroWord_of_clean (h : CleanCore s lid) (k : Nat) : zeroWord lid r k s =
    s.setLace lid (s.stateAt lid r k) (s.lace lid (s.stateAt lid r k) &&& s.lace lid (s.clampAt lid k)) := by
  simp only [zeroWord, h.noteLace_eq]

/-- ZERO over the first `N` words of a replica's state plane. -/
def State.zeroStates (lid r N : Nat) (s : State) : State := forAll (List.range N) (zeroWord lid r) s

theorem zeroStates_succ (N : Nat) (s : State) :
    s.zeroStates lid r (N + 1) = zeroWord lid r N (s.zeroStates lid r N) := by
  simp [State.zeroStates, forAll, List.range_succ]

/-- Each word of the state plane keeps its clamped units' states alone. -/
theorem zeroStates_effect (h : CleanCore s lid) {N : Nat} (hN : N ≤ 0x40000)
    (hclamp : ∀ j k, j < N → k < N → s.clampAt lid k ≠ s.stateAt lid r j) :
    LaceStep lid (fun w => ∃ k, k < N ∧ w = s.stateAt lid r k) s (s.zeroStates lid r N) ∧
      ∀ k, k < N → (s.zeroStates lid r N).lace lid (s.stateAt lid r k) =
        s.lace lid (s.stateAt lid r k) &&& s.lace lid (s.clampAt lid k) := by
  induction N with
  | zero => exact ⟨.refl .., fun k hk => absurd hk (Nat.not_lt_zero k)⟩
  | succ N ih =>
    obtain ⟨hstep, hwords⟩ := ih (by omega) fun j k hj hk => hclamp j k (by omega) (by omega)
    have hnew : ¬ ∃ k, k < N ∧ s.stateAt lid r N = s.stateAt lid r k := by
      rintro ⟨k, hk, he⟩
      rw [stateAt_eq_iff _ _ _ (by omega) (by omega)] at he
      omega
    have hkeep : ¬ ∃ k, k < N ∧ s.clampAt lid N = s.stateAt lid r k :=
      fun ⟨k, hk, he⟩ => hclamp k N (by omega) (by omega) he
    have hset := laceStep_setLace (hstep.clean h) (s.stateAt lid r N)
      (s.lace lid (s.stateAt lid r N) &&& s.lace lid (s.clampAt lid N))
    rw [zeroStates_succ, zeroWord_of_clean (hstep.clean h), hstep.layout.stateAt_eq, hstep.layout.clampAt_eq, hstep.lace_eq hnew,
      hstep.lace_eq hkeep]
    refine ⟨(hstep.mono ?_).trans (hset.mono ?_), fun k hk => ?_⟩
    · rintro w ⟨k, hk, rfl⟩
      exact ⟨k, by omega, rfl⟩
    · rintro w rfl
      exact ⟨N, by omega, rfl⟩
    · rcases Nat.lt_succ_iff_lt_or_eq.1 hk with hlt | rfl
      · rw [hset.lace_eq fun he => hnew ⟨k, hlt, he.symm⟩, hwords k hlt]
      · exact lace_setLace_same (hstep.clean h) ..

/-! ### Fields to their biases (R111) -/

theorem LaceStep.tile_eq {W : Nat → Prop} (h : LaceStep lid W s t) : (t.core lid).mem .tile = (s.core lid).mem .tile := by
  rw [h.own]
  rfl

/-- The tables of a core lie in tile memory, which work on lace memory leaves (R47). -/
theorem LaceStep.modelIndex_eq {W : Nat → Prop} (h : LaceStep lid W s t) (i : Nat) : t.modelIndex lid i = s.modelIndex lid i := by
  have ht : t.getF (cTables lid) = s.getF (cTables lid) := h.step.2.2 _ (by simp [Fld.Ok, cTables]) (by simp)
  simp only [State.modelIndex, State.rdNat, State.rd, h.tile_eq, h.layout.unitsUp_eq, ht]

theorem LaceStep.bias_eq {W : Nat → Prop} (h : LaceStep lid W s t) (i : Nat) : t.bias lid i = s.bias lid i := by
  have ht : t.getF (cTables lid) = s.getF (cTables lid) := h.step.2.2 _ (by simp [Fld.Ok, cTables]) (by simp)
  simp only [State.bias, State.rdNat, State.rd, h.tile_eq, ht]

theorem bias_eq (h : MemSame lid s t) (hl : SameLayout lid s t) (i : Nat) : t.bias lid i = s.bias lid i := by
  have ht : t.getF (cTables lid) = s.getF (cTables lid) :=
    hl _ (by simp [Fld.Ok, cTables]) (by simp only [Fld.base, cTables]; omega)
  simp only [State.bias, State.rdNat, State.rd, h .tile, ht]

/-- Setting the first `N` fields of a replica to their biases. -/
def State.setBiases (lid r N : Nat) (s : State) : State := forAll (List.range N) (fieldToBias lid r) s

theorem setBiases_succ (N : Nat) (s : State) :
    s.setBiases lid r (N + 1) = fieldToBias lid r N (s.setBiases lid r N) := by
  simp [State.setBiases, forAll, List.range_succ]

theorem toInt_ofInt_bias (s : State) (lid i : Nat) : (BitVec.ofInt 32 (s.bias lid i)).toInt = s.bias lid i := by
  rw [State.bias, BitVec.ofInt_toInt]

/-- Every mapped unit's field becomes its bias; an unmapped unit's stays. -/
theorem setBiases_effect (h : CleanCore s lid) {N : Nat} (hN : N ≤ 0x40000) :
    LaceStep lid (fun w => ∃ i, i < N ∧ w = s.fieldAt lid r i) s (s.setBiases lid r N) ∧
      ∀ i, i < N → (s.setBiases lid r N).field lid r i =
        if s.modelIndex lid i = 0xFFFFFFFF then s.field lid r i else s.bias lid i := by
  induction N with
  | zero => exact ⟨.refl .., fun k hk => absurd hk (Nat.not_lt_zero k)⟩
  | succ N ih =>
    obtain ⟨hstep, hfields⟩ := ih (by omega)
    have hnew : ¬ ∃ i, i < N ∧ s.fieldAt lid r N = s.fieldAt lid r i := by
      rintro ⟨i, hi, he⟩
      rw [fieldAt_eq_iff _ _ _ (by omega) (by omega)] at he
      omega
    have hmono := hstep.mono (V := fun w => ∃ i, i < N + 1 ∧ w = s.fieldAt lid r i) fun w ⟨i, hi, hw⟩ => ⟨i, by omega, hw⟩
    rw [setBiases_succ, fieldToBias, hstep.modelIndex_eq, hstep.bias_eq, hstep.layout.fieldAt_eq]
    split
    case isTrue hm =>
      refine ⟨hmono, fun i hi => ?_⟩
      rcases Nat.lt_succ_iff_lt_or_eq.1 hi with hlt | rfl
      · exact hfields i hlt
      · rw [if_pos hm, State.field, State.field, hstep.layout.fieldAt_eq, hstep.lace_eq hnew]
    case isFalse hm =>
      have hset := laceStep_setLace (hstep.clean h) (s.fieldAt lid r N) (BitVec.ofInt 32 (s.bias lid N))
      refine ⟨hmono.trans (hset.mono fun w hw => ⟨N, by omega, hw⟩), fun i hi => ?_⟩
      rcases Nat.lt_succ_iff_lt_or_eq.1 hi with hlt | rfl
      · have hne : s.fieldAt lid r i ≠ s.fieldAt lid r N := fun he => hnew ⟨i, hlt, he.symm⟩
        rw [← hfields i hlt, State.field, State.field, hset.layout.fieldAt_eq, hstep.layout.fieldAt_eq, hset.lace_eq hne]
      · rw [if_neg hm, State.field, hset.layout.fieldAt_eq, hstep.layout.fieldAt_eq, lace_setLace_same (hstep.clean h),
          toInt_ofInt_bias]

/-! ### The reset of one replica (R111) -/

/-- The words that the reset of a replica may write: fields and states of its units. -/
def replicaWords (s : State) (lid r w : Nat) : Prop :=
  ∃ i, i < s.unitsUp lid ∧ (w = s.fieldAt lid r i ∨ w = s.stateAt lid r (i / 32))

/-- In a core without groups the reset clears states, where ZERO says so, and sets fields to their biases. -/
theorem resetReplica_of_clean (h : CleanCore s lid) (hgroups : s.getF (cGroupCount lid) = 0) (hu : s.units lid ≤ 0x8000)
    (hclamp : ∀ j k, j < s.unitsUp lid / 32 → k < s.unitsUp lid / 32 → s.clampAt lid k ≠ s.stateAt lid r j) (zero : Bool) :
    resetReplica lid zero r s =
      ((if zero then s.zeroStates lid r (s.unitsUp lid / 32) else s).setBiases lid r (s.units lid), none) := by
  have hup := unitsUp_le hu
  have hclean : CleanCore (if zero then s.zeroStates lid r (s.unitsUp lid / 32) else s) lid := by
    cases zero
    · exact h
    · exact (zeroStates_effect h (by omega) hclamp).1.clean h
  have hnote := fun a n => hclean.noteRead_eq .tile a n
  cases zero
  · simp only [resetReplica, Res.on, Bool.false_eq_true, if_false, State.setBiases, h.noteRead_eq]
  · simp only [if_true] at hnote
    simp only [resetReplica, hgroups, List.range_zero, walkRes, Res.on, if_true, State.setBiases]
    rw [← hnote]
    rfl

/-- What the reset of a replica leaves. -/
theorem resetReplica_effect (h : CleanCore s lid) (hgroups : s.getF (cGroupCount lid) = 0) (hu : s.units lid ≤ 0x8000)
    (hclamp : ∀ j k, j < s.unitsUp lid / 32 → k < s.unitsUp lid / 32 → s.clampAt lid k ≠ s.stateAt lid r j) (zero : Bool) :
    ∃ t, resetReplica lid zero r s = (t, none) ∧ LaceStep lid (replicaWords s lid r) s t ∧
      (∀ i, i < s.units lid → t.field lid r i = if s.modelIndex lid i = 0xFFFFFFFF then s.field lid r i else s.bias lid i) ∧
      ∀ i, i < s.unitsUp lid → t.unitState lid r i =
        if zero then s.unitState lid r i && s.clampBit lid i else s.unitState lid r i := by
  have hup := unitsUp_le hu
  have hle := units_le_unitsUp s lid
  have hmod := unitsUp_mod s lid
  rw [resetReplica_of_clean h hgroups hu hclamp]
  have hzero : LaceStep lid (fun w => ∃ k, k < s.unitsUp lid / 32 ∧ w = s.stateAt lid r k) s
        (if zero then s.zeroStates lid r (s.unitsUp lid / 32) else s) ∧
      ∀ k, k < s.unitsUp lid / 32 →
        (if zero then s.zeroStates lid r (s.unitsUp lid / 32) else s).lace lid (s.stateAt lid r k) =
          if zero then s.lace lid (s.stateAt lid r k) &&& s.lace lid (s.clampAt lid k) else s.lace lid (s.stateAt lid r k) := by
    cases zero
    · exact ⟨.refl .., fun _ _ => rfl⟩
    · exact zeroStates_effect h (by omega) hclamp
  generalize (if zero then s.zeroStates lid r (s.unitsUp lid / 32) else s) = z at hzero ⊢
  obtain ⟨hstep, hwords⟩ := hzero
  obtain ⟨hbias, hfields⟩ := setBiases_effect (r := r) (hstep.clean h) (N := s.units lid) (by omega)
  have hfieldAt : ∀ i, z.fieldAt lid r i = s.fieldAt lid r i := hstep.layout.fieldAt_eq r
  simp only [hfieldAt] at hbias
  refine ⟨z.setBiases lid r (s.units lid), rfl, (hstep.mono ?_).trans (hbias.mono ?_), fun i hi => ?_, fun i hi => ?_⟩
  · rintro w ⟨k, hk, rfl⟩
    exact ⟨32 * k, by omega, .inr (by rw [Nat.mul_div_cancel_left k (by decide)])⟩
  · rintro w ⟨i, hi, rfl⟩
    exact ⟨i, by omega, .inl rfl⟩
  · have hne : ¬ ∃ k, k < s.unitsUp lid / 32 ∧ s.fieldAt lid r i = s.stateAt lid r k :=
      fun ⟨k, hk, he⟩ => fieldAt_ne_stateAt s lid r hup (by omega) (by omega) he
    rw [hfields i hi, hstep.modelIndex_eq, hstep.bias_eq, State.field, hfieldAt, hstep.lace_eq hne]
    rfl
  · have hne : ¬ ∃ j, j < s.units lid ∧ s.stateAt lid r (i / 32) = s.fieldAt lid r j :=
      fun ⟨j, hj, he⟩ => fieldAt_ne_stateAt s lid r hup (by omega) (by omega) he.symm
    have hlay : SameLayout lid s (z.setBiases lid r (s.units lid)) := hstep.layout.trans hbias.layout
    rw [State.unitState, hlay.stateAt_eq, hbias.lace_eq hne, hwords _ (by omega)]
    cases zero
    · rfl
    · simp only [if_true, bitOf, BitVec.getLsbD_and]
      rfl

/-! ### The reset step (R105, R111) -/

theorem restartReset_eq (hmask : bitsOf op 0 16 = 2 ^ r) (hr : r < 16) : restartReset lid op s =
    State.suaEnd lid (resetReplica lid (bitOf op 113) r (s.countRestart lid (bitOf op 114))) := by
  rw [restartReset, hmask, maskReplicas_two_pow hr, walkRes_singleton]
  rfl

/-! ### The replay step (R105, R112) -/

/-- A walk of a unit's list of one entry, when the unit publishes nothing, is one update. -/
theorem flip_single (h : CleanCore s lid) {i : Nat} {d e : W32} (hd : d = s.lace lid (s.descAt lid i)) (hlist : bitOf d 13 = false)
    (hpub : bitOf d 12 = false) (he : e = s.lace lid (bitsOf d 14 18)) (hlast : bitOf e 0 = true)
    (htgt : bitsOf e 17 15 < s.units lid) (r : Nat) : s.flip lid r i true none [] =
      ((s.addField lid r (bitsOf e 17 15) (sbitsOf e 1 16)).addFree (cLaceStalls lid), none) := by
  subst he
  have hp : bitsOf d 14 18 < 0x40000 := bitsOf_lt ..
  have hwalk := walkList_single h hp hlast htgt (src := none) (exempt := []) (by simp [State.conflicts]) r true
  simp only [State.flip, ← hd, h.laceBad_eq_false, h.noteLace_eq, hlist, hpub, Bool.false_eq_true, if_false, hwalk]
  rfl

/-- The replay of a replica with one unit in state 1 flips that unit. -/
theorem replayReplica_single (h : CleanCore s lid) {i : Nat} (hi : i < s.unitsUp lid)
    (hone : ∀ j, j < s.unitsUp lid → (s.unitState lid r j = true ↔ j = i)) :
    replayReplica lid r s = s.flip lid r i true none [] := by
  have hnote : forAll ((List.range (s.unitsUp lid / 32)).map (s.stateAt lid r)) (fun w t => t.noteLace lid w) s = s :=
    forAll_eq_self fun w _ => h.noteLace_eq w
  simp only [replayReplica, hnote, filter_range_eq_singleton hi hone, walkRes_singleton]

/-- At a stop with nothing to send a replay retires. -/
theorem retireReplay_of_idle (h : (t.stop lid).outbound = []) :
    t.retireReplay lid = (t.modCore lid fun c => { c with replayed := false }).retire lid .s := by
  simp only [State.retireReplay, flush_of_outbound_nil h, h, List.isEmpty_nil, if_true]

theorem restartReplay_of_walked (h : (s.core lid).replayed = true) (op : OpWord) : restartReplay lid op s = s.retireReplay lid := by
  rw [restartReplay, if_pos h]

theorem restartReplay_single (h : CleanCore s lid) (hmask : bitsOf op 0 16 = 2 ^ r) (hr : r < 16) {i : Nat} {d e : W32}
    (hi : i < s.unitsUp lid) (hone : ∀ j, j < s.unitsUp lid → (s.unitState lid r j = true ↔ j = i))
    (hd : d = s.lace lid (s.descAt lid i)) (hlist : bitOf d 13 = false) (hpub : bitOf d 12 = false)
    (he : e = s.lace lid (bitsOf d 14 18)) (hlast : bitOf e 0 = true) (htgt : bitsOf e 17 15 < s.units lid)
    (hnew : (s.core lid).replayed = false) : restartReplay lid op s =
      ((s.addField lid r (bitsOf e 17 15) (sbitsOf e 1 16)).addFree (cLaceStalls lid)).retireReplay lid := by
  rw [restartReplay, if_neg (by simp [hnew]), hmask, maskReplicas_two_pow hr, walkRes_singleton, replayReplica_single h hi hone,
    flip_single h hd hlist hpub he hlast htgt]

/-- Retirement leaves a core's memories and its layout. -/
theorem memSame_of_retire {q : Queue} (h : RegsOnly [qPc lid q, qOps lid q] s t) : MemSame lid s t :=
  fun m => by rw [h.core_eq]

theorem sameLayout_of_retire {q : Queue} (h : RegsOnly [qPc lid q, qOps lid q] s t) : SameLayout lid s t := by
  refine h.2.regsBelow ?_
  simp only [List.forall_mem_cons, Fld.base, qPc, qOps]
  refine ⟨?_, ?_, List.forall_mem_nil _⟩ <;> omega

/-- The fields of an update lie below the queues' registers. -/
theorem updateFields_apart_queue (lid : Nat) (q : Queue) : ∀ g ∈ [cUpdates lid, cFieldSat lid, cSatMask lid, cLaceStalls lid],
    (qPc lid q).Apart g ∧ (qOps lid q).Apart g := by
  intro g hg
  refine queue_apart_of_below q ?_
  simp only [List.mem_cons, List.not_mem_nil, or_false] at hg
  rcases hg with rfl | rfl | rfl | rfl <;> simp only [Fld.base, cUpdates, cFieldSat, cSatMask, cLaceStalls] <;> omega

/-- A replay's end: the replay is no longer marked as walked, and the op retires. -/
theorem replayDone_retire {l : List Fld} (h : CoreStep lid l s t) (ha : ∀ g ∈ l, (qPc lid .s).Apart g ∧ (qOps lid .s).Apart g)
    (hin : s.getF (qPc lid .s) < 4095) :
    Retired lid .s s ((t.modCore lid fun c => { c with replayed := false }).retire lid .s) ∧
      ((t.modCore lid fun c => { c with replayed := false }).retire lid .s).core lid = { t.core lid with replayed := false } ∧
      CoreStep lid ([qPc lid .s, qOps lid .s] ++ l) s ((t.modCore lid fun c => { c with replayed := false }).retire lid .s) ∧
      ∀ f ∈ l, f.Ok → ((t.modCore lid fun c => { c with replayed := false }).retire lid .s).getF f = t.getF f := by
  have hall := h.trans (coreStep_modCore lid l (fun c => { c with replayed := false }) t)
  obtain ⟨hret, hregs⟩ := retire_of_onlyFields hall.2.2 ha hin
  refine ⟨hret, ?_, (hall.mono fun f hf => List.mem_append_right _ hf).trans ((hregs.coreStep lid).mono (by simp +contextual)),
    fun f hf hok => (getF_of_retire hregs hok (ha f hf)).trans (getF_modCore ..)⟩
  rw [hregs.core_eq, core_modCore_same]

end Restart

theorem restartSteps : RestartStepsRule := by
  unfold RestartStepsRule
  rintro s lid r op hhead hphase hop hres hmask hr hr16 hclean hout
  have hok : s.maskOk lid (bitsOf op 0 16) = true := hmask ▸ maskOk_two_pow hr16 hr
  refine ⟨fun hstep hgroups hu hclamp => ⟨restartResetOp lid s, guarded_of_lid hhead.core, ?_⟩, ?_, ?_⟩
  · have hcount := regsOnly_countRestart lid (bitOf op 114) s
    have hrestart := cRestart_countRestart lid (bitOf op 114) s
    have hcurve := cCurve_countRestart lid (bitOf op 114) s
    have hop' : restartResetOp lid s = _ :=
      (restartOp_of_atHead hhead hphase hop hres hstep (by simp) hok (restartReset lid)).trans (restartReset_eq hmask hr16)
    rw [hop']
    generalize s.countRestart lid (bitOf op 114) = b at *
    have hlay : SameLayout lid s b := hcount.2.regsBelow (by
      simp only [List.forall_mem_cons, Fld.base, cRestart, cCurve]
      refine ⟨?_, ?_, List.forall_mem_nil _⟩ <;> omega)
    have hmem : MemSame lid s b := fun m => by rw [hcount.core_eq]
    have hbgroups : b.getF (cGroupCount lid) = 0 :=
      (hlay _ (by simp [Fld.Ok, cGroupCount]) (by simp only [Fld.base, cGroupCount]; omega)).trans hgroups
    obtain ⟨x, hx, hwork, hfields, hstates⟩ := resetReplica_effect (r := r) (hmem.clean hclean) hbgroups
      (by rwa [hlay.units_eq]) (by simpa only [hlay.unitsUp_eq, hlay.clampAt_eq, hlay.stateAt_eq] using hclamp) (bitOf op 113)
    simp only [hlay.units_eq, hlay.unitsUp_eq, modelIndex_eq hmem hlay, field_eq hmem hlay, unitState_eq hmem hlay,
      clampBit_eq hmem hlay, bias_eq hmem hlay] at hfields hstates
    have hall : CoreStep lid [cRestart lid, cCurve lid] s x := (hcount.coreStep lid).trans (hwork.coreStep _)
    rw [hx, suaEnd_none (by rw [hall.stop_eq, hout])]
    have hcounters : ∀ g ∈ [cRestart lid, cCurve lid], g ∈ runCounters lid := by simp [runCounters]
    obtain ⟨hret, hregs⟩ := retire_of_onlyFields hall.2.2 (fun g hg => runCounters_apart_queue lid .s g (hcounters g hg)) hhead.inside
    have hkeep : ∀ f ∈ [cRestart lid, cCurve lid], (x.retire lid .s).getF f = b.getF f := fun f hf =>
      have hok := runCounters_ok lid f (hcounters f hf)
      (getF_of_retire hregs hok (runCounters_apart_queue lid .s f (hcounters f hf))).trans (hwork.step.2.2 f hok (by simp))
    refine ⟨hret, fun i hi => ?_, fun i hi => ?_, ?_, ?_, fun m a ha => ?_, (hall.mono ?_).trans ((hregs.coreStep lid).mono ?_)⟩
    · rw [field_eq (memSame_of_retire hregs) (sameLayout_of_retire hregs), hfields i hi]
    · rw [unitState_eq (memSame_of_retire hregs) (sameLayout_of_retire hregs), hstates i hi]
    · rw [hkeep _ (by simp), hrestart]
    · rw [hkeep _ (by simp), hcurve]
    · rw [hregs.core_eq, hwork.words m a (ha.imp_right ?_), hcount.core_eq]
      rintro hne ⟨i, hi, hw⟩
      rw [hlay.unitsUp_eq] at hi
      rw [hlay.fieldAt_eq, hlay.stateAt_eq] at hw
      exact hw.elim (hne i hi).1 (hne i hi).2
    · simp
    · simp
  · rintro i tgt w d e hstep hzero hcounts hi hone hd hlist hpub he hlast rfl htgt rfl hnew
    have hop' : restartReplayOp lid s = _ :=
      (restartOp_of_atHead hhead hphase hop hres hstep (fun _ => ⟨hzero, hcounts⟩) hok (restartReplay lid)).trans
        (restartReplay_single hclean hmask hr16 hi hone hd hlist hpub he hlast htgt hnew)
    obtain ⟨hall, hown, hlace, hbytes, hupdates⟩ := addField_addFree_effect hclean r (bitsOf e 17 15) (sbitsOf e 1 16) rfl
    refine ⟨restartReplayOp lid s, guarded_of_lid hhead.core, ?_⟩
    rw [hop']
    generalize (s.addField lid r (bitsOf e 17 15) (sbitsOf e 1 16)).addFree (cLaceStalls lid) = x at *
    rw [retireReplay_of_idle (by rw [hall.stop_eq, hout])]
    obtain ⟨hret, hcore, hdone, hkeep⟩ := replayDone_retire hall (updateFields_apart_queue lid .s) hhead.inside
    have hmem : MemSame lid x ((x.modCore lid fun c => { c with replayed := false }).retire lid .s) := fun m => by
      rw [hcore]
      cases m <;> rfl
    refine ⟨hret, by rw [hcore], by rw [hmem.lace_eq, hlace], fun m a ha => by rw [hmem m]; exact hbytes m a ha, ?_, hdone⟩
    rw [hkeep _ (by simp) (cUpdates_ok lid), hupdates]
  · intro hstep hzero hcounts hwalked
    have hop' : restartReplayOp lid s = s.retireReplay lid :=
      (restartOp_of_atHead hhead hphase hop hres hstep (fun _ => ⟨hzero, hcounts⟩) hok (restartReplay lid)).trans
        (restartReplay_of_walked hwalked op)
    refine ⟨restartReplayOp lid s, guarded_of_lid hhead.core, ?_⟩
    rw [hop', retireReplay_of_idle hout]
    obtain ⟨hret, hcore, hstep, -⟩ := replayDone_retire (CoreStep.refl lid [] s) (by simp) hhead.inside
    exact ⟨hret, hcore, hstep⟩

/-- Settles O24: SUA.RESULT by what it leaves at the core and, for the leader, at the root; the reset of a replica by induction on
its words; the replay of one unit with a list of one entry as one update (`walkList_single`). -/
theorem sweepResultAndRestart : Obligations.SweepResultAndRestart := ⟨sweepAndResult, restartSteps⟩

end Sys2Proof.Machine
end

section
/-!
PROOFS. The lanes of vector registers (R164), checks of vector ops, and what their end leaves (R188, R190, R213).
-/
namespace Sys2Proof.Machine

section VectorOps

variable {s t u : State} {lid r p : Nat} {l m : List Fld} {P Q : Nat → Nat → Prop}

/-! ### Lanes (R164) -/

theorem lane_congr (hc : t.core lid = s.core lid) (r i : Nat) : t.lane lid r i = s.lane lid r i := by
  simp only [State.lane, hc]

theorem core_setLane (lid r i : Nat) (v : W32) (s : State) : (s.setLane lid r i v).core lid =
    { s.core lid with vregs := tblPut (fun _ => 0) (64 * r + i) v (s.core lid).vregs } := by
  rw [State.setLane, core_modCore_same]

theorem lane_setLane_same (lid r i : Nat) (v : W32) (s : State) : (s.setLane lid r i v).lane lid r i = v := by
  rw [State.lane, core_setLane, tblGet_tblPut_same]

theorem lane_setLane_ne {i q j : Nat} (v : W32) (hi : i < 64) (hj : j < 64) (h : ¬ (q = r ∧ j = i)) :
    (s.setLane lid r i v).lane lid q j = s.lane lid q j := by
  have hne : 64 * q + j ≠ 64 * r + i := by omega
  rw [State.lane, core_setLane, tblGet_tblPut_ne _ hne]
  rfl

/-- Work on lanes and on the register fields of `l`: of the core only lanes change, and those only where `P` says, by register
and lane. -/
structure LaneStep (lid : Nat) (l : List Fld) (P : Nat → Nat → Prop) (s t : State) : Prop where
  step : CoreStep lid l s t
  only : LanesOnly lid P s t

theorem LaneStep.refl (lid : Nat) (l : List Fld) (P : Nat → Nat → Prop) (s : State) : LaneStep lid l P s s :=
  ⟨.refl .., rfl, fun _ _ _ _ => rfl⟩

theorem LaneStep.trans (h : LaneStep lid l P s t) (k : LaneStep lid l P t u) : LaneStep lid l P s u := by
  obtain ⟨hstep, hown, hlanes⟩ := h
  obtain ⟨kstep, kown, klanes⟩ := k
  exact ⟨hstep.trans kstep, by rw [kown, hown], fun q i hi hP => (klanes q i hi hP).trans (hlanes q i hi hP)⟩

theorem LaneStep.mono (h : LaneStep lid l P s t) (hl : ∀ f ∈ l, f ∈ m) (hP : ∀ q i, P q i → Q q i) : LaneStep lid m Q s t :=
  ⟨h.step.mono hl, h.only.1, fun q i hi hQ => h.only.2 q i hi fun hp => hQ (hP q i hp)⟩

theorem LaneStep.lane_eq (h : LaneStep lid l P s t) {q i : Nat} (hi : i < 64) (hP : ¬ P q i) :
    t.lane lid q i = s.lane lid q i := h.only.2 q i hi hP

theorem LaneStep.memSame (h : LaneStep lid l P s t) : MemSame lid s t := by
  intro k
  rw [h.only.1]
  cases k <;> rfl

theorem laneStep_setLane (lid r : Nat) {i : Nat} (hi : i < 64) (v : W32) (s : State) :
    LaneStep lid [] (fun q j => q = r ∧ j = i) s (s.setLane lid r i v) :=
  ⟨coreStep_modCore .., by rw [core_setLane], fun _ _ hj hP => lane_setLane_ne v hi hj hP⟩

/-- Work on registers leaves every lane. -/
theorem Counted.laneStep (h : Counted l s t) (lid : Nat) (P : Nat → Nat → Prop) : LaneStep lid l P s t :=
  ⟨h.coreStep lid, by rw [h.core_eq], fun q i _ _ => lane_congr (h.core_eq lid) q i⟩

theorem RegsOnly.counted (h : RegsOnly l s t) : Counted l s t := by
  obtain ⟨hrest, honly⟩ := h
  exact ⟨by rw [hrest], honly⟩

/-! ### Lane pairs (R164) -/

theorem append_extractLsb' (v : W64) : v.extractLsb' 32 32 ++ v.extractLsb' 0 32 = v := by
  refine BitVec.eq_of_getLsbD_eq fun i hi => ?_
  rw [BitVec.getLsbD_append]
  by_cases h : i < 32
  · simp [h]
  · simp [h, show i - 32 < 32 by omega, show 32 + (i - 32) = i by omega]

theorem pairBits_setPairBits_same (lid r : Nat) (hp : p < 32) (v : W64) (s : State) :
    (s.setPairBits lid r p v).pairBits lid r p = v := by
  rw [State.pairBits, State.setPairBits, lane_setLane_same, lane_setLane_ne _ (by omega) (by omega) (by omega), lane_setLane_same,
    append_extractLsb']

theorem laneStep_setPairBits (lid r : Nat) (hp : p < 32) (v : W64) (s : State) :
    LaneStep lid [] (fun q i => q = r ∧ (i = 2 * p ∨ i = 2 * p + 1)) s (s.setPairBits lid r p v) :=
  ((laneStep_setLane lid r (by omega) _ s).mono (by simp) fun _ _ h => ⟨h.1, .inl h.2⟩).trans
    ((laneStep_setLane lid r (by omega) _ _).mono (by simp) fun _ _ h => ⟨h.1, .inr h.2⟩)

theorem LaneStep.pairBits_eq (h : LaneStep lid l P s t) {q k : Nat} (hk : k < 32) (hlo : ¬ P q (2 * k)) (hhi : ¬ P q (2 * k + 1)) :
    t.pairBits lid q k = s.pairBits lid q k := by
  rw [State.pairBits, State.pairBits, h.lane_eq (by omega) hlo, h.lane_eq (by omega) hhi]

/-- A number that 64 bits hold is read back. -/
theorem toInt_ofInt_64 {x : Int} (hlo : -2 ^ 63 ≤ x) (hhi : x < 2 ^ 63) : (BitVec.ofInt 64 x).toInt = x := by
  rw [BitVec.toInt_ofInt]
  exact Int.bmod_eq_of_le (by omega) (by omega)

theorem pair_bounds (s : State) (lid r p : Nat) : -2 ^ 63 ≤ s.pair lid r p ∧ s.pair lid r p < 2 ^ 63 :=
  ⟨BitVec.le_toInt .., BitVec.toInt_lt ..⟩

theorem pair_setPair_same (lid r : Nat) (hp : p < 32) {x : Int} (hlo : -2 ^ 63 ≤ x) (hhi : x < 2 ^ 63) (s : State) :
    (s.setPair lid r p x).pair lid r p = x := by
  rw [State.pair, State.setPair, pairBits_setPairBits_same lid r hp, toInt_ofInt_64 hlo hhi]

/-! ### Checks (R190) -/

theorem firstFault_cons (b : Bool) (c : Nat) (cs : List (Bool × Nat)) :
    firstFault ((b, c) :: cs) = if b then some c else firstFault cs := by
  cases b <;> rfl

theorem firstFault_nil : firstFault [] = none := rfl

theorem vecRun_none (lid : Nat) (f : State → State) (s : State) : s.vecRun lid none f = (f s).vecEnd lid := rfl

theorem vecRun_some (lid c : Nat) (f : State → State) (s : State) : s.vecRun lid (some c) f = s.opFault lid .v c := rfl

/-! ### Reads of clean memories (R188) -/

theorem flagIf_false (f : Fld) (s : State) : s.flagIf f false = s := rfl

theorem CleanCore.rdBad_eq_false (h : CleanCore s lid) (m : CoreMem) (a n : Nat) : s.rdBad lid m a n = false :=
  rdBad_of_clean (by simp [Mem.badWords, h m])

theorem CleanCore.vecReads_eq (h : CleanCore s lid) (a n : Nat) : s.vecReads lid a n = s := by
  rw [State.vecReads, h.noteRead_eq, h.rdBad_eq_false, flagIf_false]

theorem CleanCore.vecReadsLace_eq (h : CleanCore s lid) (a n : Nat) : s.vecReadsLace lid a n = s :=
  forAll_eq_self fun w _ => by simp only [h.noteLace_eq, h.laceBad_eq_false, flagIf_false]

/-! ### The end of a vector op (R188, R213) -/

theorem cVecOps_ok (lid : Nat) : (cVecOps lid).Ok := by simp [Fld.Ok, cVecOps]
theorem cVecStalls_ok (lid : Nat) : (cVecStalls lid).Ok := by simp [Fld.Ok, cVecStalls]

theorem cVecOps_apart_cVecStalls (lid : Nat) : (cVecOps lid).Apart (cVecStalls lid) := by
  simp only [Fld.Apart, Fld.base, cVecOps, cVecStalls, corePage]
  omega

/-- A field that the end of a vector op leaves. -/
structure EndLeaves (lid : Nat) (f : Fld) : Prop where
  ok : f.Ok
  pc : (qPc lid .v).Apart f
  ops : (qOps lid .v).Apart f
  vecOps : (cVecOps lid).Apart f
  stalls : (cVecStalls lid).Apart f

theorem vecCounters_apart_queue (lid : Nat) (q : Queue) :
    ∀ g ∈ [cVecOps lid, cVecStalls lid], (qPc lid q).Apart g ∧ (qOps lid q).Apart g := by
  simp only [List.forall_mem_cons]
  refine ⟨queue_apart_of_below q ?_, queue_apart_of_below q ?_, List.forall_mem_nil _⟩ <;>
    simp only [Fld.base, cVecOps, cVecStalls] <;> omega

/-- The op and its waits are counted. -/
def State.countVecOp (lid : Nat) (s : State) : State := (s.incF (cVecOps lid) 1).addFree (cVecStalls lid)

theorem vecEnd_eq (lid : Nat) (s : State) : s.vecEnd lid = (s.countVecOp lid).retire lid .v := rfl

theorem counted_countVecOp (lid : Nat) (s : State) : Counted [cVecOps lid, cVecStalls lid] s (s.countVecOp lid) :=
  (counted_incF 1 (cVecOps_ok lid) (by simp)).trans (counted_addFree (cVecStalls_ok lid) (by simp))

theorem cVecOps_countVecOp (lid : Nat) (s : State) :
    (s.countVecOp lid).getF (cVecOps lid) = satAdd 64 (s.getF (cVecOps lid)) 1 := by
  rw [State.countVecOp, State.addFree, getF_used,
    getF_incF_apart _ _ _ (cVecOps_ok lid) (cVecStalls_ok lid) (cVecOps_apart_cVecStalls lid), getF_incF_same _ _ (cVecOps_ok lid)]
  rfl

/-- A vector op whose work was on its core and on fields that its end leaves completes; the end leaves the core and those
fields. -/
theorem vecEnd_done (h : CoreStep lid l s t) (hl : ∀ f ∈ l, EndLeaves lid f) (hin : s.getF (qPc lid .v) < 4095) :
    VecDone lid l s (t.vecEnd lid) ∧ (t.vecEnd lid).core lid = t.core lid ∧ ∀ f ∈ l, (t.vecEnd lid).getF f = t.getF f := by
  have hcount := counted_countVecOp lid t
  have hall : CoreStep lid (l ++ [cVecOps lid, cVecStalls lid]) s (t.countVecOp lid) :=
    (h.mono fun _ => List.mem_append_left _).trans ((hcount.coreStep lid).mono fun _ => List.mem_append_right _)
  have hqueue : ∀ g ∈ l ++ [cVecOps lid, cVecStalls lid], (qPc lid .v).Apart g ∧ (qOps lid .v).Apart g := by
    intro g hg
    rcases List.mem_append.1 hg with hg | hg
    · exact ⟨(hl g hg).pc, (hl g hg).ops⟩
    · exact vecCounters_apart_queue lid .v g hg
  obtain ⟨hret, hregs⟩ := retire_of_onlyFields hall.2.2 hqueue hin
  rw [vecEnd_eq]
  refine ⟨⟨hret, ?_, (hall.mono ?_).trans ((hregs.coreStep lid).mono ?_)⟩, ?_, fun f hf => ?_⟩
  · rw [getF_of_retire hregs (cVecOps_ok lid) (vecCounters_apart_queue lid .v _ (by simp)), cVecOps_countVecOp,
      h.2.2 _ (cVecOps_ok lid) fun g hg => (hl g hg).vecOps]
  · intro f hf
    simp only [List.mem_append, List.mem_cons, List.not_mem_nil, or_false] at hf ⊢
    tauto
  · intro f hf
    simp only [List.mem_append, List.mem_cons, List.not_mem_nil, or_false] at hf ⊢
    tauto
  · rw [hregs.core_eq, hcount.core_eq]
  · obtain ⟨hok, hpc, hops, hvec, hstalls⟩ := hl f hf
    rw [getF_of_retire hregs hok ⟨hpc, hops⟩, hcount.2 f hok (by simpa using ⟨hvec.symm, hstalls.symm⟩)]

/-- The end of a vector op leaves what its work did to the lanes. -/
theorem lanesOnly_congr (h : LanesOnly lid P s t) (hc : u.core lid = t.core lid) : LanesOnly lid P s u :=
  ⟨by rw [hc]; exact h.1, fun q i hi hP => (lane_congr hc q i).trans (h.2 q i hi hP)⟩

theorem pairBits_congr (hc : t.core lid = s.core lid) (r p : Nat) : t.pairBits lid r p = s.pairBits lid r p := by
  simp only [State.pairBits, lane_congr hc]

theorem pair_congr (hc : t.core lid = s.core lid) (r p : Nat) : t.pair lid r p = s.pair lid r p := by
  simp only [State.pair, pairBits_congr hc]

end VectorOps

end Sys2Proof.Machine
end

section
/-!
PROOFS. Scope: VEC.ENERGY and VEC.EFIN (R117, R118, R178, R179).
-/
namespace Sys2Proof.Machine

section Energy

variable {s t : State} {lid r : Nat} {op : OpWord}

/-! ### VEC.ENERGY (R117, R178) -/

theorem field_bounds (s : State) (lid r i : Nat) : -2 ^ 31 ≤ s.field lid r i ∧ s.field lid r i < 2 ^ 31 :=
  ⟨BitVec.le_toInt .., BitVec.toInt_lt ..⟩

theorem bias_bounds (s : State) (lid i : Nat) : -2 ^ 31 ≤ s.bias lid i ∧ s.bias lid i < 2 ^ 31 :=
  ⟨BitVec.le_toInt .., BitVec.toInt_lt ..⟩

theorem energyTerm_bounds (s : State) (lid r i : Nat) : -2 ^ 32 ≤ energyTerm s lid r i ∧ energyTerm s lid r i ≤ 2 ^ 32 := by
  have := field_bounds s lid r i
  have := bias_bounds s lid i
  unfold energyTerm
  split_ifs <;> omega

/-- A sum of terms within bounds lies within as many bounds. -/
theorem sum_range_bounds {f : Nat → Int} {b : Int} (h : ∀ i, -b ≤ f i ∧ f i ≤ b) (n : Nat) :
    -(n * b) ≤ ((List.range n).map f).sum ∧ ((List.range n).map f).sum ≤ n * b := by
  induction n with
  | zero => simp
  | succ n ih =>
    have := h n
    rw [List.range_succ, List.map_append, List.sum_append, List.map_singleton, List.sum_singleton]
    push_cast
    constructor <;> linarith [ih.1, ih.2]

/-- The total of a core's units fits lane pairs of 64 bits. -/
theorem energySum_bounds (s : State) (lid r : Nat) :
    -2 ^ 63 ≤ ((List.range (s.units lid)).map (energyTerm s lid r)).sum ∧
      ((List.range (s.units lid)).map (energyTerm s lid r)).sum < 2 ^ 63 := by
  have hu : s.units lid < 65536 := getF_lt (cUnits lid)
  have := sum_range_bounds (energyTerm_bounds s lid r) (s.units lid)
  omega

/-- An energy term written out (R117). -/
theorem energyTerm_eq (s : State) (lid r i : Nat) : energyTerm s lid r i =
    if s.modelIndex lid i ≠ 0xFFFFFFFF ∧ s.unitState lid r i = true then s.bias lid i + s.field lid r i else 0 := by
  unfold energyTerm
  by_cases hm : s.modelIndex lid i = 0xFFFFFFFF
  · rw [if_pos hm, if_neg (by simp [hm])]
  · rw [if_neg hm]
    simp only [hm, ne_eq, not_false_eq_true, true_and]

/-- The two lane pairs that VEC.ENERGY writes. -/
def State.putEnergy (lid d r : Nat) (s : State) : State :=
  (s.setPair lid d 0 ((List.range (s.units lid)).map (energyTerm s lid r)).sum).setPairBits lid d 1
    (BitVec.ofNat 64 ((Nat.testBit (s.getF (cSatMask lid)) r).toNat + 2 ^ 21 * (Nat.testBit (s.getF (cConflictMask lid)) r).toNat))

theorem vecEnergyOp_of_clean (hhead : AtHead s lid .v op) (h : CleanCore s lid) (hop : opOpcode op = 0x6C)
    (hres : opReserved [fVD, (71, 4)] op = false) (hok : firstFault (energyChecks s lid (vReplica op)) = none) :
    vecEnergyOp lid s = (s.putEnergy lid (vD op) (vReplica op)).vecEnd lid := by
  have hbad : (energyWords s lid (vReplica op)).any (s.laceBad lid) = false := by simp [h.laceBad_eq_false]
  have hnote : forAll (energyWords s lid (vReplica op)) (fun w v => v.noteLace lid w) s = s :=
    forAll_eq_self fun w _ => h.noteLace_eq w
  rw [vecEnergyOp, ← hop, vecOp_of_atHead hhead hres]
  simp only [hok, vecRun_none, hbad, h.rdBad_eq_false, Bool.or_self, Bool.toNat_false, Nat.mul_zero, Nat.add_zero, hnote, h.noteRead_eq,
    flagIf_false]
  rfl

theorem putEnergy_effect (lid d r : Nat) (s : State) :
    LaneStep lid [] (fun q i => q = d ∧ i < 4) s (s.putEnergy lid d r) ∧
      (s.putEnergy lid d r).pair lid d 0 = ((List.range (s.units lid)).map (energyTerm s lid r)).sum ∧
      (s.putEnergy lid d r).pairBits lid d 1 = BitVec.ofNat 64 ((Nat.testBit (s.getF (cSatMask lid)) r).toNat +
        2 ^ 21 * (Nat.testBit (s.getF (cConflictMask lid)) r).toNat) := by
  obtain ⟨hlo, hhi⟩ := energySum_bounds s lid r
  have hfirst := laneStep_setPairBits lid d (p := 0) (by decide)
    (BitVec.ofInt 64 ((List.range (s.units lid)).map (energyTerm s lid r)).sum) s
  have hpair := pair_setPair_same lid d (p := 0) (by decide) hlo hhi s
  unfold State.putEnergy
  rw [State.setPair] at *
  generalize s.setPairBits lid d 0 _ = x at *
  have hsecond := fun v => laneStep_setPairBits lid d (p := 1) (by decide) v x
  refine ⟨(hfirst.mono (by simp) ?_).trans ((hsecond _).mono (by simp) ?_), ?_, pairBits_setPairBits_same lid d (by decide) _ x⟩
  · exact fun q i hi => ⟨hi.1, by omega⟩
  · exact fun q i hi => ⟨hi.1, by omega⟩
  · rw [State.pair, (hsecond _).pairBits_eq (by decide) (by omega) (by omega)]
    exact hpair

/-! ### VEC.EFIN (R118, R179) -/

theorem cEnergyOdd_leaves (lid : Nat) : EndLeaves lid (cEnergyOdd lid) := by
  refine ⟨by simp [Fld.Ok, cEnergyOdd], ?_, ?_, ?_, ?_⟩ <;>
    simp only [Fld.Apart, Fld.base, cEnergyOdd, qPc, qOps, cVecOps, cVecStalls, corePage] <;> omega

/-- The four flags of an RFLAGS word are its lowest bits. -/
theorem bits_of_flags : ∀ a b c d : Bool, ∀ f : W64, f = BitVec.ofNat 64 (a.toNat + 2 * b.toNat + 4 * c.toNat + 8 * d.toNat) →
    bitOf f 0 = a ∧ bitOf f 1 = b ∧ bitOf f 2 = c ∧ bitOf f 3 = d ∧ f.toNat < 16 := by
  rintro a b c d _ rfl
  revert a b c d
  decide

/-- What the flags of VEC.EFIN say of a replica's flag words and of its total (R121, R179). -/
theorem bits_rflags (w : W64) (odd : Bool) {f : W64} (hf : f = BitVec.ofNat 64 (rflags w odd)) :
    (bitOf f 0 = true ↔ bitsOf w 0 21 ≠ 0) ∧ (bitOf f 1 = true ↔ bitsOf w 21 21 ≠ 0) ∧ (bitOf f 2 = true ↔ bitsOf w 42 21 ≠ 0) ∧
      bitOf f 3 = odd ∧ f.toNat < 16 := by
  obtain ⟨h0, h1, h2, h3, hlt⟩ := bits_of_flags _ _ _ _ f hf
  refine ⟨?_, ?_, ?_, h3, hlt⟩
  · rw [h0, decide_eq_true_eq]
  · rw [h1, decide_eq_true_eq]
  · rw [h2, decide_eq_true_eq]

theorem regsOnly_flagIf {l : List Fld} {f : Fld} (hf : f.Ok) (hm : f ∈ l) (on : Bool) (s : State) : RegsOnly l s (s.flagIf f on) := by
  cases on
  · exact .refl l s
  · exact regsOnly_setF f 1 hf hm

theorem getF_flagIf_of_one {f : Fld} (hf : f.Ok) (hw : 0 < f.w) {on : Bool} (h : on = true ∨ s.getF f = 1) :
    (s.flagIf f on).getF f = 1 := by
  cases on
  · exact h.resolve_left (by simp)
  · rw [State.flagIf, if_pos rfl, getF_setF_same _ _ hf]
    exact Nat.mod_eq_of_lt (Nat.one_lt_two_pow (by omega))

/-- Half of a number of 64 bits is one. -/
theorem tdiv_neg_bounds {x : Int} (hlo : -2 ^ 63 ≤ x) (hhi : x < 2 ^ 63) :
    -2 ^ 63 ≤ Int.tdiv (-x) 2 ∧ Int.tdiv (-x) 2 < 2 ^ 63 := by
  have hhalf : (Int.tdiv (-x) 2).natAbs = (-x).natAbs / 2 := Int.natAbs_tdiv ..
  omega

/-- One replica of VEC.EFIN writes its two lane pairs, and tells of an odd total. -/
theorem efinOne_effect {d r : Nat} (hr : r < 16) {x : Int} (hlo : -2 ^ 63 ≤ x) (hhi : x < 2 ^ 63) (w : W64) (s : State) :
    LaneStep lid [cEnergyOdd lid] (fun q i => q = d ∧ 4 * r ≤ i ∧ i < 4 * r + 4) s (efinOne lid d r x w s) ∧
      (efinOne lid d r x w s).pair lid d (2 * r) = Int.tdiv (-x) 2 ∧
      (efinOne lid d r x w s).pairBits lid d (2 * r + 1) = BitVec.ofNat 64 (rflags w (decide (x % 2 ≠ 0))) ∧
      (x % 2 ≠ 0 ∨ s.getF (cEnergyOdd lid) = 1 → (efinOne lid d r x w s).getF (cEnergyOdd lid) = 1) := by
  have hodd := cEnergyOdd_leaves lid
  obtain ⟨hlo', hhi'⟩ := tdiv_neg_bounds hlo hhi
  have hfirst := laneStep_setPairBits lid d (p := 2 * r) (by omega) (BitVec.ofInt 64 (Int.tdiv (-x) 2)) s
  have hpair := pair_setPair_same lid d (p := 2 * r) (by omega) hlo' hhi' s
  unfold efinOne
  rw [State.setPair] at *
  dsimp only
  generalize s.setPairBits lid d (2 * r) _ = y at *
  have hsecond := laneStep_setPairBits lid d (p := 2 * r + 1) (by omega) (BitVec.ofNat 64 (rflags w (decide (x % 2 ≠ 0)))) y
  have hbits := pairBits_setPairBits_same lid d (p := 2 * r + 1) (by omega) (BitVec.ofNat 64 (rflags w (decide (x % 2 ≠ 0)))) y
  generalize y.setPairBits lid d (2 * r + 1) _ = z at *
  have hflag : RegsOnly [cEnergyOdd lid] z (z.flagIf (cEnergyOdd lid) (decide (x % 2 ≠ 0))) := regsOnly_flagIf hodd.ok (by simp) _ z
  have hcore := hflag.core_eq lid
  refine ⟨((hfirst.mono (by simp) ?_).trans (hsecond.mono (by simp) ?_)).trans (hflag.counted.laneStep lid _), ?_, ?_, fun h => ?_⟩
  · exact fun q i hi => ⟨hi.1, by omega, by omega⟩
  · exact fun q i hi => ⟨hi.1, by omega, by omega⟩
  · rw [pair_congr hcore, State.pair, hsecond.pairBits_eq (by omega) (by omega) (by omega)]
    exact hpair
  · rw [pairBits_congr hcore, hbits]
  · refine getF_flagIf_of_one hodd.ok (by simp [cEnergyOdd]) (h.imp (by simp) fun hs => ?_)
    rw [hsecond.step.2.2 _ hodd.ok (by simp), hfirst.step.2.2 _ hodd.ok (by simp), hs]

/-- The first `N` replicas of VEC.EFIN, their totals and flag words given. -/
def State.efinAll (lid d : Nat) (x : Nat → Int) (w : Nat → W64) (N : Nat) (s : State) : State :=
  forAll (List.range N) (fun r u => efinOne lid d r (x r) (w r) u) s

theorem efinAll_succ {d : Nat} (x : Nat → Int) (w : Nat → W64) (N : Nat) (s : State) :
    s.efinAll lid d x w (N + 1) = efinOne lid d N (x N) (w N) (s.efinAll lid d x w N) := by
  simp [State.efinAll, forAll, List.range_succ]

theorem efinAll_effect {d : Nat} {x : Nat → Int} (hx : ∀ r, -2 ^ 63 ≤ x r ∧ x r < 2 ^ 63) (w : Nat → W64) {N : Nat} (hN : N ≤ 16)
    (s : State) : LaneStep lid [cEnergyOdd lid] (fun q i => q = d ∧ i < 4 * N) s (s.efinAll lid d x w N) ∧
      ∀ r, r < N → (s.efinAll lid d x w N).pair lid d (2 * r) = Int.tdiv (-x r) 2 ∧
        (s.efinAll lid d x w N).pairBits lid d (2 * r + 1) = BitVec.ofNat 64 (rflags (w r) (decide (x r % 2 ≠ 0))) ∧
        (x r % 2 ≠ 0 → (s.efinAll lid d x w N).getF (cEnergyOdd lid) = 1) := by
  induction N with
  | zero => exact ⟨.refl .., fun k hk => absurd hk (Nat.not_lt_zero k)⟩
  | succ N ih =>
    obtain ⟨hstep, hall⟩ := ih (by omega)
    rw [efinAll_succ]
    obtain ⟨hone, hpair, hbits, hodd⟩ :=
      efinOne_effect (lid := lid) (d := d) (r := N) (by omega) (hx N).1 (hx N).2 (w N) (s.efinAll lid d x w N)
    refine ⟨(hstep.mono (by simp) ?_).trans (hone.mono (by simp) ?_), fun r hr => ?_⟩
    · exact fun q i hi => ⟨hi.1, by omega⟩
    · exact fun q i hi => ⟨hi.1, by omega⟩
    · rcases Nat.lt_succ_iff_lt_or_eq.1 hr with hlt | rfl
      · obtain ⟨hp, hb, ho⟩ := hall r hlt
        refine ⟨?_, ?_, fun h => hodd (.inr (ho h))⟩
        · rw [State.pair, hone.pairBits_eq (by omega) (by omega) (by omega)]
          exact hp
        · rw [hone.pairBits_eq (by omega) (by omega) (by omega), hb]
      · exact ⟨hpair, hbits, fun h => hodd (.inl h)⟩

theorem replicas_le (s : State) (lid : Nat) : s.replicas lid ≤ 16 := by
  have hlt : s.getF (cReplicas lid) < 16 := getF_lt (cReplicas lid)
  rw [State.replicas]
  omega

theorem vecEfinOp_of_atHead (hhead : AtHead s lid .v op) (hop : opOpcode op = 0x6D) (hres : opReserved [fVD, fVA] op = false) :
    vecEfinOp lid s = (s.efinAll lid (vD op) (fun r => s.pair lid (vA op) (2 * r)) (fun r => s.pairBits lid (vA op) (2 * r + 1))
      (s.replicas lid)).vecEnd lid := by
  rw [vecEfinOp, ← hop, vecOp_of_atHead hhead hres]
  rfl

end Energy

end Sys2Proof.Machine
end

section
/-!
PROOFS. Scope: VEC.XCHG and VEC.SWAP (R114-R116, R180, R181).
-/
namespace Sys2Proof.Machine

section Exchange

variable {s t : State} {lid : Nat} {op : OpWord}

/-! ### Masks -/

theorem maskOf_filter_range_succ (p : Nat → Bool) (n : Nat) :
    maskOf ((List.range (n + 1)).filter p) = 2 ^ n * (p n).toNat + maskOf ((List.range n).filter p) := by
  rw [List.range_succ, List.filter_append, maskOf, List.map_append, List.sum_append, Nat.add_comm]
  cases hp : p n <;> simp [hp, maskOf]

/-- The mask of the numbers below `n` that satisfy a predicate has just their bits. -/
theorem testBit_maskOf_filter_range (p : Nat → Bool) (n : Nat) : maskOf ((List.range n).filter p) < 2 ^ n ∧
    ∀ j, (maskOf ((List.range n).filter p)).testBit j = (decide (j < n) && p j) := by
  induction n with
  | zero => exact ⟨by simp [maskOf], fun j => by simp [maskOf]⟩
  | succ n ih =>
    obtain ⟨hlt, hbits⟩ := ih
    rw [maskOf_filter_range_succ]
    refine ⟨?_, fun j => ?_⟩
    · have : 2 ^ n * (p n).toNat ≤ 2 ^ n * 1 := Nat.mul_le_mul_left _ (Bool.toNat_le _)
      rw [pow_succ]
      omega
    · rw [Nat.testBit_two_pow_mul_add _ hlt, hbits]
      by_cases hj : j < n
      · simp [hj, show j < n + 1 by omega]
      · rcases Nat.eq_or_lt_of_le (Nat.not_lt.1 hj) with rfl | hgt
        · cases p n <;> simp
        · rw [if_neg hj, show j - n = (j - n - 1) + 1 by omega, Nat.testBit_succ]
          cases p n <;> simp [show ¬ j < n + 1 by omega]

/-- In a lane a mask of replicas has their bits. -/
theorem bitOf_maskOf_filter_range (p : Nat → Bool) (n : Nat) {a : Nat} (ha : a < 32) :
    bitOf (BitVec.ofNat 32 (maskOf ((List.range n).filter p))) a = (decide (a < n) && p a) := by
  rw [bitOf, BitVec.getLsbD_ofNat, (testBit_maskOf_filter_range p n).2]
  simp [ha]

/-! ### VEC.XCHG (R114, R180) -/

/-- Pair (a, a + 1) takes part in exchange number `e` of `n` replicas (R114). -/
def pairStands (e n a : Nat) : Bool := decide (a % 2 = (if e % 2 = 1 then 0 else 1)) && decide (a + 1 < n)

theorem exchangePairs_eq (e n : Nat) : exchangePairs e n = (List.range n).filter (pairStands e n) := rfl

theorem pairStands_iff (e n a : Nat) : (decide (a < n) && pairStands e n a) = true ↔ a + 1 < n ∧ a % 2 = (e + 1) % 2 := by
  rw [pairStands]
  simp only [Bool.and_eq_true, decide_eq_true_eq]
  split <;> omega

theorem flagsReject_eq_false (w : W64) :
    flagsReject w = false ↔ bitOf w 0 = false ∧ bitOf w 2 = false ∧ bitOf w 3 = false := by
  simp [flagsReject, and_assoc]

theorem acceptPair_iff (ba bb : Nat) (ea eb : Int) (u : Nat) :
    acceptPair ba bb ea eb u = true ↔ 0 ≤ ((ba : Int) - bb) * (ea - eb) ∨ u < actVal metroEntry (((ba : Int) - bb) * (ea - eb)) := by
  simp only [acceptPair]
  split
  case isTrue h => simp [h]
  case isFalse h => simp [h]

/-- A pair is accepted where no flag rejects it and its draw admits it. -/
theorem decidePair_iff (s : State) (lid va a : Nat) : decidePair s lid va a = true ↔
    (∀ q, (q = a ∨ q = a + 1) → ∀ f : W64, f = s.pairBits lid va (2 * q + 1) →
      bitOf f 0 = false ∧ bitOf f 2 = false ∧ bitOf f 3 = false) ∧
    ∀ x : Int, x = ((s.getF (cBeta lid a) : Int) - s.getF (cBeta lid (a + 1))) * (s.pair lid va (2 * a) - s.pair lid va (2 * a + 2)) →
      (0 ≤ x ∨ unitDraw (s.seedOf lid) 4 a (s.keySweep lid) 0 0 < actVal metroEntry x) := by
  rw [decidePair, Bool.and_eq_true, Bool.and_eq_true, Bool.not_eq_true', Bool.not_eq_true', flagsReject_eq_false,
    flagsReject_eq_false, acceptPair_iff]
  constructor
  · rintro ⟨⟨hlo, hhi⟩, hx⟩
    refine ⟨?_, fun x h => h ▸ hx⟩
    rintro q (rfl | rfl) f rfl
    · exact hlo
    · exact hhi
  · rintro ⟨hf, hx⟩
    exact ⟨⟨hf a (.inl rfl) _ rfl, hf (a + 1) (.inr rfl) _ rfl⟩, hx _ rfl⟩

/-- The mask of accepted pairs in lane 0, the mask of the pairs in lane 1, and both counted. -/
def State.putExchange (lid d va e : Nat) (s : State) : State :=
  let ps := exchangePairs e (s.replicas lid)
  let acc := ps.filter (decidePair s lid va)
  (((s.setLane lid d 0 (BitVec.ofNat 32 (maskOf acc))).setLane lid d 1 (BitVec.ofNat 32 (maskOf ps))).incF (cXacc lid)
    acc.length).blocks lid (exchangeBlocks (drawingPairs s lid va ps) s.draw)

/-- The fields that VEC.XCHG counts in. -/
def exchangeFields (lid : Nat) : List Fld := [cXacc lid, cBlocks lid, cHolds lid]

theorem exchangeFields_leaves (lid : Nat) : ∀ f ∈ exchangeFields lid, EndLeaves lid f := by
  simp only [exchangeFields, List.forall_mem_cons]
  refine ⟨?_, ?_, ?_, List.forall_mem_nil _⟩
  all_goals
    refine ⟨by simp [Fld.Ok, cXacc, cBlocks, cHolds], ?_, ?_, ?_, ?_⟩ <;>
      simp only [Fld.Apart, Fld.base, cXacc, cBlocks, cHolds, qPc, qOps, Queue.num, cVecOps, cVecStalls, corePage] <;> omega

theorem putExchange_effect (lid d va e : Nat) (s : State) :
    LaneStep lid (exchangeFields lid) (fun q i => q = d ∧ i < 2) s (s.putExchange lid d va e) ∧
      (s.putExchange lid d va e).lane lid d 0 =
        BitVec.ofNat 32 (maskOf ((exchangePairs e (s.replicas lid)).filter (decidePair s lid va))) ∧
      (s.putExchange lid d va e).lane lid d 1 = BitVec.ofNat 32 (maskOf (exchangePairs e (s.replicas lid))) := by
  have hleaves := exchangeFields_leaves lid
  unfold State.putExchange
  dsimp only
  generalize (exchangePairs e (s.replicas lid)).filter (decidePair s lid va) = acc
  generalize exchangeBlocks (drawingPairs s lid va (exchangePairs e (s.replicas lid))) s.draw = n
  generalize exchangePairs e (s.replicas lid) = ps
  have hfirst := laneStep_setLane lid d (i := 0) (by decide) (BitVec.ofNat 32 (maskOf acc)) s
  have hlane := lane_setLane_same lid d 0 (BitVec.ofNat 32 (maskOf acc)) s
  generalize s.setLane lid d 0 _ = x at *
  have hsecond := laneStep_setLane lid d (i := 1) (by decide) (BitVec.ofNat 32 (maskOf ps)) x
  have hlane' := lane_setLane_same lid d 1 (BitVec.ofNat 32 (maskOf ps)) x
  generalize x.setLane lid d 1 _ = y at *
  have hcount : Counted (exchangeFields lid) y ((y.incF (cXacc lid) acc.length).blocks lid n) :=
    ((counted_incF _ (hleaves _ (by simp [exchangeFields])).ok (by simp [exchangeFields])).trans
      (counted_incF _ (hleaves _ (by simp [exchangeFields])).ok (by simp [exchangeFields]))).trans
      (counted_addFree (hleaves _ (by simp [exchangeFields])).ok (by simp [exchangeFields]))
  have hcore := hcount.core_eq lid
  refine ⟨((hfirst.mono (by simp) ?_).trans (hsecond.mono (by simp) ?_)).trans (hcount.laneStep lid _), ?_, ?_⟩
  · rintro q i ⟨rfl, rfl⟩
    exact ⟨rfl, by decide⟩
  · rintro q i ⟨rfl, rfl⟩
    exact ⟨rfl, by decide⟩
  · rw [lane_congr hcore, hsecond.lane_eq (by decide) (by omega), hlane]
  · rw [lane_congr hcore, hlane']

theorem vecXchgOp_of_atHead (hhead : AtHead s lid .v op) (hop : opOpcode op = 0x6E) (hres : opReserved [fVD, fVA, (81, 10)] op = false) :
    vecXchgOp lid s = if bitsOf op 81 10 = 0 then s.opFault lid .v fVecOperand
      else (s.putExchange lid (vD op) (vA op) (s.getF (cCurve lid) / bitsOf op 81 10)).vecEnd lid := by
  rw [vecXchgOp, ← hop, vecOp_of_atHead hhead hres]
  dsimp only
  by_cases hi : bitsOf op 81 10 = 0
  · rw [if_pos hi, if_pos hi, vecRun_some]
  · rw [if_neg hi, if_neg hi, vecRun_none]
    rfl

/-! ### Words written back (R67, R181, R352) -/

/-- Bytes are the digits of the number that they give (R10). -/
theorem natLe_leNat (bs : List Byte) : natLe bs.length (leNat bs) = bs := by
  induction bs with
  | nil => rfl
  | cons b bs ih =>
    have hb := b.isLt
    rw [List.length_cons, natLe, leNat, show (b.toNat + 256 * leNat bs) % 256 = b.toNat by omega,
      show (b.toNat + 256 * leNat bs) / 256 = leNat bs by omega, ih, BitVec.ofNat_toNat, BitVec.setWidth_eq]

theorem length_rd (s : State) (lid : Nat) (m : CoreMem) (a n : Nat) : (s.rd lid m a n).length = n := by
  simp [State.rd, Mem.load]

/-- A lace word's bytes are those that stand at its place. -/
theorem natLe_lace (s : State) (lid w : Nat) : natLe 4 (s.lace lid w).toNat = s.rd lid .lace (4 * w) 4 := by
  have hlen := length_rd s lid .lace (4 * w) 4
  have hlt : s.rdNat lid .lace (4 * w) 4 < 2 ^ 32 := rdNat_lt ..
  have hrd := natLe_leNat (s.rd lid .lace (4 * w) 4)
  rw [hlen] at hrd
  rwa [State.lace, BitVec.toNat_ofNat, Nat.mod_eq_of_lt hlt]

/-- A word written back as it was read leaves every byte. -/
theorem laceStep_setLace_self (h : CleanCore s lid) (w : Nat) :
    LaceStep lid (fun _ => False) s (s.setLace lid w (s.lace lid w)) := by
  have hset := laceStep_setLace h w (s.lace lid w)
  refine ⟨hset.step, hset.own, hset.clean, fun m a _ => ?_⟩
  by_cases ha : m = .lace ∧ a / 4 = w
  · obtain ⟨rfl, hw⟩ := ha
    obtain ⟨i, hi, rfl⟩ : ∃ i, i < 4 ∧ a = 4 * w + i := ⟨a - 4 * w, by omega, by omega⟩
    have hbyte := byte_wr_inside (m := .lace) (a := 4 * w) (i := i) (bs := natLe 4 (s.lace lid w).toNat) h (by rw [length_natLe]; exact hi)
    rw [State.setLace, hbyte]
    simp only [natLe_lace, State.rd, Mem.load, List.getElem_map, List.getElem_range]
  · exact hset.words m a (by tauto)

/-- Work done in turn on clean memories stays within the words that each part may write. -/
theorem laceStep_forAll {α : Type} {W : Nat → Prop} {f : α → State → State} {l : List α} (h : CleanCore s lid)
    (hf : ∀ a ∈ l, ∀ t, CleanCore t lid → LaceStep lid W t (f a t)) : LaceStep lid W s (forAll l f s) := by
  induction l generalizing s with
  | nil => exact .refl ..
  | cons a l ih =>
    have hhead := hf a (List.mem_cons_self ..) s h
    exact hhead.trans (ih (hhead.clean h) fun b hb => hf b (List.mem_cons_of_mem _ hb))

/-! ### VEC.SWAP (R181) -/

theorem swapPair_of_clean (h : CleanCore s lid) (a : Nat) (exchange : Bool) : swapPair lid a exchange s =
    forAll (List.range (s.unitsUp lid + s.unitsUp lid / 32))
      (fun k t => swapWord lid exchange (s.replBase lid a + k) (s.replBase lid (a + 1) + k) t) s := by
  simp only [swapPair, h.vecReadsLace_eq]

/-- A pair that is not accepted keeps every byte. -/
theorem laceStep_swapPair_false (h : CleanCore s lid) (a : Nat) : LaceStep lid (fun _ => False) s (swapPair lid a false s) := by
  rw [swapPair_of_clean h]
  refine laceStep_forAll h fun k _ t ht => ?_
  have hfirst := laceStep_setLace_self ht (s.replBase lid a + k)
  have hsecond := laceStep_setLace_self (hfirst.clean ht) (s.replBase lid (a + 1) + k)
  rw [hfirst.lace_eq id] at hsecond
  exact hfirst.trans hsecond

/-- Two words exchanged. -/
theorem swapWord_effect (h : CleanCore s lid) {x y : Nat} (hxy : x ≠ y) :
    LaceStep lid (fun w => w = x ∨ w = y) s (swapWord lid true x y s) ∧
      (swapWord lid true x y s).lace lid x = s.lace lid y ∧ (swapWord lid true x y s).lace lid y = s.lace lid x := by
  have hfirst := laceStep_setLace h x (s.lace lid y)
  have hsecond := laceStep_setLace (hfirst.clean h) y (s.lace lid x)
  refine ⟨(hfirst.mono fun _ => .inl).trans (hsecond.mono fun _ => .inr), ?_, lace_setLace_same (hfirst.clean h) ..⟩
  exact (hsecond.lace_eq hxy).trans (lace_setLace_same h ..)

/-- The first `N` words from `x` and from `y` on exchanged. -/
def State.swapWords (lid x y N : Nat) (s : State) : State :=
  forAll (List.range N) (fun k t => swapWord lid true (x + k) (y + k) t) s

theorem swapWords_succ (x y N : Nat) (s : State) :
    s.swapWords lid x y (N + 1) = swapWord lid true (x + N) (y + N) (s.swapWords lid x y N) := by
  simp [State.swapWords, forAll, List.range_succ]

theorem swapWords_effect (h : CleanCore s lid) {x y n : Nat} (hxy : x + n ≤ y ∨ y + n ≤ x) {N : Nat} (hN : N ≤ n) :
    LaceStep lid (fun w => ∃ k, k < N ∧ (w = x + k ∨ w = y + k)) s (s.swapWords lid x y N) ∧
      ∀ k, k < N → (s.swapWords lid x y N).lace lid (x + k) = s.lace lid (y + k) ∧
        (s.swapWords lid x y N).lace lid (y + k) = s.lace lid (x + k) := by
  induction N with
  | zero => exact ⟨.refl .., fun k hk => absurd hk (Nat.not_lt_zero k)⟩
  | succ N ih =>
    obtain ⟨hstep, hwords⟩ := ih (by omega)
    have hx : ¬ ∃ k, k < N ∧ (x + N = x + k ∨ x + N = y + k) := by rintro ⟨k, hk, he⟩; omega
    have hy : ¬ ∃ k, k < N ∧ (y + N = x + k ∨ y + N = y + k) := by rintro ⟨k, hk, he⟩; omega
    obtain ⟨hswap, hnewx, hnewy⟩ := swapWord_effect (hstep.clean h) (x := x + N) (y := y + N) (by omega)
    rw [swapWords_succ]
    refine ⟨(hstep.mono ?_).trans (hswap.mono ?_), fun k hk => ?_⟩
    · rintro w ⟨k, hk, hw⟩
      exact ⟨k, by omega, hw⟩
    · exact fun w hw => ⟨N, by omega, hw⟩
    · rcases Nat.lt_succ_iff_lt_or_eq.1 hk with hlt | rfl
      · rw [hswap.lace_eq (by omega), hswap.lace_eq (by omega)]
        exact hwords k hlt
      · rw [hnewx, hnewy, hstep.lace_eq hx, hstep.lace_eq hy]
        exact ⟨rfl, rfl⟩

theorem swapPair_true (h : CleanCore s lid) (a : Nat) : swapPair lid a true s =
    s.swapWords lid (s.replBase lid a) (s.replBase lid (a + 1)) (s.unitsUp lid + s.unitsUp lid / 32) := swapPair_of_clean h a true

theorem vecSwapOp_of_atHead (hhead : AtHead s lid .v op) (hop : opOpcode op = 0x6F) (hres : opReserved [fVA] op = false)
    {acc step : Nat} (hacc : acc = bitsOf (s.lane lid (vA op) 0) 0 16) (hstep : step = bitsOf (s.lane lid (vA op) 1) 0 16) :
    vecSwapOp lid s = s.vecRun lid (firstFault (swapChecks s lid acc step)) fun t =>
      forAll (maskReplicas step) (fun a u => swapPair lid a (acc.testBit a) u) t := by
  rw [vecSwapOp, ← hop, vecOp_of_atHead hhead hres, hacc, hstep]
  rfl

/-- A mask of accepted pairs that were not proposed, or a proposed pair past the core's replicas, is an operand fault. -/
theorem swapChecks_operand {acc step : Nat} (h : (∃ a, a < 16 ∧ Nat.testBit acc a = true ∧ Nat.testBit step a = false) ∨
    (∃ a, a < 16 ∧ Nat.testBit step a = true ∧ s.replicas lid ≤ a + 1)) :
    firstFault (swapChecks s lid acc step) = some fVecOperand := by
  have hmem : ∀ m a, a ∈ swapChecks.maskReplicas' m ↔ a < 16 ∧ m.testBit a = true := fun m a => mem_maskReplicas
  unfold swapChecks
  dsimp only
  rw [firstFault_cons, firstFault_cons]
  split
  · rfl
  case isFalse hnot =>
    refine if_pos ?_
    simp only [List.any_eq_true, hmem, Bool.not_eq_true', not_exists, decide_eq_true_eq] at hnot ⊢
    rcases h with ⟨a, ha, hb, hs⟩ | ⟨a, ha, hb, hr⟩
    · exact absurd ⟨⟨ha, hb⟩, hs⟩ (hnot a)
    · exact ⟨a, ⟨ha, hb⟩, hr⟩

end Exchange

theorem energyAndExchange : EnergyAndExchangeRule := by
  unfold EnergyAndExchangeRule
  intro s lid op hhead hclean
  refine ⟨?_, ?_, ?_, ?_⟩
  · rintro r hop hres rfl hok
    refine ⟨vecEnergyOp lid s, guarded_of_lid hhead.core, ?_⟩
    obtain ⟨hwork, hsum, hflags⟩ := putEnergy_effect lid (vD op) (vReplica op) s
    obtain ⟨hdone, hcore, -⟩ := vecEnd_done hwork.step (by simp) hhead.inside
    rw [vecEnergyOp_of_clean hhead hclean hop hres hok]
    refine ⟨hdone, lanesOnly_congr hwork.only hcore, ?_, ?_⟩
    · rw [pair_congr hcore, hsum]
      exact congrArg List.sum (List.map_congr_left fun i _ => energyTerm_eq ..)
    · rw [pairBits_congr hcore, hflags]
  · intro hop hres
    refine ⟨vecEfinOp lid s, guarded_of_lid hhead.core, ?_⟩
    have hN := replicas_le s lid
    obtain ⟨hwork, hall⟩ := efinAll_effect (lid := lid) (d := vD op) (x := fun r => s.pair lid (vA op) (2 * r))
      (fun r => pair_bounds ..) (fun r => s.pairBits lid (vA op) (2 * r + 1)) hN s
    obtain ⟨hdone, hcore, hkeep⟩ := vecEnd_done hwork.step (by simpa using cEnergyOdd_leaves lid) hhead.inside
    rw [vecEfinOp_of_atHead hhead hop hres]
    refine ⟨hdone, lanesOnly_congr hwork.only hcore, ?_⟩
    rintro r hr p w f rfl rfl rfl
    obtain ⟨hpair, hbits, hodd⟩ := hall r hr
    rw [pair_congr hcore, pairBits_congr hcore, hpair, hbits, hkeep _ (by simp)]
    obtain ⟨hsat, hconflict, hpoison, hodd', hlt⟩ := bits_rflags (s.pairBits lid (vA op) (2 * r + 1))
      (decide (s.pair lid (vA op) (2 * r) % 2 ≠ 0)) rfl
    exact ⟨rfl, hsat, hconflict, hpoison, by rw [hodd', decide_eq_true_eq], hlt, hodd⟩
  · intro e hop hres
    have hop' := vecXchgOp_of_atHead hhead hop hres
    refine ⟨fun hi => ⟨vecXchgOp lid s, guarded_of_lid hhead.core, ?_⟩, ?_⟩
    · rw [hop', if_pos hi]
      exact opFault_halted lid .v (by decide) s
    · rintro hi rfl
      refine ⟨vecXchgOp lid s, guarded_of_lid hhead.core, ?_⟩
      obtain ⟨hwork, hacc, hpairs⟩ := putExchange_effect lid (vD op) (vA op) (s.getF (cCurve lid) / bitsOf op 81 10) s
      obtain ⟨hdone, hcore, -⟩ := vecEnd_done hwork.step (exchangeFields_leaves lid) hhead.inside
      rw [hop', if_neg hi]
      refine ⟨hdone, lanesOnly_congr hwork.only hcore, fun a ha => ⟨?_, ?_⟩⟩
      · rw [lane_congr hcore, hpairs, exchangePairs_eq, bitOf_maskOf_filter_range _ _ ha, pairStands_iff]
      · have hsplit : ∀ b c d : Bool, (b && (c && d)) = true ↔ (b && d) = true ∧ c = true := by decide
        rw [lane_congr hcore, hacc, exchangePairs_eq, List.filter_filter, bitOf_maskOf_filter_range _ _ ha, hsplit, pairStands_iff,
          decidePair_iff]
  · intro acc step hop hres hacc hstep
    have hop' := vecSwapOp_of_atHead hhead hop hres hacc hstep
    refine ⟨fun hbad => ⟨vecSwapOp lid s, guarded_of_lid hhead.core, ?_⟩,
      fun hok hzero => ⟨vecSwapOp lid s, guarded_of_lid hhead.core, ?_⟩,
      fun a n hok ha hs hn hapart => ⟨vecSwapOp lid s, guarded_of_lid hhead.core, ?_⟩⟩
    · rw [hop', swapChecks_operand hbad]
      exact opFault_halted lid .v (by decide) s
    · rw [hop', hok, vecRun_none, hzero]
      simp only [Nat.zero_testBit]
      have hwork := laceStep_forAll hclean (l := maskReplicas step) (f := fun a u => swapPair lid a false u)
        fun a _ t ht => laceStep_swapPair_false ht a
      obtain ⟨hdone, hcore, -⟩ := vecEnd_done hwork.step (by simp) hhead.inside
      refine ⟨hdone, ?_, fun m b => ?_⟩
      · rw [MemsOnly, hcore, hwork.own]
      · rw [hcore]
        exact hwork.words m b (.inr id)
    · have ha16 : a < 16 := by
        have hlt : (2 : Nat) ^ a < 2 ^ 16 := ha ▸ hacc ▸ bitsOf_lt ..
        exact (Nat.pow_lt_pow_iff_right (by decide)).1 hlt
      subst hn
      rw [hop', hok, vecRun_none, hs, maskReplicas_two_pow ha16, ha]
      simp only [forAll_cons, forAll_nil, Nat.testBit_two_pow_self, swapPair_true hclean]
      obtain ⟨hwork, hwords⟩ := swapWords_effect hclean hapart (Nat.le_refl _)
      obtain ⟨hdone, hcore, -⟩ := vecEnd_done hwork.step (by simp) hhead.inside
      refine ⟨hdone, ?_, fun k hk => ?_, fun m b hb => ?_⟩
      · rw [MemsOnly, hcore, hwork.own]
      · rw [lace_congr hcore, lace_congr hcore]
        exact hwords k hk
      · rw [hcore]
        refine hwork.words m b (hb.imp_right ?_)
        rintro hne ⟨k, hk, hw⟩
        exact hw.elim (hne k hk).1 (hne k hk).2

end Sys2Proof.Machine
end

section
/-!
PROOFS. Scope: the best-k list (R123, R124, R182, R183, R190, R290).
-/
namespace Sys2Proof.Machine

/-! ### Runs of bytes (R10) -/

theorem natLe_add (a b x : Nat) : natLe (a + b) x = natLe a x ++ natLe b (x / 256 ^ a) := by
  induction a generalizing x with
  | zero => simp [natLe]
  | succ a ih => rw [Nat.succ_add, natLe, ih, natLe, List.cons_append, Nat.div_div_eq_div_mul, pow_succ']

theorem Mem.load_add (m : Mem) (a n k : Nat) : m.load a (n + k) = m.load a n ++ m.load (a + n) k := by
  simp only [Mem.load, List.range_add, List.map_append, List.map_map]
  congr 1
  exact List.map_congr_left fun i _ => by rw [Function.comp_apply, Nat.add_assoc]

theorem rd_add (s : State) (lid : Nat) (m : CoreMem) (a n k : Nat) :
    s.rd lid m a (n + k) = s.rd lid m a n ++ s.rd lid m (a + n) k := Mem.load_add ..

/-- A run of bytes that reads as one list behind another reads as each in its part. -/
theorem rd_append {s : State} {lid : Nat} {m : CoreMem} {a n k : Nat} {xs ys : List Byte} (hx : xs.length = n)
    (h : s.rd lid m a (n + k) = xs ++ ys) : s.rd lid m a n = xs ∧ s.rd lid m (a + n) k = ys := by
  rw [rd_add] at h
  exact List.append_inj h (by rw [length_rd, hx])

/-- Of lists of `w` bytes laid end to end, each reads at its place. -/
theorem rd_flatten {s : State} {lid : Nat} {m : CoreMem} {w : Nat} {bss : List (List Byte)} (hw : ∀ b ∈ bss, b.length = w) {a : Nat}
    (h : s.rd lid m a (w * bss.length) = bss.flatten) {i : Nat} {b : List Byte} (hi : bss[i]? = some b) :
    s.rd lid m (a + w * i) w = b := by
  induction bss generalizing a i with
  | nil => simp at hi
  | cons c bss ih =>
    rw [List.length_cons, Nat.mul_succ, Nat.add_comm, List.flatten_cons] at h
    obtain ⟨hhead, htail⟩ := rd_append (hw c (List.mem_cons_self ..)) h
    cases i with
    | zero =>
      obtain rfl : c = b := by simpa using hi
      exact hhead
    | succ i =>
      rw [Nat.mul_succ, Nat.add_comm (w * i), ← Nat.add_assoc]
      exact ih (fun b hb => hw b (List.mem_cons_of_mem _ hb)) htail (by simpa using hi)

theorem rd_congr {s t : State} {lid : Nat} {m : CoreMem} {a n : Nat}
    (h : ∀ i, i < n → ((t.core lid).mem m).byte (a + i) = ((s.core lid).mem m).byte (a + i)) : t.rd lid m a n = s.rd lid m a n :=
  List.map_congr_left fun i hi => h i (List.mem_range.1 hi)

section Bestk

variable {s t u : State} {lid l k a n : Nat} {op : OpWord} {P Q : Nat → Nat → Prop}

theorem BytesOutside.rd_eq {m : CoreMem} {b c : Nat} (h : BytesOutside lid m a n s t) (hb : b + c ≤ a ∨ a + n ≤ b) :
    t.rd lid m b c = s.rd lid m b c :=
  rd_congr fun i hi => h m (b + i) (.inr (by omega))

theorem BytesOutside.mono {m : CoreMem} {b c : Nat} (h : BytesOutside lid m b c s t) (ha : a ≤ b) (hn : b + c ≤ a + n) :
    BytesOutside lid m a n s t :=
  fun j x hx => h j x (hx.imp_right (by omega))

/-! ### Work on the list: tile bytes and lanes -/

/-- Work on tile bytes `[a, a + n)` and on the lanes that `P` names, by register and lane. -/
structure ListStep (lid a n : Nat) (P : Nat → Nat → Prop) (s t : State) : Prop where
  step : CoreStep lid [] s t
  own : t.core lid = { s.core lid with tile := (t.core lid).tile, vregs := (t.core lid).vregs }
  clean : CleanCore s lid → CleanCore t lid
  bytes : BytesOutside lid .tile a n s t
  lanes : ∀ q i, i < 64 → ¬ P q i → t.lane lid q i = s.lane lid q i

theorem ListStep.refl (lid a n : Nat) (P : Nat → Nat → Prop) (s : State) : ListStep lid a n P s s :=
  ⟨.refl .., rfl, id, BytesOutside.refl lid .tile a n s, fun _ _ _ _ => rfl⟩

theorem ListStep.trans (h : ListStep lid a n P s t) (k : ListStep lid a n P t u) : ListStep lid a n P s u :=
  ⟨h.step.trans k.step, by rw [k.own, h.own], k.clean ∘ h.clean, h.bytes.trans k.bytes,
    fun q i hi hP => (k.lanes q i hi hP).trans (h.lanes q i hi hP)⟩

theorem ListStep.mono {b c : Nat} (h : ListStep lid b c P s t) (ha : a ≤ b) (hn : b + c ≤ a + n) (hP : ∀ q i, P q i → Q q i) :
    ListStep lid a n Q s t :=
  ⟨h.step, h.own, h.clean, h.bytes.mono ha hn, fun q i hi hQ => h.lanes q i hi fun hp => hQ (hP q i hp)⟩

theorem own_wrTile (h : CleanCore s lid) (a : Nat) (bs : List Byte) : (s.wr lid .tile a bs).core lid =
    { s.core lid with tile := ((s.wr lid .tile a bs).core lid).tile } := by
  rw [wr_of_clean (h .tile), core_modCore_same]
  rfl

theorem listStep_wr (h : CleanCore s lid) (a : Nat) (bs : List Byte) (P : Nat → Nat → Prop) :
    ListStep lid a bs.length P s (s.wr lid .tile a bs) := by
  have hown := own_wrTile h a bs
  refine ⟨(tileStep_wr h a bs).step, by rw [hown], fun h => h.wr .tile a bs, h.bytesOutside_wr .tile a bs, fun q i _ _ => ?_⟩
  rw [State.lane, hown]
  rfl

theorem LaneStep.listStep (h : LaneStep lid [] P s t) (a n : Nat) : ListStep lid a n P s t :=
  ⟨h.step, by rw [h.only.1], h.memSame.clean, fun m b _ => by rw [h.memSame m], fun _ _ hi hP => h.lane_eq hi hP⟩

/-! ### The forms of VEC.BESTK (R183, R190) -/

theorem bestkOp_of_atHead (hhead : AtHead s lid .v op) (hop : opOpcode op = 0x70) {clear emit : Bool} (hclear : bitOf op 112 = clear)
    (hemit : clear = true ∨ bitOf op 113 = emit) {fields : List (Nat × Nat)} (hres : opReserved fields op = false)
    (f : OpWord → State → State) : bestkOp lid clear emit fields f s = f op s := by
  have hform : (clear || bitOf op 113 == emit) = true := by
    rcases hemit with h | h <;> simp [h]
  rw [bestkOp, issueOp_of_atHead hhead]
  simp [hop, hclear, hform, hres]

theorem tileChecks_ok (ha : a % 64 = 0) (hn : a + n ≤ 0x80000) : firstFault (tileChecks a n) = none := by
  rw [tileChecks, firstFault_cons, firstFault_cons, firstFault_nil, if_neg (by simpa using ha), if_neg (by simpa using hn)]

theorem bestkChecks_ok (ha : vTile op % 64 = 0) (hn : vTile op + n ≤ 0x80000) (hlo : 1 ≤ bitsOf op 81 10) (hhi : bitsOf op 81 10 ≤ 32) :
    firstFault (bestkChecks op n) = none := by
  rw [bestkChecks, List.singleton_append, firstFault_cons, if_neg (by simp only [decide_eq_true_eq]; omega), tileChecks_ok ha hn]

theorem bestkChecks_k (h : bitsOf op 81 10 = 0 ∨ 32 < bitsOf op 81 10) (n : Nat) : firstFault (bestkChecks op n) = some fVecBestk := by
  rw [bestkChecks, List.singleton_append, firstFault_cons, if_pos (decide_eq_true h)]

theorem memSame_listAt (lid l : Nat) (s : State) : MemSame lid s (listAt lid l s) :=
  memSame_modCore (fun c m => by cases m <;> rfl) s

theorem core_listAt (lid l : Nat) (s : State) : (listAt lid l s).core lid = { s.core lid with bestkAt := some l } := by
  rw [listAt, core_modCore_same]

theorem lane_listAt (lid l : Nat) (s : State) (q i : Nat) : (listAt lid l s).lane lid q i = s.lane lid q i := by
  rw [State.lane, core_listAt]
  rfl

/-! ### Slots (R123, R182) -/

/-- The slots of a list follow from tile memory. -/
theorem slots_of_memSame (h : MemSame lid s t) (l k : Nat) : slotUsed t lid l k = slotUsed s lid l k ∧
    slotEnergy t lid l k = slotEnergy s lid l k ∧ slotIndex t lid l k = slotIndex s lid l k := by
  simp only [slotUsed, slotEnergy, slotIndex, State.rdNat, State.rd, h .tile, and_self]

theorem slotAfter_iff (s : State) (lid l a b : Nat) : slotAfter s lid l a b = true ↔ slotEnergy s lid l b < slotEnergy s lid l a ∨
    (slotEnergy s lid l a = slotEnergy s lid l b ∧ slotIndex s lid l b < slotIndex s lid l a) := by
  simp [slotAfter]

/-- The worst of the first `n` slots (R124). -/
def worstSlot (s : State) (lid l n : Nat) : Nat := (List.range n).foldl (fun w j => if slotAfter s lid l j w then j else w) 0

theorem worstSlot_succ (s : State) (lid l n : Nat) : worstSlot s lid l (n + 1) =
    if slotAfter s lid l n (worstSlot s lid l n) then n else worstSlot s lid l n := by
  unfold worstSlot
  rw [List.range_succ, List.foldl_append, List.foldl_cons, List.foldl_nil]

/-- No slot comes after the worst. -/
theorem worstSlot_spec (s : State) (lid l n : Nat) : (worstSlot s lid l n < n ∨ worstSlot s lid l n = 0) ∧
    ∀ i, i < n → slotAfter s lid l i (worstSlot s lid l n) = false := by
  induction n with
  | zero => exact ⟨.inr rfl, fun i hi => absurd hi (Nat.not_lt_zero i)⟩
  | succ n ih =>
    obtain ⟨hlt, hworst⟩ := ih
    rw [worstSlot_succ]
    split
    case isTrue hafter =>
      refine ⟨.inl (Nat.lt_succ_self n), fun i hi => ?_⟩
      rcases Nat.lt_succ_iff_lt_or_eq.1 hi with hlt | rfl
      · have := hworst i hlt
        rw [← Bool.not_eq_true, slotAfter_iff] at *
        omega
      · rw [← Bool.not_eq_true, slotAfter_iff]
        omega
    case isFalse hafter =>
      refine ⟨by omega, fun i hi => ?_⟩
      rcases Nat.lt_succ_iff_lt_or_eq.1 hi with hlt | rfl
      · exact hworst i hlt
      · exact Bool.eq_false_iff.2 hafter

theorem admitSlot_eq (s : State) (lid l k : Nat) (e : Int) : admitSlot s lid l k e =
    match (List.range k).find? fun j => !slotUsed s lid l j with
    | some j => some j
    | none => if e < slotEnergy s lid l (worstSlot s lid l k) then some (worstSlot s lid l k) else none := rfl

/-- A candidate takes the lowest unused slot. -/
theorem admitSlot_of_unused {j : Nat} (hj : j < k) (hfree : slotUsed s lid l j = false)
    (hlow : ∀ i, i < j → slotUsed s lid l i = true) (e : Int) : admitSlot s lid l k e = some j := by
  have hfind : ((List.range k).find? fun j => !slotUsed s lid l j) = some j := by
    rw [List.find?_range_eq_some]
    exact ⟨by simp [hfree], List.mem_range.2 hj, fun i hi => by simp [hlow i hi]⟩
  rw [admitSlot_eq, hfind]

/-- In a full list it takes the worst slot, where its energy is lower. -/
theorem admitSlot_of_full (hfull : ∀ j, j < k → slotUsed s lid l j = true) (e : Int) : admitSlot s lid l k e =
    if e < slotEnergy s lid l (worstSlot s lid l k) then some (worstSlot s lid l k) else none := by
  have hfind : ((List.range k).find? fun j => !slotUsed s lid l j) = none := by
    rw [List.find?_eq_none]
    exact fun j hj => by simp [hfull j (List.mem_range.1 hj)]
  rw [admitSlot_eq, hfind]

theorem admitSlot_lt {e : Int} (hk : 1 ≤ k) {j : Nat} (h : admitSlot s lid l k e = some j) : j < k := by
  rw [admitSlot_eq] at h
  split at h
  case h_1 i hi =>
    obtain rfl := Option.some.inj h
    exact List.mem_range.1 (List.mem_of_find?_eq_some hi)
  case h_2 =>
    split at h
    case isTrue =>
      obtain rfl := Option.some.inj h
      rcases (worstSlot_spec s lid l k).1 with hlt | h0
      · exact hlt
      · omega
    case isFalse => simp at h

theorem admitSlot_of_memSame (h : MemSame lid s t) (l k : Nat) (e : Int) : admitSlot t lid l k e = admitSlot s lid l k e := by
  have hused : slotUsed t lid l = slotUsed s lid l := funext fun k => (slots_of_memSame h l k).1
  have henergy : slotEnergy t lid l = slotEnergy s lid l := funext fun k => (slots_of_memSame h l k).2.1
  have hindex : slotIndex t lid l = slotIndex s lid l := funext fun k => (slots_of_memSame h l k).2.2
  have hworst : worstSlot t lid l k = worstSlot s lid l k := by
    unfold worstSlot slotAfter
    rw [henergy, hindex]
  rw [admitSlot_eq, admitSlot_eq, hused, henergy, hworst]

/-! ### Writing a slot (R123, R182, R183) -/

/-- ENERGY, sweep, restart and flags of an admitted candidate. -/
def slotHead (s : State) (lid r : Nat) (e : Int) (conflict deadline : Bool) : List Byte :=
  natLe 8 (BitVec.ofInt 64 e).toNat ++ (natLe 4 (s.getF (cCurve lid)) ++ (natLe 2 (s.getF (cRestart lid)) ++
    ([BitVec.ofNat 8 r] ++ [BitVec.ofNat 8 (4 * conflict.toNat + 8 * deadline.toNat)])))

theorem length_slotHead (s : State) (lid r : Nat) (e : Int) (c d : Bool) : (slotHead s lid r e c d).length = 16 := by
  simp [slotHead]

theorem writeSlot_eq (lid l j r : Nat) (e : Int) (c d : Bool) (s : State) : writeSlot lid l j r e c d s =
    (s.wr lid .tile (l + 32 * j) (slotHead s lid r e c d)).wr lid .tile (l + 32 * j + 24)
      (natLe 8 (2 ^ 32 + s.getF (cRestart lid) * 16 + r)) := by
  simp only [writeSlot, slotHead, List.append_assoc, List.cons_append, List.nil_append]

theorem listStep_writeSlot (h : CleanCore s lid) (l j r : Nat) (e : Int) (c d : Bool) (P : Nat → Nat → Prop) :
    ListStep lid (l + 32 * j) 32 P s (writeSlot lid l j r e c d s) := by
  have hhead := listStep_wr h (l + 32 * j) (slotHead s lid r e c d) P
  rw [length_slotHead] at hhead
  have htail := listStep_wr (hhead.clean h) (l + 32 * j + 24) (natLe 8 (2 ^ 32 + s.getF (cRestart lid) * 16 + r)) P
  rw [length_natLe] at htail
  rw [writeSlot_eq]
  exact (hhead.mono (by omega) (by omega) fun _ _ => id).trans (htail.mono (by omega) (by omega) fun _ _ => id)

/-- The two runs of bytes that a slot's write leaves. -/
theorem rd_writeSlot (h : CleanCore s lid) (l j r : Nat) (e : Int) (c d : Bool) :
    (writeSlot lid l j r e c d s).rd lid .tile (l + 32 * j) 16 = slotHead s lid r e c d ∧
      (writeSlot lid l j r e c d s).rd lid .tile (l + 32 * j + 24) 8 = natLe 8 (2 ^ 32 + s.getF (cRestart lid) * 16 + r) := by
  have hhead := rd_wr_same (m := .tile) (a := l + 32 * j) h (slotHead s lid r e c d)
  rw [length_slotHead] at hhead
  have h' := h.wr .tile (l + 32 * j) (slotHead s lid r e c d)
  have htail := rd_wr_same (m := .tile) (a := l + 32 * j + 24) h' (natLe 8 (2 ^ 32 + s.getF (cRestart lid) * 16 + r))
  have hout := h'.bytesOutside_wr .tile (l + 32 * j + 24) (natLe 8 (2 ^ 32 + s.getF (cRestart lid) * 16 + r))
  rw [length_natLe] at htail hout
  rw [writeSlot_eq]
  exact ⟨(hout.rd_eq (by omega)).trans hhead, htail⟩

/-- What the slot says once it is written: used, with the candidate's energy, index, sweep and flags. -/
theorem writeSlot_slot (h : CleanCore s lid) (l j : Nat) {r : Nat} (hr : r < 16) {e : Int} (hlo : -2 ^ 63 ≤ e) (hhi : e < 2 ^ 63)
    (c d : Bool) {t : State} (ht : t = writeSlot lid l j r e c d s) : slotUsed t lid l j = true ∧ slotEnergy t lid l j = e ∧
      slotIndex t lid l j = s.getF (cRestart lid) * 16 + r ∧ t.rdNat lid .tile (l + 32 * j + 8) 4 = s.getF (cCurve lid) ∧
      t.rdNat lid .tile (l + 32 * j + 15) 1 = 4 * c.toNat + 8 * d.toNat := by
  have hcurve : s.getF (cCurve lid) < 2 ^ 16 := getF_lt (cCurve lid)
  have hrestart : s.getF (cRestart lid) < 2 ^ 16 := getF_lt (cRestart lid)
  obtain ⟨hhead, htail⟩ := rd_writeSlot h l j r e c d
  rw [← ht] at hhead htail
  obtain ⟨henergy, hrest⟩ := rd_append (n := 8) (k := 8) (length_natLe ..) hhead
  obtain ⟨hsweep, hrest⟩ := rd_append (n := 4) (k := 4) (length_natLe ..) hrest
  obtain ⟨-, hrest⟩ := rd_append (n := 2) (k := 2) (length_natLe ..) hrest
  obtain ⟨-, hflags⟩ := rd_append (n := 1) (k := 1) rfl hrest
  obtain ⟨hindex, hused⟩ := rd_append (n := 4) (k := 4) (length_natLe ..) (htail.trans (natLe_add 4 4 _))
  obtain ⟨hused, -⟩ := rd_append (n := 1) (k := 3) (length_natLe ..) (hused.trans (natLe_add 1 3 _))
  simp only [Nat.add_assoc, Nat.reduceAdd] at henergy hsweep hflags hindex hused
  refine ⟨?_, ?_, ?_, ?_, ?_⟩
  · rw [slotUsed, State.rdNat, Nat.add_assoc, hused, leNat_natLe, show (2 ^ 32 + (s.getF (cRestart lid) * 16 + r)) / 256 ^ 4 % 256 ^ 1 = 1 by omega]
    rfl
  · rw [slotEnergy, State.rdNat, henergy, leNat_natLe, Nat.mod_eq_of_lt (show _ < 256 ^ 8 from BitVec.isLt _),
      BitVec.ofNat_toNat, BitVec.setWidth_eq, toInt_ofInt_64 hlo hhi]
  · rw [slotIndex, State.rdNat, Nat.add_assoc, hindex, leNat_natLe]
    omega
  · rw [State.rdNat, Nat.add_assoc, hsweep, leNat_natLe]
    omega
  · rw [State.rdNat, Nat.add_assoc, hflags]
    cases c <;> cases d <;> rfl

/-! ### CLEAR (R183) -/

theorem CleanCore.listAt (h : CleanCore s lid) (l : Nat) : CleanCore (listAt lid l s) lid := (memSame_listAt lid l s).clean h

theorem bestkClearOp_of_atHead (hhead : AtHead s lid .v op) (hop : opOpcode op = 0x70) (hclear : bitOf op 112 = true)
    (hres : opReserved [fTADDR, (112, 1)] op = false) (ha : vTile op % 64 = 0) (hend : vTile op + 1024 ≤ 0x80000) :
    bestkClearOp lid s = ((listAt lid (vTile op) s).wr lid .tile (vTile op) (List.replicate 1024 0)).vecEnd lid := by
  rw [bestkClearOp, bestkOp_of_atHead hhead hop hclear (.inl rfl) hres, tileChecks_ok ha hend, vecRun_none]

/-! ### Admission (R124, R183) -/

/-- What a candidate does: rejected or not admitted it leaves the list and reads 0, admitted it fills its slot and reads the
slot's number plus 1. -/
theorem admitOne_eq (lid : Nat) (op : OpWord) (r : Nat) (e : Int) (w : W64) (s : State) : admitOne lid op r e w s =
    match (if flagsReject w then none else admitSlot s lid (vTile op) (bitsOf op 81 10) e) with
    | some j => (writeSlot lid (vTile op) j r e (bitOf w 1) (bitOf op 114) s).setLane lid (vD op) r (BitVec.ofNat 32 (j + 1))
    | none => s.setLane lid (vD op) r 0 := by
  unfold admitOne
  split
  · rfl
  · rfl

theorem admitOne_of_none {r : Nat} {e : Int} {w : W64}
    (h : (if flagsReject w then none else admitSlot s lid (vTile op) (bitsOf op 81 10) e) = none) :
    admitOne lid op r e w s = s.setLane lid (vD op) r 0 := by
  rw [admitOne_eq, h]

theorem admitOne_of_some {r j : Nat} {e : Int} {w : W64} (hw : flagsReject w = false)
    (h : admitSlot s lid (vTile op) (bitsOf op 81 10) e = some j) : admitOne lid op r e w s =
      (writeSlot lid (vTile op) j r e (bitOf w 1) (bitOf op 114) s).setLane lid (vD op) r (BitVec.ofNat 32 (j + 1)) := by
  rw [admitOne_eq, hw, if_neg Bool.false_ne_true, h]

theorem listStep_admitOne (h : CleanCore s lid) (hk : 1 ≤ bitsOf op 81 10) {r : Nat} (hr : r < 64) (e : Int) (w : W64) :
    ListStep lid (vTile op) (32 * bitsOf op 81 10) (fun q i => q = vD op ∧ i = r) s (admitOne lid op r e w s) := by
  have hlane : ∀ (v : W32) (t : State), ListStep lid (vTile op) (32 * bitsOf op 81 10) (fun q i => q = vD op ∧ i = r) t
      (t.setLane lid (vD op) r v) := fun v t => (laneStep_setLane lid (vD op) hr v t).listStep _ _
  rcases hc : (if flagsReject w then none else admitSlot s lid (vTile op) (bitsOf op 81 10) e) with _ | j
  · rw [admitOne_of_none hc]
    exact hlane ..
  · cases hw : flagsReject w
    case true => simp [hw] at hc
    case false =>
      rw [hw, if_neg Bool.false_ne_true] at hc
      have hj := admitSlot_lt hk hc
      rw [admitOne_of_some hw hc]
      exact ((listStep_writeSlot h (vTile op) j r e _ _ _).mono (by omega) (by omega) fun _ _ => id).trans (hlane ..)

/-- The candidates of the first `N` replicas, their energies and flag words given. -/
def State.admitAll (lid : Nat) (op : OpWord) (x : Nat → Int) (w : Nat → W64) (N : Nat) (s : State) : State :=
  forAll (List.range N) (fun r u => admitOne lid op r (x r) (w r) u) s

theorem admitAll_succ (op : OpWord) (x : Nat → Int) (w : Nat → W64) (N : Nat) (s : State) :
    s.admitAll lid op x w (N + 1) = admitOne lid op N (x N) (w N) (s.admitAll lid op x w N) := by
  simp [State.admitAll, forAll, List.range_succ]

theorem listStep_admitAll (h : CleanCore s lid) (hk : 1 ≤ bitsOf op 81 10) (x : Nat → Int) (w : Nat → W64) {N : Nat} (hN : N ≤ 64) :
    ListStep lid (vTile op) (32 * bitsOf op 81 10) (fun q i => q = vD op ∧ i < N) s (s.admitAll lid op x w N) := by
  induction N with
  | zero => exact .refl ..
  | succ N ih =>
    have hstep := ih (by omega)
    rw [admitAll_succ]
    refine (hstep.mono (Nat.le_refl _) (Nat.le_refl _) ?_).trans
      ((listStep_admitOne (hstep.clean h) hk (by omega) _ _).mono (Nat.le_refl _) (Nat.le_refl _) ?_)
    · exact fun q i hi => ⟨hi.1, by omega⟩
    · exact fun q i hi => ⟨hi.1, by omega⟩

theorem bestkAdmitOp_of_atHead (hhead : AtHead s lid .v op) (hop : opOpcode op = 0x70) (hclear : bitOf op 112 = false)
    (hemit : bitOf op 113 = false) (hres : opReserved [fVD, fVA, fTADDR, (81, 10), (114, 1)] op = false) :
    bestkAdmitOp lid s = s.vecRun lid (firstFault (bestkChecks op 1024)) fun t =>
      ((listAt lid (vTile op) t).vecReads lid (vTile op) (32 * bitsOf op 81 10)).admitAll lid op
        (fun r => t.pair lid (vA op) (2 * r)) (fun r => t.pairBits lid (vA op) (2 * r + 1)) (t.replicas lid) := by
  rw [bestkAdmitOp, bestkOp_of_atHead hhead hop hclear (.inr hemit) hres]
  rfl

/-! ### EMIT (R123, R183) -/

/-- Slot `a` comes before slot `b` or stands equal with it (R123). -/
def slotBefore (s : State) (lid l a b : Nat) : Prop := slotEnergy s lid l a < slotEnergy s lid l b ∨
  (slotEnergy s lid l a = slotEnergy s lid l b ∧ slotIndex s lid l a ≤ slotIndex s lid l b)

theorem slotAfter_eq_false_iff (s : State) (lid l a b : Nat) : slotAfter s lid l a b = false ↔ slotBefore s lid l a b := by
  rw [← Bool.not_eq_true, slotAfter_iff, slotBefore]
  omega

theorem slotBefore_iff (s : State) (lid l a b : Nat) : slotBefore s lid l a b ↔ slotEnergy s lid l a ≤ slotEnergy s lid l b ∧
    (slotEnergy s lid l a = slotEnergy s lid l b → slotIndex s lid l a ≤ slotIndex s lid l b) := by
  rw [slotBefore]
  omega

theorem slotBefore_total (s : State) (lid l a b : Nat) : slotBefore s lid l a b ∨ slotBefore s lid l b a := by
  simp only [slotBefore]
  omega

theorem slotBefore_trans {b c : Nat} (h : slotBefore s lid l a b) (h' : slotBefore s lid l b c) : slotBefore s lid l a c := by
  simp only [slotBefore] at *
  omega

/-- Inserting a slot adds it to the list. -/
theorem perm_insertSlot (s : State) (lid l j : Nat) (js : List Nat) : (insertSlot s lid l j js).Perm (j :: js) := by
  induction js with
  | nil => exact .refl _
  | cons i js ih =>
    rw [insertSlot]
    split
    · exact (ih.cons i).trans (.swap j i js)
    · exact .refl _

/-- Inserting a slot keeps the list in order. -/
theorem pairwise_insertSlot {js : List Nat} (h : js.Pairwise (slotBefore s lid l)) (j : Nat) :
    (insertSlot s lid l j js).Pairwise (slotBefore s lid l) := by
  induction js with
  | nil => exact List.pairwise_singleton _ j
  | cons i js ih =>
    obtain ⟨hi, hjs⟩ := List.pairwise_cons.1 h
    rw [insertSlot]
    split
    case isTrue hafter =>
      have hij : slotBefore s lid l i j := (slotBefore_total s lid l i j).resolve_right fun hji => by
        rw [← slotAfter_eq_false_iff, hafter] at hji
        exact absurd hji (by decide)
      refine List.pairwise_cons.2 ⟨fun m hm => ?_, ih hjs⟩
      rcases List.mem_cons.1 ((perm_insertSlot s lid l j js).mem_iff.1 hm) with rfl | hm
      · exact hij
      · exact hi m hm
    case isFalse hafter =>
      have hji : slotBefore s lid l j i := (slotAfter_eq_false_iff ..).1 (Bool.eq_false_iff.2 hafter)
      refine List.pairwise_cons.2 ⟨fun m hm => ?_, h⟩
      rcases List.mem_cons.1 hm with rfl | hm
      · exact hji
      · exact slotBefore_trans hji (hi m hm)

theorem foldl_insertSlot (s : State) (lid l : Nat) (is acc : List Nat) (h : acc.Pairwise (slotBefore s lid l)) :
    (is.foldl (fun acc j => insertSlot s lid l j acc) acc).Perm (is ++ acc) ∧
      (is.foldl (fun acc j => insertSlot s lid l j acc) acc).Pairwise (slotBefore s lid l) := by
  induction is generalizing acc with
  | nil => exact ⟨.refl _, h⟩
  | cons i is ih =>
    obtain ⟨hperm, hsorted⟩ := ih (insertSlot s lid l i acc) (pairwise_insertSlot h i)
    exact ⟨hperm.trans (((perm_insertSlot s lid l i acc).append_left is).trans List.perm_middle), hsorted⟩

/-- The emitted slots are the used ones, in order. -/
theorem sortedSlots_spec (s : State) (lid l k : Nat) :
    (sortedSlots s lid l k).Perm ((List.range k).filter fun j => slotUsed s lid l j) ∧
      (sortedSlots s lid l k).Pairwise (slotBefore s lid l) := by
  obtain ⟨hperm, hsorted⟩ := foldl_insertSlot s lid l ((List.range k).filter (slotUsed s lid l)) [] .nil
  rw [List.append_nil] at hperm
  exact ⟨hperm, hsorted⟩

theorem length_sortedSlots_le (s : State) (lid l k : Nat) : (sortedSlots s lid l k).length ≤ k := by
  rw [(sortedSlots_spec s lid l k).1.length_eq]
  exact (List.length_filter_le _ _).trans_eq List.length_range

/-- The entries that EMIT writes, used ones first. -/
def emitEntries (s : State) (lid : Nat) (op : OpWord) (k : Nat) (js : List Nat) : List (List Byte) :=
  js.map (entryBytes s lid op) ++ (rangeFrom js.length k).map emptyEntry

theorem length_emptyEntry (i : Nat) : (emptyEntry i).length = 32 := by
  simp [emptyEntry]

theorem length_entryBytes (s : State) (lid : Nat) (op : OpWord) (j : Nat) : (entryBytes s lid op j).length = 32 := by
  simp [entryBytes, length_rd]

theorem length_of_mem_emitEntries {js : List Nat} {b : List Byte} (h : b ∈ emitEntries s lid op k js) : b.length = 32 := by
  rcases List.mem_append.1 h with h | h
  · obtain ⟨j, -, rfl⟩ := List.mem_map.1 h
    exact length_entryBytes ..
  · obtain ⟨i, -, rfl⟩ := List.mem_map.1 h
    exact length_emptyEntry i

theorem length_emitEntries {js : List Nat} (h : js.length ≤ k) : (emitEntries s lid op k js).length = k := by
  simp only [emitEntries, rangeFrom, List.length_append, List.length_map, List.length_range]
  omega

theorem length_flatten_emitEntries {js : List Nat} (h : js.length ≤ k) : (emitEntries s lid op k js).flatten.length = 32 * k := by
  have hlen : (emitEntries s lid op k js).map List.length = List.replicate k 32 :=
    List.eq_replicate_iff.2 ⟨by rw [List.length_map, length_emitEntries h], fun n hn => by
      obtain ⟨b, hb, rfl⟩ := List.mem_map.1 hn
      exact length_of_mem_emitEntries hb⟩
  rw [List.length_flatten, hlen, List.sum_replicate, smul_eq_mul, Nat.mul_comm]

theorem bestkEmitOp_of_atHead (hhead : AtHead s lid .v op) (hop : opOpcode op = 0x70) (hclear : bitOf op 112 = false)
    (hemit : bitOf op 113 = true) (hres : opReserved [fVB, fTADDR, (81, 10), (113, 1)] op = false) (h : CleanCore s lid)
    (hok : firstFault (bestkChecks op (1024 + 32 * bitsOf op 81 10)) = none) : bestkEmitOp lid s =
      ((listAt lid (vTile op) s).wr lid .tile (vTile op + 1024) (emitEntries s lid op (bitsOf op 81 10)
        (sortedSlots s lid (vTile op) (bitsOf op 81 10))).flatten).vecEnd lid := by
  rw [bestkEmitOp, bestkOp_of_atHead hhead hop hclear (.inr hemit) hres]
  dsimp only
  rw [hok, vecRun_none, (h.listAt _).vecReads_eq, emitEntries, List.flatten_append, List.flatMap_def, List.flatMap_def]

/-- What an entry of a used slot reads: the slot's first half, its state's offset, and zero. -/
theorem rd_entry {u : State} {b j : Nat} (h : u.rd lid .tile b 32 = entryBytes s lid op j) :
    u.rd lid .tile b 16 = s.rd lid .tile (vTile op + 32 * j) 16 ∧
      u.rdNat lid .tile (b + 16) 8 = ((s.pairBits lid (vB op) 0).toNat + j * (s.lane lid (vB op) 2).toNat) % 2 ^ 64 ∧
      u.rdNat lid .tile (b + 24) 8 = 0 := by
  have h256 : 256 ^ 8 = 2 ^ 64 := by norm_num
  rw [entryBytes, List.append_assoc] at h
  obtain ⟨hslot, hrest⟩ := rd_append (n := 16) (k := 16) (length_rd ..) h
  obtain ⟨hoffset, hzero⟩ := rd_append (n := 8) (k := 8) (length_natLe ..) hrest
  refine ⟨hslot, ?_, ?_⟩
  · rw [State.rdNat, hoffset, leNat_natLe, h256]
  · rw [State.rdNat, show b + 24 = b + 16 + 8 by omega, hzero, leNat_natLe, Nat.zero_mod]

/-- What the entry of an empty slot reads. -/
theorem rd_emptyEntry {u : State} {b i : Nat} (h : u.rd lid .tile b 32 = emptyEntry i) :
    u.rdNat lid .tile b 8 = 0x7FFFFFFFFFFFFFFF ∧ u.rdNat lid .tile (b + 16) 8 = 0 ∧ u.rdNat lid .tile (b + 24) 8 = 0 := by
  rw [emptyEntry, List.append_assoc, natLe_add 8 8 0] at h
  obtain ⟨henergy, hrest⟩ := rd_append (n := 8) (k := 24) (length_natLe ..) h
  obtain ⟨-, hrest⟩ := rd_append (n := 8) (k := 16) (length_natLe ..) hrest
  obtain ⟨hoffset, hzero⟩ := rd_append (n := 8) (k := 8) (length_natLe ..) hrest
  refine ⟨?_, ?_, ?_⟩
  · rw [State.rdNat, henergy, leNat_natLe]
    norm_num
  · rw [State.rdNat, show b + 16 = b + 8 + 8 by omega, hoffset, leNat_natLe, Nat.zero_mod]
  · rw [State.rdNat, show b + 24 = b + 8 + 8 + 8 by omega, hzero, leNat_natLe, Nat.zero_div, Nat.zero_mod]

/-! ### What an op on the list leaves -/

theorem rd_of_core (hc : t.core lid = s.core lid) (m : CoreMem) (a n : Nat) : t.rd lid m a n = s.rd lid m a n := by
  rw [State.rd, State.rd, hc]

/-- An op that found its list at `l` and worked on it completes; its end leaves the core. -/
theorem ListStep.done (h : ListStep lid a n P (listAt lid l s) t) (hin : s.getF (qPc lid .v) < 4095) :
    VecDone lid [] s (t.vecEnd lid) ∧ (t.vecEnd lid).core lid = t.core lid ∧ BytesOutside lid .tile a n s (t.vecEnd lid) := by
  obtain ⟨hdone, hcore, -⟩ := vecEnd_done (.trans (coreStep_modCore lid [] _ s) h.step) (by simp) hin
  refine ⟨hdone, hcore, .congr (fun m b hb => ?_) hcore⟩
  rw [h.bytes m b hb, memSame_listAt lid l s m]

theorem core_wr_listAt (h : CleanCore s lid) (bs : List Byte) : ((listAt lid l s).wr lid .tile a bs).core lid =
    { s.core lid with tile := (((listAt lid l s).wr lid .tile a bs).core lid).tile, bestkAt := some l } := by
  rw [own_wrTile (h.listAt l), core_listAt]

/-- An admitted candidate: its slot `j` and lane `r` after, and the other slots as they were (R123, R124, R182). -/
structure Admitted (lid : Nat) (op : OpWord) (r j : Nat) (e : Int) (w : W64) (s t : State) : Prop where
  lane : t.lane lid (vD op) r = BitVec.ofNat 32 (j + 1)
  used : slotUsed t lid (vTile op) j = true
  energy : slotEnergy t lid (vTile op) j = e
  index : slotIndex t lid (vTile op) j = s.getF (cRestart lid) * 16 + r
  sweep : t.rdNat lid .tile (vTile op + 32 * j + 8) 4 = s.getF (cCurve lid)
  flags : t.rdNat lid .tile (vTile op + 32 * j + 15) 1 = 4 * (bitOf w 1).toNat + 8 * (bitOf op 114).toNat
  others : ∀ i, i ≠ j → t.rd lid .tile (vTile op + 32 * i) 32 = s.rd lid .tile (vTile op + 32 * i) 32

theorem Admitted.congr {r j : Nat} {e : Int} {w : W64} (h : Admitted lid op r j e w s t) (hc : u.core lid = t.core lid) :
    Admitted lid op r j e w s u := by
  obtain ⟨hlane, hused, henergy, hindex, hsweep, hflags, hothers⟩ := h
  have hrd := rd_of_core hc .tile
  refine ⟨by rw [lane_congr hc, hlane], ?_, ?_, ?_, ?_, ?_, fun i hi => by rw [hrd, hothers i hi]⟩
  · rw [← hused, slotUsed, State.rdNat, hrd]; rfl
  · rw [← henergy, slotEnergy, State.rdNat, hrd]; rfl
  · rw [← hindex, slotIndex, State.rdNat, hrd]; rfl
  · rw [← hsweep, State.rdNat, hrd]; rfl
  · rw [← hflags, State.rdNat, hrd]; rfl

theorem admitted_admitOne (h : CleanCore s lid) {r j : Nat} (hr : r < 16) {e : Int} (hlo : -2 ^ 63 ≤ e) (hhi : e < 2 ^ 63) {w : W64}
    (hw : flagsReject w = false) (hj : admitSlot s lid (vTile op) (bitsOf op 81 10) e = some j) :
    Admitted lid op r j e w s (admitOne lid op r e w s) := by
  have hwrite := listStep_writeSlot h (vTile op) j r e (bitOf w 1) (bitOf op 114) fun _ _ => False
  obtain ⟨hused, henergy, hindex, hsweep, hflags⟩ := writeSlot_slot h (vTile op) j hr hlo hhi (bitOf w 1) (bitOf op 114) rfl
  have hlane := (laneStep_setLane lid (vD op) (show r < 64 by omega) (BitVec.ofNat 32 (j + 1))
    (writeSlot lid (vTile op) j r e (bitOf w 1) (bitOf op 114) s)).memSame
  have hrd : ∀ a n, ((writeSlot lid (vTile op) j r e (bitOf w 1) (bitOf op 114) s).setLane lid (vD op) r (BitVec.ofNat 32 (j + 1))).rd
      lid .tile a n = (writeSlot lid (vTile op) j r e (bitOf w 1) (bitOf op 114) s).rd lid .tile a n :=
    fun a n => rd_congr fun i _ => by rw [hlane .tile]
  obtain ⟨husedEq, henergyEq, hindexEq⟩ := slots_of_memSame hlane (vTile op) j
  rw [admitOne_of_some hw hj]
  refine ⟨lane_setLane_same .., husedEq.trans hused, henergyEq.trans henergy, hindexEq.trans hindex, ?_, ?_, fun i hi => ?_⟩
  · rw [State.rdNat, hrd]; exact hsweep
  · rw [State.rdNat, hrd]; exact hflags
  · rw [hrd, hwrite.bytes.rd_eq (by omega)]

/-- What the candidate of replica `r` finds when the op begins: the list's place is noted, nothing else changed. -/
theorem Admitted.of_listAt {r j : Nat} {e : Int} {w : W64} (h : Admitted lid op r j e w (listAt lid l s) t) :
    Admitted lid op r j e w s t := by
  obtain ⟨hlane, hused, henergy, hindex, hsweep, hflags, hothers⟩ := h
  refine ⟨hlane, hused, henergy, hindex, hsweep, hflags, fun i hi => (hothers i hi).trans (rd_congr fun k _ => ?_)⟩
  rw [memSame_listAt lid l s .tile]

theorem admitAll_one (op : OpWord) (x : Nat → Int) (w : Nat → W64) (s : State) :
    s.admitAll lid op x w 1 = admitOne lid op 0 (x 0) (w 0) s := rfl

/-- Each entry that EMIT wrote reads at its place: the used slots in order, then the empty ones. -/
theorem rd_emitted {js : List Nat} (hlen : js.length ≤ k)
    (h : u.rd lid .tile a (32 * k) = (emitEntries s lid op k js).flatten) :
    (∀ i j, js[i]? = some j → u.rd lid .tile (a + 32 * i) 32 = entryBytes s lid op j) ∧
      ∀ i, js.length ≤ i → i < k → u.rd lid .tile (a + 32 * i) 32 = emptyEntry i := by
  have hread : ∀ {i b}, (emitEntries s lid op k js)[i]? = some b → u.rd lid .tile (a + 32 * i) 32 = b := fun hi =>
    rd_flatten (fun _ hb => length_of_mem_emitEntries hb) (by rw [length_emitEntries hlen]; exact h) hi
  refine ⟨fun i j hj => hread ?_, fun i hlo hhi => hread ?_⟩
  · have hi : i < js.length := (List.getElem?_eq_some_iff.1 hj).1
    rw [emitEntries, List.getElem?_append_left (by simpa using hi), List.getElem?_map, hj, Option.map_some]
  · have hplace : js.length + (i - js.length) = i := by omega
    rw [emitEntries, List.getElem?_append_right (by simpa using hlo), List.length_map, List.getElem?_map, rangeFrom, List.getElem?_map,
      List.getElem?_range (by omega), Option.map_some, Option.map_some, hplace]

/-! ### Admission on a core of one replica (R124, R183) -/

/-- The admission op on a core of one replica is its candidate's. -/
theorem admitAll_of_one_replica (hreplicas : s.replicas lid = 1) :
    (listAt lid (vTile op) s).admitAll lid op (fun r => s.pair lid (vA op) (2 * r)) (fun r => s.pairBits lid (vA op) (2 * r + 1))
      (s.replicas lid) = admitOne lid op 0 (s.pair lid (vA op) 0) (s.pairBits lid (vA op) 1) (listAt lid (vTile op) s) := by
  rw [hreplicas, admitAll_one]

/-- In a full list with a slot of higher energy, the candidate takes a slot that every other stands before (R124). -/
theorem admitSlot_of_lower (hfull : ∀ j, j < k → slotUsed s lid l j = true) {e : Int}
    (hlower : ∃ j, j < k ∧ e < slotEnergy s lid l j) :
    ∃ j, j < k ∧ admitSlot s lid l k e = some j ∧ ∀ i, i < k → slotBefore s lid l i j := by
  obtain ⟨hlt, hworst⟩ := worstSlot_spec s lid l k
  have hbefore : ∀ i, i < k → slotBefore s lid l i (worstSlot s lid l k) := fun i hi => (slotAfter_eq_false_iff ..).1 (hworst i hi)
  obtain ⟨j, hj, hlower⟩ := hlower
  have hj := hbefore j hj
  refine ⟨worstSlot s lid l k, by omega, ?_, hbefore⟩
  rw [admitSlot_of_full hfull, if_pos]
  rw [slotBefore] at hj
  omega

/-- In a full list with no slot of higher energy, the candidate finds none (R124). -/
theorem admitSlot_of_not_lower (hk : 1 ≤ k) (hfull : ∀ j, j < k → slotUsed s lid l j = true) {e : Int}
    (hnot : ∀ j, j < k → slotEnergy s lid l j ≤ e) : admitSlot s lid l k e = none := by
  have hlt := (worstSlot_spec s lid l k).1
  rw [admitSlot_of_full hfull, if_neg (Int.not_lt.2 (hnot _ (by omega)))]

/-- A candidate that is rejected or finds no slot reads 0 and leaves the list. -/
theorem notAdmitted_admitOne {r : Nat} (hr : r < 64) {e : Int} {w : W64} (hc : u.core lid = (admitOne lid op r e w (listAt lid l s)).core lid)
    (h : (if flagsReject w then none else admitSlot s lid (vTile op) (bitsOf op 81 10) e) = none) :
    u.lane lid (vD op) r = 0 ∧ MemSame lid s u := by
  rw [admitOne_of_none (by rw [admitSlot_of_memSame (memSame_listAt lid l s)]; exact h)] at hc
  refine ⟨by rw [lane_congr hc, lane_setLane_same], fun m => ?_⟩
  rw [hc, (laneStep_setLane lid (vD op) hr 0 (listAt lid l s)).memSame m, memSame_listAt lid l s m]

/-- A candidate with a slot to take fills it. -/
theorem admitted_of_core (h : CleanCore s lid) {r j : Nat} (hr : r < 16) {e : Int} (hlo : -2 ^ 63 ≤ e) (hhi : e < 2 ^ 63) {w : W64}
    (hc : u.core lid = (admitOne lid op r e w (listAt lid (vTile op) s)).core lid) (hw : flagsReject w = false)
    (hj : admitSlot s lid (vTile op) (bitsOf op 81 10) e = some j) : Admitted lid op r j e w s u :=
  ((admitted_admitOne (h.listAt _) hr hlo hhi hw (by rw [admitSlot_of_memSame (memSame_listAt lid _ s), hj])).of_listAt).congr hc

end Bestk

theorem bestkList : BestkListRule := by
  unfold BestkListRule
  rintro s lid l k op hhead hop hclean rfl rfl ha
  have hlist := hclean.listAt (vTile op)
  refine ⟨?_, ?_, ?_⟩
  · intro hclear hres hend
    have hzeros := listStep_wr hlist (vTile op) (List.replicate 1024 0) fun _ _ => False
    rw [List.length_replicate] at hzeros
    obtain ⟨hdone, hcore, hbytes⟩ := hzeros.done hhead.inside
    refine ⟨bestkClearOp lid s, guarded_of_lid hhead.core, ?_⟩
    rw [bestkClearOp_of_atHead hhead hop hclear hres ha hend]
    refine ⟨hdone, ?_, hbytes, fun i hi => ?_⟩
    · rw [hcore]
      exact core_wr_listAt hclean _
    · rw [hcore]
      exact (byte_wr_inside (m := .tile) hlist (by rw [List.length_replicate]; exact hi)).trans (List.getElem_replicate _)
  · intro hclear hemit hres
    have hop' := bestkAdmitOp_of_atHead hhead hop hclear hemit hres
    refine ⟨fun hk => ⟨bestkAdmitOp lid s, guarded_of_lid hhead.core, ?_⟩, fun hlo hhi hend => ?_⟩
    · rw [hop', bestkChecks_k hk, vecRun_some]
      exact opFault_halted lid .v (by decide) s
    · rw [bestkChecks_ok ha hend hlo hhi, vecRun_none, hlist.vecReads_eq] at hop'
      have hall := listStep_admitAll hlist hlo (fun r => s.pair lid (vA op) (2 * r)) (fun r => s.pairBits lid (vA op) (2 * r + 1))
        (Nat.le_trans (replicas_le s lid) (by decide))
      obtain ⟨hdone, hcore, hbytes⟩ := hall.done hhead.inside
      refine ⟨bestkAdmitOp lid s, guarded_of_lid hhead.core, ?_⟩
      rw [hop']
      refine ⟨hdone, hbytes, ?_, fun q i hi hP => ?_, ?_⟩
      · rw [hcore, hall.own, core_listAt]
      · rw [lane_congr hcore, hall.lanes q i hi hP, lane_listAt]
      · rintro hone e w rfl rfl
        rw [admitAll_of_one_replica hone] at hcore ⊢
        obtain ⟨helo, hehi⟩ := pair_bounds s lid (vA op) 0
        refine ⟨fun hflags => notAdmitted_admitOne (by decide) hcore (if_pos ?_), fun hsat hpoison hodd => ?_⟩
        · simpa [flagsReject, or_assoc] using hflags
        · have hw : flagsReject (s.pairBits lid (vA op) 1) = false := (flagsReject_eq_false _).2 ⟨hsat, hpoison, hodd⟩
          refine ⟨fun j hj hfree hlow => ?_, fun hfull => ⟨fun hlower => ?_, fun hnot => ?_⟩⟩
          · obtain ⟨hlane, hused, henergy, hindex, hsweep, hflags, hothers⟩ :=
              admitted_of_core hclean (by decide) helo hehi hcore hw (admitSlot_of_unused hj hfree hlow _)
            exact ⟨hlane, hused, henergy, hindex, hsweep, hflags, fun i _ hi => hothers i hi⟩
          · obtain ⟨j, hj, hadmit, hbefore⟩ := admitSlot_of_lower hfull hlower
            obtain ⟨hlane, -, henergy, -, -, -, hothers⟩ := admitted_of_core hclean (by decide) helo hehi hcore hw hadmit
            exact ⟨j, hj, fun i hi => (slotBefore_iff ..).1 (hbefore i hi), hlane, henergy, fun i _ hi => hothers i hi⟩
          · exact notAdmitted_admitOne (by decide) hcore (by rw [hw]; exact admitSlot_of_not_lower hlo hfull hnot)
  · intro hclear hemit hres hlo hhi hend
    have hlen := length_sortedSlots_le s lid (vTile op) (bitsOf op 81 10)
    obtain ⟨hperm, hsorted⟩ := sortedSlots_spec s lid (vTile op) (bitsOf op 81 10)
    have hbs := length_flatten_emitEntries (s := s) (lid := lid) (op := op) hlen
    have hentries := listStep_wr hlist (vTile op + 1024) (emitEntries s lid op (bitsOf op 81 10)
      (sortedSlots s lid (vTile op) (bitsOf op 81 10))).flatten fun _ _ => False
    have hread := rd_wr_same (m := .tile) (a := vTile op + 1024) hlist (emitEntries s lid op (bitsOf op 81 10)
      (sortedSlots s lid (vTile op) (bitsOf op 81 10))).flatten
    rw [hbs] at hentries hread
    obtain ⟨hdone, hcore, hbytes⟩ := hentries.done hhead.inside
    rw [← rd_of_core hcore] at hread
    obtain ⟨hused, hempty⟩ := rd_emitted hlen hread
    refine ⟨bestkEmitOp lid s, sortedSlots s lid (vTile op) (bitsOf op 81 10), guarded_of_lid hhead.core, ?_⟩
    rw [bestkEmitOp_of_atHead hhead hop hclear hemit hres hclean (bestkChecks_ok ha (by omega) hlo hhi)]
    refine ⟨hdone, ?_, hbytes, hperm, hsorted, fun i j hj => rd_entry (hused i j hj), fun i hlo hhi => rd_emptyEntry (hempty i hlo hhi)⟩
    rw [hcore]
    exact core_wr_listAt hclean _

/-- Settles O29: each vector op is its effect on lanes, lace words or the list's bytes, followed by the end of a vector op. -/
theorem energyExchangeAndBestk : Obligations.EnergyExchangeAndBestk := ⟨energyAndExchange, bestkList⟩

end Sys2Proof.Machine
end

section
/-!
PROOFS. Scope: rounding (R143) to nearest and by random bits (R157), through what it adds to the floor.
-/
namespace Sys2Proof.Machine

/-! ### What is added to the floor (R143) -/

/-- How many of the `2 ^ k` values of the random bits round `x` up at `n` discarded bits (R143, R157). -/
def drawsUp (x : Int) (n k : Nat) : Nat :=
  let f := (x % (2 ^ n : Nat)).toNat
  if k < n then (f + 2 ^ (n - k - 1)) / 2 ^ (n - k) else f * 2 ^ (k - n)

theorem rnd_stochastic (x : Int) (n k r : Nat) : rnd x n true k r = x / 2 ^ n + if r < drawsUp x n k then 1 else 0 := by
  simp [rnd, drawsUp]

/-- The discarded bits, as a number. -/
theorem discarded_cast (x : Int) (n : Nat) : (((x % (2 ^ n : Nat)).toNat : Nat) : Int) = x % 2 ^ n := by
  rw [Int.toNat_of_nonneg (Int.emod_nonneg _ (by positivity))]
  push_cast
  rfl

/-- To nearest, a value goes up past the middle, and from the middle where the floor is odd. -/
theorem rnd_nearest (x : Int) {n : Nat} (hn : 1 ≤ n) (k r : Nat) : rnd x n false k r =
    x / 2 ^ n + if 2 ^ n < 2 * (x % 2 ^ n) ∨ 2 * (x % 2 ^ n) = 2 ^ n ∧ x / 2 ^ n % 2 = 1 then 1 else 0 := by
  have hhalf : (2 : Int) ^ n = 2 * ((2 ^ (n - 1) : Nat) : Int) := by
    rw [← pow_sub_one_mul (by omega : n ≠ 0)]
    push_cast
    ring
  have hf := discarded_cast x n
  simp only [rnd, Nat.cast_pow, Nat.cast_ofNat, Bool.false_eq_true, if_false, Bool.or_eq_true, Bool.and_eq_true, decide_eq_true_eq]
  simp only [Nat.cast_pow, Nat.cast_ofNat] at hf
  congr 1
  refine if_congr (or_congr ?_ (and_congr_left' ?_)) rfl rfl <;> omega

/-! ### The error (R143) -/

/-- A value that is rounded up by `u` units of its floor. -/
theorem error_of_floor (x : Int) (n : Nat) (u : Int) : 2 ^ n * (x / 2 ^ n + u) - x = 2 ^ n * u - x % 2 ^ n := by
  have := Int.mul_ediv_add_emod x (2 ^ n)
  linarith [mul_add ((2 : Int) ^ n) (x / 2 ^ n) u]

theorem emod_two_pow_bounds (x : Int) (n : Nat) : 0 ≤ x % 2 ^ n ∧ x % 2 ^ n < 2 ^ n :=
  ⟨Int.emod_nonneg _ (by positivity), Int.emod_lt_of_pos _ (by positivity)⟩

/-- Settles O15: the part that is discarded is at most half a unit where it is dropped and at least half where it is
completed; at half a unit the floor's last bit decides. -/
theorem roundsToNearestEven : Obligations.RoundsToNearestEven := by
  unfold Obligations.RoundsToNearestEven
  intro x n hn
  have hf := emod_two_pow_bounds x n
  rw [rnd_nearest x hn, error_of_floor]
  split
  case isTrue hup =>
    rw [mul_one, abs_of_pos (by omega)]
    exact ⟨by omega, fun htie => by omega⟩
  case isFalse hdown =>
    rw [mul_zero, zero_sub, abs_neg, abs_of_nonneg hf.1]
    exact ⟨by omega, fun htie => by omega⟩

/-! ### The mean over the random bits (R157) -/

/-- The `T` lowest of `N` draws round up. -/
theorem sum_range_floor_add (q : Int) {T : Nat} (N : Nat) :
    ((List.range N).map fun r => q + if r < T then 1 else 0).sum = N * q + (min T N : Nat) := by
  induction N with
  | zero => simp
  | succ N ih =>
    rw [List.range_succ, List.map_append, List.sum_append, ih, List.map_singleton, List.sum_singleton]
    push_cast
    split <;> grind

/-- What all draws round up by, against what is discarded: with fewer random bits than discarded bits at most half a unit, with
as many or more exactly that. -/
theorem drawsUp_error (x : Int) {n k : Nat} (hn : 1 ≤ n) :
    2 * |2 ^ n * (drawsUp x n k : Int) - 2 ^ k * (x % 2 ^ n)| ≤ 2 ^ n ∧
      (n ≤ k → 2 ^ n * (drawsUp x n k : Int) = 2 ^ k * (x % 2 ^ n)) := by
  rw [← discarded_cast]
  unfold drawsUp
  generalize (x % (2 ^ n : Nat)).toNat = f
  split
  case isTrue hk =>
    refine ⟨?_, fun hle => absurd hk (by omega)⟩
    obtain ⟨m, rfl⟩ : ∃ m, n = k + (m + 1) := ⟨n - k - 1, by omega⟩
    rw [show k + (m + 1) - k - 1 = m by omega, show k + (m + 1) - k = m + 1 by omega]
    have hdiv := Nat.div_add_mod (f + 2 ^ m) (2 ^ (m + 1))
    have hmod := Nat.mod_lt (f + 2 ^ m) (Nat.two_pow_pos (m + 1))
    have hunit : |(2 : Int) ^ (m + 1) * ((f + 2 ^ m) / 2 ^ (m + 1) : Nat) - f| ≤ 2 ^ m := by
      rw [abs_le]
      have hpos := Nat.zero_le ((f + 2 ^ m) % 2 ^ (m + 1))
      zify at hdiv hmod hpos
      push_cast
      constructor <;> linarith [pow_succ (2 : Int) m]
    calc 2 * |(2 : Int) ^ (k + (m + 1)) * ((f + 2 ^ m) / 2 ^ (m + 1) : Nat) - 2 ^ k * f|
        = 2 * (2 ^ k * |(2 : Int) ^ (m + 1) * ((f + 2 ^ m) / 2 ^ (m + 1) : Nat) - f|) := by
          rw [pow_add, mul_assoc, ← mul_sub, abs_mul, abs_of_pos (by positivity : (0 : Int) < 2 ^ k)]
      _ ≤ 2 * (2 ^ k * 2 ^ m) := by gcongr
      _ = 2 ^ (k + (m + 1)) := by ring
  case isFalse hk =>
    have hexact : (2 : Int) ^ n * (f * 2 ^ (k - n) : Nat) = 2 ^ k * f := by
      rw [← pow_sub_mul_pow (2 : Int) (Nat.le_of_not_lt hk)]
      push_cast
      ring
    exact ⟨by rw [hexact, sub_self, abs_zero, mul_zero]; positivity, fun _ => hexact⟩

/-- No more draws round up than there are. -/
theorem drawsUp_le (x : Int) {n k : Nat} (hn : 1 ≤ n) : drawsUp x n k ≤ 2 ^ k := by
  obtain ⟨herr, -⟩ := drawsUp_error x (k := k) hn
  have hle := le_abs_self (2 ^ n * (drawsUp x n k : Int) - 2 ^ k * (x % 2 ^ n))
  have hf : (2 : Int) ^ k * (x % 2 ^ n) ≤ 2 ^ k * 2 ^ n := by
    gcongr
    exact (emod_two_pow_bounds x n).2.le
  have hunit : (0 : Int) < 2 ^ n := by positivity
  by_contra hmore
  have hT : (2 : Int) ^ n * (2 ^ k + 1) ≤ 2 ^ n * drawsUp x n k := by
    gcongr
    exact_mod_cast Nat.lt_of_not_le hmore
  linarith [mul_comm ((2 : Int) ^ k) (2 ^ n)]

/-- Settles O16: all the draws together add to the floors the number of them that round up. -/
theorem stochasticRoundingUnbiased : Obligations.StochasticRoundingUnbiased := by
  unfold Obligations.StochasticRoundingUnbiased
  intro x n k hn _
  have hsum : ((List.range (2 ^ k)).map fun r => rnd x n true k r).sum = 2 ^ k * (x / 2 ^ n) + drawsUp x n k := by
    simp only [rnd_stochastic]
    rw [sum_range_floor_add, min_eq_left (drawsUp_le x hn)]
    push_cast
    rfl
  have herror : 2 ^ n * ((List.range (2 ^ k)).map fun r => rnd x n true k r).sum - 2 ^ k * x =
      2 ^ n * (drawsUp x n k : Int) - 2 ^ k * (x % 2 ^ n) := by
    rw [hsum]
    linear_combination (2 : Int) ^ k * Int.mul_ediv_add_emod x (2 ^ n)
  obtain ⟨hbound, hexact⟩ := drawsUp_error x (k := k) hn
  refine ⟨by rwa [herror], fun hle => ?_, fun r => ?_⟩
  · rw [← sub_eq_zero, herror, hexact hle, sub_self]
  · rw [rnd_stochastic]
    split
    · exact .inr rfl
    · exact .inl (add_zero _)

end Sys2Proof.Machine
end

section
/-!
PROOFS. Scope: MAC.TILE, the states of a bank, MAC.DRAIN (R145-R147, R149, R162, R163).
-/
namespace Sys2Proof.Machine

section MacOps

variable {s t : State} {lid b : Nat} {op : OpWord} {l : List Fld}

/-! ### Retirement after work on a core (R213) -/

/-- Work on a core that leaves its queue's PC and count of ops ends by retiring, which changes these two alone. -/
theorem CoreStep.retire {q : Queue} (h : CoreStep lid l s t) (ha : ∀ g ∈ l, (qPc lid q).Apart g ∧ (qOps lid q).Apart g)
    (hin : s.getF (qPc lid q) < 4095) :
    Retired lid q s (t.retire lid q) ∧ RegsOnly [qPc lid q, qOps lid q] t (t.retire lid q) ∧
      CoreStep lid ([qPc lid q, qOps lid q] ++ l) s (t.retire lid q) := by
  obtain ⟨hret, hregs⟩ := retire_of_onlyFields h.2.2 ha hin
  exact ⟨hret, hregs, (h.mono fun _ => List.mem_append_right _).trans
    ((hregs.coreStep lid).mono fun _ => List.mem_append_left _)⟩

/-! ### The ops at the head of the M queue -/

theorem macTileOp_of_atHead (hhead : AtHead s lid .m op) (hop : opOpcode op = 0x20) : macTileOp lid s =
    if bitsOf op 1 2 = 3 then s.opFault lid .m fMacFormat
    else if opReserved [(0, 86)] op ∨ bitsOf op 62 12 = 0 ∨ bitsOf op 74 12 = 0 then s.opFault lid .m fMacOperand
    else (s.modCore lid fun c => { c with macNext := tblPut (fun _ => {}) (bitsOf op 0 1) (tileParams op) c.macNext }).retire lid .m := by
  rw [macTileOp, ← hop, issue_of_atHead hhead]

/-- A MAC.MM without an operand fault against the parameters that it takes pushes (R163). -/
def State.mmGo (lid : Nat) (op : OpWord) (p : MacParams) (s : State) : State :=
  match mmFault p op with
  | some c => s.opFault lid .m c
  | none => mmPush lid (bitsOf op 0 1) p op s

/-- A MAC.MM by the state of its bank (R145, R146). -/
theorem macMmOp_of_atHead (hhead : AtHead s lid .m op) (hop : opOpcode op = 0x21) (hres : opReserved [(0, 91), (112, 2)] op = false) :
    macMmOp lid s =
      if bitOf op 112 then
        if s.getF (cBankState lid (bitsOf op 0 1)) = 1 then s.opFault lid .m fMacReopen
        else if s.getF (cBankState lid (bitsOf op 0 1)) = 2 ∧ !s.onF (cBankDrainIssued lid (bitsOf op 0 1)) then
          s.opFault lid .m fMacUndrained
        else if s.getF (cBankState lid (bitsOf op 0 1)) ≠ 0 then s
        else s.mmGo lid op (tblGet (fun _ => {}) (s.core lid).macNext (bitsOf op 0 1))
      else if s.getF (cBankState lid (bitsOf op 0 1)) ≠ 1 then s.opFault lid .m fMacNotOpen
      else s.mmGo lid op (s.bank lid (bitsOf op 0 1)).params := by
  rw [macMmOp, ← hop]
  exact (issue_of_atHead hhead _).trans (if_neg (by simp [hres]))

/-- A drain without a fault of its own fields goes to the drain engine, and the queue goes on (R149, R163). -/
def State.drainGo (lid : Nat) (op : OpWord) (s : State) : State :=
  match drainFault s lid op with
  | some c => s.opFault lid .m c
  | none => ((s.setF (cBankDrainIssued lid (bitsOf op 0 1)) 1).modCore lid fun c =>
      { c with drains := c.drains ++ [⟨op, s.keySweep lid, s.getF (qPc lid .m), 0⟩] }).advance lid .m

/-- A MAC.DRAIN by the drain engine's room and the state of its bank (R147, R149). -/
theorem macDrainOp_of_atHead (hhead : AtHead s lid .m op) (hop : opOpcode op = 0x22)
    (hres : opReserved [(0, 66), (112, 1)] op = false) : macDrainOp lid s =
      if 2 ≤ (s.core lid).drains.length then s
      else if s.getF (cBankState lid (bitsOf op 0 1)) ≠ 2 ∨ s.onF (cBankDrainIssued lid (bitsOf op 0 1)) then
        s.opFault lid .m fMacNoClose
      else s.drainGo lid op := by
  rw [macDrainOp, ← hop]
  exact (issue_of_atHead hhead _).trans (if_neg (by simp [hres]))

/-! ### The registers of a bank (R160) -/

theorem cBankDrainIssued_ok (lid b : Nat) : (cBankDrainIssued lid b).Ok := by simp [Fld.Ok, cBankDrainIssued]

theorem qPc_apart_cBankDrainIssued (lid : Nat) (_ : b < 2) : (qPc lid .m).Apart (cBankDrainIssued lid b) := by
  simp only [Fld.Apart, Fld.base, qPc, cBankDrainIssued, Queue.num]
  omega

end MacOps

theorem macTileSetsNext : MacTileSetsNextRule := by
  unfold MacTileSetsNextRule
  intro s lid op hhead hop
  have htile := macTileOp_of_atHead hhead hop
  refine ⟨fun hformat => ⟨macTileOp lid s, guarded_of_lid hhead.core, ?_⟩,
    fun hformat hstep => ⟨macTileOp lid s, guarded_of_lid hhead.core, ?_⟩,
    fun hformat hres ha hb => ⟨macTileOp lid s, guarded_of_lid hhead.core, ?_⟩⟩
  · rw [htile, if_pos hformat]
    exact opFault_halted lid .m (by decide) s
  · rw [htile, if_neg hformat, if_pos (.inr hstep)]
    exact opFault_halted lid .m (by decide) s
  · rw [htile, if_neg hformat, if_neg (by simp [hres, ha, hb])]
    obtain ⟨hret, hregs, hstep⟩ := (coreStep_modCore lid [] (fun c =>
      { c with macNext := tblPut (fun _ => {}) (bitsOf op 0 1) (tileParams op) c.macNext }) s).retire (q := .m) (by simp) hhead.inside
    have hcore := hregs.core_eq lid
    rw [core_modCore_same] at hcore
    refine ⟨hret, ?_, fun b hne => ?_, ?_, hstep⟩
    · rw [hcore]
      exact tblGet_tblPut_same ..
    · rw [hcore]
      exact tblGet_tblPut_ne _ hne ..
    · rw [hcore]

theorem macBankFaults : MacBankFaultsRule := by
  unfold MacBankFaultsRule
  rintro s lid b op hhead rfl
  refine ⟨fun hop hres => ?_, fun hop hres => ?_⟩
  · have hmm := macMmOp_of_atHead hhead hop hres
    have hexec : exec (.macMm lid) s = .next (macMmOp lid s) := guarded_of_lid hhead.core
    rw [hexec, hmm]
    refine ⟨fun hopen hst => ⟨_, rfl, ?_⟩, fun hopen hst hno => ⟨_, rfl, ?_⟩, fun hopen hst hissued => congrArg _ ?_,
      fun hopen hst => congrArg _ ?_, fun hopen hst => ⟨_, rfl, ?_⟩⟩
    · rw [if_pos hopen, if_pos hst]
      exact opFault_halted lid .m (by decide) s
    · rw [if_pos hopen, if_neg (by omega), if_pos ⟨hst, by simp [State.onF, hno]⟩]
      exact opFault_halted lid .m (by decide) s
    · rw [if_pos hopen, if_neg (by omega), if_neg (by simp [State.onF, hissued]), if_pos (by omega)]
    · rw [if_pos hopen, if_neg (by omega), if_neg (by omega), if_pos (by omega)]
    · rw [if_neg (by simp [hopen]), if_pos hst]
      exact opFault_halted lid .m (by decide) s
  · have hdrain := macDrainOp_of_atHead hhead hop hres
    have hexec : exec (.macDrain lid) s = .next (macDrainOp lid s) := guarded_of_lid hhead.core
    rw [hexec, hdrain]
    refine ⟨fun hfull => by rw [if_pos hfull], fun hroom hst => ⟨_, rfl, ?_⟩⟩
    rw [if_neg (by omega), if_pos (hst.imp_right fun h => by simp [State.onF, h])]
    exact opFault_halted lid .m (by decide) s

theorem macDrainIssues : MacDrainIssuesRule := by
  unfold MacDrainIssuesRule
  rintro s lid b op hhead hop hres rfl hroom hst hno hfault
  have hapart := qPc_apart_cBankDrainIssued lid (bitsOf_lt op 0 1)
  have hpc := hhead.inside
  have hpcs : ((s.setF (cBankDrainIssued lid (bitsOf op 0 1)) 1).modCore lid fun c =>
      { c with drains := c.drains ++ [⟨op, s.keySweep lid, s.getF (qPc lid .m), 0⟩] }).getF (qPc lid .m) = s.getF (qPc lid .m) := by
    rw [getF_modCore, getF_setF_apart _ _ _ (qPc_ok ..) (cBankDrainIssued_ok ..) hapart]
  refine ⟨macDrainOp lid s, guarded_of_lid hhead.core, ?_⟩
  rw [macDrainOp_of_atHead hhead hop hres, if_neg (by omega), if_neg (by simp [State.onF, hst, hno]), State.drainGo, hfault]
  dsimp only
  rw [advance_inside (by rw [hpcs]; exact hpc), hpcs]
  refine ⟨?_, ?_, ?_, ?_⟩
  · rw [getF_setF_same _ _ (qPc_ok ..)]
    exact Nat.mod_eq_of_lt (show _ < 4096 by omega)
  · rw [getF_setF_apart _ _ _ (cBankDrainIssued_ok ..) (qPc_ok ..) hapart.symm, getF_modCore,
      getF_setF_same _ _ (cBankDrainIssued_ok ..)]
    rfl
  · exact ((coreStep_setF lid _ (cBankDrainIssued_ok ..) (by simp)).trans (coreStep_modCore ..)).trans
      (coreStep_setF lid _ (qPc_ok ..) (by simp))
  · rw [core_setF, core_modCore_same, core_setF]
    rfl

/-- Settles O18: each op at the head of its queue is its branch by the bank's state. -/
theorem macBanksAndTiles : Obligations.MacBanksAndTiles := ⟨macTileSetsNext, macBankFaults, macDrainIssues⟩

end Sys2Proof.Machine
end

section
/-!
PROOFS. What the pushes of a MAC.MM leave of each element (R133-R142): the products of a step, the fold of a bank, and the
exact sums of INT8 and INT4 tiles.
-/
namespace Sys2Proof.Machine

/-! ### Products of a step (R133, R135) -/

/-- What a step adds to an element, by the format and the element's bytes of A and B. -/
def stepProduct (format : Nat) (x y : Byte) : Int :=
  if format = 1 then s4 false x * s4 false y + s4 true x * s4 true y else s8 x * s8 y

theorem length_outerProduct (a b : List Int) : (outerProduct a b).length = a.length * b.length := by
  simp [outerProduct, List.length_flatMap]

/-- Element (i,j) of a tile is product `i * j` of the column and the row. -/
theorem getElem?_outerProduct (a b : List Int) {i j : Nat} (hi : i < a.length) (hj : j < b.length) :
    (outerProduct a b)[b.length * i + j]? = some (a[i] * b[j]) := by
  induction a generalizing i with
  | nil => exact absurd hi (Nat.not_lt_zero i)
  | cons x a ih =>
    have hcons : outerProduct (x :: a) b = b.map (x * ·) ++ outerProduct a b := List.flatMap_cons
    rw [hcons]
    cases i with
    | zero => rw [List.getElem?_append_left (by simpa using hj)]; simp [hj]
    | succ i =>
      rw [List.getElem?_append_right (by simp; nlinarith), List.length_map,
        show b.length * (i + 1) + j - b.length = b.length * i + j by rw [mul_add]; omega, ih (by simpa using hi)]
      rfl

theorem length_stepProducts (format : Nat) {a b : List Byte} (ha : a.length = 32) (hb : b.length = 32) :
    (stepProducts format a b).length = 1024 := by
  unfold stepProducts
  split <;> simp [length_outerProduct, ha, hb]

theorem getD_stepProducts (format : Nat) {a b : List Byte} (ha : a.length = 32) (hb : b.length = 32) {i j : Nat} (hi : i < 32)
    (hj : j < 32) : (stepProducts format a b).getD (32 * i + j) 0 = stepProduct format (a.getD i 0) (b.getD j 0) := by
  have houter : ∀ f g : Byte → Int, (outerProduct (a.map f) (b.map g))[32 * i + j]? = some (f (a.getD i 0) * g (b.getD j 0)) := by
    intro f g
    have h := getElem?_outerProduct (a.map f) (b.map g) (i := i) (j := j) (by simpa [ha]) (by simpa [hb])
    simpa [ha, hb, hi, hj, List.getD_eq_getElem?_getD] using h
  rw [List.getD_eq_getElem?_getD]
  unfold stepProducts stepProduct
  split
  · rw [List.getElem?_zipWith, houter, houter]; rfl
  · rw [houter]; rfl

theorem abs_s8_le (b : Byte) : |s8 b| ≤ 2 ^ 7 := by
  have := BitVec.le_toInt b
  have := BitVec.toInt_lt (x := b)
  rw [s8, abs_le]
  omega

theorem abs_s4_le (h : Bool) (b : Byte) : |s4 h b| ≤ 2 ^ 3 := by
  have := BitVec.le_toInt (b.extractLsb' (if h then 4 else 0) 4)
  have := BitVec.toInt_lt (x := b.extractLsb' (if h then 4 else 0) 4)
  rw [s4, sbitsOf, abs_le]
  omega

theorem abs_stepProduct_le (format : Nat) (x y : Byte) : |stepProduct format x y| ≤ 2 ^ 14 := by
  have hmul : ∀ {u v c : Int}, |u| ≤ c → |v| ≤ c → |u * v| ≤ c * c := fun {u v c} hu hv => by
    rw [abs_mul]
    exact mul_le_mul hu hv (abs_nonneg v) ((abs_nonneg u).trans hu)
  unfold stepProduct
  split
  · calc |s4 false x * s4 false y + s4 true x * s4 true y|
        ≤ |s4 false x * s4 false y| + |s4 true x * s4 true y| := abs_add_le ..
      _ ≤ 2 ^ 3 * 2 ^ 3 + 2 ^ 3 * 2 ^ 3 := add_le_add (hmul (abs_s4_le ..) (abs_s4_le ..)) (hmul (abs_s4_le ..) (abs_s4_le ..))
      _ ≤ 2 ^ 14 := by norm_num
  · exact hmul (abs_s8_le x) (abs_s8_le y)

section Pushes

variable {s : State} {lid k : Nat} {op : OpWord} {p : MacParams} {sweep : Nat} {x : Push} {tot : Nat → Int}

/-- The products of step `k` of a MAC.MM. -/
def mmProducts (s : State) (lid : Nat) (p : MacParams) (op : OpWord) (k : Nat) : List Int :=
  stepProducts p.format (s.rd lid .tile (mmA op + 32 * p.aStep * k) 32) (s.rd lid .tile (mmB op + 32 * p.bStep * k) 32)

theorem length_mmProducts (s : State) (lid : Nat) (p : MacParams) (op : OpWord) (k : Nat) : (mmProducts s lid p op k).length = 1024 :=
  length_stepProducts _ (length_rd ..) (length_rd ..)

theorem getD_rd (s : State) (lid : Nat) (m : CoreMem) (a : Nat) {n i : Nat} (hi : i < n) :
    (s.rd lid m a n).getD i 0 = ((s.core lid).mem m).byte (a + i) := by
  simp [State.rd, Mem.load, List.getD_eq_getElem?_getD, hi]

theorem getD_mmProducts (s : State) (lid : Nat) (p : MacParams) (op : OpWord) (k : Nat) {i j : Nat} (hi : i < 32) (hj : j < 32) :
    (mmProducts s lid p op k).getD (32 * i + j) 0 = stepProduct p.format
      ((s.core lid).tile.byte (mmA op + 32 * p.aStep * k + i)) ((s.core lid).tile.byte (mmB op + 32 * p.bStep * k + j)) := by
  rw [mmProducts, getD_stepProducts _ (length_rd ..) (length_rd ..) hi hj, getD_rd _ _ _ _ hi, getD_rd _ _ _ _ hj]
  rfl

/-- What the first `K` steps of a MAC.MM add to an element. -/
def mmSum (s : State) (lid : Nat) (p : MacParams) (op : OpWord) (K n : Nat) : Int :=
  ((List.range K).map fun k => (mmProducts s lid p op k).getD n 0).sum

theorem mmSum_succ (s : State) (lid : Nat) (p : MacParams) (op : OpWord) (K n : Nat) :
    mmSum s lid p op (K + 1) n = mmSum s lid p op K n + (mmProducts s lid p op K).getD n 0 := by
  simp [mmSum, List.range_succ]

theorem mmSum_eq (s : State) (lid : Nat) (p : MacParams) (op : OpWord) (K : Nat) {i j : Nat} (hi : i < 32) (hj : j < 32) :
    mmSum s lid p op K (32 * i + j) = ((List.range K).map fun k => stepProduct p.format
      ((s.core lid).tile.byte (mmA op + 32 * p.aStep * k + i)) ((s.core lid).tile.byte (mmB op + 32 * p.bStep * k + j))).sum := by
  unfold mmSum
  congr 1
  exact List.map_congr_left fun k _ => getD_mmProducts s lid p op k hi hj

theorem abs_mmSum_le (s : State) (lid : Nat) (p : MacParams) (op : OpWord) (K : Nat) {n : Nat} (hn : n < 1024) :
    |mmSum s lid p op K n| ≤ K * 2 ^ 14 := by
  have hterm : ∀ k, |(mmProducts s lid p op k).getD n 0| ≤ 2 ^ 14 := fun k => by
    rw [← Nat.div_add_mod n 32, getD_mmProducts s lid p op k (by omega) (Nat.mod_lt _ (by decide))]
    exact abs_stepProduct_le ..
  exact abs_le.2 (sum_range_bounds (fun k => abs_le.1 (hterm k)) K)

/-! ### A step (R135, R139) -/

/-- A step adds its products to the inner accumulators (R135). -/
def Push.add (ps : List Int) (x : Push) : Push := { x with inner := List.zipWith (· + ·) x.inner ps, steps := x.steps + 1 }

/-- Whether a fold follows a step: its interval is full, or it is the last one of an op with CLOSE (R139). -/
def foldDue (p : MacParams) (op : OpWord) (k : Nat) (x : Push) : Prop :=
  x.steps % foldInterval p.format = 0 ∨ (bitOf op 113 = true ∧ k + 1 = mmSteps op)

/-- A fold after step `k` of a core without words in error. -/
def Push.fold (s : State) (lid : Nat) (p : MacParams) (sweep : Nat) (op : OpWord) (k : Nat) (x : Push) : Push :=
  foldAll (s.seedOf lid) p sweep (s.rd lid .tile (mmSA op + 32 * (k / 32)) 32) (s.rd lid .tile (mmSB op + 32 * (k / 32)) 32) false x

theorem pushStep_due (h : CleanCore s lid) (hdue : foldDue p op k (x.add (mmProducts s lid p op k))) :
    pushStep s lid p sweep op k x = (x.add (mmProducts s lid p op k)).fold s lid p sweep op k := by
  simp only [pushStep, h.rdBad_eq_false, Bool.or_false, Bool.and_false]
  exact if_pos hdue

theorem pushStep_not_due (h : CleanCore s lid) (hdue : ¬ foldDue p op k (x.add (mmProducts s lid p op k))) :
    pushStep s lid p sweep op k x = x.add (mmProducts s lid p op k) := by
  simp only [pushStep, h.rdBad_eq_false, Bool.or_false, Bool.and_false]
  exact if_neg hdue

theorem getD_inner_add {ps : List Int} (hx : x.inner.length = 1024) (hps : ps.length = 1024) (n : Nat) :
    (x.add ps).inner.getD n 0 = x.inner.getD n 0 + ps.getD n 0 := by
  simp only [Push.add, List.getD_eq_getElem?_getD, List.getElem?_zipWith]
  by_cases hn : n < 1024 <;> simp [hx, hps, hn]

theorem length_inner_add {ps : List Int} (hx : x.inner.length = 1024) (hps : ps.length = 1024) : (x.add ps).inner.length = 1024 := by
  simp [Push.add, hx, hps]

/-! ### A fold (R139-R142) -/

/-- A fold of both lists of a tile goes element by element. -/
theorem foldAll_eq (hin : x.inner.length = 1024) (hout : x.outer.length = 1024) (seed : BitVec 96) (p : MacParams) (sweep : Nat)
    (sa sb : List Byte) (bad : Bool) : ∃ fs : List Folded,
      fs = (List.range 1024).map (fun n => foldElement seed p sweep x.folds sa sb n (x.outer.getD n 0) (x.inner.getD n 0)) ∧
      foldAll seed p sweep sa sb bad x =
        { x with inner := List.replicate 1024 0, outer := fs.map (·.v), folds := x.folds + 1, sat := x.sat || fs.any (·.sat),
                 dropped := x.dropped || fs.any (·.dropped), nan := x.nan || fs.any (·.nan),
                 poison := x.poison || bad || fs.any (·.nan), octets := x.octets + foldOctets p sa sb } := by
  refine ⟨((List.range 1024).zip (x.outer.zip x.inner)).map fun e => foldElement seed p sweep x.folds sa sb e.1 e.2.1 e.2.2, ?_, by rw [foldAll]⟩
  apply List.ext_getElem
  · simp [hin, hout]
  · intro n hn _
    have hlt : n < 1024 := by simpa [hin, hout] using hn
    simp [List.getD_eq_getElem?_getD, hin, hout, hlt]

/-! ### Exact sums (R139, R140) -/

/-- A push that has raised nothing, whose tile holds `tot` in all, bank and inner accumulators together. -/
structure Exact (tot : Nat → Int) (x : Push) : Prop where
  inner : x.inner.length = 1024
  outer : x.outer.length = 1024
  total : ∀ n, n < 1024 → x.outer.getD n 0 + x.inner.getD n 0 = tot n
  sat : x.sat = false
  dropped : x.dropped = false
  nan : x.nan = false
  poison : x.poison = false

theorem Exact.add (h : Exact tot x) {ps : List Int} (hps : ps.length = 1024) : Exact (fun n => tot n + ps.getD n 0) (x.add ps) := by
  obtain ⟨hin, hout, htot, hsat, hdropped, hnan, hpoison⟩ := h
  refine ⟨length_inner_add hin hps, hout, fun n hn => ?_, hsat, hdropped, hnan, hpoison⟩
  rw [getD_inner_add hin hps, ← htot n hn, add_assoc]
  rfl

theorem Exact.congr {tot' : Nat → Int} (h : Exact tot x) (heq : ∀ n, tot n = tot' n) : Exact tot' x := by
  rwa [← funext heq]

theorem satS_of_abs_lt {x : Int} (h : |x| < 2 ^ 63) : satS 64 x = x := by
  have hx := abs_lt.1 h
  have hmin : sMin 64 = -2 ^ 63 := rfl
  have hmax : sMax 64 = 2 ^ 63 - 1 := rfl
  unfold satS
  rw [if_neg (by omega), if_neg (by omega)]

/-- A sum that 64 bits hold is stored whole. -/
theorem foldAdd_of_abs_lt {o b : Int} (h : |o + b| < 2 ^ 63) : foldAdd o b = { v := o + b } := by
  simp [foldAdd, satS_of_abs_lt h]

theorem getD_replicate_zero (N n : Nat) : (List.replicate N (0 : Int)).getD n 0 = 0 := by
  rw [List.getD_eq_getElem?_getD, List.getElem?_replicate]
  split <;> rfl

/-- A fold of integers moves the inner sums into the bank (R140). -/
theorem Exact.fold (h : Exact tot x) (hp : p.format ≠ 2) (hb : ∀ n, n < 1024 → |tot n| < 2 ^ 63) :
    Exact tot (x.fold s lid p sweep op k) ∧ (x.fold s lid p sweep op k).inner = List.replicate 1024 0 := by
  obtain ⟨hin, hout, htot, hsat, hdropped, hnan, hpoison⟩ := h
  obtain ⟨fs, hfs, heq⟩ := foldAll_eq hin hout (s.seedOf lid) p sweep (s.rd lid .tile (mmSA op + 32 * (k / 32)) 32)
    (s.rd lid .tile (mmSB op + 32 * (k / 32)) 32) false
  have hexact : fs = (List.range 1024).map fun n => { v := tot n } := by
    rw [hfs]
    refine List.map_congr_left fun n hn => ?_
    have hlt := List.mem_range.1 hn
    rw [foldElement, if_pos hp, foldAdd_of_abs_lt (by rw [htot n hlt]; exact hb n hlt), htot n hlt]
  have hraised : ∀ g : Folded → Bool, (∀ v, g { v := v } = false) → fs.any g = false := fun g hg => by
    rw [hexact, List.any_map, List.any_eq_false]
    exact fun n _ => by simp [hg]
  rw [Push.fold, heq]
  refine ⟨⟨List.length_replicate, by simp [hexact], fun n hn => ?_, ?_, ?_, ?_, ?_⟩, rfl⟩
  · rw [getD_replicate_zero, add_zero, hexact]
    simp [List.getD_eq_getElem?_getD, hn]
  · simp only [hsat, hraised (·.sat) fun _ => rfl, Bool.or_false]
  · simp only [hdropped, hraised (·.dropped) fun _ => rfl, Bool.or_false]
  · simp only [hnan, hraised (·.nan) fun _ => rfl, Bool.or_false]
  · simp only [hpoison, hraised (·.nan) fun _ => rfl, Bool.or_false]

theorem Exact.pushStep (h : Exact tot x) (hclean : CleanCore s lid) (hp : p.format ≠ 2)
    (hb : ∀ n, n < 1024 → |tot n + (mmProducts s lid p op k).getD n 0| < 2 ^ 63) :
    Exact (fun n => tot n + (mmProducts s lid p op k).getD n 0) (pushStep s lid p sweep op k x) := by
  have hadd := h.add (length_mmProducts s lid p op k)
  by_cases hdue : foldDue p op k (x.add (mmProducts s lid p op k))
  · rw [pushStep_due hclean hdue]
    exact (hadd.fold hp hb).1
  · rw [pushStep_not_due hclean hdue]
    exact hadd

/-! ### All steps of an op (R137) -/

/-- The first `K` steps of a MAC.MM. -/
def pushes (s : State) (lid : Nat) (p : MacParams) (sweep : Nat) (op : OpWord) (K : Nat) (x : Push) : Push :=
  (List.range K).foldl (fun x i => pushStep s lid p sweep op i x) x

theorem pushes_succ (s : State) (lid : Nat) (p : MacParams) (sweep : Nat) (op : OpWord) (K : Nat) (x : Push) :
    pushes s lid p sweep op (K + 1) x = pushStep s lid p sweep op K (pushes s lid p sweep op K x) := by
  simp [pushes, List.range_succ]

/-- The steps of an integer tile add the exact sums of their products, whatever the folds between. -/
theorem Exact.pushes (h : Exact tot x) (hclean : CleanCore s lid) (hp : p.format ≠ 2) {K : Nat} (hK : K ≤ 2 ^ 14)
    (hb : ∀ n, n < 1024 → |tot n| ≤ 2 ^ 62 + 2 ^ 21) :
    Exact (fun n => tot n + mmSum s lid p op K n) (pushes s lid p sweep op K x) := by
  induction K with
  | zero => exact h.congr fun n => (add_zero _).symm
  | succ K ih =>
    have hsum : ∀ n, tot n + mmSum s lid p op K n + (mmProducts s lid p op K).getD n 0 = tot n + mmSum s lid p op (K + 1) n := fun n => by
      rw [mmSum_succ, add_assoc]
    rw [pushes_succ]
    refine ((ih (by omega)).pushStep hclean hp fun n hn => ?_).congr hsum
    have hle : ((K + 1 : Nat) : Int) * 2 ^ 14 ≤ 2 ^ 28 := by exact_mod_cast Nat.mul_le_mul_right (2 ^ 14) hK
    rw [hsum]
    calc |tot n + mmSum s lid p op (K + 1) n| ≤ |tot n| + |mmSum s lid p op (K + 1) n| := abs_add_le ..
      _ ≤ 2 ^ 62 + 2 ^ 21 + ((K + 1 : Nat) : Int) * 2 ^ 14 := add_le_add (hb n hn) (abs_mmSum_le s lid p op (K + 1) hn)
      _ < 2 ^ 63 := by omega

theorem mmSteps_le (op : OpWord) : mmSteps op ≤ 2 ^ 14 := bitsOf_lt op 77 14

/-- With CLOSE the last step folds, which leaves the inner accumulators at 0 (R139). -/
theorem inner_pushes_of_close (hclean : CleanCore s lid) (hclose : bitOf op 113 = true) (x : Push) :
    (pushes s lid p sweep op (mmSteps op) x).inner = List.replicate 1024 0 := by
  obtain ⟨K, hK⟩ : ∃ K, mmSteps op = K + 1 := ⟨_, rfl⟩
  rw [hK, pushes_succ, pushStep_due hclean (.inr ⟨hclose, hK.symm⟩)]
  rfl

end Pushes

end Sys2Proof.Machine
end

section
/-!
PROOFS. Scope: MAC.MM: what it leaves of its bank, its registers and its core (R133-R145, R160, R161).
-/
namespace Sys2Proof.Machine

/-! ### Fields within a register (R14) -/

/-- Every bit of the fields of `l` is a bit of a field of `m`. -/
def Covers (m l : List Fld) : Prop := ∀ g ∈ l, ∃ h ∈ m, h.base ≤ g.base ∧ g.base + g.w ≤ h.base + h.w

theorem Covers.of_subset {m l : List Fld} (h : ∀ f ∈ l, f ∈ m) : Covers m l := fun g hg => ⟨g, h g hg, le_rfl, le_rfl⟩

theorem Covers.append {m l k : List Fld} (h : Covers m l) (h' : Covers m k) : Covers m (l ++ k) := fun g hg =>
  (List.mem_append.1 hg).elim (h g) (h' g)

theorem Covers.mono {m m' l : List Fld} (h : Covers m l) (hm : ∀ f ∈ m, f ∈ m') : Covers m' l := fun g hg =>
  let ⟨c, hc, hp⟩ := h g hg
  ⟨c, hm c hc, hp⟩

/-- Each field is one of `m` or lies in a register that `m` names whole. -/
theorem Covers.of_register {m l : List Fld} {off : Nat} (hr : ⟨off, 0, 64⟩ ∈ m) (hok : ∀ g ∈ l, g.Ok)
    (h : ∀ g ∈ l, g ∈ m ∨ g.off = off) : Covers m l := by
  intro g hg
  rcases h g hg with hm | hoff
  · exact ⟨g, hm, le_rfl, le_rfl⟩
  · have := hok g hg
    unfold Fld.Ok at this
    exact ⟨_, hr, by simp only [Fld.base, hoff]; omega, by simp only [Fld.base, hoff]; omega⟩

theorem OnlyFields.cover {s t : State} {l m : List Fld} (h : OnlyFields l s t) (hc : Covers m l) : OnlyFields m s t := by
  refine fun f hf ha => h f hf fun g hg => ?_
  obtain ⟨c, hcm, hlo, hhi⟩ := hc g hg
  have hapart := ha c hcm
  unfold Fld.Apart at *
  omega

theorem CoreStep.cover {s t : State} {lid : Nat} {l m : List Fld} (h : CoreStep lid l s t) (hc : Covers m l) : CoreStep lid m s t :=
  ⟨h.1, h.2.1, h.2.2.cover hc⟩

theorem onlyFields_set64 (off : Nat) (v : W64) (s : State) : OnlyFields [⟨off, 0, 64⟩] s (s.set64 off v) := by
  intro f hf ha
  have hapart := ha _ (List.mem_singleton_self _)
  simp only [Fld.Apart, Fld.base] at hapart
  apply Nat.eq_of_testBit_eq
  intro i
  rw [testBit_getF f hf, testBit_getF f hf, bit_set64]
  by_cases hi : i < f.w
  · rw [if_neg (by simp only [Fld.base]; omega)]
  · simp [hi]

section Mm

variable {s t : State} {lid b : Nat} {op : OpWord} {p : MacParams} {x : Push} {l : List Fld}

/-! ### The registers of a bank and of the array (R160, R161) -/

/-- The whole register of a bank. -/
def bankReg (lid b : Nat) : Fld := ⟨(cBankState lid b).off, 0, 64⟩

/-- What a push records: in its bank's register and in CORE_MAC_STATUS. -/
def flagFields (lid b : Nat) : List Fld :=
  [cBankSat lid b, cOuterSat lid, cBankDropped lid b, cDropped lid, cBankPoison lid b, cMacPoison lid, cScaleNan lid]

/-- What a push counts. -/
def countFields (lid b : Nat) : List Fld := [cBankSteps lid b, cSteps lid, cBlocks lid, cHolds lid, cMacStalls lid]

theorem cBankState_ok (lid b : Nat) : (cBankState lid b).Ok := by simp [Fld.Ok, cBankState]
theorem cBankFormat_ok (lid b : Nat) : (cBankFormat lid b).Ok := by simp [Fld.Ok, cBankFormat]
theorem cBankAnchor_ok (lid b : Nat) : (cBankAnchor lid b).Ok := by simp [Fld.Ok, cBankAnchor]
theorem cSteps_ok (lid : Nat) : (cSteps lid).Ok := by simp [Fld.Ok, cSteps]

theorem flagFields_ok (lid b : Nat) : ∀ f ∈ flagFields lid b, f.Ok ∧ f.w = 1 := by
  simp [flagFields, Fld.Ok, cBankSat, cOuterSat, cBankDropped, cDropped, cBankPoison, cMacPoison, cScaleNan]

theorem countFields_ok (lid b : Nat) : ∀ f ∈ countFields lid b, f.Ok := by
  simp [countFields, Fld.Ok, cBankSteps, cSteps, cBlocks, cHolds, cMacStalls]

theorem cBankState_apart (lid : Nat) (_ : b < 2) : ∀ f ∈ flagFields lid b ++ countFields lid b, (cBankState lid b).Apart f := by
  simp only [flagFields, countFields, List.cons_append, List.nil_append, List.forall_mem_cons, List.not_mem_nil, false_implies,
    implies_true, and_true, Fld.Apart, Fld.base, cBankState, cBankSat, cOuterSat, cBankDropped, cDropped, cBankPoison, cMacPoison,
    cScaleNan, cBankSteps, cSteps, cBlocks, cHolds, cMacStalls]
  omega

theorem cSteps_apart (lid : Nat) (_ : b < 2) : ∀ f ∈ bankReg lid b :: cBankSteps lid b :: flagFields lid b, (cSteps lid).Apart f := by
  simp only [flagFields, List.forall_mem_cons, List.not_mem_nil, false_implies, implies_true, and_true, Fld.Apart, Fld.base, bankReg,
    cBankState, cBankSteps, cBankSat, cOuterSat, cBankDropped, cDropped, cBankPoison, cMacPoison, cScaleNan, cSteps]
  omega

theorem cSteps_apart_waits (lid : Nat) : ∀ f ∈ [cBlocks lid, cHolds lid, cMacStalls lid], (cSteps lid).Apart f := by
  simp only [List.forall_mem_cons, List.not_mem_nil, false_implies, implies_true, and_true, Fld.Apart, Fld.base, cBlocks, cHolds,
    cMacStalls, cSteps]
  omega

theorem flagFields_apart_count (lid : Nat) (_ : b < 2) : ∀ f ∈ flagFields lid b, ∀ g ∈ countFields lid b, f.Apart g := by
  simp only [flagFields, countFields, List.forall_mem_cons, List.not_mem_nil, false_implies, implies_true, and_true, Fld.Apart,
    Fld.base, cBankSat, cOuterSat, cBankDropped, cDropped, cBankPoison, cMacPoison, cScaleNan, cBankSteps, cSteps, cBlocks, cHolds,
    cMacStalls]
  omega

/-- Two flags of a push are one field or share no bit. -/
theorem flagFields_apart (lid : Nat) (_ : b < 2) : ∀ f ∈ flagFields lid b, ∀ g ∈ flagFields lid b, f = g ∨ f.Apart g := by
  have hne : (flagFields lid b).Pairwise Fld.Apart := by
    simp only [flagFields, List.pairwise_cons, List.forall_mem_cons, List.not_mem_nil, false_implies, implies_true, and_true,
      List.Pairwise.nil, Fld.Apart, Fld.base, cBankSat, cOuterSat, cBankDropped, cDropped, cBankPoison, cMacPoison, cScaleNan]
    omega
  have : Std.Symm fun f g : Fld => f = g ∨ f.Apart g := ⟨fun _ _ h => h.imp Eq.symm Or.symm⟩
  exact (hne.imp Or.inr).forall_of_forall fun _ _ => .inl rfl

theorem mm_apart_queue (lid : Nat) (_ : b < 2) :
    ∀ f ∈ bankReg lid b :: (flagFields lid b ++ countFields lid b), (qPc lid .m).Apart f ∧ (qOps lid .m).Apart f := by
  simp only [flagFields, countFields, List.cons_append, List.nil_append, List.forall_mem_cons, List.not_mem_nil, false_implies,
    implies_true, and_true, Fld.Apart, Fld.base, bankReg, cBankState, cBankSat, cOuterSat, cBankDropped, cDropped, cBankPoison,
    cMacPoison, cScaleNan, cBankSteps, cSteps, cBlocks, cHolds, cMacStalls, qPc, qOps, Queue.num]
  omega

/-- The flags and the step count of a bank lie in its register. -/
theorem covers_flags (lid b : Nat) :
    Covers [bankReg lid b, cOuterSat lid, cDropped lid, cMacPoison lid, cScaleNan lid] (flagFields lid b) := by
  refine .of_register (List.mem_cons_self ..) (fun g hg => (flagFields_ok lid b g hg).1) ?_
  simp only [flagFields, List.forall_mem_cons]
  exact ⟨.inr rfl, .inl (by simp), .inr rfl, .inl (by simp), .inr rfl, .inl (by simp), .inl (by simp),
    List.forall_mem_nil _⟩

theorem covers_count (lid b : Nat) : Covers [bankReg lid b, cSteps lid, cBlocks lid, cHolds lid, cMacStalls lid] (countFields lid b) := by
  refine .of_register (List.mem_cons_self ..) (countFields_ok lid b) ?_
  simp only [countFields, List.forall_mem_cons]
  exact ⟨.inr rfl, .inl (by simp), .inl (by simp), .inl (by simp), .inl (by simp), List.forall_mem_nil _⟩

/-! ### Flags (R140, R142, R160, R161) -/

/-- What a push raises. -/
def raised (lid b : Nat) (x : Push) : List (Fld × Bool) :=
  [(cBankSat lid b, x.sat), (cOuterSat lid, x.sat), (cBankDropped lid b, x.dropped), (cDropped lid, x.dropped),
    (cBankPoison lid b, x.poison), (cMacPoison lid, x.poison), (cScaleNan lid, x.nan)]

theorem pushFlags_eq (lid b : Nat) (x : Push) (s : State) :
    pushFlags lid b x s = forAll (raised lid b x) (fun e t => t.flagIf e.1 e.2) s := rfl

theorem mem_flagFields_of_raised {e : Fld × Bool} (h : e ∈ raised lid b x) : e.1 ∈ flagFields lid b :=
  List.mem_map_of_mem (f := Prod.fst) h

theorem regsOnly_forAll_flagIf {es : List (Fld × Bool)} (h : ∀ e ∈ es, e.1.Ok ∧ e.1 ∈ l) :
    RegsOnly l s (forAll es (fun e t => t.flagIf e.1 e.2) s) := by
  induction es generalizing s with
  | nil => exact .refl l s
  | cons e es ih =>
    obtain ⟨hok, hmem⟩ := h e (List.mem_cons_self ..)
    exact (regsOnly_flagIf hok hmem e.2 s).trans (ih fun e he => h e (List.mem_cons_of_mem _ he))

/-- A flag that is raised reads 1 after all of them. -/
theorem getF_forAll_flagIf {es : List (Fld × Bool)} {f : Fld} (hf : f.Ok) (hw : f.w = 1)
    (hes : ∀ e ∈ es, e.1.Ok ∧ (f = e.1 ∨ f.Apart e.1)) (h : (f, true) ∈ es ∨ s.getF f = 1) :
    (forAll es (fun e t => t.flagIf e.1 e.2) s).getF f = 1 := by
  induction es generalizing s with
  | nil => exact h.resolve_left (by simp)
  | cons e es ih =>
    obtain ⟨hok, hplace⟩ := hes e (List.mem_cons_self ..)
    refine ih (fun e he => hes e (List.mem_cons_of_mem _ he)) ?_
    by_cases hhead : e = (f, true)
    · exact .inr (by rw [hhead]; exact getF_flagIf_of_one hf (by omega) (.inl rfl))
    · refine h.imp (fun hm => (List.mem_cons.1 hm).resolve_left (Ne.symm hhead)) fun hone => ?_
      rcases hplace with rfl | hapart
      · exact getF_flagIf_of_one hf (by omega) (.inr hone)
      · rw [(regsOnly_flagIf (l := [e.1]) hok (by simp) e.2 s).2 f hf (by simpa using hapart), hone]

theorem regsOnly_pushFlags (lid b : Nat) (x : Push) (s : State) : RegsOnly (flagFields lid b) s (pushFlags lid b x s) := by
  rw [pushFlags_eq]
  exact regsOnly_forAll_flagIf fun _ he => ⟨(flagFields_ok lid b _ (mem_flagFields_of_raised he)).1, mem_flagFields_of_raised he⟩

theorem getF_pushFlags {f : Fld} (hb : b < 2) (hf : (f, true) ∈ raised lid b x) : (pushFlags lid b x s).getF f = 1 := by
  have hmem := mem_flagFields_of_raised hf
  obtain ⟨hok, hw⟩ := flagFields_ok lid b f hmem
  rw [pushFlags_eq]
  exact getF_forAll_flagIf hok hw (fun e he => ⟨(flagFields_ok lid b _ (mem_flagFields_of_raised he)).1,
    flagFields_apart lid hb f hmem e.1 (mem_flagFields_of_raised he)⟩) (.inl hf)

theorem pushFlags_of_exact {tot : Nat → Int} (h : Exact tot x) (s : State) : pushFlags lid b x s = s := by
  obtain ⟨-, -, -, hsat, hdropped, hnan, hpoison⟩ := h
  simp [pushFlags, hsat, hdropped, hnan, hpoison]

/-! ### The bank (R138, R145) -/

theorem core_setBank (lid b : Nat) (k : Bank) (s : State) : (s.setBank lid b k).core lid =
    { s.core lid with banks := tblPut (fun _ => {}) b k (s.core lid).banks } := core_modCore_same ..

/-- What a core whose bank `b` was written holds in its banks. -/
theorem bank_of_put {k : Bank} (hc : t.core lid = { s.core lid with banks := tblPut (fun _ => {}) b k (s.core lid).banks }) :
    t.bank lid b = k ∧ ∀ c, c ≠ b → t.bank lid c = s.bank lid c := by
  simp only [State.bank, hc]
  exact ⟨tblGet_tblPut_same .., fun c hne => tblGet_tblPut_ne _ hne ..⟩

/-! ### The parts of MAC.MM (R137, R145) -/

/-- The bank's register as OPEN and CLOSE leave it (R145). -/
def State.mmOpened (lid b : Nat) (p : MacParams) (op : OpWord) (s : State) : State :=
  let u := if bitOf op 112 then openBank lid b p s else s
  if bitOf op 113 then u.setF (cBankState lid b) 2 else u

/-- Steps, blocks and stalls are counted (R160, R204). -/
def State.mmCounted (lid b n octets : Nat) (s : State) : State :=
  (s.incF (cBankSteps lid b) n |>.incF (cSteps lid) n |>.blocks lid octets).addFree (cMacStalls lid)

/-- The bank that a MAC.MM pushes to: with OPEN a fresh tile (R145). -/
def mmBank (s : State) (lid b : Nat) (p : MacParams) (op : OpWord) : Bank :=
  if bitOf op 112 then { params := p, sweep := s.keySweep lid } else s.bank lid b

/-- What a push begins with. -/
def Bank.push (k : Bank) : Push := { inner := elementsOf k.inner, outer := elementsOf k.outer, steps := k.steps, folds := k.folds }

/-- What a push leaves in its bank. -/
def Bank.pushed (k : Bank) (x : Push) : Bank := { k with inner := x.inner, outer := x.outer, steps := x.steps, folds := x.folds }

theorem mmReads_of_clean (h : CleanCore s lid) (p : MacParams) (op : OpWord) : mmReads lid p op s = s := by
  have hall : forAll (List.range (mmSteps op)) (fun k t => (t.noteRead lid .tile (mmA op + 32 * p.aStep * k) 32).noteRead lid .tile
      (mmB op + 32 * p.bStep * k) 32) s = s := forAll_eq_self fun k _ => by rw [h.noteRead_eq, h.noteRead_eq]
  simp only [mmReads, hall, h.noteRead_eq, ite_self]

/-- A MAC.MM on a core without words in error: its bank opens and closes, takes what the pushes leave, flags and counts are
recorded, and the op retires. -/
theorem mmPush_of_clean (h : CleanCore s lid) : mmPush lid b p op s =
    (((pushFlags lid b (pushes s lid p (mmBank s lid b p op).sweep op (mmSteps op) (mmBank s lid b p op).push)
      ((s.mmOpened lid b p op).setBank lid b ((mmBank s lid b p op).pushed
        (pushes s lid p (mmBank s lid b p op).sweep op (mmSteps op) (mmBank s lid b p op).push)))).mmCounted lid b (mmSteps op)
      (pushes s lid p (mmBank s lid b p op).sweep op (mmSteps op) (mmBank s lid b p op).push).octets).retire lid .m) := by
  rw [mmPush, mmReads_of_clean h]
  rfl

theorem regsOnly_mmOpened (lid b : Nat) (p : MacParams) (op : OpWord) (s : State) :
    RegsOnly [bankReg lid b] s (s.mmOpened lid b p op) := by
  have hset : ∀ {f : Fld} (n : Nat) (u : State), f.Ok → f.off = (cBankState lid b).off → RegsOnly [bankReg lid b] u (u.setF f n) :=
    fun {f} n u hok hoff => ⟨rfl, (onlyFields_setF f n hok (List.mem_singleton_self f)).cover
      (.of_register (off := (cBankState lid b).off) (List.mem_singleton_self _) (by simpa using hok) (by simp [hoff]))⟩
  have hzero : RegsOnly [bankReg lid b] s (s.set64 (cBankState lid b).off 0) := ⟨rfl, onlyFields_set64 _ _ s⟩
  have hopen : RegsOnly [bankReg lid b] s (openBank lid b p s) :=
    ((hzero.trans (hset _ _ (cBankState_ok ..) rfl)).trans
      (hset _ _ (cBankFormat_ok ..) rfl)).trans (hset _ _ (cBankAnchor_ok ..) rfl)
  have hfirst : RegsOnly [bankReg lid b] s (if bitOf op 112 then openBank lid b p s else s) := by
    split
    · exact hopen
    · exact .refl _ s
  unfold State.mmOpened
  dsimp only
  split
  · exact hfirst.trans (hset _ _ (cBankState_ok ..) rfl)
  · exact hfirst

/-- OPEN leaves the bank OPEN, CLOSE leaves it CLOSED (R145). -/
theorem cBankState_mmOpened (h : s.getF (cBankState lid b) = if bitOf op 112 then 0 else 1) :
    (s.mmOpened lid b p op).getF (cBankState lid b) = if bitOf op 113 then 2 else 1 := by
  have hopen : (if bitOf op 112 then openBank lid b p s else s).getF (cBankState lid b) = 1 := by
    split
    case isTrue =>
      have ha : (cBankState lid b).Apart (cBankAnchor lid b) ∧ (cBankState lid b).Apart (cBankFormat lid b) := by
        simp only [Fld.Apart, Fld.base, cBankState, cBankAnchor, cBankFormat]
        omega
      rw [openBank, getF_setF_apart _ _ _ (cBankState_ok ..) (cBankAnchor_ok ..) ha.1,
        getF_setF_apart _ _ _ (cBankState_ok ..) (cBankFormat_ok ..) ha.2, getF_setF_same _ _ (cBankState_ok ..)]
      rfl
    case isFalse hno => rw [h, if_neg hno]
  unfold State.mmOpened
  dsimp only
  split
  · rw [getF_setF_same _ _ (cBankState_ok ..)]; rfl
  · exact hopen

theorem counted_mmCounted (lid b n octets : Nat) (s : State) : Counted (countFields lid b) s (s.mmCounted lid b n octets) := by
  have hok := countFields_ok lid b
  exact ((((counted_incF n (hok _ (by simp [countFields])) (by simp [countFields])).trans
    (counted_incF n (hok _ (by simp [countFields])) (by simp [countFields]))).trans
    (counted_incF octets (hok _ (by simp [countFields])) (by simp [countFields]))).trans
    (counted_addFree (hok (cHolds lid) (by simp [countFields])) (by simp [countFields]))).trans
    (counted_addFree (hok (cMacStalls lid) (by simp [countFields])) (by simp [countFields]))

theorem cSteps_mmCounted (lid n octets : Nat) (hb : b < 2) (s : State) :
    (s.mmCounted lid b n octets).getF (cSteps lid) = satAdd 64 (s.getF (cSteps lid)) n := by
  have hok := countFields_ok lid b
  have hwaits : Counted [cBlocks lid, cHolds lid, cMacStalls lid] ((s.incF (cBankSteps lid b) n).incF (cSteps lid) n)
      (s.mmCounted lid b n octets) :=
    ((counted_incF octets (hok _ (by simp [countFields])) (by simp)).trans
      (counted_addFree (hok (cHolds lid) (by simp [countFields])) (by simp))).trans
      (counted_addFree (hok (cMacStalls lid) (by simp [countFields])) (by simp))
  rw [hwaits.2 _ (cSteps_ok lid) (cSteps_apart_waits lid), getF_incF_same _ _ (cSteps_ok lid),
    getF_incF_apart _ _ _ (cSteps_ok lid) (hok _ (by simp [countFields])) (cSteps_apart lid hb _ (by simp))]
  rfl

/-- A MAC.MM that has passed its checks, whatever fields `l` of its flags its pushes raise. -/
theorem mmPush_effect (h : CleanCore s lid) (hb : b < 2) (hin : s.getF (qPc lid .m) < 4095)
    (hst : s.getF (cBankState lid b) = if bitOf op 112 then 0 else 1)
    (hx : x = pushes s lid p (mmBank s lid b p op).sweep op (mmSteps op) (mmBank s lid b p op).push)
    (hl : ∀ f ∈ l, f ∈ flagFields lid b) (hflags : ∀ u, RegsOnly l u (pushFlags lid b x u)) (ht : t = mmPush lid b p op s) :
    Retired lid .m s t ∧
      t.core lid = { s.core lid with banks := tblPut (fun _ => {}) b ((mmBank s lid b p op).pushed x) (s.core lid).banks } ∧
      t.getF (cBankState lid b) = (if bitOf op 113 then 2 else 1) ∧
      t.getF (cSteps lid) = satAdd 64 (s.getF (cSteps lid)) (mmSteps op) ∧
      (∀ f, (f, true) ∈ raised lid b x → t.getF f = 1) ∧
      CoreStep lid ([qPc lid .m, qOps lid .m] ++ (l ++ bankReg lid b :: countFields lid b)) s t := by
  have hopened := regsOnly_mmOpened lid b p op s
  have hstate := cBankState_mmOpened (p := p) hst
  have hapart := cBankState_apart lid hb
  rw [mmPush_of_clean h, ← hx] at ht
  generalize s.mmOpened lid b p op = u at *
  have hbank : CoreStep lid [] u (u.setBank lid b ((mmBank s lid b p op).pushed x)) := coreStep_modCore ..
  have hcore := core_setBank lid b ((mmBank s lid b p op).pushed x) u
  generalize u.setBank lid b _ = v at *
  have hflag := hflags v
  have hraised : ∀ f, (f, true) ∈ raised lid b x → (pushFlags lid b x v).getF f = 1 := fun f hf => getF_pushFlags hb hf
  generalize pushFlags lid b x v = w at *
  have hcount := counted_mmCounted lid b (mmSteps op) x.octets w
  have hsteps := cSteps_mmCounted lid (mmSteps op) x.octets hb w
  generalize w.mmCounted lid b (mmSteps op) x.octets = y at *
  have hall : CoreStep lid (l ++ bankReg lid b :: countFields lid b) s y :=
    ((((hopened.coreStep lid).mono (by simp)).trans (hbank.mono (by simp))).trans ((hflag.coreStep lid).mono (by simp +contextual))).trans
      ((hcount.coreStep lid).mono (by simp +contextual))
  have hqueue : ∀ f ∈ l ++ bankReg lid b :: countFields lid b, (qPc lid .m).Apart f ∧ (qOps lid .m).Apart f := fun f hf => by
    refine mm_apart_queue lid hb f ?_
    simp only [List.mem_append, List.mem_cons] at hf ⊢
    rcases hf with hf | hf | hf
    · exact .inr (.inl (hl f hf))
    · exact .inl hf
    · exact .inr (.inr hf)
  obtain ⟨hret, hregs, hstep⟩ := hall.retire hqueue hin
  have hleft : ∀ {f : Fld}, f.Ok → f ∈ bankReg lid b :: (flagFields lid b ++ countFields lid b) ∨ f = cBankState lid b →
      (y.retire lid .m).getF f = y.getF f := fun hok hf => getF_of_retire hregs hok <| by
    rcases hf with hf | rfl
    · exact mm_apart_queue lid hb _ hf
    · exact queue_apart_of_below .m (by simp only [Fld.base, cBankState]; omega)
  subst ht
  refine ⟨hret, ?_, ?_, ?_, fun f hf => ?_, hstep⟩
  · rw [hregs.core_eq, hcount.core_eq, hflag.core_eq, hcore, hopened.core_eq]
  · rw [hleft (cBankState_ok ..) (.inr rfl), hcount.2 _ (cBankState_ok ..) fun g hg => hapart g (List.mem_append_right _ hg),
      hflag.2 _ (cBankState_ok ..) fun g hg => hapart g (List.mem_append_left _ (hl g hg)), hbank.2.2 _ (cBankState_ok ..) (by simp),
      hstate]
  · rw [hleft (cSteps_ok lid) (.inl (by simp [countFields])), hsteps,
      hflag.2 _ (cSteps_ok lid) fun g hg => cSteps_apart lid hb g (List.mem_cons_of_mem _ (List.mem_cons_of_mem _ (hl g hg))),
      hbank.2.2 _ (cSteps_ok lid) (by simp),
      hopened.2 _ (cSteps_ok lid) fun g hg => cSteps_apart lid hb g (List.mem_singleton.1 hg ▸ List.mem_cons_self ..)]
  · have hmem := mem_flagFields_of_raised hf
    obtain ⟨hok, -⟩ := flagFields_ok lid b f hmem
    rw [hleft hok (.inl (List.mem_cons_of_mem _ (List.mem_append_left _ hmem))),
      hcount.2 f hok (flagFields_apart_count lid hb f hmem), hraised f hf]

end Mm
end Sys2Proof.Machine
end

section
/-!
PROOFS. Scope: MAC.MM of INT8 and INT4 tiles, and of one MXINT8 block (R133-R145).
-/
namespace Sys2Proof.Machine

section Passes

variable {s t : State} {lid b : Nat} {op : OpWord} {p : MacParams} {x : Push}

/-- A MAC.MM whose bank is in the state that it needs, and whose operands have no fault, pushes (R145, R163). -/
theorem macMmOp_pushes (hhead : AtHead s lid .m op) (hop : opOpcode op = 0x21) (hres : opReserved [(0, 91), (112, 2)] op = false)
    (hst : s.getF (cBankState lid (bitsOf op 0 1)) = if bitOf op 112 then 0 else 1)
    (hp : p = if bitOf op 112 then tblGet (fun _ => {}) (s.core lid).macNext (bitsOf op 0 1) else (s.bank lid (bitsOf op 0 1)).params)
    (hfault : mmFault p op = none) : macMmOp lid s = mmPush lid (bitsOf op 0 1) p op s := by
  have hgo : s.mmGo lid op p = mmPush lid (bitsOf op 0 1) p op s := by rw [State.mmGo, hfault]
  rw [macMmOp_of_atHead hhead hop hres]
  cases hopen : bitOf op 112
  case false =>
    rw [hopen] at hst hp
    rw [if_neg (by simp), if_neg (by simp [hst]), ← hgo, hp]
    rfl
  case true =>
    rw [hopen] at hst hp
    rw [if_pos rfl, if_neg (by simp [hst]), if_neg (by simp [hst]), if_neg (by simp [hst]), ← hgo, hp]
    rfl

/-- What a MAC.MM pushes to holds what its tile holds, and nothing where it opens the tile. -/
theorem push_mmBank {k0 : Bank} (hk0 : k0 = if bitOf op 112 then {} else s.bank lid b) :
    (mmBank s lid b p op).push.inner = elementsOf k0.inner ∧ (mmBank s lid b p op).push.outer = elementsOf k0.outer := by
  subst hk0
  unfold mmBank Bank.push
  cases bitOf op 112 <;> exact ⟨rfl, rfl⟩

/-- A fresh tile holds zeros (R145). -/
theorem push_fresh (hopen : bitOf op 112 = true) : Exact (fun _ => 0) (mmBank s lid b p op).push ∧
    (mmBank s lid b p op).push.steps = 0 ∧ ∀ n, (mmBank s lid b p op).push.outer.getD n 0 = 0 := by
  have hin : (mmBank s lid b p op).push.inner = List.replicate 1024 0 := by rw [mmBank, if_pos hopen]; rfl
  have hout : (mmBank s lid b p op).push.outer = List.replicate 1024 0 := by rw [mmBank, if_pos hopen]; rfl
  have hzeros : ∀ n, (mmBank s lid b p op).push.outer.getD n 0 = 0 := fun n => by rw [hout, getD_replicate_zero]
  refine ⟨⟨by rw [hin, List.length_replicate], by rw [hout, List.length_replicate], fun n _ => ?_, rfl, rfl, rfl, rfl⟩, ?_, hzeros⟩
  · rw [hzeros, hin, getD_replicate_zero, add_zero]
  · rw [mmBank, if_pos hopen]; rfl

theorem params_mmBank (hp : p = if bitOf op 112 then tblGet (fun _ => {}) (s.core lid).macNext b else (s.bank lid b).params) :
    (mmBank s lid b p op).params = p := by
  unfold mmBank
  cases hopen : bitOf op 112
  · rw [hopen] at hp
    exact hp.symm
  · rfl

end Passes

theorem macMmSums : MacMmSumsRule := by
  unfold MacMmSumsRule
  rintro s lid b op p k0 hhead hop hres rfl hst hp hk0 hformat hfault hclean hbound houter hinner
  obtain ⟨hpushIn, hpushOut⟩ := push_mmBank (p := p) hk0
  have hstart : Exact (fun n => (elementsOf k0.outer).getD n 0 + (elementsOf k0.inner).getD n 0)
      (mmBank s lid (bitsOf op 0 1) p op).push :=
    ⟨by rw [hpushIn, hinner], by rw [hpushOut, houter], fun n _ => by rw [hpushIn, hpushOut], rfl, rfl, rfl, rfl⟩
  have hint : p.format ≠ 2 := by omega
  have hexact := hstart.pushes (op := op) (sweep := (mmBank s lid (bitsOf op 0 1) p op).sweep) hclean hint (mmSteps_le op) fun n hn =>
    (abs_add_le _ _).trans (add_le_add (hbound n hn).1 (hbound n hn).2)
  have hclosed : bitOf op 113 = true → (pushes s lid p (mmBank s lid (bitsOf op 0 1) p op).sweep op (mmSteps op)
      (mmBank s lid (bitsOf op 0 1) p op).push).inner = List.replicate 1024 0 := fun hclose =>
    inner_pushes_of_close hclean hclose _
  generalize hx : pushes s lid p (mmBank s lid (bitsOf op 0 1) p op).sweep op (mmSteps op)
    (mmBank s lid (bitsOf op 0 1) p op).push = x at hexact hclosed
  have hmm : exec (.macMm lid) s = .next (mmPush lid (bitsOf op 0 1) p op s) := by
    rw [← macMmOp_pushes hhead hop hres hst hp hfault]
    exact guarded_of_lid hhead.core
  obtain ⟨hret, hcore, hstate, hsteps, -, hstep⟩ := mmPush_effect (l := []) hclean (bitsOf_lt op 0 1) hhead.inside hst hx.symm
    (by simp) (fun u => by rw [pushFlags_of_exact hexact]; exact .refl [] u) rfl
  obtain ⟨hbank, hothers⟩ := bank_of_put hcore
  refine ⟨_, hmm, hret, fun i j hi hj => ?_, fun hclose n _ => ?_, hstate, ?_, hothers, by rw [hcore], hsteps, ?_⟩
  · rw [hbank]
    exact (hexact.total (32 * i + j) (by omega)).trans (congrArg _ (mmSum_eq s lid p op (mmSteps op) hi hj))
  · rw [hbank]
    exact (congrArg (·.getD n 0) (hclosed hclose)).trans (getD_replicate_zero ..)
  · rw [hbank]
    exact params_mmBank hp
  · refine hstep.cover (.append (.of_subset (by simp)) (.append (by simp [Covers]) ?_))
    exact .append (l := [_]) (.of_subset (by simp [bankReg])) ((covers_count lid (bitsOf op 0 1)).mono (by simp +contextual [bankReg]))

/-! ### The fold of an MXINT8 block (R141, R142) -/

section Block

variable {s : State} {lid : Nat} {op : OpWord} {p : MacParams} {sweep : Nat} {seed : BitVec 96} {sa sb : List Byte} {i j : Nat}
  {ca cb : Nat} {sh sum : Int}

/-- The sum of a block of 32 products fits 20 bits (R139). -/
theorem abs_block_le (s : State) (lid : Nat) (p : MacParams) (op : OpWord) {n : Nat} (hn : n < 1024) :
    |mmSum s lid p op 32 n| ≤ 2 ^ 19 := abs_mmSum_le s lid p op 32 hn

/-- Rounding a block sum stays far inside the bank's range. -/
theorem abs_rnd_lt (h : |sum| ≤ 2 ^ 19) {n : Nat} (hn : 1 ≤ n) (k r : Nat) : |rnd sum n false k r| < 2 ^ 63 := by
  have hfloor : |sum / 2 ^ n| ≤ |sum| := Int.abs_ediv_le_abs ..
  have hbound := abs_le.1 (hfloor.trans h)
  rw [rnd_nearest sum hn, abs_lt]
  generalize sum / 2 ^ n = q at hbound
  split <;> constructor <;> omega

/-- A scale code of 0xFF leaves the bank and poisons the tile (R142). -/
theorem foldElement_of_nan (hp : p.format = 2) (hj : j < 32) (hca : (sa.getD i 0).toNat = ca)
    (hcb : (sb.getD j 0).toNat = cb) (h : ca = 255 ∨ cb = 255) (fn : Nat) (o b : Int) :
    foldElement seed p sweep fn sa sb (32 * i + j) o b = { v := o, nan := true } := by
  have hdiv : (32 * i + j) / 32 = i := by omega
  have hmod : (32 * i + j) % 32 = j := by omega
  simp only [foldElement, hp, ne_eq, not_true_eq_false, if_false, hdiv, hmod, hca, hcb]
  exact if_pos h

/-- Two scale codes shift a block sum (R141); under FOLD_ROUND 0 no random bits are drawn. -/
theorem foldElement_of_scales (hp : p.format = 2) (hj : j < 32) (hca : (sa.getD i 0).toNat = ca)
    (hcb : (sb.getD j 0).toNat = cb) (ha : ca ≠ 255) (hb : cb ≠ 255) (hsh : sh = (ca : Int) - 127 + (cb - 127) - p.anchor) (fn : Nat) (o b : Int) :
    ∃ r, foldElement seed p sweep fn sa sb (32 * i + j) o b = foldShifted o b sh (decide (p.foldRound = 1)) r := by
  have hdiv : (32 * i + j) / 32 = i := by omega
  have hmod : (32 * i + j) % 32 = j := by omega
  have hshift : (ca + cb - 254 - p.anchor : Int) = sh := by omega
  simp only [foldElement, hp, ne_eq, not_true_eq_false, if_false, hdiv, hmod, hca, hcb, ha, hb, or_self, hshift]
  exact ⟨_, rfl⟩

/-- A block sum shifted past 42 saturates an element that holds 0 by its sign. -/
theorem foldShifted_above (h : 43 ≤ sh) (hsum : sum ≠ 0) (st : Bool) (r : Nat) :
    foldShifted 0 sum sh st r = { v := if 0 < sum then 2 ^ 63 - 1 else -2 ^ 63, sat := true } := by
  rw [foldShifted, if_pos h, if_neg hsum]
  rfl

theorem foldShifted_left (h0 : 0 ≤ sh) (h42 : sh ≤ 42) (hsum : |sum| ≤ 2 ^ 19) (st : Bool) (r : Nat) :
    foldShifted 0 sum sh st r = { v := sum * 2 ^ sh.toNat } := by
  have hfits : |0 + sum * 2 ^ sh.toNat| < 2 ^ 63 := by
    have hpow : (2 : Int) ^ sh.toNat ≤ 2 ^ 42 := by
      gcongr
      · norm_num
      · omega
    rw [zero_add, abs_mul, abs_of_pos (by positivity : (0 : Int) < 2 ^ sh.toNat)]
    calc |sum| * 2 ^ sh.toNat ≤ 2 ^ 19 * 2 ^ 42 := mul_le_mul hsum hpow (by positivity) (by positivity)
      _ < 2 ^ 63 := by norm_num
  rw [foldShifted, if_neg (by omega), if_pos h0, foldAdd_of_abs_lt hfits, zero_add]

theorem foldShifted_right (h21 : -21 ≤ sh) (hneg : sh ≤ -1) (hsum : |sum| ≤ 2 ^ 19) (r : Nat) :
    foldShifted 0 sum sh false r = { v := rnd sum (-sh).toNat false 4 0 } := by
  have hrnd : rnd sum (-sh).toNat false 4 r = rnd sum (-sh).toNat false 4 0 := rfl
  rw [foldShifted, if_neg (by omega), if_neg (by omega), if_pos h21, hrnd,
    foldAdd_of_abs_lt (by rw [zero_add]; exact abs_rnd_lt hsum (by omega) 4 0), zero_add]

theorem foldShifted_below (h : sh ≤ -22) (st : Bool) (r : Nat) :
    foldShifted 0 sum sh st r = { v := 0, dropped := decide (sum ≠ 0) } := by
  rw [foldShifted, if_neg (by omega), if_neg (by omega), if_neg (by omega)]

/-! ### A block on a fresh bank (R139, R142) -/

theorem foldInterval_mx : foldInterval 2 = 32 := rfl

/-- Before its last step a block is in the inner accumulators alone. -/
theorem pushes_in_block (hclean : CleanCore s lid) (hp : p.format = 2) (hsteps : mmSteps op = 32) {x : Push} {tot : Nat → Int}
    (hx : Exact tot x) (hzero : x.steps = 0) {K : Nat} (hK : K ≤ 31) :
    Exact (fun n => tot n + mmSum s lid p op K n) (pushes s lid p sweep op K x) ∧ (pushes s lid p sweep op K x).steps = K ∧
      (pushes s lid p sweep op K x).outer = x.outer := by
  induction K with
  | zero => exact ⟨hx.congr fun n => (add_zero _).symm, hzero, rfl⟩
  | succ K ih =>
    obtain ⟨hexact, hcount, houter⟩ := ih (by omega)
    have hdue : ¬ foldDue p op K ((pushes s lid p sweep op K x).add (mmProducts s lid p op K)) := by
      simp only [foldDue, Push.add, hcount, hp, foldInterval_mx, hsteps]
      omega
    rw [pushes_succ, pushStep_not_due hclean hdue]
    refine ⟨(hexact.add (length_mmProducts ..)).congr fun n => ?_, congrArg (· + 1) hcount, houter⟩
    rw [mmSum_succ, add_assoc]

/-- What one block leaves of element `n`: the fold of its sum, and what that raises. -/
def BlockFold (x : Push) (n : Nat) (f : Folded) : Prop :=
  x.outer.getD n 0 = f.v ∧ (f.sat = true → x.sat = true) ∧ (f.dropped = true → x.dropped = true) ∧
    (f.nan = true → x.nan = true ∧ x.poison = true)

/-- One block of an MXINT8 tile on a bank of zeros folds once, each element by the scale codes of its row and column. -/
theorem blockFold_pushes (hclean : CleanCore s lid) (hp : p.format = 2) (hsteps : mmSteps op = 32) {x : Push}
    (hx : Exact (fun _ => 0) x) (hzero : x.steps = 0) (houter : ∀ n, x.outer.getD n 0 = 0) {n : Nat} (hn : n < 1024) :
    ∃ fn, BlockFold (pushes s lid p sweep op 32 x) n (foldElement (s.seedOf lid) p sweep fn (s.rd lid .tile (mmSA op) 32)
      (s.rd lid .tile (mmSB op) 32) n 0 (mmSum s lid p op 32 n)) := by
  obtain ⟨hexact, hcount, hout⟩ := pushes_in_block (sweep := sweep) hclean hp hsteps hx hzero (K := 31) le_rfl
  have hblock := hexact.add (length_mmProducts s lid p op 31)
  have hdue : foldDue p op 31 ((pushes s lid p sweep op 31 x).add (mmProducts s lid p op 31)) := by
    refine .inl ?_
    simp only [Push.add, hcount, hp]
    rfl
  have hpushes : pushes s lid p sweep op 32 x =
      ((pushes s lid p sweep op 31 x).add (mmProducts s lid p op 31)).fold s lid p sweep op 31 := by
    rw [pushes_succ, pushStep_due hclean hdue]
  have hbank : ((pushes s lid p sweep op 31 x).add (mmProducts s lid p op 31)).outer.getD n 0 = 0 := by
    rw [Push.add, hout, houter]
  have hinner : ((pushes s lid p sweep op 31 x).add (mmProducts s lid p op 31)).inner.getD n 0 = mmSum s lid p op 32 n := by
    have htotal := hblock.total n hn
    rw [hbank, zero_add, zero_add] at htotal
    exact htotal.trans (mmSum_succ s lid p op 31 n).symm
  generalize (pushes s lid p sweep op 31 x).add (mmProducts s lid p op 31) = y at *
  obtain ⟨fs, hfs, heq⟩ := foldAll_eq hblock.inner hblock.outer (s.seedOf lid) p sweep (s.rd lid .tile (mmSA op) 32)
    (s.rd lid .tile (mmSB op) 32) false
  refine ⟨y.folds, ?_⟩
  have helem : fs[n]? = some (foldElement (s.seedOf lid) p sweep y.folds (s.rd lid .tile (mmSA op) 32)
      (s.rd lid .tile (mmSB op) 32) n 0 (mmSum s lid p op 32 n)) := by
    rw [hfs, List.getElem?_map, List.getElem?_range hn, Option.map_some, hbank, hinner]
  rw [hpushes, show y.fold s lid p sweep op 31 = _ from heq]
  generalize foldElement (s.seedOf lid) p sweep y.folds (s.rd lid .tile (mmSA op) 32) (s.rd lid .tile (mmSB op) 32) n 0
    (mmSum s lid p op 32 n) = f at *
  have hraised : ∀ g : Folded → Bool, g f = true → fs.any g = true := fun g hg =>
    List.any_eq_true.2 ⟨f, List.mem_of_getElem? helem, hg⟩
  refine ⟨?_, fun h => ?_, fun h => ?_, fun h => ⟨?_, ?_⟩⟩
  · simp only [List.getD_eq_getElem?_getD, List.getElem?_map, helem, Option.map_some, Option.getD_some]
  · simp only [hraised (·.sat) h, Bool.or_true]
  · simp only [hraised (·.dropped) h, Bool.or_true]
  · simp only [hraised (·.nan) h, Bool.or_true]
  · simp only [hraised (·.nan) h, Bool.or_true]

end Block

theorem macMxFolds : MacMxFoldsRule := by
  unfold MacMxFoldsRule
  rintro s lid b op p hhead hop hres rfl hopen hclose hst hp hformat hsteps hfault hclean
  have hst' : s.getF (cBankState lid (bitsOf op 0 1)) = if bitOf op 112 then 0 else 1 := by rw [hst, hopen]; rfl
  have hp' : p = if bitOf op 112 then tblGet (fun _ => {}) (s.core lid).macNext (bitsOf op 0 1)
      else (s.bank lid (bitsOf op 0 1)).params := by rw [hp, hopen]; rfl
  obtain ⟨hstart, hcount, hzeros⟩ := push_fresh (s := s) (lid := lid) (b := bitsOf op 0 1) (p := p) hopen
  have hfold := fun {n : Nat} (hn : n < 1024) => blockFold_pushes (sweep := (mmBank s lid (bitsOf op 0 1) p op).sweep) hclean hformat
    hsteps hstart hcount hzeros hn
  generalize hx : pushes s lid p (mmBank s lid (bitsOf op 0 1) p op).sweep op 32 (mmBank s lid (bitsOf op 0 1) p op).push = x at hfold
  have hmm : exec (.macMm lid) s = .next (mmPush lid (bitsOf op 0 1) p op s) := by
    rw [← macMmOp_pushes hhead hop hres hst' hp' hfault]
    exact guarded_of_lid hhead.core
  obtain ⟨hret, hcore, hstate, -, hflags, hstep⟩ := mmPush_effect hclean (bitsOf_lt op 0 1) hhead.inside hst'
    (by rw [hsteps, hx]) (fun f hf => hf) (regsOnly_pushFlags lid (bitsOf op 0 1) x) rfl
  obtain ⟨hbank, -⟩ := bank_of_put hcore
  refine ⟨_, hmm, hret, by rw [hstate, hclose]; rfl, ?_, ?_⟩
  · rintro i j hi hj ca cb sum sh hca hcb rfl hsh
    have hca' : ((s.rd lid .tile (mmSA op) 32).getD i 0).toNat = ca := by rw [getD_rd _ _ _ _ hi, hca]; rfl
    have hcb' : ((s.rd lid .tile (mmSB op) 32).getD j 0).toNat = cb := by rw [getD_rd _ _ _ _ hj, hcb]; rfl
    have hn : 32 * i + j < 1024 := by omega
    have hsum := mmSum_eq s lid p op 32 hi hj
    simp only [stepProduct, hformat, if_neg (by decide : ¬ (2 : Nat) = 1)] at hsum
    have hbound := abs_block_le s lid p op hn
    obtain ⟨fn, hout, hsat, hdropped, hnan⟩ := hfold hn
    rw [hbank, Bank.pushed, ← hsum]
    generalize mmSum s lid p op 32 (32 * i + j) = sum at *
    refine ⟨fun hff => ?_, fun ha hb => ?_⟩
    · rw [foldElement_of_nan hformat hj hca' hcb' hff] at hout hnan
      obtain ⟨hn, hpoison⟩ := hnan rfl
      exact ⟨hout, hflags _ (by simp [raised, hpoison]), hflags _ (by simp [raised, hpoison]), hflags _ (by simp [raised, hn])⟩
    · obtain ⟨r, hr⟩ := foldElement_of_scales (seed := s.seedOf lid) (sweep := (mmBank s lid (bitsOf op 0 1) p op).sweep) hformat hj
        hca' hcb' ha hb hsh fn 0 sum
      rw [hr] at hout hsat hdropped
      refine ⟨fun hhi hne => ?_, fun hlo hhi => ?_, fun hlo hneg hround => ?_, fun hlow => ?_⟩
      · rw [foldShifted_above hhi hne] at hout hsat
        exact ⟨hout, hflags _ (by simp [raised, hsat rfl]), hflags _ (by simp [raised, hsat rfl])⟩
      · rw [hout, foldShifted_left hlo hhi hbound]
      · have hnearest : decide (p.foldRound = 1) = false := by rw [hround]; rfl
        rw [hout, hnearest, foldShifted_right hlo hneg hbound]
      · rw [foldShifted_below hlow] at hout hdropped
        exact ⟨hout, fun hne => ⟨hflags _ (by simp [raised, hdropped (decide_eq_true hne)]),
          hflags _ (by simp [raised, hdropped (decide_eq_true hne)])⟩⟩
  · refine hstep.cover (.append (.of_subset (by simp)) (.append ?_ (.append (l := [_]) (.of_subset (by simp [bankReg])) ?_)))
    · exact (covers_flags lid (bitsOf op 0 1)).mono (by simp +contextual [bankReg])
    · exact (covers_count lid (bitsOf op 0 1)).mono (by simp +contextual [bankReg])

/-- Settles O17: a MAC.MM is its pushes on its bank; an integer tile's bank and inner accumulators together hold the exact sums
after every step, and an MXINT8 block folds once, at its last step. -/
theorem macPasses : Obligations.MacPasses := ⟨macMmSums, macMxFolds⟩

end Sys2Proof.Machine
end

section
/-!
PROOFS. Scope: a row of a drain in tile memory (R148-R152, R155): its bytes, their ECC words, and the values they hold.
-/
namespace Sys2Proof.Machine

/-! ### Numbers as bytes of a width (R10) -/

/-- The bytes of a number are those of what they can hold. -/
theorem natLe_mod (n x : Nat) : natLe n (x % 256 ^ n) = natLe n x := by
  have h := natLe_leNat (natLe n x)
  rwa [length_natLe, leNat_natLe] at h

/-- The low bytes of an integer do not depend on the width it is taken at (R10). -/
theorem toNat_ofInt_mod (v : Int) {m n : Nat} (h : m ≤ n) : (BitVec.ofInt n v).toNat % 2 ^ m = (BitVec.ofInt m v).toNat := by
  have hdvd : (2 : Int) ^ m ∣ 2 ^ n := pow_dvd_pow 2 h
  rw [BitVec.toNat_ofInt, BitVec.toNat_ofInt]
  zify
  rw [Int.toNat_of_nonneg (Int.emod_nonneg _ (by positivity)), Int.toNat_of_nonneg (Int.emod_nonneg _ (by positivity)),
    Int.emod_emod_of_dvd v hdvd]

theorem natLe_ofInt (v : Int) {w : Nat} (h : w ≤ 8) : natLe w (BitVec.ofInt 64 v).toNat = natLe w (BitVec.ofInt (8 * w) v).toNat := by
  rw [← natLe_mod, show 256 ^ w = 2 ^ (8 * w) by rw [pow_mul]; rfl, toNat_ofInt_mod v (by omega)]

/-! ### The bytes of a row (R150, R151) -/

/-- In the formats of whole bytes a row is its elements' bytes end to end. -/
theorem rowOf_eq {format : Nat} (h : format ≠ 3) (old : Nat) (vs : List Int) :
    rowOf format old vs = (vs.map fun v => natLe (rowBytes format 1) (BitVec.ofInt 64 v).toNat).flatten := by
  rw [rowOf, if_neg h]
  exact List.flatMap_def

theorem length_pieces {α : Type} (n : Nat) (l : List α) : (pieces n l).length = ceilDiv l.length n := by
  simp [pieces]

theorem length_rowOf {format : Nat} (h : format < 6) (old : Nat) (vs : List Int) :
    (rowOf format old vs).length = rowBytes format vs.length := by
  by_cases h3 : format = 3
  · subst h3
    rw [rowOf, if_pos rfl, List.length_map, length_pieces]
    rfl
  · have hrow : rowBytes format vs.length = vs.length * rowBytes format 1 := by
      interval_cases format <;> simp_all [rowBytes, Nat.mul_comm]
    rw [rowOf_eq h3, hrow, List.length_flatten]
    simp [List.map_map, Function.comp_def]

/-! ### A row written (R152, R155, R352) -/

theorem mem_wordsOf {wb a n x : Nat} (hlo : a ≤ x) (hhi : x < a + n) : x / wb ∈ wordsOf wb a n := by
  have h1 : a / wb ≤ x / wb := Nat.div_le_div_right hlo
  have h2 : x / wb ≤ (a + n - 1) / wb := Nat.div_le_div_right (by omega)
  rw [wordsOf, if_neg (by omega), rangeFrom, List.mem_map]
  exact ⟨x / wb - a / wb, List.mem_range.2 (by omega), by omega⟩

theorem Mem.byte_poison (wb a n : Nat) (m : Mem) (x : Nat) : (m.poison wb a n).byte x = m.byte x := by
  unfold Mem.byte Mem.poison
  rw [Mem.forAll_setSyn_bytes m (wordsOf wb a n) fun _ => poisonSyn wb]

theorem Mem.syn_forAll_setSyn {l : List Nat} {m : Mem} {w : Nat} {v : BitVec 32} (h : w ∈ l ∨ m.syn w = v) :
    (forAll l (fun w m => m.setSyn w v) m).syn w = v := by
  unfold forAll
  induction l generalizing m with
  | nil => exact h.resolve_left (by simp)
  | cons k l ih =>
    refine ih ?_
    by_cases hk : w = k
    · exact .inr (by rw [hk]; exact tblGet_tblPut_same ..)
    · refine h.imp (fun hm => (List.mem_cons.1 hm).resolve_left hk) fun hv => ?_
      rw [← hv]
      exact tblGet_tblPut_ne _ hk ..

/-- A tile word with the poison syndrome is found poisoned (R349). -/
theorem classify_poisonSyn : classify 8 (poisonSyn 8) = some .poison := by decide

section Rows

variable {s t u : State} {lid a : Nat} {bs : List Byte} {poison : Bool}

/-- A row of bytes in tile memory, poisoned or not (R152, R155). -/
def State.putRow (lid a : Nat) (bs : List Byte) (poison : Bool) (s : State) : State :=
  if poison then s.wrPoison lid .tile a bs else s.wr lid .tile a bs

/-- What a row leaves of its core's memories: its bytes, and every one of its words poisoned where its bank is. -/
structure RowPut (lid a : Nat) (bs : List Byte) (poison : Bool) (s t : State) : Prop where
  row : t.rd lid .tile a bs.length = bs
  outside : BytesOutside lid .tile a bs.length s t
  poisoned : poison = true → ∀ x, a ≤ x → x < a + bs.length → (t.core lid).tile.err 8 (x / 8) = some .poison
  clean : poison = false → CleanCore t lid

theorem RowPut.congr (h : RowPut lid a bs poison s t) (hm : MemSame lid t u) : RowPut lid a bs poison s u := by
  obtain ⟨hrow, hout, hpoison, hclean⟩ := h
  refine ⟨?_, fun k b hb => by rw [hm k]; exact hout k b hb, fun hp x hlo hhi => ?_, fun hp => hm.clean (hclean hp)⟩
  · rw [State.rd, hm .tile]
    exact hrow
  · exact (congrArg (Mem.err 8 · (x / 8)) (hm .tile)).trans (hpoison hp x hlo hhi)

theorem RowPut.of_memSame (h : RowPut lid a bs poison t u) (hm : MemSame lid s t) : RowPut lid a bs poison s u :=
  ⟨h.row, fun k b hb => by rw [← hm k]; exact h.outside k b hb, h.poisoned, h.clean⟩

theorem core_wrPoison (lid : Nat) (m : CoreMem) (a : Nat) (bs : List Byte) (s : State) :
    (s.wrPoison lid m a bs).core lid =
      (s.core lid).setMem m ((((s.core lid).mem m).store a bs).poison (cmWb m) a bs.length) := by
  rw [State.wrPoison, core_incF, core_modCore_same]

theorem rowPut_putRow (h : CleanCore s lid) (a : Nat) (bs : List Byte) (poison : Bool) :
    RowPut lid a bs poison s (s.putRow lid a bs poison) := by
  cases poison
  case false => exact ⟨rd_wr_same h bs, h.bytesOutside_wr .tile a bs, by simp, fun _ => h.wr .tile a bs⟩
  case true =>
    have hcore : (s.putRow lid a bs true).core lid = _ := core_wrPoison lid .tile a bs s
    have htile : ((s.putRow lid a bs true).core lid).mem .tile = (((s.core lid).mem .tile).store a bs).poison 8 a bs.length := by
      rw [hcore, mem_setMem_same]
      rfl
    refine ⟨?_, fun k b hb => ?_, fun _ x hlo hhi => ?_, by simp⟩
    · rw [State.rd, htile]
      exact (List.map_congr_left fun i _ => Mem.byte_poison ..).trans (Mem.load_store_same ..)
    · by_cases hk : k = .tile
      · subst hk
        rw [htile, Mem.byte_poison, Mem.byte_store_outside _ (hb.resolve_left fun hne => hne rfl)]
      · rw [hcore, mem_setMem_ne _ _ hk]
    · have hsyn : (((s.putRow lid a bs true).core lid).mem .tile).syn (x / 8) = poisonSyn 8 := by
        rw [htile]
        exact Mem.syn_forAll_setSyn (.inl (mem_wordsOf hlo hhi))
      exact (congrArg (classify 8) hsyn).trans classify_poisonSyn

theorem rPoisoned_ok : rPoisoned.Ok := by simp [Fld.Ok, rPoisoned]

theorem onlyFields_putRow (h : CleanCore s lid) (a : Nat) (bs : List Byte) (poison : Bool) :
    OnlyFields [rPoisoned] s (s.putRow lid a bs poison) := by
  cases poison
  · exact fun f _ _ => getF_wr_of_clean h bs f
  · exact onlyFields_setF (s := s.modCore lid _) rPoisoned _ rPoisoned_ok (by simp)

theorem coreStep_putRow (h : CleanCore s lid) (a : Nat) (bs : List Byte) : CoreStep lid [] s (s.putRow lid a bs false) :=
  (tileStep_wr h a bs).step

/-- Of a row in a format of whole bytes, element `j` reads at its place. -/
theorem RowPut.elem {format old : Nat} {vs : List Int} (hformat : format ≠ 3)
    (h : RowPut lid a (rowOf format old vs) poison s t) {j : Nat} (hj : j < vs.length) :
    t.rd lid .tile (a + rowBytes format 1 * j) (rowBytes format 1) = natLe (rowBytes format 1) (BitVec.ofInt 64 vs[j]).toNat := by
  have hrow := h.row
  have hlen : (rowOf format old vs).length = rowBytes format 1 *
      (vs.map fun v => natLe (rowBytes format 1) (BitVec.ofInt 64 v).toNat).length := by
    rw [rowOf_eq hformat, List.length_flatten]
    simp [List.map_map, Function.comp_def, Nat.mul_comm]
  rw [hlen, rowOf_eq hformat] at hrow
  exact rd_flatten (by simp) hrow (by simp [hj])

end Rows

/-! ### Elements as a drain converts them (R150-R152) -/

section Elements

variable {seed : BitVec 96} {k : Bank} {d : Drain} {i j : Nat}

theorem drainElem_raw (h : drFormat d.op = 0) : (drainElem seed k d i j).1 = k.outer.getD (32 * i + j) 0 := by
  simp only [drainElem, h, if_true]

/-- To an integer format without random bits an element is its nearest rounding by SHIFT, clamped to the width (R152). -/
theorem drainElem_int (h0 : drFormat d.op ≠ 0) (h4 : drFormat d.op ≠ 4) (h5 : drFormat d.op ≠ 5) (hst : bitOf d.op 112 = false) :
    (drainElem seed k d i j).1 = satS (drainWidth (drFormat d.op)) (if bitsOf d.op 4 6 = 0 then k.outer.getD (32 * i + j) 0
      else rnd (k.outer.getD (32 * i + j) 0) (bitsOf d.op 4 6) false 4 0) := by
  simp only [drainElem, if_neg h0, if_neg (not_or.2 ⟨h4, h5⟩), hst]
  rfl

/-- An element of a row in a format of whole bytes reads as its conversion at its place. -/
theorem RowPut.drained {s t : State} {lid a old N : Nat} {poison : Bool}
    (h : RowPut lid a (rowOf (drFormat d.op) old (((List.range N).map (drainElem seed k d i)).map (·.1))) poison s t)
    (h3 : drFormat d.op ≠ 3) {w : Nat} (hw : rowBytes (drFormat d.op) 1 = w) (h8 : w ≤ 8) (hj : j < N) :
    t.rd lid .tile (a + w * j) w = natLe w (BitVec.ofInt (8 * w) (drainElem seed k d i j).1).toNat := by
  subst hw
  rw [h.elem h3 (by simpa using hj), natLe_ofInt _ h8]
  simp

end Elements

end Sys2Proof.Machine
end

section
/-!
PROOFS. Scope: the drain engine: a row to tile memory, an element to lace memory, and the end of a drain (R62, R145, R148-R155).
-/
namespace Sys2Proof.Machine

section Drains

variable {s t u : State} {lid b : Nat} {d : Drain} {rest : List Drain} {l : List Fld}

/-! ### The registers of a drain (R145, R160, R204) -/

theorem cMacPoison_ok (lid : Nat) : (cMacPoison lid).Ok := by simp [Fld.Ok, cMacPoison]
theorem cDrainSat_ok (lid : Nat) : (cDrainSat lid).Ok := by simp [Fld.Ok, cDrainSat]
theorem cTiles_ok (lid : Nat) : (cTiles lid).Ok := by simp [Fld.Ok, cTiles]
theorem cBlocks_ok (lid : Nat) : (cBlocks lid).Ok := by simp [Fld.Ok, cBlocks]
theorem cHolds_ok (lid : Nat) : (cHolds lid).Ok := by simp [Fld.Ok, cHolds]
theorem cMacStalls_ok (lid : Nat) : (cMacStalls lid).Ok := by simp [Fld.Ok, cMacStalls]

/-- What the rows of a drain count and record, besides poison. -/
def drainCounters (lid : Nat) : List Fld := [cDrainSat lid, cBlocks lid, cHolds lid, cMacStalls lid]

/-- What the update port counts and records (R66). -/
def updateFields (lid : Nat) : List Fld := [cUpdates lid, cFieldSat lid, cSatMask lid]

/-- What the end of a row writes: the bank's state, and with the last row the tile and the op. -/
def drainEndFields (lid b : Nat) : List Fld := [cBankState lid b, cTiles lid, qOps lid .m]

theorem drainEnd_apart (lid : Nat) (_ : b < 2) : ∀ f ∈ drainEndFields lid b,
    ∀ g ∈ cMacPoison lid :: rPoisoned :: (drainCounters lid ++ updateFields lid), f.Apart g := by
  simp only [drainEndFields, drainCounters, updateFields, List.cons_append, List.nil_append, List.forall_mem_cons, List.not_mem_nil,
    false_implies, implies_true, and_true, Fld.Apart, Fld.base, cBankState, cTiles, qOps, cMacPoison, rPoisoned, cDrainSat, cBlocks,
    cHolds, cMacStalls, cUpdates, cFieldSat, cSatMask, corePage, Queue.num]
  omega

theorem cMacPoison_apart (lid : Nat) : ∀ f ∈ rPoisoned :: drainCounters lid, (cMacPoison lid).Apart f := by
  simp only [drainCounters, List.forall_mem_cons, List.not_mem_nil, false_implies, implies_true, and_true, Fld.Apart, Fld.base,
    cMacPoison, rPoisoned, cDrainSat, cBlocks, cHolds, cMacStalls, corePage]
  omega

/-! ### The end of a row (R145, R148) -/

/-- After its row a drain goes on with the next, its bank DRAINING, or retires, its bank EMPTY. -/
def State.drainEnd (lid : Nat) (d : Drain) (rest : List Drain) (s : State) : State :=
  if d.row + 1 < drRows d.op then
    (s.modCore lid fun c => { c with drains := { d with row := d.row + 1 } :: rest }).setF (cBankState lid (bitsOf d.op 0 1)) 3
  else ((s.modCore lid fun c => { c with drains := rest }).setF (cBankState lid (bitsOf d.op 0 1)) 0 |>.incF (cTiles lid) 1).opDone lid .m

/-- The drain at work writes its row and ends it (R148; log 98). -/
theorem drainReadOp_eq (hdrains : (s.core lid).drains = d :: rest) (hruns : s.coreRuns lid = true)
    (hover : drainOverlaps s lid d.op = false) :
    drainReadOp lid s = ((drainWrite lid d d.row s).addFree (cMacStalls lid)).drainEnd lid d rest := by
  simp only [drainReadOp, hdrains, hruns, hover]
  rfl

/-- The drains of a core are put and registers written. -/
theorem drainsPut_effect {ds : List Drain} (h : RegsOnly l (s.modCore lid fun c => { c with drains := ds }) t) :
    CoreStep lid l s t ∧ MemSame lid s t ∧ (t.core lid).drains = ds := by
  have hcore : t.core lid = { s.core lid with drains := ds } := by rw [h.core_eq, core_modCore_same]
  refine ⟨(coreStep_modCore ..).trans (h.coreStep lid), fun m => ?_, by rw [hcore]⟩
  rw [hcore]
  cases m <;> rfl

/-- The fields of a row's end share no bit. -/
theorem drainEndFields_apart (lid : Nat) (_ : b < 2) : (cBankState lid b).Apart (cTiles lid) ∧ (cBankState lid b).Apart (qOps lid .m) ∧
    (cTiles lid).Apart (qOps lid .m) := by
  simp only [Fld.Apart, Fld.base, cBankState, cTiles, qOps, Queue.num]
  omega

/-- What the end of a row before the last leaves. -/
theorem drainEnd_more (hmore : d.row + 1 < drRows d.op) (hb : b = bitsOf d.op 0 1) (ht : t = s.drainEnd lid d rest) :
    (CoreStep lid (drainEndFields lid b) s t ∧ MemSame lid s t ∧ (t.core lid).drains = { d with row := d.row + 1 } :: rest) ∧
      t.getF (cBankState lid b) = 3 ∧ t.getF (cTiles lid) = s.getF (cTiles lid) ∧ t.getF (qOps lid .m) = s.getF (qOps lid .m) := by
  obtain ⟨hst, hso, -⟩ := drainEndFields_apart lid (hb ▸ bitsOf_lt d.op 0 1)
  rw [State.drainEnd, if_pos hmore, ← hb] at ht
  subst ht
  refine ⟨drainsPut_effect (regsOnly_setF _ _ (cBankState_ok ..) (by simp [drainEndFields])), ?_, ?_, ?_⟩
  · rw [getF_setF_same _ _ (cBankState_ok ..)]; rfl
  · rw [getF_setF_apart _ _ _ (cTiles_ok lid) (cBankState_ok ..) hst.symm, getF_modCore]
  · rw [getF_setF_apart _ _ _ (qOps_ok ..) (cBankState_ok ..) hso.symm, getF_modCore]

/-- What the end of the last row leaves. -/
theorem drainEnd_last (hlast : d.row + 1 = drRows d.op) (hb : b = bitsOf d.op 0 1) (ht : t = s.drainEnd lid d rest) :
    (CoreStep lid (drainEndFields lid b) s t ∧ MemSame lid s t ∧ (t.core lid).drains = rest) ∧ t.getF (cBankState lid b) = 0 ∧
      t.getF (cTiles lid) = satAdd 32 (s.getF (cTiles lid)) 1 ∧ t.getF (qOps lid .m) = satAdd 64 (s.getF (qOps lid .m)) 1 := by
  obtain ⟨hst, hso, hto⟩ := drainEndFields_apart lid (hb ▸ bitsOf_lt d.op 0 1)
  rw [State.drainEnd, if_neg (by omega), State.opDone, ← hb] at ht
  subst ht
  refine ⟨drainsPut_effect (((regsOnly_setF _ _ (cBankState_ok ..) (by simp [drainEndFields])).trans
    (regsOnly_incF _ _ (cTiles_ok lid) (by simp [drainEndFields]))).trans (regsOnly_incF _ _ (qOps_ok ..) (by simp [drainEndFields]))),
    ?_, ?_, ?_⟩
  · rw [getF_incF_apart _ _ _ (cBankState_ok ..) (qOps_ok ..) hso, getF_incF_apart _ _ _ (cBankState_ok ..) (cTiles_ok lid) hst,
      getF_setF_same _ _ (cBankState_ok ..)]
    rfl
  · rw [getF_incF_apart _ _ _ (cTiles_ok lid) (qOps_ok ..) hto, getF_incF_same _ _ (cTiles_ok lid),
      getF_setF_apart _ _ _ (cTiles_ok lid) (cBankState_ok ..) hst.symm, getF_modCore]
    rfl
  · rw [getF_incF_same _ _ (qOps_ok ..), getF_incF_apart _ _ _ (qOps_ok ..) (cTiles_ok lid) hto.symm,
      getF_setF_apart _ _ _ (qOps_ok ..) (cBankState_ok ..) hso.symm, getF_modCore]
    rfl

/-! ### A row to tile memory (R149-R152, R155) -/

/-- The bank that a drain reads, its elements in full (R138). -/
def drainBank (s : State) (lid : Nat) (d : Drain) : Bank :=
  { s.bank lid (bitsOf d.op 0 1) with outer := elementsOf (s.bank lid (bitsOf d.op 0 1)).outer }

/-- What a row records and counts before it is written: saturation, blocks (R152, R204). -/
def State.rowCounted (lid : Nat) (sat : Bool) (n : Nat) (s : State) : State := (s.flagIf (cDrainSat lid) sat).blocks lid n

theorem counted_rowCounted (lid : Nat) (sat : Bool) (n : Nat) (s : State) : Counted (drainCounters lid) s (s.rowCounted lid sat n) :=
  ((regsOnly_flagIf (cDrainSat_ok lid) (by simp [drainCounters]) sat s).counted.trans
    (counted_incF n (cBlocks_ok lid) (by simp [drainCounters]))).trans (counted_addFree (cHolds_ok lid) (by simp [drainCounters]))

/-- A row to tile memory: the bank's poison is noted, the row is counted and its elements are put end to end. -/
theorem drainWrite_tile (hformat : drFormat d.op < 6) (i : Nat) (s : State) : ∃ (seed : BitVec 96) (sat : Bool) (n old : Nat),
    drainWrite lid d i s = ((s.flagIf (cMacPoison lid) (s.onF (cBankPoison lid (bitsOf d.op 0 1)))).rowCounted lid sat n).putRow lid
      (drDest d.op + i * drStride d.op)
      (rowOf (drFormat d.op) old (((List.range (drCols d.op)).map (drainElem seed (drainBank s lid d) d i)).map (·.1)))
      (s.onF (cBankPoison lid (bitsOf d.op 0 1))) :=
  ⟨_, _, _, _, by rw [drainWrite]; exact if_neg (by omega)⟩

/-- What the write of a row leaves of the core and the registers. -/
theorem drainWrite_tile_effect (hclean : CleanCore s lid) (hformat : drFormat d.op < 6) {i : Nat} (ht : t = drainWrite lid d i s) :
    ∃ (seed : BitVec 96) (old : Nat),
      RowPut lid (drDest d.op + i * drStride d.op)
        (rowOf (drFormat d.op) old (((List.range (drCols d.op)).map (drainElem seed (drainBank s lid d) d i)).map (·.1)))
        (s.onF (cBankPoison lid (bitsOf d.op 0 1))) s t ∧
      OnlyFields (cMacPoison lid :: rPoisoned :: drainCounters lid) s t ∧
      (s.onF (cBankPoison lid (bitsOf d.op 0 1)) = true → t.getF (cMacPoison lid) = 1) ∧
      (s.onF (cBankPoison lid (bitsOf d.op 0 1)) = false → CoreStep lid (drainCounters lid) s t) := by
  obtain ⟨seed, sat, n, old, heq⟩ := drainWrite_tile (lid := lid) hformat i s
  generalize s.onF (cBankPoison lid (bitsOf d.op 0 1)) = poison at *
  have hnote : RegsOnly [cMacPoison lid] s (s.flagIf (cMacPoison lid) poison) := regsOnly_flagIf (cMacPoison_ok lid) (by simp) poison s
  have hone : poison = true → (s.flagIf (cMacPoison lid) poison).getF (cMacPoison lid) = 1 := fun hp =>
    getF_flagIf_of_one (cMacPoison_ok lid) Nat.one_pos (.inl hp)
  have hnone : poison = false → s.flagIf (cMacPoison lid) poison = s := fun hp => by rw [hp, flagIf_false]
  generalize s.flagIf (cMacPoison lid) poison = u at *
  have hcount := counted_rowCounted lid sat n u
  generalize u.rowCounted lid sat n = v at *
  have hcore : v.core lid = s.core lid := (hcount.core_eq lid).trans (hnote.core_eq lid)
  have hcleanV : CleanCore v lid := hclean.congr hcore
  have honly : ∀ bs, OnlyFields (rPoisoned :: drainCounters lid) u (v.putRow lid (drDest d.op + i * drStride d.op) bs poison) := fun bs =>
    (hcount.2.mono fun _ => List.mem_cons_of_mem _).trans ((onlyFields_putRow hcleanV _ bs poison).mono (by simp))
  rw [heq] at ht
  subst ht
  refine ⟨seed, old, (rowPut_putRow hcleanV _ _ poison).of_memSame fun m => by rw [hcore], ?_, fun hp => ?_, fun hp => ?_⟩
  · exact (hnote.2.mono (by simp)).trans ((honly _).mono fun _ => List.mem_cons_of_mem _)
  · rw [honly _ _ (cMacPoison_ok lid) (cMacPoison_apart lid), hone hp]
  · rw [hp, ← hnone hp]
    exact (hcount.coreStep lid).trans ((coreStep_putRow hcleanV _ _).mono (by simp))

/-! ### An element to lace memory (R62, R149, R152, R154) -/

/-- The counters of a drain say nothing of where a core's fields lie (R38, R39). -/
theorem fieldAt_of_counted (h : Counted (drainCounters lid) s t) (r i : Nat) : t.fieldAt lid r i = s.fieldAt lid r i := by
  refine SameLayout.fieldAt_eq (h.2.regsBelow ?_) r i
  simp only [drainCounters, List.forall_mem_cons, List.not_mem_nil, false_implies, implies_true, and_true, Fld.base, cDrainSat, cBlocks,
    cHolds, cMacStalls]
  omega

theorem cUpdates_apart_drain (lid : Nat) : ∀ f ∈ drainCounters lid, (cUpdates lid).Apart f := by
  simp only [drainCounters, List.forall_mem_cons, List.not_mem_nil, false_implies, implies_true, and_true, Fld.Apart, Fld.base,
    cUpdates, cDrainSat, cBlocks, cHolds, cMacStalls]
  omega

/-- A drain of one element to lace memory, of a bank without poison. -/
theorem drainWrite_lace (h6 : 6 ≤ drFormat d.op) (hcols : drCols d.op = 1) (hpoison : s.getF (cBankPoison lid (bitsOf d.op 0 1)) = 0) :
    ∃ n, drainWrite lid d 0 s = drainLace lid (drainBank s lid d) false d (0, 0) (s.blocks lid n) := by
  have hoff : s.onF (cBankPoison lid (bitsOf d.op 0 1)) = false := by simp [State.onF, hpoison]
  refine ⟨rowOctets (drainBank s lid d).params d 0, ?_⟩
  rw [drainWrite, hoff, hcols]
  exact if_pos h6

/-- The value that a lace drain without SHIFT and random bits writes (R152). -/
theorem drainElem_lace {seed : BitVec 96} {k : Bank} (h6 : 6 ≤ drFormat d.op) (hst : bitOf d.op 112 = false)
    (hshift : bitsOf d.op 4 6 = 0) : (drainElem seed k d 0 0).1 = satS 32 (k.outer.getD 0 0) := by
  have h8 : drFormat d.op < 8 := bitsOf_lt d.op 1 3
  have hwidth : drainWidth (drFormat d.op) = 32 := by interval_cases drFormat d.op <;> rfl
  rw [drainElem_int (by omega) (by omega) (by omega) hst, if_pos hshift, hwidth]

/-- The first element of a lace drain lies at its replica and unit (R154). -/
theorem laceElem_zero (op : OpWord) : laceElem op 0 0 = (bitsOf op 30 4, bitsOf op 34 15) := by
  unfold laceElem
  split <;> simp

/-- The first element of a lace drain goes to its field word through the update port: LACE_OVER overwrites, LACE_ADD adds. -/
theorem drainLace_eq (k : Bank) (s : State) : ∃ (seed : BitVec 96) (sat : Bool),
    drainLace lid k false d (0, 0) s =
      if drFormat d.op = 6 then
        ((s.flagIf (cDrainSat lid) sat).setLace lid (s.fieldAt lid (bitsOf d.op 30 4) (bitsOf d.op 34 15))
          (BitVec.ofInt 32 (drainElem seed k d 0 0).1)).incF (cUpdates lid) 1
      else (s.flagIf (cDrainSat lid) sat).addField lid (bitsOf d.op 30 4) (bitsOf d.op 34 15) (drainElem seed k d 0 0).1 := by
  refine ⟨s.seedOf lid, (drainElem (s.seedOf lid) k d 0 0).2, ?_⟩
  simp only [drainLace, laceElem_zero]
  rfl

/-- An overwritten field word is counted as an update (R62, R66). -/
theorem setLace_incF_effect (h : CleanCore s lid) (w : Nat) (x : Int) (ht : t = (s.setLace lid w (BitVec.ofInt 32 (satS 32 x))).incF (cUpdates lid) 1) :
    (t.lace lid w).toInt = satS 32 x ∧ BytesOutside lid .lace (4 * w) 4 s t ∧
      t.getF (cUpdates lid) = satAdd 64 (s.getF (cUpdates lid)) 1 ∧ CoreStep lid (updateFields lid) s t := by
  subst ht
  refine ⟨?_, (h.bytesOutside_setLace w _).congr (core_incF ..), ?_, ?_⟩
  · rw [lace_congr (core_incF ..), lace_setLace_same h, toInt_ofInt_satS]
  · rw [getF_incF_same _ _ (cUpdates_ok lid), getF_setLace_of_clean h]
    rfl
  · exact ((laceStep_setLace h w _).coreStep _).trans (coreStep_incF lid _ (cUpdates_ok lid) (by simp [updateFields]))

/-- An update through the port (R50, R62, R66). -/
theorem addField_effect (h : CleanCore s lid) {r tgt w : Nat} (hw : s.fieldAt lid r tgt = w) (x : Int) (ht : t = s.addField lid r tgt x) :
    (t.lace lid w).toInt = satS 32 ((s.lace lid w).toInt + x) ∧ BytesOutside lid .lace (4 * w) 4 s t ∧
      t.getF (cUpdates lid) = satAdd 64 (s.getF (cUpdates lid)) 1 ∧ CoreStep lid (updateFields lid) s t := by
  subst ht hw
  exact ⟨lace_addField_same h r tgt x, h.bytesOutside_addField r tgt x, cUpdates_addField h r tgt x,
    (coreStep_addField h r tgt x).mono (by simp [updateFields])⟩

/-- What the write of one element to lace memory leaves. -/
theorem drainWrite_lace_effect (hclean : CleanCore s lid) (h6 : 6 ≤ drFormat d.op) (hcols : drCols d.op = 1)
    (hst : bitOf d.op 112 = false) (hshift : bitsOf d.op 4 6 = 0) (hpoison : s.getF (cBankPoison lid (bitsOf d.op 0 1)) = 0)
    {w : Nat} (hw : w = s.fieldAt lid (bitsOf d.op 30 4) (bitsOf d.op 34 15)) {v : Int}
    (hv : v = satS 32 ((elementsOf (s.bank lid (bitsOf d.op 0 1)).outer).getD 0 0)) (ht : t = drainWrite lid d 0 s) :
    (t.lace lid w).toInt = (if drFormat d.op = 6 then v else satS 32 ((s.lace lid w).toInt + v)) ∧
      BytesOutside lid .lace (4 * w) 4 s t ∧ t.getF (cUpdates lid) = satAdd 64 (s.getF (cUpdates lid)) 1 ∧
      CoreStep lid (drainCounters lid ++ updateFields lid) s t := by
  obtain ⟨n, hwrite⟩ := drainWrite_lace (s := s) h6 hcols hpoison
  obtain ⟨seed, sat, hlace⟩ := drainLace_eq (lid := lid) (d := d) (drainBank s lid d) (s.blocks lid n)
  have hval : (drainElem seed (drainBank s lid d) d 0 0).1 = v := (drainElem_lace h6 hst hshift).trans hv.symm
  rw [hwrite, hlace, hval] at ht
  have hblocks : Counted (drainCounters lid) s (s.blocks lid n) :=
    (counted_incF n (cBlocks_ok lid) (by simp [drainCounters])).trans (counted_addFree (cHolds_ok lid) (by simp [drainCounters]))
  generalize s.blocks lid n = u at *
  have hflag : Counted (drainCounters lid) s (u.flagIf (cDrainSat lid) sat) :=
    hblocks.trans (regsOnly_flagIf (cDrainSat_ok lid) (by simp [drainCounters]) sat u).counted
  generalize u.flagIf (cDrainSat lid) sat = x at *
  have hplaceU : u.fieldAt lid (bitsOf d.op 30 4) (bitsOf d.op 34 15) = w := (fieldAt_of_counted hblocks ..).trans hw.symm
  have hplaceX : x.fieldAt lid (bitsOf d.op 30 4) (bitsOf d.op 34 15) = w := (fieldAt_of_counted hflag ..).trans hw.symm
  have hcore := hflag.core_eq lid
  have hcleanX : CleanCore x lid := hclean.congr hcore
  have hupdates : x.getF (cUpdates lid) = s.getF (cUpdates lid) := hflag.2 _ (cUpdates_ok lid) (cUpdates_apart_drain lid)
  have hout : BytesOutside lid .lace (4 * w) 4 s x := (BytesOutside.refl lid .lace _ 4 s).congr hcore
  have hstep := (hflag.coreStep lid).mono fun f hf => List.mem_append_left (updateFields lid) hf
  have hport : (t.lace lid w).toInt = (if drFormat d.op = 6 then v else satS 32 ((x.lace lid w).toInt + v)) ∧
      BytesOutside lid .lace (4 * w) 4 x t ∧ t.getF (cUpdates lid) = satAdd 64 (x.getF (cUpdates lid)) 1 ∧
      CoreStep lid (updateFields lid) x t := by
    by_cases hover : drFormat d.op = 6
    · rw [if_pos hover, hplaceU, hv] at ht
      rw [if_pos hover, hv]
      exact setLace_incF_effect hcleanX w _ ht
    · rw [if_neg hover] at ht
      rw [if_neg hover]
      exact addField_effect hcleanX hplaceX v ht
  obtain ⟨hvalue, hbytes, hcounted, hlast⟩ := hport
  rw [lace_congr hcore] at hvalue
  rw [hupdates] at hcounted
  exact ⟨hvalue, hout.trans hbytes, hcounted, hstep.trans (hlast.mono fun f hf => List.mem_append_right _ hf)⟩

end Drains

/-- The end of a row and the stalls of the array keep what its write did to the core's memories and registers. -/
structure RowEnded (lid : Nat) (d : Drain) (rest : List Drain) (u t : State) : Prop where
  step : CoreStep lid (cMacStalls lid :: drainEndFields lid (bitsOf d.op 0 1)) u t
  mem : MemSame lid u t
  more : d.row + 1 < drRows d.op → (t.core lid).drains = { d with row := d.row + 1 } :: rest ∧
    t.getF (cBankState lid (bitsOf d.op 0 1)) = 3 ∧ t.getF (cTiles lid) = u.getF (cTiles lid) ∧
    t.getF (qOps lid .m) = u.getF (qOps lid .m)
  last : d.row + 1 = drRows d.op → (t.core lid).drains = rest ∧ t.getF (cBankState lid (bitsOf d.op 0 1)) = 0 ∧
    t.getF (cTiles lid) = satAdd 32 (u.getF (cTiles lid)) 1 ∧ t.getF (qOps lid .m) = satAdd 64 (u.getF (qOps lid .m)) 1

theorem rowEnded {lid : Nat} {d : Drain} {rest : List Drain} {u t : State} (hrow : d.row < drRows d.op)
    (ht : t = (u.addFree (cMacStalls lid)).drainEnd lid d rest) : RowEnded lid d rest u t := by
  have hstall : Counted [cMacStalls lid] u (u.addFree (cMacStalls lid)) := counted_addFree (cMacStalls_ok lid) (by simp)
  have happ := drainEnd_apart lid (bitsOf_lt d.op 0 1)
  have hkept : ∀ f ∈ drainEndFields lid (bitsOf d.op 0 1), f.Ok → (u.addFree (cMacStalls lid)).getF f = u.getF f := fun f hf hok =>
    hstall.2 f hok (List.forall_mem_singleton.2 (happ f hf _ (by simp [drainCounters])))
  have htiles := hkept (cTiles lid) (by simp [drainEndFields]) (cTiles_ok lid)
  have hops := hkept (qOps lid .m) (by simp [drainEndFields]) (qOps_ok ..)
  generalize u.addFree (cMacStalls lid) = v at *
  have hstep : CoreStep lid (drainEndFields lid (bitsOf d.op 0 1)) v t →
      CoreStep lid (cMacStalls lid :: drainEndFields lid (bitsOf d.op 0 1)) u t := fun h =>
    ((hstall.coreStep lid).mono (by simp)).trans (h.mono fun _ => List.mem_cons_of_mem _)
  have hmem : MemSame lid v t → MemSame lid u t := fun h m => by rw [h m, hstall.core_eq]
  by_cases hmore : d.row + 1 < drRows d.op
  · obtain ⟨⟨hend, hsame, hdrains⟩, hregs⟩ := drainEnd_more hmore rfl ht
    rw [htiles, hops] at hregs
    exact ⟨hstep hend, hmem hsame, fun _ => ⟨hdrains, hregs⟩, fun hlast => absurd hlast (by omega)⟩
  · have hlast : d.row + 1 = drRows d.op := by omega
    obtain ⟨⟨hend, hsame, hdrains⟩, hregs⟩ := drainEnd_last hlast rfl ht
    rw [htiles, hops] at hregs
    exact ⟨hstep hend, hmem hsame, fun h => absurd h hmore, fun _ => ⟨hdrains, hregs⟩⟩

/-- One row of a drain to tile memory: the write of the row, then its end. -/
theorem drainWritesTile : DrainWritesTileRule := by
  unfold DrainWritesTileRule
  rintro s lid b i d rest hlid hdrains hruns rfl hformat - hclean rfl hrow
  have hover : drainOverlaps s lid d.op = false := by simp [drainOverlaps, hformat]
  have happ := drainEnd_apart lid (bitsOf_lt d.op 0 1)
  obtain ⟨seed, old, hput, honly, hpoison, hquiet⟩ := drainWrite_tile_effect hclean hformat (i := d.row) rfl
  have hexec : exec (.drainRead lid) s =
      .next (((drainWrite lid d d.row s).addFree (cMacStalls lid)).drainEnd lid d rest) := by
    rw [← drainReadOp_eq hdrains hruns hover]
    exact guarded_of_lid hlid
  have hend := rowEnded (lid := lid) (u := drainWrite lid d d.row s) (rest := rest) hrow rfl
  generalize ((drainWrite lid d d.row s).addFree (cMacStalls lid)).drainEnd lid d rest = t at *
  generalize drainWrite lid d d.row s = u at *
  have hkept : ∀ f ∈ drainEndFields lid (bitsOf d.op 0 1), f.Ok → u.getF f = s.getF f := fun f hf hok =>
    honly f hok fun g hg => happ f hf g <| by
      simp only [List.mem_cons, List.mem_append] at hg ⊢
      tauto
  have htiles := hkept (cTiles lid) (by simp [drainEndFields]) (cTiles_ok lid)
  have hops := hkept (qOps lid .m) (by simp [drainEndFields]) (qOps_ok ..)
  have hrowPut := hput.congr hend.mem
  obtain ⟨hstep, -, hmore, hlast⟩ := hend
  rw [htiles, hops] at hmore hlast
  have hlen : (rowOf (drFormat d.op) old (((List.range (drCols d.op)).map (drainElem seed (drainBank s lid d) d d.row)).map (·.1))).length =
      rowBytes (drFormat d.op) (drCols d.op) := by
    rw [length_rowOf hformat]
    simp
  refine ⟨t, hexec, hmore, hlast, fun j hj o ho => ?_, fun k a hk => hrowPut.outside k a (by rwa [hlen]), fun hone => ?_, fun hzero => ?_⟩
  · have hbank : (drainBank s lid d).outer.getD (32 * d.row + j) 0 = o := ho.symm
    refine ⟨fun h0 => ?_, fun h1 hst => ?_, fun h2 hst => ?_⟩
    · rw [hrowPut.drained (by omega) (w := 8) (by rw [h0]; rfl) (by decide) hj, drainElem_raw h0, hbank]
    · rw [hrowPut.drained (by omega) (w := 4) (by rw [h1]; rfl) (by decide) hj,
        drainElem_int (by omega) (by omega) (by omega) hst, hbank, h1]
      rfl
    · have helem := hrowPut.drained (by omega) (w := 1) (by rw [h2]; rfl) (by decide) hj
      rw [one_mul, drainElem_int (by omega) (by omega) (by omega) hst, hbank, h2] at helem
      exact helem
  · have hon : s.onF (cBankPoison lid (bitsOf d.op 0 1)) = true := by simp [State.onF, hone]
    refine ⟨?_, fun a hlo hhi => hrowPut.poisoned hon a hlo (by rwa [hlen])⟩
    rw [hstep.2.2 _ (cMacPoison_ok lid) ?_, hpoison hon]
    refine List.forall_mem_cons.2 ⟨cMacPoison_apart lid _ (by simp [drainCounters]), fun g hg => (happ g hg _ (by simp)).symm⟩
  · have hoff : s.onF (cBankPoison lid (bitsOf d.op 0 1)) = false := by simp [State.onF, hzero]
    refine ⟨hrowPut.clean hoff, ((hquiet hoff).mono ?_).trans (hstep.mono ?_)⟩ <;> simp +contextual [drainCounters, drainEndFields]

/-- One element of a drain to lace memory: the update port's write, then the end of the drain. -/
theorem drainWritesLace : DrainWritesLaceRule := by
  unfold DrainWritesLaceRule
  rintro s lid b w d rest v hlid hdrains hruns rfl h6 hrow hrows hcols hst hshift hphase hpoison hclean hw hv
  have hover : drainOverlaps s lid d.op = false := by simp [drainOverlaps, State.overlapsPhase, hphase]
  have happ := drainEnd_apart lid (bitsOf_lt d.op 0 1)
  have hread := drainReadOp_eq hdrains hruns hover
  rw [hrow] at hread
  obtain ⟨hvalue, hbytes, hupdates, hwrite⟩ := drainWrite_lace_effect hclean h6 hcols hst hshift hpoison hw hv rfl
  have hexec : exec (.drainRead lid) s = .next (((drainWrite lid d 0 s).addFree (cMacStalls lid)).drainEnd lid d rest) := by
    rw [← hread]
    exact guarded_of_lid hlid
  have hend := rowEnded (lid := lid) (d := d) (u := drainWrite lid d 0 s) (rest := rest) (by omega) rfl
  generalize ((drainWrite lid d 0 s).addFree (cMacStalls lid)).drainEnd lid d rest = t at *
  generalize drainWrite lid d 0 s = u at *
  have hkept : ∀ f ∈ drainEndFields lid (bitsOf d.op 0 1), f.Ok → u.getF f = s.getF f := fun f hf hok =>
    hwrite.2.2 f hok fun g hg => happ f hf g (List.mem_cons_of_mem _ (List.mem_cons_of_mem _ hg))
  obtain ⟨hstep, hmem, -, hlast⟩ := hend
  obtain ⟨hrest, hstate, htiles, hops⟩ := hlast (by omega)
  rw [hkept (cTiles lid) (by simp [drainEndFields]) (cTiles_ok lid)] at htiles
  rw [hkept (qOps lid .m) (by simp [drainEndFields]) (qOps_ok ..)] at hops
  refine ⟨t, hexec, hrest, hstate, by rw [hmem.lace_eq, hvalue], fun k a hk => by rw [hmem k]; exact hbytes k a hk, ?_, htiles, hops,
    (hwrite.mono ?_).trans (hstep.mono ?_)⟩
  · rw [hstep.2.2 _ (cUpdates_ok lid) ?_, hupdates]
    exact List.forall_mem_cons.2 ⟨cUpdates_apart_drain lid _ (by simp [drainCounters]),
      fun g hg => (happ g hg _ (by simp [updateFields])).symm⟩
  · simp +contextual [drainCounters, updateFields]
  · simp +contextual [drainEndFields]

/-- Settles O19: the drain engine writes the row, to tile memory as its elements' bytes end to end, to lace memory through the
update port, and then ends the row. -/
theorem drainsWrite : Obligations.DrainsWrite := ⟨drainWritesTile, drainWritesLace⟩

end Sys2Proof.Machine
end

section
/-!
PROOFS. The entropy source and the DRBG: the count of Generate calls where a request names a partition that does not exist.
-/
namespace Sys2Proof.Machine

section Delivery

variable {s : State} {f g : Fld}

/-- A field that lies within the one written reads its part of the value. -/
theorem getF_setF_within (n : Nat) (hf : f.Ok) (hg : g.Ok) (hlo : g.base ≤ f.base) (hhi : f.base + f.w ≤ g.base + g.w) :
    (s.setF g n).getF f = n / 2 ^ (f.base - g.base) % 2 ^ f.w := by
  apply Nat.eq_of_testBit_eq
  intro i
  rw [testBit_getF f hf, bit_setF g n hg, Nat.testBit_mod_two_pow, Nat.testBit_div_two_pow]
  by_cases hi : i < f.w
  · rw [if_pos (by omega), show f.base + i - g.base = i + (f.base - g.base) by omega]
  · simp [hi]

/-- A field that lies within the high word of a partition's seed reads its part of the output once a seed is delivered there
(R202, R310). -/
theorem getF_deliver_pourSeed_within {p : Nat} (x : BitVec 512) (hf : f.Ok) (hlo : (psHi p).base ≤ f.base)
    (hhi : f.base + f.w ≤ (psHi p).base + 32) :
    (s.deliver (.pourSeed p) x).getF f = bitsOf x 64 32 / 2 ^ (f.base - (psHi p).base) % 2 ^ f.w := by
  have hend : (psFresh p).base = (psHi p).base + 63 := rfl
  have hfresh : f.Apart (psFresh p) := .inl (by omega)
  have hhigh : (psHi p).Ok ∧ (psFresh p).Ok := by simp [Fld.Ok, psHi, psFresh]
  rw [State.deliver, getF_modPart, getF_setF_apart _ _ _ hf hhigh.2 hfresh, getF_setF_within _ hf hhigh.1 hlo hhi]

/-- The DRBG serves the request that is first with one Generate call, which is counted (R435, R436). -/
theorem drbgGenerateOp_of_serves {e : Nat × EntReq} {rest : List (Nat × EntReq)} {d : DrbgState}
    (hw : s.ent.waiting = e :: rest) (hd : s.ent.drbg = some d) (hs : s.serves = true) :
    drbgGenerateOp s =
      ({ s with ent := { s.ent with waiting := rest, drbg := some (drbgGenerate d).2 } }).countCall.deliver e.2
        (BitVec.ofNat 512 (leNat (drbgGenerate d).1)) := by
  unfold drbgGenerateOp
  rw [hw, hd]
  exact if_pos hs

end Delivery

/-! ### A seed for a partition that does not exist (R202, R435, R436) -/

/-- The DRBG with a Key and V of zeros. -/
def zeroDrbg : DrbgState := ⟨List.replicate 32 0, List.replicate 16 0⟩

/-- Bits 72 to 95 of its first output. -/
theorem zeroDrbg_output : bitsOf (BitVec.ofNat 512 (leNat (drbgGenerate zeroDrbg).1)) 64 32 / 2 ^ 8 % 2 ^ 24 = 0xF1B463 := by
  decide +kernel

/-- REQUESTS is where bits 8 to 31 of the high word of the seed of partition 65,496 would be. -/
theorem eRequests_within_straySeed : eRequests.base = (psHi 65496).base + 8 := by decide +kernel

/-- A part in RUN, no Generate call counted, where a pour seed waits for partition 65,496. -/
def straySeedWaits : State :=
  { State.reset with
    regs := [(eState.off / 4, 3#32)]
    ent := { waiting := [(0, .pourSeed 65496)], drbg := some zeroDrbg } }

theorem straySeedWaits_serves : straySeedWaits.serves = true := by decide +kernel

theorem straySeedWaits_requests : straySeedWaits.getF eRequests = 0 := by decide +kernel

/-- The seed that is served takes the place of the count. -/
theorem straySeedWaits_served_requests : (drbgGenerateOp straySeedWaits).getF eRequests = 0xF1B463 := by
  have hat := eRequests_within_straySeed
  have hw : eRequests.w = 24 := rfl
  rw [drbgGenerateOp_of_serves rfl rfl straySeedWaits_serves,
    getF_deliver_pourSeed_within _ (by simp [Fld.Ok, eRequests]) (by omega) (by omega), hat, Nat.add_sub_cancel_left, hw,
    zeroDrbg_output]

/-- Refutes O41: `DrbgServesRule` has REQUESTS count every call that the DRBG serves, for whatever partition a pour seed waits;
only what becomes of the seed itself is stated of partitions below 8. On `straySeedWaits` the seed's high word lies over REQUESTS
(`eRequests_within_straySeed`), which after the call holds bits of the output and not 1. -/
theorem not_entropyAndSeeds : ¬ Obligations.EntropyAndSeeds := by
  unfold Obligations.EntropyAndSeeds
  rintro ⟨-, -, hserves⟩
  obtain ⟨hcall, -, -⟩ := hserves straySeedWaits
  have hfew : straySeedWaits.getF eRequests < 2 ^ 24 - 1 := by rw [straySeedWaits_requests]; decide
  obtain ⟨t, hx, -, -, hcount, -⟩ := hcall (0, .pourSeed 65496) [] zeroDrbg _ rfl rfl straySeedWaits_serves hfew rfl
  obtain rfl : drbgGenerateOp straySeedWaits = t := Host.Outcome.next.inj hx
  rw [straySeedWaits_served_requests, straySeedWaits_requests] at hcount
  exact absurd hcount (by decide)

end Sys2Proof.Machine
end
section
/-!
PROOFS. Scope: the registers of a queue and the sync counters; what a change of a counter that no queue waits on leaves (R216, R218, R238).
-/
namespace Sys2Proof.Machine

section Counters

variable {s t : State} {lid n v : Nat} {q : Queue} {l : List Fld} {f : Fld} {op : OpWord}

/-! ### Where the registers of the queues and the counters lie (R238) -/

theorem queue_num_lt (q : Queue) : q.num < 4 := by cases q <;> decide

theorem cCtr_ok (lid n : Nat) : (cCtr lid n).Ok := by simp [Fld.Ok, cCtr]
theorem qWctr_ok (lid : Nat) (q : Queue) : (qWctr lid q).Ok := by simp [Fld.Ok, qWctr]
theorem qWticks_ok (lid : Nat) (q : Queue) : (qWticks lid q).Ok := by simp [Fld.Ok, qWticks]

/-- The registers of a queue lie below the sync counters. -/
theorem apart_cCtr_of_below (h : f.base + f.w ≤ 8 * (corePage lid + 0xA00)) (n : Nat) : f.Apart (cCtr lid n) := by
  simp only [Fld.Apart, cCtr, Fld.base, corePage] at *
  omega

theorem qPc_apart_cCtr (lid : Nat) (q : Queue) (n : Nat) : (qPc lid q).Apart (cCtr lid n) := by
  have := queue_num_lt q
  exact apart_cCtr_of_below (by simp only [Fld.base, qPc, corePage]; omega) n

theorem qOps_apart_cCtr (lid : Nat) (q : Queue) (n : Nat) : (qOps lid q).Apart (cCtr lid n) := by
  have := queue_num_lt q
  exact apart_cCtr_of_below (by simp only [Fld.base, qOps, corePage]; omega) n

theorem qState_apart_cCtr (lid : Nat) (q : Queue) (n : Nat) : (qState lid q).Apart (cCtr lid n) := by
  have := queue_num_lt q
  exact apart_cCtr_of_below (by simp only [Fld.base, qState, corePage]; omega) n

theorem qWctr_apart_cCtr (lid : Nat) (q : Queue) (n : Nat) : (qWctr lid q).Apart (cCtr lid n) := by
  have := queue_num_lt q
  exact apart_cCtr_of_below (by simp only [Fld.base, qWctr, corePage]; omega) n

/-! ### Counters that no queue waits on (R218) -/

/-- Whether a queue waits on a counter follows from the queues' registers alone. -/
theorem NoWaiter.congr (h : NoWaiter s lid n)
    (hq : ∀ q, t.getF (qState lid q) = s.getF (qState lid q) ∧ t.getF (qWctr lid q) = s.getF (qWctr lid q)) : NoWaiter t lid n := by
  intro q
  rw [(hq q).1, (hq q).2]
  exact h q

theorem NoWaiter.setCtr (h : NoWaiter s lid n) (m v : Nat) : NoWaiter (s.setF (cCtr lid m) v) lid n :=
  h.congr fun _ => ⟨getF_setF_apart _ _ _ (qState_ok ..) (cCtr_ok ..) (qState_apart_cCtr ..),
    getF_setF_apart _ _ _ (qWctr_ok ..) (cCtr_ok ..) (qWctr_apart_cCtr ..)⟩

/-- The step of R218 for a queue whose LOOK may be satisfied. -/
def State.releaseLook (lid n : Nat) (q : Queue) (s : State) : State :=
  if s.waitsOn lid n q 0x04 && decide (opN (s.opWord lid (s.getF (qPc lid q))) ≤ s.getF (cCtr lid n)) then s.releaseWait lid q else s

/-- The step of R218 for a queue whose TAKE may be satisfied. -/
def State.releaseTake (lid n : Nat) (q : Queue) (s : State) : State :=
  if s.waitsOn lid n q 0x03 && decide (opN (s.opWord lid (s.getF (qPc lid q))) ≤ s.getF (cCtr lid n)) then
    ((s.setF (cCtr lid n) (s.getF (cCtr lid n) - opN (s.opWord lid (s.getF (qPc lid q))))).releaseWait lid q).periodStart lid q n
  else s

theorem resolveCtr_eq (lid n : Nat) (s : State) :
    s.resolveCtr lid n = forAll allQueues (State.releaseTake lid n) (forAll allQueues (State.releaseLook lid n) s) := rfl

theorem releaseLook_of_not_waitsOn (h : s.waitsOn lid n q 0x04 = false) : s.releaseLook lid n q = s := by
  simp [State.releaseLook, h]

theorem releaseTake_of_not_waitsOn (h : s.waitsOn lid n q 0x03 = false) : s.releaseTake lid n q = s := by
  simp [State.releaseTake, h]

theorem NoWaiter.waitsOn_eq (h : NoWaiter s lid n) (q : Queue) (code : Nat) : s.waitsOn lid n q code = false := by
  rw [State.waitsOn, Bool.and_eq_false_iff]
  exact .inl (by simpa using h q)

/-- With no queue waiting on a counter, its change releases none. -/
theorem resolveCtr_of_noWaiter (h : NoWaiter s lid n) : s.resolveCtr lid n = s := by
  rw [resolveCtr_eq, forAll_eq_self fun _ _ => releaseLook_of_not_waitsOn (h.waitsOn_eq ..),
    forAll_eq_self fun _ _ => releaseTake_of_not_waitsOn (h.waitsOn_eq ..)]

theorem resolveCtr_setCtr (h : NoWaiter s lid n) (v : Nat) : (s.setF (cCtr lid n) v).resolveCtr lid n = s.setF (cCtr lid n) v :=
  resolveCtr_of_noWaiter (h.setCtr n v)

theorem cCtr_setCtr (hv : v < 65536) (lid n : Nat) (s : State) : (s.setF (cCtr lid n) v).getF (cCtr lid n) = v := by
  rw [getF_setF_same _ _ (cCtr_ok ..)]
  exact Nat.mod_eq_of_lt hv

/-- A counter written, the op retires. -/
theorem setCtr_retire (hv : v < 65536) (hin : s.getF (qPc lid q) < 4095) :
    Retired lid q s ((s.setF (cCtr lid n) v).retire lid q) ∧ ((s.setF (cCtr lid n) v).retire lid q).getF (cCtr lid n) = v ∧
      RegsOnly [qPc lid q, qOps lid q, cCtr lid n] s ((s.setF (cCtr lid n) v).retire lid q) := by
  have hset : RegsOnly [cCtr lid n] s (s.setF (cCtr lid n) v) := regsOnly_setF _ _ (cCtr_ok ..) (by simp)
  obtain ⟨hret, hregs⟩ := retire_of_onlyFields hset.2 (by simpa using ⟨qPc_apart_cCtr .., qOps_apart_cCtr ..⟩) hin
  refine ⟨hret, ?_, (hset.mono (by simp)).trans (hregs.mono (by simp))⟩
  rw [getF_of_retire hregs (cCtr_ok ..) ⟨qPc_apart_cCtr .., qOps_apart_cCtr ..⟩, cCtr_setCtr hv]

theorem opCtr_lt (op : OpWord) : opCtr op < 64 := bitsOf_lt op 0 6

theorem opN_lt (op : OpWord) : opN op < 65536 := bitsOf_lt op 6 16

theorem bump_eq (lid n k : Nat) (s : State) :
    s.bump lid n k = s.setF (cCtr lid n) (if s.overflows lid n k then 65535 else s.getF (cCtr lid n) + k) := by
  simp only [State.bump, satAdd, State.overflows, decide_eq_true_eq]
  congr 1
  split <;> split <;> omega

end Counters

/-! ### The counter ops at the head of their queue (R214, R216) -/

section CounterOps

variable {s : State} {lid : Nat} {q : Queue} {op : OpWord}

theorem ctrAddOp_of_atHead (hhead : AtHead s lid q op) (hret : s.allRetired lid q = true) (hop : opOpcode op = 0x01)
    (hres : opReserved [(0, 55)] op = false) : ctrAddOp lid q s = ctrAddBody lid q op s := by
  rw [ctrAddOp, ← hop, control_of_atHead hhead hres, if_pos hret]

theorem ctrSetOp_of_atHead (hhead : AtHead s lid q op) (hret : s.allRetired lid q = true) (hop : opOpcode op = 0x02)
    (hres : opReserved [(0, 35)] op = false) : ctrSetOp lid q s = ctrSetBody lid q op s := by
  rw [ctrSetOp, ← hop, control_of_atHead hhead hres, if_pos hret]

/-- An ADD to a counter of the own core that no queue waits on (R216, R220). -/
theorem addOwn_of_noWaiter {n : Nat} (h : NoWaiter s lid n) (k : Nat) : addOwn lid q n k s =
    if s.overflows lid n k then (s.setF (cCtr lid n) 65535).opFault lid q fSyncOverflow
    else (s.setF (cCtr lid n) (s.getF (cCtr lid n) + k)).retire lid q := by
  rw [addOwn, bump_eq, resolveCtr_setCtr h]
  split <;> rfl

end CounterOps

/-- Settles O6: with no queue waiting, a change of the counter is all that comes before the op retires or halts. -/
theorem counterAddAndSet : Obligations.CounterAddAndSet := by
  unfold Obligations.CounterAddAndSet
  intro s lid q op hhead hall htarget hwait
  refine ⟨fun hop hres hn => ?_, fun hop hres => ?_⟩
  · have hadd : ctrAddOp lid q s = _ :=
      (ctrAddOp_of_atHead hhead hall hop hres).trans ((if_neg hn).trans ((if_pos htarget).trans (addOwn_of_noWaiter hwait _)))
    have hexec : exec (.ctrAdd lid q) s = .next (ctrAddOp lid q s) := guarded_of_lid hhead.core
    refine ⟨fun hfits => ⟨_, hexec, ?_⟩, fun hpast => ⟨_, hexec, ?_⟩⟩
    · rw [hadd, if_neg (by simpa [State.overflows] using hfits)]
      obtain ⟨hret, hctr, hregs⟩ := setCtr_retire (n := opCtr op) (v := s.getF (cCtr lid (opCtr op)) + opN op) (by omega) hhead.inside
      exact ⟨hctr, hret, hregs⟩
    · rw [hadd, if_pos (by simpa [State.overflows] using hpast)]
      exact opFault_halted lid q (by decide) _
  · have hset : ctrSetOp lid q s = (s.setF (cCtr lid (opCtr op)) (opN op)).retire lid q := by
      rw [← resolveCtr_setCtr hwait, ctrSetOp_of_atHead hhead hall hop hres]
      exact (if_neg (by omega)).trans (if_pos htarget)
    refine ⟨_, guarded_of_lid hhead.core, ?_⟩
    rw [hset]
    obtain ⟨hret, hctr, hregs⟩ := setCtr_retire (n := opCtr op) (opN_lt op) hhead.inside
    exact ⟨hctr, hret, hregs⟩

end Sys2Proof.Machine
end
section
/-!
PROOFS. Scope: CTR.TAKE, CTR.LOOK and CTR.DEC, waits and their release (R215, R216, R218, R220).
-/
namespace Sys2Proof.Machine

section Waits

variable {s t u : State} {lid n : Nat} {q r : Queue} {l : List Fld} {op : OpWord}

/-! ### The registers of one queue (R238) -/

theorem qWaits_ok (lid : Nat) (q : Queue) : (qWaits lid q).Ok := by simp [Fld.Ok, qWaits]

/-- What a queue that goes on from a wait changes of its registers. -/
def waitFields (lid : Nat) (q : Queue) : List Fld :=
  [qState lid q, qWctr lid q, qWticks lid q, qWaits lid q, qPc lid q, qOps lid q]

theorem waitFields_ok (lid : Nat) (q : Queue) : ∀ f ∈ waitFields lid q, f.Ok := by
  simp [waitFields, qState_ok, qWctr_ok, qWticks_ok, qWaits_ok, qPc_ok, qOps_ok]

/-- They lie in the queue's own part of the core's page. -/
theorem waitFields_place (lid : Nat) (q : Queue) : ∀ f ∈ waitFields lid q,
    8 * (corePage lid + 0x900 + 0x40 * q.num) ≤ f.base ∧ f.base + f.w ≤ 8 * (corePage lid + 0x940 + 0x40 * q.num) := by
  simp only [waitFields, List.forall_mem_cons, Fld.base, qState, qWctr, qWticks, qWaits, qPc, qOps, corePage]
  refine ⟨?_, ?_, ?_, ?_, ?_, ?_, List.forall_mem_nil _⟩ <;> omega

theorem queue_num_inj (h : q ≠ r) : q.num ≠ r.num := by
  cases q <;> cases r <;> simp_all [Queue.num]

/-- The registers of two queues share no bit. -/
theorem waitFields_apart (lid : Nat) (h : q ≠ r) : ∀ f ∈ waitFields lid q, ∀ g ∈ waitFields lid r, f.Apart g := by
  intro f hf g hg
  have hne := queue_num_inj h
  obtain ⟨hflo, hfhi⟩ := waitFields_place lid q f hf
  obtain ⟨hglo, hghi⟩ := waitFields_place lid r g hg
  rw [Fld.Apart]
  omega

theorem waitFields_apart_cCtr (lid : Nat) (q : Queue) (n : Nat) : ∀ f ∈ waitFields lid q, f.Apart (cCtr lid n) := by
  intro f hf
  have := queue_num_lt q
  exact apart_cCtr_of_below (((waitFields_place lid q f hf).2).trans (by omega)) n


/-! ### A queue that goes on from its wait (R218) -/

theorem opWord_congr (hc : t.core lid = s.core lid) (i : Nat) : t.opWord lid i = s.opWord lid i := by
  simp only [State.opWord, State.rdNat, State.rd, hc]

theorem Counted.mono {m : List Fld} (h : Counted l s t) (hs : ∀ f ∈ l, f ∈ m) : Counted m s t := ⟨h.1, h.2.mono hs⟩

theorem queue_apart_wait (lid : Nat) (q : Queue) : ∀ g ∈ [qState lid q, qWctr lid q, qWticks lid q, qWaits lid q],
    (qPc lid q).Apart g ∧ (qOps lid q).Apart g := by
  simp only [List.forall_mem_cons, Fld.Apart, Fld.base, qPc, qOps, qState, qWctr, qWticks, qWaits]
  refine ⟨?_, ?_, ?_, ?_, List.forall_mem_nil _⟩ <;> omega

/-- The wait of a queue is over. -/
def State.endWait (lid : Nat) (q : Queue) (s : State) : State :=
  s.setF (qState lid q) 1 |>.setF (qWctr lid q) 0 |>.setF (qWticks lid q) 0 |>.addFree (qWaits lid q)

theorem counted_endWait (lid : Nat) (q : Queue) (s : State) :
    Counted [qState lid q, qWctr lid q, qWticks lid q, qWaits lid q] s (s.endWait lid q) :=
  ((((regsOnly_setF _ _ (qState_ok ..) (by simp)).trans (regsOnly_setF _ _ (qWctr_ok ..) (by simp))).trans
    (regsOnly_setF _ _ (qWticks_ok ..) (by simp))).counted).trans (counted_addFree (qWaits_ok ..) (by simp))

theorem qState_endWait (lid : Nat) (q : Queue) (s : State) : (s.endWait lid q).getF (qState lid q) = 1 := by
  have happ : (qState lid q).Apart (qWctr lid q) ∧ (qState lid q).Apart (qWticks lid q) ∧ (qState lid q).Apart (qWaits lid q) := by
    simp only [Fld.Apart, Fld.base, qState, qWctr, qWticks, qWaits]
    omega
  obtain ⟨hctr, hticks, hwaits⟩ := happ
  rw [State.endWait, State.addFree, getF_used, getF_incF_apart _ _ _ (qState_ok ..) (qWaits_ok ..) hwaits,
    getF_setF_apart _ _ _ (qState_ok ..) (qWticks_ok ..) hticks, getF_setF_apart _ _ _ (qState_ok ..) (qWctr_ok ..) hctr,
    getF_setF_same _ _ (qState_ok ..)]
  rfl

/-- The op that waited retires, and its queue runs. -/
theorem releaseWait_effect (hin : s.getF (qPc lid q) < 4095) : Retired lid q s (s.releaseWait lid q) ∧
    (s.releaseWait lid q).getF (qState lid q) = 1 ∧ Counted (waitFields lid q) s (s.releaseWait lid q) := by
  have hend := counted_endWait lid q s
  obtain ⟨hret, hregs⟩ := retire_of_onlyFields hend.2 (queue_apart_wait lid q) hin
  refine ⟨hret, ?_, (hend.mono (by simp +contextual [waitFields])).trans (hregs.counted.mono (by simp +contextual [waitFields]))⟩
  refine Eq.trans ?_ (qState_endWait lid q s)
  exact getF_of_retire hregs (qState_ok ..) (by simp only [Fld.Apart, Fld.base, qState, qPc, qOps]; omega)

/-! ### TAKE, LOOK and DEC at the head of their queue (R216, R218) -/

/-- The counter is none that launches forward to (R231). -/
def NoLaunch (s : State) (lid n : Nat) : Prop := ∀ p, s.owner lid = some p → s.isLaunchCtr p n = false

theorem NoLaunch.congr (h : NoLaunch s lid n) (hf : SameFabric s t) : NoLaunch t lid n := by
  intro p hp
  rw [hf.owner_eq] at hp
  have hs := h p hp
  rw [State.isLaunchCtr, List.any_eq_false] at hs ⊢
  intro k hk
  have hlt := List.mem_range.1 hk
  have hw : t.getF (hcForward k) = s.getF (hcForward k) ∧ t.getF (hcPart k) = s.getF (hcPart k) ∧ t.getF (hcCtr k) = s.getF (hcCtr k) :=
    ⟨hf _ (by simp [Fld.Ok, hcForward]) (by simp only [Fld.base, hcForward]; omega),
      hf _ (by simp [Fld.Ok, hcPart]) (by simp only [Fld.base, hcPart]; omega),
      hf _ (by simp [Fld.Ok, hcCtr]) (by simp only [Fld.base, hcCtr]; omega)⟩
  rw [State.onF, hw.1, hw.2.1, hw.2.2]
  exact hs k hk

/-- No result period begins at a counter that no launch forwards to (R270). -/
theorem NoLaunch.periodStart_eq (h : NoLaunch s lid n) (q : Queue) : s.periodStart lid q n = s := by
  unfold State.periodStart
  split
  · next p hp => simp [h p hp]
  · rfl

theorem waitFields_above (lid : Nat) (q : Queue) (n : Nat) : ∀ f ∈ cCtr lid n :: waitFields lid q, 8 * 0x01000000 ≤ f.base := by
  refine List.forall_mem_cons.2 ⟨by simp only [Fld.base, cCtr, corePage]; omega, fun f hf => ?_⟩
  have hpage := corePage_above lid 0
  have hplace := (waitFields_place lid q f hf).1
  omega

theorem OnlyFields.sameFabric (h : OnlyFields l s t) (hl : ∀ g ∈ l, g ∈ cCtr lid n :: waitFields lid q) : SameFabric s t :=
  h.regsBelow fun g hg => waitFields_above lid q n g (hl g hg)

/-- TAKE that is satisfied (R216). -/
theorem take_satisfied (hl : NoLaunch s lid n) {v : Nat} (hv : v < 65536) (hin : s.getF (qPc lid q) < 4095) :
    ((s.setF (cCtr lid n) v).retire lid q).periodStart lid q n = (s.setF (cCtr lid n) v).retire lid q := by
  obtain ⟨-, -, hregs⟩ := setCtr_retire (lid := lid) (n := n) (q := q) hv hin
  exact (hl.congr (hregs.2.sameFabric (lid := lid) (n := n) (q := q) (by simp +contextual [waitFields]))).periodStart_eq q

/-- What waits records its counter, with no tick passed yet (R215, R238). -/
theorem beginWait_effect (hn : n < 64) (lid : Nat) (q : Queue) (s : State) :
    (beginWait lid q n s).getF (qState lid q) = 2 ∧ (beginWait lid q n s).getF (qWctr lid q) = n ∧
      (beginWait lid q n s).getF (qWticks lid q) = 0 ∧
      RegsOnly [qState lid q, qWctr lid q, qWticks lid q] s (beginWait lid q n s) := by
  have happ : (qState lid q).Apart (qWctr lid q) ∧ (qState lid q).Apart (qWticks lid q) ∧ (qWctr lid q).Apart (qWticks lid q) := by
    simp only [Fld.Apart, Fld.base, qState, qWctr, qWticks]
    omega
  obtain ⟨hsc, hst, hct⟩ := happ
  refine ⟨?_, ?_, ?_, ((regsOnly_setF _ _ (qState_ok ..) (by simp)).trans (regsOnly_setF _ _ (qWctr_ok ..) (by simp))).trans
    (regsOnly_setF _ _ (qWticks_ok ..) (by simp))⟩
  · rw [beginWait, getF_setF_apart _ _ _ (qState_ok ..) (qWticks_ok ..) hst, getF_setF_apart _ _ _ (qState_ok ..) (qWctr_ok ..) hsc,
      getF_setF_same _ _ (qState_ok ..)]
    rfl
  · rw [beginWait, getF_setF_apart _ _ _ (qWctr_ok ..) (qWticks_ok ..) hct, getF_setF_same _ _ (qWctr_ok ..)]
    exact Nat.mod_eq_of_lt hn
  · rw [beginWait, getF_setF_same _ _ (qWticks_ok ..)]
    rfl

end Waits

theorem counterTakeLookDec : CounterTakeLookDecRule := by
  unfold CounterTakeLookDecRule
  intro s lid q op hhead hn hlaunch
  have hlt : s.getF (cCtr lid (opCtr op)) < 65536 := getF_lt (cCtr lid (opCtr op))
  have hwait := beginWait_effect (opCtr_lt op) lid q s
  refine ⟨fun hop hres => ?_, fun hop hres => ?_, fun hop hres => ?_⟩
  · have htake : ctrTakeOp lid q s = if opN op ≤ s.getF (cCtr lid (opCtr op)) then
        ((s.setF (cCtr lid (opCtr op)) (s.getF (cCtr lid (opCtr op)) - opN op)).retire lid q).periodStart lid q (opCtr op)
        else beginWait lid q (opCtr op) s := by
      rw [ctrTakeOp, ← hop, control_of_atHead hhead hres]
      exact if_neg hn
    refine ⟨fun hle => ⟨_, guarded_of_lid hhead.core, ?_⟩, fun hgt => ⟨_, guarded_of_lid hhead.core, ?_⟩⟩
    · have hv : s.getF (cCtr lid (opCtr op)) - opN op < 65536 := by omega
      rw [htake, if_pos hle, take_satisfied hlaunch hv hhead.inside]
      exact setCtr_retire hv hhead.inside
    · rw [htake, if_neg (by omega)]
      exact hwait
  · have hlook : ctrLookOp lid q s = if opN op ≤ s.getF (cCtr lid (opCtr op)) then s.retire lid q
        else beginWait lid q (opCtr op) s := by
      rw [ctrLookOp, ← hop, control_of_atHead hhead hres]
      exact if_neg hn
    refine ⟨fun hle => ⟨_, guarded_of_lid hhead.core, ?_⟩, fun hgt => ⟨_, guarded_of_lid hhead.core, ?_⟩⟩
    · rw [hlook, if_pos hle]
      exact ⟨retire_retired hhead.inside, retire_regsOnly hhead.inside⟩
    · rw [hlook, if_neg (by omega)]
      exact hwait
  · have hdec : ctrDecOp lid q s = if s.getF (cCtr lid (opCtr op)) < opN op then s.opFault lid q fSyncUnderflow
        else ((s.setF (cCtr lid (opCtr op)) (s.getF (cCtr lid (opCtr op)) - opN op)).resolveCtr lid (opCtr op)).retire lid q := by
      rw [ctrDecOp, ← hop, control_of_atHead hhead hres]
      exact if_neg hn
    refine ⟨fun hgt => ⟨_, guarded_of_lid hhead.core, ?_⟩, fun hle hno => ⟨_, guarded_of_lid hhead.core, ?_⟩⟩
    · rw [hdec, if_pos hgt]
      exact opFault_halted lid q (by decide) s
    · rw [hdec, if_neg (by omega), resolveCtr_setCtr hno]
      exact setCtr_retire (by omega) hhead.inside

end Sys2Proof.Machine
end
section
/-!
PROOFS. Scope: a rise of a counter releases its waiters, the LOOKs before the TAKEs (R218).
-/
namespace Sys2Proof.Machine

section Release

variable {s t : State} {lid n : Nat} {q r : Queue}

/-- The op that a queue stands at. -/
def State.headOp (s : State) (lid : Nat) (q : Queue) : OpWord := s.opWord lid (s.getF (qPc lid q))

/-- A queue waits on counter `n` with the counter op `code`. -/
theorem waitsOn_of (hst : s.getF (qState lid q) = 2) (hctr : s.getF (qWctr lid q) = n) {code : Nat}
    (hop : opOpcode (s.headOp lid q) = code) : s.waitsOn lid n q code = true := by
  rw [State.headOp] at hop
  simp [State.waitsOn, hst, hctr, hop]

theorem not_waitsOn_of_state (h : s.getF (qState lid q) ≠ 2) (n code : Nat) : s.waitsOn lid n q code = false := by
  simp [State.waitsOn, h]

theorem not_waitsOn_of_opcode {code : Nat} (h : opOpcode (s.headOp lid q) ≠ code) : s.waitsOn lid n q code = false := by
  rw [State.headOp] at h
  simp [State.waitsOn, h]

/-- Another queue's registers stay when a queue goes on from its wait. -/
theorem getF_releaseWait_of_ne (h : q ≠ r) (hin : s.getF (qPc lid q) < 4095) :
    ∀ f ∈ waitFields lid r, (s.releaseWait lid q).getF f = s.getF f := by
  obtain ⟨-, -, hcount⟩ := releaseWait_effect hin
  exact fun f hf => hcount.2 f (waitFields_ok lid r f hf) (waitFields_apart lid (Ne.symm h) f hf)

theorem getF_cCtr_releaseWait (hin : s.getF (qPc lid q) < 4095) (n : Nat) :
    (s.releaseWait lid q).getF (cCtr lid n) = s.getF (cCtr lid n) := by
  obtain ⟨-, -, hcount⟩ := releaseWait_effect hin
  exact hcount.2 _ (cCtr_ok ..) fun g hg => (waitFields_apart_cCtr lid q n g hg).symm

theorem getF_setCtr_of_mem (n v : Nat) : ∀ f ∈ waitFields lid q, (s.setF (cCtr lid n) v).getF f = s.getF f :=
  fun f hf => getF_setF_apart _ _ _ (waitFields_ok lid q f hf) (cCtr_ok ..) (waitFields_apart_cCtr lid q n f hf)

theorem headOp_congr (hc : t.core lid = s.core lid) (hpc : t.getF (qPc lid q) = s.getF (qPc lid q)) :
    t.headOp lid q = s.headOp lid q := by
  rw [State.headOp, hpc, opWord_congr hc, State.headOp]

theorem headOp_releaseWait_of_ne (h : q ≠ r) (hin : s.getF (qPc lid q) < 4095) :
    (s.releaseWait lid q).headOp lid r = s.headOp lid r := by
  obtain ⟨-, -, hcount⟩ := releaseWait_effect hin
  exact headOp_congr (hcount.core_eq lid) (getF_releaseWait_of_ne h hin _ (by simp [waitFields]))

theorem headOp_setCtr (n v : Nat) : (s.setF (cCtr lid n) v).headOp lid q = s.headOp lid q :=
  headOp_congr rfl (getF_setCtr_of_mem (q := q) n v _ (by simp [waitFields]))

/-- A queue's wait ends, its op retires, and it runs. -/
def Released (lid : Nat) (q : Queue) (s t : State) : Prop := Retired lid q s t ∧ t.getF (qState lid q) = 1

theorem Released.congr {s' t' : State} (h : Released lid q s t) (hs : ∀ f ∈ waitFields lid q, s.getF f = s'.getF f)
    (ht : ∀ f ∈ waitFields lid q, t'.getF f = t.getF f) : Released lid q s' t' := by
  obtain ⟨⟨hpc, hops⟩, hst⟩ := h
  refine ⟨⟨?_, ?_⟩, (ht _ (by simp [waitFields])).trans hst⟩
  · rw [ht _ (by simp [waitFields]), hpc, hs _ (by simp [waitFields])]
  · rw [ht _ (by simp [waitFields]), hops, hs _ (by simp [waitFields])]

/-- The V queue waits on counter `n` with a LOOK and the S queue with a TAKE, both satisfied, and no other queue waits. -/
structure LookAndTake (s : State) (lid n : Nat) : Prop where
  vState : s.getF (qState lid .v) = 2
  vCtr : s.getF (qWctr lid .v) = n
  vOp : opOpcode (s.headOp lid .v) = 0x04
  vIn : s.getF (qPc lid .v) < 4095
  vLe : opN (s.headOp lid .v) ≤ s.getF (cCtr lid n)
  sState : s.getF (qState lid .s) = 2
  sCtr : s.getF (qWctr lid .s) = n
  sOp : opOpcode (s.headOp lid .s) = 0x03
  sIn : s.getF (qPc lid .s) < 4095
  sLe : opN (s.headOp lid .s) ≤ s.getF (cCtr lid n)
  mState : s.getF (qState lid .m) ≠ 2
  xState : s.getF (qState lid .x) ≠ 2
  noLaunch : NoLaunch s lid n

/-- The first pass of R218: the LOOK alone is released. -/
theorem LookAndTake.looks (h : LookAndTake s lid n) : forAll allQueues (State.releaseLook lid n) s = s.releaseWait lid .v := by
  have hv : s.releaseLook lid n .v = s.releaseWait lid .v := by
    rw [State.releaseLook, waitsOn_of h.vState h.vCtr h.vOp]
    exact if_pos (by simpa [State.headOp] using h.vLe)
  have hs : opOpcode ((s.releaseWait lid .v).headOp lid .s) ≠ 0x04 := by
    rw [headOp_releaseWait_of_ne (by decide) h.vIn, h.sOp]
    decide
  have hx : (s.releaseWait lid .v).getF (qState lid .x) ≠ 2 := by
    rw [getF_releaseWait_of_ne (r := .x) (by decide) h.vIn _ (by simp [waitFields])]
    exact h.xState
  rw [allQueues, forAll_cons, releaseLook_of_not_waitsOn (not_waitsOn_of_state h.mState ..), forAll_cons, hv, forAll_cons,
    releaseLook_of_not_waitsOn (not_waitsOn_of_opcode hs), forAll_cons, releaseLook_of_not_waitsOn (not_waitsOn_of_state hx ..),
    forAll_nil]

/-- What the second pass does with the S queue's TAKE. -/
def State.takeAtS (lid n : Nat) (s : State) : State :=
  (s.setF (cCtr lid n) (s.getF (cCtr lid n) - opN (s.headOp lid .s))).releaseWait lid .s

theorem takeAtS_effect (hin : s.getF (qPc lid .s) < 4095) : Released lid .s s (s.takeAtS lid n) ∧
    (s.takeAtS lid n).getF (cCtr lid n) = s.getF (cCtr lid n) - opN (s.headOp lid .s) ∧
    Counted (cCtr lid n :: waitFields lid .s) s (s.takeAtS lid n) := by
  have hset := regsOnly_setF (s := s) (l := [cCtr lid n]) (cCtr lid n) (s.getF (cCtr lid n) - opN (s.headOp lid .s)) (cCtr_ok ..) (by simp)
  have hpc : (s.setF (cCtr lid n) (s.getF (cCtr lid n) - opN (s.headOp lid .s))).getF (qPc lid .s) < 4095 := by
    rwa [getF_setCtr_of_mem (q := .s) _ _ _ (by simp [waitFields])]
  obtain ⟨hret, hst, hcount⟩ := releaseWait_effect hpc
  have hrel : Released lid .s _ (s.takeAtS lid n) := ⟨hret, hst⟩
  refine ⟨hrel.congr (getF_setCtr_of_mem n _) fun _ _ => rfl, ?_, (hset.counted.mono (by simp)).trans (hcount.mono (by simp +contextual))⟩
  have hlt : s.getF (cCtr lid n) < 65536 := getF_lt (cCtr lid n)
  rw [State.takeAtS, getF_cCtr_releaseWait hpc, cCtr_setCtr (by omega)]

/-- The second pass of R218: the TAKE is released, and its N is taken. -/
theorem LookAndTake.takes (h : LookAndTake s lid n) :
    forAll allQueues (State.releaseTake lid n) (s.releaseWait lid .v) = (s.releaseWait lid .v).takeAtS lid n := by
  obtain ⟨-, hvst, hvcount⟩ := releaseWait_effect h.vIn
  have hkeep : ∀ r, r ≠ .v → ∀ f ∈ waitFields lid r, (s.releaseWait lid .v).getF f = s.getF f :=
    fun r hr => getF_releaseWait_of_ne (Ne.symm hr) h.vIn
  have hm : (s.releaseWait lid .v).getF (qState lid .m) ≠ 2 := by
    rw [hkeep .m (by decide) _ (by simp [waitFields])]
    exact h.mState
  have hop := headOp_releaseWait_of_ne (r := .s) (by decide) h.vIn
  have hsin : (s.releaseWait lid .v).getF (qPc lid .s) < 4095 := by
    rw [hkeep .s (by decide) _ (by simp [waitFields])]
    exact h.sIn
  have hwait : (s.releaseWait lid .v).waitsOn lid n .s 0x03 = true :=
    waitsOn_of ((hkeep .s (by decide) _ (by simp [waitFields])).trans h.sState)
      ((hkeep .s (by decide) _ (by simp [waitFields])).trans h.sCtr) (by rw [hop]; exact h.sOp)
  have hle : opN ((s.releaseWait lid .v).headOp lid .s) ≤ (s.releaseWait lid .v).getF (cCtr lid n) := by
    rw [hop, getF_cCtr_releaseWait h.vIn]
    exact h.sLe
  obtain ⟨-, -, htcount⟩ := takeAtS_effect (n := n) hsin
  have hfab : SameFabric s ((s.releaseWait lid .v).takeAtS lid n) := fun f hf hb =>
    ((htcount.2.sameFabric (lid := lid) (n := n) (q := .s) fun g hg => hg) f hf hb).trans
      ((hvcount.2.sameFabric (lid := lid) (n := n) (q := .v) (by simp +contextual)) f hf hb)
  have hs : (s.releaseWait lid .v).releaseTake lid n .s = (s.releaseWait lid .v).takeAtS lid n := by
    rw [State.releaseTake, hwait, if_pos (by simpa [State.headOp] using hle)]
    exact (h.noLaunch.congr hfab).periodStart_eq .s
  have hx : ((s.releaseWait lid .v).takeAtS lid n).getF (qState lid .x) ≠ 2 := by
    rw [htcount.2 _ (qState_ok ..) ?_, hkeep .x (by decide) _ (by simp [waitFields])]
    · exact h.xState
    · exact List.forall_mem_cons.2 ⟨qState_apart_cCtr .., waitFields_apart lid (q := .x) (by decide) _ (by simp [waitFields])⟩
  rw [allQueues, forAll_cons, releaseTake_of_not_waitsOn (not_waitsOn_of_state hm ..), forAll_cons,
    releaseTake_of_not_waitsOn (not_waitsOn_of_state (by rw [hvst]; decide) ..), forAll_cons, hs, forAll_cons,
    releaseTake_of_not_waitsOn (not_waitsOn_of_state hx ..), forAll_nil]

/-- Both waiters are released, the LOOK before the TAKE (R218). -/
theorem LookAndTake.resolveCtr_effect (h : LookAndTake s lid n) : Released lid .v s (s.resolveCtr lid n) ∧
    Released lid .s s (s.resolveCtr lid n) ∧
    (s.resolveCtr lid n).getF (cCtr lid n) = s.getF (cCtr lid n) - opN (s.headOp lid .s) ∧
    (∀ f ∈ waitFields lid .x, (s.resolveCtr lid n).getF f = s.getF f) := by
  obtain ⟨hvret, hvst, hvcount⟩ := releaseWait_effect h.vIn
  have hkeep : ∀ r, r ≠ .v → ∀ f ∈ waitFields lid r, (s.releaseWait lid .v).getF f = s.getF f :=
    fun r hr => getF_releaseWait_of_ne (Ne.symm hr) h.vIn
  have hsin : (s.releaseWait lid .v).getF (qPc lid .s) < 4095 := by
    rw [hkeep .s (by decide) _ (by simp [waitFields])]
    exact h.sIn
  obtain ⟨hsrel, hctr, htcount⟩ := takeAtS_effect (n := n) hsin
  have hrest : ∀ r, r ≠ .s → ∀ f ∈ waitFields lid r, ((s.releaseWait lid .v).takeAtS lid n).getF f = (s.releaseWait lid .v).getF f :=
    fun r hr f hf => htcount.2 f (waitFields_ok lid r f hf)
      (List.forall_mem_cons.2 ⟨waitFields_apart_cCtr lid r n f hf, waitFields_apart lid hr f hf⟩)
  rw [resolveCtr_eq, h.looks, h.takes]
  refine ⟨Released.congr ⟨hvret, hvst⟩ (fun _ _ => rfl) (hrest .v (by decide)), hsrel.congr (hkeep .s (by decide)) fun _ _ => rfl, ?_, ?_⟩
  · rw [hctr, getF_cCtr_releaseWait h.vIn, headOp_releaseWait_of_ne (by decide) h.vIn]
  · exact fun f hf => (hrest .x (by decide) f hf).trans (hkeep .x (by decide) f hf)

/-- The rise of the counter satisfies both waiters. -/
theorem lookAndTake_setCtr {v : Nat} (hv : v < 65536) (hvst : s.getF (qState lid .v) = 2) (hvctr : s.getF (qWctr lid .v) = n)
    (hvop : opOpcode (s.headOp lid .v) = 0x04) (hvin : s.getF (qPc lid .v) < 4095) (hvle : opN (s.headOp lid .v) ≤ v)
    (hsst : s.getF (qState lid .s) = 2) (hsctr : s.getF (qWctr lid .s) = n) (hsop : opOpcode (s.headOp lid .s) = 0x03)
    (hsin : s.getF (qPc lid .s) < 4095) (hsle : opN (s.headOp lid .s) ≤ v) (hm : s.getF (qState lid .m) ≠ 2)
    (hx : s.getF (qState lid .x) ≠ 2) (hl : NoLaunch s lid n) : LookAndTake (s.setF (cCtr lid n) v) lid n where
  vState := by rw [getF_setCtr_of_mem (q := .v) _ _ _ (by simp [waitFields]), hvst]
  vCtr := by rw [getF_setCtr_of_mem (q := .v) _ _ _ (by simp [waitFields]), hvctr]
  vOp := by rw [headOp_setCtr, hvop]
  vIn := (getF_setCtr_of_mem (q := .v) n v (qPc lid .v) (by simp [waitFields])).trans_lt hvin
  vLe := by rw [headOp_setCtr, cCtr_setCtr hv]; exact hvle
  sState := by rw [getF_setCtr_of_mem (q := .s) _ _ _ (by simp [waitFields]), hsst]
  sCtr := by rw [getF_setCtr_of_mem (q := .s) _ _ _ (by simp [waitFields]), hsctr]
  sOp := by rw [headOp_setCtr, hsop]
  sIn := (getF_setCtr_of_mem (q := .s) n v (qPc lid .s) (by simp [waitFields])).trans_lt hsin
  sLe := by rw [headOp_setCtr, cCtr_setCtr hv]; exact hsle
  mState := (getF_setCtr_of_mem (q := .m) n v (qState lid .m) (by simp [waitFields])).trans_ne hm
  xState := (getF_setCtr_of_mem (q := .x) n v (qState lid .x) (by simp [waitFields])).trans_ne hx
  noLaunch := hl.congr ((onlyFields_setF (l := [cCtr lid n]) _ _ (cCtr_ok ..) (by simp)).sameFabric (lid := lid) (n := n) (q := .x) (by simp))

/-- Once the waiters are released, the op of the X queue retires too. -/
theorem LookAndTake.retire_x (h : LookAndTake s lid n) (hin : s.getF (qPc lid .x) < 4095) :
    Retired lid .x s ((s.resolveCtr lid n).retire lid .x) ∧ Released lid .v s ((s.resolveCtr lid n).retire lid .x) ∧
      Released lid .s s ((s.resolveCtr lid n).retire lid .x) ∧
      ((s.resolveCtr lid n).retire lid .x).getF (cCtr lid n) = s.getF (cCtr lid n) - opN (s.headOp lid .s) := by
  obtain ⟨hvrel, hsrel, hval, hxreg⟩ := h.resolveCtr_effect
  have hxin : (s.resolveCtr lid n).getF (qPc lid .x) < 4095 := by rwa [hxreg _ (by simp [waitFields])]
  have hretx := retire_regsOnly hxin
  have hout : ∀ r, r ≠ .x → ∀ f ∈ waitFields lid r,
      ((s.resolveCtr lid n).retire lid .x).getF f = (s.resolveCtr lid n).getF f := fun r hr f hf =>
    hretx.2 f (waitFields_ok lid r f hf) fun g hg => waitFields_apart lid hr f hf g (by simp [waitFields] at hg ⊢; tauto)
  obtain ⟨hxpc, hxops⟩ := retire_retired hxin
  refine ⟨⟨?_, ?_⟩, hvrel.congr (fun _ _ => rfl) (hout .v (by decide)), hsrel.congr (fun _ _ => rfl) (hout .s (by decide)), ?_⟩
  · rw [hxpc, hxreg _ (by simp [waitFields])]
  · rw [hxops, hxreg _ (by simp [waitFields])]
  · rw [getF_of_retire hretx (cCtr_ok ..) ⟨qPc_apart_cCtr .., qOps_apart_cCtr ..⟩, hval]

/-- A queue that issues does not wait (R238). -/
theorem AtHead.state_ne_two {op : OpWord} (h : AtHead s lid q op) : s.getF (qState lid q) ≠ 2 := by
  have hissues := h.issues
  rw [State.issues] at hissues
  intro hst
  simp [hst] at hissues

end Release

theorem waitersReleased : WaitersReleasedRule := by
  unfold WaitersReleasedRule
  intro s lid op look take hhead hall hop hres hn htarget hfits hlook hlookOp hvst hvctr hvin htake htakeOp hsst hsctr hsin
    hlookLe htakeLe hm hlaunch
  subst hlook htake
  have hadd : ctrAddOp lid .x s =
      ((s.setF (cCtr lid (opCtr op)) (s.getF (cCtr lid (opCtr op)) + opN op)).resolveCtr lid (opCtr op)).retire lid .x := by
    have hno : s.overflows lid (opCtr op) (opN op) = false := by simpa [State.overflows] using hfits
    rw [ctrAddOp_of_atHead hhead hall hop hres, ctrAddBody, if_neg hn, if_pos htarget, addOwn, bump_eq, hno, if_neg (by decide),
      if_neg (by decide)]
  have hwaits := lookAndTake_setCtr (v := s.getF (cCtr lid (opCtr op)) + opN op) (by omega) hvst hvctr hlookOp hvin hlookLe hsst hsctr
    htakeOp hsin htakeLe hm hhead.state_ne_two hlaunch
  have hreg : ∀ q, ∀ f ∈ waitFields lid q, s.getF f = (s.setF (cCtr lid (opCtr op)) (s.getF (cCtr lid (opCtr op)) + opN op)).getF f :=
    fun q f hf => (getF_setCtr_of_mem _ _ f hf).symm
  have hpc := hreg .x (qPc lid .x) (by simp [waitFields])
  obtain ⟨⟨hxpc, hxops⟩, hvrel, hsrel, hval⟩ := hwaits.retire_x (hpc ▸ hhead.inside)
  obtain ⟨hvret, hvrun⟩ := hvrel.congr (fun f hf => (hreg .v f hf).symm) fun _ _ => rfl
  obtain ⟨hsret, hsrun⟩ := hsrel.congr (fun f hf => (hreg .s f hf).symm) fun _ _ => rfl
  refine ⟨_, guarded_of_lid hhead.core, ?_⟩
  rw [hadd]
  refine ⟨⟨?_, ?_⟩, hvret, hsret, hvrun, hsrun, ?_⟩
  · rw [hxpc, hpc]
  · rw [hxops, hreg .x (qOps lid .x) (by simp [waitFields])]
  · rw [hval, headOp_setCtr, cCtr_setCtr (by omega), State.headOp]

/-- Settles O8: what each op does at the head of its queue, and the two passes of R218 over the queues that wait. -/
theorem counterWaits : Obligations.CounterWaits := ⟨counterTakeLookDec, waitersReleased⟩

end Sys2Proof.Machine
end
section
/-!
PROOFS. Scope: the loop levels of a queue; LOOP, ENDLOOP, NOP, HALT and SELECT (R221-R223).
-/
namespace Sys2Proof.Machine

section LoopLevels

variable {s t u : State} {lid k j n : Nat} {q : Queue} {l : List Fld} {f : Fld}

theorem qRemain_ok (lid : Nat) (q : Queue) (k : Nat) : (qRemain lid q k).Ok := by simp [Fld.Ok, qRemain]
theorem qForever_ok (lid : Nat) (q : Queue) (k : Nat) : (qForever lid q k).Ok := by simp [Fld.Ok, qForever]
theorem qStart_ok (lid : Nat) (q : Queue) (k : Nat) : (qStart lid q k).Ok := by simp [Fld.Ok, qStart]
theorem qDepth_ok (lid : Nat) (q : Queue) : (qDepth lid q).Ok := by simp [Fld.Ok, qDepth]

theorem getF_setF_of_lt (hf : f.Ok) (hn : n < 2 ^ f.w) (s : State) : (s.setF f n).getF f = n := by
  rw [getF_setF_same _ _ hf, Nat.mod_eq_of_lt hn]

/-! ### One level (R222, R238) -/

/-- The register fields of one loop level. -/
def levelFields (lid : Nat) (q : Queue) (k : Nat) : List Fld := [qRemain lid q k, qForever lid q k, qStart lid q k]

theorem levelFields_ok (lid : Nat) (q : Queue) (k : Nat) : ∀ f ∈ levelFields lid q k, f.Ok := by
  simp [levelFields, qRemain_ok, qForever_ok, qStart_ok]

theorem levelFields_place (lid : Nat) (q : Queue) (k : Nat) : ∀ f ∈ levelFields lid q k,
    8 * (corePage lid + 0x910 + 0x40 * q.num) + 32 * k ≤ f.base ∧
      f.base + f.w ≤ 8 * (corePage lid + 0x910 + 0x40 * q.num) + 32 * (k + 1) := by
  simp only [levelFields, List.forall_mem_cons, Fld.base, qRemain, qForever, qStart, corePage]
  refine ⟨?_, ?_, ?_, List.forall_mem_nil _⟩ <;> omega

theorem levelFields_apart (h : k ≠ j) : ∀ f ∈ levelFields lid q k, ∀ g ∈ levelFields lid q j, f.Apart g := by
  intro f hf g hg
  have := levelFields_place lid q k f hf
  have := levelFields_place lid q j g hg
  rw [Fld.Apart]
  omega

/-- PC, DEPTH and OPS lie outside the four levels. -/
theorem levelFields_apart_of_outside (hk : k < 4) (hf : f = qPc lid q ∨ f = qDepth lid q ∨ f = qOps lid q) :
    ∀ g ∈ levelFields lid q k, f.Apart g := by
  intro g hg
  have := levelFields_place lid q k g hg
  rcases hf with rfl | rfl | rfl <;> simp only [Fld.Apart, Fld.base, qPc, qDepth, qOps] at * <;> omega

/-- A loop level's count, FOREVER and start. -/
def State.level (s : State) (lid : Nat) (q : Queue) (k : Nat) : Nat × Nat × Nat :=
  (s.getF (qRemain lid q k), s.getF (qForever lid q k), s.getF (qStart lid q k))

/-- What a level's registers hold. -/
def LevelOk (v : Nat × Nat × Nat) : Prop := v.1 < 2 ^ 17 ∧ v.2.1 < 2 ∧ v.2.2 < 4096

theorem levelOk_level (s : State) (lid : Nat) (q : Queue) (k : Nat) : LevelOk (s.level lid q k) :=
  ⟨getF_lt (qRemain lid q k), getF_lt (qForever lid q k), getF_lt (qStart lid q k)⟩

theorem level_congr (h : ∀ f ∈ levelFields lid q k, t.getF f = s.getF f) : t.level lid q k = s.level lid q k := by
  simp only [levelFields, List.forall_mem_cons] at h
  obtain ⟨hremain, hforever, hstart, -⟩ := h
  rw [State.level, hremain, hforever, hstart, State.level]

theorem level_congr_of_onlyFields (h : OnlyFields l s t) (ha : ∀ f ∈ levelFields lid q k, ∀ g ∈ l, f.Apart g) :
    t.level lid q k = s.level lid q k :=
  level_congr fun f hf => h f (levelFields_ok lid q k f hf) (ha f hf)

/-- Writes loop level `k`. -/
def State.setLevel (lid : Nat) (q : Queue) (k : Nat) (v : Nat × Nat × Nat) (s : State) : State :=
  s.setF (qRemain lid q k) v.1 |>.setF (qForever lid q k) v.2.1 |>.setF (qStart lid q k) v.2.2

theorem copyLevel_eq (lid : Nat) (q : Queue) (j k : Nat) (s : State) :
    copyLevel lid q j k s = s.setLevel lid q k (s.level lid q j) := rfl

theorem clearLevel_eq (lid : Nat) (q : Queue) (k : Nat) (s : State) : clearLevel lid q k s = s.setLevel lid q k (0, 0, 0) := rfl

theorem regsOnly_setLevel (lid : Nat) (q : Queue) (k : Nat) (v : Nat × Nat × Nat) (s : State) :
    RegsOnly (levelFields lid q k) s (s.setLevel lid q k v) :=
  ((regsOnly_setF _ _ (qRemain_ok ..) (by simp [levelFields])).trans (regsOnly_setF _ _ (qForever_ok ..) (by simp [levelFields]))).trans
    (regsOnly_setF _ _ (qStart_ok ..) (by simp [levelFields]))

theorem level_setLevel_same {v : Nat × Nat × Nat} (hv : LevelOk v) (s : State) : (s.setLevel lid q k v).level lid q k = v := by
  obtain ⟨hremain, hforever, hstart⟩ := hv
  have happ : (qRemain lid q k).Apart (qForever lid q k) ∧ (qRemain lid q k).Apart (qStart lid q k) ∧
      (qForever lid q k).Apart (qStart lid q k) := by
    simp only [Fld.Apart, Fld.base, qRemain, qForever, qStart]
    omega
  obtain ⟨hrf, hrs, hfs⟩ := happ
  rw [State.level, State.setLevel, getF_setF_apart _ _ _ (qRemain_ok ..) (qStart_ok ..) hrs,
    getF_setF_apart _ _ _ (qRemain_ok ..) (qForever_ok ..) hrf, getF_setF_of_lt (qRemain_ok ..) hremain,
    getF_setF_apart _ _ _ (qForever_ok ..) (qStart_ok ..) hfs, getF_setF_of_lt (qForever_ok ..) hforever,
    getF_setF_of_lt (qStart_ok ..) hstart]

theorem level_setLevel_ne (h : k ≠ j) (v : Nat × Nat × Nat) (s : State) :
    (s.setLevel lid q j v).level lid q k = s.level lid q k :=
  level_congr_of_onlyFields (regsOnly_setLevel lid q j v s).2 (levelFields_apart h)

theorem level_copyLevel_same (lid : Nat) (q : Queue) (j k : Nat) (s : State) :
    (copyLevel lid q j k s).level lid q k = s.level lid q j := by
  rw [copyLevel_eq, level_setLevel_same (levelOk_level ..)]

theorem level_copyLevel_ne (h : k ≠ j) (i : Nat) (s : State) : (copyLevel lid q i j s).level lid q k = s.level lid q k := by
  rw [copyLevel_eq, level_setLevel_ne h]

theorem levelFields_sub (hk : k < 4) : ∀ f ∈ levelFields lid q k, f ∈ loopFields lid q := by
  intro f hf
  simp only [loopFields, List.mem_cons, List.mem_flatMap, List.mem_range]
  exact .inr ⟨k, hk, by simpa [levelFields] using hf⟩

theorem regsOnly_setLevel_loop (hk : k < 4) (v : Nat × Nat × Nat) (s : State) :
    RegsOnly (loopFields lid q) s (s.setLevel lid q k v) := (regsOnly_setLevel lid q k v s).mono (levelFields_sub hk)

theorem regsOnly_copyLevel (hk : k < 4) (j : Nat) (s : State) : RegsOnly (loopFields lid q) s (copyLevel lid q j k s) := by
  rw [copyLevel_eq]
  exact regsOnly_setLevel_loop hk _ s

theorem qDepth_setLevel (hk : k < 4) (v : Nat × Nat × Nat) (s : State) :
    (s.setLevel lid q k v).getF (qDepth lid q) = s.getF (qDepth lid q) :=
  (regsOnly_setLevel lid q k v s).2 _ (qDepth_ok ..) (levelFields_apart_of_outside hk (.inr (.inl rfl)))

/-! ### A push and a pop (R222) -/

/-- DEPTH written. -/
theorem level_setDepth (hk : k < 4) (n : Nat) (s : State) : (s.setF (qDepth lid q) n).level lid q k = s.level lid q k :=
  level_congr fun f hf => getF_setF_apart _ _ _ (levelFields_ok lid q k f hf) (qDepth_ok ..)
    (levelFields_apart_of_outside hk (.inr (.inl rfl)) f hf).symm

/-- The levels move out by one. -/
def State.pushedLevels (lid : Nat) (q : Queue) (s : State) : State :=
  copyLevel lid q 0 1 (copyLevel lid q 1 2 (copyLevel lid q 2 3 s))

theorem level_pushedLevels (hk : k < 3) (s : State) : (s.pushedLevels lid q).level lid q (k + 1) = s.level lid q k := by
  rw [State.pushedLevels]
  obtain rfl | rfl | rfl : k = 0 ∨ k = 1 ∨ k = 2 := by omega
  · rw [level_copyLevel_same, level_copyLevel_ne (by decide), level_copyLevel_ne (by decide)]
  · rw [level_copyLevel_ne (by decide), level_copyLevel_same, level_copyLevel_ne (by decide)]
  · rw [level_copyLevel_ne (by decide), level_copyLevel_ne (by decide), level_copyLevel_same]

theorem regsOnly_pushedLevels (lid : Nat) (q : Queue) (s : State) : RegsOnly (loopFields lid q) s (s.pushedLevels lid q) :=
  ((regsOnly_copyLevel (by decide) _ _).trans (regsOnly_copyLevel (by decide) _ _)).trans (regsOnly_copyLevel (by decide) _ _)

theorem qDepth_pushedLevels (lid : Nat) (q : Queue) (s : State) : (s.pushedLevels lid q).getF (qDepth lid q) = s.getF (qDepth lid q) := by
  rw [State.pushedLevels, copyLevel_eq, qDepth_setLevel (by decide), copyLevel_eq, qDepth_setLevel (by decide), copyLevel_eq,
    qDepth_setLevel (by decide)]

theorem pushLevel_eq (lid : Nat) (q : Queue) (count : Nat) (forever : Bool) (start : Nat) (s : State) :
    pushLevel lid q count forever start s =
      ((s.pushedLevels lid q).setLevel lid q 0 (count, forever.toNat, start)).setF (qDepth lid q) (s.getF (qDepth lid q) + 1) := by
  rw [← qDepth_pushedLevels lid q s]
  rfl

/-- A push leaves the new level innermost, and the others one further out. -/
theorem pushLevel_effect {count start : Nat} {forever : Bool} (hv : LevelOk (count, forever.toNat, start))
    (hd : s.getF (qDepth lid q) < 4) :
    (pushLevel lid q count forever start s).getF (qDepth lid q) = s.getF (qDepth lid q) + 1 ∧
      (pushLevel lid q count forever start s).level lid q 0 = (count, forever.toNat, start) ∧
      (∀ k, k < 3 → (pushLevel lid q count forever start s).level lid q (k + 1) = s.level lid q k) ∧
      RegsOnly (loopFields lid q) s (pushLevel lid q count forever start s) := by
  rw [pushLevel_eq]
  refine ⟨getF_setF_of_lt (qDepth_ok ..) (by show _ < 8; omega) _, ?_, fun k hk => ?_, ?_⟩
  · rw [level_setDepth (by decide), level_setLevel_same hv]
  · rw [level_setDepth (by omega), level_setLevel_ne (by omega), level_pushedLevels hk]
  · exact ((regsOnly_pushedLevels lid q s).trans (regsOnly_setLevel_loop (by decide) _ _)).trans
      (regsOnly_setF _ _ (qDepth_ok ..) (by simp [loopFields]))

/-- The levels move in by one. -/
def State.poppedLevels (lid : Nat) (q : Queue) (s : State) : State :=
  clearLevel lid q 3 (copyLevel lid q 3 2 (copyLevel lid q 2 1 (copyLevel lid q 1 0 s)))

/-- A level, empty past the fourth. -/
def State.levelOr (s : State) (lid : Nat) (q : Queue) (k : Nat) : Nat × Nat × Nat := if k < 4 then s.level lid q k else (0, 0, 0)

theorem level_poppedLevels (hk : k < 4) (s : State) : (s.poppedLevels lid q).level lid q k = s.levelOr lid q (k + 1) := by
  rw [State.poppedLevels, clearLevel_eq]
  obtain rfl | rfl | rfl | rfl : k = 0 ∨ k = 1 ∨ k = 2 ∨ k = 3 := by omega
  · rw [level_setLevel_ne (by decide), level_copyLevel_ne (by decide), level_copyLevel_ne (by decide), level_copyLevel_same]; rfl
  · rw [level_setLevel_ne (by decide), level_copyLevel_ne (by decide), level_copyLevel_same, level_copyLevel_ne (by decide)]; rfl
  · rw [level_setLevel_ne (by decide), level_copyLevel_same, level_copyLevel_ne (by decide), level_copyLevel_ne (by decide)]; rfl
  · rw [level_setLevel_same ⟨by decide, by decide, by decide⟩]; rfl

theorem regsOnly_poppedLevels (lid : Nat) (q : Queue) (s : State) : RegsOnly (loopFields lid q) s (s.poppedLevels lid q) := by
  rw [State.poppedLevels, clearLevel_eq]
  exact (((regsOnly_copyLevel (by decide) _ _).trans (regsOnly_copyLevel (by decide) _ _)).trans
    (regsOnly_copyLevel (by decide) _ _)).trans (regsOnly_setLevel_loop (by decide) _ _)

theorem qDepth_poppedLevels (lid : Nat) (q : Queue) (s : State) : (s.poppedLevels lid q).getF (qDepth lid q) = s.getF (qDepth lid q) := by
  rw [State.poppedLevels, clearLevel_eq, qDepth_setLevel (by decide), copyLevel_eq, qDepth_setLevel (by decide), copyLevel_eq,
    qDepth_setLevel (by decide), copyLevel_eq, qDepth_setLevel (by decide)]

theorem popLevel_eq (lid : Nat) (q : Queue) (s : State) :
    popLevel lid q s = (s.poppedLevels lid q).setF (qDepth lid q) (s.getF (qDepth lid q) - 1) := by
  rw [← qDepth_poppedLevels lid q s]
  rfl

/-- A pop takes the innermost level away. -/
theorem popLevel_effect (lid : Nat) (q : Queue) (s : State) :
    (popLevel lid q s).getF (qDepth lid q) = s.getF (qDepth lid q) - 1 ∧
      (∀ k, k < 4 → (popLevel lid q s).level lid q k = s.levelOr lid q (k + 1)) ∧
      RegsOnly (loopFields lid q) s (popLevel lid q s) := by
  have hlt : s.getF (qDepth lid q) < 8 := getF_lt (qDepth lid q)
  rw [popLevel_eq]
  refine ⟨getF_setF_of_lt (qDepth_ok ..) (by show _ < 8; omega) _, fun k hk => ?_, ?_⟩
  · rw [level_setDepth hk, level_poppedLevels hk]
  · exact (regsOnly_poppedLevels lid q s).trans (regsOnly_setF _ _ (qDepth_ok ..) (by simp [loopFields]))

/-- `n` pops take the `n` innermost levels away. -/
theorem popLevels_effect (lid : Nat) (q : Queue) (n : Nat) (s : State) :
    (popLevels lid q n s).getF (qDepth lid q) = s.getF (qDepth lid q) - n ∧
      (∀ k, k < 4 → (popLevels lid q n s).level lid q k = s.levelOr lid q (k + n)) ∧
      RegsOnly (loopFields lid q) s (popLevels lid q n s) := by
  induction n generalizing s with
  | zero => exact ⟨rfl, fun k hk => (if_pos hk).symm, .refl ..⟩
  | succ n ih =>
    obtain ⟨hdepth, hlevel, hregs⟩ := popLevel_effect lid q s
    obtain ⟨ihdepth, ihlevel, ihregs⟩ := ih (popLevel lid q s)
    refine ⟨by rw [popLevels, ihdepth, hdepth]; omega, fun k hk => ?_, hregs.trans ihregs⟩
    rw [popLevels, ihlevel k hk, State.levelOr]
    split
    · next h => rw [hlevel _ h, Nat.add_assoc]
    · next h => rw [State.levelOr, if_neg (by omega)]

theorem sameLevel_of_eq (h : t.level lid q k = s.levelOr lid q j) : SameLevel lid q k t j s := by
  rw [State.levelOr] at h
  split at h <;> next hj => simpa [SameLevel, hj, State.level] using h

theorem sameLevel_of_lt (hj : j < 4) (h : t.level lid q k = s.level lid q j) : SameLevel lid q k t j s :=
  sameLevel_of_eq (h.trans (if_pos hj).symm)

/-! ### What leaves the levels as they are -/

theorem loopFields_apart (hf : f = qPc lid q ∨ f = qOps lid q) : ∀ g ∈ loopFields lid q, f.Apart g := by
  intro g hg
  rw [loopFields, List.mem_cons, List.mem_flatMap] at hg
  obtain rfl | ⟨k, hk, hmem⟩ := hg
  · rcases hf with rfl | rfl <;> simp only [Fld.Apart, Fld.base, qPc, qDepth, qOps] <;> omega
  · exact levelFields_apart_of_outside (List.mem_range.1 hk) (hf.imp_right .inr) g hmem

theorem level_of_pcOps (h : RegsOnly [qPc lid q, qOps lid q] s t) (hk : k < 4) : t.level lid q k = s.level lid q k :=
  level_congr_of_onlyFields h.2 fun f hf => by
    simpa using ⟨(levelFields_apart_of_outside hk (.inl rfl) f hf).symm, (levelFields_apart_of_outside hk (.inr (.inr rfl)) f hf).symm⟩

theorem qDepth_of_pcOps (h : RegsOnly [qPc lid q, qOps lid q] s t) : t.getF (qDepth lid q) = s.getF (qDepth lid q) :=
  h.2 _ (qDepth_ok ..) (List.forall_mem_cons.2 ⟨by simp only [Fld.Apart, Fld.base, qPc, qDepth]; omega,
    List.forall_mem_singleton.2 (by simp only [Fld.Apart, Fld.base, qDepth, qOps]; omega)⟩)

/-- An op that goes on elsewhere is counted (R213, R222). -/
theorem goto_counted {i : Nat} (hi : i < 4096) (h : OnlyFields l s t) (hl : ∀ g ∈ l, (qPc lid q).Apart g ∧ (qOps lid q).Apart g) :
    ((t.goto lid q i).incF (qOps lid q) 1).getF (qPc lid q) = i ∧
      ((t.goto lid q i).incF (qOps lid q) 1).getF (qOps lid q) = satAdd 64 (s.getF (qOps lid q)) 1 ∧
      RegsOnly [qPc lid q, qOps lid q] t ((t.goto lid q i).incF (qOps lid q) 1) := by
  have happ : (qPc lid q).Apart (qOps lid q) := by simp only [Fld.Apart, Fld.base, qPc, qOps]; omega
  rw [goto_inside hi]
  refine ⟨?_, ?_, (regsOnly_setF _ _ (qPc_ok ..) (by simp)).trans (regsOnly_incF _ _ (qOps_ok ..) (by simp))⟩
  · rw [getF_incF_apart _ _ _ (qPc_ok ..) (qOps_ok ..) happ, getF_setF_of_lt (qPc_ok ..) hi]
  · rw [getF_incF_same _ _ (qOps_ok ..), getF_setF_apart _ _ _ (qOps_ok ..) (qPc_ok ..) happ.symm,
      h _ (qOps_ok ..) fun g hg => (hl g hg).2]
    rfl

end LoopLevels

end Sys2Proof.Machine
end
section
/-!
PROOFS. Scope: LOOP, ENDLOOP, NOP, HALT and SELECT at the head of their queue (R221-R223).
-/
namespace Sys2Proof.Machine

section LoopOps

variable {s t : State} {lid i : Nat} {q : Queue} {op : OpWord}

theorem loopCount_lt (lid : Nat) (op : OpWord) (s : State) : loopCount lid op s < 2 ^ 17 := by
  have hctr : s.getF (cCtr lid (bitsOf op 17 6)) < 65536 := getF_lt (cCtr lid (bitsOf op 17 6))
  have hcount : bitsOf op 0 17 < 2 ^ 17 := bitsOf_lt op 0 17
  rw [loopCount]
  split <;> omega

/-- What LOOP does once its COUNT and its END are found in order (R222). -/
def loopBody (lid : Nat) (q : Queue) (op : OpWord) (s : State) : State :=
  if loopCount lid op s = 0 && !bitOf op 112 then (s.goto lid q (bitsOf op 23 12 + 1)).incF (qOps lid q) 1
  else if 4 ≤ s.getF (qDepth lid q) then s.opFault lid q fSyncLoop
  else (pushLevel lid q (loopCount lid op s) (bitOf op 112) (s.getF (qPc lid q) + 1) s).retire lid q

theorem loopOp_of_bad_count (hhead : AtHead s lid q op) (hop : opOpcode op = 0x06) (hres : opReserved [(0, 35), (112, 2)] op = false)
    (hctr : bitOf op 113 = false) (hforever : bitOf op 112 = false) (hcount : 65536 < bitsOf op 0 17) :
    loopOp lid q s = s.opFault lid q fSyncOperand := by
  rw [loopOp, ← hop, control_of_atHead hhead hres]
  simp [hctr, hforever, hcount]

/-- Where an END inside the region and free of errors is read (R222). -/
theorem loopOp_of_end (hhead : AtHead s lid q op) (hop : opOpcode op = 0x06) (hres : opReserved [(0, 35), (112, 2)] op = false)
    (hcount : (bitOf op 113 || bitOf op 112 || decide (bitsOf op 0 17 ≤ 65536)) = true)
    (hregion : s.inRegion lid q (bitsOf op 23 12) = true) (hclean : (s.core lid).op.badWords 8 (16 * bitsOf op 23 12) 16 = []) :
    loopOp lid q s = if opOpcode (s.opWord lid (bitsOf op 23 12)) ≠ 0x07 then s.opFault lid q fSyncPc else loopBody lid q op s := by
  have hbad : s.rdBad lid .op (16 * bitsOf op 23 12) 16 = false := rdBad_of_clean hclean
  have hin : (!bitOf op 113 && !bitOf op 112 && decide (65536 < bitsOf op 0 17)) = false := by
    simp only [Bool.or_eq_true, decide_eq_true_eq] at hcount
    rcases hcount with (hc | hc) | hc
    · simp [hc]
    · simp [hc]
    · simp [Nat.not_lt.2 hc]
  rw [loopOp, ← hop, control_of_atHead hhead hres]
  simp only [hin, hregion, hbad, Bool.not_true, if_neg Bool.false_ne_true, bne_iff_ne]
  rfl

/-- A LOOP that repeats its body no time goes on past END (R222). -/
theorem loopBody_of_skip (hc : loopCount lid op s = 0) (hforever : bitOf op 112 = false) :
    loopBody lid q op s = (s.goto lid q (bitsOf op 23 12 + 1)).incF (qOps lid q) 1 := by
  simp [loopBody, hc, hforever]

theorem loopBody_of_enter (h : loopCount lid op s ≠ 0 ∨ bitOf op 112 = true) : loopBody lid q op s =
    if 4 ≤ s.getF (qDepth lid q) then s.opFault lid q fSyncLoop
    else (pushLevel lid q (loopCount lid op s) (bitOf op 112) (s.getF (qPc lid q) + 1) s).retire lid q := by
  have hno : (decide (loopCount lid op s = 0) && !bitOf op 112) = false := by
    rcases h with h | h <;> simp [h]
  rw [loopBody, hno, if_neg Bool.false_ne_true]

theorem endloopOp_of_atHead (hhead : AtHead s lid q op) (hop : opOpcode op = 0x07) (hz : bitsOf op 0 118 = 0) :
    endloopOp lid q s = if s.getF (qDepth lid q) = 0 then s.opFault lid q fSyncLoop
      else if s.getF (qForever lid q 0) = 1 then (s.goto lid q (s.getF (qStart lid q 0))).incF (qOps lid q) 1
      else if 1 < s.getF (qRemain lid q 0) then
        ((s.setF (qRemain lid q 0) (s.getF (qRemain lid q 0) - 1)).goto lid q (s.getF (qStart lid q 0))).incF (qOps lid q) 1
      else (popLevel lid q s).retire lid q := by
  have hlt : s.getF (qForever lid q 0) < 2 := getF_lt (qForever lid q 0)
  have hbit : (s.getF (qForever lid q 0) != 0) = decide (s.getF (qForever lid q 0) = 1) := by
    rw [Bool.eq_iff_iff, bne_iff_ne, decide_eq_true_eq]
    omega
  rw [endloopOp, ← hop, control_of_atHead hhead (opReserved_of_zero hz _)]
  simp only [State.onF, hbit, decide_eq_true_eq]

theorem qRemain_apart_pcOps (lid : Nat) (q : Queue) : (qRemain lid q 0).Apart (qPc lid q) ∧ (qRemain lid q 0).Apart (qOps lid q) := by
  simp only [Fld.Apart, Fld.base, qRemain, qPc, qOps]
  omega

/-- The levels after an op that changes them and then retires. -/
theorem levels_retire {u : State} (hin : s.getF (qPc lid q) < 4095) (hregs : RegsOnly (loopFields lid q) s u) :
    Retired lid q s (u.retire lid q) ∧ (u.retire lid q).getF (qDepth lid q) = u.getF (qDepth lid q) ∧
      (∀ k, k < 4 → (u.retire lid q).level lid q k = u.level lid q k) ∧
      RegsOnly ([qPc lid q, qOps lid q] ++ loopFields lid q) s (u.retire lid q) := by
  obtain ⟨hret, hrest⟩ := retire_of_onlyFields hregs.2
    (fun g hg => ⟨loopFields_apart (.inl rfl) g hg, loopFields_apart (.inr rfl) g hg⟩) hin
  exact ⟨hret, qDepth_of_pcOps hrest, fun k hk => level_of_pcOps hrest hk, (hregs.mono (by simp +contextual)).trans (hrest.mono (by simp))⟩

theorem levels_goto {u : State} (hi : i < 4096) (hregs : RegsOnly (loopFields lid q) s u) :
    ((u.goto lid q i).incF (qOps lid q) 1).getF (qPc lid q) = i ∧
      ((u.goto lid q i).incF (qOps lid q) 1).getF (qOps lid q) = satAdd 64 (s.getF (qOps lid q)) 1 ∧
      ((u.goto lid q i).incF (qOps lid q) 1).getF (qDepth lid q) = u.getF (qDepth lid q) ∧
      (∀ k, k < 4 → ((u.goto lid q i).incF (qOps lid q) 1).level lid q k = u.level lid q k) ∧
      RegsOnly ([qPc lid q, qOps lid q] ++ loopFields lid q) s ((u.goto lid q i).incF (qOps lid q) 1) := by
  obtain ⟨hpc, hops, hrest⟩ := goto_counted hi hregs.2
    fun g hg => ⟨loopFields_apart (.inl rfl) g hg, loopFields_apart (.inr rfl) g hg⟩
  exact ⟨hpc, hops, qDepth_of_pcOps hrest, fun k hk => level_of_pcOps hrest hk,
    (hregs.mono (by simp +contextual)).trans (hrest.mono (by simp))⟩

/-- ENDLOOP goes back to the start of its level, with the count that is left (R222). -/
theorem branch_effect {n : Nat} (hn : n < 2 ^ 17) (hi : i < 4096) {t : State}
    (ht : t = ((s.setF (qRemain lid q 0) n).goto lid q i).incF (qOps lid q) 1) :
    t.getF (qPc lid q) = i ∧ t.getF (qOps lid q) = satAdd 64 (s.getF (qOps lid q)) 1 ∧ t.getF (qRemain lid q 0) = n ∧
      RegsOnly [qPc lid q, qOps lid q, qRemain lid q 0] s t := by
  obtain ⟨hpc, hops⟩ := qRemain_apart_pcOps lid q
  have hset : RegsOnly [qRemain lid q 0] s (s.setF (qRemain lid q 0) n) := regsOnly_setF _ _ (qRemain_ok ..) (by simp)
  obtain ⟨hat, hcounted, hregs⟩ := goto_counted hi hset.2 (by simpa using ⟨hpc.symm, hops.symm⟩)
  subst ht
  refine ⟨hat, hcounted, ?_, (hset.mono (by simp)).trans (hregs.mono (by simp))⟩
  rw [getF_of_retire hregs (qRemain_ok ..) ⟨hpc.symm, hops.symm⟩, getF_setF_of_lt (qRemain_ok ..) hn]

/-- LOOP opens a level, and the others move out (R222). -/
theorem push_retire (hin : s.getF (qPc lid q) < 4095) (hd : s.getF (qDepth lid q) < 4) {count : Nat} (hcount : count < 2 ^ 17)
    (forever : Bool) {t : State} (ht : t = (pushLevel lid q count forever (s.getF (qPc lid q) + 1) s).retire lid q) :
    Retired lid q s t ∧ t.getF (qDepth lid q) = s.getF (qDepth lid q) + 1 ∧ t.getF (qRemain lid q 0) = count ∧
      t.getF (qForever lid q 0) = forever.toNat ∧ t.getF (qStart lid q 0) = s.getF (qPc lid q) + 1 ∧
      (∀ k, k < 3 → SameLevel lid q (k + 1) t k s) ∧ RegsOnly ([qPc lid q, qOps lid q] ++ loopFields lid q) s t := by
  have hv : LevelOk (count, forever.toNat, s.getF (qPc lid q) + 1) := ⟨hcount, forever.toNat_lt, by show _ + 1 < 4096; omega⟩
  obtain ⟨hdepth, hfirst, hothers, hregs⟩ := pushLevel_effect hv hd
  obtain ⟨hret, hdepth', hlevel, hall⟩ := levels_retire hin hregs
  subst ht
  have hnew := (hlevel 0 (by decide)).trans hfirst
  simp only [State.level, Prod.mk.injEq] at hnew
  obtain ⟨hremain, hforever, hstart⟩ := hnew
  exact ⟨hret, hdepth'.trans hdepth, hremain, hforever, hstart,
    fun k hk => sameLevel_of_lt (by omega) ((hlevel (k + 1) (by omega)).trans (hothers k hk)), hall⟩

end LoopOps

/-- Settles O9: a LOOP is a push of its level, an ENDLOOP a count, a branch or a pop of the innermost one. -/
theorem loopAndEndloop : Obligations.LoopAndEndloop := by
  unfold Obligations.LoopAndEndloop
  intro s lid q op hhead
  have hend : bitsOf op 23 12 < 4096 := bitsOf_lt op 23 12
  have hpc := hhead.inside
  refine ⟨fun hop hres => ⟨fun hctr hforever hcount => ⟨_, guarded_of_lid hhead.core, ?_⟩, fun hcount hregion hclean => ?_⟩,
    fun hop hz => ?_⟩
  · rw [loopOp_of_bad_count hhead hop hres hctr hforever hcount]
    exact opFault_halted lid q (by decide) s
  · have hloop := loopOp_of_end hhead hop hres hcount hregion hclean
    refine ⟨fun hno => ⟨_, guarded_of_lid hhead.core, ?_⟩, fun hyes => ⟨fun hc hforever hlt => ⟨_, guarded_of_lid hhead.core, ?_⟩,
      fun henter hd => ⟨_, guarded_of_lid hhead.core, ?_⟩, fun henter hd => ⟨_, guarded_of_lid hhead.core, ?_⟩⟩⟩
    · rw [hloop, if_pos hno]
      exact opFault_halted lid q (by decide) s
    · rw [hloop, if_neg (not_not.2 hyes), loopBody_of_skip hc hforever]
      exact goto_counted (by omega) (.refl [] s) (by simp)
    · rw [hloop, if_neg (not_not.2 hyes), loopBody_of_enter henter, if_neg (by omega)]
      exact push_retire hpc hd (loopCount_lt lid op s) (bitOf op 112) rfl
    · rw [hloop, if_neg (not_not.2 hyes), loopBody_of_enter henter, if_pos hd]
      exact opFault_halted lid q (by decide) s
  · have hendloop := endloopOp_of_atHead hhead hop hz
    have hstart : s.getF (qStart lid q 0) < 4096 := getF_lt (qStart lid q 0)
    refine ⟨fun hd => ⟨_, guarded_of_lid hhead.core, ?_⟩, fun hd => ⟨fun hmore => ⟨_, guarded_of_lid hhead.core, ?_⟩,
      fun hforever hlast => ⟨_, guarded_of_lid hhead.core, ?_⟩⟩⟩
    · rw [hendloop, if_pos hd]
      exact opFault_halted lid q (by decide) s
    · rw [hendloop, if_neg hd]
      by_cases hforever : s.getF (qForever lid q 0) = 1
      · obtain ⟨hpc', hops, hregs⟩ := goto_counted (lid := lid) (q := q) hstart (.refl [] s) (by simp)
        rw [if_pos hforever]
        refine ⟨hpc', hops, ?_, hregs.mono (by simp)⟩
        rw [if_pos hforever, Nat.sub_zero, getF_of_retire hregs (qRemain_ok ..)]
        exact ⟨(qRemain_apart_pcOps lid q).1.symm, (qRemain_apart_pcOps lid q).2.symm⟩
      · have hlt : s.getF (qRemain lid q 0) < 2 ^ 17 := getF_lt (qRemain lid q 0)
        rw [if_neg hforever, if_neg hforever, if_pos (hmore.resolve_left hforever)]
        exact branch_effect (by omega) hstart rfl
    · obtain ⟨hdepth, hlevel, hregs⟩ := popLevel_effect lid q s
      obtain ⟨hret, hdepth', hlevel', hall⟩ := levels_retire hpc hregs
      rw [hendloop, if_neg hd, if_neg (by omega), if_neg (by omega)]
      exact ⟨hret, hdepth'.trans hdepth, fun k hk => sameLevel_of_eq ((hlevel' k hk).trans (hlevel k hk)), hall⟩

theorem nopAndHalt : NopAndHaltRule := by
  unfold NopAndHaltRule
  intro s lid q op hhead hz
  have happ : (qPc lid q).Apart (qState lid q) ∧ (qPc lid q).Apart (qOps lid q) ∧ (qState lid q).Apart (qOps lid q) := by
    simp only [Fld.Apart, Fld.base, qPc, qState, qOps]
    omega
  obtain ⟨hps, hpo, hso⟩ := happ
  refine ⟨fun hop => ⟨_, guarded_of_lid hhead.core, ?_⟩, fun hop => ⟨_, guarded_of_lid hhead.core, ?_⟩⟩
  · rw [nopOp, ← hop, control_of_atHead hhead (opReserved_of_zero hz _)]
    exact ⟨retire_retired hhead.inside, retire_regsOnly hhead.inside⟩
  · rw [haltOp, ← hop, control_of_atHead hhead (opReserved_of_zero hz _)]
    refine ⟨?_, ?_, ?_, (regsOnly_setF _ _ (qState_ok ..) (by simp)).trans (regsOnly_incF _ _ (qOps_ok ..) (by simp))⟩
    · rw [getF_incF_apart _ _ _ (qState_ok ..) (qOps_ok ..) hso, getF_setF_of_lt (qState_ok ..) (show 3 < 8 by decide)]
    · rw [getF_incF_apart _ _ _ (qPc_ok ..) (qOps_ok ..) hpo, getF_setF_apart _ _ _ (qPc_ok ..) (qState_ok ..) hps]
    · rw [getF_incF_same _ _ (qOps_ok ..), getF_setF_apart _ _ _ (qOps_ok ..) (qState_ok ..) hso.symm]
      rfl

theorem selectBranches : SelectBranchesRule := by
  unfold SelectBranchesRule
  intro s lid q op v w b e hhead hop hres hv
  have hselect : ∀ f, s.control lid q 0x08 [(0, 12)] f = f op s := fun f => by rw [← hop, control_of_atHead hhead hres]
  refine ⟨fun hpast => ⟨_, guarded_of_lid hhead.core, ?_⟩,
    fun hle hw hb hregion hclean he hzero hpop => ⟨_, guarded_of_lid hhead.core, ?_⟩⟩
  · rw [selectOp, hselect]
    simp only [← hv, if_pos hpast]
    exact opFault_halted lid q (by decide) s
  · have hbad : s.rdBad lid .op (16 * w) 16 = false := rdBad_of_clean hclean
    have hnote : s.noteRead lid .op (16 * w) 16 = s := noteRead_of_clean hclean
    have hindex : bitsOf e b 12 < 4096 := bitsOf_lt e b 12
    have hgo : selectOp lid q s = ((popLevels lid q (bitsOf e (b + 12) 3) s).goto lid q (bitsOf e b 12)).incF (qOps lid q) 1 := by
      rw [selectOp, hselect]
      simp only [← hv, ← hw, ← hb, if_neg (Nat.not_lt.2 hle), hregion, hbad, hnote, ← he, hzero, if_neg (Nat.not_lt.2 hpop),
        Bool.not_true, if_neg Bool.false_ne_true]
    obtain ⟨hdepth, hlevel, hregs⟩ := popLevels_effect lid q (bitsOf e (b + 12) 3) s
    obtain ⟨hpc, hops, hdepth', hlevel', hall⟩ := levels_goto hindex hregs
    rw [hgo]
    exact ⟨hpc, hops, hdepth'.trans hdepth, fun k hk => sameLevel_of_eq ((hlevel' k hk).trans (hlevel k hk)), hall⟩

/-- Settles O10: SELECT reads its entry behind it, and its pops take that many levels away. -/
theorem nopHaltAndSelect : Obligations.NopHaltAndSelect := ⟨nopAndHalt, selectBranches⟩

end Sys2Proof.Machine
end
section
/-!
PROOFS. Scope: the faults of a fetch and of a wait that exceeds its limit (R210, R212, R227).
-/
namespace Sys2Proof.Machine

section Fetch

variable {s t u : State} {lid : Nat} {q : Queue} {f : Fld}

/-! ### What reads of core memories count lies outside the queues' registers (R351) -/

/-- The registers of a core's queues keep their values (R238). -/
def QueuesKept (lid : Nat) (s t : State) : Prop :=
  ∀ f : Fld, f.Ok → 8 * (corePage lid + 0x900) ≤ f.base → f.base + f.w ≤ 8 * (corePage lid + 0xA00) → t.getF f = s.getF f

theorem QueuesKept.refl (lid : Nat) (s : State) : QueuesKept lid s s := fun _ _ _ _ => rfl

theorem QueuesKept.trans (h : QueuesKept lid s t) (k : QueuesKept lid t u) : QueuesKept lid s u :=
  fun f hf hlo hhi => (k f hf hlo hhi).trans (h f hf hlo hhi)

theorem QueuesKept.setF (h : QueuesKept lid s t) {g : Fld} (hg : g.Ok)
    (ha : g.base + g.w ≤ 8 * (corePage lid + 0x900) ∨ 8 * (corePage lid + 0xA00) ≤ g.base) (n : Nat) :
    QueuesKept lid s (t.setF g n) := by
  refine h.trans fun f hf hlo hhi => getF_setF_apart f g n hf hg ?_
  rw [Fld.Apart]
  omega

theorem QueuesKept.incF (h : QueuesKept lid s t) {g : Fld} (hg : g.Ok)
    (ha : g.base + g.w ≤ 8 * (corePage lid + 0x900) ∨ 8 * (corePage lid + 0xA00) ≤ g.base) (n : Nat) :
    QueuesKept lid s (t.incF g n) := h.setF hg ha _

/-- The registers of the memory dies and of the host lie below every core's page (R501). -/
theorem below_core (h : f.base + f.w ≤ 8 * 0x01000000) (lid : Nat) :
    f.base + f.w ≤ 8 * (corePage lid + 0x900) ∨ 8 * (corePage lid + 0xA00) ≤ f.base := by
  rw [corePage]
  omega

/-- The fields of one entry of the error log, and the head and the wraps. -/
def logEntry (e : Nat) : List Fld :=
  [ogTick e, ogClass e, ogSource e, ogUnit e, ogPoison e, ogCode e, ogLocation e, rLogHead, rLogWraps, rCorrected, rContained, rPattern]

theorem logEntry_place {e : Nat} (he : e < 1024) : ∀ g ∈ logEntry e, g.Ok ∧ g.base + g.w ≤ 8 * 0x01000000 := by
  simp only [logEntry, List.forall_mem_cons, Fld.Ok, Fld.base, ogTick, ogClass, ogSource, ogUnit, ogPoison, ogCode, ogLocation,
    rLogHead, rLogWraps, rCorrected, rContained, rPattern]
  refine ⟨?_, ?_, ?_, ?_, ?_, ?_, ?_, ?_, ?_, ?_, ?_, ?_, List.forall_mem_nil _⟩ <;> omega

/-- An entry that wraps is counted (R501). -/
def State.logWrap (e : Nat) (s : State) : State := if s.getF (ogClass e) != 0 then s.incF rLogWraps 1 else s

/-- The fields of an entry, and the head behind it. -/
def State.logWrite (e cls src unit : Nat) (poison : Bool) (code loc : Nat) (s : State) : State :=
  s.setF (ogTick e) s.tick |>.setF (ogClass e) cls |>.setF (ogSource e) src |>.setF (ogUnit e) unit
    |>.setF (ogPoison e) poison.toNat |>.setF (ogCode e) code |>.setF (ogLocation e) loc |>.setF rLogHead ((e + 1) % 1024)

/-- The count of an entry's class. -/
def State.logCount (cls : Nat) (s : State) : State :=
  if cls = 1 then s.incF rCorrected 1 else if cls = 2 then s.incF rContained 1 else if cls = 3 then s.incF rPattern 1 else s

theorem log_eq (cls src unit : Nat) (poison : Bool) (code loc : Nat) (s : State) : s.log cls src unit poison code loc =
    ((s.logWrap (s.getF rLogHead)).logWrite (s.getF rLogHead) cls src unit poison code loc).logCount cls := rfl

theorem OnlyFields.setF {l : List Fld} (h : OnlyFields l s t) {g : Fld} (hg : g.Ok) (hm : g ∈ l) (n : Nat) : OnlyFields l s (t.setF g n) :=
  h.trans (onlyFields_setF g n hg hm)

theorem onlyFields_logWrite (e cls src unit : Nat) (poison : Bool) (code loc : Nat) (s : State) :
    OnlyFields (logEntry e) s (s.logWrite e cls src unit poison code loc) := by
  rw [State.logWrite]
  exact (((((((onlyFields_setF _ _ (by simp [Fld.Ok, ogTick]) (by simp [logEntry])).setF (by simp [Fld.Ok, ogClass])
    (by simp [logEntry]) _).setF (by simp [Fld.Ok, ogSource]) (by simp [logEntry]) _).setF (by simp [Fld.Ok, ogUnit])
    (by simp [logEntry]) _).setF (by simp [Fld.Ok, ogPoison]) (by simp [logEntry]) _).setF (by simp [Fld.Ok, ogCode])
    (by simp [logEntry]) _).setF (by simp [Fld.Ok, ogLocation]) (by simp [logEntry]) _).setF (by simp [Fld.Ok, rLogHead])
    (by simp [logEntry]) _

theorem onlyFields_logWrap (e : Nat) (s : State) : OnlyFields (logEntry e) s (s.logWrap e) := by
  rw [State.logWrap]
  split
  · exact onlyFields_setF _ _ (by simp [Fld.Ok, rLogWraps]) (by simp [logEntry])
  · exact .refl _ s

theorem onlyFields_logCount (e cls : Nat) (s : State) : OnlyFields (logEntry e) s (s.logCount cls) := by
  rw [State.logCount]
  split
  · exact onlyFields_setF _ _ (by simp [Fld.Ok, rCorrected]) (by simp [logEntry])
  split
  · exact onlyFields_setF _ _ (by simp [Fld.Ok, rContained]) (by simp [logEntry])
  split
  · exact onlyFields_setF _ _ (by simp [Fld.Ok, rPattern]) (by simp [logEntry])
  · exact .refl _ s

/-- An entry of the error log changes its own fields and the log's counters (R501). -/
theorem onlyFields_log (cls src unit : Nat) (poison : Bool) (code loc : Nat) (s : State) :
    OnlyFields (logEntry (s.getF rLogHead)) s (s.log cls src unit poison code loc) := by
  rw [log_eq]
  exact ((onlyFields_logWrap _ s).trans (onlyFields_logWrite _ _ _ _ _ _ _ _)).trans (onlyFields_logCount _ _ _)

theorem OnlyFields.queuesKept {l : List Fld} (h : OnlyFields l s t)
    (hl : ∀ g ∈ l, g.base + g.w ≤ 8 * (corePage lid + 0x900) ∨ 8 * (corePage lid + 0xA00) ≤ g.base) : QueuesKept lid s t := by
  refine fun f hf hlo hhi => h f hf fun g hg => ?_
  have := hl g hg
  rw [Fld.Apart]
  omega

theorem queuesKept_log (lid cls src unit : Nat) (poison : Bool) (code loc : Nat) (s : State) :
    QueuesKept lid s (s.log cls src unit poison code loc) :=
  (onlyFields_log cls src unit poison code loc s).queuesKept fun g hg =>
    below_core (logEntry_place (getF_lt rLogHead) g hg).2 lid

theorem queuesKept_countCorrected (lid : Nat) (m : CoreMem) (w : Nat) (s : State) : QueuesKept lid s (s.countCorrected lid m w) := by
  rw [State.countCorrected]
  refine ((QueuesKept.refl lid s).incF ?_ ?_ 1).trans (queuesKept_log _ _ _ _ _ _ _ _)
  · cases m <;> simp [corrFld, Fld.Ok, cLaceCorr, cTileCorr, cOpCorr]
  · cases m <;> simp only [corrFld, Fld.base, cLaceCorr, cTileCorr, cOpCorr, corePage] <;> omega

theorem queuesKept_modCore (lid i : Nat) (g : Core → Core) (s : State) : QueuesKept lid s (s.modCore i g) := fun _ _ _ _ => rfl

theorem queuesKept_noteWord (m : CoreMem) (w : Nat) (s : State) : QueuesKept lid s (s.noteWord lid m w) := by
  have herr : ∀ (poison : Bool) (loc : Nat), QueuesKept lid s ((s.incF (cUncorr lid) 1).log 2 (cmSource m) lid poison 0 loc) :=
    fun poison loc => ((QueuesKept.refl lid s).incF (by simp [Fld.Ok, cUncorr])
      (by simp only [Fld.base, cUncorr, corePage]; omega) 1).trans (queuesKept_log _ _ _ _ _ _ _ _)
  have hpoison : 8 * (corePage lid + 0xA00) ≤ (cLacePoison lid).base ∨ (cLacePoison lid).base + (cLacePoison lid).w ≤ 8 * (corePage lid + 0x900) := by
    simp only [Fld.base, cLacePoison, corePage]
    omega
  unfold State.noteWord
  split
  · exact .refl lid s
  · dsimp only
    split
    · exact .refl lid s
    split
    · exact (queuesKept_modCore _ _ _ _).trans (queuesKept_countCorrected _ _ _ _)
    · exact queuesKept_countCorrected _ _ _ _
  · dsimp only
    split
    · exact (herr _ _).setF (by simp [Fld.Ok, cLacePoison]) hpoison.symm 1
    · exact herr _ _

theorem queuesKept_noteRead (m : CoreMem) (a n : Nat) (s : State) : QueuesKept lid s (s.noteRead lid m a n) := by
  rw [State.noteRead, forAll]
  generalize ((s.core lid).mem m).badWords (cmWb m) a n = l
  induction l generalizing s with
  | nil => exact .refl lid s
  | cons w l ih => exact (queuesKept_noteWord m w s).trans (ih _)

theorem qPc_noteRead (lid : Nat) (q : Queue) (m : CoreMem) (a n : Nat) (s : State) :
    (s.noteRead lid m a n).getF (qPc lid q) = s.getF (qPc lid q) := by
  have := queue_num_lt q
  refine queuesKept_noteRead m a n s _ (qPc_ok ..) ?_ ?_ <;> simp only [Fld.base, qPc] <;> omega

/-! ### The fetch of an op (R210, R212) -/

theorem issue_of_outside (hi : s.issues lid q = true) (hr : s.inRegion lid q (s.getF (qPc lid q)) = false) (code : Nat)
    (g : OpWord → State → State) : s.issue lid q code g = s.opFault lid q fSyncPc := by
  simp [State.issue, State.issueOp, hi, hr]

theorem issue_of_poison (hi : s.issues lid q = true) (hr : s.inRegion lid q (s.getF (qPc lid q)) = true)
    (hp : q.num ∉ (s.core lid).past) (hbad : s.rdBad lid .op (16 * s.getF (qPc lid q)) 16 = true) (code : Nat)
    (g : OpWord → State → State) :
    s.issue lid q code g = (s.noteRead lid .op (16 * s.getF (qPc lid q)) 16).opFault lid q fSyncPoison := by
  simp [State.issue, State.issueOp, hi, hr, hp, hbad]

theorem issue_of_wrong_op (hi : s.issues lid q = true) (hr : s.inRegion lid q (s.getF (qPc lid q)) = true)
    (hp : q.num ∉ (s.core lid).past) (hclean : (s.core lid).op.badWords 8 (16 * s.getF (qPc lid q)) 16 = [])
    (hwrong : opQueue (s.opWord lid (s.getF (qPc lid q))) ≠ q.num ∨ queueHas q (opOpcode (s.opWord lid (s.getF (qPc lid q)))) = false)
    (code : Nat) (g : OpWord → State → State) : s.issue lid q code g = s.opFault lid q fSyncOpcode := by
  have hbad : s.rdBad lid .op (16 * s.getF (qPc lid q)) 16 = false := rdBad_of_clean hclean
  have hnote : s.noteRead lid .op (16 * s.getF (qPc lid q)) 16 = s := noteRead_of_clean hclean
  have hno : (opQueue (s.opWord lid (s.getF (qPc lid q))) != q.num || !queueHas q (opOpcode (s.opWord lid (s.getF (qPc lid q))))) = true := by
    simpa using hwrong
  rw [State.issue, State.issueOp]
  simp [hi, hr, hp, hbad, hnote, -Bool.or_eq_true, hno]

theorem qPc_of_halted {c : Nat} (h : Halted lid q c s t) : t.getF (qPc lid q) = s.getF (qPc lid q) := by
  refine h.only _ (qPc_ok ..) ?_
  simp only [List.forall_mem_cons, Fld.Apart, Fld.base, qPc, qState, qFaultCode, qFaultPc]
  refine ⟨?_, ?_, ?_, List.forall_mem_nil _⟩ <;> omega

/-! ### The watchdog of a wait (R227) -/

theorem syncWatchdogOp_of_owner {p : Nat} (ho : s.owner lid = some p) (hrun : s.getF (ppState p) = 1)
    (hwait : s.getF (qState lid q) = 2) : syncWatchdogOp lid q s =
      if (s.part p).hold.isNone && s.getF (qWdog lid q) != 0 && !bitOf (s.opWord lid (s.getF (qPc lid q))) 112 &&
        decide (s.getF (qWdog lid q) ≤ s.getF (qWticks lid q)) then s.opFault lid q fSyncWatchdog else s := by
  simp [syncWatchdogOp, ho, hrun, hwait]

end Fetch

theorem fetchFaults : FetchFaultsRule := by
  unfold FetchFaultsRule
  intro s lid q hlid hissues
  refine ⟨fun hout => ⟨_, guarded_of_lid hlid, ?_⟩, fun hin hpast => ⟨fun hbad => ⟨_, guarded_of_lid hlid, ?_⟩,
    fun hclean hwrong => ⟨_, guarded_of_lid hlid, ?_⟩⟩⟩
  · rw [nopOp, State.control, issue_of_outside hissues hout]
    exact opFault_halted lid q (by decide) s
  · have hhalt := opFault_halted lid q (code := fSyncPoison) (by decide) (s.noteRead lid .op (16 * s.getF (qPc lid q)) 16)
    rw [nopOp, State.control, issue_of_poison hissues hin hpast hbad]
    exact ⟨hhalt.state, hhalt.code, (qPc_of_halted hhalt).trans (qPc_noteRead ..)⟩
  · rw [nopOp, State.control, issue_of_wrong_op hissues hin hpast hclean hwrong]
    exact opFault_halted lid q (by decide) s

theorem watchdogFires : WatchdogFiresRule := by
  unfold WatchdogFiresRule
  intro s lid q p hlid hown hrun hwait
  have hdog := syncWatchdogOp_of_owner hown hrun hwait
  refine ⟨fun hhold hlimit hnowd hticks => ⟨_, guarded_of_lid hlid, ?_⟩, fun hnone => (guarded_of_lid hlid).trans ?_⟩
  · rw [hdog, if_pos (by simp [hhold, hlimit, hnowd, hticks])]
    exact opFault_halted lid q (by decide) s
  · rw [hdog, if_neg]
    rcases hnone with hhold | hlimit | hnowd
    · simp [← Option.not_isSome, hhold]
    · simp [hlimit]
    · simp [hnowd]

/-- Settles O11: a fetch that fails halts the queue at its op; the watchdog fires in a running partition alone. -/
theorem fetchAndWatchdogFaults : Obligations.FetchAndWatchdogFaults := ⟨fetchFaults, watchdogFires⟩

end Sys2Proof.Machine
end
section
/-!
PROOFS. Scope: BAR.ARRIVE and what a stop presents (R224-R226).
-/
namespace Sys2Proof.Machine

section Arrivals

variable {s t u : State} {lid : Nat} {q : Queue} {op : OpWord} {l m : List Fld}

/-! ### Steps of registers and ring stops -/

theorem RegsStops.trans (h : RegsStops l s t) (k : RegsStops l t u) : RegsStops l s u := by
  obtain ⟨hrest, hregs⟩ := h
  obtain ⟨krest, kregs⟩ := k
  exact ⟨by rw [krest, hrest], hregs.trans kregs⟩

theorem RegsStops.mono (h : RegsStops l s t) (hs : ∀ f ∈ l, f ∈ m) : RegsStops m s t := ⟨h.1, h.2.mono hs⟩

theorem RegsOnly.regsStops (h : RegsOnly l s t) : RegsStops l s t := by
  obtain ⟨hrest, hregs⟩ := h
  exact ⟨by rw [hrest], hregs⟩

theorem RegsOnly.stop_eq (h : RegsOnly l s t) (i : Nat) : t.stop i = s.stop i := by
  obtain ⟨hrest, -⟩ := h
  rw [hrest]
  rfl

theorem regsStops_modStop (lid : Nat) (f : Stop → Stop) (s : State) : RegsStops [] s (s.modStop lid f) := ⟨rfl, fun _ _ _ => rfl⟩

theorem stop_toFifo_same (lid : Nat) (f : Flit) (s : State) :
    (s.toFifo lid f).stop lid = { s.stop lid with fifo := (s.stop lid).fifo ++ [f] } := stop_modStop_same lid _

theorem stop_toFifo_ne {i : Nat} (h : i ≠ lid) (f : Flit) (s : State) : (s.toFifo lid f).stop i = s.stop i := stop_modStop_ne _ h

/-! ### The arrival of one core (R225) -/

theorem or_two_pow_of_clear {x k : Nat} (h : x.testBit k = false) : x ||| 2 ^ k = x + 2 ^ k := by
  have hbit : (x ||| 2 ^ k).testBit k = true := by simp
  have hle : 2 ^ k ≤ x ||| 2 ^ k := Nat.right_le_or
  have hsub : (x ||| 2 ^ k) - 2 ^ k = x := by
    refine Nat.eq_of_testBit_eq fun j => ?_
    rw [testBit_sub_two_pow hbit]
    by_cases hj : j = k
    · simp [hj, h]
    · simp [hj, Nat.testBit_two_pow_of_ne (Ne.symm hj)]
  omega

theorem cArrived_ok (lid : Nat) : (cArrived lid).Ok := by simp [Fld.Ok, cArrived]

theorem pcOps_apart_cArrived (lid : Nat) (q : Queue) : (qPc lid q).Apart (cArrived lid) ∧ (qOps lid q).Apart (cArrived lid) := by
  have := queue_num_lt q
  simp only [Fld.Apart, Fld.base, qPc, qOps, cArrived]
  omega

/-- Whether BAR.ARRIVE's operands are in order (R226). -/
def arriveOk (s : State) (lid : Nat) (q : Queue) (op : OpWord) : Prop :=
  s.getF (rbValid (bitsOf op 0 6)) = 1 ∧ s.owner lid = some (s.getF (rbPart (bitsOf op 0 6))) ∧ bitsOf op 12 4 ≠ 0 ∧
    (bitOf op 112 = true → q = .s)

theorem barArriveOp_of_atHead (hhead : AtHead s lid q op) (hall : s.allRetired lid q = true) (hop : opOpcode op = 0x09)
    (hres : opReserved [(0, 16), (112, 1)] op = false) : barArriveOp lid q s = barArriveBody lid q op s := by
  rw [barArriveOp, ← hop, control_of_atHead hhead hres, if_pos hall]

/-- The test of its operands (R226). -/
theorem arriveOk_iff : ¬ arriveOk s lid q op ↔ (bitsOf op 12 4 = 0 || (bitOf op 112 && decide (q ≠ .s)) ||
    !(s.onF (rbValid (bitsOf op 0 6)) && s.owner lid == some (s.getF (rbPart (bitsOf op 0 6))))) = true := by
  have hlt : s.getF (rbValid (bitsOf op 0 6)) < 2 := getF_lt (rbValid (bitsOf op 0 6))
  have hone : s.getF (rbValid (bitsOf op 0 6)) = 1 ↔ s.getF (rbValid (bitsOf op 0 6)) ≠ 0 := by omega
  rw [arriveOk, hone]
  simp only [State.onF, Bool.or_eq_true, Bool.and_eq_true, Bool.not_eq_true', Bool.and_eq_false_iff, decide_eq_true_eq, bne_eq_false_iff_eq,
    beq_eq_false_iff_ne]
  tauto

/-- The state as the arrival is recorded and handed to the stop (R224). -/
def State.recordArrival (lid bid rctr rval : Nat) (drain : Bool) (s : State) : State :=
  (s.setF (cArrived lid) (s.getF (cArrived lid) ||| 2 ^ bid)).modStop lid fun t =>
    { t with barRec := tblPut (fun _ => (0, 0, false)) bid (rctr, rval, drain) t.barRec, arrivals := t.arrivals ++ [(bid, drain)] }

theorem barArriveBody_of_ok (h : arriveOk s lid q op) : barArriveBody lid q op s =
    if Nat.testBit (s.getF (cArrived lid)) (bitsOf op 0 6) then s.opFault lid q fSyncRearrive
    else ((s.recordArrival lid (bitsOf op 0 6) (bitsOf op 6 6) (bitsOf op 12 4) (bitOf op 112)).presentArrivals lid).retire lid q :=
  if_neg fun hbad => absurd h (arriveOk_iff.2 hbad)

theorem barArriveBody_of_not_ok (h : ¬ arriveOk s lid q op) : barArriveBody lid q op s = s.opFault lid q fSyncOperand :=
  if_pos (arriveOk_iff.1 h)

/-- A stop that holds one arrival without DRAIN, with room in its FIFO, presents it (R225). -/
theorem presentArrivals_one {bid : Nat} (ha : (s.stop lid).arrivals = [(bid, false)]) (hroom : s.fifoRoom lid 1 = true) :
    s.presentArrivals lid = (s.modStop lid fun t => { t with arrivals := [] }).toFifo lid (.sync lid (.arrive bid 1 false)) := by
  simp [State.presentArrivals, State.presentUpTo, ha, takeFirst, hroom]

theorem recordArrival_effect {bid : Nat} (hbid : bid < 64) (hclear : Nat.testBit (s.getF (cArrived lid)) bid = false)
    (rctr rval : Nat) (drain : Bool) :
    (s.recordArrival lid bid rctr rval drain).getF (cArrived lid) = s.getF (cArrived lid) + 2 ^ bid ∧
      (s.recordArrival lid bid rctr rval drain).stop lid =
        { s.stop lid with barRec := tblPut (fun _ => (0, 0, false)) bid (rctr, rval, drain) (s.stop lid).barRec,
                          arrivals := (s.stop lid).arrivals ++ [(bid, drain)] } ∧
      (∀ i, i ≠ lid → (s.recordArrival lid bid rctr rval drain).stop i = s.stop i) ∧
      RegsStops [cArrived lid] s (s.recordArrival lid bid rctr rval drain) := by
  refine ⟨?_, stop_modStop_same lid _, fun i hi => stop_modStop_ne _ hi,
    (regsOnly_setF _ _ (cArrived_ok lid) (by simp)).regsStops.trans ((regsStops_modStop ..).mono (by simp))⟩
  have hlt : s.getF (cArrived lid) ||| 2 ^ bid < 2 ^ 64 := Nat.or_lt_two_pow (getF_lt (cArrived lid)) (Nat.pow_lt_pow_right (by decide) hbid)
  rw [← or_two_pow_of_clear hclear]
  exact getF_setF_of_lt (cArrived_ok lid) hlt s

end Arrivals

/-- Settles O12: an arrival in order is recorded, presented at once to a stop with room, and retires. -/
theorem barrierArrival : Obligations.BarrierArrival := by
  unfold Obligations.BarrierArrival
  intro s lid q op hhead hall hop hres
  have hbody := barArriveOp_of_atHead hhead hall hop hres
  refine ⟨fun hbad => ⟨_, guarded_of_lid hhead.core, ?_⟩, fun hvalid hmine hval hdrain => ?_⟩
  · have hno : ¬ arriveOk s lid q op := by
      rintro ⟨hvalid, hmine, hval, hdrain⟩
      rcases hbad with h | h | h | ⟨h, hq⟩
      · omega
      · exact h hmine
      · exact hval h
      · exact hq (hdrain h)
    rw [hbody, barArriveBody_of_not_ok hno]
    exact opFault_halted lid q (by decide) s
  · have hok := barArriveBody_of_ok ⟨hvalid, hmine, hval, hdrain⟩
    refine ⟨fun hset => ⟨_, guarded_of_lid hhead.core, ?_⟩, fun hclear hnodrain hnone hroom => ⟨_, guarded_of_lid hhead.core, ?_⟩⟩
    · rw [hbody, hok, if_pos hset]
      exact opFault_halted lid q (by decide) s
    · rw [hbody, hok, if_neg (by simp [hclear]), hnodrain]
      obtain ⟨harrived, hstop, hothers, hregs⟩ :=
        recordArrival_effect (bitsOf_lt op 0 6) hclear (bitsOf op 6 6) (bitsOf op 12 4) false
      generalize s.recordArrival lid (bitsOf op 0 6) (bitsOf op 6 6) (bitsOf op 12 4) false = u at *
      have hpresent : u.presentArrivals lid = _ := presentArrivals_one (bid := bitsOf op 0 6) (by rw [hstop, hnone]; rfl)
        (by rw [State.fifoRoom, hstop]; exact hroom)
      have hsent : RegsStops [cArrived lid] s (u.presentArrivals lid) := by
        rw [hpresent]
        exact hregs.trans (((regsStops_modStop ..).trans (regsStops_modStop ..)).mono (by simp))
      have hfield : (u.presentArrivals lid).getF (cArrived lid) = u.getF (cArrived lid) := by rw [hpresent]; rfl
      have hat : (u.presentArrivals lid).stop lid =
          { u.stop lid with arrivals := [], fifo := (u.stop lid).fifo ++ [.sync lid (.arrive (bitsOf op 0 6) 1 false)] } := by
        rw [hpresent, stop_toFifo_same, stop_modStop_same]
      have helse : ∀ i, i ≠ lid → (u.presentArrivals lid).stop i = u.stop i := fun i hi => by
        rw [hpresent, stop_toFifo_ne hi, stop_modStop_ne _ hi]
      obtain ⟨hret, hrest⟩ := retire_of_onlyFields (q := q) hsent.2 (by simpa using pcOps_apart_cArrived lid q) hhead.inside
      refine ⟨hret, ?_, ?_, ?_, fun i hi => ?_, (hsent.mono (by simp)).trans (hrest.regsStops.mono (by simp))⟩
      · rw [getF_of_retire hrest (cArrived_ok lid) (pcOps_apart_cArrived lid q), hfield, harrived]
      · rw [hrest.stop_eq, hat, hstop]
        exact tblGet_tblPut_same ..
      · rw [hrest.stop_eq, hat, hstop]
      · rw [hrest.stop_eq, helse i hi, hothers i hi]

end Sys2Proof.Machine
end
section
/-!
PROOFS. Scope: counter messages: sent, met by their stops and applied (R216-R218, R220, R246, R254, R260).
-/
namespace Sys2Proof.Machine

section Messages

variable {s t u : State} {lid n k p : Nat} {q : Queue} {op : OpWord} {m : SyncMsg}

/-! ### A message of an op enters the FIFO (R260) -/

/-- With room in the FIFO the message enters it and the op retires. -/
theorem sendAndRetire_effect (hroom : s.fifoRoom lid 1 = true) (hin : s.getF (qPc lid q) < 4095) (m : SyncMsg) :
    Retired lid q s (sendAndRetire lid q m s) ∧ Sent lid (.sync lid m) s (sendAndRetire lid q m s) ∧
      RegsStops [qPc lid q, qOps lid q] s (sendAndRetire lid q m s) := by
  have hput : RegsStops [] s (s.toFifo lid (.sync lid m)) := regsStops_modStop ..
  obtain ⟨hret, hrest⟩ := retire_of_onlyFields (q := q) hput.2 (by simp) hin
  rw [sendAndRetire, if_pos hroom]
  exact ⟨hret, ⟨(hrest.stop_eq lid).trans (stop_toFifo_same ..), fun i hi => (hrest.stop_eq i).trans (stop_toFifo_ne hi ..)⟩,
    (hput.mono (by simp)).trans hrest.regsStops⟩

theorem sendAndRetire_full (hroom : s.fifoRoom lid 1 = false) (m : SyncMsg) : sendAndRetire lid q m s = s.holdFull lid q := by
  rw [sendAndRetire, hroom, if_neg Bool.false_ne_true]

/-- The stall counter of a queue's engine; the X queue's has none (R260). -/
def stallCounter (lid : Nat) (q : Queue) : Fld := if q = .m then cMacStalls lid else if q = .v then cVecStalls lid else cSuaStalls lid

theorem holdFull_effect (lid : Nat) (q : Queue) (s : State) : (q = .x → s.holdFull lid q = s) ∧
    Counted [stallCounter lid q] s (s.holdFull lid q) := by
  cases q with
  | m => exact ⟨nofun, counted_addFree (by simp [Fld.Ok, cMacStalls]) (by simp [stallCounter])⟩
  | v => exact ⟨nofun, counted_addFree (by simp [Fld.Ok, cVecStalls]) (by simp [stallCounter])⟩
  | s => exact ⟨nofun, counted_addFree (by simp [Fld.Ok, cSuaStalls]) (by simp [stallCounter])⟩
  | x => exact ⟨fun _ => rfl, rfl, .refl _ s⟩

theorem ctrAddBody_other_core (hn : opN op ≠ 0) (ht : opTarget lid op = 1) (hpart : s.samePart lid (bitsOf op 24 11) = true) :
    ctrAddBody lid q op s = sendAndRetire lid q (.counter (bitsOf op 24 11) (opCtr op) (opN op) false 0 0 0) s := by
  rw [ctrAddBody]
  simp [hn, ht, hpart]

theorem ctrAddBody_package (hn : opN op ≠ 0) (ht : opTarget lid op = 3) (hpkg : s.pkgOk lid (bitsOf op 43 12) = true) :
    ctrAddBody lid q op s = sendAndRetire lid q (.counter (bitsOf op 24 11) (opCtr op) (opN op) false 2 0 (bitsOf op 43 12)) s := by
  rw [ctrAddBody]
  simp [hn, ht, hpkg]

theorem ctrSetBody_other_core (ht : opTarget lid op = 1) (hpart : s.samePart lid (bitsOf op 24 11) = true) :
    ctrSetBody lid q op s = sendAndRetire lid q (.counter (bitsOf op 24 11) (opCtr op) (opN op) true 0 0 0) s := by
  rw [ctrSetBody]
  simp [ht, hpart]

/-! ### A message meets its stop (R217, R246, R254) -/

theorem atCore_of_posOf {pos slot c : Nat} (hpos : s.posOf lid = some pos) (hat : s.standsAt (dieOf lid) slot pos c = true) :
    s.atCore lid slot c = true := by
  simpa [State.atCore, hpos] using hat

theorem forDie_counter {set : Bool} {route hc pkg : Nat} (h1 : route ≠ 1) (h2 : route ≠ 2) :
    forDie (dieOf lid) (.counter lid n k set route hc pkg) = true := by
  simp [forDie, h1, h2]

theorem slotAt_setSlot_same (d ring slot : Nat) (v : Option Placed) (s : State) : (s.setSlot d ring slot v).slotAt d ring slot = v := by
  rw [State.slotAt, State.setSlot, die_modDie_same]
  exact tblGet_tblPut_same ..

theorem syncAt_setSync_same (d slot : Nat) (v : Option FieldMsg) (s : State) : (s.setSync d slot v).syncAt d slot = v := by
  rw [State.syncAt, State.setSync, die_modDie_same]
  exact tblGet_tblPut_same ..

theorem syncPassOf_setSyncPass_same (lid pos : Nat) (v : Option (Nat × Nat)) (s : State) :
    (s.setSyncPass lid pos v).syncPassOf lid pos = v := by
  rw [State.syncPassOf, State.setSyncPass, stop_modStop_same]
  exact tblGet_tblPut_same ..

/-- What a message in a sync field leaves: it enters its stop's queue, or waits (R217). -/
theorem takeField_effect (lid slot c : Nat) (m : SyncMsg) (s : State) :
    ((s.stop lid).ctrQ.length < 16 → (takeField lid slot c m s).stop lid = { s.stop lid with ctrQ := (s.stop lid).ctrQ ++ [m] } ∧
      (takeField lid slot c m s).syncAt (dieOf lid) slot = none) ∧
    (16 ≤ (s.stop lid).ctrQ.length → takeField lid slot c m s = s) ∧
    takeField lid slot c m s = { s with stops := (takeField lid slot c m s).stops, dies := (takeField lid slot c m s).dies } := by
  refine ⟨fun h => ?_, fun h => if_neg (by omega), ?_⟩
  · rw [takeField, if_pos h]
    exact ⟨stop_modStop_same .., syncAt_setSync_same ..⟩
  · rw [takeField]
    split <;> rfl

/-- The state once a SYNC flit has entered its stop's queue. -/
def State.syncTaken (lid ring slot c : Nat) (p : Placed) (m : SyncMsg) (s : State) : State :=
  ((((s.ringTo (dieOf lid) c).setSlot (dieOf lid) ring slot none).setSyncPass lid p.pos none).noteTaken lid p.pos p.flit).modStop lid
    fun x => { x with ctrQ := x.ctrQ ++ [m] }

theorem syncTaken_effect (lid ring slot c : Nat) (p : Placed) (m : SyncMsg) (s : State) :
    ((s.syncTaken lid ring slot c p m).stop lid).ctrQ = (s.stop lid).ctrQ ++ [m] ∧
      (s.syncTaken lid ring slot c p m).slotAt (dieOf lid) ring slot = none ∧
      (s.syncTaken lid ring slot c p m).syncPassOf lid p.pos = none := by
  refine ⟨?_, slotAt_setSlot_same .., ?_⟩
  · rw [State.syncTaken, stop_modStop_same, State.noteTaken, stop_modStop_same, State.setSyncPass, stop_modStop_same]
    rfl
  · rw [State.syncPassOf, State.syncTaken, stop_modStop_same, State.noteTaken, stop_modStop_same]
    exact syncPassOf_setSyncPass_same ..

/-- The state once a SYNC flit has been let pass, and recorded if it is the first of its sender. -/
def State.syncPassed (lid ring slot c : Nat) (p : Placed) (s : State) : State :=
  (if (s.syncPassOf lid p.pos).isNone then (s.ringTo (dieOf lid) c).setSyncPass lid p.pos (some (ring, slot))
    else s.ringTo (dieOf lid) c).letPass (dieOf lid) ring slot c p

theorem syncPassed_effect (lid ring slot c : Nat) (p : Placed) (s : State) :
    ((s.syncPassed lid ring slot c p).stop lid).ctrQ = (s.stop lid).ctrQ ∧
      ((s.syncPassed lid ring slot c p).slotAt (dieOf lid) ring slot).map (·.flit) = some p.flit ∧
      (s.syncPassOf lid p.pos = none → (s.syncPassed lid ring slot c p).syncPassOf lid p.pos = some (ring, slot)) := by
  refine ⟨?_, ?_, fun h => ?_⟩
  · rw [State.syncPassed]
    split
    · have hput : ((s.ringTo (dieOf lid) c).setSyncPass lid p.pos (some (ring, slot))).stop lid = _ := stop_modStop_same lid _
      exact (congrArg Stop.ctrQ hput :)
    · rfl
  · rw [State.syncPassed, State.letPass, slotAt_setSlot_same]
    rfl
  · rw [State.syncPassed, h, if_pos Option.isNone_none]
    exact syncPassOf_setSyncPass_same ..

theorem takeSync_eq (lid ring slot c : Nat) (p : Placed) (m : SyncMsg) (s : State) : takeSync lid ring slot c p m s =
    if (s.stop lid).ctrQ.length < 15 ∧ (s.syncPassOf lid p.pos = none ∨ s.syncPassOf lid p.pos = some (ring, slot)) then
      s.syncTaken lid ring slot c p m
    else s.syncPassed lid ring slot c p := by
  have hcond : (decide (((s.ringTo (dieOf lid) c).stop lid).ctrQ.length < 15) &&
      ((s.syncPassOf lid p.pos).isNone || s.syncPassOf lid p.pos == some (ring, slot))) = true ↔
      (s.stop lid).ctrQ.length < 15 ∧ (s.syncPassOf lid p.pos = none ∨ s.syncPassOf lid p.pos = some (ring, slot)) := by
    have hstop : (s.ringTo (dieOf lid) c).stop lid = s.stop lid := rfl
    rw [hstop]
    simp
  rw [takeSync]
  exact if_congr hcond rfl rfl

/-- Nothing but ring stops and dies changes. -/
def StopsDies (s t : State) : Prop := t = { s with stops := t.stops, dies := t.dies }

theorem StopsDies.trans (h : StopsDies s t) (k : StopsDies t u) : StopsDies s u := by
  rw [StopsDies] at *
  rw [k, h]

theorem stopsDies_modStop (i : Nat) (f : Stop → Stop) (s : State) : StopsDies s (s.modStop i f) := rfl

theorem stopsDies_modDie (d : Nat) (f : Die → Die) (s : State) : StopsDies s (s.modDie d f) := rfl

theorem stopsDies_syncTaken (lid ring slot c : Nat) (p : Placed) (m : SyncMsg) (s : State) :
    StopsDies s (s.syncTaken lid ring slot c p m) :=
  ((((stopsDies_modDie ..).trans (stopsDies_modDie ..)).trans (stopsDies_modStop ..)).trans (stopsDies_modStop ..)).trans
    (stopsDies_modStop ..)

theorem stopsDies_syncPassed (lid ring slot c : Nat) (p : Placed) (s : State) : StopsDies s (s.syncPassed lid ring slot c p) := by
  rw [State.syncPassed, State.letPass]
  split
  · exact ((stopsDies_modDie ..).trans (stopsDies_modStop ..)).trans (stopsDies_modDie ..)
  · exact (stopsDies_modDie ..).trans (stopsDies_modDie ..)

theorem stopsDies_takeSync (lid ring slot c : Nat) (p : Placed) (m : SyncMsg) (s : State) : StopsDies s (takeSync lid ring slot c p m s) := by
  rw [takeSync_eq]
  split
  · exact stopsDies_syncTaken ..
  · exact stopsDies_syncPassed ..

theorem meetCounter_field {slot c : Nat} {f : FieldMsg} (hturn : s.fieldTurn (dieOf lid) slot = some (f, c))
    (hdie : forDie (dieOf lid) f.msg = true) (hat : s.atCore lid slot c = true) :
    meetCounter lid ⟨0, slot, true⟩ s = takeField lid slot c f.msg s := by
  simp [meetCounter, hturn, hdie, hat]

theorem meetCounter_slot {ring slot c src : Nat} {p : Placed} (hturn : s.slotTurn (dieOf lid) ring slot = some (p, c))
    (hflit : p.flit = .sync src m) (hdie : forDie (dieOf lid) m = true) (hat : s.atCore lid slot c = true) :
    meetCounter lid ⟨ring, slot, false⟩ s = takeSync lid ring slot c p m s := by
  simp [meetCounter, hturn, hflit, hdie, hat]

/-! ### A message is applied to its core (R218, R220) -/

/-- With no queue waiting, a SET or an ADD of a message changes the counter alone; an overflow is told (R220, R236). -/
theorem applyCounter_of_noWaiter (hno : NoWaiter s lid n) (set : Bool) : s.applyCounter lid n k set =
    ((if !set && s.overflows lid n k then s.remoteFault lid fSyncOverflow else s).setF (cCtr lid n)
      (if set then k else min 65535 (s.getF (cCtr lid n) + k))) := by
  cases set with
  | true => exact resolveCtr_setCtr hno k
  | false =>
    have hregs : ∀ r f, (s.signalFault lid r).getF f = s.getF f := fun r f => getF_congr (signalFault_rest lid r s).2 f
    have hbump : ∀ u : State, (∀ f, u.getF f = s.getF f) →
        (u.bump lid n k).resolveCtr lid n = u.setF (cCtr lid n) (min 65535 (s.getF (cCtr lid n) + k)) := fun u hu => by
      have hnou : NoWaiter u lid n := hno.congr fun _ => ⟨hu _, hu _⟩
      rw [bump_eq, resolveCtr_setCtr hnou, State.overflows, hu]
      congr 1
      simp only [decide_eq_true_eq]
      split <;> omega
    simp only [State.applyCounter, State.remoteAdd, Bool.not_false, Bool.true_and, Bool.false_eq_true, if_false]
    split
    · exact hbump _ (hregs _)
    · exact hbump s fun _ => rfl

/-- A register written once a partition has been told. -/
theorem setF_of_told (h : u = { s with parts := u.parts }) (f : Fld) (v : Nat) :
    u.setF f v = { s with regs := (u.setF f v).regs, parts := (u.setF f v).parts } := by
  have hput : ∀ r, { u with regs := r } = { s with regs := r, parts := u.parts } := fun r => by rw [h]
  exact hput _

/-- What an applied message leaves (R218, R220, R236). -/
theorem applyCounter_effect (hno : NoWaiter s lid n) (hk : k < 65536) (hown : s.owner lid = some p) (set : Bool) {t : State}
    (ht : t = s.applyCounter lid n k set) :
    t.getF (cCtr lid n) = (if set then k else min 65535 (s.getF (cCtr lid n) + k)) ∧ OnlyFields [cCtr lid n] s t ∧
      t = { s with regs := t.regs, parts := t.parts } ∧
      (t.part p).faults = (s.part p).faults ++
        (if !set && decide (65535 < s.getF (cCtr lid n) + k) then [⟨0x43, lid, 0, 0, true⟩] else []) := by
  have hv : (if set then k else min 65535 (s.getF (cCtr lid n) + k)) < 65536 := by split <;> omega
  have hover : (!set && s.overflows lid n k) = (!set && decide (65535 < s.getF (cCtr lid n) + k)) := rfl
  rw [applyCounter_of_noWaiter hno, hover] at ht
  generalize (if set then k else min 65535 (s.getF (cCtr lid n) + k)) = v at *
  generalize (!set && decide (65535 < s.getF (cCtr lid n) + k)) = past at *
  subst ht
  cases past with
  | false =>
    refine ⟨cCtr_setCtr hv .., onlyFields_setF _ _ (cCtr_ok ..) (by simp), rfl, ?_⟩
    simp
  | true =>
    have htold : (s.remoteFault lid fSyncOverflow).part p = { s.part p with faults := (s.part p).faults ++ [⟨0x43, lid, 0, 0, true⟩] } := by
      rw [State.remoteFault, State.signalFault, hown]
      exact part_modPart_same ..
    obtain ⟨hrest, hregs⟩ := signalFault_rest lid ⟨fSyncOverflow, lid, 0, 0, true⟩ s
    refine ⟨cCtr_setCtr hv .., ?_, ?_, ?_⟩
    · exact OnlyFields.setF (fun f _ _ => getF_congr hregs f) (cCtr_ok ..) (by simp) v
    · rw [if_pos rfl]
      exact setF_of_told hrest ..
    · rw [if_pos rfl, part_setF, htold, if_pos rfl]

end Messages

theorem counterMessageSent : CounterMessageSentRule := by
  unfold CounterMessageSentRule
  intro s lid q op hhead hall
  refine ⟨fun hop hres hn htarget hpart => ⟨fun hroom => ⟨_, guarded_of_lid hhead.core, ?_⟩,
      fun hroom => ⟨_, guarded_of_lid hhead.core, ?_⟩⟩,
    fun hop hres hn htarget hpkg hroom => ⟨_, guarded_of_lid hhead.core, ?_⟩,
    fun hop hres htarget hpart hroom => ⟨_, guarded_of_lid hhead.core, ?_⟩⟩
  · rw [ctrAddOp_of_atHead hhead hall hop hres, ctrAddBody_other_core hn htarget hpart]
    exact sendAndRetire_effect hroom hhead.inside _
  · rw [ctrAddOp_of_atHead hhead hall hop hres, ctrAddBody_other_core hn htarget hpart, sendAndRetire_full hroom]
    exact holdFull_effect lid q s
  · rw [ctrAddOp_of_atHead hhead hall hop hres, ctrAddBody_package hn htarget hpkg]
    exact sendAndRetire_effect hroom hhead.inside _
  · rw [ctrSetOp_of_atHead hhead hall hop hres, ctrSetBody_other_core htarget hpart]
    exact sendAndRetire_effect hroom hhead.inside _

theorem counterMessageMeets : CounterMessageMeetsRule := by
  unfold CounterMessageMeetsRule
  intro s lid slot c pos n k set route hc pkg src hlid hhost hlink hpos hstands hslot
  have hat := atCore_of_posOf hpos hstands
  have hdie := forDie_counter (lid := lid) (n := n) (k := k) (set := set) (hc := hc) (pkg := pkg) hhost hlink
  refine ⟨fun f hfield hturn hmsg => ⟨_, guarded_of (by simp [hlid, hslot, hfield, passFits]) _ _, ?_⟩,
    fun ring p hring hturn hflit => ⟨_, guarded_of (by simp [hlid, hslot, hring, passFits]) _ _, ?_⟩⟩
  · rw [counterMessageOp, meetCounter_field hturn (hmsg ▸ hdie) hat]
    exact takeField_effect lid slot c f.msg s
  · rw [counterMessageOp, meetCounter_slot hturn hflit hdie hat]
    refine ⟨fun hlen hpass => ?_, fun hno => ?_, stopsDies_takeSync ..⟩
    · rw [takeSync_eq, if_pos ⟨hlen, hpass⟩]
      exact syncTaken_effect ..
    · rw [takeSync_eq, if_neg]
      · exact syncPassed_effect ..
      · rintro ⟨hlen, hpass⟩
        rcases hno with hfull | ⟨e, he, hne⟩
        · omega
        · rcases hpass with hnone | hsome
          · rw [he] at hnone; cases hnone
          · rw [he] at hsome; exact hne (Option.some.inj hsome)

theorem counterMessageApplied : CounterMessageAppliedRule := by
  unfold CounterMessageAppliedRule
  intro s lid n k p set dc route hc pkg rest hlid hn hk hown
  have hok : (decide (lid < 2048) && passFits none) = true := by simp [hlid, passFits]
  refine ⟨fun hruns hq hno => ⟨_, guarded_of hok _ _, ?_⟩, fun hq => (guarded_of hok _ _).trans ?_⟩
  · have hhand : counterMessageOp lid none s = (s.modStop lid fun x => { x with ctrQ := rest }).applyCounter lid n k set := by
      simp [counterMessageOp, handCounter, hq, hruns]
    have hnou : NoWaiter (s.modStop lid fun x => { x with ctrQ := rest }) lid n := hno
    obtain ⟨hval, honly, hrest, hfaults⟩ := applyCounter_effect hnou hk (p := p) hown set hhand
    generalize counterMessageOp lid none s = t at *
    have hstops : ∀ i, t.stop i = (s.modStop lid fun x => { x with ctrQ := rest }).stop i :=
      fun i => by rw [hrest]; rfl
    refine ⟨hval, (hstops lid).trans (stop_modStop_same ..), fun i hi => (hstops i).trans (stop_modStop_ne _ hi), honly, ?_, hfaults⟩
    rw [hrest]
    rfl
  · simp [counterMessageOp, handCounter, hq]

/-- Settles O7: the message enters its own stop's FIFO, then the stop's queue at its core, then the counter. -/
theorem counterMessages : Obligations.CounterMessages := ⟨counterMessageSent, counterMessageMeets, counterMessageApplied⟩

end Sys2Proof.Machine
end
section
/-!
PROOFS. Scope: X.COPY (R228, R290).
-/
namespace Sys2Proof.Machine

section Copies

variable {s t u : State} {lid a b n k K : Nat} {m : CoreMem} {op : OpWord} {q : Queue}

/-! ### One unit (R228) -/

/-- Of a core only its lace and tile memory may differ. -/
def LaceTile (lid : Nat) (s t : State) : Prop := t.core lid = { s.core lid with lace := (t.core lid).lace, tile := (t.core lid).tile }

theorem LaceTile.trans (h : LaceTile lid s t) (k : LaceTile lid t u) : LaceTile lid s u := by
  rw [LaceTile] at *
  rw [k, h]

theorem LaceTile.phase_eq (h : LaceTile lid s t) : (t.core lid).phase = (s.core lid).phase := by rw [h]

theorem laceTile_wr (h : CleanCore s lid) (lace : Bool) (a : Nat) (bs : List Byte) : LaceTile lid s (s.wr lid (memOf lace) a bs) := by
  rw [LaceTile, wr_of_clean (h _), core_modCore_same]
  cases lace <;> rfl

theorem CleanCore.coreStep_wr (h : CleanCore s lid) (m : CoreMem) (a : Nat) (bs : List Byte) : CoreStep lid [] s (s.wr lid m a bs) := by
  rw [wr_of_clean (h m)]
  exact coreStep_modCore ..

theorem CleanCore.poisonMask_eq (h : CleanCore s lid) (m : CoreMem) (a n : Nat) : s.poisonMask lid m a n = 0 := by
  simp [State.poisonMask, h.rdBad_eq_false]

theorem overlapsPhase_of_none (h : (s.core lid).phase = none) (a b : Nat) : s.overlapsPhase lid a b = false := by
  rw [State.overlapsPhase, h]

theorem getElem_rd {i : Nat} (hi : i < n) : (s.rd lid m a n)[i]'(by rwa [length_rd]) = ((s.core lid).mem m).byte (a + i) := by
  simp [State.rd, Mem.load]

/-- The two quarters of a unit. -/
theorem pieces_of_unit {l : List Byte} (h : l.length = 64) : (pieces 32 l).zipIdx = [(l.take 32, 0), (l.drop 32, 1)] := by
  have htake : (l.drop 32).take 32 = l.drop 32 := List.take_of_length_le (by simp [h])
  simp [pieces, h, ceilDiv, List.range_succ, htake]

/-- A unit lands on a clean core with no phase in progress (R229). -/
theorem landPiece_unit {lace : Bool} (hphase : (s.core lid).phase = none) (bs : List Byte) (hlen : bs.length = 64) :
    s.landPiece lid lace a 0 bs = (s.wr lid (memOf lace) a (bs.take 32)).wr lid (memOf lace) (a + 32) (bs.drop 32) := by
  rw [State.landPiece, overlapsPhase_of_none hphase, Bool.and_false, if_neg Bool.false_ne_true, pieces_of_unit hlen]
  simp [forAll, State.putQuarter, bitOf]

/-- Two quarters written one behind the other hold the unit's bytes. -/
theorem unit_written (h : CleanCore s lid) {lace : Bool} (bs : List Byte) (hlen : bs.length = 64) {t : State}
    (ht : t = (s.wr lid (memOf lace) a (bs.take 32)).wr lid (memOf lace) (a + 32) (bs.drop 32)) :
    CleanCore t lid ∧ LaceTile lid s t ∧ CoreStep lid [] s t ∧ BytesOutside lid (memOf lace) a 64 s t ∧
      ∀ i (hi : i < 64), ((t.core lid).mem (memOf lace)).byte (a + i) = bs[i]'(by omega) := by
  have hclean := h.wr (memOf lace) a (bs.take 32)
  have hlo : (bs.take 32).length = 32 := by simp [hlen]
  have hhi : (bs.drop 32).length = 32 := by simp [hlen]
  have hfirst := h.bytesOutside_wr (memOf lace) a (bs.take 32)
  have hsecond := hclean.bytesOutside_wr (memOf lace) (a + 32) (bs.drop 32)
  subst ht
  refine ⟨hclean.wr _ _ _, (laceTile_wr h ..).trans (laceTile_wr hclean ..), (h.coreStep_wr ..).trans (hclean.coreStep_wr ..),
    fun j b hb => ?_, fun i hi => ?_⟩
  · rw [hsecond j b (hb.imp_right fun h => by omega), hfirst j b (hb.imp_right fun h => by omega)]
  · by_cases hlow : i < 32
    · rw [hsecond _ _ (by omega), byte_wr_inside h (by omega), List.getElem_take]
    · rw [show a + i = a + 32 + (i - 32) by omega, byte_wr_inside hclean (by omega), List.getElem_drop]
      congr 1
      omega

theorem copyUnit_effect (h : CleanCore s lid) (hphase : (s.core lid).phase = none) (op : OpWord) (K : Nat) :
    CleanCore (copyUnit lid op K s) lid ∧ LaceTile lid s (copyUnit lid op K s) ∧ CoreStep lid [] s (copyUnit lid op K s) ∧
      BytesOutside lid (memOf (bitOf op 113)) (xDaddr op + 64 * K) 64 s (copyUnit lid op K s) ∧
      ∀ i, i < 64 → (((copyUnit lid op K s).core lid).mem (memOf (bitOf op 113))).byte (xDaddr op + 64 * K + i) =
        ((s.core lid).mem (memOf (bitOf op 112))).byte (xSaddr op + 64 * K + i) := by
  have hcopy : copyUnit lid op K s = s.landPiece lid (bitOf op 113) (xDaddr op + 64 * K) 0
      (s.rd lid (memOf (bitOf op 112)) (xSaddr op + 64 * K) 64) := by
    rw [copyUnit, h.noteRead_eq, h.poisonMask_eq]
  rw [landPiece_unit hphase _ (length_rd ..)] at hcopy
  obtain ⟨hclean, hcore, hstep, hout, hbytes⟩ := unit_written h _ (length_rd ..) hcopy
  exact ⟨hclean, hcore, hstep, hout, fun i hi => (hbytes i hi).trans (getElem_rd hi)⟩

/-! ### All its units in ascending address (R228) -/

/-- The place in the source from which byte `i` of the copy comes. -/
def copySource (op : OpWord) (i : Nat) : Nat :=
  xSaddr op + (if bitOf op 112 = bitOf op 113 ∧ xSaddr op < xDaddr op then i % (xDaddr op - xSaddr op) else i)

/-- The first `K` units have been copied. -/
structure Copied (lid : Nat) (op : OpWord) (K : Nat) (s t : State) : Prop where
  clean : CleanCore t lid
  core : LaceTile lid s t
  step : CoreStep lid [] s t
  outside : BytesOutside lid (memOf (bitOf op 113)) (xDaddr op) (64 * K) s t
  bytes : ∀ i, i < 64 * K → ((t.core lid).mem (memOf (bitOf op 113))).byte (xDaddr op + i) =
    ((s.core lid).mem (memOf (bitOf op 112))).byte (copySource op i)

theorem memOf_inj {x y : Bool} (h : memOf x = memOf y) : x = y := by
  cases x <;> cases y <;> simp_all [memOf]

/-- What the next unit reads: the source, or the copy already made where that covers it. -/
theorem Copied.source_byte (h : Copied lid op K s t) (hs : xSaddr op % 64 = 0) (hd : xDaddr op % 64 = 0) {i : Nat} (hi : i < 64) :
    ((t.core lid).mem (memOf (bitOf op 112))).byte (xSaddr op + 64 * K + i) =
      ((s.core lid).mem (memOf (bitOf op 112))).byte (copySource op (64 * K + i)) := by
  by_cases hmem : bitOf op 112 = bitOf op 113 ∧ xSaddr op < xDaddr op
  · obtain ⟨hsame, hlt⟩ := hmem
    rw [copySource, if_pos ⟨hsame, hlt⟩]
    by_cases hbefore : 64 * K + i < xDaddr op - xSaddr op
    · rw [Nat.mod_eq_of_lt hbefore, Nat.add_assoc]
      exact h.outside _ _ (.inr (.inl (by omega)))
    · have hwhere : xSaddr op + 64 * K + i = xDaddr op + (64 * K + i - (xDaddr op - xSaddr op)) := by omega
      rw [hwhere, hsame, h.bytes _ (by omega), copySource, if_pos ⟨hsame, hlt⟩, ← Nat.mod_eq_sub_mod (by omega), hsame]
  · rw [copySource, if_neg hmem, ← Nat.add_assoc]
    refine h.outside _ _ ?_
    by_cases hsame : bitOf op 112 = bitOf op 113
    · have hle : xDaddr op ≤ xSaddr op := by
        by_contra hlt
        exact hmem ⟨hsame, by omega⟩
      omega
    · exact .inl fun hm => hsame (memOf_inj hm)

theorem copied_units (h : CleanCore s lid) (hphase : (s.core lid).phase = none) (hs : xSaddr op % 64 = 0) (hd : xDaddr op % 64 = 0)
    (K : Nat) : Copied lid op K s (forAll (List.range K) (copyUnit lid op) s) := by
  induction K with
  | zero => exact ⟨h, rfl, .refl .., fun _ _ _ => rfl, fun i hi => absurd hi (by omega)⟩
  | succ K ih =>
    have hnext : forAll (List.range (K + 1)) (copyUnit lid op) s = copyUnit lid op K (forAll (List.range K) (copyUnit lid op) s) := by
      simp [forAll, List.range_succ]
    obtain ⟨hclean, hcore, hstep, hout, hbytes⟩ := copyUnit_effect ih.clean (ih.core.phase_eq.trans hphase) op K
    rw [hnext]
    refine ⟨hclean, ih.core.trans hcore, ih.step.trans hstep, fun j b hb => ?_, fun i hi => ?_⟩
    · rw [hout j b (hb.imp_right fun h => by omega), ih.outside j b (hb.imp_right fun h => by omega)]
    · by_cases hold : i < 64 * K
      · rw [hout _ _ (.inr (.inl (by omega))), ih.bytes i hold]
      · have hpos : i - 64 * K < 64 := by omega
        have hsource := ih.source_byte hs hd hpos
        rw [show xDaddr op + i = xDaddr op + 64 * K + (i - 64 * K) by omega, hbytes _ hpos, hsource]
        congr 2
        omega

/-! ### The op (R228, R290) -/

theorem copyFault_none (hres : opReserved [(0, 56), (99, 6), (112, 3)] op = false) (hs : xSaddr op % 64 = 0) (hd : xDaddr op % 64 = 0)
    (hsm : inMem (bitOf op 112) (xSaddr op) (xLen op) = true) (hdm : inMem (bitOf op 113) (xDaddr op) (xLen op) = true) :
    copyFault op = none := by
  simp [copyFault, hres, hs, hd, hsm, hdm]

theorem xCopyOp_of_atHead (hhead : AtHead s lid .x op) (hop : opOpcode op = 0x82) (hfault : copyFault op = none) :
    xCopyOp lid s = copyBody lid op s := by
  rw [xCopyOp, ← hop, issue_of_atHead hhead, hfault]

/-- The move stands, its queue goes on. -/
def State.copyTaken (lid k : Nat) (op : OpWord) (s : State) : State :=
  (s.modCore lid fun c => c.setMove k (some ⟨op, xLen op, xLen op⟩)).advance lid .x

theorem copyBody_of_freeMove (hk : s.freeMove lid = some k) : copyBody lid op s =
    forAll (List.range (xLen op)) (copyUnit lid op) (noteStaged lid op (s.copyTaken lid k op)) := by
  rw [copyBody, hk]
  rfl

theorem move_setMove_same (c : Core) (k : Nat) (v : Option Move) : (c.setMove k v).move k = v := tblGet_tblPut_same ..

theorem move_setMove_ne (c : Core) {j k : Nat} (h : j ≠ k) (v : Option Move) : (c.setMove k v).move j = c.move j :=
  tblGet_tblPut_ne _ h ..

theorem copyTaken_effect (hin : s.getF (qPc lid .x) < 4095) (k : Nat) (op : OpWord) :
    (s.copyTaken lid k op).core lid = (s.core lid).setMove k (some ⟨op, xLen op, xLen op⟩) ∧
      (s.copyTaken lid k op).getF (qPc lid .x) = s.getF (qPc lid .x) + 1 ∧ CoreStep lid [qPc lid .x] s (s.copyTaken lid k op) := by
  have hpc : (s.modCore lid fun c => c.setMove k (some ⟨op, xLen op, xLen op⟩)).getF (qPc lid .x) = s.getF (qPc lid .x) := rfl
  have hadv : s.copyTaken lid k op = _ := advance_inside (hpc.trans_lt hin)
  rw [hadv]
  refine ⟨core_modCore_same .., ?_, (coreStep_modCore lid [qPc lid .x] _ s).trans ((regsOnly_setF _ _ (qPc_ok ..) (by simp)).coreStep lid)⟩
  rw [hpc]
  exact getF_setF_of_lt (qPc_ok ..) (show _ < 4096 by omega) _

/-- The note of a staged state plane changes nothing else (R290). -/
theorem noteStaged_effect (lid : Nat) (op : OpWord) (s : State) :
    (∃ staged, (noteStaged lid op s).core lid = { s.core lid with staged := staged }) ∧ CoreStep lid [] s (noteStaged lid op s) := by
  rw [noteStaged]
  split
  · exact ⟨⟨_, core_modCore_same ..⟩, coreStep_modCore ..⟩
  · exact ⟨⟨(s.core lid).staged, rfl⟩, .refl ..⟩

end Copies

/-- Settles O13: each unit is read from the source or from the copy already made, whichever holds its place. -/
theorem copyCopies : Obligations.CopyCopies := by
  unfold Obligations.CopyCopies
  intro s lid k op hhead hop hres hs hd hsm hdm hk hclean hphase
  obtain ⟨htakenCore, hpc, htakenStep⟩ := copyTaken_effect hhead.inside k op
  obtain ⟨⟨staged, hstagedCore⟩, hstagedStep⟩ := noteStaged_effect lid op (s.copyTaken lid k op)
  have hbody : xCopyOp lid s = _ :=
    (xCopyOp_of_atHead hhead hop (copyFault_none hres hs hd hsm hdm)).trans (copyBody_of_freeMove hk)
  have hpc' : (noteStaged lid op (s.copyTaken lid k op)).getF (qPc lid .x) = _ := (hstagedStep.2.2 _ (qPc_ok ..) (by simp)).trans hpc
  have hstep := htakenStep.trans (hstagedStep.mono (by simp))
  generalize noteStaged lid op (s.copyTaken lid k op) = u at *
  rw [htakenCore] at hstagedCore
  have hmem : ∀ m, (u.core lid).mem m = (s.core lid).mem m := fun m => by rw [hstagedCore]; cases m <;> rfl
  have hcopied : Copied lid op (xLen op) u _ :=
    copied_units (fun m => by rw [hmem]; exact hclean m) (by rw [hstagedCore]; exact hphase) hs hd (xLen op)
  generalize forAll (List.range (xLen op)) (copyUnit lid op) u = t at *
  have hcore := hcopied.core
  rw [LaceTile, hstagedCore] at hcore
  refine ⟨t, (guarded_of_lid hhead.core).trans (by rw [hbody]), fun i hi => ?_, fun j b hb => ?_, hcopied.clean, ?_, fun j hj => ?_, ?_,
    hstep.trans (hcopied.step.mono (by simp)), staged, ?_⟩
  · rw [hcopied.bytes i hi, hmem]
    rfl
  · rw [hcopied.outside j b hb, hmem]
  · rw [hcore]
    exact move_setMove_same (s.core lid) k (some ⟨op, xLen op, xLen op⟩)
  · rw [hcore]
    exact move_setMove_ne (s.core lid) hj (some ⟨op, xLen op, xLen op⟩)
  · rw [hcopied.step.2.2 _ (qPc_ok ..) (by simp), hpc']
  · rw [hcore]
    rfl

end Sys2Proof.Machine
end
section
/-!
PROOFS. Scope: moves are taken up, fault on bad operands, and retire (R213, R228, R229, R247, R337, R339).
-/
namespace Sys2Proof.Machine

section Moves

variable {s t u : State} {lid a n k : Nat} {m : CoreMem} {op : OpWord} {mv : Move}

/-! ### Pieces into the FIFO (R247, R260) -/

/-- Forming pieces of a core's move 0 changes that core's moves and its stop's FIFO alone. -/
structure Forms (lid : Nat) (op : OpWord) (s t : State) : Prop where
  rest : t = { s with cores := t.cores, stops := t.stops }
  others : ∀ i, i ≠ lid → t.stop i = s.stop i ∧ t.core i = s.core i
  mems : MemSame lid s t
  first : (∃ f, (s.core lid).move 0 = some ⟨op, f, 0⟩) → ∃ f, (t.core lid).move 0 = some ⟨op, f, 0⟩
  moves : ∀ k, k ≠ 0 → (t.core lid).move k = (s.core lid).move k
  fifo : (s.stop lid).fifo <+: (t.stop lid).fifo

theorem Forms.refl (lid : Nat) (op : OpWord) (s : State) : Forms lid op s s :=
  ⟨rfl, fun _ _ => ⟨rfl, rfl⟩, fun _ => rfl, id, fun _ _ => rfl, List.prefix_refl _⟩

theorem Forms.trans (h : Forms lid op s t) (k : Forms lid op t u) : Forms lid op s u := by
  refine ⟨?_, fun i hi => ⟨(k.others i hi).1.trans (h.others i hi).1, (k.others i hi).2.trans (h.others i hi).2⟩,
    fun m => (k.mems m).trans (h.mems m), fun hf => k.first (h.first hf), fun j hj => (k.moves j hj).trans (h.moves j hj), h.fifo.trans k.fifo⟩
  rw [k.rest, h.rest]

theorem Forms.clean (h : Forms lid op s t) (hc : CleanCore s lid) : CleanCore t lid := fun m => by
  rw [h.mems m]
  exact hc m

theorem notePiece_of_clean (h : CleanCore s lid) (mv : Move) (n : Nat) : notePiece lid mv n s = s := by
  simp [notePiece, h.noteRead_eq]

theorem mem_setMove (c : Core) (k : Nat) (v : Option Move) (m : CoreMem) : (c.setMove k v).mem m = c.mem m := by
  cases m <;> rfl

/-- A piece of a clean core's move is formed. -/
theorem formPiece_of_clean (h : CleanCore s lid) (k : Nat) (mv : Move) : s.formPiece lid k mv =
    (s.toFifo lid (nextPiece s lid k mv).1).modCore lid fun c => c.setMove k (some { mv with formed := mv.formed + (nextPiece s lid k mv).2 }) := by
  rw [State.formPiece]
  simp only [notePiece_of_clean h]

theorem fifo_formPiece (h : CleanCore s lid) (k : Nat) (mv : Move) :
    ((s.formPiece lid k mv).stop lid).fifo = (s.stop lid).fifo ++ [(nextPiece s lid k mv).1] := by
  rw [formPiece_of_clean h, stop_modCore, stop_toFifo_same]

theorem forms_formPiece (h : CleanCore s lid) (hdone : mv.done = 0) (hop : mv.op = op) : Forms lid op s (s.formPiece lid 0 mv) := by
  have hcore : (s.formPiece lid 0 mv).core lid =
      (s.core lid).setMove 0 (some { mv with formed := mv.formed + (nextPiece s lid 0 mv).2 }) := by
    rw [formPiece_of_clean h, core_modCore_same]
    rfl
  refine ⟨?_, fun i hi => ?_, fun m => ?_, fun _ => ?_, fun k hk => ?_, ?_⟩
  · rw [formPiece_of_clean h]
    rfl
  · rw [formPiece_of_clean h]
    exact ⟨stop_toFifo_ne hi .., core_modCore_ne _ hi⟩
  · rw [hcore, mem_setMove]
  · rw [hcore, move_setMove_same, ← hop, ← hdone]
    exact ⟨_, rfl⟩
  · rw [hcore, move_setMove_ne _ hk]
  · rw [fifo_formPiece h]
    exact List.prefix_append ..

theorem forms_formMove (h : CleanCore s lid) (hmove : ∃ f, (s.core lid).move 0 = some ⟨op, f, 0⟩) (n : Nat) :
    Forms lid op s (s.formMove lid 0 n) := by
  induction n generalizing s with
  | zero => exact .refl ..
  | succ n ih =>
    obtain ⟨f, hf⟩ := hmove
    rw [State.formMove, hf]
    dsimp only
    split
    · have hform := forms_formPiece (op := op) h (mv := ⟨op, f, 0⟩) rfl rfl
      exact hform.trans (ih (hform.clean h) (hform.first ⟨f, hf⟩))
    · exact .refl ..

theorem formMove_of_none (h : (s.core lid).move k = none) (n : Nat) : s.formMove lid k n = s := by
  cases n with
  | zero => rfl
  | succ n => rw [State.formMove, h]

/-- The first piece of a move goes to the head of an empty FIFO. -/
theorem formMove_head (h : CleanCore s lid) (hmove : (s.core lid).move 0 = some { op := op }) (hunits : 0 < xUnits op)
    (hempty : (s.stop lid).fifo = []) (n : Nat) :
    ((s.formMove lid 0 (n + 1)).stop lid).fifo.head? = some (nextPiece s lid 0 { op := op }).1 := by
  have hgo : s.formMove lid 0 (n + 1) = (s.formPiece lid 0 { op := op }).formMove lid 0 n := by
    rw [State.formMove, hmove]
    simp [hunits, State.fifoRoom, hempty]
  have hform := forms_formPiece (op := op) h (mv := { op := op }) rfl rfl
  have hrest := forms_formMove (hform.clean h) (hform.first ⟨0, hmove⟩) n
  have hfirst := fifo_formPiece h 0 { op := op }
  rw [hempty, List.nil_append] at hfirst
  obtain ⟨l, hl⟩ := hrest.fifo
  rw [hgo, ← hl, hfirst]
  rfl

/-- With move 0 the only one, the refill of an idle stop forms its pieces. -/
theorem refill_of_first (hclean : CleanCore s lid) (hidle : StopIdle s lid) (hmove : ∃ f, (s.core lid).move 0 = some ⟨op, f, 0⟩)
    (hothers : ∀ k, k ≠ 0 → (s.core lid).move k = none) : s.refill lid = s.formMove lid 0 16 := by
  obtain ⟨-, hout, harr⟩ := hidle
  have hforms := forms_formMove hclean hmove 16
  have hnone : ∀ k, k ≠ 0 → (s.formMove lid 0 16).formMove lid k 16 = s.formMove lid 0 16 := fun k hk =>
    formMove_of_none (by rw [hforms.moves k hk, hothers k hk]) 16
  rw [State.refill, flush_of_outbound_nil hout, presentArrivals_of_nil harr]
  show (((s.formMove lid 0 16).formMove lid 1 16).formMove lid 2 16).formMove lid 3 16 = _
  rw [hnone 1 (by decide), hnone 2 (by decide), hnone 3 (by decide)]

/-- What a move that is taken up leaves (R228, R247). -/
structure TakenUp (lid : Nat) (op : OpWord) (s t : State) : Prop where
  head : (t.stop lid).fifo.head? = some (nextPiece s lid 0 { op := op }).1
  move : ∃ f, (t.core lid).move 0 = some ⟨op, f, 0⟩
  pc : t.getF (qPc lid .x) = s.getF (qPc lid .x) + 1
  only : OnlyFields [qPc lid .x] s t
  mems : MemSame lid s t
  others : ∀ i, i ≠ lid → t.stop i = s.stop i ∧ t.core i = s.core i
  rest : t = { s with regs := t.regs, cores := t.cores, stops := t.stops }

theorem rd_congr_mems (h : MemSame lid s t) (m : CoreMem) (a n : Nat) : t.rd lid m a n = s.rd lid m a n := by
  rw [State.rd, h m, State.rd]

theorem rdBad_congr_mems (h : MemSame lid s t) (m : CoreMem) (a n : Nat) : t.rdBad lid m a n = s.rdBad lid m a n := by
  rw [State.rdBad, h m, State.rdBad]

theorem nextPiece_congr (h : MemSame lid s t) (k : Nat) (mv : Move) : nextPiece t lid k mv = nextPiece s lid k mv := by
  have hmask : ∀ m a n, t.poisonMask lid m a n = s.poisonMask lid m a n := fun m a n => by
    simp only [State.poisonMask, rdBad_congr_mems h]
  simp only [nextPiece, hmask, rd_congr_mems h]

theorem startMove_effect (hin : s.getF (qPc lid .x) < 4095) (hfree : ∀ k, (s.core lid).move k = none) (hidle : StopIdle s lid)
    (hclean : CleanCore s lid) (hunits : 0 < xUnits op) : TakenUp lid op s (s.startMove lid op) := by
  have hzero : s.freeMove lid = some 0 := by simp [State.freeMove, hfree, List.range_succ]
  have hpc : (s.modCore lid fun c => c.setMove 0 (some { op := op })).getF (qPc lid .x) = s.getF (qPc lid .x) := rfl
  have hgo : s.startMove lid op = State.refill lid ((s.modCore lid fun c => c.setMove 0 (some { op := op })).advance lid .x) := by
    rw [State.startMove, hzero]
  rw [advance_inside (hpc.trans_lt hin), hpc] at hgo
  have hstep : CoreStep lid [qPc lid .x] s
      ((s.modCore lid fun c => c.setMove 0 (some { op := op })).setF (qPc lid .x) (s.getF (qPc lid .x) + 1)) :=
    (coreStep_modCore lid [qPc lid .x] _ s).trans ((regsOnly_setF _ _ (qPc_ok ..) (by simp)).coreStep lid)
  have hpc' := getF_setF_of_lt (qPc_ok lid .x) (show s.getF (qPc lid .x) + 1 < 4096 by omega)
    (s.modCore lid fun c => c.setMove 0 (some { op := op }))
  have hcore : ((s.modCore lid fun c => c.setMove 0 (some { op := op })).setF (qPc lid .x) (s.getF (qPc lid .x) + 1)).core lid =
      (s.core lid).setMove 0 (some { op := op }) := core_modCore_same ..
  have hrest : ((s.modCore lid fun c => c.setMove 0 (some { op := op })).setF (qPc lid .x) (s.getF (qPc lid .x) + 1)) =
      { s with regs := ((s.modCore lid fun c => c.setMove 0 (some { op := op })).setF (qPc lid .x) (s.getF (qPc lid .x) + 1)).regs,
               cores := ((s.modCore lid fun c => c.setMove 0 (some { op := op })).setF (qPc lid .x) (s.getF (qPc lid .x) + 1)).cores } := rfl
  generalize (s.modCore lid fun c => c.setMove 0 (some { op := op })).setF (qPc lid .x) (s.getF (qPc lid .x) + 1) = u at *
  have hmems : MemSame lid s u := fun m => by rw [hcore, mem_setMove]
  have hucl : CleanCore u lid := fun m => by rw [hmems m]; exact hclean m
  have hmove : (u.core lid).move 0 = some { op := op } := by rw [hcore, move_setMove_same]
  have hstop : ∀ i, u.stop i = s.stop i := fun i => hstep.stop_eq i
  have huidle : StopIdle u lid := by rwa [StopIdle, hstop lid]
  have hforms := forms_formMove hucl ⟨0, hmove⟩ 16
  have hgo' := hgo.trans (refill_of_first hucl huidle ⟨0, hmove⟩ fun k hk => by rw [hcore, move_setMove_ne _ hk, hfree])
  have hhead := formMove_head hucl hmove hunits huidle.1 15
  have hregs : ∀ f, (u.formMove lid 0 16).getF f = u.getF f := fun f => getF_congr (by rw [hforms.rest]) f
  rw [hgo']
  refine ⟨hhead.trans (by rw [nextPiece_congr hmems]), hforms.first ⟨0, hmove⟩, (hregs _).trans hpc',
    fun f hf ha => (hregs f).trans (hstep.2.2 f hf ha), fun m => (hforms.mems m).trans (hmems m),
    fun i hi => ⟨(hforms.others i hi).1.trans (hstop i), (hforms.others i hi).2.trans (hstep.2.1 i hi)⟩, ?_⟩
  rw [hforms.rest, hrest]

end Moves

end Sys2Proof.Machine
end
section
/-!
PROOFS. Scope: the operands of the move ops, retirement and acknowledgements (R213, R228, R229, R335, R339).
-/
namespace Sys2Proof.Machine

section MoveOps

variable {s t u : State} {lid mid p : Nat} {op : OpWord} {mv : Move}

/-! ### The first flit (R228, R247) -/

theorem xHlen_pos (op : OpWord) : 0 < xHlen op := Nat.succ_pos _

theorem xLen_pos (op : OpWord) : 0 < xLen op := Nat.succ_pos _

theorem firstPiece_hbm (h : CleanCore s lid) (hop : opOpcode op = 0x80) :
    (nextPiece s lid 0 { op := op }).1 = (if bitOf op 115
      then .hbm lid 0 true (xHaddr op) lid false 0 (min (min 2 (xHlen op)) ((256 - xHaddr op % 256) / 64)) 0
        (s.rd lid (memOf (bitOf op 112)) (xLoc op) (64 * min (min 2 (xHlen op)) ((256 - xHaddr op % 256) / 64)))
      else .hbm lid 0 false (xHaddr op) lid (bitOf op 113) (xLoc op) (min (min 2 (xHlen op)) ((256 - xHaddr op % 256) / 64)) 0 []) := by
  rw [nextPiece]
  simp only [hop, h.poisonMask_eq, Nat.mul_zero, Nat.add_zero, Nat.sub_zero, Nat.reduceEqDiff, if_false]
  cases bitOf op 115 <;> rfl

theorem firstPiece_send (h : CleanCore s lid) (hop : opOpcode op = 0x81) :
    (nextPiece s lid 0 { op := op }).1 = .send lid 0 (bitsOf op 76 11) (bitOf op 115) (bitsOf op 87 12) (bitOf op 113)
      (xDaddr op) (decide (min 2 (xLen op) = xLen op)) (bitOf op 114) (xSctr op) 0
      (s.rd lid (memOf (bitOf op 112)) (xSaddr op) (64 * min 2 (xLen op))) := by
  rw [nextPiece]
  simp only [hop, h.poisonMask_eq, Nat.mul_zero, Nat.add_zero, Nat.sub_zero, Nat.zero_add]
  rfl

/-! ### What the operands raise (R229) -/

theorem xHbmOp_of_fault (hhead : AtHead s lid .x op) (hop : opOpcode op = 0x80) {c : Nat} (hf : hbmFault s lid op = some c) :
    xHbmOp lid s = s.opFault lid .x c := by
  rw [xHbmOp, ← hop, issue_of_atHead hhead, hf]

theorem xHbmOp_of_ok (hhead : AtHead s lid .x op) (hop : opOpcode op = 0x80) (hf : hbmFault s lid op = none) :
    xHbmOp lid s = s.startMove lid op := by
  rw [xHbmOp, ← hop, issue_of_atHead hhead, hf]

theorem xSendOp_of_fault (hhead : AtHead s lid .x op) (hop : opOpcode op = 0x81) {c : Nat} (hf : sendFault s lid op = some c) :
    xSendOp lid s = s.opFault lid .x c := by
  rw [xSendOp, ← hop, issue_of_atHead hhead, hf]

theorem xSendOp_of_ok (hhead : AtHead s lid .x op) (hop : opOpcode op = 0x81) (hf : sendFault s lid op = none) :
    xSendOp lid s = s.startMove lid op := by
  rw [xSendOp, ← hop, issue_of_atHead hhead, hf]

/-- A queue that issues belongs to a partition (R235). -/
theorem AtHead.exists_owner (h : AtHead s lid .x op) : ∃ p, s.owner lid = some p := by
  have hissues := h.issues
  rw [State.issues] at hissues
  cases hown : s.owner lid with
  | none => simp [hown] at hissues
  | some p => exact ⟨p, rfl⟩

theorem hbmFault_align (hres : opReserved (hbmFields op) op = false) (h : xHaddr op % 64 ≠ 0 ∨ xLoc op % 64 ≠ 0) :
    hbmFault s lid op = some fXmvOperand := by
  rw [hbmFault]
  simp only [hres, if_pos h, Bool.false_eq_true, if_false]

/-- What is left of the checks once the addresses are in order. -/
theorem hbmFault_aligned (hres : opReserved (hbmFields op) op = false) (ha : xHaddr op % 64 = 0) (hl : xLoc op % 64 = 0)
    (hown : s.owner lid = some p) : hbmFault s lid op =
      if !inMem (bitOf op (if bitOf op 115 then 112 else 113)) (xLoc op) (xHlen op) then some fXmvRange
      else if s.granted p (bitOf op 115) (xHaddr op) (64 * xHlen op) then none else some fXmvRange := by
  rw [hbmFault]
  simp only [hres, hown, if_neg (show ¬ (xHaddr op % 64 ≠ 0 ∨ xLoc op % 64 ≠ 0) by omega), Bool.false_eq_true, if_false]

theorem granted_of_past {w : Bool} {a n : Nat} (h : 0x2E00000000 < a + n) : s.granted p w a n = false := by
  rw [State.granted, decide_eq_false (by omega), Bool.false_and]

/-- Without a grant that reaches down to the first page the range is not granted (R335). -/
theorem granted_of_no_grant {w : Bool} {a n : Nat} (hn : 0 < n)
    (h : ∀ g ∈ s.pat.grants, g.part ≠ p ∨ a / 4096 * 4096 < g.base) : s.granted p w a n = false := by
  have hpage : (s.pat.grants.any fun g => g.allows p w (4096 * (a / 4096))) = false := by
    rw [List.any_eq_false]
    intro g hg
    rcases h g hg with hpart | hbase
    · simp [Grant.allows, hpart]
    · simp [Grant.allows, show ¬ g.base ≤ 4096 * (a / 4096) by omega]
  have hfirst : a / 4096 ∈ rangeFrom (a / 4096) ((a + n + 4095) / 4096) := mem_rangeFrom.2 ⟨Nat.le_refl _, by omega⟩
  rw [State.granted, Bool.and_eq_false_iff, List.all_eq_false]
  exact .inr ⟨_, hfirst, by simp [hpage]⟩

theorem sendFault_eq (hres : opReserved sendFields op = false) (hs : xSaddr op % 64 = 0) (hd : xDaddr op % 64 = 0) :
    sendFault s lid op =
      if !inMem (bitOf op 112) (xSaddr op) (xLen op) || !inMem (bitOf op 113) (xDaddr op) (xLen op) then some fXmvRange
      else if (if bitOf op 115 then s.pkgOk lid (bitsOf op 87 12) else s.samePart lid (bitsOf op 76 11)) then none
      else some fXmvDest := by
  rw [sendFault]
  simp only [hres, if_neg (show ¬ (xSaddr op % 64 ≠ 0 ∨ xDaddr op % 64 ≠ 0) by omega), Bool.false_eq_true, if_false]
  cases bitOf op 115 <;> rfl

theorem copyFault_align (hres : opReserved [(0, 56), (99, 6), (112, 3)] op = false) (h : xSaddr op % 64 ≠ 0 ∨ xDaddr op % 64 ≠ 0) :
    copyFault op = some fXmvOperand := by
  rw [copyFault]
  simp only [hres, if_pos h, Bool.false_eq_true, if_false]

theorem freeMove_of_all (h : ∀ k, k < 4 → (s.core lid).move k ≠ none) : s.freeMove lid = none := by
  rw [State.freeMove, List.find?_eq_none]
  intro k hk
  simpa using h k (List.mem_range.1 hk)

/-! ### Retirement (R213, R228) -/

/-- The state once a move is off its number. -/
def State.moveOff (lid mid : Nat) (s : State) : State := (s.modCore lid fun c => c.setMove mid none).opDone lid .x

theorem moveRetireOp_of_done (hm : (s.core lid).move mid = some mv) (hrun : s.coreRuns lid = true) (hdone : xUnits mv.op ≤ mv.done) :
    moveRetireOp lid mid s = if bitOf mv.op 114 && opOpcode mv.op != 0x81 then (s.moveOff lid mid).remoteAdd lid (xSctr mv.op) 1
      else s.moveOff lid mid := by
  simp [moveRetireOp, hm, hrun, hdone, State.moveOff]

theorem moveOff_effect (lid mid : Nat) (s : State) : (s.moveOff lid mid).core lid = (s.core lid).setMove mid none ∧
    (s.moveOff lid mid).getF (qOps lid .x) = satAdd 64 (s.getF (qOps lid .x)) 1 ∧ CoreStep lid [qOps lid .x] s (s.moveOff lid mid) :=
  ⟨core_modCore_same .., getF_incF_same _ _ (qOps_ok ..),
    (coreStep_modCore lid [qOps lid .x] _ s).trans ((regsOnly_incF _ _ (qOps_ok ..) (by simp)).coreStep lid)⟩

/-- An ADD of 1 that no queue waits for and that does not overflow (R218). -/
theorem remoteAdd_one {n : Nat} (hno : NoWaiter s lid n) (hlt : s.getF (cCtr lid n) < 65535) :
    s.remoteAdd lid n 1 = s.setF (cCtr lid n) (s.getF (cCtr lid n) + 1) := by
  have hover : s.overflows lid n 1 = false := decide_eq_false (by omega)
  rw [State.remoteAdd, hover]
  simp only [Bool.false_eq_true, if_false]
  rw [bump_eq, hover, if_neg Bool.false_ne_true, resolveCtr_setCtr hno]

/-- A move that has been written out retires, and its SIG counts (R228). -/
theorem moveRetireOp_effect (hm : (s.core lid).move mid = some mv) (hrun : s.coreRuns lid = true) (hdone : xUnits mv.op ≤ mv.done)
    (hsig : (bitOf mv.op 114 && opOpcode mv.op != 0x81) = true → NoWaiter s lid (xSctr mv.op) ∧ s.getF (cCtr lid (xSctr mv.op)) < 65535)
    {t : State} (ht : t = moveRetireOp lid mid s) :
    t.core lid = (s.core lid).setMove mid none ∧ t.getF (qOps lid .x) = satAdd 64 (s.getF (qOps lid .x)) 1 ∧
      t.getF (cCtr lid (xSctr mv.op)) = s.getF (cCtr lid (xSctr mv.op)) + (if bitOf mv.op 114 && opOpcode mv.op != 0x81 then 1 else 0) ∧
      CoreStep lid [qOps lid .x, cCtr lid (xSctr mv.op)] s t := by
  obtain ⟨hcore, hops, hstep⟩ := moveOff_effect lid mid s
  have hkeep : ∀ q n, (s.moveOff lid mid).getF (qState lid q) = s.getF (qState lid q) ∧
      (s.moveOff lid mid).getF (qWctr lid q) = s.getF (qWctr lid q) ∧ (s.moveOff lid mid).getF (cCtr lid n) = s.getF (cCtr lid n) := by
    intro q n
    have hq := queue_num_lt q
    refine ⟨hstep.2.2 _ (qState_ok ..) ?_, hstep.2.2 _ (qWctr_ok ..) ?_, hstep.2.2 _ (cCtr_ok ..) ?_⟩
    · simp only [List.forall_mem_singleton, Fld.Apart, Fld.base, qState, qOps, Queue.num]
      omega
    · simp only [List.forall_mem_singleton, Fld.Apart, Fld.base, qWctr, qOps, Queue.num]
      omega
    · exact List.forall_mem_singleton.2 (qOps_apart_cCtr ..).symm
  have hval := (hkeep .x (xSctr mv.op)).2.2
  rw [moveRetireOp_of_done hm hrun hdone] at ht
  split at ht
  · next h =>
    obtain ⟨hno, hlt⟩ := hsig h
    rw [remoteAdd_one (hno.congr fun q => ⟨(hkeep q 0).1, (hkeep q 0).2.1⟩) (hval.trans_lt hlt), hval] at ht
    subst ht
    refine ⟨(core_setF ..).trans hcore, ?_, ?_, (hstep.mono (by simp)).trans ((regsOnly_setF _ _ (cCtr_ok ..) (by simp)).coreStep lid)⟩
    · rw [getF_setF_apart _ _ _ (qOps_ok ..) (cCtr_ok ..) (qOps_apart_cCtr ..), hops]
    · rw [if_pos h, cCtr_setCtr (by omega)]
  · next h =>
    subst ht
    exact ⟨hcore, hops, by rw [if_neg h, hval, Nat.add_zero], hstep.mono (by simp)⟩

theorem moveRetireOp_of_open (hm : (s.core lid).move mid = some mv) (hopen : mv.done < xUnits mv.op) : moveRetireOp lid mid s = s := by
  simp [moveRetireOp, hm, Nat.not_le.2 hopen]

/-! ### Acknowledgements (R339) -/

theorem writeAckOp_of_acked {units : Nat} {rest : List (Nat × Nat × Nat)}
    (hack : takeFirst (fun a => a.1 == lid) s.acks = some ((lid, mid, units), rest)) : writeAckOp lid s =
      if s.resetting (dieOf lid) then State.incF gSprueDiscards 1 { s with acks := rest }
      else State.moveDone lid mid units { s with acks := rest } := by
  rw [writeAckOp, hack]
  rfl

theorem moveDone_of_move (hm : (s.core lid).move mid = some mv) (units : Nat) : s.moveDone lid mid units =
    s.modCore lid fun c => c.setMove mid (some { mv with done := mv.done + units }) := by
  rw [State.moveDone, hm]

end MoveOps

theorem movesTakenUp : MovesTakenUpRule := by
  unfold MovesTakenUpRule
  intro s lid op hhead hfree hidle hclean
  refine ⟨fun hop hres ha hl hin hgrant => ?_, fun hop hres hs hd hsm hdm hdest => ?_⟩
  · obtain ⟨p, hown, hgranted⟩ := hgrant
    have hnone : hbmFault s lid op = none := by
      rw [hbmFault_aligned hres ha hl hown, hin, hgranted]
      rfl
    have hgo := xHbmOp_of_ok hhead hop hnone
    have hunits : 0 < xUnits op := by rw [xUnits, if_pos hop]; exact xHlen_pos op
    obtain ⟨hfirst, hmove, hpc, honly, hmems, hothers, hrest⟩ := startMove_effect hhead.inside hfree hidle hclean hunits
    rw [firstPiece_hbm hclean hop] at hfirst
    exact ⟨_, _, (guarded_of_lid hhead.core).trans (by rw [hgo]), rfl, hfirst, hmove, hpc, honly, hmems, hothers, hrest⟩
  · have hnone : sendFault s lid op = none := by
      rw [sendFault_eq hres hs hd, hsm, hdm, hdest]
      rfl
    have hgo := xSendOp_of_ok hhead hop hnone
    have hunits : 0 < xUnits op := by rw [xUnits, if_neg (by omega)]; exact xLen_pos op
    obtain ⟨hfirst, hmove, hpc, honly, hmems, hothers, hrest⟩ := startMove_effect hhead.inside hfree hidle hclean hunits
    rw [firstPiece_send hclean hop] at hfirst
    exact ⟨_, _, (guarded_of_lid hhead.core).trans (by rw [hgo]), rfl, hfirst, hmove, hpc, honly, hmems, hothers, hrest⟩

theorem moveFaults : MoveFaultsRule := by
  unfold MoveFaultsRule
  intro s lid op hhead
  refine ⟨fun hop hres => ⟨fun halign => ⟨_, guarded_of_lid hhead.core, ?_⟩, fun ha hl hrange => ⟨_, guarded_of_lid hhead.core, ?_⟩⟩,
    fun hop hres hs hd => ⟨fun hrange => ⟨_, guarded_of_lid hhead.core, ?_⟩, fun hsm hdm hdest => ⟨_, guarded_of_lid hhead.core, ?_⟩⟩,
    fun hop hres => ⟨fun halign => ⟨_, guarded_of_lid hhead.core, ?_⟩, fun hnone hfull => (guarded_of_lid hhead.core).trans ?_⟩⟩
  · rw [xHbmOp_of_fault hhead hop (hbmFault_align hres halign)]
    exact opFault_halted lid .x (by decide) s
  · have hfault : hbmFault s lid op = some fXmvRange := by
      obtain ⟨p, hown⟩ := hhead.exists_owner
      rw [hbmFault_aligned hres ha hl hown]
      rcases hrange with hmem | hpast | ⟨p', hown', hno⟩
      · rw [if_pos (by simpa using hmem)]
      · simp [granted_of_past hpast]
      · have hpos := xHlen_pos op
        obtain rfl : p = p' := Option.some.inj (hown.symm.trans hown')
        simp [granted_of_no_grant (w := bitOf op 115) (n := 64 * xHlen op) (by omega) hno]
    rw [xHbmOp_of_fault hhead hop hfault]
    exact opFault_halted lid .x (by decide) s
  · have hfault : sendFault s lid op = some fXmvRange := by
      rw [sendFault_eq hres hs hd, if_pos (by simpa using hrange)]
    rw [xSendOp_of_fault hhead hop hfault]
    exact opFault_halted lid .x (by decide) s
  · have hfault : sendFault s lid op = some fXmvDest := by
      rw [sendFault_eq hres hs hd, hsm, hdm]
      rcases hdest with ⟨hlocal, hpart⟩ | ⟨hremote, hpkg⟩
      · simp [hlocal, hpart]
      · simp [hremote, hpkg]
    rw [xSendOp_of_fault hhead hop hfault]
    exact opFault_halted lid .x (by decide) s
  · have hgo : xCopyOp lid s = s.opFault lid .x fXmvOperand := by
      rw [xCopyOp, ← hop, issue_of_atHead hhead, copyFault_align hres halign]
    rw [hgo]
    exact opFault_halted lid .x (by decide) s
  · rw [xCopyOp_of_atHead hhead hop hnone, copyBody, freeMove_of_all hfull]

theorem moveRetires : MoveRetiresRule := by
  unfold MoveRetiresRule
  intro s lid mid m hlid hmid hm
  have hok : (decide (lid < 2048) && decide (mid < 4)) = true := by simp [hlid, hmid]
  refine ⟨fun hrun hdone hsig => ⟨_, guarded_of hok _ _, ?_⟩, fun hopen => (guarded_of hok _ _).trans ?_, fun units rest hack =>
    ⟨fun hrun => ⟨_, guarded_of_lid hlid, ?_⟩, fun hreset => (guarded_of_lid hlid).trans ?_⟩⟩
  · have hcounts : (bitOf m.op 114 && opOpcode m.op != 0x81) = true →
        NoWaiter s lid (xSctr m.op) ∧ s.getF (cCtr lid (xSctr m.op)) < 65535 := fun h => by
      rw [Bool.and_eq_true, bne_iff_ne] at h
      rcases hsig with hsig | hsig | hsig
      · simp [hsig] at h
      · exact absurd hsig h.2
      · exact hsig
    obtain ⟨hcore, hops, hval, hstep⟩ := moveRetireOp_effect hm hrun hdone hcounts rfl
    refine ⟨?_, fun j hj => ?_, fun k => ?_, hops, ?_, hstep⟩
    · rw [hcore, move_setMove_same]
    · rw [hcore, move_setMove_ne _ hj]
    · rw [hcore, mem_setMove]
    · rw [hval]
      congr 1
      exact if_congr (by simp) rfl rfl
  · rw [moveRetireOp_of_open hm hopen]
  · have hgo : writeAckOp lid s = _ := (writeAckOp_of_acked hack).trans (if_neg (by simp [hrun]))
    rw [moveDone_of_move (mv := m) (s := { s with acks := rest }) hm] at hgo
    have hcore : (writeAckOp lid s).core lid = (s.core lid).setMove mid (some { m with done := m.done + units }) := by
      rw [hgo]
      exact core_modCore_same ..
    refine ⟨?_, fun j hj => ?_, fun k => ?_, ?_, ?_, fun i hi => ?_⟩
    · rw [hcore, move_setMove_same]
    · rw [hcore, move_setMove_ne _ hj]
    · rw [hcore, mem_setMove]
    · rw [hgo]
      rfl
    · rw [hgo]
      rfl
    · rw [hgo]
      exact core_modCore_ne _ hi
  · rw [writeAckOp_of_acked hack, if_pos hreset]

/-- Settles O14: an idle core's move forms its first piece at once; the checks of R229 come in their order. -/
theorem movesRunAndFault : Obligations.MovesRunAndFault := ⟨movesTakenUp, moveFaults, moveRetires⟩

end Sys2Proof.Machine
end
section
/-!
PROOFS. Scope: host counters and the watches that look at them (R230-R234, R407, R408).
-/
namespace Sys2Proof.Machine

section Watches

variable {s t u : State} {h w v f : Nat} {l : List Nat}

/-! ### Where their registers lie (R230, R233, R234) -/

theorem wtCounter_ok (w : Nat) : (wtCounter w).Ok := by simp [Fld.Ok, wtCounter]
theorem wtThreshold_ok (w : Nat) : (wtThreshold w).Ok := by simp [Fld.Ok, wtThreshold]
theorem wtAction_ok (w : Nat) : (wtAction w).Ok := by simp [Fld.Ok, wtAction]
theorem wtFlag_ok (w : Nat) : (wtFlag w).Ok := by simp [Fld.Ok, wtFlag]
theorem wtVector_ok (w : Nat) : (wtVector w).Ok := by simp [Fld.Ok, wtVector]
theorem wtEn_ok (w : Nat) : (wtEn w).Ok := by simp [Fld.Ok, wtEn]
theorem wtFires_ok (w : Nat) : (wtFires w).Ok := by simp [Fld.Ok, wtFires]
theorem wtAbove_ok (w : Nat) : (wtAbove w).Ok := by simp [Fld.Ok, wtAbove]
theorem flSeq_ok (f : Nat) : (flSeq f).Ok := by simp [Fld.Ok, flSeq]
theorem hcValue_ok (h : Nat) : (hcValue h).Ok := by simp [Fld.Ok, hcValue]

/-- What a watch looks at and does, and its count of fires: all of it but ABOVE. -/
def watchFields (w : Nat) : List Fld := [wtCounter w, wtThreshold w, wtAction w, wtFlag w, wtVector w, wtEn w, wtFires w]

theorem watchFields_apart_above (w v : Nat) : ∀ g ∈ watchFields w, g.Ok ∧ g.Apart (wtAbove v) := by
  simp only [watchFields, List.forall_mem_cons, Fld.Ok, Fld.Apart, Fld.base, wtCounter, wtThreshold, wtAction, wtFlag, wtVector,
    wtEn, wtFires, wtAbove]
  refine ⟨?_, ?_, ?_, ?_, ?_, ?_, ?_, List.forall_mem_nil _⟩ <;> omega

theorem wtAbove_apart (h : w ≠ v) : (wtAbove w).Apart (wtAbove v) := by
  simp only [Fld.Apart, Fld.base, wtAbove]
  omega

theorem hcValue_apart_above (h v : Nat) : (hcValue h).Apart (wtAbove v) := by
  simp only [Fld.Apart, Fld.base, hcValue, wtAbove]
  omega

/-- The fields of one flag (R407). -/
def hostFlagFields (f : Nat) : List Fld := [flAddr f, flEn f, flSeq f]

theorem hostFlagFields_apart_above (hv : v < 32) (f : Nat) : ∀ g ∈ hostFlagFields f, g.Ok ∧ g.Apart (wtAbove v) := by
  simp only [hostFlagFields, List.forall_mem_cons, Fld.Ok, Fld.Apart, Fld.base, flAddr, flEn, flSeq, wtAbove]
  refine ⟨?_, ?_, ?_, List.forall_mem_nil _⟩ <;> omega

/-! ### Watches that do not fire (R234) -/

/-- What `resolveWatches` does with one watch. -/
def State.watchStep (h w : Nat) (s : State) : State :=
  if s.getF (wtCounter w) = h then s.resolveWatch w (s.onF (wtEn w) && s.onF (wtAbove w)) else s

theorem resolveWatches_eq (h : Nat) (s : State) : s.resolveWatches h = forAll (List.range 32) (State.watchStep h) s := rfl

/-- A watch on counter `h` is enabled. -/
def Watches (s : State) (h w : Nat) : Prop := s.getF (wtCounter w) = h ∧ s.onF (wtEn w) = true

/-- ABOVE as the counter stands. -/
def State.aboveOf (s : State) (h w : Nat) : Nat := (decide (s.getF (wtThreshold w) ≤ s.getF (hcValue h))).toNat

theorem watchStep_quiet (hno : ¬ Watches s h w) :
    s.watchStep h w = if s.getF (wtCounter w) = h then s.setF (wtAbove w) (s.aboveOf h w) else s := by
  rw [State.watchStep]
  split
  · next hctr =>
    have hen : s.onF (wtEn w) = false := by simpa using fun hen => hno ⟨hctr, hen⟩
    have hen' : ∀ n, (s.setF (wtAbove w) n).onF (wtEn w) = false := fun n => by
      rw [State.onF, getF_setF_apart _ _ _ (wtEn_ok w) (wtAbove_ok w) (watchFields_apart_above w w _ (by simp [watchFields])).2]
      exact hen
    simp only [State.resolveWatch, hen', hctr, Bool.and_false, Bool.false_and, Bool.false_eq_true, if_false, State.aboveOf]
  · rfl

/-- The ABOVE fields of the watches of a list that look at counter `h`. -/
def aboveFields (s : State) (h : Nat) (l : List Nat) : List Fld := (l.filter fun w => s.getF (wtCounter w) == h).map wtAbove

theorem mem_aboveFields {g : Fld} (hg : g ∈ aboveFields s h l) : ∃ v ∈ l, g = wtAbove v := by
  rw [aboveFields, List.mem_map] at hg
  obtain ⟨v, hv, rfl⟩ := hg
  exact ⟨v, (List.mem_filter.1 hv).1, rfl⟩

/-- What a change of ABOVE fields leaves. -/
theorem kept_of_aboveFields (hs : OnlyFields (aboveFields s h l) s t) :
    (∀ w, ∀ g ∈ watchFields w, t.getF g = s.getF g) ∧ (∀ k, t.getF (hcValue k) = s.getF (hcValue k)) ∧
      (∀ w, w ∉ l → t.getF (wtAbove w) = s.getF (wtAbove w)) ∧
      ((∀ v ∈ l, v < 32) → ∀ f, ∀ g ∈ hostFlagFields f, t.getF g = s.getF g) := by
  refine ⟨fun w g hg => hs g (watchFields_apart_above w 0 g hg).1 fun a ha => ?_, fun k => hs _ (hcValue_ok k) fun a ha => ?_,
    fun w hw => hs _ (wtAbove_ok w) fun a ha => ?_, fun hl f g hg => hs g (hostFlagFields_apart_above (v := 0) (by decide) f g hg).1 fun a ha => ?_⟩
  · obtain ⟨v, -, rfl⟩ := mem_aboveFields ha
    exact (watchFields_apart_above w v g hg).2
  · obtain ⟨v, -, rfl⟩ := mem_aboveFields ha
    exact hcValue_apart_above k v
  · obtain ⟨v, hv, rfl⟩ := mem_aboveFields ha
    exact wtAbove_apart fun hwv => hw (hwv ▸ hv)
  · obtain ⟨v, hv, rfl⟩ := mem_aboveFields ha
    exact (hostFlagFields_apart_above (hl v hv) f g hg).2

theorem aboveFields_congr (hc : ∀ w, t.getF (wtCounter w) = s.getF (wtCounter w)) (h : Nat) (l : List Nat) :
    aboveFields t h l = aboveFields s h l := by
  simp only [aboveFields, hc]

theorem watches_congr (hk : ∀ g ∈ watchFields w, t.getF g = s.getF g) : Watches t h w ↔ Watches s h w := by
  rw [Watches, Watches, State.onF, State.onF, hk _ (by simp [watchFields]), hk _ (by simp [watchFields])]

theorem aboveOf_congr (hk : ∀ g ∈ watchFields w, t.getF g = s.getF g) (hv : t.getF (hcValue h) = s.getF (hcValue h)) :
    t.aboveOf h w = s.aboveOf h w := by
  rw [State.aboveOf, hk _ (by simp [watchFields]), hv, State.aboveOf]

theorem aboveOf_lt (s : State) (h w : Nat) : s.aboveOf h w < 2 := Bool.toNat_lt _

/-- Watches that are not enabled follow the counter, and nothing else happens (R234). -/
theorem watchSteps_quiet (hl : l.Nodup) (hno : ∀ w ∈ l, ¬ Watches s h w) :
    RegsOnly (aboveFields s h l) s (forAll l (State.watchStep h) s) ∧
      ∀ w ∈ l, s.getF (wtCounter w) = h → (forAll l (State.watchStep h) s).getF (wtAbove w) = s.aboveOf h w := by
  induction l generalizing s with
  | nil => exact ⟨.refl .., nofun⟩
  | cons w l ih =>
    obtain ⟨hwl, hnd⟩ := List.nodup_cons.1 hl
    have hstep : RegsOnly (aboveFields s h [w]) s (s.watchStep h w) ∧
        (s.getF (wtCounter w) = h → (s.watchStep h w).getF (wtAbove w) = s.aboveOf h w) := by
      rw [watchStep_quiet (hno w (by simp))]
      split
      · next hctr =>
        exact ⟨regsOnly_setF _ _ (wtAbove_ok w) (by simp [aboveFields, hctr]), fun _ => getF_setF_of_lt (wtAbove_ok w) (aboveOf_lt ..) s⟩
      · next hctr => exact ⟨.refl .., fun hc => absurd hc hctr⟩
    obtain ⟨hkept, hvals, -, -⟩ := kept_of_aboveFields hstep.1.2
    have hctrs : ∀ v, (s.watchStep h w).getF (wtCounter v) = s.getF (wtCounter v) := fun v => hkept v _ (by simp [watchFields])
    obtain ⟨hrest, hlater⟩ := ih hnd fun v hv => mt (watches_congr (hkept v)).1 (hno v (by simp [hv]))
    rw [aboveFields_congr hctrs] at hrest
    have hsub : ∀ k : List Nat, (∀ v ∈ k, v ∈ w :: l) → ∀ g ∈ aboveFields s h k, g ∈ aboveFields s h (w :: l) := by
      intro k hk g hg
      rw [aboveFields, List.mem_map] at hg ⊢
      obtain ⟨v, hv, rfl⟩ := hg
      exact ⟨v, List.mem_filter.2 ⟨hk v (List.mem_filter.1 hv).1, (List.mem_filter.1 hv).2⟩, rfl⟩
    rw [forAll_cons]
    refine ⟨(hstep.1.mono (hsub [w] (by simp))).trans (hrest.mono (hsub l (by simp +contextual))), fun v hv hctr => ?_⟩
    rcases List.mem_cons.1 hv with rfl | hvl
    · obtain ⟨-, -, habove, -⟩ := kept_of_aboveFields (s := s.watchStep h v) (h := h) (l := l) (by
        rw [aboveFields_congr hctrs]
        exact hrest.2)
      rw [habove v hwl, hstep.2 hctr]
    · rw [hlater v hvl ((hctrs v).trans hctr), aboveOf_congr (hkept v) (hvals h)]

/-! ### A watch that fires (R234, R407, R408) -/

theorem forAll_append {α σ : Type} (l k : List α) (g : α → σ → σ) (x : σ) : forAll (l ++ k) g x = forAll k g (forAll l g x) :=
  List.foldl_append

/-- A watch that becomes above while it is enabled. -/
structure Fires (s : State) (h w : Nat) : Prop where
  counter : s.getF (wtCounter w) = h
  enabled : s.onF (wtEn w) = true
  below : s.getF (wtAbove w) = 0
  reached : s.getF (wtThreshold w) ≤ s.getF (hcValue h)

theorem watchStep_fires (hf : Fires s h w) : s.watchStep h w = (s.setF (wtAbove w) 1).fire w (s.getF (hcValue h)) := by
  have hen : (s.setF (wtAbove w) 1).onF (wtEn w) = true := by
    rw [State.onF, getF_setF_apart _ _ _ (wtEn_ok w) (wtAbove_ok w) (watchFields_apart_above w w _ (by simp [watchFields])).2]
    exact hf.enabled
  have hbelow : s.onF (wtAbove w) = false := by simp [State.onF, hf.below]
  rw [State.watchStep, if_pos hf.counter, hbelow, Bool.and_false, State.resolveWatch]
  simp [hf.counter, hf.reached, hen]

theorem watchFields_apart_fires (w : Nat) : ∀ g ∈ [wtAction w, wtFlag w, wtVector w], g.Ok ∧ g.Apart (wtFires w) := by
  simp only [List.forall_mem_cons, Fld.Ok, Fld.Apart, Fld.base, wtAction, wtFlag, wtVector, wtFires]
  refine ⟨?_, ?_, ?_, List.forall_mem_nil _⟩ <;> omega

theorem hostFlagFields_apart_fires (hw : w < 32) (f : Nat) : ∀ g ∈ hostFlagFields f, g.Ok ∧ g.Apart (wtFires w) := by
  simp only [hostFlagFields, List.forall_mem_cons, Fld.Ok, Fld.Apart, Fld.base, flAddr, flEn, flSeq, wtFires]
  refine ⟨?_, ?_, ?_, List.forall_mem_nil _⟩ <;> omega

/-- A count of fires leaves what a watch does, and the flags. -/
theorem kept_of_fires (hw : w < 32) (s : State) : (∀ g ∈ [wtAction w, wtFlag w, wtVector w], (s.incF (wtFires w) 1).getF g = s.getF g) ∧
    ∀ f, ∀ g ∈ hostFlagFields f, (s.incF (wtFires w) 1).getF g = s.getF g :=
  ⟨fun g hg => getF_incF_apart _ _ _ (watchFields_apart_fires w g hg).1 (wtFires_ok w) (watchFields_apart_fires w g hg).2,
    fun f g hg => getF_incF_apart _ _ _ (hostFlagFields_apart_fires hw f g hg).1 (wtFires_ok w) (hostFlagFields_apart_fires hw f g hg).2⟩

/-- A fire with ACTION 1 writes its flag with the next sequence number (R407). -/
theorem fire_flag (hw : w < 32) (ha : s.getF (wtAction w) = 1) (hen : s.getF (flEn (s.getF (wtFlag w))) = 1)
    (hbus : s.hostcfg.busMaster = true) (v : Nat) : s.fire w v =
      ((s.incF (wtFires w) 1).setF (flSeq (s.getF (wtFlag w))) ((s.getF (flSeq (s.getF (wtFlag w))) + 1) % 2 ^ 32)).emit
        (.flagWrite (s.getF (flAddr (s.getF (wtFlag w))) / 8 * 8)
          (BitVec.ofNat 64 ((s.getF (flSeq (s.getF (wtFlag w))) + 1) % 2 ^ 32 + 2 ^ 32 * v + 2 ^ 48 * w))) := by
  obtain ⟨hown, hflag⟩ := kept_of_fires hw s
  have haction := (hown (wtAction w) (by simp)).trans ha
  have hfl := hown (wtFlag w) (by simp)
  have hseq := hflag (s.getF (wtFlag w)) (flSeq (s.getF (wtFlag w))) (by simp [hostFlagFields])
  have haddr := hflag (s.getF (wtFlag w)) (flAddr (s.getF (wtFlag w))) (by simp [hostFlagFields])
  have henf := (hflag (s.getF (wtFlag w)) (flEn (s.getF (wtFlag w))) (by simp [hostFlagFields])).trans hen
  have hopen : ((s.incF (wtFires w) 1).onF (flEn (s.getF (wtFlag w))) && (s.incF (wtFires w) 1).hostcfg.busMaster) = true := by
    rw [State.onF, henf]
    exact hbus
  rw [State.fire]
  simp only [haction, Nat.one_mod, if_true, Nat.reduceDiv, Nat.zero_ne_one, if_false]
  rw [State.flagWrite, hfl, if_pos hopen]
  simp only [hseq, haddr]

/-- A fire with ACTION 2 sends its vector's message (R408). -/
theorem fire_msix (hw : w < 32) (ha : s.getF (wtAction w) = 2) (hbus : s.hostcfg.busMaster = true) (hen : s.hostcfg.msixEnable = true)
    (hfun : s.hostcfg.functionMask = false) (hmask : s.hostcfg.masked.getLsbD (s.getF (wtVector w)) = false) (v : Nat) :
    s.fire w v = (s.incF (wtFires w) 1).emit (s.msixMessage (s.getF (wtVector w))) := by
  obtain ⟨hown, -⟩ := kept_of_fires hw s
  have haction := (hown (wtAction w) (by simp)).trans ha
  have hvec := hown (wtVector w) (by simp)
  have hopen : (!(s.incF (wtFires w) 1).hostcfg.busMaster || !(s.incF (wtFires w) 1).hostcfg.msixEnable ||
      (s.incF (wtFires w) 1).hostcfg.functionMask || (s.incF (wtFires w) 1).hostcfg.masked.getLsbD (s.getF (wtVector w))) = false := by
    show (!s.hostcfg.busMaster || !s.hostcfg.msixEnable || s.hostcfg.functionMask || s.hostcfg.masked.getLsbD (s.getF (wtVector w))) = false
    rw [hbus, hen, hfun, hmask]
    rfl
  rw [State.fire]
  simp only [haction, Nat.mod_self, Nat.zero_ne_one, if_false, Nat.reduceDiv, if_true]
  rw [State.msix, hvec, if_neg (by rw [hopen]; decide)]
  rfl

/-- The watches before one of the 32, and those behind it. -/
theorem watches_split (hw : w < 32) : ∃ l k, List.range 32 = l ++ w :: k ∧ l.Nodup ∧ k.Nodup ∧ w ∉ l ∧ w ∉ k ∧ ∀ v ∈ l ++ k, v < 32 ∧ v ≠ w := by
  obtain ⟨l, k, heq⟩ := List.append_of_mem (List.mem_range.2 hw)
  have hnd : (l ++ w :: k).Nodup := heq ▸ List.nodup_range
  obtain ⟨hl, hwk, hdis⟩ := List.nodup_append.1 hnd
  obtain ⟨hk, hknd⟩ := List.nodup_cons.1 hwk
  have hwl : w ∉ l := fun hm => hdis w hm w (by simp) rfl
  refine ⟨l, k, heq, hl, hknd, hwl, hk, fun v hv => ⟨?_, ?_⟩⟩
  · rw [← List.mem_range, heq]
    simpa [or_left_comm] using .inr (List.mem_append.1 hv)
  · rintro rfl
    exact (List.mem_append.1 hv).elim hwl hk

/-- A fire changes its count and the sequence number of its flag at most. -/
def FireOnly (w f : Nat) (s t : State) : Prop := OnlyFields [wtFires w, flSeq f] s t

theorem OnlyFields.emit {m : List Fld} (hs : OnlyFields m s t) (o : Output) : OnlyFields m s (t.emit o) :=
  fun g hg ha => (getF_emit g o).trans (hs g hg ha)

theorem fireOnly_flag (w f n : Nat) (o : Output) (s : State) : FireOnly w f s (((s.incF (wtFires w) 1).setF (flSeq f) n).emit o) := by
  refine OnlyFields.emit ?_ o
  exact (regsOnly_incF (wtFires w) 1 (wtFires_ok w) (by simp)).2.setF (flSeq_ok f) (by simp) n

theorem fireOnly_msix (w f : Nat) (o : Output) (s : State) : FireOnly w f s ((s.incF (wtFires w) 1).emit o) := by
  refine OnlyFields.emit ?_ o
  exact (regsOnly_incF (wtFires w) 1 (wtFires_ok w) (by simp)).2

theorem fireFields_apart (hv : v < 32) (f : Nat) :
    ∀ a ∈ [wtFires w, flSeq f], ∀ g ∈ [wtCounter v, wtEn v, wtAbove v], g.Ok ∧ g.Apart a := by
  simp only [List.forall_mem_cons, Fld.Ok, Fld.Apart, Fld.base, wtFires, flSeq, wtCounter, wtEn, wtAbove]
  refine ⟨⟨?_, ?_, ?_, List.forall_mem_nil _⟩, ⟨?_, ?_, ?_, List.forall_mem_nil _⟩, List.forall_mem_nil _⟩ <;> omega

theorem FireOnly.kept (hs : FireOnly w f s t) (hv : v < 32) :
    ∀ g ∈ [wtCounter v, wtEn v, wtAbove v], t.getF g = s.getF g := fun g hg =>
  hs g (fireFields_apart (w := w) hv f (wtFires w) (by simp) g hg).1 fun a ha => (fireFields_apart hv f a ha g hg).2

/-- Of the 32 watches one fires on counter `h`, and no other that looks at it is enabled (R234). -/
theorem resolveWatches_fires (hw : w < 32) (hf : Fires s h w) (hothers : ∀ v, v < 32 → v ≠ w → ¬ Watches s h v) :
    ∃ u, (∀ x, ∀ g ∈ watchFields x, u.getF g = s.getF g) ∧ (∀ f, ∀ g ∈ hostFlagFields f, u.getF g = s.getF g) ∧ u.out = s.out ∧
      u.hostcfg = s.hostcfg ∧ ∀ f, FireOnly w f u (u.fire w (s.getF (hcValue h))) →
        (s.resolveWatches h).out = (u.fire w (s.getF (hcValue h))).out ∧ (s.resolveWatches h).getF (wtAbove w) = 1 ∧
          (s.resolveWatches h).getF (wtFires w) = (u.fire w (s.getF (hcValue h))).getF (wtFires w) ∧
          ∀ k, (s.resolveWatches h).getF (flSeq k) = (u.fire w (s.getF (hcValue h))).getF (flSeq k) := by
  obtain ⟨l, k, hsplit, hlnd, hknd, hwl, hwk, hlk⟩ := watches_split hw
  obtain ⟨hbefore, -⟩ := watchSteps_quiet hlnd fun v hv => hothers v (hlk v (by simp [hv])).1 (hlk v (by simp [hv])).2
  obtain ⟨hwatch, hval, habove, hflag⟩ := kept_of_aboveFields hbefore.2
  have hlflag := hflag fun v hv => (hlk v (by simp [hv])).1
  have hgo : s.resolveWatches h = forAll k (State.watchStep h) ((forAll l (State.watchStep h) s).watchStep h w) := by
    rw [resolveWatches_eq, hsplit, forAll_append, forAll_cons]
  have hrest := hbefore.1
  generalize forAll l (State.watchStep h) s = r at *
  have hfr : Fires r h w := ⟨(hwatch w _ (by simp [watchFields])).trans hf.counter,
    (congrArg (· != 0) (hwatch w _ (by simp [watchFields]))).trans hf.enabled, (habove w hwl).trans hf.below, by
      rw [hwatch w _ (by simp [watchFields]), hval]
      exact hf.reached⟩
  rw [watchStep_fires hfr, hval] at hgo
  have hput : ∀ x, ∀ g ∈ watchFields x, (r.setF (wtAbove w) 1).getF g = s.getF g := fun x g hg =>
    (getF_setF_apart _ _ _ (watchFields_apart_above x w g hg).1 (wtAbove_ok w) (watchFields_apart_above x w g hg).2).trans (hwatch x g hg)
  have hputFlag : ∀ f, ∀ g ∈ hostFlagFields f, (r.setF (wtAbove w) 1).getF g = s.getF g := fun f g hg =>
    (getF_setF_apart _ _ _ (hostFlagFields_apart_above hw f g hg).1 (wtAbove_ok w) (hostFlagFields_apart_above hw f g hg).2).trans
      (hlflag f g hg)
  have hone := getF_setF_of_lt (wtAbove_ok w) (show 1 < 2 by decide) r
  have hout : (r.setF (wtAbove w) 1).out = s.out := by rw [hrest]; rfl
  have hcfg : (r.setF (wtAbove w) 1).hostcfg = s.hostcfg := by rw [hrest]; rfl
  generalize r.setF (wtAbove w) 1 = u at *
  refine ⟨u, hput, hputFlag, hout, hcfg, fun f hfire => ?_⟩
  have hquiet : ∀ v ∈ k, ¬ Watches (u.fire w (s.getF (hcValue h))) h v := fun v hv hwv => by
    obtain ⟨hvlt, hvw⟩ := hlk v (by simp [hv])
    have hkept := hfire.kept hvlt
    rw [Watches, State.onF, hkept _ (by simp), hkept _ (by simp), hput v _ (by simp [watchFields]), hput v _ (by simp [watchFields])] at hwv
    exact hothers v hvlt hvw hwv
  obtain ⟨hafter, -⟩ := watchSteps_quiet hknd hquiet
  obtain ⟨hkwatch, -, hkabove, hkflag⟩ := kept_of_aboveFields hafter.2
  rw [hgo]
  refine ⟨by rw [hafter.1], ?_, hkwatch w _ (by simp [watchFields]),
    fun n => hkflag (fun v hv => (hlk v (by simp [hv])).1) n _ (by simp [hostFlagFields])⟩
  rw [hkabove w hwk, hfire.kept hw _ (by simp), hone]

end Watches

end Sys2Proof.Machine
end
section
/-!
PROOFS. Scope: the host's accesses to counters, watches and messages (R230-R234, R407, R408).
-/
namespace Sys2Proof.Machine

section HostCounterOps

variable {s t u : State} {h n w p c i : Nat} {l : List Nat} {g : Fld}

/-! ### A counter written, its watches follow (R233, R234) -/

theorem watchFields_apart_hcValue (hh : h < 256) (w : Nat) :
    ∀ g ∈ wtAbove w :: watchFields w, g.Ok ∧ g.Apart (hcValue h) := by
  simp only [watchFields, List.forall_mem_cons, Fld.Ok, Fld.Apart, Fld.base, wtCounter, wtThreshold, wtAction, wtFlag, wtVector, wtEn,
    wtFires, wtAbove, hcValue]
  refine ⟨?_, ?_, ?_, ?_, ?_, ?_, ?_, ?_, List.forall_mem_nil _⟩ <;> omega

theorem hostFlagFields_apart_hcValue (hh : h < 256) (f : Nat) : ∀ g ∈ hostFlagFields f, g.Ok ∧ g.Apart (hcValue h) := by
  simp only [hostFlagFields, List.forall_mem_cons, Fld.Ok, Fld.Apart, Fld.base, flAddr, flEn, flSeq, hcValue]
  refine ⟨?_, ?_, ?_, List.forall_mem_nil _⟩ <;> omega

/-- A counter's value leaves the watches and the flags. -/
theorem kept_of_hcValue (hh : h < 256) (n : Nat) (s : State) :
    (∀ w, ∀ g ∈ wtAbove w :: watchFields w, (s.setF (hcValue h) n).getF g = s.getF g) ∧
      ∀ f, ∀ g ∈ hostFlagFields f, (s.setF (hcValue h) n).getF g = s.getF g :=
  ⟨fun w g hg => getF_setF_apart _ _ _ (watchFields_apart_hcValue hh w g hg).1 (hcValue_ok h) (watchFields_apart_hcValue hh w g hg).2,
    fun f g hg => getF_setF_apart _ _ _ (hostFlagFields_apart_hcValue hh f g hg).1 (hcValue_ok h) (hostFlagFields_apart_hcValue hh f g hg).2⟩

theorem noWatch_iff : NoWatch s h ↔ ∀ w, w < 32 → ¬ Watches s h w := Iff.rfl

/-- With no enabled watch on it, a counter's new value moves ABOVE alone. -/
theorem writeCounter_quiet (hh : h < 256) (hn : n < 65536) (hno : NoWatch s h) {t : State}
    (ht : t = (s.setF (hcValue h) n).resolveWatches h) :
    t.getF (hcValue h) = n ∧ RegsOnly (counterFields s h) s t ∧
      ∀ w, w < 32 → s.getF (wtCounter w) = h → t.getF (wtAbove w) = (decide (s.getF (wtThreshold w) ≤ t.getF (hcValue h))).toNat := by
  obtain ⟨hkept, -⟩ := kept_of_hcValue hh n s
  have hval := getF_setF_of_lt (hcValue_ok h) hn s
  have hset : RegsOnly (counterFields s h) s (s.setF (hcValue h) n) := regsOnly_setF _ _ (hcValue_ok h) (by simp [counterFields])
  have hfields : aboveFields (s.setF (hcValue h) n) h (List.range 32) = aboveFields s h (List.range 32) :=
    aboveFields_congr (fun w => hkept w _ (by simp [watchFields])) h _
  have hquiet : ∀ w ∈ List.range 32, ¬ Watches (s.setF (hcValue h) n) h w := fun w hw =>
    mt (watches_congr fun g hg => hkept w g (List.mem_cons_of_mem _ hg)).1 (noWatch_iff.1 hno w (List.mem_range.1 hw))
  obtain ⟨hregs, habove⟩ := watchSteps_quiet (List.nodup_range (n := 32)) hquiet
  obtain ⟨-, hcounters, -, -⟩ := kept_of_aboveFields hregs.2
  rw [hfields] at hregs
  rw [resolveWatches_eq] at ht
  subst ht
  refine ⟨(hcounters h).trans hval, hset.trans (hregs.mono fun g hg => List.mem_cons_of_mem _ hg), fun w hw hctr => ?_⟩
  rw [habove w (List.mem_range.2 hw) ((hkept w _ (by simp [watchFields])).trans hctr), hcounters h, State.aboveOf,
    hkept w _ (by simp [watchFields])]

/-- With one enabled watch on it that the new value makes above, it fires. -/
theorem writeCounter_fires (hh : h < 256) (hn : n < 65536) (hw : w < 32) (hctr : s.getF (wtCounter w) = h) (hen : s.onF (wtEn w) = true)
    (hbelow : s.getF (wtAbove w) = 0) (hreach : s.getF (wtThreshold w) ≤ n)
    (hothers : ∀ v, v < 32 → v ≠ w → ¬ Watches s h v) {t : State} (ht : t = (s.setF (hcValue h) n).resolveWatches h) :
    ∃ u, (∀ x, ∀ g ∈ watchFields x, u.getF g = s.getF g) ∧ (∀ f, ∀ g ∈ hostFlagFields f, u.getF g = s.getF g) ∧ u.out = s.out ∧
      u.hostcfg = s.hostcfg ∧ ∀ f, FireOnly w f u (u.fire w n) → t.out = (u.fire w n).out ∧ t.getF (wtAbove w) = 1 ∧
        t.getF (wtFires w) = (u.fire w n).getF (wtFires w) ∧ ∀ k, t.getF (flSeq k) = (u.fire w n).getF (flSeq k) := by
  obtain ⟨hkept, hflags⟩ := kept_of_hcValue hh n s
  have hval := getF_setF_of_lt (hcValue_ok h) hn s
  have hfires : Fires (s.setF (hcValue h) n) h w := ⟨(hkept w _ (by simp [watchFields])).trans hctr,
    (congrArg (· != 0) (hkept w _ (by simp [watchFields]))).trans hen, (hkept w _ (by simp)).trans hbelow, by
      rw [hkept w _ (by simp [watchFields]), hval]
      exact hreach⟩
  obtain ⟨u, hwatch, hflag, hout, hcfg, hfire⟩ := resolveWatches_fires hw hfires fun v hv hvw =>
    mt (watches_congr fun g hg => hkept v g (List.mem_cons_of_mem _ hg)).1 (hothers v hv hvw)
  rw [hval] at hfire
  subst ht
  exact ⟨u, fun x g hg => (hwatch x g hg).trans (hkept x g (List.mem_cons_of_mem _ hg)), fun f g hg => (hflag f g hg).trans (hflags f g hg),
    hout, hcfg, hfire⟩

/-! ### A host ADD (R233) -/

theorem satAdd_of_le (hle : i + n ≤ 65535) : satAdd 16 i n = i + n := by
  rw [satAdd, if_pos (by omega)]

theorem satAdd_of_past (hpast : 65535 < i + n) : satAdd 16 i n = 65535 := by
  rw [satAdd, if_neg (by omega)]
  rfl

theorem hostCounterAddOp_of_armed (hlim : s.onF sLimited = false) (hfatal : s.onF sFatal = false) (harmed : s.armed = true) (h n : Nat) :
    hostCounterAddOp h n s = if n = 0 then s.ignored 0x05 false true (hcOff h)
      else if s.onF (hcForward h) then
        if (s.part (s.getF (hcPart h))).disarmed then s.ignored 0x04 false true (hcOff h) else s.hostLaunch h n
      else ((if 65535 < s.getF (hcValue h) + n then s.ignored 0x05 false true (hcOff h) else s).setF (hcValue h)
        (satAdd 16 (s.getF (hcValue h)) n)).resolveWatches h := by
  rw [hostCounterAddOp, aliveAct_open hlim hfatal, harmed]
  rfl

theorem hostCounterAddOp_adds (hlim : s.onF sLimited = false) (hfatal : s.onF sFatal = false) (harmed : s.armed = true)
    (hfwd : s.onF (hcForward h) = false) (hn : n ≠ 0) (hle : s.getF (hcValue h) + n ≤ 65535) :
    hostCounterAddOp h n s = (s.setF (hcValue h) (s.getF (hcValue h) + n)).resolveWatches h := by
  rw [hostCounterAddOp_of_armed hlim hfatal harmed, if_neg hn, if_neg (by simp [hfwd]), if_neg (by omega), satAdd_of_le hle]

/-! ### A host TAKE (R232) -/

theorem takeResult_takes (hlim : s.onF sLimited = false) (harmed : s.armed = true) (hfwd : s.onF (hcForward h) = false) (hn : n ≠ 0)
    (hle : n ≤ s.getF (hcValue h)) :
    s.takeResult h n = ((s.setF (hcValue h) (s.getF (hcValue h) - n)).resolveWatches h, s.getF (hcValue h)) := by
  simp [State.takeResult, hlim, harmed, hfwd, hn, hle]

theorem takeResult_short (hlim : s.onF sLimited = false) (harmed : s.armed = true) (hfwd : s.onF (hcForward h) = false)
    (hlt : s.getF (hcValue h) < n) : s.takeResult h n = (s, 0) := by
  simp [State.takeResult, hlim, harmed, hfwd, show n ≠ 0 by omega, Nat.not_le.2 hlt]

/-! ### A pattern ADD (R233) -/

theorem closeRecords_none (hno : ∀ u, u < 8 → ¬ (s.onF (uEn u) = true ∧ s.onF (uDir u) = true ∧ s.getF (uHc u) = h)) :
    s.closeRecords h = s := by
  refine forAll_eq_self fun u hu => if_neg ?_
  simpa [and_assoc] using hno u (List.mem_range.1 hu)

/-- The state as a pattern ADD reaches its counter. -/
theorem hostCounterPatternAddOp_eq {a : PatAdd} {rest : List PatAdd} (hin : s.hostIn = a :: rest) (ha : a.h = h)
    (hfwd : s.onF (hcForward h) = false)
    (hno : ∀ u, u < 8 → ¬ (s.onF (uEn u) = true ∧ s.onF (uDir u) = true ∧ s.getF (uHc u) = h)) :
    hostCounterPatternAddOp h s = ((if 65535 < s.getF (hcValue h) + a.n then State.remoteFault a.src fSyncOverflow { s with hostIn := rest }
      else { s with hostIn := rest }).setF (hcValue h) (satAdd 16 (s.getF (hcValue h)) a.n)).resolveWatches h := by
  have htake : takeFirst (fun a : PatAdd => a.h == h) s.hostIn = some (a, rest) := by simp [hin, takeFirst, ha]
  have hclose : State.closeRecords h { s with hostIn := rest } = { s with hostIn := rest } := closeRecords_none hno
  have hfwd' : State.onF { s with hostIn := rest } (hcForward h) = false := hfwd
  rw [hostCounterPatternAddOp, htake]
  simp only [hclose, hfwd', Bool.false_eq_true, if_false]
  rfl

end HostCounterOps

end Sys2Proof.Machine
end
section
/-!
PROOFS. Scope: launches that host counters forward, writes of watches, pending messages (R231, R234, R408).
-/
namespace Sys2Proof.Machine

section Launches

variable {s t u : State} {h n w p c i lid : Nat} {l : List Nat} {g : Fld}

/-! ### A launch reaches every core of its partition (R231) -/

theorem nodup_rangeFrom (a b : Nat) : (rangeFrom a b).Nodup :=
  (List.nodup_range).map fun _ _ h => Nat.add_left_cancel h

theorem nodup_partCores (s : State) (p : Nat) : (s.partCores p).Nodup := by
  rw [State.partCores, List.nodup_flatMap]
  refine ⟨fun d _ => nodup_rangeFrom _ _, ((List.nodup_range (n := 8)).filter _).imp ?_⟩
  intro d e hde i hd he
  rw [mem_rangeFrom] at hd he
  omega

theorem hcCtr_lt (s : State) (h : Nat) : s.getF (hcCtr h) < 64 := getF_lt (hcCtr h)

/-- The queues' registers of every core lie apart from a counter of any. -/
theorem queueRegs_apart_cCtr (_ : c < 64) (i j : Nat) (q : Queue) :
    (qState i q).Apart (cCtr j c) ∧ (qWctr i q).Apart (cCtr j c) := by
  have := queue_num_lt q
  simp only [Fld.Apart, Fld.base, qState, qWctr, cCtr, corePage]
  omega

theorem cCtr_apart_of_ne (_ : c < 64) {i j : Nat} (hij : i ≠ j) : (cCtr i c).Apart (cCtr j c) := by
  simp only [Fld.Apart, Fld.base, cCtr, corePage]
  omega

theorem NoWaiter.setOther (hno : NoWaiter s lid c) (hc : c < 64) (j v : Nat) : NoWaiter (s.setF (cCtr j c) v) lid c :=
  hno.congr fun q => ⟨getF_setF_apart _ _ _ (qState_ok ..) (cCtr_ok ..) (queueRegs_apart_cCtr hc lid j q).1,
    getF_setF_apart _ _ _ (qWctr_ok ..) (cCtr_ok ..) (queueRegs_apart_cCtr hc lid j q).2⟩

/-- A launch without STALE at a core where no queue waits on it and it fits. -/
theorem launchCore_of_noWaiter (hno : NoWaiter s lid c) (hle : s.getF (cCtr lid c) + n ≤ 65535) :
    launchCore { h := h, n := n } c lid s = s.setF (cCtr lid c) (s.getF (cCtr lid c) + n) := by
  have hover : s.overflows lid c n = false := decide_eq_false (by omega)
  rw [launchCore]
  simp only [State.hostBump, hover, Bool.false_eq_true, if_false]
  rw [bump_eq, hover, if_neg Bool.false_ne_true, resolveCtr_setCtr hno]

theorem launchCores_effect (hc : c < 64) (hl : l.Nodup) (hok : ∀ i ∈ l, NoWaiter s i c ∧ s.getF (cCtr i c) + n ≤ 65535) :
    RegsOnly (l.map fun i => cCtr i c) s (forAll l (launchCore { h := h, n := n } c) s) ∧
      ∀ i ∈ l, (forAll l (launchCore { h := h, n := n } c) s).getF (cCtr i c) = s.getF (cCtr i c) + n := by
  induction l generalizing s with
  | nil => exact ⟨.refl .., nofun⟩
  | cons j l ih =>
    obtain ⟨hjl, hnd⟩ := List.nodup_cons.1 hl
    obtain ⟨hno, hle⟩ := hok j (by simp)
    have hkeep : ∀ i, i ≠ j → (s.setF (cCtr j c) (s.getF (cCtr j c) + n)).getF (cCtr i c) = s.getF (cCtr i c) := fun i hi =>
      getF_setF_apart _ _ _ (cCtr_ok ..) (cCtr_ok ..) (cCtr_apart_of_ne hc hi)
    have hset : RegsOnly [cCtr j c] s (s.setF (cCtr j c) (s.getF (cCtr j c) + n)) := regsOnly_setF _ _ (cCtr_ok ..) (by simp)
    have hval := cCtr_setCtr (v := s.getF (cCtr j c) + n) (by omega) j c s
    rw [forAll_cons, launchCore_of_noWaiter hno hle]
    obtain ⟨hrest, hvals⟩ := ih (s := s.setF (cCtr j c) (s.getF (cCtr j c) + n)) hnd fun i hi => by
      have hij : i ≠ j := fun h => hjl (h ▸ hi)
      rw [hkeep i hij]
      exact ⟨(hok i (by simp [hi])).1.setOther hc j _, (hok i (by simp [hi])).2⟩
    refine ⟨(hset.mono (by simp)).trans (hrest.mono (by simp +contextual)), fun i hi => ?_⟩
    rcases List.mem_cons.1 hi with rfl | hil
    · rw [hrest.2 _ (cCtr_ok ..) fun g hg => ?_, hval]
      obtain ⟨k, hk, rfl⟩ := List.mem_map.1 hg
      exact cCtr_apart_of_ne hc fun h => hjl (h ▸ hk)
    · rw [hvals i hil, hkeep i fun h => hjl (h ▸ hil)]

theorem hcTotal_ok (h : Nat) : (hcTotal h).Ok := by simp [Fld.Ok, hcTotal]

/-- TOTAL lies apart from what says where a launch goes (R231). -/
theorem launchRegs_apart (_ : h < 256) (q : Nat) :
    ∀ g ∈ [hcPart h, hcCtr h, hcValue h, ppState q, ppDies q], g.Ok ∧ g.Apart (hcTotal h) := by
  simp only [List.forall_mem_cons, Fld.Ok, Fld.Apart, Fld.base, hcPart, hcCtr, hcValue, ppState, ppDies, hcTotal]
  refine ⟨?_, ?_, ?_, ?_, ?_, List.forall_mem_nil _⟩ <;> omega

/-- TOTAL and the partition's launches count a launch (R231, R293). -/
def State.countLaunch (h n : Nat) (s : State) : State :=
  (s.setF (hcTotal h) ((s.getF (hcTotal h) + n) % 65536)).modPart (s.getF (hcPart h)) fun x => { x with forwarded := x.forwarded + n }

theorem hostLaunch_forwards (hh : h < 256) (hunit : s.inputUnit h = none) (hrun : s.getF (ppState (s.getF (hcPart h))) = 1)
    (hhold : (s.part (s.getF (hcPart h))).hold = none) (hgated : (s.part (s.getF (hcPart h))).gated = false) (hexact : s.exact = false) :
    s.hostLaunch h n = forAll (s.partCores (s.getF (hcPart h))) (launchCore { h := h, n := n } (s.getF (hcCtr h))) (s.countLaunch h n) := by
  have hkeep : ∀ q, ∀ g ∈ [hcPart h, hcCtr h, hcValue h, ppState q, ppDies q], (s.countLaunch h n).getF g = s.getF g := fun q g hg => by
    obtain ⟨hok, hapart⟩ := launchRegs_apart hh q g hg
    rw [State.countLaunch, getF_modPart, getF_setF_apart _ _ _ hok (hcTotal_ok h) hapart]
  have hdies := hkeep (s.getF (hcPart h)) (ppDies (s.getF (hcPart h))) (by simp)
  have hstate := hkeep (s.getF (hcPart h)) (ppState (s.getF (hcPart h))) (by simp)
  have hcores : (s.countLaunch h n).partCores (s.getF (hcPart h)) = s.partCores (s.getF (hcPart h)) := by
    simp only [State.partCores, State.partDies, State.hasDie, hdies, hstate]
  have hpart : (s.countLaunch h n).part (s.getF (hcPart h)) =
      { s.part (s.getF (hcPart h)) with forwarded := (s.part (s.getF (hcPart h))).forwarded + n } := by
    rw [State.countLaunch, part_modPart_same, part_setF]
  have hopen : (((s.countLaunch h n).part (s.getF (hcPart h))).hold.isSome || ((s.countLaunch h n).part (s.getF (hcPart h))).gated) = false := by
    simp [hpart, hhold, hgated]
  have hexact' : (s.countLaunch h n).exact = false := hexact
  have hgo : s.forwardLaunch { h := h, n := n } = (s.countLaunch h n).launchNow { h := h, n := n } :=
    (if_neg (Bool.eq_false_iff.1 hopen)).trans (if_neg (Bool.eq_false_iff.1 hexact'))
  rw [State.hostLaunch, hunit, hgo, State.launchNow]
  simp only [hkeep 0 (hcPart h) (by simp), hkeep 0 (hcCtr h) (by simp), hstate, hrun, hcores]
  rfl

/-! ### A write of a watch (R13, R234) -/

theorem plainWrite_cons (f : Fld) (fs : List (Fld × FTy)) (o : Nat) (v : W64) (s : State) :
    s.plainWrite ((f, .rw) :: fs) o v = (s.setF f (writtenBits o v f)).plainWrite fs o v := rfl

/-- RW fields that share no bit take what is written to them. -/
theorem plainWrite_rw {fs : List Fld} (hok : ∀ f ∈ fs, f.Ok) (hapart : fs.Pairwise Fld.Apart) (o : Nat) (v : W64) (s : State) :
    RegsOnly fs s (s.plainWrite (fs.map fun f => (f, .rw)) o v) ∧
      ∀ f ∈ fs, (s.plainWrite (fs.map fun f => (f, .rw)) o v).getF f = writtenBits o v f := by
  induction fs generalizing s with
  | nil => exact ⟨.refl .., nofun⟩
  | cons f fs ih =>
    obtain ⟨hfirst, hothers⟩ := List.pairwise_cons.1 hapart
    have hset : RegsOnly [f] s (s.setF f (writtenBits o v f)) := regsOnly_setF _ _ (hok f (by simp)) (by simp)
    obtain ⟨hrest, hvals⟩ := ih (fun g hg => hok g (by simp [hg])) hothers (s.setF f (writtenBits o v f))
    rw [List.map_cons, plainWrite_cons]
    refine ⟨(hset.mono (by simp)).trans (hrest.mono (by simp +contextual)), fun g hg => ?_⟩
    rcases List.mem_cons.1 hg with rfl | hgs
    · rw [hrest.2 g (hok g (by simp)) hfirst, getF_setF_of_lt (hok g (by simp))]
      exact bitsOf_lt ..
    · exact hvals g hgs

/-- The fields of HOST_WATCH_w's word 0. -/
def watchWord (w : Nat) : List Fld := [wtCounter w, wtThreshold w, wtAction w, wtFlag w, wtVector w, wtEn w]

theorem accessFields_watch : ∀ w, w < 32 → accessFields bar0Map (0x00101000 + 16 * w) 8 = (watchWord w).map fun f => (f, .rw) := by
  decide

theorem watchWord_ok (w : Nat) : ∀ f ∈ watchWord w, f.Ok := by
  simp [watchWord, wtCounter_ok, wtThreshold_ok, wtAction_ok, wtFlag_ok, wtVector_ok, wtEn_ok]

theorem watchWord_apart (w : Nat) : (watchWord w).Pairwise Fld.Apart := by
  simp [watchWord, Fld.Apart, Fld.base, wtCounter, wtThreshold, wtAction, wtFlag, wtVector, wtEn]

theorem watchWord_place (w : Nat) : ∀ f ∈ watchWord w, f.off = 0x00101000 + 16 * w := by
  simp [watchWord, wtCounter, wtThreshold, wtAction, wtFlag, wtVector, wtEn]

theorem writtenBits_own {o : Nat} {f : Fld} (hf : f.off = o) (v : W64) : writtenBits o v f = bitsOf v f.lo f.w := by
  rw [writtenBits, hf, Nat.add_sub_cancel_left]

/-- What a write of word 0 leaves of a watch. -/
theorem plainWrite_watch (hw : w < 32) (v : W64) (s : State) {t : State}
    (ht : t = s.plainWrite (accessFields bar0Map (0x00101000 + 16 * w) 8) (0x00101000 + 16 * w) v) :
    RegsOnly (watchWord w) s t ∧ ∀ f ∈ watchWord w, t.getF f = bitsOf v f.lo f.w := by
  obtain ⟨hregs, hvals⟩ := plainWrite_rw (watchWord_ok w) (watchWord_apart w) (0x00101000 + 16 * w) v s
  rw [accessFields_watch w hw] at ht
  subst ht
  exact ⟨hregs, fun f hf => (hvals f hf).trans (writtenBits_own (watchWord_place w f hf) v)⟩

theorem watchWord_sub (w : Nat) : ∀ f ∈ watchWord w, f ∈ watchFields w := by
  simp +contextual [watchWord, watchFields]

theorem bitsOf_one_of_clear {v : W64} {k : Nat} (hb : bitOf v k = false) : bitsOf v k 1 = 0 := by
  have hdiv : ¬ v.toNat / 2 ^ k % 2 = 1 := by
    simpa [bitOf, BitVec.getLsbD, Nat.testBit_eq_decide_div_mod_eq] using hb
  rw [bitsOf, BitVec.extractLsb'_toNat, Nat.shiftRight_eq_div_pow]
  omega

/-- A write with EN 0 leaves ABOVE as the counter named stands (R234). -/
theorem hostWatchWriteOp_effect (hlim : s.onF sLimited = false) (hw : w < 32) {v : W64} (hen : bitOf v 63 = false) {t : State}
    (ht : t = hostWatchWriteOp w v s) : RegsOnly (watchWord w ++ [wtAbove w]) s t ∧
      (∀ f ∈ watchWord w, t.getF f = bitsOf v f.lo f.w) ∧
      t.getF (wtAbove w) = (decide (bitsOf v 8 16 ≤ s.getF (hcValue (bitsOf v 0 8)))).toNat := by
  rw [hostWatchWriteOp, hostAct_open hlim, State.watchWrite] at ht
  obtain ⟨hregs, hvals⟩ := plainWrite_watch hw v s rfl
  generalize s.plainWrite (accessFields bar0Map (0x00101000 + 16 * w) 8) (0x00101000 + 16 * w) v = u at *
  have hkeep : ∀ f ∈ watchWord w, ∀ m, (u.setF (wtAbove w) m).getF f = bitsOf v f.lo f.w := fun f hf m =>
    (getF_setF_apart _ _ _ (watchWord_ok w f hf) (wtAbove_ok w) (watchFields_apart_above w w f (watchWord_sub w f hf)).2).trans (hvals f hf)
  have hoff : ∀ m, (u.setF (wtAbove w) m).onF (wtEn w) = false := fun m => by
    rw [State.onF, hkeep (wtEn w) (by simp [watchWord])]
    exact bne_eq_false_iff_eq.2 (bitsOf_one_of_clear hen)
  have hctr : u.getF (wtCounter w) = bitsOf v 0 8 := hvals _ (by simp [watchWord])
  have hthr : u.getF (wtThreshold w) = bitsOf v 8 16 := hvals _ (by simp [watchWord])
  have hval : u.getF (hcValue (bitsOf v 0 8)) = s.getF (hcValue (bitsOf v 0 8)) := by
    refine hregs.2 _ (hcValue_ok _) fun f hf => ?_
    exact (watchFields_apart_hcValue (bitsOf_lt v 0 8) w f (List.mem_cons_of_mem _ (watchWord_sub w f hf))).2.symm
  have hset : t = u.setF (wtAbove w) (decide (bitsOf v 8 16 ≤ s.getF (hcValue (bitsOf v 0 8)))).toNat := by
    rw [ht, State.resolveWatch]
    simp only [hoff, hctr, hthr, hval, Bool.and_false, Bool.false_and, Bool.false_eq_true, if_false]
  subst hset
  exact ⟨(hregs.mono (by simp +contextual)).trans (regsOnly_setF _ _ (wtAbove_ok w) (by simp)), fun f hf => hkeep f hf _,
    getF_setF_of_lt (wtAbove_ok w) (Bool.toNat_lt _) u⟩

/-! ### A pending message (R408) -/

theorem getLsbD_clear {x : BitVec 64} {k j : Nat} (hj : j < 64) (hk : k < 64) :
    (x &&& ~~~(1#64 <<< k)).getLsbD j = (x.getLsbD j && decide (j ≠ k)) := by
  have hone : (1#64 <<< k).getLsbD j = decide (j = k) := by
    rw [BitVec.getLsbD_shiftLeft, BitVec.getLsbD_one]
    by_cases h : j = k
    · simp [h, hk]
    · have hsub : ¬ j < k → j - k ≠ 0 := by omega
      simpa [hj, h, Nat.lt_iff_le_and_ne, Bool.eq_false_iff] using hsub
  rw [BitVec.getLsbD_and, BitVec.getLsbD_not, hone, ← decide_not]
  simp [hj]

theorem msixPendingSendOp_of_open {vec : Nat} (hpend : s.hostcfg.msixPending.getLsbD vec = true) (hbus : s.hostcfg.busMaster = true)
    (hen : s.hostcfg.msixEnable = true) (hfun : s.hostcfg.functionMask = false) (hmask : s.hostcfg.masked.getLsbD vec = false) :
    msixPendingSendOp vec s =
      State.emit (s.msixMessage vec) { s with hostcfg := { s.hostcfg with msixPending := s.hostcfg.msixPending &&& ~~~(1#64 <<< vec) } } := by
  simp [msixPendingSendOp, hpend, hbus, hen, hfun, hmask]

end Launches

end Sys2Proof.Machine
end
section
/-!
PROOFS. Scope: host counters (R230-R234, R407, R408).
-/
namespace Sys2Proof.Machine

section HostCounterClauses

variable {s t u : State} {h n w : Nat}

/-- A host ADD that one enabled watch sees become above (R234, R408). -/
theorem hostAdd_fires (hh : h < 256) (hn : n < 65536) (hw : w < 32) (hctr : s.getF (wtCounter w) = h) (hen : s.onF (wtEn w) = true)
    (hbelow : s.getF (wtAbove w) = 0) (hreach : s.getF (wtThreshold w) ≤ n)
    (hothers : ∀ v, v < 32 → v ≠ w → ¬ (s.getF (wtCounter v) = h ∧ s.onF (wtEn v) = true)) {t : State}
    (ht : t = (s.setF (hcValue h) n).resolveWatches h) :
    (s.getF (wtAction w) = 2 → s.hostcfg.busMaster = true → s.hostcfg.msixEnable = true → s.hostcfg.functionMask = false →
      s.hostcfg.masked.getLsbD (s.getF (wtVector w)) = false → t.out = s.out ++ [s.msixMessage (s.getF (wtVector w))] ∧
        t.getF (wtAbove w) = 1 ∧ t.getF (wtFires w) = satAdd 32 (s.getF (wtFires w)) 1) ∧
    (s.getF (wtAction w) = 1 → s.hostcfg.busMaster = true → s.getF (flEn (s.getF (wtFlag w))) = 1 →
      t.getF (flSeq (s.getF (wtFlag w))) = (s.getF (flSeq (s.getF (wtFlag w))) + 1) % 2 ^ 32 ∧
        t.out = s.out ++ [.flagWrite (s.getF (flAddr (s.getF (wtFlag w))) / 8 * 8)
          (BitVec.ofNat 64 ((s.getF (flSeq (s.getF (wtFlag w))) + 1) % 2 ^ 32 + 2 ^ 32 * n + 2 ^ 48 * w))]) := by
  obtain ⟨u, hwatch, hflag, hout, hcfg, hfire⟩ := writeCounter_fires hh hn hw hctr hen hbelow hreach hothers ht
  have haction := hwatch w (wtAction w) (by simp [watchFields])
  have hvec := hwatch w (wtVector w) (by simp [watchFields])
  have hfl := hwatch w (wtFlag w) (by simp [watchFields])
  have hfires := hwatch w (wtFires w) (by simp [watchFields])
  refine ⟨fun hact hbus henable hfun hmask => ?_, fun hact hbus hflEn => ?_⟩
  · have hgo := fire_msix hw (haction.trans hact) (by rw [hcfg]; exact hbus) (by rw [hcfg]; exact henable) (by rw [hcfg]; exact hfun)
      (by rw [hcfg, hvec]; exact hmask) n
    have hmsg : u.msixMessage (u.getF (wtVector w)) = s.msixMessage (s.getF (wtVector w)) := by
      rw [hvec, State.msixMessage, hcfg, State.msixMessage]
    rw [hmsg] at hgo
    rw [hgo] at hfire
    obtain ⟨htout, habove, htfires, -⟩ := hfire 0 (fireOnly_msix _ _ _ _)
    refine ⟨htout.trans ?_, habove, htfires.trans ?_⟩
    · rw [← hout]
      rfl
    · rw [getF_emit, getF_incF_same _ _ (wtFires_ok w), hfires]
      rfl
  · have hseq := hflag (s.getF (wtFlag w)) (flSeq (s.getF (wtFlag w))) (by simp [hostFlagFields])
    have haddr := hflag (s.getF (wtFlag w)) (flAddr (s.getF (wtFlag w))) (by simp [hostFlagFields])
    have henf := hflag (s.getF (wtFlag w)) (flEn (s.getF (wtFlag w))) (by simp [hostFlagFields])
    have hgo := fire_flag hw (haction.trans hact) (by rw [hfl, henf]; exact hflEn) (by rw [hcfg]; exact hbus) n
    rw [hfl, hseq, haddr] at hgo
    rw [hgo] at hfire
    obtain ⟨htout, -, -, htseq⟩ := hfire (s.getF (wtFlag w)) (fireOnly_flag _ _ _ _ _)
    refine ⟨(htseq _).trans ?_, htout.trans ?_⟩
    · rw [getF_emit, getF_setF_of_lt (flSeq_ok _)]
      exact Nat.mod_lt _ (by decide)
    · rw [← hout]
      rfl

/-- A host ADD that is forwarded (R231). -/
theorem hostAdd_forwards (hh : h < 256) (hunit : s.inputUnit h = none) (hrun : s.getF (ppState (s.getF (hcPart h))) = 1)
    (hhold : (s.part (s.getF (hcPart h))).hold = none) (hgated : (s.part (s.getF (hcPart h))).gated = false) (hexact : s.exact = false)
    (hok : ∀ i, i ∈ s.partCores (s.getF (hcPart h)) → NoWaiter s i (s.getF (hcCtr h)) ∧ s.getF (cCtr i (s.getF (hcCtr h))) + n ≤ 65535)
    {t : State} (ht : t = s.hostLaunch h n) :
    (∀ i, i ∈ s.partCores (s.getF (hcPart h)) → t.getF (cCtr i (s.getF (hcCtr h))) = s.getF (cCtr i (s.getF (hcCtr h))) + n) ∧
      t.getF (hcTotal h) = (s.getF (hcTotal h) + n) % 65536 ∧ t.getF (hcValue h) = s.getF (hcValue h) ∧
      OnlyFields (hcTotal h :: (s.partCores (s.getF (hcPart h))).map fun i => cCtr i (s.getF (hcCtr h))) s t ∧
      t = { s with regs := t.regs, parts := t.parts } := by
  have hlow : ∀ f : Fld, f.base + f.w ≤ 8 * 0x01000000 → ∀ i, f.Apart (cCtr i (s.getF (hcCtr h))) := fun f hf i => by
    simp only [Fld.Apart, Fld.base, cCtr, corePage] at *
    omega
  have htotalLow : (hcTotal h).base + (hcTotal h).w ≤ 8 * 0x01000000 := by
    simp only [Fld.base, hcTotal]
    omega
  have hvalueLow : (hcValue h).base + (hcValue h).w ≤ 8 * 0x01000000 := by
    simp only [Fld.base, hcValue]
    omega
  have hcount : ∀ f : Fld, f.Ok → f.Apart (hcTotal h) → (s.countLaunch h n).getF f = s.getF f := fun f hf ha => by
    rw [State.countLaunch, getF_modPart, getF_setF_apart _ _ _ hf (hcTotal_ok h) ha]
  have htotal : (s.countLaunch h n).getF (hcTotal h) = (s.getF (hcTotal h) + n) % 65536 := by
    rw [State.countLaunch, getF_modPart]
    exact getF_setF_of_lt (hcTotal_ok h) (Nat.mod_lt _ (show 0 < 65536 by decide)) s
  have hcounter : ∀ i, (s.countLaunch h n).getF (cCtr i (s.getF (hcCtr h))) = s.getF (cCtr i (s.getF (hcCtr h))) := fun i =>
    hcount _ (cCtr_ok ..) (hlow _ htotalLow i).symm
  have hqueue : ∀ i q, (qState i q).Apart (hcTotal h) ∧ (qWctr i q).Apart (hcTotal h) := fun i q => by
    simp only [Fld.Apart, Fld.base, qState, qWctr, hcTotal, corePage]
    omega
  rw [hostLaunch_forwards hh hunit hrun hhold hgated hexact] at ht
  obtain ⟨hregs, hvals⟩ := launchCores_effect (s := s.countLaunch h n) (h := h) (hcCtr_lt s h) (nodup_partCores s (s.getF (hcPart h)))
    fun i hi => ⟨(hok i hi).1.congr fun q => ⟨hcount _ (qState_ok ..) (hqueue i q).1, hcount _ (qWctr_ok ..) (hqueue i q).2⟩, by
      rw [hcounter]
      exact (hok i hi).2⟩
  have hrest : s.countLaunch h n = { s with regs := (s.countLaunch h n).regs, parts := (s.countLaunch h n).parts } := rfl
  subst ht
  refine ⟨fun i hi => (hvals i hi).trans (by rw [hcounter]), ?_, ?_, fun f hf ha => ?_, ?_⟩
  · rw [hregs.2 _ (hcTotal_ok h) fun g hg => ?_, htotal]
    obtain ⟨i, -, rfl⟩ := List.mem_map.1 hg
    exact hlow _ htotalLow i
  · rw [hregs.2 _ (hcValue_ok h) fun g hg => ?_]
    · exact hcount _ (hcValue_ok h) (launchRegs_apart hh 0 _ (by simp)).2
    · obtain ⟨i, -, rfl⟩ := List.mem_map.1 hg
      exact hlow _ hvalueLow i
  · rw [hregs.2 f hf fun g hg => ha g (List.mem_cons_of_mem _ hg), hcount f hf (ha _ (by simp))]
  · rw [hregs.1, hrest]

/-- A pattern ADD that passes 65,535 faults at its sender (R220, R233). -/
theorem patternAdd_overflows {a : PatAdd} {rest : List PatAdd} {p : Nat} (hh : h < 256) (hno : NoWatch s h) (hown : s.owner a.src = some p)
    {t : State} (ht : t = ((State.remoteFault a.src fSyncOverflow { s with hostIn := rest }).setF (hcValue h) 65535).resolveWatches h) :
    t.getF (hcValue h) = 65535 ∧ (t.part p).faults = (s.part p).faults ++ [⟨0x43, a.src, 0, 0, true⟩] := by
  have htold : State.remoteFault a.src fSyncOverflow { s with hostIn := rest } =
      State.modPart p (fun x => { x with faults := x.faults ++ [⟨0x43, a.src, 0, 0, true⟩] }) { s with hostIn := rest } := by
    have hown' : State.owner { s with hostIn := rest } a.src = some p := hown
    rw [State.remoteFault, State.signalFault, hown']
    rfl
  have hpart : (State.modPart p (fun x => { x with faults := x.faults ++ [⟨0x43, a.src, 0, 0, true⟩] }) { s with hostIn := rest }).part p =
      { s.part p with faults := (s.part p).faults ++ [⟨0x43, a.src, 0, 0, true⟩] } := part_modPart_same ..
  have hnou : NoWatch (State.modPart p (fun x => { x with faults := x.faults ++ [⟨0x43, a.src, 0, 0, true⟩] }) { s with hostIn := rest }) h := hno
  rw [htold] at ht
  generalize State.modPart p (fun x => { x with faults := x.faults ++ [⟨0x43, a.src, 0, 0, true⟩] }) { s with hostIn := rest } = u at *
  obtain ⟨hval, hregs, -⟩ := writeCounter_quiet hh (by decide) hnou ht
  exact ⟨hval, by rw [hregs.part_eq, hpart]⟩

end HostCounterClauses

/-- Settles O34: a counter is written, then its watches follow in their order; a launch goes on to every core. -/
theorem hostCounters : Obligations.HostCounters := by
  unfold Obligations.HostCounters
  intro s h hh hlim hfatal harmed
  refine ⟨fun n hfwd hn hle => ?_, ?_, fun n p c hfwd hn hunit hp hc hrun hhold hgated hdis hexact hok => ?_, fun n hn hfwd hno => ?_,
    fun a rest hin ha hfwd hno hunits => ?_, fun w v hw hen => ?_, fun vec hvec hpend hbus hen hfun hmask => ?_⟩
  · have hn' : n.toNat ≠ 0 := fun h0 => hn (BitVec.eq_of_toNat_eq h0)
    have hadd := hostCounterAddOp_adds hlim hfatal harmed hfwd hn' hle
    refine ⟨fun hno => ⟨_, guarded_of (decide_eq_true hh) _ _, ?_⟩, fun w hw hctr hen hbelow hreach hothers => ?_⟩
    · obtain ⟨hval, hregs, habove⟩ := writeCounter_quiet hh (by omega) hno hadd
      exact ⟨hval, habove, hregs⟩
    · obtain ⟨hmsix, hflag⟩ := hostAdd_fires hh (by omega) hw hctr hen hbelow hreach hothers hadd
      refine ⟨fun hact hbus henable hfun hmask => ⟨_, guarded_of (decide_eq_true hh) _ _, hmsix hact hbus henable hfun hmask⟩,
        fun hact hbus hflEn => ⟨_, _, guarded_of (decide_eq_true hh) _ _, rfl, hflag hact hbus hflEn⟩⟩
  · refine ⟨_, guarded_of (decide_eq_true hh) _ _, ?_⟩
    rw [hostCounterAddOp_of_armed hlim hfatal harmed, if_pos (by decide)]
    exact ignored_spec (by decide) ..
  · subst hp hc
    have hn' : n.toNat ≠ 0 := fun h0 => hn (BitVec.eq_of_toNat_eq h0)
    have hgo : hostCounterAddOp h n.toNat s = s.hostLaunch h n.toNat := by
      rw [hostCounterAddOp_of_armed hlim hfatal harmed, if_neg hn', if_pos hfwd, if_neg (by simp [hdis])]
    exact ⟨_, guarded_of (decide_eq_true hh) _ _, hostAdd_forwards hh hunit hrun hhold hgated hexact hok hgo⟩
  · have hguard : (decide (h < 256) && decide (n < 256)) = true := by simp [hh, hn]
    refine ⟨fun hn0 hle => ⟨_, guarded_of hguard _ _, ?_⟩, fun hlt => (guarded_of hguard _ _).trans ?_⟩
    · have hlt : s.getF (hcValue h) < 65536 := getF_lt (hcValue h)
      obtain ⟨hval, hregs, -⟩ := writeCounter_quiet hh (n := s.getF (hcValue h) - n) (by omega) hno rfl
      rw [hostTakeOp, takeResult_takes hlim harmed hfwd hn0 hle]
      dsimp only
      generalize (s.setF (hcValue h) (s.getF (hcValue h) - n)).resolveWatches h = u at *
      refine ⟨hval, fun f hf ha => hregs.2 f hf ha, ?_⟩
      obtain ⟨hrest, -⟩ := hregs
      rw [State.emit, hrest]
    · rw [hostTakeOp, takeResult_short hlim harmed hfwd hlt]
      rfl
  · have hgo := hostCounterPatternAddOp_eq hin ha hfwd hunits
    refine ⟨fun hle => ⟨_, guarded_of (decide_eq_true hh) _ _, ?_⟩, fun p hpast hown => ⟨_, guarded_of (decide_eq_true hh) _ _, ?_⟩⟩
    · rw [if_neg (by omega), satAdd_of_le hle] at hgo
      have hno' : NoWatch { s with hostIn := rest } h := hno
      obtain ⟨hval, hregs, -⟩ := writeCounter_quiet hh (by omega) hno' hgo
      generalize hostCounterPatternAddOp h s = u at *
      obtain ⟨hrest, honly⟩ := hregs
      exact ⟨hval, honly, hrest⟩
    · rw [if_pos hpast, satAdd_of_past hpast] at hgo
      exact patternAdd_overflows hh hno hown hgo
  · obtain ⟨hregs, hvals, habove⟩ := hostWatchWriteOp_effect hlim hw hen (s := s) rfl
    exact ⟨_, guarded_of (decide_eq_true hw) _ _, hvals _ (by simp [watchWord]), hvals _ (by simp [watchWord]), hvals _ (by simp [watchWord]),
      hvals _ (by simp [watchWord]), hvals _ (by simp [watchWord]),
      (hvals _ (by simp [watchWord])).trans (bitsOf_one_of_clear hen), habove, hregs⟩
  · refine ⟨_, guarded_of (decide_eq_true hvec) _ _, ?_⟩
    rw [msixPendingSendOp_of_open hpend hbus hen hfun hmask]
    exact ⟨rfl, fun i hi => getLsbD_clear hi hvec, rfl⟩

end Sys2Proof.Machine
end
section
/-!
PROOFS. Scope: holds that end and holds for refresh debt (R273, R275, R293, R345).
-/
namespace Sys2Proof.Machine

section Holds

variable {s t u : State} {p : Nat} {ms ns : List SyncMsg}

/-! ### Partitions that a step leaves as they are -/

/-- The partitions' own state is what it was, and nothing else changes either. -/
def SameParts (s t : State) : Prop := t = { s with parts := t.parts } ∧ ∀ q, t.part q = s.part q

theorem SameParts.trans (h : SameParts s t) (k : SameParts t u) : SameParts s u := by
  obtain ⟨hrest, hpart⟩ := h
  obtain ⟨krest, kpart⟩ := k
  exact ⟨by rw [krest, hrest], fun q => (kpart q).trans (hpart q)⟩

theorem sameParts_modPart {f : Part → Part} (h : f (s.part p) = s.part p) : SameParts s (s.modPart p f) := by
  refine ⟨rfl, fun q => ?_⟩
  by_cases hq : q = p
  · rw [hq, part_modPart_same, h]
  · exact part_modPart_ne _ hq

theorem partDies_of_state (hd : t.getF (ppDies p) = s.getF (ppDies p)) (hs : t.getF (ppState p) = s.getF (ppState p)) :
    t.partDies p = s.partDies p := by
  simp only [State.partDies, State.hasDie, hd, hs]

/-! ### Messages of the root -/

theorem wHeld_ok : wHeld.Ok := by simp [Fld.Ok, wHeld]

/-- HELD and a deadline's FIRED share no bit with a partition's dies and state. -/
theorem held_fired_apart (hp : p < 8) :
    (∀ g ∈ [wHeld, pdFired p], (ppDies p).Apart g) ∧ ∀ g ∈ [wHeld, pdFired p], (ppState p).Apart g := by
  simp only [List.forall_mem_cons, Fld.Apart, Fld.base, wHeld, pdFired, ppDies, ppState]
  refine ⟨⟨?_, ?_, List.forall_mem_nil _⟩, ?_, ?_, List.forall_mem_nil _⟩ <;> omega

theorem partDies_of_held_fired (hp : p < 8) (h : OnlyFields [wHeld, pdFired p] s t) : t.partDies p = s.partDies p :=
  partDies_of_state (h _ (by simp [Fld.Ok, ppDies]) (held_fired_apart hp).1) (h _ (by simp [Fld.Ok, ppState]) (held_fired_apart hp).2)

/-- A barrier's SPANNING bit is neither HELD nor a deadline's FIRED, wherever its word lies. -/
theorem spans_of_held_fired (h : OnlyFields [wHeld, pdFired p] s t) (bid : Nat) : t.spans bid = s.spans bid := by
  rw [State.spans, State.onF, State.spans, State.onF, h _ (by simp [Fld.Ok, rbSpan])]
  simp only [List.forall_mem_cons, Fld.Apart, Fld.base, wHeld, pdFired, rbSpan]
  refine ⟨?_, ?_, List.forall_mem_nil _⟩ <;> omega

theorem toldBoth_append (ms ns : List SyncMsg) (x : Die) : toldBoth ns (toldBoth ms x) = toldBoth (ms ++ ns) x := by
  simp only [toldBoth, List.append_assoc]

theorem toldBoth_nil (x : Die) : toldBoth [] x = x := by simp only [toldBoth, List.append_nil]

theorem broadcast_told (p : Nat) (m : SyncMsg) (s : State) : Broadcast p [m] s (s.broadcast p m) := by
  intro d
  have hnodup : (s.partDies p).Nodup := List.nodup_range.filter _
  rw [State.broadcast, die_forAll_bothTaps hnodup]
  rfl

/-- The root sends messages to the dies of a partition; besides, the deadline's FIRED may change, and free values are used. -/
structure Sends (p : Nat) (ms : List SyncMsg) (s t : State) : Prop where
  rest : t = { s with regs := t.regs, dies := t.dies, free := t.free }
  only : OnlyFields [pdFired p] s t
  told : Broadcast p ms s t

theorem Sends.refl (p : Nat) (s : State) : Sends p [] s s :=
  ⟨rfl, .refl _ s, fun d => by rw [toldBoth_nil, ite_self]⟩

theorem Sends.held_fired (h : Sends p ms s t) : OnlyFields [wHeld, pdFired p] s t := h.only.mono (by simp)

theorem Sends.exact_eq (h : Sends p ms s t) : t.exact = s.exact := by rw [h.rest]; rfl

theorem Sends.part_eq (h : Sends p ms s t) (q : Nat) : t.part q = s.part q := by rw [h.rest]; rfl

theorem Sends.trans (hp : p < 8) (h : Sends p ms s t) (k : Sends p ns t u) : Sends p (ms ++ ns) s u where
  rest := by rw [k.rest, h.rest]
  only := h.only.trans k.only
  told d := by
    rw [k.told d, partDies_of_held_fired hp h.held_fired, h.told d]
    split
    · exact toldBoth_append ..
    · rfl

/-! ### Releases that a hold kept (R255, R256, R273) -/

/-- The message of a kept release that installs no seed. -/
def keptRelease (s : State) (tg : Nat → Nat) (e : Release × Nat) : SyncMsg :=
  .release e.1.bid (tg e.2) (s.exact && !s.spans e.1.bid) e.1.dlset e.1.dlctr false

/-- The state from which a release without install is broadcast. -/
def State.beforeRelease (p : Nat) (r : Release) (s : State) : State :=
  if s.exact && !s.spans r.bid then (if r.dlset then s.setF (pdFired p) 1 else s).used else if r.dlset then s.setF (pdFired p) 1 else s

theorem beforeRelease_effect (p : Nat) (r : Release) (s : State) :
    s.beforeRelease p r = { s with regs := (s.beforeRelease p r).regs, free := (s.beforeRelease p r).free } ∧
      OnlyFields [pdFired p] s (s.beforeRelease p r) := by
  have hset : OnlyFields [pdFired p] s (if r.dlset then s.setF (pdFired p) 1 else s) := by
    split
    · exact onlyFields_setF _ _ (pdFired_ok p) (by simp)
    · exact .refl _ s
  rw [State.beforeRelease]
  split
  · exact ⟨by split <;> rfl, hset⟩
  · exact ⟨by split <;> rfl, hset⟩

theorem sendRelease_eq {r : Release} (hi : r.install = false) (s : State) : ∃ target < 4096,
    s.sendRelease p r = (s.beforeRelease p r).broadcast p (.release r.bid target (s.exact && !s.spans r.bid) r.dlset r.dlctr false) := by
  have hfired : OnlyFields [wHeld, pdFired p] s (if r.dlset then s.setF (pdFired p) 1 else s) := by
    split
    · exact onlyFields_setF _ _ (pdFired_ok p) (by simp)
    · exact .refl _ s
  have hspans := spans_of_held_fired hfired r.bid
  have hexact : (if r.dlset then s.setF (pdFired p) 1 else s).exact = s.exact := by split <;> rfl
  refine ⟨if s.exact && !s.spans r.bid then ((if r.dlset then s.setF (pdFired p) 1 else s).draw.toNat + 229) % 4096 else 0, ?_, ?_⟩
  · split
    · exact Nat.mod_lt _ (by decide)
    · decide
  · rw [State.sendRelease, hi, if_neg Bool.false_ne_true]
    simp only [hspans, hexact]
    rfl

theorem sendRelease_effect (hp : p < 8) {r : Release} (hi : r.install = false) (s : State) : ∃ target < 4096,
    Sends p [.release r.bid target (s.exact && !s.spans r.bid) r.dlset r.dlctr false] s (s.sendRelease p r) := by
  obtain ⟨target, hlt, hsend⟩ := sendRelease_eq (p := p) hi s
  obtain ⟨hrest, honly⟩ := beforeRelease_effect p r s
  refine ⟨target, hlt, ?_⟩
  rw [hsend]
  generalize s.beforeRelease p r = b at hrest honly
  refine ⟨?_, fun f hf ha => (getF_congr (regs_broadcast ..) f).trans (honly f hf ha), fun d => ?_⟩
  · rw [broadcast_rest, hrest]
  · rw [broadcast_told p _ b d, partDies_of_held_fired hp (honly.mono (by simp)), hrest]
    rfl

/-- A target for the release at `k`, and the others' targets. -/
def targetsFrom (k target : Nat) (tg : Nat → Nat) : Nat → Nat := fun i => if i = k then target else tg i

theorem keptReleases_cons (r : Release) (rs : List Release) (k target : Nat) (tg : Nat → Nat) (s : State) :
    ((r :: rs).zipIdx k).map (keptRelease s (targetsFrom k target tg)) =
      [.release r.bid target (s.exact && !s.spans r.bid) r.dlset r.dlctr false] ++ (rs.zipIdx (k + 1)).map (keptRelease s tg) := by
  have hhead : targetsFrom k target tg k = target := if_pos rfl
  rw [List.zipIdx_cons, List.map_cons, keptRelease, hhead, List.singleton_append]
  congr 1
  refine List.map_congr_left fun e he => ?_
  have hle := List.le_snd_of_mem_zipIdx he
  rw [keptRelease, targetsFrom, if_neg (by omega), keptRelease]

theorem keptRelease_congr (h : Sends p ms s t) (tg : Nat → Nat) : keptRelease t tg = keptRelease s tg := by
  funext e
  rw [keptRelease, keptRelease, h.exact_eq, spans_of_held_fired h.held_fired]

/-- Every kept release goes out, in order. -/
theorem forAll_sendRelease (hp : p < 8) {rs : List Release} (hi : ∀ r, r ∈ rs → r.install = false) (k : Nat) (s : State) :
    ∃ tg : Nat → Nat, (∀ i, tg i < 4096) ∧
      Sends p ((rs.zipIdx k).map (keptRelease s tg)) s (forAll rs (fun r t => t.sendRelease p r) s) := by
  induction rs generalizing k s with
  | nil => exact ⟨fun _ => 0, fun _ => Nat.zero_lt_succ _, .refl p s⟩
  | cons r rs ih =>
    obtain ⟨target, hlt, hsend⟩ := sendRelease_effect hp (hi r (List.mem_cons_self ..)) s
    obtain ⟨tg, htg, hsends⟩ := ih (fun x hx => hi x (List.mem_cons_of_mem _ hx)) (k + 1) (s.sendRelease p r)
    rw [keptRelease_congr hsend] at hsends
    refine ⟨targetsFrom k target tg, fun i => ?_, ?_⟩
    · rw [targetsFrom]
      split
      · exact hlt
      · exact htg i
    · rw [keptReleases_cons]
      exact hsend.trans hp hsends

/-! ### What ends with a hold (R273, R293, R327, R345) -/

/-- The partition without its hold; refresh debt that is still owed stays due. -/
def State.unhold (p : Nat) (s : State) : State :=
  (s.modPart p fun t => { t with hold := none, refreshDebt := t.refreshDebt && s.owesRefresh }).noteHeld

theorem onlyFields_noteHeld (s : State) : OnlyFields [wHeld] s s.noteHeld := onlyFields_setF _ _ wHeld_ok (by simp)

theorem part_noteHeld (s : State) (q : Nat) : s.noteHeld.part q = s.part q := rfl

theorem unhold_rest (p : Nat) (s : State) : s.unhold p = { s with regs := (s.unhold p).regs, parts := (s.unhold p).parts } := rfl

theorem onlyFields_unhold (p : Nat) (s : State) : OnlyFields [wHeld] s (s.unhold p) := fun f hf ha =>
  (onlyFields_noteHeld _ f hf ha).trans (getF_modPart ..)

theorem part_unhold_same (p : Nat) (s : State) :
    (s.unhold p).part p = { s.part p with hold := none, refreshDebt := (s.part p).refreshDebt && s.owesRefresh } := by
  rw [State.unhold, part_noteHeld, part_modPart_same]

theorem part_unhold_ne {q : Nat} (h : q ≠ p) (s : State) : (s.unhold p).part q = s.part q := by
  rw [State.unhold, part_noteHeld, part_modPart_ne _ h]

theorem holdEndOp_of_over {h : Hold} (hhold : (s.part p).hold = some h) (hover : s.holdOver p h = true) : holdEndOp p s =
    ((signalPatch p (forAll h.releases (fun r t => t.sendRelease p r) (reenter p (s.unhold p)))).releaseBuffered p).actAtRest p := by
  simp only [holdEndOp, hhold, hover]
  rfl

theorem holdEndOp_of_not_over {h : Hold} (hhold : (s.part p).hold = some h) (hover : s.holdOver p h = false) : holdEndOp p s = s := by
  simp [holdEndOp, hhold, hover]

theorem reenter_of_zero (h : (s.part p).reentry = 0) : reenter p s = s := by
  simp [reenter, h]

theorem sameParts_signalPatch (h : (s.part p).patched = false) : SameParts s (signalPatch p s) := by
  simp only [signalPatch, h, Bool.false_and, Bool.false_eq_true, if_false]
  exact sameParts_modPart (by rw [← h])

theorem sameParts_releaseBuffered (h : (s.part p).buffered = []) : SameParts s (s.releaseBuffered p) := by
  have hempty : SameParts s (s.modPart p fun t => { t with buffered := [] }) := sameParts_modPart (by rw [← h])
  rw [State.releaseBuffered, h]
  split
  · exact hempty.trans (sameParts_modPart (by simp only [List.append_nil]))
  · exact hempty

theorem actAtRest_of_launched (h : (s.part p).forwarded ≠ (s.part p).resultEnds) : s.actAtRest p = s := by
  simp [State.actAtRest, State.resting, h]

/-- Nothing that waited besides the releases, the end of a hold sends just these. -/
theorem holdEndOp_effect (hp : p < 8) {h : Hold} (hhold : (s.part p).hold = some h) (hover : s.holdOver p h = true)
    (hi : ∀ r, r ∈ h.releases → r.install = false) (hre : (s.part p).reentry = 0) (hpatch : (s.part p).patched = false)
    (hbuf : (s.part p).buffered = []) (hlaunched : (s.part p).forwarded ≠ (s.part p).resultEnds) :
    ∃ (u : State) (tg : Nat → Nat), (∀ i, tg i < 4096) ∧ Sends p (h.releases.zipIdx.map (keptRelease s tg)) (s.unhold p) u ∧
      SameParts u (holdEndOp p s) := by
  have hpart := part_unhold_same p s
  have hmid : reenter p (s.unhold p) = s.unhold p := reenter_of_zero (by rw [hpart]; exact hre)
  obtain ⟨tg, htg, hsends⟩ := forAll_sendRelease hp hi 0 (s.unhold p)
  have hkept : keptRelease (s.unhold p) tg = keptRelease s tg := by
    funext e
    rw [keptRelease, keptRelease, spans_of_held_fired (p := p) ((onlyFields_unhold p s).mono (by simp))]
    rfl
  rw [hkept] at hsends
  refine ⟨_, tg, htg, hsends, ?_⟩
  rw [holdEndOp_of_over hhold hover, hmid]
  have hafter := (hsends.part_eq p).trans hpart
  generalize forAll h.releases (fun r t => t.sendRelease p r) (s.unhold p) = u at hafter
  have hsig : SameParts u (signalPatch p u) := sameParts_signalPatch (by rw [hafter]; exact hpatch)
  have hrel : SameParts (signalPatch p u) ((signalPatch p u).releaseBuffered p) :=
    sameParts_releaseBuffered (by rw [hsig.2, hafter]; exact hbuf)
  rw [actAtRest_of_launched (by rw [(hsig.trans hrel).2, hafter]; exact hlaunched)]
  exact hsig.trans hrel

theorem SameParts.getF_eq (h : SameParts s t) (f : Fld) : t.getF f = s.getF f := by rw [h.1]; rfl

theorem SameParts.die_eq (h : SameParts s t) (d : Nat) : t.die d = s.die d := by rw [h.1]; rfl

/-! ### A hold for refresh debt (R275, R345) -/

theorem changePoint_of_exact (h : s.exact = true) : s.changePoint = s := by
  rw [State.changePoint]
  split
  · simp [h]
  · rfl

/-- The hold that begins for a stack's refresh debt. -/
def State.refreshHold (s : State) : Hold := { refresh := true, resumeAt := some (s.tick + s.getF wPauseMin) }

/-- The partition with that hold. -/
def State.holdForRefresh (p : Nat) (s : State) : State :=
  s.modPart p fun t => { t with hold := some s.refreshHold, hadExtra := true }

theorem part_holdForRefresh (p : Nat) (s : State) :
    (s.holdForRefresh p).part p = { s.part p with hold := some s.refreshHold, hadExtra := true } := part_modPart_same ..

theorem modPart_congr {f g : Part → Part} (h : f (s.part p) = g (s.part p)) : s.modPart p f = s.modPart p g := by
  rw [State.modPart, State.modPart, tblMod, tblMod]
  exact congrArg (fun x => { s with parts := tblPut (fun _ => {}) p x s.parts }) h

theorem beginHold_refresh (hexact : s.exact = true) (hhold : (s.part p).hold = none) :
    s.beginHold p 0 { refresh := true } = (s.holdForRefresh p).noteHeld := by
  have hpart : (s.modPart p fun t => { t with
      hold := some ((t.hold.getD {}).merge { ({ refresh := true } : Hold) with resumeAt := some (s.tick + s.getF wPauseMin) }),
      hadPause := t.hadPause || false, hadExtra := t.hadExtra || true,
      hadHold := t.hadHold || false || false || false }) = s.holdForRefresh p := by
    refine modPart_congr ?_
    simp only [hhold, Bool.or_false, Bool.or_true]
    rfl
  rw [State.beginHold]
  simp only [hpart]
  exact changePoint_of_exact (by exact hexact)

theorem extraRefreshHoldOp_of_debt {c : Nat} (hexact : s.exact = true) (hrun : s.getF (ppState p) = 1) (hhold : (s.part p).hold = none)
    (hdebt : (s.ctl c).debt ≠ []) : extraRefreshHoldOp c p s = (s.holdForRefresh p).noteHeld := by
  rw [← beginHold_refresh hexact hhold, extraRefreshHoldOp, if_pos]
  simp [hexact, hrun, hhold, hdebt]

/-- HELD reads 1 while a partition is held for refresh. -/
theorem wHeld_noteHeld {h : Hold} (hp : p < 8) (hhold : (s.part p).hold = some h) (hr : h.refresh = true) : s.noteHeld.getF wHeld = 1 := by
  have hany : ((List.range 8).any fun q => match (s.part q).hold with
      | some h => h.thermal || h.refresh || h.point
      | none => false) = true := by
    refine List.any_eq_true.2 ⟨p, List.mem_range.2 hp, ?_⟩
    simp [hhold, hr]
  rw [State.noteHeld, getF_setF_same _ _ wHeld_ok]
  exact (congrArg (fun b : Bool => b.toNat % 2 ^ wHeld.w) hany).trans rfl

end Holds

end Sys2Proof.Machine
end
section
/-!
PROOFS. Scope: work done in turn over a list; what an event and a log entry change (R409, R501).
-/
namespace Sys2Proof.Machine

/-! ### Work done in turn -/

section InTurn

variable {α σ β : Type} {l : List α} {f : α → σ → σ} {x : σ} {a : α}

/-- What every part of the work keeps, the whole keeps. -/
theorem forAll_leaves (v : σ → β) (h : ∀ a ∈ l, ∀ y, v (f a y) = v y) (x : σ) : v (forAll l f x) = v x := by
  induction l generalizing x with
  | nil => rfl
  | cons a l ih => rw [forAll_cons, ih (fun b hb => h b (List.mem_cons_of_mem _ hb)), h a (List.mem_cons_self ..)]

/-- A property that every part keeps, the whole keeps. -/
theorem forAll_invariant {P : σ → Prop} (h : ∀ a ∈ l, ∀ y, P y → P (f a y)) (hx : P x) : P (forAll l f x) := by
  induction l generalizing x with
  | nil => exact hx
  | cons a l ih => exact ih (fun b hb => h b (List.mem_cons_of_mem _ hb)) (h a (List.mem_cons_self ..) x hx)

/-- A property that one part brings about and no part takes back holds in the end; `I` is what holds all along. -/
theorem forAll_establishes {I P : σ → Prop} (ha : a ∈ l) (hI : ∀ b ∈ l, ∀ y, I y → I (f b y)) (hset : ∀ y, I y → P (f a y))
    (hkeep : ∀ b ∈ l, ∀ y, I y → P y → P (f b y)) (hx : I x) : P (forAll l f x) := by
  induction l generalizing x with
  | nil => exact absurd ha List.not_mem_nil
  | cons b l ih =>
    have hI' : ∀ c ∈ l, ∀ y, I y → I (f c y) := fun c hc => hI c (List.mem_cons_of_mem _ hc)
    have hkeep' : ∀ c ∈ l, ∀ y, I y → P y → P (f c y) := fun c hc => hkeep c (List.mem_cons_of_mem _ hc)
    have hhead := hI b (List.mem_cons_self ..) x hx
    rw [forAll_cons]
    rcases List.mem_cons.1 ha with rfl | hl
    · exact (forAll_invariant (P := fun y => I y ∧ P y) (fun c hc y hy => ⟨hI' c hc y hy.1, hkeep' c hc y hy.1 hy.2⟩)
        ⟨hhead, hset x hx⟩).2
    · exact ih hl hI' hkeep' hhead

end InTurn

section Registers

variable {α : Type} {s t u : State} {l m : List Fld} {f : Fld} {i : Nat}

/-- The fields that the parts write, the whole writes. -/
theorem onlyFields_forAll {xs : List α} {f : α → State → State} {g : α → List Fld} (h : ∀ a ∈ xs, ∀ t, OnlyFields (g a) t (f a t))
    (s : State) : OnlyFields (xs.flatMap g) s (forAll xs f s) := by
  induction xs generalizing s with
  | nil => exact .refl _ s
  | cons a xs ih =>
    refine ((h a (List.mem_cons_self ..) s).mono fun x hx => ?_).trans
      ((ih (fun b hb => h b (List.mem_cons_of_mem _ hb)) (f a s)).mono fun x hx => ?_)
    · exact List.mem_flatMap.2 ⟨a, List.mem_cons_self .., hx⟩
    · obtain ⟨b, hb, hxb⟩ := List.mem_flatMap.1 hx
      exact List.mem_flatMap.2 ⟨b, List.mem_cons_of_mem _ hb, hxb⟩

theorem OnlyFields.append (h : OnlyFields l s t) (k : OnlyFields m t u) : OnlyFields (l ++ m) s u :=
  (h.mono fun _ hx => List.mem_append_left _ hx).trans (k.mono fun _ hx => List.mem_append_right _ hx)

theorem onlyFields_of_regs (h : t.regs = s.regs) (l : List Fld) : OnlyFields l s t := fun f _ _ => getF_congr h f

/-- Register fields written in turn, each with its value. -/
def State.writes (es : List (Fld × Nat)) (s : State) : State := forAll es (fun e t => t.setF e.1 e.2) s

theorem regsOnly_writes {es : List (Fld × Nat)} (hok : ∀ e ∈ es, e.1.Ok) (s : State) : RegsOnly (es.map (·.1)) s (s.writes es) :=
  forAll_invariant (P := RegsOnly (es.map (·.1)) s)
    (fun e he _ h => h.trans (regsOnly_setF _ _ (hok e he) (List.mem_map_of_mem he))) (.refl _ s)

/-- Of fields that share no bit each reads what was written to it. -/
theorem getF_writes {es : List (Fld × Nat)} (hok : ∀ e ∈ es, e.1.Ok) (hpair : es.Pairwise fun a b => a.1.Apart b.1) (s : State) :
    ∀ e ∈ es, (s.writes es).getF e.1 = e.2 % 2 ^ e.1.w := by
  induction es generalizing s with
  | nil => exact List.forall_mem_nil _
  | cons a es ih =>
    obtain ⟨hhead, htail⟩ := List.pairwise_cons.1 hpair
    have hok' : ∀ e ∈ es, e.1.Ok := fun e he => hok e (List.mem_cons_of_mem _ he)
    have ha := hok a (List.mem_cons_self ..)
    refine List.forall_mem_cons.2 ⟨?_, ih hok' htail _⟩
    refine ((regsOnly_writes hok' (s.setF a.1 a.2)).2 a.1 ha fun g hg => ?_).trans (getF_setF_same _ _ ha)
    obtain ⟨e, he, rfl⟩ := List.mem_map.1 hg
    exact hhead e he

/-! ### A log entry (R501) -/

/-- A register written after register work leaves everything else. -/
theorem rest_setF (h : t = { s with regs := t.regs }) (f : Fld) (v : Nat) : t.setF f v = { s with regs := (t.setF f v).regs } := by
  have hput : ∀ r, { t with regs := r } = { s with regs := r } := fun r => by rw [h]
  exact hput _

theorem log_rest (cls src unit : Nat) (poison : Bool) (code loc : Nat) (s : State) :
    s.log cls src unit poison code loc = { s with regs := (s.log cls src unit poison code loc).regs } := by
  have hwrap : ∀ e, s.logWrap e = { s with regs := (s.logWrap e).regs } := fun e => by
    rw [State.logWrap]
    split <;> rfl
  have hcount : ∀ t : State, t.logCount cls = { t with regs := (t.logCount cls).regs } := fun t => by
    rw [State.logCount]
    split
    · rfl
    · split
      · rfl
      · split <;> rfl
  have hwrite : ∀ e, ((s.logWrap e).logWrite e cls src unit poison code loc) =
      { s with regs := ((s.logWrap e).logWrite e cls src unit poison code loc).regs } := fun e =>
    rest_setF (rest_setF (rest_setF (rest_setF (rest_setF (rest_setF (rest_setF (rest_setF (hwrap e) _ _) _ _) _ _) _ _) _ _) _ _) _ _) _ _
  rw [log_eq, hcount, hwrite]

/-! ### An event (R409) -/

theorem hEvent_ok : hEvent.Ok := by simp [Fld.Ok, hEvent]

theorem regs_msix (v : Nat) (s : State) : (s.msix v).regs = s.regs := by
  rw [State.msix]
  split <;> rfl

theorem msix_rest (v : Nat) (s : State) : s.msix v = { s with hostcfg := (s.msix v).hostcfg, out := (s.msix v).out } := by
  rw [State.msix]
  split <;> rfl

theorem regs_event (i : Nat) (s : State) : (s.event i).regs = (s.setF hEvent (s.getF hEvent ||| 2 ^ i)).regs := by
  rw [State.event]
  split
  · exact regs_msix ..
  · rfl

theorem event_rest (i : Nat) (s : State) :
    s.event i = { s with regs := (s.event i).regs, hostcfg := (s.event i).hostcfg, out := (s.event i).out } := by
  have hset : s.setF hEvent (s.getF hEvent ||| 2 ^ i) = { s with regs := (s.setF hEvent (s.getF hEvent ||| 2 ^ i)).regs } := rfl
  rw [State.event]
  split
  · rw [msix_rest, hset]
  · exact hset

theorem onlyFields_event (i : Nat) (s : State) : OnlyFields [hEvent] s (s.event i) := fun f hf ha =>
  (getF_congr (regs_event i s) f).trans (onlyFields_setF _ _ hEvent_ok (List.mem_singleton_self _) f hf ha)

theorem testBit_event (hi : i < 14) (s : State) : Nat.testBit ((s.event i).getF hEvent) i = true := by
  have hpow : 2 ^ i < 2 ^ 14 := Nat.pow_lt_pow_right (by decide) hi
  have hlt : s.getF hEvent ||| 2 ^ i < 2 ^ 14 := Nat.or_lt_two_pow (getF_lt hEvent) hpow
  rw [getF_congr (regs_event i s), getF_setF_same _ _ hEvent_ok, show hEvent.w = 14 from rfl, Nat.mod_eq_of_lt hlt]
  simp

end Registers

end Sys2Proof.Machine
end
section
/-!
PROOFS. Scope: the stop of a partition by its first fault (R235-R238, R298).
-/
namespace Sys2Proof.Machine

section Stops

variable {s t u : State} {p c e : Nat} {q : Queue} {r : FaultRec} {cs ds : List Nat}

/-! ### The record of the fault (R236) -/

/-- The register in which a partition's first fault stands. -/
def faultFields (p : Nat) : List Fld := [pfCode p, pfCore p, pfQueue p, pfPc p, pfRemote p, pfValid p]

/-- The fault is recorded. -/
def State.recordFault (p : Nat) (r : FaultRec) (s : State) : State :=
  s.setF (pfCode p) r.code |>.setF (pfCore p) r.core |>.setF (pfQueue p) r.queue |>.setF (pfPc p) r.pc
    |>.setF (pfRemote p) r.remote.toNat |>.setF (pfValid p) 1

theorem faultFields_ok (p : Nat) : ∀ f ∈ faultFields p, f.Ok := by
  simp [faultFields, Fld.Ok, pfCode, pfCore, pfQueue, pfPc, pfRemote, pfValid]

theorem faultFields_place (hp : p < 8) : ∀ f ∈ faultFields p, 8 * 0x00200600 ≤ f.base ∧ f.base + f.w ≤ 8 * 0x00200640 := by
  simp only [faultFields, List.forall_mem_cons, Fld.base, pfCode, pfCore, pfQueue, pfPc, pfRemote, pfValid]
  refine ⟨?_, ?_, ?_, ?_, ?_, ?_, List.forall_mem_nil _⟩ <;> omega

/-- What the record says of a fault whose fields fit. -/
structure Recorded (p : Nat) (r : FaultRec) (t : State) : Prop where
  code : t.getF (pfCode p) = r.code
  core : t.getF (pfCore p) = r.core
  queue : t.getF (pfQueue p) = r.queue
  pc : t.getF (pfPc p) = r.pc
  remote : t.getF (pfRemote p) = r.remote.toNat
  valid : t.getF (pfValid p) = 1

theorem Recorded.congr (h : Recorded p r s) (hf : ∀ f ∈ faultFields p, t.getF f = s.getF f) : Recorded p r t := by
  simp only [faultFields, List.forall_mem_cons] at hf
  obtain ⟨hcode, hcore, hqueue, hpc, hremote, hvalid, -⟩ := hf
  exact ⟨hcode.trans h.code, hcore.trans h.core, hqueue.trans h.queue, hpc.trans h.pc, hremote.trans h.remote, hvalid.trans h.valid⟩

/-- The record, field by field. -/
def faultRecord (p : Nat) (r : FaultRec) : List (Fld × Nat) :=
  [(pfCode p, r.code), (pfCore p, r.core), (pfQueue p, r.queue), (pfPc p, r.pc), (pfRemote p, r.remote.toNat), (pfValid p, 1)]

theorem recordFault_eq (p : Nat) (r : FaultRec) (s : State) : s.recordFault p r = s.writes (faultRecord p r) := rfl

theorem faultRecord_ok (p : Nat) (r : FaultRec) : ∀ e ∈ faultRecord p r, e.1.Ok := by
  simpa [faultRecord, faultFields] using faultFields_ok p

theorem regsOnly_recordFault (p : Nat) (r : FaultRec) (s : State) : RegsOnly (faultFields p) s (s.recordFault p r) :=
  regsOnly_writes (faultRecord_ok p r) s

theorem faultRecord_apart (p : Nat) (r : FaultRec) : (faultRecord p r).Pairwise fun a b => a.1.Apart b.1 := by
  simp [faultRecord, Fld.Apart, Fld.base, pfCode, pfCore, pfQueue, pfPc, pfRemote, pfValid]

theorem recorded_recordFault (hcode : r.code < 256) (hcore : r.core < 2048) (hqueue : r.queue < 4) (hpc : r.pc < 4096) (p : Nat)
    (s : State) : Recorded p r (s.recordFault p r) := by
  have hread := getF_writes (faultRecord_ok p r) (faultRecord_apart p r) s
  rw [← recordFault_eq] at hread
  simp only [faultRecord, List.forall_mem_cons] at hread
  obtain ⟨kcode, kcore, kqueue, kpc, kremote, kvalid, -⟩ := hread
  exact ⟨kcode.trans (Nat.mod_eq_of_lt hcode), kcore.trans (Nat.mod_eq_of_lt hcore), kqueue.trans (Nat.mod_eq_of_lt hqueue),
    kpc.trans (Nat.mod_eq_of_lt hpc), kremote.trans (Nat.mod_eq_of_lt (Bool.toNat_lt _)), kvalid⟩

/-! ### The cores of a stopped partition (R235, R238) -/

/-- What a stop writes of a core. -/
def stopFields (c : Nat) : List Fld := cArrived c :: allQueues.map (qState c)

theorem stopFields_ok (c : Nat) : ∀ f ∈ stopFields c, f.Ok := by
  simp [stopFields, allQueues, cArrived_ok, qState_ok]

theorem stopFields_place (c : Nat) : ∀ f ∈ stopFields c,
    8 * (corePage c + 0x900) ≤ f.base ∧ f.base + f.w ≤ 8 * (corePage c + 0xB10) := by
  simp only [stopFields, allQueues, List.map_cons, List.map_nil, List.forall_mem_cons, Fld.base, cArrived, qState, Queue.num, corePage]
  refine ⟨?_, ?_, ?_, ?_, ?_, List.forall_mem_nil _⟩ <;> omega

/-- STATE of a queue once its partition is stopped. -/
def stoppedState (x : Nat) : Nat := if x = 1 ∨ x = 2 then 5 else x

theorem stoppedState_idem (x : Nat) : stoppedState (stoppedState x) = stoppedState x := by
  simp only [stoppedState]
  split <;> simp_all

theorem mem_allQueues (q : Queue) : q ∈ allQueues := by cases q <;> simp [allQueues]

theorem regsOnly_stopQueue (c : Nat) (q : Queue) (s : State) : RegsOnly (stopFields c) s (stopQueue c q s) := by
  rw [stopQueue]
  split
  · exact regsOnly_setF _ _ (qState_ok ..) (List.mem_cons_of_mem _ (List.mem_map_of_mem (mem_allQueues q)))
  · exact .refl _ s

theorem qState_stopQueue_same (c : Nat) (q : Queue) (s : State) :
    (stopQueue c q s).getF (qState c q) = stoppedState (s.getF (qState c q)) := by
  rw [stopQueue, stoppedState]
  split
  · exact getF_setF_same _ _ (qState_ok ..)
  · rfl

/-- A queue's STATE shares no bit with another queue's, of whatever core. -/
theorem qState_apart (h : (c, q) ≠ (e, q')) : (qState c q).Apart (qState e q') := by
  have hq := queue_num_lt q
  have hq' := queue_num_lt q'
  have hne : c ≠ e ∨ q.num ≠ q'.num := by
    by_cases hc : c = e
    · exact .inr (queue_num_inj fun hqq => h (by rw [hc, hqq]))
    · exact .inl hc
  simp only [Fld.Apart, Fld.base, qState, corePage]
  omega

theorem qState_stopQueue_ne {q' : Queue} (h : (e, q') ≠ (c, q)) (s : State) :
    (stopQueue c q s).getF (qState e q') = s.getF (qState e q') := by
  rw [stopQueue]
  split
  · exact getF_setF_apart _ _ _ (qState_ok ..) (qState_ok ..) (qState_apart h)
  · rfl

/-- A queue's STATE with that of a stopped queue. -/
theorem stoppedState_stopQueue (c e : Nat) (q q' : Queue) (s : State) :
    stoppedState ((stopQueue c q s).getF (qState e q')) = stoppedState (s.getF (qState e q')) := by
  by_cases h : (e, q') = (c, q)
  · obtain ⟨rfl, rfl⟩ := Prod.mk.inj h
    rw [qState_stopQueue_same, stoppedState_idem]
  · rw [qState_stopQueue_ne h]

theorem qState_stopQueue_of_stopped (c e : Nat) (q q' : Queue) (s : State) {x : Nat} (h : s.getF (qState e q') = stoppedState x) :
    (stopQueue c q s).getF (qState e q') = stoppedState x := by
  by_cases heq : (e, q') = (c, q)
  · obtain ⟨rfl, rfl⟩ := Prod.mk.inj heq
    rw [qState_stopQueue_same, h, stoppedState_idem]
  · rw [qState_stopQueue_ne heq, h]

end Stops

end Sys2Proof.Machine
end
section
/-!
PROOFS. Scope: what a partition's stop gives up, and its end (R235-R238, R298).
-/
namespace Sys2Proof.Machine

section Stops

variable {s t u : State} {p c d e : Nat} {q : Queue} {r : FaultRec} {cs ds : List Nat}

/-! ### Every core of the partition (R235) -/

/-- The queues of a core as its partition stops. -/
theorem regsOnly_stopQueues (c : Nat) (s : State) : RegsOnly (stopFields c) s (forAll allQueues (stopQueue c) s) :=
  forAll_invariant (P := RegsOnly (stopFields c) s) (fun q _ _ h => h.trans (regsOnly_stopQueue c q _)) (.refl _ s)

theorem regsStops_stopCore (c : Nat) (s : State) : RegsStops (stopFields c) s (stopCore c s) :=
  ((regsOnly_stopQueues c s).trans (regsOnly_setF _ _ (cArrived_ok c) (List.mem_cons_self ..))).regsStops.trans
    ((regsStops_modStop ..).mono (by simp))

theorem stop_stopCore_same (c : Nat) (s : State) : (stopCore c s).stop c = { s.stop c with arrivals := [], barRec := [] } := by
  refine (stop_modStop_same c _).trans ?_
  rw [stop_setF, (regsOnly_stopQueues c s).stop_eq]

theorem stop_stopCore_ne (h : e ≠ c) (s : State) : (stopCore c s).stop e = s.stop e := by
  refine (stop_modStop_ne _ h).trans ?_
  rw [stop_setF, (regsOnly_stopQueues c s).stop_eq]

theorem stopFields_apart (h : e ≠ c) : ∀ f ∈ stopFields e, ∀ g ∈ stopFields c, f.Apart g := by
  intro f hf g hg
  obtain ⟨hflo, hfhi⟩ := stopFields_place e f hf
  obtain ⟨hglo, hghi⟩ := stopFields_place c g hg
  simp only [Fld.Apart, corePage] at *
  omega

theorem qState_mem_stopFields (c : Nat) (q : Queue) : qState c q ∈ stopFields c :=
  List.mem_cons_of_mem _ (List.mem_map_of_mem (mem_allQueues q))

theorem getF_stopCore_ne (h : e ≠ c) (s : State) : ∀ f ∈ stopFields e, (stopCore c s).getF f = s.getF f := fun f hf =>
  (regsStops_stopCore c s).2 f (stopFields_ok e f hf) (stopFields_apart h f hf)

theorem cArrived_apart_qState (c : Nat) (q : Queue) : (qState c q).Apart (cArrived c) := by
  have := queue_num_lt q
  simp only [Fld.Apart, Fld.base, cArrived, qState]
  omega

theorem qState_stopCore_same (c : Nat) (q : Queue) (s : State) :
    (stopCore c s).getF (qState c q) = stoppedState (s.getF (qState c q)) := by
  have hqueues : (forAll allQueues (stopQueue c) s).getF (qState c q) = stoppedState (s.getF (qState c q)) :=
    forAll_establishes (I := fun t => stoppedState (t.getF (qState c q)) = stoppedState (s.getF (qState c q))) (mem_allQueues q)
      (fun r _ t h => (stoppedState_stopQueue c c r q t).trans h) (fun t h => (qState_stopQueue_same c q t).trans h)
      (fun r _ t _ h => qState_stopQueue_of_stopped c c r q t h) rfl
  rw [stopCore, getF_modStop, getF_setF_apart _ _ _ (qState_ok ..) (cArrived_ok c) (cArrived_apart_qState c q), hqueues]

theorem cArrived_stopCore_same (c : Nat) (s : State) : (stopCore c s).getF (cArrived c) = 0 := by
  rw [stopCore, getF_modStop, getF_setF_same _ _ (cArrived_ok c), Nat.zero_mod]

/-- What a stop leaves of a core of the partition: waits and unreleased arrivals are abandoned. -/
structure CoreStopped (s : State) (c : Nat) (t : State) : Prop where
  queues : ∀ q, t.getF (qState c q) = stoppedState (s.getF (qState c q))
  arrived : t.getF (cArrived c) = 0
  barRec : (t.stop c).barRec = []
  arrivals : (t.stop c).arrivals = []

theorem coreStopped_stopCore (h : ∀ q, stoppedState (t.getF (qState c q)) = stoppedState (s.getF (qState c q))) :
    CoreStopped s c (stopCore c t) :=
  ⟨fun q => (qState_stopCore_same c q t).trans (h q), cArrived_stopCore_same c t, by rw [stop_stopCore_same],
    by rw [stop_stopCore_same]⟩

theorem CoreStopped.congr (h : CoreStopped s c t) (hf : ∀ f ∈ stopFields c, u.getF f = t.getF f) (hs : u.stop c = t.stop c) :
    CoreStopped s c u :=
  ⟨fun q => (hf _ (qState_mem_stopFields c q)).trans (h.queues q), (hf _ (List.mem_cons_self ..)).trans h.arrived,
    by rw [hs, h.barRec], by rw [hs, h.arrivals]⟩

theorem CoreStopped.stopCore (h : CoreStopped s c t) (e : Nat) : CoreStopped s c (stopCore e t) := by
  by_cases hce : c = e
  · subst hce
    exact coreStopped_stopCore fun q => by rw [h.queues q, stoppedState_idem]
  · exact h.congr (getF_stopCore_ne hce t) (stop_stopCore_ne hce t)

/-- Every core of the list is stopped. -/
theorem forAll_stopCore (hc : c ∈ cs) (s : State) : CoreStopped s c (forAll cs stopCore s) := by
  refine forAll_establishes (I := fun t => ∀ q, stoppedState (t.getF (qState c q)) = stoppedState (s.getF (qState c q))) hc
    (fun e _ t h q => ?_) (fun t h => coreStopped_stopCore h) (fun e _ t _ h => h.stopCore e) fun q => rfl
  by_cases hce : c = e
  · subst hce
    rw [qState_stopCore_same, stoppedState_idem, h q]
  · rw [getF_stopCore_ne hce t _ (qState_mem_stopFields c q), h q]

theorem regsStops_stopCores (cs : List Nat) (s : State) : RegsStops (cs.flatMap stopFields) s (forAll cs stopCore s) :=
  forAll_invariant (P := RegsStops (cs.flatMap stopFields) s)
    (fun c hc t h => h.trans ((regsStops_stopCore c t).mono fun _ hf => List.mem_flatMap.2 ⟨c, hc, hf⟩)) ⟨rfl, .refl _ s⟩

/-! ### The roots of the partition's barriers (R266) -/

/-- What the roots count of a barrier. -/
def rootFields (bid : Nat) : List Fld := [rbCount bid, lbCount bid]

theorem rootFields_ok (bid : Nat) : ∀ f ∈ rootFields bid, f.Ok := by
  simp [rootFields, Fld.Ok, rbCount, lbCount]

/-- Registers and what the roots hold may change, nothing else. -/
def RootsChange (s t : State) : Prop := t = { s with regs := t.regs, net := t.net }

theorem RootsChange.trans (h : RootsChange s t) (k : RootsChange t u) : RootsChange s u := by
  rw [RootsChange] at *
  rw [k, h]

/-- The counts of one barrier cleared. -/
def State.clearCounts (bid : Nat) (s : State) : State := s.setF (rbCount bid) 0 |>.setF (lbCount bid) 0

theorem regsOnly_clearCounts (bid : Nat) (s : State) : RegsOnly (rootFields bid) s (s.clearCounts bid) := by
  have hok := rootFields_ok bid
  simp only [rootFields, List.forall_mem_cons] at hok
  obtain ⟨hcount, hhome, -⟩ := hok
  exact (regsOnly_setF _ _ hcount (by simp [rootFields])).trans (regsOnly_setF _ _ hhome (by simp [rootFields]))

/-- A barrier's root and home forget who has arrived. -/
def State.clearRoots (bid : Nat) (s : State) : State := (s.setRootAll bid true).setHome bid [] true

theorem regs_clearRoots (bid : Nat) (s : State) : (s.clearRoots bid).regs = s.regs := rfl

theorem rootsChange_clearRoots (bid : Nat) (s : State) : RootsChange s (s.clearRoots bid) := rfl

theorem RegsOnly.rootsChange {l : List Fld} (h : RegsOnly l s t) : RootsChange s t := by
  obtain ⟨hrest, -⟩ := h
  rw [RootsChange, hrest]

theorem resetBarrier_eq (p bid : Nat) (s : State) : resetBarrier p bid s =
    if s.getF (rbPart bid) = p then (s.clearCounts bid).clearRoots bid else s := rfl

theorem resetBarrier_frame (p bid : Nat) (s : State) :
    OnlyFields (rootFields bid) s (resetBarrier p bid s) ∧ RootsChange s (resetBarrier p bid s) := by
  have hclear := regsOnly_clearCounts bid s
  rw [resetBarrier_eq]
  generalize s.clearCounts bid = u at hclear
  split
  · exact ⟨hclear.2.trans (onlyFields_of_regs (regs_clearRoots bid u) _), hclear.rootsChange.trans (rootsChange_clearRoots bid u)⟩
  · exact ⟨.refl _ s, rfl⟩

/-- The counts of all barriers. -/
def rootsFields : List Fld := (List.range 64).flatMap rootFields

theorem rootsFields_place : ∀ f ∈ rootsFields, f.Ok ∧ 8 * 0x00603000 ≤ f.base ∧ f.base + f.w ≤ 8 * 0x0070F200 := by
  intro f hf
  obtain ⟨b, hb, hfb⟩ := List.mem_flatMap.1 hf
  have hlt := List.mem_range.1 hb
  refine ⟨rootFields_ok b f hfb, ?_⟩
  revert f
  simp only [rootFields, List.mem_cons, List.not_mem_nil, or_false]
  rintro f - (rfl | rfl)
  · simp only [Fld.base, rbCount]
    omega
  · simp only [Fld.base, lbCount]
    omega

theorem onlyFields_resetBarriers (p : Nat) (s : State) : OnlyFields rootsFields s (forAll (List.range 64) (resetBarrier p) s) :=
  onlyFields_forAll (fun b _ t => (resetBarrier_frame p b t).1) s

theorem rootsChange_resetBarriers (p : Nat) (s : State) : RootsChange s (forAll (List.range 64) (resetBarrier p) s) :=
  forAll_invariant (P := RootsChange s) (fun b _ t h => h.trans ((resetBarrier_frame p b t).2)) rfl

/-! ### The dies of the partition (R235, R255) -/

/-- A die's combiner gives up its counts. -/
def State.clearComb (d : Nat) (s : State) : State := s.modDie d fun x => { x with comb := [] }

theorem clearCombs_rest (ds : List Nat) (s : State) : forAll ds State.clearComb s = { s with dies := (forAll ds State.clearComb s).dies } :=
  forAll_invariant (P := fun t : State => t = { s with dies := t.dies }) (fun d _ t h => by rw [h]; rfl) rfl

theorem die_clearCombs (ds : List Nat) (s : State) (d : Nat) :
    (forAll ds State.clearComb s).die d = if d ∈ ds then { s.die d with comb := [] } else s.die d := by
  induction ds generalizing s with
  | nil => rfl
  | cons e ds ih =>
    rw [forAll_cons, ih]
    by_cases hd : d = e
    · subst hd
      rw [if_pos (List.mem_cons_self ..), State.clearComb, die_modDie_same, ite_self]
    · rw [State.clearComb, die_modDie_ne _ hd]
      simp only [List.mem_cons, hd, false_or]

/-! ### The checkpoint command and the partition's STATE (R298) -/

/-- A pending checkpoint command is cancelled. -/
def State.cancelCkpt (p : Nat) (s : State) : State :=
  if s.getF (pkState p) = 1 then
    ((s.setF (pkState p) 0 |>.setF (pkStatus p) 7).modPart p fun t => { t with ckptCmd := 0 }).event 11
  else s

/-- The partition reads STATE 2, and has no fault left to report. -/
def State.toStopped (p : Nat) (s : State) : State := s.setF (ppState p) 2 |>.modPart p fun t => { t with faults := [], dlRunning := false }

/-- What the end of a stop writes, apart from the log. -/
def endFields (p : Nat) : List Fld := [ppState p, pkState p, pkStatus p, hEvent]

theorem endFields_ok (p : Nat) : ∀ f ∈ endFields p, f.Ok := by
  simp [endFields, Fld.Ok, ppState, pkState, pkStatus, hEvent]

theorem endFields_apart (hp : p < 8) : (endFields p).Pairwise Fld.Apart := by
  simp only [endFields, List.pairwise_cons, List.forall_mem_cons, Fld.Apart, Fld.base, ppState, pkState, pkStatus, hEvent]
  refine ⟨⟨?_, ?_, ?_, List.forall_mem_nil _⟩, ⟨?_, ?_, List.forall_mem_nil _⟩, ⟨?_, List.forall_mem_nil _⟩, List.forall_mem_nil _, .nil⟩ <;>
    omega

end Stops

end Sys2Proof.Machine
end
section
/-!
PROOFS. Scope: O33, holds and stops (R235, R238, R273, R275, R293, R345).
-/
namespace Sys2Proof.Machine

section Stops

variable {s t u : State} {p c d e : Nat} {q : Queue} {r : FaultRec} {cs ds : List Nat}

/-! ### The end of a stop (R235, R298) -/

/-- Registers, partitions and what the host is told may change, nothing else. -/
def EndChange (s t : State) : Prop := t = { s with regs := t.regs, parts := t.parts, hostcfg := t.hostcfg, out := t.out }

theorem EndChange.trans (h : EndChange s t) (k : EndChange t u) : EndChange s u := by
  rw [EndChange] at *
  rw [k, h]

theorem endChange_event (i : Nat) (s : State) : EndChange s (s.event i) := by
  rw [EndChange, event_rest]

theorem endChange_log (cls src unit : Nat) (poison : Bool) (code loc : Nat) (s : State) :
    EndChange s (s.log cls src unit poison code loc) := by
  rw [EndChange, log_rest]

theorem endChange_setF (f : Fld) (v : Nat) (s : State) : EndChange s (s.setF f v) := rfl

theorem endChange_modPart (p : Nat) (f : Part → Part) (s : State) : EndChange s (s.modPart p f) := rfl

theorem endChange_toStopped (p : Nat) (s : State) : EndChange s (s.toStopped p) :=
  (endChange_setF ..).trans (endChange_modPart ..)

/-- The command's registers, and the command, as it is cancelled. -/
def State.dropCkpt (p : Nat) (s : State) : State :=
  (s.setF (pkState p) 0 |>.setF (pkStatus p) 7).modPart p fun t => { t with ckptCmd := 0 }

theorem cancelCkpt_eq (p : Nat) (s : State) : s.cancelCkpt p = if s.getF (pkState p) = 1 then (s.dropCkpt p).event 11 else s := rfl

theorem pkState_apart (p : Nat) : (pkState p).Apart (pkStatus p) ∧ (pkState p).Apart hEvent ∧ (pkStatus p).Apart hEvent := by
  simp only [Fld.Apart, Fld.base, pkState, pkStatus, hEvent]
  omega

theorem pkState_ok (p : Nat) : (pkState p).Ok := by simp [Fld.Ok, pkState]

theorem pkStatus_ok (p : Nat) : (pkStatus p).Ok := by simp [Fld.Ok, pkStatus]

theorem ppState_ok (p : Nat) : (ppState p).Ok := by simp [Fld.Ok, ppState]

theorem dropCkpt_effect (p : Nat) (s : State) : (s.dropCkpt p).getF (pkState p) = 0 ∧ (s.dropCkpt p).getF (pkStatus p) = 7 ∧
    OnlyFields [pkState p, pkStatus p] s (s.dropCkpt p) ∧ EndChange s (s.dropCkpt p) ∧
    ((s.dropCkpt p).part p).faults = (s.part p).faults := by
  obtain ⟨happ, -, -⟩ := pkState_apart p
  refine ⟨?_, ?_, ?_, ((endChange_setF ..).trans (endChange_setF ..)).trans (endChange_modPart ..), ?_⟩
  · rw [State.dropCkpt, getF_modPart, getF_setF_apart _ _ _ (pkState_ok p) (pkStatus_ok p) happ, getF_setF_same _ _ (pkState_ok p),
      Nat.zero_mod]
  · rw [State.dropCkpt, getF_modPart, getF_setF_same _ _ (pkStatus_ok p)]
    rfl
  · exact fun f hf ha => (getF_modPart ..).trans
      (OnlyFields.setF (onlyFields_setF _ _ (pkState_ok p) (List.mem_cons_self ..)) (pkStatus_ok p) (by simp) 7 f hf ha)
  · rw [State.dropCkpt, part_modPart_same, part_setF, part_setF]

theorem part_event (i q : Nat) (s : State) : (s.event i).part q = s.part q := by
  rw [event_rest]
  rfl

theorem part_log (cls src unit : Nat) (poison : Bool) (code loc q : Nat) (s : State) :
    (s.log cls src unit poison code loc).part q = s.part q := by
  rw [log_rest]
  rfl

theorem cancelCkpt_effect (p : Nat) (s : State) :
    (s.getF (pkState p) = 1 → (s.cancelCkpt p).getF (pkState p) = 0 ∧ (s.cancelCkpt p).getF (pkStatus p) = 7) ∧
    OnlyFields [pkState p, pkStatus p, hEvent] s (s.cancelCkpt p) ∧ EndChange s (s.cancelCkpt p) ∧
    ((s.cancelCkpt p).part p).faults = (s.part p).faults := by
  obtain ⟨hstate, hstatus, honly, hrest, hfaults⟩ := dropCkpt_effect p s
  obtain ⟨-, hse, hte⟩ := pkState_apart p
  rw [cancelCkpt_eq]
  generalize s.dropCkpt p = u at hstate hstatus honly hrest hfaults
  have hevent := onlyFields_event 11 u
  split
  · refine ⟨fun _ => ⟨?_, ?_⟩, (honly.mono (by simp)).trans (hevent.mono (by simp)), hrest.trans (endChange_event 11 u), ?_⟩
    · rw [hevent _ (pkState_ok p) (by simpa using hse), hstate]
    · rw [hevent _ (pkStatus_ok p) (by simpa using hte), hstatus]
    · rw [part_event, hfaults]
  · next hne => exact ⟨fun h => absurd h hne, .refl _ s, rfl, rfl⟩

/-- The end of a stop: STATE 2, the checkpoint command cancelled, the event raised, the log entry written. -/
def State.endStop (p : Nat) (r : FaultRec) (s : State) : State :=
  (((s.toStopped p).cancelCkpt p).event p).log 3 7 r.core false r.code 0

/-- What the end of a stop writes lies below the core pages, and apart from faults, deadlines and seeds. -/
theorem endFields_place (hp : p < 8) (he : e < 1024) : ∀ g ∈ endFields p ++ logEntry e,
    (g.base + g.w ≤ 8 * 0x00200600 ∨ 8 * 0x00200640 ≤ g.base) ∧ g.base + g.w ≤ 8 * 0x01000000 := by
  refine List.forall_mem_append.2 ⟨?_, ?_⟩
  · simp only [endFields, List.forall_mem_cons, Fld.base, ppState, pkState, pkStatus, hEvent]
    refine ⟨?_, ?_, ?_, ?_, List.forall_mem_nil _⟩ <;> omega
  · simp only [logEntry, List.forall_mem_cons, Fld.base, ogTick, ogClass, ogSource, ogUnit, ogPoison, ogCode, ogLocation, rLogHead,
      rLogWraps, rCorrected, rContained, rPattern]
    refine ⟨?_, ?_, ?_, ?_, ?_, ?_, ?_, ?_, ?_, ?_, ?_, ?_, List.forall_mem_nil _⟩ <;> omega

/-- A log entry shares no bit with what the end of a stop writes besides. -/
theorem endFields_apart_log (hp : p < 8) (he : e < 1024) : ∀ f ∈ endFields p, ∀ g ∈ logEntry e, f.Apart g := by
  intro f hf g hg
  have hflo : f.base + f.w ≤ 8 * 0x00900000 := by
    revert f
    simp only [endFields, List.forall_mem_cons, Fld.base, ppState, pkState, pkStatus, hEvent]
    refine ⟨?_, ?_, ?_, ?_, List.forall_mem_nil _⟩ <;> omega
  have hglo : 8 * 0x00900000 ≤ g.base := by
    revert g
    simp only [logEntry, List.forall_mem_cons, Fld.base, ogTick, ogClass, ogSource, ogUnit, ogPoison, ogCode, ogLocation, rLogHead,
      rLogWraps, rCorrected, rContained, rPattern]
    refine ⟨?_, ?_, ?_, ?_, ?_, ?_, ?_, ?_, ?_, ?_, ?_, ?_, List.forall_mem_nil _⟩ <;> omega
  exact .inl (hflo.trans hglo)

theorem toStopped_effect (p : Nat) (s : State) : (s.toStopped p).getF (ppState p) = 2 ∧ OnlyFields [ppState p] s (s.toStopped p) ∧
    ((s.toStopped p).part p).faults = [] := by
  refine ⟨?_, fun f hf ha => (getF_modPart ..).trans (onlyFields_setF _ _ (ppState_ok p) (List.mem_cons_self ..) f hf ha), ?_⟩
  · rw [State.toStopped, getF_modPart, getF_setF_same _ _ (ppState_ok p)]
    rfl
  · rw [State.toStopped, part_modPart_same]

theorem endStop_effect (hp : p < 8) (r : FaultRec) (s : State) : ∃ e < 1024, (s.endStop p r).getF (ppState p) = 2 ∧
    (s.getF (pkState p) = 1 → (s.endStop p r).getF (pkState p) = 0 ∧ (s.endStop p r).getF (pkStatus p) = 7) ∧
    Nat.testBit ((s.endStop p r).getF hEvent) p = true ∧ ((s.endStop p r).part p).faults = [] ∧
    OnlyFields (endFields p ++ logEntry e) s (s.endStop p r) ∧ EndChange s (s.endStop p r) := by
  have happ := endFields_apart hp
  simp only [endFields, List.pairwise_cons, List.forall_mem_cons] at happ
  obtain ⟨⟨hpk, hps, hpe, -⟩, ⟨-, hke, -⟩, ⟨hse, -⟩, -⟩ := happ
  obtain ⟨hstate, honly, hfaults⟩ := toStopped_effect p s
  obtain ⟨hcancel, conly, cchange, cfaults⟩ := cancelCkpt_effect p (s.toStopped p)
  have hchange := (endChange_toStopped p s).trans cchange
  have hpkState : (s.toStopped p).getF (pkState p) = s.getF (pkState p) :=
    honly _ (pkState_ok p) (List.forall_mem_singleton.2 (hpk.symm))
  have hppState := (conly _ (ppState_ok p) (by simpa using ⟨hpk, hps, hpe⟩)).trans hstate
  rw [hpkState] at hcancel
  rw [hfaults] at cfaults
  have hmid := (honly.mono (m := endFields p) (by simp [endFields])).trans (conly.mono (by simp +contextual [endFields]))
  rw [State.endStop]
  generalize (s.toStopped p).cancelCkpt p = u at hcancel conly cchange cfaults hchange hppState hmid
  have hevent := onlyFields_event p u
  have hlog := onlyFields_log 3 7 r.core false r.code 0 (u.event p)
  have he : (u.event p).getF rLogHead < 1024 := getF_lt rLogHead
  have hkeep : ∀ f ∈ endFields p, ((u.event p).log 3 7 r.core false r.code 0).getF f = (u.event p).getF f := fun f hf =>
    hlog f (endFields_ok p f hf) (endFields_apart_log hp he f hf)
  refine ⟨_, he, ?_, fun h => ⟨?_, ?_⟩, ?_, ?_, (hmid.trans (hevent.mono (by simp [endFields]))).append hlog,
    (hchange.trans (endChange_event p u)).trans (endChange_log ..)⟩
  · rw [hkeep _ (by simp [endFields]), hevent _ (ppState_ok p) (List.forall_mem_singleton.2 hpe), hppState]
  · rw [hkeep _ (by simp [endFields]), hevent _ (pkState_ok p) (List.forall_mem_singleton.2 hke), (hcancel h).1]
  · rw [hkeep _ (by simp [endFields]), hevent _ (pkStatus_ok p) (List.forall_mem_singleton.2 hse), (hcancel h).2]
  · rw [hkeep _ (by simp [endFields]), testBit_event (by omega) u]
  · rw [part_log, part_event, cfaults]

/-! ### What a stop gives up -/

/-- The fault recorded, the cores stopped, the roots cleared. -/
def State.giveUp (p : Nat) (r : FaultRec) (s : State) : State :=
  forAll (List.range 64) (resetBarrier p) (forAll ((s.recordFault p r).partCores p) stopCore (s.recordFault p r))

/-- The combiners cleared, the bridges told. -/
def State.tellStop (p code : Nat) (s : State) : State := (forAll (s.partDies p) State.clearComb s).broadcast p (.stop p code)

theorem partitionStopOp_of_fault {rest : List FaultRec} (hf : (s.part p).faults = r :: rest) (hrun : s.getF (ppState p) = 1) :
    partitionStopOp p s = ((s.giveUp p r).tellStop p r.code).endStop p r := by
  simp only [partitionStopOp, hf, hrun, ne_eq, not_true_eq_false, if_false]
  rfl

theorem partitionStopOp_of_none (hf : (s.part p).faults = []) : partitionStopOp p s = s := by
  simp [partitionStopOp, hf]

/-- What a stop writes before its end. -/
def giveUpFields (p : Nat) (cs : List Nat) : List Fld := faultFields p ++ cs.flatMap stopFields ++ rootsFields

theorem coreFields_above : ∀ g ∈ cs.flatMap stopFields, 8 * 0x01000000 ≤ g.base := by
  intro g hg
  obtain ⟨c, -, hgc⟩ := List.mem_flatMap.1 hg
  exact (corePage_above c _).trans (stopFields_place c g hgc).1

theorem giveUpFields_place (hp : p < 8) : ∀ g ∈ giveUpFields p cs,
    8 * 0x00200600 ≤ g.base ∧ (g.base + g.w ≤ 8 * 0x00200640 ∨ 8 * 0x00603000 ≤ g.base) := by
  simp only [giveUpFields, List.forall_mem_append]
  refine ⟨⟨fun g hg => ?_, fun g hg => ?_⟩, fun g hg => ?_⟩
  · have hplace := faultFields_place hp g hg
    omega
  · have hplace := coreFields_above g hg
    omega
  · have hplace := rootsFields_place g hg
    omega

theorem partDies_below (h : OnlyFields (giveUpFields p cs) s t) (hp : p < 8) : t.partDies p = s.partDies p := by
  have hbelow := h.regsBelow fun g hg => (giveUpFields_place hp g hg).1
  refine partDies_of_state (hbelow _ (by simp [Fld.Ok, ppDies]) ?_) (hbelow _ (ppState_ok p) ?_)
  · simp only [Fld.base, ppDies]
    omega
  · simp only [Fld.base, ppState]
    omega

/-- What a stop changes before its dies are told. -/
def GiveUpChange (s t : State) : Prop := t = { s with regs := t.regs, stops := t.stops, net := t.net }

theorem giveUp_effect (hp : p < 8) (hcode : r.code < 256) (hcore : r.core < 2048) (hqueue : r.queue < 4) (hpc : r.pc < 4096)
    (s : State) : Recorded p r (s.giveUp p r) ∧ (∀ c, c ∈ s.partCores p → CoreStopped s c (s.giveUp p r)) ∧
      OnlyFields (giveUpFields p (s.partCores p)) s (s.giveUp p r) ∧ GiveUpChange s (s.giveUp p r) := by
  have hrec := recorded_recordFault hcode hcore hqueue hpc p s
  have hregs := regsOnly_recordFault p r s
  have hcores : (s.recordFault p r).partCores p = s.partCores p := by
    rw [State.partCores, State.partCores, partDies_below (cs := []) (hregs.2.mono (by simp +contextual [giveUpFields])) hp]
  have hkeepCore : ∀ c, ∀ f ∈ stopFields c, (s.recordFault p r).getF f = s.getF f := fun c f hf =>
    hregs.2 f (stopFields_ok c f hf) fun g hg => by
      have hfc := (corePage_above c _).trans (stopFields_place c f hf).1
      have hgp := faultFields_place hp g hg
      exact .inr (by omega)
  have hstops := regsStops_stopCores (s.partCores p) (s.recordFault p r)
  have hstopped : ∀ c, c ∈ s.partCores p → CoreStopped (s.recordFault p r) c (forAll (s.partCores p) stopCore (s.recordFault p r)) :=
    fun c hc => forAll_stopCore hc _
  rw [State.giveUp, hcores]
  generalize s.recordFault p r = a at hrec hregs hkeepCore hstops hstopped
  generalize forAll (s.partCores p) stopCore a = b at hstops hstopped
  have hroots := onlyFields_resetBarriers p b
  have hchange := rootsChange_resetBarriers p b
  generalize forAll (List.range 64) (resetBarrier p) b = t at hroots hchange
  refine ⟨(hrec.congr (t := b) fun f hf => ?_).congr fun f hf => ?_, fun c hc => ?_, ?_, ?_⟩
  · refine hstops.2 f (faultFields_ok p f hf) fun g hg => ?_
    have hgc := coreFields_above g hg
    have hfp := faultFields_place hp f hf
    exact .inl (by omega)
  · refine hroots f (faultFields_ok p f hf) fun g hg => ?_
    have hgr := rootsFields_place g hg
    have hfp := faultFields_place hp f hf
    exact .inl (by omega)
  · obtain ⟨hq, harr, hbar, hpend⟩ := hstopped c hc
    have hb : CoreStopped s c b := ⟨fun q => by rw [hq q, hkeepCore c _ (qState_mem_stopFields c q)], harr, hbar, hpend⟩
    refine hb.congr (fun f hf => hroots f (stopFields_ok c f hf) fun g hg => ?_) (by rw [hchange]; rfl)
    have hfc := (corePage_above c _).trans (stopFields_place c f hf).1
    have hgr := rootsFields_place g hg
    exact .inr (by omega)
  · exact (hregs.2.append hstops.2).append hroots
  · rw [GiveUpChange, hchange, hstops.1, hregs.1]

theorem tellStop_effect (p code : Nat) (s : State) :
    (∀ d, (s.tellStop p code).die d =
      if d ∈ s.partDies p then toldBoth [.stop p code] { s.die d with comb := [] } else s.die d) ∧
    s.tellStop p code = { s with dies := (s.tellStop p code).dies } := by
  have hrest := clearCombs_rest (s.partDies p) s
  have hdies := die_clearCombs (s.partDies p) s
  have hmem : (forAll (s.partDies p) State.clearComb s).partDies p = s.partDies p := partDies_congr (by rw [hrest]) p
  rw [State.tellStop]
  generalize forAll (s.partDies p) State.clearComb s = u at hrest hdies hmem
  refine ⟨fun d => ?_, by rw [broadcast_rest, hrest]⟩
  rw [broadcast_told p _ u d, hmem, hdies d]
  split <;> rfl

/-- A field below the core pages, or of one, that no later part of the stop writes. -/
theorem getF_endStop_of_place {f : Fld} (hp : p < 8) (hf : f.Ok)
    (hplace : 8 * 0x00200600 ≤ f.base ∧ f.base + f.w ≤ 8 * 0x00200640 ∨ 8 * 0x01000000 ≤ f.base) (r : FaultRec) (s : State) :
    (s.endStop p r).getF f = s.getF f := by
  obtain ⟨e, he, -, -, -, -, honly, -⟩ := endStop_effect hp r s
  refine honly f hf fun g hg => ?_
  have hg := endFields_place hp he g hg
  rw [Fld.Apart]
  omega

/-- The first fault of a running partition stops it. -/
theorem partitionStop_effect {rest : List FaultRec} {t : State} (hp : p < 8) (hf : (s.part p).faults = r :: rest)
    (hrun : s.getF (ppState p) = 1) (hcode : r.code < 256) (hcore : r.core < 2048) (hqueue : r.queue < 4) (hpc : r.pc < 4096)
    (ht : t = partitionStopOp p s) : Recorded p r t ∧ (∀ c, c ∈ s.partCores p → CoreStopped s c t) ∧
    (∀ d, t.die d = if d ∈ s.partDies p then toldBoth [.stop p r.code] { s.die d with comb := [] } else s.die d) ∧
    t.getF (ppState p) = 2 ∧ (s.getF (pkState p) = 1 → t.getF (pkState p) = 0 ∧ t.getF (pkStatus p) = 7) ∧
    Nat.testBit (t.getF hEvent) p = true ∧ (t.part p).faults = [] ∧ t.cores = s.cores ∧ t.hbm = s.hbm := by
  subst ht
  rw [partitionStopOp_of_fault hf hrun]
  obtain ⟨hrec, hcores, honly, hchange⟩ := giveUp_effect hp hcode hcore hqueue hpc s
  generalize s.giveUp p r = a at hrec hcores honly hchange
  obtain ⟨hdies, htell⟩ := tellStop_effect p r.code a
  have hregs : (a.tellStop p r.code).regs = a.regs := by rw [htell]
  have hstops : ∀ c, (a.tellStop p r.code).stop c = a.stop c := fun c => by
    rw [htell]
    rfl
  generalize a.tellStop p r.code = b at hdies htell hregs hstops
  obtain ⟨e, he, hstate, hpk, hevent, hfaults, honlyEnd, hend⟩ := endStop_effect hp r b
  have hkeep := fun (f : Fld) hf hplace => (getF_endStop_of_place hp (f := f) hf hplace r b).trans (getF_congr hregs f)
  have hpkState : b.getF (pkState p) = s.getF (pkState p) := by
    rw [getF_congr hregs]
    refine honly _ (pkState_ok p) fun g hg => ?_
    have hplace := giveUpFields_place hp g hg
    simp only [Fld.Apart, Fld.base, pkState] at hplace ⊢
    omega
  have hcoresEq : (b.endStop p r).cores = s.cores := by rw [hend, htell, hchange]
  have hhbmEq : (b.endStop p r).hbm = s.hbm := by rw [hend, htell, hchange]
  rw [hpkState] at hpk
  refine ⟨hrec.congr fun f hf => hkeep f (faultFields_ok p f hf) (.inl (faultFields_place hp f hf)), fun c hc =>
    (hcores c hc).congr (fun f hf => hkeep f (stopFields_ok c f hf) (.inr ((corePage_above c _).trans (stopFields_place c f hf).1))) ?_,
    fun d => ?_, hstate, hpk, hevent, hfaults, hcoresEq, hhbmEq⟩
  · refine Eq.trans ?_ (hstops c)
    rw [hend]
    rfl
  · have hdie : (b.endStop p r).die d = b.die d := by
      rw [hend]
      rfl
    have hbefore : a.die d = s.die d := by
      rw [hchange]
      rfl
    rw [hdie, hdies d, hbefore, partDies_below honly hp]

end Stops

/-- Settles O33: a hold's end is its releases in order, by induction (`forAll_sendRelease`), with nothing left that waits
(`holdEndOp_effect`); a hold for refresh is its record in the partition (`beginHold_refresh`); a stop is what it gives up
(`giveUp_effect`), what the dies are told (`tellStop_effect`) and its end (`endStop_effect`). -/
theorem holdsAndStops : Obligations.HoldsAndStops := by
  unfold Obligations.HoldsAndStops
  intro s p hp
  have hend : exec (.holdEnd p) s = .next (holdEndOp p s) := guarded_of (decide_eq_true hp) _ _
  have hstop : exec (.partitionStop p) s = .next (partitionStopOp p s) := guarded_of (decide_eq_true hp) _ _
  refine ⟨fun h hhold hover => ?_, fun h hhold hover hi hre hpatch hbuf hlaunched => ?_, fun c hc hexact hrun hhold hdebt => ?_,
    fun r rest hf hrun hcode hcore hqueue hpc => ?_, fun hf => ?_⟩
  · rw [hend, holdEndOp_of_not_over hhold hover]
  · obtain ⟨u, tg, htg, hsends, hsame⟩ := holdEndOp_effect hp hhold hover hi hre hpatch hbuf hlaunched
    have hunhold := onlyFields_unhold p s
    have hpart : (holdEndOp p s).part p = _ := (hsame.2 p).trans ((hsends.part_eq p).trans (part_unhold_same p s))
    refine ⟨_, tg, hend, by rw [hpart], by rw [hpart], htg, fun d => ?_, fun q hq => ?_, fun f hf ha => ?_, ?_, ?_⟩
    · rw [hsame.die_eq, hsends.told d, partDies_of_held_fired hp (hunhold.mono (by simp)), unhold_rest]
      rfl
    · rw [hsame.2, hsends.part_eq, part_unhold_ne hq]
    · rw [hsame.getF_eq]
      exact ((hunhold.mono (by simp)).trans hsends.held_fired) f hf ha
    · rw [hsame.1, hsends.rest, unhold_rest]
    · rw [hsame.1, hsends.rest, unhold_rest]
  · have hext : exec (.extraRefreshHold c p) s = .next (extraRefreshHoldOp c p s) := guarded_of (by simp [hc, hp]) _ _
    have hpart : ((s.holdForRefresh p).noteHeld).part p = _ := part_holdForRefresh p s
    rw [extraRefreshHoldOp_of_debt hexact hrun hhold hdebt] at hext
    refine ⟨_, hext, by rw [hpart]; rfl, by rw [hpart], wHeld_noteHeld hp (by rw [part_holdForRefresh]) rfl, ?_, rfl⟩
    exact fun f hf ha => (onlyFields_noteHeld _ f hf ha).trans (getF_modPart ..)
  · obtain ⟨hrec, hcores, hdies, hstate, hpk, hevent, hfaults, hcoresEq, hhbmEq⟩ :=
      partitionStop_effect hp hf hrun hcode hcore hqueue hpc rfl
    exact ⟨_, hstop, hstate, hrec.code, hrec.core, hrec.queue, hrec.pc, hrec.remote, hrec.valid, hfaults, hevent,
      fun c q hc => (hcores c hc).queues q, fun c hc => ⟨(hcores c hc).arrived, (hcores c hc).barRec, (hcores c hc).arrivals⟩,
      hdies, hpk, hcoresEq, hhbmEq⟩
  · rw [hstop, partitionStopOp_of_none hf]

end Sys2Proof.Machine
end
section
/-!
PROOFS. Scope: dies that are emptied and pours that are abandoned (R322, R324, R428).
-/
namespace Sys2Proof.Machine

section Emptied

variable {s t u : State} {p q d : Nat} {f g : Fld} {n v : Nat}

/-! ### Registers written above a place -/

theorem regsBelow_setF (hg : g.Ok) (h : 8 * n ≤ g.base) (v : Nat) (s : State) : RegsBelow n s (s.setF g v) :=
  OnlyFields.regsBelow (l := [g]) (onlyFields_setF _ _ hg (List.mem_cons_self ..)) (List.forall_mem_singleton.2 h)

theorem regsBelow_incF (hg : g.Ok) (h : 8 * n ≤ g.base) (v : Nat) (s : State) : RegsBelow n s (s.incF g v) := regsBelow_setF hg h _ s

theorem regsBelow_modDie (n d : Nat) (f : Die → Die) (s : State) : RegsBelow n s (s.modDie d f) := fun _ _ _ => rfl

theorem regsBelow_modUnit (n d : Nat) (f : CrcUnit → CrcUnit) (s : State) : RegsBelow n s (s.modUnit d f) := fun _ _ _ => rfl

theorem regsBelow_forAll {α : Type} {l : List α} {f : α → State → State} (h : ∀ a ∈ l, ∀ t, RegsBelow n t (f a t)) (s : State) :
    RegsBelow n s (forAll l f s) :=
  forAll_invariant (P := RegsBelow n s) (fun a ha t ht => ht.trans (h a ha t)) fun _ _ _ => rfl

/-- A word cleared reads 0 in every field. -/
theorem getF_set64_zero (hf : f.Ok) (s : State) : (s.set64 f.off 0).getF f = 0 := by
  apply Nat.eq_of_testBit_eq
  intro i
  rw [testBit_getF f hf, bit_set64, Nat.zero_testBit]
  by_cases hi : i < f.w
  · have hok : f.lo + f.w ≤ 64 := hf
    rw [if_pos (by simp only [Fld.base]; omega)]
    simp
  · simp [hi]

/-! ### What emptying the dies leaves (R322, R428) -/

/-- The cores and HBM hold what they held. -/
structure SameStores (s t : State) : Prop where
  cores : t.cores = s.cores
  hbm : t.hbm = s.hbm

theorem SameStores.trans (h : SameStores s t) (k : SameStores t u) : SameStores s u := ⟨k.cores.trans h.cores, k.hbm.trans h.hbm⟩

theorem sameStores_forAll {α : Type} {l : List α} {f : α → State → State} (h : ∀ a t, SameStores t (f a t)) (s : State) :
    SameStores s (forAll l f s) :=
  forAll_invariant (P := SameStores s) (fun a _ t ht => ht.trans (h a t)) ⟨rfl, rfl⟩

theorem sameStores_setF (f : Fld) (v : Nat) (s : State) : SameStores s (s.setF f v) := ⟨setF_cores .., setF_hbm ..⟩

theorem sameStores_event (i : Nat) (s : State) : SameStores s (s.event i) := ⟨by rw [event_rest], by rw [event_rest]⟩

/-- The stores of the cores, the fabric and the pattern are emptied. -/
def State.emptyStores (s : State) : State :=
  { s with cores := [], stops := [], acks := [], hostIn := [],
           pat := { work := s.pat.work, verified := s.pat.verified, verArrange := s.pat.verArrange, verIdx := s.pat.verIdx },
           net := { s.net with rootDrain := [], homeDrain := [], senders := [] },
           pwr := { s.pwr with pointWant := none } }

/-- The stacks owe no refresh. -/
def State.clearDebts (s : State) : State := forAll (List.range 6) (fun c t => t.modCtl c fun x => { x with debt := [] }) s

/-- Partitions, dies and check-value units are emptied. -/
def State.emptyParts (s : State) : State :=
  forAll (List.range 8) State.clearUnit (forAll (List.range 8) freeDie (forAll (List.range 8) freePart s))

/-- The clock plan and the holds of an empty pattern. -/
def State.emptyPower (s : State) : State := ((s.setF wGated 0 |>.setF gHostLanes 0).planCap).noteHeld

theorem emptyDies_eq (s : State) : s.emptyDies = ((s.emptyStores.clearDebts.resetRegs clearedWord).emptyParts).emptyPower := rfl

theorem sameStores_freePart (p : Nat) (s : State) : SameStores s (freePart p s) := ⟨by simp [freePart], by simp [freePart]⟩

theorem sameStores_freeDie (d : Nat) (s : State) : SameStores s (freeDie d s) := ⟨by simp [freeDie], by simp [freeDie]⟩

theorem sameStores_emptySlot (d k : Nat) (s : State) : SameStores s (State.emptySlot d k s) :=
  ⟨by simp [State.emptySlot], by simp [State.emptySlot]⟩

theorem sameStores_modUnit (d : Nat) (f : CrcUnit → CrcUnit) (s : State) : SameStores s (s.modUnit d f) := ⟨rfl, rfl⟩

theorem sameStores_clearUnit (d : Nat) (s : State) : SameStores s (State.clearUnit d s) :=
  ((((sameStores_setF ..).trans (sameStores_setF ..)).trans (sameStores_setF ..)).trans
    (sameStores_forAll (sameStores_emptySlot d) _)).trans (sameStores_modUnit ..)

theorem sameStores_emptyPower (s : State) : SameStores s s.emptyPower :=
  ⟨by simp [State.emptyPower, State.planCap, State.effectCap, State.noteHeld],
    by simp [State.emptyPower, State.planCap, State.effectCap, State.noteHeld]⟩

theorem sameStores_modCtl (c : Nat) (f : HbmCtl → HbmCtl) (s : State) : SameStores s (s.modCtl c f) := ⟨rfl, rfl⟩

theorem sameStores_clearDebts (s : State) : SameStores s s.clearDebts := sameStores_forAll (fun c t => sameStores_modCtl c _ t) s

theorem emptyDies_stores (s : State) : s.emptyDies.cores = [] ∧ s.emptyDies.hbm = s.hbm := by
  have hparts : SameStores (s.emptyStores.clearDebts.resetRegs clearedWord) s.emptyDies := by
    rw [emptyDies_eq, State.emptyParts]
    exact (((sameStores_forAll sameStores_freePart _).trans (sameStores_forAll sameStores_freeDie _)).trans
      (sameStores_forAll sameStores_clearUnit _)).trans (sameStores_emptyPower _)
  have hall := (sameStores_clearDebts s.emptyStores).trans (SameStores.trans ⟨resetRegs_cores .., resetRegs_hbm ..⟩ hparts)
  exact ⟨hall.cores, hall.hbm⟩

/-- No partition is left (R317, R322). -/
theorem freePart_state (_ : p < 8) (s : State) : (freePart p s).getF (ppState p) = 0 := by
  have happ : (ppState p).Apart (pkState p) := by
    simp only [Fld.Apart, Fld.base, ppState, pkState]
    omega
  rw [freePart, getF_modPart, getF_setF_apart _ _ _ (ppState_ok p) (pkState_ok p) happ, getF_set64_zero (ppState_ok p)]

theorem freePart_state_ne (_ : p < 8) (_ : q < 8) (h : q ≠ p) (s : State) : (freePart p s).getF (ppState q) = s.getF (ppState q) := by
  have happ : (ppState q).Apart (pkState p) := by
    simp only [Fld.Apart, Fld.base, ppState, pkState]
    omega
  rw [freePart, getF_modPart, getF_setF_apart _ _ _ (ppState_ok q) (pkState_ok p) happ]
  refine onlyFields_set64 _ _ s _ (ppState_ok q) (List.forall_mem_singleton.2 ?_)
  simp only [Fld.Apart, Fld.base, ppState]
  omega

theorem freeParts_state (hq : q < 8) (s : State) : (forAll (List.range 8) freePart s).getF (ppState q) = 0 := by
  refine forAll_establishes (I := fun _ => True) (P := fun t : State => t.getF (ppState q) = 0) (List.mem_range.2 hq)
    (fun _ _ _ _ => trivial) (fun t _ => freePart_state hq t) (fun p hp t _ ht => ?_) trivial
  by_cases h : q = p
  · subst h
    exact freePart_state hq t
  · rw [freePart_state_ne (List.mem_range.1 hp) hq h, ht]

theorem regsBelow_freeDie (d : Nat) (s : State) : RegsBelow 0x00300000 s (freeDie d s) := by
  have hset : ∀ {g : Fld}, g.Ok → 8 * 0x00300000 ≤ g.base → ∀ t, RegsBelow 0x00300000 t (t.setF g 0) := fun hg h t =>
    regsBelow_setF hg h 0 t
  have hpart : 8 * 0x00300000 ≤ (rdPart d).base ∧ 8 * 0x00300000 ≤ (rdExact d).base ∧ 8 * 0x00300000 ≤ (rdResetting d).base := by
    simp only [Fld.base, rdPart, rdExact, rdResetting]
    omega
  obtain ⟨hp, he, hr⟩ := hpart
  rw [freeDie]
  exact (((hset (by simp [Fld.Ok, rdPart]) hp s).trans (hset (by simp [Fld.Ok, rdExact]) he _)).trans
    (hset (by simp [Fld.Ok, rdResetting]) hr _)).trans (regsBelow_modDie _ d _ _)

theorem regsBelow_emptySlot (d k : Nat) (s : State) : RegsBelow 0x00300000 s (State.emptySlot d k s) := by
  have hset : ∀ {g : Fld}, g.Ok → 8 * 0x00300000 ≤ g.base → ∀ t, RegsBelow 0x00300000 t (t.setF g 0) := fun hg h t =>
    regsBelow_setF hg h 0 t
  have hplace : 8 * 0x00300000 ≤ (uRunning d k).base ∧ 8 * 0x00300000 ≤ (uFilled d k).base ∧ 8 * 0x00300000 ≤ (uSlotState d k).base ∧
      8 * 0x00300000 ≤ (uDamaged d k).base := by
    simp only [Fld.base, uRunning, uFilled, uSlotState, uDamaged]
    omega
  obtain ⟨hrun, hfill, hstate, hdam⟩ := hplace
  rw [State.emptySlot]
  exact ((((hset (by simp [Fld.Ok, uRunning]) hrun s).trans (hset (by simp [Fld.Ok, uFilled]) hfill _)).trans
    (hset (by simp [Fld.Ok, uSlotState]) hstate _)).trans (hset (by simp [Fld.Ok, uDamaged]) hdam _)).trans (regsBelow_modUnit _ d _ _)

theorem regsBelow_clearUnit (d : Nat) (s : State) : RegsBelow 0x00300000 s (State.clearUnit d s) := by
  have hplace : 8 * 0x00300000 ≤ (uEn d).base ∧ 8 * 0x00300000 ≤ (uDrops d).base ∧ 8 * 0x00300000 ≤ (uHeld d).base := by
    simp only [Fld.base, uEn, uDrops, uHeld]
    omega
  obtain ⟨hen, hdrop, hheld⟩ := hplace
  rw [State.clearUnit]
  exact (((regsBelow_setF (by simp [Fld.Ok, uEn]) hen 0 s).trans (regsBelow_incF (by simp [Fld.Ok, uDrops]) hdrop _ _)).trans
    (regsBelow_setF (by simp [Fld.Ok, uHeld]) hheld 0 _)).trans
      ((regsBelow_forAll (fun k _ => regsBelow_emptySlot d k) _).trans (regsBelow_modUnit _ d _ _))

theorem regsBelow_emptyPower (s : State) : RegsBelow 0x00300000 s s.emptyPower := by
  have hset : ∀ {g : Fld}, g.Ok → 8 * 0x00300000 ≤ g.base → ∀ v t, RegsBelow 0x00300000 t (t.setF g v) := fun hg h v t =>
    regsBelow_setF hg h v t
  rw [State.emptyPower, State.planCap, State.effectCap, State.noteHeld]
  exact ((hset (g := wGated) (by simp [Fld.Ok, wGated]) (by decide) _ s).trans (hset (g := gHostLanes) (by simp [Fld.Ok, gHostLanes]) (by decide) _ _)).trans
    (((hset (g := wPlanCap) (by simp [Fld.Ok, wPlanCap]) (by decide) _ _).trans (hset (g := wEffective) (by simp [Fld.Ok, wEffective]) (by decide) _ _)).trans
      (hset (g := wHeld) (by simp [Fld.Ok, wHeld]) (by decide) _ _))

theorem emptyDies_state (hq : q < 8) (s : State) : s.emptyDies.getF (ppState q) = 0 := by
  have hplace : (ppState q).base + (ppState q).w ≤ 8 * 0x00300000 := by
    simp only [Fld.base, ppState]
    omega
  have hfree := freeParts_state hq (s.emptyStores.clearDebts.resetRegs clearedWord)
  rw [emptyDies_eq, State.emptyParts]
  generalize forAll (List.range 8) freePart (s.emptyStores.clearDebts.resetRegs clearedWord) = a at hfree
  have hbelow := (regsBelow_forAll (fun d (_ : d ∈ List.range 8) => regsBelow_freeDie d) a).trans
    ((regsBelow_forAll (fun d (_ : d ∈ List.range 8) => regsBelow_clearUnit d) _).trans (regsBelow_emptyPower _))
  rw [hbelow _ (ppState_ok q) hplace, hfree]

/-! ### A pour that is abandoned (R324) -/

/-- The seeds of the partitions under FRESH are forgotten. -/
def State.dropFresh (s : State) : State :=
  forAll (s.pat.recs.filter (·.fresh)) (fun r t => t.set64 (psLo r.part).off 0 |>.set64 (psHi r.part).off 0) s

/-- PATTERN reads EMPTY, with its reason. -/
def State.patternEmpty (reason : Nat) (s : State) : State := (s.dropSeeds.setF pPattern 0 |>.setF pReason reason).idleNow

theorem abandonPour_eq (reason : Nat) (s : State) : s.abandonPour reason false =
    (((if s.getF pPattern = 2 then s.addFree gSprueDiscards else s).dropFresh.emptyDies).patternEmpty reason).event 10 := rfl

theorem pPattern_ok : pPattern.Ok := by simp [Fld.Ok, pPattern]

theorem pReason_ok : pReason.Ok := by simp [Fld.Ok, pReason]

theorem patternEmpty_effect (h : v < 256) (s : State) : (s.patternEmpty v).getF pPattern = 0 ∧ (s.patternEmpty v).getF pReason = v := by
  have happ : pPattern.Apart pReason := by simp [Fld.Apart, Fld.base, pPattern, pReason]
  have hregs : (s.patternEmpty v).regs = ((s.dropSeeds.setF pPattern 0).setF pReason v).regs := rfl
  rw [getF_congr hregs, getF_congr hregs, getF_setF_apart _ _ _ pPattern_ok pReason_ok happ, getF_setF_same _ _ pPattern_ok,
    getF_setF_same _ _ pReason_ok]
  exact ⟨rfl, Nat.mod_eq_of_lt h⟩

theorem sameStores_patternEmpty (reason : Nat) (s : State) : SameStores s (s.patternEmpty reason) := ⟨rfl, rfl⟩

theorem sameStores_set64 (o : Nat) (w : W64) (s : State) : SameStores s (s.set64 o w) := ⟨set64_cores .., set64_hbm ..⟩

theorem sameStores_dropFresh (s : State) : SameStores s s.dropFresh :=
  sameStores_forAll (fun _ _ => (sameStores_set64 ..).trans (sameStores_set64 ..)) s

theorem abandonPour_effect (h : v < 256) (s : State) : (s.abandonPour v false).getF pPattern = 0 ∧
    (s.abandonPour v false).getF pReason = v ∧ (s.abandonPour v false).cores = [] ∧ (s.abandonPour v false).hbm = s.hbm := by
  have hfirst : SameStores s (if s.getF pPattern = 2 then s.addFree gSprueDiscards else s) := by
    split
    · exact ⟨rfl, rfl⟩
    · exact ⟨rfl, rfl⟩
  rw [abandonPour_eq]
  generalize (if s.getF pPattern = 2 then s.addFree gSprueDiscards else s) = a at hfirst
  have hfresh := hfirst.trans (sameStores_dropFresh a)
  obtain ⟨hcores, hhbm⟩ := emptyDies_stores a.dropFresh
  generalize a.dropFresh.emptyDies = b at hcores hhbm
  obtain ⟨hpat, hreason⟩ := patternEmpty_effect h b
  have hstores := (sameStores_patternEmpty v b).trans (sameStores_event 10 (b.patternEmpty v))
  generalize b.patternEmpty v = c at hpat hreason hstores
  have hevent := onlyFields_event 10 c
  have happ : pPattern.Apart hEvent ∧ pReason.Apart hEvent := by simp [Fld.Apart, Fld.base, pPattern, pReason, hEvent]
  exact ⟨(hevent _ pPattern_ok (List.forall_mem_singleton.2 happ.1)).trans hpat,
    (hevent _ pReason_ok (List.forall_mem_singleton.2 happ.2)).trans hreason,
    hstores.cores.trans hcores, (hstores.hbm.trans hhbm).trans hfresh.hbm⟩

/-- RESET and DISARM abandon a pour alike. -/
theorem commands_of_pouring (h : PatMay s) (hpour : s.pouring = true) (mask : BitVec 8) :
    partitionResetOp mask s = s.abandonPour 0x12 false ∧ disarmOp s = s.abandonPour 0x12 false := by
  obtain ⟨hlim, hfatal⟩ := h
  constructor
  · rw [partitionResetOp, patCommand_acts hlim hfatal 5 (by simp [State.mayReset, hpour]), if_pos hpour]
  · rw [disarmOp, patCommand_acts hlim hfatal 3 (by simp [State.mayDisarm, hpour]), State.disarmAll, if_pos hpour]

end Emptied

end Sys2Proof.Machine
end
section
/-!
PROOFS. Scope: cores that start and resets that complete (R209, R216, R239, R324).
-/
namespace Sys2Proof.Machine

section Starts

variable {s t u : State} {p c e n : Nat} {q r : Queue} {cs : List Nat} {l : List Fld}

/-! ### Fields of a core's page (R399) -/

/-- A field of core `c`'s page. -/
def InPage (c : Nat) (f : Fld) : Prop := 8 * corePage c ≤ f.base ∧ f.base + f.w ≤ 8 * (corePage c + 0x1000)

theorem InPage.apart {f g : Fld} (hf : InPage c f) (hg : InPage e g) (h : c ≠ e) : f.Apart g := by
  obtain ⟨hflo, hfhi⟩ := hf
  obtain ⟨hglo, hghi⟩ := hg
  simp only [Fld.Apart, corePage] at *
  omega

/-! ### The sync counters take their initial values (R216) -/

/-- The initial value of a counter. -/
def State.ctrInit (s : State) (c n : Nat) : Nat := (tblGet (fun _ => 0#16) (s.core c).reload n).toNat

/-- The counters' initial values. -/
def State.ctrInits (s : State) (c : Nat) : List (Fld × Nat) := (List.range 64).map fun n => (cCtr c n, s.ctrInit c n)

theorem reloadCounters_eq (c : Nat) (s : State) : reloadCounters c s = s.writes (s.ctrInits c) := by
  rw [State.writes, State.ctrInits, forAll, List.foldl_map]
  rfl

theorem ctrInits_ok (c : Nat) (s : State) : ∀ x ∈ s.ctrInits c, x.1.Ok := by
  simp [State.ctrInits, cCtr_ok]

theorem cCtr_apart_cCtr (c : Nat) {m n : Nat} (h : m < n) : (cCtr c m).Apart (cCtr c n) := by
  simp only [Fld.Apart, Fld.base, cCtr]
  omega

theorem ctrInits_apart (c : Nat) (s : State) : (s.ctrInits c).Pairwise fun a b => a.1.Apart b.1 :=
  List.pairwise_map.2 (List.pairwise_lt_range.imp fun h => cCtr_apart_cCtr c h)

/-- The counters of a core. -/
def ctrFields (c : Nat) : List Fld := (List.range 64).map (cCtr c)

theorem reloadCounters_effect (c : Nat) (s : State) : RegsOnly (ctrFields c) s (reloadCounters c s) ∧
    ∀ n, n < 64 → (reloadCounters c s).getF (cCtr c n) = s.ctrInit c n := by
  have hregs := regsOnly_writes (ctrInits_ok c s) s
  have hread := getF_writes (ctrInits_ok c s) (ctrInits_apart c s) s
  rw [← reloadCounters_eq] at hregs hread
  refine ⟨?_, fun n hn => ?_⟩
  · rwa [State.ctrInits, List.map_map] at hregs
  · exact (hread (cCtr c n, s.ctrInit c n) (List.mem_map_of_mem (List.mem_range.2 hn))).trans (Nat.mod_eq_of_lt (BitVec.isLt _))

/-! ### A queue starts at its ENTRY (R209) -/

/-- What a start writes of a queue. -/
def startFields (c : Nat) (q : Queue) : List Fld := [qPc c q, qState c q]

theorem startFields_ok (c : Nat) (q : Queue) : ∀ f ∈ startFields c q, f.Ok := by
  simp [startFields, qPc_ok, qState_ok]

theorem regsOnly_startQueue (c i : Nat) (q : Queue) (s : State) : RegsOnly (startFields c q) s (startQueue c i q s) := by
  rw [startQueue]
  split
  · exact (regsOnly_setF _ _ (qPc_ok ..) (by simp [startFields])).trans (regsOnly_setF _ _ (qState_ok ..) (by simp [startFields]))
  · exact .refl _ s

/-- A queue's ENTRY and USED are not what a start writes, of whatever queue. -/
theorem entry_apart_start (c : Nat) (q r : Queue) : ∀ g ∈ startFields c r, (qEntry c q).Apart g ∧ (qUsed c q).Apart g := by
  have hq := queue_num_lt q
  have hr := queue_num_lt r
  simp only [startFields, List.forall_mem_cons, Fld.Apart, Fld.base, qEntry, qUsed, qPc, qState]
  refine ⟨?_, ?_, List.forall_mem_nil _⟩ <;> omega

theorem startFields_apart (c : Nat) (h : q ≠ r) : ∀ f ∈ startFields c q, ∀ g ∈ startFields c r, f.Apart g := by
  intro f hf g hg
  have hin : ∀ k : Queue, ∀ g ∈ startFields c k, g ∈ waitFields c k := by simp [startFields, waitFields]
  exact waitFields_apart c h f (hin q f hf) g (hin r g hg)

theorem qEntry_ok (c : Nat) (q : Queue) : (qEntry c q).Ok := by simp [Fld.Ok, qEntry]

theorem qUsed_ok (c : Nat) (q : Queue) : (qUsed c q).Ok := by simp [Fld.Ok, qUsed]

/-- A used queue stands at its ENTRY and runs. -/
structure Started (c : Nat) (q : Queue) (s t : State) : Prop where
  pc : s.getF (qUsed c q) = 1 → t.getF (qPc c q) = s.getF (qEntry c q)
  state : s.getF (qUsed c q) = 1 → t.getF (qState c q) = 1

theorem Started.congr (h : Started c q s t) (hf : ∀ f ∈ startFields c q, u.getF f = t.getF f) : Started c q s u :=
  ⟨fun hu => (hf _ (by simp [startFields])).trans (h.pc hu), fun hu => (hf _ (by simp [startFields])).trans (h.state hu)⟩

/-- The ENTRY and USED of a core's queues are what they were. -/
def SameEntries (c : Nat) (s t : State) : Prop := ∀ q, t.getF (qEntry c q) = s.getF (qEntry c q) ∧ t.getF (qUsed c q) = s.getF (qUsed c q)

theorem SameEntries.trans (h : SameEntries c s t) (k : SameEntries c t u) : SameEntries c s u := fun q =>
  ⟨(k q).1.trans (h q).1, (k q).2.trans (h q).2⟩

theorem sameEntries_startQueue (c i : Nat) (q : Queue) (s : State) : SameEntries c s (startQueue c i q s) := fun r =>
  ⟨(regsOnly_startQueue c i q s).2 _ (qEntry_ok ..) fun g hg => (entry_apart_start c r q g hg).1,
    (regsOnly_startQueue c i q s).2 _ (qUsed_ok ..) fun g hg => (entry_apart_start c r q g hg).2⟩

theorem started_startQueue (h : SameEntries c s t) (q : Queue) : Started c q s (startQueue c (t.getF (qEntry c q)) q t) := by
  obtain ⟨hentry, hused⟩ := h q
  have happ : (qPc c q).Apart (qState c q) := by
    simp only [Fld.Apart, Fld.base, qPc, qState]
    omega
  have hlt : t.getF (qEntry c q) < 2 ^ 12 := getF_lt (qEntry c q)
  have hstart : s.getF (qUsed c q) = 1 → startQueue c (t.getF (qEntry c q)) q t =
      (t.setF (qPc c q) (t.getF (qEntry c q))).setF (qState c q) 1 := fun hu => if_pos (by simp [State.onF, hused, hu])
  refine ⟨fun hu => ?_, fun hu => ?_⟩
  · rw [hstart hu, getF_setF_apart _ _ _ (qPc_ok ..) (qState_ok ..) happ, getF_setF_same _ _ (qPc_ok ..), ← hentry]
    exact Nat.mod_eq_of_lt hlt
  · rw [hstart hu, getF_setF_same _ _ (qState_ok ..)]
    rfl

/-- Every queue of a core starts. -/
def State.startQueues (c : Nat) (s : State) : State := forAll allQueues (fun q t => startQueue c (t.getF (qEntry c q)) q t) s

theorem startQueues_effect (h : SameEntries c s t) (q : Queue) : Started c q s (t.startQueues c) := by
  refine forAll_establishes (I := SameEntries c s) (mem_allQueues q) (fun r _ t ht => ht.trans (sameEntries_startQueue c _ r t))
    (fun t ht => started_startQueue ht q) (fun r _ t hs ht => ?_) h
  by_cases hqr : q = r
  · subst hqr
    exact started_startQueue hs q
  · exact ht.congr fun f hf => (regsOnly_startQueue c _ r t).2 f (startFields_ok c q f hf) (startFields_apart c hqr f hf)

theorem regsOnly_startQueues (c : Nat) (s : State) : RegsOnly (allQueues.flatMap (startFields c)) s (s.startQueues c) :=
  forAll_invariant (P := RegsOnly (allQueues.flatMap (startFields c)) s)
    (fun q hq t h => h.trans ((regsOnly_startQueue c _ q t).mono fun _ hf => List.mem_flatMap.2 ⟨q, hq, hf⟩)) (.refl _ s)

/-! ### Every core of the partition (R239) -/

/-- What a start writes of a core. -/
def coreStartFields (c : Nat) : List Fld := ctrFields c ++ allQueues.flatMap (startFields c)

theorem startCore_eq (c : Nat) (s : State) : startCore c s = (reloadCounters c s).startQueues c := rfl

theorem regsOnly_startCore (c : Nat) (s : State) : RegsOnly (coreStartFields c) s (startCore c s) := by
  rw [startCore_eq]
  exact ((reloadCounters_effect c s).1.mono fun _ hf => List.mem_append_left _ hf).trans
    ((regsOnly_startQueues c _).mono fun _ hf => List.mem_append_right _ hf)

theorem startFields_place (c : Nat) (q : Queue) : ∀ f ∈ startFields c q,
    8 * (corePage c + 0x908) ≤ f.base ∧ f.base + f.w ≤ 8 * (corePage c + 0xA00) := by
  have hq := queue_num_lt q
  simp only [startFields, List.forall_mem_cons, Fld.base, qPc, qState, corePage]
  refine ⟨?_, ?_, List.forall_mem_nil _⟩ <;> omega

theorem ctrFields_place (c : Nat) : ∀ f ∈ ctrFields c, 8 * (corePage c + 0xA00) ≤ f.base ∧ f.base + f.w ≤ 8 * (corePage c + 0xB00) := by
  intro f hf
  obtain ⟨n, hn, rfl⟩ := List.mem_map.1 hf
  have hlt := List.mem_range.1 hn
  simp only [Fld.base, cCtr, corePage]
  omega

theorem coreStartFields_inPage (c : Nat) : ∀ f ∈ coreStartFields c, InPage c f := by
  refine List.forall_mem_append.2 ⟨fun f hf => ?_, fun f hf => ?_⟩
  · obtain ⟨hlo, hhi⟩ := ctrFields_place c f hf
    rw [InPage]
    omega
  · obtain ⟨q, -, hfq⟩ := List.mem_flatMap.1 hf
    obtain ⟨hlo, hhi⟩ := startFields_place c q f hfq
    rw [InPage]
    omega

theorem entries_inPage (c : Nat) (q : Queue) : InPage c (qEntry c q) ∧ InPage c (qUsed c q) := by
  have hq := queue_num_lt q
  simp only [InPage, Fld.base, qEntry, qUsed, corePage]
  omega

/-- The ENTRY and USED of a core's queues are not what a start of any core writes. -/
theorem sameEntries_startCore (c e : Nat) (s : State) : SameEntries c s (startCore e s) := by
  intro q
  obtain ⟨hentry, hused⟩ := entries_inPage c q
  have hq := queue_num_lt q
  have happ : ∀ g ∈ coreStartFields e, (qEntry c q).Apart g ∧ (qUsed c q).Apart g := fun g hg => by
    by_cases hce : c = e
    · subst hce
      rcases List.mem_append.1 hg with hctr | hqueue
      · have hplace := ctrFields_place c g hctr
        simp only [Fld.Apart, Fld.base, qEntry, qUsed] at hplace ⊢
        omega
      · obtain ⟨r, -, hr⟩ := List.mem_flatMap.1 hqueue
        exact entry_apart_start c q r g hr
    · exact ⟨hentry.apart (coreStartFields_inPage e g hg) hce, hused.apart (coreStartFields_inPage e g hg) hce⟩
  exact ⟨(regsOnly_startCore e s).2 _ (qEntry_ok ..) fun g hg => (happ g hg).1,
    (regsOnly_startCore e s).2 _ (qUsed_ok ..) fun g hg => (happ g hg).2⟩

/-- A core with its counters at their initial values and its used queues at their entries. -/
structure CoreStarted (c : Nat) (s t : State) : Prop where
  ctrs : ∀ n, n < 64 → t.getF (cCtr c n) = s.ctrInit c n
  queues : ∀ q, Started c q s t

/-- What a start reads of a core. -/
def SameStart (c : Nat) (s t : State) : Prop := SameEntries c s t ∧ t.core c = s.core c

theorem SameStart.trans (h : SameStart c s t) (k : SameStart c t u) : SameStart c s u := ⟨h.1.trans k.1, k.2.trans h.2⟩

theorem sameStart_startCore (c e : Nat) (s : State) : SameStart c s (startCore e s) :=
  ⟨sameEntries_startCore c e s, (regsOnly_startCore e s).core_eq c⟩

theorem coreStarted_startCore (h : SameStart c s t) : CoreStarted c s (startCore c t) := by
  obtain ⟨hregs, hctrs⟩ := reloadCounters_effect c t
  obtain ⟨hentries, hcore⟩ := h
  have hkept : SameEntries c t (reloadCounters c t) := fun q => by
    have hq := queue_num_lt q
    have happ : ∀ g ∈ ctrFields c, (qEntry c q).Apart g ∧ (qUsed c q).Apart g := fun g hg => by
      have hplace := ctrFields_place c g hg
      simp only [Fld.Apart, Fld.base, qEntry, qUsed] at hplace ⊢
      omega
    exact ⟨hregs.2 _ (qEntry_ok ..) fun g hg => (happ g hg).1, hregs.2 _ (qUsed_ok ..) fun g hg => (happ g hg).2⟩
  rw [startCore_eq]
  refine ⟨fun n hn => ?_, fun q => startQueues_effect (hentries.trans hkept) q⟩
  rw [(regsOnly_startQueues c _).2 _ (cCtr_ok ..) fun g hg => ?_, hctrs n hn, State.ctrInit, hcore, State.ctrInit]
  obtain ⟨q, -, hgq⟩ := List.mem_flatMap.1 hg
  have hplace := startFields_place c q g hgq
  refine .inr (hplace.2.trans ?_)
  simp only [Fld.base, cCtr, corePage]
  omega

theorem startFields_mem (c : Nat) (q : Queue) : ∀ f ∈ startFields c q, f ∈ coreStartFields c := fun _ hf =>
  List.mem_append_right _ (List.mem_flatMap.2 ⟨q, mem_allQueues q, hf⟩)

theorem CoreStarted.after_startCore (h : CoreStarted c s t) (hs : SameStart c s t) (e : Nat) : CoreStarted c s (startCore e t) := by
  by_cases hce : c = e
  · subst hce
    exact coreStarted_startCore hs
  · have hkeep : ∀ f, f.Ok → f ∈ coreStartFields c → (startCore e t).getF f = t.getF f := fun f hf hm =>
      (regsOnly_startCore e t).2 f hf fun g hg => (coreStartFields_inPage c f hm).apart (coreStartFields_inPage e g hg) hce
    refine ⟨fun n hn => ?_, fun q => (h.queues q).congr fun f hf => hkeep f (startFields_ok c q f hf) (startFields_mem c q f hf)⟩
    rw [hkeep _ (cCtr_ok ..) (List.mem_append_left _ (List.mem_map_of_mem (List.mem_range.2 hn))), h.ctrs n hn]

/-- Every core of the list starts. -/
theorem forAll_startCore (hc : c ∈ cs) (h : SameStart c s t) : CoreStarted c s (forAll cs startCore t) :=
  forAll_establishes (I := SameStart c s) hc (fun e _ t h => h.trans (sameStart_startCore c e t))
    (fun _ h => coreStarted_startCore h) (fun e _ _ hs h => h.after_startCore hs e) h

theorem regsOnly_startCores (cs : List Nat) (s : State) : RegsOnly (cs.flatMap coreStartFields) s (forAll cs startCore s) :=
  forAll_invariant (P := RegsOnly (cs.flatMap coreStartFields) s)
    (fun c hc t h => h.trans ((regsOnly_startCore c t).mono fun _ hf => List.mem_flatMap.2 ⟨c, hc, hf⟩)) (.refl _ s)

end Starts

end Sys2Proof.Machine
end
section
/-!
PROOFS. Scope: the completion of a reset (R239, R324).
-/
namespace Sys2Proof.Machine

section Completions

variable {s t u : State} {p q c d : Nat} {ds : List Nat}

/-! ### The dies leave reset -/

theorem rdResetting_ok (d : Nat) : (rdResetting d).Ok := by simp [Fld.Ok, rdResetting]

/-- The dies of the list are in reset no longer. -/
def State.endReset (ds : List Nat) (s : State) : State := forAll ds (fun d t => t.setF (rdResetting d) 0) s

theorem regsOnly_endReset (ds : List Nat) (s : State) : RegsOnly (ds.map rdResetting) s (s.endReset ds) :=
  forAll_invariant (P := RegsOnly (ds.map rdResetting) s)
    (fun d hd _ h => h.trans (regsOnly_setF _ _ (rdResetting_ok d) (List.mem_map_of_mem hd))) (.refl _ s)

theorem rdResetting_endReset (hd : d ∈ ds) (s : State) : (s.endReset ds).getF (rdResetting d) = 0 := by
  have hset : ∀ t : State, (t.setF (rdResetting d) 0).getF (rdResetting d) = 0 := fun t => getF_setF_same _ _ (rdResetting_ok d)
  refine forAll_establishes (I := fun _ => True) (P := fun t : State => t.getF (rdResetting d) = 0) hd (fun _ _ _ _ => trivial)
    (fun t _ => hset t) (fun e _ t _ h => ?_) trivial
  by_cases hde : d = e
  · subst hde
    exact hset t
  · refine (getF_setF_apart _ _ _ (rdResetting_ok d) (rdResetting_ok e) ?_).trans h
    simp only [Fld.Apart, Fld.base, rdResetting]
    omega

/-- The dies' reset bits lie above the partitions' registers and the check-value units, and below the core pages. -/
theorem resetting_place (hds : ∀ d ∈ ds, d < 8) : ∀ g ∈ ds.map rdResetting,
    8 * 0x00700000 ≤ g.base ∧ g.base + g.w ≤ 8 * 0x01000000 := by
  intro g hg
  obtain ⟨d, hd, rfl⟩ := List.mem_map.1 hg
  have hlt := hds d hd
  simp only [Fld.base, rdResetting]
  omega

theorem partDies_lt : ∀ d ∈ s.partDies p, d < 8 := fun _ hd => List.mem_range.1 (List.mem_of_mem_filter hd)

/-- The state of partition `p` from which its cores start. -/
def State.outOfReset (p : Nat) (s : State) : State := (s.endReset (s.partDies p)).setF (ppState p) 1

theorem partCores_endReset (hp : p < 8) (s : State) : (s.endReset (s.partDies p)).partCores p = s.partCores p := by
  have hbelow : RegsBelow 0x00700000 s (s.endReset (s.partDies p)) :=
    (regsOnly_endReset _ s).2.regsBelow fun g hg => (resetting_place partDies_lt g hg).1
  rw [State.partCores, State.partCores, partDies_of_state (hbelow _ (by simp [Fld.Ok, ppDies]) ?_) (hbelow _ (ppState_ok p) ?_)]
  · simp only [Fld.base, ppDies]
    omega
  · simp only [Fld.base, ppState]
    omega

/-- A check-value unit that is not enabled has no launch to forward. -/
def State.forwardAfterReset (p u : Nat) (s : State) : State :=
  if s.onF (uEn u) && !s.onF (uDir u) && s.unitPart u == p then s.forwardHeld u else s

theorem forwardAfterReset_of_disabled {v : Nat} (h : s.getF (uEn v) = 0) (p : Nat) : s.forwardAfterReset p v = s := by
  rw [State.forwardAfterReset, State.onF, h]
  rfl

theorem resetCompleteOp_of_armed (hp : p < 8) (hst : s.getF (ppState p) = 3) (hbusy : s.hbmBusy p = false) (hdis : s.pat.disarming = false)
    (harm : (s.part p).disarmed = false) : resetCompleteOp p s =
      forAll (List.range 8) (State.forwardAfterReset p) (forAll (s.partCores p) startCore (s.outOfReset p)) := by
  have hregs := regsOnly_endReset (s.partDies p) s
  have hpat : (s.endReset (s.partDies p)).pat.disarming = false := by rw [hregs.1]; exact hdis
  have hpart : ((s.endReset (s.partDies p)).part p).disarmed = false := by rw [hregs.part_eq]; exact harm
  rw [State.outOfReset, ← partCores_endReset hp]
  rw [State.endReset] at hpat hpart ⊢
  simp only [resetCompleteOp, hst, hbusy, hpat, hpart]
  rfl

theorem resetCompleteOp_of_disarming (hst : s.getF (ppState p) = 3) (hbusy : s.hbmBusy p = false) (hdis : s.pat.disarming = true) :
    resetCompleteOp p s = ((s.endReset (s.partDies p)).setF (ppState p) 0).finishDisarm := by
  have hregs := regsOnly_endReset (s.partDies p) s
  have hpat : (s.endReset (s.partDies p)).pat.disarming = true := by rw [hregs.1]; exact hdis
  rw [State.endReset] at hpat ⊢
  simp only [resetCompleteOp, hst, hbusy, hpat]
  rfl

theorem sameEntries_of_below {l : List Fld} (h : RegsOnly l s t) (hl : ∀ g ∈ l, g.base + g.w ≤ 8 * 0x01000000) : SameStart c s t := by
  have hkeep : ∀ f : Fld, f.Ok → InPage c f → t.getF f = s.getF f := fun f hf hpage => h.2 f hf fun g hg =>
    .inr ((hl g hg).trans ((corePage_above c 0).trans hpage.1))
  exact ⟨fun q => ⟨hkeep _ (qEntry_ok ..) (entries_inPage c q).1, hkeep _ (qUsed_ok ..) (entries_inPage c q).2⟩, h.core_eq c⟩

/-- The reset of a partition that stays armed completes. -/
theorem resetComplete_armed (hp : p < 8) (hst : s.getF (ppState p) = 3) (hbusy : s.hbmBusy p = false) (hdis : s.pat.disarming = false)
    (harm : (s.part p).disarmed = false) (hunits : ∀ u, u < 8 → s.getF (uEn u) = 0) :
    (resetCompleteOp p s).getF (ppState p) = 1 ∧ (∀ d, d ∈ s.partDies p → (resetCompleteOp p s).getF (rdResetting d) = 0) ∧
      resetCompleteOp p s = { s with regs := (resetCompleteOp p s).regs } ∧
      ∀ c, c ∈ s.partCores p → CoreStarted c s (resetCompleteOp p s) := by
  have hend := regsOnly_endReset (s.partDies p) s
  have hplace := resetting_place (partDies_lt (s := s) (p := p))
  have hread : ∀ d, d ∈ s.partDies p → (s.endReset (s.partDies p)).getF (rdResetting d) = 0 := fun d hd => rdResetting_endReset hd s
  have hstate : RegsOnly [ppState p] (s.endReset (s.partDies p)) (s.outOfReset p) := regsOnly_setF _ _ (ppState_ok p) (List.mem_cons_self ..)
  have hone : (s.outOfReset p).getF (ppState p) = 1 := getF_setF_same _ _ (ppState_ok p)
  have happ : ∀ d, (rdResetting d).Apart (ppState p) := fun d => by
    simp only [Fld.Apart, Fld.base, rdResetting, ppState]
    omega
  rw [resetCompleteOp_of_armed hp hst hbusy hdis harm]
  generalize s.endReset (s.partDies p) = a at hend hread hstate
  generalize s.outOfReset p = b at hstate hone
  have hbefore : RegsOnly ((s.partDies p).map rdResetting ++ [ppState p]) s b :=
    (hend.mono fun _ hf => List.mem_append_left _ hf).trans (hstate.mono fun _ hf => List.mem_append_right _ hf)
  have hbelow : ∀ g ∈ (s.partDies p).map rdResetting ++ [ppState p], g.base + g.w ≤ 8 * 0x01000000 := by
    refine List.forall_mem_append.2 ⟨fun g hg => (hplace g hg).2, List.forall_mem_singleton.2 ?_⟩
    simp only [Fld.base, ppState]
    omega
  have hstarted : ∀ c, c ∈ s.partCores p → CoreStarted c s (forAll (s.partCores p) startCore b) := fun c hc =>
    forAll_startCore hc (sameEntries_of_below hbefore hbelow)
  have hcores := regsOnly_startCores (s.partCores p) b
  have habove : ∀ g ∈ (s.partCores p).flatMap coreStartFields, 8 * 0x01000000 ≤ g.base := fun g hg => by
    obtain ⟨c, -, hgc⟩ := List.mem_flatMap.1 hg
    exact (corePage_above c 0).trans (coreStartFields_inPage c g hgc).1
  generalize forAll (s.partCores p) startCore b = e at hstarted hcores
  have hkeep : RegsBelow 0x01000000 b e := hcores.2.regsBelow habove
  have hunit : ∀ v ∈ List.range 8, e.forwardAfterReset p v = e := fun v hv => by
    have hv := List.mem_range.1 hv
    refine forwardAfterReset_of_disabled ?_ p
    have huplace : (uEn v).base + (uEn v).w ≤ 8 * 0x01000000 := by
      simp only [Fld.base, uEn]
      omega
    rw [hkeep _ (by simp [Fld.Ok, uEn]) huplace, hbefore.2 _ (by simp [Fld.Ok, uEn]), hunits v hv]
    refine List.forall_mem_append.2 ⟨fun g hg => .inl ((hplace g hg).1.trans' ?_), List.forall_mem_singleton.2 ?_⟩
    · simp only [Fld.base, uEn]
      omega
    · simp only [Fld.Apart, Fld.base, uEn, ppState]
      omega
  rw [forAll_eq_self hunit]
  refine ⟨?_, fun d hd => ?_, ?_, hstarted⟩
  · refine (hkeep _ (ppState_ok p) ?_).trans hone
    simp only [Fld.base, ppState]
    omega
  · have hd8 := partDies_lt d hd
    rw [hkeep _ (rdResetting_ok d) (by simp only [Fld.base, rdResetting]; omega), hstate.2 _ (rdResetting_ok d)
      (List.forall_mem_singleton.2 (happ d)), hread d hd]
  · rw [hcores.1, hbefore.1]

theorem getF_idleNow (f : Fld) (s : State) : s.idleNow.getF f = s.getF f := rfl

theorem sameStores_idleNow (s : State) : SameStores s s.idleNow := ⟨rfl, rfl⟩

/-- The dies emptied, PATTERN reads EMPTY. -/
theorem emptied_effect (s : State) : (s.emptyDies.setF pPattern 0).idleNow.getF pPattern = 0 ∧
    (s.emptyDies.setF pPattern 0).idleNow.cores = [] ∧
    (∀ q, q < 8 → (s.emptyDies.setF pPattern 0).idleNow.getF (ppState q) = 0) ∧ (s.emptyDies.setF pPattern 0).idleNow.hbm = s.hbm := by
  obtain ⟨hcores, hhbm⟩ := emptyDies_stores s
  have hstates : ∀ q, q < 8 → s.emptyDies.getF (ppState q) = 0 := fun q hq => emptyDies_state hq s
  generalize s.emptyDies = f at hcores hhbm hstates
  have hstores := (sameStores_setF pPattern 0 f).trans (sameStores_idleNow _)
  refine ⟨?_, hstores.cores.trans hcores, fun q hq => ?_, hstores.hbm.trans hhbm⟩
  · rw [getF_idleNow, getF_setF_same _ _ pPattern_ok, Nat.zero_mod]
  · rw [getF_idleNow, getF_setF_apart _ _ _ (ppState_ok q) pPattern_ok, hstates q hq]
    simp only [Fld.Apart, Fld.base, ppState, pPattern]
    omega

/-- The last reset of a DISARM completes: every die is emptied. -/
theorem resetComplete_disarmed (hst : s.getF (ppState p) = 3) (hbusy : s.hbmBusy p = false) (hdis : s.pat.disarming = true)
    (_ : p < 8) (hlast : ∀ q, q < 8 → q ≠ p → s.getF (ppState q) ≠ 3) :
    (resetCompleteOp p s).getF pPattern = 0 ∧ (resetCompleteOp p s).cores = [] ∧
      (∀ q, q < 8 → (resetCompleteOp p s).getF (ppState q) = 0) ∧ (resetCompleteOp p s).hbm = s.hbm := by
  have hend := regsOnly_endReset (s.partDies p) s
  have hplace := resetting_place (partDies_lt (s := s) (p := p))
  rw [resetCompleteOp_of_disarming hst hbusy hdis]
  generalize s.endReset (s.partDies p) = a at hend
  have hset : RegsOnly [ppState p] a (a.setF (ppState p) 0) := regsOnly_setF _ _ (ppState_ok p) (List.mem_cons_self ..)
  have hzero : (a.setF (ppState p) 0).getF (ppState p) = 0 := getF_setF_same _ _ (ppState_ok p)
  generalize a.setF (ppState p) 0 = b at hset hzero
  have hnone : ((List.range 8).any fun q => b.getF (ppState q) == 3) = false := by
    refine List.any_eq_false.2 fun q hq => ?_
    have hq := List.mem_range.1 hq
    by_cases hqp : q = p
    · rw [hqp, hzero]
      simp
    · have hother : b.getF (ppState q) = s.getF (ppState q) := by
        rw [hset.2 _ (ppState_ok q) (List.forall_mem_singleton.2 ?_), hend.2 _ (ppState_ok q) fun g hg => .inl ?_]
        · refine (hplace g hg).1.trans' ?_
          simp only [Fld.base, ppState]
          omega
        · simp only [Fld.Apart, Fld.base, ppState]
          omega
      simpa [hother] using hlast q hq hqp
  have hpat : b.pat.disarming = true := by rw [hset.1, hend.1]; exact hdis
  have hhbm : b.hbm = s.hbm := by rw [hset.1, hend.1]
  rw [State.finishDisarm, if_pos (by rw [hpat, hnone]; rfl)]
  obtain ⟨hpattern, hcores, hstates, hhbmEmpty⟩ := emptied_effect b
  exact ⟨hpattern, hcores, hstates, hhbmEmpty.trans hhbm⟩

end Completions

end Sys2Proof.Machine
end
section
/-!
PROOFS. Scope: what a reset leaves of a core (R158, R174, R205, R239).
-/
namespace Sys2Proof.Machine

section CoreResets

variable {s t u : State} {p c e k : Nat} {q r : Queue} {cs : List Nat}

/-! ### The queues of a core -/

/-- What a reset clears of a queue, but for its levels. -/
def queueZeros (c : Nat) (q : Queue) : List (Fld × Nat) :=
  [(qState c q, 0), (qWctr c q, 0), (qWticks c q, 0), (qDepth c q, 0), (qFaultCode c q, 0), (qFaultPc c q, 0)]

/-- What a reset clears of a queue. -/
def resetQueueFields (c : Nat) (q : Queue) : List Fld := (queueZeros c q).map (·.1) ++ (List.range 4).flatMap (levelFields c q)

/-- A queue is abandoned (R239). -/
def resetQueue (c : Nat) (q : Queue) (s : State) : State :=
  forAll (List.range 4) (clearLevel c q) (s.writes (queueZeros c q))

theorem queueZeros_ok (c : Nat) (q : Queue) : ∀ x ∈ queueZeros c q, x.1.Ok := by
  simp [queueZeros, Fld.Ok, qState, qWctr, qWticks, qDepth, qFaultCode, qFaultPc]

theorem queueZeros_apart (c : Nat) (q : Queue) : (queueZeros c q).Pairwise fun a b => a.1.Apart b.1 := by
  have := queue_num_lt q
  simp only [queueZeros, List.pairwise_cons, List.forall_mem_cons, Fld.Apart, Fld.base, qState, qWctr, qWticks, qDepth, qFaultCode, qFaultPc]
  refine ⟨⟨?_, ?_, ?_, ?_, ?_, List.forall_mem_nil _⟩, ⟨?_, ?_, ?_, ?_, List.forall_mem_nil _⟩, ⟨?_, ?_, ?_, List.forall_mem_nil _⟩,
    ⟨?_, ?_, List.forall_mem_nil _⟩, ⟨?_, List.forall_mem_nil _⟩, List.forall_mem_nil _, .nil⟩ <;> omega

theorem regsOnly_clearLevel (c : Nat) (q : Queue) (k : Nat) (s : State) : RegsOnly (levelFields c q k) s (clearLevel c q k s) :=
  ((regsOnly_setF _ _ (qRemain_ok ..) (by simp [levelFields])).trans (regsOnly_setF _ _ (qForever_ok ..) (by simp [levelFields]))).trans
    (regsOnly_setF _ _ (qStart_ok ..) (by simp [levelFields]))

theorem regsOnly_clearLevels (c : Nat) (q : Queue) (s : State) :
    RegsOnly ((List.range 4).flatMap (levelFields c q)) s (forAll (List.range 4) (clearLevel c q) s) :=
  forAll_invariant (P := RegsOnly ((List.range 4).flatMap (levelFields c q)) s)
    (fun k hk t h => h.trans ((regsOnly_clearLevel c q k t).mono fun _ hf => List.mem_flatMap.2 ⟨k, hk, hf⟩)) (.refl _ s)

theorem regsOnly_resetQueue (c : Nat) (q : Queue) (s : State) : RegsOnly (resetQueueFields c q) s (resetQueue c q s) :=
  ((regsOnly_writes (queueZeros_ok c q) s).mono fun _ hf => List.mem_append_left _ hf).trans
    ((regsOnly_clearLevels c q _).mono fun _ hf => List.mem_append_right _ hf)

theorem zeros_apart_levels (c : Nat) (q : Queue) : ∀ x ∈ queueZeros c q, ∀ g ∈ (List.range 4).flatMap (levelFields c q), x.1.Apart g := by
  have hq := queue_num_lt q
  intro x hx g hg
  obtain ⟨k, hk, hgk⟩ := List.mem_flatMap.1 hg
  have hk := List.mem_range.1 hk
  have hplace := levelFields_place c q k g hgk
  revert x
  simp only [queueZeros, List.forall_mem_cons, Fld.Apart, Fld.base, qState, qWctr, qWticks, qDepth, qFaultCode, qFaultPc, corePage] at hplace ⊢
  refine ⟨?_, ?_, ?_, ?_, ?_, ?_, List.forall_mem_nil _⟩ <;> omega

/-- An abandoned queue reads 0. -/
theorem getF_resetQueue (c : Nat) (q : Queue) (s : State) : ∀ x ∈ queueZeros c q, (resetQueue c q s).getF x.1 = 0 := by
  intro x hx
  have hzero : x.2 = 0 := by
    revert x
    simp [queueZeros]
  rw [resetQueue, (regsOnly_clearLevels c q _).2 _ (queueZeros_ok c q x hx) (zeros_apart_levels c q x hx),
    getF_writes (queueZeros_ok c q) (queueZeros_apart c q) s x hx, hzero, Nat.zero_mod]

theorem resetQueueFields_place (c : Nat) (q : Queue) : ∀ f ∈ resetQueueFields c q,
    8 * (corePage c + 0x908 + 0x40 * q.num) ≤ f.base ∧ f.base + f.w ≤ 8 * (corePage c + 0x930 + 0x40 * q.num) := by
  refine List.forall_mem_append.2 ⟨?_, fun f hf => ?_⟩
  · simp only [queueZeros, List.map_cons, List.map_nil, List.forall_mem_cons, Fld.base, qState, qWctr, qWticks, qDepth, qFaultCode, qFaultPc,
      corePage]
    refine ⟨?_, ?_, ?_, ?_, ?_, ?_, List.forall_mem_nil _⟩ <;> omega
  · obtain ⟨k, hk, hfk⟩ := List.mem_flatMap.1 hf
    have hk := List.mem_range.1 hk
    have hplace := levelFields_place c q k f hfk
    omega

theorem resetQueueFields_apart (c : Nat) (h : q ≠ r) : ∀ f ∈ resetQueueFields c q, ∀ g ∈ resetQueueFields c r, f.Apart g := by
  intro f hf g hg
  have hne := queue_num_inj h
  have hplace := resetQueueFields_place c q f hf
  have hplace' := resetQueueFields_place c r g hg
  rw [Fld.Apart]
  omega

/-- All queues of a core are abandoned. -/
def resetQueues (c : Nat) (s : State) : State := forAll allQueues (resetQueue c) s

theorem getF_resetQueues (c : Nat) (q : Queue) (s : State) : ∀ x ∈ queueZeros c q, (resetQueues c s).getF x.1 = 0 := by
  intro x hx
  refine forAll_establishes (I := fun _ => True) (P := fun t : State => t.getF x.1 = 0) (mem_allQueues q) (fun _ _ _ _ => trivial)
    (fun t _ => getF_resetQueue c q t x hx) (fun r _ t _ ht => ?_) trivial
  by_cases hqr : q = r
  · subst hqr
    exact getF_resetQueue c q t x hx
  · refine ((regsOnly_resetQueue c r t).2 _ (queueZeros_ok c q x hx) fun g hg => ?_).trans ht
    exact resetQueueFields_apart c hqr _ (List.mem_append_left _ (List.mem_map_of_mem hx)) g hg

theorem regsOnly_resetQueues (c : Nat) (s : State) : RegsOnly (allQueues.flatMap (resetQueueFields c)) s (resetQueues c s) :=
  forAll_invariant (P := RegsOnly (allQueues.flatMap (resetQueueFields c)) s)
    (fun q hq t h => h.trans ((regsOnly_resetQueue c q t).mono fun _ hf => List.mem_flatMap.2 ⟨q, hq, hf⟩)) (.refl _ s)

end CoreResets

end Sys2Proof.Machine
end
section
/-!
PROOFS. Scope: cores that are reset (R158, R174, R205, R239).
-/
namespace Sys2Proof.Machine

section CoreResets

variable {s t u : State} {p c e k : Nat} {q r : Queue} {cs : List Nat}

/-- The banks' state and the arrivals of a core. -/
def bankArrivalFields (c : Nat) : List Fld := [⟨(cBankState c 0).off, 0, 64⟩, ⟨(cBankState c 1).off, 0, 64⟩, cArrived c]

/-- The banks' state and the arrivals of a core are cleared. -/
def State.clearBanks (c : Nat) (s : State) : State :=
  s.set64 (cBankState c 0).off 0 |>.set64 (cBankState c 1).off 0 |>.setF (cArrived c) 0

/-- What a core does and waits for is abandoned; its memories stay. -/
def Core.abandon (x : Core) : Core :=
  { x with psb := [], banks := [], drains := [], past := [], moves := [], inbox := [], deferred := [], phase := none,
           replayed := false, staged := [] }

/-- The work of core `c` is abandoned. -/
def State.abandonWork (c : Nat) (s : State) : State := s.modCore c Core.abandon

/-- The stop of core `c` keeps its slot table alone. -/
def State.clearStop (c : Nat) (s : State) : State := s.modStop c fun t => { slots := t.slots }

theorem resetCore_eq (c : Nat) (s : State) : resetCore c s = (((resetQueues c s).clearBanks c).abandonWork c).clearStop c := rfl

theorem OnlyFields.set64 {l : List Fld} (h : OnlyFields l s t) {o : Nat} (hm : ⟨o, 0, 64⟩ ∈ l) (v : W64) :
    OnlyFields l s (t.set64 o v) :=
  h.trans ((onlyFields_set64 o v t).mono (by simpa using hm))

theorem rest_set64 (h : t = { s with regs := t.regs }) (o : Nat) (v : W64) : t.set64 o v = { s with regs := (t.set64 o v).regs } := by
  have hput : ∀ r, { t with regs := r } = { s with regs := r } := fun r => by rw [h]
  exact hput _

theorem regsOnly_clearBanks (c : Nat) (s : State) : RegsOnly (bankArrivalFields c) s (s.clearBanks c) := by
  rw [State.clearBanks]
  refine ⟨rest_setF (rest_set64 (rest_set64 rfl _ _) _ _) _ _, ?_⟩
  have hfirst := (OnlyFields.refl (bankArrivalFields c) s).set64 (o := (cBankState c 0).off) (by simp [bankArrivalFields]) 0
  have hsecond := hfirst.set64 (o := (cBankState c 1).off) (by simp [bankArrivalFields]) 0
  exact hsecond.setF (cArrived_ok c) (by simp [bankArrivalFields]) 0

theorem bankArrivalFields_place (c : Nat) : ∀ f ∈ bankArrivalFields c,
    8 * (corePage c + 0x500) ≤ f.base ∧ (f.base + f.w ≤ 8 * (corePage c + 0x510) ∨ 8 * (corePage c + 0xB00) ≤ f.base) ∧
      f.base + f.w ≤ 8 * (corePage c + 0xB10) := by
  simp only [bankArrivalFields, List.forall_mem_cons, Fld.base, cBankState, cArrived, corePage]
  refine ⟨?_, ?_, ?_, List.forall_mem_nil _⟩ <;> omega

/-- What a reset clears of a core. -/
def resetCoreFields (c : Nat) : List Fld := allQueues.flatMap (resetQueueFields c) ++ bankArrivalFields c

theorem resetCoreFields_place (c : Nat) : ∀ f ∈ resetCoreFields c,
    8 * (corePage c + 0x500) ≤ f.base ∧ f.base + f.w ≤ 8 * (corePage c + 0xB10) := by
  refine List.forall_mem_append.2 ⟨fun f hf => ?_, fun f hf => ?_⟩
  · obtain ⟨q, -, hfq⟩ := List.mem_flatMap.1 hf
    have hq := queue_num_lt q
    have hplace := resetQueueFields_place c q f hfq
    omega
  · have hplace := bankArrivalFields_place c f hf
    omega

theorem resetCoreFields_inPage (c : Nat) : ∀ f ∈ resetCoreFields c, InPage c f := by
  intro f hf
  have hplace := resetCoreFields_place c f hf
  rw [InPage]
  omega

theorem regsOnly_resetRegs (c : Nat) (s : State) : RegsOnly (resetCoreFields c) s ((resetQueues c s).clearBanks c) :=
  ((regsOnly_resetQueues c s).mono fun _ hf => List.mem_append_left _ hf).trans
    ((regsOnly_clearBanks c _).mono fun _ hf => List.mem_append_right _ hf)

theorem onlyFields_resetCore (c : Nat) (s : State) : OnlyFields (resetCoreFields c) s (resetCore c s) := by
  have hregs := (regsOnly_resetRegs c s).2
  rw [resetCore_eq]
  generalize (resetQueues c s).clearBanks c = u at hregs
  exact fun f hf ha => (getF_modStop ..).trans ((getF_modCore ..).trans (hregs f hf ha))

/-- Registers, cores and stops may change, nothing else. -/
def CoresChange (s t : State) : Prop := t = { s with regs := t.regs, cores := t.cores, stops := t.stops }

theorem CoresChange.trans (h : CoresChange s t) (k : CoresChange t u) : CoresChange s u := by
  rw [CoresChange] at *
  rw [k, h]

theorem RegsOnly.coresChange {l : List Fld} (h : RegsOnly l s t) : CoresChange s t := by
  obtain ⟨hrest, -⟩ := h
  rw [CoresChange, hrest]

theorem coresChange_abandonWork (c : Nat) (s : State) : CoresChange s (s.abandonWork c) := rfl

theorem coresChange_clearStop (c : Nat) (s : State) : CoresChange s (s.clearStop c) := rfl

theorem coresChange_resetCore (c : Nat) (s : State) : CoresChange s (resetCore c s) := by
  rw [resetCore_eq]
  exact ((regsOnly_resetRegs c s).coresChange.trans (coresChange_abandonWork c _)).trans (coresChange_clearStop c _)

theorem coresChange_resetCores (cs : List Nat) (s : State) : CoresChange s (forAll cs resetCore s) :=
  forAll_invariant (P := CoresChange s) (fun c _ t h => h.trans (coresChange_resetCore c t)) rfl

theorem core_resetCore_same (c : Nat) (s : State) : (resetCore c s).core c = (s.core c).abandon := by
  have hregs := (regsOnly_resetRegs c s).core_eq c
  rw [resetCore_eq, State.clearStop, core_modStop, State.abandonWork, core_modCore_same, hregs]

theorem core_resetCore_ne (h : e ≠ c) (s : State) : (resetCore c s).core e = s.core e := by
  have hregs := (regsOnly_resetRegs c s).core_eq e
  rw [resetCore_eq, State.clearStop, core_modStop, State.abandonWork, core_modCore_ne _ h, hregs]

theorem mem_abandon (x : Core) (m : CoreMem) : x.abandon.mem m = x.mem m := by cases m <;> rfl

/-- What a reset leaves of a core of the partition. -/
structure CoreReset (c : Nat) (s t : State) : Prop where
  queues : ∀ q, t.getF (qState c q) = 0 ∧ t.getF (qDepth c q) = 0
  arrived : t.getF (cArrived c) = 0
  mems : MemSame c s t
  moves : (t.core c).moves = []
  phase : (t.core c).phase = none

theorem queueZeros_apart_banks (c : Nat) (q : Queue) : ∀ x ∈ queueZeros c q, ∀ g ∈ bankArrivalFields c, x.1.Apart g := by
  intro x hx g hg
  have hq := queue_num_lt q
  have hplace := resetQueueFields_place c q x.1 (List.mem_append_left _ (List.mem_map_of_mem hx))
  have hbank := bankArrivalFields_place c g hg
  rw [Fld.Apart]
  omega

theorem coreReset_resetCore (h : MemSame c s t) : CoreReset c s (resetCore c t) := by
  have hcore := core_resetCore_same c t
  have hqueues := getF_resetQueues c
  have hbanks := (regsOnly_clearBanks c (resetQueues c t)).2
  have hkeep : ∀ q, ∀ x ∈ queueZeros c q, (resetCore c t).getF x.1 = 0 := fun q x hx => by
    rw [resetCore_eq, State.clearStop, getF_modStop, State.abandonWork, getF_modCore,
      hbanks _ (queueZeros_ok c q x hx) (queueZeros_apart_banks c q x hx), hqueues q t x hx]
  have harrived : (resetCore c t).getF (cArrived c) = 0 := by
    rw [resetCore_eq, State.clearStop, getF_modStop, State.abandonWork, getF_modCore, State.clearBanks, getF_setF_same _ _ (cArrived_ok c),
      Nat.zero_mod]
  refine ⟨fun q => ⟨hkeep q (qState c q, 0) (by simp [queueZeros]), hkeep q (qDepth c q, 0) (by simp [queueZeros])⟩, harrived,
    fun m => ?_, ?_, ?_⟩
  · rw [hcore, mem_abandon, h m]
  · rw [hcore, Core.abandon]
  · rw [hcore, Core.abandon]

/-- What it says of a core depends on the core and on its page. -/
theorem CoreReset.congr (h : CoreReset c s t) (hc : u.core c = t.core c)
    (hf : ∀ f : Fld, f.Ok → InPage c f → u.getF f = t.getF f) : CoreReset c s u := by
  have hin : ∀ q, InPage c (qState c q) ∧ InPage c (qDepth c q) := fun q => by
    have hq := queue_num_lt q
    simp only [InPage, Fld.base, qState, qDepth, corePage]
    omega
  have hinArr : InPage c (cArrived c) := by
    simp only [InPage, Fld.base, cArrived, corePage]
    omega
  refine ⟨fun q => ⟨?_, ?_⟩, (hf _ (cArrived_ok c) hinArr).trans h.arrived, fun m => ?_, by rw [hc, h.moves], by rw [hc, h.phase]⟩
  · rw [hf _ (qState_ok ..) (hin q).1, (h.queues q).1]
  · rw [hf _ (by simp [Fld.Ok, qDepth]) (hin q).2, (h.queues q).2]
  · rw [hc, h.mems m]

theorem getF_resetCore_of_page (h : c ≠ e) {f : Fld} (hf : f.Ok) (hin : InPage c f) (s : State) : (resetCore e s).getF f = s.getF f :=
  onlyFields_resetCore e s f hf fun g hg => hin.apart (resetCoreFields_inPage e g hg) h

/-- Every core of the list is reset. -/
theorem forAll_resetCore (hc : c ∈ cs) (h : MemSame c s t) : CoreReset c s (forAll cs resetCore t) := by
  refine forAll_establishes (I := MemSame c s) hc (fun e _ t ht m => ?_) (fun t ht => coreReset_resetCore ht) (fun e _ t ht hr => ?_) h
  · by_cases hce : c = e
    · subst hce
      rw [core_resetCore_same, mem_abandon, ht m]
    · rw [core_resetCore_ne hce, ht m]
  · by_cases hce : c = e
    · subst hce
      exact coreReset_resetCore ht
    · exact hr.congr (core_resetCore_ne hce t) fun f hf hin => getF_resetCore_of_page hce hf hin t

/-- The other cores stay as they are. -/
theorem forAll_resetCore_other (hc : c ∉ cs) (s : State) : (forAll cs resetCore s).core c = s.core c ∧
    ∀ f : Fld, f.Ok → InPage c f → (forAll cs resetCore s).getF f = s.getF f := by
  have hne : ∀ e ∈ cs, c ≠ e := fun e he hce => hc (hce ▸ he)
  exact ⟨forAll_leaves (·.core c) (fun e he t => core_resetCore_ne (hne e he) t) s, fun f hf hin =>
    forAll_leaves (·.getF f) (fun e he t => getF_resetCore_of_page (hne e he) hf hin t) s⟩

theorem onlyFields_resetCores (cs : List Nat) (s : State) : OnlyFields (cs.flatMap resetCoreFields) s (forAll cs resetCore s) :=
  onlyFields_forAll (fun c _ t => onlyFields_resetCore c t) s

/-- The seeds of cores that are reset stay (R239). -/
theorem seedOf_resetCores (c : Nat) (cs : List Nat) (s : State) : (forAll cs resetCore s).seedOf c = s.seedOf c := by
  have happ : ∀ f : Fld, 8 * (corePage c + 0xF00) ≤ f.base → InPage c f → ∀ g ∈ cs.flatMap resetCoreFields, f.Apart g := by
    intro f hlo hin g hg
    obtain ⟨e, -, hge⟩ := List.mem_flatMap.1 hg
    by_cases hce : c = e
    · subst hce
      have hplace := resetCoreFields_place c g hge
      exact .inr (by omega)
    · exact hin.apart (resetCoreFields_inPage e g hge) hce
  have hlo : (forAll cs resetCore s).getF (cSeedLo c) = s.getF (cSeedLo c) :=
    onlyFields_resetCores cs s _ (by simp [Fld.Ok, cSeedLo]) (happ _ (by simp only [Fld.base, cSeedLo, corePage]; omega)
      (by simp only [InPage, Fld.base, cSeedLo, corePage]; omega))
  have hhi : (forAll cs resetCore s).getF (cSeedHi c) = s.getF (cSeedHi c) :=
    onlyFields_resetCores cs s _ (by simp [Fld.Ok, cSeedHi]) (happ _ (by simp only [Fld.base, cSeedHi, corePage]; omega)
      (by simp only [InPage, Fld.base, cSeedHi, corePage]; omega))
  rw [State.seedOf, hlo, hhi, State.seedOf]

end CoreResets

end Sys2Proof.Machine
end
section
/-!
PROOFS. Scope: the reset of a partition, RESET and DISARM (R239, R266, R318, R324).
-/
namespace Sys2Proof.Machine

section PartResets

variable {s t u : State} {p q c d : Nat} {f g : Fld} {ds cs : List Nat}

/-! ### Work on the fabric's registers -/

/-- The cores, HBM and the pattern stay, and of the registers those below the peer links' and those of the cores. -/
structure FabricOnly (s t : State) : Prop where
  regs : ∀ f : Fld, f.Ok → f.base + f.w ≤ 8 * 0x00603000 ∨ 8 * 0x01000000 ≤ f.base → t.getF f = s.getF f
  cores : t.cores = s.cores
  hbm : t.hbm = s.hbm
  pat : t.pat = s.pat

theorem FabricOnly.trans (h : FabricOnly s t) (k : FabricOnly t u) : FabricOnly s u :=
  ⟨fun f hf hp => (k.regs f hf hp).trans (h.regs f hf hp), k.cores.trans h.cores, k.hbm.trans h.hbm, k.pat.trans h.pat⟩

theorem fabricOnly_setF (hg : g.Ok) (hp : 8 * 0x00603000 ≤ g.base ∧ g.base + g.w ≤ 8 * 0x01000000) (v : Nat) (s : State) :
    FabricOnly s (s.setF g v) := by
  refine ⟨fun f hf hplace => getF_setF_apart f g v hf hg ?_, setF_cores .., setF_hbm .., setF_pat ..⟩
  rw [Fld.Apart]
  omega

theorem fabricOnly_modDie (d : Nat) (f : Die → Die) (s : State) : FabricOnly s (s.modDie d f) := ⟨fun _ _ _ => rfl, rfl, rfl, rfl⟩

theorem fabricOnly_modPart (p : Nat) (f : Part → Part) (s : State) : FabricOnly s (s.modPart p f) := ⟨fun _ _ _ => rfl, rfl, rfl, rfl⟩

theorem fabricOnly_forAll {α : Type} {l : List α} {f : α → State → State} (h : ∀ a ∈ l, ∀ t, FabricOnly t (f a t)) (s : State) :
    FabricOnly s (forAll l f s) :=
  forAll_invariant (P := FabricOnly s) (fun a ha t ht => ht.trans (h a ha t)) ⟨fun _ _ _ => rfl, rfl, rfl, rfl⟩

theorem gSprueDiscards_ok : gSprueDiscards.Ok := by simp [Fld.Ok, gSprueDiscards]

theorem fabricOnly_discards (n : Nat) (s : State) : FabricOnly s (s.incF gSprueDiscards n) :=
  fabricOnly_setF gSprueDiscards_ok (by decide) _ s

theorem fabricOnly_resetDie (hd : d < 8) (s : State) : FabricOnly s (resetDie d s) := by
  have hdis : 8 * 0x00603000 ≤ (rdDiscards d).base ∧ (rdDiscards d).base + (rdDiscards d).w ≤ 8 * 0x01000000 := by
    simp only [Fld.base, rdDiscards]
    omega
  have hres : 8 * 0x00603000 ≤ (rdResetting d).base ∧ (rdResetting d).base + (rdResetting d).w ≤ 8 * 0x01000000 := by
    simp only [Fld.base, rdResetting]
    omega
  rw [resetDie]
  exact (((fabricOnly_setF (by simp [Fld.Ok, rdDiscards]) hdis _ s).trans (fabricOnly_discards _ _)).trans
    (fabricOnly_setF (rdResetting_ok d) hres _ _)).trans (fabricOnly_modDie ..)

theorem fabricOnly_resetBarriers (p : Nat) (s : State) : FabricOnly s (forAll (List.range 64) (resetBarrier p) s) := by
  have honly := onlyFields_resetBarriers p s
  have hchange := rootsChange_resetBarriers p s
  refine ⟨fun f hf hplace => honly f hf fun g hg => ?_, by rw [hchange], by rw [hchange], by rw [hchange]⟩
  have hroots := rootsFields_place g hg
  rw [Fld.Apart]
  omega

/-! ### The end of a partition's reset -/

/-- Acknowledgements for cores that are reset are discarded, and counted. -/
def State.dropAcks (cs : List Nat) (s : State) : State :=
  { s.incF gSprueDiscards (s.acks.filter fun a => cs.contains a.1).length with acks := s.acks.filter fun a => !cs.contains a.1 }

/-- The clocks of the dies are no longer gated, and the partition's own state is cleared. -/
def State.clearPart (p : Nat) (ds : List Nat) (disarm : Bool) (s : State) : State :=
  ((s.setF wGated (s.getF wGated &&& (255 - (ds.map fun d => 2 ^ d).sum))).modPart p fun t =>
    { nextDrbg := t.nextDrbg, filled := t.filled, seeded := t.seeded, disarmed := disarm }).noteHeld

/-- What a reset does once the cores are reset. -/
def State.finishReset (p : Nat) (ds cs : List Nat) (disarm : Bool) (s : State) : State :=
  ((forAll (List.range 64) (resetBarrier p) (forAll ds resetDie s)).dropAcks cs).clearPart p ds disarm

theorem fabricOnly_dropAcks (cs : List Nat) (s : State) : FabricOnly s (s.dropAcks cs) := by
  have hcount := fabricOnly_discards (s.acks.filter fun a => cs.contains a.1).length s
  rw [State.dropAcks]
  generalize s.incF gSprueDiscards (s.acks.filter fun a => cs.contains a.1).length = t at hcount
  exact ⟨fun f hf hplace => hcount.regs f hf hplace, hcount.cores, hcount.hbm, hcount.pat⟩

theorem fabricOnly_clearPart (p : Nat) (ds : List Nat) (disarm : Bool) (s : State) : FabricOnly s (s.clearPart p ds disarm) := by
  rw [State.clearPart, State.noteHeld]
  exact ((fabricOnly_setF (g := wGated) (by simp [Fld.Ok, wGated]) (by decide) _ s).trans (fabricOnly_modPart ..)).trans
    (fabricOnly_setF wHeld_ok (by decide) _ _)

theorem fabricOnly_finishReset (hds : ∀ d ∈ ds, d < 8) (p : Nat) (cs : List Nat) (disarm : Bool) (s : State) :
    FabricOnly s (s.finishReset p ds cs disarm) :=
  (((fabricOnly_forAll (fun d hd t => fabricOnly_resetDie (hds d hd) t) s).trans (fabricOnly_resetBarriers p _)).trans
    (fabricOnly_dropAcks cs _)).trans (fabricOnly_clearPart p ds disarm _)

/-! ### The beginning of a partition's reset -/

/-- What a reset writes of the pattern's and the partition's registers. -/
def enterFields (p : Nat) : List Fld :=
  [pReason, pkStatus p, hEvent, pkState p, gSprueDiscards, ppState p, ⟨(pfCode p).off, 0, 64⟩]

/-- A patch that waits is refused, a checkpoint command is cancelled (R298, R328). -/
def State.refusePatch (p : Nat) (s : State) : State := if s.patchWaits p && !s.patchBegun p then s.setF pReason 0x12 else s

/-- A checkpoint command is cancelled by the reset (R298). -/
def State.abandonCkpt (p k : Nat) (s : State) : State :=
  if k = 1 ∨ k = 2 ∨ k = 4 ∨ k = 5 ∨ (s.part p).ckptCmd ≠ 0 then (s.setF (pkStatus p) 9).event 11 else s

theorem resetActs_eq (p : Nat) (s : State) :
    (resetActs p s).1 = ((s.refusePatch p).abandonCkpt p (s.getF (pkState p))).setF (pkState p) 0 := rfl

theorem refusePatch_effect (p : Nat) (s : State) :
    OnlyFields (enterFields p) s (s.refusePatch p) ∧ EndChange s (s.refusePatch p) := by
  rw [State.refusePatch]
  split
  · exact ⟨onlyFields_setF _ _ pReason_ok (by simp [enterFields]), endChange_setF ..⟩
  · exact ⟨.refl _ s, rfl⟩

theorem abandonCkpt_effect (p k : Nat) (s : State) :
    OnlyFields (enterFields p) s (s.abandonCkpt p k) ∧ EndChange s (s.abandonCkpt p k) := by
  rw [State.abandonCkpt]
  split
  · exact ⟨(onlyFields_setF _ _ (pkStatus_ok p) (by simp [enterFields])).trans ((onlyFields_event 11 _).mono (by simp [enterFields])),
      (endChange_setF ..).trans (endChange_event 11 _)⟩
  · exact ⟨.refl _ s, rfl⟩

theorem resetActs_effect (p : Nat) (s : State) : OnlyFields (enterFields p) s (resetActs p s).1 ∧ EndChange s (resetActs p s).1 := by
  obtain ⟨hpatch, cpatch⟩ := refusePatch_effect p s
  rw [resetActs_eq]
  generalize s.refusePatch p = a at hpatch cpatch
  obtain ⟨hckpt, cckpt⟩ := abandonCkpt_effect p (s.getF (pkState p)) a
  generalize a.abandonCkpt p (s.getF (pkState p)) = b at hckpt cckpt
  exact ⟨(hpatch.trans hckpt).setF (pkState_ok p) (by simp [enterFields]) 0, (cpatch.trans cckpt).trans (endChange_setF ..)⟩

/-- The launches that waited are lost, the partition reads STATE 3, and its fault is forgotten. -/
def State.enterReset (p n : Nat) (s : State) : State := ((s.incF gSprueDiscards n).setF (ppState p) 3).set64 (pfCode p).off 0

theorem onlyFields_enterReset (p n : Nat) (s : State) : OnlyFields (enterFields p) s (s.enterReset p n) := by
  rw [State.enterReset, State.incF]
  exact ((onlyFields_setF _ _ gSprueDiscards_ok (by simp [enterFields])).setF (ppState_ok p) (by simp [enterFields]) 3).set64
    (by simp [enterFields]) 0

theorem endChange_set64 (o : Nat) (v : W64) (s : State) : EndChange s (s.set64 o v) := rfl

theorem endChange_enterReset (p n : Nat) (s : State) : EndChange s (s.enterReset p n) := by
  rw [State.enterReset, State.incF]
  exact ((endChange_setF ..).trans (endChange_setF ..)).trans (endChange_set64 ..)

theorem pfValid_ok (p : Nat) : (pfValid p).Ok := by simp [Fld.Ok, pfValid]

theorem enterReset_reads (_ : p < 8) (n : Nat) (s : State) :
    (s.enterReset p n).getF (ppState p) = 3 ∧ (s.enterReset p n).getF (pfValid p) = 0 := by
  have happ : (ppState p).Apart ⟨(pfCode p).off, 0, 64⟩ := by
    simp only [Fld.Apart, Fld.base, ppState, pfCode]
    omega
  constructor
  · rw [State.enterReset, onlyFields_set64 _ _ _ _ (ppState_ok p) (List.forall_mem_singleton.2 happ), getF_setF_same _ _ (ppState_ok p)]
    rfl
  · exact getF_set64_zero (f := pfValid p) (pfValid_ok p) _

theorem enterFields_place (_ : p < 8) : ∀ g ∈ enterFields p, g.base + g.w ≤ 8 * 0x01000000 := by
  simp only [enterFields, List.forall_mem_cons, Fld.base, pReason, pkStatus, hEvent, pkState, gSprueDiscards, ppState, pfCode]
  refine ⟨?_, ?_, ?_, ?_, ?_, ?_, ?_, List.forall_mem_nil _⟩ <;> omega

/-- PATTERN and the STATE of the other partitions are none of them. -/
theorem enterFields_apart (_ : p < 8) : ∀ g ∈ enterFields p, pPattern.Apart g ∧ ∀ q, q < 8 → q ≠ p → (ppState q).Apart g := by
  simp only [enterFields, List.forall_mem_cons, Fld.Apart, Fld.base, pReason, pkStatus, hEvent, pkState, gSprueDiscards, ppState, pfCode,
    pPattern]
  refine ⟨?_, ?_, ?_, ?_, ?_, ?_, ?_, List.forall_mem_nil _⟩ <;> refine ⟨?_, fun q hq hqp => ?_⟩ <;> omega

/-- The launches that a reset loses at the bridges. -/
def State.lostLaunches (s : State) (p n : Nat) : Nat := ((s.part p).buffered.length + (s.part p).framed.length) * n

theorem resetPart_eq (p : Nat) (s : State) : resetPart p s =
    (forAll (s.partCores p) resetCore
      ((resetActs p s).1.enterReset p ((resetActs p s).1.lostLaunches p (s.partDies p).length))).finishReset
        p (s.partDies p) (s.partCores p) (resetActs p s).2 := rfl

end PartResets

end Sys2Proof.Machine
end
section
/-!
PROOFS. Scope: RESET and DISARM of an armed pattern (R239, R318, R324).
-/
namespace Sys2Proof.Machine

section PartResets

variable {s t u : State} {p q c d : Nat} {f g : Fld} {ds cs ps : List Nat}

/-! ### The reset of one partition (R239, R266) -/

/-- What a reset leaves: its partition in STATE 3, its cores abandoned, all else of the cores and of the pattern as it was. -/
structure PartReset (p : Nat) (s t : State) : Prop where
  state : t.getF (ppState p) = 3
  valid : t.getF (pfValid p) = 0
  reset : ∀ c, c ∈ s.partCores p → CoreReset c s t
  seeds : ∀ c, t.seedOf c = s.seedOf c
  others : ∀ c, c ∉ s.partCores p → t.core c = s.core c ∧ ∀ q, t.getF (qState c q) = s.getF (qState c q)
  states : ∀ q, q < 8 → q ≠ p → t.getF (ppState q) = s.getF (ppState q)
  pattern : t.getF pPattern = s.getF pPattern
  hbm : t.hbm = s.hbm
  pat : t.pat = s.pat

theorem inPage_above {f : Fld} (h : InPage c f) : 8 * 0x01000000 ≤ f.base := (corePage_above c 0).trans h.1

theorem seedOf_congr (hk : ∀ f : Fld, f.Ok → InPage c f → t.getF f = s.getF f) : t.seedOf c = s.seedOf c := by
  have hlo : InPage c (cSeedLo c) := by
    simp only [InPage, Fld.base, cSeedLo, corePage]
    omega
  have hhi : InPage c (cSeedHi c) := by
    simp only [InPage, Fld.base, cSeedHi, corePage]
    omega
  rw [State.seedOf, State.seedOf, hk _ (by simp [Fld.Ok, cSeedLo]) hlo, hk _ (by simp [Fld.Ok, cSeedHi]) hhi]

theorem qState_inPage (c : Nat) (q : Queue) : InPage c (qState c q) := by
  have hq := queue_num_lt q
  simp only [InPage, Fld.base, qState, corePage]
  omega

theorem resetCoreFields_above (cs : List Nat) : ∀ g ∈ cs.flatMap resetCoreFields, 8 * 0x01000000 ≤ g.base := by
  intro g hg
  obtain ⟨c, -, hgc⟩ := List.mem_flatMap.1 hg
  exact inPage_above (resetCoreFields_inPage c g hgc)

theorem partReset_resetPart (hp : p < 8) (s : State) : PartReset p s (resetPart p s) := by
  obtain ⟨honly, hchange⟩ := resetActs_effect p s
  rw [resetPart_eq]
  generalize (resetActs p s).1 = a at honly hchange
  have henter := onlyFields_enterReset p (a.lostLaunches p (s.partDies p).length) a
  have hentered := endChange_enterReset p (a.lostLaunches p (s.partDies p).length) a
  obtain ⟨hstate, hvalid⟩ := enterReset_reads hp (a.lostLaunches p (s.partDies p).length) a
  generalize a.enterReset p (a.lostLaunches p (s.partDies p).length) = b at henter hentered hstate hvalid
  have hbefore := honly.trans henter
  have hrest := hchange.trans hentered
  have hcoreEq : ∀ c, b.core c = s.core c := fun c => by
    rw [hrest]
    rfl
  have hpage : ∀ c, ∀ f : Fld, f.Ok → InPage c f → b.getF f = s.getF f := fun c f hf hin => hbefore f hf fun g hg =>
    .inr ((enterFields_place hp g hg).trans (inPage_above hin))
  have hcores := onlyFields_resetCores (s.partCores p) b
  have hcoresRest := coresChange_resetCores (s.partCores p) b
  have hreset : ∀ c, c ∈ s.partCores p → CoreReset c s (forAll (s.partCores p) resetCore b) := fun c hc =>
    forAll_resetCore hc fun m => by rw [hcoreEq]
  have hothers := fun c (hc : c ∉ s.partCores p) => forAll_resetCore_other hc b
  have hseeds := fun c => seedOf_resetCores c (s.partCores p) b
  generalize forAll (s.partCores p) resetCore b = e at hcores hcoresRest hreset hothers hseeds
  have hend := fabricOnly_finishReset partDies_lt p (s.partCores p) (resetActs p s).2 e (ds := s.partDies p)
  generalize e.finishReset p (s.partDies p) (s.partCores p) (resetActs p s).2 = t at hend
  have hlow : ∀ f : Fld, f.Ok → f.base + f.w ≤ 8 * 0x00603000 → t.getF f = b.getF f := fun f hf hplace =>
    (hend.regs f hf (.inl hplace)).trans
      (hcores.regsBelow (resetCoreFields_above _) f hf (hplace.trans (by decide)))
  have hcoreEnd : ∀ c, t.core c = e.core c := fun c => by rw [State.core, hend.cores, State.core]
  have hpageEnd : ∀ c, ∀ f : Fld, f.Ok → InPage c f → t.getF f = e.getF f := fun c f hf hin =>
    hend.regs f hf (.inr (inPage_above hin))
  have hstatePlace : ∀ q, q < 8 → (ppState q).base + (ppState q).w ≤ 8 * 0x00603000 := fun q hq => by
    simp only [Fld.base, ppState]
    omega
  refine ⟨(hlow _ (ppState_ok p) (hstatePlace p hp)).trans hstate, (hlow _ (pfValid_ok p) ?_).trans hvalid, fun c hc =>
    (hreset c hc).congr (hcoreEnd c) (hpageEnd c), fun c => ?_, fun c hc => ⟨?_, fun q => ?_⟩, fun q hq hqp => ?_, ?_, ?_, ?_⟩
  · simp only [Fld.base, pfValid]
    omega
  · rw [seedOf_congr (hpageEnd c), hseeds c, seedOf_congr (hpage c)]
  · rw [hcoreEnd, (hothers c hc).1, hcoreEq]
  · rw [hpageEnd c _ (qState_ok ..) (qState_inPage c q), (hothers c hc).2 _ (qState_ok ..) (qState_inPage c q),
      hpage c _ (qState_ok ..) (qState_inPage c q)]
  · rw [hlow _ (ppState_ok q) (hstatePlace q hq), hbefore _ (ppState_ok q) fun g hg => (enterFields_apart hp g hg).2 q hq hqp]
  · rw [hlow _ pPattern_ok (by decide), hbefore _ pPattern_ok fun g hg => (enterFields_apart hp g hg).1]
  · rw [hend.hbm, hcoresRest, hrest]
  · rw [hend.pat, hcoresRest, hrest]

/-! ### RESET of one armed partition (R239, R318) -/

theorem finishPatch_of_not_patching (h : s.getF pPattern ≠ 5) : s.finishPatch = s := by
  simp [State.finishPatch, h]

theorem not_pouring_of_armed (h : s.getF pPattern = 4) : s.pouring = false := by
  simp [State.pouring, h]

theorem armed_of_pattern (h : s.getF pPattern = 4) : s.armed = true := by
  simp [State.armed, h]

/-- The mask that names one partition. -/
def oneMask (p : Nat) : BitVec 8 := BitVec.ofNat 8 (2 ^ p)

theorem getLsbD_oneMask (_ : p < 8) (hq : q < 8) : (oneMask p).getLsbD q = decide (q = p) := by
  rw [oneMask, BitVec.getLsbD_ofNat, Nat.testBit_two_pow]
  simp [hq, eq_comm]

theorem filter_oneMask (hp : p < 8) : (List.range 8).filter (oneMask p).getLsbD = [p] := by
  have hcongr : (List.range 8).filter (oneMask p).getLsbD = (List.range 8).filter (fun q => decide (q = p)) :=
    List.filter_congr fun q hq => getLsbD_oneMask hp (List.mem_range.1 hq)
  rw [hcongr]
  interval_cases p <;> rfl

theorem mayReset_one (hp : p < 8) (hpat : s.getF pPattern = 4) (hrec : ∃ r, r ∈ s.pat.recs ∧ r.part = p) :
    s.mayReset (oneMask p) = true := by
  have hne : oneMask p ≠ 0 := fun h => by
    have hbit := getLsbD_oneMask hp hp
    rw [h] at hbit
    simp at hbit
  have hall : ((List.range 8).all fun q => !(oneMask p).getLsbD q || s.pat.recs.any fun r => r.part == q) = true := by
    refine List.all_eq_true.2 fun q hq => ?_
    rw [getLsbD_oneMask hp (List.mem_range.1 hq)]
    by_cases hqp : q = p
    · obtain ⟨r, hr, hrp⟩ := hrec
      simpa [hqp] using ⟨r, hr, hrp⟩
    · simp [hqp]
  rw [State.mayReset, armed_of_pattern hpat, hall, Bool.or_eq_true]
  exact .inr (by simpa using hne)

theorem partitionResetOp_one (h : PatMay s) (hp : p < 8) (hpat : s.getF pPattern = 4) (hrec : ∃ r, r ∈ s.pat.recs ∧ r.part = p)
    (hst : s.getF (ppState p) ≠ 0) : partitionResetOp (oneMask p) s = resetPart p s := by
  obtain ⟨hlim, hfatal⟩ := h
  have hnot : s.pouring = false := not_pouring_of_armed hpat
  have hone : resetOne p s = resetPart p s := if_neg hst
  have hstays : (resetPart p s).getF pPattern ≠ 5 := by
    rw [(partReset_resetPart hp s).pattern, hpat]
    decide
  rw [partitionResetOp, patCommand_acts hlim hfatal 5 (mayReset_one hp hpat hrec), hnot, filter_oneMask hp, forAll_cons, forAll_nil, hone,
    finishPatch_of_not_patching hstays]
  rfl

/-! ### DISARM of an armed pattern (R324) -/

/-- Resets in turn of partitions that a list names. -/
theorem forAll_resetPart (hps : ∀ p ∈ ps, p < 8) (s : State) : (∀ q, q < 8 → (forAll ps resetPart s).getF (ppState q) =
      if q ∈ ps then 3 else s.getF (ppState q)) ∧ (forAll ps resetPart s).getF pPattern = s.getF pPattern ∧
    (forAll ps resetPart s).hbm = s.hbm := by
  induction ps generalizing s with
  | nil => exact ⟨fun q _ => rfl, rfl, rfl⟩
  | cons p ps ih =>
    have hreset := partReset_resetPart (hps p (List.mem_cons_self ..)) s
    obtain ⟨hstates, hpattern, hhbm⟩ := ih (fun q hq => hps q (List.mem_cons_of_mem _ hq)) (resetPart p s)
    rw [forAll_cons]
    refine ⟨fun q hq => ?_, hpattern.trans hreset.pattern, hhbm.trans hreset.hbm⟩
    rw [hstates q hq]
    by_cases hqp : q = p
    · simp [hqp, hreset.state]
    · simp [hqp, hreset.states q hq hqp]

/-- The partitions that DISARM resets. -/
def State.usedParts (s : State) : List Nat := (List.range 8).filter fun p => s.getF (ppState p) != 0

theorem mem_usedParts : q ∈ s.usedParts ↔ q < 8 ∧ s.getF (ppState q) ≠ 0 := by
  simp [State.usedParts]

/-- The pattern is being disarmed. -/
def State.disarming (s : State) : State := ({ s with pat := { s.pat with disarming := true } }).setF pPattern 4

theorem finishDisarm_of_resetting (hq : q < 8) (h : s.getF (ppState q) = 3) : s.finishDisarm = s := by
  have hany : ((List.range 8).any fun p => s.getF (ppState p) == 3) = true :=
    List.any_eq_true.2 ⟨q, List.mem_range.2 hq, by simp [h]⟩
  rw [State.finishDisarm, hany]
  simp

theorem disarming_effect (s : State) : s.disarming.pat.disarming = true ∧ s.disarming.getF pPattern = 4 ∧
    (∀ q, q < 8 → s.disarming.getF (ppState q) = s.getF (ppState q)) ∧ s.disarming.hbm = s.hbm := by
  refine ⟨rfl, ?_, fun q hq => ?_, rfl⟩
  · rw [State.disarming, getF_setF_same _ _ pPattern_ok]
    rfl
  · rw [State.disarming, getF_setF_apart _ _ _ (ppState_ok q) pPattern_ok]
    · rfl
    · simp only [Fld.Apart, Fld.base, ppState, pPattern]
      omega

theorem disarmOp_of_armed (h : PatMay s) (hpat : s.getF pPattern = 4) :
    disarmOp s = (forAll s.usedParts resetPart s).disarming.finishDisarm := by
  obtain ⟨hlim, hfatal⟩ := h
  rw [disarmOp, patCommand_acts hlim hfatal 3 (by simp [State.mayDisarm, hpat]), State.disarmAll, not_pouring_of_armed hpat,
    armed_of_pattern hpat]
  rfl

/-- DISARM of a pattern with a partition in use. -/
theorem disarm_effect (h : PatMay s) (hpat : s.getF pPattern = 4) (hq : q < 8) (hused : s.getF (ppState q) ≠ 0) :
    (disarmOp s).pat.disarming = true ∧ (disarmOp s).getF pPattern = 4 ∧
      (∀ p, p < 8 → (disarmOp s).getF (ppState p) = if s.getF (ppState p) = 0 then 0 else 3) ∧ (disarmOp s).hbm = s.hbm := by
  obtain ⟨hstates, -, hhbm⟩ := forAll_resetPart (ps := s.usedParts) (fun p hp => (mem_usedParts.1 hp).1) s
  rw [disarmOp_of_armed h hpat]
  generalize forAll s.usedParts resetPart s = a at hstates hhbm
  obtain ⟨hdis, hpattern, hkept, hhbmKept⟩ := disarming_effect a
  have hin : ∀ p, p < 8 → a.disarming.getF (ppState p) = if s.getF (ppState p) = 0 then 0 else 3 := fun p hp => by
    rw [hkept p hp, hstates p hp]
    by_cases hz : s.getF (ppState p) = 0
    · simp [mem_usedParts, hz]
    · simp [mem_usedParts, hz, hp]
  rw [finishDisarm_of_resetting hq (by rw [hin q hq, if_neg hused])]
  exact ⟨hdis, hpattern, hin, hhbmKept.trans hhbm⟩

end PartResets

end Sys2Proof.Machine
end
section
/-!
PROOFS. Scope: what reading a section notes (R351, R356), and a weight merged into a lace word (R325, R352).
-/
namespace Sys2Proof.Machine

section Notes

variable {s t u : State} {i : Image} {e : Section} {lid a w n : Nat}

/-! ### What is counted and logged of errors met -/

theorem pLanded_ok : pLanded.Ok := by simp [Fld.Ok, pLanded]

theorem lAgreed_ok : lAgreed.Ok := by simp [Fld.Ok, lAgreed]

/-- Registers that count errors, and what the HBM controllers note, may change; PLANDED and AGREED stay. -/
structure Noted (s t : State) : Prop where
  rest : t = { s with regs := t.regs, ctls := t.ctls }
  landed : t.getF pLanded = s.getF pLanded
  agreed : t.getF lAgreed = s.getF lAgreed

theorem Noted.refl (s : State) : Noted s s := ⟨rfl, rfl, rfl⟩

theorem Noted.trans (h : Noted s t) (k : Noted t u) : Noted s u :=
  ⟨by rw [k.rest, h.rest], k.landed.trans h.landed, k.agreed.trans h.agreed⟩

theorem noted_forAll {α : Type} {l : List α} {f : α → State → State} (h : ∀ a t, Noted t (f a t)) (s : State) :
    Noted s (forAll l f s) :=
  forAll_invariant (P := Noted s) (fun a _ t ht => ht.trans (h a t)) (.refl s)

/-- A counter that is neither of the pattern's nor of the links' registers. -/
theorem noted_incF {g : Fld} (hg : g.Ok) (hlo : 8 * 0x00500000 ≤ g.base)
    (hp : g.base + g.w ≤ 8 * 0x00600000 ∨ 8 * 0x00700000 ≤ g.base) (k : Nat) (s : State) : Noted s (s.incF g k) := by
  refine ⟨rfl, getF_incF_apart _ _ _ pLanded_ok hg ?_, getF_incF_apart _ _ _ lAgreed_ok hg ?_⟩
  · simp only [Fld.Apart, Fld.base, pLanded] at hlo ⊢
    omega
  · simp only [Fld.Apart, Fld.base, lAgreed] at hp ⊢
    omega

theorem logEntry_above (k : Nat) : ∀ g ∈ logEntry k, 8 * 0x00900000 ≤ g.base := by
  simp only [logEntry, List.forall_mem_cons, Fld.base, ogTick, ogClass, ogSource, ogUnit, ogPoison, ogCode, ogLocation, rLogHead,
    rLogWraps, rCorrected, rContained, rPattern]
  refine ⟨?_, ?_, ?_, ?_, ?_, ?_, ?_, ?_, ?_, ?_, ?_, ?_, List.forall_mem_nil _⟩ <;> omega

theorem noted_log (cls src unit : Nat) (poison : Bool) (code loc : Nat) (s : State) : Noted s (s.log cls src unit poison code loc) := by
  have hbelow := (onlyFields_log cls src unit poison code loc s).regsBelow (logEntry_above _)
  exact ⟨by rw [log_rest], hbelow _ pLanded_ok (by decide), hbelow _ lAgreed_ok (by decide)⟩

theorem noted_modCtl (c : Nat) (f : HbmCtl → HbmCtl) (s : State) : Noted s (s.modCtl c f) := ⟨rfl, rfl, rfl⟩

/-! ### Reads of HBM (R349, R351, R356) -/

theorem ctlOf_lt (p : Nat) : ctlOf p < 6 := Nat.mod_lt _ (by decide)

theorem noted_rowDue (k : Nat × Nat × Nat) (s : State) : Noted s (s.rowDue k) := by
  rw [State.rowDue]
  split
  · exact .refl s
  · exact noted_modCtl ..

theorem noted_noteRemap (a n : Nat) (s : State) : Noted s (s.noteRemap a n) := by
  refine noted_forAll (fun k t => ?_) s
  have hlt := ctlOf_lt (pcOf (64 * k))
  split
  · refine noted_incF (by simp [Fld.Ok, bRemapHits]) ?_ (.inl ?_) 1 t
    · simp only [Fld.base, bRemapHits]
      omega
    · simp only [Fld.base, bRemapHits]
      omega
  · exact .refl t

theorem noted_noteLap (w : Nat) (s : State) : Noted s (s.noteLap w) := by
  have hlap : Noted s (if (s.ctl (ctlOf (pcOf (32 * w)))).lapWords.contains w then s
      else s.modCtl (ctlOf (pcOf (32 * w))) fun t => { t with lapWords := t.lapWords ++ [w] }) := by
    split
    · exact .refl s
    · exact noted_modCtl ..
  rw [State.noteLap]
  split
  · exact hlap.trans (noted_rowDue ..)
  · exact hlap

theorem noted_correctHbm (enter : Bool) (w : Nat) (s : State) : Noted s (s.correctHbm enter w) := by
  have hlt := ctlOf_lt (pcOf (32 * w))
  have hlap := noted_noteLap w s
  rw [State.correctHbm]
  generalize s.noteLap w = a at hlap
  have hcount : ∀ b : State, Noted b ((b.incF (bCorrected (ctlOf (pcOf (32 * w)))) 1).log 1 0 (ctlOf (pcOf (32 * w))) false 0 (16 * w)) :=
    fun b => by
      refine (noted_incF (by simp [Fld.Ok, bCorrected]) ?_ (.inl ?_) 1 b).trans (noted_log ..)
      · simp only [Fld.base, bCorrected]
        omega
      · simp only [Fld.base, bCorrected]
        omega
  split
  · exact hlap
  · split
    · exact (hlap.trans (noted_modCtl ..)).trans (hcount _)
    · exact hlap.trans (hcount a)

theorem noted_noteHbm (w : Nat) (s : State) : Noted s (s.noteHbm w) := by
  have hlt := ctlOf_lt (pcOf (32 * w))
  rw [State.noteHbm]
  split
  · exact .refl s
  · exact noted_correctHbm ..
  · refine ((noted_incF (by simp [Fld.Ok, bUncorr]) ?_ (.inl ?_) 1 s).trans (noted_log ..)).trans (noted_rowDue ..)
    · simp only [Fld.base, bUncorr]
      omega
    · simp only [Fld.base, bUncorr]
      omega

theorem noted_noteHbmRead (a n : Nat) (s : State) : Noted s (s.noteHbmRead a n) :=
  (noted_noteRemap a n s).trans (noted_forAll noted_noteHbm _)

theorem noted_noteSection (i : Image) (e : Section) (s : State) : Noted s (s.noteSection i e) :=
  noted_forAll (fun _ t => noted_noteHbmRead _ _ t) s

/-- Where a section lands, and what it holds, is not what reading it notes. -/
theorem Noted.landing_eq (h : Noted s t) (e : Section) : t.landing e = s.landing e := by
  have hpos : t.position = s.position := by
    rw [State.position, State.position, State.onF, State.onF, h.agreed, State.pkgId, State.pkgId, h.rest]
  have harr : t.arr = s.arr := by rw [State.arr, State.arr, h.rest]
  have hdies : t.recDies e.part = s.recDies e.part := by
    rw [h.rest]
    rfl
  rw [State.landing, State.landing, hpos, harr, hdies]

theorem Noted.hbm_eq (h : Noted s t) : t.hbm = s.hbm := by rw [h.rest]

theorem Noted.payload_eq (h : Noted s t) (i : Image) (e : Section) : t.payload i e = s.payload i e := by
  rw [State.payload, h.hbm_eq, State.payload]

theorem Noted.landReason_eq (h : Noted s t) (i : Image) (e : Section) : landReason t i e = landReason s i e := by
  have hbad : t.payloadBad i e = s.payloadBad i e := by
    simp only [State.payloadBad, State.hbmBad, State.hbmErr, h.hbm_eq]
  rw [landReason, landReason, hbad, h.payload_eq]

theorem Noted.core_eq (h : Noted s t) (k : Nat) : t.core k = s.core k := by rw [h.rest]; rfl

theorem Noted.part_eq (h : Noted s t) (k : Nat) : t.part k = s.part k := by rw [h.rest]; rfl

end Notes

end Sys2Proof.Machine
end
section
/-!
PROOFS. Scope: weights merged into lace words (R325, R352).
-/
namespace Sys2Proof.Machine

section Weights

variable {s t u : State} {lid a w n base : Nat} {d bs : List Byte} {l : List (Nat × List Byte)}

/-! ### Bytes written to a core's lace memory, whatever words are in error (R352) -/

/-- Bytes stand in lace memory from `a` on, every other byte of the core is as it was, and errors are counted. -/
structure LaceWritten (lid a : Nat) (bs : List Byte) (s t : State) : Prop where
  inside : ∀ x, ((t.core lid).mem .lace).byte x = (((s.core lid).mem .lace).store a bs).byte x
  others : ∀ m, m ≠ .lace → (t.core lid).mem m = (s.core lid).mem m
  landed : t.getF pLanded = s.getF pLanded
  parts : t.parts = s.parts

theorem noted_countCorrected (lid : Nat) (m : CoreMem) (w : Nat) (s : State) : Noted s (s.countCorrected lid m w) := by
  have hplace : (corrFld lid m).Ok ∧ 8 * 0x01000000 ≤ (corrFld lid m).base := by
    cases m <;> simp only [corrFld, Fld.Ok, Fld.base, cLaceCorr, cTileCorr, cOpCorr, corePage] <;> omega
  obtain ⟨hok, habove⟩ := hplace
  exact (noted_incF hok (habove.trans' (by decide)) (.inr (habove.trans' (by decide))) 1 s).trans (noted_log ..)

theorem noted_correctPart (lid : Nat) (m : CoreMem) (w : Nat) (s : State) : Noted s (s.correctPart lid m w) := by
  rw [State.correctPart]
  split
  split
  · exact .refl s
  · exact noted_countCorrected ..

theorem noted_poisoned (n : Nat) (s : State) : Noted s (s.incF rPoisoned n) :=
  noted_incF (by simp [Fld.Ok, rPoisoned]) (by decide) (.inr (by decide)) n s

/-- Lace memory replaced by one with the bytes stored. -/
theorem laceWritten_setMem {f : Mem → Mem} (hf : ∀ x, (f ((s.core lid).mem .lace)).byte x = (((s.core lid).mem .lace).store a bs).byte x) :
    LaceWritten lid a bs s (s.modCore lid fun c => c.setMem .lace (f (c.mem .lace))) := by
  refine ⟨fun x => ?_, fun m hm => ?_, rfl, rfl⟩
  · rw [core_modCore_same, mem_setMem_same, hf]
  · rw [core_modCore_same, mem_setMem_ne _ _ hm]

theorem LaceWritten.after_noted (h : LaceWritten lid a bs s t) (k : Noted t u) : LaceWritten lid a bs s u :=
  ⟨fun x => by rw [k.core_eq, h.inside], fun m hm => by rw [k.core_eq, h.others m hm], k.landed.trans h.landed,
    by rw [k.rest, h.parts]⟩

theorem LaceWritten.of_noted (k : Noted s t) (h : LaceWritten lid a bs t u) : LaceWritten lid a bs s u :=
  ⟨fun x => by rw [h.inside, k.core_eq], fun m hm => by rw [h.others m hm, k.core_eq], h.landed.trans k.landed,
    by rw [h.parts, k.rest]⟩

theorem laceWritten_wr (lid a : Nat) (bs : List Byte) (s : State) : LaceWritten lid a bs s (s.wr lid .lace a bs) := by
  rw [State.wr]
  have hcorr := noted_forAll (fun w t => noted_correctPart lid .lace w t) s
    (l := ((s.core lid).mem .lace).partials (cmWb .lace) a bs.length (· == some .correctable))
  have hwrite := LaceWritten.of_noted hcorr (laceWritten_setMem (lid := lid) (a := a) (bs := bs) (f := Mem.write (cmWb .lace) a bs)
    fun x => Mem.byte_write _ _ _ _ _)
  split
  · exact hwrite
  · exact hwrite.after_noted (noted_poisoned ..)

theorem laceWritten_wrPoison (lid a : Nat) (bs : List Byte) (s : State) : LaceWritten lid a bs s (s.wrPoison lid .lace a bs) := by
  rw [State.wrPoison]
  exact (laceWritten_setMem (f := fun m => (m.store a bs).poison (cmWb .lace) a bs.length) fun x => Mem.byte_poison _ _ _ _ _).after_noted
    (noted_poisoned ..)

/-! ### A weight merged into a word (R325) -/

/-- The bits of a lace word that hold its weight. -/
def weightMask : W32 := 0x0001FFFE#32

theorem getLsbD_weightMask : ∀ b < 32, weightMask.getLsbD b = decide (1 ≤ b ∧ b ≤ 16) := by decide

/-- A lace word with the weight of another. -/
def withWeight (old new : W32) : W32 := (old &&& ~~~weightMask) ||| (new &&& weightMask)

theorem getLsbD_withWeight (old new : W32) {b : Nat} (hb : b < 32) :
    (withWeight old new).getLsbD b = if 1 ≤ b ∧ b ≤ 16 then new.getLsbD b else old.getLsbD b := by
  rw [withWeight, BitVec.getLsbD_or, BitVec.getLsbD_and, BitVec.getLsbD_and, BitVec.getLsbD_not, getLsbD_weightMask b hb]
  split
  · next h => simp [h]
  · next h => simp [h, hb]

/-- The bytes that the merge of a weight writes. -/
def State.mergedBytes (s : State) (lid a : Nat) (d : List Byte) : List Byte :=
  natLe 4 (withWeight (BitVec.ofNat 32 (s.rdNat lid .lace a 4)) (BitVec.ofNat 32 (leNat d))).toNat

theorem laceWritten_mergeWeight (lid a : Nat) (d : List Byte) (s : State) :
    LaceWritten lid a (s.mergedBytes lid a d) s (mergeWeight lid a d s) := by
  rw [mergeWeight]
  split
  · exact LaceWritten.of_noted (noted_correctPart ..) (laceWritten_wr ..)
  · exact laceWritten_wrPoison ..
  · exact laceWritten_wr ..

/-- Merging weights changes lace bytes of the words that it names alone. -/
structure Merged (lid base : Nat) (n : Nat) (s t : State) : Prop where
  outside : BytesOutside lid .lace base n s t
  landed : t.getF pLanded = s.getF pLanded
  parts : t.parts = s.parts

theorem Merged.trans (h : Merged lid base n s t) (k : Merged lid base n t u) : Merged lid base n s u :=
  ⟨fun m b hb => (k.outside m b hb).trans (h.outside m b hb), k.landed.trans h.landed, k.parts.trans h.parts⟩

theorem Merged.widen {base' n' : Nat} (h : Merged lid base n s t) (hlo : base' ≤ base) (hhi : base + n ≤ base' + n') :
    Merged lid base' n' s t := by
  refine ⟨fun m b hb => h.outside m b (hb.imp_right fun hb => ?_), h.landed, h.parts⟩
  omega

theorem length_mergedBytes (s : State) (lid a : Nat) (d : List Byte) : (s.mergedBytes lid a d).length = 4 := length_natLe ..

theorem merged_mergeWeight (lid a : Nat) (d : List Byte) (s : State) : Merged lid a 4 s (mergeWeight lid a d s) := by
  have hw := laceWritten_mergeWeight lid a d s
  refine ⟨fun m b hb => ?_, hw.landed, hw.parts⟩
  by_cases hm : m = .lace
  · subst hm
    rw [hw.inside]
    refine Mem.byte_store_outside _ ?_
    rw [length_mergedBytes]
    exact hb.resolve_left (by simp)
  · rw [hw.others m hm]

theorem lace_mergeWeight (lid w : Nat) (d : List Byte) (s : State) :
    (mergeWeight lid (4 * w) d s).lace lid w = withWeight (s.lace lid w) (BitVec.ofNat 32 (leNat d)) := by
  have hw := laceWritten_mergeWeight lid (4 * w) d s
  have hload : (mergeWeight lid (4 * w) d s).rd lid .lace (4 * w) 4 = s.mergedBytes lid (4 * w) d := by
    have hstore := Mem.load_store_same ((s.core lid).mem .lace) (4 * w) (s.mergedBytes lid (4 * w) d)
    rw [length_mergedBytes] at hstore
    exact (List.map_congr_left fun i _ => hw.inside (4 * w + i)).trans hstore
  rw [State.lace, State.rdNat, hload, State.mergedBytes, leNat_natLe, State.lace]
  apply BitVec.eq_of_toNat_eq
  rw [BitVec.toNat_ofNat, Nat.mod_mod_of_dvd _ (by decide), Nat.mod_eq_of_lt (BitVec.isLt _)]

/-- A word outside what was merged is as it was. -/
theorem Merged.lace_eq (h : Merged lid base n s t) (hw : 4 * w + 4 ≤ base ∨ base + n ≤ 4 * w) : t.lace lid w = s.lace lid w :=
  lace_eq_of_bytes fun i hi => h.outside .lace (4 * w + i) (.inr (by omega))

/-! ### A section of weights (R325) -/

/-- The weights of a section merged in turn, each into its word. -/
def mergeWeights (lid first : Nat) (l : List (Nat × List Byte)) (s : State) : State :=
  forAll l (fun x t => mergeWeight lid (4 * (first + x.1)) x.2 t) s

theorem merged_mergeWeights (hl : ∀ x ∈ l, x.1 < n) (lid first : Nat) (s : State) :
    Merged lid (4 * first) (4 * n) s (mergeWeights lid first l s) :=
  forAll_invariant (P := Merged lid (4 * first) (4 * n) s)
    (fun x hx t h => by
      have hlt := hl x hx
      exact h.trans ((merged_mergeWeight lid _ x.2 t).widen (by omega) (by omega)))
    ⟨fun _ _ _ => rfl, rfl, rfl⟩

theorem mergeWeights_cons (lid first : Nat) (y : Nat × List Byte) (l : List (Nat × List Byte)) (s : State) :
    mergeWeights lid first (y :: l) s = mergeWeights lid first l (mergeWeight lid (4 * (first + y.1)) y.2 s) := rfl

/-- The words that a list of weights does not name are as they were. -/
theorem lace_mergeWeights_other (hl : ∀ x ∈ l, first + x.1 ≠ w) (lid : Nat) (s : State) :
    (mergeWeights lid first l s).lace lid w = s.lace lid w := by
  refine forAll_invariant (P := fun t : State => t.lace lid w = s.lace lid w) (fun x hx t ht => ?_) rfl
  have hx := hl x hx
  rw [(merged_mergeWeight lid (4 * (first + x.1)) x.2 t).lace_eq (by omega), ht]

/-- Each word takes its own weight. -/
theorem lace_mergeWeights (hnd : (l.map Prod.fst).Nodup) (lid first : Nat) (s : State) : ∀ x ∈ l,
    (mergeWeights lid first l s).lace lid (first + x.1) = withWeight (s.lace lid (first + x.1)) (BitVec.ofNat 32 (leNat x.2)) := by
  induction l generalizing s with
  | nil => exact List.forall_mem_nil _
  | cons y l ih =>
    obtain ⟨hy, hnd⟩ := List.nodup_cons.1 hnd
    have hne : ∀ x ∈ l, x.1 ≠ y.1 := fun x hx hxy => hy (List.mem_map.2 ⟨x, hx, hxy⟩)
    have hhead := merged_mergeWeight lid (4 * (first + y.1)) y.2 s
    have hword := lace_mergeWeight lid (first + y.1) y.2 s
    rw [mergeWeights_cons]
    generalize mergeWeight lid (4 * (first + y.1)) y.2 s = t at hhead hword
    refine List.forall_mem_cons.2 ⟨?_, fun x hx => ?_⟩
    · rw [lace_mergeWeights_other (fun x hx => by have := hne x hx; omega), hword]
    · have hx' := hne x hx
      rw [ih hnd t x hx, hhead.lace_eq (by omega)]

end Weights

end Sys2Proof.Machine
end
section
/-!
PROOFS. Scope: O39, resets, DISARM and patches (R239, R266, R324-R326).
-/
namespace Sys2Proof.Machine

section Patches

variable {s t u : State} {i : Image} {e : Section} {h : Hold} {p k j n lid : Nat} {d : List Byte}

/-! ### PATCH (R325, R326) -/

/-- PATTERN reads PATCHING, and nothing has landed. -/
def State.beginPatch (s : State) : State := s.setF pPattern 5 |>.setF pLanded 0

/-- The patch waits for its partition's result end. -/
def State.duePatch (p : Nat) (s : State) : State := s.modPart p fun x => { x with patchDue := true, patchLeft := s.patchSections p }

theorem regsOnly_beginPatch (s : State) : RegsOnly [pPattern, pLanded] s s.beginPatch :=
  (regsOnly_setF _ _ pPattern_ok (by simp)).trans (regsOnly_setF _ _ pLanded_ok (by simp))

theorem beginPatch_reads (s : State) : s.beginPatch.getF pPattern = 5 ∧ s.beginPatch.getF pLanded = 0 := by
  have happ : pPattern.Apart pLanded := by simp [Fld.Apart, Fld.base, pPattern, pLanded]
  rw [State.beginPatch, getF_setF_apart _ _ _ pPattern_ok pLanded_ok happ, getF_setF_same _ _ pPattern_ok, getF_setF_same _ _ pLanded_ok]
  exact ⟨rfl, rfl⟩

/-- The sections that land for a partition are not what the patch's beginning writes. -/
theorem patchSections_beginPatch (s : State) (p : Nat) : s.beginPatch.patchSections p = s.patchSections p := by
  obtain ⟨hrest, honly⟩ := regsOnly_beginPatch s
  have hagreed : s.beginPatch.getF lAgreed = s.getF lAgreed :=
    honly _ lAgreed_ok (by simp [Fld.Apart, Fld.base, pPattern, pLanded, lAgreed])
  have hland : ∀ e, s.beginPatch.landing e = s.landing e := fun e => by
    rw [State.landing, State.landing, State.position, State.position, State.onF, State.onF, hagreed]
    rfl
  have hpat : s.beginPatch.pat = s.pat := rfl
  simp only [State.patchSections, hland, hpat]

theorem duePatch_part (p : Nat) (s : State) :
    (s.duePatch p).part p = { s.part p with patchDue := true, patchLeft := s.patchSections p } := part_modPart_same ..

theorem getF_duePatch (p : Nat) (f : Fld) (s : State) : (s.duePatch p).getF f = s.getF f := rfl

theorem duePatch_rest (p : Nat) (s : State) : s.duePatch p = { s with parts := (s.duePatch p).parts } := rfl

/-- Only PATTERN, PLANDED and the partitions change as a patch falls due. -/
theorem patchDue_frame (p : Nat) (s : State) : OnlyFields [pPattern, pLanded] s (s.beginPatch.duePatch p) ∧
    s.beginPatch.duePatch p = { s with regs := (s.beginPatch.duePatch p).regs, parts := (s.beginPatch.duePatch p).parts } := by
  obtain ⟨hrest, honly⟩ := regsOnly_beginPatch s
  generalize s.beginPatch = a at hrest honly
  refine ⟨fun f hf ha => (getF_duePatch p f a).trans (honly f hf ha), ?_⟩
  rw [duePatch_rest, hrest]

theorem finishPatch_of_waiting (hp : p < 8) (hw : s.patchWaits p = true) : s.finishPatch = s := by
  have hany : (List.range 8).any s.patchWaits = true := List.any_eq_true.2 ⟨p, List.mem_range.2 hp, hw⟩
  rw [State.finishPatch, hany, Bool.not_true, Bool.and_false]
  rfl

theorem patchParts_lt (hps : s.patchParts = [p]) : p < 8 := by
  have hmem : p ∈ s.patchParts := by simp [hps]
  exact List.mem_range.1 (List.mem_of_mem_filter hmem)

/-- PATCH of one partition that is not at rest. -/
theorem patchOp_of_one (hmay : PatMay s) (hok : s.mayPatch = true) (hps : s.patchParts = [p])
    (hlaunched : (s.part p).forwarded ≠ (s.part p).resultEnds) : patchOp s = s.beginPatch.duePatch p := by
  obtain ⟨hlim, hfatal⟩ := hmay
  have hpart := duePatch_part p s.beginPatch
  have hrest : (s.beginPatch.duePatch p).actAtRest p = s.beginPatch.duePatch p := actAtRest_of_launched (by
    rw [hpart]
    exact hlaunched)
  have hfin : (s.beginPatch.duePatch p).finishPatch = s.beginPatch.duePatch p :=
    finishPatch_of_waiting (patchParts_lt hps) (by rw [State.patchWaits, hpart, Bool.true_or])
  rw [patchOp, patCommand_acts hlim hfatal 4 hok]
  simp only [hps, forAll_cons, forAll_nil]
  exact (congrArg State.finishPatch hrest).trans hfin

/-! ### A section of weights lands (R325, R326) -/

/-- The payload's words, each with its place. -/
def wordsAt (d : List Byte) : List (Nat × List Byte) := (List.range (d.length / 4)).zip (pieces 4 d)

theorem length_pieces_four (hd : d.length % 4 = 0) : (pieces 4 d).length = d.length / 4 := by
  rw [length_pieces, ceilDiv]
  omega

theorem wordsAt_fst (hd : d.length % 4 = 0) : (wordsAt d).map Prod.fst = List.range (d.length / 4) :=
  List.map_fst_zip (by rw [length_pieces_four hd, List.length_range])

theorem wordsAt_lt (d : List Byte) : ∀ x ∈ wordsAt d, x.1 < d.length / 4 := fun _ hx =>
  List.mem_range.1 (List.of_mem_zip hx).1

theorem mem_wordsAt (hd : d.length % 4 = 0) (hj : j < d.length / 4) : (j, (d.drop (4 * j)).take 4) ∈ wordsAt d := by
  have hlen : j < (pieces 4 d).length := by rwa [length_pieces_four hd]
  have hpiece : (pieces 4 d)[j] = (d.drop (4 * j)).take 4 := by simp [pieces, Nat.mul_comm]
  refine List.mem_iff_getElem.2 ⟨j, by simpa [wordsAt] using ⟨hj, hlen⟩, ?_⟩
  simp only [wordsAt, List.getElem_zip, List.getElem_range, hpiece]

theorem landCore_weights (hkind : e.kind = kLace) (haddr : e.addr % 4 = 0) (d : List Byte) (lid : Nat) (s : State) :
    landCore true e d lid s = mergeWeights lid (e.addr / 4) (wordsAt d) s := by
  have hplace : ∀ n, e.addr + 4 * n = 4 * (e.addr / 4 + n) := fun n => by omega
  rw [landCore, if_neg (by rw [hkind]; decide), if_neg (by rw [hkind]; decide), if_pos hkind, if_pos rfl, mergeWeights, wordsAt]
  simp only [hplace]

theorem length_payload (s : State) (i : Image) (e : Section) : (s.payload i e).length = e.length := by
  simp [State.payload, Mem.load]

theorem landSection_weights (hi : i.kind = 1) (hkind : e.kind = kLace) (haddr : e.addr % 4 = 0) (hland : s.landing e = [lid]) :
    s.landSection i e = mergeWeights lid (e.addr / 4) (wordsAt (s.payload i e)) s := by
  have hcore : isCoreKind e.kind = true := by
    rw [hkind]
    decide
  rw [State.landSection, if_pos hcore, hland, forAll_cons, forAll_nil, hi]
  exact landCore_weights hkind haddr _ lid s

/-- A section of weights, once it has landed, counts, and leaves those that are still to land. -/
def State.landWeights (lid k : Nat) (i : Image) (e : Section) (s : State) : State :=
  ((mergeWeights lid (e.addr / 4) (wordsAt (s.payload i e)) (s.noteSection i e)).incF pLanded 1).modPart e.part fun x =>
    { x with patchLeft := (s.part e.part).patchLeft.filter (· != k) }

theorem sectionLandingOp_of_weights (hpat : s.getF pPattern = 5) (hver : s.pat.verified = some i) (hi : i.kind = 1)
    (hsec : i.sections[k]? = some e) (hkind : e.kind = kLace) (haddr : e.addr % 4 = 0) (hhold : (s.part e.part).hold = some h)
    (hpatch : h.patch = true) (hk : k ∈ (s.part e.part).patchLeft) (hmore : ((s.part e.part).patchLeft.filter (· != k)) ≠ [])
    (hreason : landReason s i e = 0) (hland : s.landing e = [lid]) : sectionLandingOp k s = s.landWeights lid k i e := by
  have hnoted := noted_noteSection i e s
  have hsection := landSection_weights hi hkind haddr ((hnoted.landing_eq e).trans hland)
  rw [hnoted.payload_eq] at hsection
  have hreason' := (hnoted.landReason_eq i e).trans hreason
  have hempty : ((s.part e.part).patchLeft.filter (· != k)).isEmpty = false := by simpa using hmore
  have hdispatch : sectionLandingOp k s = patchLanding k s := by
    rw [sectionLandingOp, if_neg (by omega), if_pos hpat]
  rw [hdispatch, State.landWeights]
  simp only [patchLanding, hver, hsec, hhold, hpatch, List.contains_eq_mem, hk, hreason', hsection, hempty]
  rfl

/-- What it leaves: the weights in their words, the count, and the sections still to land. -/
theorem landWeights_effect (haddr : e.addr % 4 = 0) (hlen : e.length % 64 = 0) (lid k : Nat) (i : Image) (s : State) :
    (s.landWeights lid k i e).getF pLanded = satAdd 32 (s.getF pLanded) 1 ∧
    (∀ j b, j < e.length / 4 → b < 32 → ((s.landWeights lid k i e).lace lid (e.addr / 4 + j)).getLsbD b =
      if 1 ≤ b ∧ b ≤ 16 then (BitVec.ofNat 32 (leNat (((s.payload i e).drop (4 * j)).take 4))).getLsbD b
      else (s.lace lid (e.addr / 4 + j)).getLsbD b) ∧
    BytesOutside lid .lace e.addr e.length s (s.landWeights lid k i e) ∧
    ((s.landWeights lid k i e).part e.part).patchLeft = (s.part e.part).patchLeft.filter (· != k) := by
  have hnoted := noted_noteSection i e s
  have hlength := length_payload s i e
  have hfour : (s.payload i e).length % 4 = 0 := by omega
  rw [State.landWeights]
  generalize s.noteSection i e = a at hnoted
  have hmerged := merged_mergeWeights (wordsAt_lt (s.payload i e)) lid (e.addr / 4) a
  have hwords := lace_mergeWeights (by rw [wordsAt_fst hfour]; exact List.nodup_range) lid (e.addr / 4) a (l := wordsAt (s.payload i e))
  generalize mergeWeights lid (e.addr / 4) (wordsAt (s.payload i e)) a = m at hmerged hwords
  have hcore : ∀ c, ((m.incF pLanded 1).modPart e.part fun x =>
      { x with patchLeft := (s.part e.part).patchLeft.filter (· != k) }).core c = m.core c := fun c => by
    rw [core_modPart, core_incF]
  refine ⟨?_, fun j b hj hb => ?_, fun n b hb => ?_, by rw [part_modPart_same]⟩
  · rw [getF_modPart, getF_incF_same _ _ pLanded_ok, hmerged.landed, hnoted.landed]
    rfl
  · have hword := hwords _ (mem_wordsAt hfour (j := j) (by omega))
    rw [lace_congr (hcore lid), hword, getLsbD_withWeight _ _ hb, lace_congr (hnoted.core_eq lid)]
  · rw [hcore, hmerged.outside n b (hb.imp_right fun hb => by omega), hnoted.core_eq]

end Patches

/-- Settles O39: RESET and DISARM abandon a pour alike (`abandonPour_effect`); a reset's effect on its partition
(`partReset_resetPart`), on each in turn under DISARM (`disarm_effect`), and its completion, armed or disarming
(`resetComplete_armed`, `resetComplete_disarmed`); PATCH marks its partition (`patchOp_of_one`), and a section's weights are
merged word by word (`lace_mergeWeights`). -/
theorem resetsAndPatches : Obligations.ResetsAndPatches := by
  unfold Obligations.ResetsAndPatches
  intro s
  refine ⟨fun hmay hpour mask => ?_, fun p hmay hpat hp hrec hst => ?_, fun hmay hpat hused => ?_, fun p hp hst hbusy => ⟨?_, ?_⟩,
    fun p hmay hok hps hlaunched => ?_, ?_⟩
  · obtain ⟨hreset, hdisarm⟩ := commands_of_pouring hmay hpour mask
    obtain ⟨hpattern, hreason, hcores, hhbm⟩ := abandonPour_effect (v := 0x12) (by decide) s
    have hfirst : exec (.partitionReset mask) s = .next (partitionResetOp mask s) := rfl
    have hsecond : exec .disarm s = .next (disarmOp s) := rfl
    rw [hreset] at hfirst
    rw [hdisarm] at hsecond
    exact ⟨_, _, hfirst, hsecond, rfl, hpattern, hreason, hcores, hhbm⟩
  · have hreset := partReset_resetPart hp s
    have hexec : exec (.partitionReset (oneMask p)) s = .next (partitionResetOp (oneMask p) s) := rfl
    rw [partitionResetOp_one hmay hp hpat hrec hst] at hexec
    refine ⟨_, hexec, hreset.state, hreset.valid, fun c q hc => ?_, fun c hc => ?_,
      fun c _ hc => hreset.others c hc, hreset.states, hreset.hbm⟩
    · exact ⟨((hreset.reset c hc).queues q).1, ((hreset.reset c hc).queues q).2, (hreset.reset c hc).arrived⟩
    · exact ⟨(hreset.reset c hc).mems, (hreset.reset c hc).moves, (hreset.reset c hc).phase, hreset.seeds c⟩
  · obtain ⟨q, hq, hne⟩ := hused
    have hexec : exec .disarm s = .next (disarmOp s) := rfl
    exact ⟨_, hexec, disarm_effect hmay hpat hq hne⟩
  · intro hdis harm hunits
    have hexec : exec (.resetComplete p) s = .next (resetCompleteOp p s) := guarded_of (decide_eq_true hp) _ _
    obtain ⟨hstate, hdies, hrest, hstarted⟩ := resetComplete_armed hp hst hbusy hdis harm hunits
    exact ⟨_, hexec, hstate, hdies, hrest, fun c hc => ⟨(hstarted c hc).ctrs, fun q hu =>
      ⟨((hstarted c hc).queues q).pc hu, ((hstarted c hc).queues q).state hu⟩⟩⟩
  · intro hdis hlast
    have hexec : exec (.resetComplete p) s = .next (resetCompleteOp p s) := guarded_of (decide_eq_true hp) _ _
    exact ⟨_, hexec, resetComplete_disarmed hst hbusy hdis hp hlast⟩
  · obtain ⟨hfive, hzero⟩ := beginPatch_reads s
    have hpart := duePatch_part p s.beginPatch
    have hexec : exec .patch s = .next (patchOp s) := rfl
    rw [patchOp_of_one hmay hok hps hlaunched] at hexec
    obtain ⟨honly, hrest⟩ := patchDue_frame p s
    exact ⟨_, hexec, (getF_duePatch ..).trans hfive, (getF_duePatch ..).trans hzero, by rw [hpart],
      by rw [hpart, patchSections_beginPatch], honly, hrest⟩
  · intro i k e h lid hpat hver hi hsec hkind hlen haddr hhold hpatch hk hmore hreason hland
    have hexec : exec (.sectionLanding k) s = .next (sectionLandingOp k s) := rfl
    rw [sectionLandingOp_of_weights hpat hver hi hsec hkind haddr hhold hpatch hk hmore hreason hland] at hexec
    exact ⟨_, hexec, landWeights_effect haddr hlen lid k i s⟩

end Sys2Proof.Machine
end
